-- ==== Sys2Proof/Word.lean ====
section
/-!
DEFINITION. The word types of the Idtor (R7, R8): the 64-bit control-processor word, the
32-bit lane word and instruction word, the byte, and the sparse map in which the state keeps
every large array (keys strictly rising, no entry equal to the array's default value).
-/

namespace Sys2Proof

/-- A control-processor scalar word (R106). -/
abbrev Word := BitVec 64

/-- A lane word, an SRF word and an instruction word (R7). -/
abbrev Word32 := BitVec 32

/-- A byte (R7). -/
abbrev Byte := BitVec 8

/-- A sparse array: (index, value) pairs with strictly rising indexes. An index that is not
listed holds the array's default value, which every read and write names. -/
abbrev SMap (α : Type) := List (Nat × α)

end Sys2Proof
end

