-- ==== Sys2Proof/Config.lean ====
section
/-!
DEFINITION. What one part fixes and what the manual leaves open: constants without a body, so that no
proof can lean on a value of theirs. A free value is a constant applied to the state's counter
`free`, which advances each time one is taken (log 6).
-/

namespace Sys2Proof.Config

open Sys2Proof

/-- A value that the manual leaves open, the n-th one taken (log 6). -/
opaque freeWord : Nat → Word

/-- The channel, 0 to 95 after reduction, of a line of a die (R37, R401; log 7). -/
opaque channelHash : Nat → Nat → Nat

/-- The stack of its die, 0 to 2 after reduction, that holds a pairing group (R300, R401; log 7). -/
opaque groupStack : Nat → Nat

/-- The row and bank class of a line within its stack, by which patrol scores rows (R393, R401). -/
opaque rowOf : Nat → Nat

/-- The 2 MiB granules of device memory that a row of a die's stack lies in: die, stack, row (R393, R401; log 7). -/
opaque rowGrans : Nat → Nat → Nat → List Nat

/-- The host's answer to an ATS Translation Request of an engine: the n-th one asked, PASID and
address (R313, R377; log 1). None: the page is absent; else the base, size, R and W. -/
opaque atsReply : Nat → BitVec 20 → Word → Option (Nat × BitVec 2 × Bool × Bool)

/-- Whether a signature of the firmware's is valid over a message: the key and the bytes (log 13). -/
opaque signatureOk : List Byte → List Byte → Bool

/-- Whether a record written to DTOKEN is a return record, and the levels that a debug token names, two bits a
partition: neither layout is stated (R395; log 13). -/
opaque isReturn : List Byte → Bool
opaque tokenWord : List Byte → Word

/-- The SHA-384 digest of a message (R399; log 13). -/
opaque digest : List Byte → List Byte

/-- A byte of an attestation report: what the report holds, the n-th report made, and the offset (R399;
log 13). -/
opaque reportByte : List Byte → Nat → Nat → Byte

/-- The domain tag of the partition that a core of another package belongs to, 0 for none, at an ac: package,
core in the package, ac (R35, R287; log 129). -/
opaque remoteTag : Nat → Nat → Nat → Byte

/-- The vendor's key (R395, R398; log 13). -/
opaque vendorKey : List Byte

end Sys2Proof.Config
end

