-- ==== Sys2Proof/Syntax.lean ====
section
/-!
DEFINITION. The instructions and events of the Idtor: one constructor of `Instr` for every row
of the table of operations and events. A control-slot, kernel-slot or routine-word constructor
holds the fields of its encoding (R72 to R91); an event's constructor names the unit it happens
in (a context is 4 x core + context, a core is its global index, R5) and what the outside
world brings with it.
-/

namespace Sys2Proof

/-- An immediate field of `n` bits and, where its bundle carries an extension header, the byte
Ek that widens it (R76). -/
structure Imm (n : Nat) where
  lo  : BitVec n
  ext : Option Byte
  deriving DecidableEq, Repr

/-- The six engine queues of a context (R17, R166). -/
inductive Queue where
  | sld | sst | krn | mat | tre | rem
  deriving DecidableEq, Repr

/-- The five drain scopes, each holding the one before it (R128, R290). -/
inductive Scope where
  | core | die | pkg | domain | sys
  deriving DecidableEq, Repr

/-- The ten atomic operations (R124). -/
inductive AmoOp where
  | add | swap | cas | minI | minN | maxI | maxN | and | or | xor
  deriving DecidableEq, Repr

/-- The memory-side reductions of a scatter (R146). -/
inductive RedOp where
  | addI32 | addN32 | addI64 | addXa256 | addF32
  deriving DecidableEq, Repr

/-- The operations a semaphore file performs (Table 5.12). -/
inductive SemOp where
  | add | wait | acq | rel | post | read
  deriving DecidableEq, Repr

/-- One move of a move pair (Table 3.11). -/
structure Move where
  guard : Bool
  sel   : BitVec 3
  src   : BitVec 6
  dst   : BitVec 6
  imm   : BitVec 15
  deriving DecidableEq, Repr

/-- The sequencer's own operations, of slot classes C and B (Tables 3.8, 3.9). -/
inductive SeqOp where
  | pset (k : BitVec 3) (a : BitVec 7)
  | psetImm (k : BitVec 3) (a : BitVec 7) (lit : BitVec 16)
  | psetHi (k : BitVec 3) (a : BitVec 7) (lit : BitVec 16)
  | psetAdd (k : BitVec 3) (a : BitVec 7) (lit : BitVec 16)
  | mpost (r : BitVec 8) (n : BitVec 2) (d e : BitVec 5)
  | loop (c : BitVec 2) (n : BitVec 11) (l : BitVec 12)
  | loopP (c : BitVec 2) (p : BitVec 3) (l : BitVec 12)
  | bra (y : BitVec 1) (q : BitVec 3) (i : BitVec 18)
  | kJmp (i : BitVec 18)
  | kend
  | ktrap (c : BitVec 16)
  | idle (n : BitVec 12)
  | mwaitk (q : BitVec 3) (p : BitVec 3)
  deriving DecidableEq, Repr

/-- A routine word (R88, Tables 3.11 and 3.13). -/
inductive RWord where
  | pair (m1 m2 : Move)
  | loopr (k : BitVec 2) (port : BitVec 6) (len : BitVec 12)
  | brg (g : BitVec 3) (disp : BitVec 13)
  | jmpr (disp : BitVec 13)
  | setw (guard : Option (BitVec 3)) (port : BitVec 6) (imm : Word32)
  deriving DecidableEq, Repr

/-- What the ECC check of one memory line finds (R393, R394). -/
inductive Ecc where
  | clean | corrected | uncorrectable
  deriving DecidableEq, Repr

/-- The translation mode of a PASID (R377). -/
inductive PasidMode where
  | none | walk | ats
  deriving DecidableEq, Repr

/-- The host's answer to an ATS Translation Request (R313, R377). -/
structure AtsReply where
  present : Bool
  base    : Nat
  size    : BitVec 2
  read    : Bool
  write   : Bool
  deriving DecidableEq, Repr

/-- Where the scheduler takes launch records from (R275): a hardware queue slot, or the
cast-on queue and spill ring of a task. -/
inductive Source where
  | userQueue (slot : Nat)
  | task (task : Nat)
  deriving DecidableEq, Repr

/-- A request that arrives over the Causeway from another package (R306). -/
inductive RemoteReq where
  | load (addr len : Nat)
  | store (addr : Nat) (bytes : List Byte) (poison : Bool)
  | amo (op : AmoOp) (dword : Bool) (addr : Nat) (operand cmp : Word)
  | reduce (op : RedOp) (addr : Nat) (bytes : List Byte) (poison : Bool)
  | sem (op : SemOp) (tag : Byte) (core index : Nat) (v : Word32) (from_ : Nat) (prio : Nat)
  deriving DecidableEq, Repr

/-- What a debug request asks of a core (R397). -/
inductive DebugAct where
  | halt | inspect | resume | counters | trace
  deriving DecidableEq, Repr

/-- What a boot meets: the image verifies, the firmware runs, the links and stacks train, the Causeway ports that the
cabling names train (Table 25.10). -/
structure BringUp where
  image    : Bool
  firmware : Bool
  links    : Bool
  ports    : Bool
  deriving DecidableEq, Repr

/-- Every operation and event of the part, one constructor per row of the opcode table. -/
inductive Instr where
  /-- ADD (R109): writes the 64-bit wrapping sum of xa and xb to xd. -/
  | add (d : BitVec 5) (a : BitVec 5) (b : BitVec 5)
  /-- SUB (R109): writes the 64-bit wrapping difference xa minus xb to xd. -/
  | sub (d : BitVec 5) (a : BitVec 5) (b : BitVec 5)
  /-- AND (R109): writes the bitwise AND of xa and xb to xd. -/
  | and_ (d : BitVec 5) (a : BitVec 5) (b : BitVec 5)
  /-- OR (R109): writes the bitwise OR of xa and xb to xd. -/
  | or_ (d : BitVec 5) (a : BitVec 5) (b : BitVec 5)
  /-- XOR (R109): writes the bitwise XOR of xa and xb to xd. -/
  | xor (d : BitVec 5) (a : BitVec 5) (b : BitVec 5)
  /-- ANDN (R109): writes xa AND NOT xb to xd. -/
  | andn (d : BitVec 5) (a : BitVec 5) (b : BitVec 5)
  /-- SHL (R109): shifts xa left by xb[5:0] into xd. -/
  | shl (d : BitVec 5) (a : BitVec 5) (b : BitVec 5)
  /-- SHR (R109): shifts xa right logically by xb[5:0] into xd. -/
  | shr (d : BitVec 5) (a : BitVec 5) (b : BitVec 5)
  /-- SRA (R109): shifts xa right arithmetically by xb[5:0] into xd. -/
  | sra (d : BitVec 5) (a : BitVec 5) (b : BitVec 5)
  /-- ROL (R109): rotates xa left by xb[5:0] into xd. -/
  | rol (d : BitVec 5) (a : BitVec 5) (b : BitVec 5)
  /-- MIN_I (R109): writes the smaller of xa and xb as i64. -/
  | minI (d : BitVec 5) (a : BitVec 5) (b : BitVec 5)
  /-- MIN_N (R109): writes the smaller of xa and xb as n64. -/
  | minN (d : BitVec 5) (a : BitVec 5) (b : BitVec 5)
  /-- MAX_I (R109): writes the larger of xa and xb as i64. -/
  | maxI (d : BitVec 5) (a : BitVec 5) (b : BitVec 5)
  /-- MAX_N (R109): writes the larger of xa and xb as n64. -/
  | maxN (d : BitVec 5) (a : BitVec 5) (b : BitVec 5)
  /-- CLZ (R109): writes the count of leading zero bits of xa. -/
  | clz (d : BitVec 5) (a : BitVec 5)
  /-- POPC (R109): writes the population count of xa. -/
  | popc (d : BitVec 5) (a : BitVec 5)
  /-- SEL (R109): writes xa if xc is nonzero, else xb. -/
  | sel (d : BitVec 5) (a : BitVec 5) (b : BitVec 5) (c : BitVec 5)
  /-- ADDI (R110): adds the sign-extended immediate to xa. -/
  | addi (d : BitVec 5) (a : BitVec 5) (i : Imm 16)
  /-- ANDI (R110): aNDs xa with the sign-extended immediate. -/
  | andi (d : BitVec 5) (a : BitVec 5) (i : Imm 16)
  /-- ORI (R110): oRs xa with the zero-extended immediate. -/
  | ori (d : BitVec 5) (a : BitVec 5) (i : Imm 16)
  /-- XORI (R110): xORs xa with the zero-extended immediate. -/
  | xori (d : BitVec 5) (a : BitVec 5) (i : Imm 16)
  /-- SHLI (R111): shifts xa left by an immediate amount. -/
  | shli (d : BitVec 5) (a : BitVec 5) (n : BitVec 6)
  /-- SHRI (R111): shifts xa right logically by an immediate amount. -/
  | shri (d : BitVec 5) (a : BitVec 5) (n : BitVec 6)
  /-- SRAI (R111): shifts xa right arithmetically by an immediate amount. -/
  | srai (d : BitVec 5) (a : BitVec 5) (n : BitVec 6)
  /-- ROLI (R111): rotates xa left by an immediate amount. -/
  | roli (d : BitVec 5) (a : BitVec 5) (n : BitVec 6)
  /-- LDI (R112): writes imm16 shifted to halfword k into xd, zeroing the rest. -/
  | ldi (d : BitVec 5) (k : BitVec 2) (i : BitVec 16)
  /-- LDI_KEEP (R112): replaces halfword k of xd with imm16, keeping other bits. -/
  | ldiKeep (d : BitVec 5) (k : BitVec 2) (i : BitVec 16)
  /-- LDI_64 (R112): writes the 64-bit literal held in slots 2 and 3 of a literal-header bundle to xd. -/
  | ldi64 (d : BitVec 5) (lit : Word)
  /-- CMP (R113): sets xd to 1 if xa and xb meet the condition, else 0. -/
  | cmp (d : BitVec 5) (a : BitVec 5) (b : BitVec 5) (c : BitVec 3)
  /-- CMPI (R113): sets xd to 1 if xa and the sign-extended immediate meet the condition, else 0. -/
  | cmpi (d : BitVec 5) (a : BitVec 5) (c : BitVec 3) (i : Imm 13)
  /-- MUL (R114): writes the low 64 bits of xa times xb. -/
  | mul (d : BitVec 5) (a : BitVec 5) (b : BitVec 5)
  /-- MULH_I (R114): writes the high 64 bits of the signed 128-bit product. -/
  | mulhI (d : BitVec 5) (a : BitVec 5) (b : BitVec 5)
  /-- MULH_N (R114): writes the high 64 bits of the unsigned 128-bit product. -/
  | mulhN (d : BitVec 5) (a : BitVec 5) (b : BitVec 5)
  /-- DIV_I (R114): writes the signed truncating quotient, with defined results for zero and overflow. -/
  | divI (d : BitVec 5) (a : BitVec 5) (b : BitVec 5)
  /-- DIV_N (R114): writes the unsigned quotient, all ones for a zero divisor. -/
  | divN (d : BitVec 5) (a : BitVec 5) (b : BitVec 5)
  /-- REM_I (R114): writes the signed remainder with the dividend's sign. -/
  | remI (d : BitVec 5) (a : BitVec 5) (b : BitVec 5)
  /-- REM_N (R114): writes the unsigned remainder. -/
  | remN (d : BitVec 5) (a : BitVec 5) (b : BitVec 5)
  /-- BFX_I (R115): extracts a sign-extended bit field of xa described by xb. -/
  | bfxI (d : BitVec 5) (a : BitVec 5) (b : BitVec 5)
  /-- BFX_N (R115): extracts a zero-extended bit field of xa described by xb. -/
  | bfxN (d : BitVec 5) (a : BitVec 5) (b : BitVec 5)
  /-- BFI (R115): inserts the low bits of xa into a field of xd described by xb. -/
  | bfi (d : BitVec 5) (a : BitVec 5) (b : BitVec 5)
  /-- FSHL (R115): writes the high 64 bits of xa::xc shifted left by n. -/
  | fshl (d : BitVec 5) (a : BitVec 5) (b : BitVec 5) (c : BitVec 5)
  /-- FSHR (R115): writes the low 64 bits of xa::xc shifted right by n. -/
  | fshr (d : BitVec 5) (a : BitVec 5) (b : BitVec 5) (c : BitVec 5)
  /-- BFX_I_IMM (R116): extracts a sign-extended bit field with immediate offset and width. -/
  | bfxIImm (d : BitVec 5) (a : BitVec 5) (w : BitVec 6) (o : BitVec 6)
  /-- BFX_N_IMM (R116): extracts a zero-extended bit field with immediate offset and width. -/
  | bfxNImm (d : BitVec 5) (a : BitVec 5) (w : BitVec 6) (o : BitVec 6)
  /-- BFI_IMM (R116): inserts a bit field with immediate offset and width. -/
  | bfiImm (d : BitVec 5) (a : BitVec 5) (w : BitVec 6) (o : BitVec 6)
  /-- LD (R121): loads s bytes through a handle at an immediate offset into xd. -/
  | ld (d : BitVec 5) (h : BitVec 4) (s : BitVec 3) (i : Imm 14)
  /-- LDX (R121): loads s bytes through a handle at a scaled register offset into xd. -/
  | ldx (d : BitVec 5) (h : BitVec 4) (s : BitVec 3) (b : BitVec 5) (c : BitVec 2)
  /-- ST (R121): stores the low s bytes of a register through a handle at an immediate offset. -/
  | st (d : BitVec 5) (h : BitVec 4) (s : BitVec 3) (i : Imm 14)
  /-- STX (R121): stores the low s bytes of a register through a handle at a scaled register offset. -/
  | stx (d : BitVec 5) (h : BitVec 4) (s : BitVec 3) (b : BitVec 5) (c : BitVec 2)
  /-- LD_ACQ (R122): loads as LD and orders every later access of the context after it. -/
  | ldAcq (d : BitVec 5) (h : BitVec 4) (s : BitVec 3) (i : Imm 14)
  /-- ST_REL (R122): stores as ST only after every earlier access of the context has performed. -/
  | stRel (d : BitVec 5) (h : BitVec 4) (s : BitVec 3) (i : Imm 14)
  /-- AMO_ADD (R124): atomically adds xb to memory at its place and returns the old value. -/
  | amoAdd (d : BitVec 5) (a : BitVec 5) (b : BitVec 5) (h : BitVec 4) (w : BitVec 1)
  /-- AMO_SWAP (R124): atomically swaps xb with memory and returns the old value. -/
  | amoSwap (d : BitVec 5) (a : BitVec 5) (b : BitVec 5) (h : BitVec 4) (w : BitVec 1)
  /-- AMO_CAS (R124): atomically writes xb if memory equals xd and returns the old value. -/
  | amoCas (d : BitVec 5) (a : BitVec 5) (b : BitVec 5) (h : BitVec 4) (w : BitVec 1)
  /-- AMO_MIN_I (R124): atomically stores the signed minimum and returns the old value. -/
  | amoMinI (d : BitVec 5) (a : BitVec 5) (b : BitVec 5) (h : BitVec 4) (w : BitVec 1)
  /-- AMO_MIN_N (R124): atomically stores the unsigned minimum and returns the old value. -/
  | amoMinN (d : BitVec 5) (a : BitVec 5) (b : BitVec 5) (h : BitVec 4) (w : BitVec 1)
  /-- AMO_MAX_I (R124): atomically stores the signed maximum and returns the old value. -/
  | amoMaxI (d : BitVec 5) (a : BitVec 5) (b : BitVec 5) (h : BitVec 4) (w : BitVec 1)
  /-- AMO_MAX_N (R124): atomically stores the unsigned maximum and returns the old value. -/
  | amoMaxN (d : BitVec 5) (a : BitVec 5) (b : BitVec 5) (h : BitVec 4) (w : BitVec 1)
  /-- AMO_AND (R124): atomically ANDs xb into memory and returns the old value. -/
  | amoAnd (d : BitVec 5) (a : BitVec 5) (b : BitVec 5) (h : BitVec 4) (w : BitVec 1)
  /-- AMO_OR (R124): atomically ORs xb into memory and returns the old value. -/
  | amoOr (d : BitVec 5) (a : BitVec 5) (b : BitVec 5) (h : BitVec 4) (w : BitVec 1)
  /-- AMO_XOR (R124): atomically XORs xb into memory and returns the old value. -/
  | amoXor (d : BitVec 5) (a : BitVec 5) (b : BitVec 5) (h : BitVec 4) (w : BitVec 1)
  /-- LDL (R126): loads from CP local memory or the SRF window at xa plus offset. -/
  | ldl (d : BitVec 5) (a : BitVec 5) (p : BitVec 1) (s : BitVec 3) (o : Imm 12)
  /-- STL (R126): stores to CP local memory or the SRF window, updating poison marks. -/
  | stl (d : BitVec 5) (a : BitVec 5) (p : BitVec 1) (s : BitVec 3) (o : Imm 12)
  /-- XLATE (R117): starts a translation of xa with an intent and makes the handle PENDING. -/
  | xlate (n : BitVec 4) (a : BitVec 5) (t : BitVec 2)
  /-- HINV (R119): makes a handle INVALID. -/
  | hinv (n : BitVec 4)
  /-- HINFO (R119): returns a handle's page, size, state, permissions and generation. -/
  | hinfo (d : BitVec 5) (n : BitVec 4)
  /-- DRAIN (R129): holds later bundles until the context's covered work has performed at the scope. -/
  | drain (s : BitVec 3)
  /-- DRAIN_FLAG (R129): posts a REM command whose flag store performs after covered work is visible at the scope. -/
  | drainFlag (d : BitVec 5) (a : BitVec 5) (b : BitVec 5) (w : BitVec 1) (h : BitVec 4) (s : BitVec 3)
  /-- SEM_ADD (R163): atomically adds v to a semaphore and returns the old value. -/
  | semAdd (d : BitVec 5) (a : BitVec 5) (b : BitVec 5) (i : BitVec 6) (g : BitVec 1)
  /-- SEM_WAIT (R163): blocks until the semaphore is at least v, then subtracts v as an acquire. -/
  | semWait (d : BitVec 5) (a : BitVec 5) (b : BitVec 5) (i : BitVec 6) (g : BitVec 1)
  /-- SEM_ACQ (R163): waits for and takes one unit, recording the owner. -/
  | semAcq (d : BitVec 5) (a : BitVec 5) (i : BitVec 6) (g : BitVec 1)
  /-- SEM_REL (R163): adds one to an owned semaphore as a release and clears the owner. -/
  | semRel (a : BitVec 5) (i : BitVec 6) (g : BitVec 1)
  /-- SEM_POST (R163): adds v to a semaphore as a release. -/
  | semPost (a : BitVec 5) (b : BitVec 5) (i : BitVec 6) (g : BitVec 1)
  /-- SEM_READ (R163): returns the semaphore's value. -/
  | semRead (d : BitVec 5) (a : BitVec 5) (b : BitVec 5) (i : BitVec 6) (g : BitVec 1)
  /-- MB_RD (R165): blocks while the mailbox is empty, then reads it and sets it empty. -/
  | mbRd (d : BitVec 5) (m : BitVec 4)
  /-- MB_WR (R165): blocks while the mailbox is full, then writes xa and sets it full. -/
  | mbWr (a : BitVec 5) (m : BitVec 4)
  /-- MB_PROBE (R165): returns whether the mailbox is full. -/
  | mbProbe (d : BitVec 5) (a : BitVec 5) (b : BitVec 5) (m : BitVec 4)
  /-- MILE_WAIT (R166): blocks until a milestone counter reaches xa and acquires the commands' effects. -/
  | mileWait (a : BitVec 5) (q : BitVec 3)
  /-- MILE_READ (R166): returns a milestone counter. -/
  | mileRead (d : BitVec 5) (q : BitVec 3)
  /-- MILE_ARM (R166): arms a queue's milestone with xa for a user-level interrupt. -/
  | mileArm (a : BitVec 5) (q : BitVec 3)
  /-- SBIND (R143): binds a kernel stream to a window range with a direction and lane map. -/
  | sbind (a : BitVec 5) (b : BitVec 5) (s : BitVec 4) (r : BitVec 3) (m : BitVec 1)
  /-- SLOAD (R144): posts a descriptor-driven load from memory or the weight store into the SRF. -/
  | sload (d : BitVec 5) (a : BitVec 5) (b : BitVec 5)
  /-- SGATHER (R146): posts a gather of indexed rows into the SRF. -/
  | sgather (d : BitVec 5) (a : BitVec 5) (b : BitVec 5) (c : BitVec 5)
  /-- SSTORE (R146): posts a store of SRF data to one or several destinations. -/
  | sstore (d : BitVec 5) (a : BitVec 5) (b : BitVec 5) (c : BitVec 5) (n : BitVec 3)
  /-- SSCATTER (R146): posts a plain scatter of SRF rows to indexed memory rows. -/
  | sscatter (d : BitVec 5) (a : BitVec 5) (b : BitVec 5) (c : BitVec 5)
  /-- SSCATTER_ADD_I32 (R146): posts a scatter that adds i32 elements at the controllers. -/
  | sscatterAddI32 (d : BitVec 5) (a : BitVec 5) (b : BitVec 5) (c : BitVec 5)
  /-- SSCATTER_ADD_N32 (R146): posts a scatter that adds n32 elements at the controllers. -/
  | sscatterAddN32 (d : BitVec 5) (a : BitVec 5) (b : BitVec 5) (c : BitVec 5)
  /-- SSCATTER_ADD_I64 (R146): posts a scatter that adds i64 elements at the controllers. -/
  | sscatterAddI64 (d : BitVec 5) (a : BitVec 5) (b : BitVec 5) (c : BitVec 5)
  /-- SSCATTER_ADD_XA256 (R146): posts a scatter that adds XA256 elements at the controllers. -/
  | sscatterAddXa256 (d : BitVec 5) (a : BitVec 5) (b : BitVec 5) (c : BitVec 5)
  /-- SSCATTER_ADD_F32 (R146): posts a scatter that adds f32 elements with one rounding each at the controllers. -/
  | sscatterAddF32 (d : BitVec 5) (a : BitVec 5) (b : BitVec 5) (c : BitVec 5)
  /-- SPAIR (R146): posts a paired store of plain and transposed 4 KiB blocks, each pair as one store. -/
  | spair (d : BitVec 5) (a : BitVec 5) (b : BitVec 5) (c : BitVec 5)
  /-- SCOPY (R148): posts a line-by-line copy between memory and the SRF per a copy record. -/
  | scopy (d : BitVec 5) (a : BitVec 5) (b : BitVec 5)
  /-- KRUN (R150): reads a kernel-table entry and posts the kernel with a copy of the stream bindings. -/
  | krun (d : BitVec 5) (a : BitVec 5) (b : BitVec 5)
  /-- KCTL_PREFETCH (R153): posts a load of a kernel image into kernel code memory. -/
  | kctlPrefetch (d : BitVec 5) (a : BitVec 5)
  /-- MCALL (R154): posts a matrix command running a routine with a parameter block and predecessors. -/
  | mcall (d : BitVec 5) (a : BitVec 5) (b : BitVec 5) (c : BitVec 5) (n : BitVec 2)
  /-- MROUT (R156): posts a command that installs routine words into the routine store. -/
  | mrout (d : BitVec 5) (a : BitVec 5) (b : BitVec 5)
  /-- WSCTL_LOAD (R157): posts a command taking the die's weight store to DRAINING and then LOAD. -/
  | wsctlLoad (d : BitVec 5)
  /-- WSCTL_SEAL (R157): posts a command that seals the weight store after its writes perform. -/
  | wsctlSeal (d : BitVec 5)
  /-- WSCTL_QUERY (R157): returns the weight store's state. -/
  | wsctlQuery (d : BitVec 5)
  /-- TREE_BIND (R238): posts a bind of an arena header to an arena slot. -/
  | treeBind (d : BitVec 5) (a : BitVec 5) (b : BitVec 5) (s : BitVec 2)
  /-- TREE_DESC (R239): posts a ticketed batch of descents writing leaf records. -/
  | treeDesc (d : BitVec 5) (a : BitVec 5) (b : BitVec 5) (c : BitVec 5) (s : BitVec 2)
  /-- TREE_EXP (R240): posts a ticketed batch of expansion records. -/
  | treeExp (d : BitVec 5) (a : BitVec 5) (b : BitVec 5) (c : BitVec 5) (s : BitVec 2)
  /-- TREE_BACK (R241): posts a ticketed batch of backup records. -/
  | treeBack (d : BitVec 5) (a : BitVec 5) (b : BitVec 5) (c : BitVec 5) (s : BitVec 2)
  /-- TREE_REROOT (R242): posts a ticketed change of the arena's root. -/
  | treeReroot (d : BitVec 5) (a : BitVec 5) (b : BitVec 5) (s : BitVec 2)
  /-- TREE_SWEEP (R365): posts a ticketed sweep of unreachable nodes to the free-run list. -/
  | treeSweep (d : BitVec 5) (b : BitVec 5) (s : BitVec 2)
  /-- TREE_PATH (R242): posts a ticketed write of a leaf's action path into the SRF. -/
  | treePath (d : BitVec 5) (a : BitVec 5) (b : BitVec 5) (c : BitVec 5) (s : BitVec 2)
  /-- TREE_READ (R242): posts a ticketed copy of nodes into the SRF. -/
  | treeRead (d : BitVec 5) (a : BitVec 5) (b : BitVec 5) (c : BitVec 5) (s : BitVec 2)
  /-- TREE_FLUSH (R242): posts a ticketed write-back of the arena's cached nodes. -/
  | treeFlush (d : BitVec 5) (b : BitVec 5) (s : BitVec 2)
  /-- GATHERL (R137): runs a microcoded expansion posting SGATHER-like commands from register operands. -/
  | gatherl (d : BitVec 5) (a : BitVec 5) (b : BitVec 5) (c : BitVec 5)
  /-- LAUNCH (R159): queues a launch record in the cast-on queue or the spill ring as a PKG release. -/
  | launch (d : BitVec 5) (a : BitVec 5)
  /-- TASK_YIELD (R161): switches to another ready context of equal or higher priority if one exists. -/
  | taskYield (d : BitVec 5) (a : BitVec 5) (b : BitVec 5)
  /-- TASK_PRIO (R161): sets the task's priority from xa. -/
  | taskPrio (d : BitVec 5) (a : BitVec 5) (b : BitVec 5)
  /-- TASK_SELF (R161): returns the task's argument VA. -/
  | taskSelf (d : BitVec 5) (a : BitVec 5) (b : BitVec 5)
  /-- WAYMARK (R162): posts a waymark arrival after an optional drain. -/
  | waymark (d : BitVec 5) (i : BitVec 8) (s : BitVec 3)
  /-- BR (R130): branches by a displacement if xa meets the condition. -/
  | br (a : BitVec 5) (c : BitVec 3) (i : Imm 18)
  /-- JMP (R131): jumps by a 26-bit bundle displacement. -/
  | jmp (i : BitVec 26)
  /-- CALL (R131): jumps by a displacement and writes the link to x31. -/
  | call (i : BitVec 26)
  /-- JX (R131): jumps to the address in xa. -/
  | jx (a : BitVec 5)
  /-- CALLX (R131): jumps to xa and writes the link to x31. -/
  | callx (a : BitVec 5)
  /-- TRAP (R133): raises TRAP with a code after the bundle's other slots perform. -/
  | trap (i : BitVec 16)
  /-- CSRR (R134): reads a control register into xd. -/
  | csrr (d : BitVec 5) (r : BitVec 12)
  /-- CSRW (R134): writes xa to a control register under its access code. -/
  | csrw (a : BitVec 5) (r : BitVec 12)
  /-- SCRUB (R394): posts a scrub of a range of lines per a scrub record. -/
  | scrub (d : BitVec 5) (a : BitVec 5)
  /-- MIGRATE (R321): posts an optimistic migration of a page per a migration record. -/
  | migrate (d : BitVec 5) (a : BitVec 5)
  /-- XINV_MARK (R318): marks a PASID's translations in a range DRAINING and returns a token. -/
  | xinvMark (d : BitVec 5) (a : BitVec 5) (b : BitVec 5)
  /-- XINV_CONFIRM (R319): waits for old-translation requests to perform, drops them and advances the generation. -/
  | xinvConfirm (d : BitVec 5) (a : BitVec 5)
  /-- QMAP (R385): maps a user queue onto a hardware slot, unmapping the previous one. -/
  | qmap (a : BitVec 5) (b : BitVec 5)
  /-- K_ADD (R173): adds lane words or packed halves with wrap. -/
  | kAdd (d : BitVec 7) (a : BitVec 7) (b : BitVec 7) (g : BitVec 3) (m : BitVec 2)
  /-- K_SUB (R173): subtracts lane words or packed halves with wrap. -/
  | kSub (d : BitVec 7) (a : BitVec 7) (b : BitVec 7) (g : BitVec 3) (m : BitVec 2)
  /-- K_AND (R173): bitwise AND of lane words. -/
  | kAnd (d : BitVec 7) (a : BitVec 7) (b : BitVec 7) (g : BitVec 3)
  /-- K_OR (R173): bitwise OR of lane words. -/
  | kOr (d : BitVec 7) (a : BitVec 7) (b : BitVec 7) (g : BitVec 3)
  /-- K_XOR (R173): bitwise XOR of lane words. -/
  | kXor (d : BitVec 7) (a : BitVec 7) (b : BitVec 7) (g : BitVec 3)
  /-- K_ANDN (R173): lane word AND NOT. -/
  | kAndn (d : BitVec 7) (a : BitVec 7) (b : BitVec 7) (g : BitVec 3)
  /-- K_SHL (R173): shifts lane words or halves left. -/
  | kShl (d : BitVec 7) (a : BitVec 7) (b : BitVec 7) (g : BitVec 3) (m : BitVec 1)
  /-- K_SHR (R173): shifts lane words or halves right logically. -/
  | kShr (d : BitVec 7) (a : BitVec 7) (b : BitVec 7) (g : BitVec 3) (m : BitVec 1)
  /-- K_SRA (R173): shifts lane words or halves right arithmetically. -/
  | kSra (d : BitVec 7) (a : BitVec 7) (b : BitVec 7) (g : BitVec 3) (m : BitVec 1)
  /-- MIN (R173): lane minimum as signed or unsigned, word or packed. -/
  | min (d : BitVec 7) (a : BitVec 7) (b : BitVec 7) (g : BitVec 3) (m : BitVec 2)
  /-- MAX (R173): lane maximum as signed or unsigned, word or packed. -/
  | max (d : BitVec 7) (a : BitVec 7) (b : BitVec 7) (g : BitVec 3) (m : BitVec 2)
  /-- K_CMP (R174): compares lane words and writes a predicate. -/
  | kCmp (c : BitVec 3) (q : BitVec 3) (a : BitVec 7) (b : BitVec 7) (g : BitVec 3) (m : BitVec 1)
  /-- K_SEL (R175): selects va or vb per lane by the old vd. -/
  | kSel (d : BitVec 7) (a : BitVec 7) (b : BitVec 7) (g : BitVec 3) (m : BitVec 1)
  /-- K_BFX_N (R176): extracts a zero-extended bit field of vs. -/
  | kBfxN (d : BitVec 7) (v : BitVec 5) (w : BitVec 5) (o : BitVec 5)
  /-- K_BFX_I (R176): extracts a sign-extended bit field of vs. -/
  | kBfxI (d : BitVec 7) (v : BitVec 5) (w : BitVec 5) (o : BitVec 5)
  /-- K_BFI (R176): inserts low bits of vs into a field of vd. -/
  | kBfi (d : BitVec 7) (v : BitVec 5) (w : BitVec 5) (o : BitVec 5)
  /-- K_FSHL (R176): funnel-shifts vs::vd left, keeping the high word. -/
  | kFshl (d : BitVec 7) (v : BitVec 5) (n : BitVec 5)
  /-- K_FSHR (R176): funnel-shifts vs::vd right, keeping the low word. -/
  | kFshr (d : BitVec 7) (v : BitVec 5) (n : BitVec 5)
  /-- MOVI (R86): writes sext(imm12) to vd. -/
  | movi (d : BitVec 7) (i : BitVec 12)
  /-- MOVI_HIGH (R86): writes imm12 in the top 12 bits of vd. -/
  | moviHigh (d : BitVec 7) (i : BitVec 12)
  /-- MOVI_LITERAL (R86): writes literal::hi4::imm12 to vd. -/
  | moviLiteral (d : BitVec 7) (h : BitVec 4) (i : BitVec 12) (lit : BitVec 16)
  /-- MOVI_SHIFTED (R86): writes the zero-extended literal shifted left by imm12[4:0]. -/
  | moviShifted (d : BitVec 7) (n : BitVec 5) (lit : BitVec 16)
  /-- ABS (R177): writes the wrapping absolute value of va. -/
  | abs (d : BitVec 7) (a : BitVec 7) (g : BitVec 3) (m : BitVec 1)
  /-- NEG (R177): writes the wrapping negation of va. -/
  | neg (d : BitVec 7) (a : BitVec 7) (g : BitVec 3) (m : BitVec 1)
  /-- K_CLZ (R177): counts leading zeros per word or element. -/
  | kClz (d : BitVec 7) (a : BitVec 7) (g : BitVec 3) (m : BitVec 1)
  /-- K_POPC (R177): counts one bits per word or element. -/
  | kPopc (d : BitVec 7) (a : BitVec 7) (g : BitVec 3) (m : BitVec 1)
  /-- NOT (R177): writes the complement of va. -/
  | not_ (d : BitVec 7) (a : BitVec 7) (g : BitVec 3)
  /-- FABS (R177): clears the f32 sign bit. -/
  | fabs (d : BitVec 7) (a : BitVec 7) (g : BitVec 3)
  /-- FNEG (R177): inverts the f32 sign bit. -/
  | fneg (d : BitVec 7) (a : BitVec 7) (g : BitVec 3)
  /-- FCLASS (R177): writes the one-hot f32 class of va. -/
  | fclass (d : BitVec 7) (a : BitVec 7) (g : BitVec 3)
  /-- FADD (R178): adds f32 values with one rounding by mod. -/
  | fadd (d : BitVec 7) (a : BitVec 7) (b : BitVec 7) (g : BitVec 3) (m : BitVec 2)
  /-- FSUB (R178): subtracts f32 values with one rounding by mod. -/
  | fsub (d : BitVec 7) (a : BitVec 7) (b : BitVec 7) (g : BitVec 3) (m : BitVec 2)
  /-- FMIN (R179): delivers the smaller f32 operand under a NaN rule. -/
  | fmin (d : BitVec 7) (a : BitVec 7) (b : BitVec 7) (g : BitVec 3) (m : BitVec 1)
  /-- FMAX (R179): delivers the larger f32 operand under a NaN rule. -/
  | fmax (d : BitVec 7) (a : BitVec 7) (b : BitVec 7) (g : BitVec 3) (m : BitVec 1)
  /-- FCMP (R180): compares f32 values and writes a predicate. -/
  | fcmp (c : BitVec 3) (q : BitVec 3) (a : BitVec 7) (b : BitVec 7) (g : BitVec 3) (m : BitVec 1)
  /-- CVT_I32_F32 (R181): converts f32 to i32 with clamp. -/
  | cvtI32F32 (d : BitVec 7) (a : BitVec 7) (g : BitVec 3) (m : BitVec 2)
  /-- CVT_N32_F32 (R181): converts f32 to n32 with clamp. -/
  | cvtN32F32 (d : BitVec 7) (a : BitVec 7) (g : BitVec 3) (m : BitVec 2)
  /-- CVT_F32_I32 (R181): converts i32 to f32. -/
  | cvtF32I32 (d : BitVec 7) (a : BitVec 7) (g : BitVec 3) (m : BitVec 2)
  /-- CVT_F32_N32 (R181): converts n32 to f32. -/
  | cvtF32N32 (d : BitVec 7) (a : BitVec 7) (g : BitVec 3) (m : BitVec 2)
  /-- CVT_F16_F32 (R181): converts f32 to f16. -/
  | cvtF16F32 (d : BitVec 7) (a : BitVec 7) (g : BitVec 3) (m : BitVec 2)
  /-- CVT_BF16_F32 (R181): converts f32 to bf16. -/
  | cvtBf16F32 (d : BitVec 7) (a : BitVec 7) (g : BitVec 3) (m : BitVec 2)
  /-- CVT_F32_F16 (R181): converts f16 to f32 exactly. -/
  | cvtF32F16 (d : BitVec 7) (a : BitVec 7) (g : BitVec 3) (m : BitVec 2)
  /-- CVT_F32_BF16 (R181): converts bf16 to f32 exactly. -/
  | cvtF32Bf16 (d : BitVec 7) (a : BitVec 7) (g : BitVec 3) (m : BitVec 2)
  /-- CVT_E4M3_F32_SAT (R181): converts f32 to e4m3 with saturation. -/
  | cvtE4m3F32Sat (d : BitVec 7) (a : BitVec 7) (g : BitVec 3) (m : BitVec 2)
  /-- CVT_E4M3_F32 (R181): converts f32 to e4m3 without saturation. -/
  | cvtE4m3F32 (d : BitVec 7) (a : BitVec 7) (g : BitVec 3) (m : BitVec 2)
  /-- CVT_E5M2_F32_SAT (R181): converts f32 to e5m2 with saturation. -/
  | cvtE5m2F32Sat (d : BitVec 7) (a : BitVec 7) (g : BitVec 3) (m : BitVec 2)
  /-- CVT_E5M2_F32 (R181): converts f32 to e5m2 without saturation. -/
  | cvtE5m2F32 (d : BitVec 7) (a : BitVec 7) (g : BitVec 3) (m : BitVec 2)
  /-- CVT_F32_E4M3 (R181): converts e4m3 to f32 exactly. -/
  | cvtF32E4m3 (d : BitVec 7) (a : BitVec 7) (g : BitVec 3) (m : BitVec 2)
  /-- CVT_F32_E5M2 (R181): converts e5m2 to f32 exactly. -/
  | cvtF32E5m2 (d : BitVec 7) (a : BitVec 7) (g : BitVec 3) (m : BitVec 2)
  /-- CVT_PLS (R181): converts f32 to an S-mode plane element of a given gauge. -/
  | cvtPls (d : BitVec 7) (a : BitVec 7) (j : BitVec 4) (g : BitVec 3) (m : BitVec 2)
  /-- CVT_PLN (R181): converts f32 to an N-mode plane element of a given gauge. -/
  | cvtPln (d : BitVec 7) (a : BitVec 7) (j : BitVec 4) (g : BitVec 3) (m : BitVec 2)
  /-- TWOSUM (R184): writes the rounded sum and its exact error as a pair. -/
  | twosum (d : BitVec 7) (a : BitVec 7) (b : BitVec 7) (g : BitVec 3)
  /-- FTWOSUM (R184): writes the fast two-sum pair. -/
  | ftwosum (d : BitVec 7) (a : BitVec 7) (b : BitVec 7) (g : BitVec 3)
  /-- DWADD (R184): adds two double-word pairs. -/
  | dwadd (d : BitVec 7) (a : BitVec 7) (b : BitVec 7) (g : BitVec 3)
  /-- DWNORM (R184): normalises a double-word pair. -/
  | dwnorm (d : BitVec 7) (a : BitVec 7) (g : BitVec 3)
  /-- PACK_F16 (R183): packs two f32 values rounded to f16. -/
  | packF16 (d : BitVec 7) (a : BitVec 7) (b : BitVec 7) (g : BitVec 3)
  /-- PACK_BF16 (R183): packs two f32 values rounded to bf16. -/
  | packBf16 (d : BitVec 7) (a : BitVec 7) (b : BitVec 7) (g : BitVec 3)
  /-- PACK_LO (R183): packs the low halves of two words. -/
  | packLo (d : BitVec 7) (a : BitVec 7) (b : BitVec 7) (g : BitVec 3)
  /-- PACK_HI (R183): packs the high halves of two words. -/
  | packHi (d : BitVec 7) (a : BitVec 7) (b : BitVec 7) (g : BitVec 3)
  /-- SCALB (R182): scales an f32 value by a power of two with one rounding. -/
  | scalb (d : BitVec 7) (a : BitVec 7) (b : BitVec 7) (g : BitVec 3) (m : BitVec 2)
  /-- FRND (R182): rounds an f32 value to an integral value by mod. -/
  | frnd (d : BitVec 7) (a : BitVec 7) (g : BitVec 3) (m : BitVec 2)
  /-- FMA (R185): fused multiply-add into vd with one rounding. -/
  | fma (d : BitVec 7) (a : BitVec 7) (b : BitVec 7) (g : BitVec 3) (m : BitVec 2)
  /-- FMS (R185): fused product minus vd with one rounding. -/
  | fms (d : BitVec 7) (a : BitVec 7) (b : BitVec 7) (g : BitVec 3) (m : BitVec 2)
  /-- FMUL (R185): multiplies f32 values with one rounding. -/
  | fmul (d : BitVec 7) (a : BitVec 7) (b : BitVec 7) (g : BitVec 3) (m : BitVec 2)
  /-- K_MUL (R189): writes the low bits of lane products. -/
  | kMul (d : BitVec 7) (a : BitVec 7) (b : BitVec 7) (g : BitVec 3) (m : BitVec 1)
  /-- MULH (R189): writes the high bits of lane products. -/
  | mulh (d : BitVec 7) (a : BitVec 7) (b : BitVec 7) (g : BitVec 3) (m : BitVec 2)
  /-- TWOPROD (R185): writes the rounded product and its error as a pair. -/
  | twoprod (d : BitVec 7) (a : BitVec 7) (b : BitVec 7) (g : BitVec 3)
  /-- DWMUL (R185): multiplies two double-word pairs. -/
  | dwmul (d : BitVec 7) (a : BitVec 7) (b : BitVec 7) (g : BitVec 3)
  /-- DWFMA (R185): adds a double-word product to the pair in vd. -/
  | dwfma (d : BitVec 7) (a : BitVec 7) (b : BitVec 7) (g : BitVec 3)
  /-- MAD16 (R186): fused multiply-add per f16 element. -/
  | mad16 (d : BitVec 7) (a : BitVec 7) (b : BitVec 7) (g : BitVec 3) (m : BitVec 2)
  /-- MADB16 (R186): fused multiply-add per bf16 element. -/
  | madb16 (d : BitVec 7) (a : BitVec 7) (b : BitVec 7) (g : BitVec 3) (m : BitVec 2)
  /-- DOT2 (R187): adds a two-term bf16 dot product to f32 vd with one rounding. -/
  | dot2 (d : BitVec 7) (a : BitVec 7) (b : BitVec 7) (g : BitVec 3) (m : BitVec 2)
  /-- DOT4I8 (R188): adds a four-term byte dot product to vd with wrap. -/
  | dot4i8 (d : BitVec 7) (a : BitVec 7) (b : BitVec 7) (g : BitVec 3) (m : BitVec 2)
  /-- RCP (R190): correctly rounded reciprocal. -/
  | rcp (d : BitVec 7) (a : BitVec 7) (g : BitVec 3) (m : BitVec 2)
  /-- RSQ (R190): correctly rounded reciprocal square root. -/
  | rsq (d : BitVec 7) (a : BitVec 7) (g : BitVec 3) (m : BitVec 2)
  /-- SQRT (R190): correctly rounded square root. -/
  | sqrt (d : BitVec 7) (a : BitVec 7) (g : BitVec 3) (m : BitVec 2)
  /-- DIV (R190): correctly rounded f32 quotient. -/
  | div (d : BitVec 7) (a : BitVec 7) (b : BitVec 7) (g : BitVec 3) (m : BitVec 2)
  /-- EXP2 (R190): correctly rounded power of two. -/
  | exp2 (d : BitVec 7) (a : BitVec 7) (g : BitVec 3) (m : BitVec 2)
  /-- LOG2 (R190): correctly rounded base-2 logarithm. -/
  | log2 (d : BitVec 7) (a : BitVec 7) (g : BitVec 3) (m : BitVec 2)
  /-- SIGM (R190): correctly rounded logistic sigmoid. -/
  | sigm (d : BitVec 7) (a : BitVec 7) (g : BitVec 3) (m : BitVec 2)
  /-- TANH (R190): correctly rounded hyperbolic tangent. -/
  | tanh (d : BitVec 7) (a : BitVec 7) (g : BitVec 3) (m : BitVec 2)
  /-- RSQE (R191): regularised reciprocal square root with epsilon read from vd. -/
  | rsqe (d : BitVec 7) (a : BitVec 7) (g : BitVec 3) (m : BitVec 2)
  /-- SILU (R190): correctly rounded a times sigmoid of a. -/
  | silu (d : BitVec 7) (a : BitVec 7) (g : BitVec 3) (m : BitVec 2)
  /-- SPOP (R199): pops one stream unit into vd per performing lane. -/
  | spop (d : BitVec 7) (n : BitVec 4) (g : BitVec 3)
  /-- SPUSH (R199): pushes vs into the stream per performing lane. -/
  | spush (v : BitVec 7) (n : BitVec 4) (g : BitVec 3)
  /-- SSKIP (R199): advances a stream by n units, writing zeros on output streams. -/
  | sskip (n : BitVec 4) (n2 : BitVec 10)
  /-- SCOUNT_POS (R199): writes the stream position to every lane. -/
  | scountPos (d : BitVec 7) (n : BitVec 4)
  /-- SCOUNT_REM (R199): writes the units left in the stream to every lane. -/
  | scountRem (d : BitVec 7) (n : BitVec 4)
  /-- COMM (R202): each lane takes va from the lane named by vb. -/
  | comm (d : BitVec 7) (a : BitVec 7) (b : BitVec 7) (g : BitVec 3)
  /-- COMM_CL (R202): each lane takes va from a lane of its own cluster named by vb. -/
  | commCl (d : BitVec 7) (a : BitVec 7) (b : BitVec 7) (g : BitVec 3)
  /-- COMMP_ROT (R203): rotates va across lanes by k. -/
  | commpRot (d : BitVec 7) (a : BitVec 7) (k : BitVec 7) (g : BitVec 3)
  /-- COMMP_BC (R203): broadcasts va of lane k. -/
  | commpBc (d : BitVec 7) (a : BitVec 7) (k : BitVec 7) (g : BitVec 3)
  /-- COMMP_BFLY (R203): exchanges va with lane L XOR k. -/
  | commpBfly (d : BitVec 7) (a : BitVec 7) (k : BitVec 7) (g : BitVec 3)
  /-- CREDUCE (R204): reduces lane pairs by dwadd in a fixed tree and broadcasts the result. -/
  | creduce (d : BitVec 7) (a : BitVec 7) (g : BitVec 3)
  /-- IREDUCE (R205): reduces lane words by an integer operator in a fixed tree. -/
  | ireduce (d : BitVec 7) (a : BitVec 7) (o : BitVec 7) (g : BitVec 3)
  /-- MBR_LO (R206): reads the mailbox's low word into every lane. -/
  | mbrLo (d : BitVec 7) (m : BitVec 4) (k : BitVec 1)
  /-- MBR_HI (R206): reads the mailbox's high word into every lane. -/
  | mbrHi (d : BitVec 7) (m : BitVec 4) (k : BitVec 1)
  /-- MBR_PAIR (R206): reads the mailbox into a register pair of every lane. -/
  | mbrPair (d : BitVec 7) (m : BitVec 4) (k : BitVec 1)
  /-- MBW_WORD (R206): writes lane k's word to the mailbox and sets it full. -/
  | mbwWord (v : BitVec 7) (m : BitVec 4) (l : BitVec 7)
  /-- MBW_PAIR (R206): writes lane k's register pair to the mailbox and sets it full. -/
  | mbwPair (v : BitVec 7) (m : BitVec 4) (l : BitVec 7)
  /-- ARD_F32 (R208): reads an I64 accumulator entry scaled by its fields as f32. -/
  | ardF32 (d : BitVec 7) (k : BitVec 3) (a : BitVec 7) (g : BitVec 3)
  /-- ARD_I32 (R208): reads an I64 accumulator entry scaled and clamped to i32. -/
  | ardI32 (d : BitVec 7) (k : BitVec 3) (a : BitVec 7) (g : BitVec 3)
  /-- ARD_XA_F32 (R208): reads an XA entry as f32. -/
  | ardXaF32 (d : BitVec 7) (k : BitVec 3) (a : BitVec 7) (g : BitVec 3)
  /-- ARD_XA_I32 (R208): reads an XA entry as clamped i32. -/
  | ardXaI32 (d : BitVec 7) (k : BitVec 3) (a : BitVec 7) (g : BitVec 3)
  /-- ARD_EXP (R208): reads a row or column exponent field. -/
  | ardExp (d : BitVec 7) (k : BitVec 3) (a : BitVec 7) (g : BitVec 3)
  /-- ARD2 (R209): reads the raw 64 bits of an I64 entry into a pair. -/
  | ard2 (d : BitVec 7) (k : BitVec 3) (a : BitVec 7) (g : BitVec 3)
  /-- ARD2_Q (R209): reads quarter q of an XA entry into a pair. -/
  | ard2Q (d : BitVec 7) (k : BitVec 3) (q : BitVec 2) (a : BitVec 7) (g : BitVec 3)
  /-- AWR_I32 (R210): writes a sign-extended word to an I64 entry. -/
  | awrI32 (v : BitVec 7) (k : BitVec 3) (a : BitVec 7) (g : BitVec 3)
  /-- AWR_PAIR (R210): writes a register pair to an I64 entry. -/
  | awrPair (v : BitVec 7) (k : BitVec 3) (a : BitVec 7) (g : BitVec 3)
  /-- AWR_EXP (R210): writes an exponent field. -/
  | awrExp (v : BitVec 7) (k : BitVec 3) (a : BitVec 7) (g : BitVec 3)
  /-- ADEP (R59): deposits an f32 value into an XA entry, lanes in ascending order. -/
  | adep (v : BitVec 7) (k : BitVec 3) (a : BitVec 7) (g : BitVec 3)
  /-- AZERO (R211): zeroes an I64 tile, resets its fields to 127 and clears its status. -/
  | azero (k : BitVec 3)
  /-- AZERO_XA (R211): zeroes an XA tile and clears its four status words. -/
  | azeroXa (k : BitVec 3)
  /-- ASTAT (R212): reads a slot's tile status word. -/
  | astat (d : BitVec 7) (k : BitVec 3)
  /-- ASTAT_CLR (R212): reads and clears a slot's tile status word indivisibly. -/
  | astatClr (d : BitVec 7) (k : BitVec 3)
  /-- ASCL (R213): adjusts a row or column exponent field by a signed delta. -/
  | ascl (v : BitVec 7) (k : BitVec 3) (a : BitVec 7) (g : BitVec 3)
  /-- NOP (R72): performs no operation in its slot. -/
  | nop
  /-- MILE_DISARM (R166): clears the milestone arm. -/
  | mileDisarm
  /-- KCTL_ABORT (R153): cancels the context's queued KRUNs and stops its running kernel. -/
  | kctlAbort
  /-- TASK_RETIRE (R161): ends any held kernel and blocks until the task's work completes, then retires it. -/
  | taskRetire
  /-- RET (R131): jumps to the address in x31. -/
  | ret
  /-- UIRET (R167): restores x24-x31 and resumes after a user-level interrupt. -/
  | uiret
  /-- WAITI (R134): blocks until an armed milestone interrupt is taken, or completes at once. -/
  | waiti
  /-- BKPT (R134): raises BKPT after the other slots perform, or halts the core at D2. -/
  | bkpt
  /-- FENCE_C (R134): waits for earlier stores and discards the instruction cache and unused kernel code copies. -/
  | fenceC
  /-- PSET (R215): sets p[k] from va of lane 0. -/
  | pset (k : BitVec 3) (a : BitVec 7)
  /-- PSET_IMM (R215): sets p[k] to the zero-extended literal. -/
  | psetImm (k : BitVec 3) (a : BitVec 7) (lit : BitVec 16)
  /-- PSET_HI (R215): sets the high half of p[k] to the literal. -/
  | psetHi (k : BitVec 3) (a : BitVec 7) (lit : BitVec 16)
  /-- PSET_ADD (R215): adds the sign-extended literal to p[k]. -/
  | psetAdd (k : BitVec 3) (a : BitVec 7) (lit : BitVec 16)
  /-- MPOST (R216): posts a matrix command from the kernel with a p-register snapshot. -/
  | mpost (r : BitVec 8) (n : BitVec 2) (d : BitVec 5) (e : BitVec 5)
  /-- LOOP (R218): starts a zero-overhead loop with an immediate count. -/
  | loop (c : BitVec 2) (n : BitVec 11) (l : BitVec 12)
  /-- LOOP_P (R218): starts a zero-overhead loop with a count from a p register. -/
  | loopP (c : BitVec 2) (p : BitVec 3) (l : BitVec 12)
  /-- BRA (R217): branches if any or all lanes hold a predicate, after two delay packets. -/
  | bra (y : BitVec 1) (q : BitVec 3) (i : BitVec 18)
  /-- K_JMP (R217): jumps after two delay packets. -/
  | kJmp (i : BitVec 18)
  /-- KEND (R220): ends the kernel's issue after its packet. -/
  | kend
  /-- KTRAP (R222): retires its packet and stops the kernel with a code. -/
  | ktrap (c : BitVec 16)
  /-- IDLE (R219): adds n empty issue cycles after its packet. -/
  | idle (n : BitVec 12)
  /-- MWAITK (R221): stalls the sequencer until a milestone counter reaches p[k], then acquires. -/
  | mwaitk (q : BitVec 3) (p : BitVec 3)
  /-- FETCH_PAGE_FAULT (R132): a bundle fetch failing translation writes an execute entry and parks the context. -/
  | fetchPageFault (cx : Nat)
  /-- LOAD_RESULT_DELIVERY (R108): a load, AMO, semaphore or CSRR result reaches its register and releases the interlock. -/
  | loadResultDelivery (req : Nat)
  /-- BLOCKED_BUNDLE_REEXECUTE (R19): a blocked bundle executes again whole once its block condition clears. -/
  | blockedBundleReexecute (cx : Nat)
  /-- CONTEXT_SWITCH (R19): the CP switches in 2 ac to the highest-priority ready context. -/
  | contextSwitch (core : Nat)
  /-- GATHERL_STEP (R137): a GATHERL expansion step posts one chunk command, possibly after blocking. -/
  | gatherlStep (cx : Nat)
  /-- DRAIN_COMPLETE (R129): all covered work has performed at the scope and later bundles proceed. -/
  | drainComplete (cx : Nat)
  /-- FLAG_STORE_PERFORM (R129): a DRAIN.FLAG's flag store performs after covered work is visible and its REM milestone completes. -/
  | flagStorePerform (req : Nat)
  /-- UI_DELIVERY (R167): a user-level interrupt is delivered at a bundle boundary, shadowing x24-x31. -/
  | uiDelivery (cx : Nat)
  /-- UISTATUS_PENDING_DISCARD (R167): writing 0 to cr.UISTATUS.pending discards a pending interrupt. -/
  | uistatusPendingDiscard (cx : Nat)
  /-- LSPILL_WRITE (R160): a write to cr.LSPILL blocks until the ring is empty, then performs. -/
  | lspillWrite (cx : Nat) (v : Word)
  /-- AGE_WRITE (R278): a write of 0 to cr.AGE disables aging and stops any reservation at once. -/
  | ageWrite (die : Nat) (v : Word)
  /-- TSTAT_KRES (R328): writing KRES resumes the held kernel from its snapshot. -/
  | tstatKres (cx : Nat)
  /-- TSTAT_KABT (R328): writing KABT ends the held kernel and completes its KRUN with status 5. -/
  | tstatKabt (cx : Nat)
  /-- TSTAT_ACTIVE_CLEAR (R326): writing 0 to cr.TSTAT.active ends the trap handler state. -/
  | tstatActiveClear (cx : Nat)
  /-- RETREQ_CLEAR (R393): clearing V in cr.RETREQ lets a held retirement request be delivered. -/
  | retreqClear (die : Nat)
  /-- REGISTER_WRITE (R10): a write to a register with no behaviour of its own stores by its access code. -/
  | registerWrite (cx : Nat) (num : BitVec 12) (v : Word)
  /-- ENGINE_ACCEPT (R20): an engine accepts the oldest command of a queue. -/
  | engineAccept (cx : Nat) (q : Queue)
  /-- REQUEST_GENERATION (R254): the address generator turns a command's next element into a line request. -/
  | requestGeneration (cx : Nat) (q : Queue)
  /-- CALENDAR_SLOT (R262): a channel's slot in an ac serves one burst for its owner or a borrower. -/
  | calendarSlot (die : Nat) (burst : Nat × Ecc)
  /-- LINE_WRITE (R263): a served load line is written in the SRF exactly 192 or 336 ac later. -/
  | lineWrite (req : Nat)
  /-- STORE_ACKNOWLEDGE (R263): a served store is acknowledged to its issuer at the fixed figure. -/
  | storeAcknowledge (req : Nat)
  /-- REDUCTION_ELEMENT (R302): a memory-side reduction element is applied indivisibly at its place. -/
  | reductionElement (req : Nat)
  /-- REMOTE_REQUEST (R306): a Causeway request executes at the destination controller or semaphore file. -/
  | remoteRequest (r : RemoteReq)
  /-- FABRIC_REQUEST_LOST (R306): a request not delivered within 1 ms is lost and completed with a poisoned or null result. -/
  | fabricRequestLost (req : Nat)
  /-- RESPONSE_DROPPED (R306): a response not delivered within 1 ms of performing is dropped and reported. -/
  | responseDropped (req : Nat)
  /-- HOST_CXL_MEM_ACCESS (R293): a host CXL.mem request to device memory performs in slot 30. -/
  | hostCxlMemAccess (die offset : Nat) (write : Option (List Byte)) (len : Nat)
  /-- ENGINE_TRANSLATION_FAULT (R314): a failed engine translation writes an entry and parks the command's queue. -/
  | engineTranslationFault (cx : Nat) (q : Queue)
  /-- QUEUE_RESUME (R314): a parked queue resumes once all its entries are answered, reissuing success requests first. -/
  | queueResume (cx : Nat) (q : Queue)
  /-- ENGINE_COMMAND_COMPLETE (R141): an engine command completes, writes its completion record and advances its milestone. -/
  | engineCommandComplete (cx : Nat) (q : Queue)
  /-- XLATE_RESOLVE (R309): 24 ac after XLATE, a cache hit makes the handle VALID or FAULTED. -/
  | xlateResolve (cx : Nat) (h : BitVec 4)
  /-- WALK_COMPLETE (R309): a table walk or ATS request completes, making the handle VALID or FAULTED. -/
  | walkComplete (cx : Nat) (h : BitVec 4) (ats : Option AtsReply)
  /-- PRI_PAGE_REQUEST (R317): the hub forwards an entry as a PRI Page Request once a group index is free. -/
  | priPageRequest (entry : Nat)
  /-- PRG_RESPONSE_SUCCESS (R317): a success response makes the requester retry the translation. -/
  | prgResponseSuccess (entry : Nat)
  /-- PRG_RESPONSE_INVALID (R317): an Invalid Request response refuses the entry. -/
  | prgResponseInvalid (entry : Nat)
  /-- PRG_RESPONSE_FAILURE (R317): a Response Failure refuses the entry and stops page requests until PRI is re-enabled. -/
  | prgResponseFailure (entry : Nat)
  /-- ATS_INVALIDATE_REQUEST (R320): a host ATS invalidation runs as a mark and confirm, then sends the completion. -/
  | atsInvalidateRequest (pasid : BitVec 20) (va : Word) (pages : BitVec 32)
  /-- TOKEN_AUTO_CONFIRM (R319): the hub confirms a shootdown token left unconfirmed for 1 ms. -/
  | tokenAutoConfirm (slot : Nat)
  /-- FAULT_RING_COPY (R381): the firmware copies a fault-queue entry to the driver's fault ring. -/
  | faultRingCopy (die : Nat)
  /-- FHEAD_WRITE (R381): the driver reports the next fault-ring slot it will read. -/
  | fheadWrite (v : BitVec 32)
  /-- PACKET_ISSUE (R192): the sequencer issues one packet whole, or it traps and performs nothing. -/
  | packetIssue (core : Nat)
  /-- IDLE_ISSUE_CYCLE (R39): an empty issue cycle requested by an idle count or IDLE passes. -/
  | idleIssueCycle (core : Nat)
  /-- RESULT_LANDING (R39): a kernel result lands in its register at its frozen latency and sets its flags. -/
  | resultLanding (core : Nat)
  /-- KERNEL_START (R151): the kernel array starts the highest-priority ready accepted KRUN. -/
  | kernelStart (core : Nat)
  /-- KERNEL_CODE_FETCH (R388): kernel code memory delivers fetched packet words, or ends the KRUN on a refused translation. -/
  | kernelCodeFetch (core : Nat)
  /-- KRUN_COMPLETE (R151): after KEND retires and results land, the KRUN completes and flags reach cr.KSTATUS. -/
  | krunComplete (core : Nat)
  /-- KERNEL_ABORT_STOP (R153): an aborted running kernel stops at its next packet boundary. -/
  | kernelAbortStop (core : Nat)
  /-- KERNEL_FREEZE (R329): the kernel array freezes at the next packet boundary and its snapshot is taken. -/
  | kernelFreeze (core : Nat)
  /-- KERNEL_TRAP_DELIVERY (R328): a held kernel's trap is delivered to its context as cause 17 at a bundle boundary. -/
  | kernelTrapDelivery (cx : Nat)
  /-- KERNEL_RESUME (R330): a snapshot is restored on a free kernel array and the kernel continues. -/
  | kernelResume (core : Nat)
  /-- ROUTINE_START (R338): the plane engine starts the highest-priority ready window command. -/
  | routineStart (core : Nat)
  /-- MROUT_COPY (R156): an MROUT copies routine words into the store and sets the routine table entry. -/
  | mroutCopy (core : Nat)
  /-- ROUTINE_RETIRE (R337): a matrix command retires once its routine and operations complete, freeing links. -/
  | routineRetire (core : Nat)
  /-- MOVE_PAIR (R89): executes a routine word of two moves that read before they write. -/
  | movePair (m1 m2 : Move)
  /-- LOOPR (R229): starts a routine loop counted from a port. -/
  | loopr (k : BitVec 2) (port : BitVec 6) (len : BitVec 12)
  /-- BRG (R229): branches the routine when its guard holds. -/
  | brg (g : BitVec 3) (disp : BitVec 13)
  /-- JMPR (R229): branches the routine unconditionally. -/
  | jmpr (disp : BitVec 13)
  /-- SETW (R228): writes a 32-bit immediate to a port. -/
  | setw (guard : Option (BitVec 3)) (port : BitVec 6) (imm : Word32)
  /-- ALOAD (R231): loads n A planes from the SRF into plane buffer entries. -/
  | aload (v : Word32) (cl : BitVec 8)
  /-- BLOAD (R231): loads one B plane into a plane buffer entry. -/
  | bload (v : Word32) (cl : BitVec 8)
  /-- EXPO (R232): loads 64 row or column exponent fields. -/
  | expo (v : Word32) (cl : BitVec 8)
  /-- PASS (R233): adds shifted popcount products of two planes into the array accumulator. -/
  | pass (v : Word32) (cl : BitVec 8)
  /-- ASWAP_EXCHANGE (R234): exchanges the array accumulator with a slot. -/
  | aswapExchange (k : BitVec 3) (cl : BitVec 8)
  /-- ASWAP_STORE (R234): stores the array accumulator into a slot and clears it. -/
  | aswapStore (k : BitVec 3) (cl : BitVec 8)
  /-- ASWAP_SPILL (R234): writes the array accumulator to the SRF and clears it. -/
  | aswapSpill (k : BitVec 3) (indexed : Bool) (cl : BitVec 8)
  /-- ACLR (R228): clears the array accumulator and its flags. -/
  | aclr (cl : BitVec 8)
  /-- XDEP (R235): deposits a scaled I64 slot into an XA tile. -/
  | xdep (k : BitVec 3) (a4 : Bool) (cl : BitVec 8)
  /-- DONE (R227): ends the routine normally. -/
  | done
  /-- ADDT (R228): forms ADDR as ADDA plus the written value. -/
  | addt (v : Word32) (cl : BitVec 8)
  /-- CMPT (R228): sets CMPF by comparing CMPA with the written value. -/
  | cmpt (v : Word32) (cl : BitVec 8)
  /-- MILE (R236): stalls the routine until a posting context's milestone is reached, then acquires. -/
  | mile (q : BitVec 3) (p : BitVec 3)
  /-- PAIR_LOCK (R349): when all 64 lines of a pair are buffered, the controller locks and commits it. -/
  | pairLock (cx : Nat)
  /-- PAIR_RELEASE (R349): after its last line write the controller releases the pair's lock. -/
  | pairRelease (cx : Nat)
  /-- BLOCK_READ_ADMIT (R351): a whole-block read group is admitted once complete and not locked. -/
  | blockReadAdmit (cx : Nat) (q : Queue)
  /-- WS_BANK_REFRESH (R267): a weight-store bank refreshes during its phase window. -/
  | wsBankRefresh (die bank : Nat)
  /-- WS_BANK_SERVICE (R267): a weight-store bank serves up to two lines in an ac. -/
  | wsBankService (die bank : Nat)
  /-- WS_ENTER_LOAD (R157): a DRAINING weight store enters LOAD once earlier reads complete. -/
  | wsEnterLoad (die : Nat)
  /-- WS_SEAL_COMPLETE (R157): the weight store becomes SEALED once earlier writes perform. -/
  | wsSealComplete (die : Nat)
  /-- TREE_BIND_EXECUTE (R238): the engine binds an arena to a slot, releasing the previous binding. -/
  | treeBindExecute (die cmd : Nat)
  /-- DESCENT (R239): one descent selects down to a leaf and writes its leaf record. -/
  | descent (die cmd : Nat)
  /-- EXPANSION_ENTRY (R240): one expansion entry allocates and initialises a leaf's children. -/
  | expansionEntry (die cmd : Nat)
  /-- BACKUP_RECORD (R241): one backup record updates N, W and VL along the path to the root. -/
  | backupRecord (die cmd : Nat)
  /-- TREE_REROOT_EXECUTE (R242): the arena's root is changed and the generation advanced. -/
  | treeRerootExecute (die cmd : Nat)
  /-- TREE_SWEEP_EXECUTE (R365): unreachable nodes are freed and the free-run list rebuilt. -/
  | treeSweepExecute (die cmd : Nat)
  /-- TREE_PATH_EXECUTE (R242): a leaf's action path is written into the SRF. -/
  | treePathExecute (die cmd : Nat)
  /-- TREE_READ_EXECUTE (R242): nodes are copied into the SRF as they stand. -/
  | treeReadExecute (die cmd : Nat)
  /-- TREE_FLUSH_EXECUTE (R242): every cached node of the arena is written to memory. -/
  | treeFlushExecute (die cmd : Nat)
  /-- TICKET_GAP_TIMEOUT (R361): after a gap of 2^20 ac the held command with the smallest distance fails and next advances. -/
  | ticketGapTimeout (die arena : Nat)
  /-- NODE_CACHE_EVICTION (R367): the node cache evicts and writes back a dirty line. -/
  | nodeCacheEviction (die arena line : Nat)
  /-- TAKE_RECORD (R275): the scheduler takes one launch record from a source and checks it. -/
  | takeRecord (src : Source)
  /-- PLACEMENT (R277): the scheduler places a READY task on a fitting core and initialises its context. -/
  | placement (task : Nat)
  /-- RESTORE (R273): a restorable SWAPPED or SPILLED task is restored or refilled onto a context. -/
  | restore (task : Nat)
  /-- SWAP (R280): a context blocked for cr.SWAPWAIT is saved to shadow when a task needs it. -/
  | swap (cx : Nat)
  /-- PREEMPTION (R281): a waiting task pre-empts a lower-priority preemptible victim. -/
  | preemption (task : Nat)
  /-- SPILL (R283): a task's window, local memory and slots are written to the save area. -/
  | spill (task : Nat)
  /-- AGING_MOVE (R279): a task waiting cr.AGE at its level moves to the next higher level. -/
  | agingMove (task : Nat)
  /-- RESERVING (R278): a task at the head of level 0 for cr.AGE becomes reserving. -/
  | reserving (task : Nat)
  /-- TASK_RETIREMENT (R274): a retiring task's resources are freed, successors released and action taken. -/
  | taskRetirement (cx : Nat)
  /-- WAYMARK_ARRIVAL (R286): an arrival counts once its drain completes and may complete the phase. -/
  | waymarkArrival (cx : Nat)
  /-- SEM_WAITER_SERVED (R164): a satisfied semaphore serves its next waiter in priority order. -/
  | semWaiterServed (core sem : Nat)
  /-- KICK (R288): a write of a tail index to a kick page lets the scheduler take records. -/
  | kick (q : Nat) (tail : BitVec 32)
  /-- PART_CREATE (R287): the firmware creates a partition with cores, key slot and domain tag. -/
  | partCreate (part : Byte) (cores : BitVec 96) (key tag : Byte)
  /-- PART_DESTROY (R379): the firmware ends every task of a partition and frees its cores. -/
  | partDestroy (part : Byte)
  /-- AMAP_WRITE (R300): the firmware writes an attribute-map entry. -/
  | amapWrite (host : Bool) (granule : BitVec 31) (entry : Word)
  /-- PASID_SET (R377): the firmware sets a PASID's translation mode and table root. -/
  | pasidSet (pasid mode : BitVec 32) (root : Word)
  /-- SAVE_SET (R379): the firmware sets a partition's save area. -/
  | saveSet (part : Byte) (base bytes : Word)
  /-- QUEUE_PRIV (R382): the firmware maps a privileged queue onto a hardware slot. -/
  | queuePriv (part : Byte) (desc slot : Word)
  /-- TASK_END (R327): the firmware terminates a stopped or parked task. -/
  | taskEnd (part : Byte) (taskId : BitVec 32)
  /-- FRING_SET (R381): the firmware sets the fault ring's base and size. -/
  | fringSet (base entries : Word)
  /-- MIGRATE_EXECUTE (R322): a migration copies and recopies dirty parts, or abandons after three rounds. -/
  | migrateExecute (cx : Nat)
  /-- MIGRATE_CLOSE (R322): after the mark's requests perform, the last parts are copied and the PTE switched. -/
  | migrateClose (cx : Nat)
  /-- SCRUB_LINE (R394): the controller checks one line, rewrites it if correctable and records its code. -/
  | scrubLine (cx : Nat) (ecc : Ecc)
  /-- PATROL (R393): the adaptive patrol reads and checks the next line of a stack. -/
  | patrol (die stack row : Nat) (line : Nat) (ecc : Ecc)
  /-- PATROL_PERIOD_END (R393): at period end every hot-list score is halved and zero rows leave. -/
  | patrolPeriodEnd (die stack : Nat)
  /-- DEBUG_TOKEN (R395): a signed debug token enters OWNER-DEBUG and sets partition levels. -/
  | debugToken (addr : Word)
  /-- RETURN_RECORD (R395): a return record destroys partitions, erases keys and enters RETURN. -/
  | returnRecord (addr : Word)
  /-- ATTEST (R399): the hub writes a signed attestation report into the buffer. -/
  | attest (addr : Word)
  /-- CONFIGURATION_RECORD (R398): the firmware verifies and applies the configuration record. -/
  | configurationRecord (rec : Word × Bool)
  /-- BOOT (R400): from reset the package runs the boot sequence to ready or failed. -/
  | boot (up : BringUp) (hdm : Nat)
  /-- POWER_OFF (R396): power removal enters OFF and loses all state. -/
  | powerOff
  /-- P_STATE_CHANGE (R396): a die changes P state at an ac with cr.CYCLE mod 32 equal to 0. -/
  | pStateChange (die : Nat) (p : BitVec 2)
  /-- RETRAIN (R266): a stack retrains its data rate, serving no slot until done. -/
  | retrain (die stack : Nat)
  /-- C1_ENTRY (R396): a core with no task and no command gates its clock. -/
  | c1Entry (core : Nat)
  /-- C1_EXIT (R396): a core leaves C1 at its next placement. -/
  | c1Exit (core : Nat)
  /-- C3_ENTRY (R396): an idle die enters retention with HBM in self-refresh. -/
  | c3Entry (die : Nat)
  /-- C3_EXIT (R396): a memory request starts a 60 µs exit after which the die runs. -/
  | c3Exit (die : Nat)
  /-- PRI_ENABLE (R317): the driver enables PRI again after a Response Failure, and the hub resumes sending page requests for the entries that waited. -/
  | priEnable
  /-- DEBUG_REQUEST (R397): a debug request to halt, inspect or resume cores of a partition is granted, waits for a C3 exit, or is refused with status 2. -/
  | debugRequest (part : Nat) (act : DebugAct) (core : Nat)
  /-- RETRAIN_END (R333): a stack finishes retraining its data rate, resumes serving slots, and any deferred P-state change or extended save proceeds. -/
  | retrainEnd (die stack : Nat)
  /-- QUEUE_DESTROYED (R270): a user queue is destroyed, closing every open graph instance that the queue launched. -/
  | queueDestroyed (q : Nat)
  deriving DecidableEq, Repr

end Sys2Proof
end

