-- ==== Sys2Proof/Machine/State.lean ====
section
/-!
DEFINITION. The state of one package of the Idtor (R2, R15): its contexts, cores, dies, hub and
memories, as plain data. Arrays are sparse maps; each field's docstring names the value an
unlisted index holds. Fields marked "model" are the model's own bookkeeping.
-/

namespace Sys2Proof.Machine

open Sys2Proof

/-- Why the machine stops. No rule of the manual leaves an instruction without an effect, so no
meaning answers with a fault, and the type has no value. -/
inductive Fault where
  deriving DecidableEq, Repr

/-- Why a step has no meaning. -/
inductive Refusal where
  /-- Raised by the dispatch for an instruction that has no meaning yet. Safe: the machine stops. -/
  | notModelled (mnemonic : String)
  deriving DecidableEq, Repr

/-- A scalar register and its poison tag (R17, R18). -/
structure Reg where
  val    : Word
  poison : Bool
  deriving DecidableEq, Repr

/-- The states of a handle (R309, R310). -/
inductive HState where
  | invalid | pending | valid | faulted | refused
  deriving DecidableEq, Repr

/-- A handle h0-h15 (R117, R309, R311). -/
structure Handle where
  state : HState := .invalid
  /-- the address given to XLATE -/
  va    : Word := 0
  /-- the page's first address, its place and its size (Table 4.4) -/
  base  : Word := 0
  phys  : Nat := 0
  host  : Bool := false
  size  : BitVec 2 := 0
  read  : Bool := false
  write : Bool := false
  pasid : BitVec 20 := 0
  gen   : Word32 := 0
  /-- the intent named by XLATE (R117) -/
  needR : Bool := false
  needW : Bool := false
  /-- the ac in which the 24 ac of XLATE end (R117) -/
  due   : Nat := 0
  /-- a walk or ATS request is in flight (R309) -/
  walk  : Bool := false
  deriving DecidableEq, Repr

/-- A mailbox (R17, R31). -/
structure Mbox where
  val  : Word := 0
  full : Bool := false
  deriving DecidableEq, Repr

/-- One queue's milestone (R22, R23): the last number posted, the counter, and the numbers that
completed ahead of it. -/
structure Mile where
  posted   : Nat := 0
  counter  : Nat := 0
  ahead    : List Nat := []
  deriving DecidableEq, Repr

/-- The directions of a stream binding (R143). -/
inductive Dir where
  | inp | out | chainIn | chainOut | circ
  deriving DecidableEq, Repr

/-- A stream binding s0-s15 (R143). -/
structure Binding where
  base   : Nat
  len    : Nat
  dir    : Dir
  /-- the record size in words, 0 for the linear map -/
  words  : Nat
  deriving DecidableEq, Repr

/-- A byte range of a window that a command declares (R24, R149). -/
structure Range where
  lo      : Nat
  len     : Nat
  chained : Bool
  deriving DecidableEq, Repr

/-- A stream descriptor (Table 5.4). -/
structure Desc where
  va      : Word
  srf     : Nat
  srfLen  : Nat
  kind    : Nat
  mty     : Nat
  sty     : Nat
  chained : Bool
  p2z     : Bool
  ws      : Bool
  sat     : Bool
  signS   : Bool
  dims    : Nat
  gauge   : Nat
  counts  : List Nat
  strides : List Int
  deriving DecidableEq, Repr

/-- A copy record (Table 5.7). -/
structure CopyRec where
  src     : Word
  dst     : Word
  bytes   : Nat
  kind    : Nat
  chained : Bool
  deriving DecidableEq, Repr

/-- What a posted command does (chapter 5). -/
inductive CmdKind where
  | sload (d : Desc)
  | sgather (d : Desc) (idx : Nat)
  | sstore (d : Desc) (dests : List Word)
  | sscatter (d : Desc) (idx : Nat) (op : Option RedOp)
  | spair (d : Desc) (xc : Word)
  | scopy (r : CopyRec)
  | wsLoad
  | wsSeal
  | scrub (va : Word)
  | migrate (va : Word)
  | krun (image : Word) (binds : SMap (Option Binding))
  | prefetch (va : Word)
  | matrix (routine : Nat) (p : List Word32) (reads writes : List Range) (preds : List Nat)
      (stream : Nat) (mpost : Bool)
  | mrout (va : Word) (index w count : Nat)
  | tree (fn slot : Nat) (xa xb xc : Word)
  | flag (va : Word) (phys : Nat) (host : Bool) (size : Nat) (v : Word) (poison : Bool)
      (scope : Scope) (covered : List Nat) (page : BitVec 2)
  | waymark (id : Nat) (scope : Option Scope) (covered : List Nat)
  deriving DecidableEq, Repr

/-- A posted command (R20, R22, R24, R141). -/
structure Cmd where
  queue  : Queue
  num    : Nat
  kind   : CmdKind
  /-- the local offset of the completion record, if one was requested -/
  recOff : Option Nat
  reads  : List Range
  writes : List Range
  /-- whether the command holds a scoreboard entry, and the order in which it was posted -/
  board  : Bool
  ord    : Nat
  deriving DecidableEq, Repr

/-- A memory line that a load command has received (R145, R259). -/
structure Stage where
  run    : Nat
  line   : Nat
  bytes  : List Byte
  poison : Bool
  deriving DecidableEq, Repr

/-- A command that its engine has accepted, and how far it has come (R20, R142, R254). -/
structure Active where
  cmd     : Cmd
  /-- the order of acceptance in the package -/
  ord     : Nat
  /-- the command's waits under R248 have ended and its chained lines are emptied (R251) -/
  started : Bool := false
  /-- the next request: dimension-0 run and line of the run (R254) -/
  run     : Nat := 0
  line    : Nat := 0
  /-- lines received by a load, requests performed by a store, SRF lines written -/
  stage   : List Stage := []
  fin     : List (Nat × Nat) := []
  writ    : List Nat := []
  /-- the words that a load has written of SRF lines not yet whole: bit j is word j (R263); unlisted: none -/
  parts   : SMap Word32 := []
  /-- requests that must be generated again after a success answer (R314) -/
  redo    : List (Nat × Nat × Nat) := []
  /-- fault entries that park the queue (R314), and the requests refused: (run, line) -/
  parked  : List Nat := []
  refused : List (Nat × Nat × Bool) := []
  /-- status, sub-cause and fault VA of a failure met so far -/
  fail    : Option (Nat × Nat × Word) := none
  flags   : BitVec 16 := 0
  aux     : Nat := 0
  /-- units completed: pairs, tree units, scrubbed lines -/
  units   : Nat := 0
  /-- the command has run to its end and may complete -/
  ended   : Bool := false
  /-- a matrix command's predecessors, whether it took links, and its routine's state (R339) -/
  linked  : Bool := true
  running : Bool := false
  /-- row addresses that a gather or scatter has taken from its index list (R254) -/
  vas     : List (Nat × Word) := []
  /-- a migration's phase and rounds; the ac of a pair's lock (R322, R349) -/
  phase   : Nat := 0
  rounds  : Nat := 0
  token   : Option Nat := none
  /-- the ac of acceptance (R361) -/
  at_     : Nat := 0
  deriving DecidableEq, Repr

/-- A launch record (Table 12.1). -/
structure LaunchRec where
  entry    : Word := 0
  arg      : Word := 0
  srf      : Nat := 0
  localB   : Nat := 0
  acc      : Nat := 0
  prio     : Nat := 0
  graph    : Nat := 0
  deps     : Nat := 0
  succs    : Nat := 0
  succVa   : Word := 0
  action   : Word := 0
  dieMask  : Nat := 0
  hint     : Nat := 0
  preempt  : Bool := false
  arm      : Bool := false
  close    : Bool := false
  wmId     : Nat := 0
  wmCount  : Nat := 0
  deriving DecidableEq, Repr

/-- The state of an interrupted GATHERL expansion (R138). -/
structure GatherSt where
  pc   : Word
  step : Nat
  a    : Word
  b    : Word
  c    : Word
  d    : Nat
  deriving DecidableEq, Repr

/-- A lane register (R27). -/
structure LaneReg where
  val    : Word32
  poison : Bool
  deriving DecidableEq, Repr

/-- A kernel result still in flight in one lane (R39, R330). -/
inductive Pend where
  | v (lane reg due : Nat) (val : Word32) (poison : Bool) (flags : Byte)
  | q (lane idx due : Nat) (val : Bool) (flags : Byte)
  | p (idx due : Nat) (val : Word32)
  | acc (slot cluster entry due : Nat) (val : Word)
  | field (slot cluster idx due : Nat) (val : Byte)
  | ascl (slot cluster idx due : Nat) (delta : Int)
  | dep (slot cluster entry due : Nat) (val : Word32)
  | zero (slot due : Nat) (xa : Bool)
  deriving DecidableEq, Repr

/-- An active zero-overhead loop (R218): its counter, and the first and last word of its body. -/
structure LoopSt where
  ctr   : Nat
  first : Int
  last  : Int
  deriving DecidableEq, Repr

/-- A kernel: the lane and sequencer state of R27, in the form in which it is also held,
snapshot and restored (R330). -/
structure Kernel where
  cx      : Nat
  num     : Nat
  image   : Word
  pasid   : BitVec 20 := 0
  /-- the word offset of the next packet's header -/
  pc      : Int := 0
  binds   : SMap (Option Binding) := []
  pos     : SMap Nat := []
  /-- lane registers, keyed 128 x lane + register; unlisted: zero, untagged -/
  v       : SMap LaneReg := []
  /-- predicates q1-q7, keyed 8 x lane + index; unlisted: 0 -/
  q       : SMap Bool := []
  /-- lane flags (Table 2.3), keyed by lane; unlisted: 0 -/
  flags   : SMap Byte := []
  l       : SMap Word32 := []
  p       : SMap Word32 := []
  /-- active loops, innermost first; a branch's target, if taken, and its delay packets left -/
  loops   : List LoopSt := []
  branch  : Option (Option Int × Nat) := none
  idle    : Nat := 0
  pend    : List Pend := []
  /-- the issue cycle of the next packet (R39) -/
  cyc     : Nat := 0
  latchk  : Bool := false
  ended   : Bool := false
  /-- lane registers that hold an uncorrectable soft error (R331), keyed as v -/
  soft    : List Nat := []
  /-- a word of the snapshot holds an uncorrectable soft error (R331) -/
  snapSoft : Bool := false
  /-- words pushed so far, by window line, those of lanes with guard 0 among them (R199, R250), and the words
  that a push or skip wrote (R201): bit j is word j of the line; unlisted: none -/
  pushed  : SMap Word32 := []
  wrote   : SMap Word32 := []
  /-- cause, sub-cause, word offset and KTRAP code of the last trap (R195) -/
  cause   : Nat := 0
  sub     : Nat := 0
  offset  : Nat := 0
  code    : Nat := 0
  abort   : Bool := false
  freeze  : Bool := false
  deriving DecidableEq, Repr

/-- Why a context is blocked (R19). -/
inductive Block where
  | queueFull (q : Queue)
  | scoreboard
  | mailbox (m : Nat) (full : Bool)
  | sem (core idx : Nat)
  | milestone (q : Queue) (v : Nat)
  | handle (h : Nat)
  | walk (va : Word)
  | castOn
  | fault (entry : Nat)
  | token
  | confirm (slot : Nat)
  | retire
  | waiti
  | ring
  /-- a halt at D2 that waits for its die to leave P2 (R397) -/
  | power
  | stopped
  deriving DecidableEq, Repr

/-- What a context does (R19, R327, R397). -/
inductive Status where
  | idle | ready | running
  | blocked (why : Block)
  deriving DecidableEq, Repr

/-- A refusal that the context's next bundle must raise (R132, R150, R159, R385). -/
inductive Refused where
  | fetch (va : Word) | krun (va : Word) | launch (va : Word) | qmap (va : Word)
  deriving DecidableEq, Repr

/-- A fast context (R17), resident or in shadow storage. -/
structure Ctx where
  status   : Status := .idle
  /-- the core that holds the task's window (R273) -/
  core     : Nat := 0
  /-- the task placed here, 0 for none, and what its record fixed -/
  task     : Nat := 0
  part     : Nat := 0
  pasid    : BitVec 20 := 0
  priv     : Bool := false
  pc       : Word := 0
  /-- x1-x31; unlisted: zero, untagged -/
  x        : SMap Reg := []
  /-- h0-h15; unlisted: INVALID -/
  h        : SMap Handle := []
  /-- m0-m15; unlisted: empty -/
  mbox     : SMap Mbox := []
  /-- the mailboxes that the CP has used in this ac (R31) -/
  mbCp     : List Nat := []
  /-- the six milestones, keyed by queue code; unlisted: 0 -/
  miles    : SMap Mile := []
  /-- s0-s15; unlisted: no binding -/
  binds    : SMap (Option Binding) := []
  /-- arena bindings: the place of the header bound to each slot; unlisted: none -/
  arenas   : SMap (Option (Bool × Nat)) := []
  /-- the address by which each slot's BIND named its header; unlisted: 0 -/
  arenaVa  : SMap Word := []
  /-- the semaphores of other packages that its task owns (R163) -/
  semOwn   : List Nat := []
  armed    : Option (Queue × Word) := none
  gather   : Option GatherSt := none
  /-- cr.TASKID, and the priority of the launch record and that set by TASK.PRIO, from which cr.PRIO
  is computed (R284) -/
  taskId   : Word32 := 0
  launchP  : Nat := 0
  basePrio : Nat := 0
  trapPc   : Word := 0
  trapInfo : Word := 0
  trapVa   : Word := 0
  tvec     : Word := 0
  tactive  : Bool := false
  uivec    : Word := 0
  uactive  : Bool := false
  upending : Bool := false
  uqueue   : Nat := 0
  ushadow  : List Reg := []
  uret     : Word := 0
  lspill   : Word := 0
  kstatus  : Word := 0
  latchk   : Word := 0
  /-- the bits of cr.KSTATUS that hardware has set in this ac (R10) -/
  kset     : Word := 0
  sgidx    : Word := 0
  sgbound  : Word := 0
  sglent   : Word := 0
  wswait   : Word := 0
  kstall   : Word := 0
  calmode  : Word := 0
  /-- the cast-on queue and the spill ring's head and tail (R159, R160) -/
  castOn   : List LaunchRec := []
  ringHead : Nat := 0
  ringTail : Nat := 0
  /-- posted commands in posting order, accepted commands in order of acceptance -/
  posted   : List Cmd := []
  active   : List Active := []
  cmdOrd   : Nat := 0
  /-- the requests that a DRAIN waits for (R129) -/
  drain    : Option (List Nat) := none
  /-- the window, local memory and accumulator slots of the task (R25, R33) -/
  winBase  : Nat := 0
  winBytes : Nat := 0
  locBase  : Nat := 0
  locBytes : Nat := 0
  slots    : List Nat := []
  /-- trapped kernels that are held, oldest first, and whether the oldest's trap is not yet delivered;
  kernels whose snapshot waits for a free array: resumed, or frozen by pre-emption (R328) -/
  heldK    : List Kernel := []
  kdeliver : Bool := false
  waitK    : List Kernel := []
  /-- fault-queue sequence numbers, keyed by engine code (Table 16.2) -/
  seqs     : SMap Nat := []
  refused  : Option Refused := none
  /-- the time of its die since which the context is blocked (R280) -/
  since    : Nat := 0
  /-- the task has run TASK.RETIRE to its end and may retire (R161, R274) -/
  retiring : Bool := false
  arg      : Word := 0
  deriving DecidableEq, Repr

/-- Who sends a request to a controller (Table 10.4): a core, the tree engine of a die, or another package
through the Causeway. -/
inductive Agent where
  | core
  | tree (die : Nat)
  | causeway
  deriving DecidableEq, Repr

/-- What a memory request does at its place (R263, R291). -/
inductive ReqOp where
  /-- a CP load: register, size, sign extension, acquire -/
  | load (d size : Nat) (sext acq : Bool)
  /-- a CP or flag store -/
  | store (bytes : List Byte) (poison : Bool) (rel : Bool)
  | flagStore (bytes : List Byte) (poison : Bool) (num : Nat)
  /-- an atomic -/
  | amo (op : AmoOp) (d : Nat) (dword : Bool) (b cmp : Word)
  /-- a line read for a load or copy command: queue, number, run, line -/
  | line (q : Queue) (num run ln : Nat)
  /-- a line written by a store or copy command; bytes absent from the list are kept -/
  | lineSt (q : Queue) (num run ln : Nat) (bytes : List (Nat × Byte)) (poison whole : Bool)
  /-- elements of a reducing scatter: offset in the line, bytes, poison mark -/
  | reduce (q : Queue) (num run ln : Nat) (op : RedOp) (els : List (Nat × List Byte × Bool))
  /-- one line of a pair (R349) -/
  | pair (num pair ln : Nat) (bytes : List Byte) (poison : Bool)
  /-- an operation at a semaphore of another package (R306) -/
  | sem (op : SemOp) (d : Nat) (addr : Nat) (v : Word32)
  /-- a line of four nodes read for the arena whose header lies at a place (R366) -/
  | treeLine (arena line : Nat)
  /-- a line read by a BIND, and the atomic that sets flag [7] of the header at the place (R238) -/
  | treeStage (num : Nat)
  | treeFlag (num : Nat)
  /-- bytes of a line written for an arena (R353, R366) -/
  | treeWr (arena : Nat) (bytes : List (Nat × Byte))
  deriving DecidableEq, Repr

/-- A request in flight to memory (R254, R255, R263). -/
structure Req where
  id     : Nat
  cx     : Nat
  op     : ReqOp
  va     : Word
  pasid  : BitVec 20
  phys   : Nat
  host   : Bool
  /-- the ac of generation (R264) -/
  gen    : Nat
  /-- requests that must perform first (R295, R296) -/
  after  : List Nat
  /-- served at its controller, in this ac; owned slots fix the completion (R263) -/
  served : Option Nat
  due    : Option Nat
  /-- the value read, and its poison -/
  data   : List Byte
  dpois  : Bool
  /-- a block-read group and whether the controller has admitted it (R351) -/
  group  : Option Nat
  admitted  : Bool
  /-- the place is the weight store, at offset `phys` (R267) -/
  ws     : Bool := false
  /-- the size code of the page through which it was translated (R319) -/
  page   : BitVec 2 := 0
  /-- who sends it, and for a request to another package the times at which it was sent and reached its place, if it is
  not lost (R306) -/
  agent  : Agent := .core
  sent   : Option Nat := none
  reach  : Option Nat := none
  /-- a lock has kept it from its slot (R350) -/
  waited : Bool := false
  deriving DecidableEq, Repr

/-- Who waits for the answer to a fault entry. -/
inductive Who where
  | nobody
  | handle (cx h : Nat)
  | fetch (cx : Nat)
  | krun (cx : Nat)
  | ring (cx : Nat)
  | qmap (cx : Nat)
  | engine (cx : Nat) (q : Queue) (num run line : Nat)
  | kcode (cx num : Nat)
  | sched (src : Source) (succ : Bool)
  /-- a write-back of an arena of a die, known by its header's place: at its release, or at an eviction (R367) -/
  | arena (die phys : Nat) (release : Bool)
  deriving DecidableEq, Repr

/-- A fault-queue entry (Table 16.2), and how far its answer has come (R315, R317). -/
structure FaultEntry where
  id      : Nat
  die     : Nat
  va      : Word
  task    : Word32
  pasid   : BitVec 20
  seq     : Nat
  kind    : Nat
  sub     : Nat
  engine  : Nat
  read    : Bool
  write   : Bool
  atomic  : Bool
  exec    : Bool
  info    : Bool
  core    : Nat
  ctx     : Nat
  part    : Nat
  aux     : Nat
  who     : Who
  copied  : Bool
  sent    : Bool
  answer  : Option Bool
  deriving DecidableEq, Repr

/-- A word of the SRF and its poison mark (R199). -/
structure SrfWord where
  val    : Word32
  poison : Bool
  deriving DecidableEq, Repr

/-- The state of an SRF line (R250): the fill bit, the commands that hold it (task, posting
order), and the readers whose release empties it for a chained writer (R251). -/
structure LineSt where
  full    : Bool := false
  holders : List (Nat × Nat) := []
  before  : List (Nat × Nat) := []
  deriving DecidableEq, Repr

/-- A waiter of a semaphore (R164, R285): its task or remote caller, its amount, whether it
acquires, its arrival, and whether its amount is reserved. -/
structure Waiter where
  who      : Nat
  amount   : Int
  acq      : Bool
  arrival  : Nat
  prio     : Nat
  reserved : Bool
  deriving DecidableEq, Repr

/-- A semaphore (R35). -/
structure Sem where
  val     : Word32 := 0
  owner   : Option Nat := none
  ownPrio : Nat := 0
  waiters : List Waiter := []
  deriving DecidableEq, Repr

/-- A cached translation (R313, R318). -/
structure Tlb where
  pasid : BitVec 20
  base  : Word
  size  : BitVec 2
  phys  : Nat
  host  : Bool
  read  : Bool
  write : Bool
  deriving DecidableEq, Repr

/-- A bundle held by the instruction cache (R134). -/
structure ICLine where
  pasid : BitVec 20
  va    : Word
  words : List Word32
  deriving DecidableEq, Repr

/-- A word of a kernel image held by kernel code memory: the header of the packet with which it was fetched, so
that a packet is executed whole as it was read, and the image for which (R391); and whether it holds an
uncorrectable soft error (R331). -/
structure KCode where
  pasid : BitVec 20
  pkt   : Word
  va    : Word
  word  : Word32
  image : Word := 0
  soft  : Bool := false
  deriving DecidableEq, Repr

/-- A routine that the plane engine runs (Table 8.1). Per-cluster values are keyed
64 x cluster + port; unlisted: 0. -/
structure Routine where
  cx    : Nat
  num   : Nat
  w     : Nat
  count : Nat
  pc    : Nat := 0
  p     : SMap Word32 := []
  lc    : SMap Word32 := []
  loops : List (Nat × Nat × Nat × Bool) := []
  ports : SMap Word32 := []
  /-- plane buffers, keyed 2^16 x cluster + 2^11 x entry + byte -/
  abuf  : SMap Byte := []
  bbuf  : SMap Byte := []
  /-- array accumulator, keyed 4096 x cluster + 64 x row + column -/
  acc   : SMap Word := []
  /-- exponent fields, keyed 64 x cluster + index; unlisted: 127 -/
  er    : SMap Byte := []
  ec    : SMap Byte := []
  aovf  : SMap Bool := []
  arng  : SMap Bool := []
  flags : BitVec 16 := 0
  last  : Nat := 0
  ended : Bool := false
  bad   : Option Nat := none
  deriving DecidableEq, Repr

/-- A stream core (Table 1.1). -/
structure CoreSt where
  /-- the SRF by word and by line; unlisted: zero, unmarked; EMPTY, no holder -/
  srf    : SMap SrfWord := []
  lines  : SMap LineSt := []
  /-- the CP local memory by byte; unlisted: 0 -/
  loc    : SMap Byte := []
  /-- poison marks of the CP local memory by 128-byte line (R18); unlisted: none -/
  locBad : SMap Bool := []
  /-- accumulator entries, keyed ((8 x cluster + slot) x 4096) + 64 x i + j; unlisted: 0 -/
  acc    : SMap Word := []
  /-- exponent fields, keyed (8 x cluster + slot) x 128 + index; unlisted: 127 -/
  fields : SMap Byte := []
  /-- tile status words, keyed 8 x cluster + slot; unlisted: 0 -/
  tiles  : SMap Byte := []
  /-- tile status bits set in this ac beside those of tiles, which they join when it ends (R212, R347); unlisted:
  none -/
  tileSet : SMap Byte := []
  /-- sem0-sem63; unlisted: 0, no owner, no waiter -/
  sems   : SMap Sem := []
  /-- routine store words and routine table; unlisted: 0; unset -/
  store  : SMap Word := []
  rtab   : SMap (Option (Nat × Nat)) := []
  tlb    : List Tlb := []
  icache : List ICLine := []
  kcode  : List KCode := []
  kern   : Option Kernel := none
  plane  : Option Routine := none
  /-- the context that last held the CP (R19) -/
  last   : Nat := 0
  c1     : Bool := false
  halted : Bool := false
  /-- lines that the address generator has requested in this ac, and the queues, keyed 8 x context +
  queue, that have had a turn of the present round (R254) -/
  genAc   : Nat := 0
  genTurn : List Nat := []
  /-- the contexts that have had a turn of the present round at the plane engine (R337) -/
  matTurn : List Nat := []
  deriving DecidableEq, Repr

/-- The states of a weight store (R157). -/
inductive WsMode where
  | sealed | draining | loading
  deriving DecidableEq, Repr

/-- A tree node (Table 21.1). -/
structure Node where
  n      : Word32 := 0
  vl     : BitVec 16 := 0
  flags  : Byte := 0
  gen    : Byte := 0
  w      : Word := 0
  p      : BitVec 16 := 0
  action : BitVec 16 := 0
  first  : Word32 := 0
  count  : BitVec 16 := 0
  zero   : BitVec 16 := 0
  parent : Word32 := 0
  deriving DecidableEq, Repr

/-- An arena bound on a die (Table 8.7): its header, the cached nodes, the lines that are dirty, and the
free runs. -/
structure Arena where
  va       : Word
  /-- the header's place, by which the die knows the arena -/
  host     : Bool
  phys     : Nat
  /-- whose translations its accesses use: PASID, partition, core -/
  pasid    : BitVec 20
  part     : Nat
  core     : Nat
  base     : Word
  capacity : Nat
  bump     : Nat
  /-- the free-run list: its address, the runs that it can hold, its runs (first, length), and whether
  they differ from memory -/
  listVa   : Word
  maxRuns  : Nat
  runs     : List (Nat × Nat)
  rdirty   : Bool
  root     : Nat
  gen      : Byte
  alt      : Bool
  cpuct    : Word32
  vloss    : Word32
  first    : Word32
  next     : Word32
  /-- the ac in which next last changed, and the last ac in which no gap stood (R361) -/
  moved    : Nat
  noGap    : Nat
  /-- its BIND has not yet learnt that it has flag [7]; the flag was clear before and has been set for it; its release has
  sent its header with flag [7] clear (R238, R353) -/
  binding  : Bool := false
  taken    : Bool := false
  closing  : Bool := false
  nodes    : SMap (Option Node) := []
  dirty    : List Nat := []
  deriving DecidableEq, Repr

/-- A row of a stack's hot list (R393): row, score, order of entry, and whether it is under a retirement request. -/
structure HotRow where
  row   : Nat
  score : Nat
  entry : Nat
  req   : Bool := false
  deriving DecidableEq, Repr

/-- A compute die. -/
structure DieSt where
  cycle    : Nat := 0
  age      : Word := 1000
  swapwait : Word := 100
  calctl   : Word := 7
  scrubctl : Word := 0x001005A000000007
  retreq   : Word := 0
  /-- V of cr.RETREQ has been set in this ac (R10) -/
  retSet   : Bool := false
  pstate   : BitVec 2 := 0
  c3       : Bool := false
  /-- the weight store: its mode and its bytes; unlisted: 0 -/
  ws       : WsMode := .sealed
  wsMem    : SMap Byte := []
  wsPois   : SMap Bool := []
  /-- banks under refresh, and the banks of the lines served in this ac (R267) -/
  wsRef    : List Nat := []
  wsUsed   : List Nat := []
  arenas   : List Arena := []
  /-- the time since reset, in units of 1/2100 µs: 3, 4 and 6 of them make an ac at P0, P1 and P2 (R7) -/
  time     : Nat := 0
  /-- stacks that retrain, with the time at which each ends; hot lists; requests held for cr.RETREQ; patrol: how
  often each line, keyed 2^32 x stack + line, was read in the period of its stack, the row that each stack has
  reached, and when each period began (R393) -/
  retrain  : List (Nat × Nat) := []
  hot      : List (Nat × HotRow) := []
  pendRet  : List (Nat × Nat × Nat) := []
  patrol   : SMap Nat := []
  patRow   : SMap Nat := []
  patStart : SMap Nat := []
  /-- the core that last borrowed a slot 24-27 or 30 of each channel (R265) -/
  lastTree : SMap Nat := []
  lastHub  : SMap Nat := []
  /-- channels that have served a burst in this ac (R262), and a P-state change that waits -/
  used     : List Nat := []
  pWait    : Option (BitVec 2) := none
  /-- stacks whose retraining a deadline save holds back (R333) -/
  trainDue : List Nat := []
  /-- the time at which a running exit from C3 ends (R396) -/
  c3Exit   : Option Nat := none
  deriving DecidableEq, Repr

/-- The states of a task (Table 12.2). -/
inductive TaskSt where
  | waiting | ready | placed | swapped | spilled | retired
  deriving DecidableEq, Repr

/-- What a spill saves besides the bytes of the window, local memory and slots, which stand in the save area:
poison marks and line states (R244, R283). -/
structure SpillImg where
  /-- the marked words of the window, its line states, the marked lines of the local memory -/
  marks  : List Nat
  lines  : SMap LineSt
  locBad : SMap Bool
  /-- the bytes saved -/
  bytes  : Nat
  /-- the die on which the task is refilled (R283) -/
  die    : Nat
  deriving DecidableEq, Repr

/-- A task (R268, R273). -/
structure Task where
  id     : Nat
  part   : Nat
  pasid  : BitVec 20
  priv   : Bool
  lrec   : LaunchRec
  state  : TaskSt
  /-- dependences left, and the graph instance and ordinal -/
  count  : Nat
  inst   : Option Nat
  ord    : Nat
  /-- list level, place in the list, and by the time of its governing die: when it joined it, and since when it heads
  level 0 -/
  level  : Nat
  place  : Nat
  since  : Nat
  /-- the level at which it competed when the lists were last put in order (R279) -/
  eff    : Nat := 3
  head   : Option Nat
  reserv : Bool
  /-- the order of its placement and of its swap; it is to be spilled (R281, R283) -/
  placed : Nat
  swap   : Nat
  spillDue : Bool
  /-- the runs of the save area, offset and bytes, that hold its fast context (R282) and its image (R283), and
  the ac in which its last save completes (R332) -/
  movedAt : Option (Nat × Nat)
  savedAt : Option (Nat × Nat)
  saveEnd : Nat
  img    : Option SpillImg
  /-- the successor list as read at taking (R268) -/
  succ   : List Nat
  deriving DecidableEq, Repr

/-- A graph instance (R270). -/
structure Inst where
  id     : Nat
  part   : Nat
  /-- launcher: a task or a user queue number -/
  task   : Option Nat
  queue  : Option Nat
  graph  : Nat
  next   : Nat
  closed : Bool
  /-- releases held for ordinals not yet taken (R271) -/
  held   : SMap Nat
  deriving DecidableEq, Repr

/-- A waymark (R286), with the contexts and REM numbers that have arrived. -/
structure Waymark where
  target : Nat := 0
  count  : Nat := 0
  phase  : Nat := 0
  who    : List (Nat × Nat) := []
  deriving DecidableEq, Repr

/-- A partition (R287). -/
structure Part where
  cores  : List Nat
  key    : BitVec 4
  tag    : Byte
  saveB  : Word := 0
  saveN  : Nat := 0
  nextId : Nat := 0
  /-- its attestation identity (R287) -/
  ident  : Nat := 0
  deriving DecidableEq, Repr

/-- A PASID's translation set-up and generation (R311, R377). -/
structure Pasid where
  mode : PasidMode := .none
  root : Word := 0
  gen  : Word32 := 0
  deriving DecidableEq, Repr

/-- A user queue (R288, R383): its descriptor, its slot when mapped, and its error and kick
state. -/
structure UQueue where
  desc   : Nat
  dhost  : Bool
  ring   : Word
  size   : Nat
  pasid  : BitVec 20
  headVa : Word
  num    : Nat
  cap    : Nat
  part   : Nat
  priv   : Bool
  slot   : Option Nat
  head   : Nat
  tail   : Nat
  latch  : Bool
  error  : Bool
  deriving DecidableEq, Repr

/-- A shootdown token (R318, R319). -/
structure Token where
  serial : Nat
  pasid  : BitVec 20
  va     : Nat
  pages  : Nat
  at_    : Nat
  /-- the requests generated under the old translations -/
  covers : List Nat
  auto   : Bool
  deriving DecidableEq, Repr

/-- The security modes (R395). -/
inductive SecMode where
  | locked | ownerDebug | ret
  deriving DecidableEq, Repr

/-- The hub. -/
structure Hub where
  /-- cr.PKG and the rest of the configuration record (R398) -/
  pkg      : Nat := 0
  domain   : Nat := 1
  plimit   : Nat := 0
  cabling  : List Byte := []
  dbgOk    : BitVec 16 := 0
  ownerKey : List Byte := []
  dataKeys : List Byte := []
  cfgDig   : List Byte := []
  fwDig    : List Byte := []
  hstatus  : Word := 0
  /-- the registers of the hub that the host writes (Tables 24.2, 25.8); of MREQ the addresses whose requests are not
  yet performed, oldest first (R379) -/
  mreq     : List Word := []
  dtoken   : Word := 0
  attest   : Word := 0
  cfgrec   : Word := 0
  /-- the memory encryption key slots that hold a key (R287, R395) -/
  keySlots : List Nat := []
  /-- the cores whose trace a debugger has had recorded and that has not been flushed to memory (R397) -/
  trace    : List Nat := []
  mode     : SecMode := .locked
  /-- debug level of each partition, 0 to 2; unlisted: 0 -/
  levels   : SMap Nat := []
  trans    : Nat := 0
  parts    : SMap (Option Part) := []
  /-- the attribute map: device granules and host section; unlisted: 0 -/
  amap     : SMap Word := []
  hmap     : SMap Word := []
  pasids   : SMap Pasid := []
  queues   : List UQueue := []
  /-- the latest tails kicked to queues that the hub has not mapped yet, by queue number (R289) -/
  kicks    : SMap (Option Nat) := []
  tokens   : SMap (Option Token) := []
  serial   : Nat := 0
  /-- fault ring: base, entries, next slot to write, pass bit, FHEAD (R381) -/
  fring    : Nat := 0
  fents    : Nat := 0
  fnext    : Nat := 0
  fpass    : Bool := true
  fhead    : Nat := 0
  /-- PRI is enabled, the page-request groups that the host's allocation allows, and raised MSI-X vectors in order (R317,
  R379, R393) -/
  pri      : Bool := true
  priMax   : Nat := 512
  msix     : List Nat := []
  tasks    : List Task := []
  insts    : List Inst := []
  /-- the sources that have had their turn of the round (R275) -/
  turns    : List Source := []
  waymarks : SMap Waymark := []
  /-- counters for task keys, instances, list places and orders (model) -/
  nextTask : Nat := 1
  nextInst : Nat := 0
  tick     : Nat := 0
  /-- the base B of the HDM range, which the host programs (R375) -/
  hdm      : Nat := 2 ^ 51
  /-- the status given to the last debug request, and what it read (R397) -/
  mstat    : Nat := 0
  dbgOut   : List Word := []
  /-- ATS invalidations completed and responses dropped, counted (R306, R320) -/
  atsDone  : Nat := 0
  deriving DecidableEq, Repr

/-- What moves next (model): the events of the package's units and of the world outside it, a
core's next bundle, packet or routine word, the passing of one ac, or the driver's write of MREQ (R379). -/
inductive Turn where
  | event (i : Instr)
  | bundle (core : Nat)
  | packet (core : Nat)
  | routine (core : Nat)
  | ac
  | mreq (v : Word)
  deriving DecidableEq, Repr

/-- The dirty filter of a migration's source page: one bit per 512 bytes (R322). -/
structure Filter where
  cx    : Nat
  num   : Nat
  base  : Nat
  bytes : Nat
  parts : List Nat
  deriving DecidableEq, Repr

/-- The package. -/
structure State where
  /-- contexts, keyed 4 x core + number (R5, R17); fast contexts in shadow storage or the save
  area stand at 1024 + task; unlisted: idle, as after reset -/
  ctxs    : SMap Ctx := []
  /-- cores 0-95 and dies 0-3; unlisted: as after reset -/
  cores   : SMap CoreSt := []
  dies    : SMap DieSt := []
  hub     : Hub := {}
  /-- device memory by physical address (Table 1.7); unlisted: 0; poisoned lines -/
  mem     : List Host.Cell := []
  pois    : SMap Bool := []
  /-- pairs of blocks that a stack controller has locked: lines (R349) -/
  locks   : List Nat := []
  /-- host memory by host physical address; unlisted: 0; poisoned lines -/
  hostMem : List Host.Cell := []
  hpois   : SMap Bool := []
  /-- armed dirty filters -/
  filters : List Filter := []
  reqs    : List Req := []
  nextReq : Nat := 0
  faults  : List FaultEntry := []
  nextFlt : Nat := 0
  /-- what moves next, the context the instructions act on, and the counter of free values
  (model) -/
  agenda  : List Turn := []
  focus   : Nat := 0
  free    : Nat := 0
  deriving DecidableEq, Repr

/-- The package right after reset (R9, R11, R21, R400): no partition, every context idle, every
register at its reset value, memory listing nothing. -/
def State.reset : State := {}

end Sys2Proof.Machine
end

