-- ==== Sys2Proof/Machine/Ops.lean ====
section
/-!
DEFINITION. The named operations over the state that every meaning uses: sparse maps, contexts,
cores and dies, registers, memory and its poison, requests, fault-queue entries, and the one way in which
a context takes a trap (R107, R324 to R327).
-/

namespace Sys2Proof.Machine

open Sys2Proof

/-! ### Sparse maps -/

/-- The value at an index; `d` where the index is not listed. -/
def smGet {α : Type} (d : α) : SMap α → Nat → α
  | [], _ => d
  | (j, v) :: m, k => if j = k then v else smGet d m k

/-- The map without an index. -/
def smErase {α : Type} (m : SMap α) (k : Nat) : SMap α := m.filter (fun p => p.1 ≠ k)

/-- An entry placed before the first larger index. -/
def smIns {α : Type} : SMap α → Nat → α → SMap α
  | [], k, v => [(k, v)]
  | (j, u) :: m, k, v => if k < j then (k, v) :: (j, u) :: m else (j, u) :: smIns m k v

/-- The map with a value at an index; the value `d` is not listed. -/
def smPut {α : Type} [DecidableEq α] (d : α) (m : SMap α) (k : Nat) (v : α) : SMap α :=
  if v = d then smErase m k else smIns (smErase m k) k v

/-- The canonical form: indexes strictly rising, no entry equal to the default. -/
abbrev smWf {α : Type} (d : α) (m : SMap α) : Prop :=
  m.Pairwise (fun p q => p.1 < q.1) ∧ ∀ p ∈ m, p.2 ≠ d

/-- Consecutive indexes given values in turn. -/
def smPutAll {α : Type} [DecidableEq α] (d : α) (m : SMap α) (k : Nat) : List α → SMap α
  | [] => m
  | v :: vs => smPutAll d (smPut d m k v) (k + 1) vs

/-- A list in the order of a key, equal keys in the order they had. -/
def insBy {α : Type} (f : α → Nat) (x : α) : List α → List α
  | [] => [x]
  | y :: ys => if f x ≤ f y then x :: y :: ys else y :: insBy f x ys
def sortBy {α : Type} (f : α → Nat) : List α → List α
  | [] => []
  | x :: xs => insBy f x (sortBy f xs)

/-- The element of the smallest key, the first among equals. -/
def best {α : Type} (key : α → Nat) : List α → Option α
  | [] => none
  | x :: xs => match best key xs with
    | none => some x
    | some y => if key x ≤ key y then some x else some y

/-! ### Contexts, cores, dies -/

def State.ctx (s : State) (cx : Nat) : Ctx := smGet {} s.ctxs cx
def State.setCtx (s : State) (cx : Nat) (c : Ctx) : State := { s with ctxs := smPut {} s.ctxs cx c }
def State.modCtx (s : State) (cx : Nat) (f : Ctx → Ctx) : State := s.setCtx cx (f (s.ctx cx))

def State.core (s : State) (g : Nat) : CoreSt := smGet {} s.cores g
def State.setCore (s : State) (g : Nat) (c : CoreSt) : State := { s with cores := smPut {} s.cores g c }
def State.modCore (s : State) (g : Nat) (f : CoreSt → CoreSt) : State := s.setCore g (f (s.core g))

def State.die (s : State) (d : Nat) : DieSt := smGet {} s.dies d
def State.setDie (s : State) (d : Nat) (c : DieSt) : State := { s with dies := smPut {} s.dies d c }
def State.modDie (s : State) (d : Nat) (f : DieSt → DieSt) : State := s.setDie d (f (s.die d))

def State.modHub (s : State) (f : Hub → Hub) : State := { s with hub := f s.hub }

/-- The core of a context in the fast file (R5). -/
def coreOf (cx : Nat) : Nat := cx / 4

/-- The die of a core (R5). -/
def dieOf (g : Nat) : Nat := g / 24

/-- Whether a key names a context of the fast file. -/
def resident (cx : Nat) : Bool := cx < 384

/-- The name under which a retired task's last requests go on: its core is kept in it (model). -/
def ghost (core : Nat) : Nat := 2 ^ 32 + core

/-- The core whose memories a context's task uses. -/
def State.home (s : State) (cx : Nat) : Nat :=
  if resident cx then coreOf cx else if 2 ^ 32 ≤ cx then cx - 2 ^ 32 else (s.ctx cx).core

/-- The contexts whose task's memories are those of a core, swapped ones among them. -/
def State.ctxsAt (s : State) (g : Nat) : List Nat := (s.ctxs.filter fun p => s.home p.1 = g).map Prod.fst

/-- The ac, equal on every die (R262). -/
def State.now (s : State) : Nat := (s.die 0).cycle

/-- A free value, and the state in which it has been taken (log 6). -/
def State.takeFree (s : State) : Word × State :=
  (Config.freeWord s.free, { s with free := s.free + 1 })

/-! ### Scalar registers (R17, R18) -/

/-- The value of a scalar register; x0 reads zero. -/
def Ctx.rd (c : Ctx) (r : Nat) : Word := if r = 0 then 0 else (smGet ⟨0, false⟩ c.x r).val

/-- The poison tag of a scalar register; x0 is never poisoned. -/
def Ctx.tag (c : Ctx) (r : Nat) : Bool := if r = 0 then false else (smGet ⟨0, false⟩ c.x r).poison

/-- A scalar register written with its tag; a write of x0 is discarded. -/
def Ctx.wr (c : Ctx) (r : Nat) (v : Word) (p : Bool) : Ctx :=
  if r = 0 then c else { c with x := smPut ⟨0, false⟩ c.x r ⟨v, p⟩ }

def State.rdX (s : State) (cx : Nat) (r : BitVec 5) : Word := (s.ctx cx).rd r.toNat
def State.tagX (s : State) (cx : Nat) (r : BitVec 5) : Bool := (s.ctx cx).tag r.toNat
def State.wrX (s : State) (cx : Nat) (r : BitVec 5) (v : Word) (p : Bool) : State :=
  s.modCtx cx (fun c => c.wr r.toNat v p)

/-! ### Bytes (R8) and memory -/

/-- The little-endian number of a byte list. -/
def leNat : List Byte → Nat
  | [] => 0
  | b :: bs => b.toNat + 256 * leNat bs

/-- The n low bytes of a number, lowest first. -/
def leBytes : Nat → Nat → List Byte
  | 0, _ => []
  | n + 1, v => BitVec.ofNat 8 v :: leBytes n (v / 256)

/-- A byte of device memory, or of host memory; an unlisted byte reads zero (log 4). -/
def State.rdByte (s : State) (host : Bool) (a : Nat) : Byte :=
  smGet 0 (if host then s.hostMem else s.mem) a

/-- n bytes from an address on. -/
def State.rdMem (s : State) (host : Bool) (a : Nat) : Nat → List Byte
  | 0 => []
  | n + 1 => s.rdByte host a :: s.rdMem host (a + 1) n

/-- A dirty filter after a store of n bytes at an address (R322). -/
def Filter.note (f : Filter) (a n : Nat) : Filter :=
  { f with parts := (List.range (f.bytes / 512)).filter fun i => f.parts.contains i ||
      (decide (a < f.base + 512 * i + 512) && decide (f.base + 512 * i < a + n)) }

/-- Bytes stored from an address on; memory keeps its canonical form, and armed dirty filters note the
parts stored to. -/
def State.wrMem (s : State) (host : Bool) (a : Nat) (bs : List Byte) : State :=
  if host then { s with hostMem := smPutAll 0 s.hostMem a bs }
  else { s with mem := smPutAll 0 s.mem a bs, filters := s.filters.map fun f => f.note a bs.length }

/-- Memory is in its canonical form: device and host memory, and both poison maps. -/
abbrev Memory.wf (s : State) : Prop :=
  smWf 0 s.mem ∧ smWf 0 s.hostMem ∧ smWf false s.pois ∧ smWf false s.hpois

/-- Whether the 128-byte line of an address is poisoned (R18). -/
def State.bad (s : State) (host : Bool) (a : Nat) : Bool :=
  smGet false (if host then s.hpois else s.pois) (a / 128)

/-- The poison mark of a line set or cleared. -/
def State.mark (s : State) (host : Bool) (a : Nat) (b : Bool) : State :=
  if host then { s with hpois := smPut false s.hpois (a / 128) b }
  else { s with pois := smPut false s.pois (a / 128) b }

/-- A word of n bytes read as a number. -/
def State.rdNum (s : State) (host : Bool) (a n : Nat) : Nat := leNat (s.rdMem host a n)

/-- Lines that bytes from a to a + n reach: whether one of them is poisoned. -/
def State.badRange (s : State) (host : Bool) (a n : Nat) : Bool :=
  (List.range (n / 128 + 2)).any fun i => decide (a / 128 + i ≤ (a + n - 1) / 128) && s.bad host (128 * (a / 128 + i))

/-! ### Requests (R254, R263, R295) -/

/-- Whether a request is still outstanding. -/
def State.outstanding (s : State) (id : Nat) : Bool := s.reqs.any (fun r => r.id = id)

/-- Whether a request has performed at its place (R291). -/
def State.performed (s : State) (id : Nat) : Bool :=
  !s.reqs.any (fun r => r.id = id && r.served.isNone)

def State.findReq (s : State) (id : Nat) : Option Req := s.reqs.find? (fun r => r.id = id)

def State.modReq (s : State) (id : Nat) (f : Req → Req) : State :=
  { s with reqs := s.reqs.map fun r => if r.id = id then f r else r }

def State.dropReq (s : State) (id : Nat) : State :=
  { s with reqs := s.reqs.filter fun r => r.id ≠ id }

/-- The context number of a request that no context sends (model). -/
def noCx : Nat := 2 ^ 31

/-- A request put in flight, with the next number. -/
def State.addReq (s : State) (r : Req) : State :=
  { s with reqs := s.reqs ++ [{ r with id := s.nextReq }], nextReq := s.nextReq + 1 }

/-- Whether a request is a wait or acquisition at a semaphore of another package: while it stands its context waits
(R163). -/
def ReqOp.waits : ReqOp → Bool
  | .sem op _ _ _ => op = .wait || op = .acq
  | _ => false

/-- The scalar register that a request's result is awaited in (R108). -/
def ReqOp.dest : ReqOp → Option Nat
  | .load d _ _ _ => some d
  | .amo _ d _ _ _ => some d
  | .sem op d _ _ => if op = .rel || op = .post then none else some d
  | _ => none

/-- Whether a register of a context awaits a result (R108). -/
def State.awaited (s : State) (cx r : Nat) : Bool :=
  r ≠ 0 && s.reqs.any (fun q => q.cx = cx && q.op.dest = some r)

/-- Whether a request is a CP access: a load, store or AMO. -/
def ReqOp.isCp : ReqOp → Bool
  | .load .. | .store .. | .amo .. => true
  | _ => false

/-- The byte range of memory that a CP access touches. -/
def ReqOp.size : ReqOp → Nat
  | .load _ n _ _ => n
  | .store bs _ _ => bs.length
  | .flagStore bs _ _ => bs.length
  | .amo _ _ dw _ _ => if dw then 8 else 4
  | _ => 128

/-! ### Fault-queue entries (R315, R316) -/

/-- The package's die queue of a fault has room for an entry that expects an answer (R315). -/
def State.faultRoom (s : State) (die : Nat) : Bool :=
  (s.faults.filter fun e => e.die = die && (e.info || e.answer.isNone)).length < 1024

/-- An entry written to its die's fault queue. With a context, task, PASID, sequence number, core
and partition are the context's (Table 16.2). -/
def State.addFault (s : State) (cx : Option Nat) (e : FaultEntry) : State :=
  match cx with
  | none => { s with faults := s.faults ++ [{ e with id := s.nextFlt }], nextFlt := s.nextFlt + 1 }
  | some k =>
    let c := s.ctx k
    let n := smGet 0 c.seqs e.engine + 1
    let e := { e with id := s.nextFlt, task := c.taskId, pasid := c.pasid, seq := n,
                      core := s.home k, ctx := if resident k then k % 4 else 0xFF, part := c.part,
                      die := dieOf (s.home k) }
    { s.modCtx k (fun c => { c with seqs := smPut 0 c.seqs e.engine n }) with
      faults := s.faults ++ [e], nextFlt := s.nextFlt + 1 }

/-- An entry before its numbers are filled in. -/
def faultBase (die : Nat) (va : Word) (kind sub engine aux : Nat) (who : Who) : FaultEntry :=
  { id := 0, die := die, va := va, task := 0, pasid := 0, seq := 0, kind := kind, sub := sub,
    engine := engine, read := false, write := false, atomic := false, exec := false, info := false,
    core := 0xFF, ctx := 0xFF, part := 0, aux := aux, who := who, copied := false, sent := false,
    answer := none }

/-- An informational entry (R316). -/
def State.report (s : State) (cx : Option Nat) (die : Nat) (va : Word) (kind sub engine aux : Nat) :
    State :=
  s.addFault cx { faultBase die va kind sub engine aux .nobody with info := true }

/-! ### Blocking and traps (R19, R107, R324 to R327) -/

/-- A context blocked on a condition; it keeps the time since which it is blocked (R280). -/
def State.block (s : State) (cx : Nat) (why : Block) : State :=
  s.modCtx cx fun c =>
    match c.status with
    | .blocked _ => { c with status := .blocked why }
    | _ => { c with status := .blocked why, since := (s.die (dieOf (s.home cx))).time }

/-- cr.TRAPINFO (Table 16.8). -/
def trapInfoOf (slot cause sub aux : Nat) : Word :=
  BitVec.ofNat 64 (aux % 2 ^ 32 * 2 ^ 32 + sub % 2 ^ 8 * 2 ^ 8 + slot % 4 * 2 ^ 6 + cause % 2 ^ 6)

/-- The causes whose trap writes the access's address to cr.TRAPVA (R324). -/
def trapHasVa (cause : Nat) : Bool := cause = 4 || cause = 5 || cause = 6 || cause = 8

/-- The task stops (R327): its context stays blocked, and an entry is written. -/
def State.stopTask (s : State) (cx cause : Nat) : State :=
  let s := s.modCore (s.home cx) fun k => { k with plane := k.plane.bind fun r => if r.cx = cx then none else some r }
  (s.block cx .stopped).report (some cx) (dieOf (s.home cx)) 0 32 cause 0 0

/-- Whether a context's task is stopped: it performs nothing further (R327). -/
def State.stopped (s : State) (cx : Nat) : Bool := (s.ctx cx).status = .blocked .stopped

/-- A context that traps gives up the CP: it is ready, and the CP turns to the ready context of the highest
priority (R19). -/
def Status.yields : Status → Status
  | .running => .ready
  | st => st

/-- Delivery of a trap (R19, R326). -/
def State.deliver (s : State) (cx cause : Nat) : State :=
  let c := s.ctx cx
  if c.tvec = 0 || c.tactive then s.stopTask cx cause
  else s.setCtx cx { c with tactive := true, pc := c.tvec, status := c.status.yields }

/-- Bits of cr.KSTATUS set by hardware: they replace the bits of a mask, and a clear in the same ac does not
end them (R10). -/
def Ctx.setKstatus (c : Ctx) (mask v : Word) : Ctx :=
  { c with kstatus := (c.kstatus &&& ~~~mask) ||| v, kset := (c.kset &&& ~~~mask) ||| v }

/-- Bits of cr.KSTATUS cleared by a W1C write: those that hardware has set in this ac stay (R10). -/
def Ctx.clearKstatus (c : Ctx) (v : Word) : Ctx := { c with kstatus := c.kstatus &&& ~~~(v &&& ~~~c.kset) }

/-- A context takes a trap (R107, R324): cr.TRAPPC, cr.TRAPINFO and cr.TRAPVA are written, and the
trap is delivered. The bundle at the PC performs nothing. -/
def State.trap (s : State) (cx slot cause sub aux : Nat) (va : Word) : State :=
  (s.modCtx cx fun c => { c with
    trapPc := c.pc, trapInfo := trapInfoOf slot cause sub aux,
    trapVa := if trapHasVa cause then va else 0, refused := none }).deliver cx cause

/-! ### Bundles (R73, R107) -/

/-- What a slot does, evaluated on the state before the bundle: it performs, performs and names the
next PC, performs and then raises a trap (R133, R134), blocks the context (a waiter enters its
semaphore's queue), waits as an interlock does (R108), or traps. -/
inductive SlotOut where
  | go (f : State → State)
  | flow (f : State → State) (pc : Word)
  | after (cause aux : Nat)
  | block (why : Block)
  | enqueue (why : Block) (f : State → State)
  | wait
  | trap (cause sub aux : Nat) (va : Word)

/-- A slot's instruction: the x registers whose pending results it waits for (R108), and its
evaluation for a context. -/
structure Slot where
  regs : List (BitVec 5)
  eval : Nat → State → SlotOut

/-- The first block, wait or trap of a bundle in slot order (R107). -/
def firstStop (cx : Nat) (s : State) : List (Nat × Slot) → Option (Nat × SlotOut)
  | [] => none
  | (k, i) :: rest =>
    match i.eval cx s with
    | .block w => some (k, .block w)
    | .enqueue w f => some (k, .enqueue w f)
    | .wait => some (k, .wait)
    | .trap c b a v => some (k, .trap c b a v)
    | _ => firstStop cx s rest

/-- The results of the slots written in slot order; every operand comes from the state `s` before the
bundle. -/
def performSlots (cx : Nat) (s : State) : List (Nat × Slot) → State → State
  | [], t => t
  | (_, i) :: rest, t =>
    performSlots cx s rest (match i.eval cx s with
      | .go f => f t
      | .flow f _ => f t
      | _ => t)

/-- Where the bundle leads: the target of its flow slot, or the next bundle. -/
def nextPc (cx : Nat) (s : State) : List (Nat × Slot) → Word
  | [] => (s.ctx cx).pc + 16
  | (_, i) :: rest =>
    match i.eval cx s with
    | .flow _ pc => pc
    | _ => nextPc cx s rest

/-- The TRAP or BKPT of a bundle, raised after the other slots. -/
def lateTrap (cx : Nat) (s : State) : List (Nat × Slot) → Option (Nat × Nat × Nat)
  | [] => none
  | (k, i) :: rest =>
    match i.eval cx s with
    | .after c a => some (k, c, a)
    | _ => lateTrap cx s rest

/-- Whether a context's next bundle must wait whatever its slots are: a drain of it has not ended (R129), or a wait or
acquisition at another package's semaphore has not (R163). -/
def State.holds (s : State) (cx : Nat) : Bool :=
  ((s.ctx cx).drain.getD []).any s.outstanding || s.reqs.any fun r => r.cx = cx && r.op.waits

/-- Whether a bundle must wait under R108: a register it reads or writes awaits a result, or its context is held. The
context stays running and nothing changes. -/
def interlocked (cx : Nat) (ops : List (Nat × Slot)) (s : State) : Bool :=
  ops.any (fun p => p.2.regs.any (fun r => s.awaited cx r.toNat)) || s.holds cx

/-- One bundle of a context, as one step (R73, R107). -/
def runBundle (cx : Nat) (ops : List (Nat × Slot)) (s : State) : State :=
  if interlocked cx ops s then s
  else match firstStop cx s ops with
    | some (_, .block w) => s.block cx w
    | some (_, .enqueue w f) => (f s).block cx w
    | some (_, .wait) => s
    | some (k, .trap c b a v) => s.trap cx k c b a v
    | _ =>
      let t := performSlots cx s ops s
      match lateTrap cx s ops with
      | some (k, c, a) => t.trap cx k c 0 a 0
      | none => t.modCtx cx (fun c => { c with pc := nextPc cx s ops })

/-- The bundle that holds one instruction, run on the focus context (log 22). -/
def runSlot (k : Nat) (i : Slot) (s : State) : State := runBundle s.focus [(k, i)] s

end Sys2Proof.Machine
end

