-- ==== Sys2Proof/Machine/Operands.lean ====
section
/-!
DEFINITION. The operand forms of the control set: immediates with and without an extension byte
(R76), bit fields and funnel shifts (R115), products, quotients and remainders (R114), and handle
and local addresses (R118, R126).
-/

namespace Sys2Proof.Machine

open Sys2Proof

/-- The outcome of every meaning. -/
abbrev Res := Host.Outcome State Fault Refusal

/-- An immediate sign-extended to 64 bits, widened by its extension byte (R76). -/
def immS {n : Nat} (i : Imm n) : Word :=
  match i.ext with
  | none => i.lo.signExtend 64
  | some e => (e ++ i.lo).signExtend 64

/-- An immediate zero-extended to 64 bits, widened by its extension byte (R76). -/
def immZ {n : Nat} (i : Imm n) : Word :=
  match i.ext with
  | none => i.lo.zeroExtend 64
  | some e => (e ++ i.lo).zeroExtend 64

/-- The shift amount of the register forms (R109). -/
def amount (b : Word) : Nat := b.toNat % 64

/-- The number of leading zero bits (R109). -/
def clzW {w : Nat} (x : BitVec w) : Nat := w - (if x = 0 then 0 else Nat.log2 x.toNat + 1)

/-- The number of one bits of a number below 2^n. -/
def popNat : Nat → Nat → Nat
  | 0, _ => 0
  | n + 1, x => x % 2 + popNat n (x / 2)

def popcW {w : Nat} (x : BitVec w) : Nat := popNat w x.toNat

/-- The effective width of a field at offset o with width code c in a w-bit word (R115). -/
def fieldWidth (w c o : Nat) : Nat := Nat.min (if c = 0 then w else c) (w - o)

/-- A bit field, zero- and sign-extended (R115, R176). -/
def bfxZ {w : Nat} (x : BitVec w) (c o : Nat) : BitVec w :=
  BitVec.ofNat w (x.toNat / 2 ^ o % 2 ^ fieldWidth w c o)
def bfxS {w : Nat} (x : BitVec w) (c o : Nat) : BitVec w :=
  ((BitVec.ofNat (fieldWidth w c o) (x.toNat / 2 ^ o)).signExtend w)

/-- The low bits of x placed in a field of d (R115, R176). -/
def bfiW {w : Nat} (d x : BitVec w) (c o : Nat) : BitVec w :=
  let m : BitVec w := BitVec.ofNat w (2 ^ fieldWidth w c o - 1) <<< o
  (d &&& ~~~m) ||| ((x <<< o) &&& m)

/-- The high word of a :: b shifted left, and the low word of it shifted right (R115, R176). -/
def funnelL {w : Nat} (a b : BitVec w) (n : Nat) : BitVec w :=
  ((a ++ b) <<< n).extractLsb' w w
def funnelR {w : Nat} (a b : BitVec w) (n : Nat) : BitVec w :=
  ((a ++ b) >>> n).extractLsb' 0 w

/-- The high half of the signed and of the unsigned product (R114, R185). -/
def mulHighS {w : Nat} (a b : BitVec w) : BitVec w := BitVec.ofInt w (a.toInt * b.toInt / 2 ^ w)
def mulHighN {w : Nat} (a b : BitVec w) : BitVec w := BitVec.ofNat w (a.toNat * b.toNat / 2 ^ w)

/-- Quotients and remainders with the corners of Table 4.3. -/
def divS (a b : Word) : Word := if b = 0 then -1 else BitVec.ofInt 64 (a.toInt.tdiv b.toInt)
def divN (a b : Word) : Word := if b = 0 then -1 else BitVec.ofNat 64 (a.toNat / b.toNat)
def remS (a b : Word) : Word := if b = 0 then a else BitVec.ofInt 64 (a.toInt.tmod b.toInt)
def remN (a b : Word) : Word := if b = 0 then a else BitVec.ofNat 64 (a.toNat % b.toNat)

/-- The bytes of an access by its size code (Table 4.5). -/
def sizeBytes (s : BitVec 3) : Nat := 2 ^ (s.toNat % 4)

/-- A loaded value extended by its size code (Table 4.5). -/
def loadExt (n : Nat) (sext : Bool) (v : Nat) : Word :=
  if sext then (BitVec.ofNat (8 * n) v).signExtend 64 else BitVec.ofNat 64 v

/-- A scaled displacement (R120, R126). -/
def scaled {n : Nat} (i : Imm n) (s : BitVec 3) : Word := immS i * BitVec.ofNat 64 (sizeBytes s)

/-- The bytes of a handle's page by its size code (Table 4.4). -/
def pageBytes (z : BitVec 2) : Nat :=
  if z = 0 then 2 ^ 12 else if z = 1 then 2 ^ 16 else if z = 2 then 2 ^ 21 else 2 ^ 30

/-- Whether an address is canonical (R36). -/
def canonical (va : Word) : Bool := decide (va.toNat < 2 ^ 56 ∨ 2 ^ 64 - 2 ^ 56 ≤ va.toNat)

/-- The multiple of n at or below, and at or above, a number. -/
def alignDown (a n : Nat) : Nat := a / n * n
def alignUp (a n : Nat) : Nat := (a + n - 1) / n * n

end Sys2Proof.Machine
end

