-- ==== Sys2Proof/Machine/Flags.lean ====
section
/-!
DEFINITION. Conditions and flags. The control set has no flags: its comparisons write 0 or 1
(R113) and its branches test a register (R130). The lane flags of Table 2.3 are one byte per lane,
set by OR (R170) and ORed into cr.KSTATUS (R195).
-/

namespace Sys2Proof.Machine

open Sys2Proof

/-- The compare conditions (Table 4.2). -/
def cmpHolds (c : BitVec 3) (a b : Word) : Bool :=
  match c.toNat with
  | 0 => a = b
  | 1 => a ≠ b
  | 2 => a.slt b
  | 3 => !a.slt b
  | 4 => a.ult b
  | 5 => !a.ult b
  | _ => false

/-- The branch conditions (Table 4.7). -/
def brTaken (c : BitVec 3) (a : Word) : Bool :=
  match c.toNat with
  | 0 => a = 0
  | 1 => a ≠ 0
  | 2 => a.slt 0
  | 3 => !a.slt 0
  | 4 => (0 : Word).slt a
  | 5 => !(0 : Word).slt a
  | 6 => true
  | _ => false

/-- A truth value in a scalar register. -/
def boolW (b : Bool) : Word := if b then 1 else 0

/-- The kernel compare conditions on a word, as i32 or n32 (R174). -/
def kcmpHolds (c : BitVec 3) (n : Bool) (a b : Word32) : Bool :=
  let lt := if n then a.ult b else a.slt b
  let gt := if n then b.ult a else b.slt a
  match c.toNat with
  | 0 => a = b
  | 1 => a ≠ b
  | 2 => lt
  | 3 => !lt
  | 4 => gt
  | 5 => !gt
  | _ => false

/-- A lane's flags with more of them set (R170). -/
def orFlags (m : SMap Byte) (lane : Nat) (f : Byte) : SMap Byte :=
  if f = 0 then m else smPut 0 m lane (smGet 0 m lane ||| f)

/-- The OR of every lane's flags (R27, R195). -/
def allFlags (m : SMap Byte) : Byte := m.foldl (fun a p => a ||| p.2) 0

end Sys2Proof.Machine
end

