-- ==== Sys2Proof/Machine/Scalar.lean ====
section
/-!
DEFINITION. The ALU group of the control set (R109 to R116): arithmetic, logic, shifts, immediates,
compares, multiply and divide, bit fields. Each instruction is a slot; its exec runs that slot as a
bundle of its own on the focus context.
-/

namespace Sys2Proof.Machine

open Sys2Proof

/-- A result computed from two registers; it is poisoned if an operand is (R18). -/
def alu2 (f : Word → Word → Word) (d a b : BitVec 5) : Slot :=
  ⟨[d, a, b], fun cx s => .go fun t =>
    t.wrX cx d (f (s.rdX cx a) (s.rdX cx b)) (s.tagX cx a || s.tagX cx b)⟩

/-- A result computed from one register. -/
def alu1 (f : Word → Word) (d a : BitVec 5) : Slot :=
  ⟨[d, a], fun cx s => .go fun t => t.wrX cx d (f (s.rdX cx a)) (s.tagX cx a)⟩

/-- A result computed from the destination's old value and one register. -/
def aluD (f : Word → Word → Word) (d a : BitVec 5) : Slot :=
  ⟨[d, a], fun cx s => .go fun t =>
    t.wrX cx d (f (s.rdX cx d) (s.rdX cx a)) (s.tagX cx d || s.tagX cx a)⟩

/-- A result computed from three registers. -/
def alu3 (f : Word → Word → Word → Word) (d a b c : BitVec 5) : Slot :=
  ⟨[d, a, b, c], fun cx s => .go fun t =>
    t.wrX cx d (f (s.rdX cx a) (s.rdX cx b) (s.rdX cx c))
      (s.tagX cx a || s.tagX cx b || s.tagX cx c)⟩

/-- NOP: the slot performs nothing. -/
def slotNop : Slot := ⟨[], fun _ _ => .go id⟩

/-- NOP (R72) in a bundle of its own. -/
def execNop (s : State) : Res := .next (runSlot 0 slotNop s)

/-- ADD (R109). -/
def slotAdd (d : BitVec 5) (a : BitVec 5) (b : BitVec 5) : Slot := alu2 (fun x y => x + y) d a b

/-- ADD in a bundle of its own. -/
def execAdd (d : BitVec 5) (a : BitVec 5) (b : BitVec 5) (σ : State) : Res := .next (runSlot 0 (slotAdd d a b) σ)

/-- SUB (R109). -/
def slotSub (d : BitVec 5) (a : BitVec 5) (b : BitVec 5) : Slot := alu2 (fun x y => x - y) d a b

/-- SUB in a bundle of its own. -/
def execSub (d : BitVec 5) (a : BitVec 5) (b : BitVec 5) (σ : State) : Res := .next (runSlot 0 (slotSub d a b) σ)

/-- AND (R109). -/
def slotAnd (d : BitVec 5) (a : BitVec 5) (b : BitVec 5) : Slot := alu2 (fun x y => x &&& y) d a b

/-- AND in a bundle of its own. -/
def execAnd (d : BitVec 5) (a : BitVec 5) (b : BitVec 5) (σ : State) : Res := .next (runSlot 0 (slotAnd d a b) σ)

/-- OR (R109). -/
def slotOr (d : BitVec 5) (a : BitVec 5) (b : BitVec 5) : Slot := alu2 (fun x y => x ||| y) d a b

/-- OR in a bundle of its own. -/
def execOr (d : BitVec 5) (a : BitVec 5) (b : BitVec 5) (σ : State) : Res := .next (runSlot 0 (slotOr d a b) σ)

/-- XOR (R109). -/
def slotXor (d : BitVec 5) (a : BitVec 5) (b : BitVec 5) : Slot := alu2 (fun x y => x ^^^ y) d a b

/-- XOR in a bundle of its own. -/
def execXor (d : BitVec 5) (a : BitVec 5) (b : BitVec 5) (σ : State) : Res := .next (runSlot 0 (slotXor d a b) σ)

/-- ANDN (R109). -/
def slotAndn (d : BitVec 5) (a : BitVec 5) (b : BitVec 5) : Slot := alu2 (fun x y => x &&& ~~~y) d a b

/-- ANDN in a bundle of its own. -/
def execAndn (d : BitVec 5) (a : BitVec 5) (b : BitVec 5) (σ : State) : Res := .next (runSlot 0 (slotAndn d a b) σ)

/-- SHL (R109). -/
def slotShl (d : BitVec 5) (a : BitVec 5) (b : BitVec 5) : Slot := alu2 (fun x y => x <<< amount y) d a b

/-- SHL in a bundle of its own. -/
def execShl (d : BitVec 5) (a : BitVec 5) (b : BitVec 5) (σ : State) : Res := .next (runSlot 0 (slotShl d a b) σ)

/-- SHR (R109). -/
def slotShr (d : BitVec 5) (a : BitVec 5) (b : BitVec 5) : Slot := alu2 (fun x y => x >>> amount y) d a b

/-- SHR in a bundle of its own. -/
def execShr (d : BitVec 5) (a : BitVec 5) (b : BitVec 5) (σ : State) : Res := .next (runSlot 0 (slotShr d a b) σ)

/-- SRA (R109). -/
def slotSra (d : BitVec 5) (a : BitVec 5) (b : BitVec 5) : Slot := alu2 (fun x y => x.sshiftRight (amount y)) d a b

/-- SRA in a bundle of its own. -/
def execSra (d : BitVec 5) (a : BitVec 5) (b : BitVec 5) (σ : State) : Res := .next (runSlot 0 (slotSra d a b) σ)

/-- ROL (R109). -/
def slotRol (d : BitVec 5) (a : BitVec 5) (b : BitVec 5) : Slot := alu2 (fun x y => x.rotateLeft (amount y)) d a b

/-- ROL in a bundle of its own. -/
def execRol (d : BitVec 5) (a : BitVec 5) (b : BitVec 5) (σ : State) : Res := .next (runSlot 0 (slotRol d a b) σ)

/-- MIN_I (R109). -/
def slotMinI (d : BitVec 5) (a : BitVec 5) (b : BitVec 5) : Slot := alu2 (fun x y => if x.slt y then x else y) d a b

/-- MIN_I in a bundle of its own. -/
def execMinI (d : BitVec 5) (a : BitVec 5) (b : BitVec 5) (σ : State) : Res := .next (runSlot 0 (slotMinI d a b) σ)

/-- MIN_N (R109). -/
def slotMinN (d : BitVec 5) (a : BitVec 5) (b : BitVec 5) : Slot := alu2 (fun x y => if x.ult y then x else y) d a b

/-- MIN_N in a bundle of its own. -/
def execMinN (d : BitVec 5) (a : BitVec 5) (b : BitVec 5) (σ : State) : Res := .next (runSlot 0 (slotMinN d a b) σ)

/-- MAX_I (R109). -/
def slotMaxI (d : BitVec 5) (a : BitVec 5) (b : BitVec 5) : Slot := alu2 (fun x y => if x.slt y then y else x) d a b

/-- MAX_I in a bundle of its own. -/
def execMaxI (d : BitVec 5) (a : BitVec 5) (b : BitVec 5) (σ : State) : Res := .next (runSlot 0 (slotMaxI d a b) σ)

/-- MAX_N (R109). -/
def slotMaxN (d : BitVec 5) (a : BitVec 5) (b : BitVec 5) : Slot := alu2 (fun x y => if x.ult y then y else x) d a b

/-- MAX_N in a bundle of its own. -/
def execMaxN (d : BitVec 5) (a : BitVec 5) (b : BitVec 5) (σ : State) : Res := .next (runSlot 0 (slotMaxN d a b) σ)

/-- CLZ (R109). -/
def slotClz (d : BitVec 5) (a : BitVec 5) : Slot := alu1 (fun x => BitVec.ofNat 64 (clzW x)) d a

/-- CLZ in a bundle of its own. -/
def execClz (d : BitVec 5) (a : BitVec 5) (σ : State) : Res := .next (runSlot 0 (slotClz d a) σ)

/-- POPC (R109). -/
def slotPopc (d : BitVec 5) (a : BitVec 5) : Slot := alu1 (fun x => BitVec.ofNat 64 (popcW x)) d a

/-- POPC in a bundle of its own. -/
def execPopc (d : BitVec 5) (a : BitVec 5) (σ : State) : Res := .next (runSlot 0 (slotPopc d a) σ)

/-- SEL: only the condition and the selected operand pass their poison on (R18). -/
def slotSel (d : BitVec 5) (a : BitVec 5) (b : BitVec 5) (c : BitVec 5) : Slot :=
  ⟨[d, a, b, c], fun cx s => .go fun t =>
    let r := if s.rdX cx c ≠ 0 then a else b
    t.wrX cx d (s.rdX cx r) (s.tagX cx c || s.tagX cx r)⟩

/-- SEL in a bundle of its own. -/
def execSel (d : BitVec 5) (a : BitVec 5) (b : BitVec 5) (c : BitVec 5) (σ : State) : Res := .next (runSlot 0 (slotSel d a b c) σ)

/-- ADDI (R110). -/
def slotAddi (d : BitVec 5) (a : BitVec 5) (i : Imm 16) : Slot := alu1 (fun x => x + immS i) d a

/-- ADDI in a bundle of its own. -/
def execAddi (d : BitVec 5) (a : BitVec 5) (i : Imm 16) (σ : State) : Res := .next (runSlot 0 (slotAddi d a i) σ)

/-- ANDI (R110). -/
def slotAndi (d : BitVec 5) (a : BitVec 5) (i : Imm 16) : Slot := alu1 (fun x => x &&& immS i) d a

/-- ANDI in a bundle of its own. -/
def execAndi (d : BitVec 5) (a : BitVec 5) (i : Imm 16) (σ : State) : Res := .next (runSlot 0 (slotAndi d a i) σ)

/-- ORI (R110). -/
def slotOri (d : BitVec 5) (a : BitVec 5) (i : Imm 16) : Slot := alu1 (fun x => x ||| immZ i) d a

/-- ORI in a bundle of its own. -/
def execOri (d : BitVec 5) (a : BitVec 5) (i : Imm 16) (σ : State) : Res := .next (runSlot 0 (slotOri d a i) σ)

/-- XORI (R110). -/
def slotXori (d : BitVec 5) (a : BitVec 5) (i : Imm 16) : Slot := alu1 (fun x => x ^^^ immZ i) d a

/-- XORI in a bundle of its own. -/
def execXori (d : BitVec 5) (a : BitVec 5) (i : Imm 16) (σ : State) : Res := .next (runSlot 0 (slotXori d a i) σ)

/-- SHLI (R111). -/
def slotShli (d : BitVec 5) (a : BitVec 5) (n : BitVec 6) : Slot := alu1 (fun x => x <<< n.toNat) d a

/-- SHLI in a bundle of its own. -/
def execShli (d : BitVec 5) (a : BitVec 5) (n : BitVec 6) (σ : State) : Res := .next (runSlot 0 (slotShli d a n) σ)

/-- SHRI (R111). -/
def slotShri (d : BitVec 5) (a : BitVec 5) (n : BitVec 6) : Slot := alu1 (fun x => x >>> n.toNat) d a

/-- SHRI in a bundle of its own. -/
def execShri (d : BitVec 5) (a : BitVec 5) (n : BitVec 6) (σ : State) : Res := .next (runSlot 0 (slotShri d a n) σ)

/-- SRAI (R111). -/
def slotSrai (d : BitVec 5) (a : BitVec 5) (n : BitVec 6) : Slot := alu1 (fun x => x.sshiftRight n.toNat) d a

/-- SRAI in a bundle of its own. -/
def execSrai (d : BitVec 5) (a : BitVec 5) (n : BitVec 6) (σ : State) : Res := .next (runSlot 0 (slotSrai d a n) σ)

/-- ROLI (R111). -/
def slotRoli (d : BitVec 5) (a : BitVec 5) (n : BitVec 6) : Slot := alu1 (fun x => x.rotateLeft n.toNat) d a

/-- ROLI in a bundle of its own. -/
def execRoli (d : BitVec 5) (a : BitVec 5) (n : BitVec 6) (σ : State) : Res := .next (runSlot 0 (slotRoli d a n) σ)

/-- LDI (R112). -/
def slotLdi (d : BitVec 5) (k : BitVec 2) (i : BitVec 16) : Slot :=
  ⟨[d], fun cx _ => .go fun t => t.wrX cx d (i.zeroExtend 64 <<< (16 * k.toNat)) false⟩

/-- LDI in a bundle of its own. -/
def execLdi (d : BitVec 5) (k : BitVec 2) (i : BitVec 16) (σ : State) : Res := .next (runSlot 0 (slotLdi d k i) σ)

/-- LDI_KEEP (R112). -/
def slotLdiKeep (d : BitVec 5) (k : BitVec 2) (i : BitVec 16) : Slot := alu1 (fun x =>
    let m : Word := 0xFFFF#64 <<< (16 * k.toNat)
    (x &&& ~~~m) ||| (i.zeroExtend 64 <<< (16 * k.toNat))) d d

/-- LDI_KEEP in a bundle of its own. -/
def execLdiKeep (d : BitVec 5) (k : BitVec 2) (i : BitVec 16) (σ : State) : Res := .next (runSlot 0 (slotLdiKeep d k i) σ)

/-- LDI_64 (R112). -/
def slotLdi64 (d : BitVec 5) (lit : Word) : Slot := ⟨[d], fun cx _ => .go fun t => t.wrX cx d lit false⟩

/-- LDI_64 in a bundle of its own. -/
def execLdi64 (d : BitVec 5) (lit : Word) (σ : State) : Res := .next (runSlot 1 (slotLdi64 d lit) σ)

/-- CMP (R113). -/
def slotCmp (d : BitVec 5) (a : BitVec 5) (b : BitVec 5) (c : BitVec 3) : Slot := alu2 (fun x y => boolW (cmpHolds c x y)) d a b

/-- CMP in a bundle of its own. -/
def execCmp (d : BitVec 5) (a : BitVec 5) (b : BitVec 5) (c : BitVec 3) (σ : State) : Res := .next (runSlot 0 (slotCmp d a b c) σ)

/-- CMPI (R113). -/
def slotCmpi (d : BitVec 5) (a : BitVec 5) (c : BitVec 3) (i : Imm 13) : Slot := alu1 (fun x => boolW (cmpHolds c x (immS i))) d a

/-- CMPI in a bundle of its own. -/
def execCmpi (d : BitVec 5) (a : BitVec 5) (c : BitVec 3) (i : Imm 13) (σ : State) : Res := .next (runSlot 0 (slotCmpi d a c i) σ)

/-- MUL (R114). -/
def slotMul (d : BitVec 5) (a : BitVec 5) (b : BitVec 5) : Slot := alu2 (fun x y => x * y) d a b

/-- MUL in a bundle of its own. -/
def execMul (d : BitVec 5) (a : BitVec 5) (b : BitVec 5) (σ : State) : Res := .next (runSlot 0 (slotMul d a b) σ)

/-- MULH_I (R114). -/
def slotMulhI (d : BitVec 5) (a : BitVec 5) (b : BitVec 5) : Slot := alu2 mulHighS d a b

/-- MULH_I in a bundle of its own. -/
def execMulhI (d : BitVec 5) (a : BitVec 5) (b : BitVec 5) (σ : State) : Res := .next (runSlot 0 (slotMulhI d a b) σ)

/-- MULH_N (R114). -/
def slotMulhN (d : BitVec 5) (a : BitVec 5) (b : BitVec 5) : Slot := alu2 mulHighN d a b

/-- MULH_N in a bundle of its own. -/
def execMulhN (d : BitVec 5) (a : BitVec 5) (b : BitVec 5) (σ : State) : Res := .next (runSlot 0 (slotMulhN d a b) σ)

/-- DIV_I (R114). -/
def slotDivI (d : BitVec 5) (a : BitVec 5) (b : BitVec 5) : Slot := alu2 divS d a b

/-- DIV_I in a bundle of its own. -/
def execDivI (d : BitVec 5) (a : BitVec 5) (b : BitVec 5) (σ : State) : Res := .next (runSlot 0 (slotDivI d a b) σ)

/-- DIV_N (R114). -/
def slotDivN (d : BitVec 5) (a : BitVec 5) (b : BitVec 5) : Slot := alu2 Sys2Proof.Machine.divN d a b

/-- DIV_N in a bundle of its own. -/
def execDivN (d : BitVec 5) (a : BitVec 5) (b : BitVec 5) (σ : State) : Res := .next (runSlot 0 (slotDivN d a b) σ)

/-- REM_I (R114). -/
def slotRemI (d : BitVec 5) (a : BitVec 5) (b : BitVec 5) : Slot := alu2 remS d a b

/-- REM_I in a bundle of its own. -/
def execRemI (d : BitVec 5) (a : BitVec 5) (b : BitVec 5) (σ : State) : Res := .next (runSlot 0 (slotRemI d a b) σ)

/-- REM_N (R114). -/
def slotRemN (d : BitVec 5) (a : BitVec 5) (b : BitVec 5) : Slot := alu2 Sys2Proof.Machine.remN d a b

/-- REM_N in a bundle of its own. -/
def execRemN (d : BitVec 5) (a : BitVec 5) (b : BitVec 5) (σ : State) : Res := .next (runSlot 0 (slotRemN d a b) σ)

/-- BFX_I (R115). -/
def slotBfxI (d : BitVec 5) (a : BitVec 5) (b : BitVec 5) : Slot := alu2 (fun x y => bfxS x (y.toNat / 256 % 64) (y.toNat % 64)) d a b

/-- BFX_I in a bundle of its own. -/
def execBfxI (d : BitVec 5) (a : BitVec 5) (b : BitVec 5) (σ : State) : Res := .next (runSlot 0 (slotBfxI d a b) σ)

/-- BFX_N (R115). -/
def slotBfxN (d : BitVec 5) (a : BitVec 5) (b : BitVec 5) : Slot := alu2 (fun x y => bfxZ x (y.toNat / 256 % 64) (y.toNat % 64)) d a b

/-- BFX_N in a bundle of its own. -/
def execBfxN (d : BitVec 5) (a : BitVec 5) (b : BitVec 5) (σ : State) : Res := .next (runSlot 0 (slotBfxN d a b) σ)

/-- BFI (R115). -/
def slotBfi (d : BitVec 5) (a : BitVec 5) (b : BitVec 5) : Slot := alu3 (fun o x y => bfiW o x (y.toNat / 256 % 64) (y.toNat % 64)) d d a b

/-- BFI in a bundle of its own. -/
def execBfi (d : BitVec 5) (a : BitVec 5) (b : BitVec 5) (σ : State) : Res := .next (runSlot 0 (slotBfi d a b) σ)

/-- FSHL (R115). -/
def slotFshl (d : BitVec 5) (a : BitVec 5) (b : BitVec 5) (c : BitVec 5) : Slot := alu3 (fun x y z => funnelL x z (amount y)) d a b c

/-- FSHL in a bundle of its own. -/
def execFshl (d : BitVec 5) (a : BitVec 5) (b : BitVec 5) (c : BitVec 5) (σ : State) : Res := .next (runSlot 0 (slotFshl d a b c) σ)

/-- FSHR (R115). -/
def slotFshr (d : BitVec 5) (a : BitVec 5) (b : BitVec 5) (c : BitVec 5) : Slot := alu3 (fun x y z => funnelR x z (amount y)) d a b c

/-- FSHR in a bundle of its own. -/
def execFshr (d : BitVec 5) (a : BitVec 5) (b : BitVec 5) (c : BitVec 5) (σ : State) : Res := .next (runSlot 0 (slotFshr d a b c) σ)

/-- BFX_I_IMM (R116). -/
def slotBfxIImm (d : BitVec 5) (a : BitVec 5) (w : BitVec 6) (o : BitVec 6) : Slot := alu1 (fun x => bfxS x w.toNat o.toNat) d a

/-- BFX_I_IMM in a bundle of its own. -/
def execBfxIImm (d : BitVec 5) (a : BitVec 5) (w : BitVec 6) (o : BitVec 6) (σ : State) : Res := .next (runSlot 0 (slotBfxIImm d a w o) σ)

/-- BFX_N_IMM (R116). -/
def slotBfxNImm (d : BitVec 5) (a : BitVec 5) (w : BitVec 6) (o : BitVec 6) : Slot := alu1 (fun x => bfxZ x w.toNat o.toNat) d a

/-- BFX_N_IMM in a bundle of its own. -/
def execBfxNImm (d : BitVec 5) (a : BitVec 5) (w : BitVec 6) (o : BitVec 6) (σ : State) : Res := .next (runSlot 0 (slotBfxNImm d a w o) σ)

/-- BFI_IMM (R116). -/
def slotBfiImm (d : BitVec 5) (a : BitVec 5) (w : BitVec 6) (o : BitVec 6) : Slot := aluD (fun y x => bfiW y x w.toNat o.toNat) d a

/-- BFI_IMM in a bundle of its own. -/
def execBfiImm (d : BitVec 5) (a : BitVec 5) (w : BitVec 6) (o : BitVec 6) (σ : State) : Res := .next (runSlot 0 (slotBfiImm d a w o) σ)

end Sys2Proof.Machine
end

