-- ==== Sys2Proof/WellFormed.lean ====
section
/-!
DEFINITION. Which operands each encoded instruction accepts (R80, R84 to R91, R171): a control
instruction outside it raises ILLEGAL-OP, a kernel operation K-ILLEGAL with sub-cause operand, a
routine word ends its routine. Events have no encoding and are well formed as such.
-/

namespace Sys2Proof

/-- A register that begins a pair (R30). -/
def even (d : BitVec 7) : Bool := d.toNat % 2 = 0

/-- The control registers that have a number (Tables 1.3, 10.3, 16.9, 25.1). -/
def crNumbers : List Nat :=
  [0x000, 0x001, 0x002, 0x003, 0x004, 0x005, 0x006, 0x007, 0x010, 0x011, 0x012, 0x013, 0x014,
   0x020, 0x021, 0x030, 0x040, 0x041, 0x050, 0x060, 0x061, 0x062, 0x063, 0x064, 0x065,
   0x100, 0x101, 0x102, 0x103, 0x104]

/-- The ports that a routine may read (Table 3.12). -/
def portReads (p : BitVec 6) : Bool :=
  p.toNat ≤ 26 || p.toNat = 42 || p.toNat = 45

/-- The ports that a routine may write (Table 3.12). -/
def portWrites (p : BitVec 6) : Bool :=
  p.toNat ≤ 23 || p.toNat = 25 || (32 ≤ p.toNat && p.toNat ≤ 41) || p.toNat = 43 || p.toNat = 44 ||
    p.toNat = 46

/-- A move whose ports and immediate field are legal (R89, R90). -/
def Move.wf (m : Move) : Bool :=
  portReads m.src && portWrites m.dst && (m.src = 24 || m.imm = 0)

/-- Size codes of loads and of stores (R120). -/
def loadSize (s : BitVec 3) : Bool := s.toNat ≤ 6
def storeSize (s : BitVec 3) : Bool := s.toNat ≤ 3

/-- The operands that the encoding of a sequencer operation admits. -/
def SeqOp.wf : SeqOp → Bool
  | .loop _ _ l => l.toNat ≠ 0
  | .loopP _ _ l => l.toNat ≠ 0
  | .mwaitk q _ => q.toNat < 6
  | _ => true

/-- The operands that a routine word admits. -/
def RWord.wf : RWord → Bool
  | .pair m1 m2 => m1.wf && m2.wf
  | .loopr _ port len => portReads port && len.toNat ≠ 0
  | .setw _ port _ => portWrites port
  | _ => true

/-- The operands that the encoding of an instruction admits. -/
def Instr.wf : Instr → Bool
  | .cmp _ _ _ c => c.toNat < 6
  | .cmpi _ _ c _ => c.toNat < 6
  | .ld _ _ s _ | .ldAcq _ _ s _ => loadSize s
  | .ldx _ _ s _ _ => loadSize s
  | .st _ _ s _ | .stRel _ _ s _ => storeSize s
  | .stx _ _ s _ _ => storeSize s
  | .ldl _ _ _ s _ => loadSize s
  | .stl _ _ _ s _ => storeSize s
  | .xlate _ _ t => t.toNat < 3
  | .drain s => s.toNat < 5
  | .drainFlag _ _ _ _ _ s => s.toNat < 5
  | .semAdd _ a _ _ g | .semWait _ a _ _ g | .semRead _ a _ _ g => g = 1 || a = 0
  | .semAcq _ a _ g => g = 1 || a = 0
  | .semRel a _ g => g = 1 || a = 0
  | .semPost a _ _ g => g = 1 || a = 0
  | .mileWait _ q | .mileArm _ q => q.toNat < 6
  | .mileRead _ q => q.toNat < 6
  | .sbind _ _ _ r _ => r.toNat < 5
  | .sstore _ _ _ c n => n.toNat ≠ 0 || c = 0
  | .waymark _ _ s => s.toNat < 5 || s.toNat = 7
  | .br a c _ => c.toNat < 6 || (c.toNat = 6 && a = 0)
  | .csrr _ r => crNumbers.contains r.toNat
  | .csrw _ r => crNumbers.contains r.toNat
  | .kCmp c _ _ _ _ _ => c.toNat < 6
  | .twosum d _ _ _ | .ftwosum d _ _ _ | .twoprod d _ _ _ => even d
  | .dwadd d a b _ | .dwmul d a b _ | .dwfma d a b _ => even d && even a && even b
  | .dwnorm d a _ | .creduce d a _ => even d && even a
  | .dot4i8 _ _ _ _ m => m.toNat < 3
  | .ireduce d _ o _ => o.toNat < 8 || (o.toNat < 10 && even d)
  | .mbrPair d _ _ => even d
  | .mbwPair v _ _ => even v
  | .ard2 d _ _ _ => even d
  | .ard2Q d _ _ _ _ => even d
  | .awrPair v _ _ _ => even v
  | .loop _ _ l => l.toNat ≠ 0
  | .loopP _ _ l => l.toNat ≠ 0
  | .mwaitk q _ => q.toNat < 6
  | .movePair m1 m2 => m1.wf && m2.wf
  | .loopr _ port len => portReads port && len.toNat ≠ 0
  | .setw _ port _ => portWrites port
  | _ => true

end Sys2Proof
end

