-- ==== Sys2Proof/Decode.lean ====
section
/-!
DEFINITION. Decoding of control slots and bundles (R72 to R80), of kernel slot words and packets
(R81 to R87) and of routine words (R88 to R91), and the encoder of each instruction. Words are
natural numbers below 2^32 (routine words below 2^64), bit 0 the least significant.
-/

namespace Sys2Proof

/-- The field of `n` bits of `w` whose lowest bit is `lo`. -/
def fld (w lo n : Nat) : Nat := w / 2 ^ lo % 2 ^ n

/-- The same field as a bit vector. -/
def bv (w lo n : Nat) : BitVec n := BitVec.ofNat n (w / 2 ^ lo)

/-- An immediate field with the extension byte of its slot (R76). -/
def immOf (n w lo : Nat) (ek : Option Byte) : Imm n := ⟨bv w lo n, ek⟩

/-- The slot words of the alu opcodes 0x2 to 0xd (Table 3.3), by their fields alone. -/
def shapeAlu (w : Nat) (ek : Option Byte) : Option Instr :=
  match fld w 26 6 with
  | 2 =>
    if fld w 0 11 = 0 then some (.add (bv w 21 5) (bv w 16 5) (bv w 11 5)) else
    if fld w 0 11 = 1 then some (.sub (bv w 21 5) (bv w 16 5) (bv w 11 5)) else
    if fld w 0 11 = 2 then some (.and_ (bv w 21 5) (bv w 16 5) (bv w 11 5)) else
    if fld w 0 11 = 3 then some (.or_ (bv w 21 5) (bv w 16 5) (bv w 11 5)) else
    if fld w 0 11 = 4 then some (.xor (bv w 21 5) (bv w 16 5) (bv w 11 5)) else
    if fld w 0 11 = 5 then some (.andn (bv w 21 5) (bv w 16 5) (bv w 11 5)) else
    if fld w 0 11 = 6 then some (.shl (bv w 21 5) (bv w 16 5) (bv w 11 5)) else
    if fld w 0 11 = 7 then some (.shr (bv w 21 5) (bv w 16 5) (bv w 11 5)) else
    if fld w 0 11 = 8 then some (.sra (bv w 21 5) (bv w 16 5) (bv w 11 5)) else
    if fld w 0 11 = 9 then some (.rol (bv w 21 5) (bv w 16 5) (bv w 11 5)) else
    if fld w 0 11 = 10 then some (.minI (bv w 21 5) (bv w 16 5) (bv w 11 5)) else
    if fld w 0 11 = 11 then some (.minN (bv w 21 5) (bv w 16 5) (bv w 11 5)) else
    if fld w 0 11 = 12 then some (.maxI (bv w 21 5) (bv w 16 5) (bv w 11 5)) else
    if fld w 0 11 = 13 then some (.maxN (bv w 21 5) (bv w 16 5) (bv w 11 5)) else
    if fld w 0 16 = 14 then some (.clz (bv w 21 5) (bv w 16 5)) else
    if fld w 0 16 = 15 then some (.popc (bv w 21 5) (bv w 16 5)) else
    if fld w 0 6 = 16 then some (.sel (bv w 21 5) (bv w 16 5) (bv w 11 5) (bv w 6 5)) else
    none
  | 3 => some (.addi (bv w 21 5) (bv w 16 5) (immOf 16 w 0 ek))
  | 4 => some (.andi (bv w 21 5) (bv w 16 5) (immOf 16 w 0 ek))
  | 5 => some (.ori (bv w 21 5) (bv w 16 5) (immOf 16 w 0 ek))
  | 6 => some (.xori (bv w 21 5) (bv w 16 5) (immOf 16 w 0 ek))
  | 7 =>
    if fld w 6 10 = 0 then some (.shli (bv w 21 5) (bv w 16 5) (bv w 0 6)) else
    if fld w 6 10 = 256 then some (.shri (bv w 21 5) (bv w 16 5) (bv w 0 6)) else
    if fld w 6 10 = 512 then some (.srai (bv w 21 5) (bv w 16 5) (bv w 0 6)) else
    if fld w 6 10 = 768 then some (.roli (bv w 21 5) (bv w 16 5) (bv w 0 6)) else
    none
  | 8 =>
    if fld w 16 3 = 0 then some (.ldi (bv w 21 5) (bv w 19 2) (bv w 0 16)) else
    if fld w 16 3 = 4 then some (.ldiKeep (bv w 21 5) (bv w 19 2) (bv w 0 16)) else
    none
  | 9 =>
    if fld w 3 8 = 0 then some (.cmp (bv w 21 5) (bv w 16 5) (bv w 11 5) (bv w 0 3)) else
    none
  | 10 => some (.cmpi (bv w 21 5) (bv w 16 5) (bv w 13 3) (immOf 13 w 0 ek))
  | 11 =>
    if fld w 0 11 = 0 then some (.mul (bv w 21 5) (bv w 16 5) (bv w 11 5)) else
    if fld w 0 11 = 1 then some (.mulhI (bv w 21 5) (bv w 16 5) (bv w 11 5)) else
    if fld w 0 11 = 2 then some (.mulhN (bv w 21 5) (bv w 16 5) (bv w 11 5)) else
    if fld w 0 11 = 3 then some (.divI (bv w 21 5) (bv w 16 5) (bv w 11 5)) else
    if fld w 0 11 = 4 then some (.divN (bv w 21 5) (bv w 16 5) (bv w 11 5)) else
    if fld w 0 11 = 5 then some (.remI (bv w 21 5) (bv w 16 5) (bv w 11 5)) else
    if fld w 0 11 = 6 then some (.remN (bv w 21 5) (bv w 16 5) (bv w 11 5)) else
    none
  | 12 =>
    if fld w 0 11 = 0 then some (.bfxI (bv w 21 5) (bv w 16 5) (bv w 11 5)) else
    if fld w 0 11 = 1 then some (.bfxN (bv w 21 5) (bv w 16 5) (bv w 11 5)) else
    if fld w 0 11 = 2 then some (.bfi (bv w 21 5) (bv w 16 5) (bv w 11 5)) else
    if fld w 0 6 = 3 then some (.fshl (bv w 21 5) (bv w 16 5) (bv w 11 5) (bv w 6 5)) else
    if fld w 0 6 = 4 then some (.fshr (bv w 21 5) (bv w 16 5) (bv w 11 5) (bv w 6 5)) else
    none
  | 13 =>
    if fld w 12 4 = 0 then some (.bfxIImm (bv w 21 5) (bv w 16 5) (bv w 6 6) (bv w 0 6)) else
    if fld w 12 4 = 1 then some (.bfxNImm (bv w 21 5) (bv w 16 5) (bv w 6 6) (bv w 0 6)) else
    if fld w 12 4 = 2 then some (.bfiImm (bv w 21 5) (bv w 16 5) (bv w 6 6) (bv w 0 6)) else
    none
  | _ => none

/-- The slot words of the mem opcodes 0x10 to 0x1a (Table 3.3), by their fields alone. -/
def shapeMem (w : Nat) (ek : Option Byte) : Option Instr :=
  match fld w 26 6 with
  | 16 => some (.ld (bv w 21 5) (bv w 17 4) (bv w 14 3) (immOf 14 w 0 ek))
  | 17 =>
    if fld w 0 7 = 0 then some (.ldx (bv w 21 5) (bv w 17 4) (bv w 14 3) (bv w 9 5) (bv w 7 2)) else
    none
  | 18 => some (.st (bv w 21 5) (bv w 17 4) (bv w 14 3) (immOf 14 w 0 ek))
  | 19 =>
    if fld w 0 7 = 0 then some (.stx (bv w 21 5) (bv w 17 4) (bv w 14 3) (bv w 9 5) (bv w 7 2)) else
    none
  | 20 => some (.ldAcq (bv w 21 5) (bv w 17 4) (bv w 14 3) (immOf 14 w 0 ek))
  | 21 => some (.stRel (bv w 21 5) (bv w 17 4) (bv w 14 3) (immOf 14 w 0 ek))
  | 22 =>
    if fld w 0 2 = 0 ∧ fld w 3 4 = 0 then some (.amoAdd (bv w 21 5) (bv w 16 5) (bv w 11 5) (bv w 7 4) (bv w 2 1)) else
    if fld w 0 2 = 0 ∧ fld w 3 4 = 1 then some (.amoSwap (bv w 21 5) (bv w 16 5) (bv w 11 5) (bv w 7 4) (bv w 2 1)) else
    if fld w 0 2 = 0 ∧ fld w 3 4 = 2 then some (.amoCas (bv w 21 5) (bv w 16 5) (bv w 11 5) (bv w 7 4) (bv w 2 1)) else
    if fld w 0 2 = 0 ∧ fld w 3 4 = 3 then some (.amoMinI (bv w 21 5) (bv w 16 5) (bv w 11 5) (bv w 7 4) (bv w 2 1)) else
    if fld w 0 2 = 0 ∧ fld w 3 4 = 4 then some (.amoMinN (bv w 21 5) (bv w 16 5) (bv w 11 5) (bv w 7 4) (bv w 2 1)) else
    if fld w 0 2 = 0 ∧ fld w 3 4 = 5 then some (.amoMaxI (bv w 21 5) (bv w 16 5) (bv w 11 5) (bv w 7 4) (bv w 2 1)) else
    if fld w 0 2 = 0 ∧ fld w 3 4 = 6 then some (.amoMaxN (bv w 21 5) (bv w 16 5) (bv w 11 5) (bv w 7 4) (bv w 2 1)) else
    if fld w 0 2 = 0 ∧ fld w 3 4 = 7 then some (.amoAnd (bv w 21 5) (bv w 16 5) (bv w 11 5) (bv w 7 4) (bv w 2 1)) else
    if fld w 0 2 = 0 ∧ fld w 3 4 = 8 then some (.amoOr (bv w 21 5) (bv w 16 5) (bv w 11 5) (bv w 7 4) (bv w 2 1)) else
    if fld w 0 2 = 0 ∧ fld w 3 4 = 9 then some (.amoXor (bv w 21 5) (bv w 16 5) (bv w 11 5) (bv w 7 4) (bv w 2 1)) else
    none
  | 23 => some (.ldl (bv w 21 5) (bv w 16 5) (bv w 15 1) (bv w 12 3) (immOf 12 w 0 ek))
  | 24 => some (.stl (bv w 21 5) (bv w 16 5) (bv w 15 1) (bv w 12 3) (immOf 12 w 0 ek))
  | 25 =>
    if fld w 2 14 = 0 ∧ fld w 25 1 = 0 then some (.xlate (bv w 21 4) (bv w 16 5) (bv w 0 2)) else
    none
  | 26 =>
    if fld w 0 21 = 0 ∧ fld w 25 1 = 0 then some (.hinv (bv w 21 4)) else
    if fld w 0 16 = 1 ∧ fld w 20 1 = 0 then some (.hinfo (bv w 21 5) (bv w 16 4)) else
    none
  | _ => none

/-- The slot words of the sync opcodes 0x1b to 0x1f (Table 3.3), by their fields alone. -/
def shapeSync (w : Nat) (_ek : Option Byte) : Option Instr :=
  match fld w 26 6 with
  | 27 =>
    if fld w 3 23 = 0 then some (.drain (bv w 0 3)) else
    if fld w 3 1 = 1 ∧ fld w 9 2 = 0 then some (.drainFlag (bv w 21 5) (bv w 16 5) (bv w 11 5) (bv w 8 1) (bv w 4 4) (bv w 0 3)) else
    none
  | 28 =>
    if fld w 0 3 = 0 ∧ fld w 10 1 = 0 then some (.semAdd (bv w 21 5) (bv w 16 5) (bv w 11 5) (bv w 4 6) (bv w 3 1)) else
    if fld w 0 3 = 1 ∧ fld w 10 1 = 0 then some (.semWait (bv w 21 5) (bv w 16 5) (bv w 11 5) (bv w 4 6) (bv w 3 1)) else
    if fld w 0 3 = 2 ∧ fld w 10 6 = 0 then some (.semAcq (bv w 21 5) (bv w 16 5) (bv w 4 6) (bv w 3 1)) else
    if fld w 0 3 = 3 ∧ fld w 10 6 = 0 ∧ fld w 21 5 = 0 then some (.semRel (bv w 16 5) (bv w 4 6) (bv w 3 1)) else
    if fld w 0 3 = 4 ∧ fld w 10 1 = 0 ∧ fld w 21 5 = 0 then some (.semPost (bv w 16 5) (bv w 11 5) (bv w 4 6) (bv w 3 1)) else
    if fld w 0 3 = 5 ∧ fld w 10 1 = 0 then some (.semRead (bv w 21 5) (bv w 16 5) (bv w 11 5) (bv w 4 6) (bv w 3 1)) else
    none
  | 29 =>
    if fld w 0 2 = 0 ∧ fld w 6 15 = 0 then some (.mbRd (bv w 21 5) (bv w 2 4)) else
    if fld w 0 2 = 1 ∧ fld w 6 10 = 0 ∧ fld w 21 5 = 0 then some (.mbWr (bv w 16 5) (bv w 2 4)) else
    if fld w 0 2 = 2 ∧ fld w 6 5 = 0 then some (.mbProbe (bv w 21 5) (bv w 16 5) (bv w 11 5) (bv w 2 4)) else
    none
  | 30 =>
    if fld w 0 3 = 0 ∧ fld w 6 10 = 0 ∧ fld w 21 5 = 0 then some (.mileWait (bv w 16 5) (bv w 3 3)) else
    if fld w 0 3 = 1 ∧ fld w 6 15 = 0 then some (.mileRead (bv w 21 5) (bv w 3 3)) else
    if fld w 0 3 = 2 ∧ fld w 6 10 = 0 ∧ fld w 21 5 = 0 then some (.mileArm (bv w 16 5) (bv w 3 3)) else
    if fld w 0 26 = 3 then some (.mileDisarm) else
    none
  | _ => none

/-- The slot words of the engine opcodes 0x20 to 0x37 (Table 3.3), by their fields alone. -/
def shapeEngine (w : Nat) (_ek : Option Byte) : Option Instr :=
  match fld w 26 6 with
  | 32 =>
    if fld w 0 3 = 0 ∧ fld w 21 5 = 0 then some (.sbind (bv w 16 5) (bv w 11 5) (bv w 7 4) (bv w 4 3) (bv w 3 1)) else
    none
  | 33 =>
    if fld w 0 11 = 0 then some (.sload (bv w 21 5) (bv w 16 5) (bv w 11 5)) else
    none
  | 34 =>
    if fld w 0 6 = 0 then some (.sgather (bv w 21 5) (bv w 16 5) (bv w 11 5) (bv w 6 5)) else
    none
  | 35 =>
    if fld w 3 3 = 0 then some (.sstore (bv w 21 5) (bv w 16 5) (bv w 11 5) (bv w 6 5) (bv w 0 3)) else
    none
  | 36 =>
    if fld w 0 6 = 0 then some (.sscatter (bv w 21 5) (bv w 16 5) (bv w 11 5) (bv w 6 5)) else
    if fld w 0 6 = 4 then some (.sscatterAddI32 (bv w 21 5) (bv w 16 5) (bv w 11 5) (bv w 6 5)) else
    if fld w 0 6 = 8 then some (.sscatterAddN32 (bv w 21 5) (bv w 16 5) (bv w 11 5) (bv w 6 5)) else
    if fld w 0 6 = 12 then some (.sscatterAddI64 (bv w 21 5) (bv w 16 5) (bv w 11 5) (bv w 6 5)) else
    if fld w 0 6 = 16 then some (.sscatterAddXa256 (bv w 21 5) (bv w 16 5) (bv w 11 5) (bv w 6 5)) else
    if fld w 0 6 = 20 then some (.sscatterAddF32 (bv w 21 5) (bv w 16 5) (bv w 11 5) (bv w 6 5)) else
    none
  | 37 =>
    if fld w 0 6 = 0 then some (.spair (bv w 21 5) (bv w 16 5) (bv w 11 5) (bv w 6 5)) else
    none
  | 38 =>
    if fld w 0 11 = 0 then some (.scopy (bv w 21 5) (bv w 16 5) (bv w 11 5)) else
    none
  | 39 =>
    if fld w 0 11 = 0 then some (.krun (bv w 21 5) (bv w 16 5) (bv w 11 5)) else
    none
  | 40 =>
    if fld w 0 26 = 0 then some (.kctlAbort) else
    if fld w 0 16 = 1 then some (.kctlPrefetch (bv w 21 5) (bv w 16 5)) else
    none
  | 41 =>
    if fld w 0 4 = 0 then some (.mcall (bv w 21 5) (bv w 16 5) (bv w 11 5) (bv w 6 5) (bv w 4 2)) else
    none
  | 42 =>
    if fld w 0 11 = 0 then some (.mrout (bv w 21 5) (bv w 16 5) (bv w 11 5)) else
    none
  | 43 =>
    if fld w 0 21 = 0 then some (.wsctlLoad (bv w 21 5)) else
    if fld w 0 21 = 1 then some (.wsctlSeal (bv w 21 5)) else
    if fld w 0 21 = 2 then some (.wsctlQuery (bv w 21 5)) else
    none
  | 44 =>
    if fld w 0 4 = 0 ∧ fld w 6 5 = 0 then some (.treeBind (bv w 21 5) (bv w 16 5) (bv w 11 5) (bv w 4 2)) else
    if fld w 0 4 = 1 then some (.treeDesc (bv w 21 5) (bv w 16 5) (bv w 11 5) (bv w 6 5) (bv w 4 2)) else
    if fld w 0 4 = 2 then some (.treeExp (bv w 21 5) (bv w 16 5) (bv w 11 5) (bv w 6 5) (bv w 4 2)) else
    if fld w 0 4 = 3 then some (.treeBack (bv w 21 5) (bv w 16 5) (bv w 11 5) (bv w 6 5) (bv w 4 2)) else
    if fld w 0 4 = 4 ∧ fld w 6 5 = 0 then some (.treeReroot (bv w 21 5) (bv w 16 5) (bv w 11 5) (bv w 4 2)) else
    if fld w 0 4 = 5 ∧ fld w 6 5 = 0 ∧ fld w 16 5 = 0 then some (.treeSweep (bv w 21 5) (bv w 11 5) (bv w 4 2)) else
    if fld w 0 4 = 6 then some (.treePath (bv w 21 5) (bv w 16 5) (bv w 11 5) (bv w 6 5) (bv w 4 2)) else
    if fld w 0 4 = 7 then some (.treeRead (bv w 21 5) (bv w 16 5) (bv w 11 5) (bv w 6 5) (bv w 4 2)) else
    if fld w 0 4 = 8 ∧ fld w 6 5 = 0 ∧ fld w 16 5 = 0 then some (.treeFlush (bv w 21 5) (bv w 11 5) (bv w 4 2)) else
    none
  | 45 =>
    if fld w 0 6 = 0 then some (.gatherl (bv w 21 5) (bv w 16 5) (bv w 11 5) (bv w 6 5)) else
    none
  | 48 =>
    if fld w 0 16 = 0 then some (.launch (bv w 21 5) (bv w 16 5)) else
    none
  | 49 =>
    if fld w 0 26 = 0 then some (.taskRetire) else
    if fld w 0 11 = 1 then some (.taskYield (bv w 21 5) (bv w 16 5) (bv w 11 5)) else
    if fld w 0 11 = 2 then some (.taskPrio (bv w 21 5) (bv w 16 5) (bv w 11 5)) else
    if fld w 0 11 = 3 then some (.taskSelf (bv w 21 5) (bv w 16 5) (bv w 11 5)) else
    none
  | 50 =>
    if fld w 11 10 = 0 then some (.waymark (bv w 21 5) (bv w 3 8) (bv w 0 3)) else
    none
  | _ => none

/-- The slot words of the flow opcodes 0x38 to 0x3e (Table 3.3), by their fields alone. -/
def shapeFlow (w : Nat) (ek : Option Byte) : Option Instr :=
  match fld w 26 6 with
  | 56 => some (.br (bv w 21 5) (bv w 18 3) (immOf 18 w 0 ek))
  | 57 => some (.jmp (bv w 0 26))
  | 58 => some (.call (bv w 0 26))
  | 59 =>
    if fld w 0 16 = 0 ∧ fld w 21 5 = 0 then some (.jx (bv w 16 5)) else
    if fld w 0 16 = 1 ∧ fld w 21 5 = 0 then some (.callx (bv w 16 5)) else
    if fld w 0 26 = 2 then some (.ret) else
    none
  | 60 =>
    if fld w 16 10 = 0 then some (.trap (bv w 0 16)) else
    none
  | 61 =>
    if fld w 12 9 = 0 then some (.csrr (bv w 21 5) (bv w 0 12)) else
    if fld w 12 4 = 1 ∧ fld w 21 5 = 0 then some (.csrw (bv w 16 5) (bv w 0 12)) else
    if fld w 0 26 = 8192 then some (.uiret) else
    if fld w 0 26 = 12288 then some (.waiti) else
    if fld w 0 26 = 16384 then some (.bkpt) else
    if fld w 0 26 = 20480 then some (.fenceC) else
    none
  | 62 =>
    if fld w 0 16 = 0 then some (.scrub (bv w 21 5) (bv w 16 5)) else
    if fld w 0 16 = 1 then some (.migrate (bv w 21 5) (bv w 16 5)) else
    if fld w 0 11 = 2 then some (.xinvMark (bv w 21 5) (bv w 16 5) (bv w 11 5)) else
    if fld w 0 16 = 3 then some (.xinvConfirm (bv w 21 5) (bv w 16 5)) else
    if fld w 0 11 = 4 ∧ fld w 21 5 = 0 then some (.qmap (bv w 16 5) (bv w 11 5)) else
    none
  | _ => none

/-- The instruction a slot word names by its fields, LDI's 64-bit form apart (Table 3.3). -/
def shapeSlot (w : Nat) (ek : Option Byte) : Option Instr :=
  if w = 0x04000000 then some .nop
  else if fld w 26 6 < 0x10 then shapeAlu w ek
  else if fld w 26 6 < 0x1B then shapeMem w ek
  else if fld w 26 6 < 0x20 then shapeSync w ek
  else if fld w 26 6 < 0x38 then shapeEngine w ek
  else shapeFlow w ek

/-- A slot word legal in itself (R80, R96); none where it raises ILLEGAL-OP. -/
def decodeSlot (w : Nat) (ek : Option Byte) : Option Instr :=
  match shapeSlot w ek with
  | some i => if i.wf then some i else none
  | none => none

/-- The slot words of class A (Table 3.7), by their fields alone. -/
def shapeKA (w lit : Nat) : Option Instr :=
  match fld w 26 5 with
  | 0 => some (.kAdd (bv w 19 7) (bv w 12 7) (bv w 5 7) (bv w 2 3) (bv w 0 2))
  | 1 => some (.kSub (bv w 19 7) (bv w 12 7) (bv w 5 7) (bv w 2 3) (bv w 0 2))
  | 2 =>
    if fld w 0 2 = 0 then some (.kAnd (bv w 19 7) (bv w 12 7) (bv w 5 7) (bv w 2 3)) else
    none
  | 3 =>
    if fld w 0 2 = 0 then some (.kOr (bv w 19 7) (bv w 12 7) (bv w 5 7) (bv w 2 3)) else
    none
  | 4 =>
    if fld w 0 2 = 0 then some (.kXor (bv w 19 7) (bv w 12 7) (bv w 5 7) (bv w 2 3)) else
    none
  | 5 =>
    if fld w 0 2 = 0 then some (.kAndn (bv w 19 7) (bv w 12 7) (bv w 5 7) (bv w 2 3)) else
    none
  | 6 =>
    if fld w 0 1 = 0 then some (.kShl (bv w 19 7) (bv w 12 7) (bv w 5 7) (bv w 2 3) (bv w 1 1)) else
    none
  | 7 =>
    if fld w 0 1 = 0 then some (.kShr (bv w 19 7) (bv w 12 7) (bv w 5 7) (bv w 2 3) (bv w 1 1)) else
    none
  | 8 =>
    if fld w 0 1 = 0 then some (.kSra (bv w 19 7) (bv w 12 7) (bv w 5 7) (bv w 2 3) (bv w 1 1)) else
    none
  | 9 => some (.min (bv w 19 7) (bv w 12 7) (bv w 5 7) (bv w 2 3) (bv w 0 2))
  | 10 => some (.max (bv w 19 7) (bv w 12 7) (bv w 5 7) (bv w 2 3) (bv w 0 2))
  | 11 =>
    if fld w 1 1 = 0 ∧ fld w 25 1 = 0 then some (.kCmp (bv w 22 3) (bv w 19 3) (bv w 12 7) (bv w 5 7) (bv w 2 3) (bv w 0 1)) else
    none
  | 12 =>
    if fld w 0 1 = 0 then some (.kSel (bv w 19 7) (bv w 12 7) (bv w 5 7) (bv w 2 3) (bv w 1 1)) else
    none
  | 13 =>
    if fld w 10 4 = 0 then some (.kBfxN (bv w 19 7) (bv w 14 5) (bv w 5 5) (bv w 0 5)) else
    if fld w 10 4 = 4 then some (.kBfxI (bv w 19 7) (bv w 14 5) (bv w 5 5) (bv w 0 5)) else
    none
  | 14 =>
    if fld w 10 4 = 0 then some (.kBfi (bv w 19 7) (bv w 14 5) (bv w 5 5) (bv w 0 5)) else
    none
  | 15 =>
    if fld w 5 9 = 0 then some (.kFshl (bv w 19 7) (bv w 14 5) (bv w 0 5)) else
    if fld w 5 9 = 128 then some (.kFshr (bv w 19 7) (bv w 14 5) (bv w 0 5)) else
    none
  | 16 =>
    if fld w 12 7 = 0 then some (.movi (bv w 19 7) (bv w 0 12)) else
    if fld w 12 7 = 1 then some (.moviHigh (bv w 19 7) (bv w 0 12)) else
    if fld w 12 2 = 2 ∧ fld w 18 1 = 0 then some (.moviLiteral (bv w 19 7) (bv w 14 4) (bv w 0 12) (BitVec.ofNat 16 lit)) else
    if fld w 5 14 = 384 then some (.moviShifted (bv w 19 7) (bv w 0 5) (BitVec.ofNat 16 lit)) else
    none
  | 17 =>
    if fld w 0 1 = 0 ∧ fld w 5 7 = 0 then some (.abs (bv w 19 7) (bv w 12 7) (bv w 2 3) (bv w 1 1)) else
    if fld w 0 1 = 0 ∧ fld w 5 7 = 1 then some (.neg (bv w 19 7) (bv w 12 7) (bv w 2 3) (bv w 1 1)) else
    if fld w 0 1 = 0 ∧ fld w 5 7 = 2 then some (.kClz (bv w 19 7) (bv w 12 7) (bv w 2 3) (bv w 1 1)) else
    if fld w 0 1 = 0 ∧ fld w 5 7 = 3 then some (.kPopc (bv w 19 7) (bv w 12 7) (bv w 2 3) (bv w 1 1)) else
    if fld w 0 2 = 0 ∧ fld w 5 7 = 4 then some (.not_ (bv w 19 7) (bv w 12 7) (bv w 2 3)) else
    if fld w 0 2 = 0 ∧ fld w 5 7 = 5 then some (.fabs (bv w 19 7) (bv w 12 7) (bv w 2 3)) else
    if fld w 0 2 = 0 ∧ fld w 5 7 = 6 then some (.fneg (bv w 19 7) (bv w 12 7) (bv w 2 3)) else
    if fld w 0 2 = 0 ∧ fld w 5 7 = 7 then some (.fclass (bv w 19 7) (bv w 12 7) (bv w 2 3)) else
    none
  | 18 => some (.fadd (bv w 19 7) (bv w 12 7) (bv w 5 7) (bv w 2 3) (bv w 0 2))
  | 19 => some (.fsub (bv w 19 7) (bv w 12 7) (bv w 5 7) (bv w 2 3) (bv w 0 2))
  | 20 =>
    if fld w 1 1 = 0 then some (.fmin (bv w 19 7) (bv w 12 7) (bv w 5 7) (bv w 2 3) (bv w 0 1)) else
    none
  | 21 =>
    if fld w 1 1 = 0 then some (.fmax (bv w 19 7) (bv w 12 7) (bv w 5 7) (bv w 2 3) (bv w 0 1)) else
    none
  | 22 =>
    if fld w 1 1 = 0 ∧ fld w 25 1 = 0 then some (.fcmp (bv w 22 3) (bv w 19 3) (bv w 12 7) (bv w 5 7) (bv w 2 3) (bv w 0 1)) else
    none
  | 23 =>
    if fld w 5 7 = 0 then some (.cvtI32F32 (bv w 19 7) (bv w 12 7) (bv w 2 3) (bv w 0 2)) else
    if fld w 5 7 = 1 then some (.cvtN32F32 (bv w 19 7) (bv w 12 7) (bv w 2 3) (bv w 0 2)) else
    if fld w 5 7 = 2 then some (.cvtF32I32 (bv w 19 7) (bv w 12 7) (bv w 2 3) (bv w 0 2)) else
    if fld w 5 7 = 3 then some (.cvtF32N32 (bv w 19 7) (bv w 12 7) (bv w 2 3) (bv w 0 2)) else
    if fld w 5 7 = 4 then some (.cvtF16F32 (bv w 19 7) (bv w 12 7) (bv w 2 3) (bv w 0 2)) else
    if fld w 5 7 = 5 then some (.cvtBf16F32 (bv w 19 7) (bv w 12 7) (bv w 2 3) (bv w 0 2)) else
    if fld w 5 7 = 6 then some (.cvtF32F16 (bv w 19 7) (bv w 12 7) (bv w 2 3) (bv w 0 2)) else
    if fld w 5 7 = 7 then some (.cvtF32Bf16 (bv w 19 7) (bv w 12 7) (bv w 2 3) (bv w 0 2)) else
    if fld w 5 7 = 8 then some (.cvtE4m3F32Sat (bv w 19 7) (bv w 12 7) (bv w 2 3) (bv w 0 2)) else
    if fld w 5 7 = 9 then some (.cvtE4m3F32 (bv w 19 7) (bv w 12 7) (bv w 2 3) (bv w 0 2)) else
    if fld w 5 7 = 10 then some (.cvtE5m2F32Sat (bv w 19 7) (bv w 12 7) (bv w 2 3) (bv w 0 2)) else
    if fld w 5 7 = 11 then some (.cvtE5m2F32 (bv w 19 7) (bv w 12 7) (bv w 2 3) (bv w 0 2)) else
    if fld w 5 7 = 12 then some (.cvtF32E4m3 (bv w 19 7) (bv w 12 7) (bv w 2 3) (bv w 0 2)) else
    if fld w 5 7 = 13 then some (.cvtF32E5m2 (bv w 19 7) (bv w 12 7) (bv w 2 3) (bv w 0 2)) else
    if fld w 9 3 = 2 then some (.cvtPls (bv w 19 7) (bv w 12 7) (bv w 5 4) (bv w 2 3) (bv w 0 2)) else
    if fld w 9 3 = 3 then some (.cvtPln (bv w 19 7) (bv w 12 7) (bv w 5 4) (bv w 2 3) (bv w 0 2)) else
    none
  | 24 =>
    if fld w 0 2 = 0 then some (.twosum (bv w 19 7) (bv w 12 7) (bv w 5 7) (bv w 2 3)) else
    none
  | 25 =>
    if fld w 0 2 = 0 then some (.ftwosum (bv w 19 7) (bv w 12 7) (bv w 5 7) (bv w 2 3)) else
    none
  | 26 =>
    if fld w 0 2 = 0 then some (.dwadd (bv w 19 7) (bv w 12 7) (bv w 5 7) (bv w 2 3)) else
    none
  | 27 =>
    if fld w 0 2 = 0 ∧ fld w 5 7 = 0 then some (.dwnorm (bv w 19 7) (bv w 12 7) (bv w 2 3)) else
    none
  | 28 =>
    if fld w 0 2 = 0 then some (.packF16 (bv w 19 7) (bv w 12 7) (bv w 5 7) (bv w 2 3)) else
    if fld w 0 2 = 1 then some (.packBf16 (bv w 19 7) (bv w 12 7) (bv w 5 7) (bv w 2 3)) else
    if fld w 0 2 = 2 then some (.packLo (bv w 19 7) (bv w 12 7) (bv w 5 7) (bv w 2 3)) else
    if fld w 0 2 = 3 then some (.packHi (bv w 19 7) (bv w 12 7) (bv w 5 7) (bv w 2 3)) else
    none
  | 29 => some (.scalb (bv w 19 7) (bv w 12 7) (bv w 5 7) (bv w 2 3) (bv w 0 2))
  | 30 =>
    if fld w 5 7 = 0 then some (.frnd (bv w 19 7) (bv w 12 7) (bv w 2 3) (bv w 0 2)) else
    none
  | _ => none

/-- The slot words of class M (Table 3.7), by their fields alone. -/
def shapeKM (w _lit : Nat) : Option Instr :=
  match fld w 26 5 with
  | 0 => some (.fma (bv w 19 7) (bv w 12 7) (bv w 5 7) (bv w 2 3) (bv w 0 2))
  | 1 => some (.fms (bv w 19 7) (bv w 12 7) (bv w 5 7) (bv w 2 3) (bv w 0 2))
  | 2 => some (.fmul (bv w 19 7) (bv w 12 7) (bv w 5 7) (bv w 2 3) (bv w 0 2))
  | 3 =>
    if fld w 0 1 = 0 then some (.kMul (bv w 19 7) (bv w 12 7) (bv w 5 7) (bv w 2 3) (bv w 1 1)) else
    none
  | 4 => some (.mulh (bv w 19 7) (bv w 12 7) (bv w 5 7) (bv w 2 3) (bv w 0 2))
  | 5 =>
    if fld w 0 2 = 0 then some (.twoprod (bv w 19 7) (bv w 12 7) (bv w 5 7) (bv w 2 3)) else
    none
  | 6 =>
    if fld w 0 2 = 0 then some (.dwmul (bv w 19 7) (bv w 12 7) (bv w 5 7) (bv w 2 3)) else
    none
  | 7 =>
    if fld w 0 2 = 0 then some (.dwfma (bv w 19 7) (bv w 12 7) (bv w 5 7) (bv w 2 3)) else
    none
  | 8 => some (.mad16 (bv w 19 7) (bv w 12 7) (bv w 5 7) (bv w 2 3) (bv w 0 2))
  | 9 => some (.madb16 (bv w 19 7) (bv w 12 7) (bv w 5 7) (bv w 2 3) (bv w 0 2))
  | 10 => some (.dot2 (bv w 19 7) (bv w 12 7) (bv w 5 7) (bv w 2 3) (bv w 0 2))
  | 11 => some (.dot4i8 (bv w 19 7) (bv w 12 7) (bv w 5 7) (bv w 2 3) (bv w 0 2))
  | _ => none

/-- The slot words of class F (Table 3.7), by their fields alone. -/
def shapeKF (w _lit : Nat) : Option Instr :=
  match fld w 26 5 with
  | 0 =>
    if fld w 5 7 = 0 then some (.rcp (bv w 19 7) (bv w 12 7) (bv w 2 3) (bv w 0 2)) else
    none
  | 1 =>
    if fld w 5 7 = 0 then some (.rsq (bv w 19 7) (bv w 12 7) (bv w 2 3) (bv w 0 2)) else
    none
  | 2 =>
    if fld w 5 7 = 0 then some (.sqrt (bv w 19 7) (bv w 12 7) (bv w 2 3) (bv w 0 2)) else
    none
  | 3 => some (.div (bv w 19 7) (bv w 12 7) (bv w 5 7) (bv w 2 3) (bv w 0 2))
  | 4 =>
    if fld w 5 7 = 0 then some (.exp2 (bv w 19 7) (bv w 12 7) (bv w 2 3) (bv w 0 2)) else
    none
  | 5 =>
    if fld w 5 7 = 0 then some (.log2 (bv w 19 7) (bv w 12 7) (bv w 2 3) (bv w 0 2)) else
    none
  | 6 =>
    if fld w 5 7 = 0 then some (.sigm (bv w 19 7) (bv w 12 7) (bv w 2 3) (bv w 0 2)) else
    none
  | 7 =>
    if fld w 5 7 = 0 then some (.tanh (bv w 19 7) (bv w 12 7) (bv w 2 3) (bv w 0 2)) else
    none
  | 8 =>
    if fld w 5 7 = 0 then some (.rsqe (bv w 19 7) (bv w 12 7) (bv w 2 3) (bv w 0 2)) else
    none
  | 9 =>
    if fld w 5 7 = 0 then some (.silu (bv w 19 7) (bv w 12 7) (bv w 2 3) (bv w 0 2)) else
    none
  | _ => none

/-- The slot words of class S (Table 3.7), by their fields alone. -/
def shapeKS (w _lit : Nat) : Option Instr :=
  match fld w 26 5 with
  | 0 =>
    if fld w 0 2 = 0 ∧ fld w 5 10 = 0 then some (.spop (bv w 19 7) (bv w 15 4) (bv w 2 3)) else
    none
  | 1 =>
    if fld w 0 2 = 0 ∧ fld w 5 10 = 0 then some (.spush (bv w 19 7) (bv w 15 4) (bv w 2 3)) else
    none
  | 2 =>
    if fld w 0 5 = 0 ∧ fld w 19 7 = 0 then some (.sskip (bv w 15 4) (bv w 5 10)) else
    none
  | 3 =>
    if fld w 0 2 = 0 then some (.comm (bv w 19 7) (bv w 12 7) (bv w 5 7) (bv w 2 3)) else
    if fld w 0 2 = 1 then some (.commCl (bv w 19 7) (bv w 12 7) (bv w 5 7) (bv w 2 3)) else
    none
  | 4 =>
    if fld w 0 2 = 0 then some (.commpRot (bv w 19 7) (bv w 12 7) (bv w 5 7) (bv w 2 3)) else
    if fld w 0 2 = 1 then some (.commpBc (bv w 19 7) (bv w 12 7) (bv w 5 7) (bv w 2 3)) else
    if fld w 0 2 = 2 then some (.commpBfly (bv w 19 7) (bv w 12 7) (bv w 5 7) (bv w 2 3)) else
    none
  | 5 =>
    if fld w 0 2 = 0 ∧ fld w 5 7 = 0 then some (.creduce (bv w 19 7) (bv w 12 7) (bv w 2 3)) else
    none
  | 6 =>
    if fld w 0 2 = 0 then some (.ireduce (bv w 19 7) (bv w 12 7) (bv w 5 7) (bv w 2 3)) else
    none
  | 7 =>
    if fld w 0 11 = 0 ∧ fld w 12 3 = 0 then some (.mbrLo (bv w 19 7) (bv w 15 4) (bv w 11 1)) else
    if fld w 0 11 = 0 ∧ fld w 12 3 = 1 then some (.mbrHi (bv w 19 7) (bv w 15 4) (bv w 11 1)) else
    if fld w 0 11 = 0 ∧ fld w 12 3 = 2 then some (.mbrPair (bv w 19 7) (bv w 15 4) (bv w 11 1)) else
    none
  | 8 =>
    if fld w 0 5 = 0 ∧ fld w 12 3 = 0 then some (.mbwWord (bv w 19 7) (bv w 15 4) (bv w 5 7)) else
    if fld w 0 5 = 0 ∧ fld w 12 3 = 1 then some (.mbwPair (bv w 19 7) (bv w 15 4) (bv w 5 7)) else
    none
  | 9 =>
    if fld w 0 15 = 0 then some (.scountPos (bv w 19 7) (bv w 15 4)) else
    if fld w 0 15 = 4096 then some (.scountRem (bv w 19 7) (bv w 15 4)) else
    none
  | _ => none

/-- The slot words of class X (Table 3.7), by their fields alone. -/
def shapeKX (w _lit : Nat) : Option Instr :=
  match fld w 26 5 with
  | 0 =>
    if fld w 0 2 = 0 ∧ fld w 5 1 = 0 ∧ fld w 13 3 = 0 then some (.ardF32 (bv w 19 7) (bv w 16 3) (bv w 6 7) (bv w 2 3)) else
    if fld w 0 2 = 0 ∧ fld w 5 1 = 0 ∧ fld w 13 3 = 1 then some (.ardI32 (bv w 19 7) (bv w 16 3) (bv w 6 7) (bv w 2 3)) else
    if fld w 0 2 = 0 ∧ fld w 5 1 = 0 ∧ fld w 13 3 = 2 then some (.ardXaF32 (bv w 19 7) (bv w 16 3) (bv w 6 7) (bv w 2 3)) else
    if fld w 0 2 = 0 ∧ fld w 5 1 = 0 ∧ fld w 13 3 = 3 then some (.ardXaI32 (bv w 19 7) (bv w 16 3) (bv w 6 7) (bv w 2 3)) else
    if fld w 0 2 = 0 ∧ fld w 5 1 = 0 ∧ fld w 13 3 = 4 then some (.ardExp (bv w 19 7) (bv w 16 3) (bv w 6 7) (bv w 2 3)) else
    none
  | 1 =>
    if fld w 0 2 = 0 ∧ fld w 5 1 = 0 ∧ fld w 13 3 = 0 then some (.ard2 (bv w 19 7) (bv w 16 3) (bv w 6 7) (bv w 2 3)) else
    if fld w 0 2 = 0 ∧ fld w 5 1 = 0 ∧ fld w 15 1 = 1 then some (.ard2Q (bv w 19 7) (bv w 16 3) (bv w 13 2) (bv w 6 7) (bv w 2 3)) else
    none
  | 2 =>
    if fld w 0 2 = 0 ∧ fld w 5 1 = 0 ∧ fld w 13 3 = 0 then some (.awrI32 (bv w 19 7) (bv w 16 3) (bv w 6 7) (bv w 2 3)) else
    if fld w 0 2 = 0 ∧ fld w 5 1 = 0 ∧ fld w 13 3 = 1 then some (.awrPair (bv w 19 7) (bv w 16 3) (bv w 6 7) (bv w 2 3)) else
    if fld w 0 2 = 0 ∧ fld w 5 1 = 0 ∧ fld w 13 3 = 2 then some (.awrExp (bv w 19 7) (bv w 16 3) (bv w 6 7) (bv w 2 3)) else
    none
  | 3 =>
    if fld w 0 2 = 0 ∧ fld w 5 1 = 0 ∧ fld w 13 3 = 0 then some (.adep (bv w 19 7) (bv w 16 3) (bv w 6 7) (bv w 2 3)) else
    none
  | 4 =>
    if fld w 0 16 = 0 ∧ fld w 19 7 = 0 then some (.azero (bv w 16 3)) else
    if fld w 0 16 = 8192 ∧ fld w 19 7 = 0 then some (.azeroXa (bv w 16 3)) else
    none
  | 5 =>
    if fld w 0 16 = 0 then some (.astat (bv w 19 7) (bv w 16 3)) else
    if fld w 0 16 = 8192 then some (.astatClr (bv w 19 7) (bv w 16 3)) else
    none
  | 6 =>
    if fld w 0 2 = 0 ∧ fld w 5 1 = 0 ∧ fld w 13 3 = 0 then some (.ascl (bv w 19 7) (bv w 16 3) (bv w 6 7) (bv w 2 3)) else
    none
  | _ => none

/-- The slot words of class C (Table 3.7), by their fields alone. -/
def shapeKC (w lit : Nat) : Option SeqOp :=
  match fld w 26 5 with
  | 0 =>
    if fld w 0 8 = 0 ∧ fld w 18 8 = 0 then some (.pset (bv w 15 3) (bv w 8 7)) else
    if fld w 0 8 = 1 ∧ fld w 18 8 = 0 then some (.psetImm (bv w 15 3) (bv w 8 7) (BitVec.ofNat 16 lit)) else
    if fld w 0 8 = 2 ∧ fld w 18 8 = 0 then some (.psetHi (bv w 15 3) (bv w 8 7) (BitVec.ofNat 16 lit)) else
    if fld w 0 8 = 3 ∧ fld w 18 8 = 0 then some (.psetAdd (bv w 15 3) (bv w 8 7) (BitVec.ofNat 16 lit)) else
    none
  | 1 =>
    if fld w 0 6 = 0 then some (.mpost (bv w 18 8) (bv w 16 2) (bv w 11 5) (bv w 6 5)) else
    none
  | _ => none

/-- The slot words of class B (Table 3.7), by their fields alone. -/
def shapeKB (w _lit : Nat) : Option SeqOp :=
  match fld w 26 5 with
  | 0 =>
    if fld w 23 1 = 0 then some (.loop (bv w 24 2) (bv w 12 11) (bv w 0 12)) else
    if fld w 15 9 = 256 then some (.loopP (bv w 24 2) (bv w 12 3) (bv w 0 12)) else
    none
  | 1 =>
    if fld w 18 4 = 0 then some (.bra (bv w 25 1) (bv w 22 3) (bv w 0 18)) else
    none
  | 2 =>
    if fld w 18 8 = 0 then some (.kJmp (bv w 0 18)) else
    none
  | 3 =>
    if fld w 0 26 = 0 then some (.kend) else
    none
  | 4 =>
    if fld w 16 10 = 0 then some (.ktrap (bv w 0 16)) else
    none
  | 5 =>
    if fld w 12 14 = 0 then some (.idle (bv w 0 12)) else
    none
  | 6 =>
    if fld w 0 20 = 0 then some (.mwaitk (bv w 23 3) (bv w 20 3)) else
    none
  | _ => none

/-- The slot classes of a kernel packet (R81, R83). -/
inductive KClass where
  | a | m | f | s | x | c | b
  deriving DecidableEq, Repr

/-- How many opcodes a class assigns, from 0 on (Table 3.7). -/
def KClass.opcodes : KClass → Nat
  | .a => 31 | .m => 12 | .f => 10 | .s => 10 | .x => 7 | .c => 2 | .b => 7

/-- An operation of a packet: of the lanes, or of the sequencer (classes C and B). -/
inductive KOp where
  | lane (i : Instr)
  | seq (o : SeqOp)
  deriving DecidableEq, Repr

/-- The operation that a slot word of a class names by its fields. -/
def shapeK (k : KClass) (w lit : Nat) : Option KOp :=
  match k with
  | .a => (shapeKA w lit).map .lane
  | .m => (shapeKM w lit).map .lane
  | .f => (shapeKF w lit).map .lane
  | .s => (shapeKS w lit).map .lane
  | .x => (shapeKX w lit).map .lane
  | .c => (shapeKC w lit).map .seq
  | .b => (shapeKB w lit).map .seq

/-- The operands that a packet's operation accepts. -/
def KOp.wf : KOp → Bool
  | .lane i => i.wf
  | .seq o => o.wf

/-- A kernel slot word: its operation, or the sub-cause of K-ILLEGAL (R87, Table 7.1): 3 opcode,
4 operand. -/
def decodeK (k : KClass) (w lit : Nat) : KOp ⊕ Nat :=
  if k.opcodes ≤ fld w 26 5 then .inr 3
  else match shapeK k w lit with
    | some o => if o.wf then .inl o else .inr 4
    | none => .inr 4

/-- Where an operation is encoded. -/
inductive Form where
  | control | kernel (k : KClass) | plane | event
  deriving DecidableEq, Repr

/-- The encoding that an instruction belongs to; the table's other rows are events. -/
def Instr.form : Instr → Form
  | .nop | .add _ _ _ | .sub _ _ _ | .and_ _ _ _ | .or_ _ _ _ | .xor _ _ _ | .andn _ _ _
  | .shl _ _ _ | .shr _ _ _ | .sra _ _ _ | .rol _ _ _ | .minI _ _ _ | .minN _ _ _ | .maxI _ _ _
  | .maxN _ _ _ | .clz _ _ | .popc _ _ | .sel _ _ _ _ | .addi _ _ _ | .andi _ _ _ | .ori _ _ _
  | .xori _ _ _ | .shli _ _ _ | .shri _ _ _ | .srai _ _ _ | .roli _ _ _ | .ldi _ _ _
  | .ldiKeep _ _ _ | .ldi64 _ _ | .cmp _ _ _ _ | .cmpi _ _ _ _ | .mul _ _ _ | .mulhI _ _ _
  | .mulhN _ _ _ | .divI _ _ _ | .divN _ _ _ | .remI _ _ _ | .remN _ _ _ | .bfxI _ _ _
  | .bfxN _ _ _ | .bfi _ _ _ | .fshl _ _ _ _ | .fshr _ _ _ _ | .bfxIImm _ _ _ _
  | .bfxNImm _ _ _ _ | .bfiImm _ _ _ _ | .ld _ _ _ _ | .ldx _ _ _ _ _ | .st _ _ _ _
  | .stx _ _ _ _ _ | .ldAcq _ _ _ _ | .stRel _ _ _ _ | .amoAdd _ _ _ _ _ | .amoSwap _ _ _ _ _
  | .amoCas _ _ _ _ _ | .amoMinI _ _ _ _ _ | .amoMinN _ _ _ _ _ | .amoMaxI _ _ _ _ _
  | .amoMaxN _ _ _ _ _ | .amoAnd _ _ _ _ _ | .amoOr _ _ _ _ _ | .amoXor _ _ _ _ _
  | .ldl _ _ _ _ _ | .stl _ _ _ _ _ | .xlate _ _ _ | .hinv _ | .hinfo _ _ | .drain _
  | .drainFlag _ _ _ _ _ _ | .semAdd _ _ _ _ _ | .semWait _ _ _ _ _ | .semAcq _ _ _ _
  | .semRel _ _ _ | .semPost _ _ _ _ | .semRead _ _ _ _ _ | .mbRd _ _ | .mbWr _ _
  | .mbProbe _ _ _ _ | .mileWait _ _ | .mileRead _ _ | .mileArm _ _ | .mileDisarm
  | .sbind _ _ _ _ _ | .sload _ _ _ | .sgather _ _ _ _ | .sstore _ _ _ _ _ | .sscatter _ _ _ _
  | .sscatterAddI32 _ _ _ _ | .sscatterAddN32 _ _ _ _ | .sscatterAddI64 _ _ _ _
  | .sscatterAddXa256 _ _ _ _ | .sscatterAddF32 _ _ _ _ | .spair _ _ _ _ | .scopy _ _ _
  | .krun _ _ _ | .kctlAbort | .kctlPrefetch _ _ | .mcall _ _ _ _ _ | .mrout _ _ _ | .wsctlLoad _
  | .wsctlSeal _ | .wsctlQuery _ | .treeBind _ _ _ _ | .treeDesc _ _ _ _ _ | .treeExp _ _ _ _ _
  | .treeBack _ _ _ _ _ | .treeReroot _ _ _ _ | .treeSweep _ _ _ | .treePath _ _ _ _ _
  | .treeRead _ _ _ _ _ | .treeFlush _ _ _ | .gatherl _ _ _ _ | .launch _ _ | .taskRetire
  | .taskYield _ _ _ | .taskPrio _ _ _ | .taskSelf _ _ _ | .waymark _ _ _ | .br _ _ _ | .jmp _
  | .call _ | .jx _ | .callx _ | .ret | .trap _ | .csrr _ _ | .csrw _ _ | .uiret | .waiti | .bkpt
  | .fenceC | .scrub _ _ | .migrate _ _ | .xinvMark _ _ _ | .xinvConfirm _ _ | .qmap _ _
    => .control
  | .kAdd _ _ _ _ _ | .kSub _ _ _ _ _ | .kAnd _ _ _ _ | .kOr _ _ _ _ | .kXor _ _ _ _
  | .kAndn _ _ _ _ | .kShl _ _ _ _ _ | .kShr _ _ _ _ _ | .kSra _ _ _ _ _ | .min _ _ _ _ _
  | .max _ _ _ _ _ | .kCmp _ _ _ _ _ _ | .kSel _ _ _ _ _ | .kBfxN _ _ _ _ | .kBfxI _ _ _ _
  | .kBfi _ _ _ _ | .kFshl _ _ _ | .kFshr _ _ _ | .movi _ _ | .moviHigh _ _
  | .moviLiteral _ _ _ _ | .moviShifted _ _ _ | .abs _ _ _ _ | .neg _ _ _ _ | .kClz _ _ _ _
  | .kPopc _ _ _ _ | .not_ _ _ _ | .fabs _ _ _ | .fneg _ _ _ | .fclass _ _ _ | .fadd _ _ _ _ _
  | .fsub _ _ _ _ _ | .fmin _ _ _ _ _ | .fmax _ _ _ _ _ | .fcmp _ _ _ _ _ _ | .cvtI32F32 _ _ _ _
  | .cvtN32F32 _ _ _ _ | .cvtF32I32 _ _ _ _ | .cvtF32N32 _ _ _ _ | .cvtF16F32 _ _ _ _
  | .cvtBf16F32 _ _ _ _ | .cvtF32F16 _ _ _ _ | .cvtF32Bf16 _ _ _ _ | .cvtE4m3F32Sat _ _ _ _
  | .cvtE4m3F32 _ _ _ _ | .cvtE5m2F32Sat _ _ _ _ | .cvtE5m2F32 _ _ _ _ | .cvtF32E4m3 _ _ _ _
  | .cvtF32E5m2 _ _ _ _ | .cvtPls _ _ _ _ _ | .cvtPln _ _ _ _ _ | .twosum _ _ _ _
  | .ftwosum _ _ _ _ | .dwadd _ _ _ _ | .dwnorm _ _ _ | .packF16 _ _ _ _ | .packBf16 _ _ _ _
  | .packLo _ _ _ _ | .packHi _ _ _ _ | .scalb _ _ _ _ _ | .frnd _ _ _ _
    => .kernel .a
  | .fma _ _ _ _ _ | .fms _ _ _ _ _ | .fmul _ _ _ _ _ | .kMul _ _ _ _ _ | .mulh _ _ _ _ _
  | .twoprod _ _ _ _ | .dwmul _ _ _ _ | .dwfma _ _ _ _ | .mad16 _ _ _ _ _ | .madb16 _ _ _ _ _
  | .dot2 _ _ _ _ _ | .dot4i8 _ _ _ _ _
    => .kernel .m
  | .rcp _ _ _ _ | .rsq _ _ _ _ | .sqrt _ _ _ _ | .div _ _ _ _ _ | .exp2 _ _ _ _ | .log2 _ _ _ _
  | .sigm _ _ _ _ | .tanh _ _ _ _ | .rsqe _ _ _ _ | .silu _ _ _ _
    => .kernel .f
  | .spop _ _ _ | .spush _ _ _ | .sskip _ _ | .scountPos _ _ | .scountRem _ _ | .comm _ _ _ _
  | .commCl _ _ _ _ | .commpRot _ _ _ _ | .commpBc _ _ _ _ | .commpBfly _ _ _ _ | .creduce _ _ _
  | .ireduce _ _ _ _ | .mbrLo _ _ _ | .mbrHi _ _ _ | .mbrPair _ _ _ | .mbwWord _ _ _
  | .mbwPair _ _ _
    => .kernel .s
  | .ardF32 _ _ _ _ | .ardI32 _ _ _ _ | .ardXaF32 _ _ _ _ | .ardXaI32 _ _ _ _ | .ardExp _ _ _ _
  | .ard2 _ _ _ _ | .ard2Q _ _ _ _ _ | .awrI32 _ _ _ _ | .awrPair _ _ _ _ | .awrExp _ _ _ _
  | .adep _ _ _ _ | .azero _ | .azeroXa _ | .astat _ _ | .astatClr _ _ | .ascl _ _ _ _
    => .kernel .x
  | .pset _ _ | .psetImm _ _ _ | .psetHi _ _ _ | .psetAdd _ _ _ | .mpost _ _ _ _
    => .kernel .c
  | .loop _ _ _ | .loopP _ _ _ | .bra _ _ _ | .kJmp _ | .kend | .ktrap _ | .idle _ | .mwaitk _ _
    => .kernel .b
  | .movePair .. | .loopr .. | .brg .. | .jmpr .. | .setw ..
    => .plane
  | .fetchPageFault .. | .loadResultDelivery .. | .blockedBundleReexecute .. | .contextSwitch ..
  | .gatherlStep .. | .drainComplete .. | .flagStorePerform .. | .uiDelivery ..
  | .uistatusPendingDiscard .. | .lspillWrite .. | .ageWrite .. | .tstatKres .. | .tstatKabt ..
  | .tstatActiveClear .. | .retreqClear .. | .registerWrite .. | .engineAccept ..
  | .requestGeneration .. | .calendarSlot .. | .lineWrite .. | .storeAcknowledge ..
  | .reductionElement .. | .remoteRequest .. | .fabricRequestLost .. | .responseDropped ..
  | .hostCxlMemAccess .. | .engineTranslationFault .. | .queueResume ..
  | .engineCommandComplete .. | .xlateResolve .. | .walkComplete .. | .priPageRequest ..
  | .prgResponseSuccess .. | .prgResponseInvalid .. | .prgResponseFailure ..
  | .atsInvalidateRequest .. | .tokenAutoConfirm .. | .faultRingCopy .. | .fheadWrite ..
  | .packetIssue .. | .idleIssueCycle .. | .resultLanding .. | .kernelStart ..
  | .kernelCodeFetch .. | .krunComplete .. | .kernelAbortStop .. | .kernelFreeze ..
  | .kernelTrapDelivery .. | .kernelResume .. | .routineStart .. | .mroutCopy ..
  | .routineRetire .. | .aload .. | .bload .. | .expo .. | .pass .. | .aswapExchange ..
  | .aswapStore .. | .aswapSpill .. | .aclr .. | .xdep .. | .done | .addt .. | .cmpt ..
  | .mile .. | .pairLock .. | .pairRelease .. | .blockReadAdmit .. | .wsBankRefresh ..
  | .wsBankService .. | .wsEnterLoad .. | .wsSealComplete .. | .treeBindExecute .. | .descent ..
  | .expansionEntry .. | .backupRecord .. | .treeRerootExecute .. | .treeSweepExecute ..
  | .treePathExecute .. | .treeReadExecute .. | .treeFlushExecute .. | .ticketGapTimeout ..
  | .nodeCacheEviction .. | .takeRecord .. | .placement .. | .restore .. | .swap ..
  | .preemption .. | .spill .. | .agingMove .. | .reserving .. | .taskRetirement ..
  | .waymarkArrival .. | .semWaiterServed .. | .kick .. | .partCreate .. | .partDestroy ..
  | .amapWrite .. | .pasidSet .. | .saveSet .. | .queuePriv .. | .taskEnd .. | .fringSet ..
  | .migrateExecute .. | .migrateClose .. | .scrubLine .. | .patrol .. | .patrolPeriodEnd ..
  | .debugToken .. | .returnRecord .. | .attest .. | .configurationRecord .. | .boot ..
  | .powerOff | .pStateChange .. | .retrain .. | .c1Entry .. | .c1Exit .. | .c3Entry ..
  | .c3Exit .. | .priEnable | .debugRequest .. | .retrainEnd .. | .queueDestroyed ..
    => .event

/-- The slot word of a control or kernel operation, without its stop bit; 0 for the others. -/
def encodeWord : Instr → Nat
  | .nop => 67108864
  | .add d a b => 134217728 + d.toNat * 2097152 + a.toNat * 65536 + b.toNat * 2048
  | .sub d a b => 134217729 + d.toNat * 2097152 + a.toNat * 65536 + b.toNat * 2048
  | .and_ d a b => 134217730 + d.toNat * 2097152 + a.toNat * 65536 + b.toNat * 2048
  | .or_ d a b => 134217731 + d.toNat * 2097152 + a.toNat * 65536 + b.toNat * 2048
  | .xor d a b => 134217732 + d.toNat * 2097152 + a.toNat * 65536 + b.toNat * 2048
  | .andn d a b => 134217733 + d.toNat * 2097152 + a.toNat * 65536 + b.toNat * 2048
  | .shl d a b => 134217734 + d.toNat * 2097152 + a.toNat * 65536 + b.toNat * 2048
  | .shr d a b => 134217735 + d.toNat * 2097152 + a.toNat * 65536 + b.toNat * 2048
  | .sra d a b => 134217736 + d.toNat * 2097152 + a.toNat * 65536 + b.toNat * 2048
  | .rol d a b => 134217737 + d.toNat * 2097152 + a.toNat * 65536 + b.toNat * 2048
  | .minI d a b => 134217738 + d.toNat * 2097152 + a.toNat * 65536 + b.toNat * 2048
  | .minN d a b => 134217739 + d.toNat * 2097152 + a.toNat * 65536 + b.toNat * 2048
  | .maxI d a b => 134217740 + d.toNat * 2097152 + a.toNat * 65536 + b.toNat * 2048
  | .maxN d a b => 134217741 + d.toNat * 2097152 + a.toNat * 65536 + b.toNat * 2048
  | .clz d a => 134217742 + d.toNat * 2097152 + a.toNat * 65536
  | .popc d a => 134217743 + d.toNat * 2097152 + a.toNat * 65536
  | .sel d a b c => 134217744 + d.toNat * 2097152 + a.toNat * 65536 + b.toNat * 2048 + c.toNat * 64
  | .addi d a i => 201326592 + d.toNat * 2097152 + a.toNat * 65536 + i.lo.toNat
  | .andi d a i => 268435456 + d.toNat * 2097152 + a.toNat * 65536 + i.lo.toNat
  | .ori d a i => 335544320 + d.toNat * 2097152 + a.toNat * 65536 + i.lo.toNat
  | .xori d a i => 402653184 + d.toNat * 2097152 + a.toNat * 65536 + i.lo.toNat
  | .shli d a n => 469762048 + d.toNat * 2097152 + a.toNat * 65536 + n.toNat
  | .shri d a n => 469778432 + d.toNat * 2097152 + a.toNat * 65536 + n.toNat
  | .srai d a n => 469794816 + d.toNat * 2097152 + a.toNat * 65536 + n.toNat
  | .roli d a n => 469811200 + d.toNat * 2097152 + a.toNat * 65536 + n.toNat
  | .ldi d k i => 536870912 + d.toNat * 2097152 + k.toNat * 524288 + i.toNat
  | .ldiKeep d k i => 537133056 + d.toNat * 2097152 + k.toNat * 524288 + i.toNat
  | .ldi64 d _ => 537001984 + d.toNat * 2097152
  | .cmp d a b c => 603979776 + d.toNat * 2097152 + a.toNat * 65536 + b.toNat * 2048 + c.toNat
  | .cmpi d a c i => 671088640 + d.toNat * 2097152 + a.toNat * 65536 + c.toNat * 8192 + i.lo.toNat
  | .mul d a b => 738197504 + d.toNat * 2097152 + a.toNat * 65536 + b.toNat * 2048
  | .mulhI d a b => 738197505 + d.toNat * 2097152 + a.toNat * 65536 + b.toNat * 2048
  | .mulhN d a b => 738197506 + d.toNat * 2097152 + a.toNat * 65536 + b.toNat * 2048
  | .divI d a b => 738197507 + d.toNat * 2097152 + a.toNat * 65536 + b.toNat * 2048
  | .divN d a b => 738197508 + d.toNat * 2097152 + a.toNat * 65536 + b.toNat * 2048
  | .remI d a b => 738197509 + d.toNat * 2097152 + a.toNat * 65536 + b.toNat * 2048
  | .remN d a b => 738197510 + d.toNat * 2097152 + a.toNat * 65536 + b.toNat * 2048
  | .bfxI d a b => 805306368 + d.toNat * 2097152 + a.toNat * 65536 + b.toNat * 2048
  | .bfxN d a b => 805306369 + d.toNat * 2097152 + a.toNat * 65536 + b.toNat * 2048
  | .bfi d a b => 805306370 + d.toNat * 2097152 + a.toNat * 65536 + b.toNat * 2048
  | .fshl d a b c => 805306371 + d.toNat * 2097152 + a.toNat * 65536 + b.toNat * 2048 + c.toNat * 64
  | .fshr d a b c => 805306372 + d.toNat * 2097152 + a.toNat * 65536 + b.toNat * 2048 + c.toNat * 64
  | .bfxIImm d a w o => 872415232 + d.toNat * 2097152 + a.toNat * 65536 + w.toNat * 64 + o.toNat
  | .bfxNImm d a w o => 872419328 + d.toNat * 2097152 + a.toNat * 65536 + w.toNat * 64 + o.toNat
  | .bfiImm d a w o => 872423424 + d.toNat * 2097152 + a.toNat * 65536 + w.toNat * 64 + o.toNat
  | .ld d h s i => 1073741824 + d.toNat * 2097152 + h.toNat * 131072 + s.toNat * 16384 + i.lo.toNat
  | .ldx d h s b c => 1140850688 + d.toNat * 2097152 + h.toNat * 131072 + s.toNat * 16384 + b.toNat * 512 + c.toNat * 128
  | .st d h s i => 1207959552 + d.toNat * 2097152 + h.toNat * 131072 + s.toNat * 16384 + i.lo.toNat
  | .stx d h s b c => 1275068416 + d.toNat * 2097152 + h.toNat * 131072 + s.toNat * 16384 + b.toNat * 512 + c.toNat * 128
  | .ldAcq d h s i => 1342177280 + d.toNat * 2097152 + h.toNat * 131072 + s.toNat * 16384 + i.lo.toNat
  | .stRel d h s i => 1409286144 + d.toNat * 2097152 + h.toNat * 131072 + s.toNat * 16384 + i.lo.toNat
  | .amoAdd d a b h w => 1476395008 + d.toNat * 2097152 + a.toNat * 65536 + b.toNat * 2048 + h.toNat * 128 + w.toNat * 4
  | .amoSwap d a b h w => 1476395016 + d.toNat * 2097152 + a.toNat * 65536 + b.toNat * 2048 + h.toNat * 128 + w.toNat * 4
  | .amoCas d a b h w => 1476395024 + d.toNat * 2097152 + a.toNat * 65536 + b.toNat * 2048 + h.toNat * 128 + w.toNat * 4
  | .amoMinI d a b h w => 1476395032 + d.toNat * 2097152 + a.toNat * 65536 + b.toNat * 2048 + h.toNat * 128 + w.toNat * 4
  | .amoMinN d a b h w => 1476395040 + d.toNat * 2097152 + a.toNat * 65536 + b.toNat * 2048 + h.toNat * 128 + w.toNat * 4
  | .amoMaxI d a b h w => 1476395048 + d.toNat * 2097152 + a.toNat * 65536 + b.toNat * 2048 + h.toNat * 128 + w.toNat * 4
  | .amoMaxN d a b h w => 1476395056 + d.toNat * 2097152 + a.toNat * 65536 + b.toNat * 2048 + h.toNat * 128 + w.toNat * 4
  | .amoAnd d a b h w => 1476395064 + d.toNat * 2097152 + a.toNat * 65536 + b.toNat * 2048 + h.toNat * 128 + w.toNat * 4
  | .amoOr d a b h w => 1476395072 + d.toNat * 2097152 + a.toNat * 65536 + b.toNat * 2048 + h.toNat * 128 + w.toNat * 4
  | .amoXor d a b h w => 1476395080 + d.toNat * 2097152 + a.toNat * 65536 + b.toNat * 2048 + h.toNat * 128 + w.toNat * 4
  | .ldl d a p s o => 1543503872 + d.toNat * 2097152 + a.toNat * 65536 + p.toNat * 32768 + s.toNat * 4096 + o.lo.toNat
  | .stl d a p s o => 1610612736 + d.toNat * 2097152 + a.toNat * 65536 + p.toNat * 32768 + s.toNat * 4096 + o.lo.toNat
  | .xlate n a t => 1677721600 + n.toNat * 2097152 + a.toNat * 65536 + t.toNat
  | .hinv n => 1744830464 + n.toNat * 2097152
  | .hinfo d n => 1744830465 + d.toNat * 2097152 + n.toNat * 65536
  | .drain s => 1811939328 + s.toNat
  | .drainFlag d a b w h s => 1811939336 + d.toNat * 2097152 + a.toNat * 65536 + b.toNat * 2048 + w.toNat * 256 + h.toNat * 16 + s.toNat
  | .semAdd d a b i g => 1879048192 + d.toNat * 2097152 + a.toNat * 65536 + b.toNat * 2048 + i.toNat * 16 + g.toNat * 8
  | .semWait d a b i g => 1879048193 + d.toNat * 2097152 + a.toNat * 65536 + b.toNat * 2048 + i.toNat * 16 + g.toNat * 8
  | .semAcq d a i g => 1879048194 + d.toNat * 2097152 + a.toNat * 65536 + i.toNat * 16 + g.toNat * 8
  | .semRel a i g => 1879048195 + a.toNat * 65536 + i.toNat * 16 + g.toNat * 8
  | .semPost a b i g => 1879048196 + a.toNat * 65536 + b.toNat * 2048 + i.toNat * 16 + g.toNat * 8
  | .semRead d a b i g => 1879048197 + d.toNat * 2097152 + a.toNat * 65536 + b.toNat * 2048 + i.toNat * 16 + g.toNat * 8
  | .mbRd d m => 1946157056 + d.toNat * 2097152 + m.toNat * 4
  | .mbWr a m => 1946157057 + a.toNat * 65536 + m.toNat * 4
  | .mbProbe d a b m => 1946157058 + d.toNat * 2097152 + a.toNat * 65536 + b.toNat * 2048 + m.toNat * 4
  | .mileWait a q => 2013265920 + a.toNat * 65536 + q.toNat * 8
  | .mileRead d q => 2013265921 + d.toNat * 2097152 + q.toNat * 8
  | .mileArm a q => 2013265922 + a.toNat * 65536 + q.toNat * 8
  | .mileDisarm => 2013265923
  | .sbind a b s r m => 2147483648 + a.toNat * 65536 + b.toNat * 2048 + s.toNat * 128 + r.toNat * 16 + m.toNat * 8
  | .sload d a b => 2214592512 + d.toNat * 2097152 + a.toNat * 65536 + b.toNat * 2048
  | .sgather d a b c => 2281701376 + d.toNat * 2097152 + a.toNat * 65536 + b.toNat * 2048 + c.toNat * 64
  | .sstore d a b c n => 2348810240 + d.toNat * 2097152 + a.toNat * 65536 + b.toNat * 2048 + c.toNat * 64 + n.toNat
  | .sscatter d a b c => 2415919104 + d.toNat * 2097152 + a.toNat * 65536 + b.toNat * 2048 + c.toNat * 64
  | .sscatterAddI32 d a b c => 2415919108 + d.toNat * 2097152 + a.toNat * 65536 + b.toNat * 2048 + c.toNat * 64
  | .sscatterAddN32 d a b c => 2415919112 + d.toNat * 2097152 + a.toNat * 65536 + b.toNat * 2048 + c.toNat * 64
  | .sscatterAddI64 d a b c => 2415919116 + d.toNat * 2097152 + a.toNat * 65536 + b.toNat * 2048 + c.toNat * 64
  | .sscatterAddXa256 d a b c => 2415919120 + d.toNat * 2097152 + a.toNat * 65536 + b.toNat * 2048 + c.toNat * 64
  | .sscatterAddF32 d a b c => 2415919124 + d.toNat * 2097152 + a.toNat * 65536 + b.toNat * 2048 + c.toNat * 64
  | .spair d a b c => 2483027968 + d.toNat * 2097152 + a.toNat * 65536 + b.toNat * 2048 + c.toNat * 64
  | .scopy d a b => 2550136832 + d.toNat * 2097152 + a.toNat * 65536 + b.toNat * 2048
  | .krun d a b => 2617245696 + d.toNat * 2097152 + a.toNat * 65536 + b.toNat * 2048
  | .kctlAbort => 2684354560
  | .kctlPrefetch d a => 2684354561 + d.toNat * 2097152 + a.toNat * 65536
  | .mcall d a b c n => 2751463424 + d.toNat * 2097152 + a.toNat * 65536 + b.toNat * 2048 + c.toNat * 64 + n.toNat * 16
  | .mrout d a b => 2818572288 + d.toNat * 2097152 + a.toNat * 65536 + b.toNat * 2048
  | .wsctlLoad d => 2885681152 + d.toNat * 2097152
  | .wsctlSeal d => 2885681153 + d.toNat * 2097152
  | .wsctlQuery d => 2885681154 + d.toNat * 2097152
  | .treeBind d a b s => 2952790016 + d.toNat * 2097152 + a.toNat * 65536 + b.toNat * 2048 + s.toNat * 16
  | .treeDesc d a b c s => 2952790017 + d.toNat * 2097152 + a.toNat * 65536 + b.toNat * 2048 + c.toNat * 64 + s.toNat * 16
  | .treeExp d a b c s => 2952790018 + d.toNat * 2097152 + a.toNat * 65536 + b.toNat * 2048 + c.toNat * 64 + s.toNat * 16
  | .treeBack d a b c s => 2952790019 + d.toNat * 2097152 + a.toNat * 65536 + b.toNat * 2048 + c.toNat * 64 + s.toNat * 16
  | .treeReroot d a b s => 2952790020 + d.toNat * 2097152 + a.toNat * 65536 + b.toNat * 2048 + s.toNat * 16
  | .treeSweep d b s => 2952790021 + d.toNat * 2097152 + b.toNat * 2048 + s.toNat * 16
  | .treePath d a b c s => 2952790022 + d.toNat * 2097152 + a.toNat * 65536 + b.toNat * 2048 + c.toNat * 64 + s.toNat * 16
  | .treeRead d a b c s => 2952790023 + d.toNat * 2097152 + a.toNat * 65536 + b.toNat * 2048 + c.toNat * 64 + s.toNat * 16
  | .treeFlush d b s => 2952790024 + d.toNat * 2097152 + b.toNat * 2048 + s.toNat * 16
  | .gatherl d a b c => 3019898880 + d.toNat * 2097152 + a.toNat * 65536 + b.toNat * 2048 + c.toNat * 64
  | .launch d a => 3221225472 + d.toNat * 2097152 + a.toNat * 65536
  | .taskRetire => 3288334336
  | .taskYield d a b => 3288334337 + d.toNat * 2097152 + a.toNat * 65536 + b.toNat * 2048
  | .taskPrio d a b => 3288334338 + d.toNat * 2097152 + a.toNat * 65536 + b.toNat * 2048
  | .taskSelf d a b => 3288334339 + d.toNat * 2097152 + a.toNat * 65536 + b.toNat * 2048
  | .waymark d i s => 3355443200 + d.toNat * 2097152 + i.toNat * 8 + s.toNat
  | .br a c i => 3758096384 + a.toNat * 2097152 + c.toNat * 262144 + i.lo.toNat
  | .jmp i => 3825205248 + i.toNat
  | .call i => 3892314112 + i.toNat
  | .jx a => 3959422976 + a.toNat * 65536
  | .callx a => 3959422977 + a.toNat * 65536
  | .ret => 3959422978
  | .trap i => 4026531840 + i.toNat
  | .csrr d r => 4093640704 + d.toNat * 2097152 + r.toNat
  | .csrw a r => 4093644800 + a.toNat * 65536 + r.toNat
  | .uiret => 4093648896
  | .waiti => 4093652992
  | .bkpt => 4093657088
  | .fenceC => 4093661184
  | .scrub d a => 4160749568 + d.toNat * 2097152 + a.toNat * 65536
  | .migrate d a => 4160749569 + d.toNat * 2097152 + a.toNat * 65536
  | .xinvMark d a b => 4160749570 + d.toNat * 2097152 + a.toNat * 65536 + b.toNat * 2048
  | .xinvConfirm d a => 4160749571 + d.toNat * 2097152 + a.toNat * 65536
  | .qmap a b => 4160749572 + a.toNat * 65536 + b.toNat * 2048
  | .kAdd d a b g m => 0 + d.toNat * 524288 + a.toNat * 4096 + b.toNat * 32 + g.toNat * 4 + m.toNat
  | .kSub d a b g m => 67108864 + d.toNat * 524288 + a.toNat * 4096 + b.toNat * 32 + g.toNat * 4 + m.toNat
  | .kAnd d a b g => 134217728 + d.toNat * 524288 + a.toNat * 4096 + b.toNat * 32 + g.toNat * 4
  | .kOr d a b g => 201326592 + d.toNat * 524288 + a.toNat * 4096 + b.toNat * 32 + g.toNat * 4
  | .kXor d a b g => 268435456 + d.toNat * 524288 + a.toNat * 4096 + b.toNat * 32 + g.toNat * 4
  | .kAndn d a b g => 335544320 + d.toNat * 524288 + a.toNat * 4096 + b.toNat * 32 + g.toNat * 4
  | .kShl d a b g m => 402653184 + d.toNat * 524288 + a.toNat * 4096 + b.toNat * 32 + g.toNat * 4 + m.toNat * 2
  | .kShr d a b g m => 469762048 + d.toNat * 524288 + a.toNat * 4096 + b.toNat * 32 + g.toNat * 4 + m.toNat * 2
  | .kSra d a b g m => 536870912 + d.toNat * 524288 + a.toNat * 4096 + b.toNat * 32 + g.toNat * 4 + m.toNat * 2
  | .min d a b g m => 603979776 + d.toNat * 524288 + a.toNat * 4096 + b.toNat * 32 + g.toNat * 4 + m.toNat
  | .max d a b g m => 671088640 + d.toNat * 524288 + a.toNat * 4096 + b.toNat * 32 + g.toNat * 4 + m.toNat
  | .kCmp c q a b g m => 738197504 + c.toNat * 4194304 + q.toNat * 524288 + a.toNat * 4096 + b.toNat * 32 + g.toNat * 4 + m.toNat
  | .kSel d a b g m => 805306368 + d.toNat * 524288 + a.toNat * 4096 + b.toNat * 32 + g.toNat * 4 + m.toNat * 2
  | .kBfxN d v w o => 872415232 + d.toNat * 524288 + v.toNat * 16384 + w.toNat * 32 + o.toNat
  | .kBfxI d v w o => 872419328 + d.toNat * 524288 + v.toNat * 16384 + w.toNat * 32 + o.toNat
  | .kBfi d v w o => 939524096 + d.toNat * 524288 + v.toNat * 16384 + w.toNat * 32 + o.toNat
  | .kFshl d v n => 1006632960 + d.toNat * 524288 + v.toNat * 16384 + n.toNat
  | .kFshr d v n => 1006637056 + d.toNat * 524288 + v.toNat * 16384 + n.toNat
  | .movi d i => 1073741824 + d.toNat * 524288 + i.toNat
  | .moviHigh d i => 1073745920 + d.toNat * 524288 + i.toNat
  | .moviLiteral d h i _ => 1073750016 + d.toNat * 524288 + h.toNat * 16384 + i.toNat
  | .moviShifted d n _ => 1073754112 + d.toNat * 524288 + n.toNat
  | .abs d a g m => 1140850688 + d.toNat * 524288 + a.toNat * 4096 + g.toNat * 4 + m.toNat * 2
  | .neg d a g m => 1140850720 + d.toNat * 524288 + a.toNat * 4096 + g.toNat * 4 + m.toNat * 2
  | .kClz d a g m => 1140850752 + d.toNat * 524288 + a.toNat * 4096 + g.toNat * 4 + m.toNat * 2
  | .kPopc d a g m => 1140850784 + d.toNat * 524288 + a.toNat * 4096 + g.toNat * 4 + m.toNat * 2
  | .not_ d a g => 1140850816 + d.toNat * 524288 + a.toNat * 4096 + g.toNat * 4
  | .fabs d a g => 1140850848 + d.toNat * 524288 + a.toNat * 4096 + g.toNat * 4
  | .fneg d a g => 1140850880 + d.toNat * 524288 + a.toNat * 4096 + g.toNat * 4
  | .fclass d a g => 1140850912 + d.toNat * 524288 + a.toNat * 4096 + g.toNat * 4
  | .fadd d a b g m => 1207959552 + d.toNat * 524288 + a.toNat * 4096 + b.toNat * 32 + g.toNat * 4 + m.toNat
  | .fsub d a b g m => 1275068416 + d.toNat * 524288 + a.toNat * 4096 + b.toNat * 32 + g.toNat * 4 + m.toNat
  | .fmin d a b g m => 1342177280 + d.toNat * 524288 + a.toNat * 4096 + b.toNat * 32 + g.toNat * 4 + m.toNat
  | .fmax d a b g m => 1409286144 + d.toNat * 524288 + a.toNat * 4096 + b.toNat * 32 + g.toNat * 4 + m.toNat
  | .fcmp c q a b g m => 1476395008 + c.toNat * 4194304 + q.toNat * 524288 + a.toNat * 4096 + b.toNat * 32 + g.toNat * 4 + m.toNat
  | .cvtI32F32 d a g m => 1543503872 + d.toNat * 524288 + a.toNat * 4096 + g.toNat * 4 + m.toNat
  | .cvtN32F32 d a g m => 1543503904 + d.toNat * 524288 + a.toNat * 4096 + g.toNat * 4 + m.toNat
  | .cvtF32I32 d a g m => 1543503936 + d.toNat * 524288 + a.toNat * 4096 + g.toNat * 4 + m.toNat
  | .cvtF32N32 d a g m => 1543503968 + d.toNat * 524288 + a.toNat * 4096 + g.toNat * 4 + m.toNat
  | .cvtF16F32 d a g m => 1543504000 + d.toNat * 524288 + a.toNat * 4096 + g.toNat * 4 + m.toNat
  | .cvtBf16F32 d a g m => 1543504032 + d.toNat * 524288 + a.toNat * 4096 + g.toNat * 4 + m.toNat
  | .cvtF32F16 d a g m => 1543504064 + d.toNat * 524288 + a.toNat * 4096 + g.toNat * 4 + m.toNat
  | .cvtF32Bf16 d a g m => 1543504096 + d.toNat * 524288 + a.toNat * 4096 + g.toNat * 4 + m.toNat
  | .cvtE4m3F32Sat d a g m => 1543504128 + d.toNat * 524288 + a.toNat * 4096 + g.toNat * 4 + m.toNat
  | .cvtE4m3F32 d a g m => 1543504160 + d.toNat * 524288 + a.toNat * 4096 + g.toNat * 4 + m.toNat
  | .cvtE5m2F32Sat d a g m => 1543504192 + d.toNat * 524288 + a.toNat * 4096 + g.toNat * 4 + m.toNat
  | .cvtE5m2F32 d a g m => 1543504224 + d.toNat * 524288 + a.toNat * 4096 + g.toNat * 4 + m.toNat
  | .cvtF32E4m3 d a g m => 1543504256 + d.toNat * 524288 + a.toNat * 4096 + g.toNat * 4 + m.toNat
  | .cvtF32E5m2 d a g m => 1543504288 + d.toNat * 524288 + a.toNat * 4096 + g.toNat * 4 + m.toNat
  | .cvtPls d a j g m => 1543504896 + d.toNat * 524288 + a.toNat * 4096 + j.toNat * 32 + g.toNat * 4 + m.toNat
  | .cvtPln d a j g m => 1543505408 + d.toNat * 524288 + a.toNat * 4096 + j.toNat * 32 + g.toNat * 4 + m.toNat
  | .twosum d a b g => 1610612736 + d.toNat * 524288 + a.toNat * 4096 + b.toNat * 32 + g.toNat * 4
  | .ftwosum d a b g => 1677721600 + d.toNat * 524288 + a.toNat * 4096 + b.toNat * 32 + g.toNat * 4
  | .dwadd d a b g => 1744830464 + d.toNat * 524288 + a.toNat * 4096 + b.toNat * 32 + g.toNat * 4
  | .dwnorm d a g => 1811939328 + d.toNat * 524288 + a.toNat * 4096 + g.toNat * 4
  | .packF16 d a b g => 1879048192 + d.toNat * 524288 + a.toNat * 4096 + b.toNat * 32 + g.toNat * 4
  | .packBf16 d a b g => 1879048193 + d.toNat * 524288 + a.toNat * 4096 + b.toNat * 32 + g.toNat * 4
  | .packLo d a b g => 1879048194 + d.toNat * 524288 + a.toNat * 4096 + b.toNat * 32 + g.toNat * 4
  | .packHi d a b g => 1879048195 + d.toNat * 524288 + a.toNat * 4096 + b.toNat * 32 + g.toNat * 4
  | .scalb d a b g m => 1946157056 + d.toNat * 524288 + a.toNat * 4096 + b.toNat * 32 + g.toNat * 4 + m.toNat
  | .frnd d a g m => 2013265920 + d.toNat * 524288 + a.toNat * 4096 + g.toNat * 4 + m.toNat
  | .fma d a b g m => 0 + d.toNat * 524288 + a.toNat * 4096 + b.toNat * 32 + g.toNat * 4 + m.toNat
  | .fms d a b g m => 67108864 + d.toNat * 524288 + a.toNat * 4096 + b.toNat * 32 + g.toNat * 4 + m.toNat
  | .fmul d a b g m => 134217728 + d.toNat * 524288 + a.toNat * 4096 + b.toNat * 32 + g.toNat * 4 + m.toNat
  | .kMul d a b g m => 201326592 + d.toNat * 524288 + a.toNat * 4096 + b.toNat * 32 + g.toNat * 4 + m.toNat * 2
  | .mulh d a b g m => 268435456 + d.toNat * 524288 + a.toNat * 4096 + b.toNat * 32 + g.toNat * 4 + m.toNat
  | .twoprod d a b g => 335544320 + d.toNat * 524288 + a.toNat * 4096 + b.toNat * 32 + g.toNat * 4
  | .dwmul d a b g => 402653184 + d.toNat * 524288 + a.toNat * 4096 + b.toNat * 32 + g.toNat * 4
  | .dwfma d a b g => 469762048 + d.toNat * 524288 + a.toNat * 4096 + b.toNat * 32 + g.toNat * 4
  | .mad16 d a b g m => 536870912 + d.toNat * 524288 + a.toNat * 4096 + b.toNat * 32 + g.toNat * 4 + m.toNat
  | .madb16 d a b g m => 603979776 + d.toNat * 524288 + a.toNat * 4096 + b.toNat * 32 + g.toNat * 4 + m.toNat
  | .dot2 d a b g m => 671088640 + d.toNat * 524288 + a.toNat * 4096 + b.toNat * 32 + g.toNat * 4 + m.toNat
  | .dot4i8 d a b g m => 738197504 + d.toNat * 524288 + a.toNat * 4096 + b.toNat * 32 + g.toNat * 4 + m.toNat
  | .rcp d a g m => 0 + d.toNat * 524288 + a.toNat * 4096 + g.toNat * 4 + m.toNat
  | .rsq d a g m => 67108864 + d.toNat * 524288 + a.toNat * 4096 + g.toNat * 4 + m.toNat
  | .sqrt d a g m => 134217728 + d.toNat * 524288 + a.toNat * 4096 + g.toNat * 4 + m.toNat
  | .div d a b g m => 201326592 + d.toNat * 524288 + a.toNat * 4096 + b.toNat * 32 + g.toNat * 4 + m.toNat
  | .exp2 d a g m => 268435456 + d.toNat * 524288 + a.toNat * 4096 + g.toNat * 4 + m.toNat
  | .log2 d a g m => 335544320 + d.toNat * 524288 + a.toNat * 4096 + g.toNat * 4 + m.toNat
  | .sigm d a g m => 402653184 + d.toNat * 524288 + a.toNat * 4096 + g.toNat * 4 + m.toNat
  | .tanh d a g m => 469762048 + d.toNat * 524288 + a.toNat * 4096 + g.toNat * 4 + m.toNat
  | .rsqe d a g m => 536870912 + d.toNat * 524288 + a.toNat * 4096 + g.toNat * 4 + m.toNat
  | .silu d a g m => 603979776 + d.toNat * 524288 + a.toNat * 4096 + g.toNat * 4 + m.toNat
  | .spop d n g => 0 + d.toNat * 524288 + n.toNat * 32768 + g.toNat * 4
  | .spush v n g => 67108864 + v.toNat * 524288 + n.toNat * 32768 + g.toNat * 4
  | .sskip n n2 => 134217728 + n.toNat * 32768 + n2.toNat * 32
  | .scountPos d n => 603979776 + d.toNat * 524288 + n.toNat * 32768
  | .scountRem d n => 603983872 + d.toNat * 524288 + n.toNat * 32768
  | .comm d a b g => 201326592 + d.toNat * 524288 + a.toNat * 4096 + b.toNat * 32 + g.toNat * 4
  | .commCl d a b g => 201326593 + d.toNat * 524288 + a.toNat * 4096 + b.toNat * 32 + g.toNat * 4
  | .commpRot d a k g => 268435456 + d.toNat * 524288 + a.toNat * 4096 + k.toNat * 32 + g.toNat * 4
  | .commpBc d a k g => 268435457 + d.toNat * 524288 + a.toNat * 4096 + k.toNat * 32 + g.toNat * 4
  | .commpBfly d a k g => 268435458 + d.toNat * 524288 + a.toNat * 4096 + k.toNat * 32 + g.toNat * 4
  | .creduce d a g => 335544320 + d.toNat * 524288 + a.toNat * 4096 + g.toNat * 4
  | .ireduce d a o g => 402653184 + d.toNat * 524288 + a.toNat * 4096 + o.toNat * 32 + g.toNat * 4
  | .mbrLo d m k => 469762048 + d.toNat * 524288 + m.toNat * 32768 + k.toNat * 2048
  | .mbrHi d m k => 469766144 + d.toNat * 524288 + m.toNat * 32768 + k.toNat * 2048
  | .mbrPair d m k => 469770240 + d.toNat * 524288 + m.toNat * 32768 + k.toNat * 2048
  | .mbwWord v m l => 536870912 + v.toNat * 524288 + m.toNat * 32768 + l.toNat * 32
  | .mbwPair v m l => 536875008 + v.toNat * 524288 + m.toNat * 32768 + l.toNat * 32
  | .ardF32 d k a g => 0 + d.toNat * 524288 + k.toNat * 65536 + a.toNat * 64 + g.toNat * 4
  | .ardI32 d k a g => 8192 + d.toNat * 524288 + k.toNat * 65536 + a.toNat * 64 + g.toNat * 4
  | .ardXaF32 d k a g => 16384 + d.toNat * 524288 + k.toNat * 65536 + a.toNat * 64 + g.toNat * 4
  | .ardXaI32 d k a g => 24576 + d.toNat * 524288 + k.toNat * 65536 + a.toNat * 64 + g.toNat * 4
  | .ardExp d k a g => 32768 + d.toNat * 524288 + k.toNat * 65536 + a.toNat * 64 + g.toNat * 4
  | .ard2 d k a g => 67108864 + d.toNat * 524288 + k.toNat * 65536 + a.toNat * 64 + g.toNat * 4
  | .ard2Q d k q a g => 67141632 + d.toNat * 524288 + k.toNat * 65536 + q.toNat * 8192 + a.toNat * 64 + g.toNat * 4
  | .awrI32 v k a g => 134217728 + v.toNat * 524288 + k.toNat * 65536 + a.toNat * 64 + g.toNat * 4
  | .awrPair v k a g => 134225920 + v.toNat * 524288 + k.toNat * 65536 + a.toNat * 64 + g.toNat * 4
  | .awrExp v k a g => 134234112 + v.toNat * 524288 + k.toNat * 65536 + a.toNat * 64 + g.toNat * 4
  | .adep v k a g => 201326592 + v.toNat * 524288 + k.toNat * 65536 + a.toNat * 64 + g.toNat * 4
  | .azero k => 268435456 + k.toNat * 65536
  | .azeroXa k => 268443648 + k.toNat * 65536
  | .astat d k => 335544320 + d.toNat * 524288 + k.toNat * 65536
  | .astatClr d k => 335552512 + d.toNat * 524288 + k.toNat * 65536
  | .ascl v k a g => 402653184 + v.toNat * 524288 + k.toNat * 65536 + a.toNat * 64 + g.toNat * 4
  | .pset k a => 0 + k.toNat * 32768 + a.toNat * 256
  | .psetImm k a _ => 1 + k.toNat * 32768 + a.toNat * 256
  | .psetHi k a _ => 2 + k.toNat * 32768 + a.toNat * 256
  | .psetAdd k a _ => 3 + k.toNat * 32768 + a.toNat * 256
  | .mpost r n d e => 67108864 + r.toNat * 262144 + n.toNat * 65536 + d.toNat * 2048 + e.toNat * 64
  | .loop c n l => 0 + c.toNat * 16777216 + n.toNat * 4096 + l.toNat
  | .loopP c p l => 8388608 + c.toNat * 16777216 + p.toNat * 4096 + l.toNat
  | .bra y q i => 67108864 + y.toNat * 33554432 + q.toNat * 4194304 + i.toNat
  | .kJmp i => 134217728 + i.toNat
  | .kend => 201326592
  | .ktrap c => 268435456 + c.toNat
  | .idle n => 335544320 + n.toNat
  | .mwaitk q p => 402653184 + q.toNat * 8388608 + p.toNat * 1048576
  | .movePair .. | .loopr .. | .brg .. | .jmpr .. | .setw .. | .fetchPageFault ..
  | .loadResultDelivery .. | .blockedBundleReexecute .. | .contextSwitch .. | .gatherlStep ..
  | .drainComplete .. | .flagStorePerform .. | .uiDelivery .. | .uistatusPendingDiscard ..
  | .lspillWrite .. | .ageWrite .. | .tstatKres .. | .tstatKabt .. | .tstatActiveClear ..
  | .retreqClear .. | .registerWrite .. | .engineAccept .. | .requestGeneration ..
  | .calendarSlot .. | .lineWrite .. | .storeAcknowledge .. | .reductionElement ..
  | .remoteRequest .. | .fabricRequestLost .. | .responseDropped .. | .hostCxlMemAccess ..
  | .engineTranslationFault .. | .queueResume .. | .engineCommandComplete .. | .xlateResolve ..
  | .walkComplete .. | .priPageRequest .. | .prgResponseSuccess .. | .prgResponseInvalid ..
  | .prgResponseFailure .. | .atsInvalidateRequest .. | .tokenAutoConfirm .. | .faultRingCopy ..
  | .fheadWrite .. | .packetIssue .. | .idleIssueCycle .. | .resultLanding .. | .kernelStart ..
  | .kernelCodeFetch .. | .krunComplete .. | .kernelAbortStop .. | .kernelFreeze ..
  | .kernelTrapDelivery .. | .kernelResume .. | .routineStart .. | .mroutCopy ..
  | .routineRetire .. | .aload .. | .bload .. | .expo .. | .pass .. | .aswapExchange ..
  | .aswapStore .. | .aswapSpill .. | .aclr .. | .xdep .. | .done | .addt .. | .cmpt ..
  | .mile .. | .pairLock .. | .pairRelease .. | .blockReadAdmit .. | .wsBankRefresh ..
  | .wsBankService .. | .wsEnterLoad .. | .wsSealComplete .. | .treeBindExecute .. | .descent ..
  | .expansionEntry .. | .backupRecord .. | .treeRerootExecute .. | .treeSweepExecute ..
  | .treePathExecute .. | .treeReadExecute .. | .treeFlushExecute .. | .ticketGapTimeout ..
  | .nodeCacheEviction .. | .takeRecord .. | .placement .. | .restore .. | .swap ..
  | .preemption .. | .spill .. | .agingMove .. | .reserving .. | .taskRetirement ..
  | .waymarkArrival .. | .semWaiterServed .. | .kick .. | .partCreate .. | .partDestroy ..
  | .amapWrite .. | .pasidSet .. | .saveSet .. | .queuePriv .. | .taskEnd .. | .fringSet ..
  | .migrateExecute .. | .migrateClose .. | .scrubLine .. | .patrol .. | .patrolPeriodEnd ..
  | .debugToken .. | .returnRecord .. | .attest .. | .configurationRecord .. | .boot ..
  | .powerOff | .pStateChange .. | .retrain .. | .c1Entry .. | .c1Exit .. | .c3Entry ..
  | .c3Exit .. | .priEnable | .debugRequest .. | .retrainEnd .. | .queueDestroyed ..
    => 0

/-- The extension byte that an instruction's immediate carries (R76). -/
def Instr.ext : Instr → Option Byte
  | .addi _ _ i => i.ext
  | .andi _ _ i => i.ext
  | .ori _ _ i => i.ext
  | .xori _ _ i => i.ext
  | .cmpi _ _ _ i => i.ext
  | .ld _ _ _ i => i.ext
  | .st _ _ _ i => i.ext
  | .ldAcq _ _ _ i => i.ext
  | .stRel _ _ _ i => i.ext
  | .ldl _ _ _ _ o => o.ext
  | .stl _ _ _ _ o => o.ext
  | .br _ _ i => i.ext
  | _ => none

/-- Whether an instruction has an immediate that an extension header widens (R76). -/
def Instr.hasImm : Instr → Bool
  | .addi _ _ _ | .andi _ _ _ | .ori _ _ _ | .xori _ _ _ | .cmpi _ _ _ _ | .ld _ _ _ _
  | .st _ _ _ _ | .ldAcq _ _ _ _ | .stRel _ _ _ _ | .ldl _ _ _ _ _ | .stl _ _ _ _ _ | .br _ _ _
    => true
  | _ => false

/-- The literal of the packet that an operation selects (R85). -/
def Instr.literal : Instr → Option (BitVec 16)
  | .moviLiteral _ _ _ l | .moviShifted _ _ l | .psetImm _ _ l | .psetHi _ _ l | .psetAdd _ _ l =>
    some l
  | _ => none

/-- The same of a decoded operation. -/
def KOp.literal : KOp → Option (BitVec 16)
  | .lane i => i.literal
  | .seq (.psetImm _ _ l) | .seq (.psetHi _ _ l) | .seq (.psetAdd _ _ l) => some l
  | .seq _ => none

/-- The group of a control instruction in a bundle (Table 3.3, R78): 1 ALU, 2 memory, 3 engine and
synchronisation, 4 flow and system, 0 none. -/
def slotGroup (w : Nat) : Nat :=
  if fld w 26 6 = 1 then 0
  else if fld w 26 6 < 0x10 then 1
  else if fld w 26 6 < 0x1B then 2
  else if fld w 26 6 < 0x38 then 3
  else 4

/-- The sequencer operation that an instruction of class C or B is. -/
def Instr.seqOp : Instr → Option SeqOp
  | .pset k a => some (.pset k a)
  | .psetImm k a lit => some (.psetImm k a lit)
  | .psetHi k a lit => some (.psetHi k a lit)
  | .psetAdd k a lit => some (.psetAdd k a lit)
  | .mpost r n d e => some (.mpost r n d e)
  | .loop c n l => some (.loop c n l)
  | .loopP c p l => some (.loopP c p l)
  | .bra y q i => some (.bra y q i)
  | .kJmp i => some (.kJmp i)
  | .kend => some (.kend)
  | .ktrap c => some (.ktrap c)
  | .idle n => some (.idle n)
  | .mwaitk q p => some (.mwaitk q p)
  | _ => none

/-- The instruction that a sequencer operation is. (The instruction type has more constructors than
Lean's code generator can build; this definition and those that use it are for the kernel alone.) -/
noncomputable def SeqOp.instr : SeqOp → Instr
  | .pset k a => .pset k a
  | .psetImm k a lit => .psetImm k a lit
  | .psetHi k a lit => .psetHi k a lit
  | .psetAdd k a lit => .psetAdd k a lit
  | .mpost r n d e => .mpost r n d e
  | .loop c n l => .loop c n l
  | .loopP c p l => .loopP c p l
  | .bra y q i => .bra y q i
  | .kJmp i => .kJmp i
  | .kend => .kend
  | .ktrap c => .ktrap c
  | .idle n => .idle n
  | .mwaitk q p => .mwaitk q p

/-- The instruction that a routine word is. -/
noncomputable def RWord.instr : RWord → Instr
  | .pair m1 m2 => .movePair m1 m2
  | .loopr k port len => .loopr k port len
  | .brg g disp => .brg g disp
  | .jmpr disp => .jmpr disp
  | .setw g port imm => .setw g port imm

/-- The instruction that a packet's operation is. -/
noncomputable def KOp.instr : KOp → Instr
  | .lane i => i
  | .seq o => o.instr

/-- The registers whose double write R78 forbids: n for xn, 32 + n for hn. UIRET's return of x24-x31 from
shadow is not counted among them; it is applied after the other slots (DESIGN CHOICE, log 128). -/
def Instr.writes : Instr → List Nat
  | .call _ | .callx _ => [31]
  | .xlate n _ _ | .hinv n => [32 + n.toNat]
  | .add d _ _ | .sub d _ _ | .and_ d _ _ | .or_ d _ _ | .xor d _ _ | .andn d _ _ | .shl d _ _
  | .shr d _ _ | .sra d _ _ | .rol d _ _ | .minI d _ _ | .minN d _ _ | .maxI d _ _ | .maxN d _ _
  | .clz d _ | .popc d _ | .sel d _ _ _ | .addi d _ _ | .andi d _ _ | .ori d _ _ | .xori d _ _
  | .shli d _ _ | .shri d _ _ | .srai d _ _ | .roli d _ _ | .ldi d _ _ | .ldiKeep d _ _
  | .ldi64 d _ | .cmp d _ _ _ | .cmpi d _ _ _ | .mul d _ _ | .mulhI d _ _ | .mulhN d _ _
  | .divI d _ _ | .divN d _ _ | .remI d _ _ | .remN d _ _ | .bfxI d _ _ | .bfxN d _ _
  | .bfi d _ _ | .fshl d _ _ _ | .fshr d _ _ _ | .bfxIImm d _ _ _ | .bfxNImm d _ _ _
  | .bfiImm d _ _ _ | .ld d _ _ _ | .ldx d _ _ _ _ | .ldAcq d _ _ _ | .amoAdd d _ _ _ _
  | .amoSwap d _ _ _ _ | .amoCas d _ _ _ _ | .amoMinI d _ _ _ _ | .amoMinN d _ _ _ _
  | .amoMaxI d _ _ _ _ | .amoMaxN d _ _ _ _ | .amoAnd d _ _ _ _ | .amoOr d _ _ _ _
  | .amoXor d _ _ _ _ | .ldl d _ _ _ _ | .hinfo d _ | .drainFlag d _ _ _ _ _ | .semAdd d _ _ _ _
  | .semWait d _ _ _ _ | .semAcq d _ _ _ | .semRead d _ _ _ _ | .mbRd d _ | .mbProbe d _ _ _
  | .mileRead d _ | .sload d _ _ | .sgather d _ _ _ | .sstore d _ _ _ _ | .sscatter d _ _ _
  | .sscatterAddI32 d _ _ _ | .sscatterAddN32 d _ _ _ | .sscatterAddI64 d _ _ _
  | .sscatterAddXa256 d _ _ _ | .sscatterAddF32 d _ _ _ | .spair d _ _ _ | .scopy d _ _
  | .krun d _ _ | .kctlPrefetch d _ | .mcall d _ _ _ _ | .mrout d _ _ | .wsctlLoad d
  | .wsctlSeal d | .wsctlQuery d | .treeBind d _ _ _ | .treeDesc d _ _ _ _ | .treeExp d _ _ _ _
  | .treeBack d _ _ _ _ | .treeReroot d _ _ _ | .treeSweep d _ _ | .treePath d _ _ _ _
  | .treeRead d _ _ _ _ | .treeFlush d _ _ | .gatherl d _ _ _ | .launch d _ | .taskSelf d _ _
  | .waymark d _ _ | .csrr d _ | .scrub d _ | .migrate d _ | .xinvMark d _ _ | .xinvConfirm d _
    => if d = 0 then [] else [d.toNat]
  | _ => []

/-- The instruction that stands beside a header or alone in its slot, judged with its extension
byte: an immediate takes the byte, format CI without one raises ILLEGAL-OP for a nonzero byte (R111,
R112, R116, R133, R134), every other format ILLEGAL-BUNDLE (R76). Causes are those of Table 16.3. -/
def slotWithExt (w : Nat) (ek : Option Byte) : Instr ⊕ Nat :=
  match decodeSlot w ek with
  | none => .inr 1
  | some i =>
    if i.hasImm then .inl i
    else match ek with
      | none => .inl i
      | some e =>
        if e = 0 then .inl i
        else if [0x07, 0x08, 0x0D, 0x3C, 0x3D].contains (fld w 26 6) then .inr 1
        else .inr 2

/-- Whether a word is LDI in its 64-bit form, in whole or in a form that R112 rejects. -/
def isLdi64 (w : Nat) : Bool := fld w 26 6 = 8 && fld w 17 1 = 1

/-- The rules of R78 for a slot beside the slots before it (latest first), given as group,
operation. -/
def mixOk (before : List (Nat × Instr)) (g : Nat) (i : Instr) : Bool :=
  if i = .nop then true
  else
    (before.filter (fun p => p.1 = g)).length < (if g = 1 then 2 else 1) &&
    before.all (fun p => p.1 ≠ 4) &&
    before.all (fun p => p.2.writes.all (fun r => !i.writes.contains r)) &&
    before.all (fun p => match p.2 with | .gatherl .. => false | _ => true) &&
    (match i with | .gatherl .. => before.isEmpty | _ => true)

/-- The slots `k` and up of a bundle: (slot, instruction) for each slot that is not a NOP, or the
first fault as (slot, cause) (R79). -/
def decodeSlots (before : List (Nat × Instr)) :
    List (Nat × Nat × Option Byte) → List (Nat × Instr) ⊕ (Nat × Nat)
  | [] => .inl []
  | (k, w, ek) :: rest =>
    if isLdi64 w && fld w 16 1 = 0 && fld w 18 3 = 0 && fld w 0 16 = 0 then .inr (k, 2)
    else if fld w 26 6 = 0x3F then .inr (k, 2)
    else match slotWithExt w ek with
      | .inr c => .inr (k, c)
      | .inl i =>
        if mixOk before (slotGroup w) i then
          match decodeSlots (if i = .nop then before else (slotGroup w, i) :: before) rest with
          | .inl l => .inl (if i = .nop then l else (k, i) :: l)
          | .inr f => .inr f
        else .inr (k, 2)

/-- What stands before the slots of a bundle that an extension header begins: the header, which is no NOP,
so that no GATHERL may follow (R75, R136). -/
def headerBefore : List (Nat × Instr) := [(0x3F, .nop)]

/-- A control bundle of four words (R72 to R79): its slots that are not NOPs, or (slot, cause) of
the fault that it raises. In a literal bundle every word of slot 1 that is no LDI.64, one illegal in itself
among them, is ILLEGAL-BUNDLE (R77), and an LDI.64 with a reserved field set is ILLEGAL-OP (DESIGN CHOICE, log
128: R77 and R79 both apply to such words). -/
def decodeBundle (w0 w1 w2 w3 : Nat) : List (Nat × Instr) ⊕ (Nat × Nat) :=
  if fld w0 26 6 = 0x3F then
    if fld w0 24 2 = 0 then
      decodeSlots headerBefore [(1, w1, some (bv w0 16 8)), (2, w2, some (bv w0 8 8)), (3, w3, some (bv w0 0 8))]
    else if fld w0 24 2 = 1 then
      if fld w0 0 24 ≠ 0 then .inr (0, 2)
      else if isLdi64 w1 then
        if fld w1 16 1 = 0 ∧ fld w1 18 3 = 0 ∧ fld w1 0 16 = 0 then
          .inl [(1, .ldi64 (bv w1 21 5) (BitVec.ofNat 64 (w3 * 2 ^ 32 + w2)))]
        else .inr (1, 1)
      else .inr (1, 2)
    else .inr (0, 2)
  else decodeSlots [] [(0, w0, none), (1, w1, none), (2, w2, none), (3, w3, none)]

/-- The slots that a header's mask names, in packet order: the position of each (0 and 1 for A0 and
A1, then M, F, S, X, C, B) and its class (R81). -/
def packetSlots (h : Nat) : List (Nat × KClass) :=
  ([(0, KClass.a), (1, .a), (2, .m), (3, .f), (4, .s), (5, .x), (6, .c), (7, .b)] : List (Nat × KClass)).filter
    (fun p => fld h (30 - p.1) 1 = 1)

/-- The length in words of the packet that a header begins (R81). -/
def packetLen (h : Nat) : Nat := 1 + (packetSlots h).length

/-- The operations of a packet's slot words, or the sub-cause of the first fault (R87). -/
def decodeKSlots (lit : Nat) :
    List (Nat × KClass) → List Nat → List (Nat × KOp) ⊕ Nat
  | [], _ => .inl []
  | _ :: _, [] => .inr 1
  | (p, k) :: ps, w :: ws =>
    match decodeK k w lit with
    | .inr sub => .inr sub
    | .inl i =>
      match decodeKSlots lit ps ws with
      | .inl l => .inl ((p, i) :: l)
      | .inr sub => .inr sub

/-- Whether the stop bits of a packet's words are 0 but on the last (R81). -/
def stopOk : List Nat → Bool
  | [] => false
  | [w] => fld w 31 1 = 1
  | w :: ws => fld w 31 1 = 0 && stopOk ws

/-- A kernel packet from its header and its slot words: the operations with their positions, or the
sub-cause of K-ILLEGAL: 1 decode, 2 literal, 3 opcode, 4 operand (R81 to R87). -/
def decodePacket (h : Nat) (ws : List Nat) : List (Nat × KOp) ⊕ Nat :=
  if stopOk (h :: ws) ∧ fld h 0 3 = 0 ∧ ws.length = (packetSlots h).length then
    match decodeKSlots (fld h 3 16) (packetSlots h) ws with
    | .inr sub => .inr sub
    | .inl l =>
      if fld h 3 16 ≠ 0 ∧ l.all (fun p => p.2.literal.isNone) then .inr 2 else .inl l
  else .inr 1

/-- A move of 31 bits (Table 3.11). -/
def moveOf (w : Nat) : Move :=
  ⟨fld w 30 1 = 1, bv w 27 3, bv w 21 6, bv w 15 6, bv w 0 15⟩

/-- A move's 31 bits. -/
def Move.bits (m : Move) : Nat :=
  (if m.guard then 2 ^ 30 else 0) + m.sel.toNat * 2 ^ 27 + m.src.toNat * 2 ^ 21 + m.dst.toNat * 2 ^ 15 +
    m.imm.toNat

/-- A routine word by its fields (R88 to R91); none for an illegal kind, code or zero field. -/
def shapeRoutine (w : Nat) : Option RWord :=
  match fld w 62 2 with
  | 0 => some (.pair (moveOf (fld w 31 31)) (moveOf (fld w 0 31)))
  | 1 =>
    match fld w 59 3 with
    | 0 => if fld w 12 39 = 0 then some (.loopr (bv w 57 2) (bv w 51 6) (bv w 0 12)) else none
    | 1 =>
      if fld w 58 1 = 1 ∧ fld w 13 42 = 0 then some (.brg (bv w 55 3) (bv w 0 13)) else none
    | 2 => if fld w 13 46 = 0 then some (.jmpr (bv w 0 13)) else none
    | _ => none
  | 2 =>
    if fld w 32 20 = 0 then
      some (.setw (if fld w 61 1 = 1 then some (bv w 58 3) else none) (bv w 52 6) (bv w 0 32))
    else none
  | _ => none

/-- A legal routine word; none where the routine ends as illegal. -/
def decodeRoutine (w : Nat) : Option RWord :=
  match shapeRoutine w with
  | some i => if i.wf then some i else none
  | none => none

/-- The 64 bits of a routine word; 0 for what is none. -/
def encodeRoutine : Instr → Nat
  | .movePair m1 m2 => m1.bits * 2 ^ 31 + m2.bits
  | .loopr k port len => 1 * 2 ^ 62 + k.toNat * 2 ^ 57 + port.toNat * 2 ^ 51 + len.toNat
  | .brg g disp => 1 * 2 ^ 62 + 1 * 2 ^ 59 + 1 * 2 ^ 58 + g.toNat * 2 ^ 55 + disp.toNat
  | .jmpr disp => 1 * 2 ^ 62 + 2 * 2 ^ 59 + disp.toNat
  | .setw none port imm => 2 * 2 ^ 62 + port.toNat * 2 ^ 52 + imm.toNat
  | .setw (some g) port imm =>
    2 * 2 ^ 62 + 1 * 2 ^ 61 + g.toNat * 2 ^ 58 + port.toNat * 2 ^ 52 + imm.toNat
  | _ => 0

/-- The header slot that gives slot 1 an extension byte, or that begins a literal bundle (R75). -/
def headerWord (ek : Byte) : Nat := 0xFC000000 + ek.toNat * 2 ^ 16
def literalHeader : Nat := 0xFD000000

/-- The header of a packet that holds one operation of a class, in its first slot (Table 3.5). -/
def packetHeader (k : KClass) (lit : BitVec 16) : Nat :=
  (match k with
    | .a => 2 ^ 30 | .m => 2 ^ 28 | .f => 2 ^ 27 | .s => 2 ^ 26 | .x => 2 ^ 25 | .c => 2 ^ 24
    | .b => 2 ^ 23) + lit.toNat * 2 ^ 3

/-- The word of a NOP (R72). -/
def nopWord : Nat := 0x04000000

/-- The 32-bit words of an instruction, lowest address first: a control instruction in a bundle of
its own, behind a header where its immediate is widened or a literal follows; a kernel operation in
a packet of its own; a routine word. Events have none. -/
def encode (i : Instr) : List Nat :=
  match i.form with
  | .control =>
    match i with
    | .ldi64 _ lit =>
      [literalHeader, encodeWord i, lit.toNat % 2 ^ 32, lit.toNat / 2 ^ 32]
    | _ =>
      match i.ext with
      | some e => [headerWord e, encodeWord i, nopWord, nopWord]
      | none => [encodeWord i, nopWord, nopWord, nopWord]
  | .kernel k => [packetHeader k (i.literal.getD 0), encodeWord i + 2 ^ 31]
  | .plane => [encodeRoutine i % 2 ^ 32, encodeRoutine i / 2 ^ 32]
  | .event => []

/-- The instruction that words of one form hold alone; none where they hold none or several. -/
noncomputable def decodeAlone (f : Form) (ws : List Nat) : Option Instr :=
  match f, ws with
  | .control, [w0, w1, w2, w3] =>
    match decodeBundle w0 w1 w2 w3 with
    | .inl [] => some .nop
    | .inl [(_, i)] => some i
    | _ => none
  | .kernel _, [h, w] =>
    match decodePacket h [w] with
    | .inl [(_, o)] => some o.instr
    | _ => none
  | .plane, [lo, hi] => (decodeRoutine (hi * 2 ^ 32 + lo)).map RWord.instr
  | _, _ => none

/-- The first class, in packet order, in which a 32-bit word is a legal slot word. -/
def firstClass (w : Nat) : Option (KClass × KOp) :=
  ([KClass.a, .m, .f, .s, .x, .c, .b] : List KClass).findSome? fun k =>
    match decodeK k w 0 with
    | .inl o => some (k, o)
    | .inr _ => none

/-- What the decoder reads from a table row's bits: 128 bits are a bundle; 64 bits a routine word;
32 bits a control slot word, with LDI's literal zero in the words above the row, or failing that a
kernel slot word of the first class that has it. -/
noncomputable def decodeTableWord (nbits w : Nat) : Option Instr :=
  if nbits = 128 then
    decodeAlone .control [fld w 0 32, fld w 32 32, fld w 64 32, fld w 96 32]
  else if nbits = 64 then (decodeRoutine (w % 2 ^ 64)).map RWord.instr
  else if isLdi64 (w % 2 ^ 32) then decodeAlone .control [literalHeader, w % 2 ^ 32, 0, 0]
  else match decodeSlot (w % 2 ^ 32) none with
    | some i => some i
    | none =>
      match firstClass (w % 2 ^ 31) with
      | some (_, o) => some o.instr
      | none => none

end Sys2Proof
end

