-- ==== Sys2Proof/Machine/Places.lean ====
section
/-!
DEFINITION. The places of physical addresses (R37, R300, R375), channels and clocks (R7, R262), what an ECC check finds
(R393), and the reads and writes of the package's own units at a place.
-/

namespace Sys2Proof.Machine

open Sys2Proof

/-- The bytes of one die's memory that are backed (R37, R375). -/
def dieBytes : Nat := 144 * 10 ^ 9

/-- The fields of a device physical address (Table 1.7). -/
def physPkg (a : Nat) : Nat := a / 2 ^ 48 % 8
def physOff (a : Nat) : Nat := a % 2 ^ 46

/-- The attribute-map entry of a device address (R300). -/
def State.amapEntry (s : State) (a : Nat) : Nat :=
  (smGet 0 s.hub.amap (a % 2 ^ 48 / 2 ^ 21)).toNat

/-- The fields of an attribute-map entry (Table 14.3). -/
def amValid (e : Nat) : Bool := e / 2 ^ 34 % 2 = 1
def amInter (e : Nat) : Bool := e / 2 ^ 35 % 2 = 1
def amSystem (e : Nat) : Bool := e / 2 ^ 36 % 2 = 1
def amMigr (e : Nat) : Nat := e / 2 ^ 38 % 4
def amGroup (e : Nat) : Nat := e / 2 ^ 40 % 256
def amKey (e : Nat) : Nat := e / 2 ^ 48 % 16

/-- The host entry of a host address. -/
def State.hmapEntry (s : State) (a : Nat) : Nat := (smGet 0 s.hub.hmap (a / 2 ^ 21)).toNat

/-- Whether a device address lies in this package. -/
def State.own (s : State) (a : Nat) : Bool := physPkg a = s.hub.pkg

/-- The die that serves a device address: its die field, or 4 KiB interleaving (R37, R300; the dies
are taken from bits [13:12], PRESUMED, log 7). -/
def State.dieAt (s : State) (a : Nat) : Nat :=
  if amInter (s.amapEntry a) then a / 2 ^ 12 % 4 else a / 2 ^ 46 % 4

/-- A host physical address in the window of device memory stands for device memory (R375, R376). -/
def State.resolve (s : State) (host : Bool) (a : Nat) : Bool × Nat :=
  if host && decide (s.hub.hdm ≤ a) && decide (a < s.hub.hdm + 4 * dieBytes) then
    let o := a - s.hub.hdm
    (false, s.hub.pkg * 2 ^ 48 + o / dieBytes * 2 ^ 46 + o % dieBytes)
  else (host, a)

/-! ### Channels and clocks (R7, R37, R262, R348, R396) -/

/-- The channel of a device address of this package; a pairing group spreads each block over the 32
channels of one stack. -/
def State.channelOf (s : State) (a : Nat) : Nat :=
  let g := amGroup (s.amapEntry a)
  if g ≠ 0 then 32 * (Config.groupStack g % 3) + (Config.channelHash (s.dieAt a) (a / 4096) + a / 128) % 32
  else Config.channelHash (s.dieAt a) (a / 128) % 96

/-- The stack of a channel of a die. -/
def stackOf (ch : Nat) : Nat := ch / 32

/-- The clock of a die in ac per microsecond (R396), and the time that an ac takes (R7). -/
def acPerUs (p : BitVec 2) : Nat := if p = 0 then 700 else if p = 1 then 525 else 350
def acTime (p : BitVec 2) : Nat := 2100 / acPerUs p

/-- A number of microseconds in the units of a die's time. -/
def usTime (us : Nat) : Nat := 2100 * us

/-- A request for the memory of a die in C3 starts its exit, which takes 60 µs (R396). -/
def State.wake (s : State) (die : Nat) : State :=
  let d := s.die die
  if d.c3 && d.c3Exit.isNone then s.modDie die fun d => { d with c3Exit := some (d.time + usTime 60) } else s

/-! ### What an ECC check finds (R393) -/

/-- cr.RETREQ filled with a request: stack, row and score (Table 25.3). -/
def retreqOf (r : Nat × Nat × Nat) : Word :=
  BitVec.ofNat 64 (2 ^ 63 + r.1 % 4 * 2 ^ 40 + r.2.2 % 256 * 2 ^ 32 + r.2.1 % 2 ^ 32)

/-- A retirement request delivered with MSI-X vector 1, or held while V is set (R393). -/
def State.retire (s : State) (die : Nat) (r : Nat × Nat × Nat) : State :=
  if (s.die die).retreq.msb then s.modDie die fun d => { d with pendRet := d.pendRet ++ [r] }
  else (s.modDie die fun d => { d with retreq := retreqOf r, retSet := true }).modHub fun h => { h with msix := h.msix ++ [1] }

/-- A corrected error found in a line of a stack: its row enters the hot list, or its score grows; one that reaches the
threshold raises a retirement request. A full list drops its entry of lowest score that is under no request. -/
def State.corrected (s : State) (die a : Nat) : State :=
  let d := s.die die
  let stack := stackOf (s.channelOf a)
  let row := Config.rowOf (a / 128)
  let mine := d.hot.filter fun h => h.1 = stack
  match mine.find? fun h => h.2.row = row with
  | some h =>
    let n := Nat.min 255 (h.2.score + 1)
    let lim := d.scrubctl.toNat / 2 ^ 48 % 256
    let ask := lim ≠ 0 && decide (h.2.score < lim) && decide (lim ≤ n)
    let t := s.modDie die fun d => { d with
      hot := d.hot.map fun (x : Nat × HotRow) =>
        if x.1 = stack && x.2.row = row then
          (x.1, { x.2 with score := n, req := x.2.req || ask })
        else x }
    if ask then t.retire die (stack, row, n) else t
  | none =>
    let free := mine.filter fun h => !h.2.req
    let out := if mine.length < 1024 then none else best (fun h => h.2.score * 2 ^ 64 + h.2.entry) free
    if 1024 ≤ mine.length && free.isEmpty then s
    else
      let e := (d.hot.map fun h => h.2.entry + 1).foldl max 0
      s.modDie die fun d => { d with
        hot := (d.hot.filter fun h => some h ≠ out) ++ [(stack, { row := row, score := 0, entry := e })] }

/-- A line as its ECC check leaves it: an uncorrectable one is poisoned (R393, R394). -/
def State.checked (s : State) (die a : Nat) (ecc : Ecc) : State :=
  match ecc with
  | .clean => s
  | .corrected => s.corrected die a
  | .uncorrectable => s.mark false a true

/-- What a check finds that no event names: the manual leaves it open (log 141). -/
def eccOf (w : Word) : Ecc := if w.toNat % 3 = 0 then .clean else if w.toNat % 3 = 1 then .corrected else .uncorrectable

/-- The ECC check of a line of this package that a unit reads at a place (R393). -/
def State.eccLine (s : State) (a : Nat) : State :=
  if !s.own a then s
  else
    let (w, t) := s.takeFree
    let u := t.checked (t.dieAt a) a (eccOf w)
    { t with dies := u.dies, pois := u.pois, hub := { t.hub with msix := u.hub.msix } }

/-- What an attempt that has to wait, or fails, leaves of the state that it reached: the exits from C3 that it began, and
what the checks of the lines that it read have found. -/
def State.heard (s t : State) : State :=
  { s with dies := t.dies, pois := t.pois, hub := { s.hub with msix := t.hub.msix }, free := t.free }

/-! ### Accesses at a place -/

/-- The lines that n bytes from an address on reach. -/
def placeLines (a n : Nat) : List Nat :=
  if n = 0 then [] else (List.range ((a + n - 1) / 128 - a / 128 + 1)).map (· + a / 128)

/-- Whether bytes at a place cannot be accessed now: their die is in C3, or a pair's lock stands on one of their lines
(R350, R396). -/
def State.shut (s : State) (host : Bool) (a n : Nat) : Bool :=
  !host && s.own a && ((s.die (s.dieAt a)).c3 || (placeLines a n).any s.locks.contains)

/-- An access that has to wait: a die in C3 begins its exit (R396). -/
def State.rouse (s : State) (host : Bool) (a : Nat) : State := if !host && s.own a then s.wake (s.dieAt a) else s

/-- Bytes stored at a translated place. -/
def State.wrPlace (s : State) (host : Bool) (a : Nat) (bs : List Byte) : State := s.wrMem host a bs

/-- n bytes read at a translated place, their lines' ECC checked. -/
def State.rdPlace (s : State) (host : Bool) (a n : Nat) : List Byte × State :=
  (s.rdMem host a n, if host then s else (placeLines a n).foldl (fun s l => s.eccLine (128 * l)) s)

end Sys2Proof.Machine
end

