-- ==== Sys2Proof/Machine/Xlate.lean ====
section
/-!
DEFINITION. Translation (chapters 16 and 24): page tables, the attribute map and the translation cache.
-/

namespace Sys2Proof.Machine

open Sys2Proof

/-- A partition, and the key slot of one. -/
def State.part (s : State) (p : Nat) : Option Part := smGet none s.hub.parts p
def State.partKey (s : State) (p : Nat) : Nat := ((s.part p).map (fun q => q.key.toNat)).getD 0

/-- Why a page may not be used: its offset is not backed (7), or the attribute map refuses it (8)
(R37, R300). -/
def State.refusal (s : State) (part : Nat) (host : Bool) (a : Nat) : Option Nat :=
  let (h, a) := s.resolve host a
  if h then
    let e := s.hmapEntry a
    if amValid e && amKey e ≠ s.partKey part then some 8 else none
  else if dieBytes ≤ physOff a then some 7
  else if s.own a then
    let e := s.amapEntry a
    if amValid e && amKey e = s.partKey part then none else some 8
  else none

/-- A page-table entry that a walk may use: valid, its zero fields zero (Table 24.1). -/
def pteOk (e : Nat) : Bool := e % 2 = 1 && e / 2 ^ 52 = 0 && e / 2 ^ 6 % 2 ^ 6 = 0

/-- The address field of an entry. It may name an address with bit 51 set, which lies outside the 51-bit
layout of Table 1.7: such an address has the package, die, offset and attribute entry of its low 51 bits,
and is a location of its own (DESIGN CHOICE, log 130). -/
def pteAddr (e : Nat) : Nat := e / 2 ^ 12 % 2 ^ 40 * 2 ^ 12

/-- An entry without its address field. -/
def pteRest (e : Nat) : Nat := e % 2 ^ 12 + e / 2 ^ 52 * 2 ^ 52

/-- Whether the 16 aligned entries around index i are alike (Table 24.1, C). -/
def State.alike (s : State) (tbl i : Nat) : Bool :=
  let e := pteRest (s.rdNum false (tbl + 8 * i) 8)
  (List.range 16).all fun j => pteRest (s.rdNum false (tbl + 8 * (i / 16 * 16 + j)) 8) = e

/-- A page found by a leaf entry: its size code and its physical address, if aligned to its size. -/
def leafPage (pasid : BitVec 20) (va : Word) (z : BitVec 2) (e a : Nat) : Option Tlb :=
  if a % pageBytes z ≠ 0 then none
  else some ⟨pasid, BitVec.ofNat 64 (alignDown va.toNat (pageBytes z)), z, a, e / 32 % 2 = 1,
    e / 2 % 2 = 1, e / 4 % 2 = 1⟩

/-- A walk from a table on: the level and the shift of its index (R378). H in an entry that names a table, and C in a
leaf of 2 MiB or 1 GiB, have no stated effect and are ignored (DESIGN CHOICE, log 158). -/
def State.walkFrom (s : State) (pasid : BitVec 20) (va : Word) : Nat → List (Nat × Nat) → Option Tlb
  | _, [] => none
  | tbl, (lvl, sh) :: rest =>
    let i := va.toNat / 2 ^ sh % 512
    let e := s.rdNum false (tbl + 8 * i) 8
    if !pteOk e then none
    else if e / 8 % 2 = 1 then
      if lvl = 3 then leafPage pasid va 3 e (pteAddr e)
      else if lvl = 4 then leafPage pasid va 2 e (pteAddr e)
      else if lvl = 5 then
        if e / 16 % 2 = 1 && s.alike tbl i then
          leafPage pasid va 1 e (pteAddr (s.rdNum false (tbl + 8 * (i / 16 * 16)) 8))
        else leafPage pasid va 0 e (pteAddr e)
      else none
    else if lvl = 5 then none
    else s.walkFrom pasid va (pteAddr e) rest

/-- The places of the entries that a walk reads. -/
def State.walkReads (s : State) (va : Word) : Nat → List (Nat × Nat) → List Nat
  | _, [] => []
  | tbl, (lvl, sh) :: rest =>
    let a := tbl + 8 * (va.toNat / 2 ^ sh % 512)
    let e := s.rdNum false a 8
    a :: if pteOk e && e / 8 % 2 = 0 && lvl ≠ 5 then s.walkReads va (pteAddr e) rest else []

/-- The five levels (R378). -/
def walkLevels : List (Nat × Nat) := [(1, 48), (2, 39), (3, 30), (4, 21), (5, 12)]

/-- The set-up of a PASID (R377). -/
def State.pasid (s : State) (p : BitVec 20) : Pasid := smGet {} s.hub.pasids p.toNat

/-- Whether an outstanding shootdown covers a page of a PASID (R318, R320). -/
def State.draining (s : State) (p : BitVec 20) (base bytes : Nat) : Bool :=
  s.hub.tokens.any fun t => match t.2 with
    | some k => k.pasid = p && decide (k.va < base + bytes) && decide (base < k.va + k.pages * 4096)
    | none => false

/-- What a translation gives: a page, a wait for a shootdown, or the sub-cause of a PAGE-FAULT. -/
inductive Tr where
  | hit (p : Tlb)
  | held
  | fault (sub : Nat)
  deriving DecidableEq, Repr

/-- Whether a page holds an address of a PASID and grants the permissions asked for. -/
def Tlb.holds (p : Tlb) (pasid : BitVec 20) (va : Word) : Bool :=
  p.pasid = pasid && decide (p.base.toNat ≤ va.toNat) && decide (va.toNat < p.base.toNat + pageBytes p.size)
def Tlb.grants (p : Tlb) (r w : Bool) : Bool := (p.read || !r) && (p.write || !w)

/-- The physical address of an address in a page. -/
def Tlb.at_ (p : Tlb) (va : Word) : Nat := p.phys + (va.toNat - p.base.toNat)

/-- A page judged for an access: its permissions (5), its memory and the attribute map. -/
def State.judge (s : State) (part : Nat) (va : Word) (r w : Bool) (p : Tlb) : Tr :=
  if !p.grants r w then .fault 5
  else match s.refusal part p.host (p.at_ va) with
    | some c => .fault c
    | none => .hit p

/-- The page found by a table walk or by the host's answer, as the PASID is set up (R377). -/
def State.findPage (s : State) (pasid : BitVec 20) (va : Word)
    (ats : Option (Nat × BitVec 2 × Bool × Bool)) : Option Tlb :=
  match (s.pasid pasid).mode with
  | .none => none
  | .walk => s.walkFrom pasid va (s.pasid pasid).root.toNat walkLevels
  | .ats => ats.map fun (b, z, r, w) =>
      ⟨pasid, BitVec.ofNat 64 (alignDown va.toNat (pageBytes z)), z, alignDown b (pageBytes z), true, r, w⟩

/-- A page entered in a core's translation cache (R313). -/
def State.cachePage (s : State) (g : Nat) (p : Tlb) : State :=
  s.modCore g fun c =>
    { c with tlb := (p :: c.tlb.filter (fun q => q.pasid ≠ p.pasid || q.base ≠ p.base)).take 4096 }

/-- What a resolved walk gives, with the page cached when it is present; a page that an outstanding shootdown
touches is not used (R318). A table that cannot be read yet holds the walk (R350, R396). -/
def State.settle (s : State) (g part : Nat) (pasid : BitVec 20) (va : Word) (r w : Bool)
    (ats : Option (Nat × BitVec 2 × Bool × Bool)) : Tr × State :=
  let as := if (s.pasid pasid).mode = .walk then s.walkReads va (s.pasid pasid).root.toNat walkLevels else []
  if (s.pasid pasid).mode = .none then (.fault 8, s)
  else match as.find? fun a => s.shut false a 8 with
  | some a => (.held, s.rouse false a)
  | none =>
    let t := as.foldl State.eccLine s
    match s.findPage pasid va ats with
    | none => (.fault 0, t)
    | some p =>
      if s.draining pasid p.base.toNat (pageBytes p.size) then (.held, t)
      else (s.judge part va r w p, t.cachePage g p)

/-- A translation by an agent of a core: through the cache, or by a walk or ATS request; an entry
that lacks a permission is walked once more (R312, R313). A PASID without a mode faults (R377). -/
def State.translate (s : State) (g part : Nat) (pasid : BitVec 20) (va : Word) (r w : Bool) :
    Tr × State :=
  if !canonical va then (.fault 6, s)
  else if s.draining pasid (alignDown va.toNat 4096) 4096 then (.held, s)
  else if (s.pasid pasid).mode = .none then (.fault 8, s)
  else match (s.core g).tlb.find? (fun p => p.holds pasid va && p.grants r w) with
    | some p =>
      if s.draining pasid p.base.toNat (pageBytes p.size) then (.held, s)
      else (s.judge part va r w p, s)
    | none =>
      if (s.pasid pasid).mode = .ats then
        { s with free := s.free + 1 }.settle g part pasid va r w (Config.atsReply s.free pasid va)
      else s.settle g part pasid va r w none

/-- The same for a context: its core, partition and PASID. -/
def State.xlateFor (s : State) (cx : Nat) (va : Word) (r w : Bool) : Tr × State :=
  s.translate (s.home cx) (s.ctx cx).part (s.ctx cx).pasid va r w

/-- The final place of an address in a page: host or device, and the physical address. -/
def State.placeOf (s : State) (p : Tlb) (va : Word) : Bool × Nat := s.resolve p.host (p.at_ va)

/-- The scopes in order (R290). -/
def scopeRank : Scope → Nat
  | .core => 0 | .die => 1 | .pkg => 2 | .domain => 3 | .sys => 4

/-- The smallest scope that holds a location, seen from a die (Table 14.1). -/
def State.placeRank (s : State) (die : Nat) (host : Bool) (a : Nat) : Nat :=
  if host then 4 else if !s.own a then 3 else if s.dieAt a = die then 1 else 2

/-- The CP accesses in flight of a context whose places lie within a scope (R128, R297). -/
def State.covered (s : State) (cx : Nat) (sc : Scope) : List Nat :=
  (s.reqs.filter fun r => r.cx = cx && r.op.isCp &&
    decide (s.placeRank (dieOf (s.home cx)) r.host r.phys ≤ scopeRank sc)).map Req.id

end Sys2Proof.Machine
end

