-- ==== Sys2Proof/Machine/Local.lean ====
section
/-!
DEFINITION. The memories of a core: the SRF window and its line states, the CP local memory (R25,
R36, R126, R244, R250), and the milestones and engine queues of a context (R20, R22, R23).
-/

namespace Sys2Proof.Machine

open Sys2Proof

/-! ### SRF words and bytes -/

/-- A physical SRF word. -/
def CoreSt.word (c : CoreSt) (w : Nat) : SrfWord := smGet ⟨0, false⟩ c.srf w
def CoreSt.setWord (c : CoreSt) (w : Nat) (v : SrfWord) : CoreSt :=
  { c with srf := smPut ⟨0, false⟩ c.srf w v }

/-- A physical SRF byte. -/
def CoreSt.srfByte (c : CoreSt) (a : Nat) : Byte := (c.word (a / 4)).val.extractLsb' (8 * (a % 4)) 8

/-- n bytes from a physical SRF address on. -/
def CoreSt.srfBytes (c : CoreSt) (a : Nat) : Nat → List Byte
  | 0 => []
  | n + 1 => c.srfByte a :: c.srfBytes (a + 1) n

/-- Whether a word under the n bytes from a on is marked poisoned (R199). -/
def CoreSt.srfBad (c : CoreSt) (a n : Nat) : Bool :=
  (List.range (n / 4 + 2)).any fun i => decide (a / 4 + i ≤ (a + n - 1) / 4) && (c.word (a / 4 + i)).poison

/-- A word with one byte replaced. -/
def putByte (w : Word32) (i : Nat) (b : Byte) : Word32 :=
  (w &&& ~~~((0xFF#32) <<< (8 * i))) ||| (b.zeroExtend 32 <<< (8 * i))

/-- A byte stored in the SRF; the word's mark is left to the caller. -/
def CoreSt.putSrfByte (c : CoreSt) (a : Nat) (b : Byte) : CoreSt :=
  let w := c.word (a / 4)
  c.setWord (a / 4) ⟨putByte w.val (a % 4) b, w.poison⟩

/-- Bytes stored from a physical SRF address on. -/
def CoreSt.putSrf (c : CoreSt) (a : Nat) : List Byte → CoreSt
  | [] => c
  | b :: bs => (c.putSrfByte a b).putSrf (a + 1) bs

/-- The mark of every word under the n bytes from a on, set; or cleared on the words covered
whole (R126). -/
def CoreSt.markSrf (c : CoreSt) (a n : Nat) (bad : Bool) : CoreSt :=
  (List.range (n / 4 + 2)).foldl (fun c i =>
    let k := a / 4 + i
    let w := c.word k
    if bad then (if k ≤ (a + n - 1) / 4 then c.setWord k ⟨w.val, true⟩ else c)
    else if a ≤ 4 * k ∧ 4 * k + 4 ≤ a + n then c.setWord k ⟨w.val, false⟩ else c) c

/-! ### Lines -/

def CoreSt.line (c : CoreSt) (p : Nat) : LineSt := smGet {} c.lines p
def CoreSt.setLine (c : CoreSt) (p : Nat) (l : LineSt) : CoreSt := { c with lines := smPut {} c.lines p l }

/-- A line filled (R250, rule 3). -/
def CoreSt.fillLine (c : CoreSt) (p : Nat) : CoreSt := c.setLine p { c.line p with full := true }

/-- The physical lines of a window range. -/
def linesOf (base lo len : Nat) : List Nat :=
  if len = 0 then [] else
    (List.range ((base + lo + len - 1) / 128 - (base + lo) / 128 + 1)).map (· + (base + lo) / 128)

/-- A holder lets a line go: the readers counted before a chained writer lose it, and the last of them
empties the line (R251, R252). -/
def CoreSt.release (c : CoreSt) (p : Nat) (h : Nat × Nat) : CoreSt :=
  let l := c.line p
  let before := l.before.filter (· ≠ h)
  c.setLine p { full := l.full && !(l.before ≠ [] && before = []), holders := l.holders.filter (· ≠ h),
                before := before }

/-! ### CP local memory -/

def CoreSt.locByte (c : CoreSt) (a : Nat) : Byte := smGet 0 c.loc a
def CoreSt.locBytes (c : CoreSt) (a : Nat) : Nat → List Byte
  | 0 => []
  | n + 1 => c.locByte a :: c.locBytes (a + 1) n
def CoreSt.putLoc (c : CoreSt) (a : Nat) (bs : List Byte) : CoreSt := { c with loc := smPutAll 0 c.loc a bs }

/-- Whether the line of the CP local memory that holds an address is marked poisoned (R18). -/
def CoreSt.locMark (c : CoreSt) (a : Nat) : Bool := smGet false c.locBad (a / 128)

/-- A line of the CP local memory marked by a store of a poisoned register (R18). -/
def CoreSt.markLoc (c : CoreSt) (a : Nat) (bad : Bool) : CoreSt :=
  if bad then { c with locBad := smPut false c.locBad (a / 128) true } else c

/-! ### Milestones (R22, R23) -/

/-- The queue codes: the order of the six queues, as in Table 1.2 and R166. -/
def qcode : Queue → Nat
  | .sld => 0 | .sst => 1 | .krn => 2 | .mat => 3 | .tre => 4 | .rem => 5

def queueOf (n : Nat) : Queue :=
  match n with
  | 0 => .sld | 1 => .sst | 2 => .krn | 3 => .mat | 4 => .tre | _ => .rem

def Ctx.mile (c : Ctx) (q : Queue) : Mile := smGet {} c.miles (qcode q)
def Ctx.setMile (c : Ctx) (q : Queue) (m : Mile) : Ctx := { c with miles := smPut {} c.miles (qcode q) m }

/-- A number that the MAT queue skips (R23). -/
def skipped (q : Queue) (n : Nat) : Bool := q = .mat && n % 4096 = 0xFFF

/-- The number of the next command of a queue. -/
def nextNum (q : Queue) (posted : Nat) : Nat := if skipped q (posted + 1) then posted + 2 else posted + 1

/-- The counter moved over completed and skipped numbers. -/
def advance (q : Queue) (ahead : List Nat) : Nat → Nat → Nat
  | 0, n => n
  | f + 1, n => if skipped q (n + 1) || ahead.contains (n + 1) then advance q ahead f (n + 1) else n

/-- A command of a queue completes (R22). -/
def Ctx.complete (c : Ctx) (q : Queue) (n : Nat) : Ctx :=
  let m := c.mile q
  let ahead := n :: m.ahead
  let k := advance q ahead (2 * ahead.length + 2) m.counter
  c.setMile q { m with counter := k, ahead := ahead.filter (fun j => decide (k < j)) }

/-- The commands of a queue that have been posted and not accepted (R20). -/
def Ctx.waiting (c : Ctx) (q : Queue) : List Cmd := c.posted.filter (fun k => k.queue = q)

/-- The scoreboard entries of a core in use (R24). -/
def State.boardUsed (s : State) (g : Nat) : Nat :=
  ((s.ctxsAt g).map fun cx =>
    let c := s.ctx cx
    (c.posted.filter Cmd.board).length + (c.active.filter (fun a => a.cmd.board)).length).sum

/-- Whether a command can be posted now: a full queue or scoreboard blocks (R19). -/
def State.postBlock (s : State) (cx : Nat) (q : Queue) (board : Bool) : Option Block :=
  if 16 ≤ ((s.ctx cx).waiting q).length then some (.queueFull q)
  else if board && decide (32 ≤ s.boardUsed (s.home cx)) then some .scoreboard
  else none

/-- A command posted with the next number of its queue; the number is written to xd (R22). -/
def State.post (s : State) (cx : Nat) (q : Queue) (d : BitVec 5) (k : CmdKind) (recOff : Option Nat)
    (reads writes : List Range) (board : Bool) : State :=
  s.modCtx cx fun c =>
    let m := c.mile q
    let n := nextNum q m.posted
    let cmd : Cmd := { queue := q, num := n, kind := k, recOff := recOff, reads := reads,
                       writes := writes, board := board, ord := c.cmdOrd }
    { (c.setMile q { m with posted := n }).wr d.toNat (BitVec.ofNat 64 n) false with
      posted := c.posted ++ [cmd], cmdOrd := c.cmdOrd + 1 }

end Sys2Proof.Machine
end

