-- ==== Sys2Proof/Machine/Access.lean ====
section
/-!
DEFINITION. Handles, loads and stores, atomics, local accesses and drains of the control set (R117
to R129), and the steps in which their requests perform and complete (R263, R291, R295).
-/

namespace Sys2Proof.Machine

open Sys2Proof

/-! ### Handles -/

def Ctx.handle (c : Ctx) (n : Nat) : Handle := smGet {} c.h n
def Ctx.setHandle (c : Ctx) (n : Nat) (h : Handle) : Ctx := { c with h := smPut {} c.h n h }

/-- The address of an access through a handle (R118). -/
def Ctx.ea (c : Ctx) (h : BitVec 4) (off : Word) : Word := (c.handle h.toNat).va + off

/-- The checks of an access of n bytes at an offset through a handle, in the order of R107: handle
state, alignment, extent, permission; and last the attribute map, whose entry may have changed since the
translation (R300, R301; its place in the order: DEDUCED, log 131). They give the place or what
becomes of the bundle. -/
def handleCheck (s : State) (cx : Nat) (h : BitVec 4) (off : Word) (n : Nat) (r w : Bool) :
    SlotOut ⊕ (Bool × Nat) :=
  let k := (s.ctx cx).handle h.toNat
  let ea := (s.ctx cx).ea h off
  match k.state with
  | .invalid => .inl (.trap 3 0 0 0)
  | .pending => .inl (.block (.handle h.toNat))
  | .faulted => .inl (.block (.handle h.toNat))
  | .refused => .inl (.trap 5 3 0 ea)
  | .valid =>
    if ea.toNat % n ≠ 0 then .inl (.trap 8 0 0 ea)
    else if ea.toNat < k.base.toNat ∨ k.base.toNat + pageBytes k.size < ea.toNat + n then
      .inl (.trap 4 1 0 ea)
    else if (r && !k.read) || (w && !k.write) then .inl (.trap 4 0 0 ea)
    else
      let a := k.phys + (ea.toNat - k.base.toNat)
      match s.refusal (s.ctx cx).part k.host a with
      | some b => .inl (.trap 5 b 0 ea)
      | none => .inr (s.resolve k.host a)

/-- Whether an access acquires (Table 14.2). -/
def ReqOp.acquires : ReqOp → Bool
  | .load _ _ _ acq => acq
  | .sem op _ _ _ => op = .wait || op = .acq
  | _ => false

/-- The acquiring accesses of a context that have not performed: every later access follows them (R122,
R296). -/
def State.acquiring (s : State) (cx : Nat) : List Nat :=
  (s.reqs.filter fun r => r.cx = cx && r.served.isNone && r.op.acquires).map Req.id

/-- The requests of a context that a new access must follow (R295, R296): those that touch the same
location, and acquiring accesses. -/
def orderedAfter (s : State) (cx : Nat) (host : Bool) (a n : Nat) : List Nat :=
  (s.reqs.filter fun r => r.cx = cx && r.served.isNone &&
    ((r.op.isCp && r.host = host && decide (r.phys < a + n) && decide (a < r.phys + r.op.size)) ||
      r.op.acquires)).map Req.id

/-- Whether a flag store of the context to these bytes has not performed yet: a later access to them waits
for it, as an interlock does (R295). -/
def State.flagPending (s : State) (cx : Nat) (host : Bool) (a n : Nat) : Bool :=
  (((s.ctx cx).posted ++ ((s.ctx cx).active.filter fun x => !x.ended).map Active.cmd).any fun k => match k.kind with
    | .flag _ p h z _ _ _ _ _ => h = host && decide (p < a + n) && decide (a < p + z)
    | _ => false)

/-- Whether an access made at once to n bytes at a place must wait: an earlier access to them, or an acquire, has not
performed (R122, R295, R296). -/
def State.mustFollow (s : State) (cx : Nat) (host : Bool) (a n : Nat) : Bool :=
  orderedAfter s cx host a n ≠ [] || s.flagPending cx host a n

/-- A new request of a context. -/
def newReq (s : State) (cx : Nat) (op : ReqOp) (va : Word) (host : Bool) (a : Nat) (after : List Nat)
    (page : BitVec 2) : Req :=
  { id := 0, cx := cx, op := op, va := va, pasid := (s.ctx cx).pasid, phys := a, host := host, gen := s.now, after := after,
    served := none, due := none, data := [], dpois := false, group := none, admitted := false, page := page }

/-- A load through a handle (R121, R122). -/
def loadSlot (regs : List (BitVec 5)) (d : BitVec 5) (h : BitVec 4) (sz : BitVec 3) (acq : Bool)
    (bad : Nat → State → Bool) (off : Nat → State → Word) : Slot :=
  ⟨d :: regs, fun cx s =>
    if bad cx s then .trap 7 0 0 0
    else
      let n := sizeBytes sz
      match handleCheck s cx h (off cx s) n true false with
      | .inl o => o
      | .inr (host, a) =>
        if s.flagPending cx host a n then .wait
        else .go fun t => t.addReq (newReq t cx (.load d.toNat n (4 ≤ sz.toNat) acq) ((s.ctx cx).ea h (off cx s))
          host a (orderedAfter t cx host a n) ((s.ctx cx).handle h.toNat).size)⟩

/-- A store through a handle (R121, R122). A release follows every access in flight (R296). -/
def storeSlot (regs : List (BitVec 5)) (d : BitVec 5) (h : BitVec 4) (sz : BitVec 3) (rel : Bool)
    (bad : Nat → State → Bool) (off : Nat → State → Word) : Slot :=
  ⟨d :: regs, fun cx s =>
    if bad cx s then .trap 7 0 0 0
    else
      let n := sizeBytes sz
      match handleCheck s cx h (off cx s) n false true with
      | .inl o => o
      | .inr (host, a) =>
        if s.flagPending cx host a n then .wait
        else .go fun t => t.addReq (newReq t cx (.store (leBytes n (s.rdX cx d).toNat) (s.tagX cx d) rel)
          ((s.ctx cx).ea h (off cx s)) host a
          (if rel then t.covered cx .sys ++ t.acquiring cx else orderedAfter t cx host a n)
          ((s.ctx cx).handle h.toNat).size)⟩

/-- LD (R121). -/
def slotLd (d : BitVec 5) (h : BitVec 4) (s : BitVec 3) (i : Imm 14) : Slot := loadSlot [] d h s false (fun _ _ => false) (fun _ _ => scaled i s)

/-- LD in a bundle of its own. -/
def execLd (d : BitVec 5) (h : BitVec 4) (s : BitVec 3) (i : Imm 14) (σ : State) : Res := .next (runSlot 0 (slotLd d h s i) σ)

/-- LDX (R121). -/
def slotLdx (d : BitVec 5) (h : BitVec 4) (s : BitVec 3) (b : BitVec 5) (c : BitVec 2) : Slot := loadSlot [b] d h s false (fun cx t => t.tagX cx b) (fun cx t => t.rdX cx b <<< c.toNat)

/-- LDX in a bundle of its own. -/
def execLdx (d : BitVec 5) (h : BitVec 4) (s : BitVec 3) (b : BitVec 5) (c : BitVec 2) (σ : State) : Res := .next (runSlot 0 (slotLdx d h s b c) σ)

/-- ST (R121). -/
def slotSt (d : BitVec 5) (h : BitVec 4) (s : BitVec 3) (i : Imm 14) : Slot := storeSlot [] d h s false (fun _ _ => false) (fun _ _ => scaled i s)

/-- ST in a bundle of its own. -/
def execSt (d : BitVec 5) (h : BitVec 4) (s : BitVec 3) (i : Imm 14) (σ : State) : Res := .next (runSlot 0 (slotSt d h s i) σ)

/-- STX (R121). -/
def slotStx (d : BitVec 5) (h : BitVec 4) (s : BitVec 3) (b : BitVec 5) (c : BitVec 2) : Slot := storeSlot [b] d h s false (fun cx t => t.tagX cx b) (fun cx t => t.rdX cx b <<< c.toNat)

/-- STX in a bundle of its own. -/
def execStx (d : BitVec 5) (h : BitVec 4) (s : BitVec 3) (b : BitVec 5) (c : BitVec 2) (σ : State) : Res := .next (runSlot 0 (slotStx d h s b c) σ)

/-- LD_ACQ (R122). -/
def slotLdAcq (d : BitVec 5) (h : BitVec 4) (s : BitVec 3) (i : Imm 14) : Slot := loadSlot [] d h s true (fun _ _ => false) (fun _ _ => scaled i s)

/-- LD_ACQ in a bundle of its own. -/
def execLdAcq (d : BitVec 5) (h : BitVec 4) (s : BitVec 3) (i : Imm 14) (σ : State) : Res := .next (runSlot 0 (slotLdAcq d h s i) σ)

/-- ST_REL (R122). -/
def slotStRel (d : BitVec 5) (h : BitVec 4) (s : BitVec 3) (i : Imm 14) : Slot := storeSlot [] d h s true (fun _ _ => false) (fun _ _ => scaled i s)

/-- ST_REL in a bundle of its own. -/
def execStRel (d : BitVec 5) (h : BitVec 4) (s : BitVec 3) (i : Imm 14) (σ : State) : Res := .next (runSlot 0 (slotStRel d h s i) σ)

/-! ### Atomics (R123 to R125) -/

/-- The new value of an atomic, or none where nothing is written (R124). -/
def amoNew (op : AmoOp) (w : Nat) (old b cmp : BitVec w) : Option (BitVec w) :=
  match op with
  | .add => some (old + b)
  | .swap => some b
  | .cas => if old = cmp then some b else none
  | .minI => some (if old.slt b then old else b)
  | .minN => some (if old.ult b then old else b)
  | .maxI => some (if old.slt b then b else old)
  | .maxN => some (if old.ult b then b else old)
  | .and => some (old &&& b)
  | .or => some (old ||| b)
  | .xor => some (old ^^^ b)

/-- The value an atomic returns (R124). -/
def amoResult (op : AmoOp) (dword : Bool) (old : Nat) : Word :=
  if dword then BitVec.ofNat 64 old
  else if op = .minI || op = .maxI then (BitVec.ofNat 32 old).signExtend 64
  else BitVec.ofNat 64 old

/-- An atomic through a handle, at a place that R125 admits. R123 names the poison of xa and xb only: a
poisoned comparand xd is compared by its stored bits, and marks nothing (DESIGN CHOICE, log 132). -/
def amoSlot (op : AmoOp) (d a b : BitVec 5) (h : BitVec 4) (w : BitVec 1) : Slot :=
  ⟨[d, a, b], fun cx s =>
    if s.tagX cx a || s.tagX cx b then .trap 7 0 0 0
    else
      let n := if w = 1 then 8 else 4
      let off := s.rdX cx a
      match handleCheck s cx h off n true true with
      | .inl o => o
      | .inr (host, p) =>
        if host && !(amValid (s.hmapEntry p) && amSystem (s.hmapEntry p)) then
          .trap 6 0 0 ((s.ctx cx).ea h off)
        else if s.flagPending cx host p n then .wait
        else .go fun t => t.addReq
          (newReq t cx (.amo op d.toNat (w = 1) (s.rdX cx b) (s.rdX cx d)) ((s.ctx cx).ea h off) host p
            (orderedAfter t cx host p n) ((s.ctx cx).handle h.toNat).size)⟩

/-- AMO_ADD (R124). -/
def slotAmoAdd (d : BitVec 5) (a : BitVec 5) (b : BitVec 5) (h : BitVec 4) (w : BitVec 1) : Slot := amoSlot .add d a b h w

/-- AMO_ADD in a bundle of its own. -/
def execAmoAdd (d : BitVec 5) (a : BitVec 5) (b : BitVec 5) (h : BitVec 4) (w : BitVec 1) (σ : State) : Res := .next (runSlot 0 (slotAmoAdd d a b h w) σ)

/-- AMO_SWAP (R124). -/
def slotAmoSwap (d : BitVec 5) (a : BitVec 5) (b : BitVec 5) (h : BitVec 4) (w : BitVec 1) : Slot := amoSlot .swap d a b h w

/-- AMO_SWAP in a bundle of its own. -/
def execAmoSwap (d : BitVec 5) (a : BitVec 5) (b : BitVec 5) (h : BitVec 4) (w : BitVec 1) (σ : State) : Res := .next (runSlot 0 (slotAmoSwap d a b h w) σ)

/-- AMO_CAS (R124). -/
def slotAmoCas (d : BitVec 5) (a : BitVec 5) (b : BitVec 5) (h : BitVec 4) (w : BitVec 1) : Slot := amoSlot .cas d a b h w

/-- AMO_CAS in a bundle of its own. -/
def execAmoCas (d : BitVec 5) (a : BitVec 5) (b : BitVec 5) (h : BitVec 4) (w : BitVec 1) (σ : State) : Res := .next (runSlot 0 (slotAmoCas d a b h w) σ)

/-- AMO_MIN_I (R124). -/
def slotAmoMinI (d : BitVec 5) (a : BitVec 5) (b : BitVec 5) (h : BitVec 4) (w : BitVec 1) : Slot := amoSlot .minI d a b h w

/-- AMO_MIN_I in a bundle of its own. -/
def execAmoMinI (d : BitVec 5) (a : BitVec 5) (b : BitVec 5) (h : BitVec 4) (w : BitVec 1) (σ : State) : Res := .next (runSlot 0 (slotAmoMinI d a b h w) σ)

/-- AMO_MIN_N (R124). -/
def slotAmoMinN (d : BitVec 5) (a : BitVec 5) (b : BitVec 5) (h : BitVec 4) (w : BitVec 1) : Slot := amoSlot .minN d a b h w

/-- AMO_MIN_N in a bundle of its own. -/
def execAmoMinN (d : BitVec 5) (a : BitVec 5) (b : BitVec 5) (h : BitVec 4) (w : BitVec 1) (σ : State) : Res := .next (runSlot 0 (slotAmoMinN d a b h w) σ)

/-- AMO_MAX_I (R124). -/
def slotAmoMaxI (d : BitVec 5) (a : BitVec 5) (b : BitVec 5) (h : BitVec 4) (w : BitVec 1) : Slot := amoSlot .maxI d a b h w

/-- AMO_MAX_I in a bundle of its own. -/
def execAmoMaxI (d : BitVec 5) (a : BitVec 5) (b : BitVec 5) (h : BitVec 4) (w : BitVec 1) (σ : State) : Res := .next (runSlot 0 (slotAmoMaxI d a b h w) σ)

/-- AMO_MAX_N (R124). -/
def slotAmoMaxN (d : BitVec 5) (a : BitVec 5) (b : BitVec 5) (h : BitVec 4) (w : BitVec 1) : Slot := amoSlot .maxN d a b h w

/-- AMO_MAX_N in a bundle of its own. -/
def execAmoMaxN (d : BitVec 5) (a : BitVec 5) (b : BitVec 5) (h : BitVec 4) (w : BitVec 1) (σ : State) : Res := .next (runSlot 0 (slotAmoMaxN d a b h w) σ)

/-- AMO_AND (R124). -/
def slotAmoAnd (d : BitVec 5) (a : BitVec 5) (b : BitVec 5) (h : BitVec 4) (w : BitVec 1) : Slot := amoSlot .and d a b h w

/-- AMO_AND in a bundle of its own. -/
def execAmoAnd (d : BitVec 5) (a : BitVec 5) (b : BitVec 5) (h : BitVec 4) (w : BitVec 1) (σ : State) : Res := .next (runSlot 0 (slotAmoAnd d a b h w) σ)

/-- AMO_OR (R124). -/
def slotAmoOr (d : BitVec 5) (a : BitVec 5) (b : BitVec 5) (h : BitVec 4) (w : BitVec 1) : Slot := amoSlot .or d a b h w

/-- AMO_OR in a bundle of its own. -/
def execAmoOr (d : BitVec 5) (a : BitVec 5) (b : BitVec 5) (h : BitVec 4) (w : BitVec 1) (σ : State) : Res := .next (runSlot 0 (slotAmoOr d a b h w) σ)

/-- AMO_XOR (R124). -/
def slotAmoXor (d : BitVec 5) (a : BitVec 5) (b : BitVec 5) (h : BitVec 4) (w : BitVec 1) : Slot := amoSlot .xor d a b h w

/-- AMO_XOR in a bundle of its own. -/
def execAmoXor (d : BitVec 5) (a : BitVec 5) (b : BitVec 5) (h : BitVec 4) (w : BitVec 1) (σ : State) : Res := .next (runSlot 0 (slotAmoXor d a b h w) σ)

/-! ### Local accesses (R126, R127) -/

/-- The checks of a local access: poison, alignment, extent. -/
def localCheck (s : State) (cx : Nat) (a : BitVec 5) (srf : Bool) (n : Nat) (off : Word) : SlotOut ⊕ Nat :=
  let c := s.ctx cx
  let ad := (s.rdX cx a + off).toNat
  if s.tagX cx a then .inl (.trap 7 0 0 0)
  else if ad % n ≠ 0 then .inl (.trap 8 0 0 (BitVec.ofNat 64 ad))
  else if (if srf then c.winBytes else c.locBytes) < ad + n then .inl (.trap 5 1 0 (BitVec.ofNat 64 ad))
  else .inr ((if srf then c.winBase else c.locBase) + ad)

/-- LDL (R126); in local memory the tag is the mark of its line (R18; log 133). -/
def slotLdl (d : BitVec 5) (a : BitVec 5) (p : BitVec 1) (s : BitVec 3) (o : Imm 12) : Slot :=
  ⟨[d, a], fun cx t =>
    let n := sizeBytes s
    match localCheck t cx a (p = 1) n (scaled o s) with
    | .inl r => r
    | .inr q =>
      let k := t.core (t.home cx)
      let v := leNat (if p = 1 then k.srfBytes q n else k.locBytes q n)
      .go fun u => u.wrX cx d (loadExt n (4 ≤ s.toNat) v) (if p = 1 then k.srfBad q n else k.locMark q)⟩

/-- LDL in a bundle of its own. -/
def execLdl (d : BitVec 5) (a : BitVec 5) (p : BitVec 1) (s : BitVec 3) (o : Imm 12) (σ : State) : Res := .next (runSlot 0 (slotLdl d a p s o) σ)

/-- STL (R126). -/
def slotStl (d : BitVec 5) (a : BitVec 5) (p : BitVec 1) (s : BitVec 3) (o : Imm 12) : Slot :=
  ⟨[d, a], fun cx t =>
    let n := sizeBytes s
    match localCheck t cx a (p = 1) n (scaled o s) with
    | .inl r => r
    | .inr q =>
      let bs := leBytes n (t.rdX cx d).toNat
      let bad := t.tagX cx d
      .go fun u => u.modCore (u.home cx) fun k =>
        if p = 1 then (k.putSrf q bs).markSrf q n bad else (k.putLoc q bs).markLoc q bad⟩

/-- STL in a bundle of its own. -/
def execStl (d : BitVec 5) (a : BitVec 5) (p : BitVec 1) (s : BitVec 3) (o : Imm 12) (σ : State) : Res := .next (runSlot 0 (slotStl d a p s o) σ)

/-! ### XLATE, HINV, HINFO (R117, R119, R309) -/

/-- XLATE (R117). -/
def slotXlate (n : BitVec 4) (a : BitVec 5) (t : BitVec 2) : Slot :=
  ⟨[a], fun cx s =>
    if s.tagX cx a then .trap 7 0 0 0
    else .go fun u => u.modCtx cx fun c => c.setHandle n.toNat
      { state := .pending, va := s.rdX cx a, pasid := c.pasid, needR := t ≠ 1, needW := t ≠ 0,
        due := u.now + 24 }⟩

/-- XLATE in a bundle of its own. -/
def execXlate (n : BitVec 4) (a : BitVec 5) (t : BitVec 2) (σ : State) : Res := .next (runSlot 0 (slotXlate n a t) σ)

/-- HINV (R119). -/
def slotHinv (n : BitVec 4) : Slot := ⟨[], fun cx _ => .go fun t => t.modCtx cx fun c => c.setHandle n.toNat {}⟩

/-- HINV in a bundle of its own. -/
def execHinv (n : BitVec 4) (σ : State) : Res := .next (runSlot 0 (slotHinv n) σ)

/-- HINFO's result (Table 4.4). -/
def handleInfo (h : Handle) : Word :=
  let page := match h.state with
    | .invalid => 0
    | .valid => h.base.toNat / 4096 * 4096
    | _ => h.va.toNat / 4096 * 4096
  let st := match h.state with
    | .invalid => 0 | .pending => 1 | .valid => 2 | .faulted => 3 | .refused => 3
  BitVec.ofNat 64 (page + (if h.state = .valid then h.size.toNat else 0) * 2 ^ 10 + st * 2 ^ 8
    + (if h.write then 2 ^ 7 else 0) + (if h.read then 2 ^ 6 else 0) + h.gen.toNat % 64)

/-- HINFO (R119). -/
def slotHinfo (d : BitVec 5) (n : BitVec 4) : Slot :=
  ⟨[d], fun cx s => .go fun t => t.wrX cx d (handleInfo ((s.ctx cx).handle n.toNat)) false⟩

/-- HINFO in a bundle of its own. -/
def execHinfo (d : BitVec 5) (n : BitVec 4) (σ : State) : Res := .next (runSlot 0 (slotHinfo d n) σ)

/-- A handle made VALID with its page and the generation of its PASID (R117, R311). -/
def State.makeValid (s : State) (cx n : Nat) (p : Tlb) : State :=
  s.modCtx cx fun c =>
    let h := c.handle n
    c.setHandle n { h with state := .valid, base := p.base, phys := p.phys, host := p.host, size := p.size,
                           read := p.read, write := p.write, gen := (s.pasid h.pasid).gen, walk := false }

/-- A handle made FAULTED, with its entry; where the die's queue is full nothing is written and the
walk is tried again (R309, R315). -/
def State.makeFaulted (s : State) (cx n sub : Nat) : State :=
  let g := s.home cx
  let h := (s.ctx cx).handle n
  if s.faultRoom (dieOf g) then
    (s.modCtx cx fun c => c.setHandle n { h with state := .faulted, walk := false }).addFault (some cx)
      { faultBase (dieOf g) h.va 5 sub 0 0 (.handle cx n) with read := h.needR, write := h.needW }
  else s.modCtx cx fun c => c.setHandle n { h with walk := true }

/-- What a handle becomes 24 ac after XLATE: VALID or FAULTED by the cache, or it goes on PENDING with a walk
or an ATS request in flight (R117, R309). -/
def State.resolveHandle (s : State) (cx n : Nat) : State :=
  let k := (s.ctx cx).handle n
  let walk := s.modCtx cx fun c => c.setHandle n { k with walk := true }
  if k.state = .pending ∧ !k.walk ∧ k.due ≤ s.now then
    if !canonical k.va then s.makeFaulted cx n 6
    else if s.draining k.pasid (alignDown k.va.toNat 4096) 4096 then walk
    else if (s.pasid k.pasid).mode = .none then s.makeFaulted cx n 8
    else match (s.core (s.home cx)).tlb.find? (fun p => p.holds k.pasid k.va && p.grants k.needR k.needW) with
      | none => walk
      | some p =>
        if s.draining k.pasid p.base.toNat (pageBytes p.size) then walk
        else match s.judge (s.ctx cx).part k.va k.needR k.needW p with
          | .hit p => s.makeValid cx n p
          | .held => s
          | .fault b => s.makeFaulted cx n b
  else s

/-- XLATE_RESOLVE (R309): 24 ac after XLATE, a cache hit makes the handle VALID or FAULTED. -/
def execXlateResolve (cx : Nat) (h : BitVec 4) (s : State) : Res :=
  .next (s.resolveHandle cx h.toNat)

/-- The host's answer in the form that a translation takes it. -/
def replyOf : Option AtsReply → Option (Nat × BitVec 2 × Bool × Bool)
  | none => none
  | some r => if r.present then some (r.base, r.size, r.read, r.write) else none

/-- A walk or ATS request of a handle completes; while a shootdown covers the page it waits (R309,
R320), and an ATS request waits for the host's answer. -/
def execWalkComplete (cx : Nat) (h : BitVec 4) (ats : Option AtsReply) (s : State) : Res :=
  .next ((let k := (s.ctx cx).handle h.toNat
     if k.state = .pending ∧ k.walk ∧ !s.draining k.pasid (alignDown k.va.toNat 4096) 4096 ∧
        ((s.pasid k.pasid).mode = .ats → ats.isSome) then
       if !canonical k.va then s.makeFaulted cx h.toNat 6
       else match s.settle (s.home cx) (s.ctx cx).part k.pasid k.va k.needR k.needW (replyOf ats) with
         | (.hit p, t) => t.makeValid cx h.toNat p
         | (.held, t) => t
         | (.fault b, t) => t.makeFaulted cx h.toNat b
     else s))

/-! ### Drains (R128, R129) -/

/-- The scope that a code names (R128). -/
def scopeOf (s : BitVec 3) : Scope :=
  match s.toNat with
  | 0 => .core | 1 => .die | 2 => .pkg | 3 => .domain | _ => .sys

/-- DRAIN (R129). -/
def slotDrain (s : BitVec 3) : Slot :=
  ⟨[], fun cx _ => .go fun t => t.modCtx cx fun c => { c with drain := some (t.covered cx (scopeOf s)) }⟩

/-- DRAIN in a bundle of its own. -/
def execDrain (s : BitVec 3) (σ : State) : Res := .next (runSlot 0 (slotDrain s) σ)

/-- DRAIN_COMPLETE (R129): all covered work has performed at the scope and later bundles proceed. -/
def execDrainComplete (cx : Nat) (s : State) : Res :=
  .next ((if ((s.ctx cx).drain.getD []).any s.outstanding then s
     else s.modCtx cx fun c => { c with drain := none }))

/-- DRAIN_FLAG (R129): the flag store follows what it covers, and what R295 and R296 order before it. -/
def slotDrainFlag (d : BitVec 5) (a : BitVec 5) (b : BitVec 5) (w : BitVec 1) (h : BitVec 4) (s : BitVec 3) : Slot :=
  ⟨[d, a, b], fun cx t =>
    if t.tagX cx a then .trap 7 0 0 0
    else
      let n := if w = 1 then 8 else 4
      match handleCheck t cx h (t.rdX cx a) n false true with
      | .inl o => o
      | .inr (host, p) =>
        match t.postBlock cx .rem false with
        | some y => .block y
        | none => .go fun u => u.post cx .rem d
            (.flag ((t.ctx cx).ea h (t.rdX cx a)) p host n (t.rdX cx b) (t.tagX cx b) (scopeOf s)
              (u.covered cx (scopeOf s) ++ orderedAfter u cx host p n)
              ((t.ctx cx).handle h.toNat).size) none [] [] false⟩

/-- DRAIN_FLAG in a bundle of its own. -/
def execDrainFlag (d : BitVec 5) (a : BitVec 5) (b : BitVec 5) (w : BitVec 1) (h : BitVec 4) (s : BitVec 3) (σ : State) : Res := .next (runSlot 0 (slotDrainFlag d a b w h s) σ)

/-! ### Requests at their places (R263, R291) -/

/-- The old value under a request, as bytes. -/
def State.under (s : State) (r : Req) : List Byte := s.rdMem r.host r.phys r.op.size

/-- A CP access performs at its place: a load takes its value, a store or atomic writes (R121, R124,
R125); a store of a whole line, which only another package sends, leaves its line unpoisoned (R261). -/
def performCp (s : State) (r : Req) : State × List Byte × Bool :=
  let old := s.under r
  let bad := s.bad r.host r.phys
  match r.op with
  | .load .. => (s, old, bad)
  | .store bs p _ =>
    (let t := s.wrMem r.host r.phys bs
     if p then t.mark r.host r.phys true else if bs.length = 128 then t.mark r.host r.phys false else t, [], false)
  | .flagStore bs p _ =>
    (let t := s.wrMem r.host r.phys bs
     if p then t.mark r.host r.phys true else t, [], false)
  | .amo op _ dw b cmp =>
    if bad then (s, old, true)
    else if dw then
      match amoNew op 64 (BitVec.ofNat 64 (leNat old)) b cmp with
      | some v => (s.wrMem r.host r.phys (leBytes 8 v.toNat), old, false)
      | none => (s, old, false)
    else
      match amoNew op 32 (BitVec.ofNat 32 (leNat old)) (b.setWidth 32) (cmp.setWidth 32) with
      | some v => (s.wrMem r.host r.phys (leBytes 4 v.toNat), old, false)
      | none => (s, old, false)
  | _ => (s, [], false)

/-- Whether a request's place is in another package: a location of the one device memory, that the other package's
agents change too (R306; log 14). -/
def State.remote (s : State) (r : Req) : Bool := !r.host && !s.own r.phys

/-- Whether the accesses that a request must follow have performed; a release waits until they are
acknowledged (R263, R296). -/
def State.mayPerform (s : State) (r : Req) : Bool :=
  match r.op with
  | .store _ _ true => r.after.all (fun i => !s.outstanding i)
  | .flagStore .. => r.after.all (fun i => !s.outstanding i)
  | _ => r.after.all s.performed

/-- Whether a served request may complete now: at its exact ac, or 120 ac or more after a borrowed
slot (R263, R265). -/
def State.mayComplete (s : State) (r : Req) : Bool :=
  match r.served with
  | none => false
  | some n => match r.due with
    | some d => d ≤ s.now
    | none => n + 120 ≤ s.now

/-- The die that sends a request; what comes through the Causeway enters at the controller itself. -/
def State.reqDie (s : State) (r : Req) : Nat :=
  match r.agent with
  | .core => dieOf (s.home r.cx)
  | .tree d => d
  | .causeway => s.dieAt r.phys

/-- Whether a request away from the package's own memory may perform: what it must follow has performed, and one to
another package has reached it (R306). -/
def State.mayAnswer (s : State) (r : Req) : Bool :=
  s.mayPerform r && (!s.remote r || r.reach.any fun t => decide (t ≤ (s.die (s.reqDie r)).time))

/-- An operation performs at a semaphore of another package: its value stands outside the model (log 14), and an
acquisition makes the context's task its owner (R163). -/
def State.performSem (s : State) (r : Req) : State × List Byte × Bool :=
  let (v, t) := s.takeFree
  match r.op with
  | .sem .acq _ a _ => (t.modCtx r.cx fun c => { c with semOwn := a :: c.semOwn.filter (· ≠ a) }, leBytes 8 v.toNat, v.msb)
  | _ => (t, leBytes 8 v.toNat, v.msb)

/-- A request to host memory or to another package performs when its answer or acknowledgement arrives. -/
def State.serveAway (s : State) (r : Req) : State :=
  let (t, data, bad) := match r.op with
    | .sem .. => s.performSem r
    | _ => performCp s r
  t.modReq r.id fun q => { q with served := some s.now, due := some s.now, data := data, dpois := bad }

/-- Whether a request lies away from the package's own memory. -/
def State.away (s : State) (r : Req) : Bool := r.host || s.remote r

/-- The result of a load, atomic or semaphore operation written to its register, and the request
gone. -/
def deliverResult (s : State) (r : Req) : State :=
  let t := s.dropReq r.id
  match r.op with
  | .load d n sext _ => t.modCtx r.cx fun c => c.wr d (loadExt n sext (leNat (r.data.take n))) r.dpois
  | .amo op d dw _ _ =>
    t.modCtx r.cx fun c => c.wr d (amoResult op dw (leNat (r.data.take (if dw then 8 else 4)))) r.dpois
  | .sem op d _ _ =>
    if op = .rel || op = .post then t
    else t.modCtx r.cx fun c =>
      c.wr d ((BitVec.ofNat 32 (leNat (r.data.take 4))).signExtend 64) r.dpois
  | _ => t

/-- Whether a request is a CP load, atomic or semaphore operation, or a CP store. -/
def ReqOp.returns : ReqOp → Bool
  | .load .. | .amo .. | .sem .. => true
  | _ => false

/-- The result of a load or atomic arrives in its register (R108, R121). -/
def deliverLoad (s : State) (id : Nat) : State :=
  match s.findReq id with
  | none => s
  | some r =>
    if !r.op.returns then s
    else if r.served.isSome then (if s.mayComplete r then deliverResult s r else s)
    else if s.away r && s.mayAnswer r then
      let t := s.serveAway r
      match t.findReq id with
      | some q => deliverResult t q
      | none => t
    else s

/-- LOAD_RESULT_DELIVERY (R108): a load, AMO, semaphore or CSRR result reaches its register and releases the interlock. -/
def execLoadResultDelivery (req : Nat) (s : State) : Res :=
  .next (deliverLoad s req)

/-- A flag store is acknowledged, and its REM command ends: one that a slot has served at its figure; one
away performs now, once all that it covers has performed at its scope (R129, R263). -/
def flagDone (s : State) (id : Nat) : State :=
  match s.findReq id with
  | none => s
  | some r => match r.op with
    | .flagStore _ _ num =>
      let fin := fun (t : State) => (t.dropReq id).modCtx r.cx fun c => { c with
        active := c.active.map fun a => if a.cmd.queue = .rem ∧ a.cmd.num = num then { a with ended := true } else a }
      if r.served.isSome then (if s.mayComplete r then fin s else s)
      else if s.away r && s.mayAnswer r then fin (performCp s r).1
      else s
    | _ => s

/-- FLAG_STORE_PERFORM (R129): a flag store performs at the scope and its REM milestone may complete. -/
def execFlagStorePerform (req : Nat) (s : State) : Res :=
  .next (flagDone s req)

end Sys2Proof.Machine
end

