-- ==== Sys2Proof/Machine/Float.lean ====
section
/-!
DEFINITION. Number formats and exact arithmetic (chapter 2): the floating formats and their one
rounding, the error-free transforms, conversions, and the wide deposits of XA256. Every result comes
with the lane flags of Table 2.3 that it sets.
-/

namespace Sys2Proof.Machine

open Sys2Proof

/-- The lane flags (Table 2.3). -/
def fINV : Byte := 1
def fDZ : Byte := 2
def fOVF : Byte := 4
def fUNF : Byte := 8
def fINX : Byte := 16
def fEFTX : Byte := 32
def fCLP : Byte := 64
def fPOI : Byte := 128

/-- A flag that is set under a condition. -/
def flagIf (c : Bool) (f : Byte) : Byte := if c then f else 0

/-- The rounding modes (Table 2.2). -/
inductive Rm where
  | rne | rz | ru | rd
  deriving DecidableEq, Repr

/-- The mode that a mod field selects (Table 2.2). -/
def Rm.ofMod (m : BitVec 2) : Rm :=
  if m = 0 then .rne else if m = 1 then .rz else if m = 2 then .ru else .rd

/-- A floating format (Table 2.1): exponent and fraction bits, bias, the largest finite value as
maxM × 2^maxE, the canonical NaN, and whether the all-ones exponent holds infinities. -/
structure Fmt where
  width : Nat
  ebits : Nat
  fbits : Nat
  bias  : Nat
  maxM  : Nat
  maxE  : Int
  nan   : Nat
  infs  : Bool
  deriving DecidableEq, Repr

def f32 : Fmt := ⟨32, 8, 23, 127, 2 ^ 24 - 1, 104, 0x7FC00000, true⟩
def f16 : Fmt := ⟨16, 5, 10, 15, 2 ^ 11 - 1, 5, 0x7E00, true⟩
def bf16 : Fmt := ⟨16, 8, 7, 127, 2 ^ 8 - 1, 120, 0x7FC0, true⟩
def e5m2 : Fmt := ⟨8, 5, 2, 15, 7, 13, 0x7E, true⟩
def e4m3 : Fmt := ⟨8, 4, 3, 7, 14, 5, 0x7F, false⟩

/-- A floating value: a NaN, an infinity, or (-1)^neg × m × 2^e exactly (R44). -/
inductive FVal where
  | nan (signalling : Bool)
  | inf (neg : Bool)
  | fin (neg : Bool) (m : Nat) (e : Int)
  deriving DecidableEq, Repr

/-- The value of an encoding (R44). -/
def Fmt.decode (f : Fmt) (w : Nat) : FVal :=
  let s := w / 2 ^ (f.width - 1) % 2 = 1
  let e := w / 2 ^ f.fbits % 2 ^ f.ebits
  let m := w % 2 ^ f.fbits
  if e = 2 ^ f.ebits - 1 ∧ f.infs then
    if m = 0 then .inf s else .nan (m / 2 ^ (f.fbits - 1) = 0)
  else if e = 2 ^ f.ebits - 1 ∧ m = 2 ^ f.fbits - 1 then .nan false
  else if e = 0 then .fin s m (1 - f.bias - f.fbits)
  else .fin s (2 ^ f.fbits + m) (e - f.bias - f.fbits)

/-- The sign bit of a format. -/
def Fmt.sign (f : Fmt) (neg : Bool) : Nat := if neg then 2 ^ (f.width - 1) else 0

/-- The infinity of a sign, in a format that has one. -/
def Fmt.inf (f : Fmt) (neg : Bool) : Nat := f.sign neg + (2 ^ f.ebits - 1) * 2 ^ f.fbits

/-- The largest finite value of a sign. -/
def Fmt.big (f : Fmt) (neg : Bool) : Nat :=
  f.sign neg + (if f.infs then (2 ^ f.ebits - 1) * 2 ^ f.fbits - 1 else f.nan - 1)

/-- The number of bits of a natural number. -/
def bitLen (m : Nat) : Nat := if m = 0 then 0 else Nat.log2 m + 1

/-- Whether a magnitude with quotient k and remainder r of s is rounded up (Table 0.4). -/
def roundUp (mode : Rm) (neg : Bool) (k r s : Nat) : Bool :=
  match mode with
  | .rne => s < 2 * r || (2 * r = s && k % 2 = 1)
  | .rz => false
  | .ru => !neg && r ≠ 0
  | .rd => neg && r ≠ 0

/-- m × 2^e rounded to a multiple of 2^q, as that multiple, and whether the rounding is inexact. -/
def roundAt (mode : Rm) (neg : Bool) (m : Nat) (e q : Int) : Nat × Bool :=
  if q ≤ e then (m * 2 ^ (e - q).toNat, false)
  else
    let s := 2 ^ (q - e).toNat
    let k := m / s
    let r := m % s
    (if roundUp mode neg k r s then k + 1 else k, r ≠ 0)

/-- The quantum to which a value of magnitude m × 2^e rounds with an unbounded exponent. -/
def Fmt.quantumU (f : Fmt) (m : Nat) (e : Int) : Int := (bitLen m : Int) - 1 + e - f.fbits

/-- The least exponent of a normal value. -/
def Fmt.emin (f : Fmt) : Int := 1 - f.bias

/-- The encoding of n × 2^q, where n ≤ 2^(fbits + 1) and q is the format's quantum. -/
def Fmt.pack (f : Fmt) (neg : Bool) (n : Nat) (q : Int) : Nat :=
  if n < 2 ^ f.fbits then f.sign neg + n
  else if n = 2 ^ (f.fbits + 1) then
    f.sign neg + (q + 1 + f.fbits + f.bias).toNat * 2 ^ f.fbits
  else f.sign neg + (q + f.fbits + f.bias).toNat * 2 ^ f.fbits + (n - 2 ^ f.fbits)

/-- Whether n × 2^q exceeds the largest finite value (R46). -/
def Fmt.over (f : Fmt) (n : Nat) (q : Int) : Bool :=
  let b := min q f.maxE
  decide (f.maxM * 2 ^ (f.maxE - b).toNat < n * 2 ^ (q - b).toNat)

/-- Table 2.2. -/
def Fmt.overflow (f : Fmt) (mode : Rm) (neg : Bool) : Nat :=
  match mode, neg with
  | .rne, n => f.inf n
  | .rz, n => f.big n
  | .ru, false => f.inf false
  | .ru, true => f.big true
  | .rd, false => f.big false
  | .rd, true => f.inf true

/-- Whether the exact value m × 2^e is tiny: rounded with an unbounded exponent it stays below the
least normal (R47, UNF). -/
def Fmt.tiny (f : Fmt) (mode : Rm) (neg : Bool) (m : Nat) (e : Int) : Bool :=
  let qU := f.quantumU m e
  let n := (roundAt mode neg m e qU).1
  decide (qU + (bitLen n : Int) - 1 < f.emin)

/-- The exact value (-1)^neg × m × 2^e rounded once to a format, with its flags (R46, R47). -/
def Fmt.round (f : Fmt) (mode : Rm) (neg : Bool) (m : Nat) (e : Int) : Nat × Byte :=
  if m = 0 then (f.sign neg, 0)
  else
    let q := max (f.quantumU m e) (f.emin - f.fbits)
    let r := roundAt mode neg m e q
    if f.over r.1 q then (f.overflow mode neg, fOVF ||| fINX)
    else (f.pack neg r.1 q,
      flagIf r.2 fINX ||| flagIf (r.2 && f.tiny mode neg m e) fUNF)

/-- The same for a value strictly between m × 2^e and (m + 1) × 2^e; m has bits to spare. -/
def Fmt.roundSticky (f : Fmt) (mode : Rm) (neg : Bool) (m : Nat) (e : Int) (sticky : Bool) :
    Nat × Byte :=
  if sticky then f.round mode neg (2 * m + 1) (e - 1) else f.round mode neg m e

/-- A signed term of an exact sum. -/
def term (neg : Bool) (m : Nat) : Int := if neg then -(m : Int) else m

/-- The exact sum of signed terms, as a signed numerator over a common power of two. -/
def sumTerms : List (Bool × Nat × Int) → Int × Int
  | [] => (0, 0)
  | [(s, m, e)] => (term s m, e)
  | (s, m, e) :: ts =>
    let (n, d) := sumTerms ts
    let b := min e d
    (term s m * 2 ^ (e - b).toNat + n * 2 ^ (d - b).toNat, b)

/-- The exact sum of finite terms rounded once; an exact zero is signed by R48. -/
def Fmt.roundSum (f : Fmt) (mode : Rm) (ts : List (Bool × Nat × Int)) : Nat × Byte :=
  let (n, d) := sumTerms ts
  if n = 0 then
    (f.sign (if ts.all (fun t => t.1) then true
      else if ts.all (fun t => !t.1) then false else decide (mode = .rd)), 0)
  else f.round mode (decide (n < 0)) n.natAbs d

/-- Whether a value is a NaN, and whether it signals. -/
def FVal.isNan : FVal → Bool
  | .nan _ => true
  | _ => false

def FVal.isSnan : FVal → Bool
  | .nan s => s
  | _ => false

def FVal.isInf : FVal → Bool
  | .inf _ => true
  | _ => false

def FVal.isZero : FVal → Bool
  | .fin _ m _ => m = 0
  | _ => false

def FVal.neg : FVal → Bool
  | .nan _ => false
  | .inf s => s
  | .fin s _ _ => s

/-- The value with its sign inverted. -/
def FVal.flip : FVal → FVal
  | .nan s => .nan s
  | .inf s => .inf (!s)
  | .fin s m e => .fin (!s) m e

/-- The flags of NaN operands: INV for a signalling one (R45). -/
def nanFlags (vs : List FVal) : Byte := flagIf (vs.any FVal.isSnan) fINV

/-- The product of two values that are no NaN and no 0 × ∞ (R48). -/
def FVal.mul (a b : FVal) : FVal :=
  match a, b with
  | .fin s m e, .fin t n d => .fin (s != t) (m * n) (e + d)
  | .inf s, y => .inf (s != y.neg)
  | x, .inf t => .inf (x.neg != t)
  | x, _ => x

/-- Whether a product is invalid: 0 × ∞ (R47). -/
def FVal.mulInv (a b : FVal) : Bool := (a.isZero && b.isInf) || (a.isInf && b.isZero)

/-- The product as a term of a sum: a NaN factor makes it a NaN (R187). -/
def FVal.addend (a b : FVal) : FVal :=
  if a.isNan || b.isNan then .nan (a.isSnan || b.isSnan) else a.mul b

/-- Whether infinities of opposite signs stand among values (R47, R187). -/
def opposed (vs : List FVal) : Bool := vs.any (fun v => v = .inf false) && vs.any (fun v => v = .inf true)

/-- The sum of values that are no NaN, rounded once: opposite infinities are invalid (R47, R48). -/
def Fmt.sum (f : Fmt) (mode : Rm) (vs : List FVal) : Nat × Byte :=
  let pos := vs.any (fun v => v = .inf false)
  let neg := vs.any (fun v => v = .inf true)
  if pos && neg then (f.nan, fINV)
  else if pos then (f.inf false, 0)
  else if neg then (f.inf true, 0)
  else f.roundSum mode (vs.filterMap fun v => match v with | .fin s m e => some (s, m, e) | _ => none)

/-- FADD and its kin: the rounded sum of two encodings (R178). -/
def Fmt.add (f : Fmt) (mode : Rm) (a b : FVal) : Nat × Byte :=
  if a.isNan || b.isNan then (f.nan, nanFlags [a, b]) else f.sum mode [a, b]

/-- The rounded product (R185). -/
def Fmt.mul (f : Fmt) (mode : Rm) (a b : FVal) : Nat × Byte :=
  if a.isNan || b.isNan then (f.nan, nanFlags [a, b])
  else if a.mulInv b then (f.nan, fINV)
  else f.sum mode [a.mul b]

/-- The rounded a × b + c with one rounding (R185, R186). -/
def Fmt.fma (f : Fmt) (mode : Rm) (a b c : FVal) : Nat × Byte :=
  if a.mulInv b then (f.nan, fINV)
  else if a.isNan || b.isNan || c.isNan then (f.nan, nanFlags [a, b, c])
  else f.sum mode [a.mul b, c]

/-- The value of an f32 word. -/
def fv (w : Word32) : FVal := f32.decode w.toNat

/-- A rounded result as a lane word with its flags. -/
def w32 (r : Nat × Byte) : Word32 × Byte := (BitVec.ofNat 32 r.1, r.2)

/-- FADD and FSUB (R178). -/
def fadd32 (mode : Rm) (a b : Word32) : Word32 × Byte := w32 (f32.add mode (fv a) (fv b))
def fsub32 (mode : Rm) (a b : Word32) : Word32 × Byte := w32 (f32.add mode (fv a) (fv b).flip)

/-- FMUL, FMA and FMS (R185). -/
def fmul32 (mode : Rm) (a b : Word32) : Word32 × Byte := w32 (f32.mul mode (fv a) (fv b))
def fma32 (mode : Rm) (a b d : Word32) : Word32 × Byte := w32 (f32.fma mode (fv a) (fv b) (fv d))
def fms32 (mode : Rm) (a b d : Word32) : Word32 × Byte :=
  w32 (f32.fma mode (fv a) (fv b) (fv d).flip)

/-- A value's order key: -∞ < finite < +∞, over a common power of two; -0 below +0 only where
`signed` asks for it (R179). -/
def FVal.less (signed : Bool) (a b : FVal) : Bool :=
  match a, b with
  | .nan _, _ => false
  | _, .nan _ => false
  | .inf s, .inf t => s && !t
  | .inf s, _ => s
  | _, .inf t => !t
  | .fin s m e, .fin t n d =>
    let c := min e d
    let x := term s m * 2 ^ (e - c).toNat
    let y := term t n * 2 ^ (d - c).toNat
    decide (x < y) || (signed && decide (x = y) && s && !t)

/-- FMIN and FMAX (R179): `nanWins` is mod 0b01. -/
def fminmax (isMin nanWins : Bool) (a b : Word32) : Word32 × Byte :=
  let x := fv a
  let y := fv b
  let fl := nanFlags [x, y]
  if x.isNan && y.isNan then (0x7FC00000, fl)
  else if x.isNan || y.isNan then
    (if nanWins then 0x7FC00000 else if x.isNan then b else a, fl)
  else if (if isMin then FVal.less true y x else FVal.less true x y) then (b, fl) else (a, fl)

/-- The condition of an FCMP (Table 6.3). -/
def fcmpHolds (c : Nat) (x y : FVal) : Bool :=
  let un := x.isNan || y.isNan
  let lt := FVal.less false x y
  let gt := FVal.less false y x
  match c with
  | 0 => !un && !lt && !gt
  | 1 => un || lt || gt
  | 2 => !un && lt
  | 3 => !un && !gt
  | 4 => !un && gt
  | 5 => !un && !lt
  | 6 => un
  | _ => !un

/-- FCMP's predicate and flags (R180). -/
def fcmp32 (c : Nat) (signalling : Bool) (a b : Word32) : Bool × Byte :=
  let x := fv a
  let y := fv b
  (fcmpHolds c x y, flagIf (if signalling then x.isNan || y.isNan else x.isSnan || y.isSnan) fINV)

/-- FCLASS's one-hot class (R177). -/
def fclass32 (a : Word32) : Word32 :=
  let i := match fv a with
    | .nan true => 8
    | .nan false => 9
    | .inf true => 0
    | .inf false => 7
    | .fin s m _ =>
      if m = 0 then (if s then 3 else 4)
      else if m < 2 ^ 23 then (if s then 2 else 5)
      else (if s then 1 else 6)
  BitVec.ofNat 32 (2 ^ i)

/-- An exact value rounded to an integer by a mode, and whether that is inexact. -/
def toInt (mode : Rm) (s : Bool) (m : Nat) (e : Int) : Int × Bool :=
  let r := roundAt mode s m e 0
  (term s r.1, r.2)

/-- A value rounded to an integer and clamped to lo, hi (R52): the integer and its flags. -/
def cvtInt (mode : Rm) (lo hi : Int) (v : FVal) : Int × Byte :=
  match v with
  | .nan _ => (0, fINV)
  | .inf s => (if s then lo else hi, fCLP)
  | .fin s m e =>
    let (n, inx) := toInt mode s m e
    if n < lo then (lo, fCLP ||| flagIf inx fINX)
    else if hi < n then (hi, fCLP ||| flagIf inx fINX)
    else (n, flagIf inx fINX)

/-- An integer rounded to a format (R53). -/
def Fmt.ofInt (f : Fmt) (mode : Rm) (n : Int) : Nat × Byte :=
  f.round mode (decide (n < 0)) n.natAbs 0

/-- A conversion between f32, f16 and bf16 (R49). -/
def Fmt.conv (f : Fmt) (mode : Rm) (v : FVal) : Nat × Byte :=
  match v with
  | .nan s => (f.nan, flagIf s fINV)
  | .inf s => (f.inf s, 0)
  | .fin s m e => f.round mode s m e

/-- A conversion to an 8-bit format, RNE, saturating or not (R50, Table 2.4). -/
def Fmt.conv8 (f : Fmt) (sat : Bool) (v : FVal) : Nat × Byte :=
  let overV := fun s : Bool => if f.infs then f.inf s else f.nan
  match v with
  | .nan s => (f.nan, flagIf s fINV)
  | .inf s =>
    if sat then (f.big s, fCLP) else (overV s, flagIf (!f.infs) fOVF)
  | .fin s m e =>
    if m = 0 then (f.sign s, 0)
    else
      let q := max (f.quantumU m e) (f.emin - f.fbits)
      if f.over (roundAt .rne s m e q).1 q then
        (if sat then (f.big s, fCLP ||| fINX) else (overV s, fOVF ||| fINX))
      else f.round .rne s m e

/-- A conversion from any format to any format, as streams and CVT perform it (R49, R50). -/
def Fmt.convTo (f : Fmt) (mode : Rm) (sat : Bool) (v : FVal) : Nat × Byte :=
  if f.width = 8 then f.conv8 sat v else f.conv mode v

/-- SCALB: a × 2^k (R182). Beyond 600 in magnitude, k no longer changes the rounded result. -/
def scalb32 (mode : Rm) (a : Word32) (k : Int) : Word32 × Byte :=
  match fv a with
  | .nan s => (0x7FC00000, flagIf s fINV)
  | .inf _ => (a, 0)
  | .fin s m e =>
    if m = 0 then (a, 0) else w32 (f32.round mode s m (e + max (-600) (min 600 k)))

/-- FRND: an integral value by mod, keeping the sign (R182). -/
def frnd32 (mode : Rm) (a : Word32) : Word32 × Byte :=
  match fv a with
  | .nan s => (0x7FC00000, flagIf s fINV)
  | .inf _ => (a, 0)
  | .fin s m e =>
    let (n, inx) := toInt mode s m e
    (BitVec.ofNat 32 (f32.round .rne s n.natAbs 0).1, flagIf inx fINX)

/-- The bounds of a plane-tensor element (R54). -/
def planeLo (g : Nat) (signS : Bool) : Int := if signS then -(2 ^ (g - 1) : Int) else 0
def planeHi (g : Nat) (signS : Bool) : Int := if signS then 2 ^ (g - 1) - 1 else 2 ^ g - 1

/-- CVT.pls and CVT.pln: the element step of R57 (R181). -/
def cvtPlane (g : Nat) (signS : Bool) (a : Word32) : Word32 × Byte :=
  let lo := planeLo g signS
  let hi := planeHi g signS
  match fv a with
  | .nan _ => (0, fINV)
  | .inf s => (BitVec.ofInt 32 (if s then lo else hi), fCLP)
  | .fin s m e =>
    let n := (toInt .rne s m e).1
    if n < lo then (BitVec.ofInt 32 lo, fCLP)
    else if hi < n then (BitVec.ofInt 32 hi, fCLP)
    else (BitVec.ofInt 32 n, 0)

/-! ### Pairs (2.7) -/

/-- A double-word pair with the flags of the steps that made it. -/
structure Dw where
  hi : Word32
  lo : Word32
  fl : Byte
  deriving DecidableEq, Repr

/-- The canonical NaN and a zero of sign +. -/
def nan32 : Word32 := 0x7FC00000

/-- A zero error is delivered as +0 (R65, R66). -/
def posZero (w : Word32) : Word32 := if w = 0x80000000 then 0 else w

/-- The words of rne sums, without flags. -/
def rneSum (vs : List FVal) : Word32 := BitVec.ofNat 32 (f32.sum .rne vs).1

/-- twosum (R65). -/
def twosum (a b : Word32) : Dw :=
  let x := fv a
  let y := fv b
  if x.isNan || y.isNan || (x.isInf && y.isInf && x.neg != y.neg) then ⟨nan32, nan32, fINV⟩
  else if x.isInf || y.isInf then ⟨rneSum [x, y], 0, 0⟩
  else
    let s := rneSum [x, y]
    if (fv s).isInf then ⟨s, 0, fOVF ||| fINX⟩
    else ⟨s, posZero (rneSum [x, y, (fv s).flip]), 0⟩

/-- ftwosum (R66). -/
def ftwosum (a b : Word32) : Dw :=
  let x := fv a
  let y := fv b
  if x.isNan || y.isNan || (x.isInf && y.isInf && x.neg != y.neg) then ⟨nan32, nan32, fINV⟩
  else if x.isInf || y.isInf then ⟨rneSum [x, y], 0, 0⟩
  else
    let s := rneSum [x, y]
    if (fv s).isInf then ⟨s, 0, fOVF ||| fINX⟩
    else
      let z := rneSum [fv s, x.flip]
      ⟨s, posZero (rneSum [y, (fv z).flip]), 0⟩

/-- twoprod (R67). -/
def twoprod (a b : Word32) : Dw :=
  let x := fv a
  let y := fv b
  if x.isNan || y.isNan || x.mulInv y then ⟨nan32, nan32, fINV⟩
  else if x.isInf || y.isInf then ⟨rneSum [x.mul y], 0, 0⟩
  else
    let p := f32.sum .rne [x.mul y]
    let pw : Word32 := BitVec.ofNat 32 p.1
    if (fv pw).isInf then ⟨pw, 0, fOVF ||| fINX⟩
    else
      let e := f32.sum .rne [x.mul y, (fv pw).flip]
      ⟨pw, BitVec.ofNat 32 e.1, flagIf (e.2 &&& fINX ≠ 0) fEFTX ||| (p.2 &&& fUNF)⟩

/-- An operand pair with a finite high part and an infinite low part stands for the infinity of the
low part (R64). -/
def fixPair (hi lo : Word32) : Word32 × Word32 :=
  if !(fv hi).isNan && !(fv hi).isInf && (fv lo).isInf then (lo, 0) else (hi, lo)

/-- A step that overflows ends a pair operation with that infinity (R68); otherwise it goes on. -/
def dwStep (r : Word32) (fl : Byte) (k : Unit → Dw) : Dw :=
  if (fv r).isInf then ⟨r, 0, fl ||| fOVF ||| fINX⟩ else k ()

/-- The same for a step that gives a pair: either of its words may be infinite (R68; log 146). -/
def dwPair (d : Dw) (fl : Byte) (k : Unit → Dw) : Dw := dwStep d.hi fl fun _ => dwStep d.lo fl k

/-- The sum rounded RNE of words, for the plain steps of R68 and R70. -/
def rneAdd (a b : Word32) : Word32 := rneSum [fv a, fv b]

/-- dwadd (R68). -/
def dwadd (ah0 al0 bh0 bl0 : Word32) : Dw :=
  if (fv ah0).isNan || (fv al0).isNan || (fv bh0).isNan || (fv bl0).isNan then ⟨nan32, nan32, fINV⟩
  else
    let (ah, al) := fixPair ah0 al0
    let (bh, bl) := fixPair bh0 bl0
    let x := fv ah
    let y := fv bh
    if x.isInf && y.isInf && x.neg != y.neg then ⟨nan32, nan32, fINV⟩
    else if x.isInf || y.isInf then ⟨rneSum [x, y], 0, 0⟩
    else
      let se := twosum ah bh
      dwPair se 0 fun _ =>
        let tf := twosum al bl
        dwPair tf 0 fun _ =>
          let e1 := rneAdd se.lo tf.hi
          dwStep e1 0 fun _ =>
            let s2 := ftwosum se.hi e1
            dwPair s2 0 fun _ =>
              let e2 := rneAdd s2.lo tf.lo
              dwStep e2 0 fun _ =>
                let r := ftwosum s2.hi e2
                dwPair r 0 fun _ => ⟨r.hi, r.lo, 0⟩

/-- dwnorm (R69). -/
def dwnorm (hi lo : Word32) : Dw :=
  if (fv hi).isNan || (fv lo).isNan then ⟨nan32, nan32, fINV⟩
  else
    let (h, l) := fixPair hi lo
    if (fv h).isInf then ⟨h, 0, 0⟩ else twosum h l

/-- dwmul (R70). Of the flags of its first step, twoprod, EFTX alone is kept: R70 names no other, and an UNF
of that step is dropped (DEDUCED, log 33). -/
def dwmul (ah0 al0 bh0 bl0 : Word32) : Dw :=
  if (fv ah0).isNan || (fv al0).isNan || (fv bh0).isNan || (fv bl0).isNan then ⟨nan32, nan32, fINV⟩
  else
    let (ah, al) := fixPair ah0 al0
    let (bh, bl) := fixPair bh0 bl0
    let x := fv ah
    let y := fv bh
    if x.mulInv y then ⟨nan32, nan32, fINV⟩
    else if x.isInf || y.isInf then ⟨rneSum [x.mul y], 0, 0⟩
    else
      let pe := twoprod ah bh
      let ef := pe.fl &&& fEFTX
      dwPair pe ef fun _ =>
        let t := rneSum [(fv al).mul y]
        dwStep t ef fun _ =>
          let t2 := rneSum [x.mul (fv bl), fv t]
          dwStep t2 ef fun _ =>
            let e := rneAdd pe.lo t2
            dwStep e ef fun _ =>
              let r := ftwosum pe.hi e
              dwPair r ef fun _ => ⟨r.hi, r.lo, ef⟩

/-- dwfma(a, b, c) = dwadd(c, dwmul(a, b)), with the flags of both (R70). -/
def dwfma (ah al bh bl ch cl : Word32) : Dw :=
  let p := dwmul ah al bh bl
  let r := dwadd ch cl p.hi p.lo
  ⟨r.hi, r.lo, p.fl ||| r.fl⟩

/-! ### Wide deposits (2.5) -/

/-- A bit pattern of n bits as a two's-complement integer. -/
def sxt (n : Nat) (x : Nat) : Int :=
  if x % 2 ^ n < 2 ^ (n - 1) then (x % 2 ^ n : Nat) else (x % 2 ^ n : Nat) - (2 ^ n : Int)

/-- An exact value's floor as a multiple of 2^q, and whether it is inexact (R59). -/
def floorAt (n : Int) (e q : Int) : Int × Bool :=
  if q ≤ e then (n * 2 ^ (e - q).toNat, false)
  else
    let s : Int := 2 ^ (q - e).toNat
    (n.fdiv s, n.fmod s ≠ 0)

/-- The tile status flags OVF, INX, INV and RNG (R34). -/
def tOVF : Byte := 1
def tINX : Byte := 2
def tINV : Byte := 4
def tRNG : Byte := 8

/-- A deposit of the exact value n × 2^e into the pattern X of 256 bits (R59). -/
def xaDeposit (x : Nat) (n e : Int) : Nat × Byte :=
  let (z, inx) := floorAt n e (-160)
  let big := z < -(2 ^ 255 : Int) || (2 ^ 255 : Int) ≤ z
  let t := sxt 256 x + z
  let out := t < -(2 ^ 255 : Int) || (2 ^ 255 : Int) ≤ t
  ((t.emod (2 ^ 256)).toNat, flagIf inx tINX ||| flagIf (big || out) tOVF)

/-- A deposit of an f32 value (R59). -/
def xaDepositF32 (x : Nat) (w : Word32) : Nat × Byte :=
  match fv w with
  | .fin s m e => xaDeposit x (term s m) e
  | _ => (x, tINV)

/-- The exact value n × 2^e to f32, RNE (R61). -/
def exactToF32 (n e : Int) : Word32 × Byte := w32 (f32.round .rne (decide (n < 0)) n.natAbs e)

/-- The exact value n × 2^e to i32, RNE and clamped (R61). -/
def exactToI32 (n e : Int) : Word32 × Byte :=
  let r := cvtInt .rne (-(2 ^ 31)) (2 ^ 31 - 1) (.fin (decide (n < 0)) n.natAbs e)
  (BitVec.ofInt 32 r.1, r.2)

/-- The add.xa256 of a scatter element (R59, R146). -/
def xaAdd (x y : Nat) : Nat × Byte := xaDeposit x (sxt 256 y) (-160)

end Sys2Proof.Machine
end

