-- ==== Sys2Proof/Machine/FloatFun.lean ====
section
/-!
DEFINITION. The special functions of the F slot (R190, R191, Table 6.7). Each is the exact value
rounded once. Quotients and roots are computed exactly; the exponential and logarithmic functions
are computed in fixed point with 320 fraction bits and then rounded once (DEDUCED: no f32 operand
brings one of them within the fixed point's error of a rounding boundary, but for the operands that
each definition treats on their own; safe as long as that holds; log 12).
-/

namespace Sys2Proof.Machine

open Sys2Proof

/-- The fraction bits of the fixed point. -/
def fxBits : Nat := 320

/-- One, and the natural logarithm of 2 cut to the fixed point. -/
def fxOne : Nat := 2 ^ 320
def fxLn2 : Nat :=
  1480553391661173448385607439722553250922680800745876974795605978609098082859138712941075737848984

/-- The product of two fixed-point numbers. -/
def fxMul (a b : Nat) : Nat := a * b / fxOne

/-- The integer square root, by bits. -/
def isqrtAux : Nat → Nat → Nat → Nat
  | 0, _, r => r
  | i + 1, n, r =>
    let c := r + 2 ^ i
    isqrtAux i n (if c * c ≤ n then c else r)

def isqrt (n : Nat) : Nat := isqrtAux (bitLen n / 2 + 1) n 0

/-- The terms k, k + 1, … of the series of e^x after the term t. -/
def fxExpAux : Nat → Nat → Nat → Nat → Nat
  | 0, _, _, _ => 0
  | n + 1, k, t, x =>
    let u := fxMul t x / k
    u + fxExpAux n (k + 1) u x

/-- e^x for 0 ≤ x < 1. -/
def fxExp (x : Nat) : Nat := fxOne + fxExpAux 90 1 fxOne x

/-- The terms z^k / k for odd k. -/
def fxAtanhAux : Nat → Nat → Nat → Nat → Nat
  | 0, _, _, _ => 0
  | n + 1, k, p, z2 => p / k + fxAtanhAux n (k + 2) (fxMul p z2) z2

/-- The base-2 logarithm of y for 1 ≤ y < 2: 2 atanh((y - 1) / (y + 1)) / ln 2. -/
def fxLog2 (y : Nat) : Nat :=
  let z := (y - fxOne) * fxOne / (y + fxOne)
  2 * fxAtanhAux 120 1 z (fxMul z z) * fxOne / fxLn2

/-- e^-x for x ≥ 0. -/
def fxExpNeg (x : Nat) : Nat := fxOne * fxOne / fxExp (x % fxLn2) / 2 ^ (x / fxLn2)

/-- m × 2^e in fixed point, exact for every f32 value below 2^128. -/
def fxOf (m : Nat) (e : Int) : Nat := m * 2 ^ (e + 320).toNat

/-- Whether m × 2^e < 2^k and whether it exceeds n. -/
def magLt (m : Nat) (e k : Int) : Bool := decide ((bitLen m : Int) + e ≤ k)
def magGt (m : Nat) (e : Int) (n : Nat) : Bool := decide (fxOf n 0 < fxOf m e)

/-- A value just above, and just below, m × 2^e, rounded once. -/
def justAbove (mode : Rm) (s : Bool) (m : Nat) (e : Int) : Nat × Byte :=
  f32.roundSticky mode s (m * 2 ^ 6) (e - 6) true
def justBelow (mode : Rm) (s : Bool) (m : Nat) (e : Int) : Nat × Byte :=
  f32.roundSticky mode s (m * 2 ^ 6 - 1) (e - 6) true

/-- A value too small for the format's subnormals, and a fixed-point value, rounded once. -/
def tinyVal (mode : Rm) (s : Bool) : Nat × Byte := f32.roundSticky mode s 1 (-400) true
def fxRound (mode : Rm) (s : Bool) (m : Nat) (e : Int) : Nat × Byte :=
  f32.roundSticky mode s m e true

/-- The exact quotient of two nonzero magnitudes, rounded once. -/
def divRound (mode : Rm) (s : Bool) (m : Nat) (e : Int) (n : Nat) (d : Int) : Nat × Byte :=
  let q := m * 2 ^ 64 / n
  f32.roundSticky mode s q (e - d - 64) (m * 2 ^ 64 % n ≠ 0)

/-- DIV (Table 6.7). -/
def fdiv32 (mode : Rm) (a b : Word32) : Word32 × Byte :=
  w32 <| match fv a, fv b with
    | .nan p, y => (f32.nan, nanFlags [.nan p, y])
    | x, .nan p => (f32.nan, nanFlags [x, .nan p])
    | .inf _, .inf _ => (f32.nan, fINV)
    | .inf s, y => (f32.inf (s != y.neg), 0)
    | x, .inf t => (f32.sign (x.neg != t), 0)
    | .fin s m e, .fin t n d =>
      if n = 0 then if m = 0 then (f32.nan, fINV) else (f32.inf (s != t), fDZ)
      else if m = 0 then (f32.sign (s != t), 0)
      else divRound mode (s != t) m e n d

/-- RCP (Table 6.7). -/
def frcp32 (mode : Rm) (a : Word32) : Word32 × Byte :=
  w32 <| match fv a with
    | .nan p => (f32.nan, nanFlags [.nan p])
    | .inf s => (f32.sign s, 0)
    | .fin s m e => if m = 0 then (f32.inf s, fDZ) else divRound mode s 1 0 m e

/-- An even exponent. -/
def evenExp (m : Nat) (e : Int) : Nat × Int := if e % 2 = 0 then (m, e) else (2 * m, e - 1)

/-- The square root of a nonzero magnitude, rounded once. -/
def sqrtRound (mode : Rm) (m : Nat) (e : Int) : Nat × Byte :=
  let (m, e) := evenExp (m * 2 ^ 64) (e - 64)
  let r := isqrt m
  f32.roundSticky mode false r (e / 2) (r * r ≠ m)

/-- The reciprocal square root of a nonzero magnitude, rounded once. -/
def rsqRound (mode : Rm) (m : Nat) (e : Int) : Nat × Byte :=
  let (m, e) := evenExp m e
  let k := 64 + bitLen m
  let r := isqrt (2 ^ (2 * k) / m)
  f32.roundSticky mode false r (-k - e / 2) (r * r * m ≠ 2 ^ (2 * k))

/-- SQRT (Table 6.7). -/
def fsqrt32 (mode : Rm) (a : Word32) : Word32 × Byte :=
  w32 <| match fv a with
    | .nan p => (f32.nan, nanFlags [.nan p])
    | .inf s => if s then (f32.nan, fINV) else (f32.inf false, 0)
    | .fin s m e =>
      if m = 0 then (f32.sign s, 0) else if s then (f32.nan, fINV) else sqrtRound mode m e

/-- RSQ (Table 6.7). -/
def frsq32 (mode : Rm) (a : Word32) : Word32 × Byte :=
  w32 <| match fv a with
    | .nan p => (f32.nan, nanFlags [.nan p])
    | .inf s => if s then (f32.nan, fINV) else (0, 0)
    | .fin s m e =>
      if m = 0 then (f32.inf s, fDZ) else if s then (f32.nan, fINV) else rsqRound mode m e

/-- RSQE: the regularised reciprocal square root (R191). -/
def frsqe32 (mode : Rm) (a d : Word32) : Word32 × Byte :=
  let x := fv a
  let y := fv d
  if x.isNan || y.isNan then w32 (f32.nan, fINV)
  else
    let clp := flagIf (x.neg && !x.isZero) fCLP
    let v : FVal := if x.neg then .fin false 0 0 else x
    let r := match v, y with
      | .inf _, .inf true => (f32.nan, fINV)
      | .inf _, _ => (0, 0)
      | _, .inf true => (f32.nan, fINV)
      | _, .inf false => (0, 0)
      | .fin s m e, .fin t n g =>
        let (k, c) := sumTerms [(s, m, e), (t, n, g)]
        if k < 0 then (f32.nan, fINV)
        else if k = 0 then (f32.inf false, fDZ)
        else rsqRound mode k.toNat c
      | _, _ => (f32.nan, fINV)
    w32 (r.1, r.2 ||| clp)

/-- The integer part, rounded down, and the fraction in fixed point, of a signed magnitude below
2^128. -/
def fxSplit (s : Bool) (m : Nat) (e : Int) : Int × Nat :=
  let x := fxOf m e
  let n := x / fxOne
  let fr := x % fxOne
  if s then (if fr = 0 then (-(n : Int), 0) else (-(n : Int) - 1, fxOne - fr)) else (n, fr)

/-- EXP2 (Table 6.7). -/
def fexp2 (mode : Rm) (a : Word32) : Word32 × Byte :=
  w32 <| match fv a with
    | .nan p => (f32.nan, nanFlags [.nan p])
    | .inf s => if s then (0, 0) else (f32.inf false, 0)
    | .fin s m e =>
      if m = 0 then f32.round mode false 1 0
      else if magGt m e 400 then
        (if s then tinyVal mode false else f32.round mode false 1 400)
      else
        let (n, fr) := fxSplit s m e
        if fr = 0 then f32.round mode false 1 n
        else fxRound mode false (fxExp (fxMul fr fxLn2)) (n - 320)

/-- LOG2 (Table 6.7). -/
def flog2 (mode : Rm) (a : Word32) : Word32 × Byte :=
  w32 <| match fv a with
    | .nan p => (f32.nan, nanFlags [.nan p])
    | .inf s => if s then (f32.nan, fINV) else (f32.inf false, 0)
    | .fin s m e =>
      if m = 0 then (f32.inf true, fDZ)
      else if s then (f32.nan, fINV)
      else
        let b := bitLen m
        let n : Int := (b : Int) - 1 + e
        if m = 2 ^ (b - 1) then f32.round mode (decide (n < 0)) n.natAbs 0
        else
          let v : Int := n * (fxOne : Int) + (fxLog2 (m * 2 ^ (321 - b)) : Int)
          fxRound mode (decide (v < 0)) (if v < 0 then v.natAbs - 1 else v.toNat) (-320)

/-- The logistic function of a finite nonzero magnitude, in fixed point; x at most 200. -/
def fxSigm (s : Bool) (x : Nat) : Nat :=
  let t := fxExpNeg x
  if s then t * fxOne / (fxOne + t) else fxOne * fxOne / (fxOne + t)

/-- SIGM (Table 6.7). -/
def fsigm (mode : Rm) (a : Word32) : Word32 × Byte :=
  w32 <| match fv a with
    | .nan p => (f32.nan, nanFlags [.nan p])
    | .inf s => if s then (0, 0) else f32.round mode false 1 0
    | .fin s m e =>
      if m = 0 then f32.round mode false 1 (-1)
      else if magGt m e 200 then (if s then tinyVal mode false else justBelow mode false (2 ^ 23) (-23))
      else fxRound mode false (fxSigm s (fxOf m e)) (-320)

/-- TANH (Table 6.7). -/
def ftanh (mode : Rm) (a : Word32) : Word32 × Byte :=
  w32 <| match fv a with
    | .nan p => (f32.nan, nanFlags [.nan p])
    | .inf s => f32.round mode s 1 0
    | .fin s m e =>
      if m = 0 then (f32.sign s, 0)
      else if magLt m e (-15) then justBelow mode s m e
      else if magGt m e 100 then justBelow mode s (2 ^ 23) (-23)
      else
        let t := fxExpNeg (2 * fxOf m e)
        fxRound mode s ((fxOne - t) * fxOne / (fxOne + t)) (-320)

/-- SILU (Table 6.7): a times the exact logistic function, rounded once. -/
def fsilu (mode : Rm) (a : Word32) : Word32 × Byte :=
  w32 <| match fv a with
    | .nan p => (f32.nan, nanFlags [.nan p])
    | .inf s => if s then (f32.sign true, 0) else (f32.inf false, 0)
    | .fin s m e =>
      if m = 0 then (f32.sign s, 0)
      else if magLt m e (-30) then
        (if s then justBelow mode s m (e - 1) else justAbove mode s m (e - 1))
      else if magGt m e 130 then (if s then tinyVal mode true else justBelow mode false m e)
      else fxRound mode s (m * fxSigm s (fxOf m e)) (e - 320)

end Sys2Proof.Machine
end

