-- ==== Sys2Proof/Machine/Engine.lean ====
section
/-!
DEFINITION. Records in CP local memory, the completion of engine commands (R139 to R142), effective
priorities (R284) and the addresses of semaphores (R35).
-/

namespace Sys2Proof.Machine

open Sys2Proof

/-! ### Records -/

/-- n bytes of a context's local memory. -/
def State.rdLocal (s : State) (cx off n : Nat) : List Byte :=
  (s.core (s.home cx)).locBytes ((s.ctx cx).locBase + off) n

/-- The rounded footprint and local bytes of a record (R25, R276). -/
def LaunchRec.winBytes (r : LaunchRec) : Nat := alignUp r.srf 4096
def LaunchRec.locBytes (r : LaunchRec) : Nat := alignUp r.localB 1024

/-- Where the local memory of a context's task stands while the task is spilled: after its window, in the run of the
save area that holds its image (R283). -/
def State.savedLocal (s : State) (cx : Nat) : Option Nat :=
  (s.hub.tasks.find? fun t => t.id = (s.ctx cx).task && t.img.isSome).map fun t =>
    (((smGet none s.hub.parts t.part).map Part.saveB).getD 0).toNat + ((t.savedAt.map Prod.fst).getD 0) + t.lrec.winBytes

/-- Bytes written at a local offset of a context, in the save area while its task is spilled (R283). -/
def State.wrLocal (s : State) (cx off : Nat) (bs : List Byte) : State :=
  match s.savedLocal cx with
  | some a => s.wrMem false (a + off) bs
  | none => s.modCore (s.home cx) fun k => k.putLoc ((s.ctx cx).locBase + off) bs

/-- The checks of a record of n bytes at a local offset (R139). -/
def recordStop (s : State) (cx off n : Nat) : Option SlotOut :=
  if off % n ≠ 0 then some (.trap 8 0 0 (BitVec.ofNat 64 off))
  else if (s.ctx cx).locBytes < off + n then some (.trap 5 1 0 (BitVec.ofNat 64 off))
  else none

/-- The number in the n bytes at an offset of a byte list. -/
def field (bs : List Byte) (off n : Nat) : Nat := leNat ((bs.drop off).take n)

/-- What a command reports when it completes (Table 5.1). -/
structure Done where
  status : Nat := 0
  sub    : Nat := 0
  flags  : Nat := 0
  done   : Nat := 0
  total  : Nat := 0
  aux    : Nat := 0
  va     : Word := 0
  deriving DecidableEq, Repr

/-- The completion record (Table 5.1). -/
def Done.bytes (o : Done) (num : Nat) : List Byte :=
  leBytes 1 o.status ++ leBytes 1 o.sub ++ leBytes 2 o.flags ++ leBytes 4 o.done ++ leBytes 4 o.total ++
    leBytes 4 o.aux ++ leBytes 8 o.va.toNat ++ leBytes 8 num

/-- Every line that a command still holds, let go (R252). -/
def CoreSt.releaseAll (c : CoreSt) (h : Nat × Nat) : CoreSt :=
  c.lines.foldl (fun k p => if p.2.holders.contains h || p.2.before.contains h then k.release p.1 h else k) c

/-- The holder's name of a command: its task and its posting order. -/
def State.holder (s : State) (cx : Nat) (k : Cmd) : Nat × Nat := ((s.ctx cx).task, k.ord)

/-- A command completes: its record is written, its lines are released, it leaves its queue and its
milestone counts it (R22, R141, R252). -/
def State.finish (s : State) (cx : Nat) (k : Cmd) (o : Done) : State :=
  let s := match k.recOff with
    | some off => s.wrLocal cx off (o.bytes k.num)
    | none => s
  let s := s.modCore (s.home cx) fun c => c.releaseAll (s.holder cx k)
  s.modCtx cx fun c => { c with
    posted := c.posted.filter (fun j => j.queue ≠ k.queue || j.num ≠ k.num),
    active := c.active.filter (fun a => a.cmd.queue ≠ k.queue || a.cmd.num ≠ k.num) }.complete k.queue k.num

/-- An accepted command changed in place. -/
def State.modActive (s : State) (cx : Nat) (q : Queue) (num : Nat) (f : Active → Active) : State :=
  s.modCtx cx fun c => { c with
    active := c.active.map fun a => if a.cmd.queue = q ∧ a.cmd.num = num then f a else a }

def State.findActive (s : State) (cx : Nat) (q : Queue) (num : Nat) : Option Active :=
  (s.ctx cx).active.find? (fun a => a.cmd.queue = q ∧ a.cmd.num = num)

/-- The oldest accepted command of a queue. -/
def State.firstActive (s : State) (cx : Nat) (q : Queue) : Option Active :=
  (s.ctx cx).active.find? (fun a => a.cmd.queue = q)

/-! ### Effective priority (R284) -/

/-- The context that holds a task. -/
def State.ctxOf (s : State) (task : Nat) : Option Nat :=
  (s.ctxs.find? (fun p => p.2.task = task)).map Prod.fst

/-- Who lends to whom: owner, waiter, and the priority stored for a remote waiter. -/
def State.lends (s : State) : List (Nat × Nat × Nat) :=
  s.cores.flatMap fun c => c.2.sems.flatMap fun m =>
    match m.2.owner with
    | none => []
    | some o => (m.2.waiters.filter fun w => !w.reserved).map fun w => (o, w.who, w.prio)

/-- Every task takes the smallest priority of its waiters, once. -/
def relax (ls : List (Nat × Nat × Nat)) (ps : List (Nat × Nat)) : List (Nat × Nat) :=
  ps.map fun (t, p) => (t, ls.foldl (fun a l =>
    if l.1 = t then Nat.min a (((ps.find? (fun q => q.1 = l.2.1)).map Prod.snd).getD l.2.2) else a) p)

/-- The same, along chains of owners of any length. -/
def relaxN (ls : List (Nat × Nat × Nat)) : Nat → List (Nat × Nat) → List (Nat × Nat)
  | 0, ps => ps
  | n + 1, ps => relaxN ls n (relax ls ps)

/-- The effective priority of a context, which cr.PRIO reads (R21, R284). -/
def State.effPrio (s : State) (cx : Nat) : Nat :=
  let c := s.ctx cx
  let ps := s.ctxs.filterMap fun p => if p.2.task = 0 then none else some (p.2.task, p.2.basePrio)
  (((relaxN s.lends ps.length ps).find? (fun q => q.1 = c.task)).map Prod.snd).getD c.basePrio

/-! ### Semaphores (R35) -/

/-- Where a semaphore is: a core of this package and an index, or another package. -/
inductive SemAt where
  | here (core idx : Nat)
  | there (addr : Nat)
  deriving DecidableEq, Repr

/-- The semaphore that a global address names for a partition; none: SEM-FORMAT (R35). The tags of another
package's partitions stand outside the model: what they are at an ac is open (log 129). -/
def semAddr (s : State) (part : Nat) (a : Nat) : Option SemAt :=
  let pkg := a / 2 ^ 13 % 8
  let core := a / 2 ^ 6 % 32
  if 24 ≤ core then none
  else if pkg = s.hub.pkg then
    let g := 24 * (a / 2 ^ 11 % 4) + core
    if ((s.part part).map (fun p => p.cores.contains g)).getD false then some (.here g (a % 64)) else none
  else if ((s.part part).map (fun p => p.tag ≠ 0 && p.tag = Config.remoteTag pkg (24 * (a / 2 ^ 11 % 4) + core) s.now)).getD
      false then some (.there a) else none

def CoreSt.sem (c : CoreSt) (i : Nat) : Sem := smGet {} c.sems i
def CoreSt.setSem (c : CoreSt) (i : Nat) (m : Sem) : CoreSt := { c with sems := smPut {} c.sems i m }

/-- The amounts reserved for waiters (R285). -/
def Sem.reserved (m : Sem) : Int := (m.waiters.filter Waiter.reserved).foldl (fun a w => a + w.amount) 0

/-- What no reservation holds. -/
def Sem.free (m : Sem) : Int := m.val.toInt - m.reserved

/-- The present priority of a waiter. -/
def State.waiterPrio (s : State) (w : Waiter) : Nat :=
  match s.ctxOf w.who with
  | some k => s.effPrio k
  | none => w.prio

/-- The waiter whose turn is next: the highest priority, the first to arrive among equals (R164). -/
def State.nextWaiter (s : State) (m : Sem) : Option Waiter :=
  (m.waiters.filter (fun w => !w.reserved)).foldl (fun a w =>
    match a with
    | none => some w
    | some b =>
      if s.waiterPrio w < s.waiterPrio b ∨ (s.waiterPrio w = s.waiterPrio b ∧ w.arrival < b.arrival)
      then some w else a) none

/-- A satisfied semaphore serves its next waiter: the amount is reserved for it, and its bundle takes
it when it executes again (R164, R285; log 11). A remote caller, named 2^64 and above, takes it at
once. -/
def State.semServe (s : State) (g i : Nat) : State :=
  let m := (s.core g).sem i
  match s.nextWaiter m with
  | none => s
  | some w =>
    if m.free < w.amount then s
    else if 2 ^ 64 ≤ w.who then
      s.modCore g fun c => c.setSem i { m with
        val := m.val - BitVec.ofInt 32 w.amount, waiters := m.waiters.filter (fun x => x.who ≠ w.who),
        owner := if w.acq then some w.who else m.owner, ownPrio := if w.acq then w.prio else m.ownPrio }
    else
      s.modCore g fun c => c.setSem i { m with
        waiters := m.waiters.map fun x => if x.who = w.who then { x with reserved := true } else x }

/-- All waiters that a semaphore now satisfies are served, in their order. -/
def State.semServeAll (s : State) (g i : Nat) : State :=
  (List.range ((s.core g).sem i).waiters.length).foldl (fun s _ => s.semServe g i) s

/-- A value added to a semaphore, wrapping; the waiters that it satisfies are served at once (R285, Table
12.4). -/
def State.semBump (s : State) (g i : Nat) (v : Word32) : State :=
  (s.modCore g fun c => c.setSem i { c.sem i with val := (c.sem i).val + v }).semServeAll g i

/-- A semaphore released by its owner. -/
def State.semRelease (s : State) (g i : Nat) : State :=
  (s.modCore g fun c => c.setSem i { c.sem i with val := (c.sem i).val + 1, owner := none, ownPrio := 0 }).semServeAll g i

/-! ### Dependences between declared ranges (R24, R248 to R253) -/

/-- Whether two ranges share a 128-byte line. -/
def Range.meets (x y : Range) : Bool :=
  x.len ≠ 0 && y.len ≠ 0 && decide (x.lo / 128 ≤ (y.lo + y.len - 1) / 128) &&
    decide (y.lo / 128 ≤ (x.lo + x.len - 1) / 128)

/-- Whether a command posted before another makes it wait (Table 10.1). -/
def Cmd.blocks (a b : Cmd) : Bool :=
  (a.writes.any fun x => b.writes.any x.meets) ||
  (a.writes.any fun x => b.reads.any fun y => x.meets y && !(x.chained && y.chained)) ||
  (a.reads.any fun x => b.writes.any fun y => x.meets y && !(x.chained && y.chained))

/-- The commands of a context that have not completed. -/
def Ctx.open_ (c : Ctx) : List Cmd := c.posted ++ c.active.map Active.cmd

/-- Whether a command must still wait: for an earlier one (R248), or since its task is stopped (R327). -/
def State.mustWait (s : State) (cx : Nat) (k : Cmd) : Bool :=
  s.stopped cx || k.board && (s.ctx cx).open_.any fun j => j.board && decide (j.ord < k.ord) && j.blocks k

/-- The physical line of a window line. -/
def State.winLine (s : State) (cx w : Nat) : Nat := (s.ctx cx).winBase / 128 + w

/-- The window lines of the chained ranges in a list. -/
def chainedLines (rs : List Range) : List Nat :=
  (rs.filter Range.chained).flatMap fun r => linesOf 0 r.lo r.len

/-- A command holds its chained read lines from acceptance (R250, rule 4). -/
def State.holdLines (s : State) (cx : Nat) (k : Cmd) : State :=
  s.modCore (s.home cx) fun c => (chainedLines k.reads).foldl (fun c w =>
    let p := s.winLine cx w
    let l := c.line p
    c.setLine p { l with holders := s.holder cx k :: l.holders.filter (· ≠ s.holder cx k) }) c

/-- Whether a command's own chained reads come before its writes: a copy within the SRF (R148, R249). -/
def CmdKind.readsFirst : CmdKind → Bool
  | .scopy r => r.kind = 1
  | _ => false

/-- The chained readers of a line that come before a writer: those that hold it, and those posted
earlier that their engines have not accepted yet (Table 10.2, case a; DEDUCED, log 123). -/
def State.readersBefore (s : State) (cx : Nat) (k : Cmd) (w : Nat) : List (Nat × Nat) :=
  (((s.core (s.home cx)).line (s.winLine cx w)).holders.filter fun h =>
    h.1 = (s.holder cx k).1 && (decide (h.2 < k.ord) || (h.2 = k.ord && k.kind.readsFirst))) ++
  (((s.ctx cx).posted.filter fun j => decide (j.ord < k.ord) && (chainedLines j.reads).contains w).map (s.holder cx))

/-- A chained writer empties its lines; a FULL line that has readers before it empties when the last of
these lets go (R251). -/
def State.emptyLines (s : State) (cx : Nat) (k : Cmd) : State :=
  s.modCore (s.home cx) fun c => (chainedLines k.writes).foldl (fun c w =>
    let p := s.winLine cx w
    let l := c.line p
    let before := if l.full then s.readersBefore cx k w else []
    c.setLine p { l with full := l.full && before ≠ [], before := before }) c

/-- Whether a chained read of a window line may take place (R250, rule 1). -/
def State.lineReady (s : State) (cx : Nat) (k : Cmd) (w : Nat) : Bool :=
  let c := s.ctx cx
  ((s.core (s.home cx)).line (s.winLine cx w)).full &&
    !(c.posted.any fun j => decide (j.ord < k.ord) && (chainedLines j.writes).contains w) &&
    !(c.active.any fun a => decide (a.cmd.ord < k.ord) && (chainedLines a.cmd.writes).contains w &&
        !a.writ.contains w)

/-- Whether a chained write of a window line may take place (R250, rule 2). -/
def State.lineFree (s : State) (cx w : Nat) : Bool := !((s.core (s.home cx)).line (s.winLine cx w)).full

/-- A command has written every byte of a window line (R250, rule 3). -/
def State.fillWin (s : State) (cx : Nat) (q : Queue) (num w : Nat) : State :=
  (s.modCore (s.home cx) fun c => c.fillLine (s.winLine cx w)).modActive cx q num fun a =>
    { a with writ := w :: a.writ }

/-- The words of a window line that a mask does not name, written as zero with a poison mark. -/
def State.poisonWords (s : State) (cx w : Nat) (kept : Word32) : State :=
  s.modCore (s.home cx) fun c => (List.range 32).foldl (fun c j =>
    if kept.getLsbD j then c else c.setWord (32 * s.winLine cx w + j) ⟨0, true⟩) c

/-! ### The end of a KRUN (R151, R152, R201) -/

/-- cr.KSTATUS with lane flags ORed into it (R27, R195). -/
def State.kflags (s : State) (cx : Nat) (f : SMap Byte) : State :=
  s.modCtx cx fun c => c.setKstatus 0 ((allFlags f).zeroExtend 64)

/-- A KRUN that has ended completes once its waits under R248 have ended and every line of its
chained-out bindings is filled: a line that nothing was pushed to is filled with poisoned zeros as soon
as it may be written (R201). -/
def State.closeKrun (s : State) (cx num : Nat) : State :=
  match s.findActive cx .krn num with
  | none => s
  | some a => if s.mustWait cx a.cmd then s else
    let s := if a.started then s
      else (s.emptyLines cx a.cmd).modActive cx .krn num fun b => { b with started := true }
    let open_ := (chainedLines a.cmd.writes).filter fun w => !a.writ.contains w
    let s := (open_.filter (s.lineFree cx)).foldl (fun s w =>
      (s.poisonWords cx w 0).fillWin cx .krn num w) s
    if open_.all (fun w => ((s.findActive cx .krn num).map (fun b => b.writ.contains w)).getD false) then
      let (st, sub, va) := a.fail.getD (0, 0, 0)
      s.finish cx a.cmd { status := st, sub := sub, done := if st = 0 then 1 else 0, total := 1,
                          aux := a.aux, va := va }
    else s

/-- A KRUN is to complete with a status, sub-cause and aux. -/
def State.endKrun (s : State) (cx num st sub aux : Nat) (va : Word) : State :=
  (s.modActive cx .krn num fun a =>
    { a with ended := true, running := false, fail := some (st, sub, va), aux := aux }).closeKrun cx num

/-- A kernel ends: its lane flags reach cr.KSTATUS, the lines it has begun to push are completed, the words
that it did not write as poisoned zeros, nobody waits any more for an entry of its code fetch, and its KRUN
completes (R151, R152, R201). -/
def State.endKernel (s : State) (k : Kernel) (st sub aux : Nat) (va : Word) : State :=
  let s := s.kflags k.cx k.flags
  let out := ((s.findActive k.cx .krn k.num).map (fun a => chainedLines a.cmd.writes)).getD []
  let s := (k.pushed.filter (fun p => p.2 ≠ -1 && out.contains p.1)).foldl (fun s p =>
    (s.poisonWords k.cx p.1 (smGet 0 k.wrote p.1)).fillWin k.cx .krn k.num p.1) s
  let s := { s with faults := (s.faults.filter fun (e : FaultEntry) => e.who ≠ Who.kcode k.cx k.num || e.answer.isNone).map fun (e : FaultEntry) =>
      if e.who = Who.kcode k.cx k.num then { e with who := .nobody } else e }
  s.endKrun k.cx k.num st sub aux va

/-- A held kernel ends by its trap: status 5 with the trap's cause; aux is KTRAP's code (R152). The record's
fault VA is 0, as for every failed KRUN and matrix command, which have no unit address (DESIGN CHOICE, log
134). -/
def State.endHeld (s : State) (k : Kernel) : State :=
  s.endKernel k 5 k.cause (if k.cause = 7 then k.code else 0) 0

/-- A queued KRUN is taken from its queue so that it may be cancelled (R153). -/
def State.takeKrun (s : State) (cx : Nat) (k : Cmd) : State :=
  (s.modCtx cx fun c => { c with
    posted := c.posted.filter (fun j => j.queue ≠ k.queue || j.num ≠ k.num),
    active := c.active ++ [{ cmd := k, ord := k.ord }] })

end Sys2Proof.Machine
end

