-- ==== Sys2Proof/Machine/Sync.lean ====
section
/-!
DEFINITION. Semaphores, mailboxes, milestones and waymarks of the control set (R162 to R166), and the
service of semaphore waiters (R164, R285).
-/

namespace Sys2Proof.Machine

open Sys2Proof

/-! ### Semaphores (R163) -/

/-- The semaphore that a SEM instruction names, or its trap: SEM-FORMAT is cause 12. -/
def semTarget (s : State) (cx : Nat) (a : BitVec 5) (i : BitVec 6) (g : BitVec 1) : SlotOut ⊕ SemAt :=
  if g = 0 then .inr (.here (s.home cx) i.toNat)
  else
    let x := s.rdX cx a
    if 2 ^ 16 ≤ x.toNat then .inl (.trap 12 0 0 0)
    else match semAddr s (s.ctx cx).part x.toNat with
      | none => .inl (.trap 12 0 0 0)
      | some t => .inr t

/-- The smallest scope that holds a semaphore (R163, R290). -/
def semScope (s : State) (cx : Nat) : SemAt → Scope
  | .here g _ => if g = s.home cx then .core else if dieOf g = dieOf (s.home cx) then .die else .pkg
  | .there _ => .domain

/-- The request that carries an operation to a semaphore of another package, after the context's earlier
operations there (R306). -/
def semReq (t : State) (cx : Nat) (op : SemOp) (d : BitVec 5) (addr : Nat) (v : Word32) : State :=
  let mine := t.reqs.filter fun r => r.cx = cx && r.served.isNone && (match r.op with
    | .sem _ _ a _ => a = addr
    | _ => false)
  t.addReq (newReq t cx (.sem op d.toNat addr v) 0 false ((addr / 2 ^ 13) * 2 ^ 48) (mine.map Req.id) 0)

/-- A semaphore operation: the poison of its registers, its address, then its own part. A release
first waits for the accesses that it covers (R296; log 10). At another package's semaphore a task acquires what it does
not own and releases what it owns (R163); the request goes there, and while a wait or an acquisition stands the context
waits. -/
def semSlot (op : SemOp) (regs : List (BitVec 5)) (d a : BitVec 5) (i : BitVec 6) (g : BitVec 1)
    (v : Nat → State → Word32) (here : Nat → Nat → Nat → Word32 → State → SlotOut) : Slot :=
  ⟨d :: regs, fun cx s =>
    if regs.any (s.tagX cx) then .trap 7 0 0 0
    else match semTarget s cx a i g with
      | .inl o => o
      | .inr at_ =>
        if (op = .rel || op = .post) && (s.covered cx (semScope s cx at_)).any s.outstanding then .wait
        else match at_ with
          | .here k j => here cx k j (v cx s) s
          | .there ad =>
            let owns := (s.ctx cx).semOwn.contains ad
            if op = .wait && (v cx s).toInt < 0 then .trap 12 0 0 0
            else if (op = .acq && owns) || (op = .rel && !owns) then .trap 12 0 0 0
            else .go fun t =>
              let u := semReq t cx op d ad (v cx s)
              if op = .rel then u.modCtx cx fun c => { c with semOwn := c.semOwn.filter (· ≠ ad) } else u⟩

/-- The value register of a semaphore operation as i32. -/
def semValue (b : BitVec 5) (cx : Nat) (s : State) : Word32 := (s.rdX cx b).setWidth 32

/-- A waiting operation at a file of this package: it performs when its amount is reserved for it, or
is free and no waiter stands before it, nor one that the free amount already covers (Table 12.4); else its task
joins the queue and blocks (R163, R164). -/
def semTake (own : Bool) (d : BitVec 5) (cx k j : Nat) (v : Word32) (s : State) : SlotOut :=
  let m := (s.core k).sem j
  let me := (s.ctx cx).task
  let mine := m.waiters.find? (fun w => w.who = me)
  let held := (mine.map Waiter.reserved).getD false
  let first := (s.nextWaiter m).all fun w => w.who = me ||
    (mine.isNone && decide (s.effPrio cx < s.waiterPrio w) && decide (m.free < w.amount))
  if v.toInt < 0 then .trap 12 0 0 0
  else if own && m.owner = some me then .trap 12 0 0 0
  else if held || (first && decide (v.toInt ≤ m.free)) then
    .go fun t =>
      let n := (t.core k).sem j
      let n := { n with val := n.val - v, waiters := n.waiters.filter (fun w => w.who ≠ me),
                        owner := if own then some me else n.owner,
                        ownPrio := if own then t.effPrio cx else n.ownPrio }
      (t.modCore k fun c => c.setSem j n).wrX cx d (n.val.signExtend 64) false
  else
    .enqueue (.sem k j) fun t =>
      if mine.isSome then t
      else t.modCore k fun c =>
        let n := c.sem j
        let w : Waiter := { who := me, amount := v.toInt, acq := own, prio := t.effPrio cx,
                            arrival := n.waiters.foldl (fun x w => max x (w.arrival + 1)) 0,
                            reserved := false }
        c.setSem j { n with waiters := n.waiters ++ [w] }

/-- SEM_ADD (R163). -/
def slotSemAdd (d : BitVec 5) (a : BitVec 5) (b : BitVec 5) (i : BitVec 6) (g : BitVec 1) : Slot := semSlot .add [a, b] d a i g (semValue b) fun cx k j v s =>
    .go fun t => (t.semBump k j v).wrX cx d (((s.core k).sem j).val.signExtend 64) false

/-- SEM_ADD in a bundle of its own. -/
def execSemAdd (d : BitVec 5) (a : BitVec 5) (b : BitVec 5) (i : BitVec 6) (g : BitVec 1) (σ : State) : Res := .next (runSlot 0 (slotSemAdd d a b i g) σ)

/-- SEM_WAIT (R163). -/
def slotSemWait (d : BitVec 5) (a : BitVec 5) (b : BitVec 5) (i : BitVec 6) (g : BitVec 1) : Slot := semSlot .wait [a, b] d a i g (semValue b) (semTake false d)

/-- SEM_WAIT in a bundle of its own. -/
def execSemWait (d : BitVec 5) (a : BitVec 5) (b : BitVec 5) (i : BitVec 6) (g : BitVec 1) (σ : State) : Res := .next (runSlot 0 (slotSemWait d a b i g) σ)

/-- SEM_ACQ (R163). -/
def slotSemAcq (d : BitVec 5) (a : BitVec 5) (i : BitVec 6) (g : BitVec 1) : Slot := semSlot .acq [a] d a i g (fun _ _ => 1) (semTake true d)

/-- SEM_ACQ in a bundle of its own. -/
def execSemAcq (d : BitVec 5) (a : BitVec 5) (i : BitVec 6) (g : BitVec 1) (σ : State) : Res := .next (runSlot 0 (slotSemAcq d a i g) σ)

/-- SEM.REL: only the owner may; it clears the ownership (R163). -/
def slotSemRel (a : BitVec 5) (i : BitVec 6) (g : BitVec 1) : Slot := semSlot .rel [a] 0 a i g (fun _ _ => 1) fun cx k j _ s =>
    if ((s.core k).sem j).owner = some (s.ctx cx).task then
      .go fun t => t.semRelease k j
    else .trap 12 0 0 0

/-- SEM_REL in a bundle of its own. -/
def execSemRel (a : BitVec 5) (i : BitVec 6) (g : BitVec 1) (σ : State) : Res := .next (runSlot 0 (slotSemRel a i g) σ)

/-- SEM_POST (R163). -/
def slotSemPost (a : BitVec 5) (b : BitVec 5) (i : BitVec 6) (g : BitVec 1) : Slot := semSlot .post [a, b] 0 a i g (semValue b) fun _ k j v _ =>
    .go fun t => t.semBump k j v

/-- SEM_POST in a bundle of its own. -/
def execSemPost (a : BitVec 5) (b : BitVec 5) (i : BitVec 6) (g : BitVec 1) (σ : State) : Res := .next (runSlot 0 (slotSemPost a b i g) σ)

/-- SEM_READ (R163). -/
def slotSemRead (d : BitVec 5) (a : BitVec 5) (b : BitVec 5) (i : BitVec 6) (g : BitVec 1) : Slot := semSlot .read [a] d a i g (fun _ _ => 0) fun cx k j _ s =>
    .go fun t => t.wrX cx d (((s.core k).sem j).val.signExtend 64) false

/-- SEM_READ in a bundle of its own. -/
def execSemRead (d : BitVec 5) (a : BitVec 5) (b : BitVec 5) (i : BitVec 6) (g : BitVec 1) (σ : State) : Res := .next (runSlot 0 (slotSemRead d a b i g) σ)

/-- SEM_WAITER_SERVED (R164): a satisfied semaphore serves its next waiter; additions and releases serve the
waiters that they satisfy themselves, so that this one is left where a waiter before it has gone. -/
def execSemWaiterServed (core sem : Nat) (s : State) : Res :=
  .next (s.semServe core sem)

/-! ### Mailboxes (R165) -/

def Ctx.mb (c : Ctx) (m : Nat) : Mbox := smGet {} c.mbox m
def Ctx.setMb (c : Ctx) (m : Nat) (b : Mbox) : Ctx := { c with mbox := smPut {} c.mbox m b }

/-- The CP uses a mailbox in an ac: the kernel's operation comes first in it, so none follows there (R31). -/
def Ctx.cpUsed (c : Ctx) (m : Nat) : Ctx := { c with mbCp := m :: c.mbCp.filter (· ≠ m) }

/-- MB_RD (R165). -/
def slotMbRd (d : BitVec 5) (m : BitVec 4) : Slot :=
  ⟨[d], fun cx s =>
    let b := (s.ctx cx).mb m.toNat
    if b.full then .go fun t =>
      (t.modCtx cx fun c => (c.setMb m.toNat { b with full := false }).cpUsed m.toNat).wrX cx d b.val false
    else .block (.mailbox m.toNat true)⟩

/-- MB_RD in a bundle of its own. -/
def execMbRd (d : BitVec 5) (m : BitVec 4) (σ : State) : Res := .next (runSlot 0 (slotMbRd d m) σ)

/-- MB_WR (R165). -/
def slotMbWr (a : BitVec 5) (m : BitVec 4) : Slot :=
  ⟨[a], fun cx s =>
    if s.tagX cx a then .trap 7 0 0 0
    else if ((s.ctx cx).mb m.toNat).full then .block (.mailbox m.toNat false)
    else .go fun t => t.modCtx cx fun c => (c.setMb m.toNat ⟨s.rdX cx a, true⟩).cpUsed m.toNat⟩

/-- MB_WR in a bundle of its own. -/
def execMbWr (a : BitVec 5) (m : BitVec 4) (σ : State) : Res := .next (runSlot 0 (slotMbWr a m) σ)

/-- MB_PROBE (R165). -/
def slotMbProbe (d : BitVec 5) (a : BitVec 5) (b : BitVec 5) (m : BitVec 4) : Slot :=
  ⟨[d], fun cx s => .go fun t =>
    (t.modCtx cx fun c => c.cpUsed m.toNat).wrX cx d (boolW ((s.ctx cx).mb m.toNat).full) false⟩

/-- MB_PROBE in a bundle of its own. -/
def execMbProbe (d : BitVec 5) (a : BitVec 5) (b : BitVec 5) (m : BitVec 4) (σ : State) : Res := .next (runSlot 0 (slotMbProbe d a b m) σ)

/-! ### Milestones (R166) -/

/-- MILE_WAIT (R166). -/
def slotMileWait (a : BitVec 5) (q : BitVec 3) : Slot :=
  ⟨[a], fun cx s =>
    let k := queueOf q.toNat
    if s.tagX cx a then .trap 7 0 0 0
    else if (s.rdX cx a).toNat ≤ ((s.ctx cx).mile k).counter then .go id
    else .block (.milestone k (s.rdX cx a).toNat)⟩

/-- MILE_WAIT in a bundle of its own. -/
def execMileWait (a : BitVec 5) (q : BitVec 3) (σ : State) : Res := .next (runSlot 0 (slotMileWait a q) σ)

/-- MILE_READ (R166). -/
def slotMileRead (d : BitVec 5) (q : BitVec 3) : Slot :=
  ⟨[d], fun cx s => .go fun t =>
    t.wrX cx d (BitVec.ofNat 64 ((s.ctx cx).mile (queueOf q.toNat)).counter) false⟩

/-- MILE_READ in a bundle of its own. -/
def execMileRead (d : BitVec 5) (q : BitVec 3) (σ : State) : Res := .next (runSlot 0 (slotMileRead d q) σ)

/-- MILE_ARM (R166). -/
def slotMileArm (a : BitVec 5) (q : BitVec 3) : Slot :=
  ⟨[a], fun cx s =>
    if s.tagX cx a then .trap 7 0 0 0
    else .go fun t => t.modCtx cx fun c => { c with armed := some (queueOf q.toNat, s.rdX cx a) }⟩

/-- MILE_ARM in a bundle of its own. -/
def execMileArm (a : BitVec 5) (q : BitVec 3) (σ : State) : Res := .next (runSlot 0 (slotMileArm a q) σ)

/-- MILE_DISARM (R166). -/
def slotMileDisarm : Slot := ⟨[], fun cx _ => .go fun t => t.modCtx cx fun c => { c with armed := none }⟩

/-- MILE_DISARM in a bundle of its own. -/
def execMileDisarm (σ : State) : Res := .next (runSlot 0 slotMileDisarm σ)

/-! ### Waymarks (R162, R286) -/

/-- WAYMARK (R162). -/
def slotWaymark (d : BitVec 5) (i : BitVec 8) (s : BitVec 3) : Slot :=
  ⟨[d], fun cx t =>
    match t.postBlock cx .rem false with
    | some y => .block y
    | none => .go fun u =>
      let sc := if s = 7 then none else some (scopeOf s)
      u.post cx .rem d (.waymark i.toNat sc ((sc.map (u.covered cx)).getD [])) none [] [] false⟩

/-- WAYMARK in a bundle of its own. -/
def execWaymark (d : BitVec 5) (i : BitVec 8) (s : BitVec 3) (σ : State) : Res := .next (runSlot 0 (slotWaymark d i s) σ)

end Sys2Proof.Machine
end

