-- ==== Sys2Proof/Machine/Post.lean ====
section
/-!
DEFINITION. The engine commands as they are posted (R139 to R158): their records, ranges and checks.
What the engines then do stands in Streams, KernelSeq, Plane and Tree.
-/

namespace Sys2Proof.Machine

open Sys2Proof

/-- What a command posts once its checks have passed. -/
structure Posting where
  kind   : CmdKind
  reads  : List Range := []
  writes : List Range := []
  board  : Bool := true
  /-- what its checks leave behind: the translation of an entry that it has read (R313) -/
  left   : State → State := id

/-- An address that a command uses, the alignment that it needs, and, for a record in local memory, the
bytes that must lie within the local extent (R107, R139). -/
structure Need where
  addr  : Word
  align : Nat
  size  : Option Nat := none

/-- A record in local memory, aligned to its size. -/
def Need.record (a : Word) (n : Nat) : Need := ⟨a, n, some n⟩

/-- The checks of R107 on the addresses that a command uses: every alignment, then every extent. -/
def needStop (s : State) (cx : Nat) (ns : List Need) : Option SlotOut :=
  match ns.find? fun n => n.addr.toNat % n.align ≠ 0 with
  | some n => some (.trap 8 0 0 n.addr)
  | none => (ns.find? fun n => n.size.any fun z => decide ((s.ctx cx).locBytes < n.addr.toNat + z)).map fun n =>
      .trap 5 1 0 n.addr

/-- STREAM-FAULT with sub-cause bounds, and with sub-cause format (Table 16.3). -/
def boundsFault : SlotOut := .trap 15 1 0 0
def formatFault : SlotOut := .trap 15 2 0 0

/-- A declared range lies below the footprint (R26, R149). -/
def rangesFit (s : State) (cx : Nat) (rs : List Range) : Bool :=
  rs.all fun r => r.len = 0 || decide (r.lo + r.len ≤ (s.ctx cx).winBytes)

/-- The local offset of the completion record that a register names; the field x0 names none (R141). -/
def recordAt (s : State) (cx : Nat) (rec_ : Option (BitVec 5)) : Option Nat :=
  rec_.bind fun r => if r = 0 then none else some (s.rdX cx r).toNat

/-- An engine command: poison of its registers, alignment and extent of the addresses and records that it
uses, the completion record's last, its own checks, the bounds of its ranges, and room (R107, R139 to
R141). -/
def engineSlot (d : BitVec 5) (regs : List (BitVec 5)) (rec_ : Option (BitVec 5)) (q : Queue)
    (needs : Nat → State → List Need) (mk : Nat → State → SlotOut ⊕ Posting) : Slot :=
  ⟨d :: (rec_.toList ++ regs), fun cx s =>
    if (rec_.toList ++ regs).any (s.tagX cx) then .trap 7 0 0 0
    else
      let off := recordAt s cx rec_
      match needStop s cx (needs cx s ++ off.toList.map fun o => Need.record (BitVec.ofNat 64 o) 32) with
      | some o => o
      | none => match mk cx s with
        | .inl o => o
        | .inr p =>
          if !rangesFit s cx (p.reads ++ p.writes) then boundsFault
          else match s.postBlock cx q p.board with
            | some y => .block y
            | none => .go fun t => (p.left t).post cx q d p.kind off p.reads p.writes p.board⟩

/-- A command whose record stands at the local offset in a register. -/
def oneRecord (a : BitVec 5) (n : Nat) (cx : Nat) (s : State) : List Need := [Need.record (s.rdX cx a) n]

/-- A command whose register holds an address of some alignment. -/
def oneAddress (a : BitVec 5) (n : Nat) (cx : Nat) (s : State) : List Need := [⟨s.rdX cx a, n, none⟩]

/-- A command that uses no address at posting. -/
def noNeeds (_ : Nat) (_ : State) : List Need := []

/-! ### SBIND (R143) -/

def dirOf (r : BitVec 3) : Dir :=
  match r.toNat with
  | 0 => .inp | 1 => .out | 2 => .chainIn | 3 => .chainOut | _ => .circ

def Dir.chained : Dir → Bool
  | .chainIn | .chainOut => true
  | _ => false

def Dir.writes : Dir → Bool
  | .out | .chainOut => true
  | _ => false

/-- The rules of a binding (R143). -/
def bindOk (b : Binding) (map : BitVec 1) : Bool :=
  b.base % (if b.dir.chained then 128 else 4) = 0 && b.len ≠ 0 &&
  (if map = 0 then b.words = 0 && b.len % 512 = 0
   else decide (1 ≤ b.words) && decide (b.words ≤ 4096) && b.len % (512 * b.words) = 0 && b.dir ≠ .circ)

/-- SBIND (R143). -/
def slotSbind (a : BitVec 5) (b : BitVec 5) (s : BitVec 4) (r : BitVec 3) (m : BitVec 1) : Slot :=
  ⟨[a, b], fun cx t =>
    let x := t.rdX cx a
    let y := t.rdX cx b
    let k : Binding := ⟨x.toNat % 2 ^ 32, y.toNat % 2 ^ 32, dirOf r, y.toNat / 2 ^ 32 % 2 ^ 16⟩
    if t.tagX cx a || t.tagX cx b then .trap 7 0 0 0
    else if (t.ctx cx).winBytes < k.base + k.len then boundsFault
    else if !bindOk k m then formatFault
    else .go fun u => u.modCtx cx fun c => { c with binds := smPut none c.binds s.toNat (some k) }⟩

/-- SBIND in a bundle of its own. -/
def execSbind (a : BitVec 5) (b : BitVec 5) (s : BitVec 4) (r : BitVec 3) (m : BitVec 1) (σ : State) : Res := .next (runSlot 0 (slotSbind a b s r m) σ)

/-! ### Stream descriptors (R144, R145) -/

/-- Element sizes of a kind's type code (Table 5.5); none: not a type of the kind. -/
def typeBytes (kind ty : Nat) : Option Nat :=
  match kind with
  | 0 => if ty < 4 then some (2 ^ ty) else none
  | 1 => if ty = 8 then some 4 else if ty = 9 ∨ ty = 10 then some 2
         else if ty = 11 ∨ ty = 12 then some 1 else none
  | 3 => if ty = 13 ∨ ty = 15 then some 4 else if ty = 14 then some 8 else none
  | 4 => if ty = 0 then some 32 else none
  | _ => none

/-- The bytes of an element in memory, and in the SRF. -/
def Desc.memBytes (d : Desc) : Nat := (typeBytes (if d.kind = 2 then 1 else d.kind) d.mty).getD 1
def Desc.srfBytes (d : Desc) : Nat := (typeBytes d.kind d.sty).getD 1

/-- A count that is unused stands for 1 (R145). -/
def Desc.count (d : Desc) (i : Nat) : Nat := if i < d.dims then d.counts.getD i 1 else 1

/-- The number of elements, and of dimension-0 runs. -/
def Desc.runs (d : Desc) : Nat := d.count 1 * d.count 2 * d.count 3
def Desc.total (d : Desc) : Nat := d.count 0 * d.runs

/-- The bytes of the planes of a plane tensor, and its exponent vector (R56, R145). -/
def Desc.planeBytes (d : Desc) : Nat :=
  (d.runs + 63) / 64 * ((d.count 0 + 255) / 256) * d.gauge * 2048
def Desc.expBytes (d : Desc) : Nat := (d.runs + 63) / 64 * 64

/-- The SRF bytes that a transfer produces or consumes (R145). -/
def Desc.span (d : Desc) : Nat :=
  if d.kind = 2 then d.planeBytes + d.expBytes else d.total * d.srfBytes

/-- The descriptor in 64 bytes (Table 5.4). -/
def descOf (bs : List Byte) : Desc :=
  let f := field bs 16 2
  let g := field bs 18 2
  { va := BitVec.ofNat 64 (field bs 0 8), srf := field bs 8 4, srfLen := field bs 12 4,
    kind := f / 2 ^ 12, mty := f / 2 ^ 8 % 16, sty := f / 2 ^ 4 % 16,
    chained := g % 2 = 1, p2z := g / 2 % 2 = 1, ws := g / 4 % 2 = 1, sat := g / 8 % 2 = 1,
    signS := g / 16 % 2 = 1, dims := field bs 20 1, gauge := field bs 21 1,
    counts := [field bs 24 4, field bs 28 4, field bs 32 4, field bs 36 4],
    strides := [sxt 64 (field bs 40 8), sxt 64 (field bs 48 8), sxt 64 (field bs 56 8)] }

/-- The transfers that take descriptors. -/
inductive Xfer where
  | load | gather | store | scatter (op : Option RedOp) | pair
  deriving DecidableEq, Repr

/-- The kind and type codes that a command takes (Tables 5.5, 5.6). -/
def Desc.typesOk (d : Desc) (x : Xfer) : Bool :=
  match d.kind with
  | 0 => d.mty = d.sty && decide (d.mty < 4) &&
         (match x with
          | .scatter (some _) => false
          | .pair => d.mty = 3
          | _ => true)
  | 1 => (typeBytes 1 d.mty).isSome && (typeBytes 1 d.sty).isSome &&
         (match x with
          | .scatter none => true
          | .scatter (some .addF32) => d.mty = 8 && d.sty = 8
          | .scatter _ => false
          | .pair => false
          | _ => true)
  | 2 => (d.mty = 8 || d.mty = 9 || d.mty = 10) && d.sty = 0 && (x = .load || x = .gather)
  | 3 => d.mty = d.sty &&
         (match x with
          | .scatter (some .addI32) => d.mty = 13
          | .scatter (some .addI64) => d.mty = 14
          | .scatter (some .addN32) => d.mty = 15
          | _ => false)
  | 4 => d.mty = 0 && d.sty = 0 && x = .scatter (some .addXa256)
  | _ => false

/-- The smallest weight-store offset that a descriptor reaches, before it wraps (R145). -/
def Desc.wsLow (d : Desc) (va : Word) : Int :=
  (va.toNat : Int) + ((List.range 3).map fun i => ((d.count (i + 1) : Int) - 1) * min 0 (d.strides.getD i 0)).sum

/-- The largest weight-store offset that a descriptor reaches from a base, plus one. -/
def Desc.wsTop (d : Desc) (va : Word) : Int :=
  (va.toNat : Int) + d.count 0 * d.memBytes +
    ((List.range 3).map fun i => ((d.count (i + 1) : Int) - 1) * max 0 (d.strides.getD i 0)).sum

/-- The rules of a descriptor (R144 to R147, R258). -/
def Desc.ok (d : Desc) (bs : List Byte) (x : Xfer) : Bool :=
  let g := field bs 18 2
  d.srf % 128 = 0 && d.srfLen % 128 = 0 && d.srfLen ≠ 0 &&
  field bs 16 2 % 16 = 0 && decide (g < 32) && field bs 22 2 = 0 &&
  (!d.p2z || x = .load || x = .gather) &&
  (!d.ws || x = .load || x = .gather || x = .store) &&
  decide (1 ≤ d.dims) && decide (d.dims ≤ 4) &&
  (if d.kind = 2 then decide (1 ≤ d.gauge) && decide (d.gauge ≤ 16) && decide (d.count 0 ≤ 16384)
   else d.gauge = 0) &&
  (List.range 4).all (fun i => (d.counts.getD i 0 ≠ 0) == decide (i < d.dims)) &&
  (List.range 3).all (fun i => decide (i + 1 < d.dims) || d.strides.getD i 0 = 0) &&
  d.typesOk x &&
  (match x with
   | .gather | .scatter _ => d.dims = 2 && decide (d.span ≤ d.srfLen)
   | .pair => d.dims = 1 && d.srfLen = 8192 * d.count 0 && d.va.toNat % 4096 = 0 && d.srf % 4096 = 0
   | _ => decide (d.span ≤ d.srfLen))

/-- The local list of destinations that an SSTORE reads: 8-byte entries, aligned to 8 (DESIGN CHOICE, log
126: whether its alignment is an entry's or the whole list's is not stated). -/
def destNeeds (c : BitVec 5) (n : BitVec 3) (cx : Nat) (s : State) : List Need :=
  if n = 0 then [] else [⟨s.rdX cx c, 8, some (8 * (n.toNat + 1))⟩]

/-- The destinations of an SSTORE: the descriptor's address, or a local list (R146). -/
def storeDests (s : State) (cx : Nat) (c : BitVec 5) (n : BitVec 3) (k : Desc) : List Word :=
  if n = 0 then [k.va]
  else
    let m := n.toNat + 1
    (List.range m).map fun i => BitVec.ofNat 64 (field (s.rdLocal cx (s.rdX cx c).toNat (8 * m)) (8 * i) 8)

/-- The descriptor at the local offset in a register, checked (R144, R145); `bases` gives the addresses at which it places
its elements: its own, or those of a list. -/
def readDesc (s : State) (cx : Nat) (a : BitVec 5) (x : Xfer) (bases : Desc → List Word) : SlotOut ⊕ Desc :=
  let bs := s.rdLocal cx (s.rdX cx a).toNat 64
  let d := descOf bs
  if !d.ok bs x then .inl formatFault
  else if d.ws && (bases d).any (fun va => decide (2 ^ 30 < d.wsTop va) || decide (d.wsLow va < 0)) then .inl boundsFault
  else .inr d

/-- Whether two byte ranges share a 128-byte line (R24). -/
def linesMeet (a n b m : Nat) : Bool :=
  n ≠ 0 && m ≠ 0 && decide (a / 128 ≤ (b + m - 1) / 128) && decide (b / 128 ≤ (a + n - 1) / 128)

/-- SLOAD (R144). -/
def slotSload (d : BitVec 5) (a : BitVec 5) (b : BitVec 5) : Slot := engineSlot d [a] (some b) .sld (oneRecord a 64) fun cx s =>
    match readDesc s cx a .load (fun k => [k.va]) with
    | .inl o => .inl o
    | .inr k => .inr { kind := .sload k, writes := [⟨k.srf, k.srfLen, k.chained⟩] }

/-- SLOAD in a bundle of its own. -/
def execSload (d : BitVec 5) (a : BitVec 5) (b : BitVec 5) (σ : State) : Res := .next (runSlot 0 (slotSload d a b) σ)

/-- SGATHER: an index list that meets its own write range is a format fault (R249). -/
def slotSgather (d : BitVec 5) (a : BitVec 5) (b : BitVec 5) (c : BitVec 5) : Slot := engineSlot d [a, c] (some b) .sld (oneRecord a 64) fun cx s =>
    match readDesc s cx a .gather (fun k => [k.va]) with
    | .inl o => .inl o
    | .inr k =>
      let x := (s.rdX cx c).toNat % 2 ^ 32
      if x % 4 ≠ 0 || linesMeet x (4 * k.count 1) k.srf k.srfLen then .inl formatFault
      else .inr { kind := .sgather k x, writes := [⟨k.srf, k.srfLen, k.chained⟩],
                  reads := [⟨x, 4 * k.count 1, k.chained⟩] }

/-- SGATHER in a bundle of its own. -/
def execSgather (d : BitVec 5) (a : BitVec 5) (b : BitVec 5) (c : BitVec 5) (σ : State) : Res := .next (runSlot 0 (slotSgather d a b c) σ)

/-- SSTORE (R146). -/
def slotSstore (d : BitVec 5) (a : BitVec 5) (b : BitVec 5) (c : BitVec 5) (n : BitVec 3) : Slot := engineSlot d [a, c] (some b) .sst
    (fun cx s => oneRecord a 64 cx s ++ destNeeds c n cx s) fun cx s =>
    match readDesc s cx a .store (storeDests s cx c n) with
    | .inl o => .inl o
    | .inr k => .inr { kind := .sstore k (storeDests s cx c n k), reads := [⟨k.srf, k.srfLen, k.chained⟩] }

/-- SSTORE in a bundle of its own. -/
def execSstore (d : BitVec 5) (a : BitVec 5) (b : BitVec 5) (c : BitVec 5) (n : BitVec 3) (σ : State) : Res := .next (runSlot 0 (slotSstore d a b c n) σ)

/-- An SSCATTER with its reduce op (R146). -/
def scatterSlot (op : Option RedOp) (d a b c : BitVec 5) : Slot :=
  engineSlot d [a, c] (some b) .sst (oneRecord a 64) fun cx s =>
    match readDesc s cx a (.scatter op) (fun k => [k.va]) with
    | .inl o => .inl o
    | .inr k =>
      let x := (s.rdX cx c).toNat % 2 ^ 32
      if x % 4 ≠ 0 then .inl formatFault
      else .inr { kind := .sscatter k x op,
                  reads := [⟨k.srf, k.srfLen, k.chained⟩, ⟨x, 4 * k.count 1, k.chained⟩] }

/-- SSCATTER (R146). -/
def slotSscatter (d : BitVec 5) (a : BitVec 5) (b : BitVec 5) (c : BitVec 5) : Slot := scatterSlot none d a b c

/-- SSCATTER in a bundle of its own. -/
def execSscatter (d : BitVec 5) (a : BitVec 5) (b : BitVec 5) (c : BitVec 5) (σ : State) : Res := .next (runSlot 0 (slotSscatter d a b c) σ)

/-- SSCATTER_ADD_I32 (R146). -/
def slotSscatterAddI32 (d : BitVec 5) (a : BitVec 5) (b : BitVec 5) (c : BitVec 5) : Slot := scatterSlot (some .addI32) d a b c

/-- SSCATTER_ADD_I32 in a bundle of its own. -/
def execSscatterAddI32 (d : BitVec 5) (a : BitVec 5) (b : BitVec 5) (c : BitVec 5) (σ : State) : Res := .next (runSlot 0 (slotSscatterAddI32 d a b c) σ)

/-- SSCATTER_ADD_N32 (R146). -/
def slotSscatterAddN32 (d : BitVec 5) (a : BitVec 5) (b : BitVec 5) (c : BitVec 5) : Slot := scatterSlot (some .addN32) d a b c

/-- SSCATTER_ADD_N32 in a bundle of its own. -/
def execSscatterAddN32 (d : BitVec 5) (a : BitVec 5) (b : BitVec 5) (c : BitVec 5) (σ : State) : Res := .next (runSlot 0 (slotSscatterAddN32 d a b c) σ)

/-- SSCATTER_ADD_I64 (R146). -/
def slotSscatterAddI64 (d : BitVec 5) (a : BitVec 5) (b : BitVec 5) (c : BitVec 5) : Slot := scatterSlot (some .addI64) d a b c

/-- SSCATTER_ADD_I64 in a bundle of its own. -/
def execSscatterAddI64 (d : BitVec 5) (a : BitVec 5) (b : BitVec 5) (c : BitVec 5) (σ : State) : Res := .next (runSlot 0 (slotSscatterAddI64 d a b c) σ)

/-- SSCATTER_ADD_XA256 (R146). -/
def slotSscatterAddXa256 (d : BitVec 5) (a : BitVec 5) (b : BitVec 5) (c : BitVec 5) : Slot := scatterSlot (some .addXa256) d a b c

/-- SSCATTER_ADD_XA256 in a bundle of its own. -/
def execSscatterAddXa256 (d : BitVec 5) (a : BitVec 5) (b : BitVec 5) (c : BitVec 5) (σ : State) : Res := .next (runSlot 0 (slotSscatterAddXa256 d a b c) σ)

/-- SSCATTER_ADD_F32 (R146). -/
def slotSscatterAddF32 (d : BitVec 5) (a : BitVec 5) (b : BitVec 5) (c : BitVec 5) : Slot := scatterSlot (some .addF32) d a b c

/-- SSCATTER_ADD_F32 in a bundle of its own. -/
def execSscatterAddF32 (d : BitVec 5) (a : BitVec 5) (b : BitVec 5) (c : BitVec 5) (σ : State) : Res := .next (runSlot 0 (slotSscatterAddF32 d a b c) σ)

/-- SPAIR (R146). -/
def slotSpair (d : BitVec 5) (a : BitVec 5) (b : BitVec 5) (c : BitVec 5) : Slot := engineSlot d [a, c] (some b) .sst (oneRecord a 64) fun cx s =>
    match readDesc s cx a .pair (fun k => [k.va]) with
    | .inl o => .inl o
    | .inr k =>
      if (s.rdX cx c).toNat % 4096 ≠ 0 then .inl formatFault
      else .inr { kind := .spair k (s.rdX cx c), reads := [⟨k.srf, k.srfLen, k.chained⟩] }

/-- SPAIR in a bundle of its own. -/
def execSpair (d : BitVec 5) (a : BitVec 5) (b : BitVec 5) (c : BitVec 5) (σ : State) : Res := .next (runSlot 0 (slotSpair d a b c) σ)

/-- The copy record in 32 bytes (Table 5.7). -/
def copyOf (bs : List Byte) : CopyRec :=
  { src := BitVec.ofNat 64 (field bs 0 8), dst := BitVec.ofNat 64 (field bs 8 8), bytes := field bs 16 4,
    kind := field bs 20 1, chained := field bs 21 1 % 2 = 1 }

/-- Whether a copy reads, and writes, the SRF. -/
def CopyRec.srcSrf (r : CopyRec) : Bool := r.kind = 1 || r.kind = 2
def CopyRec.dstSrf (r : CopyRec) : Bool := r.kind = 1 || r.kind = 3

/-- The rules of a copy record; a window offset is bits [31:0] (R148). -/
def CopyRec.ok (r : CopyRec) (bs : List Byte) : Bool :=
  r.bytes ≠ 0 && r.bytes % 128 = 0 && decide (r.kind < 4) && decide (field bs 21 1 < 2) &&
  field bs 22 8 = 0 && field bs 30 2 = 0 && r.src.toNat % 128 = 0 && r.dst.toNat % 128 = 0

/-- SCOPY (R148). -/
def slotScopy (d : BitVec 5) (a : BitVec 5) (b : BitVec 5) : Slot := engineSlot d [a] (some b) .sst (oneRecord a 32) fun cx s =>
    let bs := s.rdLocal cx (s.rdX cx a).toNat 32
    let r := copyOf bs
    if !r.ok bs then .inl formatFault
    else .inr { kind := .scopy r, board := r.kind ≠ 0,
                reads := if r.srcSrf then [⟨r.src.toNat % 2 ^ 32, r.bytes, r.chained⟩] else [],
                writes := if r.dstSrf then [⟨r.dst.toNat % 2 ^ 32, r.bytes, r.chained⟩] else [] }

/-- SCOPY in a bundle of its own. -/
def execScopy (d : BitVec 5) (a : BitVec 5) (b : BitVec 5) (σ : State) : Res := .next (runSlot 0 (slotScopy d a b) σ)

/-! ### Kernels (R150 to R153) -/

/-- The address of a kernel image or object in a kernel-table entry (R387). -/
def imageOf (e : Nat) : Word := (BitVec.ofNat 57 e).signExtend 64

/-- The ranges that a KRUN declares for its bindings (R151). -/
def bindRanges (wr : Bool) (bs : SMap (Option Binding)) : List Range :=
  bs.filterMap fun p => p.2.bind fun b =>
    if b.dir.writes = wr then some ⟨b.base, b.len, b.dir.chained⟩ else none

/-- Eight bytes at a translated address. -/
def State.rdEntry (s : State) (p : Tlb) (va : Word) : Nat :=
  let (h, a) := s.placeOf p va
  s.rdNum h a 8

/-- An access made at posting that has to wait for its translation: the context waits, and an exit from C3 that the walk
needs begins (R318, R396). -/
def waitWalk (cx : Nat) (va : Word) (w : Bool) : SlotOut :=
  .enqueue (.walk va) fun t => t.heard (t.xlateFor cx va (!w) w).2

/-- One whose place is under a pair's lock, or in a die in C3, whose exit it begins (R350, R396). -/
def waitPlace (va : Word) (host : Bool) (a : Nat) : SlotOut := .enqueue (.walk va) fun t => t.rouse host a

/-- A read of the context that fails its translation at posting: it parks the context with an entry, or,
refused before, traps (R150, R159). -/
def parkRead (s : State) (cx sub : Nat) (va : Word) (w : Bool) (who : Who) : SlotOut :=
  if s.faultRoom (dieOf (s.home cx)) then
    .enqueue (.fault s.nextFlt) fun t => t.addFault (some cx)
      { faultBase (dieOf (t.home cx)) va 5 sub 0 0 who with read := !w, write := w }
  else .block (.walk va)

/-- What reading an entry at posting leaves: its translation in the core's cache (R313), and its line checked (R393). -/
def State.entryRead (s : State) (cx : Nat) (va : Word) : State :=
  match s.xlateFor cx va true false with
  | (.hit p, t) => (t.rdPlace (t.placeOf p va).1 (t.placeOf p va).2 8).2
  | (_, t) => t

/-- KRUN (R150): the entry read waits for the accesses that R295 and R296 order before it. -/
def slotKrun (d : BitVec 5) (a : BitVec 5) (b : BitVec 5) : Slot := engineSlot d [a] (some b) .krn (oneAddress a 8) fun cx s =>
    let va := s.rdX cx a
    if (s.ctx cx).refused = some (.krun va) then .inl (.trap 5 3 0 va)
    else match (s.xlateFor cx va true false).1 with
      | .held => .inl (waitWalk cx va false)
      | .fault c => .inl (parkRead s cx c va false (.krun cx))
      | .hit p =>
        let (h, q) := s.placeOf p va
        if !(orderedAfter s cx h q 8).isEmpty || s.flagPending cx h q 8 then .inl .wait
        else if s.shut h q 8 then .inl (waitPlace va h q)
        else
          let e := s.rdEntry p va
          if e / 2 ^ 63 % 2 = 0 then .inl (.trap 10 0 0 0)
          else
            let bs := (s.ctx cx).binds
            .inr { kind := .krun (imageOf e) bs, reads := bindRanges false bs,
                   writes := bindRanges true bs, left := fun t => t.entryRead cx va }

/-- KRUN in a bundle of its own. -/
def execKrun (d : BitVec 5) (a : BitVec 5) (b : BitVec 5) (σ : State) : Res := .next (runSlot 0 (slotKrun d a b) σ)

/-- KCTL.ABORT: the context's KRUNs that have not started complete with status 1; a running kernel
is asked to stop (R153). A kernel that a trap holds, or that waits for the array to go on, is left as it is (DESIGN CHOICE,
log 151). -/
def slotKctlAbort : Slot :=
  ⟨[], fun cx _ => .go fun t =>
    let isK := fun k : Cmd => match k.kind with
      | .krun .. => true
      | _ => false
    let u := ((t.ctx cx).posted.filter isK).foldl (fun u k => u.takeKrun cx k) t
    let v := ((u.ctx cx).active.filter (fun a => isK a.cmd && !a.running && !a.ended)).foldl
      (fun v a => v.endKrun cx a.cmd.num 1 0 0 0) u
    v.modCore (v.home cx) fun g => { g with kern := g.kern.map fun k =>
      if k.cx = cx then { k with abort := true } else k }⟩

/-- KCTL_ABORT in a bundle of its own. -/
def execKctlAbort (σ : State) : Res := .next (runSlot 0 slotKctlAbort σ)

/-- KCTL_PREFETCH (R153). -/
def slotKctlPrefetch (d : BitVec 5) (a : BitVec 5) : Slot := engineSlot d [a] none .krn (oneAddress a 8) fun cx s =>
    .inr { kind := .prefetch (s.rdX cx a), board := false }

/-- KCTL_PREFETCH in a bundle of its own. -/
def execKctlPrefetch (d : BitVec 5) (a : BitVec 5) (σ : State) : Res := .next (runSlot 0 (slotKctlPrefetch d a) σ)

/-! ### Matrix commands (R154 to R156) -/

/-- The MAT number that a predecessor field names before number n; none: MATRIX-PRED (R155). -/
def resolvePred (n p : Nat) : Option Nat :=
  if n - 1 < p then none
  else
    let m := n - 1 - (n - 1 - p) % 4096
    if m = 0 then none else some m

/-- A range of a parameter block; a length of 0 declares nothing. -/
def blockRange (bs : List Byte) (off : Nat) : List Range :=
  if field bs (off + 4) 4 = 0 then [] else [⟨field bs off 4, field bs (off + 4) 4, false⟩]

/-- The predecessors that two fields name, if each resolves; 0xFFF names none. -/
def resolvePreds (n : Nat) : List Nat → Option (List Nat)
  | [] => some []
  | p :: ps =>
    if p = 0xFFF then resolvePreds n ps
    else match resolvePred n p, resolvePreds n ps with
      | some m, some ms => some (m :: ms)
      | _, _ => none

/-- MCALL (R154). -/
def slotMcall (d : BitVec 5) (a : BitVec 5) (b : BitVec 5) (c : BitVec 5) (n : BitVec 2) : Slot := engineSlot d [a, b] (some c) .mat (oneRecord a 64) fun cx s =>
    let bs := s.rdLocal cx (s.rdX cx a).toNat 64
    let x := (s.rdX cx b).toNat
    if (List.range 6).any (fun i => field bs (32 + 4 * i) 4 % 128 ≠ 0) || field bs 56 8 ≠ 0 then
      .inl formatFault
    else match resolvePreds (nextNum .mat ((s.ctx cx).mile .mat).posted)
        [x / 2 ^ 8 % 2 ^ 12, x / 2 ^ 20 % 2 ^ 12] with
      | none => .inl (.trap 16 0 0 0)
      | some ps =>
        let rs := blockRange bs 32 ++ blockRange bs 40
        let ws := blockRange bs 48
        .inr { kind := .matrix (x % 256) ((List.range 8).map fun i => BitVec.ofNat 32 (field bs (4 * i) 4))
                 rs ws ps n.toNat false,
               reads := rs, writes := ws, board := !(rs ++ ws).isEmpty }

/-- MCALL in a bundle of its own. -/
def execMcall (d : BitVec 5) (a : BitVec 5) (b : BitVec 5) (c : BitVec 5) (n : BitVec 2) (σ : State) : Res := .next (runSlot 0 (slotMcall d a b c n) σ)

/-- MROUT (R156). -/
def slotMrout (d : BitVec 5) (a : BitVec 5) (b : BitVec 5) : Slot := engineSlot d [a, b] none .mat (oneAddress a 8) fun cx s =>
    let x := (s.rdX cx b).toNat
    .inr { kind := .mrout (s.rdX cx a) (x % 256) (x / 2 ^ 8 % 2 ^ 12) (x / 2 ^ 20 % 2 ^ 12 + 1), board := false }

/-- MROUT in a bundle of its own. -/
def execMrout (d : BitVec 5) (a : BitVec 5) (b : BitVec 5) (σ : State) : Res := .next (runSlot 0 (slotMrout d a b) σ)

/-! ### The weight store (R157) -/

/-- LOAD and SEAL need privilege, or a partition that holds all 24 cores of the die. -/
def wsMay (s : State) (cx : Nat) : Bool :=
  (s.ctx cx).priv || (List.range 24).all fun k =>
    ((s.part (s.ctx cx).part).map (fun p => p.cores.contains (24 * dieOf (s.home cx) + k))).getD false

/-- A WSCTL that posts. -/
def wsSlot (d : BitVec 5) (k : CmdKind) : Slot :=
  engineSlot d [] none .sst noNeeds fun cx s =>
    if wsMay s cx then .inr { kind := k, board := false } else .inl (.trap 9 0 0 0)

/-- WSCTL_LOAD (R157). -/
def slotWsctlLoad (d : BitVec 5) : Slot := wsSlot d .wsLoad

/-- WSCTL_LOAD in a bundle of its own. -/
def execWsctlLoad (d : BitVec 5) (σ : State) : Res := .next (runSlot 0 (slotWsctlLoad d) σ)

/-- WSCTL_SEAL (R157). -/
def slotWsctlSeal (d : BitVec 5) : Slot := wsSlot d .wsSeal

/-- WSCTL_SEAL in a bundle of its own. -/
def execWsctlSeal (d : BitVec 5) (σ : State) : Res := .next (runSlot 0 (slotWsctlSeal d) σ)

/-- WSCTL_QUERY (R157). -/
def slotWsctlQuery (d : BitVec 5) : Slot :=
  ⟨[d], fun cx s => .go fun t => t.wrX cx d (match (s.die (dieOf (s.home cx))).ws with
    | .sealed => 0 | .draining => 1 | .loading => 2) false⟩

/-- WSCTL_QUERY in a bundle of its own. -/
def execWsctlQuery (d : BitVec 5) (σ : State) : Res := .next (runSlot 0 (slotWsctlQuery d) σ)

/-! ### Tree commands (R158) -/

/-- A tree command other than BIND: a count or an offset outside its limits declares nothing. -/
def treeSlot (d : BitVec 5) (regs : List (BitVec 5)) (fn : Nat) (sl : BitVec 2) (a b c : BitVec 5)
    (ranges : Nat → Nat → Bool × List Range × List Range) : Slot :=
  engineSlot d regs none .tre noNeeds fun cx s =>
    let x := s.rdX cx a
    let z := s.rdX cx c
    let (ok, rs, ws) := ranges x.toNat z.toNat
    .inr { kind := .tree fn sl.toNat x (s.rdX cx b) z, board := ok && !(rs ++ ws).isEmpty,
           reads := if ok then rs else [], writes := if ok then ws else [] }

/-- A number between 1 and a limit. -/
def within (n hi : Nat) : Bool := decide (1 ≤ n) && decide (n ≤ hi)

/-- TREE_BIND (R238). -/
def slotTreeBind (d : BitVec 5) (a : BitVec 5) (b : BitVec 5) (s : BitVec 2) : Slot := engineSlot d [a] (some b) .tre (oneAddress a 64) fun cx t =>
    .inr { kind := .tree 0 s.toNat (t.rdX cx a) 0 0, board := false }

/-- TREE_BIND in a bundle of its own. -/
def execTreeBind (d : BitVec 5) (a : BitVec 5) (b : BitVec 5) (s : BitVec 2) (σ : State) : Res := .next (runSlot 0 (slotTreeBind d a b s) σ)

/-- TREE_DESC (R239). -/
def slotTreeDesc (d : BitVec 5) (a : BitVec 5) (b : BitVec 5) (c : BitVec 5) (s : BitVec 2) : Slot := treeSlot d [a, b, c] 1 s a b c fun x n =>
    (x % 64 = 0 && within n 256, [], [⟨x, 64 * n, false⟩])

/-- TREE_DESC in a bundle of its own. -/
def execTreeDesc (d : BitVec 5) (a : BitVec 5) (b : BitVec 5) (c : BitVec 5) (s : BitVec 2) (σ : State) : Res := .next (runSlot 0 (slotTreeDesc d a b c s) σ)

/-- TREE_EXP (R240). -/
def slotTreeExp (d : BitVec 5) (a : BitVec 5) (b : BitVec 5) (c : BitVec 5) (s : BitVec 2) : Slot := treeSlot d [a, b, c] 2 s a b c fun x n =>
    (x % 64 = 0 && within (n % 2 ^ 16) 256, [⟨x, n / 2 ^ 16 % 2 ^ 32, false⟩], [])

/-- TREE_EXP in a bundle of its own. -/
def execTreeExp (d : BitVec 5) (a : BitVec 5) (b : BitVec 5) (c : BitVec 5) (s : BitVec 2) (σ : State) : Res := .next (runSlot 0 (slotTreeExp d a b c s) σ)

/-- TREE_BACK (R241). -/
def slotTreeBack (d : BitVec 5) (a : BitVec 5) (b : BitVec 5) (c : BitVec 5) (s : BitVec 2) : Slot := treeSlot d [a, b, c] 3 s a b c fun x n =>
    (x % 64 = 0 && within (n % 2 ^ 16) 256, [⟨x, n / 2 ^ 16 % 2 ^ 32, false⟩], [])

/-- TREE_BACK in a bundle of its own. -/
def execTreeBack (d : BitVec 5) (a : BitVec 5) (b : BitVec 5) (c : BitVec 5) (s : BitVec 2) (σ : State) : Res := .next (runSlot 0 (slotTreeBack d a b c s) σ)

/-- TREE_REROOT (R242). -/
def slotTreeReroot (d : BitVec 5) (a : BitVec 5) (b : BitVec 5) (s : BitVec 2) : Slot := treeSlot d [a, b] 4 s a b 0 fun _ _ => (true, [], [])

/-- TREE_REROOT in a bundle of its own. -/
def execTreeReroot (d : BitVec 5) (a : BitVec 5) (b : BitVec 5) (s : BitVec 2) (σ : State) : Res := .next (runSlot 0 (slotTreeReroot d a b s) σ)

/-- TREE_SWEEP (R365). -/
def slotTreeSweep (d : BitVec 5) (b : BitVec 5) (s : BitVec 2) : Slot := treeSlot d [b] 5 s 0 b 0 fun _ _ => (true, [], [])

/-- TREE_SWEEP in a bundle of its own. -/
def execTreeSweep (d : BitVec 5) (b : BitVec 5) (s : BitVec 2) (σ : State) : Res := .next (runSlot 0 (slotTreeSweep d b s) σ)

/-- TREE_PATH (R242). -/
def slotTreePath (d : BitVec 5) (a : BitVec 5) (b : BitVec 5) (c : BitVec 5) (s : BitVec 2) : Slot := treeSlot d [a, b, c] 6 s a b c fun x _ =>
    let o := x % 2 ^ 32
    let n := x / 2 ^ 32 % 2 ^ 16
    (o % 64 = 0 && n ≠ 0, [], [⟨o, alignUp (2 * n) 128, false⟩])

/-- TREE_PATH in a bundle of its own. -/
def execTreePath (d : BitVec 5) (a : BitVec 5) (b : BitVec 5) (c : BitVec 5) (s : BitVec 2) (σ : State) : Res := .next (runSlot 0 (slotTreePath d a b c s) σ)

/-- TREE_READ (R242). -/
def slotTreeRead (d : BitVec 5) (a : BitVec 5) (b : BitVec 5) (c : BitVec 5) (s : BitVec 2) : Slot := treeSlot d [a, b, c] 7 s a b c fun x z =>
    let n := z / 2 ^ 32 % 2 ^ 16
    (x % 64 = 0 && n ≠ 0, [], [⟨x, 32 * n, false⟩])

/-- TREE_READ in a bundle of its own. -/
def execTreeRead (d : BitVec 5) (a : BitVec 5) (b : BitVec 5) (c : BitVec 5) (s : BitVec 2) (σ : State) : Res := .next (runSlot 0 (slotTreeRead d a b c s) σ)

/-- TREE_FLUSH (R242). -/
def slotTreeFlush (d : BitVec 5) (b : BitVec 5) (s : BitVec 2) : Slot := treeSlot d [b] 8 s 0 b 0 fun _ _ => (true, [], [])

/-- TREE_FLUSH in a bundle of its own. -/
def execTreeFlush (d : BitVec 5) (b : BitVec 5) (s : BitVec 2) (σ : State) : Res := .next (runSlot 0 (slotTreeFlush d b s) σ)

/-! ### GATHERL (R136 to R138) -/

/-- Step j of an expansion: the command with the effect of SGATHER for its 256 indices, or its fault. Table
4.10 lists no fault for a chunk whose index list meets its destination, and none is raised (DESIGN CHOICE,
log 127). -/
def gatherChunk (s : State) (cx : Nat) (g : GatherSt) : SlotOut ⊕ Posting :=
  let rb := g.c.toNat % 2 ^ 16
  let n := g.c.toNat / 2 ^ 16 % 2 ^ 16
  let first := 256 * (g.step - 1)
  let m := Nat.min 256 (n - first)
  let dst := g.b.toNat / 2 ^ 32 + first * rb
  let idx := g.b.toNat % 2 ^ 32 + 4 * first
  let k : Desc := { va := g.a, srf := dst, srfLen := m * rb, kind := 0, mty := 3, sty := 3, chained := false,
                    p2z := false, ws := false, sat := false, signS := false, dims := 2, gauge := 0,
                    counts := [rb / 8, m, 0, 0], strides := [rb, 0, 0] }
  let p : Posting := { kind := .sgather k idx, writes := [⟨dst, m * rb, false⟩], reads := [⟨idx, 4 * m, false⟩] }
  if rangesFit s cx (p.reads ++ p.writes) then .inr p else .inl (.trap 15 1 g.step 0)

/-- The alignment of GATHERL's operands (Table 4.10). -/
def gatherAligned (x y z : Word) : Bool :=
  x.toNat % 128 = 0 && z.toNat % 2 ^ 16 % 128 = 0 && z.toNat % 2 ^ 16 ≠ 0 && y.toNat / 2 ^ 32 % 128 = 0 &&
    y.toNat % 2 ^ 32 % 4 = 0

/-- One step of GATHERL: step 0 checks the operands, each later step posts one command, and after the
last the PC advances (Table 4.10). A step that is not the last leaves the PC at the bundle. State held for
another address is discarded first (R138). MISALIGN gives xa as its address, and a chunk, for which GATHERL
names no record register, writes no completion record (DESIGN CHOICE, log 127). -/
def gatherStep (d a b c : BitVec 5) (cx : Nat) (s : State) : SlotOut :=
  let k := s.ctx cx
  match k.gather with
  | none =>
    let x := s.rdX cx a
    let y := s.rdX cx b
    let z := s.rdX cx c
    if s.tagX cx a || s.tagX cx b || s.tagX cx c then .trap 7 0 0 0
    else if !gatherAligned x y z then .trap 8 0 0 x
    else if z.toNat / 2 ^ 16 % 2 ^ 16 = 0 then
      .go fun t => t.wrX cx d (BitVec.ofNat 64 (k.mile .sld).posted) false
    else .flow (fun t => t.modCtx cx fun c => { c with gather := some ⟨k.pc, 1, x, y, z, d.toNat⟩ }) k.pc
  | some g =>
    if g.pc ≠ k.pc then .flow (fun t => t.modCtx cx fun c => { c with gather := none }) k.pc
    else match gatherChunk s cx g with
    | .inl o => o
    | .inr p =>
      match s.postBlock cx .sld true with
      | some y => .block y
      | none =>
        let last := decide (g.c.toNat / 2 ^ 16 % 2 ^ 16 ≤ 256 * g.step)
        .flow (fun t =>
          (t.post cx .sld (if last then d else 0) p.kind none p.reads p.writes true).modCtx cx fun c =>
            { c with gather := if last then none else some { g with step := g.step + 1 } })
          (if last then k.pc + 16 else k.pc)

/-- GATHERL (R137). -/
def slotGatherl (d : BitVec 5) (a : BitVec 5) (b : BitVec 5) (c : BitVec 5) : Slot := ⟨[d, a, b, c], gatherStep d a b c⟩

/-- GATHERL in a bundle of its own. -/
def execGatherl (d : BitVec 5) (a : BitVec 5) (b : BitVec 5) (c : BitVec 5) (σ : State) : Res := .next (runSlot 0 (slotGatherl d a b c) σ)

end Sys2Proof.Machine
end

