-- ==== Sys2Proof/Machine/KernelBase.lean ====
section
/-!
DEFINITION. The kernel array (R27 to R41, R192 to R195, R201, R330): lane registers, results in flight
and their landing, and the shapes in which an operation of a packet is evaluated.
-/

namespace Sys2Proof.Machine

open Sys2Proof

/-! ### Lane state (R27) -/

/-- A lane register. -/
def Kernel.vr (k : Kernel) (lane r : Nat) : LaneReg := smGet ⟨0, false⟩ k.v (128 * lane + r)
def Kernel.setVr (k : Kernel) (lane r : Nat) (x : LaneReg) : Kernel :=
  { k with v := smPut ⟨0, false⟩ k.v (128 * lane + r) x }

/-- A predicate; q0 reads 1. -/
def Kernel.qr (k : Kernel) (lane i : Nat) : Bool := i = 0 || smGet false k.q (8 * lane + i)

/-- A predicate written; a write of q0 is discarded. -/
def Kernel.setQr (k : Kernel) (lane i : Nat) (b : Bool) : Kernel :=
  if i = 0 then k else { k with q := smPut false k.q (8 * lane + i) b }

def Kernel.pr (k : Kernel) (i : Nat) : Word32 := smGet 0 k.p i
def Kernel.bind (k : Kernel) (n : Nat) : Option Binding := smGet none k.binds n
def Kernel.at_ (k : Kernel) (n : Nat) : Nat := smGet 0 k.pos n

/-- All lanes, and those in which a guard passes (R84, R168). -/
def allLanes : List Nat := List.range 128
def Kernel.lanes (k : Kernel) (g : BitVec 3) : List Nat := allLanes.filter fun l => k.qr l g.toNat

/-- The cluster of a lane (R5). -/
def clusterOf (lane : Nat) : Nat := lane / 16

/-- Whether the sequencer is at a packet boundary from which it goes on. -/
def Kernel.ready (k : Kernel) : Bool := k.idle = 0 && !k.ended && !k.abort && !k.freeze

/-! ### Accumulator storage (R33, R207, R340) -/

/-- The physical slot of a declared one. -/
def Ctx.slotOf (c : Ctx) (k : Nat) : Nat := c.slots.getD k 0

/-- I64 entry 64 i + j of a physical slot. -/
def CoreSt.entry (c : CoreSt) (cl p e : Nat) : Word := smGet 0 c.acc ((8 * cl + p) * 4096 + e)
def CoreSt.setEntry (c : CoreSt) (cl p e : Nat) (v : Word) : CoreSt :=
  { c with acc := smPut 0 c.acc ((8 * cl + p) * 4096 + e) v }

/-- An exponent field: 0-63 rows, 64-127 columns. -/
def CoreSt.efield (c : CoreSt) (cl p i : Nat) : Byte := smGet 127 c.fields ((8 * cl + p) * 128 + i)
def CoreSt.setEfield (c : CoreSt) (cl p i : Nat) (v : Byte) : CoreSt :=
  { c with fields := smPut 127 c.fields ((8 * cl + p) * 128 + i) v }

/-- A tile status word (R34): as it stood before this ac, which a read shows, and with what this ac has set
(R212, R347). -/
def CoreSt.tileRead (c : CoreSt) (cl p : Nat) : Byte := smGet 0 c.tiles (8 * cl + p)
def CoreSt.tile (c : CoreSt) (cl p : Nat) : Byte := c.tileRead cl p ||| smGet 0 c.tileSet (8 * cl + p)

/-- A tile status word written. -/
def CoreSt.setTile (c : CoreSt) (cl p : Nat) (v : Byte) : CoreSt :=
  { c with tiles := smPut 0 c.tiles (8 * cl + p) v, tileSet := smPut 0 c.tileSet (8 * cl + p) 0 }

/-- Flags set in this ac, and those of a kernel's result, which landed at the end of an ac before the issue
cycle that sees it (R39, R207). -/
def CoreSt.tileFlags (c : CoreSt) (cl p : Nat) (f : Byte) : CoreSt :=
  { c with tileSet := smPut 0 c.tileSet (8 * cl + p) (smGet 0 c.tileSet (8 * cl + p) ||| f) }
def CoreSt.tileLanded (c : CoreSt) (cl p : Nat) (f : Byte) : CoreSt :=
  { c with tiles := smPut 0 c.tiles (8 * cl + p) (c.tileRead cl p ||| f) }

/-- A tile status word cleared: the flags set in the same ac stay (R347). -/
def CoreSt.clearTile (c : CoreSt) (cl p : Nat) : CoreSt := { c with tiles := smPut 0 c.tiles (8 * cl + p) 0 }

/-- The end of an ac: the flags set in it join the words. -/
def CoreSt.joinTiles (c : CoreSt) : CoreSt :=
  { c with tiles := c.tileSet.foldl (fun m x => smPut 0 m x.1 (smGet 0 m x.1 ||| x.2)) c.tiles, tileSet := [] }

/-- An XA entry as a 256-bit pattern: its quarters lie in four slots (R340). -/
def CoreSt.xa (c : CoreSt) (cl p e : Nat) : Nat :=
  (c.entry cl p e).toNat + (c.entry cl (p + 1) e).toNat * 2 ^ 64 + (c.entry cl (p + 2) e).toNat * 2 ^ 128 +
    (c.entry cl (p + 3) e).toNat * 2 ^ 192
def CoreSt.setXa (c : CoreSt) (cl p e v : Nat) : CoreSt :=
  (((c.setEntry cl p e (BitVec.ofNat 64 v)).setEntry cl (p + 1) e (BitVec.ofNat 64 (v / 2 ^ 64))).setEntry
    cl (p + 2) e (BitVec.ofNat 64 (v / 2 ^ 128))).setEntry cl (p + 3) e (BitVec.ofNat 64 (v / 2 ^ 192))

/-- Every I64 entry of a slot set to 0. -/
def CoreSt.clearEntries (c : CoreSt) (cl p : Nat) : CoreSt :=
  { c with acc := c.acc.filter fun x => x.1 / 4096 ≠ 8 * cl + p }

/-- A tile cleared as AZERO clears it (R211). -/
def CoreSt.azero (c : CoreSt) (cl p : Nat) : CoreSt :=
  { (c.clearEntries cl p).setTile cl p 0 with
    fields := c.fields.filter fun x => x.1 / 128 ≠ 8 * cl + p }
def CoreSt.azeroXa (c : CoreSt) (cl p : Nat) : CoreSt :=
  (List.range 4).foldl (fun c q => (c.clearEntries cl (p + q)).setTile cl (p + q) 0) c

/-- An exponent field moved by delta (R213). -/
def CoreSt.ascl (c : CoreSt) (cl p i : Nat) (delta : Int) : CoreSt :=
  let f : Int := (c.efield cl p i).toNat
  if f = 0 ∨ f = 255 then c
  else if f + delta < 1 ∨ 254 < f + delta then (c.setEfield cl p i 0).tileLanded cl p tRNG
  else c.setEfield cl p i (BitVec.ofInt 8 (f + delta))

/-! ### Landing (R39, R170) -/

def Pend.due : Pend → Nat
  | .v _ _ d _ _ _ | .q _ _ d _ _ | .p _ d _ | .acc _ _ _ d _ | .field _ _ _ d _ | .ascl _ _ _ d _
  | .dep _ _ _ d _ | .zero _ d _ => d

/-- A result written to the kernel's own registers, with its flags. -/
def Kernel.landOne (k : Kernel) : Pend → Kernel
  | .v l r _ x p f => { k.setVr l r ⟨x, p⟩ with flags := orFlags k.flags l f }
  | .q l i _ b f => { k.setQr l i b with flags := orFlags k.flags l f }
  | .p i _ x => { k with p := smPut 0 k.p i x }
  | _ => k

/-- A result written to the accumulator file. -/
def CoreSt.landOne (c : CoreSt) (slot : Nat → Nat) : Pend → CoreSt
  | .acc k cl e _ x => c.setEntry cl (slot k) e x
  | .field k cl i _ x => c.setEfield cl (slot k) i x
  | .ascl k cl i _ d => c.ascl cl (slot k) i d
  | .dep k cl e _ x =>
    let r := xaDepositF32 (c.xa cl (slot k) e) x
    (c.setXa cl (slot k) e r.1).tileLanded cl (slot k) r.2
  | .zero k _ xa => (List.range 8).foldl (fun c cl =>
      if xa then c.azeroXa cl (slot k) else c.azero cl (slot k)) c
  | _ => c

/-- The running kernel of a core replaced. -/
def State.setKern (s : State) (g : Nat) (k : Option Kernel) : State := s.modCore g fun c => { c with kern := k }

/-- The results due by an issue cycle land, in the order in which they were issued. -/
def State.land (s : State) (g : Nat) (k : Kernel) (cyc : Nat) : State × Kernel :=
  let now := k.pend.filter fun p => p.due ≤ cyc
  (s.modCore g fun c => now.foldl (fun c p => c.landOne (s.ctx k.cx).slotOf p) c,
   now.foldl Kernel.landOne { k with pend := k.pend.filter fun p => decide (cyc < p.due) })

/-! ### Operations of a packet -/

/-- What the operations of a packet see: the state before it, the results due by now landed (R39, R82). -/
structure KEnv where
  s    : State
  core : Nat
  k    : Kernel

/-- What a B-slot operation asks of the sequencer (7.7): a loop's counter, count and length; a branch
with its displacement if taken; an end; a trap; idle cycles. -/
inductive Ctl where
  | loop (c count len : Nat)
  | branch (taken : Bool) (disp : Int)
  | kend
  | ktrap (code : Nat)
  | idle (n : Nat)
  deriving DecidableEq, Repr

/-- What an operation gives at its issue: results in flight, its effect at once on the kernel and the
state, the trap conditions it meets (R192), the lane registers and predicates it reads (R193), and
its control of the sequencer. -/
structure KOut where
  pend    : List Pend := []
  upd     : Kernel → Kernel := id
  act     : State → State := id
  illegal : Bool := false
  poison  : Bool := false
  overrun : Bool := false
  reads   : List (Nat × Nat) := []
  preds   : List Nat := []
  ctl     : Option Ctl := none

/-- An operation: whether it stalls the array, and whether on a chained line (R39); and what it gives. -/
structure KSlot where
  stall : KEnv → Option Bool := fun _ => none
  eval  : KEnv → KOut

/-- The predicates that a guard reads (R193). -/
def guardReads (g : BitVec 3) : List Nat := if g = 0 then [] else [g.toNat]

/-- An operation of each lane on its own registers: it reads `srcs` and writes `dsts` after `lat` cycles
(R168, R169). -/
def lanesOp (g : BitVec 3) (lat : Nat) (srcs dsts : List Nat) (f : List Word32 → List Word32 × Byte) :
    KSlot where
  eval e :=
    let ls := e.k.lanes g
    { pend := ls.flatMap fun l =>
        let xs := srcs.map (e.k.vr l)
        let r := f (xs.map LaneReg.val)
        (dsts.zip r.1).map fun d => .v l d.1 (e.k.cyc + lat) d.2 (xs.any LaneReg.poison) r.2
      reads := ls.flatMap fun l => srcs.map fun r => (l, r)
      preds := guardReads g }

/-- The same with one, two or three sources, the third being vd, and one destination. -/
def lane1 (lat : Nat) (d a : BitVec 7) (g : BitVec 3) (f : Word32 → Word32 × Byte) : KSlot :=
  lanesOp g lat [a.toNat] [d.toNat] fun xs => let r := f (xs.getD 0 0); ([r.1], r.2)
def lane2 (lat : Nat) (d a b : BitVec 7) (g : BitVec 3) (f : Word32 → Word32 → Word32 × Byte) : KSlot :=
  lanesOp g lat [a.toNat, b.toNat] [d.toNat] fun xs =>
    let r := f (xs.getD 0 0) (xs.getD 1 0); ([r.1], r.2)
def lane3 (lat : Nat) (d a b : BitVec 7) (g : BitVec 3) (f : Word32 → Word32 → Word32 → Word32 × Byte) : KSlot :=
  lanesOp g lat [a.toNat, b.toNat, d.toNat] [d.toNat] fun xs =>
    let r := f (xs.getD 0 0) (xs.getD 1 0) (xs.getD 2 0); ([r.1], r.2)

/-- An operation that delivers a pair (R30). -/
def lanePair (lat : Nat) (d : BitVec 7) (srcs : List Nat) (g : BitVec 3) (f : List Word32 → Dw) : KSlot :=
  lanesOp g lat srcs [d.toNat, d.toNat + 1] fun xs => let r := f xs; ([r.hi, r.lo], r.fl)

/-- The two halves of a word, and a word from its halves (R51). -/
def loHalf (x : Word32) : BitVec 16 := x.extractLsb' 0 16
def hiHalf (x : Word32) : BitVec 16 := x.extractLsb' 16 16
def ofHalves (h l : BitVec 16) : Word32 := h ++ l

/-- An operation on words or on packed halves. -/
def elems1 (packed : Bool) (f : (w : Nat) → BitVec w → BitVec w) (a : Word32) : Word32 :=
  if packed then ofHalves (f 16 (hiHalf a)) (f 16 (loHalf a)) else f 32 a
def elems2 (packed : Bool) (f : (w : Nat) → BitVec w → BitVec w → BitVec w) (a b : Word32) : Word32 :=
  if packed then ofHalves (f 16 (hiHalf a) (hiHalf b)) (f 16 (loHalf a) (loHalf b)) else f 32 a b

/-- An integer operation of latency 1, or n, on words or packed halves, that sets no flag. -/
def int2 (lat : Nat) (d a b : BitVec 7) (g : BitVec 3) (packed : Bool)
    (f : (w : Nat) → BitVec w → BitVec w → BitVec w) : KSlot :=
  lane2 lat d a b g fun x y => (elems2 packed f x y, 0)
def int1 (lat : Nat) (d a : BitVec 7) (g : BitVec 3) (packed : Bool) (f : (w : Nat) → BitVec w → BitVec w) :
    KSlot := lane1 lat d a g fun x => (elems1 packed f x, 0)

/-- An unguarded constant in every lane. -/
def constOp (lat : Nat) (d : BitVec 7) (v : Word32) : KSlot :=
  lanesOp 0 lat [] [d.toNat] fun _ => ([v], 0)

/-- A comparison: it writes a predicate, and a poisoned operand traps (R169, R174, R180). -/
def predOp (lat : Nat) (q : BitVec 3) (a b : BitVec 7) (g : BitVec 3) (f : Word32 → Word32 → Bool × Byte) :
    KSlot where
  eval e :=
    let ls := e.k.lanes g
    { pend := ls.map fun l =>
        let r := f (e.k.vr l a.toNat).val (e.k.vr l b.toNat).val
        .q l q.toNat (e.k.cyc + lat) r.1 r.2
      poison := ls.any fun l => (e.k.vr l a.toNat).poison || (e.k.vr l b.toNat).poison
      reads := ls.flatMap fun l => [(l, a.toNat), (l, b.toNat)]
      preds := guardReads g }

end Sys2Proof.Machine
end

