-- ==== Sys2Proof/Machine/KernelSeq.lean ====
section
/-!
DEFINITION. The kernel sequencer: packet issue, stalls and traps (R39, R41, R192, R193, R195), branches,
loops and ends (R217 to R222), matrix posts (R215, R216) and the C- and B-slot operations.
-/

namespace Sys2Proof.Machine

open Sys2Proof

/-! ### Trap conditions (R41, R192, R193) -/

/-- Whether two results land in one register in one issue cycle (R41); q0 takes no result. -/
def Pend.clash : Pend → Pend → Bool
  | .v l r d _ _ _, .v m t e _ _ _ => l = m && r = t && d = e
  | .q l i d _ _, .q m j e _ _ => l = m && i = j && d = e && i ≠ 0
  | _, _ => false

/-- Whether a new result collides with one in flight, or with another new one. -/
def collides : List Pend → List Pend → Bool
  | [], _ => false
  | p :: ps, old => old.any p.clash || ps.any p.clash || collides ps old

/-- Whether a lane register, or a predicate of any lane, still awaits a result. -/
def awaitsV (ps : List Pend) (x : Nat × Nat) : Bool :=
  ps.any fun p => match p with
    | .v l r _ _ _ _ => l = x.1 && r = x.2
    | _ => false
def awaitsQ (ps : List Pend) (i : Nat) : Bool :=
  ps.any fun p => match p with
    | .q _ j _ _ _ => i ≠ 0 && i = j
    | _ => false

/-- The loop conditions of a packet of `len` words (R217, R218): a loop that may not start, whatever its count
(DEDUCED, log 147), a branch or loop in a delay packet, and a body that ends inside the packet or on a branching or delay packet. -/
def loopFault (k : Kernel) (len : Nat) (ctls : List Ctl) : Bool :=
  let last : Int := k.pc + len - 1
  let branching := ctls.any fun c => match c with
    | .branch .. => true
    | _ => false
  let flow := ctls.any fun c => match c with
    | .branch .. | .loop .. => true
    | _ => false
  (k.branch.isSome && flow) ||
  (ctls.any fun c => match c with
    | .loop ctr _ n => decide (4 ≤ k.loops.length) || k.loops.any (fun x => x.ctr = ctr) ||
        (match k.loops with
          | x :: _ => decide (x.last < last + n)
          | [] => false)
    | _ => false) ||
  (k.loops.any fun x => (decide (k.pc ≤ x.last) && decide (x.last < last)) ||
    ((k.branch.isSome || branching) && x.last = last))

/-- The cause and sub-cause of the trap that a packet raises, if it meets one (R192, Table 7.2); `soft` says that
one of its words holds an uncorrectable soft error (R331). -/
def packetTrap (k : Kernel) (soft latchk : Bool) (len : Nat) (os : List KOut) : Option (Nat × Nat) :=
  let reads := os.flatMap KOut.reads
  if os.any KOut.illegal || loopFault k len (os.filterMap KOut.ctl) then some (1, 4)
  else if soft || (reads.any fun x => k.soft.contains (128 * x.1 + x.2)) then some (6, 0)
  else if os.any KOut.poison then some (4, 0)
  else if os.any KOut.overrun then some (3, 0)
  else if collides (os.flatMap KOut.pend) k.pend then some (2, 0)
  else if latchk && (reads.any (awaitsV k.pend) || (os.flatMap KOut.preds).any (awaitsQ k.pend)) then
    some (5, 0)
  else none

/-! ### Traps (R195, R328) -/

/-- cr.KSTATUS with the fields of a trap (Table 7.1). -/
def kstatusTrap (w : Word) (cause sub offset code : Nat) : Word :=
  BitVec.ofNat 64 (code % 2 ^ 16 * 2 ^ 48 + offset % 2 ^ 24 * 2 ^ 24 + sub % 16 * 2 ^ 20 + cause % 16 * 2 ^ 16
    + w.toNat % 2 ^ 16)

/-- The word offset that cr.KSTATUS holds of a header. -/
def offsetOf (pc : Int) : Nat := (pc.emod (2 ^ 24)).toNat

/-- A kernel stops on a trap: the array is free, cr.KSTATUS takes the trap and the lane flags, and the
kernel is held, or ends at once where there is no trap vector (R195, R328). -/
def State.ktrap (s : State) (g : Nat) (k : Kernel) (cause sub code : Nat) (pc : Int) : State :=
  let k := { k with cause := cause, sub := sub, code := code, offset := offsetOf pc, freeze := false }
  let s := ((s.setKern g none).kflags k.cx k.flags).modCtx k.cx fun c =>
    c.setKstatus 0xFFFFFFFFFFFF0000 (kstatusTrap 0 cause sub (offsetOf pc) code)
  if (s.ctx k.cx).tvec = 0 then s.endHeld k
  else s.modCtx k.cx fun c =>
    { c with heldK := c.heldK ++ [k], kdeliver := c.kdeliver || c.heldK.isEmpty }

/-! ### Sequencing (R217, R218) -/

/-- The loops whose body ends before the next word run again or end, innermost first (R218). -/
def loopBack : List LoopSt → SMap Word32 → Int → Int × List LoopSt × SMap Word32
  | [], l, npc => (npc, [], l)
  | x :: xs, l, npc =>
    if x.last + 1 = npc then
      let n := smGet 0 l x.ctr - 1
      let l := smPut 0 l x.ctr n
      if n ≠ 0 then (x.first, x :: xs, l) else loopBack xs l npc
    else (npc, x :: xs, l)

/-- The kernel at the packet after one of `len` words. -/
def Kernel.follow (k : Kernel) (len : Nat) (ctl : Option Ctl) : Kernel :=
  let npc : Int := k.pc + len
  match ctl with
  | some (.branch t d) => { k with pc := npc, branch := some (if t then some (k.pc + d) else none, 2) }
  | _ =>
    match k.branch with
    | some (t, n) =>
      if 1 < n then { k with pc := npc, branch := some (t, n - 1) }
      else match t with
        | some a => { k with pc := a, branch := none,
                             loops := k.loops.dropWhile fun x => !(decide (x.first ≤ a) && decide (a ≤ x.last)) }
        | none => { k with pc := npc, branch := none }
    | none =>
      match ctl with
      | some (.loop c n b) =>
        let k := { k with l := smPut 0 k.l c (BitVec.ofNat 32 n) }
        if n = 0 then
          let (pc, ls, l) := loopBack k.loops k.l (npc + b)
          { k with pc := pc, loops := ls, l := l }
        else { k with pc := npc, loops := ⟨c, npc, npc + b - 1⟩ :: k.loops }
      | _ =>
        let (pc, ls, l) := loopBack k.loops k.l npc
        { k with pc := pc, loops := ls, l := l }

/-- The idle cycles after a packet: its header's and those of IDLE; none after KEND (R219, R220). -/
def idleAfter (idle : Nat) : Option Ctl → Nat
  | some (Ctl.idle n) => idle + n
  | some .kend => 0
  | _ => idle

/-! ### Packet issue (R39, R192) -/

/-- Whether a packet stalls, and whether on a chained line. -/
def stalled (e : KEnv) (ops : List KSlot) : Option Bool := ops.findSome? fun o => o.stall e

/-- The running kernel of a core issues a packet of `len` words with `idle` idle cycles: its operations,
or the sub-cause of its decode fault; `soft` as for packetTrap. It stalls, traps, or performs whole. -/
def issue (g len idle : Nat) (soft : Bool) (ops : List KSlot ⊕ Nat) (s : State) : State :=
  match (s.core g).kern with
  | none => s
  | some k0 =>
    let latchk := (s.ctx k0.cx).latchk.getLsbD 0
    if !k0.ready then s
    else match ops with
    | .inr sub => s.ktrap g { k0 with latchk := latchk } 1 sub 0 k0.pc
    | .inl ops =>
      let e : KEnv := ⟨(s.land g k0 k0.cyc).1, g, (s.land g k0 k0.cyc).2⟩
      if (stalled e ops).isSome then s
      else
        let os := ops.map fun o => o.eval e
        match packetTrap e.k soft latchk len os with
        | some (cause, sub) => s.ktrap g { k0 with latchk := latchk } cause sub 0 k0.pc
        | none =>
          let ctl := os.findSome? KOut.ctl
          let k := os.foldl (fun k o => o.upd k) e.k
          let t := os.foldl (fun t o => o.act t) e.s
          let k := { k with
            pend := k.pend ++ os.flatMap KOut.pend, cyc := k.cyc + 1, latchk := latchk,
            idle := idleAfter idle ctl, ended := decide (ctl = some Ctl.kend) }
          let k := k.follow len ctl
          match ctl with
          | some (.ktrap code) => t.ktrap g k 7 0 code k0.pc
          | _ => t.setKern g (some k)

/-- One operation issued in a packet of its own, by the running kernel of the focus context's core
(log 21). -/
def runLane (o : KSlot) (s : State) : State := issue (s.home s.focus) 2 0 false (.inl [o]) s

/-! ### The C slot (R215, R216) -/

/-- A p register written one cycle later. -/
def psetOp (k : BitVec 3) (f : Word32 → Word32) : KSlot where
  eval e := { pend := [.p k.toNat (e.k.cyc + 1) (f (e.k.pr k.toNat))] }

/-- The predecessors that an MPOST names by distance: numbers below 1 and skipped ones have retired
(R216). -/
def mpostPreds (n : Nat) (d e : BitVec 5) : List Nat :=
  ([d.toNat, e.toNat].filter fun x => x ≠ 0 && decide (x < n) && !skipped .mat (n - x)).map (n - ·)

/-- MPOST: a matrix command with the p registers as they read at issue (R216). -/
def mpostOp (r : BitVec 8) (n : BitVec 2) (d e : BitVec 5) : KSlot where
  stall v := if (v.s.postBlock v.k.cx .mat false).isSome then some false else none
  eval v :=
    { act := fun t => t.post v.k.cx .mat 0
        (.matrix r.toNat ((List.range 8).map v.k.pr) [] []
          (mpostPreds (nextNum .mat ((t.ctx v.k.cx).mile .mat).posted) d e) n.toNat true) none [] [] false }

/-! ### The B slot (R217 to R222) -/

/-- MWAITK's condition (R221). -/
def mwaitMet (e : KEnv) (q : BitVec 3) (p : BitVec 3) : Bool :=
  decide ((BitVec.ofNat 32 ((e.s.ctx e.k.cx).mile (queueOf q.toNat)).counter - e.k.pr p.toNat).toNat < 2 ^ 31)

/-- MWAITK on the kernel's own KRN number, or beyond, is illegal (R221); the 32-bit value is compared with the whole
number (DEDUCED, log 148). -/
def mwaitSelf (e : KEnv) (q p : BitVec 3) : Bool :=
  queueOf q.toNat = .krn && decide (e.k.num ≤ (e.k.pr p.toNat).toNat)

/-- An operation of class C or B. -/
def seqSlot : SeqOp → KSlot
  | .pset k a =>
    { eval := fun e =>
        { pend := [.p k.toNat (e.k.cyc + 1) (e.k.vr 0 a.toNat).val], poison := (e.k.vr 0 a.toNat).poison,
          reads := [(0, a.toNat)] } }
  | .psetImm k _ lit => psetOp k fun _ => lit.zeroExtend 32
  | .psetHi k _ lit => psetOp k fun x => lit ++ x.extractLsb' 0 16
  | .psetAdd k _ lit => psetOp k fun x => x + lit.signExtend 32
  | .mpost r n d e => mpostOp r n d e
  | .loop c n l => { eval := fun _ => { ctl := some (.loop c.toNat (n.toNat + 1) l.toNat) } }
  | .loopP c p l => { eval := fun e => { ctl := some (.loop c.toNat (e.k.pr p.toNat).toNat l.toNat) } }
  | .bra y q i =>
    { eval := fun e =>
        { preds := if q = 0 then [] else [q.toNat],
          ctl := some (.branch
            (if y = 1 then allLanes.all fun l => e.k.qr l q.toNat else allLanes.any fun l => e.k.qr l q.toNat)
            i.toInt) } }
  | .kJmp i => { eval := fun _ => { ctl := some (.branch true i.toInt) } }
  | .kend => { eval := fun _ => { ctl := some .kend } }
  | .ktrap c => { eval := fun _ => { ctl := some (.ktrap c.toNat) } }
  | .idle n => { eval := fun _ => { ctl := some (.idle (n.toNat + 1)) } }
  | .mwaitk q p =>
    { stall := fun e => if mwaitSelf e q p || mwaitMet e q p then none else some false
      eval := fun e => { illegal := mwaitSelf e q p } }

/-- PSET (R215) in a packet of its own. -/
def execPset (k : BitVec 3) (a : BitVec 7) (σ : State) : Res := .next (runLane (seqSlot (.pset k a)) σ)

/-- PSET_IMM (R215) in a packet of its own. -/
def execPsetImm (k : BitVec 3) (a : BitVec 7) (lit : BitVec 16) (σ : State) : Res := .next (runLane (seqSlot (.psetImm k a lit)) σ)

/-- PSET_HI (R215) in a packet of its own. -/
def execPsetHi (k : BitVec 3) (a : BitVec 7) (lit : BitVec 16) (σ : State) : Res := .next (runLane (seqSlot (.psetHi k a lit)) σ)

/-- PSET_ADD (R215) in a packet of its own. -/
def execPsetAdd (k : BitVec 3) (a : BitVec 7) (lit : BitVec 16) (σ : State) : Res := .next (runLane (seqSlot (.psetAdd k a lit)) σ)

/-- MPOST (R216) in a packet of its own. -/
def execMpost (r : BitVec 8) (n : BitVec 2) (d : BitVec 5) (e : BitVec 5) (σ : State) : Res := .next (runLane (seqSlot (.mpost r n d e)) σ)

/-- LOOP (R218) in a packet of its own. -/
def execLoop (c : BitVec 2) (n : BitVec 11) (l : BitVec 12) (σ : State) : Res := .next (runLane (seqSlot (.loop c n l)) σ)

/-- LOOP_P (R218) in a packet of its own. -/
def execLoopP (c : BitVec 2) (p : BitVec 3) (l : BitVec 12) (σ : State) : Res := .next (runLane (seqSlot (.loopP c p l)) σ)

/-- BRA (R217) in a packet of its own. -/
def execBra (y : BitVec 1) (q : BitVec 3) (i : BitVec 18) (σ : State) : Res := .next (runLane (seqSlot (.bra y q i)) σ)

/-- K_JMP (R217) in a packet of its own. -/
def execKJmp (i : BitVec 18) (σ : State) : Res := .next (runLane (seqSlot (.kJmp i)) σ)

/-- KEND (R220) in a packet of its own. -/
def execKend (σ : State) : Res := .next (runLane (seqSlot (.kend)) σ)

/-- KTRAP (R222) in a packet of its own. -/
def execKtrap (c : BitVec 16) (σ : State) : Res := .next (runLane (seqSlot (.ktrap c)) σ)

/-- IDLE (R219) in a packet of its own. -/
def execIdle (n : BitVec 12) (σ : State) : Res := .next (runLane (seqSlot (.idle n)) σ)

/-- MWAITK (R221) in a packet of its own. -/
def execMwaitk (q : BitVec 3) (p : BitVec 3) (σ : State) : Res := .next (runLane (seqSlot (.mwaitk q p)) σ)

end Sys2Proof.Machine
end

