-- ==== Sys2Proof/Machine/KernelArith.lean ====
section
/-!
DEFINITION. The A, M and F slots of the kernel set (chapter 6): integer and logic operations,
floating-point operations, conversions, pair operations, products and special functions. Each acts in
every performing lane on that lane's registers.
-/

namespace Sys2Proof.Machine

open Sys2Proof

/-! ### Integer operations (R173 to R177) -/

/-- The amount of a packed or whole-word shift (R173). -/
def kAmount {w : Nat} (b : BitVec w) : Nat := b.toNat % w

/-- K_ADD (R173). -/
def opKAdd (d : BitVec 7) (a : BitVec 7) (b : BitVec 7) (g : BitVec 3) (m : BitVec 2) : KSlot := int2 1 d a b g (m.getLsbD 1) fun _ x y => x + y

/-- K_ADD in a packet of its own. -/
def execKAdd (d : BitVec 7) (a : BitVec 7) (b : BitVec 7) (g : BitVec 3) (m : BitVec 2) (σ : State) : Res := .next (runLane (opKAdd d a b g m) σ)

/-- K_SUB (R173). -/
def opKSub (d : BitVec 7) (a : BitVec 7) (b : BitVec 7) (g : BitVec 3) (m : BitVec 2) : KSlot := int2 1 d a b g (m.getLsbD 1) fun _ x y => x - y

/-- K_SUB in a packet of its own. -/
def execKSub (d : BitVec 7) (a : BitVec 7) (b : BitVec 7) (g : BitVec 3) (m : BitVec 2) (σ : State) : Res := .next (runLane (opKSub d a b g m) σ)

/-- K_AND (R173). -/
def opKAnd (d : BitVec 7) (a : BitVec 7) (b : BitVec 7) (g : BitVec 3) : KSlot := int2 1 d a b g false fun _ x y => x &&& y

/-- K_AND in a packet of its own. -/
def execKAnd (d : BitVec 7) (a : BitVec 7) (b : BitVec 7) (g : BitVec 3) (σ : State) : Res := .next (runLane (opKAnd d a b g) σ)

/-- K_OR (R173). -/
def opKOr (d : BitVec 7) (a : BitVec 7) (b : BitVec 7) (g : BitVec 3) : KSlot := int2 1 d a b g false fun _ x y => x ||| y

/-- K_OR in a packet of its own. -/
def execKOr (d : BitVec 7) (a : BitVec 7) (b : BitVec 7) (g : BitVec 3) (σ : State) : Res := .next (runLane (opKOr d a b g) σ)

/-- K_XOR (R173). -/
def opKXor (d : BitVec 7) (a : BitVec 7) (b : BitVec 7) (g : BitVec 3) : KSlot := int2 1 d a b g false fun _ x y => x ^^^ y

/-- K_XOR in a packet of its own. -/
def execKXor (d : BitVec 7) (a : BitVec 7) (b : BitVec 7) (g : BitVec 3) (σ : State) : Res := .next (runLane (opKXor d a b g) σ)

/-- K_ANDN (R173). -/
def opKAndn (d : BitVec 7) (a : BitVec 7) (b : BitVec 7) (g : BitVec 3) : KSlot := int2 1 d a b g false fun _ x y => x &&& ~~~y

/-- K_ANDN in a packet of its own. -/
def execKAndn (d : BitVec 7) (a : BitVec 7) (b : BitVec 7) (g : BitVec 3) (σ : State) : Res := .next (runLane (opKAndn d a b g) σ)

/-- K_SHL (R173). -/
def opKShl (d : BitVec 7) (a : BitVec 7) (b : BitVec 7) (g : BitVec 3) (m : BitVec 1) : KSlot := int2 1 d a b g (m = 1) fun _ x y => x <<< kAmount y

/-- K_SHL in a packet of its own. -/
def execKShl (d : BitVec 7) (a : BitVec 7) (b : BitVec 7) (g : BitVec 3) (m : BitVec 1) (σ : State) : Res := .next (runLane (opKShl d a b g m) σ)

/-- K_SHR (R173). -/
def opKShr (d : BitVec 7) (a : BitVec 7) (b : BitVec 7) (g : BitVec 3) (m : BitVec 1) : KSlot := int2 1 d a b g (m = 1) fun _ x y => x >>> kAmount y

/-- K_SHR in a packet of its own. -/
def execKShr (d : BitVec 7) (a : BitVec 7) (b : BitVec 7) (g : BitVec 3) (m : BitVec 1) (σ : State) : Res := .next (runLane (opKShr d a b g m) σ)

/-- K_SRA (R173). -/
def opKSra (d : BitVec 7) (a : BitVec 7) (b : BitVec 7) (g : BitVec 3) (m : BitVec 1) : KSlot := int2 1 d a b g (m = 1) fun _ x y => x.sshiftRight (kAmount y)

/-- K_SRA in a packet of its own. -/
def execKSra (d : BitVec 7) (a : BitVec 7) (b : BitVec 7) (g : BitVec 3) (m : BitVec 1) (σ : State) : Res := .next (runLane (opKSra d a b g m) σ)

/-- MIN (R173). -/
def opMin (d : BitVec 7) (a : BitVec 7) (b : BitVec 7) (g : BitVec 3) (m : BitVec 2) : KSlot := int2 1 d a b g (m.getLsbD 1) fun _ x y =>
    if (if m.getLsbD 0 then x.ult y else x.slt y) then x else y

/-- MIN in a packet of its own. -/
def execMin (d : BitVec 7) (a : BitVec 7) (b : BitVec 7) (g : BitVec 3) (m : BitVec 2) (σ : State) : Res := .next (runLane (opMin d a b g m) σ)

/-- MAX (R173). -/
def opMax (d : BitVec 7) (a : BitVec 7) (b : BitVec 7) (g : BitVec 3) (m : BitVec 2) : KSlot := int2 1 d a b g (m.getLsbD 1) fun _ x y =>
    if (if m.getLsbD 0 then x.ult y else x.slt y) then y else x

/-- MAX in a packet of its own. -/
def execMax (d : BitVec 7) (a : BitVec 7) (b : BitVec 7) (g : BitVec 3) (m : BitVec 2) (σ : State) : Res := .next (runLane (opMax d a b g m) σ)

/-- K_CMP (R174). -/
def opKCmp (c : BitVec 3) (q : BitVec 3) (a : BitVec 7) (b : BitVec 7) (g : BitVec 3) (m : BitVec 1) : KSlot := predOp 1 q a b g fun x y => (kcmpHolds c (m = 1) x y, 0)

/-- K_CMP in a packet of its own. -/
def execKCmp (c : BitVec 3) (q : BitVec 3) (a : BitVec 7) (b : BitVec 7) (g : BitVec 3) (m : BitVec 1) (σ : State) : Res := .next (runLane (opKCmp c q a b g m) σ)

/-- K_SEL (R175): the poison of the operand that is not selected does not count. -/
def opKSel (d : BitVec 7) (a : BitVec 7) (b : BitVec 7) (g : BitVec 3) (m : BitVec 1) : KSlot :=
  { eval := fun e =>
      let ls := e.k.lanes g
      { pend := ls.map fun l =>
          let x := e.k.vr l a.toNat
          let y := e.k.vr l b.toNat
          let z := e.k.vr l d.toNat
          if m = 1 then
            let hi := hiHalf z.val ≠ 0
            let lo := loHalf z.val ≠ 0
            .v l d.toNat (e.k.cyc + 1)
              (ofHalves (if hi then hiHalf x.val else hiHalf y.val) (if lo then loHalf x.val else loHalf y.val))
              (z.poison || ((hi || lo) && x.poison) || (!(hi && lo) && y.poison)) 0
          else
            let w := if z.val ≠ 0 then x else y
            .v l d.toNat (e.k.cyc + 1) w.val (z.poison || w.poison) 0
        reads := ls.flatMap fun l => [(l, a.toNat), (l, b.toNat), (l, d.toNat)]
        preds := guardReads g } }

/-- K_SEL in a packet of its own. -/
def execKSel (d : BitVec 7) (a : BitVec 7) (b : BitVec 7) (g : BitVec 3) (m : BitVec 1) (σ : State) : Res := .next (runLane (opKSel d a b g m) σ)

/-- The word of the narrow source field of KVI as a register. -/
def narrow (v : BitVec 5) : BitVec 7 := v.zeroExtend 7

/-- K_BFX_N (R176). -/
def opKBfxN (d : BitVec 7) (v : BitVec 5) (w : BitVec 5) (o : BitVec 5) : KSlot := lane1 1 d (narrow v) 0 fun x => (bfxZ x w.toNat o.toNat, 0)

/-- K_BFX_N in a packet of its own. -/
def execKBfxN (d : BitVec 7) (v : BitVec 5) (w : BitVec 5) (o : BitVec 5) (σ : State) : Res := .next (runLane (opKBfxN d v w o) σ)

/-- K_BFX_I (R176). -/
def opKBfxI (d : BitVec 7) (v : BitVec 5) (w : BitVec 5) (o : BitVec 5) : KSlot := lane1 1 d (narrow v) 0 fun x => (bfxS x w.toNat o.toNat, 0)

/-- K_BFX_I in a packet of its own. -/
def execKBfxI (d : BitVec 7) (v : BitVec 5) (w : BitVec 5) (o : BitVec 5) (σ : State) : Res := .next (runLane (opKBfxI d v w o) σ)

/-- K_BFI (R176). -/
def opKBfi (d : BitVec 7) (v : BitVec 5) (w : BitVec 5) (o : BitVec 5) : KSlot := lane2 1 d (narrow v) d 0 fun x y => (bfiW y x w.toNat o.toNat, 0)

/-- K_BFI in a packet of its own. -/
def execKBfi (d : BitVec 7) (v : BitVec 5) (w : BitVec 5) (o : BitVec 5) (σ : State) : Res := .next (runLane (opKBfi d v w o) σ)

/-- K_FSHL (R176). -/
def opKFshl (d : BitVec 7) (v : BitVec 5) (n : BitVec 5) : KSlot := lane2 1 d (narrow v) d 0 fun x y => (funnelL x y n.toNat, 0)

/-- K_FSHL in a packet of its own. -/
def execKFshl (d : BitVec 7) (v : BitVec 5) (n : BitVec 5) (σ : State) : Res := .next (runLane (opKFshl d v n) σ)

/-- K_FSHR (R176). -/
def opKFshr (d : BitVec 7) (v : BitVec 5) (n : BitVec 5) : KSlot := lane2 1 d (narrow v) d 0 fun x y => (funnelR x y n.toNat, 0)

/-- K_FSHR in a packet of its own. -/
def execKFshr (d : BitVec 7) (v : BitVec 5) (n : BitVec 5) (σ : State) : Res := .next (runLane (opKFshr d v n) σ)

/-- MOVI (R86). -/
def opMovi (d : BitVec 7) (i : BitVec 12) : KSlot := constOp 1 d (i.signExtend 32)

/-- MOVI in a packet of its own. -/
def execMovi (d : BitVec 7) (i : BitVec 12) (σ : State) : Res := .next (runLane (opMovi d i) σ)

/-- MOVI_HIGH (R86). -/
def opMoviHigh (d : BitVec 7) (i : BitVec 12) : KSlot := constOp 1 d (i ++ (0 : BitVec 20))

/-- MOVI_HIGH in a packet of its own. -/
def execMoviHigh (d : BitVec 7) (i : BitVec 12) (σ : State) : Res := .next (runLane (opMoviHigh d i) σ)

/-- MOVI_LITERAL (R86). -/
def opMoviLiteral (d : BitVec 7) (h : BitVec 4) (i : BitVec 12) (lit : BitVec 16) : KSlot := constOp 1 d (lit ++ h ++ i)

/-- MOVI_LITERAL in a packet of its own. -/
def execMoviLiteral (d : BitVec 7) (h : BitVec 4) (i : BitVec 12) (lit : BitVec 16) (σ : State) : Res := .next (runLane (opMoviLiteral d h i lit) σ)

/-- MOVI_SHIFTED (R86). -/
def opMoviShifted (d : BitVec 7) (n : BitVec 5) (lit : BitVec 16) : KSlot := constOp 1 d (lit.zeroExtend 32 <<< n.toNat)

/-- MOVI_SHIFTED in a packet of its own. -/
def execMoviShifted (d : BitVec 7) (n : BitVec 5) (lit : BitVec 16) (σ : State) : Res := .next (runLane (opMoviShifted d n lit) σ)

/-- ABS (R177). -/
def opAbs (d : BitVec 7) (a : BitVec 7) (g : BitVec 3) (m : BitVec 1) : KSlot := int1 1 d a g (m = 1) fun _ x => if x.msb then -x else x

/-- ABS in a packet of its own. -/
def execAbs (d : BitVec 7) (a : BitVec 7) (g : BitVec 3) (m : BitVec 1) (σ : State) : Res := .next (runLane (opAbs d a g m) σ)

/-- NEG (R177). -/
def opNeg (d : BitVec 7) (a : BitVec 7) (g : BitVec 3) (m : BitVec 1) : KSlot := int1 1 d a g (m = 1) fun _ x => -x

/-- NEG in a packet of its own. -/
def execNeg (d : BitVec 7) (a : BitVec 7) (g : BitVec 3) (m : BitVec 1) (σ : State) : Res := .next (runLane (opNeg d a g m) σ)

/-- K_CLZ (R177). -/
def opKClz (d : BitVec 7) (a : BitVec 7) (g : BitVec 3) (m : BitVec 1) : KSlot := int1 1 d a g (m = 1) fun w x => BitVec.ofNat w (clzW x)

/-- K_CLZ in a packet of its own. -/
def execKClz (d : BitVec 7) (a : BitVec 7) (g : BitVec 3) (m : BitVec 1) (σ : State) : Res := .next (runLane (opKClz d a g m) σ)

/-- K_POPC (R177). -/
def opKPopc (d : BitVec 7) (a : BitVec 7) (g : BitVec 3) (m : BitVec 1) : KSlot := int1 1 d a g (m = 1) fun w x => BitVec.ofNat w (popcW x)

/-- K_POPC in a packet of its own. -/
def execKPopc (d : BitVec 7) (a : BitVec 7) (g : BitVec 3) (m : BitVec 1) (σ : State) : Res := .next (runLane (opKPopc d a g m) σ)

/-- NOT (R177). -/
def opNot (d : BitVec 7) (a : BitVec 7) (g : BitVec 3) : KSlot := int1 1 d a g false fun _ x => ~~~x

/-- NOT in a packet of its own. -/
def execNot (d : BitVec 7) (a : BitVec 7) (g : BitVec 3) (σ : State) : Res := .next (runLane (opNot d a g) σ)

/-! ### Floating add class, compares and conversions (R177 to R183) -/

/-- FABS (R177). -/
def opFabs (d : BitVec 7) (a : BitVec 7) (g : BitVec 3) : KSlot := lane1 3 d a g fun x => (x &&& 0x7FFFFFFF, 0)

/-- FABS in a packet of its own. -/
def execFabs (d : BitVec 7) (a : BitVec 7) (g : BitVec 3) (σ : State) : Res := .next (runLane (opFabs d a g) σ)

/-- FNEG (R177). -/
def opFneg (d : BitVec 7) (a : BitVec 7) (g : BitVec 3) : KSlot := lane1 3 d a g fun x => (x ^^^ 0x80000000, 0)

/-- FNEG in a packet of its own. -/
def execFneg (d : BitVec 7) (a : BitVec 7) (g : BitVec 3) (σ : State) : Res := .next (runLane (opFneg d a g) σ)

/-- FCLASS (R177). -/
def opFclass (d : BitVec 7) (a : BitVec 7) (g : BitVec 3) : KSlot := lane1 3 d a g fun x => (fclass32 x, 0)

/-- FCLASS in a packet of its own. -/
def execFclass (d : BitVec 7) (a : BitVec 7) (g : BitVec 3) (σ : State) : Res := .next (runLane (opFclass d a g) σ)

/-- FADD (R178). -/
def opFadd (d : BitVec 7) (a : BitVec 7) (b : BitVec 7) (g : BitVec 3) (m : BitVec 2) : KSlot := lane2 3 d a b g (fadd32 (Rm.ofMod m))

/-- FADD in a packet of its own. -/
def execFadd (d : BitVec 7) (a : BitVec 7) (b : BitVec 7) (g : BitVec 3) (m : BitVec 2) (σ : State) : Res := .next (runLane (opFadd d a b g m) σ)

/-- FSUB (R178). -/
def opFsub (d : BitVec 7) (a : BitVec 7) (b : BitVec 7) (g : BitVec 3) (m : BitVec 2) : KSlot := lane2 3 d a b g (fsub32 (Rm.ofMod m))

/-- FSUB in a packet of its own. -/
def execFsub (d : BitVec 7) (a : BitVec 7) (b : BitVec 7) (g : BitVec 3) (m : BitVec 2) (σ : State) : Res := .next (runLane (opFsub d a b g m) σ)

/-- FMIN (R179). -/
def opFmin (d : BitVec 7) (a : BitVec 7) (b : BitVec 7) (g : BitVec 3) (m : BitVec 1) : KSlot := lane2 3 d a b g (fminmax true (m = 1))

/-- FMIN in a packet of its own. -/
def execFmin (d : BitVec 7) (a : BitVec 7) (b : BitVec 7) (g : BitVec 3) (m : BitVec 1) (σ : State) : Res := .next (runLane (opFmin d a b g m) σ)

/-- FMAX (R179). -/
def opFmax (d : BitVec 7) (a : BitVec 7) (b : BitVec 7) (g : BitVec 3) (m : BitVec 1) : KSlot := lane2 3 d a b g (fminmax false (m = 1))

/-- FMAX in a packet of its own. -/
def execFmax (d : BitVec 7) (a : BitVec 7) (b : BitVec 7) (g : BitVec 3) (m : BitVec 1) (σ : State) : Res := .next (runLane (opFmax d a b g m) σ)

/-- FCMP (R180). -/
def opFcmp (c : BitVec 3) (q : BitVec 3) (a : BitVec 7) (b : BitVec 7) (g : BitVec 3) (m : BitVec 1) : KSlot := predOp 3 q a b g (fcmp32 c.toNat (m = 1))

/-- FCMP in a packet of its own. -/
def execFcmp (c : BitVec 3) (q : BitVec 3) (a : BitVec 7) (b : BitVec 7) (g : BitVec 3) (m : BitVec 1) (σ : State) : Res := .next (runLane (opFcmp c q a b g m) σ)

/-- A conversion of f32 to an integer clamped to lo, hi. -/
def cvtToInt (d a : BitVec 7) (g : BitVec 3) (m : BitVec 2) (lo hi : Int) : KSlot :=
  lane1 3 d a g fun x => let r := cvtInt (Rm.ofMod m) lo hi (fv x); (BitVec.ofInt 32 r.1, r.2)

/-- A conversion between two floating formats: narrow values stand in the low bits. -/
def cvtFloat (d a : BitVec 7) (g : BitVec 3) (mode : Rm) (src dst : Fmt) (sat : Bool) : KSlot :=
  lane1 3 d a g fun x => w32 (dst.convTo mode sat (src.decode (x.toNat % 2 ^ src.width)))

/-- CVT_I32_F32 (R181). -/
def opCvtI32F32 (d : BitVec 7) (a : BitVec 7) (g : BitVec 3) (m : BitVec 2) : KSlot := cvtToInt d a g m (-(2 ^ 31)) (2 ^ 31 - 1)

/-- CVT_I32_F32 in a packet of its own. -/
def execCvtI32F32 (d : BitVec 7) (a : BitVec 7) (g : BitVec 3) (m : BitVec 2) (σ : State) : Res := .next (runLane (opCvtI32F32 d a g m) σ)

/-- CVT_N32_F32 (R181). -/
def opCvtN32F32 (d : BitVec 7) (a : BitVec 7) (g : BitVec 3) (m : BitVec 2) : KSlot := cvtToInt d a g m 0 (2 ^ 32 - 1)

/-- CVT_N32_F32 in a packet of its own. -/
def execCvtN32F32 (d : BitVec 7) (a : BitVec 7) (g : BitVec 3) (m : BitVec 2) (σ : State) : Res := .next (runLane (opCvtN32F32 d a g m) σ)

/-- CVT_F32_I32 (R181). -/
def opCvtF32I32 (d : BitVec 7) (a : BitVec 7) (g : BitVec 3) (m : BitVec 2) : KSlot := lane1 3 d a g fun x => w32 (f32.ofInt (Rm.ofMod m) x.toInt)

/-- CVT_F32_I32 in a packet of its own. -/
def execCvtF32I32 (d : BitVec 7) (a : BitVec 7) (g : BitVec 3) (m : BitVec 2) (σ : State) : Res := .next (runLane (opCvtF32I32 d a g m) σ)

/-- CVT_F32_N32 (R181). -/
def opCvtF32N32 (d : BitVec 7) (a : BitVec 7) (g : BitVec 3) (m : BitVec 2) : KSlot := lane1 3 d a g fun x => w32 (f32.ofInt (Rm.ofMod m) x.toNat)

/-- CVT_F32_N32 in a packet of its own. -/
def execCvtF32N32 (d : BitVec 7) (a : BitVec 7) (g : BitVec 3) (m : BitVec 2) (σ : State) : Res := .next (runLane (opCvtF32N32 d a g m) σ)

/-- CVT_F16_F32 (R181). -/
def opCvtF16F32 (d : BitVec 7) (a : BitVec 7) (g : BitVec 3) (m : BitVec 2) : KSlot := cvtFloat d a g (Rm.ofMod m) f32 f16 false

/-- CVT_F16_F32 in a packet of its own. -/
def execCvtF16F32 (d : BitVec 7) (a : BitVec 7) (g : BitVec 3) (m : BitVec 2) (σ : State) : Res := .next (runLane (opCvtF16F32 d a g m) σ)

/-- CVT_BF16_F32 (R181). -/
def opCvtBf16F32 (d : BitVec 7) (a : BitVec 7) (g : BitVec 3) (m : BitVec 2) : KSlot := cvtFloat d a g (Rm.ofMod m) f32 bf16 false

/-- CVT_BF16_F32 in a packet of its own. -/
def execCvtBf16F32 (d : BitVec 7) (a : BitVec 7) (g : BitVec 3) (m : BitVec 2) (σ : State) : Res := .next (runLane (opCvtBf16F32 d a g m) σ)

/-- CVT_F32_F16 (R181). -/
def opCvtF32F16 (d : BitVec 7) (a : BitVec 7) (g : BitVec 3) (m : BitVec 2) : KSlot := cvtFloat d a g .rne f16 f32 false

/-- CVT_F32_F16 in a packet of its own. -/
def execCvtF32F16 (d : BitVec 7) (a : BitVec 7) (g : BitVec 3) (m : BitVec 2) (σ : State) : Res := .next (runLane (opCvtF32F16 d a g m) σ)

/-- CVT_F32_BF16 (R181). -/
def opCvtF32Bf16 (d : BitVec 7) (a : BitVec 7) (g : BitVec 3) (m : BitVec 2) : KSlot := cvtFloat d a g .rne bf16 f32 false

/-- CVT_F32_BF16 in a packet of its own. -/
def execCvtF32Bf16 (d : BitVec 7) (a : BitVec 7) (g : BitVec 3) (m : BitVec 2) (σ : State) : Res := .next (runLane (opCvtF32Bf16 d a g m) σ)

/-- CVT_E4M3_F32_SAT (R181). -/
def opCvtE4m3F32Sat (d : BitVec 7) (a : BitVec 7) (g : BitVec 3) (m : BitVec 2) : KSlot := cvtFloat d a g .rne f32 e4m3 true

/-- CVT_E4M3_F32_SAT in a packet of its own. -/
def execCvtE4m3F32Sat (d : BitVec 7) (a : BitVec 7) (g : BitVec 3) (m : BitVec 2) (σ : State) : Res := .next (runLane (opCvtE4m3F32Sat d a g m) σ)

/-- CVT_E4M3_F32 (R181). -/
def opCvtE4m3F32 (d : BitVec 7) (a : BitVec 7) (g : BitVec 3) (m : BitVec 2) : KSlot := cvtFloat d a g .rne f32 e4m3 false

/-- CVT_E4M3_F32 in a packet of its own. -/
def execCvtE4m3F32 (d : BitVec 7) (a : BitVec 7) (g : BitVec 3) (m : BitVec 2) (σ : State) : Res := .next (runLane (opCvtE4m3F32 d a g m) σ)

/-- CVT_E5M2_F32_SAT (R181). -/
def opCvtE5m2F32Sat (d : BitVec 7) (a : BitVec 7) (g : BitVec 3) (m : BitVec 2) : KSlot := cvtFloat d a g .rne f32 e5m2 true

/-- CVT_E5M2_F32_SAT in a packet of its own. -/
def execCvtE5m2F32Sat (d : BitVec 7) (a : BitVec 7) (g : BitVec 3) (m : BitVec 2) (σ : State) : Res := .next (runLane (opCvtE5m2F32Sat d a g m) σ)

/-- CVT_E5M2_F32 (R181). -/
def opCvtE5m2F32 (d : BitVec 7) (a : BitVec 7) (g : BitVec 3) (m : BitVec 2) : KSlot := cvtFloat d a g .rne f32 e5m2 false

/-- CVT_E5M2_F32 in a packet of its own. -/
def execCvtE5m2F32 (d : BitVec 7) (a : BitVec 7) (g : BitVec 3) (m : BitVec 2) (σ : State) : Res := .next (runLane (opCvtE5m2F32 d a g m) σ)

/-- CVT_F32_E4M3 (R181). -/
def opCvtF32E4m3 (d : BitVec 7) (a : BitVec 7) (g : BitVec 3) (m : BitVec 2) : KSlot := cvtFloat d a g .rne e4m3 f32 false

/-- CVT_F32_E4M3 in a packet of its own. -/
def execCvtF32E4m3 (d : BitVec 7) (a : BitVec 7) (g : BitVec 3) (m : BitVec 2) (σ : State) : Res := .next (runLane (opCvtF32E4m3 d a g m) σ)

/-- CVT_F32_E5M2 (R181). -/
def opCvtF32E5m2 (d : BitVec 7) (a : BitVec 7) (g : BitVec 3) (m : BitVec 2) : KSlot := cvtFloat d a g .rne e5m2 f32 false

/-- CVT_F32_E5M2 in a packet of its own. -/
def execCvtF32E5m2 (d : BitVec 7) (a : BitVec 7) (g : BitVec 3) (m : BitVec 2) (σ : State) : Res := .next (runLane (opCvtF32E5m2 d a g m) σ)

/-- CVT_PLS (R181). -/
def opCvtPls (d : BitVec 7) (a : BitVec 7) (j : BitVec 4) (g : BitVec 3) (m : BitVec 2) : KSlot := lane1 3 d a g fun x => cvtPlane (j.toNat + 1) true x

/-- CVT_PLS in a packet of its own. -/
def execCvtPls (d : BitVec 7) (a : BitVec 7) (j : BitVec 4) (g : BitVec 3) (m : BitVec 2) (σ : State) : Res := .next (runLane (opCvtPls d a j g m) σ)

/-- CVT_PLN (R181). -/
def opCvtPln (d : BitVec 7) (a : BitVec 7) (j : BitVec 4) (g : BitVec 3) (m : BitVec 2) : KSlot := lane1 3 d a g fun x => cvtPlane (j.toNat + 1) false x

/-- CVT_PLN in a packet of its own. -/
def execCvtPln (d : BitVec 7) (a : BitVec 7) (j : BitVec 4) (g : BitVec 3) (m : BitVec 2) (σ : State) : Res := .next (runLane (opCvtPln d a j g m) σ)

/-- SCALB (R182). -/
def opScalb (d : BitVec 7) (a : BitVec 7) (b : BitVec 7) (g : BitVec 3) (m : BitVec 2) : KSlot := lane2 3 d a b g fun x y => scalb32 (Rm.ofMod m) x y.toInt

/-- SCALB in a packet of its own. -/
def execScalb (d : BitVec 7) (a : BitVec 7) (b : BitVec 7) (g : BitVec 3) (m : BitVec 2) (σ : State) : Res := .next (runLane (opScalb d a b g m) σ)

/-- FRND (R182). -/
def opFrnd (d : BitVec 7) (a : BitVec 7) (g : BitVec 3) (m : BitVec 2) : KSlot := lane1 3 d a g (frnd32 (Rm.ofMod m))

/-- FRND in a packet of its own. -/
def execFrnd (d : BitVec 7) (a : BitVec 7) (g : BitVec 3) (m : BitVec 2) (σ : State) : Res := .next (runLane (opFrnd d a g m) σ)

/-- Two f32 values packed into two halves, RNE (R183). -/
def packTwo (f : Fmt) (x y : Word32) : Word32 × Byte :=
  let a := f.conv .rne (fv x)
  let b := f.conv .rne (fv y)
  (ofHalves (BitVec.ofNat 16 b.1) (BitVec.ofNat 16 a.1), a.2 ||| b.2)

/-- PACK_F16 (R183). -/
def opPackF16 (d : BitVec 7) (a : BitVec 7) (b : BitVec 7) (g : BitVec 3) : KSlot := lane2 3 d a b g (packTwo f16)

/-- PACK_F16 in a packet of its own. -/
def execPackF16 (d : BitVec 7) (a : BitVec 7) (b : BitVec 7) (g : BitVec 3) (σ : State) : Res := .next (runLane (opPackF16 d a b g) σ)

/-- PACK_BF16 (R183). -/
def opPackBf16 (d : BitVec 7) (a : BitVec 7) (b : BitVec 7) (g : BitVec 3) : KSlot := lane2 3 d a b g (packTwo bf16)

/-- PACK_BF16 in a packet of its own. -/
def execPackBf16 (d : BitVec 7) (a : BitVec 7) (b : BitVec 7) (g : BitVec 3) (σ : State) : Res := .next (runLane (opPackBf16 d a b g) σ)

/-- PACK_LO (R183). -/
def opPackLo (d : BitVec 7) (a : BitVec 7) (b : BitVec 7) (g : BitVec 3) : KSlot := lane2 3 d a b g fun x y => (ofHalves (loHalf y) (loHalf x), 0)

/-- PACK_LO in a packet of its own. -/
def execPackLo (d : BitVec 7) (a : BitVec 7) (b : BitVec 7) (g : BitVec 3) (σ : State) : Res := .next (runLane (opPackLo d a b g) σ)

/-- PACK_HI (R183). -/
def opPackHi (d : BitVec 7) (a : BitVec 7) (b : BitVec 7) (g : BitVec 3) : KSlot := lane2 3 d a b g fun x y => (ofHalves (hiHalf y) (hiHalf x), 0)

/-- PACK_HI in a packet of its own. -/
def execPackHi (d : BitVec 7) (a : BitVec 7) (b : BitVec 7) (g : BitVec 3) (σ : State) : Res := .next (runLane (opPackHi d a b g) σ)

/-! ### Pairs (R184) -/

/-- The registers of a pair (R30). -/
def pairOf (r : BitVec 7) : List Nat := [r.toNat, r.toNat + 1]

/-- TWOSUM (R184). -/
def opTwosum (d : BitVec 7) (a : BitVec 7) (b : BitVec 7) (g : BitVec 3) : KSlot := lanePair 4 d [a.toNat, b.toNat] g fun xs => Machine.twosum (xs.getD 0 0) (xs.getD 1 0)

/-- TWOSUM in a packet of its own. -/
def execTwosum (d : BitVec 7) (a : BitVec 7) (b : BitVec 7) (g : BitVec 3) (σ : State) : Res := .next (runLane (opTwosum d a b g) σ)

/-- FTWOSUM (R184). -/
def opFtwosum (d : BitVec 7) (a : BitVec 7) (b : BitVec 7) (g : BitVec 3) : KSlot := lanePair 4 d [a.toNat, b.toNat] g fun xs => Machine.ftwosum (xs.getD 0 0) (xs.getD 1 0)

/-- FTWOSUM in a packet of its own. -/
def execFtwosum (d : BitVec 7) (a : BitVec 7) (b : BitVec 7) (g : BitVec 3) (σ : State) : Res := .next (runLane (opFtwosum d a b g) σ)

/-- DWADD (R184). -/
def opDwadd (d : BitVec 7) (a : BitVec 7) (b : BitVec 7) (g : BitVec 3) : KSlot := lanePair 6 d (pairOf a ++ pairOf b) g fun xs =>
    Machine.dwadd (xs.getD 0 0) (xs.getD 1 0) (xs.getD 2 0) (xs.getD 3 0)

/-- DWADD in a packet of its own. -/
def execDwadd (d : BitVec 7) (a : BitVec 7) (b : BitVec 7) (g : BitVec 3) (σ : State) : Res := .next (runLane (opDwadd d a b g) σ)

/-- DWNORM (R184). -/
def opDwnorm (d : BitVec 7) (a : BitVec 7) (g : BitVec 3) : KSlot := lanePair 4 d (pairOf a) g fun xs => Machine.dwnorm (xs.getD 0 0) (xs.getD 1 0)

/-- DWNORM in a packet of its own. -/
def execDwnorm (d : BitVec 7) (a : BitVec 7) (g : BitVec 3) (σ : State) : Res := .next (runLane (opDwnorm d a g) σ)

/-! ### Products (R185 to R189) -/

/-- FMA (R185). -/
def opFma (d : BitVec 7) (a : BitVec 7) (b : BitVec 7) (g : BitVec 3) (m : BitVec 2) : KSlot := lane3 4 d a b g (fma32 (Rm.ofMod m))

/-- FMA in a packet of its own. -/
def execFma (d : BitVec 7) (a : BitVec 7) (b : BitVec 7) (g : BitVec 3) (m : BitVec 2) (σ : State) : Res := .next (runLane (opFma d a b g m) σ)

/-- FMS (R185). -/
def opFms (d : BitVec 7) (a : BitVec 7) (b : BitVec 7) (g : BitVec 3) (m : BitVec 2) : KSlot := lane3 4 d a b g (fms32 (Rm.ofMod m))

/-- FMS in a packet of its own. -/
def execFms (d : BitVec 7) (a : BitVec 7) (b : BitVec 7) (g : BitVec 3) (m : BitVec 2) (σ : State) : Res := .next (runLane (opFms d a b g m) σ)

/-- FMUL (R185). -/
def opFmul (d : BitVec 7) (a : BitVec 7) (b : BitVec 7) (g : BitVec 3) (m : BitVec 2) : KSlot := lane2 4 d a b g (fmul32 (Rm.ofMod m))

/-- FMUL in a packet of its own. -/
def execFmul (d : BitVec 7) (a : BitVec 7) (b : BitVec 7) (g : BitVec 3) (m : BitVec 2) (σ : State) : Res := .next (runLane (opFmul d a b g m) σ)

/-- K_MUL (R189). -/
def opKMul (d : BitVec 7) (a : BitVec 7) (b : BitVec 7) (g : BitVec 3) (m : BitVec 1) : KSlot := int2 3 d a b g (m = 1) fun _ x y => x * y

/-- K_MUL in a packet of its own. -/
def execKMul (d : BitVec 7) (a : BitVec 7) (b : BitVec 7) (g : BitVec 3) (m : BitVec 1) (σ : State) : Res := .next (runLane (opKMul d a b g m) σ)

/-- MULH (R189). -/
def opMulh (d : BitVec 7) (a : BitVec 7) (b : BitVec 7) (g : BitVec 3) (m : BitVec 2) : KSlot := int2 3 d a b g (m.getLsbD 1) fun _ x y =>
    if m.getLsbD 0 then mulHighN x y else mulHighS x y

/-- MULH in a packet of its own. -/
def execMulh (d : BitVec 7) (a : BitVec 7) (b : BitVec 7) (g : BitVec 3) (m : BitVec 2) (σ : State) : Res := .next (runLane (opMulh d a b g m) σ)

/-- TWOPROD (R185). -/
def opTwoprod (d : BitVec 7) (a : BitVec 7) (b : BitVec 7) (g : BitVec 3) : KSlot := lanePair 4 d [a.toNat, b.toNat] g fun xs => Machine.twoprod (xs.getD 0 0) (xs.getD 1 0)

/-- TWOPROD in a packet of its own. -/
def execTwoprod (d : BitVec 7) (a : BitVec 7) (b : BitVec 7) (g : BitVec 3) (σ : State) : Res := .next (runLane (opTwoprod d a b g) σ)

/-- DWMUL (R185). -/
def opDwmul (d : BitVec 7) (a : BitVec 7) (b : BitVec 7) (g : BitVec 3) : KSlot := lanePair 7 d (pairOf a ++ pairOf b) g fun xs =>
    Machine.dwmul (xs.getD 0 0) (xs.getD 1 0) (xs.getD 2 0) (xs.getD 3 0)

/-- DWMUL in a packet of its own. -/
def execDwmul (d : BitVec 7) (a : BitVec 7) (b : BitVec 7) (g : BitVec 3) (σ : State) : Res := .next (runLane (opDwmul d a b g) σ)

/-- DWFMA (R185). -/
def opDwfma (d : BitVec 7) (a : BitVec 7) (b : BitVec 7) (g : BitVec 3) : KSlot := lanePair 8 d (pairOf a ++ pairOf b ++ pairOf d) g fun xs =>
    Machine.dwfma (xs.getD 0 0) (xs.getD 1 0) (xs.getD 2 0) (xs.getD 3 0) (xs.getD 4 0) (xs.getD 5 0)

/-- DWFMA in a packet of its own. -/
def execDwfma (d : BitVec 7) (a : BitVec 7) (b : BitVec 7) (g : BitVec 3) (σ : State) : Res := .next (runLane (opDwfma d a b g) σ)

/-- A fused multiply-add of each half in a 16-bit format (R186). -/
def madHalves (f : Fmt) (mode : Rm) (x y z : Word32) : Word32 × Byte :=
  let one := fun a b c : BitVec 16 => f.fma mode (f.decode a.toNat) (f.decode b.toNat) (f.decode c.toNat)
  let hi := one (hiHalf x) (hiHalf y) (hiHalf z)
  let lo := one (loHalf x) (loHalf y) (loHalf z)
  (ofHalves (BitVec.ofNat 16 hi.1) (BitVec.ofNat 16 lo.1), hi.2 ||| lo.2)

/-- MAD16 (R186). -/
def opMad16 (d : BitVec 7) (a : BitVec 7) (b : BitVec 7) (g : BitVec 3) (m : BitVec 2) : KSlot := lane3 4 d a b g (madHalves f16 (Rm.ofMod m))

/-- MAD16 in a packet of its own. -/
def execMad16 (d : BitVec 7) (a : BitVec 7) (b : BitVec 7) (g : BitVec 3) (m : BitVec 2) (σ : State) : Res := .next (runLane (opMad16 d a b g m) σ)

/-- MADB16 (R186). -/
def opMadb16 (d : BitVec 7) (a : BitVec 7) (b : BitVec 7) (g : BitVec 3) (m : BitVec 2) : KSlot := lane3 4 d a b g (madHalves bf16 (Rm.ofMod m))

/-- MADB16 in a packet of its own. -/
def execMadb16 (d : BitVec 7) (a : BitVec 7) (b : BitVec 7) (g : BitVec 3) (m : BitVec 2) (σ : State) : Res := .next (runLane (opMadb16 d a b g m) σ)

/-- Two bf16 products and an f32 addend, rounded once (R187). -/
def dot2W (mode : Rm) (x y z : Word32) : Word32 × Byte :=
  let e := fun h : BitVec 16 => bf16.decode h.toNat
  let a0 := e (loHalf x)
  let b0 := e (loHalf y)
  let a1 := e (hiHalf x)
  let b1 := e (hiHalf y)
  if a0.mulInv b0 || a1.mulInv b1 || opposed [a0.addend b0, a1.addend b1, fv z] then (nan32, fINV)
  else if a0.isNan || b0.isNan || a1.isNan || b1.isNan || (fv z).isNan then
    (nan32, nanFlags [a0, b0, a1, b1, fv z])
  else w32 (f32.sum mode [a0.mul b0, a1.mul b1, fv z])

/-- DOT2 (R187). -/
def opDot2 (d : BitVec 7) (a : BitVec 7) (b : BitVec 7) (g : BitVec 3) (m : BitVec 2) : KSlot := lane3 5 d a b g (dot2W (Rm.ofMod m))

/-- DOT2 in a packet of its own. -/
def execDot2 (d : BitVec 7) (a : BitVec 7) (b : BitVec 7) (g : BitVec 3) (m : BitVec 2) (σ : State) : Res := .next (runLane (opDot2 d a b g m) σ)

/-- A byte of a word as a signed or natural number. -/
def byteInt (s : Bool) (x : Word32) (i : Nat) : Int :=
  let b := x.extractLsb' (8 * i) 8
  if s then b.toInt else (b.toNat : Int)

/-- Four byte products added to a word, wrapping (R188). -/
def dot4W (m : BitVec 2) (x y z : Word32) : Word32 :=
  let p := fun i => byteInt (m ≠ 1) x i * byteInt (m = 0) y i
  z + BitVec.ofInt 32 (p 0 + p 1 + p 2 + p 3)

/-- DOT4I8 (R188). -/
def opDot4i8 (d : BitVec 7) (a : BitVec 7) (b : BitVec 7) (g : BitVec 3) (m : BitVec 2) : KSlot := lane3 3 d a b g fun x y z => (dot4W m x y z, 0)

/-- DOT4I8 in a packet of its own. -/
def execDot4i8 (d : BitVec 7) (a : BitVec 7) (b : BitVec 7) (g : BitVec 3) (m : BitVec 2) (σ : State) : Res := .next (runLane (opDot4i8 d a b g m) σ)

/-! ### Special functions (R190, R191) -/

/-- RCP (R190). -/
def opRcp (d : BitVec 7) (a : BitVec 7) (g : BitVec 3) (m : BitVec 2) : KSlot := lane1 10 d a g (frcp32 (Rm.ofMod m))

/-- RCP in a packet of its own. -/
def execRcp (d : BitVec 7) (a : BitVec 7) (g : BitVec 3) (m : BitVec 2) (σ : State) : Res := .next (runLane (opRcp d a g m) σ)

/-- RSQ (R190). -/
def opRsq (d : BitVec 7) (a : BitVec 7) (g : BitVec 3) (m : BitVec 2) : KSlot := lane1 10 d a g (frsq32 (Rm.ofMod m))

/-- RSQ in a packet of its own. -/
def execRsq (d : BitVec 7) (a : BitVec 7) (g : BitVec 3) (m : BitVec 2) (σ : State) : Res := .next (runLane (opRsq d a g m) σ)

/-- SQRT (R190). -/
def opSqrt (d : BitVec 7) (a : BitVec 7) (g : BitVec 3) (m : BitVec 2) : KSlot := lane1 14 d a g (fsqrt32 (Rm.ofMod m))

/-- SQRT in a packet of its own. -/
def execSqrt (d : BitVec 7) (a : BitVec 7) (g : BitVec 3) (m : BitVec 2) (σ : State) : Res := .next (runLane (opSqrt d a g m) σ)

/-- DIV (R190). -/
def opDiv (d : BitVec 7) (a : BitVec 7) (b : BitVec 7) (g : BitVec 3) (m : BitVec 2) : KSlot := lane2 16 d a b g (fdiv32 (Rm.ofMod m))

/-- DIV in a packet of its own. -/
def execDiv (d : BitVec 7) (a : BitVec 7) (b : BitVec 7) (g : BitVec 3) (m : BitVec 2) (σ : State) : Res := .next (runLane (opDiv d a b g m) σ)

/-- EXP2 (R190). -/
def opExp2 (d : BitVec 7) (a : BitVec 7) (g : BitVec 3) (m : BitVec 2) : KSlot := lane1 12 d a g (fexp2 (Rm.ofMod m))

/-- EXP2 in a packet of its own. -/
def execExp2 (d : BitVec 7) (a : BitVec 7) (g : BitVec 3) (m : BitVec 2) (σ : State) : Res := .next (runLane (opExp2 d a g m) σ)

/-- LOG2 (R190). -/
def opLog2 (d : BitVec 7) (a : BitVec 7) (g : BitVec 3) (m : BitVec 2) : KSlot := lane1 12 d a g (flog2 (Rm.ofMod m))

/-- LOG2 in a packet of its own. -/
def execLog2 (d : BitVec 7) (a : BitVec 7) (g : BitVec 3) (m : BitVec 2) (σ : State) : Res := .next (runLane (opLog2 d a g m) σ)

/-- SIGM (R190). -/
def opSigm (d : BitVec 7) (a : BitVec 7) (g : BitVec 3) (m : BitVec 2) : KSlot := lane1 14 d a g (fsigm (Rm.ofMod m))

/-- SIGM in a packet of its own. -/
def execSigm (d : BitVec 7) (a : BitVec 7) (g : BitVec 3) (m : BitVec 2) (σ : State) : Res := .next (runLane (opSigm d a g m) σ)

/-- TANH (R190). -/
def opTanh (d : BitVec 7) (a : BitVec 7) (g : BitVec 3) (m : BitVec 2) : KSlot := lane1 14 d a g (ftanh (Rm.ofMod m))

/-- TANH in a packet of its own. -/
def execTanh (d : BitVec 7) (a : BitVec 7) (g : BitVec 3) (m : BitVec 2) (σ : State) : Res := .next (runLane (opTanh d a g m) σ)

/-- RSQE (R191). -/
def opRsqe (d : BitVec 7) (a : BitVec 7) (g : BitVec 3) (m : BitVec 2) : KSlot := lane2 12 d a d g (frsqe32 (Rm.ofMod m))

/-- RSQE in a packet of its own. -/
def execRsqe (d : BitVec 7) (a : BitVec 7) (g : BitVec 3) (m : BitVec 2) (σ : State) : Res := .next (runLane (opRsqe d a g m) σ)

/-- SILU (R190). -/
def opSilu (d : BitVec 7) (a : BitVec 7) (g : BitVec 3) (m : BitVec 2) : KSlot := lane1 16 d a g (fsilu (Rm.ofMod m))

/-- SILU in a packet of its own. -/
def execSilu (d : BitVec 7) (a : BitVec 7) (g : BitVec 3) (m : BitVec 2) (σ : State) : Res := .next (runLane (opSilu d a g m) σ)

end Sys2Proof.Machine
end

