-- ==== Sys2Proof/Machine/KernelMotion.lean ====
section
/-!
DEFINITION. The S and X slots of the kernel set: streams (R196 to R201), the switch and reductions (R202
to R205), mailboxes (R206) and accumulators (R207 to R214).
-/

namespace Sys2Proof.Machine

open Sys2Proof

/-! ### Streams (R197 to R201) -/

/-- The units of a binding, and the window byte address of a lane's word in a unit (R197). -/
def Binding.total (b : Binding) : Nat :=
  if b.words = 0 then b.len / 512 else b.len / (512 * b.words) * b.words
def Binding.addr (b : Binding) (i lane : Nat) : Nat :=
  if b.words = 0 then
    b.base + (if b.dir = .circ then 4 * (128 * i + lane) % b.len else 4 * (128 * i + lane))
  else b.base + 4 * ((128 * (i / b.words) + lane) * b.words + i % b.words)

/-- The window lines of a unit, and those of the record group that it begins or belongs to. -/
def Binding.unitLines (b : Binding) (i : Nat) : List Nat :=
  (allLanes.map fun l => b.addr i l / 128).eraseDups
def Binding.groupLines (b : Binding) (g : Nat) : List Nat :=
  linesOf 0 (b.base + 512 * b.words * g) (512 * b.words)

/-- The chained lines that a pop of unit i waits for, and those that it lets go when it retires (R200). -/
def Binding.waits (b : Binding) (i : Nat) : List Nat :=
  if b.dir ≠ .chainIn then [] else if b.words = 0 then b.unitLines i
  else if i % b.words = 0 then b.groupLines (i / b.words) else []
def Binding.frees (b : Binding) (i : Nat) : List Nat :=
  if b.dir ≠ .chainIn then [] else if b.words = 0 then b.unitLines i
  else if i % b.words = b.words - 1 then b.groupLines (i / b.words) else []

/-- The units that an operation of n units performs. -/
def unitsOf (i n : Nat) : List Nat := (List.range n).map (i + ·)

/-- Whether n units run past the end of the binding (R198). -/
def Binding.overruns (b : Binding) (i n : Nat) : Bool := b.dir ≠ .circ && decide (b.total < i + n)

/-- Whether a chained read of a line by the kernel must wait. -/
def KEnv.unread (e : KEnv) (w : Nat) : Bool :=
  match e.s.findActive e.k.cx .krn e.k.num with
  | some a => !e.s.lineReady e.k.cx a.cmd w
  | none => !((e.s.core e.core).line (e.s.winLine e.k.cx w)).full

/-- The stall of an operation of n units on a stream (R200). -/
def streamStall (n : BitVec 4) (units : Nat) (pop push : Bool) (e : KEnv) : Option Bool :=
  match e.k.bind n.toNat with
  | none => none
  | some b =>
    let us := (unitsOf (e.k.at_ n.toNat) units).filter fun u => decide (u < b.total)
    if pop && b.dir = .chainIn && us.any (fun u => (b.waits u).any e.unread) then some true
    else if push && b.dir = .chainOut &&
        us.any (fun u => (b.unitLines u).any fun w => !e.s.lineFree e.k.cx w) then some true
    else none

/-- The position moved on. -/
def Kernel.advance (k : Kernel) (n units : Nat) : Kernel :=
  { k with pos := smPut 0 k.pos n (k.at_ n + units) }

/-- The lines that the kernel has read whole, let go (R200, R252). -/
def KEnv.letGo (e : KEnv) (b : Binding) (us : List Nat) (t : State) : State :=
  match t.findActive e.k.cx .krn e.k.num with
  | none => t
  | some a => t.modCore e.core fun c =>
      (us.flatMap b.frees).foldl (fun c w => c.release (t.winLine e.k.cx w) (t.holder e.k.cx a.cmd)) c

/-- The words of a unit in some lanes added to a mask by window line. -/
def laneMask (b : Binding) (ls : List Nat) (m : SMap Word32) (i : Nat) : SMap Word32 :=
  ls.foldl (fun m l =>
    let w := b.addr i l / 4
    smPut 0 m (w / 32) (smGet 0 m (w / 32) ||| (1 <<< (w % 32)))) m

/-- The words of a unit counted as pushed (R199). -/
def pushMask (b : Binding) (m : SMap Word32) (i : Nat) : SMap Word32 := laneMask b allLanes m i

/-- Words written to the window by a push or skip of units, and the lines that they complete filled
(R199, R200, R250). -/
def KEnv.push (e : KEnv) (b : Binding) (us : List Nat) (ws : List (Nat × SrfWord)) (t : State) : State :=
  let base := (t.ctx e.k.cx).winBase / 4
  let t := t.modCore e.core fun c => ws.foldl (fun c w => c.setWord (base + w.1 / 4) w.2) c
  let m := us.foldl (pushMask b) e.k.pushed
  (m.filter fun p => p.2 = -1 && smGet 0 e.k.pushed p.1 ≠ -1).foldl
    (fun t p => t.fillWin e.k.cx .krn e.k.num p.1) t

/-- SPOP (R199). -/
def opSpop (d : BitVec 7) (n : BitVec 4) (g : BitVec 3) : KSlot :=
  { stall := streamStall n 1 true false
    eval := fun e =>
      match e.k.bind n.toNat with
      | none => { illegal := true, preds := guardReads g }
      | some b =>
        let i := e.k.at_ n.toNat
        let base := (e.s.ctx e.k.cx).winBase / 4
        { pend := (e.k.lanes g).map fun l =>
            let x := (e.s.core e.core).word (base + b.addr i l / 4)
            .v l d.toNat (e.k.cyc + 2) x.val x.poison (flagIf x.poison fPOI)
          upd := fun k => k.advance n.toNat 1
          act := e.letGo b [i]
          illegal := b.dir.writes
          overrun := b.overruns i 1
          preds := guardReads g } }

/-- SPOP in a packet of its own. -/
def execSpop (d : BitVec 7) (n : BitVec 4) (g : BitVec 3) (σ : State) : Res := .next (runLane (opSpop d n g) σ)

/-- SPUSH (R199). -/
def opSpush (v : BitVec 7) (n : BitVec 4) (g : BitVec 3) : KSlot :=
  { stall := streamStall n 1 false true
    eval := fun e =>
      match e.k.bind n.toNat with
      | none => { illegal := true, preds := guardReads g }
      | some b =>
        let i := e.k.at_ n.toNat
        let ls := e.k.lanes g
        { upd := fun k => { k.advance n.toNat 1 with
            pushed := pushMask b k.pushed i, wrote := laneMask b ls k.wrote i }
          act := e.push b [i] (ls.map fun l =>
            (b.addr i l, ⟨(e.k.vr l v.toNat).val, (e.k.vr l v.toNat).poison⟩))
          illegal := !b.dir.writes
          overrun := b.overruns i 1
          reads := ls.map fun l => (l, v.toNat)
          preds := guardReads g } }

/-- SPUSH in a packet of its own. -/
def execSpush (v : BitVec 7) (n : BitVec 4) (g : BitVec 3) (σ : State) : Res := .next (runLane (opSpush v n g) σ)

/-- SSKIP (R199): on an out or chained-out stream it writes zero words. -/
def opSskip (n : BitVec 4) (n2 : BitVec 10) : KSlot :=
  { stall := streamStall n (n2.toNat + 1) true true
    eval := fun e =>
      match e.k.bind n.toNat with
      | none => { illegal := true }
      | some b =>
        let us := unitsOf (e.k.at_ n.toNat) (n2.toNat + 1)
        { upd := fun k =>
            let k := k.advance n.toNat (n2.toNat + 1)
            if b.dir.writes then { k with
              pushed := us.foldl (pushMask b) k.pushed, wrote := us.foldl (pushMask b) k.wrote } else k
          act := if b.dir.writes then
              e.push b us (us.flatMap fun u => allLanes.map fun l => (b.addr u l, ⟨0, false⟩))
            else e.letGo b us
          overrun := b.overruns (e.k.at_ n.toNat) (n2.toNat + 1) } }

/-- SSKIP in a packet of its own. -/
def execSskip (n : BitVec 4) (n2 : BitVec 10) (σ : State) : Res := .next (runLane (opSskip n n2) σ)

/-- A stream's position, or the units left, in every lane (R199). -/
def countOp (d : BitVec 7) (n : BitVec 4) (f : Binding → Nat → Nat) : KSlot where
  eval e :=
    match e.k.bind n.toNat with
    | none => { illegal := true }
    | some b => (constOp 1 d (BitVec.ofNat 32 (f b (e.k.at_ n.toNat)))).eval e

/-- SCOUNT_POS (R199). -/
def opScountPos (d : BitVec 7) (n : BitVec 4) : KSlot := countOp d n fun _ i => i

/-- SCOUNT_POS in a packet of its own. -/
def execScountPos (d : BitVec 7) (n : BitVec 4) (σ : State) : Res := .next (runLane (opScountPos d n) σ)

/-- SCOUNT_REM (R199). -/
def opScountRem (d : BitVec 7) (n : BitVec 4) : KSlot := countOp d n fun b i => if b.dir = .circ then b.len / 512 - i % (b.len / 512) else b.total - i

/-- SCOUNT_REM in a packet of its own. -/
def execScountRem (d : BitVec 7) (n : BitVec 4) (σ : State) : Res := .next (runLane (opScountRem d n) σ)

/-! ### Switch and reductions (R202 to R205) -/

/-- Each performing lane takes va of a source lane (R202, R203). -/
def switchOp (d a : BitVec 7) (idx : Option (BitVec 7)) (g : BitVec 3) (src : Kernel → Nat → Nat) : KSlot where
  eval e :=
    let ls := e.k.lanes g
    { pend := ls.map fun l =>
        let x := e.k.vr (src e.k l) a.toNat
        .v l d.toNat (e.k.cyc + 6) x.val x.poison 0
      poison := ls.any fun l => (idx.map fun b => (e.k.vr l b.toNat).poison).getD false
      reads := ls.flatMap fun l => (src e.k l, a.toNat) :: (idx.map fun b => (l, b.toNat)).toList
      preds := guardReads g }

/-- COMM (R202). -/
def opComm (d : BitVec 7) (a : BitVec 7) (b : BitVec 7) (g : BitVec 3) : KSlot := switchOp d a (some b) g fun k l => (k.vr l b.toNat).val.toNat % 128

/-- COMM in a packet of its own. -/
def execComm (d : BitVec 7) (a : BitVec 7) (b : BitVec 7) (g : BitVec 3) (σ : State) : Res := .next (runLane (opComm d a b g) σ)

/-- COMM_CL (R202). -/
def opCommCl (d : BitVec 7) (a : BitVec 7) (b : BitVec 7) (g : BitVec 3) : KSlot := switchOp d a (some b) g fun k l => 16 * clusterOf l + (k.vr l b.toNat).val.toNat % 16

/-- COMM_CL in a packet of its own. -/
def execCommCl (d : BitVec 7) (a : BitVec 7) (b : BitVec 7) (g : BitVec 3) (σ : State) : Res := .next (runLane (opCommCl d a b g) σ)

/-- COMMP_ROT (R203). -/
def opCommpRot (d : BitVec 7) (a : BitVec 7) (k : BitVec 7) (g : BitVec 3) : KSlot := switchOp d a none g fun _ l => (l + 128 - k.toNat) % 128

/-- COMMP_ROT in a packet of its own. -/
def execCommpRot (d : BitVec 7) (a : BitVec 7) (k : BitVec 7) (g : BitVec 3) (σ : State) : Res := .next (runLane (opCommpRot d a k g) σ)

/-- COMMP_BC (R203). -/
def opCommpBc (d : BitVec 7) (a : BitVec 7) (k : BitVec 7) (g : BitVec 3) : KSlot := switchOp d a none g fun _ _ => k.toNat

/-- COMMP_BC in a packet of its own. -/
def execCommpBc (d : BitVec 7) (a : BitVec 7) (k : BitVec 7) (g : BitVec 3) (σ : State) : Res := .next (runLane (opCommpBc d a k g) σ)

/-- COMMP_BFLY (R203). -/
def opCommpBfly (d : BitVec 7) (a : BitVec 7) (k : BitVec 7) (g : BitVec 3) : KSlot := switchOp d a none g fun _ l => l ^^^ k.toNat

/-- COMMP_BFLY in a packet of its own. -/
def execCommpBfly (d : BitVec 7) (a : BitVec 7) (k : BitVec 7) (g : BitVec 3) (σ : State) : Res := .next (runLane (opCommpBfly d a k g) σ)

/-- Neighbours of a list combined: one level of the reduction tree (R71). -/
def pairUp {α : Type} (f : α → α → α) : List α → List α
  | x :: y :: rest => f x y :: pairUp f rest
  | xs => xs

/-- The whole tree over 128 lanes. -/
def treeFold {α : Type} (f : α → α → α) (dflt : α) (xs : List α) : α :=
  (pairUp f (pairUp f (pairUp f (pairUp f (pairUp f (pairUp f (pairUp f xs))))))).headD dflt

/-- dwadd of two pairs, collecting flags. -/
def Dw.plus (x y : Dw) : Dw :=
  let r := Machine.dwadd x.hi x.lo y.hi y.lo
  ⟨r.hi, r.lo, x.fl ||| y.fl ||| r.fl⟩

/-- A reduction: every performing lane receives the same words, poisoned if a contribution is. -/
def reduceOp (lat : Nat) (srcs dsts : List Nat) (g : BitVec 3) (f : (Nat → Option (List Word32)) → List Word32 × Byte) :
    KSlot where
  eval e :=
    let ls := e.k.lanes g
    let r := f fun l => if e.k.qr l g.toNat then some (srcs.map fun x => (e.k.vr l x).val) else none
    let bad := ls.any fun l => srcs.any fun x => (e.k.vr l x).poison
    { pend := ls.flatMap fun l => (dsts.zip r.1).map fun d => .v l d.1 (e.k.cyc + lat) d.2 bad r.2
      reads := ls.flatMap fun l => srcs.map fun x => (l, x)
      preds := guardReads g }

/-- CREDUCE (R204). -/
def opCreduce (d : BitVec 7) (a : BitVec 7) (g : BitVec 3) : KSlot := reduceOp 20 (pairOf a) (pairOf d) g fun src =>
    let r := treeFold Dw.plus ⟨0, 0, 0⟩ (allLanes.map fun l =>
      match src l with
      | some [h, o] => ⟨h, o, 0⟩
      | _ => ⟨0, 0, 0⟩)
    ([r.hi, r.lo], r.fl)

/-- CREDUCE in a packet of its own. -/
def execCreduce (d : BitVec 7) (a : BitVec 7) (g : BitVec 3) (σ : State) : Res := .next (runLane (opCreduce d a g) σ)

/-- An integer reduction operator of words with its identity (Table 7.8). -/
def reduceWord (o : Nat) : (Word32 → Word32 → Word32) × Word32 :=
  match o with
  | 0 => ((· + ·), 0)
  | 1 => (fun x y => if x.slt y then x else y, 0x7FFFFFFF)
  | 2 => (fun x y => if x.ult y then x else y, 0xFFFFFFFF)
  | 3 => (fun x y => if x.slt y then y else x, 0x80000000)
  | 4 => (fun x y => if x.ult y then y else x, 0)
  | 5 => ((· &&& ·), 0xFFFFFFFF)
  | 6 => ((· ||| ·), 0)
  | _ => ((· ^^^ ·), 0)

/-- IREDUCE (R205). -/
def opIreduce (d : BitVec 7) (a : BitVec 7) (o : BitVec 7) (g : BitVec 3) : KSlot := reduceOp 12 [a.toNat] (if o.toNat < 8 then [d.toNat] else pairOf d) g fun src =>
    if o.toNat < 8 then
      let (f, z) := reduceWord o.toNat
      ([treeFold f z (allLanes.map fun l => ((src l).map fun xs => xs.getD 0 0).getD z)], 0)
    else
      let x : Word := treeFold (· + ·) 0 (allLanes.map fun l =>
        ((src l).map fun xs =>
          if o.toNat = 8 then (xs.getD 0 0).signExtend 64 else (xs.getD 0 0).zeroExtend 64).getD 0)
      ([x.extractLsb' 32 32, x.extractLsb' 0 32], 0)

/-- IREDUCE in a packet of its own. -/
def execIreduce (d : BitVec 7) (a : BitVec 7) (o : BitVec 7) (g : BitVec 3) (σ : State) : Res := .next (runLane (opIreduce d a o g) σ)

/-! ### Mailboxes (R206) -/

/-- A kernel waits while a mailbox is not in the state that it needs. Where the CP has used the mailbox in
this ac, the kernel's operation falls into a later one, since it comes first in its ac (R31). -/
def mbStall (e : KEnv) (m : BitVec 4) (full : Bool) : Option Bool :=
  let c := e.s.ctx e.k.cx
  if (c.mb m.toNat).full = full && !c.mbCp.contains m.toNat then none else some false

/-- A mailbox read into every lane; it empties the mailbox unless keep is set. -/
def mbrOp (dsts : List Nat) (m : BitVec 4) (keep : BitVec 1) (f : Word → List Word32) : KSlot where
  stall e := mbStall e m true
  eval e :=
    let b := (e.s.ctx e.k.cx).mb m.toNat
    { (lanesOp 0 2 [] dsts fun _ => (f b.val, 0)).eval e with
      act := fun t => if keep = 1 then t
        else t.modCtx e.k.cx fun c => c.setMb m.toNat { b with full := false } }

/-- MBR_LO (R206). -/
def opMbrLo (d : BitVec 7) (m : BitVec 4) (k : BitVec 1) : KSlot := mbrOp [d.toNat] m k fun x => [x.extractLsb' 0 32]

/-- MBR_LO in a packet of its own. -/
def execMbrLo (d : BitVec 7) (m : BitVec 4) (k : BitVec 1) (σ : State) : Res := .next (runLane (opMbrLo d m k) σ)

/-- MBR_HI (R206). -/
def opMbrHi (d : BitVec 7) (m : BitVec 4) (k : BitVec 1) : KSlot := mbrOp [d.toNat] m k fun x => [x.extractLsb' 32 32]

/-- MBR_HI in a packet of its own. -/
def execMbrHi (d : BitVec 7) (m : BitVec 4) (k : BitVec 1) (σ : State) : Res := .next (runLane (opMbrHi d m k) σ)

/-- MBR_PAIR (R206). -/
def opMbrPair (d : BitVec 7) (m : BitVec 4) (k : BitVec 1) : KSlot := mbrOp (pairOf d) m k fun x => [x.extractLsb' 32 32, x.extractLsb' 0 32]

/-- MBR_PAIR in a packet of its own. -/
def execMbrPair (d : BitVec 7) (m : BitVec 4) (k : BitVec 1) (σ : State) : Res := .next (runLane (opMbrPair d m k) σ)

/-- A mailbox written from one lane's registers; a poisoned word traps. -/
def mbwOp (srcs : List Nat) (m : BitVec 4) (lane : BitVec 7) (f : List Word32 → Word) : KSlot where
  stall e := mbStall e m false
  eval e :=
    let xs := srcs.map (e.k.vr lane.toNat)
    { act := fun t => t.modCtx e.k.cx fun c => c.setMb m.toNat ⟨f (xs.map LaneReg.val), true⟩
      poison := xs.any LaneReg.poison
      reads := srcs.map fun r => (lane.toNat, r) }

/-- MBW_WORD (R206). -/
def opMbwWord (v : BitVec 7) (m : BitVec 4) (l : BitVec 7) : KSlot := mbwOp [v.toNat] m l fun xs => (xs.getD 0 0).zeroExtend 64

/-- MBW_WORD in a packet of its own. -/
def execMbwWord (v : BitVec 7) (m : BitVec 4) (l : BitVec 7) (σ : State) : Res := .next (runLane (opMbwWord v m l) σ)

/-- MBW_PAIR (R206). -/
def opMbwPair (v : BitVec 7) (m : BitVec 4) (l : BitVec 7) : KSlot := mbwOp (pairOf v) m l fun xs => xs.getD 0 0 ++ xs.getD 1 0

/-- MBW_PAIR in a packet of its own. -/
def execMbwPair (v : BitVec 7) (m : BitVec 4) (l : BitVec 7) (σ : State) : Res := .next (runLane (opMbwPair v m l) σ)

/-! ### Accumulators (R207 to R213) -/

/-- Whether a task may name a slot, and an XA tile at it (R33). -/
def slotOk (n k : Nat) : Bool := decide (k < n)
def xaOk (n k : Nat) : Bool := (k = 0 && decide (4 ≤ n)) || (k = 4 && n = 8)

/-- An X-slot operation of each lane on its cluster's storage: index register, further sources, whether
it names an XA tile, and what it gives for a lane. -/
def accOp (k : BitVec 3) (a : BitVec 7) (srcs : List Nat) (g : BitVec 3) (xa : Bool)
    (f : KEnv → Nat → Word32 → List Word32 → List Pend) : KSlot where
  eval e :=
    let ls := e.k.lanes g
    let n := (e.s.ctx e.k.cx).slots.length
    { pend := ls.flatMap fun l => f e l (e.k.vr l a.toNat).val (srcs.map fun r => (e.k.vr l r).val)
      illegal := if xa then !xaOk n k.toNat else !slotOk n k.toNat
      poison := ls.any fun l => (a.toNat :: srcs).any fun r => (e.k.vr l r).poison
      reads := ls.flatMap fun l => (a.toNat :: srcs).map fun r => (l, r)
      preds := guardReads g }

/-- The physical slot of an operation, the entry that an index names, and its exponent field (R207). -/
def KEnv.slot (e : KEnv) (k : BitVec 3) : Nat := (e.s.ctx e.k.cx).slotOf k.toNat
def entryIdx (b : Word32) : Nat := b.toNat % 4096
def fieldIdx (b : Word32) : Nat := b.toNat % 128

/-- The I64 entry scaled by its fields, as n × 2^x; 0 where a field is 0 or 255 (R208). -/
def scaledEntry (c : CoreSt) (cl p i : Nat) : Int × Int :=
  let er := (c.efield cl p (i / 64)).toNat
  let ec := (c.efield cl p (64 + i % 64)).toNat
  if er = 0 ∨ er = 255 ∨ ec = 0 ∨ ec = 255 then (0, 0)
  else ((c.entry cl p i).toInt, (er : Int) + ec - 254)

/-- ARD: a converted entry, at latency 6 (R208). -/
def ardOp (d : BitVec 7) (k : BitVec 3) (a : BitVec 7) (g : BitVec 3) (xa : Bool)
    (f : CoreSt → Nat → Nat → Word32 → Word32 × Byte) : KSlot :=
  accOp k a [] g xa fun e l b _ =>
    let r := f (e.s.core e.core) (clusterOf l) (e.slot k) b
    [.v l d.toNat (e.k.cyc + 6) r.1 false r.2]

/-- ARD_F32 (R208). -/
def opArdF32 (d : BitVec 7) (k : BitVec 3) (a : BitVec 7) (g : BitVec 3) : KSlot := ardOp d k a g false fun c cl p b =>
    let r := scaledEntry c cl p (entryIdx b); exactToF32 r.1 r.2

/-- ARD_F32 in a packet of its own. -/
def execArdF32 (d : BitVec 7) (k : BitVec 3) (a : BitVec 7) (g : BitVec 3) (σ : State) : Res := .next (runLane (opArdF32 d k a g) σ)

/-- ARD_I32 (R208). -/
def opArdI32 (d : BitVec 7) (k : BitVec 3) (a : BitVec 7) (g : BitVec 3) : KSlot := ardOp d k a g false fun c cl p b =>
    let r := scaledEntry c cl p (entryIdx b); exactToI32 r.1 r.2

/-- ARD_I32 in a packet of its own. -/
def execArdI32 (d : BitVec 7) (k : BitVec 3) (a : BitVec 7) (g : BitVec 3) (σ : State) : Res := .next (runLane (opArdI32 d k a g) σ)

/-- ARD_XA_F32 (R208). -/
def opArdXaF32 (d : BitVec 7) (k : BitVec 3) (a : BitVec 7) (g : BitVec 3) : KSlot := ardOp d k a g true fun c cl p b => exactToF32 (sxt 256 (c.xa cl p (entryIdx b))) (-160)

/-- ARD_XA_F32 in a packet of its own. -/
def execArdXaF32 (d : BitVec 7) (k : BitVec 3) (a : BitVec 7) (g : BitVec 3) (σ : State) : Res := .next (runLane (opArdXaF32 d k a g) σ)

/-- ARD_XA_I32 (R208). -/
def opArdXaI32 (d : BitVec 7) (k : BitVec 3) (a : BitVec 7) (g : BitVec 3) : KSlot := ardOp d k a g true fun c cl p b => exactToI32 (sxt 256 (c.xa cl p (entryIdx b))) (-160)

/-- ARD_XA_I32 in a packet of its own. -/
def execArdXaI32 (d : BitVec 7) (k : BitVec 3) (a : BitVec 7) (g : BitVec 3) (σ : State) : Res := .next (runLane (opArdXaI32 d k a g) σ)

/-- ARD_EXP (R208). -/
def opArdExp (d : BitVec 7) (k : BitVec 3) (a : BitVec 7) (g : BitVec 3) : KSlot := ardOp d k a g false fun c cl p b => ((c.efield cl p (fieldIdx b)).zeroExtend 32, 0)

/-- ARD_EXP in a packet of its own. -/
def execArdExp (d : BitVec 7) (k : BitVec 3) (a : BitVec 7) (g : BitVec 3) (σ : State) : Res := .next (runLane (opArdExp d k a g) σ)

/-- The 64 bits of an entry of a slot, or of a quarter of an XA entry, into a pair (R209). -/
def ard2Op (d : BitVec 7) (k : BitVec 3) (a : BitVec 7) (g : BitVec 3) (xa : Bool) (q : Nat) : KSlot :=
  accOp k a [] g xa fun e l b _ =>
    let x := (e.s.core e.core).entry (clusterOf l) (e.slot k + q) (entryIdx b)
    [.v l d.toNat (e.k.cyc + 6) (x.extractLsb' 32 32) false 0,
     .v l (d.toNat + 1) (e.k.cyc + 6) (x.extractLsb' 0 32) false 0]

/-- ARD2 (R209). -/
def opArd2 (d : BitVec 7) (k : BitVec 3) (a : BitVec 7) (g : BitVec 3) : KSlot := ard2Op d k a g false 0

/-- ARD2 in a packet of its own. -/
def execArd2 (d : BitVec 7) (k : BitVec 3) (a : BitVec 7) (g : BitVec 3) (σ : State) : Res := .next (runLane (opArd2 d k a g) σ)

/-- ARD2_Q (R209). -/
def opArd2Q (d : BitVec 7) (k : BitVec 3) (q : BitVec 2) (a : BitVec 7) (g : BitVec 3) : KSlot := ard2Op d k a g true q.toNat

/-- ARD2_Q in a packet of its own. -/
def execArd2Q (d : BitVec 7) (k : BitVec 3) (q : BitVec 2) (a : BitVec 7) (g : BitVec 3) (σ : State) : Res := .next (runLane (opArd2Q d k q a g) σ)

/-- AWR_I32 (R210). -/
def opAwrI32 (v : BitVec 7) (k : BitVec 3) (a : BitVec 7) (g : BitVec 3) : KSlot := accOp k a [v.toNat] g false fun e l b xs =>
    [.acc k.toNat (clusterOf l) (entryIdx b) (e.k.cyc + 2) ((xs.getD 0 0).signExtend 64)]

/-- AWR_I32 in a packet of its own. -/
def execAwrI32 (v : BitVec 7) (k : BitVec 3) (a : BitVec 7) (g : BitVec 3) (σ : State) : Res := .next (runLane (opAwrI32 v k a g) σ)

/-- AWR_PAIR (R210). -/
def opAwrPair (v : BitVec 7) (k : BitVec 3) (a : BitVec 7) (g : BitVec 3) : KSlot := accOp k a (pairOf v) g false fun e l b xs =>
    [.acc k.toNat (clusterOf l) (entryIdx b) (e.k.cyc + 2) (xs.getD 0 0 ++ xs.getD 1 0)]

/-- AWR_PAIR in a packet of its own. -/
def execAwrPair (v : BitVec 7) (k : BitVec 3) (a : BitVec 7) (g : BitVec 3) (σ : State) : Res := .next (runLane (opAwrPair v k a g) σ)

/-- AWR_EXP (R210). -/
def opAwrExp (v : BitVec 7) (k : BitVec 3) (a : BitVec 7) (g : BitVec 3) : KSlot := accOp k a [v.toNat] g false fun e l b xs =>
    [.field k.toNat (clusterOf l) (fieldIdx b) (e.k.cyc + 2) ((xs.getD 0 0).extractLsb' 0 8)]

/-- AWR_EXP in a packet of its own. -/
def execAwrExp (v : BitVec 7) (k : BitVec 3) (a : BitVec 7) (g : BitVec 3) (σ : State) : Res := .next (runLane (opAwrExp v k a g) σ)

/-- ADEP (R59, R207): deposits apply in ascending lanes. -/
def opAdep (v : BitVec 7) (k : BitVec 3) (a : BitVec 7) (g : BitVec 3) : KSlot := accOp k a [v.toNat] g true fun e l b xs =>
    [.dep k.toNat (clusterOf l) (entryIdx b) (e.k.cyc + 2) (xs.getD 0 0)]

/-- ADEP in a packet of its own. -/
def execAdep (v : BitVec 7) (k : BitVec 3) (a : BitVec 7) (g : BitVec 3) (σ : State) : Res := .next (runLane (opAdep v k a g) σ)

/-- ASCL (R213). -/
def opAscl (v : BitVec 7) (k : BitVec 3) (a : BitVec 7) (g : BitVec 3) : KSlot := accOp k a [v.toNat] g false fun e l b xs =>
    [.ascl k.toNat (clusterOf l) (fieldIdx b) (e.k.cyc + 2) ((xs.getD 0 0).extractLsb' 0 8).toInt]

/-- ASCL in a packet of its own. -/
def execAscl (v : BitVec 7) (k : BitVec 3) (a : BitVec 7) (g : BitVec 3) (σ : State) : Res := .next (runLane (opAscl v k a g) σ)

/-- AZERO: each cluster's own slot (R211). -/
def azeroOp (k : BitVec 3) (xa : Bool) : KSlot where
  eval e :=
    let n := (e.s.ctx e.k.cx).slots.length
    { pend := [.zero k.toNat (e.k.cyc + 2) xa], illegal := if xa then !xaOk n k.toNat else !slotOk n k.toNat }

/-- AZERO (R211). -/
def opAzero (k : BitVec 3) : KSlot := azeroOp k false

/-- AZERO in a packet of its own. -/
def execAzero (k : BitVec 3) (σ : State) : Res := .next (runLane (opAzero k) σ)

/-- AZERO_XA (R211). -/
def opAzeroXa (k : BitVec 3) : KSlot := azeroOp k true

/-- AZERO_XA in a packet of its own. -/
def execAzeroXa (k : BitVec 3) (σ : State) : Res := .next (runLane (opAzeroXa k) σ)

/-- ASTAT: the slot's status word in each lane's cluster; the clearing form clears it at issue. What the same ac
has set is not shown and stays (R212, R347). -/
def astatOp (d : BitVec 7) (k : BitVec 3) (clear : Bool) : KSlot where
  eval e :=
    let n := (e.s.ctx e.k.cx).slots.length
    let p := e.slot k
    { pend := allLanes.map fun l =>
        .v l d.toNat (e.k.cyc + 6) (((e.s.core e.core).tileRead (clusterOf l) p).zeroExtend 32) false 0
      act := fun t => if clear then
          t.modCore e.core fun c => (List.range 8).foldl (fun c cl => c.clearTile cl p) c else t
      illegal := !slotOk n k.toNat }

/-- ASTAT (R212). -/
def opAstat (d : BitVec 7) (k : BitVec 3) : KSlot := astatOp d k false

/-- ASTAT in a packet of its own. -/
def execAstat (d : BitVec 7) (k : BitVec 3) (σ : State) : Res := .next (runLane (opAstat d k) σ)

/-- ASTAT_CLR (R212). -/
def opAstatClr (d : BitVec 7) (k : BitVec 3) : KSlot := astatOp d k true

/-- ASTAT_CLR in a packet of its own. -/
def execAstatClr (d : BitVec 7) (k : BitVec 3) (σ : State) : Res := .next (runLane (opAstatClr d k) σ)

end Sys2Proof.Machine
end

