-- ==== Sys2Proof/Machine/KernelRun.lean ====
section
/-!
DEFINITION. How kernels run: packets fetched and issued (R81, R82, R388, R391), the start and end of a
KRUN (R151 to R153), and the freeze, delivery and resumption of kernels (R328 to R330).
-/

namespace Sys2Proof.Machine

open Sys2Proof

/-- The evaluation of each operation of the A, M, F, S and X slots. -/
def laneSlot : Instr → Option KSlot
  | .kAdd d a b g m => some (opKAdd d a b g m)
  | .kSub d a b g m => some (opKSub d a b g m)
  | .kAnd d a b g => some (opKAnd d a b g)
  | .kOr d a b g => some (opKOr d a b g)
  | .kXor d a b g => some (opKXor d a b g)
  | .kAndn d a b g => some (opKAndn d a b g)
  | .kShl d a b g m => some (opKShl d a b g m)
  | .kShr d a b g m => some (opKShr d a b g m)
  | .kSra d a b g m => some (opKSra d a b g m)
  | .min d a b g m => some (opMin d a b g m)
  | .max d a b g m => some (opMax d a b g m)
  | .kCmp c q a b g m => some (opKCmp c q a b g m)
  | .kSel d a b g m => some (opKSel d a b g m)
  | .kBfxN d v w o => some (opKBfxN d v w o)
  | .kBfxI d v w o => some (opKBfxI d v w o)
  | .kBfi d v w o => some (opKBfi d v w o)
  | .kFshl d v n => some (opKFshl d v n)
  | .kFshr d v n => some (opKFshr d v n)
  | .movi d i => some (opMovi d i)
  | .moviHigh d i => some (opMoviHigh d i)
  | .moviLiteral d h i lit => some (opMoviLiteral d h i lit)
  | .moviShifted d n lit => some (opMoviShifted d n lit)
  | .abs d a g m => some (opAbs d a g m)
  | .neg d a g m => some (opNeg d a g m)
  | .kClz d a g m => some (opKClz d a g m)
  | .kPopc d a g m => some (opKPopc d a g m)
  | .not_ d a g => some (opNot d a g)
  | .fabs d a g => some (opFabs d a g)
  | .fneg d a g => some (opFneg d a g)
  | .fclass d a g => some (opFclass d a g)
  | .fadd d a b g m => some (opFadd d a b g m)
  | .fsub d a b g m => some (opFsub d a b g m)
  | .fmin d a b g m => some (opFmin d a b g m)
  | .fmax d a b g m => some (opFmax d a b g m)
  | .fcmp c q a b g m => some (opFcmp c q a b g m)
  | .cvtI32F32 d a g m => some (opCvtI32F32 d a g m)
  | .cvtN32F32 d a g m => some (opCvtN32F32 d a g m)
  | .cvtF32I32 d a g m => some (opCvtF32I32 d a g m)
  | .cvtF32N32 d a g m => some (opCvtF32N32 d a g m)
  | .cvtF16F32 d a g m => some (opCvtF16F32 d a g m)
  | .cvtBf16F32 d a g m => some (opCvtBf16F32 d a g m)
  | .cvtF32F16 d a g m => some (opCvtF32F16 d a g m)
  | .cvtF32Bf16 d a g m => some (opCvtF32Bf16 d a g m)
  | .cvtE4m3F32Sat d a g m => some (opCvtE4m3F32Sat d a g m)
  | .cvtE4m3F32 d a g m => some (opCvtE4m3F32 d a g m)
  | .cvtE5m2F32Sat d a g m => some (opCvtE5m2F32Sat d a g m)
  | .cvtE5m2F32 d a g m => some (opCvtE5m2F32 d a g m)
  | .cvtF32E4m3 d a g m => some (opCvtF32E4m3 d a g m)
  | .cvtF32E5m2 d a g m => some (opCvtF32E5m2 d a g m)
  | .cvtPls d a j g m => some (opCvtPls d a j g m)
  | .cvtPln d a j g m => some (opCvtPln d a j g m)
  | .scalb d a b g m => some (opScalb d a b g m)
  | .frnd d a g m => some (opFrnd d a g m)
  | .packF16 d a b g => some (opPackF16 d a b g)
  | .packBf16 d a b g => some (opPackBf16 d a b g)
  | .packLo d a b g => some (opPackLo d a b g)
  | .packHi d a b g => some (opPackHi d a b g)
  | .twosum d a b g => some (opTwosum d a b g)
  | .ftwosum d a b g => some (opFtwosum d a b g)
  | .dwadd d a b g => some (opDwadd d a b g)
  | .dwnorm d a g => some (opDwnorm d a g)
  | .fma d a b g m => some (opFma d a b g m)
  | .fms d a b g m => some (opFms d a b g m)
  | .fmul d a b g m => some (opFmul d a b g m)
  | .kMul d a b g m => some (opKMul d a b g m)
  | .mulh d a b g m => some (opMulh d a b g m)
  | .twoprod d a b g => some (opTwoprod d a b g)
  | .dwmul d a b g => some (opDwmul d a b g)
  | .dwfma d a b g => some (opDwfma d a b g)
  | .mad16 d a b g m => some (opMad16 d a b g m)
  | .madb16 d a b g m => some (opMadb16 d a b g m)
  | .dot2 d a b g m => some (opDot2 d a b g m)
  | .dot4i8 d a b g m => some (opDot4i8 d a b g m)
  | .rcp d a g m => some (opRcp d a g m)
  | .rsq d a g m => some (opRsq d a g m)
  | .sqrt d a g m => some (opSqrt d a g m)
  | .div d a b g m => some (opDiv d a b g m)
  | .exp2 d a g m => some (opExp2 d a g m)
  | .log2 d a g m => some (opLog2 d a g m)
  | .sigm d a g m => some (opSigm d a g m)
  | .tanh d a g m => some (opTanh d a g m)
  | .rsqe d a g m => some (opRsqe d a g m)
  | .silu d a g m => some (opSilu d a g m)
  | .spop d n g => some (opSpop d n g)
  | .spush v n g => some (opSpush v n g)
  | .sskip n n2 => some (opSskip n n2)
  | .scountPos d n => some (opScountPos d n)
  | .scountRem d n => some (opScountRem d n)
  | .comm d a b g => some (opComm d a b g)
  | .commCl d a b g => some (opCommCl d a b g)
  | .commpRot d a k g => some (opCommpRot d a k g)
  | .commpBc d a k g => some (opCommpBc d a k g)
  | .commpBfly d a k g => some (opCommpBfly d a k g)
  | .creduce d a g => some (opCreduce d a g)
  | .ireduce d a o g => some (opIreduce d a o g)
  | .mbrLo d m k => some (opMbrLo d m k)
  | .mbrHi d m k => some (opMbrHi d m k)
  | .mbrPair d m k => some (opMbrPair d m k)
  | .mbwWord v m l => some (opMbwWord v m l)
  | .mbwPair v m l => some (opMbwPair v m l)
  | .ardF32 d k a g => some (opArdF32 d k a g)
  | .ardI32 d k a g => some (opArdI32 d k a g)
  | .ardXaF32 d k a g => some (opArdXaF32 d k a g)
  | .ardXaI32 d k a g => some (opArdXaI32 d k a g)
  | .ardExp d k a g => some (opArdExp d k a g)
  | .ard2 d k a g => some (opArd2 d k a g)
  | .ard2Q d k q a g => some (opArd2Q d k q a g)
  | .awrI32 v k a g => some (opAwrI32 v k a g)
  | .awrPair v k a g => some (opAwrPair v k a g)
  | .awrExp v k a g => some (opAwrExp v k a g)
  | .adep v k a g => some (opAdep v k a g)
  | .ascl v k a g => some (opAscl v k a g)
  | .azero k => some (opAzero k)
  | .azeroXa k => some (opAzeroXa k)
  | .astat d k => some (opAstat d k)
  | .astatClr d k => some (opAstatClr d k)
  | _ => none

/-- The evaluation of a decoded operation. -/
def opSlot : KOp → KSlot
  | .lane i => (laneSlot i).getD { eval := fun _ => { illegal := true } }
  | .seq o => seqSlot o

/-! ### Kernel code memory (R313, R388, R391) -/

/-- A word that kernel code memory holds of the packet whose header is at `pkt`. -/
def CoreSt.kword (c : CoreSt) (pasid : BitVec 20) (pkt va : Word) : Option Word32 :=
  (c.kcode.find? fun x => x.pasid = pasid && x.pkt = pkt && x.va = va).map KCode.word

/-- The address of a word of a kernel's image. -/
def Kernel.va (k : Kernel) (pc : Int) : Word := k.image + BitVec.ofInt 64 (4 * pc)

/-- Words of a packet that stand in kernel code memory; none where one is absent. -/
def CoreSt.kwords (c : CoreSt) (k : Kernel) (pc : Int) : Nat → Option (List Nat)
  | 0 => some []
  | n + 1 =>
    match c.kword k.pasid (k.va k.pc) (k.va pc), c.kwords k (pc + 1) n with
    | some w, some ws => some (w.toNat :: ws)
    | _, _ => none

/-- The next packet: its header and its slot words. -/
def CoreSt.packet (c : CoreSt) (k : Kernel) : Option (Nat × List Nat) :=
  match c.kword k.pasid (k.va k.pc) (k.va k.pc) with
  | none => none
  | some h => (c.kwords k (k.pc + 1) (packetLen h.toNat - 1)).map fun ws => (h.toNat, ws)

/-- Words of a packet read into kernel code memory, which holds 65,536, in place of older copies; the
first fault met, or whether a shootdown, a lock or a die in C3 holds the read. The sequencer has no path to host memory
(R36): a page there is as one that is not backed (DESIGN CHOICE, log 161). -/
def State.fetchWords (s : State) (g part : Nat) (pasid : BitVec 20) (image pkt : Word) :
    Nat → Word → State × Option (Word × Nat) × Bool
  | 0, _ => (s, none, false)
  | n + 1, va =>
    match s.translate g part pasid va true false with
    | (.held, t) => (t, none, true)
    | (.fault c, t) => (t, some (va, c), false)
    | (.hit p, t) =>
      let (h, a) := t.placeOf p va
      if h then (t, some (va, 7), false)
      else if t.shut h a 4 then (t.rouse h a, none, true)
      else
      let (bs, t) := t.rdPlace h a 4
      (t.modCore g fun c => { c with
        kcode := ({ pasid := pasid, pkt := pkt, va := va, word := BitVec.ofNat 32 (leNat bs), image := image } ::
          c.kcode.filter fun x => x.pasid ≠ pasid || x.pkt ≠ pkt || x.va ≠ va).take 65536 }).fetchWords g part pasid
            image pkt n (va + 4)

/-- A kernel leaves the array and its KRUN completes; results in flight are lost. -/
def State.dropKernel (s : State) (g : Nat) (k : Kernel) (st sub : Nat) (va : Word) : State :=
  (s.setKern g none).endKernel { k with pend := [] } st sub 0 va

/-- The next packet's words are brought in, all from memory as it is now; a translation that fails writes an entry and stalls the
sequencer, and its refusal ends the KRUN with status 2 (R314). -/
def execKernelCodeFetch (core : Nat) (s : State) : Res :=
  .next ((match (s.core core).kern with
     | none => s
     | some k =>
       if s.stopped k.cx then s
       else match s.faults.find? (fun e => e.who = .kcode k.cx k.num) with
       | some e =>
         let t := { s with faults := s.faults.filter fun x => x.id ≠ e.id }
         (match e.answer with
          | none => s
          | some true => t
          | some false => t.dropKernel core k 2 0 e.va)
       | none =>
         if k.ended || decide (k.pc < 0) || ((s.core core).packet k).isSome then s
         else
           let part := (s.ctx k.cx).part
           let r := match s.fetchWords core part k.pasid k.image (k.va k.pc) 1 (k.va k.pc) with
             | (t, none, false) => match (t.core core).kword k.pasid (k.va k.pc) (k.va k.pc) with
               | none => (t, none, false)
               | some h => t.fetchWords core part k.pasid k.image (k.va k.pc) (packetLen h.toNat - 1) (k.va (k.pc + 1))
             | r => r
           match r with
           | (t, none, true) => s.heard t
           | (t, none, false) => t
           | (t, some (va, c), _) =>
             if t.faultRoom (dieOf core) then
               s.addFault (some k.cx) { faultBase (dieOf core) va 5 c 3 0 (.kcode k.cx k.num) with read := true }
             else s))

/-! ### Issue cycles (R39) -/

/-- The operations of a packet, or its decode fault. -/
def packetOps (h : Nat) (ws : List Nat) : List KSlot ⊕ Nat :=
  match decodePacket h ws with
  | .inr sub => .inr sub
  | .inl l => .inl (l.map fun p => opSlot p.2)

/-- Whether a word of the kernel's next packet holds an uncorrectable soft error (R331). -/
def CoreSt.codeSoft (c : CoreSt) (k : Kernel) (len : Nat) : Bool :=
  (List.range len).any fun (i : Nat) => c.kcode.any fun x => x.pasid = k.pasid && x.pkt = k.va k.pc && x.va = k.va (k.pc + i) && x.soft

/-- How many further packets are sure to follow in sequence, of those that `left` allows: none after the one that ends
the kernel or is not legal, and two after a jump (R217, R220). -/
def packetsAfter (left : Nat) (h : Nat) (ws : List Nat) : Nat :=
  match decodePacket h ws with
  | .inr _ => 0
  | .inl l =>
    if l.any fun p => decide (p.2 = .seq .kend) then 0
    else if l.any fun p => match p.2 with
      | .seq (.kJmp _) => true
      | _ => false then Nat.min left 2
    else left - 1

/-- The whole packets of an image from an address on that lie in its page are brought in, as a prefetch does, up to
the packet that ends the kernel, that is not legal, or that comes after a jump's delay packets (R153; log 136). -/
def State.prefetchPackets (s : State) (g part : Nat) (pasid : BitVec 20) (image : Word) (lim left : Nat) :
    Nat → Word → State × Option (Word × Nat) × Bool
  | 0, _ => (s, none, false)
  | f + 1, va =>
    if left = 0 then (s, none, false)
    else match s.fetchWords g part pasid image va 1 va with
    | (t, none, false) =>
      let h := (((t.core g).kword pasid va va).getD 0).toNat
      let n := packetLen h
      if lim < va.toNat + 4 * n then (s, none, false)
      else match t.fetchWords g part pasid image va (n - 1) (va + 4) with
        | (u, none, false) =>
          let ws := (List.range (n - 1)).map fun i =>
            (((u.core g).kword pasid va (va + BitVec.ofNat 64 (4 + 4 * i))).getD 0).toNat
          u.prefetchPackets g part pasid image lim (packetsAfter left h ws) f (va + BitVec.ofNat 64 (4 * n))
        | r => r
    | r => r

/-- One packet issues (R192). A word before the kernel's first is no packet (R217, R388). -/
def issuePacket (g : Nat) (s : State) : State :=
  match (s.core g).kern with
  | none => s
  | some k =>
    if !k.ready || s.stopped k.cx then s
    else if k.pc < 0 then issue g 1 0 false (.inr 1) s
    else match (s.core g).packet k with
      | none => s
      | some (h, ws) =>
        issue g (packetLen h) (fld h 19 4) ((s.core g).codeSoft k (packetLen h)) (packetOps h ws) s

/-- PACKET_ISSUE (R192): the sequencer issues one packet whole, or it traps and performs nothing. -/
def execPacketIssue (core : Nat) (s : State) : Res :=
  .next (issuePacket core s)

/-- IDLE_ISSUE_CYCLE (R39): an empty issue cycle requested by an idle count or IDLE passes. -/
def execIdleIssueCycle (core : Nat) (s : State) : Res :=
  .next ((match (s.core core).kern with
     | none => s
     | some k =>
       if k.idle = 0 || k.abort || k.freeze || s.stopped k.cx then s
       else
         let (t, k) := s.land core k k.cyc
         t.setKern core (some { k with idle := k.idle - 1, cyc := k.cyc + 1 })))

/-- The results due in an idle issue cycle land; after KEND, the next of those still in flight (R39,
R220). -/
def execResultLanding (core : Nat) (s : State) : Res :=
  .next ((match (s.core core).kern with
     | none => s
     | some k =>
       if k.freeze then s
       else if k.ended then
         let c := k.pend.foldl (fun c p => Nat.min c p.due) (k.pend.headD (.p 0 k.cyc 0)).due
         let (t, k) := s.land core k c
         t.setKern core (some { k with cyc := Nat.max k.cyc c })
       else if k.idle = 0 then s
       else
         let (t, k) := s.land core k k.cyc
         t.setKern core (some k)))

/-- Whether the running kernel of a core stands before a chained line that is not ready (R257). -/
def chainStalled (s : State) (g : Nat) : Bool :=
  match (s.core g).kern with
  | none => false
  | some k =>
    k.ready && (match (s.core g).packet k with
      | none => false
      | some (h, ws) => match packetOps h ws with
        | .inr _ => false
        | .inl ops => stalled ⟨(s.land g k k.cyc).1, g, (s.land g k k.cyc).2⟩ ops = some true)

/-! ### Starting, ending, freezing (R151 to R153, R328 to R331) -/

/-- The contexts of a core. -/
def ctxsOf (g : Nat) : List Nat := [4 * g, 4 * g + 1, 4 * g + 2, 4 * g + 3]

/-- The accepted KRUNs of a core whose unchained dependences are met, oldest first. -/
def readyKruns (s : State) (g : Nat) : List (Nat × Active) :=
  let all := (s.ctxsAt g).flatMap fun cx => ((s.ctx cx).active.filter fun a =>
    !a.running && !a.ended && (match a.cmd.kind with
      | .krun .. => true
      | _ => false) && !s.mustWait cx a.cmd).map fun a => (cx, a)
  sortBy (fun x => x.2.ord) all

/-- The array starts a KRUN, unless a kernel waits to be resumed (R151). -/
def execKernelStart (core : Nat) (s : State) : Res :=
  .next ((if (s.core core).kern.isSome || (s.core core).halted || (ctxsOf core).any (fun cx => (s.ctx cx).waitK ≠ []) then s
     else match best (fun x => s.effPrio x.1) (readyKruns s core) with
       | none => s
       | some (cx, a) => match a.cmd.kind with
         | .krun image binds =>
           ((if a.started then s else s.emptyLines cx a.cmd).modActive cx .krn a.cmd.num fun b =>
             { b with started := true, running := true }).setKern core
             (some { cx := cx, num := a.cmd.num, image := image, pasid := (s.ctx cx).pasid, binds := binds })
         | _ => s))

/-- A kernel whose KEND has retired and whose results have landed leaves the array; KRUNs that have ended
complete once their lines are filled (R151, R201). -/
def execKrunComplete (core : Nat) (s : State) : Res :=
  .next ((let t := match (s.core core).kern with
       | some k => if k.ended && k.pend.isEmpty then (s.setKern core none).endKernel k 0 0 0 0 else s
       | none => s
     (s.ctxsAt core).foldl (fun t cx =>
       ((t.ctx cx).active.filter (fun a => a.ended && a.cmd.queue = .krn)).foldl
         (fun t a => match a.cmd.kind with
           | .krun .. => t.closeKrun cx a.cmd.num
           | _ => t) t) t))

/-- KERNEL_ABORT_STOP (R153): an aborted running kernel stops at its next packet boundary. -/
def execKernelAbortStop (core : Nat) (s : State) : Res :=
  .next ((match (s.core core).kern with
     | some k => if k.abort && !k.ended then s.dropKernel core k 1 0 0 else s
     | none => s))

/-- The kernel array freezes; the snapshot travels with the context (R328 to R330). -/
def execKernelFreeze (core : Nat) (s : State) : Res :=
  .next ((match (s.core core).kern with
     | some k =>
       if k.freeze && !(k.abort && !k.ended) then
         (s.setKern core none).modCtx k.cx fun c => { c with waitK := c.waitK ++ [{ k with freeze := false }] }
       else s
     | none => s))

/-- The entry of a waiting context in the semaphore's queue that it is blocked on, removed (R284). -/
def State.unwait (s : State) (cx : Nat) : State :=
  match (s.ctx cx).status with
  | .blocked (.sem g i) => (s.modCore g fun c =>
      let m := c.sem i
      c.setSem i { m with waiters := m.waiters.filter fun w => w.who ≠ (s.ctx cx).task }).semServeAll g i
  | _ => s

/-- Whether a context is at a bundle boundary at which it can be interrupted: it runs, is ready, or its
bundle is blocked (R328). -/
def Ctx.interruptible (c : Ctx) : Bool :=
  c.task ≠ 0 && !c.retiring && (match c.status with
    | .idle => false
    | .blocked .stopped => false
    | .blocked .retire => false
    | _ => true)

/-- A context whose bundle is interrupted is ready again. -/
def State.awake (s : State) (cx : Nat) : State :=
  (s.unwait cx).modCtx cx fun c => match c.status with
    | .blocked _ => { c with status := .ready }
    | _ => c

/-- The trap of a held kernel reaches its context as cause 17 (R328). -/
def execKernelTrapDelivery (cx : Nat) (s : State) : Res :=
  .next ((let c := s.ctx cx
     match c.heldK with
     | [] => s
     | k :: _ =>
       if !c.kdeliver || c.tactive || !c.interruptible || (s.core (s.home cx)).halted then s
       else if c.tvec = 0 then
         (s.modCtx cx fun c => { c with heldK := c.heldK.drop 1, kdeliver := decide (1 < c.heldK.length) }).endHeld k
       else ((s.awake cx).modCtx cx fun c => { c with kdeliver := false }).trap cx 0 17 k.cause k.num 0))

/-- A snapshot is restored on the free array, ahead of every waiting KRUN (R328, R330). One with a soft error
raises K-SOFT at once (R331). -/
def execKernelResume (core : Nat) (s : State) : Res :=
  .next ((if (s.core core).kern.isSome || (s.core core).halted then s
     else match best s.effPrio ((ctxsOf core).filter fun cx => (s.ctx cx).waitK ≠ [] && !s.stopped cx) with
       | none => s
       | some cx => match (s.ctx cx).waitK with
         | [] => s
         | k :: ks =>
           let t := s.modCtx cx fun c => { c with waitK := ks }
           if k.snapSoft then t.ktrap core { k with cx := cx } 6 0 0 k.pc
           else t.setKern core (some { k with cx := cx })))

/-- The held kernel of a context is taken out of shadow (R328). -/
def State.takeHeld (s : State) (cx : Nat) : State :=
  s.modCtx cx fun c => { c with heldK := c.heldK.drop 1, kdeliver := decide (1 < c.heldK.length) }

/-- KABT: the held kernel ends (R328). -/
def State.kabt (s : State) (cx : Nat) : State :=
  match (s.ctx cx).heldK with
  | [] => s
  | k :: _ => (s.takeHeld cx).endHeld k

/-- KRES: the held kernel waits for the next free array; after K-SOFT it ends instead (R328, R331). -/
def State.kres (s : State) (cx : Nat) : State :=
  match (s.ctx cx).heldK with
  | [] => s
  | k :: _ =>
    if k.cause = 6 then s.kabt cx
    else (s.takeHeld cx).modCtx cx fun c => { c with waitK := c.waitK ++ [k] }

/-- TSTAT_KRES (R328): writing KRES resumes the held kernel from its snapshot. -/
def execTstatKres (cx : Nat) (s : State) : Res :=
  .next (s.kres cx)

/-- TSTAT_KABT (R328): writing KABT ends the held kernel and completes its KRUN with status 5. -/
def execTstatKabt (cx : Nat) (s : State) : Res :=
  .next (s.kabt cx)

/-- Every held kernel of a context ended, as when its task retires or is terminated (R328). -/
def State.endAllHeld (s : State) (cx : Nat) : State :=
  (s.ctx cx).heldK.foldl (fun s _ => s.kabt cx) s

end Sys2Proof.Machine
end

