-- ==== Sys2Proof/Machine/Flow.lean ====
section
/-!
DEFINITION. Flow of control, traps and system forms (R130 to R134) and user-level interrupts (R167).
-/

namespace Sys2Proof.Machine

open Sys2Proof

/-! ### Branches and jumps (R130, R131) -/

/-- A jump: a target that is not aligned to a bundle raises MISALIGN, and nothing is written. -/
def jumpTo (target : Word) (f : State → State) : SlotOut :=
  if target.toNat % 16 ≠ 0 then .trap 8 0 0 target else .flow f target

/-- CALL's link: the address of the next bundle, in x31. -/
def link (cx : Nat) (s : State) (t : State) : State := t.wrX cx 31 ((s.ctx cx).pc + 16) false

/-- BR (R130). -/
def slotBr (a : BitVec 5) (c : BitVec 3) (i : Imm 18) : Slot :=
  ⟨[a], fun cx s =>
    if s.tagX cx a then .trap 7 0 0 0
    else if brTaken c (s.rdX cx a) then .flow id ((s.ctx cx).pc + 16 * immS i) else .go id⟩

/-- BR in a bundle of its own. -/
def execBr (a : BitVec 5) (c : BitVec 3) (i : Imm 18) (σ : State) : Res := .next (runSlot 0 (slotBr a c i) σ)

/-- JMP (R131). -/
def slotJmp (i : BitVec 26) : Slot := ⟨[], fun cx s => jumpTo ((s.ctx cx).pc + 16 * i.signExtend 64) id⟩

/-- JMP in a bundle of its own. -/
def execJmp (i : BitVec 26) (σ : State) : Res := .next (runSlot 0 (slotJmp i) σ)

/-- CALL (R131). -/
def slotCall (i : BitVec 26) : Slot := ⟨[31], fun cx s => jumpTo ((s.ctx cx).pc + 16 * i.signExtend 64) (link cx s)⟩

/-- CALL in a bundle of its own. -/
def execCall (i : BitVec 26) (σ : State) : Res := .next (runSlot 0 (slotCall i) σ)

/-- JX (R131). -/
def slotJx (a : BitVec 5) : Slot := ⟨[a], fun cx s => if s.tagX cx a then .trap 7 0 0 0 else jumpTo (s.rdX cx a) id⟩

/-- JX in a bundle of its own. -/
def execJx (a : BitVec 5) (σ : State) : Res := .next (runSlot 0 (slotJx a) σ)

/-- CALLX (R131). -/
def slotCallx (a : BitVec 5) : Slot :=
  ⟨[a, 31], fun cx s => if s.tagX cx a then .trap 7 0 0 0 else jumpTo (s.rdX cx a) (link cx s)⟩

/-- CALLX in a bundle of its own. -/
def execCallx (a : BitVec 5) (σ : State) : Res := .next (runSlot 0 (slotCallx a) σ)

/-- RET (R131). -/
def slotRet : Slot := ⟨[31], fun cx s => if s.tagX cx 31 then .trap 7 0 0 0 else jumpTo (s.rdX cx 31) id⟩

/-- RET in a bundle of its own. -/
def execRet (σ : State) : Res := .next (runSlot 0 slotRet σ)

/-! ### Traps, fences and waits (R133, R134) -/

/-- TRAP (R133). -/
def slotTrap (i : BitVec 16) : Slot := ⟨[], fun _ _ => .after 13 i.toNat⟩

/-- TRAP in a bundle of its own. -/
def execTrap (i : BitVec 16) (σ : State) : Res := .next (runSlot 0 (slotTrap i) σ)

/-- What a mode and a partition's level grant (Table 25.7); RETURN grants as OWNER-DEBUG does, for every core. -/
def debugGrant (m : SecMode) (level : Nat) : DebugAct → Bool
  | .counters => decide (1 ≤ level) && (m ≠ .locked || level = 1)
  | .trace => m ≠ .locked && decide (1 ≤ level)
  | .halt | .inspect | .resume => m ≠ .locked && decide (2 ≤ level)

/-- A core halted: its contexts stay at a bundle boundary, and its kernel freezes (R329, R397). -/
def CoreSt.halt (c : CoreSt) : CoreSt :=
  { c with
    halted := true
    kern := c.kern.map fun k => if k.ended then k else { k with freeze := true } }

/-- BKPT raises its trap, or halts the core at debug level D2, once its die has left P2 (R134, R397). -/
def slotBkpt : Slot :=
  ⟨[], fun cx s =>
    if debugGrant s.hub.mode (smGet 0 s.hub.levels (s.ctx cx).part) .halt then
      if (s.die (dieOf (s.home cx))).pstate = 2 then .block .power
      else .go fun t => t.modCore (t.home cx) CoreSt.halt
    else .after 14 0⟩

/-- BKPT in a bundle of its own. -/
def execBkpt (σ : State) : Res := .next (runSlot 0 slotBkpt σ)

/-- FENCE.C waits for the context's stores, then empties the instruction cache and drops the copies of
kernel code that the running kernel does not use (R134, R391). -/
def slotFenceC : Slot :=
  ⟨[], fun cx s =>
    if s.reqs.any (fun r => r.cx = cx && r.served.isNone && (match r.op with
        | .store .. | .amo .. | .flagStore .. => true
        | _ => false)) then .wait
    else .go fun t => t.modCore (t.home cx) fun c => { c with
      icache := []
      kcode := match c.kern with
        | none => []
        | some k => c.kcode.filter fun x => x.pasid = k.pasid && x.image = k.image }⟩

/-- FENCE_C in a bundle of its own. -/
def execFenceC (σ : State) : Res := .next (runSlot 0 slotFenceC σ)

/-- Whether a milestone is armed and reached (R167). -/
def Ctx.reached (c : Ctx) : Bool :=
  match c.armed with
  | none => false
  | some (q, v) => decide (v.toNat ≤ (c.mile q).counter)

/-- WAITI blocks while a milestone is armed and not reached (R134). -/
def slotWaiti : Slot :=
  ⟨[], fun cx s =>
    if (s.ctx cx).armed.isSome && !(s.ctx cx).reached then .block .waiti else .go id⟩

/-- WAITI in a bundle of its own. -/
def execWaiti (σ : State) : Res := .next (runSlot 0 slotWaiti σ)

/-! ### User-level interrupts (R167) -/

/-- Registers x24 to x31, and their return from shadow. -/
def Ctx.shadowed (c : Ctx) : List Reg := (List.range 8).map fun i => ⟨c.rd (24 + i), c.tag (24 + i)⟩
def Ctx.unshadow (c : Ctx) : Ctx :=
  ((List.range 8).zip c.ushadow).foldl (fun c p => c.wr (24 + p.1) p.2.val p.2.poison) c

/-- UIRET (R167): it waits for results that x24-x31 await (R108). -/
def slotUiret : Slot :=
  ⟨[24, 25, 26, 27, 28, 29, 30, 31], fun cx s =>
    if (s.ctx cx).uactive then
      .flow (fun t => t.modCtx cx fun c => { c.unshadow with uactive := false, ushadow := [] }) (s.ctx cx).uret
    else .trap 1 0 0 0⟩

/-- UIRET in a bundle of its own. -/
def execUiret (σ : State) : Res := .next (runSlot 0 slotUiret σ)

/-- Whether the context of a task stands at a bundle boundary, a blocked bundle's among them (R167). -/
def Ctx.atBoundary (c : Ctx) : Bool :=
  c.task ≠ 0 && !c.retiring && c.status ≠ .idle && c.status ≠ .blocked .stopped

/-- Whether an interrupt is to be delivered at this bundle boundary (R167). -/
def Ctx.uiReady (c : Ctx) : Bool := c.reached && !c.uactive && !c.tactive && c.uivec ≠ 0 && c.atBoundary

/-- Whether x24 to x31 hold what the interrupted code left in them: delivery, which reads them all, waits as a bundle
does for results that they await (R108; DEDUCED, log 135). -/
def State.uiSettled (s : State) (cx : Nat) : Bool := (List.range 8).all fun i => !s.awaited cx (24 + i)

/-- Delivery of a user-level interrupt; a condition met while an obstacle stands is pending. -/
def State.uiDeliver (s : State) (cx : Nat) : State :=
  let c := s.ctx cx
  if c.uiReady && s.uiSettled cx then
    (s.awake cx).modCtx cx fun k => { k with
      ushadow := c.shadowed
      uret := if c.status = .blocked .waiti then c.pc + 16 else c.pc
      uactive := true, upending := false
      uqueue := (c.armed.map fun p => qcode p.1).getD 0
      armed := none, pc := c.uivec }
  else if c.reached then s.modCtx cx fun k => { k with upending := true }
  else s

/-- UI_DELIVERY (R167): a user-level interrupt is delivered at a bundle boundary, shadowing x24-x31. -/
def execUiDelivery (cx : Nat) (s : State) : Res :=
  .next (if (s.core (s.home cx)).halted then s else s.uiDeliver cx)

/-- A pending interrupt discarded, with its arm. -/
def State.uiDiscard (s : State) (cx : Nat) : State :=
  s.modCtx cx fun c =>
    if c.upending || c.reached then { c with upending := false, armed := none } else c

/-- UISTATUS_PENDING_DISCARD (R167): writing 0 to cr.UISTATUS.pending discards a pending interrupt. -/
def execUistatusPendingDiscard (cx : Nat) (s : State) : Res :=
  .next (s.uiDiscard cx)

end Sys2Proof.Machine
end

