-- ==== Sys2Proof/Machine/System.lean ====
section
/-!
DEFINITION. Control registers (R10, R21), tasks and launches (R159 to R161), user queues (R288, R289,
R383, R385), and the privileged forms that mark and confirm shootdowns and post scrubs and migrations
(R135, R318 to R321, R394).
-/

namespace Sys2Proof.Machine

open Sys2Proof

/-! ### Control registers (R21, R325, R392; Tables 1.3, 10.6, 16.9, 25.1) -/

/-- cr.TSTAT (Table 16.10). -/
def Ctx.tstat (c : Ctx) : Word :=
  BitVec.ofNat 64 ((if c.heldK = [] then 0 else 2) + (if c.tactive then 1 else 0))

/-- cr.UISTATUS (Table 5.13). A bit pending that was set stays until it is discarded or delivered, whatever MILE.ARM and
MILE.DISARM do meanwhile (DESIGN CHOICE, log 153). -/
def Ctx.uistatus (c : Ctx) : Word :=
  BitVec.ofNat 64 ((if c.uactive then 128 else 0) + (if c.upending || c.reached then 64 else 0) +
    c.uqueue % 8 * 8)

/-- The value of a control register as a context reads it; none: the number is unassigned. -/
def crRead (s : State) (cx num : Nat) : Option Word :=
  let c := s.ctx cx
  let g := s.home cx
  let d := s.die (dieOf g)
  match num with
  | 0x000 => some (BitVec.ofNat 64 d.cycle)
  | 0x001 => some (BitVec.ofNat 64 (cx % 4))
  | 0x002 => some (c.taskId.zeroExtend 64)
  | 0x003 => some (BitVec.ofNat 64 g)
  | 0x004 => some (BitVec.ofNat 64 (dieOf g))
  | 0x005 => some (BitVec.ofNat 64 s.hub.pkg)
  | 0x006 => some (BitVec.ofNat 64 (s.effPrio cx))
  | 0x007 => some (d.pstate.zeroExtend 64)
  | 0x010 => some c.trapPc
  | 0x011 => some c.trapInfo
  | 0x012 => some c.trapVa
  | 0x013 => some c.tvec
  | 0x014 => some c.tstat
  | 0x020 => some c.uivec
  | 0x021 => some c.uistatus
  | 0x030 => some c.lspill
  | 0x040 => some c.kstatus
  | 0x041 => some c.latchk
  | 0x050 => some (BitVec.ofNat 64 (d.cycle % 65536))
  | 0x060 => some c.sgidx
  | 0x061 => some c.sgbound
  | 0x062 => some c.sglent
  | 0x063 => some c.wswait
  | 0x064 => some c.kstall
  | 0x065 => some c.calmode
  | 0x100 => some d.age
  | 0x101 => some d.swapwait
  | 0x102 => some d.calctl
  | 0x103 => some d.scrubctl
  | 0x104 => some d.retreq
  | _ => none

/-- The registers whose write needs privilege. -/
def crPriv (num : Nat) : Bool := decide (0x100 ≤ num)

/-- The die whose cr.AGE governs a task: the lowest of its die mask that holds a core of its partition
(R278). -/
def State.govDie (s : State) (part mask : Nat) : Nat :=
  ((List.range 4).find? fun d => mask.testBit d &&
    ((s.part part).map (fun p => p.cores.any fun g => dieOf g = d)).getD false).getD 0

/-- A write of cr.AGE; 0 stops the reservations that it governs at once (R278). -/
def State.setAge (s : State) (die : Nat) (v : Word) : State :=
  let s := s.modDie die fun d => { d with age := v }
  if v ≠ 0 then s
  else s.modHub fun h => { h with
    tasks := h.tasks.map fun t =>
      if s.govDie t.part t.lrec.dieMask = die then { t with reserv := false } else t }

/-- cr.SCRUBCTL as it stores a value (Table 25.2). -/
def scrubctlOf (v : Word) : Word :=
  let w := v &&& 0x00FFFFFF00000007
  if v.toNat / 2 ^ 32 % 2 ^ 16 = 0 then w ||| 0x0000000100000000 else w

/-- V of cr.RETREQ cleared; the next request held is delivered (R393). A V set in the same ac stays (R10). -/
def State.clearRetreq (s : State) (die : Nat) : State :=
  if (s.die die).retSet then s else
  let s := s.modDie die fun d => { d with retreq := d.retreq &&& 0x7FFFFFFFFFFFFFFF }
  match (s.die die).pendRet with
  | [] => s
  | r :: rs => (s.modDie die fun d => { d with pendRet := rs }).retire die r

/-- cr.TSTAT.active as it is written (R326). -/
def State.setTactive (s : State) (cx : Nat) (b : Bool) : State := s.modCtx cx fun c => { c with tactive := b }

/-- A write of a control register under its access code (R10); reserved bits ignore it. A write of
cr.LSPILL is performed here once the ring is empty (R160). -/
def crWrite (s : State) (cx num : Nat) (v : Word) : State :=
  let die := dieOf (s.home cx)
  match num with
  | 0x013 => s.modCtx cx fun c => { c with tvec := v &&& ~~~15 }
  | 0x014 =>
    let s := s.setTactive cx (v.getLsbD 0)
    if v.getLsbD 2 then s.kabt cx else if v.getLsbD 3 then s.kres cx else s
  | 0x020 => s.modCtx cx fun c => { c with uivec := v &&& ~~~15 }
  | 0x021 => if v.getLsbD 6 then s.modCtx cx fun c => { c with upending := true } else s.uiDiscard cx
  | 0x030 => s.modCtx cx fun c => { c with lspill := v }
  | 0x040 => s.modCtx cx fun c => c.clearKstatus v
  | 0x041 => s.modCtx cx fun c => { c with latchk := v &&& 1 }
  | 0x065 => s.modCtx cx fun c => { c with calmode := v &&& 1 }
  | 0x100 => s.setAge die v
  | 0x101 => s.modDie die fun d => { d with swapwait := v }
  | 0x102 => s.modDie die fun d => { d with calctl := v &&& 7 }
  | 0x103 => s.modDie die fun d => { d with scrubctl := scrubctlOf v }
  | 0x104 => if v.msb then s.clearRetreq die else s
  | _ => s

/-- The records that a context's spill ring holds (R160). -/
def Ctx.ringCount (c : Ctx) : Nat := c.ringTail - c.ringHead

/-- CSRR (R134). -/
def slotCsrr (d : BitVec 5) (r : BitVec 12) : Slot :=
  ⟨[d], fun cx s =>
    match crRead s cx r.toNat with
    | none => .trap 1 0 0 0
    | some v => .go fun t => t.wrX cx d v false⟩

/-- CSRR in a bundle of its own. -/
def execCsrr (d : BitVec 5) (r : BitVec 12) (σ : State) : Res := .next (runSlot 0 (slotCsrr d r) σ)

/-- CSRW (R134): the number, then privilege, then poison; cr.LSPILL waits for an empty ring. -/
def slotCsrw (a : BitVec 5) (r : BitVec 12) : Slot :=
  ⟨[a], fun cx s =>
    if (crRead s cx r.toNat).isNone then .trap 1 0 0 0
    else if crPriv r.toNat && !(s.ctx cx).priv then .trap 9 0 0 0
    else if s.tagX cx a then .trap 7 0 0 0
    else if r.toNat = 0x030 && (s.ctx cx).ringCount ≠ 0 then .block .ring
    else .go fun t => crWrite t cx r.toNat (s.rdX cx a)⟩

/-- CSRW in a bundle of its own. -/
def execCsrw (a : BitVec 5) (r : BitVec 12) (σ : State) : Res := .next (runSlot 0 (slotCsrw a r) σ)

/-- REGISTER_WRITE (R10): a write to a register with no behaviour of its own stores by its access code. -/
def execRegisterWrite (cx : Nat) (num : BitVec 12) (v : Word) (s : State) : Res :=
  .next (crWrite s cx num.toNat v)

/-- LSPILL_WRITE (R160): a write to cr.LSPILL blocks until the ring is empty, then performs. -/
def execLspillWrite (cx : Nat) (v : Word) (s : State) : Res :=
  .next (if (s.ctx cx).ringCount ≠ 0 then s.block cx .ring else crWrite s cx 0x030 v)

/-- AGE_WRITE (R278): a write of 0 to cr.AGE disables aging and stops any reservation at once. -/
def execAgeWrite (die : Nat) (v : Word) (s : State) : Res :=
  .next (s.setAge die v)

/-- TSTAT_ACTIVE_CLEAR (R326): writing 0 to cr.TSTAT.active ends the trap handler state. -/
def execTstatActiveClear (cx : Nat) (s : State) : Res :=
  .next (s.setTactive cx false)

/-- RETREQ_CLEAR (R393): clearing V in cr.RETREQ lets a held retirement request be delivered. -/
def execRetreqClear (die : Nat) (s : State) : Res :=
  .next (s.clearRetreq die)

/-! ### Launches (R159, R268) -/

/-- A launch record in 64 bytes (Table 12.1). -/
def launchOf (bs : List Byte) : LaunchRec :=
  let f := field bs 50 2
  { entry := BitVec.ofNat 64 (field bs 0 8), arg := BitVec.ofNat 64 (field bs 8 8), srf := field bs 16 4,
    localB := field bs 20 2, acc := field bs 22 1, prio := field bs 23 1, graph := field bs 24 4,
    deps := field bs 28 2, succs := field bs 30 2, succVa := BitVec.ofNat 64 (field bs 32 8),
    action := BitVec.ofNat 64 (field bs 40 8), dieMask := field bs 48 1, hint := field bs 49 1,
    preempt := f.testBit 0, arm := f.testBit 1, close := f.testBit 2, wmId := f / 2 ^ 8,
    wmCount := field bs 52 4 }

/-- The semaphore address and the post value of a completion action. -/
def LaunchRec.actSem (r : LaunchRec) : Nat := r.action.toNat % 2 ^ 16
def LaunchRec.actVal (r : LaunchRec) : Int := (BitVec.ofNat 16 (r.action.toNat / 2 ^ 16)).toInt

/-- The posting checks (Table 12.1). -/
def launchOk (s : State) (part : Nat) (bs : List Byte) : Bool :=
  let r := launchOf bs
  r.entry.toNat % 16 = 0 && canonical r.entry && decide (r.srf ≤ 2 ^ 22) && decide (r.acc ≤ 8) &&
  decide (r.prio ≤ 3) && (r.graph ≠ 0 || (r.deps = 0 && r.succs = 0)) && r.succVa.toNat % 4 = 0 &&
  (r.succs ≠ 0 || r.succVa = 0) && r.action.toNat / 2 ^ 32 = 0 &&
  (if r.actVal = 0 then r.actSem = 0 else (semAddr s part r.actSem).isSome) &&
  decide (r.dieMask < 16) &&
  ((s.part part).map (fun p => p.cores.any fun g => r.dieMask.testBit (dieOf g))).getD false &&
  (decide (r.hint < 24) || r.hint = 255) && field bs 50 2 / 8 % 32 = 0 && (r.arm || r.wmId = 0) &&
  (r.arm == decide (r.wmCount ≠ 0)) && field bs 56 8 = 0

/-- The records that a spill ring can hold, and the address of its n-th slot (Table 5.11). The count of records is not
reset by a write of cr.LSPILL, and goes on modulo the size of the ring then named (DESIGN CHOICE, log 152). -/
def Ctx.ringRoom (c : Ctx) : Nat := 64 * (c.lspill.toNat % 4096)
def Ctx.ringSlot (c : Ctx) (n : Nat) : Word :=
  BitVec.ofNat 64 (c.lspill.toNat / 4096 * 4096 + 64 * (n % c.ringRoom))

/-- LAUNCH (R159): a record that goes to the spill ring is stored there as any store of the context is (R295, R296). -/
def slotLaunch (d : BitVec 5) (a : BitVec 5) : Slot :=
  ⟨[d, a], fun cx s =>
    let c := s.ctx cx
    let off := (s.rdX cx a).toNat
    if s.tagX cx a then .trap 7 0 0 0
    else match recordStop s cx off 64 with
    | some o => o
    | none =>
      let bs := s.rdLocal cx off 64
      if !launchOk s c.part bs then .trap 11 0 0 0
      else if (s.covered cx .pkg).any s.outstanding then .wait
      else if c.ringCount = 0 && decide (c.castOn.length < 4) then
        .go fun t => (t.modCtx cx fun c => { c with castOn := c.castOn ++ [launchOf bs] }).wrX cx d 0 false
      else if c.ringRoom ≤ c.ringCount then .block .castOn
      else
        let va := c.ringSlot c.ringTail
        if c.refused = some (.launch va) then .trap 5 3 0 va
        else match (s.xlateFor cx va false true).1 with
          | .held => waitWalk cx va true
          | .fault e => parkRead s cx e va true (.ring cx)
          | .hit p =>
            let (h, q) := s.placeOf p va
            if s.flagPending cx h q 64 then .wait
            else .go fun t =>
              let t := (t.xlateFor cx va false true).2
              let t := t.addReq (newReq t cx (.store bs false false) va h q (orderedAfter t cx h q 64) p.size)
              (t.modCtx cx fun c => { c with ringTail := c.ringTail + 1 }).wrX cx d 1 false⟩

/-- LAUNCH in a bundle of its own. -/
def execLaunch (d : BitVec 5) (a : BitVec 5) (σ : State) : Res := .next (runSlot 0 (slotLaunch d a) σ)

/-! ### Tasks (R161) -/

/-- Whether everything that TASK.RETIRE waits for is done. -/
def Ctx.finished (c : Ctx) : Bool :=
  c.posted.isEmpty && c.active.isEmpty && c.castOn.isEmpty && c.ringCount = 0 && c.heldK.isEmpty

/-- TASK.RETIRE (R161): held kernels end; once every command has completed and every launch is taken,
the task may retire. -/
def slotTaskRetire : Slot :=
  ⟨[], fun cx s =>
    if ((s.endAllHeld cx).ctx cx).finished then
      .go fun t => (t.endAllHeld cx).modCtx cx fun c => { c with retiring := true, status := .blocked .retire }
    else .enqueue .retire fun t => t.endAllHeld cx⟩

/-- TASK_RETIRE in a bundle of its own. -/
def execTaskRetire (σ : State) : Res := .next (runSlot 0 slotTaskRetire σ)

/-- TASK.YIELD (R161): another ready context of equal or higher priority runs next. -/
def slotTaskYield (d : BitVec 5) (a : BitVec 5) (b : BitVec 5) : Slot :=
  ⟨[], fun cx s => .go fun t =>
    if (ctxsOf (s.home cx)).any fun k => k ≠ cx && (s.ctx k).status = .ready && decide (s.effPrio k ≤ s.effPrio cx)
    then t.modCtx cx fun c => { c with status := .ready }
    else t⟩

/-- TASK_YIELD in a bundle of its own. -/
def execTaskYield (d : BitVec 5) (a : BitVec 5) (b : BitVec 5) (σ : State) : Res := .next (runSlot 0 (slotTaskYield d a b) σ)

/-- TASK_PRIO (R161). -/
def slotTaskPrio (d : BitVec 5) (a : BitVec 5) (b : BitVec 5) : Slot :=
  ⟨[a], fun cx s =>
    let v := Nat.min 3 (s.rdX cx a).toNat
    if s.tagX cx a then .trap 7 0 0 0
    else if v < (s.ctx cx).launchP then .trap 9 0 0 0
    else .go fun t => t.modCtx cx fun c => { c with basePrio := v }⟩

/-- TASK_PRIO in a bundle of its own. -/
def execTaskPrio (d : BitVec 5) (a : BitVec 5) (b : BitVec 5) (σ : State) : Res := .next (runSlot 0 (slotTaskPrio d a b) σ)

/-- TASK_SELF (R161). -/
def slotTaskSelf (d : BitVec 5) (a : BitVec 5) (b : BitVec 5) : Slot := ⟨[d], fun cx s => .go fun t => t.wrX cx d (s.ctx cx).arg false⟩

/-- TASK_SELF in a bundle of its own. -/
def execTaskSelf (d : BitVec 5) (a : BitVec 5) (b : BitVec 5) (σ : State) : Res := .next (runSlot 0 (slotTaskSelf d a b) σ)

/-! ### Privileged posts (R135, R321, R394) -/

/-- A PRIV form: from user privilege it raises PRIV. -/
def privSlot (i : Slot) : Slot :=
  ⟨i.regs, fun cx s => if (s.ctx cx).priv then i.eval cx s else .trap 9 0 0 0⟩

/-- A post to SST whose record's address has an alignment. -/
def carePost (d a : BitVec 5) (n : Nat) (k : Word → CmdKind) : Slot :=
  privSlot (engineSlot d [a] none .sst (oneAddress a n) fun cx s =>
    .inr { kind := k (s.rdX cx a), board := false })

/-- SCRUB (R394). -/
def slotScrub (d : BitVec 5) (a : BitVec 5) : Slot := carePost d a 32 CmdKind.scrub

/-- SCRUB in a bundle of its own. -/
def execScrub (d : BitVec 5) (a : BitVec 5) (σ : State) : Res := .next (runSlot 0 (slotScrub d a) σ)

/-- MIGRATE (R321). -/
def slotMigrate (d : BitVec 5) (a : BitVec 5) : Slot := carePost d a 64 CmdKind.migrate

/-- MIGRATE in a bundle of its own. -/
def execMigrate (d : BitVec 5) (a : BitVec 5) (σ : State) : Res := .next (runSlot 0 (slotMigrate d a) σ)

/-! ### Shootdowns (R318, R319) -/

/-- Whether a range of addresses meets that of a token. -/
def Token.meets (k : Token) (pasid : BitVec 20) (base bytes : Nat) : Bool :=
  k.pasid = pasid && decide (k.va < base + bytes) && decide (base < k.va + k.pages * 4096)

/-- The handles of a context that a token covers become INVALID. -/
def Ctx.markHandles (c : Ctx) (k : Token) : Ctx :=
  { c with h := c.h.filter fun p =>
      !(p.2.state = .valid && k.meets p.2.pasid p.2.base.toNat (pageBytes p.2.size)) }

/-- Phase one (R318): a token in a slot, the handles invalid, and the requests in flight under the old
translations: those whose page meets the range. -/
def State.markToken (s : State) (slot : Nat) (pasid : BitVec 20) (va pages : Nat) (auto : Bool) : State :=
  let k : Token := { serial := s.hub.serial + 1, pasid := pasid, va := va, pages := pages, at_ := (s.die 0).time,
                     covers := [], auto := auto }
  let k := { k with covers := (s.reqs.filter fun (r : Req) =>
    k.meets r.pasid (alignDown r.va.toNat (pageBytes r.page)) (pageBytes r.page)).map Req.id }
  ((s.ctxs.map Prod.fst).foldl (fun s cx => s.modCtx cx fun c => c.markHandles k) s).modHub fun h =>
    { h with serial := h.serial + 1, tokens := smPut none h.tokens slot (some k) }

/-- Whether a flag store of a token's range, its place found before the mark, has not performed yet (R129). -/
def State.flagStands (s : State) (k : Token) : Bool :=
  (s.ctxs.any fun p => p.2.posted.any fun c => match c.kind with
    | .flag va _ _ _ _ _ _ _ z => k.meets p.2.pasid (alignDown va.toNat (pageBytes z)) (pageBytes z)
    | _ => false) || s.reqs.any fun r => match r.op with
    | .flagStore _ _ _ => k.meets r.pasid (alignDown r.va.toNat (pageBytes r.page)) (pageBytes r.page)
    | _ => false

/-- Whether everything generated under a token's translations before its mark has ended: reads have returned, and any
other request counts as performed from its acknowledgement (R263, R319). -/
def State.tokenDone (s : State) (k : Token) : Bool := k.covers.all (fun i => !s.outstanding i) && !s.flagStands k

/-- Phase two ends (R319): the translations are dropped, the slot is free, the generation advances. -/
def State.confirmToken (s : State) (slot : Nat) : State :=
  match smGet none s.hub.tokens slot with
  | none => s
  | some k =>
    let drop := fun (c : CoreSt) => { c with
      tlb := c.tlb.filter fun p => !k.meets p.pasid p.base.toNat (pageBytes p.size) }
    ((s.cores.map Prod.fst).foldl (fun s g => s.modCore g drop) s).modHub fun h => { h with
      tokens := smPut none h.tokens slot none
      pasids := smPut {} h.pasids k.pasid.toNat { (smGet {} h.pasids k.pasid.toNat) with
        gen := (smGet {} h.pasids k.pasid.toNat).gen + 1 } }

/-- The lowest free token slot. -/
def Hub.freeToken (h : Hub) : Option Nat := (List.range 16).find? fun i => (smGet none h.tokens i).isNone

/-- XINV_MARK (R318). -/
def slotXinvMark (d : BitVec 5) (a : BitVec 5) (b : BitVec 5) : Slot := privSlot
  ⟨[d, a, b], fun cx s =>
    let va := s.rdX cx a
    let y := (s.rdX cx b).toNat
    if s.tagX cx a || s.tagX cx b then .trap 7 0 0 0
    else if y / 2 ^ 20 % 2 ^ 12 ≠ 0 || y / 2 ^ 32 = 0 then .trap 1 0 0 0
    else if va.toNat % 4096 ≠ 0 then .trap 8 0 0 va
    else match s.hub.freeToken with
      | none => .block .token
      | some n => .go fun t =>
        let u := t.markToken n (BitVec.ofNat 20 y) va.toNat (y / 2 ^ 32) false
        u.wrX cx d (BitVec.ofNat 64 (u.hub.serial * 16 + n)) false⟩

/-- XINV_MARK in a bundle of its own. -/
def execXinvMark (d : BitVec 5) (a : BitVec 5) (b : BitVec 5) (σ : State) : Res := .next (runSlot 0 (slotXinvMark d a b) σ)

/-- XINV_CONFIRM (R319). -/
def slotXinvConfirm (d : BitVec 5) (a : BitVec 5) : Slot := privSlot
  ⟨[d, a], fun cx s =>
    let v := (s.rdX cx a).toNat
    if s.tagX cx a then .trap 7 0 0 0
    else match smGet none s.hub.tokens (v % 16) with
      | none => .go fun t => t.wrX cx d 1 false
      | some k =>
        if k.auto || k.serial ≠ v / 16 then .go fun t => t.wrX cx d 1 false
        else if s.tokenDone k then .go fun t => (t.confirmToken (v % 16)).wrX cx d 0 false
        else .block (.confirm (v % 16))⟩

/-- XINV_CONFIRM in a bundle of its own. -/
def execXinvConfirm (d : BitVec 5) (a : BitVec 5) (σ : State) : Res := .next (runSlot 0 (slotXinvConfirm d a) σ)

/-! ### User queues (R288, R289, R383, R385) -/

/-- A descriptor that may be mapped (Table 24.4). -/
def queueDescOk (bs : List Byte) : Bool :=
  let n := field bs 8 4
  field bs 0 8 % 64 = 0 && decide (2 ≤ n) && decide (n ≤ 65536) && n &&& (n - 1) = 0 &&
  field bs 12 4 / 2 ^ 20 = 0 && field bs 16 8 % 4 = 0 && decide (field bs 24 2 < 4096) &&
  decide (field bs 26 1 < 4) && field bs 27 5 = 0 && field bs 40 4 / 4 = 0 && field bs 44 8 = 0 &&
  field bs 52 8 = 0 && field bs 60 4 = 0

/-- The saved state in 12 bytes: head, tail, kick latch and error. -/
def savedState (head tail : Nat) (latch error : Bool) : List Byte :=
  leBytes 4 head ++ leBytes 4 tail ++ leBytes 4 ((if latch then 1 else 0) + (if error then 2 else 0))

/-- The queue of a slot is unmapped and its saved state is written (R289). -/
def State.unmapSlot (s : State) (slot : Nat) : State :=
  match s.hub.queues.find? (fun q => q.slot = some slot) with
  | none => s
  | some q =>
    (s.wrPlace q.dhost (q.desc + 32) (savedState q.head q.tail q.latch q.error)).modHub fun h => { h with
      queues := h.queues.map fun x => if x.slot = some slot then { x with slot := none, latch := false } else x }

/-- A queue placed in error: nothing further is taken from it, and its entry is written (R288). -/
def State.queueError (s : State) (num : Nat) : State :=
  (s.modHub fun h => { h with queues := h.queues.map fun q =>
    if q.num = num then { q with error := true } else q }).report none 0 0 35 0 7 num

/-- The answers to the reads and the head writes of a queue that is gone concern no one (R269). -/
def State.forgetQueue (s : State) (num : Nat) : State :=
  { s with faults := s.faults.map fun e =>
      if e.who = .sched (.userQueue num) false || e.who = .sched (.userQueue num) true then { e with who := .nobody } else e }

/-- A queue mapped on a slot from the descriptor at a place: the slot and the queue are unmapped first,
and a descriptor that fails its check is reported (R385). -/
def State.mapQueue (s : State) (part : Nat) (priv host : Bool) (a slot : Nat) : State :=
  let s := s.unmapSlot slot
  let s := ((s.hub.queues.filter fun q => q.desc = a && q.dhost = host).filterMap UQueue.slot).foldl
    State.unmapSlot s
  let (bs, s) := s.rdPlace host a 64
  let num := field bs 24 2
  if !queueDescOk bs then s.report none 0 0 35 0 7 num
  else
    let s := ((s.hub.queues.filter fun q => q.num = num).filterMap UQueue.slot).foldl State.unmapSlot s
    let s := if s.hub.queues.any fun q => q.num = num && !(q.desc = a && q.dhost = host) then s.forgetQueue num else s
    let tail := (smGet none s.hub.kicks num).getD (field bs 36 4)
    let q : UQueue := {
      desc := a, dhost := host, ring := BitVec.ofNat 64 (field bs 0 8), size := field bs 8 4,
      pasid := BitVec.ofNat 20 (field bs 12 4), headVa := BitVec.ofNat 64 (field bs 16 8), num := num,
      cap := field bs 26 1, part := part, priv := priv, slot := some slot, head := field bs 32 4,
      tail := tail, latch := false, error := (field bs 40 4).testBit 1 }
    (s.wrPlace host (a + 32) (savedState q.head tail false q.error)).modHub fun h => { h with
      queues := (h.queues.filter fun x => x.num ≠ num) ++ [q], kicks := smErase h.kicks num }

/-- QMAP (R385): its accesses follow the context's acquires and its accesses to the descriptor (R295, R296). -/
def slotQmap (a : BitVec 5) (b : BitVec 5) : Slot := privSlot
  ⟨[a, b], fun cx s =>
    let va := s.rdX cx a
    let n := (s.rdX cx b).toNat
    if s.tagX cx a || s.tagX cx b then .trap 7 0 0 0
    else if 63 < n then .trap 1 0 0 0
    else if va.toNat % 64 ≠ 0 then .trap 8 0 0 va
    else if (s.acquiring cx) ≠ [] then .wait
    else if va = 0 then .go fun t => t.unmapSlot n
    else if (s.ctx cx).refused = some (.qmap va) then .trap 5 3 0 va
    else match (s.xlateFor cx va true false).1 with
      | .held => waitWalk cx va false
      | .fault e => parkRead s cx e va false (.qmap cx)
      | .hit p =>
        let (h, q) := s.placeOf p va
        if s.mustFollow cx h q 64 then .wait
        else if s.shut h q 64 then waitPlace va h q
        else .go fun t => (t.xlateFor cx va true false).2.mapQueue (s.ctx cx).part false h q n⟩

/-- QMAP in a bundle of its own. -/
def execQmap (a : BitVec 5) (b : BitVec 5) (σ : State) : Res := .next (runSlot 0 (slotQmap a b) σ)

end Sys2Proof.Machine
end

