-- ==== Sys2Proof/Machine/Bundle.lean ====
section
/-!
DEFINITION. How a context runs its bundles: fetch (R132), decode and issue (R73, R79, R107), what
clears a block, and the switches of the CP (R19).
-/

namespace Sys2Proof.Machine

open Sys2Proof

/-- The meaning of each control instruction in its slot. -/
def controlSlot : Instr → Option Slot
  | .add d a b => some (slotAdd d a b)
  | .sub d a b => some (slotSub d a b)
  | .and_ d a b => some (slotAnd d a b)
  | .or_ d a b => some (slotOr d a b)
  | .xor d a b => some (slotXor d a b)
  | .andn d a b => some (slotAndn d a b)
  | .shl d a b => some (slotShl d a b)
  | .shr d a b => some (slotShr d a b)
  | .sra d a b => some (slotSra d a b)
  | .rol d a b => some (slotRol d a b)
  | .minI d a b => some (slotMinI d a b)
  | .minN d a b => some (slotMinN d a b)
  | .maxI d a b => some (slotMaxI d a b)
  | .maxN d a b => some (slotMaxN d a b)
  | .clz d a => some (slotClz d a)
  | .popc d a => some (slotPopc d a)
  | .sel d a b c => some (slotSel d a b c)
  | .addi d a i => some (slotAddi d a i)
  | .andi d a i => some (slotAndi d a i)
  | .ori d a i => some (slotOri d a i)
  | .xori d a i => some (slotXori d a i)
  | .shli d a n => some (slotShli d a n)
  | .shri d a n => some (slotShri d a n)
  | .srai d a n => some (slotSrai d a n)
  | .roli d a n => some (slotRoli d a n)
  | .ldi d k i => some (slotLdi d k i)
  | .ldiKeep d k i => some (slotLdiKeep d k i)
  | .ldi64 d lit => some (slotLdi64 d lit)
  | .cmp d a b c => some (slotCmp d a b c)
  | .cmpi d a c i => some (slotCmpi d a c i)
  | .mul d a b => some (slotMul d a b)
  | .mulhI d a b => some (slotMulhI d a b)
  | .mulhN d a b => some (slotMulhN d a b)
  | .divI d a b => some (slotDivI d a b)
  | .divN d a b => some (slotDivN d a b)
  | .remI d a b => some (slotRemI d a b)
  | .remN d a b => some (slotRemN d a b)
  | .bfxI d a b => some (slotBfxI d a b)
  | .bfxN d a b => some (slotBfxN d a b)
  | .bfi d a b => some (slotBfi d a b)
  | .fshl d a b c => some (slotFshl d a b c)
  | .fshr d a b c => some (slotFshr d a b c)
  | .bfxIImm d a w o => some (slotBfxIImm d a w o)
  | .bfxNImm d a w o => some (slotBfxNImm d a w o)
  | .bfiImm d a w o => some (slotBfiImm d a w o)
  | .ld d h s i => some (slotLd d h s i)
  | .ldx d h s b c => some (slotLdx d h s b c)
  | .st d h s i => some (slotSt d h s i)
  | .stx d h s b c => some (slotStx d h s b c)
  | .ldAcq d h s i => some (slotLdAcq d h s i)
  | .stRel d h s i => some (slotStRel d h s i)
  | .amoAdd d a b h w => some (slotAmoAdd d a b h w)
  | .amoSwap d a b h w => some (slotAmoSwap d a b h w)
  | .amoCas d a b h w => some (slotAmoCas d a b h w)
  | .amoMinI d a b h w => some (slotAmoMinI d a b h w)
  | .amoMinN d a b h w => some (slotAmoMinN d a b h w)
  | .amoMaxI d a b h w => some (slotAmoMaxI d a b h w)
  | .amoMaxN d a b h w => some (slotAmoMaxN d a b h w)
  | .amoAnd d a b h w => some (slotAmoAnd d a b h w)
  | .amoOr d a b h w => some (slotAmoOr d a b h w)
  | .amoXor d a b h w => some (slotAmoXor d a b h w)
  | .ldl d a p s o => some (slotLdl d a p s o)
  | .stl d a p s o => some (slotStl d a p s o)
  | .xlate n a t => some (slotXlate n a t)
  | .hinv n => some (slotHinv n)
  | .hinfo d n => some (slotHinfo d n)
  | .drain s => some (slotDrain s)
  | .drainFlag d a b w h s => some (slotDrainFlag d a b w h s)
  | .semAdd d a b i g => some (slotSemAdd d a b i g)
  | .semWait d a b i g => some (slotSemWait d a b i g)
  | .semAcq d a i g => some (slotSemAcq d a i g)
  | .semRel a i g => some (slotSemRel a i g)
  | .semPost a b i g => some (slotSemPost a b i g)
  | .semRead d a b i g => some (slotSemRead d a b i g)
  | .mbRd d m => some (slotMbRd d m)
  | .mbWr a m => some (slotMbWr a m)
  | .mbProbe d a b m => some (slotMbProbe d a b m)
  | .mileWait a q => some (slotMileWait a q)
  | .mileRead d q => some (slotMileRead d q)
  | .mileArm a q => some (slotMileArm a q)
  | .mileDisarm => some slotMileDisarm
  | .waymark d i s => some (slotWaymark d i s)
  | .sbind a b s r m => some (slotSbind a b s r m)
  | .sload d a b => some (slotSload d a b)
  | .sgather d a b c => some (slotSgather d a b c)
  | .sstore d a b c n => some (slotSstore d a b c n)
  | .sscatter d a b c => some (slotSscatter d a b c)
  | .sscatterAddI32 d a b c => some (slotSscatterAddI32 d a b c)
  | .sscatterAddN32 d a b c => some (slotSscatterAddN32 d a b c)
  | .sscatterAddI64 d a b c => some (slotSscatterAddI64 d a b c)
  | .sscatterAddXa256 d a b c => some (slotSscatterAddXa256 d a b c)
  | .sscatterAddF32 d a b c => some (slotSscatterAddF32 d a b c)
  | .spair d a b c => some (slotSpair d a b c)
  | .scopy d a b => some (slotScopy d a b)
  | .krun d a b => some (slotKrun d a b)
  | .kctlAbort => some slotKctlAbort
  | .kctlPrefetch d a => some (slotKctlPrefetch d a)
  | .mcall d a b c n => some (slotMcall d a b c n)
  | .mrout d a b => some (slotMrout d a b)
  | .wsctlLoad d => some (slotWsctlLoad d)
  | .wsctlSeal d => some (slotWsctlSeal d)
  | .wsctlQuery d => some (slotWsctlQuery d)
  | .treeBind d a b s => some (slotTreeBind d a b s)
  | .treeDesc d a b c s => some (slotTreeDesc d a b c s)
  | .treeExp d a b c s => some (slotTreeExp d a b c s)
  | .treeBack d a b c s => some (slotTreeBack d a b c s)
  | .treeReroot d a b s => some (slotTreeReroot d a b s)
  | .treeSweep d b s => some (slotTreeSweep d b s)
  | .treePath d a b c s => some (slotTreePath d a b c s)
  | .treeRead d a b c s => some (slotTreeRead d a b c s)
  | .treeFlush d b s => some (slotTreeFlush d b s)
  | .gatherl d a b c => some (slotGatherl d a b c)
  | .br a c i => some (slotBr a c i)
  | .jmp i => some (slotJmp i)
  | .call i => some (slotCall i)
  | .jx a => some (slotJx a)
  | .callx a => some (slotCallx a)
  | .ret => some slotRet
  | .trap i => some (slotTrap i)
  | .bkpt => some slotBkpt
  | .fenceC => some slotFenceC
  | .waiti => some slotWaiti
  | .uiret => some slotUiret
  | .csrr d r => some (slotCsrr d r)
  | .csrw a r => some (slotCsrw a r)
  | .launch d a => some (slotLaunch d a)
  | .taskRetire => some slotTaskRetire
  | .taskYield d a b => some (slotTaskYield d a b)
  | .taskPrio d a b => some (slotTaskPrio d a b)
  | .taskSelf d a b => some (slotTaskSelf d a b)
  | .scrub d a => some (slotScrub d a)
  | .migrate d a => some (slotMigrate d a)
  | .xinvMark d a b => some (slotXinvMark d a b)
  | .xinvConfirm d a => some (slotXinvConfirm d a)
  | .qmap a b => some (slotQmap a b)
  | _ => none

/-! ### Fetch (R72, R132, R134) -/

/-- The bundle at a context's PC: its words; or a wait for a shootdown, a lock or a die in C3; or the sub-cause of a fault.
The instruction cache keeps 4,096 bundles until FENCE.C (log 8). -/
def State.fetch (s : State) (cx : Nat) : (List Nat ⊕ Option Nat) × State :=
  let c := s.ctx cx
  let g := s.home cx
  match s.xlateFor cx c.pc true false with
  | (.held, t) => (.inr none, t)
  | (.fault e, t) => (.inr (some e), t)
  | (.hit p, t) =>
    match (t.core g).icache.find? (fun l => l.pasid = c.pasid && l.va = c.pc) with
    | some l => (.inl (l.words.map BitVec.toNat), t)
    | none =>
      let (h, a) := t.placeOf p c.pc
      if t.shut h a 16 then (.inr none, t.rouse h a) else
      let (bs, t) := t.rdPlace h a 16
      let ws := (List.range 4).map fun i => field bs (4 * i) 4
      (.inl ws, t.modCore g fun k => { k with
        icache := (⟨c.pasid, c.pc, ws.map (BitVec.ofNat 32)⟩ :: k.icache).take 4096 })

/-- A fetch that fails parks its context with an *execute* entry, once the die's queue has room (R132,
R315). -/
def State.fetchFault (s : State) (cx sub : Nat) : State :=
  let va := (s.ctx cx).pc
  if s.faultRoom (dieOf (s.home cx)) then
    (s.addFault (some cx) { faultBase (dieOf (s.home cx)) va 5 sub 0 0 (.fetch cx) with exec := true }).block cx
      (.fault s.nextFlt)
  else s.block cx (.walk va)

/-- The words of a bundle decoded and run by a context (R73, R79). -/
def runWords (cx : Nat) (ws : List Nat) (s : State) : State :=
  match decodeBundle (ws.getD 0 0) (ws.getD 1 0) (ws.getD 2 0) (ws.getD 3 0) with
  | .inr (slot, cause) => s.trap cx slot cause 0 0 0
  | .inl l => runBundle cx (l.filterMap fun p => (controlSlot p.2).map fun i => (p.1, i)) s

/-- Whether the trap of a held kernel is to be delivered to a context (R328). -/
def Ctx.kernelTrapDue (c : Ctx) : Bool :=
  c.heldK ≠ [] && c.kdeliver && !c.tactive && c.interruptible

/-- Whether a context runs on a core that is not halted, of a die that is not in C3 (R19, R396, R397). -/
def State.live (s : State) (cx : Nat) : Bool :=
  (s.ctx cx).status = .running && !(s.ctx cx).retiring && !(s.core (s.home cx)).halted &&
    !(s.die (dieOf (s.home cx))).c3

/-- The context that runs on a core. -/
def State.runningOn (s : State) (g : Nat) : Option Nat :=
  (ctxsOf g).find? fun cx => (s.ctx cx).status = .running

/-- The ready context that a core turns to: the highest effective priority, then the first in the order
after the context that held the CP last. -/
def State.nextReady (s : State) (g : Nat) : Option Nat :=
  best (fun cx => 4 * s.effPrio cx + (cx + 3 - (s.core g).last) % 4)
    ((ctxsOf g).filter fun cx => (s.ctx cx).status = .ready)

/-- The CP given to a context. -/
def State.giveCp (s : State) (g cx : Nat) : State :=
  (s.modCtx cx fun c => { c with status := .running }).modCore g fun c => { c with last := cx % 4 }

/-- The CP of a core turned to a context: the one that ran, if any, is ready again. -/
def State.switchCp (s : State) (g cx : Nat) : State :=
  ((s.runningOn g).elim s fun old => s.modCtx old fun c => { c with status := .ready }).giveCp g cx

/-- The ready context of a core that takes over at the next bundle boundary: none runs, or one of lower priority (R19). -/
def State.takesOver (s : State) (g : Nat) : Option Nat :=
  (s.nextReady g).filter fun cx => (s.runningOn g).all fun old => decide (s.effPrio cx < s.effPrio old)

/-- One bundle boundary of a running context: a ready context of higher priority takes over, or else a kernel's trap, a
user-level interrupt, the trap of a refused fetch, or the bundle at its PC (R19, R132, R167, R328). -/
def bundleTurn (cx : Nat) (s : State) : State :=
  let c := s.ctx cx
  if !s.live cx then s
  else if (s.takesOver (s.home cx)).isSome then (s.takesOver (s.home cx)).elim s (s.switchCp (s.home cx))
  else if c.kernelTrapDue then
    match execKernelTrapDelivery cx s with
    | .next t => t
    | _ => s
  else if c.uiReady then s.uiDeliver cx
  else if c.refused = some (.fetch c.pc) then s.trap cx 0 5 2 0 c.pc
  else match s.fetch cx with
    | (.inl ws, t) => runWords cx ws t
    | (.inr none, t) => t.block cx (.walk c.pc)
    | (.inr (some e), t) => t.fetchFault cx e

/-- FETCH_PAGE_FAULT (R132): a bundle fetch failing translation writes an execute entry and parks the context. -/
def execFetchPageFault (cx : Nat) (s : State) : Res :=
  .next ((if !s.live cx || (s.takesOver (s.home cx)).isSome then s
     else match s.fetch cx with
       | (.inr (some e), t) => t.fetchFault cx e
       | _ => s))

/-- GATHERL_STEP (R137): the bundle of a held expansion executes its next step. -/
def execGatherlStep (cx : Nat) (s : State) : Res :=
  .next ((match (s.ctx cx).gather with
     | none => s
     | some g => if g.pc = (s.ctx cx).pc then bundleTurn cx s else s))

/-! ### Blocked contexts and switches (R19) -/

/-- Whether what blocked a context has cleared. -/
def State.cleared (s : State) (cx : Nat) : Block → Bool
  | .queueFull q => decide (((s.ctx cx).waiting q).length < 16)
  | .scoreboard => decide (s.boardUsed (s.home cx) < 32)
  | .mailbox m full => ((s.ctx cx).mb m).full = full
  | .sem g i =>
    let m := (s.core g).sem i
    (match m.waiters.find? (fun w => w.who = (s.ctx cx).task) with
     | none => true
     | some w => w.reserved || (decide (s.nextWaiter m = some w) && decide (w.amount ≤ m.free)))
  | .milestone q v => decide (v ≤ ((s.ctx cx).mile q).counter)
  | .handle h => ((s.ctx cx).handle h).state ≠ .pending && ((s.ctx cx).handle h).state ≠ .faulted
  | .walk va => !s.draining (s.ctx cx).pasid (alignDown va.toNat 4096) 4096
  | .castOn =>
    ((s.ctx cx).ringCount = 0 && decide ((s.ctx cx).castOn.length < 4)) ||
      decide ((s.ctx cx).ringCount < (s.ctx cx).ringRoom)
  | .fault e => !s.faults.any fun x => x.id = e
  | .token => s.hub.freeToken.isSome
  | .confirm n => (match smGet none s.hub.tokens n with
    | none => true
    | some k => s.tokenDone k)
  | .retire => (s.ctx cx).finished || (s.ctx cx).heldK ≠ []
  | .ring => (s.ctx cx).ringCount = 0
  | .waiti => false
  | .power => (s.die (dieOf (s.home cx))).pstate ≠ 2
  | .stopped => false

/-- BLOCKED_BUNDLE_REEXECUTE (R19): the context is ready again, and its bundle runs whole. -/
def execBlockedBundleReexecute (cx : Nat) (s : State) : Res :=
  .next ((match (s.ctx cx).status with
     | .blocked w =>
       if s.cleared cx w && !(s.ctx cx).retiring then s.modCtx cx fun c => { c with status := .ready } else s
     | _ => s))

/-- CONTEXT_SWITCH (R19): the CP switches in 2 ac to the highest-priority ready context. -/
def execContextSwitch (core : Nat) (s : State) : Res :=
  .next (if (s.core core).halted then s else (s.takesOver core).elim s (s.switchCp core))

end Sys2Proof.Machine
end

