-- ==== Sys2Proof/Machine/Nodes.lean ====
section
/-!
DEFINITION. Tree nodes (R354), the arenas that a die knows (R237), and the arrival of what the tree engine
has asked of memory (R263, R366).
-/

namespace Sys2Proof.Machine

open Sys2Proof

/-- A node in 32 bytes (Table 21.1). -/
def nodeOf (bs : List Byte) : Node :=
  { n := BitVec.ofNat 32 (field bs 0 4), vl := BitVec.ofNat 16 (field bs 4 2), flags := BitVec.ofNat 8 (field bs 6 1),
    gen := BitVec.ofNat 8 (field bs 7 1), w := BitVec.ofNat 64 (field bs 8 8), p := BitVec.ofNat 16 (field bs 16 2),
    action := BitVec.ofNat 16 (field bs 18 2), first := BitVec.ofNat 32 (field bs 20 4),
    count := BitVec.ofNat 16 (field bs 24 2), zero := BitVec.ofNat 16 (field bs 26 2),
    parent := BitVec.ofNat 32 (field bs 28 4) }

def Node.bytes (x : Node) : List Byte :=
  leBytes 4 x.n.toNat ++ leBytes 2 x.vl.toNat ++ [x.flags, x.gen] ++ leBytes 8 x.w.toNat ++ leBytes 2 x.p.toNat ++
    leBytes 2 x.action.toNat ++ leBytes 4 x.first.toNat ++ leBytes 2 x.count.toNat ++ leBytes 2 x.zero.toNat ++
    leBytes 4 x.parent.toNat

/-- Whether an arena can be bound to no slot and none of its lines evicted: it is being bound or released. -/
def Arena.busy (a : Arena) : Bool := a.binding || a.closing

/-- The arena of a die whose header lies at a place. -/
def DieSt.arena (d : DieSt) (k : Bool × Nat) : Option Arena := d.arenas.find? fun a => a.host = k.1 && a.phys = k.2

def State.putArena (s : State) (die : Nat) (a : Arena) : State :=
  s.modDie die fun d => { d with arenas := d.arenas.map fun b => if b.host = a.host ∧ b.phys = a.phys then a else b }

def State.removeArena (s : State) (die : Nat) (a : Arena) : State :=
  s.modDie die fun d => { d with arenas := d.arenas.filter fun b => b.host ≠ a.host || b.phys ≠ a.phys }

/-- The four nodes of a line enter the cache. -/
def Arena.fill (a : Arena) (line : Nat) (bs : List Byte) : Arena :=
  let put := fun (m : SMap (Option Node)) i => smPut none m (4 * line + i) (some (nodeOf ((bs.drop (32 * i)).take 32)))
  { a with nodes := (List.range 4).foldl put a.nodes }

/-- Whether a line stands in the cache. -/
def Arena.cached (a : Arena) (line : Nat) : Bool := (smGet none a.nodes (4 * line)).isSome

/-- A result joins what a BIND has read: a line by its number, or the answer of the atomic on flag [7]. -/
def State.stageBind (s : State) (r : Req) (num run line : Nat) : State :=
  s.modActive r.cx .tre num fun a => { a with
    stage := a.stage ++ [{ run := run, line := line, bytes := r.data, poison := r.dpois }] }

/-- The atomic on flag [7] of a BIND has answered: a flag that was clear has been set for the arena (R238). -/
def State.flagTaken (s : State) (die : Nat) (r : Req) : State :=
  match (s.die die).arena (false, r.phys) with
  | none => s
  | some a => s.putArena die { a with taken := r.data.headD 1 = 0 }

/-- What the tree engine asked of memory arrives, or is acknowledged (R263, R366). -/
def State.treeArrive (s : State) (r : Req) : State :=
  let t := s.dropReq r.id
  match r.op, r.agent with
  | .treeLine k line, .tree die => match (t.die die).arena (false, k) with
    | some a => if a.cached line then t else t.putArena die (a.fill line r.data)
    | none => t
  | .treeStage num, _ => t.stageBind r num 0 (r.phys / 128)
  | .treeFlag num, .tree die => (t.flagTaken die r).stageBind r num 1 0
  | _, _ => t

end Sys2Proof.Machine
end

