-- ==== Sys2Proof/Machine/Streams.lean ====
section
/-!
DEFINITION. The stream engines (chapters 5 and 10): the address generator (R254, R255), the transfer of
elements between memory and the SRF (R144 to R148, R258 to R261), faults of requests and their
resumption (R142, R314), pairs (R348, R349), block reads (R351) and the weight store (R157, R267).
-/

namespace Sys2Proof.Machine

open Sys2Proof

/-! ### Rows of float elements as planes (R57) -/

/-- The exponent of the leading bit of a magnitude. -/
def FVal.top : FVal → Option Int
  | .fin _ m e => if m = 0 then none else some ((bitLen m : Int) - 1 + e)
  | _ => none

/-- A float row as elements of gauge g, its exponent field, and whether RNG is set. -/
def planeRow (g : Nat) (signS : Bool) (xs : List FVal) : List Int × Nat × Bool :=
  let zero := xs.map fun _ => (0 : Int)
  if xs.any (fun x => x.isNan || x.isInf) then (zero, 0, true)
  else match xs.filterMap FVal.top with
    | [] => (zero, 0, false)
    | t :: ts =>
      let top := ts.foldl max t
      let sh := if signS then top - ((g : Int) - 2) else top - ((g : Int) - 1)
      if sh + 127 < 1 || 254 < sh + 127 then (zero, 0, true)
      else
        let qs := xs.map fun x => match x with
          | .fin s m e => (toInt .rne s m (e - sh)).1
          | _ => 0
        let cl := qs.map fun q => max (planeLo g signS) (min (planeHi g signS) q)
        (cl, (sh + 127).toNat, decide (cl ≠ qs))

/-! ### Elements and rows of a descriptor (R145) -/

/-- The format that a type code names (Table 5.5). -/
def fmtOf (ty : Nat) : Fmt :=
  match ty with
  | 9 => f16 | 10 => bf16 | 11 => e4m3 | 12 => e5m2 | _ => f32

/-- Lane flags as the flags of a completion record (Table 5.1). -/
def recFlags (f : Byte) : BitVec 16 :=
  (if f &&& fCLP ≠ 0 then 2 else 0) ||| (if f &&& fOVF ≠ 0 then 4 else 0) |||
  (if f &&& fINV ≠ 0 then 8 else 0) ||| (if f &&& fINX ≠ 0 then 16 else 0)

/-- Tile flags as the flags of a completion record (R59). -/
def tileRecFlags (f : Byte) : BitVec 16 :=
  (if f &&& tOVF ≠ 0 then 4 else 0) ||| (if f &&& tINV ≠ 0 then 8 else 0) |||
  (if f &&& tINX ≠ 0 then 16 else 0)

/-- An element of kind 1 from one format to another (R258). -/
def convElem (d : Desc) (src dst n : Nat) (bs : List Byte) : List Byte × BitVec 16 :=
  if d.kind = 1 then
    let r := (fmtOf dst).convTo .rne d.sat ((fmtOf src).decode (leNat bs))
    (leBytes n r.1, recFlags r.2)
  else (bs, 0)

/-- The first byte of dimension-0 run r from a base (R145). -/
def Desc.rowVa (d : Desc) (base : Word) (r : Nat) : Word :=
  base + BitVec.ofInt 64 ((r % d.count 1 : Nat) * d.strides.getD 0 0 +
    (r / d.count 1 % d.count 2 : Nat) * d.strides.getD 1 0 + (r / d.count 1 / d.count 2 : Nat) * d.strides.getD 2 0)

/-- The bytes of a run in memory. -/
def Desc.rowBytes (d : Desc) : Nat := d.count 0 * d.memBytes

/-- The 128-byte lines that n bytes from an address on touch, and the address of the k-th. -/
def lineCount (va : Word) (n : Nat) : Nat := (va.toNat % 128 + n + 127) / 128
def lineAddr (va : Word) (k : Nat) : Word := (va &&& ~~~127) + BitVec.ofNat 64 (128 * k)

/-- The bytes of a run that lie in its k-th line: the first, and the one after the last. -/
def lineSpan (va : Word) (n k : Nat) : Nat × Nat :=
  ((if k = 0 then 0 else 128 * k - va.toNat % 128), Nat.min n (128 * (k + 1) - va.toNat % 128))

def CmdKind.desc : CmdKind → Option Desc
  | .sload d | .sgather d _ | .sstore d _ | .sscatter d _ _ | .spair d _ => some d
  | _ => none

/-- The destinations of a store; one for every other command. -/
def CmdKind.dests : CmdKind → List Word
  | .sstore _ ds => ds
  | _ => [0]

/-- Whether a command brings lines into the SRF. -/
def CmdKind.loads : CmdKind → Bool
  | .sload _ | .sgather _ _ => true
  | .scopy r => r.dstSrf
  | _ => false

/-- The window offset of an index list. -/
def CmdKind.index : CmdKind → Option Nat
  | .sgather _ x | .sscatter _ x _ => some x
  | _ => none

/-- The rows of a command: every run, for each destination. -/
def CmdKind.rows : CmdKind → Nat
  | .sload d => d.runs
  | .sstore d ds => d.runs * ds.length
  | .sgather d _ | .sscatter d _ _ => d.count 1
  | .spair d _ => d.count 0
  | _ => 0

/-- The lines of a copy. -/
def CopyRec.lines (r : CopyRec) : Nat := r.bytes / 128

/-- The declared window range that a command fills. -/
def CmdKind.target : CmdKind → Nat × Nat
  | .sload d | .sgather d _ => (d.srf, d.srfLen)
  | .scopy r => (r.dst.toNat % 2 ^ 32, r.bytes)
  | _ => (0, 0)

/-! ### Rows, indices and sources -/

/-- Whether a line of the window may be read for a command: chained ranges wait (R250). -/
def State.srcReady (s : State) (cx : Nat) (k : Cmd) (w : Nat) : Bool :=
  !(chainedLines k.reads).contains w || s.lineReady cx k w

/-- Whether every line under n window bytes may be read. -/
def State.spanReady (s : State) (cx : Nat) (k : Cmd) (off n : Nat) : Bool :=
  (linesOf 0 off n).all (s.srcReady cx k)

/-- The address of a row: known, waiting for its index, or named by a poisoned index (R146, R254). The spec checks a
weight-store descriptor at posting only (R145): a row that an index takes to 1 GiB or beyond is read there, where nothing
was ever written, as zeros (DESIGN CHOICE, log 149). -/
inductive Row where
  | wait
  | bad
  | at_ (va : Word)

def State.row (s : State) (cx : Nat) (a : Active) (r : Nat) : Row :=
  match a.cmd.kind with
  | .sload d => .at_ (d.rowVa d.va r)
  | .sstore d ds => .at_ (d.rowVa (ds.getD (r / d.runs) 0) (r % d.runs))
  | .sgather d x | .sscatter d x _ =>
    match a.vas.find? (fun v => v.1 = r) with
    | some v => .at_ v.2
    | none =>
      if !s.srcReady cx a.cmd ((x + 4 * r) / 128) then .wait
      else
        let w := (s.core (s.home cx)).word (((s.ctx cx).winBase + x + 4 * r) / 4)
        if w.poison then .bad
        else .at_ (d.va + BitVec.ofInt 64 ((w.val.toNat : Int) * d.strides.getD 0 0))
  | .spair d _ => .at_ (d.va + BitVec.ofNat 64 (4096 * r))
  | _ => .at_ 0

/-- The address of a known row. -/
def Active.rowVa (a : Active) (r : Nat) : Word :=
  match a.cmd.kind with
  | .sload d => d.rowVa d.va r
  | .sstore d ds => d.rowVa (ds.getD (r / d.runs) 0) (r % d.runs)
  | .sgather _ _ | .sscatter _ _ _ => ((a.vas.find? (fun v => v.1 = r)).map Prod.snd).getD 0
  | .spair d _ => d.va + BitVec.ofNat 64 (4096 * r)
  | _ => 0

/-- The window offset of the bytes that a store's line takes, and their number. -/
def Active.source (a : Active) (r k : Nat) : Nat × Nat :=
  match a.cmd.kind with
  | .spair d _ =>
    (d.srf + (if k < 32 then 4096 * r + 128 * k else 4096 * d.count 0 + 4096 * r + 128 * (k - 32)), 128)
  | .scopy c => (c.src.toNat % 2 ^ 32 + 128 * k, 128)
  | kind => match kind.desc with
    | none => (0, 0)
    | some d =>
      let (lo, hi) := lineSpan (a.rowVa r) d.rowBytes k
      let n0 := r % d.runs * d.count 0 + lo / d.memBytes
      let n1 := r % d.runs * d.count 0 + (hi - 1) / d.memBytes
      (d.srf + n0 * d.srfBytes, (n1 + 1 - n0) * d.srfBytes)

/-! ### What the generator does next (R254) -/

/-- The next step of a command's requests: nothing is left, a line is not readable, the command ends
with a status, a line of the SRF is read, or a line of memory is requested. -/
inductive Gen where
  | ended
  | wait
  | idle
  | stop (st sub : Nat)
  | srf (k : Nat)
  | mem (run line : Nat) (va : Word) (write : Bool)

/-- The line of memory that (run, line) names, and whether it is written. -/
def Active.target (a : Active) (va : Word) (run line : Nat) : Gen :=
  match a.cmd.kind with
  | .sload _ | .sgather _ _ => .mem run line (lineAddr va line) false
  | .sstore _ _ | .sscatter _ _ _ => .mem run line (lineAddr va line) true
  | .spair _ xc =>
    .mem run line (if line < 32 then va + BitVec.ofNat 64 (128 * line)
      else xc + BitVec.ofNat 64 (4096 * run + 128 * (line - 32))) true
  | .scopy c =>
    if run = 1 || c.kind = 2 then .mem run line (c.dst + BitVec.ofNat 64 (128 * line)) true
    else .mem run line (c.src + BitVec.ofNat 64 (128 * line)) false
  | _ => .ended

/-- Which command a request belongs to. -/
def ReqOp.owner : ReqOp → Option (Queue × Nat)
  | .line q n _ _ | .lineSt q n _ _ _ _ _ | .reduce q n _ _ _ _ => some (q, n)
  | .pair n _ _ _ _ => some (.sst, n)
  | .flagStore _ _ n => some (.rem, n)
  | .treeStage n | .treeFlag n => some (.tre, n)
  | _ => none

/-- The requests of a command. -/
def State.reqsOf (s : State) (cx : Nat) (q : Queue) (num : Nat) : List Req :=
  s.reqs.filter fun r => r.cx = cx && r.op.owner = some (q, num)

/-- The lines below a limit that a copy from memory to memory has asked for and not received. -/
def State.copyReads (s : State) (cx : Nat) (a : Active) (lim : Nat) : List Nat :=
  (s.reqsOf cx a.cmd.queue a.cmd.num).filterMap fun r => match r.op with
    | .line _ _ _ l => if l < lim then some l else none
    | _ => none

/-- Whether the source line that a copy reads next is the destination of an earlier line of it that has
not been written: lines are copied in ascending order, so the read follows that write (R148). -/
def State.copyBehind (s : State) (cx : Nat) (a : Active) (c : CopyRec) : Bool :=
  let m := (c.src + BitVec.ofNat 64 (128 * a.line) - c.dst).toNat / 128
  decide (m < a.line) && (a.stage.any (fun t => t.line = m) || (s.reqsOf cx a.cmd.queue a.cmd.num).any fun r =>
    r.served.isNone && (match r.op with
      | .line _ _ _ l => l = m
      | .lineSt _ _ _ l _ _ _ => l = m
      | _ => false))

/-- The next step of a copy from memory to memory: its lines are written in ascending order (R148), and
after a failure those below the failing one still are (R142). -/
def State.genCopy (s : State) (cx : Nat) (a : Active) (c : CopyRec) : Gen :=
  let n := c.lines
  let lim := if a.fail.isSome then a.units else n
  let wait := s.copyReads cx a lim
  let have_ := (a.stage.map Stage.line).filter fun l => decide (l < lim)
  match have_.find? (fun l => have_.all (fun m => decide (l ≤ m)) && wait.all (fun m => decide (l < m))) with
  | some l => a.target 0 1 l
  | none =>
    if a.fail.isNone && decide (a.line < n) then (if s.copyBehind cx a c then .idle else a.target 0 0 a.line)
    else if wait.isEmpty && have_.isEmpty then .ended
    else .idle

/-- Whether a command copies from memory to memory. -/
def CmdKind.copies : CmdKind → Bool
  | .scopy c => c.kind = 0
  | _ => false

/-- The generator's next step for an accepted command. -/
def State.gen (s : State) (cx : Nat) (a : Active) : Gen :=
  if a.fail.any (fun f => f.1 ≠ 11) && !a.cmd.kind.copies then .ended
  else match a.redo with
  | (r, k, _) :: _ =>
    if a.cmd.kind.loads || s.spanReady cx a.cmd (a.source r k).1 (a.source r k).2 then
      a.target (a.rowVa r) r k
    else .wait
  | [] =>
    match a.cmd.kind with
    | .scopy c =>
      if c.kind = 0 then s.genCopy cx a c
      else if c.lines ≤ a.line then .ended
      else if c.kind = 3 then a.target 0 0 a.line
      else if !s.spanReady cx a.cmd (c.src.toNat % 2 ^ 32 + 128 * a.line) 128 then .wait
      else if c.kind = 1 then .srf a.line
      else a.target 0 0 a.line
    | .sload _ | .sgather _ _ =>
      if a.cmd.kind.rows ≤ a.run then .ended
      else match s.row cx a a.run with
        | .wait => .wait
        | .bad => .stop 3 4
        | .at_ va => a.target va a.run a.line
    | .sstore _ _ | .sscatter _ _ _ | .spair _ _ =>
      if a.cmd.kind.rows ≤ a.run then .ended
      else match s.row cx a a.run with
        | .wait => .wait
        | .bad => .stop 3 4
        | .at_ va =>
          let b := { a with vas := (a.run, va) :: a.vas }
          if s.spanReady cx a.cmd (b.source a.run a.line).1 (b.source a.run a.line).2 then
            a.target va a.run a.line
          else .wait
    | _ => .ended

/-- Whether a command has generated all its requests. -/
def State.genEnded (s : State) (cx : Nat) (a : Active) : Bool :=
  match s.gen cx a with
  | .ended => a.redo.isEmpty || a.fail.isSome
  | _ => false

/-- The command of a queue whose requests are generated next (R254); a parked queue generates none
(R314). -/
def State.generating (s : State) (cx : Nat) (q : Queue) : Option Active :=
  let as := (s.ctx cx).active.filter fun a => a.cmd.queue = q
  if as.any (fun a => a.parked ≠ []) then none
  else as.find? fun a => !s.genEnded cx a

/-- A command whose waits under R248 have ended starts: its chained lines are emptied (R251). -/
def State.startCmd (s : State) (cx : Nat) (a : Active) : State :=
  if a.started || s.mustWait cx a.cmd then s
  else (s.emptyLines cx a.cmd).modActive cx a.cmd.queue a.cmd.num fun b => { b with started := true }

/-! ### Failures (R142) -/

/-- A command notes a failure: the one of the smallest unit is reported. A page refused to a later unit than an element
that failed with status 11 leaves that status, and the command goes on (DESIGN CHOICE, log 150). -/
def Active.failAt (a : Active) (st sub : Nat) (va : Word) (unit : Nat) : Active :=
  if a.fail.isNone || unit < a.units then { a with fail := some (st, sub, va), units := unit } else a

/-- The unit that a request belongs to, and the unit's address (Table 5.3). A row that is converted or
cleared as a whole (R258, R260) reaches the SRF whole, so its first element is the unit. -/
def Active.unitOf (a : Active) (run line : Nat) (va : Word) : Nat × Word :=
  match a.cmd.kind with
  | .sload d | .sstore d _ =>
    let e := if d.kind = 2 || d.p2z then 0 else (lineSpan (a.rowVa run) d.rowBytes line).1 / d.memBytes
    (run % d.runs * d.count 0 + e, a.rowVa run + BitVec.ofNat 64 (e * d.memBytes))
  | .sgather _ _ | .sscatter _ _ _ => (run, a.rowVa run)
  | .spair _ xc => (run, if line < 32 then a.rowVa run else xc + BitVec.ofNat 64 (4096 * run))
  | _ => (line, va)

/-- The units that a command asks for. -/
def CmdKind.total : CmdKind → Nat
  | .sload d => d.total
  | .sstore d ds => if 1 < ds.length then ds.length else d.total
  | .sgather d _ | .sscatter d _ _ => d.count 1
  | .spair d _ => d.count 0
  | .scopy r => r.lines
  | _ => 1

/-! ### Requests of stores -/

/-- Bytes lo to hi of a row as its store writes them, with their flags and poison: each element is
converted from its SRF bytes (R258, R261). -/
def storeBytes (c : CoreSt) (win : Nat) (d : Desc) (row lo hi : Nat) : List Byte × BitVec 16 × Bool :=
  let n0 := lo / d.memBytes
  let n1 := (hi - 1) / d.memBytes
  let es := (List.range (n1 + 1 - n0)).map fun i =>
    let o := win + d.srf + (row * d.count 0 + n0 + i) * d.srfBytes
    (convElem d d.sty d.mty d.memBytes (c.srfBytes o d.srfBytes), c.srfBad o d.srfBytes)
  (((es.flatMap fun e => e.1.1).drop (lo - n0 * d.memBytes)).take (hi - lo),
   es.foldl (fun f e => f ||| e.1.2) 0, es.any Prod.snd)

/-- The elements of a row that begin among its bytes lo to hi: offset from lo, bytes, poison. -/
def rowElems (c : CoreSt) (win : Nat) (d : Desc) (row lo hi : Nat) : List (Nat × List Byte × Bool) :=
  let n0 := (lo + d.memBytes - 1) / d.memBytes
  let n1 := (hi + d.memBytes - 1) / d.memBytes
  (List.range (n1 - n0)).map fun i =>
    let o := win + d.srf + (row * d.count 0 + n0 + i) * d.srfBytes
    ((n0 + i) * d.memBytes - lo, c.srfBytes o d.srfBytes, c.srfBad o d.srfBytes)

/-- What a store's request carries, with the flags that its conversion sets. -/
def State.storeOp (s : State) (cx : Nat) (a : Active) (run line : Nat) : ReqOp × BitVec 16 :=
  let c := s.core (s.home cx)
  let win := (s.ctx cx).winBase
  let q := a.cmd.queue
  let n := a.cmd.num
  match a.cmd.kind with
  | .spair _ _ =>
    let o := win + (a.source run line).1
    let bad := c.srfBad o 128
    (.pair n run line (c.srfBytes o 128) bad, if bad then 32 else 0)
  | .scopy r =>
    if r.kind = 0 then
      match a.stage.find? (fun t => t.line = line) with
      | some t => (.lineSt q n run line ((List.range 128).zip t.bytes) t.poison true, if t.poison then 32 else 0)
      | none => (.lineSt q n run line [] false false, 0)
    else
      let o := win + (a.source run line).1
      let bad := c.srfBad o 128
      (.lineSt q n run line ((List.range 128).zip (c.srfBytes o 128)) bad true, if bad then 32 else 0)
  | kind => match kind.desc with
    | none => (.lineSt q n run line [] false false, 0)
    | some d =>
      let va := a.rowVa run
      let (lo, hi) := lineSpan va d.rowBytes line
      let off := (va.toNat + lo) % 128
      match kind with
      | .sscatter _ _ (some op) =>
        let es := rowElems c win d (run % d.runs) lo hi
        (.reduce q n run line op (es.map fun e => (off + e.1, e.2.1, e.2.2)), if es.any (fun e => e.2.2) then 32 else 0)
      | _ =>
        let (bs, f, bad) := storeBytes c win d (run % d.runs) lo hi
        (.lineSt q n run line ((List.range bs.length).map fun i => (off + i, bs.getD i 0)) bad (bs.length = 128),
         f ||| if bad then 32 else 0)

/-! ### Block reads (R304, R351) -/

/-- Whether a command is known to request a line from (run, line) on. A copy whose lines depend on others of the same
block cannot read it as one unit (DEDUCED, log 124). -/
def State.coversLine (s : State) (cx : Nat) (a : Active) (run line va : Nat) : Bool :=
  match a.cmd.kind with
  | .sload d | .sgather d _ => (List.range (a.cmd.kind.rows - run)).any fun i =>
      match s.row cx a (run + i) with
      | .at_ v => decide (v.toNat / 128 + (if i = 0 then line else 0) ≤ va / 128) &&
          decide (va / 128 ≤ (v.toNat + d.rowBytes - 1) / 128)
      | _ => false
  | .scopy r =>
    let apart := (r.dst - r.src).toNat / 128
    !(r.kind = 0 && decide (1 ≤ apart) && decide (apart < 32)) &&
      decide (r.src.toNat + 128 * line ≤ va) && decide (va < r.src.toNat + r.bytes)
  | _ => false

/-- The lines that rows of a gather from one on may still ask for, their indices not being known yet. -/
def State.openLines (s : State) (cx : Nat) (a : Active) (run : Nat) : Nat :=
  match a.cmd.kind with
  | .sgather d _ => ((List.range (a.cmd.kind.rows - run)).filter fun i => match s.row cx a (run + i) with
      | .wait => true
      | _ => false).length * ((d.rowBytes + 254) / 128)
  | _ => 0

/-- Whether a command's requests, those that `got` names with those from (run, line) on, may cover a whole block: what is
not known to be requested may still be (DEDUCED, log 124). -/
def State.mayCover (s : State) (cx : Nat) (a : Active) (run line base : Nat) (got : Nat → Bool) : Bool :=
  decide (((List.range 32).filter fun i => !got i && !s.coversLine cx a run line (base + 128 * i)).length ≤ s.openLines cx a run)

/-- The group of a load's line request: a block read of a paired granule (R351). A request joins its
command's group of the block that is not admitted yet, and begins one where this and the later requests
may cover the whole block. -/
def State.groupOf (s : State) (cx : Nat) (a : Active) (run line : Nat) (va : Word) (host : Bool) (phys : Nat) :
    Option Nat :=
  if host || amGroup (s.amapEntry phys) = 0 || !s.own phys then none
  else
    match (s.reqsOf cx a.cmd.queue a.cmd.num).find? fun r =>
        r.group.isSome && !r.admitted && r.phys / 4096 = phys / 4096 with
    | some r => r.group
    | none => if s.mayCover cx a run line (va.toNat / 4096 * 4096) fun _ => false then some s.nextReq else none

/-- Whether the group of a request is a block read that is still to be admitted: its lines and those to come may cover the
block, and its command has not failed. Requests of a group that cannot cover it are served line by line (R351). -/
def State.gathersBlock (s : State) (r : Req) : Bool :=
  match r.op.owner with
  | none => false
  | some (q, n) => (s.findActive r.cx q n).any fun a =>
      let base := r.va.toNat / 4096 * 4096
      a.fail.isNone && (a.parked ≠ [] || a.redo ≠ [] || s.mayCover r.cx a a.run a.line base fun i =>
        s.reqs.any fun x => x.group = r.group && x.va.toNat / 128 = base / 128 + i)

/-! ### Requests generated (R254, R255) -/

/-- The first row of a line of plane bits, which holds bits of four rows (R56). -/
def Desc.lineRow (d : Desc) (l : Nat) : Nat :=
  128 * l / (d.gauge * 2048) / ((d.count 0 + 255) / 256) * 64 + 128 * l % 2048 / 32

/-- The window lines that a received line feeds: for planes, those of its row's plane bits. -/
def Active.feeds (a : Active) (t : Stage) : List Nat :=
  match a.cmd.kind with
  | .sload d | .sgather d _ =>
    if d.kind = 2 then
      ((List.range (d.planeBytes / 128)).filter fun l =>
        decide (d.lineRow l ≤ t.run) && decide (t.run < d.lineRow l + 4)).map (· + d.srf / 128)
    else
      let (lo, hi) := lineSpan (a.rowVa t.run) d.rowBytes t.line
      let n0 := t.run * d.count 0 + lo / d.memBytes
      let n1 := t.run * d.count 0 + (hi - 1) / d.memBytes
      linesOf 0 (d.srf + n0 * d.srfBytes) ((n1 + 1 - n0) * d.srfBytes)
  | .scopy r => if r.kind = 3 then [(r.dst.toNat % 2 ^ 32) / 128 + t.line] else []
  | _ => []

/-- The received lines of a command that are not written in the SRF yet: they feed a chained line that is still FULL
(R250), or a row that is written whole and lacks lines (R258, R260). -/
def State.heldStage (s : State) (cx : Nat) (a : Active) : Nat :=
  let ch := chainedLines a.cmd.writes
  let whole := a.cmd.kind.desc.any fun d => d.kind = 2 || d.p2z
  (a.stage.filter fun t => (a.feeds t).any fun w =>
    !a.writ.contains w && (whole || (ch.contains w && !s.lineFree cx w))).length

/-- The stream requests of a core that are outstanding, with the lines received that wait for a line of the
SRF (R255). -/
def State.streamLoad (s : State) (g : Nat) : Nat :=
  (s.reqs.filter fun r => (match r.op with
    | .line .. | .lineSt .. | .reduce .. | .pair .. => true
    | _ => false) && s.home r.cx = g).length +
  ((s.ctxsAt g).map fun cx => ((s.ctx cx).active.map (s.heldStage cx)).sum).sum

/-- The number of lines of a row. -/
def Active.rowLines (a : Active) (va : Word) : Nat :=
  match a.cmd.kind with
  | .spair _ _ => 64
  | kind => match kind.desc with
    | some d => lineCount va d.rowBytes
    | none => 0

/-- The address of a row taken from its index is kept (R254). -/
def Active.latch (a : Active) (run : Nat) (va : Word) : Active :=
  if a.cmd.kind.index.isSome && !a.vas.any (fun v => v.1 = run) then { a with vas := a.vas ++ [(run, va)] } else a

/-- The command past (run, line): a copied line leaves its stage, a reissued request its list, and a new
one moves the place. -/
def Active.advance (a : Active) (run line : Nat) (va : Word) : Active :=
  let copied := match a.cmd.kind with
    | .scopy c => c.kind = 0 && run = 1
    | _ => false
  let a := if copied then { a with stage := a.stage.filter fun t => t.line ≠ line } else a
  match a.redo with
  | _ :: rs => { a with redo := rs }
  | [] => match a.cmd.kind with
    | .scopy _ => if copied then a else { a with line := a.line + 1 }
    | _ => if line + 1 < a.rowLines va then { a with line := line + 1 } else { a with run := run + 1, line := 0 }

/-- The window lines that a command has finished reading (R252): those that lie wholly before the source
of its next request. -/
def Active.readDone (a : Active) (ended : Bool) : List Nat :=
  let part := fun off n => (linesOf 0 off n).filter fun w => decide (128 * w + 128 ≤ off + n)
  let upTo := fun (d : Desc) r =>
    part d.srf (if a.line = 0 then r * d.count 0 * d.srfBytes else (a.source a.run a.line).1 - d.srf)
  if ended then chainedLines a.cmd.reads
  else if a.redo ≠ [] then []
  else match a.cmd.kind with
    | .sgather _ x => part x (4 * a.run)
    | .sscatter d x _ => part x (4 * a.run) ++ upTo d a.run
    | .sstore d ds => if a.run / d.runs + 1 = ds.length then upTo d (a.run % d.runs) else []
    | .scopy r => if r.srcSrf then part (r.src.toNat % 2 ^ 32) (128 * a.line) else []
    | .spair d _ => part d.srf (4096 * a.run + 128 * Nat.min a.line 32) ++
        part (d.srf + 4096 * d.count 0) (4096 * a.run + 128 * (a.line - 32))
    | _ => []

/-- The lines that a command has finished reading are let go. -/
def State.letGo (s : State) (cx : Nat) (q : Queue) (num : Nat) : State :=
  match s.findActive cx q num with
  | none => s
  | some a =>
    let ws := (a.readDone (s.genEnded cx a)).filter fun w => (chainedLines a.cmd.reads).contains w
    s.modCore (s.home cx) fun c => ws.foldl (fun c w => c.release (s.winLine cx w) (s.holder cx a.cmd)) c

/-- What the translation of a request gives; the weight store has none. -/
def State.reach (s : State) (cx : Nat) (a : Active) (va : Word) (w : Bool) : Tr × State :=
  if (a.cmd.kind.desc.map Desc.ws).getD false then (.hit ⟨0, 0, 0, 0, false, true, true⟩, s)
  else s.xlateFor cx va (!w) w

/-- A pair's place must be a granule of a pairing group of the core's own die, the same for both blocks
(R146, R348). -/
def State.pairPlaced (s : State) (cx : Nat) (a : Active) (run line : Nat) (host : Bool) (phys : Nat) : Bool :=
  !host && s.own phys && s.dieAt phys = dieOf (s.home cx) && amGroup (s.amapEntry phys) ≠ 0 &&
  (line < 32 || match (s.reqsOf cx .sst a.cmd.num).find? (fun r => match r.op with
      | .pair _ p k _ _ => p = run && k = 0
      | _ => false) with
    | some r => amGroup (s.amapEntry r.phys) = amGroup (s.amapEntry phys)
    | none => false)

/-- A pair that fails: its buffered lines are dropped, and the command ends from it on. -/
def State.failPair (s : State) (cx : Nat) (a : Active) (run : Nat) (st sub : Nat) (va : Word) : State :=
  { s with reqs := s.reqs.filter fun r => r.cx ≠ cx || (match r.op with
      | .pair n p _ _ _ => n ≠ a.cmd.num || p ≠ run
      | _ => true) }.modActive cx a.cmd.queue a.cmd.num fun b => b.failAt st sub va run

/-- The request of a line put in flight. -/
def State.issueLine (s : State) (cx : Nat) (a : Active) (run line : Nat) (va : Word) (write : Bool)
    (host : Bool) (phys : Nat) (page : BitVec 2) : State :=
  let ws := (a.cmd.kind.desc.map Desc.ws).getD false
  let row := match s.row cx a run with
    | .at_ v => v
    | _ => 0
  let a := a.latch run row
  let reduceHost := host && !(amValid (s.hmapEntry phys) && amSystem (s.hmapEntry phys))
  let (op, f) := if write then s.storeOp cx a run line else (.line a.cmd.queue a.cmd.num run line, 0)
  let a := { a.advance run line row with flags := a.flags ||| f }
  let upd := fun (t : State) => (t.modActive cx a.cmd.queue a.cmd.num fun _ => a).letGo cx a.cmd.queue a.cmd.num
  let lost := match op with
    | .reduce _ _ _ _ _ (e :: _) => if reduceHost then some e.1 else none
    | _ => none
  match lost with
  | some o => (s.modActive cx a.cmd.queue a.cmd.num fun _ =>
      a.failAt 11 0 ((va &&& ~~~127) + BitVec.ofNat 64 o) run).letGo cx a.cmd.queue a.cmd.num
  | none =>
    if (match a.cmd.kind with
        | .spair _ _ => !s.pairPlaced cx a run line host phys
        | _ => false) then s.failPair cx a run 3 3 (a.rowVa run)
    else
      let after := ((s.reqsOf cx a.cmd.queue a.cmd.num).filter fun r =>
        r.served.isNone && r.host = host && r.phys = phys && (match r.op with
          | .lineSt .. => true
          | _ => false)).map Req.id
      upd (s.addReq { newReq s cx op va host phys after page with
        ws := ws, group := if write || ws then none else s.groupOf cx a run line va host phys })

/-- A line of the SRF read by a copy within the SRF: its bytes and the marks of its words. -/
def State.readSrf (s : State) (cx : Nat) (a : Active) (k : Nat) : State :=
  let c := s.core (s.home cx)
  let o := (s.ctx cx).winBase + (a.source 0 k).1
  let marks := (List.range 32).map fun i => if (c.word (o / 4 + i)).poison then (1 : Byte) else 0
  let st : Stage := { run := 0, line := k, bytes := c.srfBytes o 128 ++ marks, poison := marks.any (· ≠ 0) }
  (s.modActive cx a.cmd.queue a.cmd.num fun b => { b with
    stage := b.stage ++ [st], line := k + 1, flags := b.flags ||| if st.poison then 32 else 0 }).letGo
      cx a.cmd.queue a.cmd.num

/-- A poisoned index ends a command when the generator reaches it (R146): no later row is requested. The
address of the unit is not stated: a free value. A failure of an earlier unit stays the one reported
(DESIGN CHOICE, log 122). -/
def State.stopCmd (s : State) (cx : Nat) (a : Active) (st sub : Nat) : State :=
  let (v, t) := s.takeFree
  (t.modActive cx a.cmd.queue a.cmd.num fun b =>
    { b.failAt st sub v b.run with run := b.cmd.kind.rows, line := 0 }).letGo cx a.cmd.queue a.cmd.num

/-- The lines of one destination of a multicast. -/
def Desc.destLines (d : Desc) (va : Word) : List Word :=
  (List.range d.runs).flatMap fun r =>
    (List.range (lineCount (d.rowVa va r) d.rowBytes)).map (lineAddr (d.rowVa va r))

/-- The translation of lines to be written, up to the first that is not granted: its outcome, its address. -/
def State.reachAll (s : State) (cx : Nat) (a : Active) : List Word → Tr × Word × State
  | [] => (.held, 0, s)
  | va :: vs =>
    match s.reach cx a va true, vs with
    | (.hit _, t), _ :: _ => t.reachAll cx a vs
    | (r, t), _ => (r, va, t)

/-- The translation of the next request. The first line of a destination of a multicast is granted only
where every line of that destination is, since a skipped destination writes nothing (R146, R303). -/
def State.grant (s : State) (cx : Nat) (a : Active) (run line : Nat) (va : Word) (w : Bool) : Tr × Word × State :=
  let one := fun (t : State) => let r := t.reach cx a va w; (r.1, va, r.2)
  match a.cmd.kind with
  | .sstore d ds =>
    if 1 < ds.length && run % d.runs = 0 && line = 0 then
      match s.reachAll cx a (d.destLines (ds.getD (run / d.runs) 0)) with
      | (.hit _, _, t) => one t
      | r => r
    else one s
  | _ => one s

/-- Whether a queue has a request that may be generated now (R254, R255). -/
def State.genReady (s : State) (cx : Nat) (q : Queue) : Bool :=
  match s.generating cx q with
  | none => false
  | some a =>
    let s := s.startCmd cx a
    !s.mustWait cx a.cmd && (match s.gen cx a with
      | .srf _ => true
      | .mem run line va w => decide (s.streamLoad (s.home cx) < 4096) &&
        (match s.grant cx a run line va w with
         | (.hit _, _) => true
         | _ => false)
      | _ => false)

/-- The name of a queue in its core's round of turns. -/
def turnKey (cx : Nat) (q : Queue) : Nat := 8 * cx + qcode q

/-- Whether the generator may take a line for a queue: 8 lines an ac, and no second turn while another
queue with a request ready has had none (R254). -/
def State.mayTurn (s : State) (cx : Nat) (q : Queue) : Bool :=
  let c := s.core (s.home cx)
  decide (c.genAc < 8) && (!c.genTurn.contains (turnKey cx q) ||
    (s.ctxsAt (s.home cx)).all fun x => [Queue.sld, Queue.sst].all fun p =>
      c.genTurn.contains (turnKey x p) || !s.genReady x p)

/-- A turn taken; a second one begins the next round. -/
def CoreSt.noteTurn (c : CoreSt) (k : Nat) : CoreSt :=
  { c with genAc := c.genAc + 1, genTurn := if c.genTurn.contains k then [k] else k :: c.genTurn }

/-- A turn of the generator for a queue (R254). -/
def State.generate (s : State) (cx : Nat) (q : Queue) : State :=
  match s.generating cx q with
  | none => s
  | some a =>
    let s := s.startCmd cx a
    let note := fun (t : State) => t.modCore (s.home cx) fun c => c.noteTurn (turnKey cx q)
    if s.mustWait cx a.cmd then s
    else match s.gen cx a with
      | .stop st sub => s.stopCmd cx a st sub
      | .srf k => if s.mayTurn cx q then note (s.readSrf cx a k) else s
      | .mem run line va w =>
        if 4096 ≤ s.streamLoad (s.home cx) || !s.mayTurn cx q then s
        else match s.grant cx a run line va w with
          | (.hit p, _, t) =>
            note (if (a.cmd.kind.desc.map Desc.ws).getD false then t.issueLine cx a run line va w false va.toNat 0
              else t.issueLine cx a run line va w (t.placeOf p va).1 (t.placeOf p va).2 p.size)
          | _ => s
      | _ => s

/-- REQUEST_GENERATION (R254): the address generator turns a command's next element into a line request. -/
def execRequestGeneration (cx : Nat) (q : Queue) (s : State) : Res :=
  .next (s.generate cx q)

/-! ### Translation faults (R314) -/

/-- A destination of a multicast that fails is skipped and reported (R146, R316). It writes nothing more:
its requests that have not performed are dropped (R303; log 125). -/
def State.skipDest (s : State) (cx : Nat) (a : Active) (d : Desc) (run : Nat) (va : Word) (sub : Nat) : State :=
  let t := s.addFault (some cx) { faultBase (dieOf (s.home cx)) va 5 sub 2 0 .nobody with
    write := true, info := true }
  let dest := run / d.runs
  let t := { t with reqs := t.reqs.filter fun r => r.cx ≠ cx || r.served.isSome || (match r.op with
    | .lineSt q n x _ _ _ _ => q ≠ a.cmd.queue || n ≠ a.cmd.num || x / d.runs ≠ dest
    | _ => true) }
  (t.modActive cx a.cmd.queue a.cmd.num fun b => { b with
    refused := b.refused ++ [(dest, 0, true)], run := (dest + 1) * d.runs, line := 0 }).letGo cx a.cmd.queue a.cmd.num

/-- ENGINE_TRANSLATION_FAULT (R314): a failed engine translation writes an entry and parks the command's queue. -/
def execEngineTranslationFault (cx : Nat) (q : Queue) (s : State) : Res :=
  .next ((match s.generating cx q with
     | none => s
     | some a =>
       if !a.started || s.mustWait cx a.cmd then s
       else match s.gen cx a with
         | .mem run line va w =>
           (match s.grant cx a run line va w with
            | (.fault sub, va, t) =>
              (match a.cmd.kind with
               | .sstore d ds => if 1 < ds.length then some d else none
               | _ => none).elim
                (if !t.faultRoom (dieOf (t.home cx)) then s
                 else
                   let row := match s.row cx a run with
                     | .at_ v => v
                     | _ => 0
                   let red := match a.cmd.kind with
                     | .sscatter _ _ (some _) => true
                     | _ => false
                   let u := t.addFault (some cx) { faultBase (dieOf (t.home cx)) va 5 sub (qcode q + 1) 0
                     (.engine cx q a.cmd.num run line) with read := !w, write := w, atomic := red }
                   u.modActive cx q a.cmd.num fun b => { (b.latch run row).advance run line row with
                     stage := b.stage, parked := b.parked ++ [t.nextFlt] })
                (fun d => t.skipDest cx a d run va sub)
            | _ => s)
         | _ => s))

/-- The entries that park a command. -/
def State.parkedOn (s : State) (a : Active) : List FaultEntry := s.faults.filter fun e => a.parked.contains e.id

/-- A parked queue resumes once every entry is answered (R314). -/
def execQueueResume (cx : Nat) (q : Queue) (s : State) : Res :=
  .next ((match (s.ctx cx).active.find? (fun a => a.cmd.queue = q && a.parked ≠ []) with
     | none => s
     | some a =>
       let es := sortBy FaultEntry.seq (s.parkedOn a)
       if es.any (fun e => e.answer.isNone) then s
       else
         let b := es.foldl (fun b e => match e.who with
           | .engine _ _ _ run line =>
             if e.answer = some true then { b with redo := b.redo ++ [(run, line, e.seq)] }
             else
               let (u, va) := b.unitOf run line e.va
               b.failAt 2 (if e.write then 1 else 0) va u
           | _ => b) { a with parked := [] }
         let t := { s with faults := s.faults.filter fun e => !a.parked.contains e.id }.modActive cx q a.cmd.num
           fun _ => b
         match b.cmd.kind with
         | .spair _ _ => (match b.fail with
           | some (st, sub, va) => t.failPair cx b b.units st sub va
           | none => t)
         | _ => t))

/-! ### Lines received (R145, R256, R258 to R260) -/

/-- A staged line of a row. -/
def Active.staged (a : Active) (run line : Nat) : Option Stage :=
  a.stage.find? fun t => t.run = run && t.line = line

/-- Whether every line of a row has been received. -/
def Active.rowIn (a : Active) (d : Desc) (r : Nat) : Bool :=
  (List.range (lineCount (a.rowVa r) d.rowBytes)).all fun k => (a.staged r k).isSome

/-- Whether a line of a row was poisoned. -/
def Active.rowBad (a : Active) (r : Nat) : Bool := a.stage.any fun t => t.run = r && t.poison

/-- n bytes of a row from an offset on, each with whether the line it lies in is poisoned; none while a
line is missing. -/
def Active.rowBytesAt (a : Active) (r off : Nat) : Nat → Option (List (Byte × Bool))
  | 0 => some []
  | n + 1 =>
    let p := (a.rowVa r).toNat % 128 + off
    match a.staged r (p / 128), a.rowBytesAt r (off + 1) n with
    | some t, some bs => some ((t.bytes.getD (p % 128) 0, t.poison) :: bs)
    | _, _ => none

/-- One line's worth of SRF words: bytes, marks by word, record flags, rows delivered as zero. -/
structure LineVal where
  bytes : List Byte
  marks : List Bool
  flags : BitVec 16 := 0
  zeros : Nat := 0

/-- The marks of 32 words from the bytes that are poisoned. -/
def marksOf (bad : Nat → Bool) : List Bool := (List.range 32).map fun i => (List.range 4).any fun j => bad (4 * i + j)

/-- The elements of relative line L of a transfer of kinds 0 and 1: bytes, flags, marks by byte, rows delivered as zero;
none for one that is missing (R258, R259, R260). A byte is marked with kind 0 where it is poisoned itself, with kind 1
where any of its element is. -/
def Active.plainElems (a : Active) (d : Desc) (l : Nat) : List (Option (List Byte × BitVec 16 × List Bool × Nat)) :=
  let sb := d.srfBytes
  let n0 := 128 * l / sb
  let cnt := Nat.min (128 / sb) (d.total - n0)
  (List.range cnt).map fun i =>
    let n := n0 + i
    let r := n / d.count 0
    if d.p2z && !a.rowIn d r then none
    else (a.rowBytesAt r (n % d.count 0 * d.memBytes) d.memBytes).map fun ps =>
      let bad := ps.any Prod.snd
      if d.p2z && a.rowBad r then
        (leBytes sb 0, (64 : BitVec 16), List.replicate sb false, if n % d.count 0 = 0 then 1 else 0)
      else
        let (x, f) := convElem d d.mty d.sty sb (ps.map Prod.fst)
        (x, f ||| (if bad then 32 else 0), if d.kind = 1 then List.replicate sb bad else ps.map Prod.snd, 0)

/-- Relative line L of a transfer of kinds 0 and 1; none while an element of it is missing. A word is marked where a byte
of it is. -/
def Active.plainLine (a : Active) (d : Desc) (l : Nat) : Option LineVal :=
  let es := a.plainElems d l
  if es.any Option.isNone then none
  else
    let vs := es.filterMap id
    let bs := vs.flatMap fun v => v.1
    let ms := vs.flatMap fun v => v.2.2.1
    some { bytes := bs ++ leBytes (128 - bs.length) 0
           marks := marksOf fun j => ms.getD j false
           flags := vs.foldl (fun f v => f ||| v.2.1) 0
           zeros := (vs.map fun v => v.2.2.2).sum }

/-- Row r of a plane transfer: its elements, exponent and flags, and whether it is poisoned or counted as
delivered zero; none while a line is missing. -/
def Active.planeOf (a : Active) (d : Desc) (r : Nat) : Option (List Int × Nat × BitVec 16 × Bool × Nat) :=
  if !a.rowIn d r then none
  else if a.rowBad r then
    some ([], 0, if d.p2z then 64 else 32, !d.p2z, if d.p2z then 1 else 0)
  else
    let xs := (List.range (d.count 0)).map fun k =>
      (fmtOf d.mty).decode (leNat (((a.rowBytesAt r (k * d.memBytes) d.memBytes).map (List.map Prod.fst)).getD []))
    let (es, e, rng) := planeRow d.gauge d.signS xs
    some (es, e, if rng then 1 else 0, false, 0)

/-- The byte of eight elements' bits of one plane. -/
def planeByte (es : List Int) (k p : Nat) : Byte :=
  (List.range 8).foldl (fun b i => if (es.getD (k + i) 0 / 2 ^ p) % 2 = 1 then b ||| (1 <<< i) else b) 0

/-- Relative line L of a plane transfer (R56, R57, R145). -/
def Active.planeLine (a : Active) (d : Desc) (l : Nat) : Option LineVal :=
  let kb := (d.count 0 + 255) / 256
  let rows := if 128 * l < d.planeBytes then
      (List.range 4).map fun i => d.lineRow l + i
    else (List.range 128).filterMap fun j =>
      if 128 * l + j < d.planeBytes + d.expBytes then some (128 * l + j - d.planeBytes) else none
  let vs := rows.map fun r => if r < d.runs then (a.planeOf d r).map some else some none
  if vs.any Option.isNone then none
  else
    let ws := vs.filterMap id
    let bytes := if 128 * l < d.planeBytes then
        (List.range 128).map fun j => match ws.getD (j / 32) none with
          | some v => planeByte v.1 (128 * l / (d.gauge * 2048) % kb * 256 + 8 * (j % 32))
              (128 * l % (d.gauge * 2048) / 2048)
          | none => 0
      else (ws.map fun v => match v with
        | some v => BitVec.ofNat 8 v.2.1
        | none => 0) ++ leBytes (128 - ws.length) 0
    let bad := ws.any fun v => match v with
      | some v => v.2.2.2.1
      | none => false
    some { bytes := bytes, marks := List.replicate 32 bad
           flags := ws.foldl (fun f v => match v with
             | some v => f ||| v.2.2.1
             | none => f) 0
           zeros := if 128 * l < d.planeBytes then 0 else (ws.map fun v => match v with
             | some v => v.2.2.2.2
             | none => 0).sum }

/-- Relative line L of the range that a command fills; none while it is not determined. -/
def Active.lineVal (a : Active) (l : Nat) : Option LineVal :=
  match a.cmd.kind with
  | .sload d | .sgather d _ =>
    if d.span ≤ 128 * l then some { bytes := leBytes 128 0, marks := List.replicate 32 false }
    else if d.kind = 2 then a.planeLine d l
    else a.plainLine d l
  | .scopy r =>
    if r.kind = 1 && decide (a.line < r.lines) then none
    else (a.staged 0 l).map fun t =>
      if r.kind = 1 then { bytes := t.bytes.take 128, marks := (t.bytes.drop 128).map fun b => decide (b ≠ 0) }
      else { bytes := t.bytes, marks := List.replicate 32 t.poison, flags := if t.poison then 32 else 0 }
  | _ => none

/-- The words of relative line L of a load that its received lines determine, each with its mark: a row that is not
written whole reaches the SRF line by line (R263). -/
def Active.knownWords (a : Active) (l : Nat) : List (Option SrfWord) :=
  match a.cmd.kind with
  | .sload d | .sgather d _ =>
    if d.kind = 2 || d.p2z || decide (d.span ≤ 128 * l) then []
    else
      let bs := ((a.plainElems d l).flatMap fun e => match e with
        | none => List.replicate d.srfBytes none
        | some v => (v.1.zip v.2.2.1).map some) ++ List.replicate 128 (some (0, false))
      (List.range 32).map fun i =>
        let q := (bs.drop (4 * i)).take 4
        let ps := q.filterMap id
        if q.all Option.isSome then some ⟨BitVec.ofNat 32 (leNat (ps.map Prod.fst)), ps.any Prod.snd⟩ else none
  | _ => []

/-- Words of a window line written: those that a list gives, but for those of a mask. -/
def State.putWords (s : State) (cx w : Nat) (ks : List (Option SrfWord)) (mask : Word32) : State :=
  s.modCore (s.home cx) fun c => (List.range 32).foldl (fun c i =>
    if mask.getLsbD i then c else ((ks.getD i none).map (c.setWord (32 * s.winLine cx w + i))).getD c) c

/-- A window line written whole but for the words of a mask, which were written before, and filled (R250). -/
def State.putLine (s : State) (cx : Nat) (q : Queue) (num w : Nat) (v : LineVal) (mask : Word32) : State :=
  ((s.putWords cx w ((List.range 32).map fun i =>
      some ⟨BitVec.ofNat 32 (leNat ((v.bytes.drop (4 * i)).take 4)), v.marks.getD i false⟩) mask).fillWin cx q num w).modActive
    cx q num fun b => { b with flags := b.flags ||| v.flags, aux := b.aux + v.zeros }

/-- The words of a window line that have become known since the last were written. -/
def State.putPart (s : State) (cx : Nat) (q : Queue) (num w : Nat) (ks : List (Option SrfWord)) (mask : Word32) : State :=
  let now := (List.range 32).foldl (fun (m : Word32) i => if (ks.getD i none).isSome then m ||| (1 <<< i) else m) mask
  if now = mask then s
  else (s.putWords cx w ks mask).modActive cx q num fun b => { b with parts := smPut 0 b.parts w now }

/-- The received lines whose SRF lines are all written leave the stage. -/
def Active.prune (a : Active) : Active :=
  match a.cmd.kind with
  | .scopy r => if r.dstSrf then { a with
      stage := a.stage.filter fun t => !a.writ.contains ((r.dst.toNat % 2 ^ 32) / 128 + t.line) } else a
  | kind =>
    match kind.desc with
    | none => a
    | some d =>
      if d.kind = 2 || d.p2z then
        if (List.range (d.srfLen / 128)).all (fun l => a.writ.contains (d.srf / 128 + l)) then { a with stage := [] } else a
      else { a with stage := a.stage.filter fun t => !(a.feeds t).all fun w => a.writ.contains w }

/-- What received lines determine of a load's range is written where it may be, and whole lines are filled (R250, R256,
R263). -/
def State.pump (s : State) (cx : Nat) (q : Queue) (num : Nat) : State :=
  match s.findActive cx q num with
  | none => s
  | some a =>
    if !a.cmd.kind.loads || !a.started || a.fail.isSome then s
    else
      let (base, len) := a.cmd.kind.target
      let ch := (chainedLines a.cmd.writes)
      ((List.range (len / 128)).foldl (fun s l =>
        let w := base / 128 + l
        if a.writ.contains w || (ch.contains w && !s.lineFree cx w) then s
        else match a.lineVal l with
          | some v => s.putLine cx q num w v (smGet 0 a.parts w)
          | none => s.putPart cx q num w (a.knownWords l) (smGet 0 a.parts w)) s).modActive cx q num Active.prune

/-- Whether relative line L holds a byte of a unit that was not done (R142). -/
def Active.lostLine (a : Active) (l : Nat) : Bool :=
  match a.cmd.kind with
  | .sload d | .sgather d _ =>
    let row := match a.cmd.kind with
      | .sgather _ _ => a.units
      | _ => a.units / d.count 0
    let elem := match a.cmd.kind with
      | .sgather _ _ => a.units * d.count 0
      | _ => a.units
    if d.span ≤ 128 * l then false
    else if d.kind = 2 then
      if 128 * l < d.planeBytes then
        let r := d.lineRow l
        decide (row < r + 4) && decide (r < d.runs)
      else
        let r := 128 * l - d.planeBytes
        decide (row < r + 128) && decide (r < d.runs)
    else decide (elem * d.srfBytes < 128 * l + 128)
  | _ => decide (a.units ≤ l)

/-- A failed load's lines: those of units that were not done are written with poison marks on all their
words, and every line is filled (R142). -/
def State.failFill (s : State) (cx : Nat) (q : Queue) (num : Nat) : State :=
  match s.findActive cx q num with
  | none => s
  | some a =>
    let (base, len) := a.cmd.kind.target
    let ch := (chainedLines a.cmd.writes)
    (List.range (len / 128)).foldl (fun s l =>
      let w := base / 128 + l
      let wait := ch.contains w && !s.lineFree cx w && !a.writ.contains w
      if a.fin.contains (0, w) || wait then s
      else if a.lostLine l then
        let (bs, t) := (List.range 32).foldl (fun (p : List Byte × State) _ =>
          let (v, t) := p.2.takeFree
          (p.1 ++ leBytes 4 v.toNat, t)) ([], s)
        (t.putLine cx q num w { bytes := bs, marks := List.replicate 32 true, flags := 32 } 0).modActive cx q num
          fun b => { b with fin := (0, w) :: b.fin }
      else if a.writ.contains w then s.modActive cx q num fun b => { b with fin := (0, w) :: b.fin }
      else match a.lineVal l with
        | some v => (s.putLine cx q num w v 0).modActive cx q num fun b => { b with fin := (0, w) :: b.fin }
        | none => s) s

/-! ### Requests at their places -/

/-- Bytes at offsets of a line stored. -/
def State.storeAt (s : State) (host : Bool) (a : Nat) (bs : List (Nat × Byte)) : State :=
  bs.foldl (fun s b => s.wrMem host (a + b.1) [b.2]) s

/-- A reduction's new value and the record flags that it sets (R146, R302). -/
def redApply (op : RedOp) (old new : List Byte) : List Byte × BitVec 16 :=
  match op with
  | .addI32 | .addN32 => (leBytes 4 (leNat old + leNat new), 0)
  | .addI64 => (leBytes 8 (leNat old + leNat new), 0)
  | .addXa256 => let r := xaAdd (leNat old) (leNat new); (leBytes 32 r.1, tileRecFlags r.2)
  | .addF32 =>
    let r := fadd32 .rne (BitVec.ofNat 32 (leNat old)) (BitVec.ofNat 32 (leNat new))
    (leBytes 4 r.1.toNat, recFlags r.2)

/-- One element of a reduction, applied indivisibly; a poisoned element is not applied, and its line is
marked (R261, R299). -/
def State.reduceElem (s : State) (host : Bool) (a : Nat) (op : RedOp) (e : Nat × List Byte × Bool) :
    State × BitVec 16 :=
  let p := a + e.1
  let old := s.rdMem host p e.2.1.length
  if e.2.2 then ((s.wrMem host p old).mark host p true, 0)
  else
    let (v, f) := redApply op old e.2.1
    (s.wrMem host p v, f)

/-- A request takes effect at its place: its data, and whether they are poisoned (R291). -/
def State.performReq (s : State) (r : Req) : State × List Byte × Bool :=
  match r.op with
  | .line .. => (s, s.rdMem r.host r.phys 128, s.bad r.host r.phys)
  | .lineSt _ _ _ _ bs p whole =>
    let t := s.storeAt r.host r.phys bs
    (if p then t.mark r.host r.phys true else if whole then t.mark r.host r.phys false else t, [], false)
  | .reduce q n _ _ op es =>
    let (t, f) := es.foldl (fun (x : State × BitVec 16) e =>
      let (t, g) := x.1.reduceElem r.host r.phys op e
      (t, x.2 ||| g)) (s, 0)
    (t.modActive r.cx q n fun a => { a with flags := a.flags ||| f }, [], false)
  | .pair .. => (s, [], false)
  | .treeLine .. | .treeStage _ =>
    let a := alignDown r.phys 128
    (s, s.rdMem r.host a 128, s.bad r.host a)
  | .treeFlag _ =>
    let old := s.rdMem r.host (r.phys + 29) 1
    if 128 ≤ leNat old then (s, [1], false) else (s.wrMem r.host (r.phys + 29) (leBytes 1 (leNat old + 128)), [0], false)
  | .treeWr _ bs =>
    let t := s.storeAt r.host r.phys bs
    (if bs.length = 128 then t.mark r.host r.phys false else t, [], false)
  | _ => performCp s r

/-- n free bytes. -/
def State.freeBytes (s : State) : Nat → List Byte × State
  | 0 => ([], s)
  | n + 1 =>
    let (v, t) := s.takeFree
    let (bs, u) := t.freeBytes n
    (v.setWidth 8 :: bs, u)

/-- Bytes of the weight store. -/
def DieSt.wsBytes (d : DieSt) (o : Nat) : Nat → List Byte
  | 0 => []
  | n + 1 => smGet 0 d.wsMem o :: d.wsBytes (o + 1) n

/-- A received line is staged, and what it determines is written (R263). -/
def State.receive (s : State) (r : Req) : State :=
  match r.op with
  | .line q n run ln =>
    ((s.dropReq r.id).modActive r.cx q n fun a => { a with
      stage := a.stage ++ [{ run := run, line := ln, bytes := r.data, poison := r.dpois }] }).pump r.cx q n
  | _ => s

/-- LINE_WRITE (R263): a load's line is due, or its answer arrives from away. -/
def lineWrite (s : State) (id : Nat) : State :=
  match s.findReq id with
  | none => s
  | some r => match r.op with
    | .line .. =>
      if r.served.isSome then (if s.mayComplete r then s.receive r else s)
      else if !r.ws && s.away r && s.mayAnswer r then
        let (t, bs, bad) := s.performReq r
        t.receive { r with data := bs, dpois := bad }
      else s
    | .treeLine .. | .treeStage _ | .treeFlag _ =>
      if r.served.isSome then (if s.mayComplete r then s.treeArrive r else s)
      else if s.away r && s.mayAnswer r then
        let (t, bs, bad) := s.performReq r
        t.treeArrive { r with data := bs, dpois := bad }
      else s
    | _ => s

/-- LINE_WRITE (R263): a served load line is written in the SRF exactly 192 or 336 ac later. -/
def execLineWrite (req : Nat) (s : State) : Res :=
  .next (Sys2Proof.Machine.lineWrite s req)

/-- Whether a line of a pair stands in the pairing buffer: its pair is not released yet (R349). -/
def State.buffered (s : State) (r : Req) : Bool :=
  match r.op with
  | .pair n p _ _ _ => r.served.isSome && (s.findActive r.cx .sst n).any fun a => decide (a.fin.length ≤ p)
  | _ => false

/-- STORE_ACKNOWLEDGE (R263): a store that has performed is acknowledged; away, it performs now. A line of a pair performs
with it, so that its acknowledgement waits for the release (DEDUCED, log 159). -/
def storeAck (s : State) (id : Nat) : State :=
  match s.findReq id with
  | none => s
  | some r => match r.op with
    | .store .. | .lineSt .. | .reduce .. | .treeWr .. =>
      if r.served.isSome then (if s.mayComplete r then s.dropReq id else s)
      else if !r.ws && s.away r && s.mayAnswer r then (s.performReq r).1.dropReq id
      else s
    | .pair .. => if s.mayComplete r && !s.buffered r then s.dropReq id else s
    | _ => s

/-- STORE_ACKNOWLEDGE (R263): a served store is acknowledged to its issuer at the fixed figure. -/
def execStoreAcknowledge (req : Nat) (s : State) : Res :=
  .next (storeAck s req)

/-- REDUCTION_ELEMENT (R302): the next element of a reduction in host memory is applied. -/
def execReductionElement (req : Nat) (s : State) : Res :=
  .next ((match s.findReq req with
     | none => s
     | some r => match r.op with
       | .reduce q n run ln op (e :: es) =>
         if r.served.isNone && r.host && s.mayPerform r then
           let (t, f) := s.reduceElem r.host r.phys op e
           (t.modReq req fun x => { x with op := .reduce q n run ln op es }).modActive r.cx q n fun a =>
             { a with flags := a.flags ||| f }
         else s
       | _ => s))

/-! ### Pairs (R348 to R351) -/

/-- The requests of a pair of a command. -/
def State.pairReqs (s : State) (cx num p : Nat) : List Req :=
  s.reqs.filter fun r => r.cx = cx && (match r.op with
    | .pair n i _ _ _ => n = num && i = p
    | _ => false)

/-- Whether a request has arrived at its channel: at once on the issuer's own die, else 24 ac after it was
generated (R264). -/
def State.arrived (s : State) (r : Req) : Bool :=
  decide (r.gen + (if s.dieAt r.phys = s.reqDie r then 0 else 24) ≤ s.now)

/-- The pairs of a context that hold a lock: the accepted command, and the requests of its pair. -/
def State.lockedPairs (s : State) (cx : Nat) : List (Active × List Req) :=
  ((s.ctx cx).active.filter fun a => match a.cmd.kind with
    | .spair _ _ => a.phase ≠ 0
    | _ => false).map fun a => (a, s.pairReqs cx a.cmd.num a.fin.length)

/-- Whether two requests go to one stack. -/
def State.oneStack (s : State) (x y : Req) : Bool :=
  s.dieAt x.phys = s.dieAt y.phys && stackOf (s.channelOf x.phys) = stackOf (s.channelOf y.phys)

/-- Whether the next pair of a command may lock: its 64 lines are buffered, no lock stands on a line of it, no admitted
block read of it and no request that a lock has kept waiting is unserved (R350, R351), and no pair of its core is being
committed on its stack, whose slots that one has (R349). -/
def State.mayLock (s : State) (cx : Nat) (a : Active) : Bool :=
  let rs := s.pairReqs cx a.cmd.num a.fin.length
  let ls := rs.map fun r => r.phys / 128
  rs.length = 64 && rs.all (fun r => r.served.isSome) && !ls.any (fun l => s.locks.contains l) &&
  !s.reqs.any (fun r => r.served.isNone && ls.contains (r.phys / 128) && ((r.group.isSome && r.admitted) || r.waited)) &&
  !(s.ctxsAt (s.home cx)).any fun c => (s.lockedPairs c).any fun p => p.2.any fun x => rs.any (s.oneStack x)

/-- PAIR_LOCK (R349): a pair that may lock changes at one instant; the pairs of one command lock in order. -/
def execPairLock (cx : Nat) (s : State) : Res :=
  .next ((match (s.ctx cx).active.find? (fun a => match a.cmd.kind with
       | .spair _ _ => a.phase = 0 && s.mayLock cx a
       | _ => false) with
     | none => s
     | some a =>
       let rs := s.pairReqs cx a.cmd.num a.fin.length
       let t := rs.foldl (fun t r => match r.op with
         | .pair _ _ _ bs bad => (t.wrMem false r.phys bs).mark false r.phys bad
         | _ => t) s
       { t with locks := t.locks ++ rs.map fun (r : Req) => r.phys / 128 }.modActive cx .sst a.cmd.num fun b => { b with phase := s.now + 1 }))

/-- The lock of a pair is released: its lines whose figure has passed are acknowledged, and the requests that the lock has
kept from their slots are noted (R350). -/
def State.unlockPair (s : State) (cx : Nat) (a : Active) (rs : List Req) : State :=
  let ls := rs.map fun r => r.phys / 128
  let mine := fun (r : Req) => rs.any fun x => x.id = r.id
  { s with
    locks := s.locks.filter fun l => !ls.contains l
    reqs := (s.reqs.filter fun (r : Req) => !(mine r && r.due.all (· ≤ s.now))).map fun (r : Req) =>
      if !mine r && r.served.isNone && ls.contains (r.phys / 128) && s.arrived r && s.mayPerform r then { r with waited := true }
      else r }.modActive cx .sst a.cmd.num fun b => { b with phase := 0, fin := (b.fin.length, 0) :: b.fin }

/-- A context's locks are released when the core's two slots of every channel after the lock have passed: n ac or more
after it (R349). -/
def State.releasePair (s : State) (n cx : Nat) : State :=
  ((s.lockedPairs cx).filter fun p => decide (p.1.phase + n ≤ s.now + 1)).foldl (fun s p => s.unlockPair cx p.1 p.2) s

/-- PAIR_RELEASE (R349): 63 ac after the lock, every channel's two lines have been written. -/
def execPairRelease (cx : Nat) (s : State) : Res :=
  .next (s.releasePair 63 cx)

/-- Whether the group of a block read may be admitted: all its 32 lines have arrived, and no lock of the
pair stands (R351). -/
def State.groupIn (s : State) (g : Option Nat) : Bool :=
  let rs := s.reqs.filter fun x => x.group = g
  (rs.map Req.phys).eraseDups.length = 32 && rs.all s.arrived && !rs.any fun x => s.locks.contains (x.phys / 128)

/-- The groups among some requests that may be admitted are admitted (R351). -/
def State.admitGroups (s : State) (p : Req → Bool) : State :=
  let rs := s.reqs.map fun r =>
    if p r && r.group.isSome && !r.admitted && s.groupIn r.group then { r with admitted := true } else r
  { s with reqs := rs }

/-- BLOCK_READ_ADMIT (R351): a whole group that has arrived is admitted, never while its pair is locked. -/
def execBlockReadAdmit (cx : Nat) (q : Queue) (s : State) : Res :=
  .next (s.admitGroups fun r => r.cx = cx && (r.op.owner.map Prod.fst) = some q)

/-! ### The weight store (R157, R267) -/

/-- The bank of an offset, and whether a bank refreshes at an ac. -/
def wsBank (o : Nat) : Nat := o / 256 % 64
def wsRefreshes (now bank : Nat) : Bool := now % 65536 / 1024 = bank && decide (now % 1024 < 128)

/-- WS_BANK_REFRESH (R267): a bank is under refresh exactly in its phases. -/
def execWsBankRefresh (die bank : Nat) (s : State) : Res :=
  .next (s.modDie die fun d => { d with
      wsRef := if wsRefreshes d.cycle bank then bank :: d.wsRef.filter (· ≠ bank) else d.wsRef.filter (· ≠ bank) })

/-- The weight-store requests of a die that wait for a bank, oldest first. -/
def State.wsWaiting (s : State) (die bank : Nat) : List Req :=
  s.reqs.filter fun r => r.ws && r.served.isNone && wsBank r.phys = bank && dieOf (s.home r.cx) = die

/-- A weight-store request served by its bank. -/
def State.wsServe (s : State) (die : Nat) (r : Req) : State :=
  let d := { s.die die with wsUsed := wsBank r.phys :: (s.die die).wsUsed }
  match r.op with
  | .line .. => (s.setDie die d).modReq r.id fun x => { x with
      served := some s.now, due := some (s.now + 48), data := d.wsBytes r.phys 128, dpois := smGet false d.wsPois (r.phys / 128) }
  | .lineSt _ _ _ _ bs p whole =>
    (s.setDie die { d with
      wsMem := bs.foldl (fun m b => smPut 0 m (r.phys + b.1) b.2) d.wsMem
      wsPois := if p then smPut false d.wsPois (r.phys / 128) true
                else if whole then smPut false d.wsPois (r.phys / 128) false else d.wsPois }).modReq r.id fun x =>
        { x with served := some s.now, due := some s.now }
  | _ => s

/-- The lines that a bank has served in this ac. -/
def State.wsServed (s : State) (die bank : Nat) : Nat :=
  ((s.die die).wsUsed.filter (· = bank)).length

/-- The service of a bank for what is left of an ac: two lines in arrival order, none while it refreshes
(R267). -/
def State.wsBankTurn (s : State) (die bank : Nat) : State :=
  if wsRefreshes (s.die die).cycle bank || (s.die die).wsRef.contains bank then s
  else ((s.wsWaiting die bank).take (2 - s.wsServed die bank)).foldl (fun s r => s.wsServe die r) s

/-- WS_BANK_SERVICE (R267): a weight-store bank serves up to two lines in an ac. -/
def execWsBankService (die bank : Nat) (s : State) : Res :=
  .next (s.wsBankTurn die bank)

/-- The accepted commands of a die's contexts. -/
def State.dieActive (s : State) (die : Nat) : List (Nat × Active) :=
  s.ctxs.flatMap fun p => if dieOf (s.home p.1) = die then p.2.active.map fun a => (p.1, a) else []

/-- Whether an accepted command reads the weight store; a failed one counts until it has completed. -/
def Active.wsReads (a : Active) : Bool :=
  match a.cmd.kind with
  | .sload d | .sgather d _ => d.ws
  | _ => false

/-- Whether an accepted command still writes the weight store: it has not failed, or writes of it have
not performed. -/
def State.wsWrites (s : State) (cx : Nat) (a : Active) : Bool :=
  (a.fail.isNone || !(s.reqsOf cx a.cmd.queue a.cmd.num).isEmpty) && (match a.cmd.kind with
    | .sstore d _ => d.ws
    | _ => false)

/-- The commands of one kind of a die that have not ended are ended. -/
def State.endKind (s : State) (die : Nat) (k : CmdKind) : State :=
  ((s.dieActive die).filter fun p => p.2.cmd.kind = k && !p.2.ended).foldl (fun s p =>
    s.modActive p.1 p.2.cmd.queue p.2.cmd.num fun a => { a with ended := true }) s

/-- WS_ENTER_LOAD (R157): a DRAINING weight store enters LOAD once earlier reads complete. -/
def execWsEnterLoad (die : Nat) (s : State) : Res :=
  .next ((match (s.dieActive die).filter (fun p => p.2.cmd.kind = .wsLoad && !p.2.ended) with
     | [] => s
     | l =>
       let last := l.foldl (fun m p => max m p.2.ord) 0
       if (s.dieActive die).any (fun p => p.2.wsReads && decide (p.2.ord < last)) then s
       else (s.endKind die .wsLoad).modDie die fun d => { d with ws := .loading }))

/-- WS_SEAL_COMPLETE (R157): the weight store becomes SEALED once earlier writes perform. -/
def execWsSealComplete (die : Nat) (s : State) : Res :=
  .next ((match (s.dieActive die).filter (fun p => p.2.cmd.kind = .wsSeal && !p.2.ended) with
     | [] => s
     | l =>
       let last := l.foldl (fun m p => max m p.2.ord) 0
       if (s.dieActive die).any (fun p => s.wsWrites p.1 p.2 && decide (p.2.ord < last)) then s
       else (s.endKind die .wsSeal).modDie die fun d => { d with ws := .sealed }))

/-! ### Acceptance and completion (R20, R141, R142, R256) -/

/-- A stream command as it stands when accepted: a weight-store command in the wrong state fails with
status 4 (R147, R157). -/
def State.acceptStream (s : State) (cx : Nat) (k : Cmd) : State :=
  let die := dieOf (s.home cx)
  let mode := (s.die die).ws
  let sealing := (s.dieActive die).any fun p => p.2.cmd.kind = .wsSeal && !p.2.ended
  let a : Active := { cmd := k, ord := s.hub.tick, at_ := s.now }
  let a := match k.kind with
    | .sload d | .sgather d _ => if d.ws && mode ≠ .sealed then a.failAt 4 0 d.va 0 else a
    | .sstore d ds => if d.ws && (mode ≠ .loading || sealing) then
        a.failAt 4 0 (ds.headD d.va) 0 else a
    | _ => a
  let t := ((s.modCtx cx fun c => { c with
    posted := c.posted.filter (fun j => j.queue ≠ k.queue || j.num ≠ k.num), active := c.active ++ [a] }).modHub
      fun h => { h with tick := h.tick + 1 }).holdLines cx k
  let t := t.startCmd cx a
  match k.kind with
  | .wsLoad => t.modDie die fun d => { d with ws := .draining }
  | _ => t

/-- What a stream command's record reports (Tables 5.1 to 5.3). -/
def Active.report (a : Active) : Done :=
  let n := a.cmd.kind.total
  match a.cmd.kind with
  | .sstore d ds =>
    if 1 < ds.length then
      let lost := a.refused.map fun r => r.1
      let mask := (List.range ds.length).foldl (fun m i => if lost.contains i then m else m + 2 ^ i) 0
      match lost with
      | [] => (match a.fail with
        | none => { flags := a.flags.toNat, done := n, total := n, aux := mask }
        | some (st, sub, va) => { status := st, sub := sub, flags := a.flags.toNat, total := n, va := va })
      | i :: _ => { status := 10, flags := a.flags.toNat, done := i, total := n, aux := mask,
                    va := d.rowVa (ds.getD i 0) 0 }
    else match a.fail with
      | none => { flags := a.flags.toNat, done := n, total := n, aux := a.aux }
      | some (st, sub, va) => { status := st, sub := sub, flags := a.flags.toNat, done := a.units, total := n, aux := a.aux, va := va }
  | _ => match a.fail with
    | none => { flags := a.flags.toNat, done := n, total := n, aux := a.aux }
    | some (st, sub, va) => { status := st, sub := sub, flags := a.flags.toNat, done := a.units, total := n, aux := a.aux, va := va }

/-- Whether a load has filled its whole declared range. -/
def Active.filled (a : Active) : Bool :=
  let (base, len) := a.cmd.kind.target
  (List.range (len / 128)).all fun l =>
    if a.fail.isSome then a.fin.contains (0, base / 128 + l) else a.writ.contains (base / 128 + l)

/-- A stream command that has nothing left to do completes (R256). -/
def State.closeStream (s : State) (cx : Nat) (q : Queue) (num : Nat) : State :=
  match s.findActive cx q num with
  | none => s
  | some a =>
    let s := s.startCmd cx a
    let idle := (s.reqsOf cx q num).isEmpty && a.parked.isEmpty && s.genEnded cx a && !s.mustWait cx a.cmd
    if !idle then s.pump cx q num
    else
      let s := if !a.cmd.kind.loads then s else if a.fail.isSome then s.failFill cx q num else s.pump cx q num
      match s.findActive cx q num with
      | none => s
      | some b => if b.cmd.kind.loads && !b.filled then s else s.finish cx b.cmd b.report

end Sys2Proof.Machine
end

