-- ==== Sys2Proof/Machine/Tree.lean ====
section
/-!
DEFINITION. The tree engine of a die (R158, R237 to R243, R353 to R367): the cached nodes, the units of its
commands in ticket order, and the results in the arena's header. A unit works on lines that stand in the
cache: a line that it misses is asked for, and the unit is tried again.
-/

namespace Sys2Proof.Machine

open Sys2Proof

/-! ### Nodes and lines (R354, R366) -/

/-- The flags E, T and X, and the parent word of a root. -/
def nodeE : Byte := 1
def nodeT : Byte := 2
def nodeX : Byte := 4
def noParent : Word32 := 0xFFFFFFFF

/-- Why a unit is not performed (R359): its translation has to wait, or what it wrote is not yet
acknowledged; a translation fails; a line at an address must be read first; or the command stops with a
status, a sub-status, k and a leaf. The first two give the state that the translation reached. -/
inductive TStop where
  | held (t : State)
  | miss (t : State) (va : Word) (sub : Nat) (write : Bool)
  | need (va : Word)
  | stop (status sub k leaf : Nat)

/-- What a unit works on: the package, its arena, the sub-status bits set so far, and the lines that the
cache has given up since the unit first met them. -/
structure TSt where
  s    : State
  a    : Arena
  bits : Byte
  kept : List Stage := []

abbrev TRes (α : Type) := Except TStop α

/-- What a unit that is not performed leaves of its translations. -/
def State.after (s : State) : TStop → State
  | .held t => s.heard t
  | .miss t _ _ _ => s.heard t
  | _ => s

/-- The place of an address of an arena, and the size code of its page. The engine has no path to host memory
(R36): an address there stops the command with the header's status (DESIGN CHOICE, log 137). -/
def treePlace (s : State) (a : Arena) (va : Word) (w : Bool) : TRes ((Nat × BitVec 2) × State) :=
  match s.translate a.core a.part a.pasid va (!w) w with
  | (.held, t) => .error (.held t)
  | (.fault c, t) => .error (.miss t va c w)
  | (.hit p, t) => match t.placeOf p va with
    | (true, _) => .error (.stop 9 4 0 0)
    | (false, q) => .ok ((q, p.size), t)

/-- The parts of n bytes from an address on, line by line. -/
def lineCuts : Nat → Word → Nat → List (Word × Nat)
  | 0, _, _ => []
  | fuel + 1, va, n =>
    if n = 0 then []
    else
      let k := Nat.min n (128 - va.toNat % 128)
      (va, k) :: lineCuts fuel (va + BitVec.ofNat 64 k) (n - k)

/-- A request of a die's tree engine to a line, after what it has still to do there. -/
def State.treeReq (s : State) (die cx : Nat) (a : Arena) (op : ReqOp) (va : Word) (phys : Nat) (z : BitVec 2) : State :=
  let mine := s.reqs.filter fun r => r.agent = .tree die && r.served.isNone && r.phys / 128 = phys / 128
  s.addReq { newReq s cx op va false phys (mine.map Req.id) z with agent := .tree die, pasid := a.pasid }

/-- Bytes at an address of an arena sent to memory, line by line. -/
def treeSend (die : Nat) (a : Arena) (va : Word) (bs : List Byte) : List (Word × Nat) → State → TRes State
  | [], s => .ok s
  | (v, n) :: rest, s => do
    let ((p, z), s) ← treePlace s a v true
    let part := (bs.drop (v - va).toNat).take n
    treeSend die a va bs rest (s.treeReq die noCx a (.treeWr a.phys (((List.range n).map (p % 128 + ·)).zip part)) v
      (alignDown p 128) z)

/-- Pieces of bytes sent to offsets from an address. -/
def treeWrite (die : Nat) (a : Arena) (va : Word) : List (Nat × List Byte) → State → TRes State
  | [], s => .ok s
  | (o, bs) :: rest, s => do
    let v := va + BitVec.ofNat 64 o
    let s ← treeSend die a v bs (lineCuts bs.length v bs.length) s
    treeWrite die a va rest s

/-- Whether the engine has sent something for an arena that is not acknowledged. -/
def State.treeBusy (s : State) (die phys : Nat) : Bool :=
  s.reqs.any fun r => r.agent = .tree die && (match r.op with
    | .treeWr k _ => k = phys
    | _ => false)

def Arena.nodeVa (a : Arena) (n : Nat) : Word := a.base + BitVec.ofNat 64 (32 * n)

/-- The nodes that a die's cache holds or awaits; it has room for 524,288 in lines of four (R366). -/
def State.nodesHeld (s : State) (die : Nat) : Nat :=
  (s.die die).arenas.foldl (fun n a => n + a.nodes.length) 0 + 4 * (s.reqs.filter fun r => r.agent = .tree die && (match r.op with
    | .treeLine .. => true
    | _ => false)).length

/-- A node line that a unit misses is asked for, once, when the cache has room. -/
def State.treeFill (s : State) (die : Nat) (a : Arena) (va : Word) : TRes State :=
  let op := ReqOp.treeLine a.phys ((va - a.base).toNat / 128)
  if 524288 < s.nodesHeld die + 4 || s.reqs.any (fun r => r.agent = .tree die && r.op = op) then .ok s
  else do
    let ((p, z), t) ← treePlace s a va false
    .ok (t.treeReq die noCx a op va (alignDown p 128) z)

/-- A line that the cache gave up. -/
def TSt.keptLine (t : TSt) (line : Nat) : Option Stage := t.kept.find? fun e => e.line = line

/-- A node, in the cache or in a line kept for the unit (R366). -/
def TSt.node (t : TSt) (n : Nat) : TRes Node :=
  match smGet none t.a.nodes n with
  | some x => .ok x
  | none => match t.keptLine (n / 4) with
    | some e => .ok (nodeOf ((e.bytes.drop (32 * (n % 4))).take 32))
    | none => .error (.need (t.a.nodeVa n))

/-- A node changed in the cache: its line is dirty. -/
def TSt.put (t : TSt) (n : Nat) (x : Node) : TSt :=
  let a := if t.a.cached (n / 4) then t.a else ((t.keptLine (n / 4)).map fun e => t.a.fill (n / 4) e.bytes).getD t.a
  { t with a := { a with nodes := smPut none a.nodes n (some x)
                         dirty := if a.dirty.contains (n / 4) then a.dirty else insBy id (n / 4) a.dirty } }

def TSt.bit (t : TSt) (b : Byte) : TSt := { t with bits := t.bits ||| b }

/-- An index out of range (Table 8.10). -/
def badIndex : TStop := .stop 9 5 0 0

/-! ### Selection (R355, R356) -/

/-- An exact value to f32. -/
def cvt32 (n e : Int) : Word32 := (exactToF32 n e).1

/-- The order of scores: a NaN counts as minus infinity, and the zeros are equal. -/
def scoreKey (w : Word32) : Int :=
  let m : Int := (w.toNat % 2 ^ 31 : Nat)
  if 0x7F800000 < m then -0x7F800000 else if w.msb then -m else m

def isNan32 (w : Word32) : Bool := decide (0x7F800000 < w.toNat % 2 ^ 31)

/-- The score of a child under a node with square root sq (R355). -/
def scoreOf (a : Arena) (sq : Word32) (c : Node) : Word32 :=
  let nc := c.n.toNat + c.vl.toNat
  let q := if nc = 0 then a.first
    else
      let x := cvt32 c.w.toInt (-30)
      let y := (fmul32 .rne a.vloss (cvt32 c.vl.toNat 0)).1
      (fdiv32 .rne (fsub32 .rne x y).1 (cvt32 nc 0)).1
  let u := (fmul32 .rne a.cpuct (cvt32 c.p.toNat (-16))).1
  let u := (fmul32 .rne u sq).1
  (fadd32 .rne q (fdiv32 .rne u (cvt32 (1 + nc) 0)).1).1

/-- The scores of the children from an index on. -/
def scoresFrom (sq : Word32) : Nat → Nat → TSt → TRes (List Word32)
  | 0, _, _ => .ok []
  | k + 1, c, t => do
    let x ← t.node c
    let ws ← scoresFrom sq k (c + 1) t
    .ok (scoreOf t.a sq x :: ws)

/-- The slot of the greatest score, the lowest among equals. -/
def bestSlot (ws : List Word32) : Nat :=
  ((List.range ws.length).foldl (fun (b : Nat) i =>
    if scoreKey (ws.getD b 0) < scoreKey (ws.getD i 0) then i else b) 0)

/-- The child chosen at a node, and whether every score was NaN. -/
def selectChild (x : Node) (t : TSt) : TRes (Nat × Bool) :=
  if t.a.bump < x.first.toNat + x.count.toNat then .error badIndex
  else do
    let sq := (fsqrt32 .rne (cvt32 (x.n.toNat + x.vl.toNat) 0)).1
    let ws ← scoresFrom sq x.count.toNat x.first.toNat t
    .ok (x.first.toNat + bestSlot ws, ws.all isNan32)

/-! ### Descents (R239) -/

/-- A leaf record (Table 8.8). -/
def leafRecord (n depth fl j : Nat) (path : List (BitVec 16)) : List Byte :=
  leBytes 4 n ++ leBytes 2 (Nat.min depth 65535) ++ leBytes 2 fl ++ leBytes 2 j ++ leBytes 2 0 ++
    (List.range 26).flatMap fun i => leBytes 2 (path.getD i 0).toNat

/-- A descent from a node on, with at most `fuel` nodes before the walk is out of range (R354). -/
def descend (j : Nat) : Nat → Nat → Nat → Nat → List (BitVec 16) → TSt → TRes (List Byte × TSt)
  | 0, _, _, _, _, _ => .error badIndex
  | fuel + 1, n, depth, fl, path, t => do
    let x ← t.node n
    let t := if x.vl = 0xFFFF then t.bit 8 else t
    let x := if x.vl = 0xFFFF then x else { x with vl := x.vl + 1 }
    let t := t.put n x
    if x.count = 0 then
      let (fl, t) :=
        if x.flags &&& nodeT ≠ 0 then (fl ||| 1, t)
        else if x.flags &&& nodeX ≠ 0 then (fl ||| 4, t)
        else (fl ||| 2, t.put n { x with flags := x.flags ||| nodeX })
      .ok (leafRecord n depth (if 26 < depth then fl ||| 8 else fl) j path, t)
    else
      let (c, nan) ← selectChild x t
      let t := if nan then t.bit 4 else t
      let y ← t.node c
      descend j fuel c (depth + 1) (if nan then fl ||| 16 else fl)
        (if depth < 26 then path ++ [y.action] else path) t

/-! ### Allocation and expansion (R240, R364) -/

/-- The first run of k nodes or more, and the runs without it. -/
def takeRun (k : Nat) : List (Nat × Nat) → Option (Nat × List (Nat × Nat))
  | [] => none
  | (f, n) :: rs =>
    if k ≤ n then some (f, if n = k then rs else (f + k, n - k) :: rs)
    else (takeRun k rs).map fun r => (r.1, (f, n) :: r.2)

/-- A run of k nodes: from the free runs, then from bump. -/
def Arena.alloc (a : Arena) (k : Nat) : Option (Nat × Arena) :=
  match takeRun k a.runs with
  | some (f, rs) => some (f, { a with runs := rs, rdirty := true })
  | none => if a.bump + k ≤ a.capacity then some (a.bump, { a with bump := a.bump + k }) else none

/-- The lines of a run of nodes must stand in the cache, new nodes among them: a unit meets every node line
it writes (R359, R366). -/
def TSt.meet (t : TSt) : List Nat → TRes Unit
  | [] => .ok ()
  | n :: ns => do
    let _ ← t.node n
    t.meet ns

/-- One expansion record: leaf, flags, and the prior and action of each child. -/
def expandEntry (leaf fl : Nat) (es : List (Nat × Nat)) (t : TSt) : TRes TSt :=
  if t.a.bump ≤ leaf then .error badIndex
  else do
    let x ← t.node leaf
    let term := fl = 1
    if x.flags &&& nodeE ≠ 0 then .error (.stop 9 7 0 0)
    else if 2 ≤ fl ∨ term ≠ (es = []) then .error (.stop 9 6 0 0)
    else if term then .ok (t.put leaf { x with flags := (x.flags ||| nodeT ||| nodeE) &&& ~~~nodeX })
    else match t.a.alloc es.length with
      | none => .error (.stop 7 0 es.length leaf)
      | some (f, a) => do
        let t := { t with a := a }
        t.meet ((List.range es.length).map (f + ·))
        let t := ((List.range es.length).zip es).foldl (fun (t : TSt) q =>
          t.put (f + q.1) { gen := a.gen, p := BitVec.ofNat 16 q.2.1, action := BitVec.ofNat 16 q.2.2,
                            parent := BitVec.ofNat 32 leaf }) t
        let x ← t.node leaf
        .ok (t.put leaf { x with first := BitVec.ofNat 32 f, count := BitVec.ofNat 16 es.length
                                 flags := (x.flags ||| nodeE) &&& ~~~nodeX })

/-! ### Backups (R241, R357) -/

/-- A backup's walk from a node to the root, with at most `fuel` nodes (R354). -/
def backWalk (v : Int) (release : Bool) : Nat → Nat → Int → TSt → TRes TSt
  | 0, _, _, _ => .error badIndex
  | fuel + 1, n, sgn, t => do
    let x ← t.node n
    let full := x.n = 0xFFFFFFFF
    let t := if !release && full then t.bit 32 else t
    let x := if release || full then x else { x with n := x.n + 1, w := x.w + BitVec.ofInt 64 (sgn * v) }
    let t := if x.vl = 0 then t.bit 1 else t
    let x := if x.vl = 0 then x else { x with vl := x.vl - 1 }
    let t := t.put n x
    if n = t.a.root then .ok t
    else if x.parent = noParent then .ok (t.bit 2)
    else if t.a.bump ≤ x.parent.toNat then .error badIndex
    else backWalk v release fuel x.parent.toNat (if t.a.alt then -sgn else sgn) t

/-- One backup record. -/
def backRecord (leaf fl : Nat) (v : Int) (zeros : Bool) (t : TSt) : TRes TSt :=
  if t.a.bump ≤ leaf then .error badIndex
  else if 4 ≤ fl || !zeros then .error (.stop 9 6 0 0)
  else do
    let t ← backWalk v (fl % 2 = 1) (t.a.bump + 1) leaf 1 t
    if fl / 2 = 1 then do
      let x ← t.node leaf
      .ok (t.put leaf { x with flags := x.flags &&& ~~~nodeX })
    else .ok t

/-! ### REROOT, PATH, SWEEP (R242, R365) -/

/-- The actions from the root's child down to a node; sub-status 8 where the walk does not meet the
root. -/
def pathUp : Nat → Nat → List (BitVec 16) → TSt → TRes (List (BitVec 16))
  | 0, _, _, _ => .error badIndex
  | fuel + 1, n, acc, t =>
    if n = t.a.root then .ok acc
    else do
      let x ← t.node n
      if x.parent = noParent then .error (.stop 9 8 0 0)
      else if t.a.bump ≤ x.parent.toNat then .error badIndex
      else pathUp fuel x.parent.toNat (x.action :: acc) t

def rerootAt (n : Nat) (t : TSt) : TRes TSt :=
  if t.a.bump ≤ n then .error badIndex
  else do
    let _ ← pathUp (t.a.bump + 1) n [] t
    let x ← t.node n
    let t := t.put n { x with parent := noParent }
    .ok { t with a := { t.a with root := n, gen := t.a.gen + 1 } }

/-- The children of a list of nodes. -/
def childrenOf : List Nat → TSt → TRes (List Nat)
  | [], _ => .ok []
  | n :: ns, t => do
    let x ← t.node n
    if t.a.bump < x.first.toNat + x.count.toNat then .error badIndex
    else do
      let cs ← childrenOf ns t
      .ok ((List.range x.count.toNat).map (· + x.first.toNat) ++ cs)

/-- The nodes reachable from a frontier, level by level, each marked once. -/
def markLevels : Nat → List Nat → List Nat → TSt → TRes (List Nat)
  | 0, _, seen, _ => .ok seen
  | fuel + 1, front, seen, t =>
    if front = [] then .ok seen
    else do
      let cs ← childrenOf front t
      let new := (cs.filter fun c => !seen.contains c).eraseDups
      markLevels fuel new (seen ++ new) t

/-- bump lowered over free nodes at its end. -/
def lowerBump (free : List Nat) : Nat → Nat
  | 0 => 0
  | n + 1 => if free.contains n then lowerBump free n else n + 1

/-- The maximal runs of a rising list. -/
def runsOf : List Nat → List (Nat × Nat)
  | [] => []
  | n :: ns => match runsOf ns with
    | (f, k) :: rs => if f = n + 1 then (n, k + 1) :: rs else (n, 1) :: (f, k) :: rs
    | [] => [(n, 1)]

/-- A sweep: the number of nodes freed, and the list rebuilt. -/
def sweepArena (t : TSt) : TRes (Nat × TSt) :=
  if t.a.listVa = 0 then .error (.stop 9 4 0 0)
  else do
    let seen ← markLevels (t.a.bump + 1) [t.a.root] [t.a.root] t
    let a := t.a
    let inRun := fun n => a.runs.any fun r => decide (r.1 ≤ n) && decide (n < r.1 + r.2)
    let freed := (List.range a.bump).filter fun n => !seen.contains n && !inRun n
    let free := (List.range a.bump).filter fun n => freed.contains n || inRun n
    let bump := lowerBump free a.bump
    let rs := runsOf (free.filter (· < bump))
    let t := if a.maxRuns < rs.length then t.bit 16 else t
    .ok (freed.length, { t with a := { t.a with bump := bump, runs := rs.take a.maxRuns, rdirty := true } })

/-! ### Arenas of a die -/

def Ctx.arena (c : Ctx) (slot : Nat) : Option (Bool × Nat) := smGet none c.arenas slot

/-- Whether a slot of the die other than one binds an arena. -/
def State.boundElse (s : State) (die : Nat) (k : Bool × Nat) (cx slot : Nat) : Bool :=
  s.ctxs.any fun p => dieOf (s.home p.1) = die && p.2.arenas.any fun b =>
    b.2 = some k && (p.1 ≠ cx || b.1 ≠ slot)

/-- The parts of a free-run list as it is written. -/
def Arena.runPieces (a : Arena) : List (Nat × List Byte) :=
  [(0, leBytes 4 a.runs.length), (16, a.runs.flatMap fun r => leBytes 4 r.1 ++ leBytes 4 r.2)]

/-- The changed free-run list is sent to memory (R363). -/
def writeRuns (s : State) (die : Nat) (a : Arena) : TRes (State × Arena) :=
  if a.rdirty then do
    let s ← treeWrite die a a.listVa a.runPieces s
    .ok (s, { a with rdirty := false })
  else .ok (s, a)

/-- The fields of the header that the engine keeps (R237). -/
def Arena.headPieces (a : Arena) : List (Nat × List Byte) :=
  [(12, leBytes 4 a.bump), (24, leBytes 4 a.root), (28, [a.gen]), (44, leBytes 4 a.next.toNat)]

/-- The bytes of a cached line. -/
def Arena.lineBytes (a : Arena) (line : Nat) : List Byte :=
  (List.range 4).flatMap fun i => ((smGet none a.nodes (4 * line + i)).getD {}).bytes

/-- Dirty lines written back whole, one by one; the state when one cannot be written, and why. -/
def writeLines (die : Nat) (s : State) (a : Arena) : List Nat → State × Arena × Option TStop
  | [] => (s, a, none)
  | l :: ls =>
    match treeWrite die a (a.nodeVa (4 * l)) [(0, a.lineBytes l)] s with
    | .error e => (s, a, some e)
    | .ok s => writeLines die s { a with dirty := a.dirty.filter (· ≠ l) } ls

/-- An arena has been released: a BIND that is still reading its header and list reads them afresh (R353). -/
def State.readAfresh (s : State) : State :=
  { s with
    reqs := s.reqs.filter fun r => match r.op with
      | .treeStage _ => false
      | _ => true
    ctxs := s.ctxs.map fun p => (p.1, { p.2 with active := p.2.active.map fun a =>
      if a.cmd.queue = .tre && a.phase = 0 && (match a.cmd.kind with
        | .tree 0 _ _ _ _ => true
        | _ => false) then { a with stage := [] } else a }) }

/-- An arena bound by no slot: its nodes, its list and its header are written, with flag [7] clear; once all
is acknowledged it is dropped (R238, R353). -/
def State.dropArena (s : State) (die : Nat) (a : Arena) : State × Option TStop :=
  if a.closing then if s.treeBusy die a.phys then (s, some (.held s)) else ((s.removeArena die a).readAfresh, none)
  else match writeLines die s a a.dirty with
    | (s, a, some e) => ((s.after e).putArena die a, some e)
    | (s, a, none) => match writeRuns s die a with
      | .error e => ((s.after e).putArena die a, some e)
      | .ok (s, a) => match treeWrite die a a.va ((29, [if a.alt then 1 else 0]) :: a.headPieces) s with
        | .error e => ((s.after e).putArena die a, some e)
        | .ok s => (s.putArena die { a with closing := true }, some (.held s))

/-- A line whose write-back at the release was refused is lost with its arena; without its header, the
arena is gone and flag [7] stays (R367). -/
def State.loseLine (s : State) (die : Nat) (a : Arena) (va : Word) : State :=
  let l := (va - a.base).toNat / 128
  if a.dirty.contains l then s.putArena die { a with dirty := a.dirty.filter (· ≠ l) }
  else if a.rdirty then s.putArena die { a with rdirty := false }
  else (s.removeArena die a).readAfresh

/-! ### Commands in their turn (R158, R360) -/

/-- The slot and the function of a tree command, its ticket and its operands. -/
def CmdKind.treeSlot : CmdKind → Option (Nat × Nat)
  | .tree fn slot _ _ _ => some (fn, slot)
  | _ => none
def CmdKind.ticket : CmdKind → Word32
  | .tree _ _ _ xb _ => xb.setWidth 32
  | _ => 0
def CmdKind.xa : CmdKind → Nat
  | .tree _ _ xa _ _ => xa.toNat
  | _ => 0
def CmdKind.xc : CmdKind → Nat
  | .tree _ _ _ _ xc => xc.toNat
  | _ => 0
def CmdKind.isBind (k : CmdKind) : Bool := k.treeSlot.any fun x => x.1 = 0
def CmdKind.slot (k : CmdKind) : Nat := (k.treeSlot.map Prod.snd).getD 0

/-- The accepted tree commands of a die that have not ended, with the key of their context. -/
def State.treeCmds (s : State) (die : Nat) : List (Nat × Active) :=
  (s.dieActive die).filter fun p => p.2.cmd.queue = .tre

/-- The accepted command of an order number. -/
def State.treeCmd (s : State) (die ord : Nat) : Option (Nat × Active) :=
  (s.treeCmds die).find? fun p => p.2.ord = ord

/-- Whether an earlier command of the context on the same slot has not completed; of BINDs alone, or of
any. -/
def State.slotBusy (s : State) (cx : Nat) (a : Active) (binds : Bool) : Bool :=
  (s.ctx cx).active.any fun b => b.cmd.queue = .tre && decide (b.ord < a.ord) && b.cmd.kind.slot = a.cmd.kind.slot &&
    (!binds || b.cmd.kind.isBind)

/-- An arena as a context's commands on a slot act on it: with the address by which the slot was bound, and the
translations of the context and its core (R313). -/
def State.armed (s : State) (cx slot : Nat) (r : Arena) : Arena :=
  let c := s.ctx cx
  { r with va := smGet 0 c.arenaVa slot, pasid := c.pasid, part := c.part, core := s.home cx }

/-- The arena that a command acts on, once the BINDs before it have executed. -/
def State.treeArena (s : State) (die cx : Nat) (a : Active) : Option Arena :=
  if s.slotBusy cx a true then none
  else (((s.ctx cx).arena a.cmd.kind.slot).bind (s.die die).arena).map (s.armed cx a.cmd.kind.slot)

/-- d, the distance of a ticket from next. -/
def Arena.dist (r : Arena) (k : CmdKind) : Nat := (k.ticket - r.next).toNat

/-- The commands that stand in the engine for an arena, those among them that have ended and not completed
(R361). -/
def State.arenaCmds (s : State) (die : Nat) (r : Arena) : List (Nat × Active) :=
  (s.treeCmds die).filter fun p => !p.2.cmd.kind.isBind &&
    ((s.treeArena die p.1 p.2).map fun b => b.host = r.host && b.phys = r.phys).getD false

/-- Whether a command is at its turn: it bears the ticket next, and no command accepted before it does
(R360, R362). -/
def State.inTurn (s : State) (die : Nat) (r : Arena) (a : Active) : Bool :=
  r.dist a.cmd.kind = 0 && (s.arenaCmds die r).all fun p => r.dist p.2.cmd.kind ≠ 0 || decide (a.ord ≤ p.2.ord)

/-- The fault entry that a command of a context waits on. -/
def State.treeFault (s : State) (cx num : Nat) : Option FaultEntry :=
  s.faults.find? fun e => match e.who with
    | .engine c .tre n _ _ => c = cx ∧ n = num
    | _ => false

/-- Whether a context's TRE queue is parked: an entry of it waits for its answer (R314). -/
def State.treeParked (s : State) (cx : Nat) : Bool :=
  s.faults.any fun e => e.answer.isNone && (match e.who with
    | .engine c .tre _ _ _ => c = cx
    | _ => false)

/-- A failed translation of a tree command writes its entry (R314). -/
def State.treeMiss (s : State) (cx num : Nat) (e : TStop) : State :=
  let s := s.after e
  match e with
  | .miss _ va sub w =>
    let die := dieOf (s.home cx)
    if s.faultRoom die then
      s.addFault (some cx) { faultBase die va 5 sub 5 0 (.engine cx .tre num 0 0) with read := !w, write := w }
    else s
  | _ => s

/-- A failed translation of a write-back of an arena, at an eviction or at the arena's release, writes its
entry (R367). -/
def State.arenaMiss (s : State) (die : Nat) (r : Arena) (release : Bool) (e : TStop) : State :=
  let s := s.after e
  match e with
  | .miss _ va sub w =>
    if s.faultRoom die then
      s.addFault none { faultBase die va 5 sub 5 0 (.arena die r.phys release) with
        write := w, read := !w, pasid := r.pasid, part := r.part }
    else s
  | _ => s

/-- Whether the arena's commands are held: a write-back of it waits for its answer (R367). -/
def State.arenaHeld (s : State) (die : Nat) (r : Arena) : Bool :=
  s.faults.any fun e => e.answer.isNone && (match e.who with
    | .arena d p _ => d = die && p = r.phys
    | _ => false)

/-- A command ends with a status (R243). -/
def Active.treeStop (a : Active) (status sub k leaf : Nat) : Active :=
  { a with ended := true, stage := [], fail := some (status, sub, 0), aux := k, run := leaf }

/-- A unit of a command that is not performed: the command stops, or its failed translation is reported. -/
def State.treeErr (s : State) (cx num : Nat) (e : TStop) : State :=
  match e with
  | .stop st sub k leaf => s.modActive cx .tre num fun b => b.treeStop st sub k leaf
  | e => s.treeMiss cx num e

/-- The lines that a performed unit has put back into a cache that had given them up leave it again, written back, where
it has no room for them (R366). -/
def TSt.trim (die : Nat) (r : Arena) (t : TSt) : TRes TSt :=
  if t.s.nodesHeld die + t.a.nodes.length ≤ 524288 + r.nodes.length then .ok t
  else
    let back := fun l => t.a.cached l && !r.cached l
    match writeLines die t.s t.a (t.a.dirty.filter back) with
    | (_, _, some e) => .error e
    | (u, a, none) => .ok { t with s := u, a := { a with nodes := a.nodes.filter fun x => !back (x.1 / 4) } }

/-- A unit of a command at its turn: it is performed whole, or the command stops, or a line that it misses is
asked for, or its failed translation is reported (R359, R360). `f` gives the unit's effect on arena and window, and whether the
command has ended. -/
def State.treeUnit (s : State) (die ord fn : Nat)
    (f : Nat → Active → TSt → TRes (TSt × Active)) : State :=
  match s.treeCmd die ord with
  | none => s
  | some (cx, a) =>
    if a.cmd.kind.treeSlot.map Prod.fst ≠ some fn || a.ended then s
    else match s.treeArena die cx a with
      | none => s
      | some r =>
        if !s.inTurn die r a || s.mustWait cx a.cmd || s.arenaHeld die r || s.treeParked cx then s
        else match s.treeFault cx a.cmd.num with
          | some e =>
            let t := { s with faults := s.faults.filter fun x => x.id ≠ e.id }
            (match e.answer with
             | none => s
             | some true => t
             | some false => t.modActive cx .tre a.cmd.num fun b => b.treeStop 2 (if e.write then 1 else 0) 0 0)
          | none =>
            let unit : TRes (TSt × Active) := do
              let (t, b) ← f cx a ⟨s, r, 0, a.stage⟩
              .ok (← t.trim die r, b)
            match unit with
            | .error (.need va) => (match s.treeFill die r va with
              | .ok t => t
              | .error e => s.treeErr cx a.cmd.num e)
            | .error e => s.treeErr cx a.cmd.num e
            | .ok (t, b) => (t.s.putArena die t.a).modActive cx .tre a.cmd.num fun _ =>
                { b with started := true, stage := [], flags := b.flags ||| t.bits.zeroExtend 16 }

/-! ### Window records -/

/-- Bytes of the window of a context. -/
def State.rdWin (s : State) (cx off n : Nat) : List Byte := (s.core (s.home cx)).srfBytes ((s.ctx cx).winBase + off) n

/-- Bytes written to the window by an engine; the lines that it has now written whole from `base` on are
FULL (R250). -/
def State.wrWin (s : State) (cx base off : Nat) (bs : List Byte) : State :=
  let stop := off + bs.length
  s.modCore (s.home cx) fun c =>
    let p := (s.ctx cx).winBase + off
    let c := (c.putSrf p bs).markSrf p bs.length false
    ((linesOf 0 off bs.length).filter fun l => decide (base ≤ 128 * l) && decide (128 * l + 128 ≤ stop)).foldl
      (fun c l => c.fillLine (s.winLine cx l)) c

/-- The count and the offset of a command within their limits (R158). -/
def countAndOffset (n hi off : Nat) : TRes Unit :=
  if n = 0 || decide (hi < n) then .error (.stop 9 1 0 0)
  else if off % 64 ≠ 0 then .error (.stop 9 2 0 0) else .ok ()

/-- One more unit done, of n. -/
def Active.unitDone (a : Active) (n : Nat) : Active := { a with units := a.units + 1, ended := decide (n ≤ a.units + 1) }

/-- DESCENT (R239): the next descent of a TREE.DESC. -/
def execDescent (die cmd : Nat) (s : State) : Res :=
  .next (s.treeUnit die cmd 1 fun cx a t => do
    let off := a.cmd.kind.xa
    let n := a.cmd.kind.xc
    countAndOffset n 256 off
    let (bs, t) ← descend a.units (t.a.bump + 1) t.a.root 0 0 [] t
    .ok ({ t with s := t.s.wrWin cx off (off + 64 * a.units) bs }, a.unitDone n))

/-- The offsets of n expansion records within their bytes; none where the bytes do not fit them. -/
def expOffsets (bs : List Byte) : Nat → Nat → Option (List Nat)
  | 0, o => if o = bs.length then some [] else none
  | n + 1, o =>
    if bs.length < o + 8 then none
    else (expOffsets bs n (o + alignUp (8 + 4 * field bs (o + 4) 2) 8)).map fun l => o :: l

/-- EXPANSION_ENTRY (R240): the next entry of a TREE.EXP. -/
def execExpansionEntry (die cmd : Nat) (s : State) : Res :=
  .next (s.treeUnit die cmd 2 fun cx a t => do
    let off := a.cmd.kind.xa
    let n := a.cmd.kind.xc % 2 ^ 16
    countAndOffset n 256 off
    let bs := t.s.rdWin cx off (a.cmd.kind.xc / 2 ^ 16 % 2 ^ 32)
    match expOffsets bs n 0 with
    | none => .error (.stop 9 1 0 0)
    | some os => do
      let o := os.getD a.units 0
      let k := field bs (o + 4) 2
      let t ← expandEntry (field bs o 4) (field bs (o + 6) 2) ((List.range k).map fun q =>
        (field bs (o + 8 + 4 * q) 2, field bs (o + 10 + 4 * q) 2)) t
      .ok (t, a.unitDone n))

/-- BACKUP_RECORD (R241): the next record of a TREE.BACK. -/
def execBackupRecord (die cmd : Nat) (s : State) : Res :=
  .next (s.treeUnit die cmd 3 fun cx a t => do
    let off := a.cmd.kind.xa
    let n := a.cmd.kind.xc % 2 ^ 16
    countAndOffset n 256 off
    if a.cmd.kind.xc / 2 ^ 16 % 2 ^ 32 ≠ 16 * n then .error (.stop 9 1 0 0)
    else do
      let bs := t.s.rdWin cx (off + 16 * a.units) 16
      let t ← backRecord (field bs 0 4) (field bs 8 2) (sxt 32 (field bs 4 4)) (field bs 10 6 = 0) t
      .ok (t, a.unitDone n))

/-- TREE_REROOT_EXECUTE (R242): the arena's root is changed and the generation advanced. -/
def execTreeRerootExecute (die cmd : Nat) (s : State) : Res :=
  .next (s.treeUnit die cmd 4 fun _ a t => do
    let t ← rerootAt (a.cmd.kind.xa % 2 ^ 32) t
    .ok (t, a.unitDone 1))

/-- TREE_SWEEP_EXECUTE (R365): unreachable nodes are freed and the free-run list rebuilt. -/
def execTreeSweepExecute (die cmd : Nat) (s : State) : Res :=
  .next (s.treeUnit die cmd 5 fun _ a t => do
    let (n, t) ← sweepArena t
    .ok (t, { a with units := n, ended := true }))

/-- TREE_PATH_EXECUTE (R242): a leaf's action path is written into the SRF. -/
def execTreePathExecute (die cmd : Nat) (s : State) : Res :=
  .next (s.treeUnit die cmd 6 fun cx a t => do
    let off := a.cmd.kind.xa % 2 ^ 32
    let n := a.cmd.kind.xa / 2 ^ 32 % 2 ^ 16
    let leaf := a.cmd.kind.xc % 2 ^ 32
    countAndOffset n 65535 off
    if t.a.bump ≤ leaf then .error badIndex
    else if leaf = t.a.root then .error (.stop 9 8 0 0)
    else do
      let acts ← pathUp (t.a.bump + 1) leaf [] t
      let bs := (acts.take n).flatMap fun x => leBytes 2 x.toNat
      .ok ({ t with s := t.s.wrWin cx off off (bs ++ List.replicate (alignUp (2 * n) 128 - bs.length) 0) },
           { a with units := acts.length, ended := true }))

/-- TREE_READ_EXECUTE (R242): the next node of a TREE.READ is copied into the SRF as it stands. -/
def execTreeReadExecute (die cmd : Nat) (s : State) : Res :=
  .next (s.treeUnit die cmd 7 fun cx a t => do
    let off := a.cmd.kind.xa
    let first := a.cmd.kind.xc % 2 ^ 32
    let n := a.cmd.kind.xc / 2 ^ 32 % 2 ^ 16
    countAndOffset n 65535 off
    if t.a.capacity < first + n then .error badIndex
    else do
      let x ← t.node (first + a.units)
      .ok ({ t with s := t.s.wrWin cx off (off + 32 * a.units) x.bytes }, a.unitDone n))

/-- TREE_FLUSH_EXECUTE (R242): every changed line of the arena is sent to memory; the command completes once
all is acknowledged. -/
def execTreeFlushExecute (die cmd : Nat) (s : State) : Res :=
  .next (s.treeUnit die cmd 8 fun _ a t =>
    match writeLines die t.s t.a t.a.dirty with
    | (_, _, some e) => .error e
    | (u, r, none) => .ok ({ t with s := u, a := r }, a.unitDone 1))

/-! ### BIND (R238, R353) -/

/-- The runs in the bytes of a free-run list. -/
def runsIn (bs : List Byte) : Nat → Nat → List (Nat × Nat)
  | 0, _ => []
  | n + 1, o => (field bs o 4, field bs (o + 4) 4) :: runsIn bs n (o + 8)

/-- Runs of at least one node, rising, below bump, not overlapping or abutting (R363). -/
def runsOk (bump : Nat) : Nat → List (Nat × Nat) → Bool
  | _, [] => true
  | lo, (f, k) :: rs => decide (lo ≤ f) && decide (1 ≤ k) && decide (f + k ≤ bump) && runsOk bump (f + k + 1) rs

/-- Bytes of memory as a BIND has read them, line by line. -/
def bindRead (b : Active) (a : Arena) : List (Word × Nat) → State → TRes (List Byte × State)
  | [], s => .ok ([], s)
  | (va, n) :: rest, s => do
    let ((p, _), s) ← treePlace s a va false
    match b.stage.find? fun e => e.run = 0 && e.line = p / 128 with
    | none => .error (.need va)
    | some e => do
      let (bs, s) ← bindRead b a rest s
      .ok ((e.bytes.drop (p % 128)).take n ++ bs, s)

def bindBytes (b : Active) (a : Arena) (va : Word) (n : Nat) (s : State) : TRes (List Byte × State) :=
  bindRead b a (lineCuts n va n) s

/-- The free-run list of an arena read and checked. -/
def readRuns (b : Active) (s : State) (a : Arena) : TRes (State × Arena) :=
  if a.listVa = 0 then .ok (s, a)
  else do
    let (_, s) ← treePlace s a a.listVa true
    let (bs, s) ← bindBytes b a a.listVa 16 s
    let n := field bs 0 4
    let m := field bs 4 4
    if m < n || field bs 8 8 ≠ 0 || decide (a.bump < n) then .error (.stop 9 4 0 0)
    else do
      let (rs, s) ← bindBytes b a (a.listVa + 16) (8 * n) s
      let runs := runsIn rs n 0
      if runsOk a.bump 0 runs then .ok (s, { a with runs := runs, maxRuns := m }) else .error (.stop 9 4 0 0)

/-- The root of an empty arena, in the line that the BIND has read (R238). -/
def rootMade (b : Active) (s : State) (a : Arena) : TRes (State × Arena) :=
  if a.bump ≠ 0 then .ok (s, a)
  else do
    let (bs, s) ← bindBytes b a a.base 128 s
    let t : TSt := ⟨s, { a.fill 0 bs with bump := 1, root := 0 }, 0, []⟩
    .ok (s, (t.put 0 { gen := a.gen, parent := noParent }).a)

/-- An arena of which the header's address and place are known. -/
def State.bindArena (s : State) (cx : Nat) (va : Word) (k : Bool × Nat) : Arena :=
  { va := va, host := k.1, phys := k.2, pasid := (s.ctx cx).pasid, part := (s.ctx cx).part, core := s.home cx, base := 0,
    capacity := 0, bump := 0, listVa := 0, maxRuns := 0, runs := [], rdirty := false, root := 0, gen := 0, alt := false,
    cpuct := 0, vloss := 0, first := 0, next := 0, moved := s.now, noGap := s.now, binding := true }

/-- A header read and checked, with its list, and the root of an empty arena made: the arena as it will be
bound. -/
def bindHeader (b : Active) (s : State) (cx : Nat) (va : Word) (k : Bool × Nat) : TRes (State × Arena) := do
  let a0 := s.bindArena cx va k
  let (bs, s) ← bindBytes b a0 va 64 s
  let a := { a0 with
    base := BitVec.ofNat 64 (field bs 0 8), capacity := field bs 8 4, bump := field bs 12 4
    listVa := BitVec.ofNat 64 (field bs 16 8), root := field bs 24 4, gen := BitVec.ofNat 8 (field bs 28 1)
    alt := field bs 29 1 % 2 = 1, cpuct := BitVec.ofNat 32 (field bs 32 4), vloss := BitVec.ofNat 32 (field bs 36 4)
    first := BitVec.ofNat 32 (field bs 40 4), next := BitVec.ofNat 32 (field bs 44 4) }
  if a.base.toNat % 4096 ≠ 0 || a.capacity = 0 || decide (a.capacity < a.bump) ||
     (a.bump ≠ 0 && decide (a.bump ≤ a.root)) || field bs 29 1 / 2 % 64 ≠ 0 || field bs 30 2 ≠ 0 then
    .error (.stop 9 4 0 0)
  else do
    let (s, a) ← readRuns b s a
    rootMade b s a

/-- A slot binds an arena, by the address that its BIND names, or nothing. -/
def State.setArena (s : State) (cx slot : Nat) (k : Option (Bool × Nat)) (va : Word) : State :=
  s.modCtx cx fun c => { c with arenas := smPut none c.arenas slot k, arenaVa := smPut 0 c.arenaVa slot va }

/-- Whether a BIND of a die has taken an arena, or is taking its flag, and has not ended. -/
def State.bindHolds (s : State) (die phys : Nat) : Bool :=
  (s.treeCmds die).any fun p => p.2.cmd.kind.isBind && !p.2.ended && p.2.phase ≠ 0 && p.2.aux = phys

/-- An arena that is not bound after all is forgotten, and flag [7], if its BIND has set it, is cleared again
(R238). -/
def State.unmade (s : State) (die : Nat) (r : Arena) : State :=
  let t := s.removeArena die r
  if r.taken then
    t.treeReq die noCx r (.treeWr r.phys [(r.phys % 128 + 29, if r.alt then 1 else 0)]) r.va (alignDown r.phys 128) 0
  else t

/-- The release of the slot's earlier arena, unless it is the one named or another slot binds it; once it is
released, the slot binds nothing. -/
def State.releaseOld (s : State) (die cx slot : Nat) (new : Option (Bool × Nat)) : State × Option TStop :=
  match (s.ctx cx).arena slot with
  | none => (s, none)
  | some k =>
    let none_ := fun (t : State) => t.setArena cx slot none 0
    if new = some k then (s, none)
    else if s.boundElse die k cx slot || s.bindHolds die k.2 then (none_ s, none)
    else match (s.die die).arena k with
      | none => (none_ s, none)
      | some a => match s.dropArena die (s.armed cx slot a) with
        | (t, none) => (none_ t, none)
        | (t, some e) => (t.arenaMiss die a true e, some e)

/-- What a BIND has been told by the atomic on flag [7]: whether the flag was set before. -/
def Active.flagSet (a : Active) : Option Bool :=
  (a.stage.find? fun e => e.run = 1).map fun e => e.bytes.headD 0 ≠ 0

/-- A line that a BIND misses is asked for, once. -/
def State.bindFetch (s : State) (die cx : Nat) (a : Active) (r : Arena) (va : Word) : State :=
  match treePlace s r va false with
  | .ok ((p, z), t) =>
    if (s.reqsOf cx .tre a.cmd.num).any fun q => q.phys / 128 = p / 128 then s
    else t.treeReq die cx r (.treeStage a.cmd.num) va p z
  | .error e => s.after e

/-- A BIND ends: its slot binds an arena, or nothing. -/
def State.bindEnd (s : State) (cx : Nat) (a : Active) (k : Option (Bool × Nat)) (fail : Option (Nat × Nat × Word)) : State :=
  (s.setArena cx a.cmd.kind.slot k (if k.isSome then BitVec.ofNat 64 a.cmd.kind.xa else 0)).modActive cx .tre a.cmd.num fun b => { b with
    ended := true, units := if fail.isNone then 1 else 0, fail := fail }

/-- A BIND whose header is read and in order takes flag [7] by the atomic at the header's controller; the
arena is known to the die from then on (R238). The root's line of an empty arena needs room in the cache (R366). -/
def State.bindTake (s : State) (die cx : Nat) (a : Active) (r : Arena) (z : BitVec 2) : State :=
  if 524288 < s.nodesHeld die + r.nodes.length then s
  else ((s.modDie die fun d => { d with arenas := d.arenas ++ [r] }).treeReq die cx r (.treeFlag a.cmd.num) r.va r.phys z).modActive
    cx .tre a.cmd.num fun b => { b with phase := 1, aux := r.phys }

/-- A BIND whose atomic has answered: the header was bound elsewhere, or the arena is bound, and the header
of an arena that was empty is written. -/
def State.bindTaken (s : State) (die cx : Nat) (a : Active) (r : Arena) : State :=
  match a.flagSet with
  | none => s
  | some true => (s.removeArena die r).bindEnd cx a none (some (9, 9, r.va))
  | some false =>
    let made := r.dirty = []
    (s.putArena die { r with binding := !made }).modActive cx .tre a.cmd.num fun b => { b with phase := if made then 3 else 2 }

/-- A BIND that has taken its arena goes on: the atomic's answer, the header of an arena that was empty, and its end once
all is acknowledged (R237, R238). -/
def State.bindGoes (s : State) (die cx : Nat) (a : Active) : State :=
  match (s.die die).arena (false, a.aux) with
  | none => s
  | some r =>
    if a.phase = 1 then s.bindTaken die cx a r
    else if a.phase = 2 then
      match treeWrite die r r.va r.headPieces s with
      | .error (.stop st sub _ _) => (s.unmade die r).bindEnd cx a none (some (st, sub, r.va))
      | .error e => s.treeMiss cx a.cmd.num e
      | .ok u => (u.putArena die { r with binding := false }).modActive cx .tre a.cmd.num fun b => { b with phase := 3 }
    else if s.treeBusy die r.phys then s
    else s.bindEnd cx a (some (r.host, r.phys)) none

/-- A BIND at its turn, its header's place found or its failure known. -/
def State.bindAt (s : State) (die cx : Nat) (a : Active) (k : Option ((Bool × Nat) × BitVec 2)) : State :=
  let va := BitVec.ofNat 64 a.cmd.kind.xa
  match s.releaseOld die cx a.cmd.kind.slot (k.map Prod.fst) with
  | (t, some _) => t
  | (t, none) =>
    match a.fail, k with
    | some f, _ => t.bindEnd cx a none (some f)
    | none, none => t
    | none, some (k, z) =>
      match (t.die die).arena k with
      | some r => if r.busy then t else t.bindEnd cx a (some k) none
      | none => match bindHeader a t cx va k with
        | .error (.stop st sub _ _) => t.bindEnd cx a none (some (st, sub, va))
        | .error (.need v) =>
          t.bindFetch die cx a (t.bindArena cx va k) v
        | .error e => t.treeMiss cx a.cmd.num e
        | .ok (u, r) => u.bindTake die cx a r z

/-- A refused entry of a BIND's own translation fails it: it binds nothing and writes no header (R238). -/
def State.bindRefused (s : State) (cx : Nat) (a : Active) (e : FaultEntry) : State :=
  let die := dieOf (s.home cx)
  let t := if a.phase = 0 then s else (((s.die die).arena (false, a.aux)).map (s.unmade die)).getD s
  t.modActive cx .tre a.cmd.num fun b => { b with
    phase := 0
    fail := some (b.fail.getD (2, if e.write then 1 else 0, BitVec.ofNat 64 a.cmd.kind.xa)) }

/-- The entry of the release of a slot's arena, if one stands. -/
def State.releaseFault (s : State) (die cx slot : Nat) : Option (Arena × FaultEntry) :=
  (((s.ctx cx).arena slot).bind (s.die die).arena).bind fun r =>
    (s.faults.find? fun e => e.who = .arena die r.phys true).map fun e => (r, e)

/-- An answered entry of a release: a success repeats the write, and a refusal loses the line (R367). -/
def State.releaseAnswer (s : State) (die : Nat) (r : Arena) (e : FaultEntry) (ok : Bool) : State :=
  let t := { s with faults := s.faults.filter fun x => x.id ≠ e.id }
  if ok then t else t.loseLine die r e.va

/-- TREE_BIND_EXECUTE (R238): the engine binds an arena to a slot, releasing the previous binding. A header in
host memory fails the check of R237. -/
def execTreeBindExecute (die cmd : Nat) (s : State) : Res :=
  .next (match s.treeCmd die cmd with
    | none => s
    | some (cx, a) =>
      if !a.cmd.kind.isBind || a.ended || s.stopped cx || s.slotBusy cx a false || s.treeParked cx then s
      else match s.releaseFault die cx a.cmd.kind.slot, s.treeFault cx a.cmd.num with
        | some (r, e), _ =>
          (match e.answer with
           | none => s
           | some true => s.releaseAnswer die r e true
           | some false => (s.releaseAnswer die r e false).modActive cx .tre a.cmd.num fun b => { b with
               fail := some (b.fail.getD (2, 1, BitVec.ofNat 64 a.cmd.kind.xa)) })
        | none, some e =>
          let t := { s with faults := s.faults.filter fun x => x.id ≠ e.id }
          (match e.answer with
           | none => s
           | some true => t
           | some false => t.bindRefused cx a e)
        | none, none =>
          let va := BitVec.ofNat 64 a.cmd.kind.xa
          if a.phase ≠ 0 then s.bindGoes die cx a
          else if a.fail.isSome then s.bindAt die cx a none
          else match s.xlateFor cx va true false with
            | (.held, t) => s.heard t
            | (.fault c, t) => t.treeMiss cx a.cmd.num (.miss t va c false)
            | (.hit _, t) => match t.xlateFor cx va false true with
              | (.held, t) => s.heard t
              | (.fault c, t) => t.treeMiss cx a.cmd.num (.miss t va c true)
              | (.hit p, t) => match t.placeOf p va with
                | (true, _) => t.modActive cx .tre a.cmd.num fun b => { b with fail := some (9, 4, va) }
                | k => t.bindAt die cx a (some (k, p.size)))

/-! ### Completion (R243), gaps (R361) and eviction (R367) -/

/-- A command that completes without executing: its slot is unbound, or its ticket is already used. -/
def State.treeDoom (s : State) (die cx : Nat) (a : Active) : Option (Nat × Nat) :=
  if a.cmd.kind.isBind || s.slotBusy cx a true then none
  else match s.treeArena die cx a with
    | none => some (9, 3)
    | some r => if 2 ^ 31 ≤ r.dist a.cmd.kind then some (8, 2) else none

/-- What a completing command writes into its arena's header. -/
def Active.headPieces (a : Active) : List (Nat × List Byte) :=
  let (st, sub, _) := a.fail.getD (0, a.flags.toNat % 64, 0)
  [(48, leBytes 4 a.cmd.kind.ticket.toNat), (52, [BitVec.ofNat 8 st, BitVec.ofNat 8 sub]), (56, leBytes 4 a.units)] ++
    if st = 7 then [(54, leBytes 2 a.aux), (60, leBytes 4 a.run)] else []

/-- The arena after a completion: next has advanced, unless the command's ticket was already used (R360). -/
def Arena.passed (r : Arena) (a : Active) (now : Nat) : Arena :=
  if a.fail.map (fun f => (f.1, f.2.1)) = some (8, 2) then r else { r with next := r.next + 1, moved := now }

/-- A refused entry of a completing command: the command ends with status 2; a list that could not be written
stays changed in the engine, and a header that could not be written stays as it is in memory (R243, R367; log
138). -/
def Active.unwritten (a : Active) (e : FaultEntry) : Active :=
  { a with phase := a.phase + 1, fail := some (a.fail.getD (2, if e.write then 1 else 0, 0)) }

/-- Whether another command of an arena waits for its header to be acknowledged (R362). -/
def State.closesElse (s : State) (die : Nat) (a : Active) (r : Arena) : Bool :=
  (s.arenaCmds die r).any fun p => p.2.ord ≠ a.ord && p.2.ended && p.2.phase = 2

/-- A command of an arena completes: the changed list is sent to memory, then the header, and when all is
acknowledged next advances and the milestone counts the command (R237, R243). The headers of two commands follow one
another, so that the later one holds what the earlier has left (R362). -/
def State.closeArenaCmd (s : State) (die cx : Nat) (a : Active) (r : Arena) : State :=
  let step := fun (t : State) (n : Nat) => t.modActive cx .tre a.cmd.num fun _ => { a with phase := n }
  match s.treeFault cx a.cmd.num with
  | some e =>
    let t := { s with faults := s.faults.filter fun x => x.id ≠ e.id }
    match e.answer with
    | none => s
    | some true => step t a.phase
    | some false => t.modActive cx .tre a.cmd.num fun _ => a.unwritten e
  | none =>
    if s.arenaHeld die r || s.treeParked cx then s
    else if a.phase = 0 then
      match writeRuns s die r with
      | .error e => (step s 0).treeErr cx a.cmd.num e
      | .ok (t, r) => step (t.putArena die r) 1
    else if a.phase = 1 then
      if s.closesElse die a r then s
      else match treeWrite die r r.va ((r.passed a s.now).headPieces ++ a.headPieces) s with
      | .error e => s.treeErr cx a.cmd.num e
      | .ok t => step t 2
    else if s.treeBusy die r.phys then s
    else (s.putArena die (r.passed a s.now)).finish cx a.cmd {}

/-- A tree command completes (R141, R243). -/
def State.closeTree (s : State) (cx : Nat) (a : Active) : State :=
  let die := dieOf (s.home cx)
  if a.cmd.kind.isBind then
    (if a.ended then
      let (st, sub, va) := a.fail.getD (0, 0, 0)
      s.finish cx a.cmd { status := st, sub := sub, done := if st = 0 then 1 else 0, total := 1, va := va }
     else s)
  else
    match s.treeArena die cx a, (if a.ended then none else s.treeDoom die cx a) with
    | none, some _ => s.finish cx a.cmd {}
    | some r, some (st, sub) => s.closeArenaCmd die cx { a with ended := true, fail := some (st, sub, 0) } r
    | some r, none => if a.ended then s.closeArenaCmd die cx a r else s
    | none, none => s

/-- Whether a gap stands in an arena's tickets: a command is held, and none bears the ticket next (R361). -/
def State.gapIn (s : State) (die : Nat) (r : Arena) : Bool :=
  let ds := (s.arenaCmds die r).map fun p => r.dist p.2.cmd.kind
  ds.any (fun d => decide (d < 2 ^ 31)) && !ds.contains 0

/-- TICKET_GAP_TIMEOUT (R361): a gap of 2^20 ac fails the held command of the smallest distance, and next
passes the missing tickets. -/
def execTicketGapTimeout (die arena : Nat) (s : State) : Res :=
  .next (match (s.die die).arenas[arena]? with
    | none => s
    | some r =>
      let hs := (s.arenaCmds die r).filter fun p => decide (r.dist p.2.cmd.kind < 2 ^ 31)
      match best (fun p => r.dist p.2.cmd.kind * 2 ^ 64 + p.2.ord) hs with
      | none => s
      | some (cx, a) =>
        if !s.gapIn die r || s.now < max r.moved r.noGap + 2 ^ 20 then s
        else (s.putArena die { r with next := a.cmd.kind.ticket, moved := s.now }).modActive cx .tre a.cmd.num
          fun x => x.treeStop 8 1 0 0)

/-- A line leaves the cache; a unit that has met it keeps it. -/
def State.evictLine (s : State) (die : Nat) (r : Arena) (line : Nat) : State :=
  let t := s.putArena die { r with nodes := r.nodes.filter fun x => x.1 / 4 ≠ line }
  ((s.arenaCmds die r).filter fun p => s.inTurn die r p.2 && !p.2.ended).foldl (fun t p =>
    t.modActive p.1 .tre p.2.cmd.num fun a => { a with
      stage := { run := 2, line := line, bytes := r.lineBytes line, poison := false } :: a.stage }) t

/-- NODE_CACHE_EVICTION (R366, R367): a line of four nodes leaves the cache, written back if it is dirty; a
write-back that fails is reported, holds the arena's commands, and under a refusal leaves the line
cached. -/
def execNodeCacheEviction (die arena line : Nat) (s : State) : Res :=
  .next (match (s.die die).arenas[arena]? with
    | none => s
    | some r =>
      match s.faults.find? fun e => e.who = .arena die r.phys false with
      | some e => if e.answer.isSome then { s with faults := s.faults.filter fun x => x.id ≠ e.id } else s
      | none =>
        if r.busy || !r.cached line then s
        else match writeLines die s r (r.dirty.filter (· = line)) with
          | (_, _, some e) => s.arenaMiss die r false e
          | (t, r, none) => t.evictLine die r line)

/-- The release of an arena that no slot binds goes on: what it sends is sent again after a success answer, and lost
under a refusal (R367). -/
def State.releaseArena (s : State) (die : Nat) (r : Arena) : State :=
  match s.faults.find? fun e => e.who = .arena die r.phys true with
  | some e => (e.answer.map (s.releaseAnswer die r e)).getD s
  | none => match s.dropArena die r with
    | (t, none) => t
    | (t, some e) => t.arenaMiss die r true e

/-- Whether the atomic of a BIND on an arena's flag [7] has not answered. -/
def State.flagAsked (s : State) (die phys : Nat) : Bool :=
  s.reqs.any fun r => r.agent = .tree die && r.phys = phys && (match r.op with
    | .treeFlag _ => true
    | _ => false)

/-- The arenas of a die that no slot binds any longer, their tasks having ended, are released; one whose BIND has ended
with its task before it was bound is unmade (R238, R274). They translate as the last command that acted on them did
(DEDUCED, log 160). -/
def State.releaseFree (s : State) (die : Nat) : State :=
  ((s.die die).arenas.filter fun r => !s.bindHolds die r.phys && !s.boundElse die (r.host, r.phys) (2 ^ 64) 0).foldl
    (fun s r => if !r.binding then s.releaseArena die r else if s.flagAsked die r.phys then s else s.unmade die r) s

end Sys2Proof.Machine
end

