-- ==== Sys2Proof/Machine/Calendar.lean ====
section
/-!
DEFINITION. The channel calendar (R262 to R266), the passing of one ac, host accesses to device memory
(R293, R375) and the fabric between packages (R306).
-/

namespace Sys2Proof.Machine

open Sys2Proof

/-! ### Channels and owners (R37, R262, R348) -/

/-- Whether a stack retrains: until its time, at most 50 µs after it began (R7, R333). -/
def DieSt.retrains (d : DieSt) (stack : Nat) : Bool := d.retrain.any fun r => r.1 = stack && decide (d.time < r.2)

/-- The core number of a request's issuer. -/
def State.reqCore (s : State) (r : Req) : Nat := s.home r.cx % 24

/-- Whether a request's group lets it be served: it is admitted, or it can no longer cover its block (R351). -/
def State.groupOk (s : State) (r : Req) : Bool := r.group.isNone || r.admitted || !s.gathersBlock r

/-- Whether the pairing buffer of the stack has room for a line of a pair: 128 pairs (R349). -/
def State.pairRoom (s : State) (r : Req) : Bool :=
  match r.op with
  | .pair n p _ _ _ =>
    let key := fun (x : Req) => match x.op with
      | .pair m i _ _ _ => some (x.cx, m, i)
      | _ => none
    let held := (s.reqs.filter fun x => s.buffered x &&
      stackOf (s.channelOf x.phys) = stackOf (s.channelOf r.phys) && s.dieAt x.phys = s.dieAt r.phys).filterMap key
    held.contains (r.cx, n, p) || decide (held.eraseDups.length < 128)
  | _ => true

/-- Whether a request may be served by a channel now: it has arrived, what it must follow has performed,
and no lock stands on its line (R264, R295, R350). -/
def State.eligible (s : State) (die ch : Nat) (r : Req) : Bool :=
  r.served.isNone && !r.ws && !s.away r && s.dieAt r.phys = die && s.channelOf r.phys = ch &&
  s.arrived r && s.mayPerform r && s.groupOk r &&
  (match r.op with
   | .pair .. => s.pairRoom r
   | .sem .. => false
   | _ => !s.locks.contains (r.phys / 128))

/-- The requester that owns slot 28 or 29 in an ac: a die of the package, or none for the Causeway. -/
def slotDie (die n sl : Nat) : Option Nat :=
  ((List.range 4).filter (· ≠ die))[2 * (n / 32 % 2) + (sl - 28)]?

/-- The oldest request among those that satisfy a condition. -/
def State.oldest (s : State) (p : Req → Bool) : Option Req := s.reqs.find? p

/-- The first request that satisfies a condition, the lines of an admitted block read before all others
(R351). -/
def State.turnOf (s : State) (p : Req → Bool) : Option Req :=
  (s.oldest fun r => r.group.isSome && r.admitted && p r).orElse fun _ => s.oldest p

/-- Whether a core's slot of a channel belongs to the commit of a pair that the core has locked on the
channel's stack (R349). -/
def State.commits (s : State) (die ch sl : Nat) : Bool :=
  decide (sl < 24) && (s.ctxsAt (24 * die + sl)).any fun cx => (s.lockedPairs cx).any fun p =>
    p.2.any fun r => s.dieAt r.phys = die && stackOf (s.channelOf r.phys) = stackOf ch

/-- The oldest eligible request of a die's tree engine. -/
def State.treeOldest (s : State) (die ch : Nat) : Option Req :=
  s.oldest fun r => r.agent = .tree die && s.eligible die ch r

/-- The request of a slot's owner: a core, the tree engine, another die of the package or the Causeway; the
host's accesses take slot 30 themselves. -/
def State.owned (s : State) (die ch sl : Nat) : Option Req :=
  if sl < 24 then s.turnOf fun r => r.agent = .core && s.eligible die ch r && s.reqDie r = die && s.reqCore r = sl
  else if sl < 28 then s.treeOldest die ch
  else if sl = 28 ∨ sl = 29 then
    match slotDie die s.now sl with
    | some d => s.turnOf fun r => s.eligible die ch r && s.reqDie r = d
    | none => s.oldest fun r => r.agent = .causeway && s.eligible die ch r
  else none

/-- A core's request that may borrow: its context asks for it, and it is no line of a block read or of a pair (R265, R349,
R351). -/
def State.borrows (s : State) (die ch : Nat) (r : Req) : Bool :=
  r.agent = .core && s.eligible die ch r && s.reqDie r = die && (s.ctx r.cx).calmode.getLsbD 0 && !(r.group.isSome && r.admitted) &&
  (match r.op with
   | .pair .. => false
   | _ => true)

/-- The first core, in the order after one, that has a borrowing request. -/
def State.borrower (s : State) (die ch after : Nat) (ok : Nat → Bool) : Option Req :=
  (List.range 24).findSome? fun i =>
    let k := (after + 1 + i) % 24
    if ok k then s.oldest fun r => s.borrows die ch r && s.reqCore r = k else none

/-- Whether two cores of a die lie in one partition. -/
def State.samePart (s : State) (die a b : Nat) : Bool :=
  s.hub.parts.any fun p => match p.2 with
    | some q => q.cores.contains (24 * die + a) && q.cores.contains (24 * die + b)
    | none => false

/-- The borrower of an idle slot, as cr.CALCTL permits: a core, or for a core's slot that no core takes the tree
engine (R265; log 18). While no core has borrowed a slot of its kind in a channel, the order begins at core 0 (DESIGN
CHOICE, log 154). -/
def State.lent (s : State) (die ch sl : Nat) : Option Req :=
  let d := s.die die
  if sl < 24 then
    if d.calctl.getLsbD 0 then
      (s.borrower die ch sl fun k => k ≠ sl && s.samePart die sl k).orElse fun _ => s.treeOldest die ch
    else none
  else if sl < 28 then
    if d.calctl.getLsbD 1 then s.borrower die ch (smGet 23 d.lastTree ch) fun _ => true else none
  else if sl = 30 then
    if d.calctl.getLsbD 2 then s.borrower die ch (smGet 23 d.lastHub ch) fun _ => true else none
  else none

/-- A request performs in the slot that serves it; an owned service completes 192 or 336 ac later (R263,
R291). What another package asked for leaves the package. -/
def State.serve (s : State) (die : Nat) (r : Req) (own : Bool) : State :=
  let (t, bs, bad) := s.performReq r
  let d := if s.reqDie r = die then 192 else 336
  if r.agent = .causeway then t.dropReq r.id
  else t.modReq r.id fun x => { x with
    served := some s.now, due := if own then some (s.now + d) else none, data := bs, dpois := bad }

/-- Whether a request reads its line, so that its ECC is checked. -/
def ReqOp.reads : ReqOp → Bool
  | .load .. | .amo .. | .line .. | .reduce .. | .treeLine .. | .treeStage _ | .treeFlag _ => true
  | _ => false

/-- A channel marked as having served its burst of this ac. -/
def State.useCh (s : State) (die ch : Nat) : State := s.modDie die fun d => { d with used := ch :: d.used }

/-- Whether the slot 31 of a line's channel is free for scrub, patrol or migration in this ac: the channel has served
nothing, its stack does not retrain, and no lock stands on the line (R262, R266). -/
def State.slot31 (s : State) (a : Nat) : Bool :=
  let d := s.die (s.dieAt a)
  let ch := s.channelOf a
  (s.now + ch) % 32 = 31 && !d.used.contains ch && !d.retrains (stackOf ch) && !d.c3 && !s.locks.contains (a / 128)

/-- CALENDAR_SLOT (R262): a channel serves one burst, for the slot's owner or a borrower; a read's ECC is checked. A
core's borrowed request counts in its context's cr.SGLENT, a tree engine's in none (DEDUCED, log 155). A slot of a commit
serves nothing else, an admitted block read of another pair included (DEDUCED, log 156). -/
def calendar (die ch : Nat) (ecc : Ecc) (s : State) : State :=
  let d := s.die die
  let sl := (s.now + ch) % 32
  if d.used.contains ch || d.retrains (stackOf ch) || d.c3 || sl = 31 ||
     s.commits die ch sl then s
  else
    let use := fun (t : State) => t.useCh die ch
    let look := fun (r : Req) => if r.op.reads then s.checked die r.phys ecc else s
    match s.owned die ch sl with
    | some r => use ((look r).serve die r true)
    | none => match s.lent die ch sl with
      | none => s
      | some r =>
        let t := use ((look r).serve die r false)
        let t := if r.agent = .core then t.modCtx r.cx fun c => { c with sglent := c.sglent + 1 } else t
        let k := s.reqCore r
        if sl < 24 then t
        else t.modDie die fun d =>
          if sl < 28 then { d with lastTree := smPut 23 d.lastTree ch k } else { d with lastHub := smPut 23 d.lastHub ch k }

/-- CALENDAR_SLOT (R262): a channel's slot in an ac serves one burst for its owner or a borrower. -/
def execCalendarSlot (die : Nat) (burst : Nat × Ecc) (s : State) : Res :=
  .next (calendar die burst.1 burst.2 s)

/-! ### One ac (R7, R257, R263) -/

/-- A request whose result or acknowledgement is due in an owned slot arrives. -/
def State.arrive (s : State) (r : Req) : State :=
  match r.op with
  | .line .. => lineWrite s r.id
  | .store .. | .lineSt .. | .reduce .. | .pair .. => storeAck s r.id
  | .load .. | .amo .. => deliverLoad s r.id
  | .flagStore .. => flagDone s r.id
  | .treeLine .. | .treeStage _ | .treeFlag _ | .treeWr .. => s.treeArrive r
  | _ => s

/-- The counters of R257 for one ac of a core's contexts. -/
def State.countAc (s : State) (cx : Nat) : State :=
  let gens := [Queue.sld, Queue.sst].filterMap fun q =>
    ((s.generating cx q).filter fun a => !s.mustWait cx a.cmd).map fun a => s.gen cx a
  let wait := gens.any fun g => match g with
    | .wait => true
    | _ => false
  let mem := gens.any fun g => match g with
    | .mem .. => true
    | _ => false
  let bound := mem && decide (4096 ≤ s.streamLoad (s.home cx))
  let ws := (s.reqs.filter fun r => r.cx = cx && r.ws && r.served.isNone &&
    wsRefreshes (s.die (s.reqDie r)).cycle (wsBank r.phys)).length
  if !wait && !bound && ws = 0 then s
  else s.modCtx cx fun c => { c with
    sgidx := if wait then c.sgidx + 1 else c.sgidx
    sgbound := if bound then c.sgbound + 1 else c.sgbound
    wswait := c.wswait + BitVec.ofNat 64 ws }

/-- The stall of a core's kernel on a chained stream, for one ac. -/
def State.countStall (s : State) (g : Nat) : State :=
  match (s.core g).kern with
  | some k => if chainStalled s g then s.modCtx k.cx fun c => { c with kstall := c.kstall + 1 } else s
  | none => s

/-- The handles of a context whose 24 ac end are resolved (R117). -/
def State.resolveDue (s : State) (cx : Nat) : State :=
  (((s.ctx cx).h.filter fun p => p.2.state = .pending && !p.2.walk && decide (p.2.due ≤ s.now)).map Prod.fst).foldl
    (fun s n => s.resolveHandle cx n) s

/-- Requests to another package are sent once what they must follow has performed: each reaches it within 1 ms or is
lost, which the fabric leaves open (R306). -/
def State.sendAway (s : State) : State :=
  (s.reqs.filter fun r => s.remote r && r.sent.isNone && s.mayPerform r).foldl (fun s r =>
    let (w, t) := s.takeFree
    let now := (t.die (t.reqDie r)).time
    t.modReq r.id fun x => { x with
      sent := some now, reach := if w.msb then none else some (now + w.toNat % (usTime 1000 + 1)) }) s

/-- The arenas of a die in which no gap stands note the ac (R361). -/
def State.noteGaps (s : State) (die : Nat) : State :=
  if (s.die die).arenas = [] then s
  else s.modDie die fun d => { d with arenas := d.arenas.map fun r => if s.gapIn die r then r else { r with noGap := s.now } }

/-- One ac: every channel's slot and every bank is served, the counters and clocks move, and what is due
arrives. -/
def acTurn (s : State) : State :=
  let s := if s.reqs.any (fun r => r.served.isNone && !r.ws) then
      (List.range 4).foldl (fun s d => (List.range 96).foldl (fun s ch => calendar d ch .clean s) s) s
    else s
  let s := if s.reqs.any (fun r => r.ws && r.served.isNone) then
      (List.range 4).foldl (fun s d => (List.range 64).foldl (fun s b =>
        s.wsBankTurn d b) s) s
    else s
  let s := (s.ctxs.map Prod.fst).foldl State.countAc s
  let s := (s.cores.map Prod.fst).foldl State.countStall s
  let s := ((s.cores.filter fun p => p.2.genAc ≠ 0 || p.2.tileSet ≠ []).map Prod.fst).foldl (fun s g =>
    s.modCore g fun c => { c.joinTiles with genAc := 0 }) s
  let s := ((s.ctxs.filter fun p => p.2.kset ≠ 0 || p.2.mbCp ≠ []).map Prod.fst).foldl (fun s cx =>
    s.modCtx cx fun c => { c with kset := 0, mbCp := [] }) s
  let s := (List.range 4).foldl (fun s d => s.modDie d fun k => { k with cycle := k.cycle + 1, time := k.time + acTime k.pstate, used := [], wsUsed := [], wsRef := [], retSet := false }) s
  let s := (s.reqs.filter fun r => r.due.any (· ≤ s.now)).foldl State.arrive s
  let s := (s.ctxs.map Prod.fst).foldl State.resolveDue s
  let s := (s.ctxs.map Prod.fst).foldl (fun s cx => s.releasePair 64 cx) s
  let s := s.admitGroups fun _ => true
  let s := s.sendAway
  let s := (List.range 4).foldl State.noteGaps s
  s.ctxs.foldl (fun s p => p.2.active.foldl (fun s a =>
    if a.cmd.kind.loads then s.pump p.1 a.cmd.queue a.cmd.num else s) s) s

/-! ### The host through CXL.mem (R293, R375) -/

/-- The device address of offset o of a die of the package, which the host reaches at B + d · 144e9 + o (R375). -/
def State.hdmPlace (s : State) (die offset : Nat) : Nat := s.hub.pkg * 2 ^ 48 + die * 2 ^ 46 + offset

/-- Whether the host may access a line of a die now: in the slot 30 of a channel that serves nothing else, retrains not
and holds no lock on it (R262, R350). -/
def State.hostSlot (s : State) (a : Nat) : Bool :=
  let ch := s.channelOf a
  let d := s.die (s.dieAt a)
  !d.used.contains ch && !d.retrains (stackOf ch) && (s.now + ch) % 32 = 30 && !s.locks.contains (a / 128)

/-- HOST_CXL_MEM_ACCESS (R293, R375): an access within one line performs in slot 30 of its channel, on the die that holds
the address (R300), and a read's ECC is checked (R393); at a die in C3 it starts the exit. -/
def execHostCxlMemAccess (die offset : Nat) (write : Option (List Byte)) (len : Nat) (s : State) : Res :=
  .next ((let a := s.hdmPlace die offset
     let d := s.dieAt a
     if 4 ≤ die || dieBytes < offset + len || 128 < offset % 128 + len || len = 0 then s
     else if (s.die d).c3 then s.wake d
     else if !s.hostSlot a then s
     else
       let t := s.useCh d (s.channelOf a)
       match write with
       | none => t.eccLine a
       | some bs => t.wrMem false a (bs.take len)))

/-! ### The fabric (R306) -/

/-- A semaphore operation of a remote caller, at its file (R35, R163, R164). -/
def State.remoteSem (s : State) (op : SemOp) (g i : Nat) (v : Word32) (from_ prio : Nat) : State :=
  let m := (s.core g).sem i
  let me := 2 ^ 64 + from_
  let join := fun (amount : Int) (acq : Bool) =>
    if m.waiters.any (fun w => w.who = me) then s
    else
      let first := (s.nextWaiter m).all fun w => decide (prio < s.waiterPrio w) && decide (m.free < w.amount)
      if first && decide (amount ≤ m.free) then
        s.modCore g fun c => c.setSem i { m with
          val := m.val - BitVec.ofInt 32 amount, owner := if acq then some me else m.owner,
          ownPrio := if acq then prio else m.ownPrio }
      else s.modCore g fun c => c.setSem i { m with waiters := m.waiters ++ [
        { who := me, amount := amount, acq := acq, prio := prio, reserved := false,
          arrival := m.waiters.foldl (fun x w => max x (w.arrival + 1)) 0 }] }
  match op with
  | .add | .post => s.semBump g i v
  | .read => s
  | .wait => if v.toInt < 0 then s else join v.toInt false
  | .acq => if m.owner = some me then s else join 1 true
  | .rel =>
    if m.owner = some me then s.semRelease g i else s

/-- A request of another package enters a controller of this one, to be served in a turn of the Causeway
(R262, R306); one to another package's memory performs there at once, in an order that this package does not decide. -/
def State.enter (s : State) (a : Nat) (op : ReqOp) : State :=
  let r := { newReq s noCx op 0 false a [] 0 with agent := .causeway }
  if dieBytes ≤ physOff a then s else if s.own a then s.addReq r else (s.performReq r).1

/-- REMOTE_REQUEST: a request of another package executes here, at its controller or semaphore file; what
it returns leaves the package. -/
def execRemoteRequest (r : RemoteReq) (s : State) : Res :=
  .next ((match r with
     | .load a n => s.enter a (.load 0 n false false)
     | .store a bs p => s.enter a (.store bs p false)
     | .amo op dw a b cmp => s.enter a (.amo op 0 dw b cmp)
     | .reduce op a bs p => s.enter a (.reduce .sst 0 0 0 op [(0, bs, p)])
     | .sem op tag g i v f prio =>
       if s.hub.parts.any (fun p => match p.2 with
           | some q => q.cores.contains g && q.tag = tag && tag ≠ 0
           | none => false) && decide (i < 64) then s.remoteSem op g i v f prio
       else s))

/-- Whether a request to another package may be given up: 1 ms after it was sent if it has not reached its destination
(aux 0), or 1 ms after it performed there if its response has not come back (aux 1) (R306). -/
def State.lossDue (s : State) (r : Req) (aux : Nat) : Bool :=
  let now := (s.die (s.reqDie r)).time
  s.remote r && r.served.isNone &&
  (if aux = 0 then r.reach.isNone && r.sent.any fun n => decide (n + usTime 1000 ≤ now)
   else r.reach.any fun n => decide (n + usTime 1000 ≤ now))

/-- What a request given up leaves: one whose response is dropped has performed; a lost REL has not freed its
semaphore (R306). -/
def State.lossEffect (s : State) (r : Req) (aux : Nat) : State :=
  match r.op with
  | .sem .rel _ a _ =>
    if aux = 0 then s.modCtx r.cx fun c => { c with semOwn := a :: c.semOwn.filter (· ≠ a) } else (s.performSem r).1
  | .sem .. => if aux = 0 then s else (s.performSem r).1
  | _ => if aux = 0 then s else (s.performReq r).1

/-- The issuer of a request to another package completes it without its answer, with an entry whose aux
says whether it performed (R306). -/
def State.fabricLoss (s : State) (req aux : Nat) : State :=
  match s.findReq req with
  | none => s
  | some r =>
    if !s.lossDue r aux then s
    else
      let s := (s.lossEffect r aux).addFault (some r.cx) { faultBase (s.reqDie r) r.va 5 4 8 aux .nobody with info := true }
      let (v, t) := s.takeFree
      match r.op with
      | .line .. =>
        let (bs, u) := t.freeBytes 128
        u.receive { r with data := bs, dpois := true }
      | .load .. | .amo .. | .sem .. => deliverResult t { r with data := leBytes 8 v.toNat, dpois := true }
      | .flagStore _ _ n => (t.dropReq req).modActive r.cx .rem n fun a => { a with ended := true }
      | .treeLine .. | .treeStage _ | .treeFlag _ =>
        let (bs, u) := t.freeBytes 128
        u.treeArrive { r with data := bs, dpois := true }
      | _ => t.dropReq req

/-- FABRIC_REQUEST_LOST (R306): a request not delivered within 1 ms is lost and completed with a poisoned or null result. -/
def execFabricRequestLost (req : Nat) (s : State) : Res :=
  .next (s.fabricLoss req 0)

/-- RESPONSE_DROPPED (R306): a response not delivered within 1 ms of performing is dropped and reported. -/
def execResponseDropped (req : Nat) (s : State) : Res :=
  .next (s.fabricLoss req 1)

end Sys2Proof.Machine
end

