-- ==== Sys2Proof/Machine/Plane.lean ====
section
/-!
DEFINITION. The plane engine (R88 to R91, R154 to R156, R223 to R236, R337 to R341): the command window,
the routine store, and the words, ports and triggers of a routine in its eight clusters.
-/

namespace Sys2Proof.Machine

open Sys2Proof

/-! ### What a routine sees and changes -/

/-- The context that posted a routine's command, the command's number, and its declared ranges; a command
that a kernel posted has the whole window (R216, R230). -/
structure PEnv where
  cx  : Ctx
  num : Nat
  lim : Option (List Range × List Range)

/-- The memories of the core, and the routine. -/
structure PSt where
  c : CoreSt
  r : Routine

/-- The outcome of a word: routine illegal, a stall on a milestone, or its effect. An illegal word has no
effect (log 52). -/
inductive PRes where
  | bad
  | stall
  | ok (st : PSt)

def PRes.andThen (x : PRes) (f : PSt → PRes) : PRes :=
  match x with
  | .ok st => f st
  | _ => x

def clusters : List Nat := List.range 8

/-- A port that each cluster has (R228). -/
def Routine.port (r : Routine) (cl p : Nat) : Word32 := smGet 0 r.ports (64 * cl + p)
def Routine.setPort (r : Routine) (cl p : Nat) (v : Word32) : Routine :=
  { r with ports := smPut 0 r.ports (64 * cl + p) v }

/-- The exponent fields ER and EC. -/
def Routine.fieldsOf (r : Routine) (cl : Nat) : List Byte × List Byte :=
  ((List.range 64).map fun i => smGet 127 r.er (64 * cl + i), (List.range 64).map fun i => smGet 127 r.ec (64 * cl + i))

def Routine.setEr (r : Routine) (cl : Nat) (bs : List Byte) : Routine :=
  { r with er := smPutAll 127 r.er (64 * cl) bs }
def Routine.setEc (r : Routine) (cl : Nat) (bs : List Byte) : Routine :=
  { r with ec := smPutAll 127 r.ec (64 * cl) bs }

/-- The array accumulator's entries in order, and its entries replaced. -/
def Routine.accs (r : Routine) (cl : Nat) : List Word := (List.range 4096).map fun i => smGet 0 r.acc (4096 * cl + i)
def Routine.setAccs (r : Routine) (cl : Nat) (ws : List Word) : Routine :=
  { r with acc := smPutAll 0 (r.acc.filter fun x => x.1 / 4096 ≠ cl) (4096 * cl) ws }

/-- The array flags cleared. -/
def Routine.clearFlags (r : Routine) (cl : Nat) : Routine :=
  { r with aovf := smPut false r.aovf cl false, arng := smPut false r.arng cl false }

/-! ### SRF access (R230, R232) -/

/-- Whether a routine may access window bytes: within the window, and every line in a declared range. -/
def PEnv.may (e : PEnv) (write : Bool) (off n : Nat) : Bool :=
  decide (off + n ≤ e.cx.winBytes) &&
  (match e.lim with
   | none => true
   | some (rd, wr) => (linesOf 0 off n).all fun l => (if write then wr else rd).any fun x =>
       decide (x.lo ≤ 128 * l) && decide (128 * l + 128 ≤ x.lo + x.len))

/-- Window bytes loaded by a cluster: a poisoned line reads zero, and is noted (R232). -/
def PSt.load (e : PEnv) (st : PSt) (cl off n : Nat) : Option (List Byte × PSt) :=
  if !e.may false off n then none
  else
    let bad := fun l => st.c.srfBad (e.cx.winBase + 128 * l) 128
    let ls := linesOf 0 off n
    let bs := ls.flatMap fun l =>
      let lo := max off (128 * l)
      let k := Nat.min (off + n) (128 * l + 128) - lo
      if bad l then List.replicate k 0 else st.c.srfBytes (e.cx.winBase + lo) k
    some (bs, if ls.any bad then { st with r := { st.r with
      arng := smPut false st.r.arng cl true, flags := st.r.flags ||| 64 } } else st)

/-! ### Triggers (R231 to R236) -/

/-- The base of a load: its address register, cluster-indexed or not. -/
def loadBase (r : Routine) (cl ag : Nat) (v : Word32) (bytes : Nat) : Nat :=
  ((r.port cl ag).toNat + if v.getLsbD 9 then cl * bytes else 0) % 2 ^ 32

/-- The address register after a load. -/
def stepAg (r : Routine) (cl ag : Nat) (v : Word32) : Routine :=
  if v.getLsbD 8 then r.setPort cl ag (r.port cl ag + r.port cl (ag + 2)) else r

/-- ALOAD in a cluster (R231). -/
def aloadIn (e : PEnv) (v : Word32) (cl : Nat) (st : PSt) : Option PSt :=
  let n := v.toNat / 16 % 16 + 1
  let i := v.toNat % 16
  let base := loadBase st.r cl 20 v (n * 2048)
  if 2 ^ 10 ≤ v.toNat || 16 < i + n || base % 128 ≠ 0 then none
  else (st.load e cl base (2048 * n)).map fun (bs, t) => { t with
    r := stepAg { t.r with abuf := smPutAll 0 t.r.abuf (2 ^ 16 * cl + 2 ^ 11 * i) bs } cl 20 v }

/-- BLOAD in a cluster (R231). -/
def bloadIn (e : PEnv) (v : Word32) (cl : Nat) (st : PSt) : Option PSt :=
  let base := loadBase st.r cl 21 v ((v.toNat / 16 % 16 + 1) * 2048)
  if 2 ^ 10 ≤ v.toNat || base % 128 ≠ 0 then none
  else (st.load e cl base 2048).map fun (bs, t) => { t with
    r := stepAg { t.r with bbuf := smPutAll 0 t.r.bbuf (2 ^ 16 * cl + 2 ^ 11 * (v.toNat % 16)) bs } cl 21 v }

/-- EXPO in a cluster (R232). -/
def expoIn (e : PEnv) (v : Word32) (cl : Nat) (st : PSt) : Option PSt :=
  if 2 ^ 22 ≤ v.toNat || v.toNat / 4 % 16 ≠ 0 then none
  else (st.load e cl (v.toNat / 64 * 64 + if v.getLsbD 1 then 64 * cl else 0) 64).map fun (bs, t) => { t with
    r := if v.getLsbD 0 then t.r.setEc cl bs else t.r.setEr cl bs }

def popcount8 (b : Byte) : Nat := ((List.range 8).filter fun i => b.getLsbD i).length

/-- The popcount of the AND of row `row` of A entry i and column `col` of B entry j. -/
def planeDot (r : Routine) (cl i j row col : Nat) : Nat :=
  ((List.range 32).map fun k => popcount8 (smGet 0 r.abuf (2 ^ 16 * cl + 2 ^ 11 * i + 32 * row + k) &&&
    smGet 0 r.bbuf (2 ^ 16 * cl + 2 ^ 11 * j + 32 * col + k))).sum

/-- PASS in a cluster (R233). -/
def passIn (v : Word32) (cl : Nat) (st : PSt) : Option PSt :=
  let n := v.toNat
  let sh := n / 2 ^ 8 % 32
  if 2 ^ 14 ≤ n || sh = 31 then none
  else
    let r := st.r
    let ts := (List.range 4096).map fun q =>
      let x : Int := planeDot r cl (n % 16) (n / 16 % 16) (q / 64) (q % 64) * 2 ^ sh
      (smGet 0 r.acc (4096 * cl + q)).toInt + if v.getLsbD 13 then -x else x
    let out := ts.any fun t => t < -(2 ^ 63 : Int) || (2 ^ 63 : Int) ≤ t
    let r := r.setAccs cl (ts.map (BitVec.ofInt 64))
    some { st with r := if out then { r with aovf := smPut false r.aovf cl true } else r }

/-- ACLR in a cluster (R228). -/
def aclrIn (v : Word32) (cl : Nat) (st : PSt) : Option PSt :=
  if v ≠ 0 then none else some { st with r := (st.r.setAccs cl []).clearFlags cl }

/-- The tile flags that AOVF, ARNG and the fields moved into a slot give (Table 8.5). -/
def aswapFlags (r : Routine) (cl : Nat) (moved : Bool) : Byte :=
  let f := r.fieldsOf cl
  (if smGet false r.aovf cl then tOVF else 0) |||
    (if smGet false r.arng cl || (moved && (f.1.contains 255 || f.2.contains 255)) then tRNG else 0)

/-- Tile flags as flags of the completion record (Table 5.1). -/
def planeRecFlags (f : Byte) : BitVec 16 := tileRecFlags f ||| if f &&& tRNG ≠ 0 then 1 else 0

/-- ASWAP modes 0b00 and 0b01 in a cluster: the slot takes the accumulator and its fields; the
accumulator takes the slot's, or zeros (R234). -/
def aswapIn (e : PEnv) (k : Nat) (exchange : Bool) (cl : Nat) (st : PSt) : Option PSt :=
  if !slotOk e.cx.slots.length k then none
  else
    let p := e.cx.slotOf k
    let c := st.c
    let r := st.r
    let f := r.fieldsOf cl
    let fl := aswapFlags r cl true
    let old := (List.range 4096).map (c.entry cl p)
    let oldF := (List.range 128).map (c.efield cl p)
    let c' := ({ c with
      acc := smPutAll 0 c.acc ((8 * cl + p) * 4096) (r.accs cl)
      fields := smPutAll 127 c.fields ((8 * cl + p) * 128) (f.1 ++ f.2) }).tileFlags cl p fl
    let r := (if exchange then ((r.setAccs cl old).setEr cl (oldF.take 64)).setEc cl (oldF.drop 64)
              else r.setAccs cl []).clearFlags cl
    some { c := c', r := { r with flags := r.flags ||| planeRecFlags fl } }

/-- ASWAP mode 0b10 in a cluster: the accumulator goes to the SRF, and its lines become FULL (R234,
R250). -/
def aspillIn (e : PEnv) (indexed : Bool) (cl : Nat) (st : PSt) : Option PSt :=
  let base := ((st.r.port cl 21).toNat + if indexed then 32768 * cl else 0) % 2 ^ 32
  if base % 128 ≠ 0 || !e.may true base 32768 then none
  else
    let fl := aswapFlags st.r cl false
    let a := e.cx.winBase + base
    let c := (st.c.putSrf a ((st.r.accs cl).flatMap fun w => leBytes 8 w.toNat)).markSrf a 32768 false
    some { c := (linesOf e.cx.winBase base 32768).foldl CoreSt.fillLine c
           r := { (st.r.setAccs cl []).clearFlags cl with flags := st.r.flags ||| planeRecFlags fl } }

/-- ASWAP by its value (Table 8.5). -/
def aswapPort (e : PEnv) (v : Word32) (cl : Nat) (st : PSt) : Option PSt :=
  let k := v.toNat % 8
  let mode := v.toNat / 16 % 4
  if 2 ^ 7 ≤ v.toNat || v.getLsbD 3 || !slotOk e.cx.slots.length k then none
  else if mode = 2 then aspillIn e (v.getLsbD 6) cl st
  else if v.getLsbD 6 || mode = 3 then none
  else aswapIn e k (mode = 0) cl st

/-- XDEP in a cluster: every scaled entry of slot k deposited in the XA tile (R235, R341). -/
def xdepIn (e : PEnv) (k : Nat) (a4 : Bool) (cl : Nat) (st : PSt) : Option PSt :=
  let b := if a4 then 4 else 0
  let n := e.cx.slots.length
  if !slotOk n k || !xaOk n b || (decide (b ≤ k) && decide (k < b + 4)) then none
  else
    let p := e.cx.slotOf k
    let t := e.cx.slotOf b
    let (c, fl) := (List.range 4096).foldl (fun (x : CoreSt × Byte) i =>
      let er := (st.c.efield cl p (i / 64)).toNat
      let ec := (st.c.efield cl p (64 + i % 64)).toNat
      if er = 255 || ec = 255 then (x.1, x.2 ||| tRNG)
      else if er = 0 || ec = 0 then x
      else
        let d := xaDeposit (x.1.xa cl t i) (st.c.entry cl p i).toInt ((er : Int) + ec - 254)
        (x.1.setXa cl t i d.1, x.2 ||| d.2)) (st.c, 0)
    some { c := c.tileFlags cl t fl, r := { st.r with flags := st.r.flags ||| planeRecFlags fl } }

/-- XDEP by its value (R235). -/
def xdepPort (e : PEnv) (v : Word32) (cl : Nat) (st : PSt) : Option PSt :=
  if 2 ^ 4 ≤ v.toNat then none else xdepIn e (v.toNat % 8) (v.getLsbD 3) cl st

/-- ADDT and CMPT in a cluster (R228). -/
def addtIn (v : Word32) (cl : Nat) (st : PSt) : Option PSt :=
  some { st with r := st.r.setPort cl 42 (st.r.port cl 40 + v) }
def cmptIn (v : Word32) (cl : Nat) (st : PSt) : Option PSt :=
  some { st with r := st.r.setPort cl 45 (if (st.r.port cl 43).slt v then 1 else 0) }

/-- DONE (R227). -/
def doneOp (v : Word32) (st : PSt) : PRes :=
  if v ≠ 0 then .bad else .ok { st with r := { st.r with ended := true } }

/-- MILE: a stall until the posting context's counter has reached p[k] (R236). -/
def mileOp (e : PEnv) (q k : Nat) (st : PSt) : PRes :=
  let p := smGet 0 st.r.p k
  if 6 ≤ q || (q = 3 && decide (e.num % 2 ^ 32 ≤ p.toNat)) then .bad
  else if (BitVec.ofNat 32 (e.cx.mile (queueOf q)).counter - p).msb then .stall
  else .ok st

/-- MILE by its value. -/
def milePort (e : PEnv) (v : Word32) (st : PSt) : PRes :=
  if 2 ^ 6 ≤ v.toNat then .bad else mileOp e (v.toNat % 8) (v.toNat / 8) st

/-! ### Ports (Table 8.2) -/

/-- A port as a cluster reads it. -/
def PSt.read (st : PSt) (port : Nat) (imm : BitVec 15) (cl : Nat) : Word32 :=
  if port < 8 then smGet 0 st.r.p port
  else if 16 ≤ port && decide (port < 20) then
    (if st.r.loops.any (fun l => l.1 = port - 16) then smGet 0 st.r.lc (port - 16) else 0)
  else if port = 24 then imm.signExtend 32
  else if port = 25 then 0
  else if port = 26 then BitVec.ofNat 32 cl
  else st.r.port cl port

/-- The effect of a write in each performing cluster, in turn. -/
def inClusters (f : Nat → PSt → Option PSt) : List Nat → PSt → PRes
  | [], st => .ok st
  | cl :: cls, st => match f cl st with
    | none => .bad
    | some t => inClusters f cls t

/-- A write of a port that each cluster has, or its trigger. -/
def clusterPort (e : PEnv) (dst : Nat) (v : Word32) (cl : Nat) (st : PSt) : Option PSt :=
  match dst with
  | 32 => aloadIn e v cl st
  | 33 => bloadIn e v cl st
  | 34 => passIn v cl st
  | 35 => aswapPort e v cl st
  | 36 => aclrIn v cl st
  | 37 => xdepPort e v cl st
  | 38 => expoIn e v cl st
  | 41 => addtIn v cl st
  | 44 => cmptIn v cl st
  | _ => some { st with r := st.r.setPort cl dst v }

/-- Destinations of which the engine holds one copy (R226). -/
def uniformPort (dst : Nat) : Bool :=
  decide (dst < 8) || (decide (16 ≤ dst) && decide (dst < 20)) || dst = 39 || dst = 46

/-- A write of a uniform destination. -/
def uniformWrite (e : PEnv) (dst : Nat) (v : Word32) (st : PSt) : PRes :=
  if dst < 8 then .ok { st with r := { st.r with p := smPut 0 st.r.p dst v } }
  else if dst < 20 then .ok { st with r := { st.r with lc := smPut 0 st.r.lc (dst - 16) v } }
  else if dst = 39 then doneOp v st
  else milePort e v st

/-- A value written to a port in the performing clusters: a uniform destination must be written in all
of them alike, or in none (R226). -/
def PSt.put (e : PEnv) (dst : Nat) (perf : List Nat) (val : Nat → Word32) (st : PSt) : PRes :=
  if dst = 25 || perf = [] then .ok st
  else if uniformPort dst then
    if perf = clusters && clusters.all (fun cl => val cl = val 0) then uniformWrite e dst (val 0) st else .bad
  else inClusters (fun cl => clusterPort e dst (val cl) cl) perf st

/-! ### Words (R89, R91, R225, R229) -/

/-- A guard condition in a cluster (Table 8.3). -/
def Routine.cond (r : Routine) (g : BitVec 3) (cl : Nat) : Bool :=
  match g.toNat with
  | 0 => r.port cl 45 = 1
  | 1 => r.port cl 45 = 0
  | 2 => (r.loops.head?.map fun l => l.2.2.2).getD false
  | 3 => (r.loops.head?.map fun l => decide (smGet 0 r.lc l.1 = 1)).getD false
  | 4 => cl = 0
  | 5 => cl ≠ 0
  | 6 => r.port cl 15 ≠ 0
  | _ => r.port cl 15 = 0

/-- The clusters in which a guarded word or move performs. -/
def Routine.perf (r : Routine) (guard : Option (BitVec 3)) : List Nat :=
  match guard with
  | none => clusters
  | some g => clusters.filter (r.cond g)

/-- The routine goes on at a place; one outside its words ends it, naming the word that it comes from
(R223). -/
def Routine.goto (r : Routine) (pc : Int) : Routine :=
  let r := { r with last := r.pc }
  if pc < r.w || (r.w + r.count : Int) ≤ pc then { r with bad := some ((r.pc - r.w) % 256) }
  else { r with pc := pc.toNat }

/-- At a body's end its counter decrements and the body repeats, or the loop ends (R229). -/
def endBodies (pc : Nat) : List (Nat × Nat × Nat × Bool) → SMap Word32 →
    List (Nat × Nat × Nat × Bool) × SMap Word32 × Nat
  | [], lc => ([], lc, pc)
  | (k, a, b, f) :: ls, lc =>
    if b ≠ pc then ((k, a, b, f) :: ls, lc, pc)
    else
      let n := (smGet 0 lc k).toNat
      if 1 < n then ((k, a, b, false) :: ls, smPut 0 lc k (BitVec.ofNat 32 (n - 1)), a)
      else endBodies pc ls (smPut 0 lc k 0)

/-- The routine passes to a following word. -/
def Routine.pass (r : Routine) (pc : Nat) : Routine :=
  if r.ended then r
  else
    let (ls, lc, n) := endBodies pc r.loops r.lc
    { r with loops := ls, lc := lc }.goto n

/-- A branch ends every loop whose body does not hold its target. -/
def leaveLoops (t : Int) : List (Nat × Nat × Nat × Bool) → SMap Word32 →
    List (Nat × Nat × Nat × Bool) × SMap Word32
  | [], lc => ([], lc)
  | (k, a, b, f) :: ls, lc =>
    if (a : Int) ≤ t ∧ t < b then ((k, a, b, f) :: ls, lc) else leaveLoops t ls (smPut 0 lc k 0)

def Routine.branch (r : Routine) (disp : BitVec 13) : Routine :=
  let t := (r.pc : Int) + disp.toInt
  let (ls, lc) := leaveLoops t r.loops r.lc
  { r with loops := ls, lc := lc }.goto t

/-- A word's effect followed by the next word. -/
def PRes.onward (x : PRes) (pc : Nat) : PRes := x.andThen fun st => .ok { st with r := st.r.pass pc }

/-- A move that does nothing and is not counted: to ZERO, or the all-zero move (R89). -/
def moveIdle (m : Move) : Bool :=
  m.dst = 25 || (!m.guard && m.sel = 0 && m.src = 0 && m.dst = 0 && m.imm = 0)

def movePerf (m : Move) (r : Routine) : List Nat := if moveIdle m then [] else r.perf (if m.guard then some m.sel else none)

/-- A move pair: both moves read, then the first writes, then the second (R89, R225). Two guarded moves to one
per-cluster port conflict only where both perform in one cluster (DESIGN CHOICE, log 144: R89 does not say
whether moves of different clusters do). -/
def pairWord (m1 m2 : Move) (e : PEnv) (st : PSt) : PRes :=
  let p1 := movePerf m1 st.r
  let p2 := movePerf m2 st.r
  if !m1.wf || !m2.wf || (m1.dst = m2.dst && p1.any p2.contains) then .bad
  else ((st.put e m1.dst.toNat p1 (st.read m1.src.toNat m1.imm)).andThen fun t =>
    t.put e m2.dst.toNat p2 (st.read m2.src.toNat m2.imm)).onward (st.r.pc + 1)

/-- SETW (R91, R228). -/
def setwWord (g : Option (BitVec 3)) (port : BitVec 6) (imm : Word32) (e : PEnv) (st : PSt) : PRes :=
  if !portWrites port then .bad
  else (st.put e port.toNat (st.r.perf g) fun _ => imm).onward (st.r.pc + 1)

/-- LOOPR (R229). -/
def looprWord (k : BitVec 2) (port : BitVec 6) (len : BitVec 12) (_ : PEnv) (st : PSt) : PRes :=
  let r := st.r
  let n := st.read port.toNat 0
  let stop := r.pc + 1 + len.toNat
  if !portReads port || len = 0 || clusters.any (fun cl => n cl ≠ n 0) || 4 ≤ r.loops.length ||
     r.loops.any (fun l => l.1 = k.toNat) || (r.loops.head?.map fun l => decide (l.2.2.1 < stop)).getD false then .bad
  else if n 0 = 0 then .ok { st with r := r.pass stop }
  else .ok { st with r := { r with
    lc := smPut 0 r.lc k.toNat (n 0), loops := (k.toNat, r.pc + 1, stop, true) :: r.loops }.goto (r.pc + 1 : Nat) }

/-- BRG and JMPR (R229). -/
def brgWord (g : BitVec 3) (disp : BitVec 13) (_ : PEnv) (st : PSt) : PRes :=
  if clusters.any fun cl => st.r.cond g cl ≠ st.r.cond g 0 then .bad
  else .ok { st with r := if st.r.cond g 0 then st.r.branch disp else st.r.pass (st.r.pc + 1) }
def jmprWord (disp : BitVec 13) (_ : PEnv) (st : PSt) : PRes := .ok { st with r := st.r.branch disp }

/-- The effect of a routine word, by its kind. -/
def wordRun : RWord → PEnv → PSt → PRes
  | .pair m1 m2 => pairWord m1 m2
  | .loopr k port len => looprWord k port len
  | .brg g disp => brgWord g disp
  | .jmpr disp => jmprWord disp
  | .setw g port imm => setwWord g port imm

/-! ### The routine that runs -/

/-- What the running routine of a core sees. -/
def State.planeEnv (s : State) (r : Routine) : PEnv :=
  { cx := s.ctx r.cx, num := r.num,
    lim := (s.findActive r.cx .mat r.num).bind fun (a : Active) => match a.cmd.kind with
      | .matrix _ _ rd wr _ _ mpost => if mpost then none else some (rd, wr)
      | _ => none }

/-- A word, or one operation, of the routine that runs on a core; an illegal one ends it, with its
offset (R227). -/
def State.planeRun (s : State) (g : Nat) (f : PEnv → PSt → PRes) : State :=
  match (s.core g).plane with
  | none => s
  | some r =>
    if r.ended || r.bad.isSome then s
    else match f (s.planeEnv r) ⟨s.core g, r⟩ with
      | .stall => s
      | .bad => s.modCore g fun c => { c with plane := some { r with bad := some ((r.pc - r.w) % 256) } }
      | .ok st => s.setCore g { st.c with plane := some st.r }

/-- The next word of the routine store. -/
def routineStep (g : Nat) (s : State) : State :=
  match (s.core g).plane with
  | none => s
  | some r => s.planeRun g (match decodeRoutine (smGet 0 (s.core g).store r.pc).toNat with
    | none => fun _ _ => .bad
    | some w => wordRun w)

/-- The core of the focus context, on whose routine the words and operations below act (log 2). -/
def State.planeCore (s : State) : Nat := s.home s.focus

/-- MOVE_PAIR (R89). -/
def execMovePair (m1 m2 : Move) (s : State) : Res := .next (s.planeRun s.planeCore (pairWord m1 m2))

/-- LOOPR (R229). -/
def execLoopr (k : BitVec 2) (port : BitVec 6) (len : BitVec 12) (s : State) : Res :=
  .next (s.planeRun s.planeCore (looprWord k port len))

/-- BRG (R229). -/
def execBrg (g : BitVec 3) (disp : BitVec 13) (s : State) : Res := .next (s.planeRun s.planeCore (brgWord g disp))

/-- JMPR (R229). -/
def execJmpr (disp : BitVec 13) (s : State) : Res := .next (s.planeRun s.planeCore (jmprWord disp))

/-- SETW (R228). -/
def execSetw (guard : Option (BitVec 3)) (port : BitVec 6) (imm : Word32) (s : State) : Res :=
  .next (s.planeRun s.planeCore (setwWord guard port imm))

/-- An operation in the clusters of a mask. -/
def State.planeOp (s : State) (cl : BitVec 8) (f : PEnv → Nat → PSt → Option PSt) : State :=
  s.planeRun s.planeCore fun e => inClusters (f e) (clusters.filter fun i => cl.getLsbD i)

/-- ALOAD (R231). -/
def execAload (v : Word32) (cl : BitVec 8) (s : State) : Res := .next (s.planeOp cl fun e => aloadIn e v)

/-- BLOAD (R231). -/
def execBload (v : Word32) (cl : BitVec 8) (s : State) : Res := .next (s.planeOp cl fun e => bloadIn e v)

/-- EXPO (R232). -/
def execExpo (v : Word32) (cl : BitVec 8) (s : State) : Res := .next (s.planeOp cl fun e => expoIn e v)

/-- PASS (R233). -/
def execPass (v : Word32) (cl : BitVec 8) (s : State) : Res := .next (s.planeOp cl fun _ => passIn v)

/-- ASWAP_EXCHANGE (R234). -/
def execAswapExchange (k : BitVec 3) (cl : BitVec 8) (s : State) : Res :=
  .next (s.planeOp cl fun e => aswapIn e k.toNat true)

/-- ASWAP_STORE (R234). -/
def execAswapStore (k : BitVec 3) (cl : BitVec 8) (s : State) : Res :=
  .next (s.planeOp cl fun e => aswapIn e k.toNat false)

/-- ASWAP_SPILL (R234): slot k must be declared here too. -/
def execAswapSpill (k : BitVec 3) (indexed : Bool) (cl : BitVec 8) (s : State) : Res :=
  .next (s.planeOp cl fun e i st => if slotOk e.cx.slots.length k.toNat then aspillIn e indexed i st else none)

/-- ACLR (R228). -/
def execAclr (cl : BitVec 8) (s : State) : Res := .next (s.planeOp cl fun _ => aclrIn 0)

/-- XDEP (R235). -/
def execXdep (k : BitVec 3) (a4 : Bool) (cl : BitVec 8) (s : State) : Res :=
  .next (s.planeOp cl fun e => xdepIn e k.toNat a4)

/-- DONE (R227). -/
def execDone (s : State) : Res := .next (s.planeRun s.planeCore fun _ => doneOp 0)

/-- ADDT (R228). -/
def execAddt (v : Word32) (cl : BitVec 8) (s : State) : Res := .next (s.planeOp cl fun _ => addtIn v)

/-- CMPT (R228). -/
def execCmpt (v : Word32) (cl : BitVec 8) (s : State) : Res := .next (s.planeOp cl fun _ => cmptIn v)

/-- MILE (R236). -/
def execMile (q : BitVec 3) (p : BitVec 3) (s : State) : Res :=
  .next (s.planeRun s.planeCore fun e => mileOp e q.toNat p.toNat)

/-! ### The command window (R337 to R339) -/

/-- The commands in the window of a core, in order of acceptance. -/
def State.window (s : State) (g : Nat) : List (Nat × Active) :=
  sortBy (fun x => x.2.ord) ((s.ctxsAt g).flatMap fun cx =>
    ((s.ctx cx).active.filter fun a => a.cmd.queue = .mat).map fun a => (cx, a))

/-- The named predecessors, and the stream, of a matrix command; whether a command is an MROUT. -/
def CmdKind.preds : CmdKind → List Nat
  | .matrix _ _ _ _ ps _ _ => ps
  | _ => []
def CmdKind.stream : CmdKind → Option Nat
  | .matrix _ _ _ _ _ n _ => some n
  | _ => none
def CmdKind.isMrout : CmdKind → Bool
  | .mrout .. => true
  | _ => false

/-- The predecessors of a command that have not retired. -/
def State.livePreds (s : State) (cx : Nat) (k : Cmd) : List Nat :=
  k.kind.preds.filter fun m => (s.findActive cx .mat m).isSome || ((s.ctx cx).waiting .mat).any fun j => j.num = m

/-- The links of the table that are taken, of 48. -/
def State.linksUsed (s : State) (g : Nat) : Nat :=
  ((s.window g).map fun x => if x.2.linked then (s.livePreds x.1 x.2.cmd).length else 0).sum

/-- Whether a window command is ready (R338, R339). -/
def State.matReady (s : State) (g : Nat) (x : Nat × Active) : Bool :=
  let before := (s.window g).filter fun y => decide (y.2.ord < x.2.ord)
  if x.2.cmd.kind.isMrout then before.isEmpty && !s.stopped x.1
  else !before.any (fun y => y.2.cmd.kind.isMrout) && !s.mustWait x.1 x.2.cmd &&
    (if x.2.linked then (s.livePreds x.1 x.2.cmd).isEmpty
     else !before.any (fun y => y.1 = x.1 && y.2.cmd.kind.stream = x.2.cmd.kind.stream) &&
       x.2.cmd.kind.preds.all fun m => decide (m ≤ ((s.ctx x.1).mile .mat).counter))

/-- A matrix command leaves the window: its record is written, and a failure of one that a kernel posted
sets MPF (R216, R227). -/
def State.retireMat (s : State) (cx : Nat) (a : Active) (bad : Option Nat) (flags : Nat) : State :=
  let t := match a.cmd.kind with
    | .matrix _ _ _ _ _ _ true => if bad.isSome then s.modCtx cx fun c => c.setKstatus 0 256 else s
    | _ => s
  match bad with
  | some sub => t.finish cx a.cmd { status := 6, sub := sub, flags := flags, total := 1 }
  | none => t.finish cx a.cmd { flags := flags, done := 1, total := 1 }

/-- ROUTINE_START (R338): the free engine starts the ready command of the highest priority; an index whose
entry was never set fails (R156), and a routine starts as Table 8.1 says. -/
def execRoutineStart (core : Nat) (s : State) : Res :=
  .next (if (s.core core).plane.isSome || (s.window core).any (fun x => x.2.running && !s.stopped x.1) then s
    else match best (fun x => s.effPrio x.1) ((s.window core).filter (s.matReady core)) with
      | none => s
      | some (cx, a) => match a.cmd.kind with
        | .matrix i p _ _ _ _ _ => match smGet none (s.core core).rtab i with
          | none => s.retireMat cx a (some 0) 0
          | some (w, n) =>
            (s.modActive cx .mat a.cmd.num fun b => { b with started := true, running := true }).modCore core
              fun c => { c with plane := some { cx := cx, num := a.cmd.num, w := w, count := n, pc := w
                                                p := smPutAll 0 [] 0 p } }
        | _ => s.modActive cx .mat a.cmd.num fun b => { b with started := true, running := true })

/-- What reading words of memory gives: a shootdown, a lock or a die in C3 holds it, a translation fails, or the numbers
read. -/
inductive RdOut where
  | held
  | fault (va : Word) (sub : Nat)
  | ok (xs : List Nat)

/-- n aligned words of w bytes read through the translations of a core, partition and PASID, by an agent that has a path
to host memory or none (R36): to that one a page there is as one that is not backed (DESIGN CHOICE, log 161). -/
def State.readWords (s : State) (path : Bool) (w g part : Nat) (pasid : BitVec 20) : Nat → Word → RdOut × State
  | 0, _ => (.ok [], s)
  | n + 1, va =>
    match s.translate g part pasid va true false with
    | (.held, t) => (.held, t)
    | (.fault c, t) => (.fault va c, t)
    | (.hit p, t) =>
      let (h, a) := t.placeOf p va
      if h && !path then (.fault va 7, t)
      else if t.shut h a w then (.held, t.rouse h a)
      else
      let (bs, t) := t.rdPlace h a w
      match t.readWords path w g part pasid n (va + BitVec.ofNat 64 w) with
      | (.ok xs, u) => (.ok (leNat bs :: xs), u)
      | r => r

/-- MROUT_COPY (R156): the started MROUT reads its words, then sets the store and the table's entry; a
translation that fails is reported, and its refusal completes the command with status 2 (R314). -/
def execMroutCopy (core : Nat) (s : State) : Res :=
  .next (match (s.window core).find? (fun x => x.2.running && x.2.cmd.kind.isMrout && !s.stopped x.1) with
    | none => s
    | some (cx, a) => match a.cmd.kind with
      | .mrout va i w n =>
        if 4096 < w + n then s.finish cx a.cmd { status := 6, total := 1 }
        else match s.faults.find? (fun e => e.who = .engine cx .mat a.cmd.num 0 0) with
          | some e =>
            let t := { s with faults := s.faults.filter fun x => x.id ≠ e.id }
            (match e.answer with
             | none => s
             | some true => t
             | some false => t.finish cx a.cmd { status := 2, total := 1, va := e.va })
          | none => match s.readWords false 8 core (s.ctx cx).part (s.ctx cx).pasid n va with
            | (.held, t) => s.heard t
            | (.fault v sub, t) =>
              if t.faultRoom (dieOf core) then
                t.addFault (some cx) { faultBase (dieOf core) v 5 sub 4 0 (.engine cx .mat a.cmd.num 0 0) with
                  read := true }
              else s
            | (.ok ws, t) => (t.modCore core fun c => { c with
                store := smPutAll 0 c.store w (ws.map (BitVec.ofNat 64)), rtab := smPut none c.rtab i (some (w, n)) }).finish cx a.cmd
                  { done := 1, total := 1 }
      | _ => s)

/-- ROUTINE_RETIRE (R227, R337): a routine that has ended leaves the engine, and its command retires. -/
def execRoutineRetire (core : Nat) (s : State) : Res :=
  .next (match (s.core core).plane with
    | none => s
    | some r =>
      if !r.ended && r.bad.isNone then s
      else
        let t := s.modCore core fun c => { c with plane := none }
        match s.findActive r.cx .mat r.num with
        | none => t
        | some a => t.retireMat r.cx a (if r.ended then none else r.bad) r.flags.toNat)

end Sys2Proof.Machine
end

