-- ==== Sys2Proof/Machine/Sched.lean ====
section
/-!
DEFINITION. The scheduler (chapter 12): records taken from their sources, graph instances and releases,
ready lists, placement, swap, pre-emption, spill and refill, retirement, waymarks, and user queues.
-/

namespace Sys2Proof.Machine

open Sys2Proof

/-! ### Tasks, partitions and times -/

def State.task (s : State) (id : Nat) : Option Task := s.hub.tasks.find? fun t => t.id = id

def State.modTask (s : State) (id : Nat) (f : Task → Task) : State :=
  s.modHub fun h => { h with tasks := h.tasks.map fun t => if t.id = id then f t else t }

/-- The next number of the scheduler's order. -/
def State.tick (s : State) : Nat × State := (s.hub.tick, s.modHub fun h => { h with tick := h.tick + 1 })

/-- The cores of a partition, and the core through whose cache the scheduler translates for it. -/
def State.partCores (s : State) (p : Nat) : List Nat := ((s.part p).map Part.cores).getD []
def State.partCore (s : State) (p : Nat) : Nat := (best id (s.partCores p)).getD 0

/-- The die that governs a task, its time, and its cr.AGE in units of that time (R7, R278). -/
def State.govern (s : State) (t : Task) : DieSt := s.die (s.govDie t.part t.lrec.dieMask)
def State.taskTime (s : State) (t : Task) : Nat := (s.govern t).time
def State.ageOf (s : State) (t : Task) : Nat := usTime (s.govern t).age.toNat

/-! ### Graph instances and releases (R270, R271) -/

/-- An entry of the scheduler about a record: LAUNCH-FORMAT with its ordinal, named by the context that
launched it or by its queue (R269). -/
def State.launchReport (s : State) (owner : Option Nat) (part : Nat) (pasid : BitVec 20) (va : Word) (sub ord : Nat) :
    State :=
  s.addFault owner { faultBase (dieOf (s.partCore part)) va 11 sub 7 ord .nobody with
    info := true, part := part, pasid := pasid }

/-- The launcher of records: a task or a user queue, with what its tasks inherit. -/
structure Launcher where
  part  : Nat
  pasid : BitVec 20
  priv  : Bool
  task  : Option Nat
  queue : Option Nat
  /-- the context that entries name, and the record's address -/
  owner : Option Nat
  va    : Word

/-- The open instance of a launcher and graph id. -/
def State.openInst (s : State) (l : Launcher) (graph : Nat) : Option Inst :=
  s.hub.insts.find? fun i => i.part = l.part && i.task = l.task && i.queue = l.queue && i.graph = graph && !i.closed

/-- Whether a record can join its instance: one more may open while fewer than 1,024 instances of the partition
are not yet freed (R270). -/
def State.instRoom (s : State) (l : Launcher) (graph : Nat) : Bool :=
  graph = 0 || (s.openInst l graph).isSome ||
    decide ((s.hub.insts.filter fun i => i.part = l.part).length < 1024)

def State.modInst (s : State) (id : Nat) (f : Inst → Inst) : State :=
  s.modHub fun h => { h with insts := h.insts.map fun i => if i.id = id then f i else i }

/-- The instance of a record, opened if need be. -/
def State.instOf (s : State) (l : Launcher) (graph : Nat) : Option Inst × State :=
  if graph = 0 then (none, s)
  else match s.openInst l graph with
    | some i => (some i, s)
    | none =>
      let i : Inst := { id := s.hub.nextInst, part := l.part, task := l.task, queue := l.queue, graph := graph,
                        next := 0, closed := false, held := [] }
      (some i, s.modHub fun h => { h with insts := h.insts ++ [i], nextInst := h.nextInst + 1 })

/-- An instance is freed when it is closed and all its tasks have retired. -/
def State.freeInsts (s : State) : State :=
  s.modHub fun h => { h with insts := h.insts.filter fun i => !i.closed || h.tasks.any fun t => t.inst = some i.id }

/-- A task becomes READY: it joins the tail of the list of its priority (R275). -/
def State.makeReady (s : State) (id : Nat) : State :=
  let (n, s) := s.tick
  s.modTask id fun t => { t with state := .ready, level := t.lrec.prio, place := n, since := s.taskTime t, head := none }

/-- One release of an ordinal (R271). -/
def State.releaseOne (s : State) (inst : Nat) (owner : Option Nat) (part : Nat) (pasid : BitVec 20) (k : Nat) : State :=
  let bad := s.launchReport owner part pasid 0 1 k
  match s.hub.tasks.find? fun t => t.inst = some inst && t.ord = k && t.state = .waiting with
  | some t =>
    let u := s.modTask t.id fun x => { x with count := x.count - 1 }
    if t.count ≤ 1 then u.makeReady t.id else u
  | none => match s.hub.insts.find? fun i => i.id = inst with
    | none => bad
    | some i =>
      if decide (k < i.next) || i.closed then bad
      else s.modInst inst fun x => { x with held := smPut 0 x.held k (smGet 0 x.held k + 1) }

/-! ### Waymarks (R286) -/

/-- The key of a partition's waymark. -/
def wmKey (part id : Nat) : Nat := 256 * part + id

def State.waymark (s : State) (k : Nat) : Waymark := smGet {} s.hub.waymarks k
def State.setWaymark (s : State) (k : Nat) (w : Waymark) : State :=
  s.modHub fun h => { h with waymarks := smPut {} h.waymarks k w }

/-- A phase that has reached its target completes: its arrivals' commands end, and the next begins. -/
def State.phaseEnd (s : State) (k : Nat) : State :=
  let w := s.waymark k
  if w.target = 0 || decide (w.count < w.target) then s
  else w.who.foldl (fun s x => match s.ctxOf x.1 with
    | none => s
    | some cx => s.modActive cx .rem x.2 fun a => { a with ended := true })
    (s.setWaymark k { w with count := 0, phase := (w.phase + 1) % 2 ^ 32, who := [] })

/-- WAYMARK_ARRIVAL (R162, R286): the oldest arrival of a context whose drain has ended counts. -/
def execWaymarkArrival (cx : Nat) (s : State) : Res :=
  .next (if s.stopped cx then s else match (s.ctx cx).active.find? (fun a => !a.started && (match a.cmd.kind with
      | .waymark _ _ cov => !cov.any s.outstanding
      | _ => false)) with
    | none => s
    | some a => match a.cmd.kind with
      | .waymark id _ _ =>
        let k := wmKey (s.ctx cx).part id
        let w := s.waymark k
        ((s.modActive cx .rem a.cmd.num fun b => { b with started := true }).setWaymark k { w with
          count := w.count + 1, who := w.who ++ [((s.ctx cx).task, a.cmd.num)] }).phaseEnd k
      | _ => s)

/-! ### Taking records (R268 to R271, R275) -/

/-- A record taken: its ordinal, its task or its discard, and what its flags ask for (R268 to R271, R286).
`ok` says whether its checks have passed so far. -/
def State.enroll (s : State) (l : Launcher) (r : LaunchRec) (ok : Bool) (succ : List Nat) : State :=
  let (inst, s) := s.instOf l r.graph
  let ord := (inst.map Inst.next).getD 0
  let ok := ok && decide (ord < 4096) && succ.all (· < 4096)
  let s := match inst with
    | none => s
    | some i => s.modInst i.id fun x => { x with next := Nat.min 4096 (x.next + 1), closed := x.closed || (ok && r.close) }
  if !ok then (s.launchReport l.owner l.part l.pasid l.va 0 ord).freeInsts
  else
    let held := (inst.map fun i => smGet 0 i.held ord).getD 0
    let s := if r.deps < held then s.launchReport l.owner l.part l.pasid l.va 1 ord else s
    let id := s.hub.nextTask
    let t : Task := { id := id, part := l.part, pasid := l.pasid, priv := l.priv, lrec := r, state := .waiting,
                      count := r.deps - held, inst := inst.map Inst.id, ord := ord, level := r.prio, place := 0,
                      since := 0, head := none, reserv := false, placed := 0, swap := 0, spillDue := false,
                      movedAt := none, savedAt := none, saveEnd := 0, img := none, succ := succ }
    let s := s.modHub fun h => { h with tasks := h.tasks ++ [t], nextTask := id + 1 }
    let s := if r.deps ≤ held then s.makeReady id else s
    if r.arm then
      let k := wmKey l.part r.wmId
      (s.setWaymark k { s.waymark k with target := r.wmCount }).phaseEnd k
    else s

/-- What a read of the scheduler gives: it waits, it is refused, or its numbers. -/
inductive SchedRd where
  | wait (s : State)
  | refused (s : State)
  | ok (xs : List Nat) (s : State)

/-- A read of n words of w bytes for a source, with its fault entry and its answer (R269). -/
def State.schedRead (s : State) (who : Who) (l : Launcher) (w n : Nat) (va : Word) : SchedRd :=
  let e := s.faults.find? fun e => e.who = who
  let t := { s with faults := s.faults.filter fun x => e.all fun y => x.id ≠ y.id }
  match e.map FaultEntry.answer with
  | some none => .wait s
  | some (some false) => .refused t
  | _ => match t.readWords true w (s.partCore l.part) l.part l.pasid n va with
    | (.held, u) => .wait u
    | (.fault v c, u) =>
      let die := dieOf (s.partCore l.part)
      .wait (if u.faultRoom die then
        u.addFault l.owner { faultBase die v 5 c 7 0 who with read := true, part := l.part, pasid := l.pasid } else t)
    | (.ok xs, u) => .ok xs u

/-- The successor list of a record, read if it has one. -/
def State.readSuccs (s : State) (src : Source) (l : Launcher) (r : LaunchRec) : SchedRd :=
  if r.succs = 0 then .ok [] s else s.schedRead (.sched src true) l 4 r.succs r.succVa

/-- The source that the entries of a source's reads name: for a mapped queue the queue itself, by its number, which may
be mapped elsewhere before the answer comes (R269). -/
def State.entrySource (s : State) (src : Source) : Source :=
  match src with
  | .userQueue slot => .userQueue (((s.hub.queues.find? fun q => q.slot = some slot).map UQueue.num).getD 4096)
  | .task key => .task key

/-- The place at which a queue's head is written back: known, or it waits, for a shootdown or for the answer to
its fault entry; a refusal places the queue in error (R318, R386). -/
def State.headPlace (s : State) (q : UQueue) : State × Option (Option (Bool × Nat)) :=
  if q.headVa = 0 then (s, some none)
  else
    let who := Who.sched (.userQueue q.num) true
    let e := s.faults.find? fun e => e.who = who && e.write
    let t := { s with faults := s.faults.filter fun x => e.all fun (y : FaultEntry) => x.id ≠ y.id }
    match e.map FaultEntry.answer with
    | some none => (s, none)
    | some (some false) => (t.queueError q.num, none)
    | _ => match t.translate (t.partCore q.part) q.part q.pasid q.headVa false true with
      | (.held, u) => (t.heard u, none)
      | (.fault c, u) =>
        let die := dieOf (t.partCore q.part)
        (if u.faultRoom die then
          u.addFault none { faultBase die q.headVa 5 c 7 0 who with write := true, part := q.part, pasid := q.pasid }
         else t, none)
      | (.hit p, u) =>
        let (h, a) := u.placeOf p q.headVa
        if u.shut h a 4 then (u.rouse h a, none) else (u, some (some (h, a)))

/-- The head of a queue advanced and written back at its place (R386). -/
def State.writeHead (s : State) (q : UQueue) (head : Nat) (place : Option (Bool × Nat)) : State :=
  let s := s.modHub fun h => { h with queues := h.queues.map fun x => if x.num = q.num then { x with head := head } else x }
  match place with
  | none => s
  | some (h, a) => s.wrPlace h a (leBytes 4 head)

/-- A turn of a mapped user queue (R288, R386). -/
def State.takeQueue (s : State) (slot : Nat) : State :=
  match s.hub.queues.find? fun q => q.slot = some slot with
  | none => s
  | some q =>
    let d := (q.tail + 2 ^ 32 - q.head) % 2 ^ 32
    if q.error || d = 0 then s
    else if q.size < d then s.queueError q.num
    else
      let va := q.ring + BitVec.ofNat 64 (64 * (q.head % q.size))
      let l : Launcher := { part := q.part, pasid := q.pasid, priv := q.priv, task := none, queue := some q.num,
                            owner := none, va := va }
      let src := Source.userQueue q.num
      match s.schedRead (.sched src false) l 8 8 va with
      | .wait t => t
      | .refused t => t.queueError q.num
      | .ok ws t =>
        let bs := ws.flatMap (leBytes 8)
        let r := launchOf bs
        let r := { r with prio := max r.prio q.cap }
        let ok := launchOk t q.part bs
        let next := (q.head + 1) % 2 ^ 32
        if !t.instRoom l r.graph then s
        else match t.headPlace q with
          | (u, none) => u
          | (t, some place) =>
            if !ok then (t.writeHead q next place).enroll l r false []
            else match t.readSuccs src l r with
              | .wait u => u
              | .refused u => (u.writeHead q next place).enroll l r false []
              | .ok xs u => (u.writeHead q next place).enroll l r true xs

/-- Whether a record in a context's spill ring is still on its way there: the store of its LAUNCH has not performed
(R160, R295). -/
def State.ringDue (s : State) (cx : Nat) : Bool :=
  s.reqs.any fun r => r.cx = cx && r.served.isNone && r.va = (s.ctx cx).ringSlot (s.ctx cx).ringHead && (match r.op with
    | .store .. => true
    | _ => false)

/-- A turn of a task's cast-on queue and spill ring (R159, R160). -/
def State.takeTask (s : State) (key : Nat) : State :=
  match s.ctxOf key with
  | none => s
  | some cx =>
    let c := s.ctx cx
    let l : Launcher := { part := c.part, pasid := c.pasid, priv := false, task := some key, queue := none,
                          owner := some cx, va := 0 }
    let src := Source.task key
    let go := fun (t : State) (r : LaunchRec) (pop : Ctx → Ctx) =>
      if !t.instRoom l r.graph then s
      else match t.readSuccs src l r with
        | .wait u => u
        | .refused u => (u.modCtx cx pop).enroll l r false []
        | .ok xs u => (u.modCtx cx pop).enroll l r true xs
    match c.castOn with
    | r :: _ => go s r fun c => { c with castOn := c.castOn.drop 1 }
    | [] =>
      if c.ringCount = 0 || s.ringDue cx then s
      else match s.schedRead (.sched src false) l 8 8 (c.ringSlot c.ringHead) with
        | .wait t => t
        | .refused t =>
          (t.modCtx cx fun c => { c with ringHead := c.ringHead + 1 }).launchReport (some cx) c.part c.pasid 0 0 0
        | .ok ws t => go t (launchOf (ws.flatMap (leBytes 8))) fun c => { c with ringHead := c.ringHead + 1 }

/-- The partition of a source that has a record to take, and waits for no answer (R269, R275). -/
def State.sourcePart (s : State) (src : Source) : Option Nat :=
  let key := s.entrySource src
  if s.faults.any fun e => (e.who = .sched key false || e.who = .sched key true) && e.answer.isNone then none
  else match src with
    | .userQueue slot => (s.hub.queues.find? fun q => q.slot = some slot && !q.error && q.tail ≠ q.head).map UQueue.part
    | .task key => (s.ctxOf key).bind fun cx =>
      if (s.ctx cx).castOn = [] && (s.ctx cx).ringCount = 0 then none else some (s.ctx cx).part

/-- The sources of a partition that have a record to take. -/
def State.sources (s : State) (part : Nat) : List Source :=
  ((s.hub.queues.filterMap fun q => q.slot.map Source.userQueue) ++ (s.hub.tasks.map fun t => Source.task t.id)).filter
    fun src => s.sourcePart src = some part

/-- TAKE_RECORD (R275): the scheduler takes one launch record from a source and checks it, each source of a
partition once in a round. -/
def execTakeRecord (src : Source) (s : State) : Res :=
  .next (match s.sourcePart src with
    | none => s
    | some part =>
      let all := s.sources part
      let round := all.all s.hub.turns.contains
      if s.hub.turns.contains src && !round then s
      else
        let t := s.modHub fun h => { h with turns :=
          src :: if round then h.turns.filter fun x => !all.contains x else h.turns }
        match src with
        | .userQueue slot => t.takeQueue slot
        | .task key => t.takeTask key)

/-! ### Fitting a task on a core (R33, R244, R276) -/

/-- The lowest place of a size beside used runs in rising order. -/
def firstGap (size limit : Nat) : Nat → List (Nat × Nat) → Option Nat
  | base, [] => if base + size ≤ limit then some base else none
  | base, (b, n) :: us => if base + size ≤ b then some base else firstGap size limit (max base (b + n)) us

/-- Physical slots for a declaration of n: four aligned slots for a0-a3 when n ≥ 4. -/
def slotsFor (used : List Nat) (n : Nat) : Option (List Nat) :=
  let free := (List.range 8).filter fun p => !used.contains p
  if n < 4 then (if n ≤ free.length then some (free.take n) else none)
  else ([0, 4] : List Nat).findSome? fun g =>
    let grp := (List.range 4).map (· + g)
    let rest := free.filter fun p => !grp.contains p
    if grp.all free.contains && decide (n ≤ 4 + rest.length) then some (grp ++ rest.take (n - 4)) else none

/-- Where a task fits: its core, context, window, local memory and slots. -/
structure Fit where
  core  : Nat
  cx    : Nat
  win   : Nat
  loc   : Nat
  slots : List Nat

/-- The contexts whose tasks hold memories of a core, but for some tasks. -/
def State.holding (s : State) (g : Nat) (but : List Nat) : List Ctx :=
  ((s.ctxsAt g).map s.ctx).filter fun c => c.task ≠ 0 && !but.contains c.task

/-- The idle contexts of a core. -/
def State.idleOn (s : State) (g : Nat) : List Nat :=
  (ctxsOf g).filter fun cx => (s.ctx cx).task = 0 && (s.ctx cx).status = .idle

/-- Whether and where a task fits on a core; `cx` is the context that it would take, and the resources of the
tasks in `but` count as free (R276). -/
def State.roomAt (s : State) (r : LaunchRec) (g : Nat) (cx : Option Nat) (but : List Nat) : Option Fit :=
  let cs := s.holding g but
  let runs := fun (f : Ctx → Nat × Nat) => sortBy Prod.fst ((cs.map f).filter fun p => p.2 ≠ 0)
  match cx, firstGap r.winBytes (2 ^ 22) 0 (runs fun c => (c.winBase, c.winBytes)),
      firstGap r.locBytes (2 ^ 17) 0 (runs fun c => (c.locBase, c.locBytes)), slotsFor (cs.flatMap Ctx.slots) r.acc with
  | some cx, some w, some l, some ps => some { core := g, cx := cx, win := w, loc := l, slots := ps }
  | _, _, _, _ => none

/-- The cores on which a task may be placed or refilled. -/
def State.coresFor (s : State) (t : Task) : List Nat :=
  (sortBy id (s.partCores t.part)).filter fun g => !(s.core g).halted && match t.img with
    | some i => dieOf g = i.die
    | none => t.lrec.dieMask.testBit (dieOf g)

/-- Whether another task reserves the die of a core: a die of its mask on which its partition has a core (R278,
R287). -/
def State.reservedFor (s : State) (t : Task) (g : Nat) : Bool :=
  s.hub.tasks.any fun u => u.reserv && u.id ≠ t.id && u.lrec.dieMask.testBit (dieOf g) &&
    (s.partCores u.part).any fun h => dieOf h = dieOf g

/-- The core that holds a swapped task, and whether a context that holds a task is blocked. -/
def State.heldAt (s : State) (t : Task) : Nat := ((s.ctxOf t.id).map s.home).getD 0

/-- Whether a swapped or spilled task is restorable; one whose save is under way is not (R273, R332). -/
def State.restorable (s : State) (t : Task) : Bool :=
  (t.state = .swapped || t.state = .spilled) && !t.spillDue && decide (t.saveEnd ≤ s.now) && (match s.ctxOf t.id with
    | none => false
    | some cx => match (s.ctx cx).status with
      | .blocked w => s.cleared cx w && !(s.ctx cx).retiring
      | _ => true)

/-- Whether a task competes for placement. -/
def State.wants (s : State) (t : Task) : Bool := t.state = .ready || s.restorable t

/-- Where a competing task fits: a swapped task on a context of its core, any other where it finds room (R276). -/
def State.rooms (s : State) (t : Task) : List Fit :=
  if t.state = .swapped then
    let g := s.heldAt t
    if (s.core g).halted then [] else ((s.idleOn g).head?.map fun cx => ⟨g, cx, 0, 0, []⟩).toList
  else (s.coresFor t).filterMap fun g => s.roomAt t.lrec g (s.idleOn g).head? []

/-- Where a task that fits may be placed: on no die that another task reserves (R278). -/
def State.fits (s : State) (t : Task) : List Fit := (s.rooms t).filter fun f => !s.reservedFor t f.core

/-- The core chosen among those a task fits: the hinted core of the lowest die, else the fewest tasks, then the
lowest index (R276). -/
def State.choose (s : State) (t : Task) : Option Fit :=
  let fs := s.fits t
  match fs.find? fun f => t.lrec.hint ≠ 255 && f.core % 24 = t.lrec.hint with
  | some f => some f
  | none => best (fun f => 128 * (s.holding f.core []).length + f.core) fs

/-- The level at which a task competes: a READY task's list level, and a restorable one's effective priority or the
level to which it has aged (R278, R279, R284). -/
def State.levelOf (s : State) (t : Task) : Nat :=
  if t.state = .ready then t.level
  else Nat.min t.level (((s.ctxOf t.id).map s.effPrio).getD 3)

/-- The order of placement: level, restorable first, then place in the list (R278). -/
def State.rank (s : State) (t : Task) : Nat :=
  (2 * s.levelOf t + if t.state = .ready then 1 else 0) * 2 ^ 64 + t.place

/-- The task that is placed next. -/
def State.nextTask (s : State) : Option Task :=
  best s.rank (s.hub.tasks.filter fun t => s.wants t && (s.choose t).isSome)

/-! ### Lists, aging and reservation (R278, R279) -/

/-- The heads of level 0, one for each partition, and since when; the waiting time of a task that is not
restorable does not run, and that of a restorable one begins again when inheritance changes its level. -/
def State.fixLists (s : State) : State :=
  let headOf := fun p => (best s.rank (s.hub.tasks.filter fun (t : Task) => t.part = p && s.wants t && s.levelOf t = 0)).map Task.id
  s.modHub fun h => { h with tasks := h.tasks.map fun t =>
    let same := t.state = .ready || s.levelOf t = t.eff
    let since := if s.wants t && same then t.since else s.taskTime t
    let head := if headOf t.part = some t.id then some (t.head.getD (s.taskTime t)) else none
    { t with since := since, eff := s.levelOf t, head := head } }

/-- The cores of a die, and whether one is halted. -/
def coresOf (die : Nat) : List Nat := (List.range 24).map (· + 24 * die)
def State.haltedOn (s : State) (die : Nat) : Bool := s.cores.any fun p => dieOf p.1 = die && p.2.halted

/-- Whether a core has no task placed, no accepted command, and is not halted (R396, R397). -/
def State.quiet (s : State) (g : Nat) : Bool :=
  !(s.core g).halted && (s.core g).kern.isNone && (s.core g).plane.isNone &&
    (ctxsOf g).all (fun cx => (s.ctx cx).task = 0) && (s.ctxsAt g).all fun cx => (s.ctx cx).active.isEmpty

/-- The stacks to which a run of bytes of device memory reaches. -/
def State.stacksOf (s : State) (base bytes : Nat) : List Nat :=
  ((List.range (bytes / 128)).map fun i => stackOf (s.channelOf (base + 128 * i))).eraseDups

/-- Whether a deadline save that has not completed writes to a stack (R333). -/
def State.saving (s : State) (die stack : Nat) : Bool :=
  s.hub.tasks.any fun t => decide (s.now < t.saveEnd) && (t.movedAt.toList ++ t.savedAt.toList).any fun r =>
    let base := (((s.part t.part).map Part.saveB).getD 0).toNat + r.1
    s.dieAt base = die && (s.stacksOf base r.2).contains stack

/-- A stack begins to retrain, for a time that the manual does not give, of at most 50 µs (R333). -/
def State.startRetrain (s : State) (die stack : Nat) : State :=
  let (w, t) := s.takeFree
  t.modDie die fun d => { d with
    retrain := (stack, d.time + w.toNat % (usTime 50 + 1)) :: d.retrain.filter fun r => r.1 ≠ stack
    trainDue := d.trainDue.filter (· ≠ stack) }

/-- The retrainings of a die that deadline saves have held back begin once those are complete (R333). -/
def State.dueTrain (s : State) (die : Nat) : State :=
  ((s.die die).trainDue.filter fun k => !s.saving die k).foldl (fun s k => s.startRetrain die k) s

/-- Whether a retraining of a die runs, or is held back by a deadline save: a P-state change waits for it (R333). -/
def DieSt.training (d : DieSt) : Bool := (List.range 3).any d.retrains || d.trainDue ≠ []

/-- A P-state change that waits takes place at an ac with cr.CYCLE mod 32 = 0, after any retraining; a halted core keeps
its die from P2 (R333, R396, R397). -/
def State.dueP (s : State) (die : Nat) : State :=
  let d := s.die die
  match d.pWait with
  | some p =>
    if d.training || d.cycle % 32 ≠ 0 || d.c3 || (p = 2 && s.haltedOn die) then s
    else s.modDie die fun d => { d with pstate := p, pWait := none }
  | none => s

/-- Whether requests for the memory of a die wait there. -/
def State.wanted (s : State) (die : Nat) : Bool :=
  s.reqs.any fun r => r.served.isNone && !r.ws && !s.away r && s.dieAt r.phys = die

/-- A die in C3 begins its exit when memory or a task asks for it, and runs again 60 µs later, with the package's
count (R396). -/
def State.c3Turn (s : State) (die : Nat) : State :=
  let d := s.die die
  if !d.c3 then s
  else match d.c3Exit with
    | some t => if t ≤ d.time then s.modDie die fun d => { d with c3 := false, c3Exit := none, cycle := s.now } else s
    | none => if s.wanted die || !(coresOf die).all s.quiet then s.wake die else s

/-- One ac of the package, with its lists. -/
def packageAc (s : State) : State :=
  let s := (List.range 4).foldl (fun s d => ((s.dueTrain d).dueP d).c3Turn d) (acTurn s)
  ((List.range 4).foldl State.releaseFree s).fixLists

/-- AGING_MOVE (R279): a task that has waited cr.AGE at its level moves to the next higher level. -/
def execAgingMove (task : Nat) (s : State) : Res :=
  .next (match s.task task with
    | none => s
    | some t =>
      if !s.wants t || (t.state ≠ .ready && s.levelOf t ≠ t.eff) || s.levelOf t = 0 || s.ageOf t = 0 || decide (s.taskTime t < t.since + s.ageOf t) then s
      else
        let (n, u) := s.tick
        u.modTask task fun t => { t with level := s.levelOf t - 1, eff := s.levelOf t - 1, place := n, since := s.taskTime t })

/-- RESERVING (R278): a task that has stood at the head of level 0 for cr.AGE reserves its dies. -/
def execReserving (task : Nat) (s : State) : Res :=
  .next (match s.task task with
    | none => s
    | some t => match t.head with
      | none => s
      | some h =>
        if !s.wants t || s.ageOf t = 0 || decide (s.taskTime t < h + s.ageOf t) ||
           s.hub.tasks.any (fun u => u.reserv && u.part = t.part) then s
        else s.modTask task fun t => { t with reserv := true })

/-! ### Placement (R277) -/

/-- A sparse map built from entries in any order. -/
def smOf {α : Type} [DecidableEq α] (d : α) (l : List (Nat × α)) : SMap α := l.foldl (fun m p => smPut d m p.1 p.2) []

/-- A core's window, local memory and slots as a newly placed task finds them (R211, R244, R277). -/
def CoreSt.fresh (c : CoreSt) (f : Fit) (r : LaunchRec) : CoreSt :=
  let c := { c with
    srf := c.srf.filter fun p => decide (4 * p.1 < f.win) || decide (f.win + r.winBytes ≤ 4 * p.1)
    lines := c.lines.filter fun p => decide (128 * p.1 < f.win) || decide (f.win + r.winBytes ≤ 128 * p.1)
    loc := c.loc.filter fun p => decide (p.1 < f.loc) || decide (f.loc + r.locBytes ≤ p.1)
    locBad := c.locBad.filter fun p => decide (128 * p.1 < f.loc) || decide (f.loc + r.locBytes ≤ 128 * p.1) }
  f.slots.foldl (fun c p => (List.range 8).foldl (fun c cl => c.azero cl p) c) c

/-- The next task number of a partition; 0 is skipped. -/
def nextTaskId (n : Nat) : Nat := if (n + 1) % 2 ^ 32 = 0 then 1 else (n + 1) % 2 ^ 32

/-- A task placed. -/
def State.placeAt (s : State) (t : Task) (f : Fit) : State :=
  let tid := nextTaskId (((s.part t.part).map Part.nextId).getD 0)
  let c : Ctx := {
    status := .ready, core := f.core, task := t.id, part := t.part, pasid := t.pasid, priv := t.priv
    pc := t.lrec.entry, taskId := BitVec.ofNat 32 tid, launchP := t.lrec.prio, basePrio := t.lrec.prio
    arg := t.lrec.arg, winBase := f.win, winBytes := t.lrec.winBytes, locBase := f.loc
    locBytes := t.lrec.locBytes, slots := f.slots }
  let s := (s.setCtx f.cx c).modCore f.core fun k => { k.fresh f t.lrec with c1 := false }
  let s := s.modHub fun h => { h with
    parts := smPut none h.parts t.part ((smGet none h.parts t.part).map fun p => { p with nextId := tid }) }
  let (n, s) := s.tick
  s.modTask t.id fun t => { t with state := .placed, placed := n, head := none, reserv := false }

/-- PLACEMENT (R277): the task that is to be placed next, if it is a READY one. -/
def execPlacement (task : Nat) (s : State) : Res :=
  .next (match s.nextTask with
    | none => s
    | some t =>
      if t.id ≠ task || t.state ≠ .ready then s
      else match s.choose t with
        | none => s
        | some f => s.placeAt t f)

/-! ### Swap (R280, R282) -/

/-- Who waits, with a context's key replaced. -/
def Who.rekey (o n : Nat) (w : Who) : Who :=
  let f := fun c => if c = o then n else c
  match w with
  | .handle c h => .handle (f c) h
  | .fetch c => .fetch (f c)
  | .krun c => .krun (f c)
  | .ring c => .ring (f c)
  | .qmap c => .qmap (f c)
  | .engine c q m r l => .engine (f c) q m r l
  | .kcode c m => .kcode (f c) m
  | w => w

/-- The kernels that a context holds, named as of a key. -/
def Ctx.kernelsAt (c : Ctx) (n : Nat) : Ctx :=
  { c with heldK := c.heldK.map fun k => { k with cx := n }, waitK := c.waitK.map fun k => { k with cx := n } }

/-- A context under another key, with all that names it. -/
def State.rekey (s : State) (o n : Nat) : State :=
  let f := fun c => if c = o then n else c
  { s with
    ctxs := smPut {} (smPut {} s.ctxs n ((s.ctx o).kernelsAt n)) o {}
    reqs := s.reqs.map fun r => { r with cx := f r.cx }
    faults := s.faults.map fun e => { e with who := Who.rekey o n e.who }
    filters := s.filters.map fun e => { e with cx := f e.cx }
    cores := s.cores.map fun (p : Nat × CoreSt) => (p.1, { p.2 with
      kern := p.2.kern.map fun k => { k with cx := f k.cx }
      plane := p.2.plane.map fun r => { r with cx := f r.cx } }) }

/-- The key of a swapped or spilled task's fast context. -/
def shadowKey (task : Nat) : Nat := 1024 + task

/-- The bytes of shadow storage, and of the save area, that a fast context takes: with kernel state where a kernel is
held, waits, or is about to be frozen (R282). -/
def State.shadowBytes (s : State) (cx : Nat) : Nat :=
  let c := s.ctx cx
  if c.heldK = [] && c.waitK = [] && !(s.core (s.home cx)).kern.any (fun k => k.cx = cx) then 4096 else 136 * 1024

/-- The tasks whose fast contexts stand in the shadow of a core, the longest-held first, with their sizes. -/
def State.shadowed (s : State) (g : Nat) : List (Nat × Nat) :=
  (sortBy Task.swap (s.hub.tasks.filter fun t =>
    (t.state = .swapped || t.state = .spilled) && t.movedAt.isNone && s.heldAt t = g)).map fun t =>
      (t.id, ((s.ctxOf t.id).map s.shadowBytes).getD 0)

/-- What is left, in ac, of the retrainings of the stacks to which a save writes (R333). -/
def State.saveWait (s : State) (base bytes : Nat) : Nat :=
  let d := s.die (s.dieAt base)
  let run := d.retrain.filter fun r => decide (d.time < r.2)
  if run = [] then 0
  else
    let reach := s.stacksOf base bytes
    (run.filter fun r => reach.contains r.1).foldl (fun n r =>
      max n ((r.2 - d.time + acTime d.pstate - 1) / acTime d.pstate)) 0

/-- The runs of a partition's save area that hold something. -/
def State.saveUsed (s : State) (part : Nat) : List (Nat × Nat) :=
  (s.hub.tasks.filter fun t => t.part = part).flatMap fun t => t.movedAt.toList ++ t.savedAt.toList

/-- The run of a partition's save area that a save of n bytes takes: the lowest that is free (R380; log 88). -/
def State.saveRun (s : State) (part bytes : Nat) : Option Nat :=
  (s.part part).bind fun p => firstGap bytes p.saveN 0 (sortBy Prod.fst (s.saveUsed part))

/-- A deadline save of a task's bytes to a run of its save area: the bytes reach device memory, and the save takes its
deadline, extended where a stack that it writes retrains; an extension is reported (R332 to R334; log 106). -/
def State.save (s : State) (t : Task) (off : Nat) (bs : List Byte) : State :=
  let base := (((s.part t.part).map Part.saveB).getD 0).toNat + off
  let ext := s.saveWait base bs.length
  let s := s.wrMem false base bs
  let s := (linesOf 0 base bs.length).foldl (fun s l => s.mark false (128 * l) false) s
  let s := s.modTask t.id fun x => { x with saveEnd := s.now + (bs.length + 383) / 384 + 4096 + ext }
  if ext = 0 then s
  else s.addFault (s.ctxOf t.id) { faultBase (s.govDie t.part t.lrec.dieMask) 0 34 0 7 ext .nobody with
    info := true, part := t.part, pasid := t.pasid }

/-- Room in a core's shadow for n bytes: the longest-held fast contexts move to the save area, in a form that the
manual does not give: free bytes (R282; log 88). -/
def State.shadowRoom (g n : Nat) : List (Nat × Nat) → State → Option State
  | [], s => some s
  | (t, b) :: ts, s =>
    if n + (((t, b) :: ts).map Prod.snd).sum ≤ 256 * 1024 then some s
    else match s.task t with
      | none => none
      | some k => match s.saveRun k.part b with
        | none => none
        | some off =>
          let (bs, s) := s.freeBytes b
          State.shadowRoom g n ts ((s.save k off bs).modTask t fun x => { x with movedAt := some (off, b) })

/-- A context saved to shadow: its kernel freezes, and its task is SWAPPED; none where no room can be
made. -/
def State.swapOut (s : State) (cx : Nat) : Option State :=
  let c := s.ctx cx
  let g := coreOf cx
  let need := s.shadowBytes cx
  match State.shadowRoom g need (s.shadowed g) s with
  | none => none
  | some s =>
    let s := s.modCore g fun k => { k with kern := k.kern.map fun q =>
      if q.cx = cx && !q.ended then { q with freeze := true } else q }
    let s := s.modCtx cx fun c => { c with core := g, status := if c.status = .running then .ready else c.status }
    let (n, s) := (s.rekey cx (shadowKey c.task)).tick
    some (s.modTask c.task fun t => { t with state := .swapped, swap := n, level := 3, place := n, since := s.taskTime t })

/-- Whether a competing task of a partition would fit a core if a context of it were idle. -/
def State.wouldFit (s : State) (part g cx : Nat) : Bool :=
  s.hub.tasks.any fun t => t.part = part && s.wants t &&
    (if t.state = .swapped then s.heldAt t = g
     else (s.coresFor t).contains g && (s.roomAt t.lrec g (some cx) []).isSome)

/-- Whether a context may be saved: it holds a task that is not stopped and does not retire. -/
def Ctx.savable (c : Ctx) : Bool := c.task ≠ 0 && c.status ≠ .idle && c.status ≠ .blocked .stopped && !c.retiring

/-- SWAP (R280): a context blocked for cr.SWAPWAIT gives way to a task that would fit. -/
def execSwap (cx : Nat) (s : State) : Res :=
  .next (let c := s.ctx cx
    let g := coreOf cx
    let due := match c.status with
      | .blocked _ => decide (c.since + usTime (s.die (dieOf g)).swapwait.toNat ≤ (s.die (dieOf g)).time)
      | _ => false
    if !resident cx || !c.savable || !due || (s.core g).halted || !s.wouldFit c.part g cx then s
    else (s.swapOut cx).getD s)

/-! ### Spill and refill (R283, R342) -/

/-- The image of a slot in one cluster (Table 19.3). -/
def CoreSt.slotImage (c : CoreSt) (cluster slot : Nat) : List Byte :=
  let k := 8 * cluster + slot
  ((List.range 4096).flatMap fun i => leBytes 8 (smGet 0 c.acc (4096 * k + i)).toNat) ++
    ((List.range 128).map fun i => smGet 127 c.fields (128 * k + i)) ++ leBytes 4 (c.tile cluster slot).toNat ++
    List.replicate 124 0

/-- A slot of one cluster restored from its image. -/
def CoreSt.putSlot (c : CoreSt) (cluster slot : Nat) (bs : List Byte) : CoreSt :=
  let k := 8 * cluster + slot
  { c with
    acc := (List.range 4096).foldl (fun m i => smPut 0 m (4096 * k + i) (BitVec.ofNat 64 (field bs (8 * i) 8))) c.acc
    fields := (List.range 128).foldl (fun m i => smPut 127 m (128 * k + i) (bs.getD (32768 + i) 0)) c.fields
    tiles := smPut 0 c.tiles k (bs.getD 32896 0)
    tileSet := smPut 0 c.tileSet k 0 }

/-- The bytes that a spill writes: the window, the local memory, and the slots by name, each cluster by cluster (R283,
R342; log 88). -/
def State.imageBytes (s : State) (cx : Nat) : List Byte :=
  let c := s.ctx cx
  let k := s.core (s.home cx)
  k.srfBytes c.winBase c.winBytes ++ k.locBytes c.locBase c.locBytes ++
    c.slots.flatMap fun p => (List.range 8).flatMap fun cl => k.slotImage cl p

/-- What a spill saves besides: the marks and line states, by offset. -/
def State.imageOf (s : State) (cx : Nat) : SpillImg :=
  let c := s.ctx cx
  let k := s.core (s.home cx)
  let cut := fun {α : Type} (b n : Nat) (m : SMap α) =>
    (m.filter fun (p : Nat × α) => decide (b ≤ p.1) && decide (p.1 < b + n)).map fun (p : Nat × α) => (p.1 - b, p.2)
  { marks := ((cut (c.winBase / 4) (c.winBytes / 4) k.srf).filter fun p => p.2.poison).map Prod.fst
    lines := cut (c.winBase / 128) (c.winBytes / 128) k.lines
    locBad := cut (c.locBase / 128) (c.locBytes / 128) k.locBad
    bytes := c.winBytes + c.locBytes + 8 * 33024 * c.slots.length
    die := dieOf (s.home cx) }

/-- A saved task put back at a place: its bytes as the save area holds them, marks and line states (R283, R342). -/
def State.refill (s : State) (f : Fit) (t : Task) (i : SpillImg) : State :=
  let base := (((s.part t.part).map Part.saveB).getD 0).toNat + ((t.savedAt.map Prod.fst).getD 0)
  let bs := s.rdMem false base i.bytes
  let w := t.lrec.winBytes
  let l := t.lrec.locBytes
  let bad := (List.range (w / 128)).filter fun k => s.bad false (base + 128 * k)
  let slots := ((List.range f.slots.length).zip f.slots).flatMap fun q => (List.range 8).map fun cl => (q.1, q.2, cl)
  s.modCore f.core fun c =>
    let c := ((c.fresh f t.lrec).putSrf f.win (bs.take w)).putLoc f.loc ((bs.drop w).take l)
    let c := i.marks.foldl (fun c k => c.markSrf (f.win + 4 * k) 4 true) c
    let c := bad.foldl (fun c k => c.markSrf (f.win + 128 * k) 128 true) c
    let c := { c with
      lines := i.lines.foldl (fun m p => smPut {} m (f.win / 128 + p.1) p.2) c.lines
      locBad := i.locBad.foldl (fun m p => smPut false m (f.loc / 128 + p.1) p.2) c.locBad }
    slots.foldl (fun c q => c.putSlot q.2.2 q.2.1 ((bs.drop (w + l + 33024 * (8 * q.1 + q.2.2))).take 33024)) c

/-- Whether an accepted command waits on a chained line (R253). -/
def State.chainWaits (s : State) (cx : Nat) (a : Active) : Bool :=
  !a.ended && ((chainedLines a.cmd.reads).any (fun w => !s.lineReady cx a.cmd w) ||
    (chainedLines a.cmd.writes).any fun w => !a.writ.contains w && !s.lineFree cx w)

/-- Whether an accepted command touches the window or the slots; one whose kernel is frozen does so no
longer. -/
def Ctx.touches (c : Ctx) (a : Active) : Bool :=
  match a.cmd.kind with
  | .krun .. => !(c.waitK ++ c.heldK).any fun k => k.num = a.cmd.num
  | .matrix .. => true
  | .tree fn _ _ _ _ => fn = 1 || fn = 2 || fn = 3 || fn = 6 || fn = 7
  | .sload _ | .sgather _ _ | .sstore _ _ | .sscatter _ _ _ | .spair _ _ => true
  | .scopy r => r.kind ≠ 0
  | _ => false

/-- The task written to the save area: its window, local memory and slots are given up; none while a
command still touches them, or where the area has no room (R283, R380). -/
def State.spillOut (s : State) (t : Task) : Option State :=
  match s.ctxOf t.id with
  | none => none
  | some cx =>
    let c := s.ctx cx
    if c.active.any c.touches then none
    else
      let i := s.imageOf cx
      match s.saveRun t.part i.bytes with
      | none => none
      | some off => some (((s.save t off (s.imageBytes cx)).modCtx cx fun c => { c with winBase := 0, winBytes := 0, locBase := 0, locBytes := 0, slots := [] }).modTask
          t.id fun x => { x with state := .spilled, spillDue := false, savedAt := some (off, i.bytes), img := some i })

/-- Whether a competing task fits nowhere now and would fit on a swapped task's core if that task were
spilled (R283). -/
def State.standsInWay (s : State) (t w : Task) : Bool :=
  let g := s.heldAt t
  w.part = t.part && w.id ≠ t.id && s.wants w && w.state ≠ .swapped && (s.rooms w).isEmpty && (s.coresFor w).contains g &&
    decide (s.levelOf w ≤ ((s.ctxOf t.id).map s.effPrio).getD 3) &&
    (s.roomAt w.lrec g (s.idleOn g).head? [t.id]).isSome

/-- The swapped tasks that may be chosen for spilling, because a competing task needs their room. -/
def State.spillable (s : State) : List Task :=
  s.hub.tasks.filter fun t => t.state = .swapped && s.hub.tasks.any (s.standsInWay t) &&
    !((s.ctxOf t.id).map fun cx => (s.ctx cx).active.any (s.chainWaits cx)).getD true

/-- SPILL (R283): a task that pre-emption has chosen, or the longest-swapped one in the way, is written to
the save area. -/
def execSpill (task : Nat) (s : State) : Res :=
  .next (match s.task task with
    | none => s
    | some t =>
      let chosen := t.state = .swapped && (t.spillDue || ((best Task.swap s.spillable).map Task.id) = some task)
      if chosen then (s.spillOut t).getD s else s)

/-- Whether a victim's place serves a task: the task fits once the victim is swapped, or the victim can be spilled, which
one with a command waiting on a chained line cannot (R281, R283). -/
def State.serves (s : State) (w : Task) (cx : Nat) : Bool :=
  !(s.ctx cx).active.any (s.chainWaits cx) || ((s.swapOut cx).any fun u => !(u.rooms w).isEmpty)

/-- The victims that a task may pre-empt, and the one taken: the largest effective priority, the most recently
placed (R281); none on a halted core (R397). -/
def State.victim (s : State) (w : Task) : Option (Task × Nat) :=
  let vs := s.hub.tasks.filterMap fun t => match s.ctxOf t.id with
    | none => none
    | some cx =>
      if t.state = .placed && t.part = w.part && t.lrec.preempt && w.lrec.dieMask.testBit (dieOf (s.home cx)) &&
         (s.ctx cx).savable && !(s.core (s.home cx)).halted && s.serves w cx && decide (s.levelOf w < s.effPrio cx) then some (t, cx) else none
  best (fun v => (3 - s.effPrio v.2) * 2 ^ 64 + (2 ^ 64 - 1 - v.1.placed)) vs

/-- PREEMPTION (R281): a competing task that fits nowhere takes a victim's place; a victim whose room it
needs too is then spilled, and no further one is taken before that is done. -/
def execPreemption (task : Nat) (s : State) : Res :=
  .next (match s.task task with
    | none => s
    | some w =>
      if !s.wants w || !(s.rooms w).isEmpty || s.hub.tasks.any (fun t => t.spillDue && t.part = w.part) then s
      else match s.victim w with
        | none => s
        | some (t, cx) => match s.swapOut cx with
          | none => s
          | some u =>
            if !(u.rooms w).isEmpty then u
            else
              if (s.saveRun t.part (s.imageOf cx).bytes).isNone then s
              else u.modTask t.id fun x => { x with spillDue := true })

/-- RESTORE (R273, R283): the task that is to be placed next, if it is a restorable one. -/
def execRestore (task : Nat) (s : State) : Res :=
  .next (match s.nextTask with
    | none => s
    | some t =>
      if t.id ≠ task || t.state = .ready then s
      else match s.choose t, s.ctxOf t.id with
        | some f, some key =>
          let s := match t.img with
            | none => s
            | some i => (s.refill f t i).modCtx key fun c => { c with
                winBase := f.win, winBytes := t.lrec.winBytes, locBase := f.loc
                locBytes := t.lrec.locBytes, slots := f.slots }
          let s := (s.modCtx key fun c => { c with core := f.core, status := .ready }).rekey key f.cx
          let (n, s) := s.tick
          s.modTask t.id fun t => { t with state := .placed, placed := n, head := none, reserv := false
                                           movedAt := none, savedAt := none, img := none }
        | _, _ => s)

/-! ### Retirement (R161, R274) and termination (R327) -/

/-- Whether an entry's answer was for a context. -/
def Who.ofCtx (cx : Nat) : Who → Bool
  | .handle c _ | .fetch c | .krun c | .ring c | .qmap c | .engine c _ _ _ _ | .kcode c _ => c = cx
  | _ => false

/-- A context's requests after it is gone: loads are dropped, and results are discarded. -/
def State.orphanReqs (s : State) (cx : Nat) : State :=
  let g := ghost (s.home cx)
  { s with reqs := s.reqs.filterMap fun r =>
      if r.cx ≠ cx then some r
      else match r.op with
        | .load .. | .line .. => none
        | .amo op _ dw b c => some { r with cx := g, op := .amo op 0 dw b c }
        | .sem op _ a v => some { r with cx := g, op := .sem op 0 a v }
        | _ => some { r with cx := g } }

/-- The instances of a launcher close. -/
def State.closeInsts (s : State) (f : Inst → Bool) : State :=
  s.modHub fun h => { h with insts := h.insts.map fun i => if f i then { i with closed := true } else i }

/-- A semaphore without a task: its ownership and its waiter entry are gone, its counter stays (R161). -/
def Sem.without (task : Nat) (m : Sem) : Sem :=
  let m := { m with waiters := m.waiters.filter fun w => w.who ≠ task }
  if m.owner = some task then { m with owner := none, ownPrio := 0 } else m

/-- A task's context, window, local memory and slots freed; its ownership records, its waiter entry, its entries'
answers and its filters go with it, and the instances that it launched close (R161, R270, R274). -/
def State.freeTask (s : State) (t : Task) (cx : Nat) : State :=
  let s := (s.unwait cx).orphanReqs cx
  let mine := fun (e : FaultEntry) =>
    e.who.ofCtx cx || e.who = .sched (.task t.id) false || e.who = .sched (.task t.id) true
  let drop := fun (k : CoreSt) => { k with
    sems := smOf {} (k.sems.map fun p => (p.1, p.2.without t.id))
    kern := k.kern.bind fun q => if q.cx = cx then none else some q
    plane := k.plane.bind fun r => if r.cx = cx then none else some r }
  let s := { s with
    faults := s.faults.map fun e => if mine e then { e with who := .nobody } else e
    filters := s.filters.filter fun f => f.cx ≠ cx
    cores := s.cores.map fun (p : Nat × CoreSt) => (p.1, drop p.2) }
  (((s.setCtx cx {}).modHub fun h => { h with tasks := h.tasks.filter fun u => u.id ≠ t.id }).closeInsts
    fun i => i.task = some t.id).freeInsts

/-- The completion action: an addition as SEM.POST makes it, without its release (R272). -/
def State.completionAction (s : State) (part home : Nat) (r : LaunchRec) : State :=
  if r.actVal = 0 then s
  else match semAddr s part r.actSem with
    | none => s
    | some (.here g i) => s.semBump g i (BitVec.ofInt 32 r.actVal)
    | some (.there a) => semReq s (ghost home) .post 0 a (BitVec.ofInt 32 r.actVal)

/-- The successors of a task released in the order of its list (R271). -/
def State.releaseSuccs (s : State) (t : Task) (cx : Nat) : State :=
  match t.inst with
  | none => s
  | some i => t.succ.foldl (fun s k => s.releaseOne i (some cx) t.part t.pasid k) s

/-- The task of a context ends: its resources are freed, its successors are released and its action taken if it retires,
and last the arenas that it alone bound are released (R274). Releases report under the context's name. -/
def State.endTask (s : State) (t : Task) (cx : Nat) (normal : Bool) : State :=
  let home := s.home cx
  let s := if normal then s.releaseSuccs t cx else s
  let s := s.freeTask t cx
  let s := if normal then s.completionAction t.part home t.lrec else s
  s.releaseFree (dieOf home)

/-- TASK_RETIREMENT (R274): a retiring task's resources are freed, successors released and action taken. -/
def execTaskRetirement (cx : Nat) (s : State) : Res :=
  .next (let c := s.ctx cx
    match s.task c.task with
    | none => s
    | some t => if !c.retiring || !c.finished then s else s.endTask t cx true)

/-- A task ended by the firmware: its kernels end, its commands are gone, and nothing is released (R327). -/
def State.terminate (s : State) (t : Task) : State :=
  match s.ctxOf t.id with
  | none => ((s.modHub fun h => { h with tasks := h.tasks.filter fun u => u.id ≠ t.id }).closeInsts
      fun i => i.task = some t.id).freeInsts
  | some cx =>
    let u := s.endAllHeld cx
    let locks := (u.lockedPairs cx).flatMap fun p => p.2.map fun r => r.phys / 128
    let u := { u with locks := u.locks.filter fun l => !locks.contains l
                      reqs := u.reqs.filter fun r => r.cx ≠ cx || (match r.op with
                        | .pair .. | .lineSt .. | .reduce .. | .flagStore .. => false
                        | _ => true) }
    u.endTask t cx false

/-! ### User queues (R270, R288, R289) -/

/-- A kick of a queue that is not mapped reaches its saved state: the tail, and the latch beside what stands there
(R289, R383). -/
def State.latchKick (s : State) (host : Bool) (desc tail : Nat) : State :=
  let w := s.rdNum host (desc + 40) 4
  s.wrPlace host (desc + 36) (leBytes 4 tail ++ leBytes 4 (w ||| 1))

/-- KICK (R288, R289): the latest tail of a queue; one that is not a legal distance ahead places the queue in
error, and a queue that is not mapped keeps it with its latch set. -/
def execKick (q : Nat) (tail : BitVec 32) (s : State) : Res :=
  .next (match s.hub.queues.find? fun u => u.num = q && u.slot.isSome with
    | some u =>
      let d := (tail.toNat + 2 ^ 32 - u.head) % 2 ^ 32
      let t := s.modHub fun h => { h with queues := h.queues.map fun x => if x.num = q then { x with tail := tail.toNat } else x }
      if !u.error && decide (u.size < d) then t.queueError q else t
    | none =>
      let t := s.modHub fun h => { h with kicks := smPut none h.kicks q (some tail.toNat) }
      match s.hub.queues.find? fun u => u.num = q with
      | none => t
      | some u => (t.modHub fun h => { h with queues := h.queues.map fun x =>
          if x.num = q then { x with tail := tail.toNat } else x }).latchKick u.dhost u.desc tail.toNat)

/-- QUEUE_DESTROYED (R270): a user queue is destroyed, closing every open graph instance that it launched. -/
def execQueueDestroyed (q : Nat) (s : State) : Res :=
  .next ((((s.forgetQueue q).modHub fun h => { h with
    queues := h.queues.filter fun u => u.num ≠ q
    kicks := smPut none h.kicks q none }).closeInsts fun i => i.queue = some q).freeInsts)

end Sys2Proof.Machine
end

