-- ==== Sys2Proof/Machine/Host.lean ====
section
/-!
DEFINITION. Acceptance and completion of engine commands (R20, R141), the answers to fault entries (R317),
shootdowns by the hub (R319, R320), the fault ring (R381) and the driver's requests (Table 24.3).
-/

namespace Sys2Proof.Machine

open Sys2Proof

/-! ### Acceptance (R20) -/

/-- A command moves from its queue into its engine, where it holds its chained read lines (R20, R250). -/
def State.takeCmd (s : State) (cx : Nat) (k : Cmd) (linked : Bool) : State :=
  let a : Active := { cmd := k, ord := s.hub.tick, linked := linked, at_ := s.now }
  ((s.modCtx cx fun c => { c with
    posted := c.posted.filter (fun j => j.queue ≠ k.queue || j.num ≠ k.num)
    active := c.active ++ [a] }).modHub fun h => { h with tick := h.tick + 1 }).holdLines cx k

/-- The entry that a care or prefetch command waits on, by its line. -/
def State.cmdFault (s : State) (cx : Nat) (q : Queue) (num line : Nat) : Option FaultEntry :=
  s.faults.find? fun e => e.who = .engine cx q num 0 line

/-- What a prefetch reads: its entry, then the packets of the image in the image's 4 KiB page (R153). A failed
translation parks it, and a refusal ends it with no effect. -/
def State.prefetch (s : State) (cx num : Nat) (va : Word) : State :=
  let g := s.home cx
  let c := s.ctx cx
  let fin := fun (t : State) => t.modActive cx .krn num fun a => { a with ended := true }
  let park := fun (t : State) (v : Word) (e : Nat) =>
    if t.faultRoom (dieOf g) then
      t.addFault (some cx) { faultBase (dieOf g) v 5 e 3 0 (.engine cx .krn num 0 0) with read := true }
    else t
  let entry := s.cmdFault cx .krn num 0
  let t := { s with faults := s.faults.filter fun x => entry.all fun y => x.id ≠ y.id }
  if s.stopped cx then s
  else match entry.map FaultEntry.answer with
  | some none => s
  | some (some false) => fin t
  | _ => match t.readWords true 8 g c.part c.pasid 1 va with
    | (.held, u) => u
    | (.fault v e, u) => park u v e
    | (.ok xs, u) =>
      let e := xs.headD 0
      if e < 2 ^ 63 then fin u
      else
        let image := Machine.imageOf e
        match u.prefetchPackets g c.part c.pasid image (image.toNat / 4096 * 4096 + 4096) 1024 1024 image with
        | (w, none, false) => fin w
        | (w, none, true) => w
        | (w, some (v, e), _) => park w v e

/-- Whether a prefetch of a context stands parked in the KRN engine. -/
def State.krnParked (s : State) (cx : Nat) : Bool :=
  (s.ctx cx).active.any fun a => a.cmd.queue = .krn && (s.cmdFault cx .krn a.cmd.num 0).isSome

/-- A kernel command accepted: a KRUN whose waits are over empties its chained lines, a prefetch reads. -/
def State.acceptKernel (s : State) (cx : Nat) (k : Cmd) : State :=
  let t := s.takeCmd cx k true
  match k.kind with
  | .prefetch va => t.prefetch cx k.num va
  | _ => if t.mustWait cx k then t
    else (t.emptyLines cx k).modActive cx .krn k.num fun b => { b with started := true }

/-- The flag stores of a context to the bytes at a place that have not performed. -/
def State.flagsAt (s : State) (cx : Nat) (host : Bool) (a n : Nat) : List Nat :=
  (s.reqs.filter fun r => r.cx = cx && r.host = host && decide (r.phys < a + n) && decide (a < r.phys + r.op.size) &&
    (match r.op with
     | .flagStore .. => true
     | _ => false)).map Req.id

/-- A REM command accepted: a flag store becomes a request that follows what it covers, and the earlier flag
stores to its bytes (R129, R295). -/
def State.acceptRem (s : State) (cx : Nat) (k : Cmd) : State :=
  let t := s.takeCmd cx k true
  match k.kind with
  | .flag va phys host n v p _ cov z =>
    (t.modActive cx .rem k.num fun b => { b with started := true }).addReq
      (newReq t cx (.flagStore (leBytes n v.toNat) p k.num) va host phys (cov ++ t.flagsAt cx host phys n) z)
  | _ => t

/-- The plane engine takes one command of a context a turn, round-robin across the contexts that have one; its window
holds 32 (R337). A command takes links if the table of 48 has a free one for each predecessor (R339); one without a
predecessor needs a free link as well (Table 19.2; log 142). -/
def State.acceptMat (s : State) (cx : Nat) (k : Cmd) : State :=
  let g := coreOf cx
  let asks := (ctxsOf g).filter fun c => !s.stopped c && !((s.ctx c).waiting .mat).isEmpty
  let had := (s.core g).matTurn
  let round := asks.all had.contains
  if 32 ≤ (s.window g).length || had.contains cx && !round then s
  else (s.takeCmd cx k (decide (s.linksUsed g + max 1 (s.livePreds cx k).length ≤ 48))).modCore g fun c =>
    { c with matTurn := cx :: if round then [] else had }

/-- ENGINE_ACCEPT (R20): an engine accepts the oldest command of a queue. The tree engine of a die holds 64
commands. -/
def execEngineAccept (cx : Nat) (q : Queue) (s : State) : Res :=
  .next (if !resident cx || s.stopped cx then s
    else match (s.ctx cx).waiting q with
      | [] => s
      | k :: _ => match q with
        | .sld => s.acceptStream cx k
        | .sst => s.acceptStream cx k
        | .krn => if s.krnParked cx then s else s.acceptKernel cx k
        | .mat => s.acceptMat cx k
        | .tre => if 64 ≤ (s.treeCmds (dieOf (coreOf cx))).length then s else s.takeCmd cx k true
        | .rem => s.acceptRem cx k)

/-! ### Completion (R141) -/

/-- An accepted command completes if it has come to its end. -/
def State.tryClose (s : State) (cx : Nat) (a : Active) : State :=
  match a.cmd.kind with
  | .sload _ => s.closeStream cx a.cmd.queue a.cmd.num
  | .sgather _ _ => s.closeStream cx a.cmd.queue a.cmd.num
  | .sstore _ _ => s.closeStream cx a.cmd.queue a.cmd.num
  | .sscatter _ _ _ => s.closeStream cx a.cmd.queue a.cmd.num
  | .spair _ _ => s.closeStream cx a.cmd.queue a.cmd.num
  | .scopy _ => s.closeStream cx a.cmd.queue a.cmd.num
  | .krun _ _ => if a.ended then s.closeKrun cx a.cmd.num else s
  | .tree _ _ _ _ _ => s.closeTree cx a
  | .prefetch va => if a.ended then s.finish cx a.cmd { done := 1, total := 1 } else s.prefetch cx a.cmd.num va
  | .matrix _ _ _ _ _ _ _ => s
  | .mrout _ _ _ _ => s
  | _ => if a.ended then s.finish cx a.cmd { done := 1, total := 1 } else s

/-- ENGINE_COMMAND_COMPLETE (R141): the commands of a queue that have come to their end complete, write
their records and advance the milestone. -/
def execEngineCommandComplete (cx : Nat) (q : Queue) (s : State) : Res :=
  .next (((s.ctx cx).active.filter fun a => a.cmd.queue = q).foldl (fun t a => t.tryClose cx a) s)

/-! ### Page requests and their answers (R309, R310, R314, R317) -/

def State.fault (s : State) (entry : Nat) : Option FaultEntry := s.faults.find? fun e => e.id = entry

def State.modFault (s : State) (entry : Nat) (f : FaultEntry → FaultEntry) : State :=
  { s with faults := s.faults.map fun e => if e.id = entry then f e else e }

/-- PRI_PAGE_REQUEST (R317): the hub forwards an entry as a PRI Page Request, with at most as many groups outstanding as
the host's allocation allows, up to 512. -/
def execPriPageRequest (entry : Nat) (s : State) : Res :=
  .next (match s.fault entry with
    | none => s
    | some e =>
      if e.info || e.sent || e.answer.isSome || !s.hub.pri ||
         decide (Nat.min 512 s.hub.priMax ≤ (s.faults.filter fun x => x.sent && x.answer.isNone).length) then s
      else s.modFault entry fun e => { e with sent := true })

/-- The answer reaches a handle that is still FAULTED by this entry (R309, R310). -/
def State.answerHandle (s : State) (e : FaultEntry) (cx n : Nat) (ok : Bool) : State :=
  let h := (s.ctx cx).handle n
  if h.state ≠ .faulted || s.faults.any (fun x => x.who = e.who && decide (e.id < x.id)) then s
  else s.modCtx cx fun c => c.setHandle n
    (if ok then { h with state := .pending, walk := true } else { h with state := .refused })

/-- A forwarded entry is answered: engines and the scheduler find the answer in it, everyone else's is
delivered and the entry freed (R314, R317). -/
def State.answer (s : State) (entry : Nat) (ok : Bool) : State :=
  match s.fault entry with
  | none => s
  | some e =>
    if !e.sent || e.answer.isSome then s
    else
      let t := { s with faults := s.faults.filter fun x => x.id ≠ entry }
      let refuse := fun (cx : Nat) (r : Refused) => if ok then t else t.modCtx cx fun c => { c with refused := some r }
      match e.who with
      | .nobody => t
      | .handle cx n => t.answerHandle e cx n ok
      | .fetch cx => refuse cx (.fetch e.va)
      | .krun cx => refuse cx (.krun e.va)
      | .ring cx => refuse cx (.launch e.va)
      | .qmap cx => refuse cx (.qmap e.va)
      | .engine _ _ _ _ _ => s.modFault entry fun e => { e with answer := some ok }
      | .kcode .. => s.modFault entry fun e => { e with answer := some ok }
      | .sched _ _ => s.modFault entry fun e => { e with answer := some ok }
      | .arena .. => s.modFault entry fun e => { e with answer := some ok }

/-- PRG_RESPONSE_SUCCESS (R317): the requester tries its translation again. -/
def execPrgResponseSuccess (entry : Nat) (s : State) : Res := .next (s.answer entry true)

/-- PRG_RESPONSE_INVALID (R317): the entry is refused. -/
def execPrgResponseInvalid (entry : Nat) (s : State) : Res := .next (s.answer entry false)

/-- PRG_RESPONSE_FAILURE (R317): the entry is refused, and the hub sends no page request until PRI is
enabled again. -/
def execPrgResponseFailure (entry : Nat) (s : State) : Res :=
  .next (match s.fault entry with
    | none => s
    | some e => if e.sent && e.answer.isNone then (s.answer entry false).modHub fun h => { h with pri := false } else s)

/-- PRI_ENABLE (R317): the hub sends page requests again, within the allocation that the host has then programmed, which
the event does not name (log 163). -/
def execPriEnable (s : State) : Res :=
  .next (let (w, t) := s.takeFree
    t.modHub fun h => { h with pri := true, priMax := w.toNat % 513 })

/-! ### Shootdowns by the hub (R319, R320) -/

/-- ATS_INVALIDATE_REQUEST (R320): the hub marks the range, once a slot is free. -/
def execAtsInvalidateRequest (pasid : BitVec 20) (va : Word) (pages : BitVec 32) (s : State) : Res :=
  .next (match s.hub.freeToken with
    | none => s
    | some n => s.markToken n pasid (alignDown va.toNat 4096) pages.toNat true)

/-- Whether a migration waits on a token (R322). -/
def State.migrating (s : State) (slot : Nat) : Bool :=
  s.ctxs.any fun p => p.2.active.any fun a => a.token = some slot

/-- TOKEN_AUTO_CONFIRM (R319, R320): the hub confirms a token of its own, and a driver's token that has stood
for 1 ms, once the requests under it have performed; the host gets its Invalidate Completion. -/
def execTokenAutoConfirm (slot : Nat) (s : State) : Res :=
  .next (match smGet none s.hub.tokens slot with
    | none => s
    | some k =>
      if !s.tokenDone k || s.migrating slot then s
      else if k.auto then (s.confirmToken slot).modHub fun h => { h with atsDone := h.atsDone + 1 }
      else if k.at_ + usTime 1000 ≤ (s.die 0).time then s.confirmToken slot
      else s)

/-! ### The fault ring (R381) -/

/-- An entry as the driver reads it (Table 16.2). -/
def FaultEntry.bytes (e : FaultEntry) (pass : Bool) : List Byte :=
  leBytes 8 e.va.toNat ++ leBytes 4 e.task.toNat ++ leBytes 4 e.pasid.toNat ++ leBytes 4 e.seq ++
  [BitVec.ofNat 8 e.kind, BitVec.ofNat 8 e.sub, BitVec.ofNat 8 e.engine,
   BitVec.ofNat 8 ((if e.read then 1 else 0) + (if e.write then 2 else 0) + (if e.atomic then 4 else 0) +
     (if e.exec then 8 else 0) + if e.info then 128 else 0),
   BitVec.ofNat 8 e.core, BitVec.ofNat 8 e.ctx, BitVec.ofNat 8 e.part, if pass then 1 else 0] ++ leBytes 4 e.aux

/-- FAULT_RING_COPY (R315, R381): the die's oldest entry that is not in the ring yet is copied to its next
slot, unless the ring is full; an informational entry is then freed. -/
def execFaultRingCopy (die : Nat) (s : State) : Res :=
  .next (match s.faults.find? fun e => e.die = die && !e.copied with
    | none => s
    | some e =>
      let h := s.hub
      if h.fents = 0 || (h.fnext + 1) % h.fents = h.fhead then s
      else
        let (host, a) := s.resolve true (h.fring + 32 * h.fnext)
        if s.shut host a 32 then s.rouse host a
        else
        let t := (s.wrPlace host a (e.bytes h.fpass)).modHub fun h => { h with
          fnext := (h.fnext + 1) % h.fents
          fpass := if h.fnext + 1 = h.fents then !h.fpass else h.fpass }
        if e.info then { t with faults := t.faults.filter fun x => x.id ≠ e.id }
        else t.modFault e.id fun x => { x with copied := true })

/-- FHEAD_WRITE (R381): the driver reports the slot that it reads next. -/
def execFheadWrite (v : BitVec 32) (s : State) : Res :=
  .next (s.modHub fun h => { h with fhead := v.toNat % h.fents })

/-! ### The driver's requests (R287, R300, R377, R379 to R382) -/

/-- A write of the driver to MREQ: the address of a record, behind those written before it (R379). -/
def State.writeMreq (s : State) (v : Word) : State := s.modHub fun h => { h with mreq := h.mreq ++ [v] }

/-- A request of the driver (Table 24.2): once the package is ready the firmware performs the oldest record written to
MREQ, writes its status and raises MSI-X vector 0. The event takes the record that holds its code and its operands, given
as offset, bytes and value; a record of another request has no effect here. A code of no request, a partition or a zero
field outside its rules, or operands that the request refuses get status 1; which request a mode does not permit is not
stated (R379, R400; log 143). -/
def State.request (s : State) (code : Nat) (ops : List (Nat × Nat × Nat)) (f : State → Nat → List Byte → Option State) :
    State :=
  match s.hub.mreq with
  | [] => s
  | w :: ws =>
    if s.hub.hstatus % 4 ≠ 2 then s
    else
      let (h, a) := s.resolve true w.toNat
      if s.shut h a 64 then s.rouse h a
      else
      let (bs, t) := s.rdPlace h a 64
      let c := field bs 0 2
      let ours := c = code && ops.all fun (o, n, v) => field bs o n = v
      if decide (1 ≤ c) && decide (c ≤ 8) && !ours then s
      else
        let r := if ours && decide (field bs 2 1 < 16) && field bs 3 1 = 0 then f t (field bs 2 1) (bs.drop 8) else none
        ((r.getD t).wrPlace h (a + 4) (leBytes 4 (if r.isSome then 0 else 1))).modHub fun h => { h with
          msix := h.msix ++ [0], mreq := ws }

/-- Whether the bytes of a record's operands from an offset on are zero. -/
def zeroFrom (n : Nat) (o : List Byte) : Bool := (o.drop n).all (· = 0)

/-- PART.CREATE (R287): cores that belong to no partition, a key slot and a domain tag that no other partition carries;
the partition gets an attestation identity of its own, which the manual does not give. -/
def State.partCreate (s : State) (part : Nat) (o : List Byte) : Option State :=
  let taken := s.hub.parts.filterMap Prod.snd
  let mask := field o 0 12
  let cores := (List.range 96).filter mask.testBit
  let key := field o 12 1
  let tag := BitVec.ofNat 8 (field o 13 1)
  if (s.part part).isSome || cores.any (fun g => taken.any fun p => p.cores.contains g) || decide (16 ≤ key) ||
     (tag ≠ 0 && taken.any fun p => p.tag = tag) || !zeroFrom 14 o then none
  else
    let (w, t) := s.takeFree
    some (t.modHub fun h => { h with
      parts := smPut none h.parts part (some { cores := cores, key := BitVec.ofNat 4 key, tag := tag, ident := w.toNat })
      keySlots := (key :: h.keySlots).eraseDups
      waymarks := h.waymarks.filter fun w => w.1 / 256 ≠ part })

/-- A partition gone: its tasks ended, its queues unmapped, its cores free. -/
def State.dropPart (s : State) (part : Nat) : State :=
  let s := (s.hub.tasks.filter fun t => t.part = part).foldl State.terminate s
  let s := ((s.hub.queues.filter fun q => q.part = part).filterMap UQueue.slot).foldl State.unmapSlot s
  s.modHub fun h => { h with
    parts := smPut none h.parts part none
    insts := h.insts.filter fun i => i.part ≠ part
    waymarks := h.waymarks.filter fun w => w.1 / 256 ≠ part }

/-- PART.DESTROY (Table 24.3): every task of the partition ends, and its cores are freed. -/
def State.partDestroy (s : State) (part : Nat) (o : List Byte) : Option State :=
  if (s.part part).isSome && zeroFrom 0 o then some (s.dropPart part) else none

/-- The bits of a device entry, and of a host entry, that are written (Table 14.3). -/
def amapMask : Word := 0x000FFFCC00000000
def hmapMask : Word := 0x000F001400000000

/-- A granule's migration state is retired. -/
def State.retired (s : State) (gran : Nat) : Bool := s.amapEntry (gran * 2 ^ 21) >>> 38 &&& 3 = 3

/-- A row under request leaves the hot list once the driver has retired its pages (R393). -/
def State.retireRows (s : State) : State :=
  (List.range 4).foldl (fun s d => s.modDie d fun k => { k with
    hot := k.hot.filter fun h => !(h.2.req && (Config.rowGrans d h.1 h.2.row).all s.retired) }) s

/-- AMAP.WRITE (R300): an entry of the attribute map. The host section holds 4,096 entries, and a host entry
with another field set is refused. -/
def State.amapWrite (s : State) (_part : Nat) (o : List Byte) : Option State :=
  let g := field o 0 4 % 2 ^ 31
  let entry := BitVec.ofNat 64 (field o 8 8)
  if field o 4 4 ≠ 0 || !zeroFrom 16 o then none
  else if 2 ^ 31 ≤ field o 0 4 then
    let m := smPut 0 s.hub.hmap g entry
    if entry &&& ~~~hmapMask ≠ 0 || decide (4096 < m.length) then none
    else some (s.modHub fun h => { h with hmap := m })
  else if !s.own (g * 2 ^ 21) || decide (dieBytes ≤ physOff (g * 2 ^ 21)) then none
  else some (s.modHub fun h => { h with amap := smPut 0 h.amap (g % 2 ^ 27) (entry &&& amapMask) }).retireRows

/-- PASID.SET (R377): a PASID's mode and table root, aligned to 4 KiB. -/
def State.pasidSet (s : State) (_part : Nat) (o : List Byte) : Option State :=
  let p := field o 0 4
  let root := field o 8 8
  if 2 ^ 20 ≤ p || 3 ≤ field o 4 4 || root % 4096 ≠ 0 || !zeroFrom 16 o then none
  else
    let mode : PasidMode := if field o 4 4 = 0 then .none else if field o 4 4 = 1 then .walk else .ats
    some (s.modHub fun h => { h with
      pasids := smPut {} h.pasids p { smGet {} h.pasids p with mode := mode, root := BitVec.ofNat 64 root } })

/-- SAVE.SET (Table 24.3): a partition's save area, its base aligned to 4 KiB. -/
def State.saveSet (s : State) (part : Nat) (o : List Byte) : Option State :=
  match s.part part with
  | none => none
  | some p =>
    if field o 0 8 % 4096 ≠ 0 || !zeroFrom 16 o then none
    else some (s.modHub fun h => { h with
      parts := smPut none h.parts part (some { p with saveB := BitVec.ofNat 64 (field o 0 8), saveN := field o 8 8 }) })

/-- QUEUE.PRIV (R382): the queue of a descriptor in host memory is mapped for privileged tasks. -/
def State.queuePriv (s : State) (part : Nat) (o : List Byte) : Option State :=
  if (s.part part).isNone || field o 0 8 % 64 ≠ 0 || decide (63 < field o 8 8) || !zeroFrom 16 o then none
  else
    let (h, a) := s.resolve true (field o 0 8)
    some (s.mapQueue part true h a (field o 8 8))

/-- Whether a context's task is stopped, or parked: at a failed fetch or entry read, at a FAULTED handle, or in SEM.WAIT or
SEM.ACQ (R148, R327, R389). A task that runs while an engine queue of it is parked is none of these (DESIGN CHOICE,
log 157). -/
def Ctx.endable (c : Ctx) : Bool :=
  match c.status with
  | .blocked .stopped | .blocked (.fault _) | .blocked (.sem _ _) => true
  | .blocked (.handle h) => (c.handle h).state = .faulted
  | _ => false

/-- TASK.END (R327): cr.TASKID of a stopped or parked task of the partition. -/
def State.taskEnd (s : State) (part : Nat) (o : List Byte) : Option State :=
  if !zeroFrom 4 o then none
  else match s.ctxs.find? fun p => p.2.task ≠ 0 && p.2.part = part && p.2.taskId.toNat = field o 0 4 with
    | none => none
    | some (_, c) => if c.endable then (s.task c.task).map s.terminate else none

/-- FRING.SET (R381): the fault ring's base, aligned to 4 KiB, and its entries, a power of two from 64 to
65,536. -/
def State.fringSet (s : State) (_part : Nat) (o : List Byte) : Option State :=
  let n := field o 8 8
  if field o 0 8 % 4096 ≠ 0 || n < 64 || 65536 < n || n &&& (n - 1) ≠ 0 || !zeroFrom 16 o then none
  else some (s.modHub fun h => { h with fring := field o 0 8, fents := n, fnext := 0, fpass := true, fhead := 0 })

/-- PART_CREATE (R287, R379). -/
def execPartCreate (part : Byte) (cores : BitVec 96) (key tag : Byte) (s : State) : Res :=
  .next (s.request 1 [(2, 1, part.toNat), (8, 12, cores.toNat), (20, 1, key.toNat), (21, 1, tag.toNat)] State.partCreate)

/-- PART_DESTROY (R379). -/
def execPartDestroy (part : Byte) (s : State) : Res := .next (s.request 2 [(2, 1, part.toNat)] State.partDestroy)

/-- AMAP_WRITE (R300, R379). -/
def execAmapWrite (host : Bool) (granule : BitVec 31) (entry : Word) (s : State) : Res :=
  .next (s.request 3 [(8, 4, (if host then 2 ^ 31 else 0) + granule.toNat), (16, 8, entry.toNat)] State.amapWrite)

/-- PASID_SET (R377, R379). -/
def execPasidSet (pasid mode : BitVec 32) (root : Word) (s : State) : Res :=
  .next (s.request 4 [(8, 4, pasid.toNat), (12, 4, mode.toNat), (16, 8, root.toNat)] State.pasidSet)

/-- SAVE_SET (R379). -/
def execSaveSet (part : Byte) (base bytes : Word) (s : State) : Res :=
  .next (s.request 5 [(2, 1, part.toNat), (8, 8, base.toNat), (16, 8, bytes.toNat)] State.saveSet)

/-- QUEUE_PRIV (R379, R382). -/
def execQueuePriv (part : Byte) (desc slot : Word) (s : State) : Res :=
  .next (s.request 6 [(2, 1, part.toNat), (8, 8, desc.toNat), (16, 8, slot.toNat)] State.queuePriv)

/-- TASK_END (R327, R379). -/
def execTaskEnd (part : Byte) (taskId : BitVec 32) (s : State) : Res :=
  .next (s.request 7 [(2, 1, part.toNat), (8, 4, taskId.toNat)] State.taskEnd)

/-- FRING_SET (R379, R381). -/
def execFringSet (base entries : Word) (s : State) : Res :=
  .next (s.request 8 [(8, 8, base.toNat), (16, 8, entries.toNat)] State.fringSet)

end Sys2Proof.Machine
end

