-- ==== Sys2Proof/Machine/Care.lean ====
section
/-!
DEFINITION. Page migration (R321 to R323), scrubbing and patrol (R392 to R394), retraining (R266, R333), power
states (R396), security modes and debug (R395, R397), the configuration record, attestation and boot (R398 to
R400).
-/

namespace Sys2Proof.Machine

open Sys2Proof

/-! ### Records of the SST engine -/

/-- What a translation for a care command gives: it waits, it is refused, or a place. -/
inductive CareRd where
  | wait (s : State)
  | refused (s : State)
  | at_ (host : Bool) (a : Nat) (s : State)

/-- A translation for a care command of the SST queue, for bytes of one line; a failure parks it with an entry, and a
refusal ends its wait (R314). A place in a die in C3 or under a pair's lock waits (R350, R396). -/
def State.carePlace (s : State) (cx num line : Nat) (va : Word) (w : Bool) : CareRd :=
  let entry := s.cmdFault cx .sst num line
  let t := { s with faults := s.faults.filter fun x => entry.all fun y => x.id ≠ y.id }
  match entry.map FaultEntry.answer with
  | some none => .wait s
  | some (some false) => .refused t
  | _ => match t.xlateFor cx va true w with
    | (.held, u) => .wait (t.heard u)
    | (.hit p, u) =>
      let (h, a) := u.placeOf p va
      if u.shut h a 1 then .wait (u.rouse h a) else .at_ h a u
    | (.fault e, u) =>
      let die := dieOf (u.home cx)
      .wait (if u.faultRoom die then
        u.addFault (some cx) { faultBase die va 5 e 2 0 (.engine cx .sst num 0 line) with read := true, write := w }
      else t)

/-- The oldest command of a kind that a context's SST engine holds and that has not ended. -/
def State.careCmd (s : State) (cx : Nat) (p : CmdKind → Bool) : Option Active :=
  if s.stopped cx then none else (s.ctx cx).active.find? fun a => a.cmd.queue = .sst && !a.ended && p a.cmd.kind

/-- The address of a care command's record. -/
def CmdKind.careVa : CmdKind → Word
  | .migrate va => va
  | .scrub va => va
  | _ => 0

/-- The bytes of the record that a command has read. -/
def Active.record (a : Active) : List Byte := (a.stage.map Stage.bytes).headD []

/-- A record kept by its command. -/
def Active.keep (a : Active) (bs : List Byte) : Active := { a with started := true, stage := [⟨0, 0, bs, false⟩] }

/-- The phase of a care command that has only its record's fields left to write, and the key of that write's entry. -/
def closing : Nat := 9
def recordLine : Nat := 2 ^ 32

/-- A care command writes the engine-written fields of its record, given by offset, at the place to which the record's
address leads now, and ends; refused, it ends without them (R314, R318). -/
def State.wrRecord (s : State) (cx : Nat) (a : Active) (fields : List (Nat × List Byte)) : State :=
  let fin := fun (t : State) => t.modActive cx .sst a.cmd.num fun b => { b with ended := true }
  match s.carePlace cx a.cmd.num recordLine a.cmd.kind.careVa true with
  | .wait t => t
  | .refused t => fin t
  | .at_ h p t => fin (fields.foldl (fun t f => t.wrPlace h (p + f.1) f.2) t)

/-! ### Migration (R321, R322) -/

/-- A migration record's fields (Table 16.6). -/
structure MigRec where
  src   : Nat
  dst   : Nat
  va    : Word
  pte   : Nat
  new   : Word
  pasid : BitVec 20
  bytes : Nat

/-- The page size of a code. -/
def migBytes (z : Nat) : Nat := if z = 0 then 4096 else if z = 1 then 65536 else 2 ^ 21

def migRec (bs : List Byte) : MigRec :=
  { src := field bs 0 8, dst := field bs 8 8, va := BitVec.ofNat 64 (field bs 16 8), pte := field bs 24 8
    new := BitVec.ofNat 64 (field bs 32 8), pasid := BitVec.ofNat 20 (field bs 40 4), bytes := migBytes (field bs 44 1) }

/-- Whether n bytes from a device address on lie in this package's memory. -/
def State.backed (s : State) (a n : Nat) : Bool :=
  decide (a < 2 ^ 51) && s.own a && decide (physOff a + n ≤ dieBytes)

/-- A record's fields within their rules. -/
def migOk (s : State) (bs : List Byte) : Bool :=
  let r := migRec bs
  field bs 44 1 < 3 && r.src % r.bytes = 0 && r.dst % r.bytes = 0 && r.va.toNat % r.bytes = 0 && r.pte % 8 = 0 &&
  (decide (r.src + r.bytes ≤ r.dst) || decide (r.dst + r.bytes ≤ r.src)) &&
  s.backed r.src r.bytes && s.backed r.dst r.bytes && s.backed r.pte 8 &&
  field bs 40 4 < 2 ^ 20 && field bs 45 3 = 0 && field bs 50 2 = 0 && field bs 56 8 = 0

/-- The migration field of a granule (Table 14.3). -/
def State.setMigr (s : State) (a m : Nat) : State :=
  let k := a % 2 ^ 48 / 2 ^ 21
  s.modHub fun h => { h with
    amap := smPut 0 h.amap k ((smGet 0 h.amap k &&& ~~~0xC000000000#64) ||| BitVec.ofNat 64 (m * 2 ^ 38)) }

/-- The dirty filter of a command. -/
def State.filterOf (s : State) (cx num : Nat) : List Nat :=
  ((s.filters.find? fun f => f.cx = cx && f.num = num).map Filter.parts).getD []

def State.setFilter (s : State) (cx num : Nat) (f : Option Filter) : State :=
  { s with filters := (s.filters.filter fun f => !(f.cx = cx && f.num = num)) ++ f.toList }

/-- The lines of some 512-byte parts of a page. -/
def partLines (parts : List Nat) : List Nat := parts.flatMap fun i => [4 * i, 4 * i + 1, 4 * i + 2, 4 * i + 3]

/-- The next line of those that a command has yet to copy, in `writ`: read in a slot 31 of its source's channel and kept,
its poison mark with it, then written in one of the destination's (R266, R322). -/
def State.copyLine (s : State) (cx : Nat) (a : Active) (r : MigRec) : State :=
  match a.stage, a.writ with
  | x :: [], l :: ls =>
    let src := r.src + 128 * l
    if !s.slot31 src then s.rouse false src
    else
      let t := s.eccLine src
      let bad := t.bad false src
      (t.useCh (t.dieAt src) (t.channelOf src)).modActive cx .sst a.cmd.num fun b => { b with
        stage := [x, ⟨2, l, t.rdMem false src 128, bad⟩]
        writ := ls
        flags := if bad then b.flags ||| 32 else b.flags }
  | x :: y :: _, _ =>
    let dst := r.dst + 128 * y.line
    if !s.slot31 dst then s.rouse false dst
    else (((s.useCh (s.dieAt dst) (s.channelOf dst)).wrMem false dst y.bytes).mark false dst y.poison).modActive cx .sst a.cmd.num
      fun b => { b with stage := [x] }
  | _, _ => s

/-- Whether a command has lines left to copy. -/
def Active.copying (a : Active) : Bool := a.writ ≠ [] || decide (1 < a.stage.length)

/-- The engine-written fields of a migration record (Table 16.6). -/
def State.migWrite (s : State) (cx : Nat) (a : Active) : State :=
  let (status, rounds, dirty) := a.fail.getD (0, 0, 0)
  s.wrRecord cx a [(48, leBytes 1 status ++ leBytes 1 rounds), (52, leBytes 4 dirty.toNat)]

/-- A migration ends: it has only its record's engine-written fields left to write. -/
def State.migEnd (s : State) (cx : Nat) (a : Active) (status rounds dirty : Nat) : State :=
  let b := { a with phase := closing, fail := some (status, rounds, BitVec.ofNat 64 dirty) }
  (s.modActive cx .sst a.cmd.num fun _ => b).migWrite cx b

/-- A migration's first step: its record is read and checked, its filter armed, and every part is to be copied. -/
def State.migStart (s : State) (cx : Nat) (a : Active) (va : Word) : State :=
  match s.carePlace cx a.cmd.num 0 va true with
  | .wait t => t
  | .refused t => t.modActive cx .sst a.cmd.num fun b => { b with ended := true }
  | .at_ h p t =>
    let (bs, t) := t.rdPlace h p 64
    let b := a.keep bs
    let t := t.modActive cx .sst a.cmd.num fun _ => b
    if !migOk t bs then t.migEnd cx b 3 0 0
    else
      let r := migRec bs
      let t := (t.setMigr r.src 1).setFilter cx a.cmd.num (some ⟨cx, a.cmd.num, r.src, r.bytes, []⟩)
      t.modActive cx .sst a.cmd.num fun b => { b with phase := 1, writ := List.range (r.bytes / 128) }

/-- A migration that has left its copy loop marks its range, once a token slot is free. -/
def State.migMark (s : State) (cx : Nat) (a : Active) : State :=
  let r := migRec a.record
  match s.hub.freeToken with
  | none => s
  | some n => (s.markToken n r.pasid r.va.toNat (r.bytes / 4096) true).modActive cx .sst a.cmd.num
      fun b => { b with token := some n }

/-- One round of the copy loop: a line is copied, or the dirty parts are taken; after the third round the
migration is abandoned, and with no dirty part the loop is left and the range marked. -/
def State.migRound (s : State) (cx : Nat) (a : Active) : State :=
  let r := migRec a.record
  let d := s.filterOf cx a.cmd.num
  let clear := s.setFilter cx a.cmd.num (some ⟨cx, a.cmd.num, r.src, r.bytes, []⟩)
  if a.copying then s.copyLine cx a r
  else if d = [] then
    ((clear.setMigr r.src 2).modActive cx .sst a.cmd.num fun b => { b with phase := 2 }).migMark cx a
  else if a.rounds = 3 then
    (((s.setFilter cx a.cmd.num none).setMigr r.src 0).report (some cx) (dieOf (s.home cx)) r.va 33 1 2 d.length).migEnd
      cx a 1 3 d.length
  else clear.modActive cx .sst a.cmd.num fun b => { b with rounds := b.rounds + 1, writ := partLines (sortBy id d) }

def CmdKind.isMigrate : CmdKind → Bool
  | .migrate _ => true
  | _ => false
def CmdKind.isScrub : CmdKind → Bool
  | .scrub _ => true
  | _ => false

/-- MIGRATE_EXECUTE (R322): a migration starts, or copies what became dirty, marks its range, or is abandoned. -/
def execMigrateExecute (cx : Nat) (s : State) : Res :=
  .next (match s.careCmd cx CmdKind.isMigrate with
    | none => s
    | some a =>
      if a.phase = 0 then s.migStart cx a a.cmd.kind.careVa
      else if a.phase = 1 then s.migRound cx a
      else if a.phase = 2 && a.token.isNone then s.migMark cx a
      else if a.phase = closing then s.migWrite cx a
      else s)

/-- A migration's end: after the requests generated before the mark the parts in the filter are copied, then the new
page-table entry is stored and the mark confirmed. -/
def State.migClose (s : State) (cx : Nat) (a : Active) (n : Nat) : State :=
  let r := migRec a.record
  if a.phase = 2 then
    if !((smGet none s.hub.tokens n).map s.tokenDone).getD true then s
    else (s.setFilter cx a.cmd.num none).modActive cx .sst a.cmd.num fun b =>
      { b with phase := 3, writ := partLines (sortBy id (s.filterOf cx a.cmd.num)) }
  else if a.copying then s.copyLine cx a r
  else if s.shut false r.pte 8 then s.rouse false r.pte
  else
    let t := ((s.wrMem false r.pte (leBytes 8 r.new.toNat)).confirmToken n).setMigr r.src 0
    t.migEnd cx { a with token := none } (if a.flags &&& 32 ≠ 0 then 2 else 0) a.rounds 0

/-- MIGRATE_CLOSE (R322): after the requests generated before the mark, the last parts are copied, the new
page-table entry is stored and the mark confirmed. -/
def execMigrateClose (cx : Nat) (s : State) : Res :=
  .next (match s.careCmd cx CmdKind.isMigrate with
    | none => s
    | some a => (a.token.map (s.migClose cx a)).getD s)

/-! ### SCRUB (R394) -/

/-- A scrub record's fields within their rules (Table 25.4). -/
def scrubOk (bs : List Byte) : Bool :=
  let n := field bs 8 4
  field bs 0 8 % 128 = 0 && n ≠ 0 && n % 128 = 0 && decide (n ≤ 2 ^ 26) && field bs 13 3 = 0 && field bs 16 8 % 8 = 0 &&
  field bs 28 4 = 0

/-- A line's code in a byte of the bitmap. -/
def putCode (b : Byte) (m code : Nat) : Byte :=
  (b &&& ~~~((3 : Byte) <<< (2 * (m % 4)))) ||| (BitVec.ofNat 8 code <<< (2 * (m % 4)))

/-- The code of line m written at the byte's place. -/
def State.wrCode (s : State) (host : Bool) (p m code : Nat) : State :=
  let (bs, t) := s.rdPlace host p 1
  t.wrPlace host p [putCode (bs.headD 0) m code]

/-- The engine-written fields of a scrub record (Table 25.4). -/
def State.scrubWrite (s : State) (cx : Nat) (a : Active) : State :=
  let (status, done, _) := a.fail.getD (0, 0, 0)
  s.wrRecord cx a [(12, leBytes 1 status), (24, leBytes 4 done)]

/-- A scrub ends with a status at a number of lines done: it has only its record's fields left to write. -/
def State.scrubEnd (s : State) (cx : Nat) (a : Active) (status done : Nat) : State :=
  let b := { a with phase := closing, fail := some (status, done, 0) }
  (s.modActive cx .sst a.cmd.num fun _ => b).scrubWrite cx b

/-- The bitmap of a scrub, the place of line m's code in it, and its lines. -/
def Active.bitmap (a : Active) (m : Nat) : Word := BitVec.ofNat 64 (field a.record 16 8) + BitVec.ofNat 64 (m / 4)
def Active.scrubLines (a : Active) : Nat := field a.record 8 4 / 128

/-- A scrub that a refused translation has stopped writes the code 0b11 of at most `fuel` more lines, as far as the bitmap
can be written, and ends. -/
def State.restCodes (cx : Nat) (a : Active) : Nat → Nat → State → State
  | 0, _, s => s
  | fuel + 1, m, s =>
    let b := { a with units := m }
    let done := ((a.fail.map fun f => f.2.1).getD 0)
    if a.scrubLines ≤ m then s.scrubEnd cx b 1 done
    else match s.carePlace cx a.cmd.num (2 * m + 2) (a.bitmap m) true with
      | .wait t => t.modActive cx .sst a.cmd.num fun _ => b
      | .refused t => t.scrubEnd cx b 1 done
      | .at_ h p t => State.restCodes cx a fuel (m + 1) (t.wrCode h p m 3)

/-- The phase of a scrub that writes the codes of the lines which it does not reach. -/
def resting : Nat := 1

/-- A line of a scrub whose translation is refused ends it there. -/
def State.scrubStop (s : State) (cx : Nat) (a : Active) : State :=
  let b := { a with phase := resting, fail := some (1, a.units, 0) }
  State.restCodes cx b (a.scrubLines + 1) a.units (s.modActive cx .sst a.cmd.num fun _ => b)

/-- A scrub's record read and checked. -/
def State.scrubStart (s : State) (cx : Nat) (a : Active) (va : Word) : State :=
  match s.carePlace cx a.cmd.num 0 va true with
  | .wait t => t
  | .refused t => t.modActive cx .sst a.cmd.num fun b => { b with ended := true }
  | .at_ h p t =>
    let (bs, t) := t.rdPlace h p 32
    let b := a.keep bs
    let t := t.modActive cx .sst a.cmd.num fun _ => b
    if scrubOk bs then t else t.scrubEnd cx b 2 0

/-- The next line of a scrub checked, in a slot 31 of its channel (R266): its code reaches the bitmap. -/
def State.scrubNext (s : State) (cx : Nat) (a : Active) (ecc : Ecc) : State :=
  let m := a.units
  match s.carePlace cx a.cmd.num (2 * m + 1) (BitVec.ofNat 64 (field a.record 0 8 + 128 * m)) false with
  | .wait t => t
  | .refused t => t.scrubStop cx a
  | .at_ h p t => match t.carePlace cx a.cmd.num (2 * m + 2) (a.bitmap m) true with
    | .wait u => u
    | .refused u => u.scrubStop cx a
    | .at_ bh bp u =>
      let here := !h && u.own p
      if here && !u.slot31 p then u.rouse false p else
      let u := if here then (u.checked (u.dieAt p) p ecc).useCh (u.dieAt p) (u.channelOf p) else u
      let code := if here then (match ecc with
        | .clean => 0
        | .corrected => 1
        | .uncorrectable => 2) else 0
      let u := (u.wrCode bh bp m code).modActive cx .sst a.cmd.num fun b => { b with units := m + 1 }
      if m + 1 = a.scrubLines then u.scrubEnd cx { a with units := m + 1 } 0 (m + 1) else u

/-- SCRUB_LINE (R394): a scrub reads its record, then checks its lines one by one, each read and rewrite one
step at the controller. -/
def execScrubLine (cx : Nat) (ecc : Ecc) (s : State) : Res :=
  .next (match s.careCmd cx CmdKind.isScrub with
    | none => s
    | some a =>
      if !a.started then s.scrubStart cx a a.cmd.kind.careVa
      else if a.phase = closing then s.scrubWrite cx a
      else if a.phase = resting then State.restCodes cx a (a.scrubLines + 1) a.units s
      else s.scrubNext cx a ecc)

/-! ### Patrol (R393) -/

/-- A patrol period, in the units of a die's time: cr.SCRUBCTL gives minutes. -/
def DieSt.period (d : DieSt) : Nat := usTime (d.scrubctl.toNat / 2 ^ 32 % 2 ^ 16 * 60 * 10 ^ 6)

/-- PATROL (R393): in the adaptive mode, in a slot 31 of its channel, a line of a stack is checked: once a period and in
ascending row order, or 64 times if its row is in the hot list. -/
def execPatrol (die stack row : Nat) (line : Nat) (ecc : Ecc) (s : State) : Res :=
  .next (
    let d := s.die die
    let a := s.hub.pkg * 2 ^ 48 + die * 2 ^ 46 + 128 * line
    let key := 2 ^ 32 * stack + line
    let n := smGet 0 d.patrol key
    let hot := d.hot.any fun h => h.1 = stack && h.2.row = row
    let inOrder := n = 0 && decide (smGet 0 d.patRow stack ≤ row)
    if !d.scrubctl.getLsbD stack || 3 ≤ stack || 4 ≤ die || dieBytes ≤ 128 * line || stackOf (s.channelOf a) ≠ stack ||
       row ≠ Config.rowOf (a / 128) || !s.slot31 a || !(inOrder || (hot && decide (n < 64))) then s
    else ((s.checked die a ecc).useCh die (s.channelOf a)).modDie die fun d => { d with
      patrol := smPut 0 d.patrol key (n + 1)
      patRow := if inOrder then smPut 0 d.patRow stack row else d.patRow })

/-- Whether a condition holds of all numbers below a bound. -/
def allBelow (p : Nat → Bool) : Nat → Bool
  | 0 => true
  | n + 1 => p n && allBelow p n

/-- Whether an adaptive stack has had every line of it patrolled in this period (R393). -/
def State.patrolled (s : State) (die stack : Nat) : Bool :=
  let d := s.die die
  !d.scrubctl.getLsbD stack || allBelow (fun l =>
    stackOf (s.channelOf (s.hdmPlace die (128 * l))) ≠ stack || smGet 0 d.patrol (2 ^ 32 * stack + l) ≠ 0) (dieBytes / 128)

/-- PATROL_PERIOD_END (R393): at a period's end, its lines patrolled, every score of the stack's hot list is halved, rows at 0 leave unless
they are under request, and the next period begins. -/
def execPatrolPeriodEnd (die stack : Nat) (s : State) : Res :=
  .next (
    let d := s.die die
    if 3 ≤ stack || 4 ≤ die || d.time < smGet 0 d.patStart stack + d.period || !s.patrolled die stack then s
    else s.modDie die fun d => { d with
      hot := (d.hot.map fun (h : Nat × HotRow) => if h.1 = stack then (h.1, { h.2 with score := h.2.score / 2 }) else h).filter
        fun h => h.1 ≠ stack || h.2.score ≠ 0 || h.2.req
      patrol := d.patrol.filter fun p => p.1 / 2 ^ 32 ≠ stack
      patRow := smPut 0 d.patRow stack 0
      patStart := smPut 0 d.patStart stack d.time })

/-! ### Retraining and power (R266, R333, R396) -/

/-- RETRAIN (R266, R333): a stack serves no slot for at most 50 µs; while a deadline save writes to the stack, the
retraining is deferred until the save completes. -/
def execRetrain (die stack : Nat) (s : State) : Res :=
  .next (if 4 ≤ die || 3 ≤ stack || (s.die die).retrains stack then s
    else if s.saving die stack then s.modDie die fun d => { d with trainDue := stack :: d.trainDue.filter (· ≠ stack) }
    else s.startRetrain die stack)

/-- RETRAIN_END (R333): a stack whose retraining is over serves slots again, and a P-state change that waited may take
place. -/
def execRetrainEnd (die stack : Nat) (s : State) : Res :=
  .next (if 4 ≤ die then s
    else (s.modDie die fun d => { d with retrain := d.retrain.filter fun r => r.1 ≠ stack || decide (d.time < r.2) }).dueP die)

/-- P_STATE_CHANGE (R396): within the configuration record's limit, at an ac with cr.CYCLE mod 32 = 0; a change
waits for a retraining stack (R333), and a halted core keeps its die from P2 (R397). -/
def execPStateChange (die : Nat) (p : BitVec 2) (s : State) : Res :=
  .next (
    let d := s.die die
    if 4 ≤ die || p = 3 || p.toNat < s.hub.plimit || (p = 2 && s.haltedOn die) || d.c3 then s
    else if d.training then s.modDie die fun d => { d with pWait := some p }
    else if d.cycle % 32 ≠ 0 then s
    else s.modDie die fun d => { d with pstate := p, pWait := none })

/-- C1_ENTRY (R396): a core with no task and no command gates its clock. -/
def execC1Entry (core : Nat) (s : State) : Res :=
  .next (if s.quiet core && decide (core < 96) then s.modCore core fun c => { c with c1 := true } else s)

/-- C1_EXIT (R396): a core that has been given a task leaves C1. -/
def execC1Exit (core : Nat) (s : State) : Res :=
  .next (if (ctxsOf core).any fun cx => (s.ctx cx).task ≠ 0 then s.modCore core fun c => { c with c1 := false } else s)

/-- What a core keeps through C3: the SRF, the accumulator files, and its bookkeeping (Table 25.6; log 140). -/
def CoreSt.retain (c : CoreSt) : CoreSt :=
  { srf := c.srf, lines := c.lines, acc := c.acc, fields := c.fields, tiles := c.joinTiles.tiles, last := c.last, c1 := c.c1 }

/-- What a die keeps through C3: the weight store, its counts of time, its stacks' retraining, and the arenas that its
tree engine has bound (log 140). -/
def DieSt.retain (d : DieSt) : DieSt :=
  { arenas := d.arenas, cycle := d.cycle, time := d.time, pstate := d.pstate, pWait := d.pWait, ws := d.ws, wsMem := d.wsMem, wsPois := d.wsPois
    retrain := d.retrain, trainDue := d.trainDue, used := d.used, c3 := true }

/-- C3_ENTRY (R396): a die whose cores are idle and for whose memory no request is outstanding enters retention: all but
what it keeps goes back to its reset value (log 140). Trace of its cores is flushed first (R397); the place and the form
in which it reaches memory are not stated, and no byte of the model's memory stands for it (log 162). -/
def execC3Entry (die : Nat) (s : State) : Res :=
  .next (if 4 ≤ die || (s.die die).c3 || !(coresOf die).all s.quiet ||
      s.reqs.any (fun r => !r.ws && !s.away r && s.dieAt r.phys = die) then s
    else (((coresOf die).foldl (fun t g => if s.cores.any (fun p => p.1 = g) then t.modCore g CoreSt.retain else t) s).modDie
      die DieSt.retain).modHub fun h => { h with trace := h.trace.filter fun g => dieOf g ≠ die })

/-- C3_EXIT (R396): 60 µs after a request started it, the exit ends and the die runs again. -/
def execC3Exit (die : Nat) (s : State) : Res := .next (s.c3Turn die)

/-- POWER_OFF (R396): everything but the memory of the host and of other packages is lost; a package in RETURN stays in it
until its owner keys are provisioned again (R395). -/
def execPowerOff (s : State) : Res :=
  .next { hostMem := s.hostMem, hpois := s.hpois
          mem := s.mem.filter fun c => !s.own c.1, pois := s.pois.filter fun p => !s.own (128 * p.1)
          agenda := s.agenda, focus := s.focus, free := s.free
          hub := { mode := if s.hub.mode = .ret then .ret else .locked, hdm := s.hub.hdm } }

/-! ### Security and debug (R395, R397) -/

/-- The levels that a token names, two bits a partition in a word that the manual does not lay out. -/
def tokenLevels (w : Word) : SMap Nat :=
  (List.range 16).foldl (fun m i => smPut 0 m i (Nat.min 2 (w.toNat / 2 ^ (2 * i) % 4))) []

/-- Every partition's level set, each change counted (R395). -/
def Hub.setLevels (h : Hub) (l : SMap Nat) : Hub :=
  { h with
    levels := l
    trans := (h.trans + ((List.range 16).filter fun i => smGet 0 h.levels i ≠ smGet 0 l i).length) % 2 ^ 32 }

/-- An address written to DTOKEN, and the record there, of 512 bytes (log 13). -/
def State.readToken (s : State) (addr : Word) : List Byte × State :=
  let (h, a) := s.resolve true addr.toNat
  (s.modHub fun k => { k with dtoken := addr }).rdPlace h a 512

/-- DEBUG_TOKEN (R395): a token signed with the owner's key sets the levels of the partitions it names, all of them
debug-allowed; one that names none returns the package to LOCKED. In RETURN a token under the vendor key sets them, for
every core, and the mode stays (R397; log 115). -/
def execDebugToken (addr : Word) (s : State) : Res :=
  .next (
    let (bs, t) := s.readToken addr
    let l := tokenLevels (Config.tokenWord bs)
    if Config.isReturn bs then t
    else if t.hub.mode = .ret then
      if Config.signatureOk Config.vendorKey bs then t.modHub fun h => h.setLevels l else t
    else if !Config.signatureOk t.hub.ownerKey bs || !l.all (fun p => t.hub.dbgOk.getLsbD p.1) then t
    else t.modHub fun h => { h.setLevels l with mode := if l = [] then .locked else .ownerDebug })

/-- Device memory of the package whose keys are erased: each byte that stands in it reads as a free value (log 119). -/
def State.scramble (s : State) : State :=
  (s.mem.filter fun c => s.own c.1).foldl (fun t c =>
    let (bs, u) := t.freeBytes 1
    u.wrMem false c.1 bs) s

/-- RETURN_RECORD (R395): a record signed by the owner destroys every partition, erases every memory encryption key and
owner key, and enters RETURN. -/
def execReturnRecord (addr : Word) (s : State) : Res :=
  .next (
    let (bs, t) := s.readToken addr
    if !Config.isReturn bs || !Config.signatureOk t.hub.ownerKey bs then t
    else (((t.hub.parts.map Prod.fst).foldl State.dropPart t).scramble).modHub fun h => { h with
      mode := .ret, ownerKey := [], dataKeys := [], keySlots := [] })

/-- Whether a request about a core is granted: outside RETURN, the core lies in the partition. -/
def State.mayDebug (s : State) (part : Nat) (act : DebugAct) (core : Nat) : Bool :=
  debugGrant s.hub.mode (smGet 0 s.hub.levels part) act &&
    (s.hub.mode = .ret || ((s.part part).map fun p => p.cores.contains core).getD false)

/-- Whether an action needs level D2 (R395). -/
def deepDebug : DebugAct → Bool
  | .counters | .trace => false
  | .halt | .inspect | .resume => true

/-- What a granted request reads of a core: its contexts' counters (R257), or their program counters and registers; the
form is the model's (log 162). -/
def State.counted (s : State) (g : Nat) : List Word :=
  (s.ctxsAt g).flatMap fun cx => let c := s.ctx cx; [c.sgidx, c.sgbound, c.sglent, c.wswait, c.kstall]
def State.inspected (s : State) (g : Nat) : List Word :=
  (s.ctxsAt g).flatMap fun cx => (s.ctx cx).pc :: (List.range 32).map fun r => s.rdX cx (BitVec.ofNat 5 r)

/-- DEBUG_REQUEST (R397): granted, refused with status 2, or waiting: at level D2 for the exit of the core's die from C3,
which it starts, and to halt for the die to leave P2. -/
def execDebugRequest (part : Nat) (act : DebugAct) (core : Nat) (s : State) : Res :=
  .next (
    let d := s.die (dieOf core)
    if 96 ≤ core || !s.mayDebug part act core then s.modHub fun h => { h with mstat := 2 }
    else if deepDebug act && d.c3 then s.wake (dieOf core)
    else if act = .halt && d.pstate = 2 then s
    else
      let t := s.modHub fun h => { h with mstat := 0 }
      match act with
      | .halt => t.modCore core fun c => { c.halt with c1 := false }
      | .resume => t.modCore core fun c => { c with halted := false }
      | .trace => t.modHub fun h => { h with trace := (core :: h.trace).eraseDups }
      | .inspect => t.modHub fun h => { h with dbgOut := s.inspected core }
      | .counters => t.modHub fun h => { h with dbgOut := s.counted core })

/-! ### Boot, configuration and attestation (R398 to R400) -/

/-- The field checks of a configuration record (Table 25.9). -/
def cfgOk (bs : List Byte) : Bool :=
  field bs 0 4 = 0x47464443 && decide (field bs 4 1 < 8) && decide (1 ≤ field bs 5 1) && decide (field bs 5 1 ≤ 8) &&
  decide (field bs 6 1 < 3) && field bs 7 1 = 0 && ((bs.drop 8).take 16).all (fun b => decide (b.toNat < 8) || b = 0xFF) &&
  field bs 28 4 = 0 && ((bs.drop 384).take 32).all (· = 0)

/-- HSTATUS after a failure in a step (Table 25.8). -/
def bootFail (step : Nat) : Word := BitVec.ofNat 64 (3 + 256 * step)

/-- The record's values applied (Table 25.9). -/
def Hub.configured (h : Hub) (bs : List Byte) : Hub :=
  let owner := (bs.drop 32).take 96
  { h with
    pkg := field bs 4 1
    domain := field bs 5 1
    plimit := field bs 6 1
    cabling := (bs.drop 8).take 16
    dbgOk := BitVec.ofNat 16 (field bs 24 2)
    ownerKey := owner
    dataKeys := (bs.drop 128).take 256
    cfgDig := Config.digest bs
    mode := if h.mode = .ret && owner.all (· = 0) then .ret else .locked }

/-- Steps 5 to 7 of a boot (Table 25.10): the firmware verifies the record at an address and applies it; the Causeway
ports that the cabling names train; the weight stores are sealed, and the package is ready. -/
def State.configure (s : State) (addr : Word) (portsOk : Bool) : State :=
  let (h, a) := s.resolve true addr.toNat
  let (bs, t) := s.rdPlace h a 512
  let key := if t.hub.mode = .ret then Config.vendorKey else (bs.drop 32).take 96
  if !cfgOk bs || !Config.signatureOk key (bs.take 512) then t.modHub fun h => { h with hstatus := bootFail 5 }
  else
    let p := field bs 6 1
    let t := (List.range 4).foldl (fun u d => u.modDie d fun k => { k with
      scrubctl := (k.scrubctl &&& ~~~7#64) ||| BitVec.ofNat 64 (field bs 26 2 / 2 ^ (3 * d) % 8)
      pWait := if k.pstate.toNat < p then some (BitVec.ofNat 2 p) else k.pWait }) (t.modHub fun h => h.configured bs)
    if !portsOk && ((bs.drop 8).take 16).any (· ≠ 0xFF) then t.modHub fun h => { h with hstatus := bootFail 6 }
    else ((List.range 4).foldl (fun u d => u.modDie d fun k => { k with ws := .sealed }) t).modHub fun h => { h with
      parts := [], hstatus := 2 }

/-- CONFIGURATION_RECORD (R398, R400): its address stands in CFGREC, and firmware that waits for it goes on. -/
def execConfigurationRecord (rec : Word × Bool) (s : State) : Res :=
  .next (
    let t := s.modHub fun h => { h with cfgrec := rec.1 }
    if t.hub.hstatus ≠ 1 then t else t.configure rec.1 rec.2)

/-- BOOT (R400): from reset, steps 1 to 4 of Table 25.10: the image is verified and its digest recorded, the
firmware runs, and the links train, each of which may fail; the firmware then waits for its configuration record, or
goes on with the one whose address CFGREC already holds. The host has placed the HDM range (R375). -/
def execBoot (up : BringUp) (hdm : Nat) (s : State) : Res :=
  .next (if s.hub.hstatus ≠ 0 then s
    else
      let s := s.modHub fun h => { h with hdm := hdm }
      if !up.image then s.modHub fun h => { h with hstatus := bootFail 2 }
      else
        let (d, t) := s.freeBytes 48
        let t := t.modHub fun h => { h with fwDig := d, hstatus := 1 }
        if !up.firmware then t.modHub fun h => { h with hstatus := bootFail 3 }
        else if !up.links then t.modHub fun h => { h with hstatus := bootFail 4 }
        else
          let t := (List.range 4).foldl (fun u d => u.modDie d fun k => { k with cycle := 0 }) t
          if t.hub.cfgrec = 0 then t else t.configure t.hub.cfgrec up.ports)

/-- What an attestation report holds (R399): the nonce, the mode, the levels, the count of transitions and the
digests, all of one instant. -/
def State.attested (s : State) (nonce : List Byte) : List Byte :=
  let mode : Byte := match s.hub.mode with
    | .locked => 0
    | .ownerDebug => 1
    | .ret => 2
  nonce ++ [mode] ++ (List.range 16).map (fun i => BitVec.ofNat 8 (smGet 0 s.hub.levels i)) ++ leBytes 4 s.hub.trans ++
    s.hub.fwDig ++ s.hub.cfgDig

/-- ATTEST (R399): the hub writes its signed report into the 4 KiB buffer, after its nonce; the report's layout
is not stated (log 13). -/
def execAttest (addr : Word) (s : State) : Res :=
  .next (
    let (h, a) := s.resolve true addr.toNat
    let (nonce, t) := (s.modHub fun h => { h with attest := addr }).rdPlace h a 48
    let what := t.attested nonce
    let (_, u) := t.takeFree
    u.wrPlace h (a + 48) ((List.range 4048).map fun i => Config.reportByte what t.free (48 + i)))

end Sys2Proof.Machine
end

