-- ==== Sys2Proof/Machine/Dispatch.lean ====
section
/-!
DEFINITION. One arm for each constructor of Instr, each one direct call of its meaning (R1).
-/

namespace Sys2Proof.Machine

open Sys2Proof

def exec (i : Instr) (s : State) : Host.Outcome State Fault Refusal :=
  match i with
  | .add x1 x2 x3 => Sys2Proof.Machine.execAdd x1 x2 x3 s
  | .sub x1 x2 x3 => Sys2Proof.Machine.execSub x1 x2 x3 s
  | .and_ x1 x2 x3 => Sys2Proof.Machine.execAnd x1 x2 x3 s
  | .or_ x1 x2 x3 => Sys2Proof.Machine.execOr x1 x2 x3 s
  | .xor x1 x2 x3 => Sys2Proof.Machine.execXor x1 x2 x3 s
  | .andn x1 x2 x3 => Sys2Proof.Machine.execAndn x1 x2 x3 s
  | .shl x1 x2 x3 => Sys2Proof.Machine.execShl x1 x2 x3 s
  | .shr x1 x2 x3 => Sys2Proof.Machine.execShr x1 x2 x3 s
  | .sra x1 x2 x3 => Sys2Proof.Machine.execSra x1 x2 x3 s
  | .rol x1 x2 x3 => Sys2Proof.Machine.execRol x1 x2 x3 s
  | .minI x1 x2 x3 => Sys2Proof.Machine.execMinI x1 x2 x3 s
  | .minN x1 x2 x3 => Sys2Proof.Machine.execMinN x1 x2 x3 s
  | .maxI x1 x2 x3 => Sys2Proof.Machine.execMaxI x1 x2 x3 s
  | .maxN x1 x2 x3 => Sys2Proof.Machine.execMaxN x1 x2 x3 s
  | .clz x1 x2 => Sys2Proof.Machine.execClz x1 x2 s
  | .popc x1 x2 => Sys2Proof.Machine.execPopc x1 x2 s
  | .sel x1 x2 x3 x4 => Sys2Proof.Machine.execSel x1 x2 x3 x4 s
  | .addi x1 x2 x3 => Sys2Proof.Machine.execAddi x1 x2 x3 s
  | .andi x1 x2 x3 => Sys2Proof.Machine.execAndi x1 x2 x3 s
  | .ori x1 x2 x3 => Sys2Proof.Machine.execOri x1 x2 x3 s
  | .xori x1 x2 x3 => Sys2Proof.Machine.execXori x1 x2 x3 s
  | .shli x1 x2 x3 => Sys2Proof.Machine.execShli x1 x2 x3 s
  | .shri x1 x2 x3 => Sys2Proof.Machine.execShri x1 x2 x3 s
  | .srai x1 x2 x3 => Sys2Proof.Machine.execSrai x1 x2 x3 s
  | .roli x1 x2 x3 => Sys2Proof.Machine.execRoli x1 x2 x3 s
  | .ldi x1 x2 x3 => Sys2Proof.Machine.execLdi x1 x2 x3 s
  | .ldiKeep x1 x2 x3 => Sys2Proof.Machine.execLdiKeep x1 x2 x3 s
  | .ldi64 x1 x2 => Sys2Proof.Machine.execLdi64 x1 x2 s
  | .cmp x1 x2 x3 x4 => Sys2Proof.Machine.execCmp x1 x2 x3 x4 s
  | .cmpi x1 x2 x3 x4 => Sys2Proof.Machine.execCmpi x1 x2 x3 x4 s
  | .mul x1 x2 x3 => Sys2Proof.Machine.execMul x1 x2 x3 s
  | .mulhI x1 x2 x3 => Sys2Proof.Machine.execMulhI x1 x2 x3 s
  | .mulhN x1 x2 x3 => Sys2Proof.Machine.execMulhN x1 x2 x3 s
  | .divI x1 x2 x3 => Sys2Proof.Machine.execDivI x1 x2 x3 s
  | .divN x1 x2 x3 => Sys2Proof.Machine.execDivN x1 x2 x3 s
  | .remI x1 x2 x3 => Sys2Proof.Machine.execRemI x1 x2 x3 s
  | .remN x1 x2 x3 => Sys2Proof.Machine.execRemN x1 x2 x3 s
  | .bfxI x1 x2 x3 => Sys2Proof.Machine.execBfxI x1 x2 x3 s
  | .bfxN x1 x2 x3 => Sys2Proof.Machine.execBfxN x1 x2 x3 s
  | .bfi x1 x2 x3 => Sys2Proof.Machine.execBfi x1 x2 x3 s
  | .fshl x1 x2 x3 x4 => Sys2Proof.Machine.execFshl x1 x2 x3 x4 s
  | .fshr x1 x2 x3 x4 => Sys2Proof.Machine.execFshr x1 x2 x3 x4 s
  | .bfxIImm x1 x2 x3 x4 => Sys2Proof.Machine.execBfxIImm x1 x2 x3 x4 s
  | .bfxNImm x1 x2 x3 x4 => Sys2Proof.Machine.execBfxNImm x1 x2 x3 x4 s
  | .bfiImm x1 x2 x3 x4 => Sys2Proof.Machine.execBfiImm x1 x2 x3 x4 s
  | .ld x1 x2 x3 x4 => Sys2Proof.Machine.execLd x1 x2 x3 x4 s
  | .ldx x1 x2 x3 x4 x5 => Sys2Proof.Machine.execLdx x1 x2 x3 x4 x5 s
  | .st x1 x2 x3 x4 => Sys2Proof.Machine.execSt x1 x2 x3 x4 s
  | .stx x1 x2 x3 x4 x5 => Sys2Proof.Machine.execStx x1 x2 x3 x4 x5 s
  | .ldAcq x1 x2 x3 x4 => Sys2Proof.Machine.execLdAcq x1 x2 x3 x4 s
  | .stRel x1 x2 x3 x4 => Sys2Proof.Machine.execStRel x1 x2 x3 x4 s
  | .amoAdd x1 x2 x3 x4 x5 => Sys2Proof.Machine.execAmoAdd x1 x2 x3 x4 x5 s
  | .amoSwap x1 x2 x3 x4 x5 => Sys2Proof.Machine.execAmoSwap x1 x2 x3 x4 x5 s
  | .amoCas x1 x2 x3 x4 x5 => Sys2Proof.Machine.execAmoCas x1 x2 x3 x4 x5 s
  | .amoMinI x1 x2 x3 x4 x5 => Sys2Proof.Machine.execAmoMinI x1 x2 x3 x4 x5 s
  | .amoMinN x1 x2 x3 x4 x5 => Sys2Proof.Machine.execAmoMinN x1 x2 x3 x4 x5 s
  | .amoMaxI x1 x2 x3 x4 x5 => Sys2Proof.Machine.execAmoMaxI x1 x2 x3 x4 x5 s
  | .amoMaxN x1 x2 x3 x4 x5 => Sys2Proof.Machine.execAmoMaxN x1 x2 x3 x4 x5 s
  | .amoAnd x1 x2 x3 x4 x5 => Sys2Proof.Machine.execAmoAnd x1 x2 x3 x4 x5 s
  | .amoOr x1 x2 x3 x4 x5 => Sys2Proof.Machine.execAmoOr x1 x2 x3 x4 x5 s
  | .amoXor x1 x2 x3 x4 x5 => Sys2Proof.Machine.execAmoXor x1 x2 x3 x4 x5 s
  | .ldl x1 x2 x3 x4 x5 => Sys2Proof.Machine.execLdl x1 x2 x3 x4 x5 s
  | .stl x1 x2 x3 x4 x5 => Sys2Proof.Machine.execStl x1 x2 x3 x4 x5 s
  | .xlate x1 x2 x3 => Sys2Proof.Machine.execXlate x1 x2 x3 s
  | .hinv x1 => Sys2Proof.Machine.execHinv x1 s
  | .hinfo x1 x2 => Sys2Proof.Machine.execHinfo x1 x2 s
  | .drain x1 => Sys2Proof.Machine.execDrain x1 s
  | .drainFlag x1 x2 x3 x4 x5 x6 => Sys2Proof.Machine.execDrainFlag x1 x2 x3 x4 x5 x6 s
  | .semAdd x1 x2 x3 x4 x5 => Sys2Proof.Machine.execSemAdd x1 x2 x3 x4 x5 s
  | .semWait x1 x2 x3 x4 x5 => Sys2Proof.Machine.execSemWait x1 x2 x3 x4 x5 s
  | .semAcq x1 x2 x3 x4 => Sys2Proof.Machine.execSemAcq x1 x2 x3 x4 s
  | .semRel x1 x2 x3 => Sys2Proof.Machine.execSemRel x1 x2 x3 s
  | .semPost x1 x2 x3 x4 => Sys2Proof.Machine.execSemPost x1 x2 x3 x4 s
  | .semRead x1 x2 x3 x4 x5 => Sys2Proof.Machine.execSemRead x1 x2 x3 x4 x5 s
  | .mbRd x1 x2 => Sys2Proof.Machine.execMbRd x1 x2 s
  | .mbWr x1 x2 => Sys2Proof.Machine.execMbWr x1 x2 s
  | .mbProbe x1 x2 x3 x4 => Sys2Proof.Machine.execMbProbe x1 x2 x3 x4 s
  | .mileWait x1 x2 => Sys2Proof.Machine.execMileWait x1 x2 s
  | .mileRead x1 x2 => Sys2Proof.Machine.execMileRead x1 x2 s
  | .mileArm x1 x2 => Sys2Proof.Machine.execMileArm x1 x2 s
  | .sbind x1 x2 x3 x4 x5 => Sys2Proof.Machine.execSbind x1 x2 x3 x4 x5 s
  | .sload x1 x2 x3 => Sys2Proof.Machine.execSload x1 x2 x3 s
  | .sgather x1 x2 x3 x4 => Sys2Proof.Machine.execSgather x1 x2 x3 x4 s
  | .sstore x1 x2 x3 x4 x5 => Sys2Proof.Machine.execSstore x1 x2 x3 x4 x5 s
  | .sscatter x1 x2 x3 x4 => Sys2Proof.Machine.execSscatter x1 x2 x3 x4 s
  | .sscatterAddI32 x1 x2 x3 x4 => Sys2Proof.Machine.execSscatterAddI32 x1 x2 x3 x4 s
  | .sscatterAddN32 x1 x2 x3 x4 => Sys2Proof.Machine.execSscatterAddN32 x1 x2 x3 x4 s
  | .sscatterAddI64 x1 x2 x3 x4 => Sys2Proof.Machine.execSscatterAddI64 x1 x2 x3 x4 s
  | .sscatterAddXa256 x1 x2 x3 x4 => Sys2Proof.Machine.execSscatterAddXa256 x1 x2 x3 x4 s
  | .sscatterAddF32 x1 x2 x3 x4 => Sys2Proof.Machine.execSscatterAddF32 x1 x2 x3 x4 s
  | .spair x1 x2 x3 x4 => Sys2Proof.Machine.execSpair x1 x2 x3 x4 s
  | .scopy x1 x2 x3 => Sys2Proof.Machine.execScopy x1 x2 x3 s
  | .krun x1 x2 x3 => Sys2Proof.Machine.execKrun x1 x2 x3 s
  | .kctlPrefetch x1 x2 => Sys2Proof.Machine.execKctlPrefetch x1 x2 s
  | .mcall x1 x2 x3 x4 x5 => Sys2Proof.Machine.execMcall x1 x2 x3 x4 x5 s
  | .mrout x1 x2 x3 => Sys2Proof.Machine.execMrout x1 x2 x3 s
  | .wsctlLoad x1 => Sys2Proof.Machine.execWsctlLoad x1 s
  | .wsctlSeal x1 => Sys2Proof.Machine.execWsctlSeal x1 s
  | .wsctlQuery x1 => Sys2Proof.Machine.execWsctlQuery x1 s
  | .treeBind x1 x2 x3 x4 => Sys2Proof.Machine.execTreeBind x1 x2 x3 x4 s
  | .treeDesc x1 x2 x3 x4 x5 => Sys2Proof.Machine.execTreeDesc x1 x2 x3 x4 x5 s
  | .treeExp x1 x2 x3 x4 x5 => Sys2Proof.Machine.execTreeExp x1 x2 x3 x4 x5 s
  | .treeBack x1 x2 x3 x4 x5 => Sys2Proof.Machine.execTreeBack x1 x2 x3 x4 x5 s
  | .treeReroot x1 x2 x3 x4 => Sys2Proof.Machine.execTreeReroot x1 x2 x3 x4 s
  | .treeSweep x1 x2 x3 => Sys2Proof.Machine.execTreeSweep x1 x2 x3 s
  | .treePath x1 x2 x3 x4 x5 => Sys2Proof.Machine.execTreePath x1 x2 x3 x4 x5 s
  | .treeRead x1 x2 x3 x4 x5 => Sys2Proof.Machine.execTreeRead x1 x2 x3 x4 x5 s
  | .treeFlush x1 x2 x3 => Sys2Proof.Machine.execTreeFlush x1 x2 x3 s
  | .gatherl x1 x2 x3 x4 => Sys2Proof.Machine.execGatherl x1 x2 x3 x4 s
  | .launch x1 x2 => Sys2Proof.Machine.execLaunch x1 x2 s
  | .taskYield x1 x2 x3 => Sys2Proof.Machine.execTaskYield x1 x2 x3 s
  | .taskPrio x1 x2 x3 => Sys2Proof.Machine.execTaskPrio x1 x2 x3 s
  | .taskSelf x1 x2 x3 => Sys2Proof.Machine.execTaskSelf x1 x2 x3 s
  | .waymark x1 x2 x3 => Sys2Proof.Machine.execWaymark x1 x2 x3 s
  | .br x1 x2 x3 => Sys2Proof.Machine.execBr x1 x2 x3 s
  | .jmp x1 => Sys2Proof.Machine.execJmp x1 s
  | .call x1 => Sys2Proof.Machine.execCall x1 s
  | .jx x1 => Sys2Proof.Machine.execJx x1 s
  | .callx x1 => Sys2Proof.Machine.execCallx x1 s
  | .trap x1 => Sys2Proof.Machine.execTrap x1 s
  | .csrr x1 x2 => Sys2Proof.Machine.execCsrr x1 x2 s
  | .csrw x1 x2 => Sys2Proof.Machine.execCsrw x1 x2 s
  | .scrub x1 x2 => Sys2Proof.Machine.execScrub x1 x2 s
  | .migrate x1 x2 => Sys2Proof.Machine.execMigrate x1 x2 s
  | .xinvMark x1 x2 x3 => Sys2Proof.Machine.execXinvMark x1 x2 x3 s
  | .xinvConfirm x1 x2 => Sys2Proof.Machine.execXinvConfirm x1 x2 s
  | .qmap x1 x2 => Sys2Proof.Machine.execQmap x1 x2 s
  | .kAdd x1 x2 x3 x4 x5 => Sys2Proof.Machine.execKAdd x1 x2 x3 x4 x5 s
  | .kSub x1 x2 x3 x4 x5 => Sys2Proof.Machine.execKSub x1 x2 x3 x4 x5 s
  | .kAnd x1 x2 x3 x4 => Sys2Proof.Machine.execKAnd x1 x2 x3 x4 s
  | .kOr x1 x2 x3 x4 => Sys2Proof.Machine.execKOr x1 x2 x3 x4 s
  | .kXor x1 x2 x3 x4 => Sys2Proof.Machine.execKXor x1 x2 x3 x4 s
  | .kAndn x1 x2 x3 x4 => Sys2Proof.Machine.execKAndn x1 x2 x3 x4 s
  | .kShl x1 x2 x3 x4 x5 => Sys2Proof.Machine.execKShl x1 x2 x3 x4 x5 s
  | .kShr x1 x2 x3 x4 x5 => Sys2Proof.Machine.execKShr x1 x2 x3 x4 x5 s
  | .kSra x1 x2 x3 x4 x5 => Sys2Proof.Machine.execKSra x1 x2 x3 x4 x5 s
  | .min x1 x2 x3 x4 x5 => Sys2Proof.Machine.execMin x1 x2 x3 x4 x5 s
  | .max x1 x2 x3 x4 x5 => Sys2Proof.Machine.execMax x1 x2 x3 x4 x5 s
  | .kCmp x1 x2 x3 x4 x5 x6 => Sys2Proof.Machine.execKCmp x1 x2 x3 x4 x5 x6 s
  | .kSel x1 x2 x3 x4 x5 => Sys2Proof.Machine.execKSel x1 x2 x3 x4 x5 s
  | .kBfxN x1 x2 x3 x4 => Sys2Proof.Machine.execKBfxN x1 x2 x3 x4 s
  | .kBfxI x1 x2 x3 x4 => Sys2Proof.Machine.execKBfxI x1 x2 x3 x4 s
  | .kBfi x1 x2 x3 x4 => Sys2Proof.Machine.execKBfi x1 x2 x3 x4 s
  | .kFshl x1 x2 x3 => Sys2Proof.Machine.execKFshl x1 x2 x3 s
  | .kFshr x1 x2 x3 => Sys2Proof.Machine.execKFshr x1 x2 x3 s
  | .movi x1 x2 => Sys2Proof.Machine.execMovi x1 x2 s
  | .moviHigh x1 x2 => Sys2Proof.Machine.execMoviHigh x1 x2 s
  | .moviLiteral x1 x2 x3 x4 => Sys2Proof.Machine.execMoviLiteral x1 x2 x3 x4 s
  | .moviShifted x1 x2 x3 => Sys2Proof.Machine.execMoviShifted x1 x2 x3 s
  | .abs x1 x2 x3 x4 => Sys2Proof.Machine.execAbs x1 x2 x3 x4 s
  | .neg x1 x2 x3 x4 => Sys2Proof.Machine.execNeg x1 x2 x3 x4 s
  | .kClz x1 x2 x3 x4 => Sys2Proof.Machine.execKClz x1 x2 x3 x4 s
  | .kPopc x1 x2 x3 x4 => Sys2Proof.Machine.execKPopc x1 x2 x3 x4 s
  | .not_ x1 x2 x3 => Sys2Proof.Machine.execNot x1 x2 x3 s
  | .fabs x1 x2 x3 => Sys2Proof.Machine.execFabs x1 x2 x3 s
  | .fneg x1 x2 x3 => Sys2Proof.Machine.execFneg x1 x2 x3 s
  | .fclass x1 x2 x3 => Sys2Proof.Machine.execFclass x1 x2 x3 s
  | .fadd x1 x2 x3 x4 x5 => Sys2Proof.Machine.execFadd x1 x2 x3 x4 x5 s
  | .fsub x1 x2 x3 x4 x5 => Sys2Proof.Machine.execFsub x1 x2 x3 x4 x5 s
  | .fmin x1 x2 x3 x4 x5 => Sys2Proof.Machine.execFmin x1 x2 x3 x4 x5 s
  | .fmax x1 x2 x3 x4 x5 => Sys2Proof.Machine.execFmax x1 x2 x3 x4 x5 s
  | .fcmp x1 x2 x3 x4 x5 x6 => Sys2Proof.Machine.execFcmp x1 x2 x3 x4 x5 x6 s
  | .cvtI32F32 x1 x2 x3 x4 => Sys2Proof.Machine.execCvtI32F32 x1 x2 x3 x4 s
  | .cvtN32F32 x1 x2 x3 x4 => Sys2Proof.Machine.execCvtN32F32 x1 x2 x3 x4 s
  | .cvtF32I32 x1 x2 x3 x4 => Sys2Proof.Machine.execCvtF32I32 x1 x2 x3 x4 s
  | .cvtF32N32 x1 x2 x3 x4 => Sys2Proof.Machine.execCvtF32N32 x1 x2 x3 x4 s
  | .cvtF16F32 x1 x2 x3 x4 => Sys2Proof.Machine.execCvtF16F32 x1 x2 x3 x4 s
  | .cvtBf16F32 x1 x2 x3 x4 => Sys2Proof.Machine.execCvtBf16F32 x1 x2 x3 x4 s
  | .cvtF32F16 x1 x2 x3 x4 => Sys2Proof.Machine.execCvtF32F16 x1 x2 x3 x4 s
  | .cvtF32Bf16 x1 x2 x3 x4 => Sys2Proof.Machine.execCvtF32Bf16 x1 x2 x3 x4 s
  | .cvtE4m3F32Sat x1 x2 x3 x4 => Sys2Proof.Machine.execCvtE4m3F32Sat x1 x2 x3 x4 s
  | .cvtE4m3F32 x1 x2 x3 x4 => Sys2Proof.Machine.execCvtE4m3F32 x1 x2 x3 x4 s
  | .cvtE5m2F32Sat x1 x2 x3 x4 => Sys2Proof.Machine.execCvtE5m2F32Sat x1 x2 x3 x4 s
  | .cvtE5m2F32 x1 x2 x3 x4 => Sys2Proof.Machine.execCvtE5m2F32 x1 x2 x3 x4 s
  | .cvtF32E4m3 x1 x2 x3 x4 => Sys2Proof.Machine.execCvtF32E4m3 x1 x2 x3 x4 s
  | .cvtF32E5m2 x1 x2 x3 x4 => Sys2Proof.Machine.execCvtF32E5m2 x1 x2 x3 x4 s
  | .cvtPls x1 x2 x3 x4 x5 => Sys2Proof.Machine.execCvtPls x1 x2 x3 x4 x5 s
  | .cvtPln x1 x2 x3 x4 x5 => Sys2Proof.Machine.execCvtPln x1 x2 x3 x4 x5 s
  | .twosum x1 x2 x3 x4 => Sys2Proof.Machine.execTwosum x1 x2 x3 x4 s
  | .ftwosum x1 x2 x3 x4 => Sys2Proof.Machine.execFtwosum x1 x2 x3 x4 s
  | .dwadd x1 x2 x3 x4 => Sys2Proof.Machine.execDwadd x1 x2 x3 x4 s
  | .dwnorm x1 x2 x3 => Sys2Proof.Machine.execDwnorm x1 x2 x3 s
  | .packF16 x1 x2 x3 x4 => Sys2Proof.Machine.execPackF16 x1 x2 x3 x4 s
  | .packBf16 x1 x2 x3 x4 => Sys2Proof.Machine.execPackBf16 x1 x2 x3 x4 s
  | .packLo x1 x2 x3 x4 => Sys2Proof.Machine.execPackLo x1 x2 x3 x4 s
  | .packHi x1 x2 x3 x4 => Sys2Proof.Machine.execPackHi x1 x2 x3 x4 s
  | .scalb x1 x2 x3 x4 x5 => Sys2Proof.Machine.execScalb x1 x2 x3 x4 x5 s
  | .frnd x1 x2 x3 x4 => Sys2Proof.Machine.execFrnd x1 x2 x3 x4 s
  | .fma x1 x2 x3 x4 x5 => Sys2Proof.Machine.execFma x1 x2 x3 x4 x5 s
  | .fms x1 x2 x3 x4 x5 => Sys2Proof.Machine.execFms x1 x2 x3 x4 x5 s
  | .fmul x1 x2 x3 x4 x5 => Sys2Proof.Machine.execFmul x1 x2 x3 x4 x5 s
  | .kMul x1 x2 x3 x4 x5 => Sys2Proof.Machine.execKMul x1 x2 x3 x4 x5 s
  | .mulh x1 x2 x3 x4 x5 => Sys2Proof.Machine.execMulh x1 x2 x3 x4 x5 s
  | .twoprod x1 x2 x3 x4 => Sys2Proof.Machine.execTwoprod x1 x2 x3 x4 s
  | .dwmul x1 x2 x3 x4 => Sys2Proof.Machine.execDwmul x1 x2 x3 x4 s
  | .dwfma x1 x2 x3 x4 => Sys2Proof.Machine.execDwfma x1 x2 x3 x4 s
  | .mad16 x1 x2 x3 x4 x5 => Sys2Proof.Machine.execMad16 x1 x2 x3 x4 x5 s
  | .madb16 x1 x2 x3 x4 x5 => Sys2Proof.Machine.execMadb16 x1 x2 x3 x4 x5 s
  | .dot2 x1 x2 x3 x4 x5 => Sys2Proof.Machine.execDot2 x1 x2 x3 x4 x5 s
  | .dot4i8 x1 x2 x3 x4 x5 => Sys2Proof.Machine.execDot4i8 x1 x2 x3 x4 x5 s
  | .rcp x1 x2 x3 x4 => Sys2Proof.Machine.execRcp x1 x2 x3 x4 s
  | .rsq x1 x2 x3 x4 => Sys2Proof.Machine.execRsq x1 x2 x3 x4 s
  | .sqrt x1 x2 x3 x4 => Sys2Proof.Machine.execSqrt x1 x2 x3 x4 s
  | .div x1 x2 x3 x4 x5 => Sys2Proof.Machine.execDiv x1 x2 x3 x4 x5 s
  | .exp2 x1 x2 x3 x4 => Sys2Proof.Machine.execExp2 x1 x2 x3 x4 s
  | .log2 x1 x2 x3 x4 => Sys2Proof.Machine.execLog2 x1 x2 x3 x4 s
  | .sigm x1 x2 x3 x4 => Sys2Proof.Machine.execSigm x1 x2 x3 x4 s
  | .tanh x1 x2 x3 x4 => Sys2Proof.Machine.execTanh x1 x2 x3 x4 s
  | .rsqe x1 x2 x3 x4 => Sys2Proof.Machine.execRsqe x1 x2 x3 x4 s
  | .silu x1 x2 x3 x4 => Sys2Proof.Machine.execSilu x1 x2 x3 x4 s
  | .spop x1 x2 x3 => Sys2Proof.Machine.execSpop x1 x2 x3 s
  | .spush x1 x2 x3 => Sys2Proof.Machine.execSpush x1 x2 x3 s
  | .sskip x1 x2 => Sys2Proof.Machine.execSskip x1 x2 s
  | .scountPos x1 x2 => Sys2Proof.Machine.execScountPos x1 x2 s
  | .scountRem x1 x2 => Sys2Proof.Machine.execScountRem x1 x2 s
  | .comm x1 x2 x3 x4 => Sys2Proof.Machine.execComm x1 x2 x3 x4 s
  | .commCl x1 x2 x3 x4 => Sys2Proof.Machine.execCommCl x1 x2 x3 x4 s
  | .commpRot x1 x2 x3 x4 => Sys2Proof.Machine.execCommpRot x1 x2 x3 x4 s
  | .commpBc x1 x2 x3 x4 => Sys2Proof.Machine.execCommpBc x1 x2 x3 x4 s
  | .commpBfly x1 x2 x3 x4 => Sys2Proof.Machine.execCommpBfly x1 x2 x3 x4 s
  | .creduce x1 x2 x3 => Sys2Proof.Machine.execCreduce x1 x2 x3 s
  | .ireduce x1 x2 x3 x4 => Sys2Proof.Machine.execIreduce x1 x2 x3 x4 s
  | .mbrLo x1 x2 x3 => Sys2Proof.Machine.execMbrLo x1 x2 x3 s
  | .mbrHi x1 x2 x3 => Sys2Proof.Machine.execMbrHi x1 x2 x3 s
  | .mbrPair x1 x2 x3 => Sys2Proof.Machine.execMbrPair x1 x2 x3 s
  | .mbwWord x1 x2 x3 => Sys2Proof.Machine.execMbwWord x1 x2 x3 s
  | .mbwPair x1 x2 x3 => Sys2Proof.Machine.execMbwPair x1 x2 x3 s
  | .ardF32 x1 x2 x3 x4 => Sys2Proof.Machine.execArdF32 x1 x2 x3 x4 s
  | .ardI32 x1 x2 x3 x4 => Sys2Proof.Machine.execArdI32 x1 x2 x3 x4 s
  | .ardXaF32 x1 x2 x3 x4 => Sys2Proof.Machine.execArdXaF32 x1 x2 x3 x4 s
  | .ardXaI32 x1 x2 x3 x4 => Sys2Proof.Machine.execArdXaI32 x1 x2 x3 x4 s
  | .ardExp x1 x2 x3 x4 => Sys2Proof.Machine.execArdExp x1 x2 x3 x4 s
  | .ard2 x1 x2 x3 x4 => Sys2Proof.Machine.execArd2 x1 x2 x3 x4 s
  | .ard2Q x1 x2 x3 x4 x5 => Sys2Proof.Machine.execArd2Q x1 x2 x3 x4 x5 s
  | .awrI32 x1 x2 x3 x4 => Sys2Proof.Machine.execAwrI32 x1 x2 x3 x4 s
  | .awrPair x1 x2 x3 x4 => Sys2Proof.Machine.execAwrPair x1 x2 x3 x4 s
  | .awrExp x1 x2 x3 x4 => Sys2Proof.Machine.execAwrExp x1 x2 x3 x4 s
  | .adep x1 x2 x3 x4 => Sys2Proof.Machine.execAdep x1 x2 x3 x4 s
  | .azero x1 => Sys2Proof.Machine.execAzero x1 s
  | .azeroXa x1 => Sys2Proof.Machine.execAzeroXa x1 s
  | .astat x1 x2 => Sys2Proof.Machine.execAstat x1 x2 s
  | .astatClr x1 x2 => Sys2Proof.Machine.execAstatClr x1 x2 s
  | .ascl x1 x2 x3 x4 => Sys2Proof.Machine.execAscl x1 x2 x3 x4 s
  | .nop => Sys2Proof.Machine.execNop s
  | .mileDisarm => Sys2Proof.Machine.execMileDisarm s
  | .kctlAbort => Sys2Proof.Machine.execKctlAbort s
  | .taskRetire => Sys2Proof.Machine.execTaskRetire s
  | .ret => Sys2Proof.Machine.execRet s
  | .uiret => Sys2Proof.Machine.execUiret s
  | .waiti => Sys2Proof.Machine.execWaiti s
  | .bkpt => Sys2Proof.Machine.execBkpt s
  | .fenceC => Sys2Proof.Machine.execFenceC s
  | .pset x1 x2 => Sys2Proof.Machine.execPset x1 x2 s
  | .psetImm x1 x2 x3 => Sys2Proof.Machine.execPsetImm x1 x2 x3 s
  | .psetHi x1 x2 x3 => Sys2Proof.Machine.execPsetHi x1 x2 x3 s
  | .psetAdd x1 x2 x3 => Sys2Proof.Machine.execPsetAdd x1 x2 x3 s
  | .mpost x1 x2 x3 x4 => Sys2Proof.Machine.execMpost x1 x2 x3 x4 s
  | .loop x1 x2 x3 => Sys2Proof.Machine.execLoop x1 x2 x3 s
  | .loopP x1 x2 x3 => Sys2Proof.Machine.execLoopP x1 x2 x3 s
  | .bra x1 x2 x3 => Sys2Proof.Machine.execBra x1 x2 x3 s
  | .kJmp x1 => Sys2Proof.Machine.execKJmp x1 s
  | .kend => Sys2Proof.Machine.execKend s
  | .ktrap x1 => Sys2Proof.Machine.execKtrap x1 s
  | .idle x1 => Sys2Proof.Machine.execIdle x1 s
  | .mwaitk x1 x2 => Sys2Proof.Machine.execMwaitk x1 x2 s
  | .fetchPageFault x1 => Sys2Proof.Machine.execFetchPageFault x1 s
  | .loadResultDelivery x1 => Sys2Proof.Machine.execLoadResultDelivery x1 s
  | .blockedBundleReexecute x1 => Sys2Proof.Machine.execBlockedBundleReexecute x1 s
  | .contextSwitch x1 => Sys2Proof.Machine.execContextSwitch x1 s
  | .gatherlStep x1 => Sys2Proof.Machine.execGatherlStep x1 s
  | .drainComplete x1 => Sys2Proof.Machine.execDrainComplete x1 s
  | .flagStorePerform x1 => Sys2Proof.Machine.execFlagStorePerform x1 s
  | .uiDelivery x1 => Sys2Proof.Machine.execUiDelivery x1 s
  | .uistatusPendingDiscard x1 => Sys2Proof.Machine.execUistatusPendingDiscard x1 s
  | .lspillWrite x1 x2 => Sys2Proof.Machine.execLspillWrite x1 x2 s
  | .ageWrite x1 x2 => Sys2Proof.Machine.execAgeWrite x1 x2 s
  | .tstatKres x1 => Sys2Proof.Machine.execTstatKres x1 s
  | .tstatKabt x1 => Sys2Proof.Machine.execTstatKabt x1 s
  | .tstatActiveClear x1 => Sys2Proof.Machine.execTstatActiveClear x1 s
  | .retreqClear x1 => Sys2Proof.Machine.execRetreqClear x1 s
  | .registerWrite x1 x2 x3 => Sys2Proof.Machine.execRegisterWrite x1 x2 x3 s
  | .engineAccept x1 x2 => Sys2Proof.Machine.execEngineAccept x1 x2 s
  | .requestGeneration x1 x2 => Sys2Proof.Machine.execRequestGeneration x1 x2 s
  | .calendarSlot x1 x2 => Sys2Proof.Machine.execCalendarSlot x1 x2 s
  | .lineWrite x1 => Sys2Proof.Machine.execLineWrite x1 s
  | .storeAcknowledge x1 => Sys2Proof.Machine.execStoreAcknowledge x1 s
  | .reductionElement x1 => Sys2Proof.Machine.execReductionElement x1 s
  | .remoteRequest x1 => Sys2Proof.Machine.execRemoteRequest x1 s
  | .fabricRequestLost x1 => Sys2Proof.Machine.execFabricRequestLost x1 s
  | .responseDropped x1 => Sys2Proof.Machine.execResponseDropped x1 s
  | .hostCxlMemAccess x1 x2 x3 x4 => Sys2Proof.Machine.execHostCxlMemAccess x1 x2 x3 x4 s
  | .engineTranslationFault x1 x2 => Sys2Proof.Machine.execEngineTranslationFault x1 x2 s
  | .queueResume x1 x2 => Sys2Proof.Machine.execQueueResume x1 x2 s
  | .engineCommandComplete x1 x2 => Sys2Proof.Machine.execEngineCommandComplete x1 x2 s
  | .xlateResolve x1 x2 => Sys2Proof.Machine.execXlateResolve x1 x2 s
  | .walkComplete x1 x2 x3 => Sys2Proof.Machine.execWalkComplete x1 x2 x3 s
  | .priPageRequest x1 => Sys2Proof.Machine.execPriPageRequest x1 s
  | .prgResponseSuccess x1 => Sys2Proof.Machine.execPrgResponseSuccess x1 s
  | .prgResponseInvalid x1 => Sys2Proof.Machine.execPrgResponseInvalid x1 s
  | .prgResponseFailure x1 => Sys2Proof.Machine.execPrgResponseFailure x1 s
  | .atsInvalidateRequest x1 x2 x3 => Sys2Proof.Machine.execAtsInvalidateRequest x1 x2 x3 s
  | .tokenAutoConfirm x1 => Sys2Proof.Machine.execTokenAutoConfirm x1 s
  | .faultRingCopy x1 => Sys2Proof.Machine.execFaultRingCopy x1 s
  | .fheadWrite x1 => Sys2Proof.Machine.execFheadWrite x1 s
  | .packetIssue x1 => Sys2Proof.Machine.execPacketIssue x1 s
  | .idleIssueCycle x1 => Sys2Proof.Machine.execIdleIssueCycle x1 s
  | .resultLanding x1 => Sys2Proof.Machine.execResultLanding x1 s
  | .kernelStart x1 => Sys2Proof.Machine.execKernelStart x1 s
  | .kernelCodeFetch x1 => Sys2Proof.Machine.execKernelCodeFetch x1 s
  | .krunComplete x1 => Sys2Proof.Machine.execKrunComplete x1 s
  | .kernelAbortStop x1 => Sys2Proof.Machine.execKernelAbortStop x1 s
  | .kernelFreeze x1 => Sys2Proof.Machine.execKernelFreeze x1 s
  | .kernelTrapDelivery x1 => Sys2Proof.Machine.execKernelTrapDelivery x1 s
  | .kernelResume x1 => Sys2Proof.Machine.execKernelResume x1 s
  | .routineStart x1 => Sys2Proof.Machine.execRoutineStart x1 s
  | .mroutCopy x1 => Sys2Proof.Machine.execMroutCopy x1 s
  | .routineRetire x1 => Sys2Proof.Machine.execRoutineRetire x1 s
  | .movePair x1 x2 => Sys2Proof.Machine.execMovePair x1 x2 s
  | .loopr x1 x2 x3 => Sys2Proof.Machine.execLoopr x1 x2 x3 s
  | .brg x1 x2 => Sys2Proof.Machine.execBrg x1 x2 s
  | .jmpr x1 => Sys2Proof.Machine.execJmpr x1 s
  | .setw x1 x2 x3 => Sys2Proof.Machine.execSetw x1 x2 x3 s
  | .aload x1 x2 => Sys2Proof.Machine.execAload x1 x2 s
  | .bload x1 x2 => Sys2Proof.Machine.execBload x1 x2 s
  | .expo x1 x2 => Sys2Proof.Machine.execExpo x1 x2 s
  | .pass x1 x2 => Sys2Proof.Machine.execPass x1 x2 s
  | .aswapExchange x1 x2 => Sys2Proof.Machine.execAswapExchange x1 x2 s
  | .aswapStore x1 x2 => Sys2Proof.Machine.execAswapStore x1 x2 s
  | .aswapSpill x1 x2 x3 => Sys2Proof.Machine.execAswapSpill x1 x2 x3 s
  | .aclr x1 => Sys2Proof.Machine.execAclr x1 s
  | .xdep x1 x2 x3 => Sys2Proof.Machine.execXdep x1 x2 x3 s
  | .done => Sys2Proof.Machine.execDone s
  | .addt x1 x2 => Sys2Proof.Machine.execAddt x1 x2 s
  | .cmpt x1 x2 => Sys2Proof.Machine.execCmpt x1 x2 s
  | .mile x1 x2 => Sys2Proof.Machine.execMile x1 x2 s
  | .pairLock x1 => Sys2Proof.Machine.execPairLock x1 s
  | .pairRelease x1 => Sys2Proof.Machine.execPairRelease x1 s
  | .blockReadAdmit x1 x2 => Sys2Proof.Machine.execBlockReadAdmit x1 x2 s
  | .wsBankRefresh x1 x2 => Sys2Proof.Machine.execWsBankRefresh x1 x2 s
  | .wsBankService x1 x2 => Sys2Proof.Machine.execWsBankService x1 x2 s
  | .wsEnterLoad x1 => Sys2Proof.Machine.execWsEnterLoad x1 s
  | .wsSealComplete x1 => Sys2Proof.Machine.execWsSealComplete x1 s
  | .treeBindExecute x1 x2 => Sys2Proof.Machine.execTreeBindExecute x1 x2 s
  | .descent x1 x2 => Sys2Proof.Machine.execDescent x1 x2 s
  | .expansionEntry x1 x2 => Sys2Proof.Machine.execExpansionEntry x1 x2 s
  | .backupRecord x1 x2 => Sys2Proof.Machine.execBackupRecord x1 x2 s
  | .treeRerootExecute x1 x2 => Sys2Proof.Machine.execTreeRerootExecute x1 x2 s
  | .treeSweepExecute x1 x2 => Sys2Proof.Machine.execTreeSweepExecute x1 x2 s
  | .treePathExecute x1 x2 => Sys2Proof.Machine.execTreePathExecute x1 x2 s
  | .treeReadExecute x1 x2 => Sys2Proof.Machine.execTreeReadExecute x1 x2 s
  | .treeFlushExecute x1 x2 => Sys2Proof.Machine.execTreeFlushExecute x1 x2 s
  | .ticketGapTimeout x1 x2 => Sys2Proof.Machine.execTicketGapTimeout x1 x2 s
  | .nodeCacheEviction x1 x2 x3 => Sys2Proof.Machine.execNodeCacheEviction x1 x2 x3 s
  | .takeRecord x1 => Sys2Proof.Machine.execTakeRecord x1 s
  | .placement x1 => Sys2Proof.Machine.execPlacement x1 s
  | .restore x1 => Sys2Proof.Machine.execRestore x1 s
  | .swap x1 => Sys2Proof.Machine.execSwap x1 s
  | .preemption x1 => Sys2Proof.Machine.execPreemption x1 s
  | .spill x1 => Sys2Proof.Machine.execSpill x1 s
  | .agingMove x1 => Sys2Proof.Machine.execAgingMove x1 s
  | .reserving x1 => Sys2Proof.Machine.execReserving x1 s
  | .taskRetirement x1 => Sys2Proof.Machine.execTaskRetirement x1 s
  | .waymarkArrival x1 => Sys2Proof.Machine.execWaymarkArrival x1 s
  | .semWaiterServed x1 x2 => Sys2Proof.Machine.execSemWaiterServed x1 x2 s
  | .kick x1 x2 => Sys2Proof.Machine.execKick x1 x2 s
  | .partCreate x1 x2 x3 x4 => Sys2Proof.Machine.execPartCreate x1 x2 x3 x4 s
  | .partDestroy x1 => Sys2Proof.Machine.execPartDestroy x1 s
  | .amapWrite x1 x2 x3 => Sys2Proof.Machine.execAmapWrite x1 x2 x3 s
  | .pasidSet x1 x2 x3 => Sys2Proof.Machine.execPasidSet x1 x2 x3 s
  | .saveSet x1 x2 x3 => Sys2Proof.Machine.execSaveSet x1 x2 x3 s
  | .queuePriv x1 x2 x3 => Sys2Proof.Machine.execQueuePriv x1 x2 x3 s
  | .taskEnd x1 x2 => Sys2Proof.Machine.execTaskEnd x1 x2 s
  | .fringSet x1 x2 => Sys2Proof.Machine.execFringSet x1 x2 s
  | .migrateExecute x1 => Sys2Proof.Machine.execMigrateExecute x1 s
  | .migrateClose x1 => Sys2Proof.Machine.execMigrateClose x1 s
  | .scrubLine x1 x2 => Sys2Proof.Machine.execScrubLine x1 x2 s
  | .patrol x1 x2 x3 x4 x5 => Sys2Proof.Machine.execPatrol x1 x2 x3 x4 x5 s
  | .patrolPeriodEnd x1 x2 => Sys2Proof.Machine.execPatrolPeriodEnd x1 x2 s
  | .debugToken x1 => Sys2Proof.Machine.execDebugToken x1 s
  | .returnRecord x1 => Sys2Proof.Machine.execReturnRecord x1 s
  | .attest x1 => Sys2Proof.Machine.execAttest x1 s
  | .configurationRecord x1 => Sys2Proof.Machine.execConfigurationRecord x1 s
  | .boot x1 x2 => Sys2Proof.Machine.execBoot x1 x2 s
  | .powerOff => Sys2Proof.Machine.execPowerOff s
  | .pStateChange x1 x2 => Sys2Proof.Machine.execPStateChange x1 x2 s
  | .retrain x1 x2 => Sys2Proof.Machine.execRetrain x1 x2 s
  | .c1Entry x1 => Sys2Proof.Machine.execC1Entry x1 s
  | .c1Exit x1 => Sys2Proof.Machine.execC1Exit x1 s
  | .c3Entry x1 => Sys2Proof.Machine.execC3Entry x1 s
  | .c3Exit x1 => Sys2Proof.Machine.execC3Exit x1 s
  | .priEnable => Sys2Proof.Machine.execPriEnable s
  | .debugRequest x1 x2 x3 => Sys2Proof.Machine.execDebugRequest x1 x2 x3 s
  | .retrainEnd x1 x2 => Sys2Proof.Machine.execRetrainEnd x1 x2 s
  | .queueDestroyed x1 => Sys2Proof.Machine.execQueueDestroyed x1 s

end Sys2Proof.Machine
end

