-- ==== Sys2Proof/Machine/Step.lean ====
section
/-!
DEFINITION. One step of the package: the next turn of the agenda, or, where it lists none, the bundle at the
PC of the context in focus (log 2); and the state in which the next step runs a given instruction.
-/

namespace Sys2Proof.Machine

open Sys2Proof

/-- A turn taken. -/
def takeTurn (t : Turn) (s : State) : Host.Outcome State Fault Refusal :=
  match t with
  | .event i => exec i s
  | .bundle g => .next (match s.runningOn g with
    | none => s
    | some cx => bundleTurn cx s)
  | .packet g => .next (issuePacket g s)
  | .routine g => .next (routineStep g s)
  | .ac => .next (packageAc s)
  | .mreq v => .next (s.writeMreq v)

/-- One step (log 2). -/
def step (s : State) : Host.Outcome State Fault Refusal :=
  match s.agenda with
  | [] => .next (bundleTurn s.focus s)
  | t :: ts => takeTurn t { s with agenda := ts }

/-! ### An instruction to be run next (log 2) -/

/-- The task in whose name it runs, on context 0. -/
def State.withTask (s : State) : State :=
  let s := { s with agenda := [], focus := 0 }
  let s := s.modHub fun h => { h with tokens := [] }
  let s := s.modDie 0 fun d => { d with c3 := false, c3Exit := none }
  let s := [1, 2, 3].foldl (fun s cx => s.modCtx cx fun c =>
    { c with status := if c.status = .ready ∨ c.status = .running then .idle else c.status }) s
  (s.modCore 0 fun c => { c with halted := false, kern := none, plane := none }).modCtx 0 fun c => { c with
    status := .running
    task := 1
    retiring := false
    drain := none
    heldK := []
    armed := none
    refused := none
    pc := 4096
    slots := [0, 1, 2, 3, 4, 5, 6, 7] }

/-- Bytes stored at the page that the context's PC lies in, which its core translates, and which its instruction cache
holds. -/
def State.withCode (s : State) (ws : List Nat) : State :=
  let c := s.ctx 0
  let a := s.hub.pkg * 2 ^ 48 + 4096
  let page : Tlb := { pasid := c.pasid, base := 4096, size := 0, phys := a, host := false, read := true, write := true }
  let s := s.modHub fun h => { h with
    parts := smPut none h.parts c.part (some ((smGet none h.parts c.part).getD { cores := [0], key := 0, tag := 0 }))
    pasids := smPut {} h.pasids c.pasid.toNat { smGet {} h.pasids c.pasid.toNat with mode := .walk }
    amap := smPut 0 h.amap 0 (BitVec.ofNat 64 (s.partKey c.part * 2 ^ 48 + 2 ^ 34)) }
  let s := s.modCore 0 fun k => { k with tlb := [page], icache := [⟨c.pasid, 4096, ws.map (BitVec.ofNat 32)⟩] }
  (s.wrMem false a (ws.flatMap (leBytes 4))).mark false a false

/-- A bundle at the PC. -/
def State.withBundle (s : State) (ws : List Nat) : State := s.withTask.withCode ws

/-- A command that an engine runs, as accepted. -/
def State.withActive (s : State) (k : Cmd) : State :=
  s.modCtx 0 fun c => { c with posted := [], active := [{ cmd := k, ord := 0, started := true, running := true }] }

/-- A kernel whose next packet holds one slot word. -/
def State.withPacket (s : State) (k : KClass) (w : Nat) : State :=
  let s := s.withTask
  let c := s.ctx 0
  let kern : Kernel := { cx := 0, num := 1, image := 4096, pasid := c.pasid }
  let s := s.withActive { queue := .krn, num := 1, kind := .krun 4096 [], recOff := none, reads := [], writes := [],
                          board := false, ord := 0 }
  let s := s.modCore 0 fun g => { g with
    kern := some kern
    kcode := [{ pasid := c.pasid, pkt := 4096, va := 4096, word := BitVec.ofNat 32 (packetHeader k 0), image := 4096 },
              { pasid := c.pasid, pkt := 4096, va := 4100, word := BitVec.ofNat 32 (w % 2 ^ 31 + 2 ^ 31), image := 4096 }] }
  { s with agenda := [.packet 0] }

/-- A routine whose next word is this one. -/
def State.withRoutine (s : State) (w : Nat) : State :=
  let s := (s.withTask).withActive { queue := .mat, num := 1, kind := .matrix 0 [] [] [] [] 0 false, recOff := none,
                                     reads := [], writes := [], board := false, ord := 0 }
  let s := s.modCore 0 fun g => { g with
    plane := some { cx := 0, num := 1, w := 0, count := 1 }
    store := smPut 0 g.store 0 (BitVec.ofNat 64 w) }
  { s with agenda := [.routine 0] }

/-- A state in which the next step runs the instruction whose bits are w: a bundle, a control word in slot 0
of one, a routine word, or a kernel slot word alone in its packet. -/
def State.withFetchWord (s : State) (nbits w : Nat) : State :=
  if nbits = 128 then s.withBundle [fld w 0 32, fld w 32 32, fld w 64 32, fld w 96 32]
  else if nbits = 64 then s.withRoutine w
  else
    let v := w % 2 ^ 32
    if isLdi64 v then s.withBundle [literalHeader, v, 0, 0]
    else match decodeSlot v none with
      | some _ => s.withBundle [v, nopWord, nopWord, nopWord]
      | none => match firstClass (v % 2 ^ 31) with
        | some (k, _) => s.withPacket k v
        | none => s.withBundle [v, nopWord, nopWord, nopWord]

end Sys2Proof.Machine
end

