-- ==== Sys2Proof/Safety.lean ====
section
/-!
DEFINITION. What the claims mean by a safe run: the hard-wired register reads zero, memory and the sparse
maps keep their canonical form, and a step goes on.
-/

namespace Sys2Proof.Machine

open Sys2Proof

/-- A step that goes on. -/
def steps (s t : State) : Prop := step s = .next t

/-- States that a run from s passes through. -/
inductive Reaches (s : State) : State → Prop where
  | refl : Reaches s s
  | step {t u : State} : Reaches s t → steps t u → Reaches s u

/-- The machine never stops: from every state a step goes on. -/
def neverStops : Prop := ∀ s : State, ∃ t : State, steps s t

/-- A property that every step keeps. -/
def Kept (p : State → Prop) : Prop := ∀ s t : State, p s → steps s t → p t

end Sys2Proof.Machine
end

