-- ==== Sys2Proof/Certificates/Slice0/Obligations.lean ====
section
/-!
DEFINITION. The statements for the provers. Each says what instructions do in the spec's own terms; the
tables and helpers before a statement are its reading of the rules it cites. A control instruction
is stated in a bundle of its own on the context in focus (log 22), a kernel operation in a packet of its
own on that context's core (log 21).
-/

namespace Sys2Proof.Claims

open Sys2Proof Sys2Proof.Machine

/-! ### Encodings and steps -/

/-- What the words of an instruction decode to, alone: a control instruction in its bundle, a kernel
operation in its packet, a routine word. -/
def Decodes (i : Instr) : Prop := decodeAlone i.form (encode i) = some i

/-- No ready context of a core has a higher priority than the one that runs on it (R19). -/
def NoneAhead (s : State) (g : Nat) : Prop :=
  ∀ cx ∈ ctxsOf g, (s.ctx cx).status = .ready → (∃ old ∈ ctxsOf g, (s.ctx old).status = .running) ∧
    ∀ old ∈ ctxsOf g, (s.ctx old).status = .running → s.effPrio old ≤ s.effPrio cx

/-- A context is at a bundle boundary from which its next bundle is fetched and run: it runs on a core that
is not halted, on a die outside C3, no ready context of the core has a higher priority, and no kernel trap, user-level
interrupt or refused fetch is due. -/
def AtBundle (s : State) : Prop :=
  s.agenda = [] ∧ s.live s.focus = true ∧ NoneAhead s (s.home s.focus) ∧
    (s.ctx s.focus).kernelTrapDue = false ∧
    (s.ctx s.focus).uiReady = false ∧ (s.ctx s.focus).refused ≠ some (.fetch (s.ctx s.focus).pc)

/-- No register of a list awaits a result in the context in focus, no drain of it is outstanding, and no wait or
acquisition of it at another package's semaphore stands: its bundle does not wait (R108, R129, R163). -/
def Unhindered (s : State) (rs : List (BitVec 5)) : Prop :=
  (∀ r ∈ rs, s.awaited s.focus r.toNat = false) ∧
    (∀ i ∈ (s.ctx s.focus).drain.getD [], s.outstanding i = false) ∧
    ∀ r ∈ s.reqs, r.cx = s.focus → r.op.waits = false

/-- The bundle has performed, from the state s to the state t but for the PC: it advances by 16 (R73). -/
def next16 (s t : State) : State := t.modCtx s.focus fun c => { c with pc := (s.ctx s.focus).pc + 16 }

/-! ### Scalar results (R109 to R116) -/

/-- A number wrapped to 64 bits, and a truth value (R3). -/
def wrap (n : Int) : Word := BitVec.ofInt 64 n
def truth (b : Bool) : Word := if b then 1 else 0

/-- An immediate's value, sign- or zero-extended from its own width, or from that width and 8 (R76). -/
def sextImm {n : Nat} (i : Imm n) : Word :=
  match i.ext with
  | none => wrap i.lo.toInt
  | some e => wrap (e ++ i.lo).toInt
def zextImm {n : Nat} (i : Imm n) : Word :=
  match i.ext with
  | none => wrap i.lo.toNat
  | some e => wrap (e.toNat * 2 ^ n + i.lo.toNat : Nat)

/-- The registers an ALU instruction names, its destination, its result and the result's poison tag, as
Tables 4.1 and R110 to R112 give them: x reads a register, p its tag. -/
def aluRule (x : BitVec 5 → Word) (p : BitVec 5 → Bool) :
    Instr → Option (List (BitVec 5) × BitVec 5 × Word × Bool)
  | .add d a b => some ([d, a, b], d, wrap ((x a).toInt + (x b).toInt), p a || p b)
  | .sub d a b => some ([d, a, b], d, wrap ((x a).toInt - (x b).toInt), p a || p b)
  | .and_ d a b => some ([d, a, b], d, x a &&& x b, p a || p b)
  | .or_ d a b => some ([d, a, b], d, x a ||| x b, p a || p b)
  | .xor d a b => some ([d, a, b], d, x a ^^^ x b, p a || p b)
  | .andn d a b => some ([d, a, b], d, x a &&& ~~~ x b, p a || p b)
  | .shl d a b => some ([d, a, b], d, wrap ((x a).toNat * 2 ^ ((x b).toNat % 64) : Nat), p a || p b)
  | .shr d a b => some ([d, a, b], d, wrap ((x a).toNat / 2 ^ ((x b).toNat % 64) : Nat), p a || p b)
  | .sra d a b => some ([d, a, b], d, wrap ((x a).toInt / 2 ^ ((x b).toNat % 64)), p a || p b)
  | .rol d a b => some ([d, a, b], d, rotated (x a) ((x b).toNat % 64), p a || p b)
  | .minI d a b => some ([d, a, b], d, if (x a).toInt ≤ (x b).toInt then x a else x b, p a || p b)
  | .minN d a b => some ([d, a, b], d, if (x a).toNat ≤ (x b).toNat then x a else x b, p a || p b)
  | .maxI d a b => some ([d, a, b], d, if (x b).toInt ≤ (x a).toInt then x a else x b, p a || p b)
  | .maxN d a b => some ([d, a, b], d, if (x b).toNat ≤ (x a).toNat then x a else x b, p a || p b)
  | .clz d a => some ([d, a], d, wrap (if x a = 0 then 64 else 63 - (x a).toNat.log2 : Nat), p a)
  | .popc d a => some ([d, a], d, wrap (((List.range 64).filter fun k => (x a).getLsbD k).length), p a)
  | .sel d a b c => some ([d, a, b, c], d, if x c ≠ 0 then x a else x b, p c || (if x c ≠ 0 then p a else p b))
  | .addi d a i => some ([d, a], d, wrap ((x a).toInt + (sextImm i).toInt), p a)
  | .andi d a i => some ([d, a], d, x a &&& sextImm i, p a)
  | .ori d a i => some ([d, a], d, x a ||| zextImm i, p a)
  | .xori d a i => some ([d, a], d, x a ^^^ zextImm i, p a)
  | .shli d a n => some ([d, a], d, wrap ((x a).toNat * 2 ^ n.toNat : Nat), p a)
  | .shri d a n => some ([d, a], d, wrap ((x a).toNat / 2 ^ n.toNat : Nat), p a)
  | .srai d a n => some ([d, a], d, wrap ((x a).toInt / 2 ^ n.toNat), p a)
  | .roli d a n => some ([d, a], d, rotated (x a) n.toNat, p a)
  | .ldi d k i => some ([d], d, wrap (i.toNat * 2 ^ (16 * k.toNat) : Nat), false)
  | .ldiKeep d k i => some ([d, d], d, wrap ((x d).toNat - halfAt (x d) k.toNat + i.toNat * 2 ^ (16 * k.toNat) : Nat), p d)
  | .ldi64 d lit => some ([d], d, lit, false)
  | _ => none
where
  rotated (v : Word) (n : Nat) : Word := if n = 0 then v else v <<< n ||| v >>> (64 - n)
  halfAt (v : Word) (k : Nat) : Nat := v.toNat / 2 ^ (16 * k) % 2 ^ 16 * 2 ^ (16 * k)

/-- Whether a condition of Table 4.2 holds. -/
def condHolds (c : BitVec 3) (a b : Word) : Bool :=
  (c = 0 ∧ a = b) ∨ (c = 1 ∧ a ≠ b) ∨ (c = 2 ∧ a.toInt < b.toInt) ∨ (c = 3 ∧ b.toInt ≤ a.toInt) ∨
    (c = 4 ∧ a.toNat < b.toNat) ∨ (c = 5 ∧ b.toNat ≤ a.toNat)

/-- The effective width of a field (R115). -/
def width (c o : Nat) : Nat := min (if c = 0 then 64 else c) (64 - o)

/-- The field of w bits at offset o of a value, as n64 and as i64, and the value with that field replaced
by the low bits of another (R115). -/
def fieldN (v : Word) (w o : Nat) : Word := wrap (v.toNat / 2 ^ o % 2 ^ w : Nat)
def fieldI (v : Word) (w o : Nat) : Word :=
  let f := v.toNat / 2 ^ o % 2 ^ w
  wrap (if 2 ^ (w - 1) ≤ f then (f : Int) - 2 ^ w else f)
def fieldIn (d v : Word) (w o : Nat) : Word :=
  wrap (d.toNat - d.toNat / 2 ^ o % 2 ^ w * 2 ^ o + v.toNat % 2 ^ w * 2 ^ o : Nat)

/-- The same for comparisons, multiplication and division, and bit fields (R113 to R116). -/
def mulRule (x : BitVec 5 → Word) (p : BitVec 5 → Bool) :
    Instr → Option (List (BitVec 5) × BitVec 5 × Word × Bool)
  | .cmp d a b c => some ([d, a, b], d, truth (condHolds c (x a) (x b)), p a || p b)
  | .cmpi d a c i => some ([d, a], d, truth (condHolds c (x a) (sextImm i)), p a)
  | .mul d a b => some ([d, a, b], d, wrap ((x a).toInt * (x b).toInt), p a || p b)
  | .mulhI d a b => some ([d, a, b], d, wrap ((x a).toInt * (x b).toInt / 2 ^ 64), p a || p b)
  | .mulhN d a b => some ([d, a, b], d, wrap ((x a).toNat * (x b).toNat / 2 ^ 64 : Nat), p a || p b)
  | .divI d a b => some ([d, a, b], d, if x b = 0 then -1 else wrap ((x a).toInt.tdiv (x b).toInt), p a || p b)
  | .divN d a b => some ([d, a, b], d, if x b = 0 then -1 else wrap ((x a).toNat / (x b).toNat : Nat), p a || p b)
  | .remI d a b => some ([d, a, b], d, if x b = 0 then x a else wrap ((x a).toInt.tmod (x b).toInt), p a || p b)
  | .remN d a b => some ([d, a, b], d, if x b = 0 then x a else wrap ((x a).toNat % (x b).toNat : Nat), p a || p b)
  | .bfxI d a b => some ([d, a, b], d, fieldI (x a) (width (code (x b)) ((x b).toNat % 64)) ((x b).toNat % 64), p a || p b)
  | .bfxN d a b => some ([d, a, b], d, fieldN (x a) (width (code (x b)) ((x b).toNat % 64)) ((x b).toNat % 64), p a || p b)
  | .bfi d a b => some ([d, d, a, b], d,
      fieldIn (x d) (x a) (width (code (x b)) ((x b).toNat % 64)) ((x b).toNat % 64), p d || p a || p b)
  | .fshl d a b c => some ([d, a, b, c], d,
      wrap (((x a).toNat * 2 ^ 64 + (x c).toNat) * 2 ^ ((x b).toNat % 64) / 2 ^ 64 : Nat), p a || p b || p c)
  | .fshr d a b c => some ([d, a, b, c], d,
      wrap (((x a).toNat * 2 ^ 64 + (x c).toNat) / 2 ^ ((x b).toNat % 64) : Nat), p a || p b || p c)
  | .bfxIImm d a w o => some ([d, a], d, fieldI (x a) (width w.toNat o.toNat) o.toNat, p a)
  | .bfxNImm d a w o => some ([d, a], d, fieldN (x a) (width w.toNat o.toNat) o.toNat, p a)
  | .bfiImm d a w o => some ([d, a], d, fieldIn (x d) (x a) (width w.toNat o.toNat) o.toNat, p d || p a)
  | _ => none
where
  code (y : Word) : Nat := y.toNat / 2 ^ 8 % 64

/-- What an instruction with a scalar result gives in a bundle of its own. -/
def gives (i : Instr) (s : State) (r : List (BitVec 5) × BitVec 5 × Word × Bool) : Prop :=
  Unhindered s r.1 → exec i s = .next (next16 s (s.wrX s.focus r.2.1 r.2.2.1 r.2.2.2))

end Sys2Proof.Claims

/-- NOP performs nothing, and an ALU instruction writes its result to xd with the poison of what it read (R18, R109 to
R112). A comparison, product, quotient, remainder or bit-field instruction writes its result to xd (R18, R113 to
R116). -/
def Obligations.ScalarResults : Prop :=
  open Sys2Proof Sys2Proof.Machine Sys2Proof.Claims in
  (∀ (s : State),
    (Unhindered s [] → exec .nop s = .next (next16 s s)) ∧
    ∀ i r, aluRule (s.rdX s.focus) (s.tagX s.focus) i = some r → gives i s r) ∧
  (∀ (s : State) (i : Instr) r, mulRule (s.rdX s.focus) (s.tagX s.focus) i = some r → gives i s r)

namespace Sys2Proof.Claims

open Sys2Proof Sys2Proof.Machine

/-! ### Handles, loads, stores and atomics (R117 to R125) -/

/-- An access through a handle: the registers its instruction names, whether an offset or atomic operand is
poisoned, the handle, the offset, the bytes, the permissions it needs, the request it makes, and whether it is
a release. -/
structure Access where
  regs : List (BitVec 5)
  bad  : Bool
  h    : BitVec 4
  off  : Word
  n    : Nat
  r    : Bool
  w    : Bool
  op   : ReqOp
  rel  : Bool

/-- The bytes of an access by its size code (Table 4.5). -/
def bytesOf (z : BitVec 3) : Nat :=
  if z = 0 ∨ z = 4 then 1 else if z = 1 ∨ z = 5 then 2 else if z = 2 ∨ z = 6 then 4 else 8

/-- The accesses of loads, stores and atomics. A load is sign-extended for size codes 4 to 6. -/
def accessRule (x : BitVec 5 → Word) (p : BitVec 5 → Bool) : Instr → Option Access
  | .ld d h z i => some ⟨[d], false, h, wrap ((sextImm i).toInt * bytesOf z), bytesOf z, true, false,
      .load d.toNat (bytesOf z) (4 ≤ z.toNat) false, false⟩
  | .ldAcq d h z i => some ⟨[d], false, h, wrap ((sextImm i).toInt * bytesOf z), bytesOf z, true, false,
      .load d.toNat (bytesOf z) (4 ≤ z.toNat) true, false⟩
  | .ldx d h z b c => some ⟨[d, b], p b, h, wrap ((x b).toInt * 2 ^ c.toNat), bytesOf z, true, false,
      .load d.toNat (bytesOf z) (4 ≤ z.toNat) false, false⟩
  | .st d h z i => some ⟨[d], false, h, wrap ((sextImm i).toInt * bytesOf z), bytesOf z, false, true,
      .store (leBytes (bytesOf z) (x d).toNat) (p d) false, false⟩
  | .stRel d h z i => some ⟨[d], false, h, wrap ((sextImm i).toInt * bytesOf z), bytesOf z, false, true,
      .store (leBytes (bytesOf z) (x d).toNat) (p d) true, true⟩
  | .stx d h z b c => some ⟨[d, b], p b, h, wrap ((x b).toInt * 2 ^ c.toNat), bytesOf z, false, true,
      .store (leBytes (bytesOf z) (x d).toNat) (p d) false, false⟩
  | .amoAdd d a b h w => some (amo .add d a b h w)
  | .amoSwap d a b h w => some (amo .swap d a b h w)
  | .amoCas d a b h w => some (amo .cas d a b h w)
  | .amoMinI d a b h w => some (amo .minI d a b h w)
  | .amoMinN d a b h w => some (amo .minN d a b h w)
  | .amoMaxI d a b h w => some (amo .maxI d a b h w)
  | .amoMaxN d a b h w => some (amo .maxN d a b h w)
  | .amoAnd d a b h w => some (amo .and d a b h w)
  | .amoOr d a b h w => some (amo .or d a b h w)
  | .amoXor d a b h w => some (amo .xor d a b h w)
  | _ => none
where
  amo (op : AmoOp) (d a b : BitVec 5) (h : BitVec 4) (w : BitVec 1) : Access :=
    ⟨[d, a, b], p a || p b, h, x a, if w = 1 then 8 else 4, true, true,
      .amo op d.toNat (w = 1) (x b) (x d), false⟩

/-- The handle of an access, and the address it goes to: the handle's VA plus the offset, wrapped. -/
def handleOf (s : State) (m : Access) : Handle := (s.ctx s.focus).handle m.h.toNat
def addressOf (s : State) (m : Access) : Word := (handleOf s m).va + m.off

/-- The access lies wholly within the handle's page. -/
def Within (s : State) (m : Access) : Prop :=
  (handleOf s m).base.toNat ≤ (addressOf s m).toNat ∧
    (addressOf s m).toNat + m.n ≤ (handleOf s m).base.toNat + pageBytes (handleOf s m).size

/-- The handle grants what the access needs. -/
def Granted (s : State) (m : Access) : Prop :=
  (m.r = true → (handleOf s m).read = true) ∧ (m.w = true → (handleOf s m).write = true)

/-- The physical address of the access, and its place: in host or device memory, and where there. -/
def physOf (s : State) (m : Access) : Nat :=
  (handleOf s m).phys + ((addressOf s m).toNat - (handleOf s m).base.toNat)
def placeOf (s : State) (m : Access) : Bool × Nat := s.resolve (handleOf s m).host (physOf s m)

/-- What the attribute map says against the access (R300): that its place is not backed, 7, or refused, 8. -/
def mapRefuses (s : State) (m : Access) : Option Nat :=
  s.refusal (s.ctx s.focus).part (handleOf s m).host (physOf s m)

/-- A flag store of the context to the bytes of the access has not performed (R295). -/
def FlagBefore (s : State) (m : Access) : Prop :=
  s.flagPending s.focus (placeOf s m).1 (placeOf s m).2 m.n = true

/-- An atomic may be performed at a place: device memory, or host memory marked SYSTEM (R125). -/
def AtomicPlace (s : State) (m : Access) : Prop :=
  (∃ op d dw b c, m.op = .amo op d dw b c) → (placeOf s m).1 = true →
    amValid (s.hmapEntry (placeOf s m).2) = true ∧ amSystem (s.hmapEntry (placeOf s m).2) = true

/-- The request of an access in flight: it performs after the context's earlier accesses to its bytes and its
earlier acquiring operations, a release after every access of the context in flight too (R122, R295, R296). -/
def inFlight (s : State) (m : Access) : State :=
  s.addReq { id := 0, cx := s.focus, op := m.op, va := addressOf s m, pasid := (s.ctx s.focus).pasid,
             phys := (placeOf s m).2, host := (placeOf s m).1, gen := s.now,
             after := if m.rel then s.covered s.focus .sys ++ s.acquiring s.focus
               else orderedAfter s s.focus (placeOf s m).1 (placeOf s m).2 m.n,
             served := none, due := none, data := [], dpois := false, group := none, admitted := false,
             page := (handleOf s m).size }

/-- A trap of slot 0 of the context in focus, and that context blocked on a condition. -/
def traps (s : State) (cause sub : Nat) (va : Word) : Host.Outcome State Fault Refusal :=
  .next (s.trap s.focus 0 cause sub 0 va)
def blocks (s : State) (w : Block) : Host.Outcome State Fault Refusal := .next (s.block s.focus w)

/-- A loaded value of n bytes: zero- or sign-extended (Table 4.5). -/
def loaded (n : Nat) (signed : Bool) (v : Nat) : Word :=
  let u := v % 2 ^ (8 * n)
  wrap (if signed ∧ 2 ^ (8 * n - 1) ≤ u then (u : Int) - 2 ^ (8 * n) else u)

/-- The new value of an atomic on w bits, or none where it writes nothing (R124). -/
def atomicNew (op : AmoOp) (w : Nat) (old b c : Nat) : Option Nat :=
  let i (n : Nat) : Int := (BitVec.ofNat w n).toInt
  match op with
  | .add => some ((old + b) % 2 ^ w)
  | .swap => some b
  | .cas => if old = c then some b else none
  | .minI => some (if i old ≤ i b then old else b)
  | .minN => some (min old b)
  | .maxI => some (if i b ≤ i old then old else b)
  | .maxN => some (max old b)
  | .and => some (old &&& b)
  | .or => some (old ||| b)
  | .xor => some (old ^^^ b)

/-- What an atomic returns of the old value: min.i and max.i of a word sign-extend it (R124). -/
def atomicResult (op : AmoOp) (dword : Bool) (old : Nat) : Word :=
  if dword then wrap old
  else loaded 4 (op = .minI ∨ op = .maxI) old

/-! ### Local accesses (R126) -/

/-- A local access: LDL with its destination or STL with its data register; the register and the bytes
added to form the address; the space, the size code. -/
def localRule : Instr → Option (Bool × BitVec 5 × BitVec 5 × Bool × BitVec 3 × Word)
  | .ldl d a p z o => some (true, d, a, p = 1, z, wrap ((sextImm o).toInt * bytesOf z))
  | .stl d a p z o => some (false, d, a, p = 1, z, wrap ((sextImm o).toInt * bytesOf z))
  | _ => none

/-- The address of a local access in its space, the space's extent, and its first byte in the core's
memory. -/
def localAddr (s : State) (a : BitVec 5) (off : Word) : Nat := (s.rdX s.focus a + off).toNat
def localEnd (s : State) (srf : Bool) : Nat := if srf then (s.ctx s.focus).winBytes else (s.ctx s.focus).locBytes
def localBase (s : State) (srf : Bool) : Nat := if srf then (s.ctx s.focus).winBase else (s.ctx s.focus).locBase

/-- What LDL reads and what STL leaves. -/
def localRead (s : State) (srf : Bool) (q n : Nat) : Nat :=
  let k := s.core (s.home s.focus)
  leNat (if srf then k.srfBytes q n else k.locBytes q n)
def localStore (s : State) (srf : Bool) (q n : Nat) (v : Word) (bad : Bool) : State :=
  s.modCore (s.home s.focus) fun k =>
    if srf then (k.putSrf q (leBytes n v.toNat)).markSrf q n bad else (k.putLoc q (leBytes n v.toNat)).markLoc q bad

/-- The state code and page of HINFO (Table 4.4). -/
def hinfoOf (h : Handle) : Word :=
  let st : Nat := match h.state with
    | .invalid => 0 | .pending => 1 | .valid => 2 | _ => 3
  let page : Nat := match h.state with
    | .invalid => 0 | .valid => h.base.toNat / 2 ^ 12 | _ => h.va.toNat / 2 ^ 12
  wrap (page * 2 ^ 12 + (if h.state = .valid then h.size.toNat * 2 ^ 10 else 0) + st * 2 ^ 8 +
    (if h.write then 2 ^ 7 else 0) + (if h.read then 2 ^ 6 else 0) + h.gen.toNat % 2 ^ 6 : Nat)

end Sys2Proof.Claims

/-- An access through a VALID handle that is aligned, within the page and permitted, with no poisoned offset or atomic
operand, whose place the attribute map admits, puts its request in flight, and the bundle goes on (R118 to R125); behind
a flag store of the context to its bytes it waits (R295). What stops an access through a handle, in the order of R107: a
poisoned offset or atomic operand, the handle's state, its alignment, its extent, its permission, the attribute map
(R300; its place in the order is the model's choice, log 131), and for an atomic its place. -/
def Obligations.HandleAccesses : Prop :=
  open Sys2Proof Sys2Proof.Machine Sys2Proof.Claims in
  (∀ (s : State) (i : Instr) (m : Access), accessRule (s.rdX s.focus) (s.tagX s.focus) i = some m →
    Unhindered s m.regs → m.bad = false → (handleOf s m).state = .valid → (addressOf s m).toNat % m.n = 0 →
    Within s m → Granted s m → mapRefuses s m = none → AtomicPlace s m →
    (¬ FlagBefore s m → exec i s = .next (next16 s (inFlight s m))) ∧ (FlagBefore s m → exec i s = .next s)) ∧
  (∀ (s : State) (i : Instr) (m : Access), accessRule (s.rdX s.focus) (s.tagX s.focus) i = some m →
    Unhindered s m.regs →
    (m.bad = true → exec i s = traps s 7 0 0) ∧
    (m.bad = false →
      ((handleOf s m).state = .invalid → exec i s = traps s 3 0 0) ∧
      ((handleOf s m).state = .pending ∨ (handleOf s m).state = .faulted →
        exec i s = blocks s (.handle m.h.toNat)) ∧
      ((handleOf s m).state = .refused → exec i s = traps s 5 3 (addressOf s m)) ∧
      ((handleOf s m).state = .valid →
        ((addressOf s m).toNat % m.n ≠ 0 → exec i s = traps s 8 0 (addressOf s m)) ∧
        ((addressOf s m).toNat % m.n = 0 →
          (¬ Within s m → exec i s = traps s 4 1 (addressOf s m)) ∧
          (Within s m → ¬ Granted s m → exec i s = traps s 4 0 (addressOf s m)) ∧
          (Within s m → Granted s m → ∀ b, mapRefuses s m = some b → exec i s = traps s 5 b (addressOf s m)) ∧
          (Within s m → Granted s m → mapRefuses s m = none → ¬ AtomicPlace s m →
            exec i s = traps s 6 0 (addressOf s m))))))

namespace Sys2Proof.Claims

open Sys2Proof Sys2Proof.Machine

/-- What a CP access does to memory when it performs at its place (R121, R124, R125): a load nothing; a store, or the
store of a flag, writes its bytes and marks its line where they are poisoned, and only a store of a whole line, which
another package sends, clears a mark (R261); an atomic writes the new value, but nothing on a poisoned line or where a
comparison fails. Memory outside the bytes of the access, and the marks of all other lines, are unchanged. -/
def MemEffect (s t : State) (r : Req) : Prop :=
  let n := match r.op with
    | .store bs _ _ | .flagStore bs _ _ => bs.length
    | .amo _ _ dw _ _ => if dw then 8 else 4
    | _ => 0
  let poisons := match r.op with
    | .store _ p _ | .flagStore _ p _ => p
    | _ => false
  let cleans := match r.op with
    | .store bs p _ => !p && bs.length == 128
    | _ => false
  (∀ host a, host ≠ r.host ∨ a < r.phys ∨ r.phys + n ≤ a → t.rdByte host a = s.rdByte host a) ∧
  (∀ host a, t.bad host a =
    if host = r.host ∧ a / 128 = r.phys / 128 then poisons || (!cleans && s.bad host a) else s.bad host a) ∧
  (∀ bs p acq, r.op = .store bs p acq → t.rdMem r.host r.phys n = bs) ∧
  (∀ bs p num, r.op = .flagStore bs p num → t.rdMem r.host r.phys n = bs) ∧
  (∀ op d dw b c, r.op = .amo op d dw b c →
    let old := leNat (s.rdMem r.host r.phys n)
    let now := leNat (t.rdMem r.host r.phys n)
    if s.bad r.host r.phys then now = old
    else now = (atomicNew op (8 * n) old (b.toNat % 2 ^ (8 * n)) (c.toNat % 2 ^ (8 * n))).getD old)

/-- What a CP access reads when it performs: its bytes as they were before, and the poison mark of their line. -/
def ReadEffect (s : State) (r : Req) (data : List Byte) (pois : Bool) : Prop :=
  (∀ d n sx acq, r.op = .load d n sx acq → data.take n = s.rdMem r.host r.phys n ∧ pois = s.bad r.host r.phys) ∧
  (∀ op d dw b c, r.op = .amo op d dw b c →
    let n := if dw then 8 else 4
    data.take n = s.rdMem r.host r.phys n ∧ pois = s.bad r.host r.phys)

/-- A CP load, store, atomic or store of a flag. -/
def cpAccess (o : ReqOp) : Bool :=
  match o with
  | .load .. | .store .. | .amo .. | .flagStore .. => true
  | _ => false

/-- A channel that can serve a burst in this ac: it has served none, its stack does not retrain, its die is not in C3, and
no commit of a pair holds the slot (R262, R266, R349). -/
def Serves (s : State) (die ch : Nat) : Prop :=
  ch ∉ (s.die die).used ∧ (s.die die).retrains (stackOf ch) = false ∧ (s.die die).c3 = false ∧
    s.commits die ch ((s.now + ch) % 32) = false

end Sys2Proof.Claims

/-- A CP access performs in the slot of its owner, or, in host memory or at another package that it has reached, when its
answer or acknowledgement arrives: it changes memory and reads it as its kind says, and no other byte or mark of memory
changes (another package's memory stands in the same memory, the model's choice, log 14). One that another package asked
for leaves the controller with its effect (R121, R124, R125, R291). The result of a load or atomic that its place has
served reaches its register, extended and with the line's poison, and its request is gone (R108). -/
def Obligations.ResultDelivery : Prop :=
  open Sys2Proof Sys2Proof.Machine Sys2Proof.Claims in
  (∀ (s : State) (id : Nat) (r : Req), s.findReq id = some r → r.served.isSome = true → s.mayComplete r = true →
    (∀ d n sg acq, r.op = .load d n sg acq → (n = 1 ∨ n = 2 ∨ n = 4 ∨ n = 8) →
      exec (.loadResultDelivery id) s =
        .next ((s.dropReq id).modCtx r.cx fun c => c.wr d (loaded n sg (leNat (r.data.take n))) r.dpois)) ∧
    (∀ op d dw b c, r.op = .amo op d dw b c →
      exec (.loadResultDelivery id) s = .next ((s.dropReq id).modCtx r.cx fun k =>
        k.wr d (atomicResult op dw (leNat (r.data.take (if dw then 8 else 4)))) r.dpois))) ∧
  (∀ (s : State) (die ch : Nat) (r : Req), Serves s die ch → s.owned die ch ((s.now + ch) % 32) = some r →
    cpAccess r.op = true →
    ∃ u, exec (.calendarSlot die (ch, .clean)) s = .next u ∧ MemEffect s u r ∧
      (r.agent = .core → ∃ x ∈ u.reqs, x.id = r.id ∧ x.served = some s.now ∧ ReadEffect s r x.data x.dpois) ∧
      (r.agent = .causeway → ∀ x ∈ u.reqs, x.id ≠ r.id)) ∧
  (∀ (s : State) (id : Nat) (r : Req), s.findReq id = some r → r.ws = false →
    (r.host = true ∨ (s.own r.phys = false ∧ ∃ at_, r.reach = some at_ ∧ at_ ≤ (s.die (s.reqDie r)).time)) →
    r.served = none → s.mayPerform r = true →
    ∃ t, MemEffect s t r ∧
      (∀ d n sg acq, r.op = .load d n sg acq → (n = 1 ∨ n = 2 ∨ n = 4 ∨ n = 8) →
        exec (.loadResultDelivery id) s = .next ((t.dropReq id).modCtx r.cx fun c =>
          c.wr d (loaded n sg (leNat (s.rdMem r.host r.phys n))) (s.bad r.host r.phys))) ∧
      (∀ op d dw b c, r.op = .amo op d dw b c →
        exec (.loadResultDelivery id) s = .next ((t.dropReq id).modCtx r.cx fun k =>
          k.wr d (atomicResult op dw (leNat (s.rdMem r.host r.phys (if dw then 8 else 4)))) (s.bad r.host r.phys))) ∧
      (∀ bs p acq, r.op = .store bs p acq → exec (.storeAcknowledge id) s = .next (t.dropReq id)) ∧
      (∀ bs p num, r.op = .flagStore bs p num → ∃ u, exec (.flagStorePerform id) s = .next u ∧ u.mem = t.mem ∧
        u.hostMem = t.hostMem ∧ u.reqs = (t.dropReq id).reqs))

/-- An LDL or STL whose register is untagged and whose address is aligned and below the space's extent reads or
writes its bytes in its own bundle, a poisoned register marking what it is stored to (R18; by lines in the local memory,
the model's choice, log 133); otherwise it traps (R126). -/
def Obligations.LocalAccesses : Prop :=
  open Sys2Proof Sys2Proof.Machine Sys2Proof.Claims in
  ∀ (s : State) (i : Instr) ld d a srf z off, localRule i = some (ld, d, a, srf, z, off) → Unhindered s [d, a] →
    let ad := localAddr s a off
    let q := localBase s srf + ad
    (s.tagX s.focus a = true → exec i s = traps s 7 0 0) ∧
    (s.tagX s.focus a = false →
      (ad % bytesOf z ≠ 0 → exec i s = traps s 8 0 (wrap ad)) ∧
      (ad % bytesOf z = 0 → localEnd s srf < ad + bytesOf z → exec i s = traps s 5 1 (wrap ad)) ∧
      (ad % bytesOf z = 0 → ad + bytesOf z ≤ localEnd s srf →
        exec i s = .next (next16 s (
          if ld then s.wrX s.focus d (loaded (bytesOf z) (4 ≤ z.toNat) (localRead s srf q (bytesOf z)))
            (if srf then (s.core (s.home s.focus)).srfBad q (bytesOf z) else (s.core (s.home s.focus)).locMark q)
          else localStore s srf q (bytesOf z) (s.rdX s.focus d) (s.tagX s.focus d)))))

/-- XLATE makes its handle PENDING with the address, the PASID and the intent; a poisoned address traps. HINV makes a
handle INVALID. HINFO reads a handle and never blocks (R117, R119). 24 ac after XLATE, a cached page that grants the
intent makes the handle VALID with the page, its permissions and its PASID's generation; a walk that finds such a page
does so when it completes, the lines of the entries that it read checked (R117, R309, R312, R393; what a check finds is
left open, log 141). -/
def Obligations.HandlesAndTranslation : Prop :=
  open Sys2Proof Sys2Proof.Machine Sys2Proof.Claims in
  (∀ (s : State) (n : BitVec 4) (a d : BitVec 5) (t : BitVec 2),
    (Unhindered s [a] → s.tagX s.focus a = true → exec (.xlate n a t) s = traps s 7 0 0) ∧
    (Unhindered s [a] → s.tagX s.focus a = false → t ≠ 3 →
      exec (.xlate n a t) s = .next (next16 s (s.modCtx s.focus fun c => c.setHandle n.toNat
        { state := .pending, va := s.rdX s.focus a, pasid := c.pasid, needR := t = 0 ∨ t = 2,
          needW := t = 1 ∨ t = 2, due := s.now + 24 }))) ∧
    (Unhindered s [] → exec (.hinv n) s = .next (next16 s (s.modCtx s.focus fun c => c.setHandle n.toNat {}))) ∧
    (Unhindered s [d] → exec (.hinfo d n) s =
      .next (next16 s (s.wrX s.focus d (hinfoOf ((s.ctx s.focus).handle n.toNat)) false)))) ∧
  (∀ (s : State) (cx : Nat) (h : BitVec 4) (ats : Option AtsReply) (p : Tlb),
    let k := (s.ctx cx).handle h.toNat
    let valid (t : State) : State := t.modCtx cx fun c => c.setHandle h.toNat { c.handle h.toNat with
      state := .valid, base := p.base, phys := p.phys, host := p.host, size := p.size, read := p.read,
      write := p.write, gen := (t.pasid (c.handle h.toNat).pasid).gen, walk := false }
    k.state = .pending → canonical k.va = true → s.draining k.pasid (k.va.toNat / 4096 * 4096) 4096 = false →
    s.draining k.pasid p.base.toNat (pageBytes p.size) = false → (s.pasid k.pasid).mode ≠ .none →
    p.grants k.needR k.needW = true → s.refusal (s.ctx cx).part p.host (p.at_ k.va) = none →
    (k.walk = false → k.due ≤ s.now →
      (s.core (s.home cx)).tlb.find? (fun q => q.holds k.pasid k.va && q.grants k.needR k.needW) = some p →
      exec (.xlateResolve cx h) s = .next (valid s)) ∧
    (k.walk = true → (s.pasid k.pasid).mode = .walk →
      s.walkFrom k.pasid k.va (s.pasid k.pasid).root.toNat walkLevels = some p →
      let entries := s.walkReads k.va (s.pasid k.pasid).root.toNat walkLevels
      (∀ a ∈ entries, s.shut false a 8 = false) →
      exec (.walkComplete cx h ats) s = .next (valid ((entries.foldl State.eccLine s).cachePage (s.home cx) p))))

/-- DRAIN makes later bundles wait for the accesses in flight that its scope covers: while one of them is outstanding, or
a result is due for a register that it uses, or a wait or acquisition at another package's semaphore stands, an instruction
leaves the state as it is, and a bundle does too whatever its slots hold; once none is, NOP goes on, and so does every other
instruction as its own statement says (R108, R128, R129, R163). The flag form posts its store to the REM queue, where it
performs once all that it covers has, and what is ordered before its bytes (R295); its command ends when it is
acknowledged. -/
def Obligations.Drains : Prop :=
  open Sys2Proof Sys2Proof.Machine Sys2Proof.Claims in
  ∀ (s : State),
    (let held := (∃ l, (s.ctx s.focus).drain = some l ∧ ∃ id ∈ l, s.outstanding id = true) ∨
        ∃ r ∈ s.reqs, r.cx = s.focus ∧ ∃ d ad v, r.op = .sem .wait d ad v ∨ r.op = .sem .acq d ad v
     let due := fun (rs : List (BitVec 5)) => ∃ r ∈ rs, r ≠ 0 ∧ ∃ q ∈ s.reqs, q.cx = s.focus ∧ q.op.dest = some r.toNat
     (∀ i sl, controlSlot i = some sl → held ∨ due sl.regs → exec i s = .next s) ∧
     (∀ ops : List (Nat × Slot), held ∨ (∃ p ∈ ops, due p.2.regs) → runBundle s.focus ops s = s) ∧
     (¬ held → exec .nop s = .next (next16 s s))) ∧
    (∀ (sc : BitVec 3), Unhindered s [] →
      exec (.drain sc) s = .next (next16 s (s.modCtx s.focus fun c =>
        { c with drain := some (s.covered s.focus (scopeOf sc)) }))) ∧
    (∀ cx, (∀ i ∈ (s.ctx cx).drain.getD [], s.outstanding i = false) →
      exec (.drainComplete cx) s = .next (s.modCtx cx fun c => { c with drain := none })) ∧
    (∀ (d a b : BitVec 5) (w : BitVec 1) (h : BitVec 4) (sc : BitVec 3),
      let m : Access := ⟨[d, a, b], s.tagX s.focus a, h, s.rdX s.focus a, if w = 1 then 8 else 4, false, true,
        .store [] false false, false⟩
      Unhindered s m.regs → m.bad = false → (handleOf s m).state = .valid → (addressOf s m).toNat % m.n = 0 →
      Within s m → Granted s m → mapRefuses s m = none → s.postBlock s.focus .rem false = none →
      exec (.drainFlag d a b w h sc) s = .next (next16 s (s.post s.focus .rem d
        (.flag (addressOf s m) (placeOf s m).2 (placeOf s m).1 m.n (s.rdX s.focus b) (s.tagX s.focus b) (scopeOf sc)
          (s.covered s.focus (scopeOf sc) ++ orderedAfter s s.focus (placeOf s m).1 (placeOf s m).2 m.n)
          (handleOf s m).size) none [] [] false))) ∧
    (∀ id r bs p num, s.findReq id = some r → r.op = .flagStore bs p num →
      let done (t : State) : Prop := t.findReq id = none ∧
        ∀ a ∈ (t.ctx r.cx).active, a.cmd.queue = .rem → a.cmd.num = num → a.ended = true
      (r.served.isSome = true → s.mayComplete r = true →
        ∃ t, exec (.flagStorePerform id) s = .next t ∧ done t ∧ t.mem = s.mem ∧ t.hostMem = s.hostMem) ∧
      (r.served = none → r.host = true → (∀ i ∈ r.after, s.outstanding i = false) →
        ∃ t, exec (.flagStorePerform id) s = .next t ∧ done t ∧ t.mem = s.mem ∧
          t.hostMem = (s.wrMem true r.phys bs).hostMem))

namespace Sys2Proof.Claims

open Sys2Proof Sys2Proof.Machine

/-! ### Semaphores, mailboxes, milestones (R163 to R166) -/

/-- The semaphore that a SEM instruction names: its own core's sem i, or the one at the global address in
xa, which has 16 bits; none where SEM-FORMAT is raised (R35, R163). -/
def semOf (s : State) (a : BitVec 5) (i : BitVec 6) (g : BitVec 1) : Option SemAt :=
  if g = 0 then some (.here (s.home s.focus) i.toNat)
  else if (s.rdX s.focus a).toNat < 2 ^ 16 then semAddr s (s.ctx s.focus).part (s.rdX s.focus a).toNat
  else none

/-- A semaphore instruction: its operation, its destination, its address register, index and form, its
other register, and its value. -/
def semRule (x : BitVec 5 → Word) :
    Instr → Option (SemOp × BitVec 5 × BitVec 5 × BitVec 6 × BitVec 1 × List (BitVec 5) × Word32)
  | .semAdd d a b i g => some (.add, d, a, i, g, [b], (x b).setWidth 32)
  | .semWait d a b i g => some (.wait, d, a, i, g, [b], (x b).setWidth 32)
  | .semAcq d a i g => some (.acq, d, a, i, g, [], 1)
  | .semRel a i g => some (.rel, 0, a, i, g, [], 1)
  | .semPost a b i g => some (.post, 0, a, i, g, [b], (x b).setWidth 32)
  | .semRead d a _ i g => some (.read, d, a, i, g, [], 0)
  | _ => none

/-- The semaphore j of core k, and the state with it replaced. -/
def semOn (s : State) (k j : Nat) : Sem := (s.core k).sem j
def withSem (s : State) (k j : Nat) (m : Sem) : State := s.modCore k fun c => c.setSem j m

/-- A register written with an i32 sign-extended, untagged. -/
def semWrites (s : State) (d : BitVec 5) (v : Word32) : State := s.wrX s.focus d (wrap v.toInt) false

/-- The task of the context in focus. -/
def me (s : State) : Nat := (s.ctx s.focus).task

/-- A waiting operation has its amount: free with nobody waiting; free, and the task not waiting, of a higher priority
than the next waiter, whose own amount is not free; or reserved for it (R164, R285). -/
def Takes (s : State) (m : Sem) (v : Word32) : Prop :=
  (m.waiters = [] ∧ v.toInt ≤ m.val.toInt) ∨
    (m.waiters.find? (fun w => w.who = me s) = none ∧ v.toInt ≤ m.free ∧ ∀ w, s.nextWaiter m = some w →
      s.effPrio s.focus < s.waiterPrio w ∧ m.free < w.amount) ∨
    ∃ w, m.waiters.find? (fun w => w.who = me s) = some w ∧ w.reserved = true

/-- The semaphore after a waiting operation took its amount. -/
def taken (s : State) (m : Sem) (v : Word32) (own : Bool) : Sem :=
  { val := m.val - v, owner := if own then some (me s) else m.owner,
    ownPrio := if own then s.effPrio s.focus else m.ownPrio, waiters := m.waiters.filter (fun w => w.who ≠ me s) }

/-- The context's operations at a semaphore of another package that have not performed (R306). -/
def semsBefore (s : State) (ad : Nat) : List Nat :=
  (s.reqs.filter fun r => r.cx = s.focus && r.served.isNone && (match r.op with
    | .sem _ _ a _ => a = ad
    | _ => false)).map Req.id

/-- The queue code of a milestone instruction (R166). -/
def queueAt (q : BitVec 3) : Queue :=
  if q = 0 then .sld else if q = 1 then .sst else if q = 2 then .krn else if q = 3 then .mat
  else if q = 4 then .tre else .rem

end Sys2Proof.Claims

/-- SEM.ADD, SEM.POST, SEM.REL, SEM.READ, SEM.WAIT and SEM.ACQ at a semaphore of this package: the value and the
ownership they leave, the value they return, the service at once of the waiters that an addition or release satisfies,
and the block of a waiting operation that cannot be met (R163, R164, R285). -/
def Obligations.SemaphoreOperations : Prop :=
  open Sys2Proof Sys2Proof.Machine Sys2Proof.Claims in
  ∀ (s : State) (i : Instr) op d a idx g rs v k j,
    semRule (s.rdX s.focus) i = some (op, d, a, idx, g, rs, v) → Unhindered s (d :: a :: rs) →
    (∀ r ∈ a :: rs, s.tagX s.focus r = false) → semOf s a idx g = some (.here k j) →
    (op = .add → exec i s = .next (next16 s
      (semWrites ((withSem s k j { semOn s k j with val := (semOn s k j).val + v }).semServeAll k j) d
        (semOn s k j).val))) ∧
    (op = .read → exec i s = .next (next16 s (semWrites s d (semOn s k j).val))) ∧
    ((∀ n ∈ s.covered s.focus (semScope s s.focus (.here k j)), s.outstanding n = false) →
      (op = .post → exec i s = .next (next16 s
        ((withSem s k j { semOn s k j with val := (semOn s k j).val + v }).semServeAll k j))) ∧
      (op = .rel → (semOn s k j).owner = some (me s) → exec i s = .next (next16 s
        ((withSem s k j { semOn s k j with val := (semOn s k j).val + 1, owner := none, ownPrio := 0 }).semServeAll
          k j))) ∧
      (op = .rel → (semOn s k j).owner ≠ some (me s) → exec i s = traps s 12 0 0)) ∧
    (op = .wait ∨ op = .acq →
      (v.toInt < 0 → exec i s = traps s 12 0 0) ∧
      (0 ≤ v.toInt → op = .acq → (semOn s k j).owner = some (me s) → exec i s = traps s 12 0 0) ∧
      (0 ≤ v.toInt → (op = .acq → (semOn s k j).owner ≠ some (me s)) →
        (Takes s (semOn s k j) v → exec i s = .next (next16 s
          (semWrites (withSem s k j (taken s (semOn s k j) v (op = .acq))) d ((semOn s k j).val - v)))) ∧
        ((semOn s k j).waiters = [] → (semOn s k j).val.toInt < v.toInt → exec i s = .next
          ((withSem s k j { semOn s k j with waiters :=
            [{ who := me s, amount := v.toInt, acq := op = .acq, prio := s.effPrio s.focus, arrival := 0,
               reserved := false }] }).block s.focus (.sem k j)))))

/-- A global SEM form whose address is not 16 bits long or names no semaphore that the partition may use traps; a poisoned
register traps first. At another package's semaphore a wait for a negative amount, an acquisition by its owner and a
release by another task trap; any other operation becomes a request to it, after the context's earlier ones there, and a
release gives up the ownership (R18, R35, R163, R306). A semaphore whose free value meets its next waiter, the highest
priority first and then the first to arrive, reserves the amount for it (R164, R285; for every waiter of this package, a
resident one too, is the model's choice, log 11); a caller of another package, which the model numbers from 2^64 on (log
67), takes the amount at once. -/
def Obligations.SemaphoreAddressesAndService : Prop :=
  open Sys2Proof Sys2Proof.Machine Sys2Proof.Claims in
  (∀ (s : State) (i : Instr) op d a idx g rs v,
    semRule (s.rdX s.focus) i = some (op, d, a, idx, g, rs, v) → Unhindered s (d :: a :: rs) →
    ((∃ r ∈ a :: rs, s.tagX s.focus r = true) → exec i s = traps s 7 0 0) ∧
    ((∀ r ∈ a :: rs, s.tagX s.focus r = false) →
      (semOf s a idx g = none → exec i s = traps s 12 0 0) ∧
      (∀ ad, semOf s a idx g = some (.there ad) →
        let own := ad ∈ (s.ctx s.focus).semOwn
        let sent := s.addReq (newReq s s.focus (.sem op d.toNat ad v) 0 false (ad / 2 ^ 13 * 2 ^ 48) (semsBefore s ad) 0)
        (op = .rel ∨ op = .post → ∀ n ∈ s.covered s.focus .domain, s.outstanding n = false) →
        ((op = .wait ∧ v.toInt < 0) ∨ (op = .acq ∧ own) ∨ (op = .rel ∧ ¬ own) → exec i s = traps s 12 0 0) ∧
        ((op = .wait → 0 ≤ v.toInt) → (op = .acq → ¬ own) → op ≠ .rel → exec i s = .next (next16 s sent)) ∧
        (op = .rel → own → exec i s = .next (next16 s (sent.modCtx s.focus fun c =>
          { c with semOwn := c.semOwn.filter (· ≠ ad) })))))) ∧
  (∀ (s : State) (k j : Nat) (w : Waiter), s.nextWaiter (semOn s k j) = some w → w.amount ≤ (semOn s k j).free →
    (w.who < 2 ^ 64 → exec (.semWaiterServed k j) s = .next (withSem s k j { semOn s k j with
      waiters := (semOn s k j).waiters.map fun x => if x.who = w.who then { x with reserved := true } else x })) ∧
    (2 ^ 64 ≤ w.who → exec (.semWaiterServed k j) s = .next (withSem s k j { semOn s k j with
      val := (semOn s k j).val - BitVec.ofInt 32 w.amount
      owner := if w.acq then some w.who else (semOn s k j).owner
      ownPrio := if w.acq then w.prio else (semOn s k j).ownPrio
      waiters := (semOn s k j).waiters.filter fun x => x.who ≠ w.who })))

namespace Sys2Proof.Claims

open Sys2Proof Sys2Proof.Machine

/-! ### Flow of control (R130, R131) -/

/-- The branch conditions (Table 4.7). -/
def branchTaken (c : BitVec 3) (v : Word) : Bool :=
  (c = 0 ∧ v = 0) ∨ (c = 1 ∧ v ≠ 0) ∨ (c = 2 ∧ v.toInt < 0) ∨ (c = 3 ∧ 0 ≤ v.toInt) ∨ (c = 4 ∧ 0 < v.toInt) ∨
    (c = 5 ∧ v.toInt ≤ 0) ∨ c = 6

/-- A jump: the registers it names, the register its target comes from, its target, and whether it links. -/
def jumpRule (s : State) : Instr → Option (List (BitVec 5) × Option (BitVec 5) × Word × Bool)
  | .jmp i => some ([], none, (s.ctx s.focus).pc + wrap (16 * i.toInt), false)
  | .call i => some ([31], none, (s.ctx s.focus).pc + wrap (16 * i.toInt), true)
  | .jx a => some ([a], some a, s.rdX s.focus a, false)
  | .callx a => some ([a, 31], some a, s.rdX s.focus a, true)
  | .ret => some ([31], some 31, s.rdX s.focus 31, false)
  | _ => none

/-- A state with the PC of the context in focus set. -/
def goes (s : State) (pc : Word) : State := s.modCtx s.focus fun c => { c with pc := pc }

/-- The requests of a context that store and have not performed. -/
def storing (s : State) : Bool := s.reqs.any fun r => r.cx = s.focus && r.served.isNone && (match r.op with
  | .store .. | .amo .. | .flagStore .. => true
  | _ => false)

/-- The armed milestone of a context is reached (R166, R167). -/
def armedReached (c : Ctx) : Prop := ∃ q v, c.armed = some (q, v) ∧ v.toNat ≤ (c.mile q).counter

/-! ### Control registers (R10, R21) -/

/-- What CSRR reads of each register (Tables 1.3, 10.3, 16.9 and 25.1). -/
def registerValue (s : State) (num : Nat) : Option Word :=
  let c := s.ctx s.focus
  let d := s.die (dieOf (s.home s.focus))
  match num with
  | 0x000 => some (wrap d.cycle)
  | 0x001 => some (wrap (s.focus % 4 : Nat))
  | 0x002 => some (wrap c.taskId.toNat)
  | 0x003 => some (wrap (s.home s.focus))
  | 0x004 => some (wrap (dieOf (s.home s.focus)))
  | 0x005 => some (wrap s.hub.pkg)
  | 0x006 => some (wrap (s.effPrio s.focus))
  | 0x007 => some (wrap d.pstate.toNat)
  | 0x010 => some c.trapPc
  | 0x011 => some c.trapInfo
  | 0x012 => some c.trapVa
  | 0x013 => some c.tvec
  | 0x014 => some (wrap ((if c.heldK = [] then 0 else 2) + if c.tactive then 1 else 0 : Nat))
  | 0x020 => some c.uivec
  | 0x021 => some (wrap ((if c.uactive then 128 else 0) + (if c.upending || c.reached then 64 else 0) +
      c.uqueue % 8 * 8 : Nat))
  | 0x030 => some c.lspill
  | 0x040 => some c.kstatus
  | 0x041 => some c.latchk
  | 0x050 => some (wrap (d.cycle % 2 ^ 16 : Nat))
  | 0x060 => some c.sgidx
  | 0x061 => some c.sgbound
  | 0x062 => some c.sglent
  | 0x063 => some c.wswait
  | 0x064 => some c.kstall
  | 0x065 => some c.calmode
  | 0x100 => some d.age
  | 0x101 => some d.swapwait
  | 0x102 => some d.calctl
  | 0x103 => some d.scrubctl
  | 0x104 => some d.retreq
  | _ => none

/-- What a write of each register stores, under its access code: a read-only register ignores it, reserved bits
keep their value, cr.KSTATUS clears the bits written 1 that were not set in this ac (R10); cr.TSTAT, cr.UISTATUS, cr.AGE and cr.RETREQ have
the effects of their fields. -/
def registerStored (s : State) (cx num : Nat) (v : Word) : Option State :=
  let die := dieOf (s.home cx)
  match num with
  | 0x013 => some (s.modCtx cx fun c => { c with tvec := wrap (v.toNat / 16 * 16 : Nat) })
  | 0x020 => some (s.modCtx cx fun c => { c with uivec := wrap (v.toNat / 16 * 16 : Nat) })
  | 0x030 => some (s.modCtx cx fun c => { c with lspill := v })
  | 0x040 => some (s.modCtx cx fun c => { c with kstatus := c.kstatus &&& ~~~(v &&& ~~~c.kset) })
  | 0x041 => some (s.modCtx cx fun c => { c with latchk := wrap (v.toNat % 2 : Nat) })
  | 0x065 => some (s.modCtx cx fun c => { c with calmode := wrap (v.toNat % 2 : Nat) })
  | 0x101 => some (s.modDie die fun d => { d with swapwait := v })
  | 0x102 => some (s.modDie die fun d => { d with calctl := wrap (v.toNat % 8 : Nat) })
  | 0x103 => some (s.modDie die fun d => { d with scrubctl := scrubctlOf v })
  | 0x100 => some (s.setAge die v)
  | 0x104 => some (if v.msb then s.clearRetreq die else s)
  | 0x014 =>
    let t := s.modCtx cx fun c => { c with tactive := v.getLsbD 0 }
    some (if v.getLsbD 2 then t.kabt cx else if v.getLsbD 3 then t.kres cx else t)
  | 0x021 => some (if v.getLsbD 6 then s.modCtx cx fun c => { c with upending := true } else s.uiDiscard cx)
  | 0x000 | 0x001 | 0x002 | 0x003 | 0x004 | 0x005 | 0x006 | 0x007 | 0x010 | 0x011 | 0x012 | 0x050 | 0x060 | 0x061
  | 0x062 | 0x063 | 0x064 => some s
  | _ => none

end Sys2Proof.Claims

/-- BR goes to PC + 16 × its displacement where its condition holds and to the next bundle where it does not; a poisoned
register traps (R130). A jump goes to its target; CALL and CALLX write the address of the next bundle to x31; a target
that is not aligned to a bundle, or a poisoned one, traps and writes nothing (R131). -/
def Obligations.BranchesAndJumps : Prop :=
  open Sys2Proof Sys2Proof.Machine Sys2Proof.Claims in
  (∀ (s : State) (a : BitVec 5) (c : BitVec 3) (i : Imm 18), c ≠ 7 → Unhindered s [a] →
    (s.tagX s.focus a = true → exec (.br a c i) s = traps s 7 0 0) ∧
    (s.tagX s.focus a = false →
      exec (.br a c i) s = .next (if branchTaken c (s.rdX s.focus a)
        then goes s ((s.ctx s.focus).pc + wrap (16 * (sextImm i).toInt)) else next16 s s))) ∧
  (∀ (s : State) (i : Instr) rs r t l, jumpRule s i = some (rs, r, t, l) → Unhindered s rs →
    ((∃ a, r = some a ∧ s.tagX s.focus a = true) → exec i s = traps s 7 0 0) ∧
    ((∀ a, r = some a → s.tagX s.focus a = false) →
      (t.toNat % 16 ≠ 0 → exec i s = traps s 8 0 t) ∧
      (t.toNat % 16 = 0 → exec i s = .next (goes
        (if l then s.wrX s.focus 31 ((s.ctx s.focus).pc + 16) false else s) t))))

/-- A trap of a context writes cr.TRAPPC, cr.TRAPINFO and cr.TRAPVA: the PC; aux, sub-cause, slot and cause; and
the address for HANDLE-PERM, PAGE-FAULT, ATOMIC-PLACE and MISALIGN, 0 for every other cause (R324). -/
def Obligations.TrapRegisters : Prop :=
  open Sys2Proof Sys2Proof.Machine Sys2Proof.Claims in
  ∀ (s : State) (cx slot cause sub aux : Nat) (va : Word),
    let t := (s.trap cx slot cause sub aux va).ctx cx
    t.trapPc = (s.ctx cx).pc ∧
    t.trapInfo = BitVec.ofNat 32 aux ++ (0 : BitVec 16) ++ BitVec.ofNat 8 sub ++ BitVec.ofNat 2 slot ++ BitVec.ofNat 6 cause ∧
    t.trapVa = (if cause = 4 ∨ cause = 5 ∨ cause = 6 ∨ cause = 8 then va else 0)

/-- A trap is delivered to the trap vector and marks its handler as running, and the context gives up the CP; without a
vector, or while a handler runs, the task stops: its context stays blocked, its hold of the plane engine ends, and a *task
stopped* entry is written. No other register of the context changes, and no memory (R19, R107, R236, R326, R327). -/
def Obligations.TrapDelivery : Prop :=
  open Sys2Proof Sys2Proof.Machine Sys2Proof.Claims in
  ∀ (s : State) (cx slot cause sub aux : Nat) (va : Word),
    let c := s.ctx cx
    let t := s.trap cx slot cause sub aux va
    let held := fun (x : CoreSt) => x.plane.bind fun r => if r.cx = cx then none else some r
    (c.tvec ≠ 0 → c.tactive = false → t = s.modCtx cx fun c => { c with
      trapPc := (t.ctx cx).trapPc, trapInfo := (t.ctx cx).trapInfo, trapVa := (t.ctx cx).trapVa
      refused := none, tactive := true, pc := c.tvec, status := if c.status = .running then .ready else c.status }) ∧
    (c.tvec = 0 ∨ c.tactive = true →
      (t.ctx cx).status = .blocked .stopped ∧ (t.ctx cx).pc = c.pc ∧ (t.ctx cx).tactive = c.tactive ∧
      (∃ e, t.faults = s.faults ++ [e] ∧ e.kind = 32 ∧ e.info = true ∧ e.task = c.taskId) ∧
      (∀ g, t.core g = if g = s.home cx then { s.core g with plane := held (s.core g) } else s.core g) ∧
      t.reqs = s.reqs ∧ t.agenda = s.agenda) ∧
    (t.ctx cx).x = c.x ∧ t.mem = s.mem ∧ t.hostMem = s.hostMem ∧
      ∀ k, k ≠ cx → t.ctx k = s.ctx k

/-- TRAP and BKPT raise their traps after the bundle's other slots; BKPT at debug level D2, outside LOCKED, halts the core
instead, once its die has left P2 (R134, R397; that it waits for that is log 116, and that the hub's levels by partition
say where D2 is held log 46: the model's choices); FENCE.C, once the context's stores have performed, empties the instruction cache; WAITI blocks while a milestone
is armed and not reached (R133, R134, R397). -/
def Obligations.SystemForms : Prop :=
  open Sys2Proof Sys2Proof.Machine Sys2Proof.Claims in
  ∀ (s : State) (i : BitVec 16), Unhindered s [] →
    exec (.trap i) s = .next (s.trap s.focus 0 13 0 i.toNat 0) ∧
    (s.hub.mode = .locked ∨ smGet 0 s.hub.levels (s.ctx s.focus).part < 2 →
      exec .bkpt s = .next (s.trap s.focus 0 14 0 0 0)) ∧
    (s.hub.mode ≠ .locked → 2 ≤ smGet 0 s.hub.levels (s.ctx s.focus).part →
      ((s.die (dieOf (s.home s.focus))).pstate ≠ 2 →
        exec .bkpt s = .next (next16 s (s.modCore (s.home s.focus) CoreSt.halt))) ∧
      ((s.die (dieOf (s.home s.focus))).pstate = 2 → exec .bkpt s = blocks s .power)) ∧
    (storing s = true → exec .fenceC s = .next s) ∧
    (storing s = false → (s.core (s.home s.focus)).kern = none → exec .fenceC s =
      .next (next16 s (s.modCore (s.home s.focus) fun c => { c with icache := [], kcode := [] }))) ∧
    ((s.ctx s.focus).armed.isSome = true → ¬ armedReached (s.ctx s.focus) → exec .waiti s = blocks s .waiti) ∧
    ((s.ctx s.focus).armed = none ∨ armedReached (s.ctx s.focus) → exec .waiti s = .next (next16 s s))

/-- A user-level interrupt, when its milestone is reached and nothing stands against it, shadows x24 to x31 and
the address of the next bundle, and goes to cr.UIVEC with the arm off; while an obstacle stands it is
pending, and so while a result for x24 to x31 is due (log 135, a reading of the model: they are read as a bundle reads
them, R108); on a halted core nothing is delivered (R397); writing 0 to pending discards it, its arm too (the model's
choice, log 31); UIRET, once no result for x24 to
x31 is outstanding, restores the registers and goes back, and outside an interrupt raises ILLEGAL-OP (R108, R167). -/
def Obligations.UserInterrupts : Prop :=
  open Sys2Proof Sys2Proof.Machine Sys2Proof.Claims in
  ∀ (s : State) (cx : Nat),
    let c := s.ctx cx
    (armedReached c → c.uactive = false → c.tactive = false → c.uivec ≠ 0 → c.status = .running → c.task ≠ 0 →
      c.retiring = false → (s.core (s.home cx)).halted = false → (∀ j, j < 8 → s.awaited cx (24 + j) = false) → ∃ q v, c.armed = some (q, v) ∧ exec (.uiDelivery cx) s = .next (s.modCtx cx fun k => { k with
        ushadow := (List.range 8).map fun j => ⟨c.rd (24 + j), c.tag (24 + j)⟩
        uret := c.pc, uactive := true, upending := false, uqueue := qcode q, armed := none, pc := c.uivec })) ∧
    ((s.core (s.home cx)).halted = true → exec (.uiDelivery cx) s = .next s) ∧
    ((s.core (s.home cx)).halted = false → armedReached c →
      c.uactive = true ∨ c.tactive = true ∨ c.uivec = 0 ∨ (∃ j, j < 8 ∧ s.awaited cx (24 + j) = true) →
      exec (.uiDelivery cx) s = .next (s.modCtx cx fun k => { k with upending := true })) ∧
    (c.upending = true ∨ armedReached c →
      exec (.uistatusPendingDiscard cx) s = .next (s.modCtx cx fun k => { k with upending := false, armed := none })) ∧
    (Unhindered s [24, 25, 26, 27, 28, 29, 30, 31] → (s.ctx s.focus).uactive = false → exec .uiret s = traps s 1 0 0) ∧
    (Unhindered s [24, 25, 26, 27, 28, 29, 30, 31] → (s.ctx s.focus).uactive = true → (s.ctx s.focus).ushadow.length = 8 →
      ∃ t, exec .uiret s = .next t ∧ (t.ctx s.focus).pc = (s.ctx s.focus).uret ∧ (t.ctx s.focus).uactive = false ∧
        (∀ j r, (s.ctx s.focus).ushadow[j]? = some r → (t.ctx s.focus).rd (24 + j) = r.val ∧
          (t.ctx s.focus).tag (24 + j) = r.poison) ∧
        (∀ n, n < 24 → (t.ctx s.focus).rd n = (s.ctx s.focus).rd n ∧ (t.ctx s.focus).tag n = (s.ctx s.focus).tag n))

/-- CSRR reads every control register; an unassigned number raises ILLEGAL-OP (R21, R134). CSRW and a register's own write
store under the access code; a write of a privileged register from user privilege raises PRIV, a poisoned value
POISON-USE, an unassigned number ILLEGAL-OP, and cr.LSPILL waits for an empty ring (R10, R21, R134, R160, R392; PRIV before POISON-USE is the model's choice, log 45, and
so are the effects of a write to cr.UISTATUS, log 31, cr.TSTAT, log 32, and cr.LATCHK, log 36).
Writing 0 to cr.TSTAT.active ends the handler; cr.AGE is stored, and 0 stops the reservations it governs; clearing V
of cr.RETREQ, unless V was set in the same ac, lets the next held request be delivered with MSI-X 1 (R10, R278, R326,
R393). -/
def Obligations.SpecialRegisters : Prop :=
  open Sys2Proof Sys2Proof.Machine Sys2Proof.Claims in
  (∀ (s : State) (d : BitVec 5) (r : BitVec 12), Unhindered s [d] →
    (registerValue s r.toNat = none → exec (.csrr d r) s = traps s 1 0 0) ∧
    (∀ v, registerValue s r.toNat = some v → exec (.csrr d r) s = .next (next16 s (s.wrX s.focus d v false)))) ∧
  (∀ (s : State) (a : BitVec 5) (r : BitVec 12),
    (∀ cx v t, registerStored s cx r.toNat v = some t → exec (.registerWrite cx r v) s = .next t) ∧
    (∀ cx v, (s.ctx cx).ringTail ≤ (s.ctx cx).ringHead →
      exec (.lspillWrite cx v) s = .next (s.modCtx cx fun c => { c with lspill := v })) ∧
    (∀ cx v, (s.ctx cx).ringHead < (s.ctx cx).ringTail → exec (.lspillWrite cx v) s = .next (s.block cx .ring)) ∧
    (Unhindered s [a] →
      (registerValue s r.toNat = none → exec (.csrw a r) s = traps s 1 0 0) ∧
      ((registerValue s r.toNat).isSome = true → 0x100 ≤ r.toNat → (s.ctx s.focus).priv = false →
        exec (.csrw a r) s = traps s 9 0 0) ∧
      ((registerValue s r.toNat).isSome = true → (0x100 ≤ r.toNat → (s.ctx s.focus).priv = true) →
        (s.tagX s.focus a = true → exec (.csrw a r) s = traps s 7 0 0) ∧
        (s.tagX s.focus a = false →
          (r = 0x030 → (s.ctx s.focus).ringHead < (s.ctx s.focus).ringTail → exec (.csrw a r) s = blocks s .ring) ∧
          (∀ t, (r = 0x030 → (s.ctx s.focus).ringTail ≤ (s.ctx s.focus).ringHead) →
            registerStored s s.focus r.toNat (s.rdX s.focus a) = some t → exec (.csrw a r) s = .next (next16 s t)))))) ∧
  (∀ (s : State) (cx die : Nat) (v : Word),
    exec (.tstatActiveClear cx) s = .next (s.modCtx cx fun c => { c with tactive := false }) ∧
    (v ≠ 0 → exec (.ageWrite die v) s = .next (s.modDie die fun d => { d with age := v })) ∧
    (∃ t, exec (.ageWrite die 0) s = .next t ∧ (t.die die).age = 0 ∧
      ∀ k ∈ t.hub.tasks, s.govDie k.part k.lrec.dieMask = die → k.reserv = false) ∧
    ((s.die die).retSet = true → exec (.retreqClear die) s = .next s) ∧
    ((s.die die).retSet = false → (s.die die).pendRet = [] → exec (.retreqClear die) s =
      .next (s.modDie die fun d => { d with retreq := wrap (d.retreq.toNat % 2 ^ 63 : Nat) })) ∧
    (∀ r rs, (s.die die).retSet = false → (s.die die).pendRet = r :: rs → ∃ t, exec (.retreqClear die) s = .next t ∧ (t.die die).pendRet = rs ∧
      (t.die die).retreq = retreqOf r ∧ t.hub.msix = s.hub.msix ++ [1]))

namespace Sys2Proof.Claims

open Sys2Proof Sys2Proof.Machine

/-! ### Posting engine commands (R139 to R158) -/

/-- A record of n bytes at the local offset in a register is aligned and lies in the task's local memory
(R139). -/
def recordAt (s : State) (r : BitVec 5) (n : Nat) : Bool :=
  decide ((s.rdX s.focus r).toNat % n = 0) && decide ((s.rdX s.focus r).toNat + n ≤ (s.ctx s.focus).locBytes)

/-- The bytes of that record. -/
def recordBytes (s : State) (r : BitVec 5) (n : Nat) : List Byte := s.rdLocal s.focus (s.rdX s.focus r).toNat n

/-- The stream descriptor at a local offset, and whether it keeps the rules of R144 to R147 and R258 with the addresses at
which it places its elements. -/
def descAt (s : State) (a : BitVec 5) : Desc := descOf (recordBytes s a 64)
def descGoodAt (s : State) (a : BitVec 5) (x : Xfer) (vas : List Word) : Bool :=
  recordAt s a 64 && (descAt s a).ok (recordBytes s a 64) x &&
    !((descAt s a).ws && vas.any fun va =>
      decide (2 ^ 30 < (descAt s a).wsTop va) || decide ((descAt s a).wsLow va < 0))
def descGood (s : State) (a : BitVec 5) (x : Xfer) : Bool := descGoodAt s a x [(descAt s a).va]

/-- The SRF range that a descriptor declares, and that of an index list. -/
def descRange (k : Desc) : Range := ⟨k.srf, k.srfLen, k.chained⟩
def indexRange (k : Desc) (x : Nat) : Range := ⟨x, 4 * k.count 1, k.chained⟩

/-- An engine command at its posting: its destination, the register of its completion record, the other
registers whose poison traps, its queue, what is posted, and whether its own checks pass. -/
structure Command where
  d      : BitVec 5
  rec_   : Option (BitVec 5)
  regs   : List (BitVec 5)
  q      : Queue
  kind   : CmdKind
  reads  : List Range
  writes : List Range
  board  : Bool
  good   : Bool

/-- A scatter with its reduce operation, and a tree command. -/
def scatterCommand (s : State) (op : Option RedOp) (d a b c : BitVec 5) : Command :=
  let k := descAt s a
  let x := (s.rdX s.focus c).toNat % 2 ^ 32
  ⟨d, some b, [a, c], .sst, .sscatter k x op, [descRange k, indexRange k x], [], true,
    descGood s a (.scatter op) && decide (x % 4 = 0)⟩
def treeCommand (s : State) (d : BitVec 5) (regs : List (BitVec 5)) (fn : Nat) (sl : BitVec 2) (a b c : BitVec 5)
    (ok : Bool) (rs ws : List Range) : Command :=
  ⟨d, none, regs, .tre, .tree fn sl.toNat (s.rdX s.focus a) (s.rdX s.focus b) (s.rdX s.focus c),
    if ok then rs else [], if ok then ws else [], ok && !(rs ++ ws).isEmpty, true⟩

/-- The posting of every engine command but KRUN and GATHERL. -/
def commandRule (s : State) : Instr → Option Command
  | .sload d a b =>
    let k := descAt s a
    some ⟨d, some b, [a], .sld, .sload k, [], [descRange k], true, descGood s a .load⟩
  | .sgather d a b c =>
    let k := descAt s a
    let x := (s.rdX s.focus c).toNat % 2 ^ 32
    some ⟨d, some b, [a, c], .sld, .sgather k x, [indexRange k x], [descRange k], true,
      descGood s a .gather && decide (x % 4 = 0) && !linesMeet x (4 * k.count 1) k.srf k.srfLen⟩
  | .sstore d a b c n =>
    let k := descAt s a
    let off := (s.rdX s.focus c).toNat
    let m := n.toNat + 1
    let vas := if n = 0 then [k.va] else (List.range m).map fun j => wrap (field (s.rdLocal s.focus off (8 * m)) (8 * j) 8)
    some ⟨d, some b, [a, c], .sst, .sstore k vas, [descRange k], [], true, descGoodAt s a .store vas &&
        (n = 0 || (decide (off % 8 = 0) && decide (off + 8 * m ≤ (s.ctx s.focus).locBytes)))⟩
  | .sscatter d a b c => some (scatterCommand s none d a b c)
  | .sscatterAddI32 d a b c => some (scatterCommand s (some .addI32) d a b c)
  | .sscatterAddN32 d a b c => some (scatterCommand s (some .addN32) d a b c)
  | .sscatterAddI64 d a b c => some (scatterCommand s (some .addI64) d a b c)
  | .sscatterAddXa256 d a b c => some (scatterCommand s (some .addXa256) d a b c)
  | .sscatterAddF32 d a b c => some (scatterCommand s (some .addF32) d a b c)
  | .spair d a b c =>
    let k := descAt s a
    some ⟨d, some b, [a, c], .sst, .spair k (s.rdX s.focus c), [descRange k], [], true,
      descGood s a .pair && decide ((s.rdX s.focus c).toNat % 4096 = 0)⟩
  | .scopy d a b =>
    let r := copyOf (recordBytes s a 32)
    some ⟨d, some b, [a], .sst, .scopy r,
      if r.kind = 1 ∨ r.kind = 2 then [⟨r.src.toNat % 2 ^ 32, r.bytes, r.chained⟩] else [],
      if r.kind = 1 ∨ r.kind = 3 then [⟨r.dst.toNat % 2 ^ 32, r.bytes, r.chained⟩] else [],
      r.kind ≠ 0, recordAt s a 32 && r.ok (recordBytes s a 32)⟩
  | .kctlPrefetch d a => some ⟨d, none, [a], .krn, .prefetch (s.rdX s.focus a), [], [], false,
      (s.rdX s.focus a).toNat % 8 = 0⟩
  | .mcall d a b c n =>
    let bs := recordBytes s a 64
    let x := (s.rdX s.focus b).toNat
    let ps := resolvePreds (nextNum .mat ((s.ctx s.focus).mile .mat).posted) [x / 2 ^ 8 % 2 ^ 12, x / 2 ^ 20 % 2 ^ 12]
    let rs := blockRange bs 32 ++ blockRange bs 40
    let ws := blockRange bs 48
    some ⟨d, some c, [a, b], .mat,
      .matrix (x % 256) ((List.range 8).map fun j => BitVec.ofNat 32 (field bs (4 * j) 4)) rs ws (ps.getD []) n.toNat
        false, rs, ws, !(rs ++ ws).isEmpty, recordAt s a 64 && ps.isSome &&
        (List.range 6).all (fun j => field bs (32 + 4 * j) 4 % 128 = 0) && field bs 56 8 = 0⟩
  | .mrout d a b =>
    let x := (s.rdX s.focus b).toNat
    some ⟨d, none, [a, b], .mat, .mrout (s.rdX s.focus a) (x % 256) (x / 2 ^ 8 % 2 ^ 12) (x / 2 ^ 20 % 2 ^ 12 + 1),
      [], [], false, (s.rdX s.focus a).toNat % 8 = 0⟩
  | .wsctlLoad d => some ⟨d, none, [], .sst, .wsLoad, [], [], false, wsMay s s.focus⟩
  | .wsctlSeal d => some ⟨d, none, [], .sst, .wsSeal, [], [], false, wsMay s s.focus⟩
  | .treeBind d a b sl => some ⟨d, some b, [a], .tre, .tree 0 sl.toNat (s.rdX s.focus a) 0 0, [], [], false,
      (s.rdX s.focus a).toNat % 64 = 0⟩
  | .treeDesc d a b c sl =>
    let x := (s.rdX s.focus a).toNat
    let n := (s.rdX s.focus c).toNat
    some (treeCommand s d [a, b, c] 1 sl a b c (x % 64 = 0 ∧ 1 ≤ n ∧ n ≤ 256) [] [⟨x, 64 * n, false⟩])
  | .treeExp d a b c sl =>
    let x := (s.rdX s.focus a).toNat
    let n := (s.rdX s.focus c).toNat
    some (treeCommand s d [a, b, c] 2 sl a b c (x % 64 = 0 ∧ 1 ≤ n % 2 ^ 16 ∧ n % 2 ^ 16 ≤ 256)
      [⟨x, n / 2 ^ 16 % 2 ^ 32, false⟩] [])
  | .treeBack d a b c sl =>
    let x := (s.rdX s.focus a).toNat
    let n := (s.rdX s.focus c).toNat
    some (treeCommand s d [a, b, c] 3 sl a b c (x % 64 = 0 ∧ 1 ≤ n % 2 ^ 16 ∧ n % 2 ^ 16 ≤ 256)
      [⟨x, n / 2 ^ 16 % 2 ^ 32, false⟩] [])
  | .treeReroot d a b sl => some (treeCommand s d [a, b] 4 sl a b 0 true [] [])
  | .treeSweep d b sl => some (treeCommand s d [b] 5 sl 0 b 0 true [] [])
  | .treePath d a b c sl =>
    let x := (s.rdX s.focus a).toNat
    let n := x / 2 ^ 32 % 2 ^ 16
    some (treeCommand s d [a, b, c] 6 sl a b c (x % 64 = 0 ∧ n ≠ 0) [] [⟨x % 2 ^ 32, (2 * n + 127) / 128 * 128, false⟩])
  | .treeRead d a b c sl =>
    let x := (s.rdX s.focus a).toNat
    let n := (s.rdX s.focus c).toNat / 2 ^ 32 % 2 ^ 16
    some (treeCommand s d [a, b, c] 7 sl a b c (x % 64 = 0 ∧ n ≠ 0) [] [⟨x, 32 * n, false⟩])
  | .treeFlush d b sl => some (treeCommand s d [b] 8 sl 0 b 0 true [] [])
  | .scrub d a => some ⟨d, none, [a], .sst, .scrub (s.rdX s.focus a), [], [], false,
      (s.ctx s.focus).priv && (s.rdX s.focus a).toNat % 32 = 0⟩
  | .migrate d a => some ⟨d, none, [a], .sst, .migrate (s.rdX s.focus a), [], [], false,
      (s.ctx s.focus).priv && (s.rdX s.focus a).toNat % 64 = 0⟩
  | _ => none

/-- The registers of a command whose poison traps, and the local offset of its completion record: x0
requests none (R141). -/
def Command.checked (p : Command) : List (BitVec 5) := p.rec_.toList ++ p.regs
def Command.record (s : State) (p : Command) : Option Nat :=
  p.rec_.bind fun r => if r = 0 then none else some (s.rdX s.focus r).toNat
def Command.recordGood (s : State) (p : Command) : Prop :=
  ∀ r, p.rec_ = some r → r ≠ 0 → recordAt s r 32 = true

/-- A command in its queue, with the queue's next number, which xd receives (R22). -/
def posted (s : State) (p : Command) : State :=
  s.modCtx s.focus fun c =>
    let n := nextNum p.q (c.mile p.q).posted
    { (c.setMile p.q { c.mile p.q with posted := n }).wr p.d.toNat (wrap n) false with
      posted := c.posted ++ [⟨p.q, n, p.kind, p.record s, p.reads, p.writes, p.board, c.cmdOrd⟩]
      cmdOrd := c.cmdOrd + 1 }

/-- The five forms that need privilege (R135). -/
def privileged : Instr → Option (List (BitVec 5))
  | .scrub d a => some [d, a]
  | .migrate d a => some [d, a]
  | .xinvMark d a b => some [d, a, b]
  | .xinvConfirm d a => some [d, a]
  | .qmap a b => some [a, b]
  | _ => none

end Sys2Proof.Claims

/-- KRUN reads the kernel-table entry that xa addresses, once no access of the context that comes before it is outstanding,
and posts its image with the context's stream bindings; a misaligned or poisoned address traps, and an entry that is not
native raises TRANSLATE (R150, R151, R295, R387; a place in a die in C3 or under a lock is waited for, R350, R396). KCTL.ABORT
with no KRUN of the context waiting marks its running kernel (R153). -/
def Obligations.KernelCommands : Prop :=
  open Sys2Proof Sys2Proof.Machine Sys2Proof.Claims in
  ∀ (s : State) (d a b : BitVec 5) (t : Tlb),
    let va := s.rdX s.focus a
    let e := s.rdEntry t va
    let p : Command := ⟨d, some b, [a], .krn, .krun (wrap (BitVec.ofNat 57 e).toInt) (s.ctx s.focus).binds,
      bindRanges false (s.ctx s.focus).binds, bindRanges true (s.ctx s.focus).binds, true, true⟩
    (Unhindered s [d, b, a] →
      (s.tagX s.focus a = true ∨ s.tagX s.focus b = true → exec (.krun d a b) s = traps s 7 0 0) ∧
      (s.tagX s.focus a = false → s.tagX s.focus b = false →
        (va.toNat % 8 ≠ 0 → exec (.krun d a b) s = traps s 8 0 va) ∧
        (va.toNat % 8 = 0 → p.recordGood s → (s.ctx s.focus).refused ≠ some (.krun va) →
          (s.xlateFor s.focus va true false).1 = .hit t →
          let (h, q) := s.placeOf t va
          (orderedAfter s s.focus h q 8 ≠ [] ∨ s.flagPending s.focus h q 8 = true → exec (.krun d a b) s = .next s) ∧
          (orderedAfter s s.focus h q 8 = [] → s.flagPending s.focus h q 8 = false → s.shut h q 8 = false →
            (e / 2 ^ 63 % 2 = 0 → exec (.krun d a b) s = traps s 10 0 0) ∧
            (e / 2 ^ 63 % 2 = 1 →
              (∀ r ∈ p.reads ++ p.writes, r.len = 0 ∨ r.lo + r.len ≤ (s.ctx s.focus).winBytes) →
              s.postBlock s.focus .krn true = none →
              exec (.krun d a b) s = .next (next16 s (posted (s.entryRead s.focus va) p))))))) ∧
    (Unhindered s [] → (∀ c ∈ (s.ctx s.focus).posted, c.queue ≠ .krn ∧ ∀ v m, c.kind ≠ .krun v m) →
      (∀ c ∈ (s.ctx s.focus).active, (∀ v m, c.cmd.kind ≠ .krun v m) ∨ c.running = true) →
      exec .kctlAbort s = .next (next16 s (s.modCore (s.home s.focus) fun g => { g with
        kern := g.kern.map fun k => if k.cx = s.focus then { k with abort := true } else k })))

/-- An engine command whose registers are untagged, whose record keeps its rules, whose ranges lie below the footprint
and whose queue and scoreboard have room is posted with the next number of its queue, and the CP goes on (R20, R22, R24,
R139 to R158, R321, R394). A poisoned register of an engine command traps (but PRIV comes first); a range beyond the
footprint raises STREAM-FAULT, *bounds*; a full queue or scoreboard blocks the context; nothing is posted (R19, R139,
R149). PRIV before POISON-USE is log 45, and the alignment to 8 of an SSTORE's local list log 126: the model's choices.
SBIND binds a stream name to a window range, or raises STREAM-FAULT, *bounds* before *format* (their order is the
model's choice, log 29); WSCTL.QUERY reads the weight store's mode (R143, R157). -/
def Obligations.EngineCommandsPosted : Prop :=
  open Sys2Proof Sys2Proof.Machine Sys2Proof.Claims in
  ((∀ (s : State) (i : Instr) (p : Command), commandRule s i = some p → Unhindered s (p.d :: p.checked) →
     (∀ r ∈ p.checked, s.tagX s.focus r = false) → p.good = true → p.recordGood s →
     (∀ r ∈ p.reads ++ p.writes, r.len = 0 ∨ r.lo + r.len ≤ (s.ctx s.focus).winBytes) →
     s.postBlock s.focus p.q p.board = none → exec i s = .next (next16 s (posted s p))) ∧
   (∀ (s : State) (i : Instr) (p : Command), commandRule s i = some p → Unhindered s (p.d :: p.checked) →
     (privileged i ≠ none → (s.ctx s.focus).priv = true) →
     ((∃ r ∈ p.checked, s.tagX s.focus r = true) → exec i s = traps s 7 0 0) ∧
     ((∀ r ∈ p.checked, s.tagX s.focus r = false) → p.good = true → p.recordGood s →
       ((∃ r ∈ p.reads ++ p.writes, r.len ≠ 0 ∧ (s.ctx s.focus).winBytes < r.lo + r.len) →
         exec i s = traps s 15 1 0) ∧
       ((∀ r ∈ p.reads ++ p.writes, r.len = 0 ∨ r.lo + r.len ≤ (s.ctx s.focus).winBytes) →
         ∀ w, s.postBlock s.focus p.q p.board = some w → exec i s = blocks s w)))) ∧
  (∀ (s : State) (a b d : BitVec 5) (n : BitVec 4) (r : BitVec 3) (m : BitVec 1),
     let y := (s.rdX s.focus b).toNat
     let k : Binding := ⟨(s.rdX s.focus a).toNat % 2 ^ 32, y % 2 ^ 32, dirOf r, y / 2 ^ 32 % 2 ^ 16⟩
     (Unhindered s [a, b] → s.tagX s.focus a = true ∨ s.tagX s.focus b = true →
       exec (.sbind a b n r m) s = traps s 7 0 0) ∧
     (Unhindered s [a, b] → s.tagX s.focus a = false → s.tagX s.focus b = false →
       ((s.ctx s.focus).winBytes < k.base + k.len → exec (.sbind a b n r m) s = traps s 15 1 0) ∧
       (k.base + k.len ≤ (s.ctx s.focus).winBytes → bindOk k m = false → exec (.sbind a b n r m) s = traps s 15 2 0) ∧
       (k.base + k.len ≤ (s.ctx s.focus).winBytes → bindOk k m = true →
         exec (.sbind a b n r m) s = .next (next16 s (s.modCtx s.focus fun c =>
           { c with binds := smPut none c.binds n.toNat (some k) })))) ∧
     (Unhindered s [d] → exec (.wsctlQuery d) s = .next (next16 s (s.wrX s.focus d
       (match (s.die (dieOf (s.home s.focus))).ws with | .sealed => 0 | .draining => 1 | .loading => 2) false))))

/-- GATHERL with a count of 0 completes in one step: it returns the last SLD number and moves on. GATHERL with a count of 1
to 256 completes in two: step 0, which checks its operands, and the last step, which posts the command with the effect of
SGATHER for its indices, writes the command's number to xd and moves on. Step 0 first discards the state held for another
bundle. In a held expansion at its bundle, step j posts the command for indices 256 (j − 1) on, and the last step completes
it: it writes its number to xd and moves on; a range beyond the footprint traps with the step in aux (R136 to R138). That
a chunk has no completion record, that an overlap of its ranges raises nothing, and that cr.TRAPVA of a misaligned operand
is xa are the model's choices (log 127). -/
def Obligations.Gatherl : Prop :=
  open Sys2Proof Sys2Proof.Machine Sys2Proof.Claims in
  (∀ (s : State) (d a b c : BitVec 5), Unhindered s [d, a, b, c] →
    let f := s.ctx s.focus
    let x := s.rdX s.focus a
    let y := (s.rdX s.focus b).toNat
    let z := (s.rdX s.focus c).toNat
    let count := z / 2 ^ 16 % 2 ^ 16
    let aligned := x.toNat % 128 = 0 ∧ z % 2 ^ 16 % 128 = 0 ∧ z % 2 ^ 16 ≠ 0 ∧ y / 2 ^ 32 % 128 = 0 ∧ y % 2 ^ 32 % 4 = 0
    (∀ g, f.gather = some g → g.pc ≠ f.pc → exec (.gatherl d a b c) s = .next (s.modCtx s.focus fun k =>
      { k with gather := none })) ∧
    (f.gather = none →
    (s.tagX s.focus a = true ∨ s.tagX s.focus b = true ∨ s.tagX s.focus c = true → exec (.gatherl d a b c) s = traps s 7 0 0) ∧
    (s.tagX s.focus a = false → s.tagX s.focus b = false → s.tagX s.focus c = false →
      (¬ aligned → exec (.gatherl d a b c) s = traps s 8 0 x) ∧
      (aligned → count = 0 →
        exec (.gatherl d a b c) s = .next (next16 s (s.wrX s.focus d (wrap (f.mile .sld).posted) false))) ∧
      (aligned → count ≠ 0 →
        let u := s.modCtx s.focus fun k =>
          { k with gather := some ⟨f.pc, 1, x, s.rdX s.focus b, s.rdX s.focus c, d.toNat⟩ }
        let n := z % 2 ^ 16
        let p : Command := ⟨d, none, [], .sld,
          .sgather { va := x, srf := y / 2 ^ 32, srfLen := count * n, kind := 0, mty := 3, sty := 3, chained := false
                     p2z := false, ws := false, sat := false, signS := false, dims := 2, gauge := 0
                     counts := [n / 8, count, 0, 0], strides := [n, 0, 0] } (y % 2 ^ 32),
          [⟨y % 2 ^ 32, 4 * count, false⟩], [⟨y / 2 ^ 32, count * n, false⟩], true, true⟩
        exec (.gatherl d a b c) s = .next u ∧
        (count ≤ 256 → (∀ r ∈ p.reads ++ p.writes, r.lo + r.len ≤ f.winBytes) → s.postBlock s.focus .sld true = none →
          exec (.gatherl d a b c) u = .next (next16 s (posted s p))))))) ∧
  (∀ (s : State) (d a b c : BitVec 5) (g : GatherSt), Unhindered s [d, a, b, c] →
    (s.ctx s.focus).gather = some g → g.pc = (s.ctx s.focus).pc →
    let rb := g.c.toNat % 2 ^ 16
    let n := g.c.toNat / 2 ^ 16 % 2 ^ 16
    let first := 256 * (g.step - 1)
    let m := min 256 (n - first)
    let last := decide (n ≤ 256 * g.step)
    let idx := g.b.toNat % 2 ^ 32 + 4 * first
    let dst := g.b.toNat / 2 ^ 32 + first * rb
    let k : Desc := {
      va := g.a, srf := dst, srfLen := m * rb, kind := 0, mty := 3, sty := 3, chained := false, p2z := false
      ws := false, sat := false, signS := false, dims := 2, gauge := 0, counts := [rb / 8, m, 0, 0]
      strides := [rb, 0, 0] }
    let p : Command := ⟨if last then d else 0, none, [], .sld, .sgather k idx, [⟨idx, 4 * m, false⟩],
      [⟨dst, m * rb, false⟩], true, true⟩
    ((∀ r ∈ p.reads ++ p.writes, r.len = 0 ∨ r.lo + r.len ≤ (s.ctx s.focus).winBytes) →
      (∀ w, s.postBlock s.focus .sld true = some w → exec (.gatherl d a b c) s = blocks s w) ∧
      (s.postBlock s.focus .sld true = none → exec (.gatherl d a b c) s = .next
        ((posted s p).modCtx s.focus fun c => { c with
          gather := if last then none else some { g with step := g.step + 1 }
          pc := if last then (s.ctx s.focus).pc + 16 else (s.ctx s.focus).pc }))) ∧
    ((∃ r ∈ p.reads ++ p.writes, r.len ≠ 0 ∧ (s.ctx s.focus).winBytes < r.lo + r.len) →
      exec (.gatherl d a b c) s = .next (s.trap s.focus 0 15 1 g.step 0)))

/-- From user privilege the five PRIV forms raise PRIV and do nothing else (R135). XINV.MARK takes the lowest free token
slot, marks the range and returns the token; XINV.CONFIRM, once all that the token covers has performed, drops the
translations and returns 0, blocks until then, and returns 1 for a token that is not in its slot (R318, R319). QMAP
maps the descriptor's queue on a slot, and with xa = 0 unmaps it, once no acquire of the context and no access of it to
the descriptor comes before (R295, R296, R385). PRIV before POISON-USE is log 45, the order of XINV.MARK's checks log 49,
and what QMAP needs of its operands and unmaps log 50: the model's choices. -/
def Obligations.PrivilegedForms : Prop :=
  open Sys2Proof Sys2Proof.Machine Sys2Proof.Claims in
  (∀ (s : State) (i : Instr) rs, privileged i = some rs → Unhindered s rs → (s.ctx s.focus).priv = false →
    exec i s = traps s 9 0 0) ∧
  (∀ (s : State) (d a b : BitVec 5), (s.ctx s.focus).priv = true →
    s.tagX s.focus a = false → s.tagX s.focus b = false →
    let x := s.rdX s.focus a
    let y := (s.rdX s.focus b).toNat
    (Unhindered s [d, a, b] →
      (y / 2 ^ 20 % 2 ^ 12 ≠ 0 ∨ y / 2 ^ 32 = 0 → exec (.xinvMark d a b) s = traps s 1 0 0) ∧
      (y / 2 ^ 20 % 2 ^ 12 = 0 → y / 2 ^ 32 ≠ 0 →
        (x.toNat % 4096 ≠ 0 → exec (.xinvMark d a b) s = traps s 8 0 x) ∧
        (x.toNat % 4096 = 0 →
          (s.hub.freeToken = none → exec (.xinvMark d a b) s = blocks s .token) ∧
          (∀ n, s.hub.freeToken = some n → ∃ t, exec (.xinvMark d a b) s = .next t ∧
            t = next16 s ((s.markToken n (BitVec.ofNat 20 y) x.toNat (y / 2 ^ 32) false).wrX s.focus d
              (wrap ((s.hub.serial + 1) * 16 + n : Nat)) false) ∧
            ∃ k, smGet none t.hub.tokens n = some k ∧ k.va = x.toNat ∧ k.pages = y / 2 ^ 32 ∧ k.serial = s.hub.serial + 1 ∧
              k.auto = false)))) ∧
    (Unhindered s [d, a] → ∀ slot, slot = x.toNat % 16 →
      (smGet none s.hub.tokens slot = none → exec (.xinvConfirm d a) s = .next (next16 s (s.wrX s.focus d 1 false))) ∧
      (∀ k, smGet none s.hub.tokens slot = some k →
        (k.auto = true ∨ k.serial ≠ x.toNat / 16 → exec (.xinvConfirm d a) s = .next (next16 s (s.wrX s.focus d 1 false))) ∧
        (k.auto = false → k.serial = x.toNat / 16 →
          (s.tokenDone k = false → exec (.xinvConfirm d a) s = blocks s (.confirm slot)) ∧
          (s.tokenDone k = true →
            exec (.xinvConfirm d a) s = .next (next16 s ((s.confirmToken slot).wrX s.focus d 0 false)))))) ∧
    (Unhindered s [a, b] →
      (63 < y → exec (.qmap a b) s = traps s 1 0 0) ∧
      (y ≤ 63 →
        (x.toNat % 64 ≠ 0 → exec (.qmap a b) s = traps s 8 0 x) ∧
        (x.toNat % 64 = 0 → s.acquiring s.focus ≠ [] → exec (.qmap a b) s = .next s) ∧
        (x = 0 → s.acquiring s.focus = [] → exec (.qmap a b) s = .next (next16 s (s.unmapSlot y))) ∧
        (∀ t, x.toNat % 64 = 0 → x ≠ 0 → s.acquiring s.focus = [] → (s.ctx s.focus).refused ≠ some (.qmap x) →
          (s.xlateFor s.focus x true false).1 = .hit t →
          let (h, q) := s.placeOf t x
          (s.mustFollow s.focus h q 64 = true → exec (.qmap a b) s = .next s) ∧
          (s.mustFollow s.focus h q 64 = false → s.shut h q 64 = false → exec (.qmap a b) s = .next (next16 s
            ((s.xlateFor s.focus x true false).2.mapQueue (s.ctx s.focus).part false h q y)))))))

/-- TASK.SELF returns the argument; TASK.PRIO sets the priority, at most 3, and raises PRIV below the launch priority;
TASK.YIELD gives the CP to a ready context of equal or higher priority, if there is one; TASK.RETIRE blocks until the
task's commands and launches are done, and then it may retire (R161). LAUNCH, when its record passes the checks and the
accesses that it releases have performed, puts the record in the cast-on queue and returns 0; else, when the ring
already holds records or the queue is full, in the next slot of the spill ring, by a store of the context's, and returns
1; behind a flag store of the context to the slot it waits (R295); a record that fails a check raises LAUNCH-FORMAT, and
with no room the context blocks (R159, R160; the slot is the count of records modulo the ring's size, the model's choice
where cr.LSPILL has been rewritten, log 152). -/
def Obligations.TaskForms : Prop :=
  open Sys2Proof Sys2Proof.Machine Sys2Proof.Claims in
  (∀ (s : State) (d a b : BitVec 5),
     let c := s.ctx s.focus
     let v := min 3 (s.rdX s.focus a).toNat
     let other := (ctxsOf (s.home s.focus)).any fun k =>
       k ≠ s.focus && (s.ctx k).status = .ready && decide (s.effPrio k ≤ s.effPrio s.focus)
     (Unhindered s [d] → exec (.taskSelf d a b) s = .next (next16 s (s.wrX s.focus d c.arg false))) ∧
     (Unhindered s [a] →
       (s.tagX s.focus a = true → exec (.taskPrio d a b) s = traps s 7 0 0) ∧
       (s.tagX s.focus a = false → v < c.launchP → exec (.taskPrio d a b) s = traps s 9 0 0) ∧
       (s.tagX s.focus a = false → c.launchP ≤ v →
         exec (.taskPrio d a b) s = .next (next16 s (s.modCtx s.focus fun c => { c with basePrio := v })))) ∧
     (Unhindered s [] →
       (other = true → exec (.taskYield d a b) s = .next (next16 s (s.modCtx s.focus fun c => { c with status := .ready }))) ∧
       (other = false → exec (.taskYield d a b) s = .next (next16 s s)) ∧
       (c.heldK = [] →
         (c.posted = [] ∧ c.active = [] ∧ c.castOn = [] ∧ c.ringTail ≤ c.ringHead → exec .taskRetire s =
           .next (next16 s (s.modCtx s.focus fun c => { c with retiring := true, status := .blocked .retire }))) ∧
         (¬ (c.posted = [] ∧ c.active = [] ∧ c.castOn = [] ∧ c.ringTail ≤ c.ringHead) →
           exec .taskRetire s = blocks s .retire)))) ∧
  (∀ (s : State) (d a : BitVec 5), Unhindered s [d, a] → s.tagX s.focus a = false → recordAt s a 64 = true →
     let c := s.ctx s.focus
     let bs := recordBytes s a 64
     let va := c.ringSlot c.ringTail
     (launchOk s c.part bs = false → exec (.launch d a) s = traps s 11 0 0) ∧
     (launchOk s c.part bs = true → (∀ n ∈ s.covered s.focus .pkg, s.outstanding n = false) →
       (c.ringTail ≤ c.ringHead → c.castOn.length < 4 → exec (.launch d a) s = .next (next16 s
         ((s.modCtx s.focus fun c => { c with castOn := c.castOn ++ [launchOf bs] }).wrX s.focus d 0 false))) ∧
       (c.ringHead < c.ringTail ∨ 4 ≤ c.castOn.length →
         (64 * (c.lspill.toNat % 2 ^ 12) ≤ c.ringTail - c.ringHead → exec (.launch d a) s = blocks s .castOn) ∧
         (∀ t, c.ringTail - c.ringHead < 64 * (c.lspill.toNat % 2 ^ 12) → c.refused ≠ some (.launch va) →
           (s.xlateFor s.focus va false true).1 = .hit t →
           let (h, q) := s.placeOf t va
           let u := (s.xlateFor s.focus va false true).2
           (s.flagPending s.focus h q 64 = true → exec (.launch d a) s = .next s) ∧
           (s.flagPending s.focus h q 64 = false → exec (.launch d a) s = .next (next16 s
             (((u.addReq (newReq u s.focus (.store bs false false) va h q (orderedAfter u s.focus h q 64) t.size)).modCtx
               s.focus fun c => { c with ringTail := c.ringTail + 1 }).wrX s.focus d 1 false)))))))

namespace Sys2Proof.Claims

open Sys2Proof Sys2Proof.Machine

/-! ### The kernel array at rest, and an operation that issues (R39, R168 to R170) -/

/-- The focus context's core runs the kernel k, which is at a packet boundary, and none of its registers holds a soft
error. -/
def Resting (s : State) (k : Kernel) : Prop :=
  (s.core (s.home s.focus)).kern = some k ∧ k.idle = 0 ∧ k.ended = false ∧ k.abort = false ∧ k.freeze = false ∧
    k.soft = []

/-- The same outside any loop or branch, and with no result still in flight at the issue cycle. -/
def Calm (s : State) (k : Kernel) : Prop :=
  Resting s k ∧ k.branch = none ∧ k.loops = [] ∧ ∀ p ∈ k.pend, p.due ≤ k.cyc

/-- The kernel and the state with the results that are due landed (R39, R170). -/
def landedK (s : State) (k : Kernel) : Kernel := (s.land (s.home s.focus) k k.cyc).2
def landedS (s : State) (k : Kernel) : State := (s.land (s.home s.focus) k k.cyc).1

/-- The cycle after a one-operation packet (two words): the results ps are in flight, and the sequencer goes on. -/
def issued (s : State) (k : Kernel) (ps : List Pend) : Kernel :=
  { landedK s k with
    pend := ps
    cyc := k.cyc + 1
    latchk := (s.ctx k.cx).latchk.getLsbD 0
    idle := 0
    ended := false
    pc := k.pc + 2 }

/-- The kernel of the focus context's core replaced. -/
def running (s t : State) (k : Kernel) : State := t.setKern (s.home s.focus) (some k)

/-- The kernel traps at its packet: nothing of the packet performs (R192, R195). -/
def kernelTraps (s : State) (k : Kernel) (cause sub : Nat) : Host.Outcome State Fault Refusal :=
  .next (s.ktrap (s.home s.focus) { k with latchk := (s.ctx k.cx).latchk.getLsbD 0 } cause sub 0 k.pc)

/-- The lanes in which a guard passes; q0 always does (R84, R168). -/
def lanesOf (k : Kernel) (g : BitVec 3) : List Nat := (List.range 128).filter fun l => k.qr l g.toNat

/-- An operation of each lane on its own registers: latency, guard, sources, destinations, values with flags, and
poison. -/
structure LaneOp where
  lat  : Nat
  g    : BitVec 3
  srcs : List (BitVec 7)
  dsts : List Nat
  f    : List Word32 → List Word32 × Byte
  bad  : List LaneReg → Bool := fun xs => xs.any LaneReg.poison

/-- Its results: one for each performing lane and each destination (R168, R169). -/
def LaneOp.results (o : LaneOp) (k : Kernel) : List Pend :=
  (lanesOf k o.g).flatMap fun l =>
    let xs := o.srcs.map fun r => k.vr l r.toNat
    let r := o.f (xs.map LaneReg.val)
    (o.dsts.zip r.1).map fun d => .v l d.1 (k.cyc + o.lat) d.2 (o.bad xs) r.2

/-! ### Integer operations of the lanes (R86, R173 to R177, R188, R189) -/

/-- A word as a number, signed or natural, in w bits. -/
def numS (w n : Nat) : Int := if 2 ^ (w - 1) ≤ n then (n : Int) - 2 ^ w else n
def w32of (n : Int) : Word32 := BitVec.ofInt 32 n

/-- A function of numbers on whole words, or on each half of packed words (R51). -/
def elements (packed : Bool) (f : Nat → List Nat → Int) (xs : List Word32) : Word32 :=
  if packed then
    w32of ((f 16 (xs.map fun x => x.toNat / 2 ^ 16)).emod (2 ^ 16) * 2 ^ 16 +
      (f 16 (xs.map fun x => x.toNat % 2 ^ 16)).emod (2 ^ 16))
  else w32of (f 32 (xs.map BitVec.toNat))

/-- The number of leading zeros of an element, and of its ones. -/
def leading (w n : Nat) : Nat := if n = 0 then w else w - 1 - n.log2
def ones (w n : Nat) : Nat := ((List.range w).filter n.testBit).length

/-- The width of a field that R176 cuts at bit 31, and a field of a word put in another. -/
def cut (c o : Nat) : Nat := min (if c = 0 then 32 else c) (32 - o)
def putField (x y w o : Nat) : Nat := x % 2 ^ o + y % 2 ^ w * 2 ^ o + x / 2 ^ (o + w) * 2 ^ (o + w)

/-- A result of one register. -/
def one (lat : Nat) (g : BitVec 3) (srcs : List (BitVec 7)) (d : BitVec 7) (f : List Word32 → Word32) : LaneOp :=
  ⟨lat, g, srcs, [d.toNat], fun xs => ([f xs], 0), fun xs => xs.any LaneReg.poison⟩

/-- SEL: the selector is the old vd, and only it and the selected operand count for poison (R175). -/
def selectOp (d a b : BitVec 7) (g : BitVec 3) (m : BitVec 1) : LaneOp :=
  let pick : List Word32 → Nat → Bool := fun xs j => (xs.getD 2 0).toNat / 2 ^ (16 * j) % 2 ^ 16 ≠ 0
  let bit : List LaneReg → Nat → Bool := fun xs j => ((xs.map LaneReg.poison).getD j false)
  { lat := 1, g := g, srcs := [a, b, d], dsts := [d.toNat]
    f := fun xs =>
      let x := (xs.getD 0 0).toNat
      let y := (xs.getD 1 0).toNat
      ([if m = 1 then w32of ((if pick xs 1 then x else y) / 2 ^ 16 * 2 ^ 16 + (if pick xs 0 then x else y) % 2 ^ 16 : Nat)
        else if xs.getD 2 0 ≠ 0 then xs.getD 0 0 else xs.getD 1 0], 0)
    bad := fun xs =>
      let vs := xs.map LaneReg.val
      bit xs 2 || (if m = 1 then ((pick vs 0 || pick vs 1) && bit xs 0) || (!(pick vs 0 && pick vs 1) && bit xs 1)
        else if vs.getD 2 0 ≠ 0 then bit xs 0 else bit xs 1) }

/-- The integer operations of the A and M slots. -/
def laneInteger : Instr → Option LaneOp
  | .kAdd d a b g m => some (one 1 g [a, b] d (elements (m.getLsbD 1) fun _ xs => ((xs.sum : Nat) : Int)))
  | .kSub d a b g m => some (one 1 g [a, b] d (elements (m.getLsbD 1) fun _ xs => (xs.getD 0 0 : Int) - xs.getD 1 0))
  | .kAnd d a b g => some (one 1 g [a, b] d fun xs => xs.getD 0 0 &&& xs.getD 1 0)
  | .kOr d a b g => some (one 1 g [a, b] d fun xs => xs.getD 0 0 ||| xs.getD 1 0)
  | .kXor d a b g => some (one 1 g [a, b] d fun xs => xs.getD 0 0 ^^^ xs.getD 1 0)
  | .kAndn d a b g => some (one 1 g [a, b] d fun xs => xs.getD 0 0 &&& ~~~(xs.getD 1 0))
  | .kShl d a b g m => some (one 1 g [a, b] d (elements (m = 1) fun w xs => (xs.getD 0 0 * 2 ^ (xs.getD 1 0 % w) : Nat)))
  | .kShr d a b g m => some (one 1 g [a, b] d (elements (m = 1) fun w xs => (xs.getD 0 0 / 2 ^ (xs.getD 1 0 % w) : Nat)))
  | .kSra d a b g m => some (one 1 g [a, b] d (elements (m = 1) fun w xs => numS w (xs.getD 0 0) / 2 ^ (xs.getD 1 0 % w)))
  | .min d a b g m => some (one 1 g [a, b] d (elements (m.getLsbD 1) fun w xs =>
      let n := fun j => if m.getLsbD 0 then (xs.getD j 0 : Int) else numS w (xs.getD j 0)
      min (n 0) (n 1)))
  | .max d a b g m => some (one 1 g [a, b] d (elements (m.getLsbD 1) fun w xs =>
      let n := fun j => if m.getLsbD 0 then (xs.getD j 0 : Int) else numS w (xs.getD j 0)
      max (n 0) (n 1)))
  | .kSel d a b g m => some (selectOp d a b g m)
  | .kBfxN d v w o => some (one 1 0 [v.zeroExtend 7] d fun xs =>
      w32of ((xs.getD 0 0).toNat / 2 ^ o.toNat % 2 ^ cut w.toNat o.toNat : Nat))
  | .kBfxI d v w o => some (one 1 0 [v.zeroExtend 7] d fun xs =>
      w32of (numS (cut w.toNat o.toNat) ((xs.getD 0 0).toNat / 2 ^ o.toNat % 2 ^ cut w.toNat o.toNat)))
  | .kBfi d v w o => some (one 1 0 [v.zeroExtend 7, d] d fun xs =>
      w32of (putField (xs.getD 1 0).toNat (xs.getD 0 0).toNat (cut w.toNat o.toNat) o.toNat : Nat))
  | .kFshl d v n => some (one 1 0 [v.zeroExtend 7, d] d fun xs =>
      w32of (((xs.getD 0 0).toNat * 2 ^ 32 + (xs.getD 1 0).toNat) * 2 ^ n.toNat / 2 ^ 32 : Nat))
  | .kFshr d v n => some (one 1 0 [v.zeroExtend 7, d] d fun xs =>
      w32of (((xs.getD 0 0).toNat * 2 ^ 32 + (xs.getD 1 0).toNat) / 2 ^ n.toNat : Nat))
  | .movi d i => some (one 1 0 [] d fun _ => w32of i.toInt)
  | .moviHigh d i => some (one 1 0 [] d fun _ => w32of (i.toNat * 2 ^ 20 : Nat))
  | .moviLiteral d h i lit => some (one 1 0 [] d fun _ => w32of (lit.toNat * 2 ^ 16 + h.toNat * 2 ^ 12 + i.toNat : Nat))
  | .moviShifted d n lit => some (one 1 0 [] d fun _ => w32of (lit.toNat * 2 ^ n.toNat : Nat))
  | .abs d a g m => some (one 1 g [a] d (elements (m = 1) fun w xs => ((numS w (xs.getD 0 0)).natAbs : Int)))
  | .neg d a g m => some (one 1 g [a] d (elements (m = 1) fun _ xs => -(xs.getD 0 0 : Int)))
  | .kClz d a g m => some (one 1 g [a] d (elements (m = 1) fun w xs => (leading w (xs.getD 0 0) : Int)))
  | .kPopc d a g m => some (one 1 g [a] d (elements (m = 1) fun w xs => (ones w (xs.getD 0 0) : Int)))
  | .not_ d a g => some (one 1 g [a] d fun xs => ~~~(xs.getD 0 0))
  | .fabs d a g => some (one 3 g [a] d fun xs => w32of ((xs.getD 0 0).toNat % 2 ^ 31 : Nat))
  | .fneg d a g => some (one 3 g [a] d fun xs => w32of ((xs.getD 0 0).toNat + 2 ^ 31 : Nat))
  | .kMul d a b g m => some (one 3 g [a, b] d (elements (m = 1) fun _ xs => (xs.getD 0 0 * xs.getD 1 0 : Nat)))
  | .mulh d a b g m => some (one 3 g [a, b] d (elements (m.getLsbD 1) fun w xs =>
      let n := fun j => if m.getLsbD 0 then (xs.getD j 0 : Int) else numS w (xs.getD j 0)
      n 0 * n 1 / 2 ^ w))
  | .dot4i8 d a b g m => some (one 3 g [a, b, d] d fun xs =>
      let x : Nat → Int := fun j => let n : Nat := (xs.getD 0 0).toNat / 2 ^ (8 * j) % 2 ^ 8
        if m = 1 then (n : Int) else numS 8 n
      let y : Nat → Int := fun j => let n : Nat := (xs.getD 1 0).toNat / 2 ^ (8 * j) % 2 ^ 8
        if m = 0 then numS 8 n else (n : Int)
      w32of ((xs.getD 2 0).toNat + x 0 * y 0 + x 1 * y 1 + x 2 * y 2 + x 3 * y 3))
  | .packLo d a b g => some (one 3 g [a, b] d fun xs =>
      w32of ((xs.getD 1 0).toNat % 2 ^ 16 * 2 ^ 16 + (xs.getD 0 0).toNat % 2 ^ 16 : Nat))
  | .packHi d a b g => some (one 3 g [a, b] d fun xs =>
      w32of ((xs.getD 1 0).toNat / 2 ^ 16 * 2 ^ 16 + (xs.getD 0 0).toNat / 2 ^ 16 : Nat))
  | _ => none

/-! ### Floating-point operations of the lanes (R177 to R187, R190, R191) -/

/-- The registers of a pair (R30). -/
def two (d : BitVec 7) : List (BitVec 7) := [d, d + 1]

/-- A result of one register with flags, of one, two or three words; and a result of two registers. -/
def fl1 (lat : Nat) (d a : BitVec 7) (g : BitVec 3) (f : Word32 → Word32 × Byte) : LaneOp :=
  ⟨lat, g, [a], [d.toNat], fun xs => ([(f (xs.getD 0 0)).1], (f (xs.getD 0 0)).2), fun xs => xs.any LaneReg.poison⟩
def fl2 (lat : Nat) (d a b : BitVec 7) (g : BitVec 3) (f : Word32 → Word32 → Word32 × Byte) : LaneOp :=
  ⟨lat, g, [a, b], [d.toNat], fun xs =>
    let r := f (xs.getD 0 0) (xs.getD 1 0)
    ([r.1], r.2), fun xs => xs.any LaneReg.poison⟩
def fl3 (lat : Nat) (d a b : BitVec 7) (g : BitVec 3) (f : Word32 → Word32 → Word32 → Word32 × Byte) : LaneOp :=
  ⟨lat, g, [a, b, d], [d.toNat], fun xs =>
    let r := f (xs.getD 0 0) (xs.getD 1 0) (xs.getD 2 0)
    ([r.1], r.2), fun xs => xs.any LaneReg.poison⟩
def flPair (lat : Nat) (d : BitVec 7) (srcs : List (BitVec 7)) (g : BitVec 3) (f : List Word32 → Dw) : LaneOp :=
  ⟨lat, g, srcs, [d.toNat, d.toNat + 1], fun xs => ([(f xs).hi, (f xs).lo], (f xs).fl), fun xs => xs.any LaneReg.poison⟩

/-- A conversion between formats: the low bits of a word hold a narrow value. -/
def reformat (mode : Rm) (src dst : Fmt) (sat : Bool) (x : Word32) : Word32 × Byte :=
  let r := dst.convTo mode sat (src.decode (x.toNat % 2 ^ src.width))
  (BitVec.ofNat 32 r.1, r.2)

/-- The floating-point operations: registers, latency, rounding mode and the function of chapter 2 and 6 that each
computes. -/
def laneFloat : Instr → Option LaneOp
  | .fclass d a g => some (fl1 3 d a g fun x => (fclass32 x, 0))
  | .fadd d a b g m => some (fl2 3 d a b g (fadd32 (.ofMod m)))
  | .fsub d a b g m => some (fl2 3 d a b g (fsub32 (.ofMod m)))
  | .fmin d a b g m => some (fl2 3 d a b g (fminmax true (m = 1)))
  | .fmax d a b g m => some (fl2 3 d a b g (fminmax false (m = 1)))
  | .cvtI32F32 d a g m => some (fl1 3 d a g fun x =>
      let r := cvtInt (.ofMod m) (-(2 ^ 31)) (2 ^ 31 - 1) (fv x)
      (w32of r.1, r.2))
  | .cvtN32F32 d a g m => some (fl1 3 d a g fun x =>
      let r := cvtInt (.ofMod m) 0 (2 ^ 32 - 1) (fv x)
      (w32of r.1, r.2))
  | .cvtF32I32 d a g m => some (fl1 3 d a g fun x => w32 (f32.ofInt (.ofMod m) x.toInt))
  | .cvtF32N32 d a g m => some (fl1 3 d a g fun x => w32 (f32.ofInt (.ofMod m) x.toNat))
  | .cvtF16F32 d a g m => some (fl1 3 d a g (reformat (.ofMod m) f32 f16 false))
  | .cvtBf16F32 d a g m => some (fl1 3 d a g (reformat (.ofMod m) f32 bf16 false))
  | .cvtF32F16 d a g _ => some (fl1 3 d a g (reformat .rne f16 f32 false))
  | .cvtF32Bf16 d a g _ => some (fl1 3 d a g (reformat .rne bf16 f32 false))
  | .cvtE4m3F32Sat d a g _ => some (fl1 3 d a g (reformat .rne f32 e4m3 true))
  | .cvtE4m3F32 d a g _ => some (fl1 3 d a g (reformat .rne f32 e4m3 false))
  | .cvtE5m2F32Sat d a g _ => some (fl1 3 d a g (reformat .rne f32 e5m2 true))
  | .cvtE5m2F32 d a g _ => some (fl1 3 d a g (reformat .rne f32 e5m2 false))
  | .cvtF32E4m3 d a g _ => some (fl1 3 d a g (reformat .rne e4m3 f32 false))
  | .cvtF32E5m2 d a g _ => some (fl1 3 d a g (reformat .rne e5m2 f32 false))
  | .cvtPls d a j g _ => some (fl1 3 d a g (cvtPlane (j.toNat + 1) true))
  | .cvtPln d a j g _ => some (fl1 3 d a g (cvtPlane (j.toNat + 1) false))
  | .scalb d a b g m => some (fl2 3 d a b g fun x y => scalb32 (.ofMod m) x y.toInt)
  | .frnd d a g m => some (fl1 3 d a g (frnd32 (.ofMod m)))
  | .packF16 d a b g => some (fl2 3 d a b g (packTwo f16))
  | .packBf16 d a b g => some (fl2 3 d a b g (packTwo bf16))
  | .twosum d a b g => some (flPair 4 d [a, b] g fun xs => twosum (xs.getD 0 0) (xs.getD 1 0))
  | .ftwosum d a b g => some (flPair 4 d [a, b] g fun xs => ftwosum (xs.getD 0 0) (xs.getD 1 0))
  | .dwadd d a b g => some (flPair 6 d (two a ++ two b) g fun xs =>
      dwadd (xs.getD 0 0) (xs.getD 1 0) (xs.getD 2 0) (xs.getD 3 0))
  | .dwnorm d a g => some (flPair 4 d (two a) g fun xs => dwnorm (xs.getD 0 0) (xs.getD 1 0))
  | .fma d a b g m => some (fl3 4 d a b g (fma32 (.ofMod m)))
  | .fms d a b g m => some (fl3 4 d a b g (fms32 (.ofMod m)))
  | .fmul d a b g m => some (fl2 4 d a b g (fmul32 (.ofMod m)))
  | .twoprod d a b g => some (flPair 4 d [a, b] g fun xs => twoprod (xs.getD 0 0) (xs.getD 1 0))
  | .dwmul d a b g => some (flPair 7 d (two a ++ two b) g fun xs =>
      dwmul (xs.getD 0 0) (xs.getD 1 0) (xs.getD 2 0) (xs.getD 3 0))
  | .dwfma d a b g => some (flPair 8 d (two a ++ two b ++ two d) g fun xs =>
      dwfma (xs.getD 0 0) (xs.getD 1 0) (xs.getD 2 0) (xs.getD 3 0) (xs.getD 4 0) (xs.getD 5 0))
  | .mad16 d a b g m => some (fl3 4 d a b g (madHalves f16 (.ofMod m)))
  | .madb16 d a b g m => some (fl3 4 d a b g (madHalves bf16 (.ofMod m)))
  | .dot2 d a b g m => some (fl3 5 d a b g (dot2W (.ofMod m)))
  | .rcp d a g m => some (fl1 10 d a g (frcp32 (.ofMod m)))
  | .rsq d a g m => some (fl1 10 d a g (frsq32 (.ofMod m)))
  | .sqrt d a g m => some (fl1 14 d a g (fsqrt32 (.ofMod m)))
  | .div d a b g m => some (fl2 16 d a b g (fdiv32 (.ofMod m)))
  | .exp2 d a g m => some (fl1 12 d a g (fexp2 (.ofMod m)))
  | .log2 d a g m => some (fl1 12 d a g (flog2 (.ofMod m)))
  | .sigm d a g m => some (fl1 14 d a g (fsigm (.ofMod m)))
  | .tanh d a g m => some (fl1 14 d a g (ftanh (.ofMod m)))
  | .rsqe d a g m => some (fl2 12 d a d g (frsqe32 (.ofMod m)))
  | .silu d a g m => some (fl1 16 d a g (fsilu (.ofMod m)))
  | _ => none

/-! ### Exact values, and rounding once (R12, R43 to R61) -/

/-- A format by Table 2.1: its width, the bits of its fraction and exponent, its bias, and the encodings of its largest finite
value, its canonical NaN and its +∞. -/
structure Format where
  width : Nat
  frac  : Nat
  exp   : Nat
  bias  : Nat
  top   : Nat
  nan   : Nat
  inf   : Option Nat

def F32 : Format := ⟨32, 23, 8, 127, 0x7F7FFFFF, 0x7FC00000, some 0x7F800000⟩
def F16 : Format := ⟨16, 10, 5, 15, 0x7BFF, 0x7E00, some 0x7C00⟩
def BF16 : Format := ⟨16, 7, 8, 127, 0x7F7F, 0x7FC0, some 0x7F80⟩
def E5M2 : Format := ⟨8, 2, 5, 15, 0x7B, 0x7E, some 0x7C⟩
def E4M3 : Format := ⟨8, 3, 4, 7, 0x7E, 0x7F, none⟩

/-- The value of an encoding that is finite (R44), and whether its sign bit is set. -/
def Format.val (f : Format) (w : Nat) : ℚ :=
  let e := w / 2 ^ f.frac % 2 ^ f.exp
  let m : ℚ := (w % 2 ^ f.frac : Nat) / 2 ^ f.frac
  (if w / 2 ^ (f.width - 1) % 2 = 1 then -1 else 1) *
    (if e = 0 then m * 2 ^ (1 - f.bias : ℤ) else (1 + m) * 2 ^ (e - f.bias : ℤ))
def Format.negative (f : Format) (w : Nat) : Bool := w / 2 ^ (f.width - 1) % 2 = 1

/-- What an encoding stands for: a NaN, which may signal, an infinity, or a number with its sign (R44). -/
inductive Ext where
  | nan (signals : Bool)
  | inf (neg : Bool)
  | num (neg : Bool) (x : ℚ)
  deriving DecidableEq

def Format.ext (f : Format) (w : Nat) : Ext :=
  let m := w % 2 ^ (f.width - 1)
  if some m = f.inf then .inf (f.negative w)
  else if m ≤ f.top then .num (f.negative w) (f.val w)
  else .nan (f.inf.isSome && w / 2 ^ (f.frac - 1) % 2 = 0)

/-- The encodings of a zero, an infinity and the largest finite value with a sign. -/
def Format.zero (f : Format) (neg : Bool) : Nat := if neg then 2 ^ (f.width - 1) else 0
def Format.infinity (f : Format) (neg : Bool) : Nat := f.zero neg + f.inf.getD f.top
def Format.largest (f : Format) (neg : Bool) : Nat := f.zero neg + f.top

def Ext.isNeg : Ext → Bool
  | .nan _ => false
  | .inf s => s
  | .num s _ => s
def Ext.value : Ext → ℚ
  | .num _ x => x
  | _ => 0
def Ext.opposite : Ext → Ext
  | .nan s => .nan s
  | .inf s => .inf !s
  | .num s x => .num (!s) (-x)
def Ext.signals : Ext → Bool
  | .nan s => s
  | _ => false

/-- A product: none for 0 × ∞ (R47, R48). -/
def product : Ext → Ext → Option Ext
  | .nan s, y => some (.nan (s || y.signals))
  | x, .nan t => some (.nan (x.signals || t))
  | .inf s, .inf t => some (.inf (s != t))
  | .inf s, .num t y => if y = 0 then none else some (.inf (s != t))
  | .num s x, .inf t => if x = 0 then none else some (.inf (s != t))
  | .num s x, .num t y => some (.num (s != t) (x * y))

/-- The number that a magnitude y of a sign is rounded to (R12, Table 0.4). -/
def Rounded (mode : Rm) (neg : Bool) (y : ℝ) (n : ℕ) : Prop :=
  match mode, neg with
  | .rne, _ => |y - n| < 1 / 2 ∨ (|y - n| = 1 / 2 ∧ n % 2 = 0)
  | .rz, _ => (n : ℝ) ≤ y ∧ y < n + 1
  | .ru, true => (n : ℝ) ≤ y ∧ y < n + 1
  | .rd, false => (n : ℝ) ≤ y ∧ y < n + 1
  | .ru, false => y ≤ n ∧ (n : ℝ) < y + 1
  | .rd, true => y ≤ n ∧ (n : ℝ) < y + 1

/-- The result of an overflow (Table 2.2). -/
def overflowTo (f : Format) (mode : Rm) (neg : Bool) : Nat :=
  match mode, neg with
  | .rne, s => f.infinity s
  | .rz, s => f.largest s
  | .ru, false => f.infinity false
  | .ru, true => f.largest true
  | .rd, false => f.largest false
  | .rd, true => f.infinity true

/-- The encoding w, with the lane flags fl of Table 2.3, is the real x, which is not 0, rounded once: beyond the largest
finite value with an unbounded exponent it overflows; otherwise x is rounded to a multiple of the last place, of the
subnormals at least; INX where that changes it, UNF where it is also tiny (R46, R47). -/
def RoundsTo (f : Format) (mode : Rm) (x : ℝ) (w : Nat) (fl : Byte) : Prop :=
  ∃ (neg : Bool) (u : ℤ) (m n : ℕ), (neg = true ↔ x < 0) ∧
    (2 : ℝ) ^ (f.frac + u) ≤ |x| ∧ |x| < (2 : ℝ) ^ (f.frac + 1 + u) ∧ Rounded mode neg (|x| / 2 ^ u) m ∧
    let q : ℤ := max u (1 - f.bias - f.frac)
    let y : ℝ := n * 2 ^ q
    Rounded mode neg (|x| / 2 ^ q) n ∧
    ((f.val f.top : ℝ) < m * 2 ^ u → w = overflowTo f mode neg ∧ fl = 4 ||| 16) ∧
    ((m : ℝ) * 2 ^ u ≤ f.val f.top →
      f.ext w = .num neg (f.val w) ∧ w < 2 ^ f.width ∧ |(f.val w : ℝ)| = y ∧
      (|x| = y → fl = 0) ∧
      (|x| ≠ y → ((m : ℝ) * 2 ^ u < 2 ^ (1 - f.bias : ℤ) → fl = 16 ||| 8) ∧
        ((2 : ℝ) ^ (1 - f.bias : ℤ) ≤ m * 2 ^ u → fl = 16)))

/-- The integer that a value rounds to. -/
def RoundsToInt (mode : Rm) (x : ℚ) (n : ℤ) : Prop :=
  Rounded mode (decide (x < 0)) |(x : ℝ)| n.natAbs ∧ (x < 0 → n ≤ 0) ∧ (0 ≤ x → 0 ≤ n)

/-- The encoding w, with flags fl, is the exact sum of terms rounded once: a NaN among them gives the canonical NaN,
with INV if one signals; opposite infinities are invalid; an exact zero has the terms' common sign, or else the mode's
(R45 to R48). -/
def SumIs (f : Format) (mode : Rm) (ts : List Ext) (w : Nat) (fl : Byte) : Prop :=
  let x := (ts.map Ext.value).sum
  ((∃ s, .nan s ∈ ts) → w = f.nan ∧ fl = if Ext.nan true ∈ ts then 1 else 0) ∧
  ((∀ s, .nan s ∉ ts) →
    (.inf false ∈ ts → .inf true ∈ ts → w = f.nan ∧ fl = 1) ∧
    (∀ s, .inf s ∈ ts → .inf (!s) ∉ ts → w = f.infinity s ∧ fl = 0) ∧
    ((∀ s, .inf s ∉ ts) →
      (x ≠ 0 → RoundsTo f mode x w fl) ∧
      (x = 0 → fl = 0 ∧ w = f.zero (if ts.all Ext.isNeg then true else if ts.any Ext.isNeg then decide (mode = .rd) else false))))

/-- The same of a product and further terms: an invalid product gives the canonical NaN with INV (R48, R186). -/
def FmaIs (f : Format) (mode : Rm) (x y : Ext) (ts : List Ext) (w : Nat) (fl : Byte) : Prop :=
  (product x y = none → w = f.nan ∧ fl = 1) ∧ ∀ p, product x y = some p → SumIs f mode (p :: ts) w fl

/-- A conversion to a format of 16 or 32 bits (R49). -/
def ConvIs (f : Format) (mode : Rm) (x : Ext) (w : Nat) (fl : Byte) : Prop := SumIs f mode [x] w fl

/-- A conversion to a format of 8 bits, saturating or not, with the thresholds of R50 and the results of Table 2.4. -/
def Conv8Is (f : Format) (sat : Bool) (x : Ext) (w : Nat) (fl : Byte) : Prop :=
  let beyond := fun (s : Bool) => if f.inf.isSome then f.infinity s else f.nan
  match x with
  | .nan s => w = f.nan ∧ fl = if s then 1 else 0
  | .inf s => (sat = true → w = f.largest s ∧ fl = 64) ∧
      (sat = false → w = beyond s ∧ fl = if f.inf.isSome then 0 else 4)
  | .num s v =>
    let far := if f.inf.isSome then decide (61440 ≤ |v|) else decide (464 < |v|)
    (far = true → (sat = true → w = f.largest s ∧ fl = 64 ||| 16) ∧ (sat = false → w = beyond s ∧ fl = 4 ||| 16)) ∧
    (far = false → SumIs f .rne [x] w fl)

/-- A deposit of the value y into an XA entry X: the floor of y × 2^160 is added, wrapping; INX where the floor is inexact,
OVF where it or the sum leaves the range; these are tile flags (R34, R59). -/
def DepositIs (X : ℤ) (y : ℚ) (out : ℤ) (fl : Byte) : Prop :=
  let z := ⌊y * 2 ^ 160⌋
  let inside := fun (n : ℤ) => -(2 ^ 255) ≤ n ∧ n < 2 ^ 255
  inside out ∧ (out - (X + z)) % 2 ^ 256 = 0 ∧
    (fl.getLsbD 0 = true ↔ ¬ (inside z ∧ inside (X + z))) ∧ (fl.getLsbD 1 = true ↔ (z : ℚ) ≠ y * 2 ^ 160) ∧ fl.toNat < 4

/-- What a word of a lane stands for, as f32, and the f32 value of a finite word. -/
def ext32 (w : Word32) : Ext := F32.ext w.toNat
def val32 (w : Word32) : ℚ := F32.val w.toNat
def infinite (w : Word32) : Prop := ∃ s, ext32 w = .inf s
def isNan (w : Word32) : Prop := ∃ s, ext32 w = .nan s

/-- A lane result is the sum of terms in a rounding, and a plain step of a pair operation, RNE (R64). -/
def Sums (mode : Rm) (ts : List Ext) (r : Word32 × Byte) : Prop := SumIs F32 mode ts r.1.toNat r.2
def Step (ts : List Ext) (w : Word32) : Prop := ∃ fl, Sums .rne ts (w, fl)

/-- What a pair operation makes of an operand pair: a finite high word with an infinite low word is that infinity (R64). -/
def PairIn (hi lo h l : Word32) : Prop :=
  (¬ infinite hi ∧ infinite lo → h = lo ∧ l = 0) ∧ (¬ (¬ infinite hi ∧ infinite lo) → h = hi ∧ l = lo)

/-- The result of a pair operation's steps: the first infinite word among them ends it with that infinity, OVF and INX
(R68). -/
def Ends (steps : List Word32) (hi lo : Word32) (fl : Byte) (r : Dw) : Prop :=
  ((∀ w ∈ steps, ¬ infinite w) → r = ⟨hi, lo, fl⟩) ∧
  (∀ as w bs, steps = as ++ w :: bs → (∀ x ∈ as, ¬ infinite x) → infinite w → r = ⟨w, 0, fl ||| 4 ||| 16⟩)

/-- A NaN pair with INV. -/
def nanPair : Dw := ⟨0x7FC00000, 0x7FC00000, 1⟩

end Sys2Proof.Claims

/-- The integer operations of the lanes: in every lane whose guard passes, the result by Tables 3.7a, 6.1, 6.2 and R188 is
in flight for its latency, poisoned exactly as R169 and R175 say, with no flag; nothing else changes but the sequencer
(R86, R168, R169, R173, R175 to R177, R183, R188, R189). -/
def Obligations.LaneIntegerResults : Prop :=
  open Sys2Proof Sys2Proof.Machine Sys2Proof.Claims in
  ∀ (s : State) (k : Kernel) (i : Instr) (o : LaneOp), Calm s k → laneInteger i = some o →
    exec i s = .next (running s (landedS s k) (issued s k (o.results (landedK s k))))

/-- The floating-point operations of the lanes: in every lane whose guard passes, the words and flags that the operation's
function gives on the lane's operands are in flight for its latency, poisoned if an operand is; a pair is read and
written high word first, and a pair operation delivers both words at once (R30, R168 to R170, R177 to R187, R190, R191). -/
def Obligations.LaneFloatResults : Prop :=
  open Sys2Proof Sys2Proof.Machine Sys2Proof.Claims in
  ∀ (s : State) (k : Kernel) (i : Instr) (o : LaneOp), Calm s k → laneFloat i = some o → i.wf = true →
    exec i s = .next (running s (landedS s k) (issued s k (o.results (landedK s k))))

/-- K_CMP and FCMP write the predicate of each performing lane after 1 and 3 cycles, FCMP with its flags, and trap
K-POISON, with no effect, where a performing lane reads a poisoned register (R169, R174, R180). -/
def Obligations.LaneCompareResults : Prop :=
  open Sys2Proof Sys2Proof.Machine Sys2Proof.Claims in
  ∀ (s : State) (k : Kernel) (c q g : BitVec 3) (a b : BitVec 7) (m : BitVec 1), Calm s k →
    let e := landedK s k
    let bad := (lanesOf e g).any fun l => (e.vr l a.toNat).poison || (e.vr l b.toNat).poison
    let num := fun (x : Word32) => if m = 1 then (x.toNat : Int) else x.toInt
    let holds := fun (x y : Int) => match c.toNat with
      | 0 => decide (x = y) | 1 => decide (x ≠ y) | 2 => decide (x < y) | 3 => decide (y ≤ x) | 4 => decide (y < x)
      | 5 => decide (x ≤ y) | _ => false
    (bad = true → exec (.kCmp c q a b g m) s = kernelTraps s k 4 0 ∧ exec (.fcmp c q a b g m) s = kernelTraps s k 4 0) ∧
    (bad = false →
      exec (.kCmp c q a b g m) s = .next (running s (landedS s k) (issued s k ((lanesOf e g).map fun l =>
        .q l q.toNat (k.cyc + 1) (holds (num (e.vr l a.toNat).val) (num (e.vr l b.toNat).val)) 0))) ∧
      exec (.fcmp c q a b g m) s = .next (running s (landedS s k) (issued s k ((lanesOf e g).map fun l =>
        let r := fcmp32 c.toNat (m = 1) (e.vr l a.toNat).val (e.vr l b.toNat).val
        .q l q.toNat (k.cyc + 3) r.1 r.2))))

/-- What FADD, FSUB, FMUL, FMA, FMS, MAD16, MADB16 and DOT2 compute: the exact sum, product or sum of products of their
operands, rounded once in the mode, with the flags of Table 2.3; every NaN is the canonical one, 0 × ∞ and opposite
infinities are invalid, an exact zero is signed by R48 (R44 to R48, R178, R185 to R187). FMIN, FMAX, FCMP and FCLASS
order and classify the values of their operands (R177, R179, R180). -/
def Obligations.FloatArithmetic : Prop :=
  open Sys2Proof Sys2Proof.Machine Sys2Proof.Claims in
  ∀ (mode : Rm) (a b d : Word32),
    let x := ext32 a
    let y := ext32 b
    let z := ext32 d
    let fma := fun (ts : List Ext) (r : Word32 × Byte) => FmaIs F32 mode x y ts r.1.toNat r.2
    let half := fun (w : Word32) (j : Nat) => w.toNat / 2 ^ (16 * j) % 2 ^ 16
    Sums mode [x, y] (fadd32 mode a b) ∧ Sums mode [x, y.opposite] (fsub32 mode a b) ∧
    fma [] (fmul32 mode a b) ∧ fma [z] (fma32 mode a b d) ∧ fma [z.opposite] (fms32 mode a b d) ∧
    (∀ f F, (f, F) = (f16, F16) ∨ (f, F) = (bf16, BF16) → ∃ f0 f1 : Byte, (madHalves f mode a b d).2 = f0 ||| f1 ∧
      FmaIs F mode (F.ext (half a 0)) (F.ext (half b 0)) [F.ext (half d 0)] (half (madHalves f mode a b d).1 0) f0 ∧
      FmaIs F mode (F.ext (half a 1)) (F.ext (half b 1)) [F.ext (half d 1)] (half (madHalves f mode a b d).1 1) f1) ∧
    (let p := fun j => product (BF16.ext (half a j)) (BF16.ext (half b j))
     let r := dot2W mode a b d
     (p 0 = none ∨ p 1 = none → r = (0x7FC00000, 1)) ∧
     ∀ u v, p 0 = some u → p 1 = some v →
       (.inf false ∈ [u, v, z] → .inf true ∈ [u, v, z] → r = (0x7FC00000, 1)) ∧
       (¬ (.inf false ∈ [u, v, z] ∧ .inf true ∈ [u, v, z]) → Sums mode [u, v, z] r)) ∧
    (∀ least : Bool, ∀ nanWins : Bool,
      let r := fminmax least nanWins a b
      (r.2 = if x.signals || y.signals then 1 else 0) ∧
      (isNan a → isNan b → r.1 = 0x7FC00000) ∧
      (isNan a → ¬ isNan b → r.1 = if nanWins then 0x7FC00000 else b) ∧
      (¬ isNan a → isNan b → r.1 = if nanWins then 0x7FC00000 else a) ∧
      (¬ isNan a → ¬ isNan b → (r.1 = a ∨ r.1 = b) ∧
        let below := fun (p q : Ext) => match p, q with
          | .inf s, .inf t => (s || !t) = true
          | .inf s, .num _ _ => s = true
          | .num _ _, .inf t => t = false
          | .num s v, .num t w => v < w ∨ (v = w ∧ (s || !t) = true)
          | _, _ => False
        if least then below (ext32 r.1) x ∧ below (ext32 r.1) y else below x (ext32 r.1) ∧ below y (ext32 r.1))) ∧
    (∀ c < 8, ∀ sig : Bool,
      let un := isNan a ∨ isNan b
      let eq := ¬ un ∧ (x = y ∨ ∃ s t v, x = .num s v ∧ y = .num t v)
      let lt := ¬ un ∧ (match x, y with
        | .inf s, .inf t => s = true ∧ t = false
        | .inf s, .num _ _ => s = true
        | .num _ _, .inf t => t = false
        | .num _ v, .num _ w => v < w
        | _, _ => False)
      let r := fcmp32 c sig a b
      (r.1 = true ↔ (c = 0 ∧ eq) ∨ (c = 1 ∧ ¬ eq) ∨ (c = 2 ∧ lt) ∨ (c = 3 ∧ (lt ∨ eq)) ∨
        (c = 4 ∧ ¬ un ∧ ¬ lt ∧ ¬ eq) ∨ (c = 5 ∧ ¬ un ∧ ¬ lt) ∨ (c = 6 ∧ un) ∨ (c = 7 ∧ ¬ un)) ∧
      (sig = false → r.2 = if x.signals || y.signals then 1 else 0) ∧
      (sig = true → (un → r.2 = 1) ∧ (¬ un → r.2 = 0))) ∧
    (let k := fun (i : Nat) => fclass32 a = BitVec.ofNat 32 (2 ^ i)
     match x with
     | .nan s => if s then k 8 else k 9
     | .inf s => if s then k 0 else k 7
     | .num s v => if v = 0 then (if s then k 3 else k 4)
       else if |v| < 2 ^ (-126 : ℤ) then (if s then k 2 else k 5) else if s then k 1 else k 6)

/-- What the conversions compute: an integer of 32 bits or a plane element is the value rounded to an integer and then
clamped, with CLP, and INX but for plane elements; a value of another format, an integer, a scaled value or an exact
accumulator value is rounded once; to 8 bits by Table 2.4; FRND keeps the sign; a packed word holds two conversions; a deposit
adds the floor at 2^-160 (R49, R50, R52 to R54, R59, R61, R181 to R183). -/
def Obligations.FloatConversions : Prop :=
  open Sys2Proof Sys2Proof.Machine Sys2Proof.Claims in
  ∀ (mode : Rm) (a b : Word32),
    let toInt := fun (x : Ext) (m : Rm) (lo hi : ℤ) (inx : Bool) (n : ℤ) (fl : Byte) => match x with
      | .nan _ => n = 0 ∧ fl = 1
      | .inf s => n = (if s then lo else hi) ∧ fl = 64
      | .num _ v => ∃ k : ℤ, RoundsToInt m v k ∧ n = max lo (min hi k) ∧
          fl = (if n = k then 0 else 64) ||| (if inx && (k : ℚ) ≠ v then 16 else 0)
    let wide := [(f16, F16), (bf16, BF16), (f32, F32)]
    let half := fun (w : Word32) (j : Nat) => w.toNat / 2 ^ (16 * j) % 2 ^ 16
    (∀ lo hi : ℤ, lo ≤ 0 → 0 ≤ hi → toInt (ext32 a) mode lo hi true (cvtInt mode lo hi (fv a)).1 (cvtInt mode lo hi (fv a)).2) ∧
    (∀ n : ℤ, (n = 0 → f32.ofInt mode n = (0, 0)) ∧ (n ≠ 0 → RoundsTo F32 mode n (f32.ofInt mode n).1 (f32.ofInt mode n).2)) ∧
    (∀ f F h H, (f, F) ∈ wide → (h, H) ∈ wide → ∀ sat, ConvIs H mode (F.ext (a.toNat % 2 ^ F.width))
      (reformat mode f h sat a).1.toNat (reformat mode f h sat a).2) ∧
    (∀ h H, (h, H) ∈ [(e4m3, E4M3), (e5m2, E5M2)] → ∀ sat, Conv8Is H sat (ext32 a) (reformat mode f32 h sat a).1.toNat
      (reformat mode f32 h sat a).2 ∧
      ConvIs F32 .rne (H.ext (a.toNat % 2 ^ 8)) (reformat .rne h f32 false a).1.toNat (reformat .rne h f32 false a).2) ∧
    (∀ f F, (f, F) ∈ [(f16, F16), (bf16, BF16), (e4m3, E4M3), (e5m2, E5M2)] → ∀ s v, F.ext (a.toNat % 2 ^ F.width) = .num s v →
      ext32 (reformat .rne f f32 false a).1 = .num s v ∧ (reformat .rne f f32 false a).2 = 0) ∧
    (∀ g, 1 ≤ g → g ≤ 16 → ∀ signed : Bool, ∃ n : ℤ, (cvtPlane g signed a).1 = BitVec.ofInt 32 n ∧
      toInt (ext32 a) .rne (if signed then -2 ^ (g - 1) else 0) (if signed then 2 ^ (g - 1) - 1 else 2 ^ g - 1) false n
        (cvtPlane g signed a).2) ∧
    (∀ k : ℤ, let r := scalb32 mode a k
      match ext32 a with
      | .nan s => r = (0x7FC00000, if s then 1 else 0)
      | .inf _ => r = (a, 0)
      | .num _ v => (v = 0 → r = (a, 0)) ∧ (v ≠ 0 → RoundsTo F32 mode (v * 2 ^ k) r.1.toNat r.2)) ∧
    (let r := frnd32 mode a
     match ext32 a with
      | .nan s => r = (0x7FC00000, if s then 1 else 0)
      | .inf _ => r = (a, 0)
      | .num s v => ∃ n : ℤ, RoundsToInt mode v n ∧ ext32 r.1 = .num s n ∧ r.2 = if (n : ℚ) = v then 0 else 16) ∧
    (∀ f F, (f, F) ∈ [(f16, F16), (bf16, BF16)] → ∃ f0 f1 : Byte, (packTwo f a b).2 = f0 ||| f1 ∧
      ConvIs F .rne (ext32 a) (half (packTwo f a b).1 0) f0 ∧ ConvIs F .rne (ext32 b) (half (packTwo f a b).1 1) f1) ∧
    (∀ n e : ℤ, (n = 0 → exactToF32 n e = (0, 0)) ∧
      (n ≠ 0 → RoundsTo F32 .rne (n * 2 ^ e) (exactToF32 n e).1.toNat (exactToF32 n e).2) ∧
      ∃ k m : ℤ, RoundsToInt .rne (n * 2 ^ e) k ∧ m = max (-2 ^ 31) (min (2 ^ 31 - 1) k) ∧ (exactToI32 n e).1 = BitVec.ofInt 32 m ∧
        (exactToI32 n e).2 = (if m = k then 0 else 64) ||| if (k : ℚ) = n * 2 ^ e then 0 else 16) ∧
    (∀ (x : Nat) (n e : ℤ), DepositIs (sxt 256 x) (n * 2 ^ e) (sxt 256 (xaDeposit x n e).1) (xaDeposit x n e).2)

/-- What DIV, RCP, SQRT, RSQ and RSQE compute: the exact quotient, root or reciprocal root rounded once in the mode, and
Table 6.7's results for special operands (R190, R191). -/
def Obligations.FloatQuotientsAndRoots : Prop :=
  open Sys2Proof Sys2Proof.Machine Sys2Proof.Claims in
  ∀ (mode : Rm) (a b : Word32),
    let is := fun (r : Word32 × Byte) (w : Nat) (fl : Byte) => r.1.toNat = w ∧ r.2 = fl
    let rounds := fun (r : Word32 × Byte) (x : ℝ) => RoundsTo F32 mode x r.1.toNat r.2
    let nan := fun (r : Word32 × Byte) (bad : Bool) => is r 0x7FC00000 (if bad then 1 else 0)
    (match ext32 a, ext32 b with
      | .nan s, y => nan (fdiv32 mode a b) (s || y.signals)
      | x, .nan t => nan (fdiv32 mode a b) (x.signals || t)
      | .inf _, .inf _ => nan (fdiv32 mode a b) true
      | .inf s, .num t _ => is (fdiv32 mode a b) (F32.infinity (s != t)) 0
      | .num s _, .inf t => is (fdiv32 mode a b) (F32.zero (s != t)) 0
      | .num s x, .num t y =>
        (x = 0 → y = 0 → nan (fdiv32 mode a b) true) ∧ (x ≠ 0 → y = 0 → is (fdiv32 mode a b) (F32.infinity (s != t)) 2) ∧
        (x = 0 → y ≠ 0 → is (fdiv32 mode a b) (F32.zero (s != t)) 0) ∧
        (x ≠ 0 → y ≠ 0 → rounds (fdiv32 mode a b) ((x : ℝ) / y))) ∧
    (match ext32 a with
      | .nan s => nan (frcp32 mode a) s ∧ nan (fsqrt32 mode a) s ∧ nan (frsq32 mode a) s
      | .inf s => is (frcp32 mode a) (F32.zero s) 0 ∧
        (s = false → is (fsqrt32 mode a) (F32.infinity false) 0 ∧ is (frsq32 mode a) 0 0) ∧
        (s = true → nan (fsqrt32 mode a) true ∧ nan (frsq32 mode a) true)
      | .num s x =>
        (x = 0 → is (frcp32 mode a) (F32.infinity s) 2 ∧ is (fsqrt32 mode a) (F32.zero s) 0 ∧
          is (frsq32 mode a) (F32.infinity s) 2) ∧
        (x < 0 → nan (fsqrt32 mode a) true ∧ nan (frsq32 mode a) true) ∧
        (x ≠ 0 → rounds (frcp32 mode a) (1 / (x : ℝ))) ∧
        (0 < x → rounds (fsqrt32 mode a) (Real.sqrt x) ∧ rounds (frsq32 mode a) (1 / Real.sqrt x))) ∧
    (let r := frsqe32 mode a b
     let clp : Byte := match ext32 a with
      | .inf true => 64
      | .num _ x => if x < 0 then 64 else 0
      | _ => 0
     let sum := fun (x y : ℚ) => (x + y < 0 → is r 0x7FC00000 (1 ||| clp)) ∧ (x + y = 0 → is r 0x7F800000 (2 ||| clp)) ∧
       (0 < x + y → ∃ fl, RoundsTo F32 mode (1 / Real.sqrt (x + y : ℚ)) r.1.toNat fl ∧ r.2 = fl ||| clp)
     match ext32 a, ext32 b with
      | .nan _, _ => nan r true
      | _, .nan _ => nan r true
      | .inf false, .inf true => nan r true
      | .inf false, _ => is r 0 0
      | _, .inf true => is r 0x7FC00000 (1 ||| clp)
      | _, .inf false => is r 0 clp
      | .inf true, .num _ y => sum 0 y
      | .num _ x, .num _ y => sum (max x 0) y)

/-- What EXP2, LOG2, SIGM, TANH and SILU compute: Table 6.7's results for special operands; the exact value rounded once
where it is a power or logarithm that is a whole number; and else the rounding, once, of a value that differs from the exact one
by at most 2^-290 of its size and 1 (R190; that no f32 operand brings the two apart is not proved, a choice of the
model's: log 12). -/
def Obligations.FloatExponentials : Prop :=
  open Sys2Proof Sys2Proof.Machine Sys2Proof.Claims in
  ∀ (mode : Rm) (a : Word32),
    let is := fun (r : Word32 × Byte) (w : Nat) (fl : Byte) => r.1.toNat = w ∧ r.2 = fl
    let rounds := fun (r : Word32 × Byte) (x : ℝ) => RoundsTo F32 mode x r.1.toNat r.2
    let near := fun (r : Word32 × Byte) (x : ℝ) => ∃ y : ℝ, |y - x| ≤ (1 + |x|) / 2 ^ 290 ∧ rounds r y
    match ext32 a with
    | .nan s => ∀ r ∈ [fexp2 mode a, flog2 mode a, fsigm mode a, ftanh mode a, fsilu mode a],
        is r 0x7FC00000 (if s then 1 else 0)
    | .inf true => is (fexp2 mode a) 0 0 ∧ is (flog2 mode a) 0x7FC00000 1 ∧ is (fsigm mode a) 0 0 ∧
        is (ftanh mode a) 0xBF800000 0 ∧ is (fsilu mode a) 0x80000000 0
    | .inf false => is (fexp2 mode a) 0x7F800000 0 ∧ is (flog2 mode a) 0x7F800000 0 ∧ is (fsigm mode a) 0x3F800000 0 ∧
        is (ftanh mode a) 0x3F800000 0 ∧ is (fsilu mode a) 0x7F800000 0
    | .num s x =>
      (x = 0 → is (fexp2 mode a) 0x3F800000 0 ∧ is (flog2 mode a) 0xFF800000 2 ∧ is (fsigm mode a) 0x3F000000 0 ∧
        is (ftanh mode a) (F32.zero s) 0 ∧ is (fsilu mode a) (F32.zero s) 0) ∧
      (∀ n : ℤ, x = n → rounds (fexp2 mode a) ((2 : ℝ) ^ n)) ∧
      (∀ n : ℤ, x = 2 ^ n → (n = 0 → is (flog2 mode a) 0 0) ∧ (n ≠ 0 → rounds (flog2 mode a) n)) ∧
      (x < 0 → is (flog2 mode a) 0x7FC00000 1) ∧
      (x ≠ 0 → near (fexp2 mode a) ((2 : ℝ) ^ (x : ℝ)) ∧ near (fsigm mode a) (1 / (1 + Real.exp (-x))) ∧
        near (ftanh mode a) (Real.tanh x) ∧ near (fsilu mode a) (x / (1 + Real.exp (-x))) ∧
        (0 < x → (∀ n : ℤ, x ≠ 2 ^ n) → near (flog2 mode a) (Real.logb 2 x)))

/-- What the pair operations compute: twosum the rounded sum and its exact error, ftwosum the same by three rounded
steps, exact where the first operand is not the smaller, twoprod the rounded product and its error rounded, with EFTX; dwadd,
dwmul, dwnorm and dwfma the steps of R68 to R70, each rounded once to nearest, the first infinite step ending them; dwadd
is symmetric (R64 to R70; the sign of a step's infinity where it is the error of ftwosum is a reading of the model, log 146,
and the flags of dwmul's first step another, log 33). -/
def Obligations.PairArithmetic : Prop :=
  open Sys2Proof Sys2Proof.Machine Sys2Proof.Claims in
  (∀ (a b : Word32),
    let x := ext32 a
    let y := ext32 b
    let invalid := isNan a ∨ isNan b ∨ ∃ s, x = .inf s ∧ y = .inf !s
    let plain := ¬ isNan a ∧ ¬ isNan b ∧ ¬ infinite a ∧ ¬ infinite b
    (∀ r ∈ [twosum a b, ftwosum a b],
      (invalid → r = nanPair) ∧
      (∀ s, ¬ invalid → x = .inf s ∨ y = .inf s → r = ⟨BitVec.ofNat 32 (F32.infinity s), 0, 0⟩) ∧
      (plain → Step [x, y] r.hi ∧ (infinite r.hi → r.lo = 0 ∧ r.fl = 4 ||| 16) ∧ (¬ infinite r.hi → r.fl = 0 ∧
        r.lo ≠ 0x80000000))) ∧
    (plain → ¬ infinite (twosum a b).hi → val32 (twosum a b).hi + val32 (twosum a b).lo = val32 a + val32 b) ∧
    (plain → ¬ infinite (ftwosum a b).hi →
      (|val32 b| ≤ |val32 a| → val32 (ftwosum a b).hi + val32 (ftwosum a b).lo = val32 a + val32 b) ∧
      ∃ z e, Step [ext32 (ftwosum a b).hi, x.opposite] z ∧ Step [y, (ext32 z).opposite] e ∧
        (ftwosum a b).lo = if e = 0x80000000 then 0 else e) ∧
    (let r := twoprod a b
     (isNan a ∨ isNan b ∨ product x y = none → r = nanPair) ∧
     (∀ s, product x y = some (.inf s) → r = ⟨BitVec.ofNat 32 (F32.infinity s), 0, 0⟩) ∧
     (∀ s v, product x y = some (.num s v) → ∃ fl fe : Byte, Sums .rne [.num s v] (r.hi, fl) ∧
       (infinite r.hi → r.lo = 0 ∧ r.fl = 4 ||| 16) ∧
       (¬ infinite r.hi → Sums .rne [.num s v, (ext32 r.hi).opposite] (r.lo, fe) ∧
         r.fl = (if val32 r.lo = v - val32 r.hi then 0 else 32) ||| if fl.getLsbD 3 then 8 else 0)))) ∧
  (∀ (ah0 al0 bh0 bl0 ah al bh bl : Word32), PairIn ah0 al0 ah al → PairIn bh0 bl0 bh bl →
    let invalid := isNan ah0 ∨ isNan al0 ∨ isNan bh0 ∨ isNan bl0
    let x := ext32 ah
    let y := ext32 bh
    let sum := dwadd ah0 al0 bh0 bl0
    let prod := dwmul ah0 al0 bh0 bl0
    (invalid ∨ (∃ s, x = .inf s ∧ y = .inf !s) → sum = nanPair) ∧
    (invalid ∨ product x y = none → prod = nanPair) ∧
    (∀ s, ¬ invalid → ((x = .inf s ∧ y ≠ .inf !s) ∨ (y = .inf s ∧ x ≠ .inf !s)) →
      sum = ⟨BitVec.ofNat 32 (F32.infinity s), 0, 0⟩) ∧
    (∀ s, ¬ invalid → product x y = some (.inf s) → prod = ⟨BitVec.ofNat 32 (F32.infinity s), 0, 0⟩) ∧
    (¬ invalid → ¬ infinite ah → ¬ infinite bh →
      (let se := twosum ah bh
       let tf := twosum al bl
       ∃ e1 e2, Step [ext32 se.lo, ext32 tf.hi] e1 ∧
         let s2 := ftwosum se.hi e1
         Step [ext32 s2.lo, ext32 tf.lo] e2 ∧
           let r := ftwosum s2.hi e2
           Ends [se.hi, se.lo, tf.hi, tf.lo, e1, s2.hi, s2.lo, e2, r.hi, r.lo] r.hi r.lo 0 sum) ∧
      (let pe := twoprod ah bh
       ∃ p t t2 e, product (ext32 al) y = some p ∧ Step [p] t ∧
         (∃ q, product x (ext32 bl) = some q ∧ Step [q, ext32 t] t2) ∧ Step [ext32 pe.lo, ext32 t2] e ∧
           let r := ftwosum pe.hi e
           Ends [pe.hi, pe.lo, t, t2, e, r.hi, r.lo] r.hi r.lo (pe.fl &&& 32) prod)) ∧
    dwadd bh0 bl0 ah0 al0 = sum ∧
    (isNan ah0 ∨ isNan al0 → dwnorm ah0 al0 = nanPair) ∧
    (∀ s, ¬ isNan ah0 → ¬ isNan al0 → x = .inf s → dwnorm ah0 al0 = ⟨ah, 0, 0⟩) ∧
    (¬ isNan ah0 → ¬ isNan al0 → ¬ infinite ah → dwnorm ah0 al0 = twosum ah al) ∧
    (∀ ch cl, let r := dwadd ch cl prod.hi prod.lo
      dwfma ah0 al0 bh0 bl0 ch cl = ⟨r.hi, r.lo, prod.fl ||| r.fl⟩))

namespace Sys2Proof.Claims

open Sys2Proof Sys2Proof.Machine

/-! ### Streams, the switch, reductions and mailboxes (R196 to R206) -/

/-- What an operation of the packet sees. -/
def envOf (s : State) (k : Kernel) : KEnv := ⟨landedS s k, s.home s.focus, landedK s k⟩

/-- The window byte address of a lane's word in unit i of a binding (R197). -/
def unitAddr (b : Binding) (i l : Nat) : Nat :=
  if b.words = 0 then b.base + (if b.dir = .circ then 4 * (128 * i + l) % b.len else 4 * (128 * i + l))
  else b.base + 4 * ((128 * (i / b.words) + l) * b.words + i % b.words)

/-- The SRF word at a window byte address of the kernel's context. -/
def windowWord (s t : State) (k : Kernel) (a : Nat) : SrfWord :=
  (t.core (s.home s.focus)).word ((s.ctx k.cx).winBase / 4 + a / 4)

/-- The kernel with a stream's position moved on by n units, and, for a writing direction, their words counted as
pushed, and those of some lanes as written. -/
def movedOn (b : Binding) (k e : Kernel) (n : BitVec 4) (units : Nat) (push : Bool) (ls : List Nat) : Kernel :=
  let i := smGet 0 k.pos n.toNat
  { e with
    wrote := if push then ((List.range units).map (i + ·)).foldl (laneMask b ls) e.wrote else e.wrote
    pos := smPut 0 e.pos n.toNat (i + units)
    pushed := if push then ((List.range units).map (i + ·)).foldl (pushMask b) e.pushed else e.pushed }

/-- The combination of 128 values in a tree of neighbours: seven levels (R71, R204, R205). -/
def tree {α : Type} (f : α → α → α) (x : Nat → α) : Nat → Nat → α
  | 0, i => x i
  | n + 1, i => f (tree f x n (2 * i)) (tree f x n (2 * i + 1))

/-- Source lanes of the switch operations (R202, R203). -/
def switchRule (e : Kernel) : Instr → Option (BitVec 7 × BitVec 7 × BitVec 3 × List (BitVec 7) × (Nat → Nat))
  | .comm d a b g => some (d, a, g, [b], fun l => (e.vr l b.toNat).val.toNat % 128)
  | .commCl d a b g => some (d, a, g, [b], fun l => l / 16 * 16 + (e.vr l b.toNat).val.toNat % 16)
  | .commpRot d a k g => some (d, a, g, [], fun l => (l + (128 - k.toNat)) % 128)
  | .commpBc d a k g => some (d, a, g, [], fun _ => k.toNat)
  | .commpBfly d a k g => some (d, a, g, [], fun l => (l ^^^ k.toNat))
  | _ => none

/-- The combination of IREDUCE on the operands of the performing lanes (Table 7.8). -/
def reduceRule (op : Nat) (xs : List Word32) : List Word32 :=
  let sum := fun (f : Word32 → Int) => (xs.map f).sum
  let best := fun (le : Word32 → Word32 → Bool) (z : Word32) => xs.foldl (fun x y => if le x y then x else y) z
  let pair := fun (n : Int) => [w32of (n / 2 ^ 32), w32of n]
  match op with
  | 0 => [w32of (sum fun x => x.toNat)]
  | 1 => [best (fun x y => decide (x.toInt ≤ y.toInt)) 0x7FFFFFFF]
  | 2 => [best (fun x y => decide (x.toNat ≤ y.toNat)) 0xFFFFFFFF]
  | 3 => [best (fun x y => decide (y.toInt ≤ x.toInt)) 0x80000000]
  | 4 => [best (fun x y => decide (y.toNat ≤ x.toNat)) 0]
  | 5 => [xs.foldl (· &&& ·) 0xFFFFFFFF]
  | 6 => [xs.foldl (· ||| ·) 0]
  | 7 => [xs.foldl (· ^^^ ·) 0]
  | 8 => pair (sum fun x => x.toInt)
  | _ => pair (sum fun x => x.toNat)

end Sys2Proof.Claims

/-- The stream operations: an unbound stream or a forbidden direction raises K-ILLEGAL, a unit past the end
K-STREAM-OVERRUN, an unfilled or unreleased chained line stalls; else SPOP gives every performing lane its word and
poison after two cycles, SPUSH writes each performing lane's word, SSKIP writes zero words on a writing direction, the
position advances, and SCOUNT gives the position or the units left (R196 to R200). The switch gives every performing
lane the word and poison of its source lane after six cycles; a poisoned index of a performing lane raises K-POISON
(R202, R203). CREDUCE adds the pairs of the performing lanes, +0 for the others, in a tree of neighbours of dwadd, with
the flags of every step; IREDUCE combines the words of the performing lanes; every performing lane receives the result,
poisoned if a contribution is (R71, R204, R205). -/
def Obligations.StreamOperations : Prop :=
  open Sys2Proof Sys2Proof.Machine Sys2Proof.Claims in
  (∀ (s : State) (k : Kernel) (d v : BitVec 7) (n : BitVec 4) (g : BitVec 3) (m : BitVec 10), Calm s k →
     let e := landedK s k
     let env := envOf s k
     let i := smGet 0 k.pos n.toNat
     let base := landedS s k
     (smGet none k.binds n.toNat = none →
       exec (.spop d n g) s = kernelTraps s k 1 4 ∧ exec (.spush v n g) s = kernelTraps s k 1 4 ∧
       exec (.sskip n m) s = kernelTraps s k 1 4 ∧ exec (.scountPos d n) s = kernelTraps s k 1 4 ∧
       exec (.scountRem d n) s = kernelTraps s k 1 4) ∧
     (∀ b, smGet none k.binds n.toNat = some b →
       let writes := decide (b.dir = .out ∨ b.dir = .chainOut)
       (writes = true → exec (.spop d n g) s = kernelTraps s k 1 4) ∧
       (writes = false → exec (.spush v n g) s = kernelTraps s k 1 4) ∧
       (streamStall n 1 true false env ≠ none → exec (.spop d n g) s = .next s) ∧
       (streamStall n 1 false true env ≠ none → exec (.spush v n g) s = .next s) ∧
       (streamStall n (m.toNat + 1) true true env ≠ none → exec (.sskip n m) s = .next s) ∧
       (writes = false → streamStall n 1 true false env = none → b.dir ≠ .circ → b.total ≤ i →
         exec (.spop d n g) s = kernelTraps s k 3 0) ∧
       (writes = true → streamStall n 1 false true env = none → b.total ≤ i →
         exec (.spush v n g) s = kernelTraps s k 3 0) ∧
       (streamStall n (m.toNat + 1) true true env = none → b.dir ≠ .circ → b.total < i + m.toNat + 1 →
         exec (.sskip n m) s = kernelTraps s k 3 0) ∧
       (writes = false → streamStall n 1 true false env = none → b.dir = .circ ∨ i < b.total →
         exec (.spop d n g) s = .next (running s (env.letGo b [i] base) (movedOn b k (issued s k
           ((lanesOf e g).map fun l =>
             let x := windowWord s base k (unitAddr b i l)
             .v l d.toNat (k.cyc + 2) x.val x.poison (if x.poison then fPOI else 0))) n 1 false []))) ∧
       (writes = true → streamStall n 1 false true env = none → i < b.total → ∃ t,
         exec (.spush v n g) s = .next (running s t (movedOn b k (issued s k []) n 1 true (lanesOf e g))) ∧
         (∀ l ∈ lanesOf e g, windowWord s t k (unitAddr b i l) = ⟨(e.vr l v.toNat).val, (e.vr l v.toNat).poison⟩) ∧
         ∀ w, (∀ l ∈ lanesOf e g, w ≠ (s.ctx k.cx).winBase / 4 + unitAddr b i l / 4) →
           (t.core (s.home s.focus)).word w = (base.core (s.home s.focus)).word w) ∧
       (streamStall n (m.toNat + 1) true true env = none → b.dir = .circ ∨ i + m.toNat + 1 ≤ b.total → ∃ t,
         exec (.sskip n m) s = .next (running s t (movedOn b k (issued s k []) n (m.toNat + 1) writes (List.range 128))) ∧
         (writes = true → ∀ j ≤ m.toNat, ∀ l < 128, windowWord s t k (unitAddr b (i + j) l) = ⟨0, false⟩) ∧
         (writes = false → ∀ w, (t.core (s.home s.focus)).word w = (base.core (s.home s.focus)).word w)) ∧
       exec (.scountPos d n) s = .next (running s base (issued s k
         ((List.range 128).map fun l => .v l d.toNat (k.cyc + 1) (w32of i) false 0))) ∧
       exec (.scountRem d n) s = .next (running s base (issued s k ((List.range 128).map fun l => .v l d.toNat (k.cyc + 1)
         (if b.dir = .circ then w32of (b.len / 512 - i % (b.len / 512) : Nat) else w32of (b.total - i : Nat)) false 0))))) ∧
  ((∀ (s : State) (k : Kernel) (i : Instr) (d a : BitVec 7) (g : BitVec 3) (idx : List (BitVec 7)) (src : Nat → Nat),
     Calm s k → switchRule (landedK s k) i = some (d, a, g, idx, src) →
     let e := landedK s k
     ((∃ l ∈ lanesOf e g, ∃ b ∈ idx, (e.vr l b.toNat).poison = true) → exec i s = kernelTraps s k 4 0) ∧
     ((∀ l ∈ lanesOf e g, ∀ b ∈ idx, (e.vr l b.toNat).poison = false) →
       exec i s = .next (running s (landedS s k) (issued s k ((lanesOf e g).map fun l =>
         .v l d.toNat (k.cyc + 6) (e.vr (src l) a.toNat).val (e.vr (src l) a.toNat).poison 0))))) ∧
   (∀ (s : State) (k : Kernel) (d a o : BitVec 7) (g : BitVec 3), Calm s k →
     let e := landedK s k
     let ls := lanesOf e g
     let pairs := fun l => if e.qr l g.toNat then Dw.mk (e.vr l a.toNat).val (e.vr l (a.toNat + 1)).val 0 else ⟨0, 0, 0⟩
     let r := tree (fun x y =>
       let z := dwadd x.hi x.lo y.hi y.lo
       Dw.mk z.hi z.lo (x.fl ||| y.fl ||| z.fl)) pairs 7 0
     let bad2 := ls.any fun l => (e.vr l a.toNat).poison || (e.vr l (a.toNat + 1)).poison
     let bad1 := ls.any fun l => (e.vr l a.toNat).poison
     (exec (.creduce d a g) s = .next (running s (landedS s k) (issued s k (ls.flatMap fun l =>
       [.v l d.toNat (k.cyc + 20) r.hi bad2 r.fl, .v l (d.toNat + 1) (k.cyc + 20) r.lo bad2 r.fl])))) ∧
     (o.toNat < 10 → exec (.ireduce d a o g) s = .next (running s (landedS s k) (issued s k (ls.flatMap fun l =>
       ((reduceRule o.toNat (ls.map fun l => (e.vr l a.toNat).val)).zipIdx.map fun x =>
         .v l (d.toNat + x.2) (k.cyc + 12) x.1 bad1 0)))))))

/-- MB.RD takes a full mailbox and blocks on an empty one; MB.WR fills an empty one, blocks on a full one and traps on a
poisoned value; MB.PROBE reads whether it is full; each notes that the CP has used the mailbox in this ac (R31, R165).
MILE.WAIT goes on when the queue's counter has reached the number in xa, and blocks until then; MILE.READ reads the
counter; MILE.ARM and MILE.DISARM set and clear the armed milestone; WAYMARK posts to the REM queue (R162, R166). The
mailbox operations of a kernel: MBR stalls on an empty mailbox, else it gives every lane the word or the two words after
two cycles and empties the mailbox unless K is set; MBW stalls on a full mailbox and traps on a poisoned word, else it
fills the mailbox from one lane (R206). A mailbox that the CP has used in the ac stalls both, since the kernel's
operation comes first in an ac (R31). -/
def Obligations.MailboxesAndMilestones : Prop :=
  open Sys2Proof Sys2Proof.Machine Sys2Proof.Claims in
  ((∀ (s : State) (d a b : BitVec 5) (m : BitVec 4),
     let c := s.ctx s.focus
     (Unhindered s [d] → (c.mb m.toNat).full = true → exec (.mbRd d m) s = .next (next16 s
       ((s.modCtx s.focus fun c => (c.setMb m.toNat { c.mb m.toNat with full := false }).cpUsed m.toNat).wrX s.focus d
         (c.mb m.toNat).val false))) ∧
     (Unhindered s [d] → (c.mb m.toNat).full = false → exec (.mbRd d m) s = blocks s (.mailbox m.toNat true)) ∧
     (Unhindered s [a] → s.tagX s.focus a = true → exec (.mbWr a m) s = traps s 7 0 0) ∧
     (Unhindered s [a] → s.tagX s.focus a = false → (c.mb m.toNat).full = true →
       exec (.mbWr a m) s = blocks s (.mailbox m.toNat false)) ∧
     (Unhindered s [a] → s.tagX s.focus a = false → (c.mb m.toNat).full = false →
       exec (.mbWr a m) s = .next (next16 s (s.modCtx s.focus fun c =>
         (c.setMb m.toNat ⟨s.rdX s.focus a, true⟩).cpUsed m.toNat))) ∧
     (Unhindered s [d] → exec (.mbProbe d a b m) s = .next (next16 s
       ((s.modCtx s.focus fun c => c.cpUsed m.toNat).wrX s.focus d (truth (c.mb m.toNat).full) false)))) ∧
   (∀ (s : State) (d a : BitVec 5) (q : BitVec 3) (w : BitVec 8), q.toNat < 6 →
     let n := ((s.ctx s.focus).mile (queueAt q)).counter
     (Unhindered s [a] → s.tagX s.focus a = true →
       exec (.mileWait a q) s = traps s 7 0 0 ∧ exec (.mileArm a q) s = traps s 7 0 0) ∧
     (Unhindered s [a] → s.tagX s.focus a = false →
       ((s.rdX s.focus a).toNat ≤ n → exec (.mileWait a q) s = .next (next16 s s)) ∧
       (n < (s.rdX s.focus a).toNat →
         exec (.mileWait a q) s = blocks s (.milestone (queueAt q) (s.rdX s.focus a).toNat)) ∧
       exec (.mileArm a q) s = .next (next16 s (s.modCtx s.focus fun c =>
         { c with armed := some (queueAt q, s.rdX s.focus a) }))) ∧
     (Unhindered s [d] → exec (.mileRead d q) s = .next (next16 s (s.wrX s.focus d (wrap n) false))) ∧
     (Unhindered s [] → exec .mileDisarm s = .next (next16 s (s.modCtx s.focus fun c => { c with armed := none }))) ∧
     (∀ sc : BitVec 3, Unhindered s [d] → s.postBlock s.focus .rem false = none →
       exec (.waymark d w sc) s = .next (next16 s (s.post s.focus .rem d
         (.waymark w.toNat (if sc = 7 then none else some (scopeOf sc))
           (if sc = 7 then [] else s.covered s.focus (scopeOf sc))) none [] [] false))))) ∧
  (∀ (s : State) (k : Kernel) (d v l : BitVec 7) (m : BitVec 4) (keep : BitVec 1), Calm s k →
     let e := landedK s k
     let b := (s.ctx k.cx).mb m.toNat
     let x := b.val.toNat
     let taken := if keep = 1 then landedS s k
       else (landedS s k).modCtx k.cx fun c => c.setMb m.toNat ⟨b.val, false⟩
     let filled := fun (y : Word) => (landedS s k).modCtx k.cx fun c => c.setMb m.toNat ⟨y, true⟩
     let put : List Word32 → Host.Outcome State Fault Refusal := fun ws => .next
       (running s taken (issued s k ((List.range 128).flatMap fun j =>
         ws.zipIdx.map fun w => .v j (d.toNat + w.2) (k.cyc + 2) w.1 false 0)))
     let w0 := e.vr l.toNat v.toNat
     let w1 := e.vr l.toNat (v.toNat + 1)
     let used := (s.ctx k.cx).mbCp.contains m.toNat
     (used = true → (w0.poison = false → w1.poison = false →
         exec (.mbwWord v m l) s = .next s ∧ exec (.mbwPair v m l) s = .next s) ∧
       exec (.mbrLo d m keep) s = .next s ∧ exec (.mbrHi d m keep) s = .next s ∧ exec (.mbrPair d m keep) s = .next s) ∧
     (used = false → b.full = false →
       exec (.mbrLo d m keep) s = .next s ∧ exec (.mbrHi d m keep) s = .next s ∧ exec (.mbrPair d m keep) s = .next s ∧
       (w0.poison = true → exec (.mbwWord v m l) s = kernelTraps s k 4 0) ∧
       (w0.poison || w1.poison → exec (.mbwPair v m l) s = kernelTraps s k 4 0) ∧
       (w0.poison = false → exec (.mbwWord v m l) s = .next (running s (filled (wrap w0.val.toNat)) (issued s k []))) ∧
       (w0.poison = false → w1.poison = false → exec (.mbwPair v m l) s =
         .next (running s (filled (wrap (w0.val.toNat * 2 ^ 32 + w1.val.toNat : Nat))) (issued s k [])))) ∧
     (used = false → b.full = true →
       exec (.mbrLo d m keep) s = put [w32of x] ∧ exec (.mbrHi d m keep) s = put [w32of (x / 2 ^ 32 : Nat)] ∧
       exec (.mbrPair d m keep) s = put [w32of (x / 2 ^ 32 : Nat), w32of x] ∧
       exec (.mbwWord v m l) s = .next s ∧ exec (.mbwPair v m l) s = .next s))

namespace Sys2Proof.Claims

open Sys2Proof Sys2Proof.Machine

/-! ### Accumulators (R207 to R213) -/

/-- An operation on accumulators: its slot, whether an XA tile, its index register and further sources, its guard, and
what a lane puts in flight from its cluster, its index and its sources. -/
structure AccOp where
  slot : BitVec 3
  xa   : Bool
  a    : BitVec 7
  srcs : List (BitVec 7)
  g    : BitVec 3
  f    : CoreSt → Nat → Nat → Word32 → List Word32 → List Pend

/-- The I64 entry that an index names, times 2 to the sum of its unbiased exponents; 0 where a field is 0 or 255 (R208). -/
def scaled (c : CoreSt) (cl p : Nat) (b : Word32) : Int × Int :=
  let r := (c.efield cl p (b.toNat / 64 % 64)).toNat
  let j := (c.efield cl p (64 + b.toNat % 64)).toNat
  if r = 0 ∨ r = 255 ∨ j = 0 ∨ j = 255 then (0, 0)
  else ((c.entry cl p (b.toNat % 4096)).toInt, ((r : Int) - 127) + ((j : Int) - 127))

/-- The 256-bit entry that an index names, as a signed number of units 2^-160 (R58). -/
def wide (c : CoreSt) (cl p : Nat) (b : Word32) : Int :=
  let n : Nat → Nat := fun q => (c.entry cl (p + q) (b.toNat % 4096)).toNat
  let v : Nat := n 0 + n 1 * 2 ^ 64 + n 2 * 2 ^ 128 + n 3 * 2 ^ 192
  if 2 ^ 255 ≤ v then (v : Int) - 2 ^ 256 else v

/-- A read into one register, or into a pair, after six cycles. -/
def readOp (k : Kernel) (xa : Bool) (d : BitVec 7) (n : BitVec 3) (a : BitVec 7) (g : BitVec 3)
    (f : CoreSt → Nat → Nat → Word32 → Word32 × Byte) (p : Nat) : AccOp :=
  ⟨n, xa, a, [], g, fun c l cl b _ => [.v l d.toNat (k.cyc + 6) (f c cl p b).1 false (f c cl p b).2]⟩
def pairOp (k : Kernel) (xa : Bool) (d : BitVec 7) (n : BitVec 3) (a : BitVec 7) (g : BitVec 3) (p : Nat) : AccOp :=
  ⟨n, xa, a, [], g, fun c l cl b _ =>
    let x := (c.entry cl p (b.toNat % 4096)).toNat
    [.v l d.toNat (k.cyc + 6) (w32of (x / 2 ^ 32 : Nat)) false 0, .v l (d.toNat + 1) (k.cyc + 6) (w32of x) false 0]⟩

/-- The operations on accumulators (Table 7.10); writes go to the declared slot after two cycles. -/
def accRule (s : State) (k : Kernel) : Instr → Option AccOp
  | .ardF32 d n a g => some (readOp k false d n a g (fun c cl p b => exactToF32 (scaled c cl p b).1 (scaled c cl p b).2) (at_ n))
  | .ardI32 d n a g => some (readOp k false d n a g (fun c cl p b => exactToI32 (scaled c cl p b).1 (scaled c cl p b).2) (at_ n))
  | .ardXaF32 d n a g => some (readOp k true d n a g (fun c cl p b => exactToF32 (wide c cl p b) (-160)) (at_ n))
  | .ardXaI32 d n a g => some (readOp k true d n a g (fun c cl p b => exactToI32 (wide c cl p b) (-160)) (at_ n))
  | .ardExp d n a g => some (readOp k false d n a g (fun c cl p b => (w32of (c.efield cl p (b.toNat % 128)).toNat, 0)) (at_ n))
  | .ard2 d n a g => some (pairOp k false d n a g (at_ n))
  | .ard2Q d n q a g => some (pairOp k true d n a g (at_ n + q.toNat))
  | .awrI32 v n a g => some ⟨n, false, a, [v], g, fun _ _ cl b xs =>
      [.acc n.toNat cl (b.toNat % 4096) (k.cyc + 2) (wrap (xs.getD 0 0).toInt)]⟩
  | .awrPair v n a g => some ⟨n, false, a, two v, g, fun _ _ cl b xs =>
      [.acc n.toNat cl (b.toNat % 4096) (k.cyc + 2) (wrap ((xs.getD 0 0).toNat * 2 ^ 32 + (xs.getD 1 0).toNat : Nat))]⟩
  | .awrExp v n a g => some ⟨n, false, a, [v], g, fun _ _ cl b xs =>
      [.field n.toNat cl (b.toNat % 128) (k.cyc + 2) (BitVec.ofNat 8 (xs.getD 0 0).toNat)]⟩
  | .adep v n a g => some ⟨n, true, a, [v], g, fun _ _ cl b xs =>
      [.dep n.toNat cl (b.toNat % 4096) (k.cyc + 2) (xs.getD 0 0)]⟩
  | .ascl v n a g => some ⟨n, false, a, [v], g, fun _ _ cl b xs =>
      [.ascl n.toNat cl (b.toNat % 128) (k.cyc + 2) (numS 8 ((xs.getD 0 0).toNat % 2 ^ 8))]⟩
  | _ => none
where
  at_ (n : BitVec 3) : Nat := (s.ctx k.cx).slots.getD n.toNat 0

/-- Whether the task's declaration has the slot; an XA tile stands at a0 of four slots or at a4 of eight (R33). -/
def declared (s : State) (k : Kernel) (n : BitVec 3) (xa : Bool) : Bool :=
  let m := (s.ctx k.cx).slots.length
  if xa then decide ((n.toNat = 0 ∧ 4 ≤ m) ∨ (n.toNat = 4 ∧ m = 8)) else decide (n.toNat < m)

/-! ### The sequencer (R215 to R222) -/

/-- The kernel after a packet that posts a matrix command (R216). -/
def matPosted (t : State) (k : Kernel) (r : BitVec 8) (n : BitVec 2) (d e : BitVec 5) : State :=
  t.modCtx k.cx fun c =>
    let num := nextNum .mat (c.mile .mat).posted
    let preds := ([d.toNat, e.toNat].filter fun x => x ≠ 0 && decide (x < num) && !skipped .mat (num - x)).map (num - ·)
    { (c.setMile .mat { c.mile .mat with posted := num }).wr 0 (wrap num) false with
      posted := c.posted ++ [⟨.mat, num, .matrix r.toNat ((List.range 8).map fun j => smGet 0 k.p j) [] [] preds n.toNat
        true, none, [], [], false, c.cmdOrd⟩]
      cmdOrd := c.cmdOrd + 1 }

/-- The result of a B- or C-slot operation: the p registers in flight, and the kernel's sequencing. -/
def seqRule (e : Kernel) : Instr → Option (List Pend × (Kernel → Kernel))
  | .psetImm j _ lit => some ([.p j.toNat (e.cyc + 1) (w32of lit.toNat)], id)
  | .psetHi j _ lit => some ([.p j.toNat (e.cyc + 1) (w32of (lit.toNat * 2 ^ 16 + (smGet 0 e.p j.toNat).toNat % 2 ^ 16 : Nat))], id)
  | .psetAdd j _ lit => some ([.p j.toNat (e.cyc + 1) (w32of (((smGet 0 e.p j.toNat).toNat : Int) + lit.toInt))], id)
  | .loop c n len => some ([], looping c (n.toNat + 1) len)
  | .loopP c p len => some ([], looping c (smGet 0 e.p p.toNat).toNat len)
  | .bra y q i =>
    let taken := if y = 1 then decide (∀ l ∈ List.range 128, e.qr l q.toNat = true) else decide (∃ l ∈ List.range 128, e.qr l q.toNat = true)
    some ([], fun k => { k with branch := some (if taken then some (e.pc + i.toInt) else none, 2) })
  | .kJmp i => some ([], fun k => { k with branch := some (some (e.pc + i.toInt), 2) })
  | .kend => some ([], fun k => { k with ended := true })
  | .idle n => some ([], fun k => { k with idle := n.toNat + 1 })
  | _ => none
where
  looping (c : BitVec 2) (n : Nat) (len : BitVec 12) (k : Kernel) : Kernel :=
    { k with
      l := smPut 0 k.l c.toNat (BitVec.ofNat 32 n)
      loops := if n = 0 then [] else [⟨c.toNat, k.pc, k.pc + len.toNat - 1⟩]
      pc := if n = 0 then k.pc + len.toNat else k.pc }

end Sys2Proof.Claims

/-- The operations on accumulators: an undeclared slot raises K-ILLEGAL, a poisoned index or source in a performing lane
K-POISON; else every performing lane reads its cluster's entry or field into its registers after six cycles, or sends
its word to its cluster's entry or field for two cycles; AZERO clears a tile of every cluster, ASTAT reads the tile status
into every lane, without the bits set in the same ac, and ASTAT_CLR clears it at issue, but for those bits (R33, R207 to
R213, R347). -/
def Obligations.AccumulatorOperations : Prop :=
  open Sys2Proof Sys2Proof.Machine Sys2Proof.Claims in
  ∀ (s : State) (k : Kernel), Calm s k →
    let e := landedK s k
    let base := landedS s k
    let core := base.core (s.home s.focus)
    (∀ i o, accRule s k i = some o → i.wf = true →
      let bad := (lanesOf e o.g).any fun l => (o.a :: o.srcs).any fun r => (e.vr l r.toNat).poison
      (declared s k o.slot o.xa = false → exec i s = kernelTraps s k 1 4) ∧
      (declared s k o.slot o.xa = true → bad = true → exec i s = kernelTraps s k 4 0) ∧
      (declared s k o.slot o.xa = true → bad = false →
        exec i s = .next (running s base (issued s k ((lanesOf e o.g).flatMap fun l =>
          o.f core l (l / 16) (e.vr l o.a.toNat).val (o.srcs.map fun r => (e.vr l r.toNat).val)))))) ∧
    (∀ (n : BitVec 3) (d : BitVec 7),
      let p := (s.ctx k.cx).slots.getD n.toNat 0
      let word := (List.range 128).map fun l => Pend.v l d.toNat (k.cyc + 6) (w32of (core.tileRead (l / 16) p).toNat) false 0
      (declared s k n false = false →
        exec (.azero n) s = kernelTraps s k 1 4 ∧ exec (.astat d n) s = kernelTraps s k 1 4 ∧
        exec (.astatClr d n) s = kernelTraps s k 1 4) ∧
      (declared s k n true = false → exec (.azeroXa n) s = kernelTraps s k 1 4) ∧
      (declared s k n true = true →
        exec (.azeroXa n) s = .next (running s base (issued s k [.zero n.toNat (k.cyc + 2) true]))) ∧
      (declared s k n false = true →
        exec (.azero n) s = .next (running s base (issued s k [.zero n.toNat (k.cyc + 2) false])) ∧
        exec (.astat d n) s = .next (running s base (issued s k word)) ∧
        ∃ t, exec (.astatClr d n) s = .next (running s t (issued s k word)) ∧
          ∀ cl q, (t.core (s.home s.focus)).tile cl q =
            if cl < 8 ∧ q = p then smGet 0 core.tileSet (8 * cl + p)
            else core.tileRead cl q ||| smGet 0 core.tileSet (8 * cl + q)))

/-- The sequencing operations outside loops and branches: PSET sets a p register one cycle later and traps on a poisoned
word; MPOST posts a matrix command or stalls; LOOP, BRA, JMP, KEND and IDLE steer the sequencer; KTRAP performs and then
stops the kernel with its code; MWAITK waits for a milestone, and is illegal on the kernel's own number (R215 to R222).
A packet at the end of a loop's body decrements the counter and goes back to the body's start while it is not 0; the two
packets after a branch issue in sequence, and then the target (R217, R218). Shown for a packet that holds only IDLE. -/
def Obligations.KernelSequencing : Prop :=
  open Sys2Proof Sys2Proof.Machine Sys2Proof.Claims in
  (∀ (s : State) (k : Kernel), Calm s k →
     let e := landedK s k
     let base := landedS s k
     let g := s.home s.focus
     (∀ i r, seqRule e i = some r → i.wf = true → exec i s = .next (running s base (r.2 (issued s k r.1)))) ∧
     (∀ (j : BitVec 3) (a : BitVec 7),
       exec (.pset j a) s = if (e.vr 0 a.toNat).poison then kernelTraps s k 4 0
         else .next (running s base (issued s k [.p j.toNat (k.cyc + 1) (e.vr 0 a.toNat).val]))) ∧
     (∀ (r : BitVec 8) (n : BitVec 2) (d f : BitVec 5),
       exec (.mpost r n d f) s = if (base.postBlock k.cx .mat false).isSome then .next s
         else .next (running s (matPosted base e r n d f) (issued s k []))) ∧
     (∀ c : BitVec 16, exec (.ktrap c) s = .next (base.ktrap g (issued s k []) 7 0 c.toNat k.pc)) ∧
     (∀ q p : BitVec 3,
       let x := (smGet 0 e.p p.toNat).toNat
       let m := (s.ctx k.cx).mile (queueOf q.toNat)
       exec (.mwaitk q p) s = if q = 2 ∧ k.num ≤ x then kernelTraps s k 1 4
         else if ((m.counter : Int) - x).emod (2 ^ 32) < 2 ^ 31 then .next (running s base (issued s k []))
         else .next s)) ∧
  (∀ (s : State) (k : Kernel) (n : BitVec 12), Resting s k → (∀ p ∈ k.pend, p.due ≤ k.cyc) →
     let idle := fun (f : Kernel → Kernel) =>
       Host.Outcome.next (running s (landedS s k) (f { issued s k [] with idle := n.toNat + 1 }))
     (∀ x rest, k.branch = none → k.loops = x :: rest → k.pc + 1 = x.last → (∀ y ∈ rest, k.pc + 1 < y.last) →
       let c := smGet 0 k.l x.ctr - 1
       exec (.idle n) s = idle fun j => { j with
         l := smPut 0 j.l x.ctr c
         loops := if c = 0 then rest else x :: rest
         pc := if c = 0 then k.pc + 2 else x.first }) ∧
     (∀ t m, k.branch = some (t, m) → k.loops = [] →
       (1 < m → exec (.idle n) s = idle fun j => { j with branch := some (t, m - 1) }) ∧
       (m ≤ 1 → exec (.idle n) s = idle fun j => { j with branch := none, pc := t.getD (k.pc + 2) })) ∧
     (∀ c len, k.branch ≠ none → exec (.loop c 0 len) s = kernelTraps s k 1 4 ∧ exec (.kJmp 0) s = kernelTraps s k 1 4))

/-- A packet that meets a trap condition performs nothing and reports the first in the order of R192: here an integer
addition that reads a soft error, that would land with a result in flight, or, with cr.LATCHK set, that reads a
register whose result is still due (R41, R192, R193). A kernel trap frees the array and sets cr.KSTATUS: the code,
offset, sub-cause and cause of the trap above the bits below bit 16; with a trap vector the kernel is held for the
context, and is delivered if it is the only one (R195, R328; that several held kernels form a list, of which only the
oldest is delivered, is the model's choice, log 37). -/
def Obligations.KernelTraps : Prop :=
  open Sys2Proof Sys2Proof.Machine Sys2Proof.Claims in
  (∀ (s : State) (k : Kernel) (d a b : BitVec 7) (g : BitVec 3) (m : BitVec 2),
    (s.core (s.home s.focus)).kern = some k → k.idle = 0 → k.ended = false → k.abort = false → k.freeze = false →
    k.branch = none → k.loops = [] →
    let ls := lanesOf (landedK s k) g
    let later := k.pend.filter fun p => decide (k.cyc < p.due)
    let soft := ∃ l ∈ ls, (128 * l + a.toNat) ∈ k.soft ∨ (128 * l + b.toNat) ∈ k.soft
    let clash := ∃ l ∈ ls, ∃ x p f, Pend.v l d.toNat (k.cyc + 1) x p f ∈ later
    let early := ∃ p ∈ later, (∃ l ∈ ls, ∃ r t x y f, p = .v l r t x y f ∧ (r = a.toNat ∨ r = b.toNat)) ∨
      (∃ l t v f, p = .q l g.toNat t v f ∧ g ≠ 0)
    (soft → exec (.kAdd d a b g m) s = kernelTraps s k 6 0) ∧
    (¬ soft → clash → exec (.kAdd d a b g m) s = kernelTraps s k 2 0) ∧
    (¬ soft → ¬ clash → (s.ctx k.cx).latchk.getLsbD 0 = true → early → exec (.kAdd d a b g m) s = kernelTraps s k 5 0)) ∧
  (∀ (s : State) (k : Kernel) (c : BitVec 16), Calm s k → (s.ctx k.cx).tvec ≠ 0 →
    let g := s.home s.focus
    let e := issued s k []
    let off := (k.pc.emod (2 ^ 24)).toNat
    let old := ((s.ctx k.cx).kstatus ||| (allFlags e.flags).zeroExtend 64).toNat % 2 ^ 16
    ∃ t, exec (.ktrap c) s = .next t ∧ (t.core g).kern = none ∧
      (t.ctx k.cx).heldK = (s.ctx k.cx).heldK ++ [{ e with cause := 7, sub := 0, code := c.toNat, offset := off }] ∧
      (t.ctx k.cx).kdeliver = ((s.ctx k.cx).kdeliver || (s.ctx k.cx).heldK.isEmpty) ∧
      (t.ctx k.cx).kstatus = wrap (c.toNat * 2 ^ 48 + off * 2 ^ 24 + 7 * 2 ^ 16 + old : Nat))

namespace Sys2Proof.Claims

open Sys2Proof Sys2Proof.Machine

/-! ### Landing (R39, R170) -/

/-- Keys of an I64 entry, an exponent field and a tile status word of a physical slot. -/
def entryKey (cl p e : Nat) : Nat := (8 * cl + p) * 4096 + e
def fieldKey (cl p i : Nat) : Nat := (8 * cl + p) * 128 + i
def tileKey (cl p : Nat) : Nat := 8 * cl + p

/-- The accumulator file is as before but for the entries, fields and tile words of some keys; and the kernel's own
registers are as before. -/
def SameFile (c u : CoreSt) (entries fields tiles : Nat → Prop) : Prop :=
  (∀ m, ¬ entries m → smGet 0 u.acc m = smGet 0 c.acc m) ∧ (∀ m, ¬ fields m → smGet 127 u.fields m = smGet 127 c.fields m) ∧
  ∀ m, ¬ tiles m → smGet 0 u.tiles m = smGet 0 c.tiles m ∧ smGet 0 u.tileSet m = smGet 0 c.tileSet m
def NoKey (_ : Nat) : Prop := False
def SameLanes (k j : Kernel) : Prop := j.v = k.v ∧ j.q = k.q ∧ j.p = k.p ∧ j.flags = k.flags

/-- An XA entry as a signed number of units 2^-160 (R58, R340). -/
def wideAt (c : CoreSt) (cl p e : Nat) : Int :=
  let n : Nat → Nat := fun q => (c.entry cl (p + q) e).toNat
  let v : Nat := n 0 + n 1 * 2 ^ 64 + n 2 * 2 ^ 128 + n 3 * 2 ^ 192
  if 2 ^ 255 ≤ v then (v : Int) - 2 ^ 256 else v

/-- What one result leaves when it has landed, and what it leaves as it was. -/
def Landed (c u : CoreSt) (k j : Kernel) (slot : Nat → Nat) : Pend → Prop
  | .v l d _ x p f =>
    (∀ m, smGet ⟨0, false⟩ j.v m = if m = 128 * l + d then ⟨x, p⟩ else smGet ⟨0, false⟩ k.v m) ∧
    (∀ m, smGet 0 j.flags m = if m = l then smGet 0 k.flags m ||| f else smGet 0 k.flags m) ∧
    j.q = k.q ∧ j.p = k.p ∧ SameFile c u NoKey NoKey NoKey
  | .q l q _ v f =>
    (∀ m, smGet false j.q m = if m = 8 * l + q ∧ q ≠ 0 then v else smGet false k.q m) ∧
    (∀ m, smGet 0 j.flags m = if m = l then smGet 0 k.flags m ||| f else smGet 0 k.flags m) ∧
    j.v = k.v ∧ j.p = k.p ∧ SameFile c u NoKey NoKey NoKey
  | .p i _ x =>
    (∀ m, smGet 0 j.p m = if m = i then x else smGet 0 k.p m) ∧
    j.v = k.v ∧ j.q = k.q ∧ j.flags = k.flags ∧ SameFile c u NoKey NoKey NoKey
  | .acc n cl e _ x =>
    u.entry cl (slot n) e = x ∧ SameLanes k j ∧ SameFile c u (· = entryKey cl (slot n) e) NoKey NoKey
  | .field n cl i _ x =>
    u.efield cl (slot n) i = x ∧ SameLanes k j ∧ SameFile c u NoKey (· = fieldKey cl (slot n) i) NoKey
  | .ascl n cl i _ v =>
    let f : Int := (c.efield cl (slot n) i).toNat
    SameLanes k j ∧ SameFile c u NoKey (· = fieldKey cl (slot n) i) (· = tileKey cl (slot n)) ∧
    if f = 0 ∨ f = 255 then u.efield cl (slot n) i = c.efield cl (slot n) i ∧ u.tile cl (slot n) = c.tile cl (slot n)
    else if f + v < 1 ∨ 254 < f + v then
      u.efield cl (slot n) i = 0 ∧ u.tile cl (slot n) = c.tile cl (slot n) ||| 8
    else (u.efield cl (slot n) i).toNat = f + v ∧ u.tile cl (slot n) = c.tile cl (slot n)
  | .dep n cl e _ y =>
    SameLanes k j ∧ SameFile c u (fun m => ∃ q < 4, m = entryKey cl (slot n + q) e) NoKey (· = tileKey cl (slot n)) ∧
    (∀ s v, ext32 y = .num s v → ∃ fl, DepositIs (wideAt c cl (slot n) e) v (wideAt u cl (slot n) e) fl ∧
      u.tile cl (slot n) = c.tile cl (slot n) ||| fl) ∧
    (isNan y ∨ infinite y → (∀ q < 4, u.entry cl (slot n + q) e = c.entry cl (slot n + q) e) ∧
      u.tile cl (slot n) = c.tile cl (slot n) ||| 4)
  | .zero n _ xa =>
    let slots := if xa then 4 else 1
    let tiles := fun m => ∃ cl < 8, ∃ q < slots, m = tileKey cl (slot n + q)
    SameLanes k j ∧
    SameFile c u (fun m => tiles (m / 4096)) (fun m => xa = false ∧ tiles (m / 128)) tiles ∧
    ∀ cl < 8, ∀ q < slots, (∀ e < 4096, u.entry cl (slot n + q) e = 0) ∧ u.tile cl (slot n + q) = 0 ∧
      (xa = false → ∀ i < 128, u.efield cl (slot n + q) i = 127)

end Sys2Proof.Claims

/-- A result lands at its cycle: a lane register with its poison and flags, a predicate but q0, a p register; an entry, an
exponent field, a scaled field that leaves 1 to 254 becomes 0 and sets RNG, a deposit with its tile flags, the zeros of a
cleared tile; every other entry, field, tile word and register stays, and what is not yet due stays in flight (R27, R39, R59,
R170, R211, R213). Shown for one result in flight. -/
def Obligations.ResultLanding : Prop :=
  open Sys2Proof Sys2Proof.Machine Sys2Proof.Claims in
  ∀ (s : State) (k : Kernel) (r : Pend), Resting s k → k.branch = none → k.loops = [] → k.pend = [r] →
    ∃ t j, exec (.idle 0) s = .next t ∧ (t.core (s.home s.focus)).kern = some j ∧
      let c := s.core (s.home s.focus)
      let u := t.core (s.home s.focus)
      (k.cyc < r.due → j.pend = [r] ∧ SameLanes k j ∧ SameFile c u NoKey NoKey NoKey) ∧
      (r.due ≤ k.cyc → j.pend = [] ∧ Landed c u k j (fun n => (s.ctx k.cx).slots.getD n 0) r)

/-- Every well-formed instruction that has an encoding, with every operand at every value that the encoding admits, is
decoded back from its words (chapters 3 to 8). -/
def Obligations.InstructionCodingRoundTrip : Prop :=
  open Sys2Proof Sys2Proof.Claims in
  ∀ i : Instr, i.wf = true → i.form ≠ .event → Decodes i

/-- What decoding accepts is well-formed: the slots of a bundle, which stand in order and write different registers, the
operations of a packet, and a routine word (R78 to R81, R87 to R91). -/
def Obligations.DecodedWellFormed : Prop :=
  open Sys2Proof in
  (∀ w0 w1 w2 w3 l, decodeBundle w0 w1 w2 w3 = .inl l →
    (∀ p ∈ l, p.1 < 4 ∧ p.2.wf = true ∧ p.2 ≠ .nop) ∧
    l.Pairwise fun p q => p.1 < q.1 ∧ ∀ r ∈ p.2.writes, r ∉ q.2.writes) ∧
  (∀ h ws l, decodePacket h ws = .inl l → ∀ p ∈ l, p.2.wf = true) ∧
  (∀ w i, decodeRoutine w = some i → i.wf = true)

namespace Sys2Proof.Claims

open Sys2Proof Sys2Proof.Machine

/-! ### Events of the kernel array and of bundles (R19, R39, R132, R137, R151 to R153, R328 to R331) -/

/-- The command has left its queue with this outcome: its milestone counts it, when it is the next in order, and its
record, where it asked for one, holds status, sub-cause, aux and number (R22, R141, Table 5.1). -/
def Completed (s t : State) (cx : Nat) (k : Cmd) (st sub aux : Nat) : Prop :=
  (∀ j ∈ (t.ctx cx).posted, j.queue ≠ k.queue ∨ j.num ≠ k.num) ∧
  (∀ a ∈ (t.ctx cx).active, a.cmd.queue ≠ k.queue ∨ a.cmd.num ≠ k.num) ∧
  (k.num = ((s.ctx cx).mile k.queue).counter + 1 → k.num ≤ ((t.ctx cx).mile k.queue).counter) ∧
  ∀ off, k.recOff = some off →
    let bs := t.rdLocal cx off 32
    field bs 0 1 = st % 2 ^ 8 ∧ field bs 1 1 = sub % 2 ^ 8 ∧ field bs 12 4 = aux % 2 ^ 32 ∧ field bs 24 8 = k.num % 2 ^ 64

/-- The kernel of a core belongs to a started KRUN of its context, whose task is not stopped: the only command of it not
completed, that has no chained range to write. -/
def SoleKrun (s : State) (k : Kernel) (a : Active) : Prop :=
  (s.ctx k.cx).posted = [] ∧ (s.ctx k.cx).active = [a] ∧ a.cmd.queue = .krn ∧ a.cmd.num = k.num ∧ a.started = true ∧
    s.stopped k.cx = false ∧ chainedLines a.cmd.writes = []

/-- No other KRUN of a core's contexts waits to complete. -/
def NoOtherEnded (s : State) (g : Nat) : Prop := ∀ cx ∈ s.ctxsAt g, ∀ a ∈ (s.ctx cx).active, a.ended = false

end Sys2Proof.Claims

/-- The kernel array's cycles: an idle cycle lands the results due and counts down; after KEND the next result in flight
lands; a packet that holds one operation performs as that operation; a packet that does not decode raises K-ILLEGAL with
its sub-cause, and so does one before the kernel's first word; a packet of integer operations with a word that holds a
soft error raises K-SOFT; the array of a stopped task stands still (R39, R192, R217, R220, R327, R331). -/
def Obligations.ArrayCycles : Prop :=
  open Sys2Proof Sys2Proof.Machine Sys2Proof.Claims in
  ∀ (s : State) (k : Kernel),
    let g := s.home s.focus
    ((s.core g).kern = some k → k.idle ≠ 0 → k.abort = false → k.freeze = false → s.stopped k.cx = false →
      exec (.idleIssueCycle g) s =
        .next (running s (landedS s k) { landedK s k with idle := k.idle - 1, cyc := k.cyc + 1 })) ∧
    ((s.core g).kern = some k → k.freeze = false → k.ended = false → k.idle ≠ 0 →
      exec (.resultLanding g) s = .next (running s (landedS s k) (landedK s k))) ∧
    ((s.core g).kern = some k → k.freeze = false → k.ended = true → k.pend ≠ [] →
      ∃ t j p, exec (.resultLanding g) s = .next t ∧ (t.core g).kern = some j ∧ p ∈ k.pend ∧
        (∀ q ∈ k.pend, p.due ≤ q.due) ∧ j.pend = k.pend.filter fun q => decide (p.due < q.due)) ∧
    (Resting s k → 0 ≤ k.pc → s.stopped k.cx = false →
      (∀ h ws l, (s.core g).packet k = some (h, ws) → (s.core g).codeSoft k (packetLen h) = true → k.branch = none →
        k.loops = [] → decodePacket h ws = .inl l → (∀ p ∈ l, ∃ i o, p.2 = .lane i ∧ laneInteger i = some o) →
        exec (.packetIssue g) s = kernelTraps s k 6 0) ∧
      (∀ h w c o, (s.core g).packet k = some (h, [w]) → (s.core g).codeSoft k (packetLen h) = false →
        decodePacket h [w] = .inl [(c, o)] → packetLen h = 2 →
        (∃ n, o.instr.form = .kernel n) → fld h 19 4 = 0 → exec (.packetIssue g) s = exec o.instr s) ∧
      (∀ h ws sub, (s.core g).packet k = some (h, ws) → decodePacket h ws = .inr sub →
        exec (.packetIssue g) s = kernelTraps s k 1 sub)) ∧
    (Resting s k → k.pc < 0 → s.stopped k.cx = false → exec (.packetIssue g) s = kernelTraps s k 1 1) ∧
    ((s.core g).kern = some k → s.stopped k.cx = true →
      exec (.packetIssue g) s = .next s ∧ exec (.idleIssueCycle g) s = .next s)

/-- The life of a kernel: the array takes the best ready KRUN, with its bindings; after KEND with nothing in flight the
KRUN completes with status 0, an aborted kernel with status 1, a held kernel that is aborted with status 5 and the
cause of its trap; a frozen kernel waits whole and is restored whole, but a snapshot with a soft error traps as K-SOFT;
a resumed held kernel waits for the array, but after K-SOFT it ends (R151 to R153, R328 to R331; the oldest of several
held kernels is meant, the model's choice, log 37). A halted core and a stopped task start and resume nothing. A packet of
kernel code is read from memory into the code memory of the core, once no shootdown, lock or die in C3 holds it; a translation
that fails writes a fault entry of engine KRN with read permission asked for (log 43), a page of host memory one of
sub-status 7 (log 161), the model's choices; a refusal ends the KRUN with status 2 (R314, R388). -/
def Obligations.KernelRuns : Prop :=
  open Sys2Proof Sys2Proof.Machine Sys2Proof.Claims in
  (∀ (s : State) (g cx : Nat) (k : Kernel) (a : Active),
    ((s.core g).kern = none → (s.core g).halted = false → (∀ c ∈ ctxsOf g, (s.ctx c).waitK = []) →
      best (fun x => s.effPrio x.1) (readyKruns s g) = some (cx, a) → ∀ image binds, a.cmd.kind = .krun image binds →
      ∃ t, exec (.kernelStart g) s = .next t ∧ (t.core g).kern =
        some { cx := cx, num := a.cmd.num, image := image, pasid := (s.ctx cx).pasid, binds := binds }) ∧
    ((s.core g).kern = some k → s.home k.cx = g → SoleKrun s k a → NoOtherEnded s g →
      (k.ended = true → k.pend = [] → k.cx ∈ s.ctxsAt g →
        ∃ t, exec (.krunComplete g) s = .next t ∧ (t.core g).kern = none ∧ Completed s t k.cx a.cmd 0 0 0) ∧
      (k.ended = false → k.abort = true →
        ∃ t, exec (.kernelAbortStop g) s = .next t ∧ (t.core g).kern = none ∧ Completed s t k.cx a.cmd 1 0 0)) ∧
    ((s.core g).kern = some k → k.freeze = true → k.abort = false → ∃ t, exec (.kernelFreeze g) s = .next t ∧
      (t.core g).kern = none ∧ (t.ctx k.cx).waitK = (s.ctx k.cx).waitK ++ [{ k with freeze := false }]) ∧
    (∀ ks, (s.core g).kern = none → (s.core g).halted = false → (s.ctx cx).waitK = k :: ks →
      best s.effPrio ((ctxsOf g).filter fun c => (s.ctx c).waitK ≠ [] && !s.stopped c) = some cx →
      (k.snapSoft = false →
        ∃ t, exec (.kernelResume g) s = .next t ∧ (t.core g).kern = some { k with cx := cx } ∧ (t.ctx cx).waitK = ks) ∧
      (k.snapSoft = true → exec (.kernelResume g) s =
        .next ((s.modCtx cx fun c => { c with waitK := ks }).ktrap g { k with cx := cx } 6 0 0 k.pc))) ∧
    (∀ ks, (s.ctx cx).heldK = k :: ks →
      (k.cause ≠ 6 → ∃ t, exec (.tstatKres cx) s = .next t ∧ (t.ctx cx).heldK = ks ∧
        (t.ctx cx).waitK = (s.ctx cx).waitK ++ [k]) ∧
      (k.cx = cx → SoleKrun s k a →
        (∃ t, exec (.tstatKabt cx) s = .next t ∧ (t.ctx cx).heldK = ks ∧
          Completed s t cx a.cmd 5 k.cause (if k.cause = 7 then k.code else 0)) ∧
        (k.cause = 6 → exec (.tstatKres cx) s = exec (.tstatKabt cx) s)) ∧
      ((s.ctx cx).kdeliver = true → (s.ctx cx).tactive = false → (s.ctx cx).tvec ≠ 0 →
        (s.ctx cx).interruptible = true → (s.core (s.home cx)).halted = false → ∃ t, exec (.kernelTrapDelivery cx) s = .next t ∧
          (t.ctx cx).pc = (s.ctx cx).tvec ∧ (t.ctx cx).tactive = true ∧ (t.ctx cx).kdeliver = false ∧
          (t.ctx cx).heldK = (s.ctx cx).heldK ∧ (t.ctx cx).trapPc = (s.ctx cx).pc ∧
          (t.ctx cx).trapInfo = trapInfoOf 0 17 k.cause k.num))) ∧
  (∀ (s : State) (g : Nat) (k : Kernel), (s.core g).kern = some k →
    let va := k.va k.pc
    let part := (s.ctx k.cx).part
    let faulted := fun (sub : Nat) => ∃ u e, exec (.kernelCodeFetch g) s = .next u ∧ u.faults = s.faults ++ [e] ∧ e.va = va ∧
      e.sub = sub ∧ e.engine = 3 ∧ e.read = true ∧ e.who = .kcode k.cx k.num
    (s.stopped k.cx = true → exec (.kernelCodeFetch g) s = .next s) ∧
    (s.stopped k.cx = false → (∀ e ∈ s.faults, e.who ≠ .kcode k.cx k.num) →
      (k.ended = true ∨ k.pc < 0 ∨ (s.core g).packet k ≠ none → exec (.kernelCodeFetch g) s = .next s) ∧
      (k.ended = false → 0 ≤ k.pc → (s.core g).packet k = none →
        (∀ t, s.translate g part k.pasid va true false = (.held, t) → exec (.kernelCodeFetch g) s = .next (s.heard t)) ∧
        (∀ t c, s.translate g part k.pasid va true false = (.fault c, t) → t.faultRoom (dieOf g) = true → faulted c) ∧
        (∀ t p, s.translate g part k.pasid va true false = (.hit p, t) →
          ((t.placeOf p va).1 = true → t.faultRoom (dieOf g) = true → faulted 7) ∧
          (∀ q, t.placeOf p va = (false, q) →
            (t.shut false q 4 = true → exec (.kernelCodeFetch g) s = .next (s.heard (t.rouse false q))) ∧
            (t.shut false q 4 = false → packetLen (leNat (t.rdMem false q 4)) = 1 →
              ∃ u, exec (.kernelCodeFetch g) s = .next u ∧
                (u.core g).packet k = some (leNat (t.rdMem false q 4), [])))))) ∧
    (∀ e a, s.faults.find? (fun e => e.who = .kcode k.cx k.num) = some e → SoleKrun s k a → s.home k.cx = g →
      (e.answer = none → exec (.kernelCodeFetch g) s = .next s) ∧
      (e.answer = some false → ∃ t, exec (.kernelCodeFetch g) s = .next t ∧ (t.core g).kern = none ∧
        Completed s t k.cx a.cmd 2 0 0) ∧
      (e.answer = some true → exec (.kernelCodeFetch g) s =
        .next { s with faults := s.faults.filter fun x => x.id ≠ e.id })))

/-- The CP's own events: a fetch that fails to translate writes an execute entry and parks the context; a held GATHERL
goes on with its bundle; a context whose block has cleared is ready and will run its bundle whole; the CP turns to the
best ready context, and leaves the one that runs only for a better one (R19, R132, R137). -/
def Obligations.ControlProcessorEvents : Prop :=
  open Sys2Proof Sys2Proof.Machine Sys2Proof.Claims in
  ∀ (s t : State) (g cx : Nat),
    (∀ e, s.live cx = true → NoneAhead s (s.home cx) → s.fetch cx = (.inr (some e), t) → t.faultRoom (dieOf (t.home cx)) = true →
      ∃ u x, exec (.fetchPageFault cx) s = .next u ∧ u.faults = t.faults ++ [x] ∧ x.va = (t.ctx cx).pc ∧ x.sub = e ∧
        x.exec = true ∧ (u.ctx cx).status = .blocked (.fault t.nextFlt) ∧ (u.ctx cx).pc = (t.ctx cx).pc) ∧
    (∀ j, (s.ctx cx).gather = some j → j.pc = (s.ctx cx).pc →
      exec (.gatherlStep cx) s = .next (bundleTurn cx s)) ∧
    (∀ w, (s.ctx cx).status = .blocked w → (s.ctx cx).retiring = false →
      (s.cleared cx w = true → exec (.blockedBundleReexecute cx) s =
        .next (s.modCtx cx fun c => { c with status := .ready })) ∧
      (s.cleared cx w = false → exec (.blockedBundleReexecute cx) s = .next s)) ∧
    ((s.core g).halted = false → s.nextReady g = some cx →
      (s.runningOn g = none → ∃ u, exec (.contextSwitch g) s = .next u ∧ (u.ctx cx).status = .running ∧
        (u.core g).last = cx % 4) ∧
      (∀ old, s.runningOn g = some old → old ≠ cx →
        (s.effPrio cx < s.effPrio old → ∃ u, exec (.contextSwitch g) s = .next u ∧ (u.ctx cx).status = .running ∧
          (u.ctx old).status = .ready ∧ (u.core g).last = cx % 4) ∧
        (s.effPrio old ≤ s.effPrio cx → exec (.contextSwitch g) s = .next s)))

/-- A step takes the next turn of the agenda; with none, the bundle at the PC of the context in focus: when its words
hold one control instruction, alone in its usual slot, the step is that instruction's meaning on the state after the
fetch, and an empty bundle is NOP's; when they do not decode, the context traps with the cause and slot (R72 to R79). A
packet turn of one operation and a routine turn of one word are the meanings of what they hold (R88, R192, R227). -/
def Obligations.StepRunsTheInstruction : Prop :=
  open Sys2Proof Sys2Proof.Machine Sys2Proof.Claims in
  ∀ (s t : State),
    (∀ i ts, s.agenda = .event i :: ts → step s = exec i { s with agenda := ts }) ∧
    (∀ ws, AtBundle s → s.fetch s.focus = (.inl ws, t) →
      let bundle := decodeBundle (ws.getD 0 0) (ws.getD 1 0) (ws.getD 2 0) (ws.getD 3 0)
      (bundle = .inl [] → step s = exec .nop t) ∧
      (∀ i, bundle = .inl [(0, i)] → i.form = .control → step s = exec i t) ∧
      (∀ d v, bundle = .inl [(1, .ldi64 d v)] → step s = exec (.ldi64 d v) t) ∧
      (∀ slot cause, bundle = .inr (slot, cause) → step s = .next (t.trap s.focus slot cause 0 0 0))) ∧
    (∀ g ts, s.agenda = .packet g :: ts → step s = exec (.packetIssue g) { s with agenda := ts }) ∧
    (∀ ts r w, s.agenda = .routine s.planeCore :: ts → (s.core s.planeCore).plane = some r →
      decodeRoutine (smGet 0 (s.core s.planeCore).store r.pc).toNat = some w →
      step s = exec w.instr { s with agenda := ts })

/-- The words that the spec works out decode to the instructions that it names: its bundles (Tables 3.4, 4.6), its packet
(Table 3.10) and other slot words, and its routine word. -/
def Obligations.WorkedEncodings : Prop :=
  open Sys2Proof in
  decodeBundle 0xFC12FF00 0x0CA03456 0x0CC5FFFF 0x04000000 =
    .inl [(1, .addi 5 0 ⟨0x3456, some 0x12⟩), (2, .addi 6 5 ⟨0xFFFF, some 0xFF⟩)] ∧
  decodeBundle 0x44E48900 0x3505120C 0x09293000 0x04000000 =
    .inl [(0, .ldx 7 2 2 4 2), (1, .bfxNImm 8 5 8 12), (2, .add 9 9 6)] ∧
  decodePacket 0x501A0248 [0x40502FDB, 0x80201040] =
    .inl [(0, .lane (.moviLiteral 10 0 0xFDB 0x4049)), (2, .lane (.fma 4 1 2 0 0))] ∧
  decodePacket 0x40000000 [0xC8284149] = .inl [(0, .lane (.fadd 5 4 10 2 1))] ∧
  decodePacket 0x00800000 [0x8C000000] = .inl [(7, .seq .kend)] ∧
  (decodeRoutine 0x01820002800A0000).map RWord.instr =
    some (.movePair ⟨false, 0, 24, 8, 5⟩ ⟨false, 0, 0, 20, 0⟩)

/-- Right after reset no task is placed, no kernel runs and the weight store is sealed; every control register with a
reset value reads it: 0, but the numbers of core and die, cr.AGE 1,000, cr.SWAPWAIT 100, cr.CALCTL 7 and cr.SCRUBCTL
0x0010_05A0_0000_0007; the hub's status is 0 (R21, R160, R167, R195, R257, R325, R392, R398). At reset memory,
device's and host's, lists no byte, and keeps its canonical form. The value that an unlisted byte reads as is the
model's choice (log entry 4). -/
def Obligations.ResetState : Prop :=
  open Sys2Proof Sys2Proof.Machine in
  ((∀ cx, (State.reset.ctx cx).status = .idle ∧ (State.reset.ctx cx).task = 0) ∧
  (∀ g, (State.reset.core g).kern = none) ∧ (∀ d, (State.reset.die d).ws = .sealed) ∧
  State.reset.hub.hstatus = 0 ∧ State.reset.hub.parts = [] ∧ State.reset.hub.tasks = [] ∧ State.reset.faults = [] ∧
  ∀ p ∈ ([(0x000, 0), (0x001, 0), (0x002, 0), (0x003, 0), (0x004, 0), (0x006, 0), (0x007, 0), (0x010, 0), (0x011, 0),
      (0x012, 0), (0x013, 0), (0x014, 0), (0x020, 0), (0x021, 0), (0x030, 0), (0x040, 0), (0x041, 0), (0x050, 0),
      (0x060, 0), (0x061, 0), (0x062, 0), (0x063, 0), (0x064, 0), (0x065, 0), (0x100, 1000), (0x101, 100), (0x102, 7),
      (0x103, 0x001005A000000007), (0x104, 0)] : List (BitVec 12 × Word)),
    ∃ t, exec (.csrr 5 p.1) State.reset = .next t ∧ t.rdX 0 5 = p.2) ∧
  (State.reset.mem = [] ∧ State.reset.hostMem = [] ∧ Memory.wf State.reset)

/-- Every step goes on, and keeps device memory, host memory and the poison marks of both in their canonical form: keys
strictly rising, and no entry equal to what an unlisted one reads as (R4, R37; the form is the model's own). -/
def Obligations.MemoryStaysCanonical : Prop :=
  open Sys2Proof.Machine in
  ∀ s : State, ∃ t, step s = .next t ∧ (Memory.wf s → Memory.wf t)

/-- FRAME. No control instruction but LAUNCH and QMAP, no kernel operation and no routine word changes a byte of memory
when it performs: stores leave as requests, and perform on their own (R254, R291). -/
def Obligations.MemoryFrame : Prop :=
  open Sys2Proof Sys2Proof.Machine in
  ∀ (s t : State) (i : Instr), i.form ≠ .event → (∀ d a, i ≠ .launch d a) → (∀ a b, i ≠ .qmap a b) → exec i s = .next t →
    ∀ host a, t.rdByte host a = s.rdByte host a ∧ t.bad host a = s.bad host a

/-- FRAME. A control instruction changes the scalar registers, PC, handles, mailboxes, trap registers, bindings and
posted commands of its own context only; XINV.MARK alone also invalidates handles of others (R4, R17, R31, R318). -/
def Obligations.ContextFrame : Prop :=
  open Sys2Proof Sys2Proof.Machine in
  ∀ (s t : State) (i : Instr) (cx : Nat), i.form = .control → cx ≠ s.focus → exec i s = .next t →
    let c := s.ctx cx
    let d := t.ctx cx
    ((∀ d a b, i ≠ .xinvMark d a b) → d.h = c.h) ∧ d.x = c.x ∧ d.pc = c.pc ∧ d.mbox = c.mbox ∧ d.trapPc = c.trapPc ∧ d.trapInfo = c.trapInfo ∧
      d.trapVa = c.trapVa ∧ d.tvec = c.tvec ∧ d.binds = c.binds ∧ d.posted = c.posted

namespace Sys2Proof.Claims

open Sys2Proof Sys2Proof.Machine

/-! ### Routines of the plane engine (R88 to R91, R223 to R236) -/

/-- The focus context's core runs a routine that has neither ended nor failed. -/
def InRoutine (s : State) (r : Routine) : Prop :=
  (s.core s.planeCore).plane = some r ∧ r.ended = false ∧ r.bad = none

/-- The core with another routine state; and with the routine illegal at its word, and nothing else changed (R227). -/
def routineAt (s : State) (r : Routine) : State :=
  s.setCore s.planeCore { s.core s.planeCore with plane := some r }
def routineIllegal (s : State) (r : Routine) (t : State) : Prop :=
  (t.core s.planeCore) = { s.core s.planeCore with plane := some { r with bad := some ((r.pc - r.w) % 256) } }

/-- The value that a cluster reads at a port (Table 8.2). -/
def portValue (r : Routine) (port : BitVec 6) (imm : BitVec 15) (cl : Nat) : Word32 :=
  if port.toNat < 8 then smGet 0 r.p port.toNat
  else if 16 ≤ port.toNat ∧ port.toNat < 20 then
    (if r.loops.any (fun l => l.1 = port.toNat - 16) then smGet 0 r.lc (port.toNat - 16) else 0)
  else if port = 24 then w32of imm.toInt
  else if port = 25 then 0
  else if port = 26 then w32of cl
  else r.port cl port.toNat

/-- Ports that hold what is written, one for each cluster: t0-t7, AGA, AGB, STA, STB, ADDA, CMPA. -/
abbrev plainPort (port : BitVec 6) : Prop :=
  (8 ≤ port.toNat ∧ port.toNat < 16) ∨ (20 ≤ port.toNat ∧ port.toNat < 24) ∨ port = 40 ∨ port = 43

/-- A routine outside loops goes on at a word of its own; a word beyond its last ends it with its offset (R223). -/
def goesTo (r q : Routine) (pc : Int) : Prop :=
  q.last = r.pc ∧ if r.w ≤ pc ∧ pc < r.w + r.count then (q.pc : Int) = pc ∧ q.bad = none
    else q.bad = some ((r.pc - r.w) % 256) ∧ q.pc = r.pc

/-- A guard condition in a cluster (Table 8.3). -/
def guardHolds (r : Routine) (g : BitVec 3) (cl : Nat) : Bool :=
  (g = 0 && r.port cl 45 = 1) || (g = 1 && r.port cl 45 = 0) ||
  (g = 2 && r.loops.head?.any fun l => l.2.2.2) || (g = 3 && r.loops.head?.any fun l => smGet 0 r.lc l.1 = 1) ||
  (g = 4 && cl = 0) || (g = 5 && cl ≠ 0) || (g = 6 && r.port cl 15 ≠ 0) || (g = 7 && r.port cl 15 = 0)

/-- What a word writes: a destination port, the clusters in which the write performs, and its value in each. A move to ZERO
and the all-zero move write nothing (R89). -/
structure PortWrite where
  dst : Nat
  on  : Nat → Bool
  val : Nat → Word32

def wordWrites (r : Routine) : Instr → Option (List PortWrite)
  | .setw g port imm => some [⟨port.toNat, fun cl => g.all fun k => guardHolds r k cl, fun _ => imm⟩]
  | .movePair m1 m2 => some [move m1, move m2]
  | _ => none
where
  move (m : Move) : PortWrite :=
    ⟨m.dst.toNat, fun cl => m.dst ≠ 25 && m ≠ ⟨false, 0, 0, 0, 0⟩ && (!m.guard || guardHolds r m.sel cl),
      fun cl => portValue r m.src m.imm cl⟩

/-- A destination that starts nothing: p0-p7, LC0-LC3, ZERO, or a plain port; and one of which there is one copy (R226). -/
def quiet (dst : Nat) : Prop := dst < 20 ∨ plainPort (BitVec.ofNat 6 dst) ∨ dst = 25
def single (dst : Nat) : Prop := dst < 8 ∨ (16 ≤ dst ∧ dst < 20)

/-- Two writes of one destination in one cluster (R89; log 144), and a write of a single destination that performs in some
clusters only or with differing values (R226). -/
def Clash (ws : List PortWrite) : Prop :=
  ¬ ws.Pairwise fun x y => ¬ (x.dst = y.dst ∧ x.dst ≠ 25 ∧ ∃ cl < 8, x.on cl = true ∧ y.on cl = true)
def Split (ws : List PortWrite) : Prop :=
  ∃ w ∈ ws, single w.dst ∧ (∃ cl < 8, w.on cl = true) ∧ ¬ ∀ cl < 8, w.on cl = true ∧ w.val cl = w.val 0

/-- The value written to a destination in a cluster. -/
def written (ws : List PortWrite) (dst cl : Nat) : Option Word32 := (ws.find? fun w => w.dst = dst && w.on cl).map PortWrite.val |>.map (· cl)

/-- At a body's end its counter decrements and the body repeats while it is not 0; a loop whose counter reads 0 or 1 ends
(R229). A loop: its counter, its first word, the word after its last, and whether it is in its first iteration. -/
def bodies (pc : Nat) : List (Nat × Nat × Nat × Bool) → (Nat → Word32) → List (Nat × Nat × Nat × Bool) × (Nat → Word32) × Nat
  | [], lc => ([], lc, pc)
  | (k, a, b, f) :: ls, lc =>
    if b = pc then
      if 1 < (lc k).toNat then ((k, a, b, false) :: ls, fun j => if j = k then lc k - 1 else lc j, a)
      else bodies pc ls fun j => if j = k then 0 else lc j
    else ((k, a, b, f) :: ls, lc, pc)

/-- The routine passes to a following word, its loop counters as the word left them. -/
def Onward (r q : Routine) (lc : Nat → Word32) (pc : Nat) : Prop :=
  let x := bodies pc r.loops lc
  q.loops = x.1 ∧ (∀ j, smGet 0 q.lc j = x.2.1 j) ∧ goesTo r q x.2.2

/-- The routine branches: every loop whose body does not hold the target ends (R229). -/
def BranchesTo (r q : Routine) (t : Int) : Prop :=
  let out := fun (l : Nat × Nat × Nat × Bool) => !(decide ((l.2.1 : Int) ≤ t) && decide (t < l.2.2.1))
  q.loops = r.loops.dropWhile out ∧
    (∀ j, smGet 0 q.lc j = if j ∈ (r.loops.takeWhile out).map Prod.fst then 0 else smGet 0 r.lc j) ∧ goesTo r q t

/-- A mask of clusters that names one. -/
def justCluster (m : BitVec 8) (c : Nat) : Prop := (List.range 8).filter (fun i => m.getLsbD i) = [c]

/-- The window bytes that a cluster loads, zeros for a poisoned line, and whether a line is poisoned (R232). -/
def loadedByte (s : State) (r : Routine) (off j : Nat) : Byte :=
  let a := (s.ctx r.cx).winBase
  if (s.core s.planeCore).srfBad (a + 128 * ((off + j) / 128)) 128 then 0
  else (s.core s.planeCore).srfByte (a + (off + j))
def loadedBad (s : State) (r : Routine) (off n : Nat) : Prop :=
  ∃ l, off / 128 ≤ l ∧ l ≤ (off + n - 1) / 128 ∧ (s.core s.planeCore).srfBad ((s.ctx r.cx).winBase + 128 * l) 128 = true

/-- Routine and accumulator entries. -/
def accOf (r : Routine) (c q : Nat) : Word := smGet 0 r.acc (4096 * c + q)

end Sys2Proof.Claims

/-- The words of a routine: SETW and the moves write the performing clusters' ports, each move reading the ports as they
were before the word; a p register or loop counter is written in all clusters alike, and a write in some only, with
differing values, or two performing writes of one port make the routine illegal (moves to one port that perform in different
clusters do not conflict, the model's choice, log 144; an illegal word has no effect, log 52); at a body's end the counter
decrements and the body repeats; LOOPR enters a loop or, at count 0, skips its body; BRG and JMPR go to their targets and
end the loops that do not hold them; DONE ends the routine (R89, R91, R225 to R229). -/
def Obligations.RoutineWords : Prop :=
  open Sys2Proof Sys2Proof.Machine Sys2Proof.Claims in
  ∀ (s : State) (r : Routine), InRoutine s r →
    let counters := fun j => smGet 0 r.lc j
    let illegal := fun (i : Instr) => ∃ t, exec i s = .next t ∧ routineIllegal s r t
    (∀ i ws, wordWrites r i = some ws → i.wf = true → (∀ w ∈ ws, quiet w.dst) →
      (Clash ws ∨ Split ws → illegal i) ∧
      (¬ Clash ws → ¬ Split ws → ∃ q, exec i s = .next (routineAt s q) ∧
        Onward r q (fun j => if j < 4 then (written ws (16 + j) 0).getD (counters j) else counters j) (r.pc + 1) ∧
        (∀ cl < 8, ∀ port : BitVec 6, q.port cl port.toNat =
          if plainPort port then (written ws port.toNat cl).getD (r.port cl port.toNat) else r.port cl port.toNat) ∧
        ∀ k, smGet 0 q.p k = if k < 8 then (written ws k 0).getD (smGet 0 r.p k) else smGet 0 r.p k)) ∧
    (∀ (k : BitVec 2) (port : BitVec 6) (len : BitVec 12), portReads port = true → len ≠ 0 →
      let n := portValue r port 0 0
      let stop := r.pc + 1 + len.toNat
      let bad := (∃ cl < 8, portValue r port 0 cl ≠ n) ∨ 4 ≤ r.loops.length ∨ (∃ l ∈ r.loops, l.1 = k.toNat) ∨
        ∃ l ls, r.loops = l :: ls ∧ l.2.2.1 < stop
      (bad → illegal (.loopr k port len)) ∧
      (¬ bad → n = 0 → ∃ q, exec (.loopr k port len) s = .next (routineAt s q) ∧ Onward r q counters stop) ∧
      (¬ bad → n ≠ 0 → ∃ q, exec (.loopr k port len) s = .next (routineAt s q) ∧ goesTo r q (r.pc + 1) ∧
        q.loops = (k.toNat, r.pc + 1, stop, true) :: r.loops ∧
        ∀ j, smGet 0 q.lc j = if j = k.toNat then n else counters j)) ∧
    (∀ disp, ∃ q, exec (.jmpr disp) s = .next (routineAt s q) ∧ BranchesTo r q (r.pc + disp.toInt)) ∧
    (∀ g disp,
      ((∀ cl < 8, guardHolds r g cl = true) → ∃ q, exec (.brg g disp) s = .next (routineAt s q) ∧
        BranchesTo r q (r.pc + disp.toInt)) ∧
      ((∀ cl < 8, guardHolds r g cl = false) → ∃ q, exec (.brg g disp) s = .next (routineAt s q) ∧
        Onward r q counters (r.pc + 1)) ∧
      ((∃ cl < 8, guardHolds r g cl ≠ guardHolds r g 0) → illegal (.brg g disp))) ∧
    exec .done s = .next (routineAt s { r with ended := true })

/-- The triggers of a routine in one cluster, when their value and their ranges are legal: ALOAD and BLOAD fill plane
entries from the SRF and step the address register, EXPO sets ER or EC, a poisoned line loads zeros and sets ARNG; PASS
adds or subtracts the shifted popcounts; ACLR clears; ADDT and CMPT write their results; ASWAP exchanges, stores or spills;
XDEP deposits; an illegal value makes the routine illegal and changes nothing; MILE stalls (R228, R230 to R236; that an
illegal word has no effect at all is log 52, that window addresses are taken modulo 2^32 log 69, and that MILE's check of its
own number is modulo 2^32 and a stalled word is repeated log 70: the model's readings). Shown for a word that performs in
one cluster alone. -/
def Obligations.RoutineTriggers : Prop :=
  open Sys2Proof Sys2Proof.Machine Sys2Proof.Claims in
  ∀ (s : State) (r : Routine) (v : Word32) (m : BitVec 8) (c : Nat), InRoutine s r → justCluster m c →
    let env := s.planeEnv r
    let core := s.core s.planeCore
    let n := v.toNat
    let na := n / 16 % 16 + 1
    let ba := ((r.port c 20).toNat + if v.getLsbD 9 then c * (na * 2048) else 0) % 2 ^ 32
    let bb := ((r.port c 21).toNat + if v.getLsbD 9 then c * (na * 2048) else 0) % 2 ^ 32
    let ex := n / 64 * 64 + if v.getLsbD 1 then 64 * c else 0
    let stepped := fun (q : Routine) ag => q.port c ag = if v.getLsbD 8 then r.port c ag + r.port c (ag + 2) else r.port c ag
    let noted := fun (q : Routine) off len => (loadedBad s r off len → smGet false q.arng c = true) ∧
      (¬ loadedBad s r off len → q.arng = r.arng)
    (n < 2 ^ 10 → n % 16 + na ≤ 16 → ba % 128 = 0 → env.may false ba (2048 * na) = true →
      ∃ q, exec (.aload v m) s = .next (routineAt s q) ∧ stepped q 20 ∧ noted q ba (2048 * na) ∧
        ∀ j < 2048 * na, smGet 0 q.abuf (2 ^ 16 * c + 2 ^ 11 * (n % 16) + j) = loadedByte s r ba j) ∧
    (n < 2 ^ 10 → bb % 128 = 0 → env.may false bb 2048 = true →
      ∃ q, exec (.bload v m) s = .next (routineAt s q) ∧ stepped q 21 ∧ noted q bb 2048 ∧
        ∀ j < 2048, smGet 0 q.bbuf (2 ^ 16 * c + 2 ^ 11 * (n % 16) + j) = loadedByte s r bb j) ∧
    (n < 2 ^ 22 → n / 4 % 16 = 0 → env.may false ex 64 = true →
      ∃ q, exec (.expo v m) s = .next (routineAt s q) ∧ noted q ex 64 ∧
        ∀ j < 64, smGet 127 (if v.getLsbD 0 then q.ec else q.er) (64 * c + j) = loadedByte s r ex j) ∧
    (n < 2 ^ 14 → n / 2 ^ 8 % 32 ≠ 31 → ∃ q, exec (.pass v m) s = .next (routineAt s q) ∧
      let t := fun k => (accOf r c k).toInt +
        (if v.getLsbD 13 then -1 else 1) * ((planeDot r c (n % 16) (n / 16 % 16) (k / 64) (k % 64) * 2 ^ (n / 2 ^ 8 % 32) : Nat) : Int)
      (∀ k < 4096, accOf q c k = wrap (t k)) ∧
      ((∃ k < 4096, t k < -(2 ^ 63) ∨ 2 ^ 63 ≤ t k) → smGet false q.aovf c = true) ∧
      ((∀ k < 4096, -(2 ^ 63) ≤ t k ∧ t k < 2 ^ 63) → q.aovf = r.aovf)) ∧
    (∃ q, exec (.aclr m) s = .next (routineAt s q) ∧ (∀ k < 4096, accOf q c k = 0) ∧ smGet false q.aovf c = false ∧
      smGet false q.arng c = false) ∧
    (∃ q, exec (.addt v m) s = .next (routineAt s q) ∧ q.port c 42 = r.port c 40 + v) ∧
    (∃ q, exec (.cmpt v m) s = .next (routineAt s q) ∧ q.port c 45 = if (r.port c 43).toInt < v.toInt then 1 else 0) ∧
    (∀ k, k.toNat < (s.ctx r.cx).slots.length →
      let p := (s.ctx r.cx).slots.getD k.toNat 0
      let fl := aswapFlags r c true
      let stored := fun (t : State) => (∀ i < 4096, (t.core s.planeCore).entry c p i = accOf r c i) ∧
        (∀ i < 64, (t.core s.planeCore).efield c p i = smGet 127 r.er (64 * c + i) ∧
          (t.core s.planeCore).efield c p (64 + i) = smGet 127 r.ec (64 * c + i)) ∧
        (t.core s.planeCore).tile c p = core.tile c p ||| fl
      (∃ t q, exec (.aswapExchange k m) s = .next t ∧ (t.core s.planeCore).plane = some q ∧ stored t ∧
        (∀ i < 4096, accOf q c i = core.entry c p i) ∧
        (∀ i < 64, smGet 127 q.er (64 * c + i) = core.efield c p i ∧ smGet 127 q.ec (64 * c + i) = core.efield c p (64 + i)) ∧
        smGet false q.aovf c = false ∧ smGet false q.arng c = false) ∧
      (∃ t q, exec (.aswapStore k m) s = .next t ∧ (t.core s.planeCore).plane = some q ∧ stored t ∧
        (∀ i < 4096, accOf q c i = 0) ∧ q.er = r.er ∧ q.ec = r.ec) ∧
      (∀ ix : Bool, let b := ((r.port c 21).toNat + if ix then 32768 * c else 0) % 2 ^ 32
        b % 128 = 0 → env.may true b 32768 = true →
        ∃ t q, exec (.aswapSpill k ix m) s = .next t ∧ (t.core s.planeCore).plane = some q ∧ (∀ i < 4096, accOf q c i = 0) ∧
          ∀ i < 4096, ∀ j < 8, (t.core s.planeCore).srfByte ((s.ctx r.cx).winBase + b + 8 * i + j) =
            BitVec.ofNat 8 ((accOf r c i).toNat / 2 ^ (8 * j))) ∧
      (∀ a4 : Bool, let b := if a4 then 4 else 0
        ¬ (b ≤ k.toNat ∧ k.toNat < b + 4) → xaOk (s.ctx r.cx).slots.length b = true →
        let d := (s.ctx r.cx).slots.getD b 0
        ∃ t q, exec (.xdep k a4 m) s = .next t ∧ (t.core s.planeCore).plane = some q ∧ q.acc = r.acc ∧ ∀ i < 4096,
          let x := (core.efield c p (i / 64)).toNat
          let y := (core.efield c p (64 + i % 64)).toNat
          (t.core s.planeCore).xa c d i = if x = 0 ∨ x = 255 ∨ y = 0 ∨ y = 255 then core.xa c d i
            else (xaDeposit (core.xa c d i) (core.entry c p i).toInt ((x : Int) + y - 254)).1 % 2 ^ 256)) ∧
    (∀ k, (s.ctx r.cx).slots.length ≤ k.toNat → ∀ i ∈ [Instr.aswapExchange k m, .aswapStore k m, .aswapSpill k false m,
      .xdep k false m], ∃ t, exec i s = .next t ∧ routineIllegal s r t) ∧
    (2 ^ 22 ≤ n → ∀ i ∈ [Instr.aload v m, .bload v m, .expo v m, .pass v m], ∃ t, exec i s = .next t ∧ routineIllegal s r t) ∧
    (∀ q p : BitVec 3,
      let x := (smGet 0 r.p p.toNat).toNat
      let k := ((s.ctx r.cx).mile (queueOf q.toNat)).counter
      (6 ≤ q.toNat ∨ (q = 3 ∧ r.num % 2 ^ 32 ≤ x) → ∃ t, exec (.mile q p) s = .next t ∧ routineIllegal s r t) ∧
      (q.toNat < 6 → ¬ (q = 3 ∧ r.num % 2 ^ 32 ≤ x) →
        (((k : Int) - x).emod (2 ^ 32) < 2 ^ 31 → exec (.mile q p) s = .next (routineAt s r)) ∧
        (2 ^ 31 ≤ ((k : Int) - x).emod (2 ^ 32) → exec (.mile q p) s = .next s)))

/-- The command window: the engine takes the best ready command, sets its routine's p registers and starts at its first
word, and a routine index that was never set fails with status 6; MROUT sets the store and the table from memory; a
routine that has ended completes with status 0, an illegal one with status 6 and its word's offset (R156, R223, R227,
R337 to R339). -/
def Obligations.MatrixCommands : Prop :=
  open Sys2Proof Sys2Proof.Machine Sys2Proof.Claims in
  ∀ (s : State) (g cx : Nat) (a : Active),
    ((s.core g).plane = none → (∀ x ∈ s.window g, x.2.running = false) →
      best (fun x => s.effPrio x.1) ((s.window g).filter (s.matReady g)) = some (cx, a) →
      ∀ i p rs ws ps n mp, a.cmd.kind = .matrix i p rs ws ps n mp →
        (∀ w m, smGet none (s.core g).rtab i = some (w, m) → ∃ t r, exec (.routineStart g) s = .next t ∧
          (t.core g).plane = some r ∧ r.cx = cx ∧ r.num = a.cmd.num ∧ r.w = w ∧ r.count = m ∧ r.pc = w ∧
          (∀ j x, p[j]? = some x → smGet 0 r.p j = x) ∧ r.loops = [] ∧ r.acc = [] ∧ r.ports = []) ∧
        (smGet none (s.core g).rtab i = none → ∃ t, exec (.routineStart g) s = .next t ∧ Completed s t cx a.cmd 6 0 0)) ∧
    (∀ r, (s.core g).plane = some r → s.findActive r.cx .mat r.num = some a →
      (r.ended = true → ∃ t, exec (.routineRetire g) s = .next t ∧ (t.core g).plane = none ∧ Completed s t r.cx a.cmd 0 0 0) ∧
      (∀ sub, r.ended = false → r.bad = some sub → ∃ t, exec (.routineRetire g) s = .next t ∧ (t.core g).plane = none ∧
        Completed s t r.cx a.cmd 6 sub 0)) ∧
    ((s.window g).find? (fun x => x.2.running && x.2.cmd.kind.isMrout && !s.stopped x.1) = some (cx, a) →
      ∀ va i w n, a.cmd.kind = .mrout va i w n →
        (4096 < w + n → ∃ t, exec (.mroutCopy g) s = .next t ∧ Completed s t cx a.cmd 6 0 0) ∧
        (w + n ≤ 4096 → (∀ e ∈ s.faults, e.who ≠ .engine cx .mat a.cmd.num 0 0) → ∀ xs t,
          s.readWords false 8 g (s.ctx cx).part (s.ctx cx).pasid n va = (.ok xs, t) →
          ∃ u, exec (.mroutCopy g) s = .next u ∧ smGet none (u.core g).rtab i = some (w, n) ∧
            (∀ (j x : Nat), xs[j]? = some x → smGet 0 (u.core g).store (w + j) = wrap x) ∧
            ∀ k ∈ (u.ctx cx).active, k.cmd.queue ≠ a.cmd.queue ∨ k.cmd.num ≠ a.cmd.num))

namespace Sys2Proof.Claims

open Sys2Proof Sys2Proof.Machine

/-- The next line request of a queue: its command has started and waits for no earlier one, and the generator has come to
this line (R248, R254). -/
def NextLine (s : State) (cx : Nat) (q : Queue) (a : Active) (run line : Nat) (va : Word) (write : Bool) : Prop :=
  s.generating cx q = some a ∧ a.started = true ∧ s.mustWait cx a.cmd = false ∧ s.gen cx a = .mem run line va write

/-- A received line, staged for its command, and the request gone. -/
def stagedLine (s : State) (r : Req) (q : Queue) (n run ln : Nat) : State :=
  (s.dropReq r.id).modActive r.cx q n fun a =>
    { a with stage := a.stage ++ [{ run := run, line := ln, bytes := r.data, poison := r.dpois }] }

/-- Requests have numbers of their own. -/
def DistinctReqs (s : State) : Prop := s.reqs.Pairwise fun x y => x.id ≠ y.id

/-- The generator may take a request for a queue: fewer than 8 of the core's in this ac, and, where the queue has had its
turn in this round, no queue of the core that is ready still waits for its own (R254). -/
def MayTurn (s : State) (cx : Nat) (q : Queue) : Prop :=
  let c := s.core (s.home cx)
  c.genAc < 8 ∧ (turnKey cx q ∈ c.genTurn →
    ∀ x ∈ s.ctxsAt (s.home cx), ∀ p ∈ [Queue.sld, Queue.sst], turnKey x p ∈ c.genTurn ∨ s.genReady x p = false)

/-- A turn of a queue is counted; a second one begins the next round. -/
def TurnCounted (s u : State) (cx : Nat) (q : Queue) : Prop :=
  let g := s.home cx
  (u.core g).genAc = (s.core g).genAc + 1 ∧
    (u.core g).genTurn = if turnKey cx q ∈ (s.core g).genTurn then [turnKey cx q] else turnKey cx q :: (s.core g).genTurn

/-- A stream command whose lines go one by one to memory or the weight store. -/
def streams (k : CmdKind) : Bool :=
  match k with
  | .sload _ | .sgather _ _ | .sstore _ _ | .sscatter _ _ _ | .scopy _ => true
  | _ => false

/-- What the request of a store line carries: a line's bytes, or the elements of a reduction; an SSTORE without conversion
sends its SRF bytes as they are (R145, R146, R258). -/
def carries (s : State) (cx : Nat) (a : Active) (run line : Nat) (op : ReqOp) : Prop :=
  match a.cmd.kind with
  | .sstore d _ => ∃ bs bad whole, op = .lineSt a.cmd.queue a.cmd.num run line bs bad whole ∧
      (d.kind = 0 → d.mty = d.sty → ∀ lo hi, lineSpan (a.rowVa run) d.rowBytes line = (lo, hi) → lo < hi →
        bs = (List.range (hi - lo)).map fun j => (((a.rowVa run).toNat + lo) % 128 + j,
          (s.core (s.home cx)).srfByte ((s.ctx cx).winBase + d.srf + run % d.runs * d.rowBytes + lo + j)))
  | .sscatter _ _ none | .scopy _ => ∃ bs bad whole, op = .lineSt a.cmd.queue a.cmd.num run line bs bad whole
  | .sscatter _ _ (some o) => ∃ es, op = .reduce a.cmd.queue a.cmd.num run line o es
  | _ => False

/-- The pair of a context that may lock: all 64 lines are buffered and served, on lines that are free, aligned and apart; no
admitted block read and no request that a lock has kept waiting stands on them, and no pair of the core is being committed
on their stack (R349 to R351). -/
def PairReady (s : State) (cx : Nat) (a : Active) (rs : List Req) : Prop :=
  (s.ctx cx).active = [a] ∧ (∃ d x, a.cmd.kind = .spair d x) ∧ a.phase = 0 ∧ a.cmd.queue = .sst ∧
    s.pairReqs cx a.cmd.num a.fin.length = rs ∧ rs.length = 64 ∧
    (∀ r ∈ rs, r.served.isSome = true ∧ r.phys % 128 = 0 ∧ r.phys / 128 ∉ s.locks) ∧
    rs.Pairwise (fun x y => x.phys ≠ y.phys) ∧
    (∀ r ∈ s.reqs, r.served = none → (r.group.isSome = true ∧ r.admitted = true) ∨ r.waited = true →
      ∀ x ∈ rs, x.phys / 128 ≠ r.phys / 128) ∧
    ∀ c ∈ s.ctxsAt (s.home cx), ∀ p ∈ s.lockedPairs c, ∀ x ∈ p.2, ∀ y ∈ rs, s.oneStack x y = false

end Sys2Proof.Claims

/-- The address generator and the lines of a stream command: a turn puts the next line's request in flight and is counted,
with fewer than 4,096 lines outstanding and fewer than 8 requests of the core in the ac, and not a second time before every
queue that is ready has had one; a failed translation writes one entry and parks the queue; answered entries resume it, a success by the request again, an invalid
answer by a failure of the unit; a line that is due is staged and written, a store is acknowledged, a host reduction applies
its elements one by one (R142, R254, R255, R263, R302, R314). -/
def Obligations.StreamRequests : Prop :=
  open Sys2Proof Sys2Proof.Machine Sys2Proof.Claims in
  ∀ (s : State) (cx : Nat) (q : Queue) (a : Active) (run line : Nat) (va : Word),
    (∀ w, streams a.cmd.kind = true → NextLine s cx q a run line va w → a.cmd.queue = q →
      (4096 ≤ s.streamLoad (s.home cx) ∨ ¬ MayTurn s cx q → exec (.requestGeneration cx q) s = .next s) ∧
      (s.streamLoad (s.home cx) < 4096 → MayTurn s cx q → ∀ p v t, s.grant cx a run line va w = (.hit p, v, t) →
        (∀ d x o, a.cmd.kind = .sscatter d x (some o) → (t.placeOf p va).1 = false) →
        let ws := ∃ d, a.cmd.kind.desc = some d ∧ d.ws = true
        ∃ u r, exec (.requestGeneration cx q) s = .next u ∧ TurnCounted s u cx q ∧ u.reqs = t.reqs ++ [r] ∧ r.cx = cx ∧
          r.va = va ∧ r.served = none ∧ r.gen = s.now ∧ (r.ws = true ↔ ws) ∧
          (ws → (r.host, r.phys) = (false, va.toNat)) ∧ (¬ ws → (r.host, r.phys) = t.placeOf p va) ∧
          (w = false → r.op = .line q a.cmd.num run line) ∧
          (w = true → ∀ row, s.row cx a run = .at_ row → carries s cx (a.latch run row) run line r.op))) ∧
    (∀ w d sub t, (a.cmd.kind = .sload d ∨ ∃ x, a.cmd.kind = .sgather d x ∨ ∃ o, a.cmd.kind = .sscatter d x o) →
      NextLine s cx q a run line va w → s.reach cx a va w = (.fault sub, t) →
      (t.faultRoom (dieOf (s.home cx)) = false → exec (.engineTranslationFault cx q) s = .next s) ∧
      (t.faultRoom (dieOf (s.home cx)) = true →
        ∃ u e b, exec (.engineTranslationFault cx q) s = .next u ∧ u.faults = t.faults ++ [e] ∧
          e.va = va ∧ e.sub = sub ∧ e.engine = qcode q + 1 ∧ e.read = !w ∧ e.write = w ∧ e.info = false ∧
          e.answer = none ∧ b ∈ (u.ctx cx).active ∧ b.cmd = a.cmd ∧ e.id ∈ b.parked ∧
          exec (.requestGeneration cx q) u = .next u)) ∧
    ((s.ctx cx).active = [a] → a.cmd.queue = q → a.parked ≠ [] →
      ((∃ e ∈ s.parkedOn a, e.answer = none) → exec (.queueResume cx q) s = .next s) ∧
      (∀ e, s.parkedOn a = [e] → e.who = .engine cx q a.cmd.num run line →
        (e.answer = some true → (∀ d x, a.cmd.kind ≠ .spair d x) → ∃ u, exec (.queueResume cx q) s = .next u ∧
          (u.ctx cx).active = [{ a with parked := [], redo := a.redo ++ [(run, line, e.seq)] }] ∧
          u.faults = s.faults.filter fun f => !a.parked.contains f.id) ∧
        (e.answer = some false → a.fail = none → (∃ d, a.cmd.kind = .sload d ∨ ∃ ds, a.cmd.kind = .sstore d ds) →
          ∃ u, exec (.queueResume cx q) s = .next u ∧
            (u.ctx cx).active = [{ a with
              parked := [], units := (a.unitOf run line e.va).1
              fail := some (2, if e.write then 1 else 0, (a.unitOf run line e.va).2) }]))) ∧
    (∀ r n ln, s.findReq r.id = some r → r.op = .line q n run ln → r.served.isSome = true →
      (s.mayComplete r = true → exec (.lineWrite r.id) s = .next ((stagedLine s r q n run ln).pump r.cx q n)) ∧
      (s.mayComplete r = false → exec (.lineWrite r.id) s = .next s)) ∧
    (∀ r n ln bs bad whole, s.findReq r.id = some r → r.op = .lineSt q n run ln bs bad whole →
      (r.served.isSome = true → s.mayComplete r = true → exec (.storeAcknowledge r.id) s = .next (s.dropReq r.id)) ∧
      (r.served = none → r.ws = false → r.host = true → s.mayPerform r = true → bad = false → whole = false →
        exec (.storeAcknowledge r.id) s = .next ((s.storeAt true r.phys bs).dropReq r.id))) ∧
    (∀ r n ln op e es, s.findReq r.id = some r → r.op = .reduce q n run ln op (e :: es) → r.served = none →
      r.host = true → s.mayPerform r = true → e.2.2 = false →
      let old := s.rdMem true (r.phys + e.1) e.2.1.length
      e.2.1.length = (redApply op old e.2.1).1.length →
      ∃ u, exec (.reductionElement r.id) s = .next u ∧
        u.rdMem true (r.phys + e.1) e.2.1.length = (redApply op old e.2.1).1 ∧
        u.findReq r.id = some { r with op := .reduce q n run ln op es })

/-- Pairs, block reads and the weight store: a pair changes all its 64 lines at one instant and locks them for 63 ac,
the model's reading of at most 64 (log 58); a block read is admitted exactly when its 32 lines have arrived and no lock
stands on them; a weight-store bank is under refresh in its phases, else serves two lines in an ac, 48 ac each; the store
enters LOAD when the reads accepted before have completed and is sealed when the writes accepted before have performed,
whatever was accepted since (R157, R267, R349, R351). -/
def Obligations.PairsAndWeightStore : Prop :=
  open Sys2Proof Sys2Proof.Machine Sys2Proof.Claims in
  ∀ (s : State) (cx die bank : Nat) (q : Queue) (a : Active),
    (∀ rs, PairReady s cx a rs → ∃ u, exec (.pairLock cx) s = .next u ∧
      u.locks = s.locks ++ rs.map (fun r => r.phys / 128) ∧
      (∀ r ∈ rs, ∀ n p k bs bad, r.op = .pair n p k bs bad → bs.length = 128 → u.rdMem false r.phys 128 = bs) ∧
      ∃ b, (u.ctx cx).active = [b] ∧ b.phase = s.now + 1) ∧
    ((s.ctx cx).active = [a] → (∃ d x, a.cmd.kind = .spair d x) → a.phase ≠ 0 → a.cmd.queue = .sst →
      (s.now + 1 < a.phase + 63 → exec (.pairRelease cx) s = .next s) ∧
      (a.phase + 63 ≤ s.now + 1 → ∃ u, exec (.pairRelease cx) s = .next u ∧
        u.locks = (s.locks.filter fun l => decide (l ∉ (s.pairReqs cx a.cmd.num a.fin.length).map fun r => r.phys / 128)) ∧
        (∀ r ∈ s.pairReqs cx a.cmd.num a.fin.length,
          ((∀ d, r.due = some d → d ≤ s.now) → r ∉ u.reqs) ∧ (∀ d, r.due = some d → s.now < d → r ∈ u.reqs)) ∧
        ∃ b, (u.ctx cx).active = [b] ∧ b.phase = 0 ∧ b.fin.length = a.fin.length + 1)) ∧
    (let may := fun (r : Req) => decide (r.cx = cx ∧ r.op.owner.map Prod.fst = some q ∧ r.group ≠ none ∧
        ((s.reqs.filter fun x => decide (x.group = r.group)).map Req.phys).eraseDups.length = 32 ∧
        ∀ x ∈ s.reqs, x.group = r.group → s.arrived x = true ∧ x.phys / 128 ∉ s.locks)
     exec (.blockReadAdmit cx q) s =
       .next { s with reqs := s.reqs.map fun (r : Req) => if may r then { r with admitted := true } else r }) ∧
    (∃ u, exec (.wsBankRefresh die bank) s = .next u ∧
      (bank ∈ (u.die die).wsRef ↔ (s.die die).cycle % 65536 / 1024 = bank ∧ (s.die die).cycle % 1024 < 128)) ∧
    (wsRefreshes (s.die die).cycle bank = true ∨ 2 ≤ s.wsServed die bank → exec (.wsBankService die bank) s = .next s) ∧
    (wsRefreshes (s.die die).cycle bank = false → bank ∉ (s.die die).wsRef → DistinctReqs s → bank ∉ (s.die die).wsUsed →
      ∃ u, exec (.wsBankService die bank) s = .next u ∧
        (∀ r ∈ (s.wsWaiting die bank).take 2, ∀ p n run ln, r.op = .line p n run ln →
          ∃ x ∈ u.reqs, x.id = r.id ∧ x.served = some s.now ∧ x.due = some (s.now + 48)) ∧
        ∀ r ∈ (s.wsWaiting die bank).drop 2, r ∈ u.reqs) ∧
    (∀ p ∈ s.dieActive die, p.2.cmd.kind = .wsLoad → p.2.ended = false →
      ((∃ x ∈ s.dieActive die, x.2.wsReads = true ∧ x.2.ord < p.2.ord) → exec (.wsEnterLoad die) s = .next s) ∧
      ((∀ y ∈ s.dieActive die, y.2.cmd.kind = .wsLoad → y.2.ended = false → y.2.ord ≤ p.2.ord) →
        (∀ x ∈ s.dieActive die, x.2.wsReads = true → p.2.ord ≤ x.2.ord) →
        ∃ u, exec (.wsEnterLoad die) s = .next u ∧ (u.die die).ws = .loading)) ∧
    (∀ p ∈ s.dieActive die, p.2.cmd.kind = .wsSeal → p.2.ended = false →
      ((∃ x ∈ s.dieActive die, s.wsWrites x.1 x.2 = true ∧ x.2.ord < p.2.ord) → exec (.wsSealComplete die) s = .next s) ∧
      ((∀ y ∈ s.dieActive die, y.2.cmd.kind = .wsSeal → y.2.ended = false → y.2.ord ≤ p.2.ord) →
        (∀ x ∈ s.dieActive die, s.wsWrites x.1 x.2 = true → p.2.ord ≤ x.2.ord) →
        ∃ u, exec (.wsSealComplete die) s = .next u ∧ (u.die die).ws = .sealed))

/-- The channel calendar, the host and the fabric: a slot serves its owner's oldest request, 192 or 336 ac before it is
due, and a line whose check finds an uncorrectable error is poisoned; a lent service has no exact time and is counted;
slot 31, a channel used this ac, a retraining stack, a die in C3 and a slot of a pair's commit serve nothing; a host access
within one line performs in slot 30 of the die that holds it, and wakes a die in C3 within 60 µs; requests of another package
wait at their controller here; a request to another package that is lost, or whose answer is, completes 1 ms after it was
sent, or has performed, with a poisoned result and an entry (R262 to R266, R293, R306, R349, R393, R396). The model's
choices are that every slot that may be lent is, and to whom (logs 18, 154), that a host access lies within one line (log
64), and that what another package asks of a third one's memory performs at once (log 14). -/
def Obligations.CalendarEvents : Prop :=
  open Sys2Proof Sys2Proof.Machine Sys2Proof.Claims in
  ∀ (s : State) (die ch : Nat),
    let sl := (s.now + ch) % 32
    (sl = 31 ∨ ch ∈ (s.die die).used ∨ (s.die die).retrains (stackOf ch) = true ∨ (s.die die).c3 = true ∨
      s.commits die ch sl = true → ∀ ecc, exec (.calendarSlot die (ch, ecc)) s = .next s) ∧
    (∀ r q n run ln ecc, Serves s die ch → sl ≠ 31 → r.op = .line q n run ln → r.agent = .core →
      (s.owned die ch sl = some r → ∃ u x, exec (.calendarSlot die (ch, ecc)) s = .next u ∧ x ∈ u.reqs ∧ x.id = r.id ∧
        x.served = some s.now ∧ x.due = some (s.now + if dieOf (s.home r.cx) = die then 192 else 336) ∧
        x.data = s.rdMem r.host r.phys 128 ∧ x.dpois = (s.bad r.host r.phys || ecc == .uncorrectable) ∧
        ch ∈ (u.die die).used) ∧
      (s.owned die ch sl = none → s.lent die ch sl = some r →
        ∃ u x, exec (.calendarSlot die (ch, ecc)) s = .next u ∧ x ∈ u.reqs ∧ x.id = r.id ∧
        x.served = some s.now ∧ x.due = none ∧ x.data = s.rdMem r.host r.phys 128 ∧
        (u.ctx r.cx).sglent = (s.ctx r.cx).sglent + 1)) ∧
    (∀ off len, let a := s.hub.pkg * 2 ^ 48 + die * 2 ^ 46 + off
      let d := s.dieAt a
      die < 4 → off + len ≤ dieBytes → off % 128 + len ≤ 128 → 0 < len → s.channelOf a = ch →
      (Serves s d ch → sl = 30 → a / 128 ∉ s.locks →
        (∀ bs, bs.length = len → ∃ u, exec (.hostCxlMemAccess die off (some bs) len) s = .next u ∧ u.rdMem false a len = bs ∧
          ch ∈ (u.die d).used) ∧
        ∃ u, exec (.hostCxlMemAccess die off none len) s = .next u ∧ u.mem = s.mem ∧ ch ∈ (u.die d).used) ∧
      (∀ w, (s.die d).c3 = true → (s.die d).c3Exit = none →
        ∃ u, exec (.hostCxlMemAccess die off w len) s = .next u ∧ u.mem = s.mem ∧
          (u.die d).c3Exit = some ((s.die d).time + 2100 * 60))) ∧
    (∀ (q : RemoteReq) a op, ((∃ n, q = .load a n ∧ op = .load 0 n false false) ∨ (∃ bs p, q = .store a bs p ∧
        op = .store bs p false) ∨ ∃ o dw b c, q = .amo o dw a b c ∧ op = .amo o 0 dw b c) →
      (s.own a = true → physOff a < dieBytes → ∃ u r, exec (.remoteRequest q) s = .next u ∧ u.reqs = s.reqs ++ [r] ∧ r.op = op ∧
        r.agent = .causeway ∧ r.host = false ∧ r.phys = a ∧ r.served = none ∧ u.mem = s.mem) ∧
      (s.own a = false → physOff a < dieBytes → ∃ u, exec (.remoteRequest q) s = .next u ∧ u.reqs = s.reqs ∧
        ∀ bs p, q = .store a bs p → u.rdMem false a bs.length = bs) ∧
      (dieBytes ≤ physOff a → exec (.remoteRequest q) s = .next s)) ∧
    (∀ r d n sx acq, s.findReq r.id = some r → r.op = .load d n sx acq → s.remote r = true → r.served = none →
      let time := (s.die (s.reqDie r)).time
      let given := fun (i : Instr) (aux : Nat) => ∃ u e, exec i s = .next u ∧ u.faults = s.faults ++ [e] ∧ e.kind = 5 ∧
        e.sub = 4 ∧ e.aux = aux ∧ e.info = true ∧ e.va = r.va ∧ (∀ x ∈ u.reqs, x.id ≠ r.id) ∧
        u.tagX r.cx (BitVec.ofNat 5 d) = true
      (r.reach ≠ none ∨ r.sent = none ∨ (∃ n, r.sent = some n ∧ time < n + 2100 * 1000) →
        exec (.fabricRequestLost r.id) s = .next s) ∧
      (∀ n, r.reach = none → r.sent = some n → n + 2100 * 1000 ≤ time → 0 < d → d < 32 → given (.fabricRequestLost r.id) 0) ∧
      (r.reach = none ∨ (∃ n, r.reach = some n ∧ time < n + 2100 * 1000) → exec (.responseDropped r.id) s = .next s) ∧
      (∀ n, r.reach = some n → n + 2100 * 1000 ≤ time → 0 < d → d < 32 → given (.responseDropped r.id) 1))

namespace Sys2Proof.Claims

open Sys2Proof Sys2Proof.Machine

/-- The turn of a tree command: it has not ended, its arena is bound to its slot, its ticket is the arena's next and no
command accepted before it bears the same, it waits for no declared range, neither its context's TRE queue nor the arena
waits for an answer, and the cache has given up no line under it (R158, R314, R360, R362, R367). -/
def TreeTurn (s : State) (die ord cx : Nat) (a : Active) (r : Arena) (fn slot : Nat) (xa xb xc : Word) : Prop :=
  s.treeCmd die ord = some (cx, a) ∧ a ∈ (s.ctx cx).active ∧ a.cmd.kind = .tree fn slot xa xb xc ∧ a.ended = false ∧
    s.treeArena die cx a = some r ∧ s.inTurn die r a = true ∧ a.stage = [] ∧ s.mustWait cx a.cmd = false ∧ s.arenaHeld die r = false ∧
    s.treeParked cx = false ∧ s.treeFault cx a.cmd.num = none

/-- A unit has been performed: the arena now stands so, and the command counts so many units. -/
def UnitDone (u : State) (die cx : Nat) (a : Active) (r : Arena) (units : Nat) (ended : Bool) : Prop :=
  (u.die die).arena (r.host, r.phys) = some r ∧
    ∃ b ∈ (u.ctx cx).active, b.cmd = a.cmd ∧ b.units = units ∧ b.ended = ended ∧ b.fail = a.fail

/-- A tree command has ended with a status and a sub-status. -/
def UnitStopped (u : State) (cx : Nat) (a : Active) (st sub : Nat) : Prop :=
  ∃ b ∈ (u.ctx cx).active, b.cmd = a.cmd ∧ b.ended = true ∧ b.fail = some (st, sub, 0)

/-- A node stands in the arena's cached lines. -/
def arenaHas (r : Arena) (n : Nat) (x : Node) : Prop := smGet none r.nodes n = some x

/-- The arena with one node changed, its line of four nodes dirty. -/
def withNode (r : Arena) (n : Nat) (x : Node) : Arena :=
  { r with nodes := smPut none r.nodes n (some x)
           dirty := if r.dirty.contains (n / 4) then r.dirty else insBy id (n / 4) r.dirty }

/-- The engine has sent one more request of its own, of the state t on. -/
def TreeAsks (t u : State) (die : Nat) (op : ReqOp) (phys : Nat) : Prop :=
  ∃ q, u.reqs = t.reqs ++ [q] ∧ q.agent = .tree die ∧ q.op = op ∧ q.host = false ∧ q.phys = phys ∧ q.served = none

/-- A BIND at its turn, on a slot that binds nothing: no earlier command of its slot stands, and its queue waits for no
answer (R238, R314). -/
def BindTurn (s : State) (die ord cx : Nat) (a : Active) (slot : Nat) (xa : Word) : Prop :=
  s.treeCmd die ord = some (cx, a) ∧ a ∈ (s.ctx cx).active ∧ (∃ xb xc, a.cmd.kind = .tree 0 slot xa xb xc) ∧
    a.ended = false ∧ a.fail = none ∧ s.stopped cx = false ∧ s.slotBusy cx a false = false ∧
    s.treeParked cx = false ∧ s.treeFault cx a.cmd.num = none ∧ (s.ctx cx).arena slot = none

/-- The address of a header translates for reading and for writing: the state after that, and the header's place. -/
def HeaderAt (s v : State) (cx : Nat) (xa : Word) (key : Bool × Nat) : Prop :=
  ∃ q p t, s.xlateFor cx xa true false = (.hit q, t) ∧ t.xlateFor cx xa false true = (.hit p, v) ∧ key = v.placeOf p xa

/-- A BIND has not ended, and goes on in this phase. -/
def BindOn (u : State) (cx : Nat) (a : Active) (phase : Nat) : Prop :=
  ∃ b ∈ (u.ctx cx).active, b.cmd = a.cmd ∧ b.ended = false ∧ b.phase = phase

/-- A BIND has ended, its slot binding this. -/
def BindEnded (u : State) (cx slot : Nat) (a : Active) (k : Option (Bool × Nat)) (fail : Option (Nat × Nat × Word)) : Prop :=
  (u.ctx cx).arena slot = k ∧ ∃ b ∈ (u.ctx cx).active, b.cmd = a.cmd ∧ b.ended = true ∧ b.fail = fail

end Sys2Proof.Claims

/-- The units of tree commands on cached nodes: a descent takes a virtual loss and a leaf's record, at the child of the
greatest score; an expansion makes a leaf terminal or gives it children from bump, and stops with status 7 when none are
left; a backup adds to N and W and gives the virtual loss back, its value negated at each level of an alternating arena
(R239 to R241, R355 to R357, R364). -/
def Obligations.TreeUnits : Prop :=
  open Sys2Proof Sys2Proof.Machine Sys2Proof.Claims in
  ∀ (s : State) (die ord cx : Nat) (a : Active) (r : Arena) (slot : Nat) (xa xb xc : Word) (x y z : Node),
    (TreeTurn s die ord cx a r 1 slot xa xb xc → 1 ≤ xc.toNat → xc.toNat ≤ 256 → xa.toNat % 64 = 0 →
      arenaHas r r.root x → x.vl ≠ 0xFFFF →
      (x.count = 0 → x.flags = 0 →
        ∃ u, exec (.descent die ord) s = .next u ∧
          UnitDone u die cx a (withNode (withNode r r.root { x with vl := x.vl + 1 }) r.root
            { x with vl := x.vl + 1, flags := 4 }) (a.units + 1) (decide (xc.toNat ≤ a.units + 1)) ∧
          u.rdWin cx (xa.toNat + 64 * a.units) 64 = leafRecord r.root 0 2 a.units []) ∧
      (∀ c, x.count = 2 → x.first.toNat = c → c + 2 ≤ r.bump → c ≠ r.root → c + 1 ≠ r.root →
        arenaHas r c y → arenaHas r (c + 1) z → y.count = 0 → z.count = 0 → y.vl ≠ 0xFFFF → z.vl ≠ 0xFFFF →
        y.flags = 1 ||| 2 → z.flags = 1 ||| 2 →
        let sq := (fsqrt32 .rne (cvt32 (x.n.toNat + (x.vl + 1).toNat) 0)).1
        let l := scoreOf r sq y
        let h := scoreOf r sq z
        (isNan32 l && isNan32 h) = false →
        ∃ u, exec (.descent die ord) s = .next u ∧
          u.rdWin cx (xa.toNat + 64 * a.units) 64 =
            (if scoreKey l < scoreKey h then leafRecord (c + 1) 1 1 a.units [z.action]
             else leafRecord c 1 1 a.units [y.action]))) ∧
    (TreeTurn s die ord cx a r 2 slot xa xb xc → xa.toNat % 64 = 0 → a.units = 0 → x.flags = 0 →
      let bs := s.rdWin cx xa.toNat (xc.toNat / 2 ^ 16)
      let leaf := field bs 0 4
      leaf < r.bump → arenaHas r leaf x →
      (xc = BitVec.ofNat 64 (1 + 8 * 2 ^ 16) → field bs 4 2 = 0 → field bs 6 2 = 1 →
        ∃ u, exec (.expansionEntry die ord) s = .next u ∧
          UnitDone u die cx a (withNode r leaf { x with flags := 3 }) 1 true) ∧
      (xc = BitVec.ofNat 64 (1 + 16 * 2 ^ 16) → field bs 4 2 = 1 → field bs 6 2 = 0 → r.runs = [] →
        arenaHas r r.bump y →
        (r.bump + 1 ≤ r.capacity → ∃ u, exec (.expansionEntry die ord) s = .next u ∧
          UnitDone u die cx a (withNode (withNode { r with bump := r.bump + 1 } r.bump
            { gen := r.gen, p := BitVec.ofNat 16 (field bs 8 2), action := BitVec.ofNat 16 (field bs 10 2)
              parent := BitVec.ofNat 32 leaf }) leaf
            { x with first := BitVec.ofNat 32 r.bump, count := 1, flags := 1 }) 1 true) ∧
        (r.capacity < r.bump + 1 → ∃ u, exec (.expansionEntry die ord) s = .next u ∧ UnitStopped u cx a 7 0 ∧
          (u.die die).arenas = (s.die die).arenas))) ∧
    (TreeTurn s die ord cx a r 3 slot xa xb xc → xa.toNat % 64 = 0 → a.units = 0 →
      xc = BitVec.ofNat 64 (1 + 16 * 2 ^ 16) →
      let bs := s.rdWin cx xa.toNat 16
      let leaf := field bs 0 4
      let v := BitVec.ofInt 64 (sxt 32 (field bs 4 4))
      field bs 10 6 = 0 → leaf < r.bump → arenaHas r leaf x → x.vl ≠ 0 →
      (leaf = r.root → field bs 8 2 = 1 → ∃ u, exec (.backupRecord die ord) s = .next u ∧
        UnitDone u die cx a (withNode r leaf { x with vl := x.vl - 1 }) 1 true) ∧
      (x.n ≠ 0xFFFFFFFF → field bs 8 2 = 0 →
        let r1 := withNode r leaf { x with n := x.n + 1, w := x.w + v, vl := x.vl - 1 }
        (leaf = r.root → ∃ u, exec (.backupRecord die ord) s = .next u ∧ UnitDone u die cx a r1 1 true) ∧
        (leaf ≠ r.root → x.parent.toNat = r.root → x.parent ≠ noParent → r.root < r.bump → arenaHas r r.root y →
          y.n ≠ 0xFFFFFFFF → y.vl ≠ 0 → ∃ u, exec (.backupRecord die ord) s = .next u ∧
            UnitDone u die cx a (withNode r1 r.root
              { y with n := y.n + 1, w := if r.alt then y.w - v else y.w + v, vl := y.vl - 1 }) 1 true)))

/-- The other commands of an arena: REROOT changes the root, SWEEP frees the nodes that the root does not reach, PATH and READ write
the window, a unit that misses a line asks for it, FLUSH sends the changed lines; BIND reads the header, takes flag [7] by
the atomic at its controller once the cache has room, writes the header of an arena that was empty, binds the slot when all
is acknowledged, and refuses a header bound elsewhere; a ticket gap of 2^20 ac fails the held command, and an eviction
drops a clean line (R238, R242, R361, R365, R366). The model's choices: PATH's sub-status 8 at the root and 5 at or above
bump (log entry 78), a header that the die already binds taken as it stands (log entry 79), fills, write-backs and the
flag's atomic as separate requests (log entry 76), and a header in host memory refused (log entry 137). -/
def Obligations.TreeCommands : Prop :=
  open Sys2Proof Sys2Proof.Machine Sys2Proof.Claims in
  ∀ (s : State) (die ord cx : Nat) (a : Active) (r : Arena) (slot : Nat) (xa xb xc : Word) (x : Node),
    (∀ n, TreeTurn s die ord cx a r 4 slot xa xb xc → xa.toNat % 2 ^ 32 = n →
      (r.bump ≤ n → ∃ u, exec (.treeRerootExecute die ord) s = .next u ∧ UnitStopped u cx a 9 5) ∧
      (n < r.bump → n ≠ r.root → arenaHas r n x → x.parent.toNat = r.root → r.root < r.bump → x.parent ≠ noParent →
        ∃ u, exec (.treeRerootExecute die ord) s = .next u ∧
          UnitDone u die cx a { withNode r n { x with parent := noParent } with root := n, gen := r.gen + 1 }
            (a.units + 1) true)) ∧
    (TreeTurn s die ord cx a r 5 slot xa xb xc →
      (r.listVa = 0 → ∃ u, exec (.treeSweepExecute die ord) s = .next u ∧ UnitStopped u cx a 9 4) ∧
      (r.listVa ≠ 0 → r.root = 0 → 1 ≤ r.bump → r.runs = [] → arenaHas r 0 x → x.count = 0 → x.first = 0 →
        ∃ u, exec (.treeSweepExecute die ord) s = .next u ∧
          UnitDone u die cx a { r with bump := 1, rdirty := true } (r.bump - 1) true)) ∧
    (∀ leaf, TreeTurn s die ord cx a r 6 slot xa xb xc → xa.toNat % 64 = 0 → 1 ≤ xa.toNat / 2 ^ 32 % 2 ^ 16 →
      xc.toNat = leaf → leaf < r.bump → leaf < 2 ^ 32 →
      (leaf = r.root → ∃ u, exec (.treePathExecute die ord) s = .next u ∧ UnitStopped u cx a 9 8) ∧
      (leaf ≠ r.root → arenaHas r leaf x → x.parent.toNat = r.root → x.parent ≠ noParent →
        r.root < r.bump → ∃ u, exec (.treePathExecute die ord) s = .next u ∧ UnitDone u die cx a r 1 true ∧
          u.rdWin cx (xa.toNat % 2 ^ 32) 2 = leBytes 2 x.action.toNat)) ∧
    (∀ first n, TreeTurn s die ord cx a r 7 slot xa xb xc → xa.toNat % 64 = 0 → xc.toNat = first + n * 2 ^ 32 →
      first < 2 ^ 32 → 1 ≤ n → n < 2 ^ 16 →
      (r.capacity < first + n → ∃ u, exec (.treeReadExecute die ord) s = .next u ∧ UnitStopped u cx a 9 5) ∧
      (first + n ≤ r.capacity → arenaHas r (first + a.units) x →
        ∃ u, exec (.treeReadExecute die ord) s = .next u ∧
          UnitDone u die cx a r (a.units + 1) (decide (n ≤ a.units + 1)) ∧
          u.rdWin cx (xa.toNat + 32 * a.units) 32 = x.bytes) ∧
      (first + n ≤ r.capacity → smGet none r.nodes (first + a.units) = none → s.nodesHeld die + 4 ≤ 524288 →
        a.units < n → (∀ q ∈ s.reqs, q.agent = .tree die → ∀ l, q.op ≠ .treeLine r.phys l) →
        ∀ p z t, treePlace s r (r.nodeVa (first + a.units)) false = .ok ((p, z), t) →
        ∃ u, exec (.treeReadExecute die ord) s = .next u ∧
          TreeAsks t u die (.treeLine r.phys ((first + a.units) / 4)) (p / 128 * 128))) ∧
    (∀ n p z t, TreeTurn s die ord cx a r 8 slot xa xb xc → r.dirty = [n] → r.base.toNat % 4096 = 0 →
      treePlace s r (r.nodeVa (4 * n)) true = .ok ((p, z), t) →
      ∃ u, exec (.treeFlushExecute die ord) s = .next u ∧ UnitDone u die cx a { r with dirty := [] } (a.units + 1) true ∧
        TreeAsks t u die (.treeWr r.phys (((List.range 128).map (p % 128 + ·)).zip (r.lineBytes n))) (p / 128 * 128)) ∧
    (∀ v key, BindTurn s die ord cx a slot xa → a.phase = 0 → HeaderAt s v cx xa key →
      ∃ u, exec (.treeBindExecute die ord) s = .next u ∧
        (key.1 = true → ∃ b ∈ (u.ctx cx).active, b.cmd = a.cmd ∧ b.fail = some (9, 4, xa)) ∧
        (∀ w, key.1 = false → (v.die die).arena key = some w →
          (w.busy = false → BindEnded u cx slot a (some key) none) ∧ (w.busy = true → u = v)) ∧
        (key.1 = false → (v.die die).arena key = none →
          (∀ w x, bindHeader a v cx xa key = .ok (w, x) →
            (524288 < w.nodesHeld die + x.nodes.length → u = w) ∧
            (w.nodesHeld die + x.nodes.length ≤ 524288 → (u.die die).arenas = (w.die die).arenas ++ [x] ∧
              TreeAsks w u die (.treeFlag a.cmd.num) x.phys ∧
              ∃ b ∈ (u.ctx cx).active, b.cmd = a.cmd ∧ b.ended = false ∧ b.phase = 1 ∧ b.aux = x.phys)) ∧
          (∀ st sub k l, bindHeader a v cx xa key = .error (.stop st sub k l) →
            BindEnded u cx slot a none (some (st, sub, xa))))) ∧
    (∀ w, BindTurn s die ord cx a slot xa → (s.die die).arena (false, a.aux) = some w →
      ∃ u, exec (.treeBindExecute die ord) s = .next u ∧
        (a.phase = 1 → a.flagSet = none → u = s) ∧
        (a.phase = 1 → a.flagSet = some true → BindEnded u cx slot a none (some (9, 9, w.va)) ∧
          (u.die die).arena (false, a.aux) = none) ∧
        (a.phase = 1 → a.flagSet = some false → BindOn u cx a (if w.dirty = [] then 3 else 2) ∧
          (u.die die).arena (false, a.aux) = some { w with binding := decide (w.dirty ≠ []) }) ∧
        (∀ t, a.phase = 2 → treeWrite die w w.va w.headPieces s = .ok t → BindOn u cx a 3 ∧ u.reqs = t.reqs ∧
          (u.die die).arena (false, a.aux) = some { w with binding := false }) ∧
        (a.phase = 3 → if s.treeBusy die w.phys then u = s else BindEnded u cx slot a (some (false, a.aux)) none)) ∧
    (∀ k, (s.die die).arenas[k]? = some r → s.arenaCmds die r = [(cx, a)] → a ∈ (s.ctx cx).active → a.cmd.queue = .tre →
      0 < r.dist a.cmd.kind → r.dist a.cmd.kind < 2 ^ 31 →
      (s.now < max r.moved r.noGap + 2 ^ 20 → exec (.ticketGapTimeout die k) s = .next s) ∧
      (max r.moved r.noGap + 2 ^ 20 ≤ s.now → ∃ u, exec (.ticketGapTimeout die k) s = .next u ∧ UnitStopped u cx a 8 1 ∧
        (u.die die).arenas[k]? = some { r with next := a.cmd.kind.ticket, moved := s.now })) ∧
    (∀ k line, (s.die die).arenas[k]? = some r → (∀ e ∈ s.faults, e.who ≠ .arena die r.phys false) → r.busy = false →
      r.cached line = true → line ∉ r.dirty →
      ∃ u, exec (.nodeCacheEviction die k line) s = .next u ∧ (u.die die).arenas[k]? =
        some { r with nodes := r.nodes.filter fun x => decide (x.1 / 4 ≠ line) })

namespace Sys2Proof.Claims

open Sys2Proof Sys2Proof.Machine

/-- A task of the scheduler that alone carries its number. -/
def TaskIs (s : State) (t : Task) : Prop := s.task t.id = some t

/-- A context is the only one that holds its task. -/
def SoleCtx (s : State) (cx : Nat) : Prop :=
  (s.ctx cx).task ≠ 0 ∧ ∀ p ∈ s.ctxs, p.2.task = (s.ctx cx).task → p.1 = cx

/-- The context of a task now stands in shadow storage, unchanged but for its place, and its task is swapped (R280, R282). -/
def SavedOut (s u : State) (cx : Nat) : Prop :=
  let c := s.ctx cx
  let d := u.ctx (shadowKey c.task)
  u.ctx cx = {} ∧ d.x = c.x ∧ d.pc = c.pc ∧ d.mbox = c.mbox ∧ d.h = c.h ∧ d.task = c.task ∧ d.core = coreOf cx ∧
    d.winBase = c.winBase ∧ d.locBase = c.locBase ∧ d.slots = c.slots ∧
    (d.status = if c.status = .running then .ready else c.status) ∧ ∀ t ∈ u.hub.tasks, t.id = c.task → t.state = .swapped

/-- A context that cr.SWAPWAIT has passed over: it holds a task that may be saved, blocked since then, on a core on which
another task would fit in its place, and which is not halted (R280, R397). Time counts in parts of a microsecond, 2,100
each (R7). -/
def SwapDue (s : State) (cx : Nat) : Prop :=
  let c := s.ctx cx
  let g := coreOf cx
  resident cx = true ∧ c.savable = true ∧ (s.core g).halted = false ∧ (∃ w, c.status = .blocked w) ∧
    c.since + 2100 * (s.die (dieOf g)).swapwait.toNat ≤ (s.die (dieOf g)).time ∧ s.wouldFit c.part g cx = true

end Sys2Proof.Claims

/-- The scheduler: a waymark counts an arrival whose drain has ended, and its last arrival completes the phase; a record
that a task launched becomes a task, READY when nothing must be released first, each source in its turn; a task moves up after cr.AGE at its
level and reserves its dies after cr.AGE at the head of level 0; the task to be placed next gets a context with its record's
values and cleared memories (R270, R271, R275 to R279, R286). The model's choices: a source taken in a round waits until
the other sources with a record have had their turn (log entry 81), and the place, the context and the slots that a task
gets (log entry 85). -/
def Obligations.SchedulerEvents : Prop :=
  open Sys2Proof Sys2Proof.Machine Sys2Proof.Claims in
  ∀ (s : State) (cx : Nat) (a : Active) (t : Task),
    (∀ id v cov, (s.ctx cx).active = [a] → a.cmd.queue = .rem → a.cmd.kind = .waymark id v cov → a.started = false →
      let k := wmKey (s.ctx cx).part id
      let w := s.waymark k
      (s.stopped cx = true ∨ (∃ i ∈ cov, s.outstanding i = true) → exec (.waymarkArrival cx) s = .next s) ∧
      (s.stopped cx = false → (∀ i ∈ cov, s.outstanding i = false) →
        (w.target = 0 ∨ w.count + 1 < w.target → ∃ u, exec (.waymarkArrival cx) s = .next u ∧
          u.waymark k = { w with count := w.count + 1, who := w.who ++ [((s.ctx cx).task, a.cmd.num)] } ∧
          (u.ctx cx).active = [{ a with started := true }]) ∧
        (w.target = w.count + 1 → w.who = [] → SoleCtx s cx →
          ∃ u, exec (.waymarkArrival cx) s = .next u ∧
            u.waymark k = { w with count := 0, phase := (w.phase + 1) % 2 ^ 32, who := [] } ∧
            (u.ctx cx).active = [{ a with started := true, ended := true }]))) ∧
    (∀ key r rest, s.ctxOf key = some cx → (s.ctx cx).castOn = r :: rest → r.graph = 0 → r.succs = 0 → r.arm = false →
      (∀ x ∈ s.hub.tasks, x.id ≠ s.hub.nextTask) → (∀ f ∈ s.faults, ∀ b, f.who ≠ .sched (.task key) b) →
      (Source.task key ∈ s.hub.turns → (∃ src ∈ s.sources (s.ctx cx).part, src ∉ s.hub.turns) →
        exec (.takeRecord (.task key)) s = .next s) ∧
      (Source.task key ∉ s.hub.turns → ∃ u x, exec (.takeRecord (.task key)) s = .next u ∧ (u.ctx cx).castOn = rest ∧ u.hub.tasks = s.hub.tasks ++ [x] ∧
        x.id = s.hub.nextTask ∧ u.hub.nextTask = s.hub.nextTask + 1 ∧ x.part = (s.ctx cx).part ∧
        x.pasid = (s.ctx cx).pasid ∧ x.priv = false ∧ x.lrec = r ∧ x.inst = none ∧ x.level = r.prio ∧
        (r.deps = 0 → x.state = .ready) ∧ (r.deps ≠ 0 → x.state = .waiting ∧ x.count = r.deps))) ∧
    (TaskIs s t → s.wants t = true → s.levelOf t ≠ 0 → s.ageOf t ≠ 0 →
      (s.taskTime t < t.since + s.ageOf t ∨ t.state ≠ .ready ∧ s.levelOf t ≠ t.eff → exec (.agingMove t.id) s = .next s) ∧
      (t.since + s.ageOf t ≤ s.taskTime t → t.state = .ready ∨ s.levelOf t = t.eff →
        ∃ u x, exec (.agingMove t.id) s = .next u ∧ TaskIs u x ∧
        x = { t with level := s.levelOf t - 1, eff := s.levelOf t - 1, since := s.taskTime t, place := s.hub.tick })) ∧
    (∀ h, TaskIs s t → s.wants t = true → t.head = some h → s.ageOf t ≠ 0 →
      (∀ x ∈ s.hub.tasks, x.part = t.part → x.reserv = false) →
      (s.taskTime t < h + s.ageOf t → exec (.reserving t.id) s = .next s) ∧
      (h + s.ageOf t ≤ s.taskTime t → ∃ u, exec (.reserving t.id) s = .next u ∧ TaskIs u { t with reserv := true })) ∧
    (∀ f, s.nextTask = some t → t.state = .ready → s.choose t = some f →
      ∃ u, exec (.placement t.id) s = .next u ∧
        let c := u.ctx f.cx
        let k := u.core f.core
        c.status = .ready ∧ c.task = t.id ∧ c.part = t.part ∧ c.pasid = t.pasid ∧ c.priv = t.priv ∧ c.pc = t.lrec.entry ∧
          c.basePrio = t.lrec.prio ∧ c.arg = t.lrec.arg ∧ c.x = [] ∧ c.h = [] ∧ c.winBase = f.win ∧
          c.winBytes = t.lrec.winBytes ∧ c.locBase = f.loc ∧ c.locBytes = t.lrec.locBytes ∧ c.slots = f.slots ∧
          (∀ i, f.win ≤ 4 * i → 4 * i < f.win + t.lrec.winBytes → k.word i = ⟨0, false⟩) ∧
          (∀ i, f.loc ≤ i → i < f.loc + t.lrec.locBytes → smGet 0 k.loc i = 0) ∧
          ∀ x ∈ u.hub.tasks, x.id = t.id → x.state = .placed)

/-- Swap, pre-emption, spill and refill, the end of a task, and user queues: a context blocked for cr.SWAPWAIT gives way, a
victim is saved for a task that fits nowhere, and spilled where its room is needed too, one at a time; a task chosen for
spilling leaves its memories to the save area in device memory, a restored task stands on a context as it was saved, its
memories as the save area holds them; a retiring task's context becomes idle and its action is taken; a kick records the
tail, and one that is no legal distance ahead puts the queue in error (R270, R272 to R274, R280 to R283, R288, R332, R383).
The layout of the save area is the model's (log entry 88), and so is that a victim chosen for spilling is marked, and no
further one of its partition taken before it is spilled (log entry 94). -/
def Obligations.SchedulerMovesAndEnds : Prop :=
  open Sys2Proof Sys2Proof.Machine Sys2Proof.Claims in
  ∀ (s : State) (cx : Nat) (t : Task),
    (SwapDue s cx → s.shadowed (coreOf cx) = [] → ∃ u, exec (.swap cx) s = .next u ∧ SavedOut s u cx) ∧
    ((s.die (dieOf (coreOf cx))).time < (s.ctx cx).since + 2100 * (s.die (dieOf (coreOf cx))).swapwait.toNat →
      exec (.swap cx) s = .next s) ∧
    (∀ v, TaskIs s t → s.wants t = true →
      ((s.rooms t).isEmpty = false ∨ s.victim t = none ∨ (∃ x ∈ s.hub.tasks, x.part = t.part ∧ x.spillDue = true) →
        exec (.preemption t.id) s = .next s) ∧
      ((∀ x ∈ s.hub.tasks, x.part = t.part → x.spillDue = false) → (s.rooms t).isEmpty = true →
        s.victim t = some (v, cx) → resident cx = true → s.shadowed (coreOf cx) = [] →
        ∀ u, s.swapOut cx = some u → SavedOut s u cx ∧
          ((u.rooms t).isEmpty = false → exec (.preemption t.id) s = .next u) ∧
          ((u.rooms t).isEmpty = true → exec (.preemption t.id) s =
            .next (if (s.saveRun v.part (s.imageOf cx).bytes).isNone then s
              else u.modTask v.id fun x => { x with spillDue := true })))) ∧
    (∀ p, TaskIs s t → t.state = .swapped → t.spillDue = true → s.ctxOf t.id = some cx → (s.ctx cx).active = [] →
      s.part t.part = some p →
      let n := (s.ctx cx).winBytes + (s.ctx cx).locBytes + 8 * 33024 * (s.ctx cx).slots.length
      (s.saveRun t.part n = none → exec (.spill t.id) s = .next s) ∧
      (∀ off, s.saveRun t.part n = some off → ∃ u x, exec (.spill t.id) s = .next u ∧ TaskIs u x ∧ x.id = t.id ∧
        x.state = .spilled ∧ x.img = some (s.imageOf cx) ∧ x.savedAt = some (off, n) ∧
        u.rdMem false (p.saveB.toNat + off) n = s.imageBytes cx ∧
        x.saveEnd = s.now + (n + 383) / 384 + 4096 + s.saveWait (p.saveB.toNat + off) n ∧
        (u.ctx cx).winBytes = 0 ∧ (u.ctx cx).locBytes = 0 ∧ (u.ctx cx).slots = [])) ∧
    (∀ f key, s.nextTask = some t → t.state = .swapped → t.img = none → s.choose t = some f → s.ctxOf t.id = some key →
      key ≠ f.cx → ∃ u, exec (.restore t.id) s = .next u ∧
        let c := s.ctx key
        let d := u.ctx f.cx
        u.ctx key = {} ∧ d.status = .ready ∧ d.core = f.core ∧ d.x = c.x ∧ d.pc = c.pc ∧ d.mbox = c.mbox ∧ d.h = c.h ∧
          d.winBase = c.winBase ∧ d.locBase = c.locBase ∧ d.slots = c.slots ∧
          ∀ x ∈ u.hub.tasks, x.id = t.id → x.state = .placed) ∧
    (∀ f key i p off, s.nextTask = some t → t.state = .spilled → t.img = some i → s.choose t = some f →
      s.ctxOf t.id = some key → key ≠ f.cx → s.part t.part = some p → t.savedAt = some (off, i.bytes) →
      f.win % 128 = 0 → t.lrec.winBytes + t.lrec.locBytes ≤ i.bytes → ∃ u, exec (.restore t.id) s = .next u ∧
        let bs := s.rdMem false (p.saveB.toNat + off) i.bytes
        let d := u.ctx f.cx
        d.status = .ready ∧ d.core = f.core ∧ d.winBase = f.win ∧ d.locBase = f.loc ∧ d.slots = f.slots ∧
          (u.core f.core).srfBytes f.win t.lrec.winBytes = bs.take t.lrec.winBytes ∧
          (u.core f.core).locBytes f.loc t.lrec.locBytes = (bs.drop t.lrec.winBytes).take t.lrec.locBytes) ∧
    (TaskIs s t → (s.ctx cx).task = t.id → (s.ctx cx).retiring = true →
      ((s.ctx cx).finished = false → exec (.taskRetirement cx) s = .next s) ∧
      ((s.ctx cx).finished = true → t.inst = none → (∀ g i, (s.ctx cx).status ≠ .blocked (.sem g i)) →
        ∃ u, exec (.taskRetirement cx) s = .next u ∧ u.ctx cx = {} ∧ (∀ x ∈ u.hub.tasks, x.id ≠ t.id) ∧
          ∀ g i, t.lrec.actVal ≠ 0 → semAddr s t.part t.lrec.actSem = some (.here g i) →
            ((s.core g).sem i).waiters = [] → ((s.core g).sems.Pairwise fun x y => x.1 ≠ y.1) → ((u.core g).sem i).val = ((s.core g).sem i).val + BitVec.ofInt 32 t.lrec.actVal)) ∧
    (∀ q tail, s.hub.queues = [q] →
      (q.slot = none → ∀ n, n ≠ q.num → ∃ u, exec (.kick n tail) s = .next u ∧ smGet none u.hub.kicks n = some tail.toNat ∧
        u.hub.queues = [q]) ∧
      (q.slot = none → ∃ u, exec (.kick q.num tail) s = .next u ∧ smGet none u.hub.kicks q.num = some tail.toNat ∧
        u.hub.queues = [{ q with tail := tail.toNat }] ∧
        (q.dhost = true → u.rdMem true (q.desc + 36) 4 = leBytes 4 tail.toNat)) ∧
      (q.slot.isSome = true →
        (q.error = true ∨ (tail.toNat + 2 ^ 32 - q.head) % 2 ^ 32 ≤ q.size → ∃ u, exec (.kick q.num tail) s = .next u ∧
          u.hub.queues = [{ q with tail := tail.toNat }]) ∧
        (q.error = false → q.size < (tail.toNat + 2 ^ 32 - q.head) % 2 ^ 32 → ∃ u x, exec (.kick q.num tail) s = .next u ∧
          u.hub.queues = [x] ∧ x.error = true ∧ x.tail = tail.toNat))) ∧
    (∀ q, ∃ u, exec (.queueDestroyed q) s = .next u ∧ (∀ x ∈ u.hub.queues, x.num ≠ q) ∧ smGet none u.hub.kicks q = none ∧
      ∀ i ∈ u.hub.insts, i.queue = some q → i.closed = true)

namespace Sys2Proof.Claims

open Sys2Proof Sys2Proof.Machine

/-- A fault entry of the package's list, by its number. -/
def EntryIs (s : State) (e : FaultEntry) : Prop := s.fault e.id = some e

/-- A forwarded entry that has no answer yet. -/
def Forwarded (s : State) (e : FaultEntry) : Prop := EntryIs s e ∧ e.sent = true ∧ e.answer = none

/-- The request that a record's code, partition and operands make (Tables 24.2, 24.3). -/
def RequestOf (c p : Nat) (o : List Byte) (i : Instr) : Prop :=
  let part : Byte := BitVec.ofNat 8 p
  let lo : Word := BitVec.ofNat 64 (field o 0 8)
  let hi : Word := BitVec.ofNat 64 (field o 8 8)
  (c = 1 ∧ i = .partCreate part (BitVec.ofNat 96 (field o 0 12)) (BitVec.ofNat 8 (field o 12 1))
    (BitVec.ofNat 8 (field o 13 1))) ∨
  (c = 2 ∧ i = .partDestroy part) ∨
  (c = 3 ∧ i = .amapWrite (decide (2 ^ 31 ≤ field o 0 4)) (BitVec.ofNat 31 (field o 0 4)) hi) ∨
  (c = 4 ∧ i = .pasidSet (BitVec.ofNat 32 (field o 0 4)) (BitVec.ofNat 32 (field o 4 4)) hi) ∨
  (c = 5 ∧ i = .saveSet part lo hi) ∨ (c = 6 ∧ i = .queuePriv part lo hi) ∨
  (c = 7 ∧ i = .taskEnd part (BitVec.ofNat 32 (field o 0 4))) ∨ (c = 8 ∧ i = .fringSet lo hi)

/-- An instruction that stands for a request of the driver. -/
def IsRequest (i : Instr) : Prop := ∃ c p o, RequestOf c p o i

/-- The package is ready, the oldest address written to MREQ is one of host memory, and a record stands there (R379). -/
def RecordAt (s : State) (w : Word) (ws : List Word) (a code part : Nat) (o : List Byte) : Prop :=
  s.hub.hstatus % 4 = 2 ∧ s.hub.mreq = w :: ws ∧ s.resolve true w.toNat = (true, a) ∧ ∃ bs, s.rdMem true a 64 = bs ∧
    o = bs.drop 8 ∧ field bs 0 2 = code ∧ field bs 2 1 = part

/-- A record whose partition and zero byte are in order. -/
def InOrder (s : State) (a part : Nat) : Prop := part < 16 ∧ field (s.rdMem true a 64) 3 1 = 0

/-- A request was done: the record's status is 0, and MSI-X vector 0 is raised; or it was refused: the status is 1, and
nothing else has changed (Table 24.2, R379). -/
def Accepted (s u : State) (ws : List Word) (a : Nat) : Prop :=
  u.rdMem true (a + 4) 4 = leBytes 4 0 ∧ u.hub.msix = s.hub.msix ++ [0] ∧ u.hub.mreq = ws
def Declined (s u : State) (ws : List Word) (a : Nat) : Prop :=
  u = ({ s with hub := { s.hub with mreq := ws, msix := s.hub.msix ++ [0] } } : State).wrMem true (a + 4) (leBytes 4 1)

/-- Bytes of a record's operands that must be zero, from an offset on. -/
def unusedZero (o : List Byte) (n : Nat) : Prop := ∀ b ∈ o.drop n, b = 0

end Sys2Proof.Claims

/-- Engines, answers and shootdowns: an engine accepts the oldest command of its queue while it has room, the plane engine
one of a context in each round, and nothing of a stopped task; a command that has
come to its end completes with status 0; a page request is forwarded while fewer than the host's allocation and 512 stand,
its answer reaches the handle or the engine that waits, and a failure stops page requests; a marked range is confirmed once
its requests are gone; an entry is copied to the ring's next slot (R20, R141, R309, R310, R314, R317, R319, R320, R337,
R381). The model's choices: a ring full with one slot free and FHEAD modulo the ring's size (log entry 97), a driver's token
confirmed by the hub only once its accesses have performed (log entry 99), no link for a command without a predecessor when
all 48 are taken (log entry 142), and an allocation that PRI_ENABLE leaves free (log entry 163). -/
def Obligations.HubEvents : Prop :=
  open Sys2Proof Sys2Proof.Machine Sys2Proof.Claims in
  ∀ (s : State) (cx : Nat) (q : Queue) (a : Active) (k : Cmd) (ks : List Cmd) (e : FaultEntry),
    (resident cx = false ∨ s.stopped cx = true ∨ (s.ctx cx).waiting q = [] → exec (.engineAccept cx q) s = .next s) ∧
    (resident cx = true → s.stopped cx = false → (s.ctx cx).waiting q = k :: ks →
      (q = .mat → 32 ≤ (s.window (coreOf cx)).length → exec (.engineAccept cx q) s = .next s) ∧
      (q = .mat → cx ∈ (s.core (coreOf cx)).matTurn → (∃ c ∈ ctxsOf (coreOf cx), s.stopped c = false ∧
        (s.ctx c).waiting .mat ≠ [] ∧ c ∉ (s.core (coreOf cx)).matTurn) → exec (.engineAccept cx q) s = .next s) ∧
      (q = .mat → (s.window (coreOf cx)).length < 32 → cx ∉ (s.core (coreOf cx)).matTurn →
        ∃ u b, exec (.engineAccept cx q) s = .next u ∧ b ∈ (u.ctx cx).active ∧ b.cmd = k ∧
          (b.linked = true ↔ s.linksUsed (coreOf cx) + max 1 (s.livePreds cx k).length ≤ 48)) ∧
      (q = .tre → 64 ≤ (s.treeCmds (dieOf (coreOf cx))).length → exec (.engineAccept cx q) s = .next s) ∧
      ((q = .sld ∧ ∃ d, k.kind = .sload d ∧ d.ws = false) ∨ (q = .tre ∧ (s.treeCmds (dieOf (coreOf cx))).length < 64) →
        ∃ u b, exec (.engineAccept cx q) s = .next u ∧ b ∈ (u.ctx cx).active ∧ b.cmd = k ∧
          (u.ctx cx).posted = (s.ctx cx).posted.filter fun j => decide (j.queue ≠ k.queue ∨ j.num ≠ k.num))) ∧
    (∀ id v cov, (s.ctx cx).active = [a] → a.cmd.queue = q → a.cmd.kind = .waymark id v cov →
      (a.ended = false → exec (.engineCommandComplete cx q) s = .next s) ∧
      (a.ended = true → ∃ u, exec (.engineCommandComplete cx q) s = .next u ∧ Completed s u cx a.cmd 0 0 0)) ∧
    (EntryIs s e → e.info = false → e.sent = false → e.answer = none →
      (s.hub.pri = false ∨ Nat.min 512 s.hub.priMax ≤ (s.faults.filter fun x => x.sent && x.answer.isNone).length →
        exec (.priPageRequest e.id) s = .next s) ∧
      (s.hub.pri = true → (s.faults.filter fun x => x.sent && x.answer.isNone).length < Nat.min 512 s.hub.priMax →
        ∃ u, exec (.priPageRequest e.id) s = .next u ∧ EntryIs u { e with sent := true })) ∧
    (∀ n, Forwarded s e → e.who = .handle cx n → ((s.ctx cx).handle n).state = .faulted →
      (∀ x ∈ s.faults, x.who = e.who → x.id ≤ e.id) →
      (∃ u, exec (.prgResponseSuccess e.id) s = .next u ∧ ((u.ctx cx).handle n).state = .pending ∧ u.fault e.id = none) ∧
      ∃ u, exec (.prgResponseInvalid e.id) s = .next u ∧ ((u.ctx cx).handle n).state = .refused ∧ u.fault e.id = none) ∧
    (∀ n run ln, Forwarded s e → e.who = .engine cx q n run ln →
      (∃ u, exec (.prgResponseSuccess e.id) s = .next u ∧ EntryIs u { e with answer := some true }) ∧
      ∃ u, exec (.prgResponseInvalid e.id) s = .next u ∧ EntryIs u { e with answer := some false }) ∧
    (Forwarded s e → ∃ t, exec (.prgResponseInvalid e.id) s = .next t ∧
      exec (.prgResponseFailure e.id) s = .next { t with hub := { t.hub with pri := false } }) ∧
    (∃ u, exec .priEnable s = .next u ∧ u.hub = { s.hub with pri := true, priMax := u.hub.priMax } ∧ u.hub.priMax ≤ 512) ∧
    (∀ p va n, (s.hub.freeToken = none → exec (.atsInvalidateRequest p va n) s = .next s) ∧
      ∀ slot, s.hub.freeToken = some slot → ∃ u t, exec (.atsInvalidateRequest p va n) s = .next u ∧
        smGet none u.hub.tokens slot = some t ∧ t.pasid = p ∧ t.va = va.toNat / 4096 * 4096 ∧ t.pages = n.toNat ∧
        t.auto = true) ∧
    (∀ slot t, smGet none s.hub.tokens slot = some t → s.migrating slot = false →
      (s.tokenDone t = false → exec (.tokenAutoConfirm slot) s = .next s) ∧
      (s.tokenDone t = true →
        (t.auto = true → ∃ u, exec (.tokenAutoConfirm slot) s = .next u ∧ smGet none u.hub.tokens slot = none ∧
          u.hub.atsDone = s.hub.atsDone + 1) ∧
        (t.auto = false → (s.die 0).time < t.at_ + 2100 * 1000 → exec (.tokenAutoConfirm slot) s = .next s) ∧
        (t.auto = false → t.at_ + 2100 * 1000 ≤ (s.die 0).time → ∃ u, exec (.tokenAutoConfirm slot) s = .next u ∧
          smGet none u.hub.tokens slot = none ∧ u.hub.atsDone = s.hub.atsDone))) ∧
    (∀ die p, s.faults.find? (fun x => x.die = die && !x.copied) = some e → 1 < s.hub.fents →
      ((s.hub.fnext + 1) % s.hub.fents = s.hub.fhead → exec (.faultRingCopy die) s = .next s) ∧
      ((s.hub.fnext + 1) % s.hub.fents ≠ s.hub.fhead → s.resolve true (s.hub.fring + 32 * s.hub.fnext) = (true, p) →
        ∃ u, exec (.faultRingCopy die) s = .next u ∧ u.rdMem true p 32 = e.bytes s.hub.fpass ∧
          u.hub.fnext = (s.hub.fnext + 1) % s.hub.fents ∧ (e.info = true → ∀ x ∈ u.faults, x.id ≠ e.id))) ∧
    ∀ v, exec (.fheadWrite v) s = .next { s with hub := { s.hub with fhead := v.toNat % s.hub.fents } }

/-- The driver's requests: a write of MREQ names a record in host memory, and requests are performed in the order written,
none before the package is ready. A record with a code of no request, a partition above 15 or a nonzero byte 3 gets
status 1; each request is done with status 0, or refused with status 1 and changes nothing else (R287, R300, R327, R377,
R379 to R382, R389, R400). The model's choices: a request written before the package is ready waits (log entry 101),
PART.CREATE with an empty list of cores is done (log entry 102), AMAP.WRITE's limits (log entry 104), the host section by
granule (log entry 26), a QUEUE.PRIV whose descriptor fails its check is done with status 0 (log entry 105), an event of one
request passes over a record of another and key slots above 15 are refused (log entry 143), and TASK.END refuses a task
whose engine queue alone is parked (log entry 157). -/
def Obligations.DriverRequests : Prop :=
  open Sys2Proof Sys2Proof.Machine Sys2Proof.Claims in
  ∀ (s : State) (w : Word) (ws : List Word) (a code part : Nat) (o : List Byte),
    (∀ ts, s.agenda = .mreq w :: ts → step s =
      .next { s with agenda := ts, hub := { s.hub with mreq := s.hub.mreq ++ [w] } }) ∧
    (∀ i, IsRequest i →
      (s.hub.hstatus % 4 ≠ 2 ∨ s.hub.mreq = [] → exec i s = .next s) ∧
      (RecordAt s w ws a code part o →
        (code = 0 ∨ 8 < code ∨ (RequestOf code part o i ∧ ¬ InOrder s a part) →
          ∃ u, exec i s = .next u ∧ Declined s u ws a) ∧
        (1 ≤ code → code ≤ 8 → ¬ RequestOf code part o i → exec i s = .next s))) ∧
    (RecordAt s w ws a 1 part o → InOrder s a part → ∀ i, RequestOf 1 part o i →
      let cores := (List.range 96).filter (field o 0 12).testBit
      let key := field o 12 1
      let tag := BitVec.ofNat 8 (field o 13 1)
      let refused := s.part part ≠ none ∨ 16 ≤ key ∨ ¬ unusedZero o 14 ∨
        ∃ p ∈ s.hub.parts, ∃ x, p.2 = some x ∧ ((∃ c ∈ cores, c ∈ x.cores) ∨ (tag ≠ 0 ∧ x.tag = tag))
      ∃ u, exec i s = .next u ∧ (refused → Declined s u ws a) ∧ (¬ refused → Accepted s u ws a ∧
        ∃ p, u.part part = some p ∧ p.cores = cores ∧ p.key = BitVec.ofNat 4 key ∧ p.tag = tag)) ∧
    (RecordAt s w ws a 2 part o → InOrder s a part → ∃ u, exec (.partDestroy (BitVec.ofNat 8 part)) s = .next u ∧
      (s.part part = none ∨ ¬ unusedZero o 0 → Declined s u ws a) ∧
      (s.part part ≠ none → unusedZero o 0 → u.rdMem true (a + 4) 4 = leBytes 4 0 ∧ u.part part = none)) ∧
    (RecordAt s w ws a 3 part o → InOrder s a part → ∀ i, RequestOf 3 part o i →
      let g := field o 0 4 % 2 ^ 31
      let v := BitVec.ofNat 64 (field o 8 8)
      let host := 2 ^ 31 ≤ field o 0 4
      let refused := field o 4 4 ≠ 0 ∨ ¬ unusedZero o 16 ∨
        (host ∧ (v &&& ~~~0x000F001400000000 ≠ 0 ∨ 4096 < (smPut 0 s.hub.hmap g v).length)) ∨
        (¬ host ∧ (s.own (g * 2 ^ 21) = false ∨ dieBytes ≤ physOff (g * 2 ^ 21)))
      ∃ u, exec i s = .next u ∧ (refused → Declined s u ws a) ∧ (¬ refused → Accepted s u ws a ∧
        (host → smGet 0 u.hub.hmap g = v) ∧
        (¬ host → smGet 0 u.hub.amap (g % 2 ^ 27) = v &&& 0x000FFFCC00000000))) ∧
    (RecordAt s w ws a 4 part o → InOrder s a part → ∀ i, RequestOf 4 part o i →
      let p := field o 0 4
      let id := BitVec.ofNat 20 p
      let refused := 2 ^ 20 ≤ p ∨ 3 ≤ field o 4 4 ∨ field o 8 8 % 4096 ≠ 0 ∨ ¬ unusedZero o 16
      ∃ u, exec i s = .next u ∧ (refused → Declined s u ws a) ∧ (¬ refused → Accepted s u ws a ∧
        (u.pasid id).mode = (if field o 4 4 = 0 then .none else if field o 4 4 = 1 then .walk else .ats) ∧
        (u.pasid id).root = BitVec.ofNat 64 (field o 8 8) ∧ (u.pasid id).gen = (s.pasid id).gen)) ∧
    (RecordAt s w ws a 5 part o → InOrder s a part → ∀ i, RequestOf 5 part o i → ∃ u, exec i s = .next u ∧
      (s.part part = none ∨ field o 0 8 % 4096 ≠ 0 ∨ ¬ unusedZero o 16 → Declined s u ws a) ∧
      (∀ p, s.part part = some p → field o 0 8 % 4096 = 0 → unusedZero o 16 → Accepted s u ws a ∧
        u.part part = some { p with saveB := BitVec.ofNat 64 (field o 0 8), saveN := field o 8 8 })) ∧
    (RecordAt s w ws a 6 part o → InOrder s a part → ∀ i, RequestOf 6 part o i → ∃ u, exec i s = .next u ∧
      (s.part part = none ∨ field o 0 8 % 64 ≠ 0 ∨ 63 < field o 8 8 ∨ ¬ unusedZero o 16 → Declined s u ws a) ∧
      (∀ q, s.part part ≠ none → field o 0 8 % 64 = 0 → field o 8 8 ≤ 63 → unusedZero o 16 →
        s.resolve true (field o 0 8) = (true, q) → u.rdMem true (a + 4) 4 = leBytes 4 0 ∧
          u.hub.queues = (s.mapQueue part true true q (field o 8 8)).hub.queues)) ∧
    (RecordAt s w ws a 7 part o → InOrder s a part → ∀ i, RequestOf 7 part o i → ∃ u, exec i s = .next u ∧
      ((∀ p ∈ s.ctxs, p.2.task ≠ 0 → p.2.part = part → p.2.taskId.toNat ≠ field o 0 4) ∨ ¬ unusedZero o 4 →
        Declined s u ws a) ∧
      (∀ cx (t : Task), unusedZero o 4 → s.ctxOf t.id = some cx → (s.ctx cx).task = t.id → TaskIs s t →
        s.ctxs.find? (fun p => decide (p.2.task ≠ 0 ∧ p.2.part = part ∧ p.2.taskId.toNat = field o 0 4)) = some (cx, s.ctx cx) →
        let st := (s.ctx cx).status
        (st = .blocked .stopped ∨ (∃ n, st = .blocked (.fault n)) ∨ (∃ g i, st = .blocked (.sem g i)) ∨
            (∃ n, st = .blocked (.handle n) ∧ ((s.ctx cx).handle n).state = .faulted) →
          u.rdMem true (a + 4) 4 = leBytes 4 0 ∧ u.ctx cx = {} ∧ ∀ x ∈ u.hub.tasks, x.id ≠ t.id) ∧
        (st = .running ∨ st = .ready ∨ (∃ q n, st = .blocked (.milestone q n)) ∨
            (∃ n, st = .blocked (.handle n) ∧ ((s.ctx cx).handle n).state ≠ .faulted) → Declined s u ws a))) ∧
    (RecordAt s w ws a 8 part o → InOrder s a part → ∀ i, RequestOf 8 part o i →
      let n := field o 8 8
      let refused := field o 0 8 % 4096 ≠ 0 ∨ n < 64 ∨ 65536 < n ∨ n &&& (n - 1) ≠ 0 ∨ ¬ unusedZero o 16
      ∃ u, exec i s = .next u ∧ (refused → Declined s u ws a) ∧ (¬ refused → Accepted s u ws a ∧
        u.hub.fring = field o 0 8 ∧ u.hub.fents = n ∧ u.hub.fnext = 0 ∧ u.hub.fhead = 0 ∧ u.hub.fpass = true))

/-- Migration, scrubbing and patrol: a migration copies its page line by line, each line read and written in a slot 31 of its
channel, with its poison mark; with no dirty part the range is marked, after three rounds a migration is abandoned with
status 1, and once its requests are gone and the last dirty parts are copied the new entry is stored and the mark
confirmed; a checked line's code reaches the bitmap and an uncorrectable one is poisoned; a record's fields are written
where its address leads at the end; patrol checks a line once a period in ascending row order, or up to 64 times in a hot
row, and scores are halved at the end of a period whose lines are all patrolled (R266, R314, R318, R321, R322, R393, R394).
The model's choices: one line read or written in each MIGRATE_EXECUTE and a call with no line left that ends a round (log
entry 108), and a row's first error that does not score (log entry 110). -/
def Obligations.CareOfMemory : Prop :=
  open Sys2Proof Sys2Proof.Machine Sys2Proof.Claims in
  ∀ (s : State) (cx : Nat) (a : Active) (bs : List Byte) (va : Word) (ecc : Ecc),
    ((s.ctx cx).active = [a] → a.cmd.queue = .sst → a.ended = false → a.cmd.kind = .migrate va →
      a.record = bs → s.stopped cx = false →
      let r := migRec bs
      let entry := s.cmdFault cx .sst a.cmd.num recordLine
      (a.phase = 1 ∧ a.copying = false ∧ s.filterOf cx a.cmd.num = [] ∨ a.phase = 2 ∧ a.token = none →
        (s.hub.freeToken = none → ∃ u b, exec (.migrateExecute cx) s = .next u ∧ (u.ctx cx).active = [b] ∧ b.phase = 2 ∧
          b.token = a.token ∧ u.hub.tokens = s.hub.tokens) ∧
        (∀ n, s.hub.freeToken = some n → ∃ u t b, exec (.migrateExecute cx) s = .next u ∧
          smGet none u.hub.tokens n = some t ∧ t.pasid = r.pasid ∧ t.va = r.va.toNat ∧ t.pages = r.bytes / 4096 ∧
          (u.ctx cx).active = [b] ∧ b.phase = 2 ∧ b.token = some n)) ∧
      (a.phase = 1 → a.copying = false → s.filterOf cx a.cmd.num ≠ [] → a.rounds = 3 → entry = none →
        ∃ u b, exec (.migrateExecute cx) s = .next u ∧ (u.ctx cx).active = [b] ∧ b.phase = closing ∧
          b.fail = some (1, 3, BitVec.ofNat 64 (s.filterOf cx a.cmd.num).length) ∧ u.filterOf cx a.cmd.num = [] ∧
          ∃ e ∈ u.faults, e.kind = 33 ∧ e.sub = 1 ∧ e.va = r.va) ∧
      (∀ st rounds dirty, a.phase = closing → a.fail = some (st, rounds, dirty) →
        let w := s.carePlace cx a.cmd.num recordLine va true
        (∀ v, w = .wait v → exec (.migrateExecute cx) s = .next v) ∧
        (∀ q v, w = .at_ true q v → ∃ u b, exec (.migrateExecute cx) s = .next u ∧ (u.ctx cx).active = [b] ∧ b.ended = true ∧
          u.rdMem true (q + 48) 2 = [BitVec.ofNat 8 st, BitVec.ofNat 8 rounds] ∧
          u.rdMem true (q + 52) 4 = leBytes 4 dirty.toNat)) ∧
      (a.phase = 1 → a.copying = false → s.filterOf cx a.cmd.num ≠ [] → a.rounds ≠ 3 →
        ∃ u b, exec (.migrateExecute cx) s = .next u ∧ (u.ctx cx).active = [b] ∧ b.rounds = a.rounds + 1 ∧
          ∀ l, l ∈ b.writ ↔ l / 4 ∈ s.filterOf cx a.cmd.num) ∧
      (∀ i, (i = .migrateExecute cx ∧ a.phase = 1) ∨ (i = .migrateClose cx ∧ a.phase = 3 ∧ a.token.isSome = true) →
        (∀ x l ls, a.stage = [x] → a.writ = l :: ls →
          let src := r.src + 128 * l
          (s.slot31 src = false → exec i s = .next (s.rouse false src)) ∧
          (s.slot31 src = true → ∃ u b y, exec i s = .next u ∧ (u.ctx cx).active = [b] ∧ b.writ = ls ∧ b.stage = [x, y] ∧
            y.line = l ∧ y.bytes = s.rdMem false src 128 ∧ y.poison = u.bad false src ∧
            (s.bad false src = true → y.poison = true) ∧ u.mem = s.mem)) ∧
        (∀ x y, a.stage = [x, y] → y.bytes.length = 128 →
          let dst := r.dst + 128 * y.line
          (s.slot31 dst = false → exec i s = .next (s.rouse false dst)) ∧
          (s.slot31 dst = true → ∃ u b, exec i s = .next u ∧ (u.ctx cx).active = [b] ∧ b.stage = [x] ∧
            u.rdMem false dst 128 = y.bytes ∧ u.bad false dst = y.poison))) ∧
      (∀ n t, a.token = some n → smGet none s.hub.tokens n = some t →
        (a.phase = 2 → s.tokenDone t = false → exec (.migrateClose cx) s = .next s) ∧
        (a.phase = 2 → s.tokenDone t = true → ∃ u b, exec (.migrateClose cx) s = .next u ∧ (u.ctx cx).active = [b] ∧
          b.phase = 3 ∧ u.filterOf cx a.cmd.num = [] ∧ ∀ l, l ∈ b.writ ↔ l / 4 ∈ s.filterOf cx a.cmd.num) ∧
        (a.phase = 3 → a.copying = false →
          (s.shut false r.pte 8 = true → exec (.migrateClose cx) s = .next (s.rouse false r.pte)) ∧
          (s.shut false r.pte 8 = false →
            let st := if a.flags &&& 32 ≠ 0 then 2 else 0
            let t := (((s.wrMem false r.pte (leBytes 8 r.new.toNat)).confirmToken n).setMigr r.src 0).modActive cx .sst
              a.cmd.num fun _ => { a with token := none, phase := closing, fail := some (st, a.rounds, 0) }
            t.rdMem false r.pte 8 = leBytes 8 r.new.toNat ∧ smGet none t.hub.tokens n = none ∧
            (∀ v, t.carePlace cx a.cmd.num recordLine va true = .wait v → exec (.migrateClose cx) s = .next v) ∧
            (∀ q v, t.carePlace cx a.cmd.num recordLine va true = .at_ true q v → ∃ u b, exec (.migrateClose cx) s = .next u ∧
              u.mem = v.mem ∧ u.rdMem true (q + 48) 2 = [BitVec.ofNat 8 st, BitVec.ofNat 8 a.rounds] ∧
              (u.ctx cx).active = [b] ∧ b.ended = true ∧ b.token = none))))) ∧
    (∀ q bp t v, (s.ctx cx).active = [a] → a.cmd.queue = .sst → a.ended = false → a.cmd.kind = .scrub va →
      a.started = true → a.record = bs → s.stopped cx = false → a.phase = 0 →
      let n := field bs 8 4 / 128
      s.carePlace cx a.cmd.num (2 * a.units + 1) (BitVec.ofNat 64 (field bs 0 8 + 128 * a.units)) false = .at_ false q t →
      t.carePlace cx a.cmd.num (2 * a.units + 2) (BitVec.ofNat 64 (field bs 16 8) + BitVec.ofNat 64 (a.units / 4)) true =
        .at_ true bp v → v.own q = true →
      (v.slot31 q = false → exec (.scrubLine cx ecc) s = .next (v.rouse false q)) ∧
      (v.slot31 q = true → a.units + 1 < n → ecc = .uncorrectable → ∃ u b, exec (.scrubLine cx ecc) s = .next u ∧
        u.bad false q = true ∧ (u.ctx cx).active = [b] ∧ b.units = a.units + 1 ∧ b.ended = false ∧
        u.rdMem true bp 1 = (v.rdMem true bp 1).map fun x => putCode x a.units 2) ∧
      (v.slot31 q = true → a.units + 1 = n → ecc = .clean → ∃ u b, exec (.scrubLine cx ecc) s = .next u ∧
        (u.ctx cx).active = [b] ∧ b.phase = closing ∧ b.units = n ∧ b.fail = some (0, n, 0))) ∧
    (∀ st done w, (s.ctx cx).active = [a] → a.cmd.queue = .sst → a.ended = false → a.cmd.kind = .scrub va →
      a.started = true → s.stopped cx = false → a.phase = closing → a.fail = some (st, done, w) →
      let place := s.carePlace cx a.cmd.num recordLine va true
      (∀ v, place = .wait v → exec (.scrubLine cx ecc) s = .next v) ∧
      (∀ q v, place = .at_ true q v → ∃ u b, exec (.scrubLine cx ecc) s = .next u ∧ (u.ctx cx).active = [b] ∧
        b.ended = true ∧ u.rdMem true (q + 12) 1 = [BitVec.ofNat 8 st] ∧ u.rdMem true (q + 24) 4 = leBytes 4 done)) ∧
    (∀ die stack line, let d := s.die die
      let addr := s.hub.pkg * 2 ^ 48 + die * 2 ^ 46 + 128 * line
      let row := Config.rowOf (addr / 128)
      let key := 2 ^ 32 * stack + line
      let n := smGet 0 d.patrol key
      let hot := ∃ h, (stack, h) ∈ d.hot ∧ h.row = row
      (d.scrubctl.getLsbD stack = false ∨ s.slot31 addr = false ∨ 64 ≤ n ∨ (n ≠ 0 ∧ ¬ hot) ∨
          (smGet 0 d.patRow stack > row ∧ ¬ hot) →
        exec (.patrol die stack row line ecc) s = .next s) ∧
      (d.scrubctl.getLsbD stack = true → stack < 3 → die < 4 → 128 * line < dieBytes →
        stackOf (s.channelOf addr) = stack → s.slot31 addr = true →
        (n = 0 → smGet 0 d.patRow stack ≤ row → ∃ u, exec (.patrol die stack row line ecc) s = .next u ∧
          smGet 0 (u.die die).patrol key = 1 ∧ smGet 0 (u.die die).patRow stack = row ∧
          (ecc = .uncorrectable → u.bad false addr = true) ∧
          (ecc = .corrected → (∀ h ∈ d.hot, h.1 ≠ stack) →
            ∃ h, (stack, h) ∈ (u.die die).hot ∧ h.row = row ∧ h.score = 0)) ∧
        (hot → n ≠ 0 → n < 64 → ∃ u, exec (.patrol die stack row line ecc) s = .next u ∧
          smGet 0 (u.die die).patrol key = n + 1 ∧ (ecc = .uncorrectable → u.bad false addr = true))) ∧
      (stack < 3 → die < 4 →
        (d.time < smGet 0 d.patStart stack + d.period ∨ s.patrolled die stack = false →
          exec (.patrolPeriodEnd die stack) s = .next s) ∧
        (smGet 0 d.patStart stack + d.period ≤ d.time → s.patrolled die stack = true → ∀ h, d.hot = [(stack, h)] →
          ∃ u, exec (.patrolPeriodEnd die stack) s = .next u ∧ smGet 0 (u.die die).patStart stack = d.time ∧
            smGet 0 (u.die die).patRow stack = 0 ∧
            ((u.die die).hot =
              if h.score / 2 = 0 ∧ h.req = false then [] else [(stack, { h with score := h.score / 2 })]))))

/-- Retraining, power, security and boot: a stack retrains for at most 50 µs, serves nothing meanwhile and may hold a
P-state change back, and a save that writes it puts it off; P-states change at an ac with cr.CYCLE mod 32 = 0; a quiet core
enters C1 and a quiet die C3, which keeps the SRF, the accumulators and the weight store and drops local memory,
semaphores and caches; a C3 exit takes 60 µs from the request that starts it; a debug token and a return record take
effect with the owner's signature; a debug request is granted, waits, or is refused with status 2; boot stops in the step
that fails, and waits for the configuration record, whose address stays in CFGREC; a report leaves its nonce (R266, R333,
R395 to R400). The model's choices: a retraining's length and the free image of a token (log entries 13, 106), a P-state
change after a retraining (107), the causes of an exit from C3 (113), what power-off keeps (114), tokens in OWNER-DEBUG and
RETURN (115), debug requests in C3 and P2 (116), the split of the boot steps (117), what C3 keeps (140), and the form of
what a debug request reads (162). -/
def Obligations.PowerAndBoot : Prop :=
  open Sys2Proof Sys2Proof.Machine Sys2Proof.Claims in
  ∀ (s : State) (die stack core : Nat) (p : BitVec 2) (addr : Word) (t : State) (rec : List Byte),
    let d := s.die die
    let resting := (∀ k < 3, d.retrains k = false) ∧ d.trainDue = []
    (4 ≤ die ∨ 3 ≤ stack ∨ d.retrains stack = true → exec (.retrain die stack) s = .next s) ∧
    (die < 4 → stack < 3 →
      (d.retrains stack = false → s.saving die stack = true → ∃ u, exec (.retrain die stack) s = .next u ∧
        stack ∈ (u.die die).trainDue ∧ (u.die die).retrain = d.retrain) ∧
      (d.retrains stack = false → s.saving die stack = false → ∃ u e, exec (.retrain die stack) s = .next u ∧
        (stack, e) ∈ (u.die die).retrain ∧ d.time ≤ e ∧ e ≤ d.time + 2100 * 50) ∧
      (∃ u, exec (.retrainEnd die stack) s = .next u ∧ ∀ r ∈ (u.die die).retrain, r.1 = stack → d.time < r.2) ∧
      (resting → d.pWait = some p → d.cycle % 32 = 0 → d.c3 = false → (p = 2 → s.haltedOn die = false) →
        ∃ u, exec (.retrainEnd die stack) s = .next u ∧ (u.die die).pstate = p)) ∧
    (die < 4 → p ≠ 3 → s.hub.plimit ≤ p.toNat → (p = 2 → s.haltedOn die = false) → d.c3 = false →
      (¬ resting → ∃ u, exec (.pStateChange die p) s = .next u ∧ (u.die die).pWait = some p ∧
        (u.die die).pstate = d.pstate) ∧
      (resting → d.cycle % 32 ≠ 0 → exec (.pStateChange die p) s = .next s) ∧
      (resting → d.cycle % 32 = 0 → ∃ u, exec (.pStateChange die p) s = .next u ∧ (u.die die).pstate = p)) ∧
    (p.toNat < s.hub.plimit → exec (.pStateChange die p) s = .next s) ∧
    ((s.quiet core = false → exec (.c1Entry core) s = .next s) ∧
      (s.quiet core = true → core < 96 → ∃ u, exec (.c1Entry core) s = .next u ∧ (u.core core).c1 = true)) ∧
    ((∃ c ∈ ctxsOf core, (s.ctx c).task ≠ 0) → ∃ u, exec (.c1Exit core) s = .next u ∧ (u.core core).c1 = false) ∧
    ((∃ g ∈ coresOf die, s.quiet g = false) ∨ (∃ r ∈ s.reqs, r.ws = false ∧ s.away r = false ∧ s.dieAt r.phys = die) →
      exec (.c3Entry die) s = .next s) ∧
    (die < 4 → d.c3 = false → (∀ g ∈ coresOf die, s.quiet g = true) →
      (∀ r ∈ s.reqs, r.ws = true ∨ s.away r = true ∨ s.dieAt r.phys ≠ die) →
      ∃ u, exec (.c3Entry die) s = .next u ∧ (u.die die).c3 = true ∧ (u.die die).ws = d.ws ∧ (u.die die).wsMem = d.wsMem ∧
        (u.die die).arenas = d.arenas ∧ u.mem = s.mem ∧ ∀ g ∈ coresOf die, (u.core g).srf = (s.core g).srf ∧ (u.core g).acc = (s.core g).acc ∧
          (u.core g).tlb = [] ∧ (u.core g).loc = [] ∧ (u.core g).sems = [] ∧ g ∉ u.hub.trace) ∧
    (die < 4 → d.c3 = true →
      (∀ e, d.c3Exit = some e → (d.time < e → exec (.c3Exit die) s = .next s) ∧
        (e ≤ d.time → ∃ u, exec (.c3Exit die) s = .next u ∧ (u.die die).c3 = false ∧ (u.die die).cycle = s.now ∧
          u.mem = s.mem)) ∧
      (d.c3Exit = none → s.wanted die = false → (∀ g ∈ coresOf die, s.quiet g = true) → exec (.c3Exit die) s = .next s) ∧
      (d.c3Exit = none → s.wanted die = true → ∃ u, exec (.c3Exit die) s = .next u ∧ (u.die die).c3 = true ∧
        (u.die die).c3Exit = some (d.time + 2100 * 60))) ∧
    (∃ u, exec .powerOff s = .next u ∧ u.hostMem = s.hostMem ∧ u.hpois = s.hpois ∧ (∀ c ∈ u.mem, s.own c.1 = false) ∧
      (∀ c ∈ s.mem, s.own c.1 = false → c ∈ u.mem) ∧ u.ctxs = [] ∧ u.cores = [] ∧
      u.hub.hstatus = 0 ∧ u.hub.mode = if s.hub.mode = .ret then .ret else .locked) ∧
    (s.readToken addr = (rec, t) →
      let levels := tokenLevels (Config.tokenWord rec)
      let signed := Config.signatureOk t.hub.ownerKey rec = true
      (Config.isReturn rec = true ∨ (t.hub.mode ≠ .ret ∧ (¬ signed ∨ ∃ x ∈ levels, t.hub.dbgOk.getLsbD x.1 = false)) ∨
          (t.hub.mode = .ret ∧ Config.signatureOk Config.vendorKey rec = false) →
        exec (.debugToken addr) s = .next t) ∧
      (Config.isReturn rec = false → t.hub.mode = .ret → Config.signatureOk Config.vendorKey rec = true →
        ∃ u, exec (.debugToken addr) s = .next u ∧ u.hub.levels = levels ∧ u.hub.mode = .ret) ∧
      (signed → Config.isReturn rec = false → t.hub.mode ≠ .ret → (∀ x ∈ levels, t.hub.dbgOk.getLsbD x.1 = true) →
        ∃ u, exec (.debugToken addr) s = .next u ∧ u.hub.levels = levels ∧
          u.hub.mode = if levels = [] then .locked else .ownerDebug) ∧
      (¬ signed ∨ Config.isReturn rec = false → exec (.returnRecord addr) s = .next t) ∧
      (signed → Config.isReturn rec = true → ∃ u, exec (.returnRecord addr) s = .next u ∧ u.hub.mode = .ret ∧
        u.hub.ownerKey = [] ∧ u.hub.dataKeys = [] ∧ u.hub.keySlots = [])) ∧
    (∀ part act, core < 96 →
      let k := s.die (dieOf core)
      (s.mayDebug part act core = false → exec (.debugRequest part act core) s =
        .next { s with hub := { s.hub with mstat := 2 } }) ∧
      (s.mayDebug part act core = true → act = .halt ∨ act = .inspect ∨ act = .resume → k.c3 = true →
        ∃ u, exec (.debugRequest part act core) s = .next u ∧ u.cores = s.cores ∧ u.hub = s.hub ∧
          (k.c3Exit = none → (u.die (dieOf core)).c3Exit = some (k.time + 2100 * 60))) ∧
      (s.mayDebug part act core = true → act = .halt → k.c3 = false → k.pstate = 2 →
        exec (.debugRequest part act core) s = .next s) ∧
      (s.mayDebug part act core = true → k.c3 = false → (act = .halt → k.pstate ≠ 2) →
        ∃ u, exec (.debugRequest part act core) s = .next u ∧ u.hub.mstat = 0 ∧
          (act = .halt → (u.core core).halted = true) ∧ (act = .resume → (u.core core).halted = false) ∧
          (act = .trace → core ∈ u.hub.trace) ∧ (act = .inspect → u.hub.dbgOut = s.inspected core) ∧
          (act = .counters → u.hub.dbgOut = s.counted core))) ∧
    (∀ b hdm, (s.hub.hstatus ≠ 0 → exec (.boot b hdm) s = .next s) ∧
      (s.hub.hstatus = 0 → ∃ u, exec (.boot b hdm) s = .next u ∧ u.hub.hdm = hdm ∧
        (b.image = false → u.hub.hstatus = 3 + 256 * 2) ∧
        (b.image = true → b.firmware = false → u.hub.hstatus = 3 + 256 * 3) ∧
        (b.image = true → b.firmware = true → b.links = false → u.hub.hstatus = 3 + 256 * 4) ∧
        (b.image = true → b.firmware = true → b.links = true → s.hub.cfgrec = 0 → u.hub.hstatus = 1 ∧ ∀ d < 4, (u.die d).cycle = 0))) ∧
    (∀ ok, s.hub.hstatus ≠ 1 → exec (.configurationRecord (addr, ok)) s = .next { s with hub := { s.hub with cfgrec := addr } }) ∧
    (∀ a ok, s.hub.hstatus = 1 → s.resolve true addr.toNat = (true, a) →
      let bs := s.rdMem true a 512
      ∃ u, exec (.configurationRecord (addr, ok)) s = .next u ∧ u.hub.cfgrec = addr ∧
        (cfgOk bs = false → u.hub.hstatus = 3 + 256 * 5) ∧
        (cfgOk bs = true → s.hub.mode ≠ .ret → Config.signatureOk ((bs.drop 32).take 96) bs = true →
          u.hub.pkg = field bs 4 1 ∧ u.hub.domain = field bs 5 1 ∧ u.hub.plimit = field bs 6 1 ∧ u.hub.mode = .locked ∧
          (ok = true → u.hub.hstatus = 2 ∧ u.hub.parts = []) ∧
          (ok = false → (∃ b ∈ (bs.drop 8).take 16, b ≠ 0xFF) → u.hub.hstatus = 3 + 256 * 6))) ∧
    ∀ a, s.resolve true addr.toNat = (true, a) → ∃ u, exec (.attest addr) s = .next u ∧
      u.rdMem true a 48 = s.rdMem true a 48 ∧ u.mem = s.mem ∧ u.ctxs = s.ctxs ∧ u.hub.attest = addr

/-- IDLE adds n empty issue cycles after its packet, the header's count its own; in an empty cycle no packet issues (R219). -/
def Obligations.IdleCycles : Prop :=
  open Sys2Proof Sys2Proof.Machine Sys2Proof.Claims in
  ∀ (s : State) (k : Kernel) (n : BitVec 12),
    let g := s.home s.focus
    (1 ≤ n.toNat + 1 ∧ n.toNat + 1 ≤ 4096) ∧
    (∀ h w l, packetSlots h = [(7, .b)] → w = 2 ^ 31 + 5 * 2 ^ 26 + n.toNat → decodePacket h [w] = .inl l →
      (∃ c o, l = [(c, o)] ∧ o.instr = .idle n) ∧
      (Resting s k → 0 ≤ k.pc → (s.core g).packet k = some (h, [w]) → (k.branch = none ∨ k.loops = []) →
        (∀ x ∈ k.loops, x.last < k.pc ∨ k.pc + 1 ≤ x.last) →
        s.stopped k.cx = false → (s.core g).codeSoft k (packetLen h) = false →
        ∃ t j, exec (.packetIssue g) s = .next t ∧ (t.core g).kern = some j ∧ j.idle = fld h 19 4 + (n.toNat + 1))) ∧
    (∀ m, (s.core g).kern = some k → k.idle = m + 1 → k.abort = false → k.freeze = false → s.stopped k.cx = false →
      exec (.packetIssue g) s = .next s ∧
      exec (.idleIssueCycle g) s = .next (running s (landedS s k) { landedK s k with idle := m, cyc := k.cyc + 1 }))

/-- The translation generation of a PASID starts at 0, counts the XINV.CONFIRMs that complete, is recorded in a handle that
becomes VALID, and is shown by HINFO (R311). -/
def Obligations.TranslationGeneration : Prop :=
  open Sys2Proof Sys2Proof.Machine Sys2Proof.Claims in
  ∀ (s : State) (d a : BitVec 5) (cx : Nat) (h : BitVec 4) (ats : Option AtsReply) (p : BitVec 20),
    (State.reset.pasid p).gen = 0 ∧
    (∀ t, Unhindered s [d, a] → s.tagX s.focus a = false → (s.ctx s.focus).priv = true →
      smGet none s.hub.tokens ((s.rdX s.focus a).toNat % 16) = some t → t.auto = false →
      t.serial = (s.rdX s.focus a).toNat / 16 → s.tokenDone t = true →
      ∃ u, exec (.xinvConfirm d a) s = .next u ∧
        (u.pasid p).gen = (s.pasid p).gen + if p = t.pasid then 1 else 0) ∧
    (∀ i t, i = .xlateResolve cx h ∨ i = .walkComplete cx h ats → exec i s = .next t →
      ((s.ctx cx).handle h.toNat).state = .pending → ((t.ctx cx).handle h.toNat).state = .valid →
      ((t.ctx cx).handle h.toNat).gen = (s.pasid ((s.ctx cx).handle h.toNat).pasid).gen) ∧
    (∀ n : BitVec 4, Unhindered s [d] → d ≠ 0 → ∃ u, exec (.hinfo d n) s = .next u ∧
      (u.rdX s.focus d).toNat % 2 ^ 6 = ((s.ctx s.focus).handle n.toNat).gen.toNat % 2 ^ 6)
end

