-- ==== Sys2Proof/Laws/Maps.lean ====
section
/-!
SUPPORT. Sparse maps: what an index holds after a write, that a write keeps the canonical form, and that
maps in canonical form are equal when every index holds the same.
-/

namespace Sys2Proof.Machine

open Sys2Proof

variable {α : Type}

@[simp] theorem smGet_nil (d : α) (k : Nat) : smGet d [] k = d := rfl

theorem smGet_erase_same (d : α) (m : SMap α) (k : Nat) : smGet d (smErase m k) k = d := by
  unfold smErase
  induction m with
  | nil => rfl
  | cons p m ih =>
    rw [List.filter_cons]
    split
    · rename_i h
      have : p.1 ≠ k := by simpa using h
      simpa [smGet, this] using ih
    · exact ih

theorem smGet_erase_other (d : α) (m : SMap α) (k j : Nat) (h : j ≠ k) :
    smGet d (smErase m k) j = smGet d m j := by
  unfold smErase
  induction m with
  | nil => rfl
  | cons p m ih =>
    rw [List.filter_cons]
    split
    · simp only [smGet, ih]
    · rename_i hp
      have : p.1 = k := by simpa using hp
      have : p.1 ≠ j := by omega
      simp only [smGet, this, if_false, ih]

theorem smGet_ins_same (d : α) (m : SMap α) (k : Nat) (v : α) (h : ∀ p ∈ m, p.1 ≠ k) :
    smGet d (smIns m k v) k = v := by
  induction m with
  | nil => simp [smIns, smGet]
  | cons p m ih =>
    have hp := h p (by simp)
    simp only [smIns]
    split
    · simp [smGet]
    · simp [smGet, hp, ih (fun q hq => h q (by simp [hq]))]

theorem smGet_ins_other (d : α) (m : SMap α) (k j : Nat) (v : α) (h : j ≠ k) :
    smGet d (smIns m k v) j = smGet d m j := by
  induction m with
  | nil => simp [smIns, smGet, Ne.symm h]
  | cons p m ih =>
    simp only [smIns]
    split
    · simp [smGet, Ne.symm h]
    · simp [smGet, ih]

theorem mem_smErase (m : SMap α) (k : Nat) (p : Nat × α) : p ∈ smErase m k ↔ p ∈ m ∧ p.1 ≠ k := by
  simp [smErase]

/-- Reading the index that was written. -/
@[simp] theorem smGet_put_same [DecidableEq α] (d : α) (m : SMap α) (k : Nat) (v : α) :
    smGet d (smPut d m k v) k = v := by
  unfold smPut
  split
  · rename_i h; rw [smGet_erase_same, h]
  · exact smGet_ins_same d _ k v fun p hp => ((mem_smErase m k p).1 hp).2

/-- Reading another index. -/
theorem smGet_put_other [DecidableEq α] (d : α) (m : SMap α) (k j : Nat) (v : α) (h : j ≠ k) :
    smGet d (smPut d m k v) j = smGet d m j := by
  unfold smPut
  split
  · exact smGet_erase_other d m k j h
  · rw [smGet_ins_other d _ k j v h, smGet_erase_other d m k j h]

/-- Reading any index after a write. -/
theorem smGet_put [DecidableEq α] (d : α) (m : SMap α) (k j : Nat) (v : α) :
    smGet d (smPut d m k v) j = if j = k then v else smGet d m j := by
  split
  · rename_i h; rw [h, smGet_put_same]
  · rename_i h; exact smGet_put_other d m k j v h

theorem mem_smIns (m : SMap α) (k : Nat) (v : α) (p : Nat × α) : p ∈ smIns m k v ↔ p = (k, v) ∨ p ∈ m := by
  induction m with
  | nil => simp [smIns]
  | cons q m ih =>
    simp only [smIns]
    split
    · simp
    · simp only [List.mem_cons, ih]
      constructor
      · rintro (h | h | h) <;> simp [h]
      · rintro (h | h | h) <;> simp [h]

/-- An entry placed among entries of other indexes keeps them rising. -/
theorem smIns_rising (m : SMap α) (k : Nat) (v : α) (h : m.Pairwise (fun p q => p.1 < q.1))
    (hk : ∀ p ∈ m, p.1 ≠ k) : (smIns m k v).Pairwise (fun p q => p.1 < q.1) := by
  induction m with
  | nil => simp [smIns]
  | cons q m ih =>
    obtain ⟨hq, hm⟩ := List.pairwise_cons.1 h
    simp only [smIns]
    split
    · rename_i hlt
      refine List.pairwise_cons.2 ⟨fun p hp => ?_, h⟩
      rcases List.mem_cons.1 hp with rfl | hp
      · exact hlt
      · exact Nat.lt_trans hlt (hq p hp)
    · rename_i hlt
      have hne := hk q (by simp)
      refine List.pairwise_cons.2 ⟨fun p hp => ?_, ih hm fun p hp => hk p (by simp [hp])⟩
      rcases (mem_smIns m k v p).1 hp with rfl | hp
      · simp only at hlt ⊢; omega
      · exact hq p hp

/-- A write keeps the canonical form. -/
theorem smPut_wf [DecidableEq α] {d : α} {m : SMap α} (k : Nat) (v : α) (h : smWf d m) :
    smWf d (smPut d m k v) := by
  have he : smWf d (smErase m k) :=
    ⟨h.1.filter _, fun p hp => h.2 p ((mem_smErase m k p).1 hp).1⟩
  unfold smPut
  split
  · exact he
  · rename_i hv
    refine ⟨smIns_rising _ k v he.1 fun p hp => ((mem_smErase m k p).1 hp).2, fun p hp => ?_⟩
    rcases (mem_smIns _ k v p).1 hp with rfl | hp
    · exact hv
    · exact he.2 p hp

/-- Writes of consecutive indexes keep the canonical form. -/
theorem smPutAll_wf [DecidableEq α] {d : α} (vs : List α) {m : SMap α} (k : Nat) (h : smWf d m) :
    smWf d (smPutAll d m k vs) := by
  induction vs generalizing m k with
  | nil => exact h
  | cons v vs ih => exact ih (k + 1) (smPut_wf k v h)

/-- The empty map is in canonical form. -/
theorem smWf_nil (d : α) : smWf d ([] : SMap α) := by simp [smWf]

/-- Reading any index after consecutive writes. -/
theorem smGet_putAll [DecidableEq α] (d : α) (vs : List α) (m : SMap α) (k j : Nat) :
    smGet d (smPutAll d m k vs) j =
      if k ≤ j ∧ j < k + vs.length then vs.getD (j - k) d else smGet d m j := by
  induction vs generalizing m k with
  | nil =>
    have : ¬(k ≤ j ∧ j < k + ([] : List α).length) := by simp
    simp [smPutAll]
  | cons v vs ih =>
    rw [smPutAll, ih, smGet_put]
    by_cases hj : j = k
    · subst hj
      simp
    · by_cases hk : k + 1 ≤ j ∧ j < k + 1 + vs.length
      · have h2 : k ≤ j ∧ j < k + (v :: vs).length := by simp only [List.length_cons]; omega
        rw [if_pos hk, if_pos h2]
        have : j - k = (j - (k + 1)) + 1 := by omega
        rw [this]; rfl
      · have h2 : ¬(k ≤ j ∧ j < k + (v :: vs).length) := by simp only [List.length_cons]; omega
        rw [if_neg hk, if_neg h2, if_neg hj]

/-- A map in canonical form whose first index is above k does not list k. -/
theorem smGet_below (d : α) (m : SMap α) (k : Nat) (h : ∀ p ∈ m, k < p.1) : smGet d m k = d := by
  induction m with
  | nil => rfl
  | cons p m ih =>
    have hp := h p (by simp)
    have : p.1 ≠ k := by omega
    simp [smGet, this, ih fun q hq => h q (by simp [hq])]

/-- Maps in canonical form that hold the same at every index are equal. -/
theorem smWf_ext {d : α} {m n : SMap α} (hm : smWf d m) (hn : smWf d n)
    (h : ∀ k, smGet d m k = smGet d n k) : m = n := by
  induction m generalizing n with
  | nil =>
    cases n with
    | nil => rfl
    | cons q n =>
      have := h q.1
      simp only [smGet, if_true] at this
      exact absurd this.symm (hn.2 q (by simp))
  | cons p m ih =>
    obtain ⟨hp, hm'⟩ := List.pairwise_cons.1 hm.1
    cases n with
    | nil =>
      have := h p.1
      simp only [smGet, if_true] at this
      exact absurd this (hm.2 p (by simp))
    | cons q n =>
      obtain ⟨hq, hn'⟩ := List.pairwise_cons.1 hn.1
      have h1 := h p.1
      have h2 := h q.1
      simp only [smGet, if_true] at h1 h2
      have hpq : p.1 = q.1 := by
        rcases Nat.lt_trichotomy p.1 q.1 with hlt | heq | hgt
        · rw [if_neg (by omega), smGet_below d n p.1 fun r hr => Nat.lt_trans hlt (hq r hr)] at h1
          exact absurd h1 (hm.2 p (by simp))
        · exact heq
        · rw [if_neg (by omega), smGet_below d m q.1 fun r hr => Nat.lt_trans hgt (hp r hr)] at h2
          exact absurd h2.symm (hn.2 q (by simp))
      rw [if_pos hpq.symm] at h1
      have hpair : p = q := Prod.ext hpq h1
      subst hpair
      refine congrArg _ (ih ⟨hm', fun r hr => hm.2 r (by simp [hr])⟩ ⟨hn', fun r hr => hn.2 r (by simp [hr])⟩ ?_)
      intro k
      by_cases hk : p.1 = k
      · subst hk
        rw [smGet_below d m _ hp, smGet_below d n _ hq]
      · have := h k
        simpa only [smGet, if_neg hk] using this

end Sys2Proof.Machine
end

