-- ==== Sys2Proof/Laws/State.lean ====
section
/-!
SUPPORT. What each update of the state leaves alone, field by field, and what a context, core or die holds
after it is changed: the lemmas that a proof uses in place of unfolding an update.
-/

namespace Sys2Proof.Machine

open Sys2Proof

variable (s : State)

/-! ### Fields that an update leaves alone -/

@[simp] theorem setCtx_cores (cx : Nat) (c : Ctx) : (s.setCtx cx c).cores = s.cores := rfl
@[simp] theorem setCtx_dies (cx : Nat) (c : Ctx) : (s.setCtx cx c).dies = s.dies := rfl
@[simp] theorem setCtx_hub (cx : Nat) (c : Ctx) : (s.setCtx cx c).hub = s.hub := rfl
@[simp] theorem setCtx_mem (cx : Nat) (c : Ctx) : (s.setCtx cx c).mem = s.mem := rfl
@[simp] theorem setCtx_pois (cx : Nat) (c : Ctx) : (s.setCtx cx c).pois = s.pois := rfl
@[simp] theorem setCtx_locks (cx : Nat) (c : Ctx) : (s.setCtx cx c).locks = s.locks := rfl
@[simp] theorem setCtx_hostMem (cx : Nat) (c : Ctx) : (s.setCtx cx c).hostMem = s.hostMem := rfl
@[simp] theorem setCtx_hpois (cx : Nat) (c : Ctx) : (s.setCtx cx c).hpois = s.hpois := rfl
@[simp] theorem setCtx_filters (cx : Nat) (c : Ctx) : (s.setCtx cx c).filters = s.filters := rfl
@[simp] theorem setCtx_reqs (cx : Nat) (c : Ctx) : (s.setCtx cx c).reqs = s.reqs := rfl
@[simp] theorem setCtx_nextReq (cx : Nat) (c : Ctx) : (s.setCtx cx c).nextReq = s.nextReq := rfl
@[simp] theorem setCtx_faults (cx : Nat) (c : Ctx) : (s.setCtx cx c).faults = s.faults := rfl
@[simp] theorem setCtx_nextFlt (cx : Nat) (c : Ctx) : (s.setCtx cx c).nextFlt = s.nextFlt := rfl
@[simp] theorem setCtx_agenda (cx : Nat) (c : Ctx) : (s.setCtx cx c).agenda = s.agenda := rfl
@[simp] theorem setCtx_focus (cx : Nat) (c : Ctx) : (s.setCtx cx c).focus = s.focus := rfl
@[simp] theorem setCtx_free (cx : Nat) (c : Ctx) : (s.setCtx cx c).free = s.free := rfl

@[simp] theorem modCtx_cores (cx : Nat) (f : Ctx → Ctx) : (s.modCtx cx f).cores = s.cores := rfl
@[simp] theorem modCtx_dies (cx : Nat) (f : Ctx → Ctx) : (s.modCtx cx f).dies = s.dies := rfl
@[simp] theorem modCtx_hub (cx : Nat) (f : Ctx → Ctx) : (s.modCtx cx f).hub = s.hub := rfl
@[simp] theorem modCtx_mem (cx : Nat) (f : Ctx → Ctx) : (s.modCtx cx f).mem = s.mem := rfl
@[simp] theorem modCtx_pois (cx : Nat) (f : Ctx → Ctx) : (s.modCtx cx f).pois = s.pois := rfl
@[simp] theorem modCtx_locks (cx : Nat) (f : Ctx → Ctx) : (s.modCtx cx f).locks = s.locks := rfl
@[simp] theorem modCtx_hostMem (cx : Nat) (f : Ctx → Ctx) : (s.modCtx cx f).hostMem = s.hostMem := rfl
@[simp] theorem modCtx_hpois (cx : Nat) (f : Ctx → Ctx) : (s.modCtx cx f).hpois = s.hpois := rfl
@[simp] theorem modCtx_filters (cx : Nat) (f : Ctx → Ctx) : (s.modCtx cx f).filters = s.filters := rfl
@[simp] theorem modCtx_reqs (cx : Nat) (f : Ctx → Ctx) : (s.modCtx cx f).reqs = s.reqs := rfl
@[simp] theorem modCtx_nextReq (cx : Nat) (f : Ctx → Ctx) : (s.modCtx cx f).nextReq = s.nextReq := rfl
@[simp] theorem modCtx_faults (cx : Nat) (f : Ctx → Ctx) : (s.modCtx cx f).faults = s.faults := rfl
@[simp] theorem modCtx_nextFlt (cx : Nat) (f : Ctx → Ctx) : (s.modCtx cx f).nextFlt = s.nextFlt := rfl
@[simp] theorem modCtx_agenda (cx : Nat) (f : Ctx → Ctx) : (s.modCtx cx f).agenda = s.agenda := rfl
@[simp] theorem modCtx_focus (cx : Nat) (f : Ctx → Ctx) : (s.modCtx cx f).focus = s.focus := rfl
@[simp] theorem modCtx_free (cx : Nat) (f : Ctx → Ctx) : (s.modCtx cx f).free = s.free := rfl

@[simp] theorem setCore_ctxs (g : Nat) (c : CoreSt) : (s.setCore g c).ctxs = s.ctxs := rfl
@[simp] theorem setCore_dies (g : Nat) (c : CoreSt) : (s.setCore g c).dies = s.dies := rfl
@[simp] theorem setCore_hub (g : Nat) (c : CoreSt) : (s.setCore g c).hub = s.hub := rfl
@[simp] theorem setCore_mem (g : Nat) (c : CoreSt) : (s.setCore g c).mem = s.mem := rfl
@[simp] theorem setCore_pois (g : Nat) (c : CoreSt) : (s.setCore g c).pois = s.pois := rfl
@[simp] theorem setCore_locks (g : Nat) (c : CoreSt) : (s.setCore g c).locks = s.locks := rfl
@[simp] theorem setCore_hostMem (g : Nat) (c : CoreSt) : (s.setCore g c).hostMem = s.hostMem := rfl
@[simp] theorem setCore_hpois (g : Nat) (c : CoreSt) : (s.setCore g c).hpois = s.hpois := rfl
@[simp] theorem setCore_filters (g : Nat) (c : CoreSt) : (s.setCore g c).filters = s.filters := rfl
@[simp] theorem setCore_reqs (g : Nat) (c : CoreSt) : (s.setCore g c).reqs = s.reqs := rfl
@[simp] theorem setCore_nextReq (g : Nat) (c : CoreSt) : (s.setCore g c).nextReq = s.nextReq := rfl
@[simp] theorem setCore_faults (g : Nat) (c : CoreSt) : (s.setCore g c).faults = s.faults := rfl
@[simp] theorem setCore_nextFlt (g : Nat) (c : CoreSt) : (s.setCore g c).nextFlt = s.nextFlt := rfl
@[simp] theorem setCore_agenda (g : Nat) (c : CoreSt) : (s.setCore g c).agenda = s.agenda := rfl
@[simp] theorem setCore_focus (g : Nat) (c : CoreSt) : (s.setCore g c).focus = s.focus := rfl
@[simp] theorem setCore_free (g : Nat) (c : CoreSt) : (s.setCore g c).free = s.free := rfl

@[simp] theorem modCore_ctxs (g : Nat) (f : CoreSt → CoreSt) : (s.modCore g f).ctxs = s.ctxs := rfl
@[simp] theorem modCore_dies (g : Nat) (f : CoreSt → CoreSt) : (s.modCore g f).dies = s.dies := rfl
@[simp] theorem modCore_hub (g : Nat) (f : CoreSt → CoreSt) : (s.modCore g f).hub = s.hub := rfl
@[simp] theorem modCore_mem (g : Nat) (f : CoreSt → CoreSt) : (s.modCore g f).mem = s.mem := rfl
@[simp] theorem modCore_pois (g : Nat) (f : CoreSt → CoreSt) : (s.modCore g f).pois = s.pois := rfl
@[simp] theorem modCore_locks (g : Nat) (f : CoreSt → CoreSt) : (s.modCore g f).locks = s.locks := rfl
@[simp] theorem modCore_hostMem (g : Nat) (f : CoreSt → CoreSt) : (s.modCore g f).hostMem = s.hostMem := rfl
@[simp] theorem modCore_hpois (g : Nat) (f : CoreSt → CoreSt) : (s.modCore g f).hpois = s.hpois := rfl
@[simp] theorem modCore_filters (g : Nat) (f : CoreSt → CoreSt) : (s.modCore g f).filters = s.filters := rfl
@[simp] theorem modCore_reqs (g : Nat) (f : CoreSt → CoreSt) : (s.modCore g f).reqs = s.reqs := rfl
@[simp] theorem modCore_nextReq (g : Nat) (f : CoreSt → CoreSt) : (s.modCore g f).nextReq = s.nextReq := rfl
@[simp] theorem modCore_faults (g : Nat) (f : CoreSt → CoreSt) : (s.modCore g f).faults = s.faults := rfl
@[simp] theorem modCore_nextFlt (g : Nat) (f : CoreSt → CoreSt) : (s.modCore g f).nextFlt = s.nextFlt := rfl
@[simp] theorem modCore_agenda (g : Nat) (f : CoreSt → CoreSt) : (s.modCore g f).agenda = s.agenda := rfl
@[simp] theorem modCore_focus (g : Nat) (f : CoreSt → CoreSt) : (s.modCore g f).focus = s.focus := rfl
@[simp] theorem modCore_free (g : Nat) (f : CoreSt → CoreSt) : (s.modCore g f).free = s.free := rfl

@[simp] theorem setDie_ctxs (d : Nat) (c : DieSt) : (s.setDie d c).ctxs = s.ctxs := rfl
@[simp] theorem setDie_cores (d : Nat) (c : DieSt) : (s.setDie d c).cores = s.cores := rfl
@[simp] theorem setDie_hub (d : Nat) (c : DieSt) : (s.setDie d c).hub = s.hub := rfl
@[simp] theorem setDie_mem (d : Nat) (c : DieSt) : (s.setDie d c).mem = s.mem := rfl
@[simp] theorem setDie_pois (d : Nat) (c : DieSt) : (s.setDie d c).pois = s.pois := rfl
@[simp] theorem setDie_locks (d : Nat) (c : DieSt) : (s.setDie d c).locks = s.locks := rfl
@[simp] theorem setDie_hostMem (d : Nat) (c : DieSt) : (s.setDie d c).hostMem = s.hostMem := rfl
@[simp] theorem setDie_hpois (d : Nat) (c : DieSt) : (s.setDie d c).hpois = s.hpois := rfl
@[simp] theorem setDie_filters (d : Nat) (c : DieSt) : (s.setDie d c).filters = s.filters := rfl
@[simp] theorem setDie_reqs (d : Nat) (c : DieSt) : (s.setDie d c).reqs = s.reqs := rfl
@[simp] theorem setDie_nextReq (d : Nat) (c : DieSt) : (s.setDie d c).nextReq = s.nextReq := rfl
@[simp] theorem setDie_faults (d : Nat) (c : DieSt) : (s.setDie d c).faults = s.faults := rfl
@[simp] theorem setDie_nextFlt (d : Nat) (c : DieSt) : (s.setDie d c).nextFlt = s.nextFlt := rfl
@[simp] theorem setDie_agenda (d : Nat) (c : DieSt) : (s.setDie d c).agenda = s.agenda := rfl
@[simp] theorem setDie_focus (d : Nat) (c : DieSt) : (s.setDie d c).focus = s.focus := rfl
@[simp] theorem setDie_free (d : Nat) (c : DieSt) : (s.setDie d c).free = s.free := rfl

@[simp] theorem modDie_ctxs (d : Nat) (f : DieSt → DieSt) : (s.modDie d f).ctxs = s.ctxs := rfl
@[simp] theorem modDie_cores (d : Nat) (f : DieSt → DieSt) : (s.modDie d f).cores = s.cores := rfl
@[simp] theorem modDie_hub (d : Nat) (f : DieSt → DieSt) : (s.modDie d f).hub = s.hub := rfl
@[simp] theorem modDie_mem (d : Nat) (f : DieSt → DieSt) : (s.modDie d f).mem = s.mem := rfl
@[simp] theorem modDie_pois (d : Nat) (f : DieSt → DieSt) : (s.modDie d f).pois = s.pois := rfl
@[simp] theorem modDie_locks (d : Nat) (f : DieSt → DieSt) : (s.modDie d f).locks = s.locks := rfl
@[simp] theorem modDie_hostMem (d : Nat) (f : DieSt → DieSt) : (s.modDie d f).hostMem = s.hostMem := rfl
@[simp] theorem modDie_hpois (d : Nat) (f : DieSt → DieSt) : (s.modDie d f).hpois = s.hpois := rfl
@[simp] theorem modDie_filters (d : Nat) (f : DieSt → DieSt) : (s.modDie d f).filters = s.filters := rfl
@[simp] theorem modDie_reqs (d : Nat) (f : DieSt → DieSt) : (s.modDie d f).reqs = s.reqs := rfl
@[simp] theorem modDie_nextReq (d : Nat) (f : DieSt → DieSt) : (s.modDie d f).nextReq = s.nextReq := rfl
@[simp] theorem modDie_faults (d : Nat) (f : DieSt → DieSt) : (s.modDie d f).faults = s.faults := rfl
@[simp] theorem modDie_nextFlt (d : Nat) (f : DieSt → DieSt) : (s.modDie d f).nextFlt = s.nextFlt := rfl
@[simp] theorem modDie_agenda (d : Nat) (f : DieSt → DieSt) : (s.modDie d f).agenda = s.agenda := rfl
@[simp] theorem modDie_focus (d : Nat) (f : DieSt → DieSt) : (s.modDie d f).focus = s.focus := rfl
@[simp] theorem modDie_free (d : Nat) (f : DieSt → DieSt) : (s.modDie d f).free = s.free := rfl

@[simp] theorem modHub_ctxs (f : Hub → Hub) : (s.modHub f).ctxs = s.ctxs := rfl
@[simp] theorem modHub_cores (f : Hub → Hub) : (s.modHub f).cores = s.cores := rfl
@[simp] theorem modHub_dies (f : Hub → Hub) : (s.modHub f).dies = s.dies := rfl
@[simp] theorem modHub_mem (f : Hub → Hub) : (s.modHub f).mem = s.mem := rfl
@[simp] theorem modHub_pois (f : Hub → Hub) : (s.modHub f).pois = s.pois := rfl
@[simp] theorem modHub_locks (f : Hub → Hub) : (s.modHub f).locks = s.locks := rfl
@[simp] theorem modHub_hostMem (f : Hub → Hub) : (s.modHub f).hostMem = s.hostMem := rfl
@[simp] theorem modHub_hpois (f : Hub → Hub) : (s.modHub f).hpois = s.hpois := rfl
@[simp] theorem modHub_filters (f : Hub → Hub) : (s.modHub f).filters = s.filters := rfl
@[simp] theorem modHub_reqs (f : Hub → Hub) : (s.modHub f).reqs = s.reqs := rfl
@[simp] theorem modHub_nextReq (f : Hub → Hub) : (s.modHub f).nextReq = s.nextReq := rfl
@[simp] theorem modHub_faults (f : Hub → Hub) : (s.modHub f).faults = s.faults := rfl
@[simp] theorem modHub_nextFlt (f : Hub → Hub) : (s.modHub f).nextFlt = s.nextFlt := rfl
@[simp] theorem modHub_agenda (f : Hub → Hub) : (s.modHub f).agenda = s.agenda := rfl
@[simp] theorem modHub_focus (f : Hub → Hub) : (s.modHub f).focus = s.focus := rfl
@[simp] theorem modHub_free (f : Hub → Hub) : (s.modHub f).free = s.free := rfl

@[simp] theorem wrX_cores (cx : Nat) (r : BitVec 5) (v : Word) (p : Bool) : (s.wrX cx r v p).cores = s.cores := rfl
@[simp] theorem wrX_dies (cx : Nat) (r : BitVec 5) (v : Word) (p : Bool) : (s.wrX cx r v p).dies = s.dies := rfl
@[simp] theorem wrX_hub (cx : Nat) (r : BitVec 5) (v : Word) (p : Bool) : (s.wrX cx r v p).hub = s.hub := rfl
@[simp] theorem wrX_mem (cx : Nat) (r : BitVec 5) (v : Word) (p : Bool) : (s.wrX cx r v p).mem = s.mem := rfl
@[simp] theorem wrX_pois (cx : Nat) (r : BitVec 5) (v : Word) (p : Bool) : (s.wrX cx r v p).pois = s.pois := rfl
@[simp] theorem wrX_locks (cx : Nat) (r : BitVec 5) (v : Word) (p : Bool) : (s.wrX cx r v p).locks = s.locks := rfl
@[simp] theorem wrX_hostMem (cx : Nat) (r : BitVec 5) (v : Word) (p : Bool) : (s.wrX cx r v p).hostMem = s.hostMem := rfl
@[simp] theorem wrX_hpois (cx : Nat) (r : BitVec 5) (v : Word) (p : Bool) : (s.wrX cx r v p).hpois = s.hpois := rfl
@[simp] theorem wrX_filters (cx : Nat) (r : BitVec 5) (v : Word) (p : Bool) : (s.wrX cx r v p).filters = s.filters := rfl
@[simp] theorem wrX_reqs (cx : Nat) (r : BitVec 5) (v : Word) (p : Bool) : (s.wrX cx r v p).reqs = s.reqs := rfl
@[simp] theorem wrX_nextReq (cx : Nat) (r : BitVec 5) (v : Word) (p : Bool) : (s.wrX cx r v p).nextReq = s.nextReq := rfl
@[simp] theorem wrX_faults (cx : Nat) (r : BitVec 5) (v : Word) (p : Bool) : (s.wrX cx r v p).faults = s.faults := rfl
@[simp] theorem wrX_nextFlt (cx : Nat) (r : BitVec 5) (v : Word) (p : Bool) : (s.wrX cx r v p).nextFlt = s.nextFlt := rfl
@[simp] theorem wrX_agenda (cx : Nat) (r : BitVec 5) (v : Word) (p : Bool) : (s.wrX cx r v p).agenda = s.agenda := rfl
@[simp] theorem wrX_focus (cx : Nat) (r : BitVec 5) (v : Word) (p : Bool) : (s.wrX cx r v p).focus = s.focus := rfl
@[simp] theorem wrX_free (cx : Nat) (r : BitVec 5) (v : Word) (p : Bool) : (s.wrX cx r v p).free = s.free := rfl

@[simp] theorem block_cores (cx : Nat) (w : Block) : (s.block cx w).cores = s.cores := rfl
@[simp] theorem block_dies (cx : Nat) (w : Block) : (s.block cx w).dies = s.dies := rfl
@[simp] theorem block_hub (cx : Nat) (w : Block) : (s.block cx w).hub = s.hub := rfl
@[simp] theorem block_mem (cx : Nat) (w : Block) : (s.block cx w).mem = s.mem := rfl
@[simp] theorem block_pois (cx : Nat) (w : Block) : (s.block cx w).pois = s.pois := rfl
@[simp] theorem block_locks (cx : Nat) (w : Block) : (s.block cx w).locks = s.locks := rfl
@[simp] theorem block_hostMem (cx : Nat) (w : Block) : (s.block cx w).hostMem = s.hostMem := rfl
@[simp] theorem block_hpois (cx : Nat) (w : Block) : (s.block cx w).hpois = s.hpois := rfl
@[simp] theorem block_filters (cx : Nat) (w : Block) : (s.block cx w).filters = s.filters := rfl
@[simp] theorem block_reqs (cx : Nat) (w : Block) : (s.block cx w).reqs = s.reqs := rfl
@[simp] theorem block_nextReq (cx : Nat) (w : Block) : (s.block cx w).nextReq = s.nextReq := rfl
@[simp] theorem block_faults (cx : Nat) (w : Block) : (s.block cx w).faults = s.faults := rfl
@[simp] theorem block_nextFlt (cx : Nat) (w : Block) : (s.block cx w).nextFlt = s.nextFlt := rfl
@[simp] theorem block_agenda (cx : Nat) (w : Block) : (s.block cx w).agenda = s.agenda := rfl
@[simp] theorem block_focus (cx : Nat) (w : Block) : (s.block cx w).focus = s.focus := rfl
@[simp] theorem block_free (cx : Nat) (w : Block) : (s.block cx w).free = s.free := rfl

@[simp] theorem setKern_ctxs (g : Nat) (k : Option Kernel) : (s.setKern g k).ctxs = s.ctxs := rfl
@[simp] theorem setKern_dies (g : Nat) (k : Option Kernel) : (s.setKern g k).dies = s.dies := rfl
@[simp] theorem setKern_hub (g : Nat) (k : Option Kernel) : (s.setKern g k).hub = s.hub := rfl
@[simp] theorem setKern_mem (g : Nat) (k : Option Kernel) : (s.setKern g k).mem = s.mem := rfl
@[simp] theorem setKern_pois (g : Nat) (k : Option Kernel) : (s.setKern g k).pois = s.pois := rfl
@[simp] theorem setKern_locks (g : Nat) (k : Option Kernel) : (s.setKern g k).locks = s.locks := rfl
@[simp] theorem setKern_hostMem (g : Nat) (k : Option Kernel) : (s.setKern g k).hostMem = s.hostMem := rfl
@[simp] theorem setKern_hpois (g : Nat) (k : Option Kernel) : (s.setKern g k).hpois = s.hpois := rfl
@[simp] theorem setKern_filters (g : Nat) (k : Option Kernel) : (s.setKern g k).filters = s.filters := rfl
@[simp] theorem setKern_reqs (g : Nat) (k : Option Kernel) : (s.setKern g k).reqs = s.reqs := rfl
@[simp] theorem setKern_nextReq (g : Nat) (k : Option Kernel) : (s.setKern g k).nextReq = s.nextReq := rfl
@[simp] theorem setKern_faults (g : Nat) (k : Option Kernel) : (s.setKern g k).faults = s.faults := rfl
@[simp] theorem setKern_nextFlt (g : Nat) (k : Option Kernel) : (s.setKern g k).nextFlt = s.nextFlt := rfl
@[simp] theorem setKern_agenda (g : Nat) (k : Option Kernel) : (s.setKern g k).agenda = s.agenda := rfl
@[simp] theorem setKern_focus (g : Nat) (k : Option Kernel) : (s.setKern g k).focus = s.focus := rfl
@[simp] theorem setKern_free (g : Nat) (k : Option Kernel) : (s.setKern g k).free = s.free := rfl

@[simp] theorem takeFree_ctxs : (s.takeFree.2).ctxs = s.ctxs := rfl
@[simp] theorem takeFree_cores : (s.takeFree.2).cores = s.cores := rfl
@[simp] theorem takeFree_dies : (s.takeFree.2).dies = s.dies := rfl
@[simp] theorem takeFree_hub : (s.takeFree.2).hub = s.hub := rfl
@[simp] theorem takeFree_mem : (s.takeFree.2).mem = s.mem := rfl
@[simp] theorem takeFree_pois : (s.takeFree.2).pois = s.pois := rfl
@[simp] theorem takeFree_locks : (s.takeFree.2).locks = s.locks := rfl
@[simp] theorem takeFree_hostMem : (s.takeFree.2).hostMem = s.hostMem := rfl
@[simp] theorem takeFree_hpois : (s.takeFree.2).hpois = s.hpois := rfl
@[simp] theorem takeFree_filters : (s.takeFree.2).filters = s.filters := rfl
@[simp] theorem takeFree_reqs : (s.takeFree.2).reqs = s.reqs := rfl
@[simp] theorem takeFree_nextReq : (s.takeFree.2).nextReq = s.nextReq := rfl
@[simp] theorem takeFree_faults : (s.takeFree.2).faults = s.faults := rfl
@[simp] theorem takeFree_nextFlt : (s.takeFree.2).nextFlt = s.nextFlt := rfl
@[simp] theorem takeFree_agenda : (s.takeFree.2).agenda = s.agenda := rfl
@[simp] theorem takeFree_focus : (s.takeFree.2).focus = s.focus := rfl

@[simp] theorem addReq_ctxs (r : Req) : (s.addReq r).ctxs = s.ctxs := rfl
@[simp] theorem addReq_cores (r : Req) : (s.addReq r).cores = s.cores := rfl
@[simp] theorem addReq_dies (r : Req) : (s.addReq r).dies = s.dies := rfl
@[simp] theorem addReq_hub (r : Req) : (s.addReq r).hub = s.hub := rfl
@[simp] theorem addReq_mem (r : Req) : (s.addReq r).mem = s.mem := rfl
@[simp] theorem addReq_pois (r : Req) : (s.addReq r).pois = s.pois := rfl
@[simp] theorem addReq_locks (r : Req) : (s.addReq r).locks = s.locks := rfl
@[simp] theorem addReq_hostMem (r : Req) : (s.addReq r).hostMem = s.hostMem := rfl
@[simp] theorem addReq_hpois (r : Req) : (s.addReq r).hpois = s.hpois := rfl
@[simp] theorem addReq_filters (r : Req) : (s.addReq r).filters = s.filters := rfl
@[simp] theorem addReq_faults (r : Req) : (s.addReq r).faults = s.faults := rfl
@[simp] theorem addReq_nextFlt (r : Req) : (s.addReq r).nextFlt = s.nextFlt := rfl
@[simp] theorem addReq_agenda (r : Req) : (s.addReq r).agenda = s.agenda := rfl
@[simp] theorem addReq_focus (r : Req) : (s.addReq r).focus = s.focus := rfl
@[simp] theorem addReq_free (r : Req) : (s.addReq r).free = s.free := rfl

@[simp] theorem modReq_ctxs (i : Nat) (f : Req → Req) : (s.modReq i f).ctxs = s.ctxs := rfl
@[simp] theorem modReq_cores (i : Nat) (f : Req → Req) : (s.modReq i f).cores = s.cores := rfl
@[simp] theorem modReq_dies (i : Nat) (f : Req → Req) : (s.modReq i f).dies = s.dies := rfl
@[simp] theorem modReq_hub (i : Nat) (f : Req → Req) : (s.modReq i f).hub = s.hub := rfl
@[simp] theorem modReq_mem (i : Nat) (f : Req → Req) : (s.modReq i f).mem = s.mem := rfl
@[simp] theorem modReq_pois (i : Nat) (f : Req → Req) : (s.modReq i f).pois = s.pois := rfl
@[simp] theorem modReq_locks (i : Nat) (f : Req → Req) : (s.modReq i f).locks = s.locks := rfl
@[simp] theorem modReq_hostMem (i : Nat) (f : Req → Req) : (s.modReq i f).hostMem = s.hostMem := rfl
@[simp] theorem modReq_hpois (i : Nat) (f : Req → Req) : (s.modReq i f).hpois = s.hpois := rfl
@[simp] theorem modReq_filters (i : Nat) (f : Req → Req) : (s.modReq i f).filters = s.filters := rfl
@[simp] theorem modReq_nextReq (i : Nat) (f : Req → Req) : (s.modReq i f).nextReq = s.nextReq := rfl
@[simp] theorem modReq_faults (i : Nat) (f : Req → Req) : (s.modReq i f).faults = s.faults := rfl
@[simp] theorem modReq_nextFlt (i : Nat) (f : Req → Req) : (s.modReq i f).nextFlt = s.nextFlt := rfl
@[simp] theorem modReq_agenda (i : Nat) (f : Req → Req) : (s.modReq i f).agenda = s.agenda := rfl
@[simp] theorem modReq_focus (i : Nat) (f : Req → Req) : (s.modReq i f).focus = s.focus := rfl
@[simp] theorem modReq_free (i : Nat) (f : Req → Req) : (s.modReq i f).free = s.free := rfl

@[simp] theorem dropReq_ctxs (i : Nat) : (s.dropReq i).ctxs = s.ctxs := rfl
@[simp] theorem dropReq_cores (i : Nat) : (s.dropReq i).cores = s.cores := rfl
@[simp] theorem dropReq_dies (i : Nat) : (s.dropReq i).dies = s.dies := rfl
@[simp] theorem dropReq_hub (i : Nat) : (s.dropReq i).hub = s.hub := rfl
@[simp] theorem dropReq_mem (i : Nat) : (s.dropReq i).mem = s.mem := rfl
@[simp] theorem dropReq_pois (i : Nat) : (s.dropReq i).pois = s.pois := rfl
@[simp] theorem dropReq_locks (i : Nat) : (s.dropReq i).locks = s.locks := rfl
@[simp] theorem dropReq_hostMem (i : Nat) : (s.dropReq i).hostMem = s.hostMem := rfl
@[simp] theorem dropReq_hpois (i : Nat) : (s.dropReq i).hpois = s.hpois := rfl
@[simp] theorem dropReq_filters (i : Nat) : (s.dropReq i).filters = s.filters := rfl
@[simp] theorem dropReq_nextReq (i : Nat) : (s.dropReq i).nextReq = s.nextReq := rfl
@[simp] theorem dropReq_faults (i : Nat) : (s.dropReq i).faults = s.faults := rfl
@[simp] theorem dropReq_nextFlt (i : Nat) : (s.dropReq i).nextFlt = s.nextFlt := rfl
@[simp] theorem dropReq_agenda (i : Nat) : (s.dropReq i).agenda = s.agenda := rfl
@[simp] theorem dropReq_focus (i : Nat) : (s.dropReq i).focus = s.focus := rfl
@[simp] theorem dropReq_free (i : Nat) : (s.dropReq i).free = s.free := rfl

@[simp] theorem wrMemHost_ctxs (a : Nat) (bs : List Byte) : (s.wrMem true a bs).ctxs = s.ctxs := rfl
@[simp] theorem wrMemHost_cores (a : Nat) (bs : List Byte) : (s.wrMem true a bs).cores = s.cores := rfl
@[simp] theorem wrMemHost_dies (a : Nat) (bs : List Byte) : (s.wrMem true a bs).dies = s.dies := rfl
@[simp] theorem wrMemHost_hub (a : Nat) (bs : List Byte) : (s.wrMem true a bs).hub = s.hub := rfl
@[simp] theorem wrMemHost_mem (a : Nat) (bs : List Byte) : (s.wrMem true a bs).mem = s.mem := rfl
@[simp] theorem wrMemHost_pois (a : Nat) (bs : List Byte) : (s.wrMem true a bs).pois = s.pois := rfl
@[simp] theorem wrMemHost_locks (a : Nat) (bs : List Byte) : (s.wrMem true a bs).locks = s.locks := rfl
@[simp] theorem wrMemHost_hpois (a : Nat) (bs : List Byte) : (s.wrMem true a bs).hpois = s.hpois := rfl
@[simp] theorem wrMemHost_filters (a : Nat) (bs : List Byte) : (s.wrMem true a bs).filters = s.filters := rfl
@[simp] theorem wrMemHost_reqs (a : Nat) (bs : List Byte) : (s.wrMem true a bs).reqs = s.reqs := rfl
@[simp] theorem wrMemHost_nextReq (a : Nat) (bs : List Byte) : (s.wrMem true a bs).nextReq = s.nextReq := rfl
@[simp] theorem wrMemHost_faults (a : Nat) (bs : List Byte) : (s.wrMem true a bs).faults = s.faults := rfl
@[simp] theorem wrMemHost_nextFlt (a : Nat) (bs : List Byte) : (s.wrMem true a bs).nextFlt = s.nextFlt := rfl
@[simp] theorem wrMemHost_agenda (a : Nat) (bs : List Byte) : (s.wrMem true a bs).agenda = s.agenda := rfl
@[simp] theorem wrMemHost_focus (a : Nat) (bs : List Byte) : (s.wrMem true a bs).focus = s.focus := rfl
@[simp] theorem wrMemHost_free (a : Nat) (bs : List Byte) : (s.wrMem true a bs).free = s.free := rfl

@[simp] theorem wrMemDev_ctxs (a : Nat) (bs : List Byte) : (s.wrMem false a bs).ctxs = s.ctxs := rfl
@[simp] theorem wrMemDev_cores (a : Nat) (bs : List Byte) : (s.wrMem false a bs).cores = s.cores := rfl
@[simp] theorem wrMemDev_dies (a : Nat) (bs : List Byte) : (s.wrMem false a bs).dies = s.dies := rfl
@[simp] theorem wrMemDev_hub (a : Nat) (bs : List Byte) : (s.wrMem false a bs).hub = s.hub := rfl
@[simp] theorem wrMemDev_pois (a : Nat) (bs : List Byte) : (s.wrMem false a bs).pois = s.pois := rfl
@[simp] theorem wrMemDev_locks (a : Nat) (bs : List Byte) : (s.wrMem false a bs).locks = s.locks := rfl
@[simp] theorem wrMemDev_hostMem (a : Nat) (bs : List Byte) : (s.wrMem false a bs).hostMem = s.hostMem := rfl
@[simp] theorem wrMemDev_hpois (a : Nat) (bs : List Byte) : (s.wrMem false a bs).hpois = s.hpois := rfl
@[simp] theorem wrMemDev_reqs (a : Nat) (bs : List Byte) : (s.wrMem false a bs).reqs = s.reqs := rfl
@[simp] theorem wrMemDev_nextReq (a : Nat) (bs : List Byte) : (s.wrMem false a bs).nextReq = s.nextReq := rfl
@[simp] theorem wrMemDev_faults (a : Nat) (bs : List Byte) : (s.wrMem false a bs).faults = s.faults := rfl
@[simp] theorem wrMemDev_nextFlt (a : Nat) (bs : List Byte) : (s.wrMem false a bs).nextFlt = s.nextFlt := rfl
@[simp] theorem wrMemDev_agenda (a : Nat) (bs : List Byte) : (s.wrMem false a bs).agenda = s.agenda := rfl
@[simp] theorem wrMemDev_focus (a : Nat) (bs : List Byte) : (s.wrMem false a bs).focus = s.focus := rfl
@[simp] theorem wrMemDev_free (a : Nat) (bs : List Byte) : (s.wrMem false a bs).free = s.free := rfl

@[simp] theorem markHost_ctxs (a : Nat) (b : Bool) : (s.mark true a b).ctxs = s.ctxs := rfl
@[simp] theorem markHost_cores (a : Nat) (b : Bool) : (s.mark true a b).cores = s.cores := rfl
@[simp] theorem markHost_dies (a : Nat) (b : Bool) : (s.mark true a b).dies = s.dies := rfl
@[simp] theorem markHost_hub (a : Nat) (b : Bool) : (s.mark true a b).hub = s.hub := rfl
@[simp] theorem markHost_mem (a : Nat) (b : Bool) : (s.mark true a b).mem = s.mem := rfl
@[simp] theorem markHost_pois (a : Nat) (b : Bool) : (s.mark true a b).pois = s.pois := rfl
@[simp] theorem markHost_locks (a : Nat) (b : Bool) : (s.mark true a b).locks = s.locks := rfl
@[simp] theorem markHost_hostMem (a : Nat) (b : Bool) : (s.mark true a b).hostMem = s.hostMem := rfl
@[simp] theorem markHost_filters (a : Nat) (b : Bool) : (s.mark true a b).filters = s.filters := rfl
@[simp] theorem markHost_reqs (a : Nat) (b : Bool) : (s.mark true a b).reqs = s.reqs := rfl
@[simp] theorem markHost_nextReq (a : Nat) (b : Bool) : (s.mark true a b).nextReq = s.nextReq := rfl
@[simp] theorem markHost_faults (a : Nat) (b : Bool) : (s.mark true a b).faults = s.faults := rfl
@[simp] theorem markHost_nextFlt (a : Nat) (b : Bool) : (s.mark true a b).nextFlt = s.nextFlt := rfl
@[simp] theorem markHost_agenda (a : Nat) (b : Bool) : (s.mark true a b).agenda = s.agenda := rfl
@[simp] theorem markHost_focus (a : Nat) (b : Bool) : (s.mark true a b).focus = s.focus := rfl
@[simp] theorem markHost_free (a : Nat) (b : Bool) : (s.mark true a b).free = s.free := rfl

@[simp] theorem markDev_ctxs (a : Nat) (b : Bool) : (s.mark false a b).ctxs = s.ctxs := rfl
@[simp] theorem markDev_cores (a : Nat) (b : Bool) : (s.mark false a b).cores = s.cores := rfl
@[simp] theorem markDev_dies (a : Nat) (b : Bool) : (s.mark false a b).dies = s.dies := rfl
@[simp] theorem markDev_hub (a : Nat) (b : Bool) : (s.mark false a b).hub = s.hub := rfl
@[simp] theorem markDev_mem (a : Nat) (b : Bool) : (s.mark false a b).mem = s.mem := rfl
@[simp] theorem markDev_locks (a : Nat) (b : Bool) : (s.mark false a b).locks = s.locks := rfl
@[simp] theorem markDev_hostMem (a : Nat) (b : Bool) : (s.mark false a b).hostMem = s.hostMem := rfl
@[simp] theorem markDev_hpois (a : Nat) (b : Bool) : (s.mark false a b).hpois = s.hpois := rfl
@[simp] theorem markDev_filters (a : Nat) (b : Bool) : (s.mark false a b).filters = s.filters := rfl
@[simp] theorem markDev_reqs (a : Nat) (b : Bool) : (s.mark false a b).reqs = s.reqs := rfl
@[simp] theorem markDev_nextReq (a : Nat) (b : Bool) : (s.mark false a b).nextReq = s.nextReq := rfl
@[simp] theorem markDev_faults (a : Nat) (b : Bool) : (s.mark false a b).faults = s.faults := rfl
@[simp] theorem markDev_nextFlt (a : Nat) (b : Bool) : (s.mark false a b).nextFlt = s.nextFlt := rfl
@[simp] theorem markDev_agenda (a : Nat) (b : Bool) : (s.mark false a b).agenda = s.agenda := rfl
@[simp] theorem markDev_focus (a : Nat) (b : Bool) : (s.mark false a b).focus = s.focus := rfl
@[simp] theorem markDev_free (a : Nat) (b : Bool) : (s.mark false a b).free = s.free := rfl

@[simp] theorem addFaultOf_cores (cx : Nat) (e : FaultEntry) : (s.addFault (some cx) e).cores = s.cores := rfl
@[simp] theorem addFaultOf_dies (cx : Nat) (e : FaultEntry) : (s.addFault (some cx) e).dies = s.dies := rfl
@[simp] theorem addFaultOf_hub (cx : Nat) (e : FaultEntry) : (s.addFault (some cx) e).hub = s.hub := rfl
@[simp] theorem addFaultOf_mem (cx : Nat) (e : FaultEntry) : (s.addFault (some cx) e).mem = s.mem := rfl
@[simp] theorem addFaultOf_pois (cx : Nat) (e : FaultEntry) : (s.addFault (some cx) e).pois = s.pois := rfl
@[simp] theorem addFaultOf_locks (cx : Nat) (e : FaultEntry) : (s.addFault (some cx) e).locks = s.locks := rfl
@[simp] theorem addFaultOf_hostMem (cx : Nat) (e : FaultEntry) : (s.addFault (some cx) e).hostMem = s.hostMem := rfl
@[simp] theorem addFaultOf_hpois (cx : Nat) (e : FaultEntry) : (s.addFault (some cx) e).hpois = s.hpois := rfl
@[simp] theorem addFaultOf_filters (cx : Nat) (e : FaultEntry) : (s.addFault (some cx) e).filters = s.filters := rfl
@[simp] theorem addFaultOf_reqs (cx : Nat) (e : FaultEntry) : (s.addFault (some cx) e).reqs = s.reqs := rfl
@[simp] theorem addFaultOf_nextReq (cx : Nat) (e : FaultEntry) : (s.addFault (some cx) e).nextReq = s.nextReq := rfl
@[simp] theorem addFaultOf_agenda (cx : Nat) (e : FaultEntry) : (s.addFault (some cx) e).agenda = s.agenda := rfl
@[simp] theorem addFaultOf_focus (cx : Nat) (e : FaultEntry) : (s.addFault (some cx) e).focus = s.focus := rfl
@[simp] theorem addFaultOf_free (cx : Nat) (e : FaultEntry) : (s.addFault (some cx) e).free = s.free := rfl

@[simp] theorem addFaultNone_ctxs (e : FaultEntry) : (s.addFault none e).ctxs = s.ctxs := rfl
@[simp] theorem addFaultNone_cores (e : FaultEntry) : (s.addFault none e).cores = s.cores := rfl
@[simp] theorem addFaultNone_dies (e : FaultEntry) : (s.addFault none e).dies = s.dies := rfl
@[simp] theorem addFaultNone_hub (e : FaultEntry) : (s.addFault none e).hub = s.hub := rfl
@[simp] theorem addFaultNone_mem (e : FaultEntry) : (s.addFault none e).mem = s.mem := rfl
@[simp] theorem addFaultNone_pois (e : FaultEntry) : (s.addFault none e).pois = s.pois := rfl
@[simp] theorem addFaultNone_locks (e : FaultEntry) : (s.addFault none e).locks = s.locks := rfl
@[simp] theorem addFaultNone_hostMem (e : FaultEntry) : (s.addFault none e).hostMem = s.hostMem := rfl
@[simp] theorem addFaultNone_hpois (e : FaultEntry) : (s.addFault none e).hpois = s.hpois := rfl
@[simp] theorem addFaultNone_filters (e : FaultEntry) : (s.addFault none e).filters = s.filters := rfl
@[simp] theorem addFaultNone_reqs (e : FaultEntry) : (s.addFault none e).reqs = s.reqs := rfl
@[simp] theorem addFaultNone_nextReq (e : FaultEntry) : (s.addFault none e).nextReq = s.nextReq := rfl
@[simp] theorem addFaultNone_agenda (e : FaultEntry) : (s.addFault none e).agenda = s.agenda := rfl
@[simp] theorem addFaultNone_focus (e : FaultEntry) : (s.addFault none e).focus = s.focus := rfl
@[simp] theorem addFaultNone_free (e : FaultEntry) : (s.addFault none e).free = s.free := rfl

/-! ### Fields that an update changes -/

@[simp] theorem setCtx_ctxs (cx : Nat) (c : Ctx) : (s.setCtx cx c).ctxs = smPut {} s.ctxs cx c := rfl
@[simp] theorem setCore_cores (g : Nat) (c : CoreSt) : (s.setCore g c).cores = smPut {} s.cores g c := rfl
@[simp] theorem setDie_dies (d : Nat) (c : DieSt) : (s.setDie d c).dies = smPut {} s.dies d c := rfl
@[simp] theorem modHub_hub (f : Hub → Hub) : (s.modHub f).hub = f s.hub := rfl
@[simp] theorem takeFree_free : s.takeFree.2.free = s.free + 1 := rfl
@[simp] theorem addReq_reqs (r : Req) : (s.addReq r).reqs = s.reqs ++ [{ r with id := s.nextReq }] := rfl
@[simp] theorem addReq_nextReq (r : Req) : (s.addReq r).nextReq = s.nextReq + 1 := rfl
@[simp] theorem dropReq_reqs (i : Nat) : (s.dropReq i).reqs = s.reqs.filter (fun r => r.id ≠ i) := rfl

/-! ### Contexts, cores and dies after an update -/

@[simp] theorem ctx_setCtx_same (i : Nat) (c : Ctx) : (s.setCtx i c).ctx i = c := by
  simp [State.ctx, State.setCtx]
theorem ctx_setCtx_other (i j : Nat) (c : Ctx) (h : j ≠ i) : (s.setCtx i c).ctx j = s.ctx j := by
  simp [State.ctx, State.setCtx, smGet_put_other _ _ _ _ _ h]
@[simp] theorem ctx_modCtx_same (i : Nat) (f : Ctx → Ctx) : (s.modCtx i f).ctx i = f (s.ctx i) := by
  simp [State.modCtx]
theorem ctx_modCtx_other (i j : Nat) (f : Ctx → Ctx) (h : j ≠ i) : (s.modCtx i f).ctx j = s.ctx j :=
  ctx_setCtx_other s i j _ h

@[simp] theorem core_setCore_same (i : Nat) (c : CoreSt) : (s.setCore i c).core i = c := by
  simp [State.core, State.setCore]
theorem core_setCore_other (i j : Nat) (c : CoreSt) (h : j ≠ i) : (s.setCore i c).core j = s.core j := by
  simp [State.core, State.setCore, smGet_put_other _ _ _ _ _ h]
@[simp] theorem core_modCore_same (i : Nat) (f : CoreSt → CoreSt) : (s.modCore i f).core i = f (s.core i) := by
  simp [State.modCore]
theorem core_modCore_other (i j : Nat) (f : CoreSt → CoreSt) (h : j ≠ i) : (s.modCore i f).core j = s.core j :=
  core_setCore_other s i j _ h

@[simp] theorem die_setDie_same (i : Nat) (c : DieSt) : (s.setDie i c).die i = c := by
  simp [State.die, State.setDie]
theorem die_setDie_other (i j : Nat) (c : DieSt) (h : j ≠ i) : (s.setDie i c).die j = s.die j := by
  simp [State.die, State.setDie, smGet_put_other _ _ _ _ _ h]
@[simp] theorem die_modDie_same (i : Nat) (f : DieSt → DieSt) : (s.modDie i f).die i = f (s.die i) := by
  simp [State.modDie]
theorem die_modDie_other (i j : Nat) (f : DieSt → DieSt) (h : j ≠ i) : (s.modDie i f).die j = s.die j :=
  die_setDie_other s i j _ h

@[simp] theorem setCtx_core_ (cx : Nat) (c : Ctx) (i : Nat) : (s.setCtx cx c).core i = s.core i := rfl
@[simp] theorem setCtx_die_ (cx : Nat) (c : Ctx) (i : Nat) : (s.setCtx cx c).die i = s.die i := rfl
@[simp] theorem modCtx_core_ (cx : Nat) (f : Ctx → Ctx) (i : Nat) : (s.modCtx cx f).core i = s.core i := rfl
@[simp] theorem modCtx_die_ (cx : Nat) (f : Ctx → Ctx) (i : Nat) : (s.modCtx cx f).die i = s.die i := rfl
@[simp] theorem setCore_ctx_ (g : Nat) (c : CoreSt) (i : Nat) : (s.setCore g c).ctx i = s.ctx i := rfl
@[simp] theorem setCore_die_ (g : Nat) (c : CoreSt) (i : Nat) : (s.setCore g c).die i = s.die i := rfl
@[simp] theorem modCore_ctx_ (g : Nat) (f : CoreSt → CoreSt) (i : Nat) : (s.modCore g f).ctx i = s.ctx i := rfl
@[simp] theorem modCore_die_ (g : Nat) (f : CoreSt → CoreSt) (i : Nat) : (s.modCore g f).die i = s.die i := rfl
@[simp] theorem setDie_ctx_ (d : Nat) (c : DieSt) (i : Nat) : (s.setDie d c).ctx i = s.ctx i := rfl
@[simp] theorem setDie_core_ (d : Nat) (c : DieSt) (i : Nat) : (s.setDie d c).core i = s.core i := rfl
@[simp] theorem modDie_ctx_ (d : Nat) (f : DieSt → DieSt) (i : Nat) : (s.modDie d f).ctx i = s.ctx i := rfl
@[simp] theorem modDie_core_ (d : Nat) (f : DieSt → DieSt) (i : Nat) : (s.modDie d f).core i = s.core i := rfl
@[simp] theorem modHub_ctx_ (f : Hub → Hub) (i : Nat) : (s.modHub f).ctx i = s.ctx i := rfl
@[simp] theorem modHub_core_ (f : Hub → Hub) (i : Nat) : (s.modHub f).core i = s.core i := rfl
@[simp] theorem modHub_die_ (f : Hub → Hub) (i : Nat) : (s.modHub f).die i = s.die i := rfl
@[simp] theorem wrX_core_ (cx : Nat) (r : BitVec 5) (v : Word) (p : Bool) (i : Nat) : (s.wrX cx r v p).core i = s.core i := rfl
@[simp] theorem wrX_die_ (cx : Nat) (r : BitVec 5) (v : Word) (p : Bool) (i : Nat) : (s.wrX cx r v p).die i = s.die i := rfl
@[simp] theorem block_core_ (cx : Nat) (w : Block) (i : Nat) : (s.block cx w).core i = s.core i := rfl
@[simp] theorem block_die_ (cx : Nat) (w : Block) (i : Nat) : (s.block cx w).die i = s.die i := rfl
@[simp] theorem setKern_ctx_ (g : Nat) (k : Option Kernel) (i : Nat) : (s.setKern g k).ctx i = s.ctx i := rfl
@[simp] theorem setKern_die_ (g : Nat) (k : Option Kernel) (i : Nat) : (s.setKern g k).die i = s.die i := rfl
@[simp] theorem takeFree_ctx_ (i : Nat) : (s.takeFree.2).ctx i = s.ctx i := rfl
@[simp] theorem takeFree_core_ (i : Nat) : (s.takeFree.2).core i = s.core i := rfl
@[simp] theorem takeFree_die_ (i : Nat) : (s.takeFree.2).die i = s.die i := rfl
@[simp] theorem addReq_ctx_ (r : Req) (i : Nat) : (s.addReq r).ctx i = s.ctx i := rfl
@[simp] theorem addReq_core_ (r : Req) (i : Nat) : (s.addReq r).core i = s.core i := rfl
@[simp] theorem addReq_die_ (r : Req) (i : Nat) : (s.addReq r).die i = s.die i := rfl
@[simp] theorem modReq_ctx_ (i : Nat) (f : Req → Req) (i : Nat) : (s.modReq i f).ctx i = s.ctx i := rfl
@[simp] theorem modReq_core_ (i : Nat) (f : Req → Req) (i : Nat) : (s.modReq i f).core i = s.core i := rfl
@[simp] theorem modReq_die_ (i : Nat) (f : Req → Req) (i : Nat) : (s.modReq i f).die i = s.die i := rfl
@[simp] theorem dropReq_ctx_ (i : Nat) (i : Nat) : (s.dropReq i).ctx i = s.ctx i := rfl
@[simp] theorem dropReq_core_ (i : Nat) (i : Nat) : (s.dropReq i).core i = s.core i := rfl
@[simp] theorem dropReq_die_ (i : Nat) (i : Nat) : (s.dropReq i).die i = s.die i := rfl
@[simp] theorem wrMemHost_ctx_ (a : Nat) (bs : List Byte) (i : Nat) : (s.wrMem true a bs).ctx i = s.ctx i := rfl
@[simp] theorem wrMemHost_core_ (a : Nat) (bs : List Byte) (i : Nat) : (s.wrMem true a bs).core i = s.core i := rfl
@[simp] theorem wrMemHost_die_ (a : Nat) (bs : List Byte) (i : Nat) : (s.wrMem true a bs).die i = s.die i := rfl
@[simp] theorem wrMemDev_ctx_ (a : Nat) (bs : List Byte) (i : Nat) : (s.wrMem false a bs).ctx i = s.ctx i := rfl
@[simp] theorem wrMemDev_core_ (a : Nat) (bs : List Byte) (i : Nat) : (s.wrMem false a bs).core i = s.core i := rfl
@[simp] theorem wrMemDev_die_ (a : Nat) (bs : List Byte) (i : Nat) : (s.wrMem false a bs).die i = s.die i := rfl
@[simp] theorem markHost_ctx_ (a : Nat) (b : Bool) (i : Nat) : (s.mark true a b).ctx i = s.ctx i := rfl
@[simp] theorem markHost_core_ (a : Nat) (b : Bool) (i : Nat) : (s.mark true a b).core i = s.core i := rfl
@[simp] theorem markHost_die_ (a : Nat) (b : Bool) (i : Nat) : (s.mark true a b).die i = s.die i := rfl
@[simp] theorem markDev_ctx_ (a : Nat) (b : Bool) (i : Nat) : (s.mark false a b).ctx i = s.ctx i := rfl
@[simp] theorem markDev_core_ (a : Nat) (b : Bool) (i : Nat) : (s.mark false a b).core i = s.core i := rfl
@[simp] theorem markDev_die_ (a : Nat) (b : Bool) (i : Nat) : (s.mark false a b).die i = s.die i := rfl
@[simp] theorem addFaultOf_core_ (cx : Nat) (e : FaultEntry) (i : Nat) : (s.addFault (some cx) e).core i = s.core i := rfl
@[simp] theorem addFaultOf_die_ (cx : Nat) (e : FaultEntry) (i : Nat) : (s.addFault (some cx) e).die i = s.die i := rfl
@[simp] theorem addFaultNone_ctx_ (e : FaultEntry) (i : Nat) : (s.addFault none e).ctx i = s.ctx i := rfl
@[simp] theorem addFaultNone_core_ (e : FaultEntry) (i : Nat) : (s.addFault none e).core i = s.core i := rfl
@[simp] theorem addFaultNone_die_ (e : FaultEntry) (i : Nat) : (s.addFault none e).die i = s.die i := rfl

/-! ### Bytes of memory after an update that stores none -/

@[simp] theorem setCtx_rdByte (cx : Nat) (c : Ctx) (h : Bool) (a : Nat) : (s.setCtx cx c).rdByte h a = s.rdByte h a := rfl
@[simp] theorem modCtx_rdByte (cx : Nat) (f : Ctx → Ctx) (h : Bool) (a : Nat) : (s.modCtx cx f).rdByte h a = s.rdByte h a := rfl
@[simp] theorem setCore_rdByte (g : Nat) (c : CoreSt) (h : Bool) (a : Nat) : (s.setCore g c).rdByte h a = s.rdByte h a := rfl
@[simp] theorem modCore_rdByte (g : Nat) (f : CoreSt → CoreSt) (h : Bool) (a : Nat) : (s.modCore g f).rdByte h a = s.rdByte h a := rfl
@[simp] theorem setDie_rdByte (d : Nat) (c : DieSt) (h : Bool) (a : Nat) : (s.setDie d c).rdByte h a = s.rdByte h a := rfl
@[simp] theorem modDie_rdByte (d : Nat) (f : DieSt → DieSt) (h : Bool) (a : Nat) : (s.modDie d f).rdByte h a = s.rdByte h a := rfl
@[simp] theorem modHub_rdByte (f : Hub → Hub) (h : Bool) (a : Nat) : (s.modHub f).rdByte h a = s.rdByte h a := rfl
@[simp] theorem wrX_rdByte (cx : Nat) (r : BitVec 5) (v : Word) (p : Bool) (h : Bool) (a : Nat) : (s.wrX cx r v p).rdByte h a = s.rdByte h a := rfl
@[simp] theorem block_rdByte (cx : Nat) (w : Block) (h : Bool) (a : Nat) : (s.block cx w).rdByte h a = s.rdByte h a := rfl
@[simp] theorem setKern_rdByte (g : Nat) (k : Option Kernel) (h : Bool) (a : Nat) : (s.setKern g k).rdByte h a = s.rdByte h a := rfl
@[simp] theorem takeFree_rdByte (h : Bool) (a : Nat) : (s.takeFree.2).rdByte h a = s.rdByte h a := rfl
@[simp] theorem addReq_rdByte (r : Req) (h : Bool) (a : Nat) : (s.addReq r).rdByte h a = s.rdByte h a := rfl
@[simp] theorem modReq_rdByte (i : Nat) (f : Req → Req) (h : Bool) (a : Nat) : (s.modReq i f).rdByte h a = s.rdByte h a := rfl
@[simp] theorem dropReq_rdByte (i : Nat) (h : Bool) (a : Nat) : (s.dropReq i).rdByte h a = s.rdByte h a := rfl
@[simp] theorem markHost_rdByte (a : Nat) (b : Bool) (h : Bool) (a : Nat) : (s.mark true a b).rdByte h a = s.rdByte h a := rfl
@[simp] theorem markDev_rdByte (a : Nat) (b : Bool) (h : Bool) (a : Nat) : (s.mark false a b).rdByte h a = s.rdByte h a := rfl
@[simp] theorem addFaultOf_rdByte (cx : Nat) (e : FaultEntry) (h : Bool) (a : Nat) : (s.addFault (some cx) e).rdByte h a = s.rdByte h a := rfl
@[simp] theorem addFaultNone_rdByte (e : FaultEntry) (h : Bool) (a : Nat) : (s.addFault none e).rdByte h a = s.rdByte h a := rfl
@[simp] theorem setCtx_bad (cx : Nat) (c : Ctx) (h : Bool) (a : Nat) : (s.setCtx cx c).bad h a = s.bad h a := rfl
@[simp] theorem modCtx_bad (cx : Nat) (f : Ctx → Ctx) (h : Bool) (a : Nat) : (s.modCtx cx f).bad h a = s.bad h a := rfl
@[simp] theorem setCore_bad (g : Nat) (c : CoreSt) (h : Bool) (a : Nat) : (s.setCore g c).bad h a = s.bad h a := rfl
@[simp] theorem modCore_bad (g : Nat) (f : CoreSt → CoreSt) (h : Bool) (a : Nat) : (s.modCore g f).bad h a = s.bad h a := rfl
@[simp] theorem setDie_bad (d : Nat) (c : DieSt) (h : Bool) (a : Nat) : (s.setDie d c).bad h a = s.bad h a := rfl
@[simp] theorem modDie_bad (d : Nat) (f : DieSt → DieSt) (h : Bool) (a : Nat) : (s.modDie d f).bad h a = s.bad h a := rfl
@[simp] theorem modHub_bad (f : Hub → Hub) (h : Bool) (a : Nat) : (s.modHub f).bad h a = s.bad h a := rfl
@[simp] theorem wrX_bad (cx : Nat) (r : BitVec 5) (v : Word) (p : Bool) (h : Bool) (a : Nat) : (s.wrX cx r v p).bad h a = s.bad h a := rfl
@[simp] theorem block_bad (cx : Nat) (w : Block) (h : Bool) (a : Nat) : (s.block cx w).bad h a = s.bad h a := rfl
@[simp] theorem setKern_bad (g : Nat) (k : Option Kernel) (h : Bool) (a : Nat) : (s.setKern g k).bad h a = s.bad h a := rfl
@[simp] theorem takeFree_bad (h : Bool) (a : Nat) : (s.takeFree.2).bad h a = s.bad h a := rfl
@[simp] theorem addReq_bad (r : Req) (h : Bool) (a : Nat) : (s.addReq r).bad h a = s.bad h a := rfl
@[simp] theorem modReq_bad (i : Nat) (f : Req → Req) (h : Bool) (a : Nat) : (s.modReq i f).bad h a = s.bad h a := rfl
@[simp] theorem dropReq_bad (i : Nat) (h : Bool) (a : Nat) : (s.dropReq i).bad h a = s.bad h a := rfl
@[simp] theorem addFaultOf_bad (cx : Nat) (e : FaultEntry) (h : Bool) (a : Nat) : (s.addFault (some cx) e).bad h a = s.bad h a := rfl
@[simp] theorem addFaultNone_bad (e : FaultEntry) (h : Bool) (a : Nat) : (s.addFault none e).bad h a = s.bad h a := rfl

/-! ### Scalar registers -/

theorem rd_zero (c : Ctx) : c.rd 0 = 0 := rfl
theorem tag_zero (c : Ctx) : c.tag 0 = false := rfl
theorem wr_zero (c : Ctx) (v : Word) (p : Bool) : c.wr 0 v p = c := rfl

/-- A register that was written reads its new value, but for x0. -/
theorem rd_wr_same (c : Ctx) (r : Nat) (v : Word) (p : Bool) (h : r ≠ 0) : (c.wr r v p).rd r = v := by
  simp [Ctx.rd, Ctx.wr, h]

theorem tag_wr_same (c : Ctx) (r : Nat) (v : Word) (p : Bool) (h : r ≠ 0) : (c.wr r v p).tag r = p := by
  simp [Ctx.tag, Ctx.wr, h]

/-- Every other register keeps its value. -/
theorem rd_wr_other (c : Ctx) (r q : Nat) (v : Word) (p : Bool) (h : q ≠ r) : (c.wr r v p).rd q = c.rd q := by
  unfold Ctx.rd Ctx.wr
  split
  · rfl
  · split
    · rfl
    · simp [smGet_put_other _ _ _ _ _ h]

theorem tag_wr_other (c : Ctx) (r q : Nat) (v : Word) (p : Bool) (h : q ≠ r) : (c.wr r v p).tag q = c.tag q := by
  unfold Ctx.tag Ctx.wr
  split
  · rfl
  · split
    · rfl
    · simp [smGet_put_other _ _ _ _ _ h]

/-! ### Memory -/

/-- A byte of device or host memory after a store. -/
theorem rdByte_wrMem (host h : Bool) (a b : Nat) (bs : List Byte) :
    (s.wrMem host a bs).rdByte h b =
      if h = host ∧ a ≤ b ∧ b < a + bs.length then bs.getD (b - a) 0 else s.rdByte h b := by
  cases host <;> cases h <;> simp [State.wrMem, State.rdByte, smGet_putAll]

/-- A store keeps the canonical form of memory. -/
theorem wrMem_wf (host : Bool) (a : Nat) (bs : List Byte) (h : Memory.wf s) : Memory.wf (s.wrMem host a bs) := by
  cases host
  · exact ⟨smPutAll_wf bs a h.1, h.2⟩
  · exact ⟨h.1, smPutAll_wf bs a h.2.1, h.2.2⟩

/-- A poison mark set or cleared keeps the canonical form. -/
theorem mark_wf (host : Bool) (a : Nat) (b : Bool) (h : Memory.wf s) : Memory.wf (s.mark host a b) := by
  cases host
  · exact ⟨h.1, h.2.1, smPut_wf _ b h.2.2.1, h.2.2.2⟩
  · exact ⟨h.1, h.2.1, h.2.2.1, smPut_wf _ b h.2.2.2⟩

/-- The mark of a line after a mark is set. -/
theorem bad_mark (host h : Bool) (a c : Nat) (b : Bool) :
    (s.mark host a b).bad h c = if h = host ∧ c / 128 = a / 128 then b else s.bad h c := by
  cases host <;> cases h <;> simp [State.mark, State.bad, smGet_put]

/-- Memory after reset lists nothing and is in canonical form. -/
theorem reset_wf : Memory.wf State.reset := ⟨smWf_nil 0, smWf_nil 0, smWf_nil false, smWf_nil false⟩

end Sys2Proof.Machine
end

