-- ==== Sys2Proof/Laws/Bundle.lean ====
section
/-!
SUPPORT. What one instruction in a bundle of its own does (R73, R107, R108), for each outcome of its
evaluation.
-/

namespace Sys2Proof.Machine

open Sys2Proof

/-- A bundle of one instruction waits only when a register it names awaits a result, or a drain or a wait at another
package's semaphore is outstanding (R108, R129, R163). -/
theorem interlocked_one (cx k : Nat) (i : Slot) (s : State)
    (hr : ∀ r ∈ i.regs, s.awaited cx r.toNat = false)
    (hd : ∀ j ∈ (s.ctx cx).drain.getD [], s.outstanding j = false)
    (hw : ∀ r ∈ s.reqs, r.cx = cx → r.op.waits = false) :
    interlocked cx [(k, i)] s = false := by
  have h1 : (i.regs.any fun r => s.awaited cx r.toNat) = false := by
    rw [List.any_eq_false]
    exact fun r h => by simp [hr r h]
  have h2 : (((s.ctx cx).drain.getD []).any s.outstanding) = false := by
    rw [List.any_eq_false]
    exact fun r h => by simp [hd r h]
  have h3 : (s.reqs.any fun r => r.cx = cx && r.op.waits) = false := by
    rw [List.any_eq_false]
    exact fun r h => by
      by_cases e : r.cx = cx
      · simp [hw r h e]
      · simp [e]
  simp [interlocked, State.holds, h1, h2, h3]

variable {k : Nat} {i : Slot} {s : State}

/-- A waiting bundle changes nothing. -/
theorem runSlot_interlocked (h : interlocked s.focus [(k, i)] s = true) : runSlot k i s = s := by
  simp [runSlot, runBundle, h]

/-- A slot that performs: its effect, and the PC at the next bundle. -/
theorem runSlot_go {f : State → State} (hi : interlocked s.focus [(k, i)] s = false)
    (h : i.eval s.focus s = .go f) :
    runSlot k i s = (f s).modCtx s.focus fun c => { c with pc := (s.ctx s.focus).pc + 16 } := by
  simp [runSlot, runBundle, hi, firstStop, h, performSlots, lateTrap, nextPc]

/-- A flow slot: its effect, and the PC at its target. -/
theorem runSlot_flow {f : State → State} {pc : Word} (hi : interlocked s.focus [(k, i)] s = false)
    (h : i.eval s.focus s = .flow f pc) :
    runSlot k i s = (f s).modCtx s.focus fun c => { c with pc := pc } := by
  simp [runSlot, runBundle, hi, firstStop, h, performSlots, lateTrap, nextPc]

/-- TRAP and BKPT: the trap that follows the bundle. -/
theorem runSlot_after {c a : Nat} (hi : interlocked s.focus [(k, i)] s = false)
    (h : i.eval s.focus s = .after c a) : runSlot k i s = s.trap s.focus k c 0 a 0 := by
  simp [runSlot, runBundle, hi, firstStop, h, performSlots, lateTrap]

/-- A slot that blocks. -/
theorem runSlot_block {w : Block} (hi : interlocked s.focus [(k, i)] s = false)
    (h : i.eval s.focus s = .block w) : runSlot k i s = s.block s.focus w := by
  simp [runSlot, runBundle, hi, firstStop, h]

/-- A slot that enters a queue and blocks. -/
theorem runSlot_enqueue {w : Block} {f : State → State} (hi : interlocked s.focus [(k, i)] s = false)
    (h : i.eval s.focus s = .enqueue w f) : runSlot k i s = (f s).block s.focus w := by
  simp [runSlot, runBundle, hi, firstStop, h]

/-- A slot that waits as an interlock does. -/
theorem runSlot_wait (hi : interlocked s.focus [(k, i)] s = false) (h : i.eval s.focus s = .wait) :
    runSlot k i s = s := by
  simp [runSlot, runBundle, hi, firstStop, h]

/-- A slot that traps: nothing else happens (R107). -/
theorem runSlot_trap {c b a : Nat} {v : Word} (hi : interlocked s.focus [(k, i)] s = false)
    (h : i.eval s.focus s = .trap c b a v) : runSlot k i s = s.trap s.focus k c b a v := by
  simp [runSlot, runBundle, hi, firstStop, h]

end Sys2Proof.Machine
end

