-- ==== Sys2Proof/Laws/Coding.lean ====
section
/-!
SUPPORT. What decoding gives back of what encoding wrote: fields, slots, bundles and packets. The lemma of
each instruction stands in PerInstr.lean.
-/

namespace Sys2Proof.Laws

open Sys2Proof

/-- A field as a bit vector, from its number. -/
theorem bv_of {n : Nat} (x : BitVec n) (w lo : Nat) (h : w / 2 ^ lo % 2 ^ n = x.toNat) : bv w lo n = x :=
  BitVec.eq_of_toNat_eq (by simpa [bv] using h)

/-- A field as a number. -/
theorem fld_of (w lo n k : Nat) (h : w / 2 ^ lo % 2 ^ n = k) : fld w lo n = k := h
theorem fld_ne (w lo n k : Nat) (h : w / 2 ^ lo % 2 ^ n ≠ k) : fld w lo n ≠ k := h

/-- The first slot of a bundle is never refused for its mix. -/
theorem mixOk_nil (g : Nat) (i : Instr) : mixOk [] g i = true := by
  unfold mixOk
  split
  · rfl
  · simp only [List.filter_nil, List.length_nil, List.all_nil, Bool.and_true, Bool.and_eq_true]
    constructor
    · split <;> decide
    · split <;> rfl

/-- Behind a header, an instruction with an immediate is never refused for its mix. -/
theorem mixOk_header (w : Nat) (i : Instr) (hi : i.hasImm = true) : mixOk headerBefore (slotGroup w) i = true := by
  have hg : slotGroup w ≠ 0x3F := by unfold slotGroup; (repeat' split) <;> decide
  unfold mixOk headerBefore
  split
  · rfl
  · have hw : Instr.writes .nop = [] := rfl
    have hf : decide (0x3F = slotGroup w) = false := decide_eq_false (Ne.symm hg)
    simp only [List.filter_cons, List.all_cons, List.all_nil, hw, hf, List.filter_nil, Bool.false_eq_true, if_false]
    cases i <;> first | (cases hi; done) | (split <;> rfl)

theorem decodeSlot_nop (ek : Option Byte) : decodeSlot nopWord ek = some .nop := rfl

/-- A NOP behind another slot. -/
theorem decodeSlots_nop (before : List (Nat × Instr)) (k : Nat) (ek : Option Byte) (he : ek = none ∨ ek = some 0)
    (rest : List (Nat × Nat × Option Byte)) :
    decodeSlots before ((k, nopWord, ek) :: rest) = decodeSlots before rest := by
  rcases he with rfl | rfl
  · simp only [decodeSlots, slotWithExt, decodeSlot_nop]
    simp [isLdi64, nopWord, fld, mixOk, Instr.hasImm]
    cases decodeSlots before rest <;> rfl
  · simp only [decodeSlots, slotWithExt, decodeSlot_nop]
    simp [isLdi64, nopWord, fld, mixOk, Instr.hasImm]
    cases decodeSlots before rest <;> rfl

/-- A slot of its own, its immediate widened or not. -/
theorem slot_alone (k w : Nat) (ek : Option Byte) (i : Instr) (h : decodeSlot w ek = some i)
    (hop : fld w 26 6 ≠ 0x3F) (hl : isLdi64 w = false) (hx : ek = none ∨ i.hasImm = true)
    (before : List (Nat × Instr)) (hm : mixOk before (slotGroup w) i = true)
    (rest : List (Nat × Nat × Option Byte)) (hr : ∀ b, decodeSlots b rest = .inl []) :
    decodeSlots before ((k, w, ek) :: rest) = .inl (if i = .nop then [] else [(k, i)]) := by
  have hs : slotWithExt w ek = .inl i := by
    unfold slotWithExt
    rw [h]
    rcases hx with rfl | hx
    · simp
    · simp [hx]
  simp [decodeSlots, hl, hop, hs, hm, hr]

/-- The bundle of one control word, behind a header where its immediate is widened. -/
def aloneWords (w : Nat) : Option Byte → List Nat
  | some e => [headerWord e, w, nopWord, nopWord]
  | none => [w, nopWord, nopWord, nopWord]

/-- A control word in a bundle of its own decodes to what its slot decodes to. -/
theorem control_alone (w : Nat) (ek : Option Byte) (i : Instr) (h : decodeSlot w ek = some i)
    (hop : fld w 26 6 ≠ 0x3F) (hl : isLdi64 w = false) (hx : ek = none ∨ i.hasImm = true) :
    decodeAlone .control (aloneWords w ek) = some i := by
  cases ek with
  | none =>
    have hb : decodeBundle w nopWord nopWord nopWord = .inl (if i = .nop then [] else [(0, i)]) := by
      simp only [decodeBundle, if_neg hop]
      exact slot_alone 0 w none i h hop hl hx _ (mixOk_nil _ i) _ fun b => by
        rw [decodeSlots_nop _ _ _ (.inl rfl), decodeSlots_nop _ _ _ (.inl rfl), decodeSlots_nop _ _ _ (.inl rfl)]
        rfl
    simp only [aloneWords, decodeAlone, hb]
    by_cases hi : i = .nop <;> simp [hi]
  | some e =>
    have he := e.isLt
    obtain ⟨v, hv⟩ : ∃ v, v = headerWord e := ⟨_, rfl⟩
    have hv' : v = 0xFC000000 + e.toNat * 2 ^ 16 := hv
    have h1 := fld_of v 26 6 0x3F (by omega)
    have h2 := fld_of v 24 2 0 (by omega)
    have h3 := bv_of e v 16 (by omega)
    have h4 := bv_of (0 : Byte) v 8 (by simp; omega)
    have h5 := bv_of (0 : Byte) v 0 (by simp; omega)
    have hb : decodeBundle v w nopWord nopWord = .inl (if i = .nop then [] else [(1, i)]) := by
      simp only [decodeBundle, h1, h2, h3, h4, h5, if_true]
      exact slot_alone 1 w (some e) i h hop hl hx _ (mixOk_header w i (hx.resolve_left (by simp))) _ fun b => by
        rw [decodeSlots_nop _ _ _ (.inr rfl), decodeSlots_nop _ _ _ (.inr rfl)]
        rfl
    simp only [aloneWords, decodeAlone, ← hv, hb]
    by_cases hi : i = .nop <;> simp [hi]

/-- The header's position bits of a packet of one slot, with its class's first position. -/
def classMask : KClass → Nat
  | .a => 128 | .m => 32 | .f => 16 | .s => 8 | .x => 4 | .c => 2 | .b => 1

/-- A slot word without its stop bit, of a class: what it decodes to, alone in its packet. -/
theorem kernel_alone (k : KClass) (lit : BitVec 16) (w : Nat) (o : KOp) (hw : w < 2 ^ 31)
    (h : decodeK k (w + 2 ^ 31) lit.toNat = .inl o) (hlit : lit = 0 ∨ o.literal.isSome = true) :
    decodeAlone (.kernel k) [packetHeader k lit, w + 2 ^ 31] = some o.instr := by
  have hll := lit.isLt
  obtain ⟨v, hv⟩ : ∃ v, v = packetHeader k lit := ⟨_, rfl⟩
  have hs : fld v 3 16 = lit.toNat ∧ fld v 0 3 = 0 ∧ fld v 31 1 = 0 ∧ ∃ p, packetSlots v = [(p, k)] := by
    have hf : ∀ q : Nat × KClass, q.1 ≤ 7 → (decide (fld v (30 - q.1) 1 = 1)) =
        decide (v / 2 ^ 23 / 2 ^ (7 - q.1) % 2 = 1) := by
      intro q hq
      rw [Nat.div_div_eq_div_mul, ← Nat.pow_add, show 23 + (7 - q.1) = 30 - q.1 by omega]
      rfl
    have hp : packetSlots v = ([(0, KClass.a), (1, .a), (2, .m), (3, .f), (4, .s), (5, .x), (6, .c), (7, .b)] :
        List (Nat × KClass)).filter (fun q => decide (v / 2 ^ 23 / 2 ^ (7 - q.1) % 2 = 1)) :=
      List.filter_congr fun q hq => hf q (by fin_cases hq <;> decide)
    rw [hp]
    have hm : v / 2 ^ 23 = classMask k ∧ v % 2 ^ 23 = lit.toNat * 8 := by
      cases k <;> simp only [packetHeader, classMask] at hv ⊢ <;> omega
    have h31 : v < 2 ^ 31 := by cases k <;> simp only [classMask] at hm <;> omega
    exact ⟨fld_of _ _ _ _ (by omega), fld_of _ _ _ _ (by omega), fld_of _ _ _ _ (by omega),
      by rw [hm.1]; cases k <;> exact ⟨_, rfl⟩⟩
  obtain ⟨h1, h2, h3, p, h4⟩ := hs
  have h5 : fld (w + 2 ^ 31) 31 1 = 1 := fld_of _ _ _ _ (by omega)
  have hp : decodePacket v [w + 2 ^ 31] = .inl [(p, o)] := by
    unfold decodePacket
    rw [if_pos ⟨by simp only [stopOk, h3, h5]; rfl, h2, by simp [h4]⟩, h1, h4]
    simp only [decodeKSlots, h]
    rw [if_neg]
    rintro ⟨ha, hb⟩
    rcases hlit with rfl | hlit
    · exact ha rfl
    · simp only [List.all_cons, List.all_nil, Bool.and_true] at hb
      rw [Option.isNone_iff_eq_none] at hb
      simp [hb] at hlit
  simp only [decodeAlone, ← hv, hp]

end Sys2Proof.Laws
end

