-- ==== Sys2Proof/Laws/Memory.lean ====
section
/-!
SUPPORT. Memory keeps its canonical form where a store performs at a translated place, and where a store performs
some bytes of a line.
-/

namespace Sys2Proof.Machine

open Sys2Proof

theorem wrPlace_wf {s : State} (host : Bool) (a : Nat) (bs : List Byte) (h : Memory.wf s) :
    Memory.wf (s.wrPlace host a bs) := by
  exact wrMem_wf s host a bs h

theorem storeAt_wf (host : Bool) (a : Nat) (bs : List (Nat × Byte)) {s : State} (h : Memory.wf s) :
    Memory.wf (s.storeAt host a bs) := by
  unfold State.storeAt
  induction bs generalizing s with
  | nil => exact h
  | cons b bs ih => exact ih (wrMem_wf s host (a + b.1) [b.2] h)

end Sys2Proof.Machine
end

