-- ==== Sys2Proof/Laws/PerInstr.lean ====
section
/-!
SUPPORT. The family Coding: the words of a well-formed instruction, decoded alone, give the instruction
back; one lemma for each constructor. Events have no words.
-/

namespace Sys2Proof.Laws.Coding

open Sys2Proof Sys2Proof.Laws

/-- The instruction's own words decode to it. -/
def Statement (i : Instr) : Prop := i.wf = true → i.form ≠ .event → decodeAlone i.form (encode i) = some i

theorem nop : Statement .nop := fun _ _ => rfl

theorem add (d : BitVec 5) (a : BitVec 5) (b : BitVec 5) : Statement (.add d a b) := fun w _ => by
  obtain ⟨n, e⟩ : ∃ n, n = encodeWord (.add d a b) := ⟨_, rfl⟩
  have h_d := d.isLt
  have h_a := a.isLt
  have h_b := b.isLt
  have e' : n = 134217728 + d.toNat * 2097152 + a.toNat * 65536 + b.toNat * 2048 := e
  have e_op := fld_of n 26 6 2 (by omega)
  have e_n : n ≠ 0x04000000 := by omega
  have e_0_11 := fld_of n 0 11 0 (by omega)
  have f_d := bv_of d n 21 (by omega)
  have f_a := bv_of a n 16 (by omega)
  have f_b := bv_of b n 11 (by omega)
  have hs : decodeSlot n none = some (.add d a b) := by
    have hp : shapeSlot n none = some (.add d a b) := by
      simp [shapeSlot, shapeAlu, e_n, e_op, e_0_11, f_d, f_a, f_b]
    simp [decodeSlot, hp, w]
  have h := control_alone n none _ hs (by simp [e_op]) (by simp [isLdi64, e_op]) (Or.inl rfl)
  rw [e] at h
  exact h

theorem sub (d : BitVec 5) (a : BitVec 5) (b : BitVec 5) : Statement (.sub d a b) := fun w _ => by
  obtain ⟨n, e⟩ : ∃ n, n = encodeWord (.sub d a b) := ⟨_, rfl⟩
  have h_d := d.isLt
  have h_a := a.isLt
  have h_b := b.isLt
  have e' : n = 134217729 + d.toNat * 2097152 + a.toNat * 65536 + b.toNat * 2048 := e
  have e_op := fld_of n 26 6 2 (by omega)
  have e_n : n ≠ 0x04000000 := by omega
  have e_0_11 := fld_of n 0 11 1 (by omega)
  have f_d := bv_of d n 21 (by omega)
  have f_a := bv_of a n 16 (by omega)
  have f_b := bv_of b n 11 (by omega)
  have hs : decodeSlot n none = some (.sub d a b) := by
    have hp : shapeSlot n none = some (.sub d a b) := by
      simp [shapeSlot, shapeAlu, e_n, e_op, e_0_11, f_d, f_a, f_b]
    simp [decodeSlot, hp, w]
  have h := control_alone n none _ hs (by simp [e_op]) (by simp [isLdi64, e_op]) (Or.inl rfl)
  rw [e] at h
  exact h

theorem and_ (d : BitVec 5) (a : BitVec 5) (b : BitVec 5) : Statement (.and_ d a b) := fun w _ => by
  obtain ⟨n, e⟩ : ∃ n, n = encodeWord (.and_ d a b) := ⟨_, rfl⟩
  have h_d := d.isLt
  have h_a := a.isLt
  have h_b := b.isLt
  have e' : n = 134217730 + d.toNat * 2097152 + a.toNat * 65536 + b.toNat * 2048 := e
  have e_op := fld_of n 26 6 2 (by omega)
  have e_n : n ≠ 0x04000000 := by omega
  have e_0_11 := fld_of n 0 11 2 (by omega)
  have f_d := bv_of d n 21 (by omega)
  have f_a := bv_of a n 16 (by omega)
  have f_b := bv_of b n 11 (by omega)
  have hs : decodeSlot n none = some (.and_ d a b) := by
    have hp : shapeSlot n none = some (.and_ d a b) := by
      simp [shapeSlot, shapeAlu, e_n, e_op, e_0_11, f_d, f_a, f_b]
    simp [decodeSlot, hp, w]
  have h := control_alone n none _ hs (by simp [e_op]) (by simp [isLdi64, e_op]) (Or.inl rfl)
  rw [e] at h
  exact h

theorem or_ (d : BitVec 5) (a : BitVec 5) (b : BitVec 5) : Statement (.or_ d a b) := fun w _ => by
  obtain ⟨n, e⟩ : ∃ n, n = encodeWord (.or_ d a b) := ⟨_, rfl⟩
  have h_d := d.isLt
  have h_a := a.isLt
  have h_b := b.isLt
  have e' : n = 134217731 + d.toNat * 2097152 + a.toNat * 65536 + b.toNat * 2048 := e
  have e_op := fld_of n 26 6 2 (by omega)
  have e_n : n ≠ 0x04000000 := by omega
  have e_0_11 := fld_of n 0 11 3 (by omega)
  have f_d := bv_of d n 21 (by omega)
  have f_a := bv_of a n 16 (by omega)
  have f_b := bv_of b n 11 (by omega)
  have hs : decodeSlot n none = some (.or_ d a b) := by
    have hp : shapeSlot n none = some (.or_ d a b) := by
      simp [shapeSlot, shapeAlu, e_n, e_op, e_0_11, f_d, f_a, f_b]
    simp [decodeSlot, hp, w]
  have h := control_alone n none _ hs (by simp [e_op]) (by simp [isLdi64, e_op]) (Or.inl rfl)
  rw [e] at h
  exact h

theorem xor (d : BitVec 5) (a : BitVec 5) (b : BitVec 5) : Statement (.xor d a b) := fun w _ => by
  obtain ⟨n, e⟩ : ∃ n, n = encodeWord (.xor d a b) := ⟨_, rfl⟩
  have h_d := d.isLt
  have h_a := a.isLt
  have h_b := b.isLt
  have e' : n = 134217732 + d.toNat * 2097152 + a.toNat * 65536 + b.toNat * 2048 := e
  have e_op := fld_of n 26 6 2 (by omega)
  have e_n : n ≠ 0x04000000 := by omega
  have e_0_11 := fld_of n 0 11 4 (by omega)
  have f_d := bv_of d n 21 (by omega)
  have f_a := bv_of a n 16 (by omega)
  have f_b := bv_of b n 11 (by omega)
  have hs : decodeSlot n none = some (.xor d a b) := by
    have hp : shapeSlot n none = some (.xor d a b) := by
      simp [shapeSlot, shapeAlu, e_n, e_op, e_0_11, f_d, f_a, f_b]
    simp [decodeSlot, hp, w]
  have h := control_alone n none _ hs (by simp [e_op]) (by simp [isLdi64, e_op]) (Or.inl rfl)
  rw [e] at h
  exact h

theorem andn (d : BitVec 5) (a : BitVec 5) (b : BitVec 5) : Statement (.andn d a b) := fun w _ => by
  obtain ⟨n, e⟩ : ∃ n, n = encodeWord (.andn d a b) := ⟨_, rfl⟩
  have h_d := d.isLt
  have h_a := a.isLt
  have h_b := b.isLt
  have e' : n = 134217733 + d.toNat * 2097152 + a.toNat * 65536 + b.toNat * 2048 := e
  have e_op := fld_of n 26 6 2 (by omega)
  have e_n : n ≠ 0x04000000 := by omega
  have e_0_11 := fld_of n 0 11 5 (by omega)
  have f_d := bv_of d n 21 (by omega)
  have f_a := bv_of a n 16 (by omega)
  have f_b := bv_of b n 11 (by omega)
  have hs : decodeSlot n none = some (.andn d a b) := by
    have hp : shapeSlot n none = some (.andn d a b) := by
      simp [shapeSlot, shapeAlu, e_n, e_op, e_0_11, f_d, f_a, f_b]
    simp [decodeSlot, hp, w]
  have h := control_alone n none _ hs (by simp [e_op]) (by simp [isLdi64, e_op]) (Or.inl rfl)
  rw [e] at h
  exact h

theorem shl (d : BitVec 5) (a : BitVec 5) (b : BitVec 5) : Statement (.shl d a b) := fun w _ => by
  obtain ⟨n, e⟩ : ∃ n, n = encodeWord (.shl d a b) := ⟨_, rfl⟩
  have h_d := d.isLt
  have h_a := a.isLt
  have h_b := b.isLt
  have e' : n = 134217734 + d.toNat * 2097152 + a.toNat * 65536 + b.toNat * 2048 := e
  have e_op := fld_of n 26 6 2 (by omega)
  have e_n : n ≠ 0x04000000 := by omega
  have e_0_11 := fld_of n 0 11 6 (by omega)
  have f_d := bv_of d n 21 (by omega)
  have f_a := bv_of a n 16 (by omega)
  have f_b := bv_of b n 11 (by omega)
  have hs : decodeSlot n none = some (.shl d a b) := by
    have hp : shapeSlot n none = some (.shl d a b) := by
      simp [shapeSlot, shapeAlu, e_n, e_op, e_0_11, f_d, f_a, f_b]
    simp [decodeSlot, hp, w]
  have h := control_alone n none _ hs (by simp [e_op]) (by simp [isLdi64, e_op]) (Or.inl rfl)
  rw [e] at h
  exact h

theorem shr (d : BitVec 5) (a : BitVec 5) (b : BitVec 5) : Statement (.shr d a b) := fun w _ => by
  obtain ⟨n, e⟩ : ∃ n, n = encodeWord (.shr d a b) := ⟨_, rfl⟩
  have h_d := d.isLt
  have h_a := a.isLt
  have h_b := b.isLt
  have e' : n = 134217735 + d.toNat * 2097152 + a.toNat * 65536 + b.toNat * 2048 := e
  have e_op := fld_of n 26 6 2 (by omega)
  have e_n : n ≠ 0x04000000 := by omega
  have e_0_11 := fld_of n 0 11 7 (by omega)
  have f_d := bv_of d n 21 (by omega)
  have f_a := bv_of a n 16 (by omega)
  have f_b := bv_of b n 11 (by omega)
  have hs : decodeSlot n none = some (.shr d a b) := by
    have hp : shapeSlot n none = some (.shr d a b) := by
      simp [shapeSlot, shapeAlu, e_n, e_op, e_0_11, f_d, f_a, f_b]
    simp [decodeSlot, hp, w]
  have h := control_alone n none _ hs (by simp [e_op]) (by simp [isLdi64, e_op]) (Or.inl rfl)
  rw [e] at h
  exact h

theorem sra (d : BitVec 5) (a : BitVec 5) (b : BitVec 5) : Statement (.sra d a b) := fun w _ => by
  obtain ⟨n, e⟩ : ∃ n, n = encodeWord (.sra d a b) := ⟨_, rfl⟩
  have h_d := d.isLt
  have h_a := a.isLt
  have h_b := b.isLt
  have e' : n = 134217736 + d.toNat * 2097152 + a.toNat * 65536 + b.toNat * 2048 := e
  have e_op := fld_of n 26 6 2 (by omega)
  have e_n : n ≠ 0x04000000 := by omega
  have e_0_11 := fld_of n 0 11 8 (by omega)
  have f_d := bv_of d n 21 (by omega)
  have f_a := bv_of a n 16 (by omega)
  have f_b := bv_of b n 11 (by omega)
  have hs : decodeSlot n none = some (.sra d a b) := by
    have hp : shapeSlot n none = some (.sra d a b) := by
      simp [shapeSlot, shapeAlu, e_n, e_op, e_0_11, f_d, f_a, f_b]
    simp [decodeSlot, hp, w]
  have h := control_alone n none _ hs (by simp [e_op]) (by simp [isLdi64, e_op]) (Or.inl rfl)
  rw [e] at h
  exact h

theorem rol (d : BitVec 5) (a : BitVec 5) (b : BitVec 5) : Statement (.rol d a b) := fun w _ => by
  obtain ⟨n, e⟩ : ∃ n, n = encodeWord (.rol d a b) := ⟨_, rfl⟩
  have h_d := d.isLt
  have h_a := a.isLt
  have h_b := b.isLt
  have e' : n = 134217737 + d.toNat * 2097152 + a.toNat * 65536 + b.toNat * 2048 := e
  have e_op := fld_of n 26 6 2 (by omega)
  have e_n : n ≠ 0x04000000 := by omega
  have e_0_11 := fld_of n 0 11 9 (by omega)
  have f_d := bv_of d n 21 (by omega)
  have f_a := bv_of a n 16 (by omega)
  have f_b := bv_of b n 11 (by omega)
  have hs : decodeSlot n none = some (.rol d a b) := by
    have hp : shapeSlot n none = some (.rol d a b) := by
      simp [shapeSlot, shapeAlu, e_n, e_op, e_0_11, f_d, f_a, f_b]
    simp [decodeSlot, hp, w]
  have h := control_alone n none _ hs (by simp [e_op]) (by simp [isLdi64, e_op]) (Or.inl rfl)
  rw [e] at h
  exact h

theorem minI (d : BitVec 5) (a : BitVec 5) (b : BitVec 5) : Statement (.minI d a b) := fun w _ => by
  obtain ⟨n, e⟩ : ∃ n, n = encodeWord (.minI d a b) := ⟨_, rfl⟩
  have h_d := d.isLt
  have h_a := a.isLt
  have h_b := b.isLt
  have e' : n = 134217738 + d.toNat * 2097152 + a.toNat * 65536 + b.toNat * 2048 := e
  have e_op := fld_of n 26 6 2 (by omega)
  have e_n : n ≠ 0x04000000 := by omega
  have e_0_11 := fld_of n 0 11 10 (by omega)
  have f_d := bv_of d n 21 (by omega)
  have f_a := bv_of a n 16 (by omega)
  have f_b := bv_of b n 11 (by omega)
  have hs : decodeSlot n none = some (.minI d a b) := by
    have hp : shapeSlot n none = some (.minI d a b) := by
      simp [shapeSlot, shapeAlu, e_n, e_op, e_0_11, f_d, f_a, f_b]
    simp [decodeSlot, hp, w]
  have h := control_alone n none _ hs (by simp [e_op]) (by simp [isLdi64, e_op]) (Or.inl rfl)
  rw [e] at h
  exact h

theorem minN (d : BitVec 5) (a : BitVec 5) (b : BitVec 5) : Statement (.minN d a b) := fun w _ => by
  obtain ⟨n, e⟩ : ∃ n, n = encodeWord (.minN d a b) := ⟨_, rfl⟩
  have h_d := d.isLt
  have h_a := a.isLt
  have h_b := b.isLt
  have e' : n = 134217739 + d.toNat * 2097152 + a.toNat * 65536 + b.toNat * 2048 := e
  have e_op := fld_of n 26 6 2 (by omega)
  have e_n : n ≠ 0x04000000 := by omega
  have e_0_11 := fld_of n 0 11 11 (by omega)
  have f_d := bv_of d n 21 (by omega)
  have f_a := bv_of a n 16 (by omega)
  have f_b := bv_of b n 11 (by omega)
  have hs : decodeSlot n none = some (.minN d a b) := by
    have hp : shapeSlot n none = some (.minN d a b) := by
      simp [shapeSlot, shapeAlu, e_n, e_op, e_0_11, f_d, f_a, f_b]
    simp [decodeSlot, hp, w]
  have h := control_alone n none _ hs (by simp [e_op]) (by simp [isLdi64, e_op]) (Or.inl rfl)
  rw [e] at h
  exact h

theorem maxI (d : BitVec 5) (a : BitVec 5) (b : BitVec 5) : Statement (.maxI d a b) := fun w _ => by
  obtain ⟨n, e⟩ : ∃ n, n = encodeWord (.maxI d a b) := ⟨_, rfl⟩
  have h_d := d.isLt
  have h_a := a.isLt
  have h_b := b.isLt
  have e' : n = 134217740 + d.toNat * 2097152 + a.toNat * 65536 + b.toNat * 2048 := e
  have e_op := fld_of n 26 6 2 (by omega)
  have e_n : n ≠ 0x04000000 := by omega
  have e_0_11 := fld_of n 0 11 12 (by omega)
  have f_d := bv_of d n 21 (by omega)
  have f_a := bv_of a n 16 (by omega)
  have f_b := bv_of b n 11 (by omega)
  have hs : decodeSlot n none = some (.maxI d a b) := by
    have hp : shapeSlot n none = some (.maxI d a b) := by
      simp [shapeSlot, shapeAlu, e_n, e_op, e_0_11, f_d, f_a, f_b]
    simp [decodeSlot, hp, w]
  have h := control_alone n none _ hs (by simp [e_op]) (by simp [isLdi64, e_op]) (Or.inl rfl)
  rw [e] at h
  exact h

theorem maxN (d : BitVec 5) (a : BitVec 5) (b : BitVec 5) : Statement (.maxN d a b) := fun w _ => by
  obtain ⟨n, e⟩ : ∃ n, n = encodeWord (.maxN d a b) := ⟨_, rfl⟩
  have h_d := d.isLt
  have h_a := a.isLt
  have h_b := b.isLt
  have e' : n = 134217741 + d.toNat * 2097152 + a.toNat * 65536 + b.toNat * 2048 := e
  have e_op := fld_of n 26 6 2 (by omega)
  have e_n : n ≠ 0x04000000 := by omega
  have e_0_11 := fld_of n 0 11 13 (by omega)
  have f_d := bv_of d n 21 (by omega)
  have f_a := bv_of a n 16 (by omega)
  have f_b := bv_of b n 11 (by omega)
  have hs : decodeSlot n none = some (.maxN d a b) := by
    have hp : shapeSlot n none = some (.maxN d a b) := by
      simp [shapeSlot, shapeAlu, e_n, e_op, e_0_11, f_d, f_a, f_b]
    simp [decodeSlot, hp, w]
  have h := control_alone n none _ hs (by simp [e_op]) (by simp [isLdi64, e_op]) (Or.inl rfl)
  rw [e] at h
  exact h

theorem clz (d : BitVec 5) (a : BitVec 5) : Statement (.clz d a) := fun w _ => by
  obtain ⟨n, e⟩ : ∃ n, n = encodeWord (.clz d a) := ⟨_, rfl⟩
  have h_d := d.isLt
  have h_a := a.isLt
  have e' : n = 134217742 + d.toNat * 2097152 + a.toNat * 65536 := e
  have e_op := fld_of n 26 6 2 (by omega)
  have e_n : n ≠ 0x04000000 := by omega
  have e_0_11 := fld_of n 0 11 14 (by omega)
  have e_0_16 := fld_of n 0 16 14 (by omega)
  have f_d := bv_of d n 21 (by omega)
  have f_a := bv_of a n 16 (by omega)
  have hs : decodeSlot n none = some (.clz d a) := by
    have hp : shapeSlot n none = some (.clz d a) := by
      simp [shapeSlot, shapeAlu, e_n, e_op, e_0_11, e_0_16, f_d, f_a]
    simp [decodeSlot, hp, w]
  have h := control_alone n none _ hs (by simp [e_op]) (by simp [isLdi64, e_op]) (Or.inl rfl)
  rw [e] at h
  exact h

theorem popc (d : BitVec 5) (a : BitVec 5) : Statement (.popc d a) := fun w _ => by
  obtain ⟨n, e⟩ : ∃ n, n = encodeWord (.popc d a) := ⟨_, rfl⟩
  have h_d := d.isLt
  have h_a := a.isLt
  have e' : n = 134217743 + d.toNat * 2097152 + a.toNat * 65536 := e
  have e_op := fld_of n 26 6 2 (by omega)
  have e_n : n ≠ 0x04000000 := by omega
  have e_0_11 := fld_of n 0 11 15 (by omega)
  have e_0_16 := fld_of n 0 16 15 (by omega)
  have f_d := bv_of d n 21 (by omega)
  have f_a := bv_of a n 16 (by omega)
  have hs : decodeSlot n none = some (.popc d a) := by
    have hp : shapeSlot n none = some (.popc d a) := by
      simp [shapeSlot, shapeAlu, e_n, e_op, e_0_11, e_0_16, f_d, f_a]
    simp [decodeSlot, hp, w]
  have h := control_alone n none _ hs (by simp [e_op]) (by simp [isLdi64, e_op]) (Or.inl rfl)
  rw [e] at h
  exact h

theorem sel (d : BitVec 5) (a : BitVec 5) (b : BitVec 5) (c : BitVec 5) : Statement (.sel d a b c) := fun w _ => by
  obtain ⟨n, e⟩ : ∃ n, n = encodeWord (.sel d a b c) := ⟨_, rfl⟩
  have h_d := d.isLt
  have h_a := a.isLt
  have h_b := b.isLt
  have h_c := c.isLt
  have e' : n = 134217744 + d.toNat * 2097152 + a.toNat * 65536 + b.toNat * 2048 + c.toNat * 64 := e
  have e_op := fld_of n 26 6 2 (by omega)
  have e_n : n ≠ 0x04000000 := by omega
  have e_0_11_0 := fld_ne n 0 11 0 (by omega)
  have e_0_11_1 := fld_ne n 0 11 1 (by omega)
  have e_0_11_2 := fld_ne n 0 11 2 (by omega)
  have e_0_11_3 := fld_ne n 0 11 3 (by omega)
  have e_0_11_4 := fld_ne n 0 11 4 (by omega)
  have e_0_11_5 := fld_ne n 0 11 5 (by omega)
  have e_0_11_6 := fld_ne n 0 11 6 (by omega)
  have e_0_11_7 := fld_ne n 0 11 7 (by omega)
  have e_0_11_8 := fld_ne n 0 11 8 (by omega)
  have e_0_11_9 := fld_ne n 0 11 9 (by omega)
  have e_0_11_10 := fld_ne n 0 11 10 (by omega)
  have e_0_11_11 := fld_ne n 0 11 11 (by omega)
  have e_0_11_12 := fld_ne n 0 11 12 (by omega)
  have e_0_11_13 := fld_ne n 0 11 13 (by omega)
  have e_0_16_14 := fld_ne n 0 16 14 (by omega)
  have e_0_16_15 := fld_ne n 0 16 15 (by omega)
  have e_0_6 := fld_of n 0 6 16 (by omega)
  have f_d := bv_of d n 21 (by omega)
  have f_a := bv_of a n 16 (by omega)
  have f_b := bv_of b n 11 (by omega)
  have f_c := bv_of c n 6 (by omega)
  have hs : decodeSlot n none = some (.sel d a b c) := by
    have hp : shapeSlot n none = some (.sel d a b c) := by
      simp [shapeSlot, shapeAlu, e_n, e_op, e_0_11_0, e_0_11_1, e_0_11_2, e_0_11_3, e_0_11_4, e_0_11_5, e_0_11_6, e_0_11_7, e_0_11_8, e_0_11_9, e_0_11_10, e_0_11_11, e_0_11_12, e_0_11_13, e_0_16_14, e_0_16_15, e_0_6, f_d, f_a, f_b, f_c]
    simp [decodeSlot, hp, w]
  have h := control_alone n none _ hs (by simp [e_op]) (by simp [isLdi64, e_op]) (Or.inl rfl)
  rw [e] at h
  exact h

theorem addi (d : BitVec 5) (a : BitVec 5) (i : Imm 16) : Statement (.addi d a i) := fun w _ => by
  obtain ⟨n, e⟩ : ∃ n, n = encodeWord (.addi d a i) := ⟨_, rfl⟩
  have h_d := d.isLt
  have h_a := a.isLt
  have h_i := i.lo.isLt
  have e' : n = 201326592 + d.toNat * 2097152 + a.toNat * 65536 + i.lo.toNat := e
  have e_op := fld_of n 26 6 3 (by omega)
  have e_n : n ≠ 0x04000000 := by omega
  have f_d := bv_of d n 21 (by omega)
  have f_a := bv_of a n 16 (by omega)
  have f_i := bv_of i.lo n 0 (by omega)
  have hs : decodeSlot n i.ext = some (.addi d a i) := by
    have hp : shapeSlot n i.ext = some (.addi d a i) := by
      simp [shapeSlot, shapeAlu, e_n, e_op, f_d, f_a, f_i, immOf]
    simp [decodeSlot, hp, w]
  have h := control_alone n i.ext _ hs (by simp [e_op]) (by simp [isLdi64, e_op]) (Or.inr rfl)
  rw [e] at h
  exact h

theorem andi (d : BitVec 5) (a : BitVec 5) (i : Imm 16) : Statement (.andi d a i) := fun w _ => by
  obtain ⟨n, e⟩ : ∃ n, n = encodeWord (.andi d a i) := ⟨_, rfl⟩
  have h_d := d.isLt
  have h_a := a.isLt
  have h_i := i.lo.isLt
  have e' : n = 268435456 + d.toNat * 2097152 + a.toNat * 65536 + i.lo.toNat := e
  have e_op := fld_of n 26 6 4 (by omega)
  have e_n : n ≠ 0x04000000 := by omega
  have f_d := bv_of d n 21 (by omega)
  have f_a := bv_of a n 16 (by omega)
  have f_i := bv_of i.lo n 0 (by omega)
  have hs : decodeSlot n i.ext = some (.andi d a i) := by
    have hp : shapeSlot n i.ext = some (.andi d a i) := by
      simp [shapeSlot, shapeAlu, e_n, e_op, f_d, f_a, f_i, immOf]
    simp [decodeSlot, hp, w]
  have h := control_alone n i.ext _ hs (by simp [e_op]) (by simp [isLdi64, e_op]) (Or.inr rfl)
  rw [e] at h
  exact h

theorem ori (d : BitVec 5) (a : BitVec 5) (i : Imm 16) : Statement (.ori d a i) := fun w _ => by
  obtain ⟨n, e⟩ : ∃ n, n = encodeWord (.ori d a i) := ⟨_, rfl⟩
  have h_d := d.isLt
  have h_a := a.isLt
  have h_i := i.lo.isLt
  have e' : n = 335544320 + d.toNat * 2097152 + a.toNat * 65536 + i.lo.toNat := e
  have e_op := fld_of n 26 6 5 (by omega)
  have e_n : n ≠ 0x04000000 := by omega
  have f_d := bv_of d n 21 (by omega)
  have f_a := bv_of a n 16 (by omega)
  have f_i := bv_of i.lo n 0 (by omega)
  have hs : decodeSlot n i.ext = some (.ori d a i) := by
    have hp : shapeSlot n i.ext = some (.ori d a i) := by
      simp [shapeSlot, shapeAlu, e_n, e_op, f_d, f_a, f_i, immOf]
    simp [decodeSlot, hp, w]
  have h := control_alone n i.ext _ hs (by simp [e_op]) (by simp [isLdi64, e_op]) (Or.inr rfl)
  rw [e] at h
  exact h

theorem xori (d : BitVec 5) (a : BitVec 5) (i : Imm 16) : Statement (.xori d a i) := fun w _ => by
  obtain ⟨n, e⟩ : ∃ n, n = encodeWord (.xori d a i) := ⟨_, rfl⟩
  have h_d := d.isLt
  have h_a := a.isLt
  have h_i := i.lo.isLt
  have e' : n = 402653184 + d.toNat * 2097152 + a.toNat * 65536 + i.lo.toNat := e
  have e_op := fld_of n 26 6 6 (by omega)
  have e_n : n ≠ 0x04000000 := by omega
  have f_d := bv_of d n 21 (by omega)
  have f_a := bv_of a n 16 (by omega)
  have f_i := bv_of i.lo n 0 (by omega)
  have hs : decodeSlot n i.ext = some (.xori d a i) := by
    have hp : shapeSlot n i.ext = some (.xori d a i) := by
      simp [shapeSlot, shapeAlu, e_n, e_op, f_d, f_a, f_i, immOf]
    simp [decodeSlot, hp, w]
  have h := control_alone n i.ext _ hs (by simp [e_op]) (by simp [isLdi64, e_op]) (Or.inr rfl)
  rw [e] at h
  exact h

theorem shli (d : BitVec 5) (a : BitVec 5) (n0 : BitVec 6) : Statement (.shli d a n0) := fun w _ => by
  obtain ⟨n, e⟩ : ∃ n, n = encodeWord (.shli d a n0) := ⟨_, rfl⟩
  have h_d := d.isLt
  have h_a := a.isLt
  have h_n0 := n0.isLt
  have e' : n = 469762048 + d.toNat * 2097152 + a.toNat * 65536 + n0.toNat := e
  have e_op := fld_of n 26 6 7 (by omega)
  have e_n : n ≠ 0x04000000 := by omega
  have e_6_10 := fld_of n 6 10 0 (by omega)
  have f_d := bv_of d n 21 (by omega)
  have f_a := bv_of a n 16 (by omega)
  have f_n0 := bv_of n0 n 0 (by omega)
  have hs : decodeSlot n none = some (.shli d a n0) := by
    have hp : shapeSlot n none = some (.shli d a n0) := by
      simp [shapeSlot, shapeAlu, e_n, e_op, e_6_10, f_d, f_a, f_n0]
    simp [decodeSlot, hp, w]
  have h := control_alone n none _ hs (by simp [e_op]) (by simp [isLdi64, e_op]) (Or.inl rfl)
  rw [e] at h
  exact h

theorem shri (d : BitVec 5) (a : BitVec 5) (n0 : BitVec 6) : Statement (.shri d a n0) := fun w _ => by
  obtain ⟨n, e⟩ : ∃ n, n = encodeWord (.shri d a n0) := ⟨_, rfl⟩
  have h_d := d.isLt
  have h_a := a.isLt
  have h_n0 := n0.isLt
  have e' : n = 469778432 + d.toNat * 2097152 + a.toNat * 65536 + n0.toNat := e
  have e_op := fld_of n 26 6 7 (by omega)
  have e_n : n ≠ 0x04000000 := by omega
  have e_6_10 := fld_of n 6 10 256 (by omega)
  have f_d := bv_of d n 21 (by omega)
  have f_a := bv_of a n 16 (by omega)
  have f_n0 := bv_of n0 n 0 (by omega)
  have hs : decodeSlot n none = some (.shri d a n0) := by
    have hp : shapeSlot n none = some (.shri d a n0) := by
      simp [shapeSlot, shapeAlu, e_n, e_op, e_6_10, f_d, f_a, f_n0]
    simp [decodeSlot, hp, w]
  have h := control_alone n none _ hs (by simp [e_op]) (by simp [isLdi64, e_op]) (Or.inl rfl)
  rw [e] at h
  exact h

theorem srai (d : BitVec 5) (a : BitVec 5) (n0 : BitVec 6) : Statement (.srai d a n0) := fun w _ => by
  obtain ⟨n, e⟩ : ∃ n, n = encodeWord (.srai d a n0) := ⟨_, rfl⟩
  have h_d := d.isLt
  have h_a := a.isLt
  have h_n0 := n0.isLt
  have e' : n = 469794816 + d.toNat * 2097152 + a.toNat * 65536 + n0.toNat := e
  have e_op := fld_of n 26 6 7 (by omega)
  have e_n : n ≠ 0x04000000 := by omega
  have e_6_10 := fld_of n 6 10 512 (by omega)
  have f_d := bv_of d n 21 (by omega)
  have f_a := bv_of a n 16 (by omega)
  have f_n0 := bv_of n0 n 0 (by omega)
  have hs : decodeSlot n none = some (.srai d a n0) := by
    have hp : shapeSlot n none = some (.srai d a n0) := by
      simp [shapeSlot, shapeAlu, e_n, e_op, e_6_10, f_d, f_a, f_n0]
    simp [decodeSlot, hp, w]
  have h := control_alone n none _ hs (by simp [e_op]) (by simp [isLdi64, e_op]) (Or.inl rfl)
  rw [e] at h
  exact h

theorem roli (d : BitVec 5) (a : BitVec 5) (n0 : BitVec 6) : Statement (.roli d a n0) := fun w _ => by
  obtain ⟨n, e⟩ : ∃ n, n = encodeWord (.roli d a n0) := ⟨_, rfl⟩
  have h_d := d.isLt
  have h_a := a.isLt
  have h_n0 := n0.isLt
  have e' : n = 469811200 + d.toNat * 2097152 + a.toNat * 65536 + n0.toNat := e
  have e_op := fld_of n 26 6 7 (by omega)
  have e_n : n ≠ 0x04000000 := by omega
  have e_6_10 := fld_of n 6 10 768 (by omega)
  have f_d := bv_of d n 21 (by omega)
  have f_a := bv_of a n 16 (by omega)
  have f_n0 := bv_of n0 n 0 (by omega)
  have hs : decodeSlot n none = some (.roli d a n0) := by
    have hp : shapeSlot n none = some (.roli d a n0) := by
      simp [shapeSlot, shapeAlu, e_n, e_op, e_6_10, f_d, f_a, f_n0]
    simp [decodeSlot, hp, w]
  have h := control_alone n none _ hs (by simp [e_op]) (by simp [isLdi64, e_op]) (Or.inl rfl)
  rw [e] at h
  exact h

theorem ldi (d : BitVec 5) (k : BitVec 2) (i : BitVec 16) : Statement (.ldi d k i) := fun w _ => by
  obtain ⟨n, e⟩ : ∃ n, n = encodeWord (.ldi d k i) := ⟨_, rfl⟩
  have h_d := d.isLt
  have h_k := k.isLt
  have h_i := i.isLt
  have e' : n = 536870912 + d.toNat * 2097152 + k.toNat * 524288 + i.toNat := e
  have e_op := fld_of n 26 6 8 (by omega)
  have e_n : n ≠ 0x04000000 := by omega
  have e_16_3 := fld_of n 16 3 0 (by omega)
  have f_d := bv_of d n 21 (by omega)
  have f_k := bv_of k n 19 (by omega)
  have f_i := bv_of i n 0 (by omega)
  have hs : decodeSlot n none = some (.ldi d k i) := by
    have hp : shapeSlot n none = some (.ldi d k i) := by
      simp [shapeSlot, shapeAlu, e_n, e_op, e_16_3, f_d, f_k, f_i]
    simp [decodeSlot, hp, w]
  have h := control_alone n none _ hs (by simp [e_op]) (by simp [isLdi64, e_op, fld_ne n 17 1 1 (by omega)]) (Or.inl rfl)
  rw [e] at h
  exact h

theorem ldiKeep (d : BitVec 5) (k : BitVec 2) (i : BitVec 16) : Statement (.ldiKeep d k i) := fun w _ => by
  obtain ⟨n, e⟩ : ∃ n, n = encodeWord (.ldiKeep d k i) := ⟨_, rfl⟩
  have h_d := d.isLt
  have h_k := k.isLt
  have h_i := i.isLt
  have e' : n = 537133056 + d.toNat * 2097152 + k.toNat * 524288 + i.toNat := e
  have e_op := fld_of n 26 6 8 (by omega)
  have e_n : n ≠ 0x04000000 := by omega
  have e_16_3 := fld_of n 16 3 4 (by omega)
  have f_d := bv_of d n 21 (by omega)
  have f_k := bv_of k n 19 (by omega)
  have f_i := bv_of i n 0 (by omega)
  have hs : decodeSlot n none = some (.ldiKeep d k i) := by
    have hp : shapeSlot n none = some (.ldiKeep d k i) := by
      simp [shapeSlot, shapeAlu, e_n, e_op, e_16_3, f_d, f_k, f_i]
    simp [decodeSlot, hp, w]
  have h := control_alone n none _ hs (by simp [e_op]) (by simp [isLdi64, e_op, fld_ne n 17 1 1 (by omega)]) (Or.inl rfl)
  rw [e] at h
  exact h

theorem ldi64 (d : BitVec 5) (lit : Word) : Statement (.ldi64 d lit) := fun _ _ => by
  obtain ⟨n, e⟩ : ∃ n, n = encodeWord (.ldi64 d lit) := ⟨_, rfl⟩
  have h_d := d.isLt
  have h_l := lit.isLt
  have e' : n = 537001984 + d.toNat * 2097152 := e
  have hd : isLdi64 n = true := by
    simp only [isLdi64, fld_of n 26 6 8 (by omega), fld_of n 17 1 1 (by omega)]; rfl
  have hb : decodeBundle literalHeader n (lit.toNat % 2 ^ 32) (lit.toNat / 2 ^ 32) = .inl [(1, .ldi64 d lit)] := by
    have h1 : fld literalHeader 26 6 = 0x3F := rfl
    have h2 : fld literalHeader 24 2 = 1 := rfl
    have h3 : fld literalHeader 0 24 = 0 := rfl
    simp only [decodeBundle, h1, h2, h3, hd, fld_of n 16 1 0 (by omega), fld_of n 18 3 0 (by omega),
      fld_of n 0 16 0 (by omega), bv_of d n 21 (by omega)]
    simp [Nat.div_add_mod']
  have h : decodeAlone .control [literalHeader, n, lit.toNat % 2 ^ 32, lit.toNat / 2 ^ 32] = some (.ldi64 d lit) := by
    simp only [decodeAlone, hb]
  rw [e] at h
  exact h

theorem cmp (d : BitVec 5) (a : BitVec 5) (b : BitVec 5) (c : BitVec 3) : Statement (.cmp d a b c) := fun w _ => by
  obtain ⟨n, e⟩ : ∃ n, n = encodeWord (.cmp d a b c) := ⟨_, rfl⟩
  have h_d := d.isLt
  have h_a := a.isLt
  have h_b := b.isLt
  have h_c := c.isLt
  have e' : n = 603979776 + d.toNat * 2097152 + a.toNat * 65536 + b.toNat * 2048 + c.toNat := e
  have e_op := fld_of n 26 6 9 (by omega)
  have e_n : n ≠ 0x04000000 := by omega
  have e_3_8 := fld_of n 3 8 0 (by omega)
  have f_d := bv_of d n 21 (by omega)
  have f_a := bv_of a n 16 (by omega)
  have f_b := bv_of b n 11 (by omega)
  have f_c := bv_of c n 0 (by omega)
  have hs : decodeSlot n none = some (.cmp d a b c) := by
    have hp : shapeSlot n none = some (.cmp d a b c) := by
      simp [shapeSlot, shapeAlu, e_n, e_op, e_3_8, f_d, f_a, f_b, f_c]
    simp [decodeSlot, hp, w]
  have h := control_alone n none _ hs (by simp [e_op]) (by simp [isLdi64, e_op]) (Or.inl rfl)
  rw [e] at h
  exact h

theorem cmpi (d : BitVec 5) (a : BitVec 5) (c : BitVec 3) (i : Imm 13) : Statement (.cmpi d a c i) := fun w _ => by
  obtain ⟨n, e⟩ : ∃ n, n = encodeWord (.cmpi d a c i) := ⟨_, rfl⟩
  have h_d := d.isLt
  have h_a := a.isLt
  have h_c := c.isLt
  have h_i := i.lo.isLt
  have e' : n = 671088640 + d.toNat * 2097152 + a.toNat * 65536 + c.toNat * 8192 + i.lo.toNat := e
  have e_op := fld_of n 26 6 10 (by omega)
  have e_n : n ≠ 0x04000000 := by omega
  have f_d := bv_of d n 21 (by omega)
  have f_a := bv_of a n 16 (by omega)
  have f_c := bv_of c n 13 (by omega)
  have f_i := bv_of i.lo n 0 (by omega)
  have hs : decodeSlot n i.ext = some (.cmpi d a c i) := by
    have hp : shapeSlot n i.ext = some (.cmpi d a c i) := by
      simp [shapeSlot, shapeAlu, e_n, e_op, f_d, f_a, f_c, f_i, immOf]
    simp [decodeSlot, hp, w]
  have h := control_alone n i.ext _ hs (by simp [e_op]) (by simp [isLdi64, e_op]) (Or.inr rfl)
  rw [e] at h
  exact h

theorem mul (d : BitVec 5) (a : BitVec 5) (b : BitVec 5) : Statement (.mul d a b) := fun w _ => by
  obtain ⟨n, e⟩ : ∃ n, n = encodeWord (.mul d a b) := ⟨_, rfl⟩
  have h_d := d.isLt
  have h_a := a.isLt
  have h_b := b.isLt
  have e' : n = 738197504 + d.toNat * 2097152 + a.toNat * 65536 + b.toNat * 2048 := e
  have e_op := fld_of n 26 6 11 (by omega)
  have e_n : n ≠ 0x04000000 := by omega
  have e_0_11 := fld_of n 0 11 0 (by omega)
  have f_d := bv_of d n 21 (by omega)
  have f_a := bv_of a n 16 (by omega)
  have f_b := bv_of b n 11 (by omega)
  have hs : decodeSlot n none = some (.mul d a b) := by
    have hp : shapeSlot n none = some (.mul d a b) := by
      simp [shapeSlot, shapeAlu, e_n, e_op, e_0_11, f_d, f_a, f_b]
    simp [decodeSlot, hp, w]
  have h := control_alone n none _ hs (by simp [e_op]) (by simp [isLdi64, e_op]) (Or.inl rfl)
  rw [e] at h
  exact h

theorem mulhI (d : BitVec 5) (a : BitVec 5) (b : BitVec 5) : Statement (.mulhI d a b) := fun w _ => by
  obtain ⟨n, e⟩ : ∃ n, n = encodeWord (.mulhI d a b) := ⟨_, rfl⟩
  have h_d := d.isLt
  have h_a := a.isLt
  have h_b := b.isLt
  have e' : n = 738197505 + d.toNat * 2097152 + a.toNat * 65536 + b.toNat * 2048 := e
  have e_op := fld_of n 26 6 11 (by omega)
  have e_n : n ≠ 0x04000000 := by omega
  have e_0_11 := fld_of n 0 11 1 (by omega)
  have f_d := bv_of d n 21 (by omega)
  have f_a := bv_of a n 16 (by omega)
  have f_b := bv_of b n 11 (by omega)
  have hs : decodeSlot n none = some (.mulhI d a b) := by
    have hp : shapeSlot n none = some (.mulhI d a b) := by
      simp [shapeSlot, shapeAlu, e_n, e_op, e_0_11, f_d, f_a, f_b]
    simp [decodeSlot, hp, w]
  have h := control_alone n none _ hs (by simp [e_op]) (by simp [isLdi64, e_op]) (Or.inl rfl)
  rw [e] at h
  exact h

theorem mulhN (d : BitVec 5) (a : BitVec 5) (b : BitVec 5) : Statement (.mulhN d a b) := fun w _ => by
  obtain ⟨n, e⟩ : ∃ n, n = encodeWord (.mulhN d a b) := ⟨_, rfl⟩
  have h_d := d.isLt
  have h_a := a.isLt
  have h_b := b.isLt
  have e' : n = 738197506 + d.toNat * 2097152 + a.toNat * 65536 + b.toNat * 2048 := e
  have e_op := fld_of n 26 6 11 (by omega)
  have e_n : n ≠ 0x04000000 := by omega
  have e_0_11 := fld_of n 0 11 2 (by omega)
  have f_d := bv_of d n 21 (by omega)
  have f_a := bv_of a n 16 (by omega)
  have f_b := bv_of b n 11 (by omega)
  have hs : decodeSlot n none = some (.mulhN d a b) := by
    have hp : shapeSlot n none = some (.mulhN d a b) := by
      simp [shapeSlot, shapeAlu, e_n, e_op, e_0_11, f_d, f_a, f_b]
    simp [decodeSlot, hp, w]
  have h := control_alone n none _ hs (by simp [e_op]) (by simp [isLdi64, e_op]) (Or.inl rfl)
  rw [e] at h
  exact h

theorem divI (d : BitVec 5) (a : BitVec 5) (b : BitVec 5) : Statement (.divI d a b) := fun w _ => by
  obtain ⟨n, e⟩ : ∃ n, n = encodeWord (.divI d a b) := ⟨_, rfl⟩
  have h_d := d.isLt
  have h_a := a.isLt
  have h_b := b.isLt
  have e' : n = 738197507 + d.toNat * 2097152 + a.toNat * 65536 + b.toNat * 2048 := e
  have e_op := fld_of n 26 6 11 (by omega)
  have e_n : n ≠ 0x04000000 := by omega
  have e_0_11 := fld_of n 0 11 3 (by omega)
  have f_d := bv_of d n 21 (by omega)
  have f_a := bv_of a n 16 (by omega)
  have f_b := bv_of b n 11 (by omega)
  have hs : decodeSlot n none = some (.divI d a b) := by
    have hp : shapeSlot n none = some (.divI d a b) := by
      simp [shapeSlot, shapeAlu, e_n, e_op, e_0_11, f_d, f_a, f_b]
    simp [decodeSlot, hp, w]
  have h := control_alone n none _ hs (by simp [e_op]) (by simp [isLdi64, e_op]) (Or.inl rfl)
  rw [e] at h
  exact h

theorem divN (d : BitVec 5) (a : BitVec 5) (b : BitVec 5) : Statement (.divN d a b) := fun w _ => by
  obtain ⟨n, e⟩ : ∃ n, n = encodeWord (.divN d a b) := ⟨_, rfl⟩
  have h_d := d.isLt
  have h_a := a.isLt
  have h_b := b.isLt
  have e' : n = 738197508 + d.toNat * 2097152 + a.toNat * 65536 + b.toNat * 2048 := e
  have e_op := fld_of n 26 6 11 (by omega)
  have e_n : n ≠ 0x04000000 := by omega
  have e_0_11 := fld_of n 0 11 4 (by omega)
  have f_d := bv_of d n 21 (by omega)
  have f_a := bv_of a n 16 (by omega)
  have f_b := bv_of b n 11 (by omega)
  have hs : decodeSlot n none = some (.divN d a b) := by
    have hp : shapeSlot n none = some (.divN d a b) := by
      simp [shapeSlot, shapeAlu, e_n, e_op, e_0_11, f_d, f_a, f_b]
    simp [decodeSlot, hp, w]
  have h := control_alone n none _ hs (by simp [e_op]) (by simp [isLdi64, e_op]) (Or.inl rfl)
  rw [e] at h
  exact h

theorem remI (d : BitVec 5) (a : BitVec 5) (b : BitVec 5) : Statement (.remI d a b) := fun w _ => by
  obtain ⟨n, e⟩ : ∃ n, n = encodeWord (.remI d a b) := ⟨_, rfl⟩
  have h_d := d.isLt
  have h_a := a.isLt
  have h_b := b.isLt
  have e' : n = 738197509 + d.toNat * 2097152 + a.toNat * 65536 + b.toNat * 2048 := e
  have e_op := fld_of n 26 6 11 (by omega)
  have e_n : n ≠ 0x04000000 := by omega
  have e_0_11 := fld_of n 0 11 5 (by omega)
  have f_d := bv_of d n 21 (by omega)
  have f_a := bv_of a n 16 (by omega)
  have f_b := bv_of b n 11 (by omega)
  have hs : decodeSlot n none = some (.remI d a b) := by
    have hp : shapeSlot n none = some (.remI d a b) := by
      simp [shapeSlot, shapeAlu, e_n, e_op, e_0_11, f_d, f_a, f_b]
    simp [decodeSlot, hp, w]
  have h := control_alone n none _ hs (by simp [e_op]) (by simp [isLdi64, e_op]) (Or.inl rfl)
  rw [e] at h
  exact h

theorem remN (d : BitVec 5) (a : BitVec 5) (b : BitVec 5) : Statement (.remN d a b) := fun w _ => by
  obtain ⟨n, e⟩ : ∃ n, n = encodeWord (.remN d a b) := ⟨_, rfl⟩
  have h_d := d.isLt
  have h_a := a.isLt
  have h_b := b.isLt
  have e' : n = 738197510 + d.toNat * 2097152 + a.toNat * 65536 + b.toNat * 2048 := e
  have e_op := fld_of n 26 6 11 (by omega)
  have e_n : n ≠ 0x04000000 := by omega
  have e_0_11 := fld_of n 0 11 6 (by omega)
  have f_d := bv_of d n 21 (by omega)
  have f_a := bv_of a n 16 (by omega)
  have f_b := bv_of b n 11 (by omega)
  have hs : decodeSlot n none = some (.remN d a b) := by
    have hp : shapeSlot n none = some (.remN d a b) := by
      simp [shapeSlot, shapeAlu, e_n, e_op, e_0_11, f_d, f_a, f_b]
    simp [decodeSlot, hp, w]
  have h := control_alone n none _ hs (by simp [e_op]) (by simp [isLdi64, e_op]) (Or.inl rfl)
  rw [e] at h
  exact h

theorem bfxI (d : BitVec 5) (a : BitVec 5) (b : BitVec 5) : Statement (.bfxI d a b) := fun w _ => by
  obtain ⟨n, e⟩ : ∃ n, n = encodeWord (.bfxI d a b) := ⟨_, rfl⟩
  have h_d := d.isLt
  have h_a := a.isLt
  have h_b := b.isLt
  have e' : n = 805306368 + d.toNat * 2097152 + a.toNat * 65536 + b.toNat * 2048 := e
  have e_op := fld_of n 26 6 12 (by omega)
  have e_n : n ≠ 0x04000000 := by omega
  have e_0_11 := fld_of n 0 11 0 (by omega)
  have f_d := bv_of d n 21 (by omega)
  have f_a := bv_of a n 16 (by omega)
  have f_b := bv_of b n 11 (by omega)
  have hs : decodeSlot n none = some (.bfxI d a b) := by
    have hp : shapeSlot n none = some (.bfxI d a b) := by
      simp [shapeSlot, shapeAlu, e_n, e_op, e_0_11, f_d, f_a, f_b]
    simp [decodeSlot, hp, w]
  have h := control_alone n none _ hs (by simp [e_op]) (by simp [isLdi64, e_op]) (Or.inl rfl)
  rw [e] at h
  exact h

theorem bfxN (d : BitVec 5) (a : BitVec 5) (b : BitVec 5) : Statement (.bfxN d a b) := fun w _ => by
  obtain ⟨n, e⟩ : ∃ n, n = encodeWord (.bfxN d a b) := ⟨_, rfl⟩
  have h_d := d.isLt
  have h_a := a.isLt
  have h_b := b.isLt
  have e' : n = 805306369 + d.toNat * 2097152 + a.toNat * 65536 + b.toNat * 2048 := e
  have e_op := fld_of n 26 6 12 (by omega)
  have e_n : n ≠ 0x04000000 := by omega
  have e_0_11 := fld_of n 0 11 1 (by omega)
  have f_d := bv_of d n 21 (by omega)
  have f_a := bv_of a n 16 (by omega)
  have f_b := bv_of b n 11 (by omega)
  have hs : decodeSlot n none = some (.bfxN d a b) := by
    have hp : shapeSlot n none = some (.bfxN d a b) := by
      simp [shapeSlot, shapeAlu, e_n, e_op, e_0_11, f_d, f_a, f_b]
    simp [decodeSlot, hp, w]
  have h := control_alone n none _ hs (by simp [e_op]) (by simp [isLdi64, e_op]) (Or.inl rfl)
  rw [e] at h
  exact h

theorem bfi (d : BitVec 5) (a : BitVec 5) (b : BitVec 5) : Statement (.bfi d a b) := fun w _ => by
  obtain ⟨n, e⟩ : ∃ n, n = encodeWord (.bfi d a b) := ⟨_, rfl⟩
  have h_d := d.isLt
  have h_a := a.isLt
  have h_b := b.isLt
  have e' : n = 805306370 + d.toNat * 2097152 + a.toNat * 65536 + b.toNat * 2048 := e
  have e_op := fld_of n 26 6 12 (by omega)
  have e_n : n ≠ 0x04000000 := by omega
  have e_0_11 := fld_of n 0 11 2 (by omega)
  have f_d := bv_of d n 21 (by omega)
  have f_a := bv_of a n 16 (by omega)
  have f_b := bv_of b n 11 (by omega)
  have hs : decodeSlot n none = some (.bfi d a b) := by
    have hp : shapeSlot n none = some (.bfi d a b) := by
      simp [shapeSlot, shapeAlu, e_n, e_op, e_0_11, f_d, f_a, f_b]
    simp [decodeSlot, hp, w]
  have h := control_alone n none _ hs (by simp [e_op]) (by simp [isLdi64, e_op]) (Or.inl rfl)
  rw [e] at h
  exact h

theorem fshl (d : BitVec 5) (a : BitVec 5) (b : BitVec 5) (c : BitVec 5) : Statement (.fshl d a b c) := fun w _ => by
  obtain ⟨n, e⟩ : ∃ n, n = encodeWord (.fshl d a b c) := ⟨_, rfl⟩
  have h_d := d.isLt
  have h_a := a.isLt
  have h_b := b.isLt
  have h_c := c.isLt
  have e' : n = 805306371 + d.toNat * 2097152 + a.toNat * 65536 + b.toNat * 2048 + c.toNat * 64 := e
  have e_op := fld_of n 26 6 12 (by omega)
  have e_n : n ≠ 0x04000000 := by omega
  have e_0_11_0 := fld_ne n 0 11 0 (by omega)
  have e_0_11_1 := fld_ne n 0 11 1 (by omega)
  have e_0_11_2 := fld_ne n 0 11 2 (by omega)
  have e_0_6 := fld_of n 0 6 3 (by omega)
  have f_d := bv_of d n 21 (by omega)
  have f_a := bv_of a n 16 (by omega)
  have f_b := bv_of b n 11 (by omega)
  have f_c := bv_of c n 6 (by omega)
  have hs : decodeSlot n none = some (.fshl d a b c) := by
    have hp : shapeSlot n none = some (.fshl d a b c) := by
      simp [shapeSlot, shapeAlu, e_n, e_op, e_0_11_0, e_0_11_1, e_0_11_2, e_0_6, f_d, f_a, f_b, f_c]
    simp [decodeSlot, hp, w]
  have h := control_alone n none _ hs (by simp [e_op]) (by simp [isLdi64, e_op]) (Or.inl rfl)
  rw [e] at h
  exact h

theorem fshr (d : BitVec 5) (a : BitVec 5) (b : BitVec 5) (c : BitVec 5) : Statement (.fshr d a b c) := fun w _ => by
  obtain ⟨n, e⟩ : ∃ n, n = encodeWord (.fshr d a b c) := ⟨_, rfl⟩
  have h_d := d.isLt
  have h_a := a.isLt
  have h_b := b.isLt
  have h_c := c.isLt
  have e' : n = 805306372 + d.toNat * 2097152 + a.toNat * 65536 + b.toNat * 2048 + c.toNat * 64 := e
  have e_op := fld_of n 26 6 12 (by omega)
  have e_n : n ≠ 0x04000000 := by omega
  have e_0_11_0 := fld_ne n 0 11 0 (by omega)
  have e_0_11_1 := fld_ne n 0 11 1 (by omega)
  have e_0_11_2 := fld_ne n 0 11 2 (by omega)
  have e_0_6 := fld_of n 0 6 4 (by omega)
  have f_d := bv_of d n 21 (by omega)
  have f_a := bv_of a n 16 (by omega)
  have f_b := bv_of b n 11 (by omega)
  have f_c := bv_of c n 6 (by omega)
  have hs : decodeSlot n none = some (.fshr d a b c) := by
    have hp : shapeSlot n none = some (.fshr d a b c) := by
      simp [shapeSlot, shapeAlu, e_n, e_op, e_0_11_0, e_0_11_1, e_0_11_2, e_0_6, f_d, f_a, f_b, f_c]
    simp [decodeSlot, hp, w]
  have h := control_alone n none _ hs (by simp [e_op]) (by simp [isLdi64, e_op]) (Or.inl rfl)
  rw [e] at h
  exact h

theorem bfxIImm (d : BitVec 5) (a : BitVec 5) (w0 : BitVec 6) (o : BitVec 6) : Statement (.bfxIImm d a w0 o) := fun w _ => by
  obtain ⟨n, e⟩ : ∃ n, n = encodeWord (.bfxIImm d a w0 o) := ⟨_, rfl⟩
  have h_d := d.isLt
  have h_a := a.isLt
  have h_w0 := w0.isLt
  have h_o := o.isLt
  have e' : n = 872415232 + d.toNat * 2097152 + a.toNat * 65536 + w0.toNat * 64 + o.toNat := e
  have e_op := fld_of n 26 6 13 (by omega)
  have e_n : n ≠ 0x04000000 := by omega
  have e_12_4 := fld_of n 12 4 0 (by omega)
  have f_d := bv_of d n 21 (by omega)
  have f_a := bv_of a n 16 (by omega)
  have f_w0 := bv_of w0 n 6 (by omega)
  have f_o := bv_of o n 0 (by omega)
  have hs : decodeSlot n none = some (.bfxIImm d a w0 o) := by
    have hp : shapeSlot n none = some (.bfxIImm d a w0 o) := by
      simp [shapeSlot, shapeAlu, e_n, e_op, e_12_4, f_d, f_a, f_w0, f_o]
    simp [decodeSlot, hp, w]
  have h := control_alone n none _ hs (by simp [e_op]) (by simp [isLdi64, e_op]) (Or.inl rfl)
  rw [e] at h
  exact h

theorem bfxNImm (d : BitVec 5) (a : BitVec 5) (w0 : BitVec 6) (o : BitVec 6) : Statement (.bfxNImm d a w0 o) := fun w _ => by
  obtain ⟨n, e⟩ : ∃ n, n = encodeWord (.bfxNImm d a w0 o) := ⟨_, rfl⟩
  have h_d := d.isLt
  have h_a := a.isLt
  have h_w0 := w0.isLt
  have h_o := o.isLt
  have e' : n = 872419328 + d.toNat * 2097152 + a.toNat * 65536 + w0.toNat * 64 + o.toNat := e
  have e_op := fld_of n 26 6 13 (by omega)
  have e_n : n ≠ 0x04000000 := by omega
  have e_12_4 := fld_of n 12 4 1 (by omega)
  have f_d := bv_of d n 21 (by omega)
  have f_a := bv_of a n 16 (by omega)
  have f_w0 := bv_of w0 n 6 (by omega)
  have f_o := bv_of o n 0 (by omega)
  have hs : decodeSlot n none = some (.bfxNImm d a w0 o) := by
    have hp : shapeSlot n none = some (.bfxNImm d a w0 o) := by
      simp [shapeSlot, shapeAlu, e_n, e_op, e_12_4, f_d, f_a, f_w0, f_o]
    simp [decodeSlot, hp, w]
  have h := control_alone n none _ hs (by simp [e_op]) (by simp [isLdi64, e_op]) (Or.inl rfl)
  rw [e] at h
  exact h

theorem bfiImm (d : BitVec 5) (a : BitVec 5) (w0 : BitVec 6) (o : BitVec 6) : Statement (.bfiImm d a w0 o) := fun w _ => by
  obtain ⟨n, e⟩ : ∃ n, n = encodeWord (.bfiImm d a w0 o) := ⟨_, rfl⟩
  have h_d := d.isLt
  have h_a := a.isLt
  have h_w0 := w0.isLt
  have h_o := o.isLt
  have e' : n = 872423424 + d.toNat * 2097152 + a.toNat * 65536 + w0.toNat * 64 + o.toNat := e
  have e_op := fld_of n 26 6 13 (by omega)
  have e_n : n ≠ 0x04000000 := by omega
  have e_12_4 := fld_of n 12 4 2 (by omega)
  have f_d := bv_of d n 21 (by omega)
  have f_a := bv_of a n 16 (by omega)
  have f_w0 := bv_of w0 n 6 (by omega)
  have f_o := bv_of o n 0 (by omega)
  have hs : decodeSlot n none = some (.bfiImm d a w0 o) := by
    have hp : shapeSlot n none = some (.bfiImm d a w0 o) := by
      simp [shapeSlot, shapeAlu, e_n, e_op, e_12_4, f_d, f_a, f_w0, f_o]
    simp [decodeSlot, hp, w]
  have h := control_alone n none _ hs (by simp [e_op]) (by simp [isLdi64, e_op]) (Or.inl rfl)
  rw [e] at h
  exact h

theorem ld (d : BitVec 5) (h0 : BitVec 4) (s : BitVec 3) (i : Imm 14) : Statement (.ld d h0 s i) := fun w _ => by
  obtain ⟨n, e⟩ : ∃ n, n = encodeWord (.ld d h0 s i) := ⟨_, rfl⟩
  have h_d := d.isLt
  have h_h0 := h0.isLt
  have h_s := s.isLt
  have h_i := i.lo.isLt
  have e' : n = 1073741824 + d.toNat * 2097152 + h0.toNat * 131072 + s.toNat * 16384 + i.lo.toNat := e
  have e_op := fld_of n 26 6 16 (by omega)
  have e_n : n ≠ 0x04000000 := by omega
  have f_d := bv_of d n 21 (by omega)
  have f_h0 := bv_of h0 n 17 (by omega)
  have f_s := bv_of s n 14 (by omega)
  have f_i := bv_of i.lo n 0 (by omega)
  have hs : decodeSlot n i.ext = some (.ld d h0 s i) := by
    have hp : shapeSlot n i.ext = some (.ld d h0 s i) := by
      simp [shapeSlot, shapeMem, e_n, e_op, f_d, f_h0, f_s, f_i, immOf]
    simp [decodeSlot, hp, w]
  have h := control_alone n i.ext _ hs (by simp [e_op]) (by simp [isLdi64, e_op]) (Or.inr rfl)
  rw [e] at h
  exact h

theorem ldx (d : BitVec 5) (h0 : BitVec 4) (s : BitVec 3) (b : BitVec 5) (c : BitVec 2) : Statement (.ldx d h0 s b c) := fun w _ => by
  obtain ⟨n, e⟩ : ∃ n, n = encodeWord (.ldx d h0 s b c) := ⟨_, rfl⟩
  have h_d := d.isLt
  have h_h0 := h0.isLt
  have h_s := s.isLt
  have h_b := b.isLt
  have h_c := c.isLt
  have e' : n = 1140850688 + d.toNat * 2097152 + h0.toNat * 131072 + s.toNat * 16384 + b.toNat * 512 + c.toNat * 128 := e
  have e_op := fld_of n 26 6 17 (by omega)
  have e_n : n ≠ 0x04000000 := by omega
  have e_0_7 := fld_of n 0 7 0 (by omega)
  have f_d := bv_of d n 21 (by omega)
  have f_h0 := bv_of h0 n 17 (by omega)
  have f_s := bv_of s n 14 (by omega)
  have f_b := bv_of b n 9 (by omega)
  have f_c := bv_of c n 7 (by omega)
  have hs : decodeSlot n none = some (.ldx d h0 s b c) := by
    have hp : shapeSlot n none = some (.ldx d h0 s b c) := by
      simp [shapeSlot, shapeMem, e_n, e_op, e_0_7, f_d, f_h0, f_s, f_b, f_c]
    simp [decodeSlot, hp, w]
  have h := control_alone n none _ hs (by simp [e_op]) (by simp [isLdi64, e_op]) (Or.inl rfl)
  rw [e] at h
  exact h

theorem st (d : BitVec 5) (h0 : BitVec 4) (s : BitVec 3) (i : Imm 14) : Statement (.st d h0 s i) := fun w _ => by
  obtain ⟨n, e⟩ : ∃ n, n = encodeWord (.st d h0 s i) := ⟨_, rfl⟩
  have h_d := d.isLt
  have h_h0 := h0.isLt
  have h_s := s.isLt
  have h_i := i.lo.isLt
  have e' : n = 1207959552 + d.toNat * 2097152 + h0.toNat * 131072 + s.toNat * 16384 + i.lo.toNat := e
  have e_op := fld_of n 26 6 18 (by omega)
  have e_n : n ≠ 0x04000000 := by omega
  have f_d := bv_of d n 21 (by omega)
  have f_h0 := bv_of h0 n 17 (by omega)
  have f_s := bv_of s n 14 (by omega)
  have f_i := bv_of i.lo n 0 (by omega)
  have hs : decodeSlot n i.ext = some (.st d h0 s i) := by
    have hp : shapeSlot n i.ext = some (.st d h0 s i) := by
      simp [shapeSlot, shapeMem, e_n, e_op, f_d, f_h0, f_s, f_i, immOf]
    simp [decodeSlot, hp, w]
  have h := control_alone n i.ext _ hs (by simp [e_op]) (by simp [isLdi64, e_op]) (Or.inr rfl)
  rw [e] at h
  exact h

theorem stx (d : BitVec 5) (h0 : BitVec 4) (s : BitVec 3) (b : BitVec 5) (c : BitVec 2) : Statement (.stx d h0 s b c) := fun w _ => by
  obtain ⟨n, e⟩ : ∃ n, n = encodeWord (.stx d h0 s b c) := ⟨_, rfl⟩
  have h_d := d.isLt
  have h_h0 := h0.isLt
  have h_s := s.isLt
  have h_b := b.isLt
  have h_c := c.isLt
  have e' : n = 1275068416 + d.toNat * 2097152 + h0.toNat * 131072 + s.toNat * 16384 + b.toNat * 512 + c.toNat * 128 := e
  have e_op := fld_of n 26 6 19 (by omega)
  have e_n : n ≠ 0x04000000 := by omega
  have e_0_7 := fld_of n 0 7 0 (by omega)
  have f_d := bv_of d n 21 (by omega)
  have f_h0 := bv_of h0 n 17 (by omega)
  have f_s := bv_of s n 14 (by omega)
  have f_b := bv_of b n 9 (by omega)
  have f_c := bv_of c n 7 (by omega)
  have hs : decodeSlot n none = some (.stx d h0 s b c) := by
    have hp : shapeSlot n none = some (.stx d h0 s b c) := by
      simp [shapeSlot, shapeMem, e_n, e_op, e_0_7, f_d, f_h0, f_s, f_b, f_c]
    simp [decodeSlot, hp, w]
  have h := control_alone n none _ hs (by simp [e_op]) (by simp [isLdi64, e_op]) (Or.inl rfl)
  rw [e] at h
  exact h

theorem ldAcq (d : BitVec 5) (h0 : BitVec 4) (s : BitVec 3) (i : Imm 14) : Statement (.ldAcq d h0 s i) := fun w _ => by
  obtain ⟨n, e⟩ : ∃ n, n = encodeWord (.ldAcq d h0 s i) := ⟨_, rfl⟩
  have h_d := d.isLt
  have h_h0 := h0.isLt
  have h_s := s.isLt
  have h_i := i.lo.isLt
  have e' : n = 1342177280 + d.toNat * 2097152 + h0.toNat * 131072 + s.toNat * 16384 + i.lo.toNat := e
  have e_op := fld_of n 26 6 20 (by omega)
  have e_n : n ≠ 0x04000000 := by omega
  have f_d := bv_of d n 21 (by omega)
  have f_h0 := bv_of h0 n 17 (by omega)
  have f_s := bv_of s n 14 (by omega)
  have f_i := bv_of i.lo n 0 (by omega)
  have hs : decodeSlot n i.ext = some (.ldAcq d h0 s i) := by
    have hp : shapeSlot n i.ext = some (.ldAcq d h0 s i) := by
      simp [shapeSlot, shapeMem, e_n, e_op, f_d, f_h0, f_s, f_i, immOf]
    simp [decodeSlot, hp, w]
  have h := control_alone n i.ext _ hs (by simp [e_op]) (by simp [isLdi64, e_op]) (Or.inr rfl)
  rw [e] at h
  exact h

theorem stRel (d : BitVec 5) (h0 : BitVec 4) (s : BitVec 3) (i : Imm 14) : Statement (.stRel d h0 s i) := fun w _ => by
  obtain ⟨n, e⟩ : ∃ n, n = encodeWord (.stRel d h0 s i) := ⟨_, rfl⟩
  have h_d := d.isLt
  have h_h0 := h0.isLt
  have h_s := s.isLt
  have h_i := i.lo.isLt
  have e' : n = 1409286144 + d.toNat * 2097152 + h0.toNat * 131072 + s.toNat * 16384 + i.lo.toNat := e
  have e_op := fld_of n 26 6 21 (by omega)
  have e_n : n ≠ 0x04000000 := by omega
  have f_d := bv_of d n 21 (by omega)
  have f_h0 := bv_of h0 n 17 (by omega)
  have f_s := bv_of s n 14 (by omega)
  have f_i := bv_of i.lo n 0 (by omega)
  have hs : decodeSlot n i.ext = some (.stRel d h0 s i) := by
    have hp : shapeSlot n i.ext = some (.stRel d h0 s i) := by
      simp [shapeSlot, shapeMem, e_n, e_op, f_d, f_h0, f_s, f_i, immOf]
    simp [decodeSlot, hp, w]
  have h := control_alone n i.ext _ hs (by simp [e_op]) (by simp [isLdi64, e_op]) (Or.inr rfl)
  rw [e] at h
  exact h

theorem amoAdd (d : BitVec 5) (a : BitVec 5) (b : BitVec 5) (h0 : BitVec 4) (w0 : BitVec 1) : Statement (.amoAdd d a b h0 w0) := fun w _ => by
  obtain ⟨n, e⟩ : ∃ n, n = encodeWord (.amoAdd d a b h0 w0) := ⟨_, rfl⟩
  have h_d := d.isLt
  have h_a := a.isLt
  have h_b := b.isLt
  have h_h0 := h0.isLt
  have h_w0 := w0.isLt
  have e' : n = 1476395008 + d.toNat * 2097152 + a.toNat * 65536 + b.toNat * 2048 + h0.toNat * 128 + w0.toNat * 4 := e
  have e_op := fld_of n 26 6 22 (by omega)
  have e_n : n ≠ 0x04000000 := by omega
  have e_0_2 := fld_of n 0 2 0 (by omega)
  have e_3_4 := fld_of n 3 4 0 (by omega)
  have f_d := bv_of d n 21 (by omega)
  have f_a := bv_of a n 16 (by omega)
  have f_b := bv_of b n 11 (by omega)
  have f_h0 := bv_of h0 n 7 (by omega)
  have f_w0 := bv_of w0 n 2 (by omega)
  have hs : decodeSlot n none = some (.amoAdd d a b h0 w0) := by
    have hp : shapeSlot n none = some (.amoAdd d a b h0 w0) := by
      simp [shapeSlot, shapeMem, e_n, e_op, e_0_2, e_3_4, f_d, f_a, f_b, f_h0, f_w0]
    simp [decodeSlot, hp, w]
  have h := control_alone n none _ hs (by simp [e_op]) (by simp [isLdi64, e_op]) (Or.inl rfl)
  rw [e] at h
  exact h

theorem amoSwap (d : BitVec 5) (a : BitVec 5) (b : BitVec 5) (h0 : BitVec 4) (w0 : BitVec 1) : Statement (.amoSwap d a b h0 w0) := fun w _ => by
  obtain ⟨n, e⟩ : ∃ n, n = encodeWord (.amoSwap d a b h0 w0) := ⟨_, rfl⟩
  have h_d := d.isLt
  have h_a := a.isLt
  have h_b := b.isLt
  have h_h0 := h0.isLt
  have h_w0 := w0.isLt
  have e' : n = 1476395016 + d.toNat * 2097152 + a.toNat * 65536 + b.toNat * 2048 + h0.toNat * 128 + w0.toNat * 4 := e
  have e_op := fld_of n 26 6 22 (by omega)
  have e_n : n ≠ 0x04000000 := by omega
  have e_0_2 := fld_of n 0 2 0 (by omega)
  have e_3_4 := fld_of n 3 4 1 (by omega)
  have f_d := bv_of d n 21 (by omega)
  have f_a := bv_of a n 16 (by omega)
  have f_b := bv_of b n 11 (by omega)
  have f_h0 := bv_of h0 n 7 (by omega)
  have f_w0 := bv_of w0 n 2 (by omega)
  have hs : decodeSlot n none = some (.amoSwap d a b h0 w0) := by
    have hp : shapeSlot n none = some (.amoSwap d a b h0 w0) := by
      simp [shapeSlot, shapeMem, e_n, e_op, e_0_2, e_3_4, f_d, f_a, f_b, f_h0, f_w0]
    simp [decodeSlot, hp, w]
  have h := control_alone n none _ hs (by simp [e_op]) (by simp [isLdi64, e_op]) (Or.inl rfl)
  rw [e] at h
  exact h

theorem amoCas (d : BitVec 5) (a : BitVec 5) (b : BitVec 5) (h0 : BitVec 4) (w0 : BitVec 1) : Statement (.amoCas d a b h0 w0) := fun w _ => by
  obtain ⟨n, e⟩ : ∃ n, n = encodeWord (.amoCas d a b h0 w0) := ⟨_, rfl⟩
  have h_d := d.isLt
  have h_a := a.isLt
  have h_b := b.isLt
  have h_h0 := h0.isLt
  have h_w0 := w0.isLt
  have e' : n = 1476395024 + d.toNat * 2097152 + a.toNat * 65536 + b.toNat * 2048 + h0.toNat * 128 + w0.toNat * 4 := e
  have e_op := fld_of n 26 6 22 (by omega)
  have e_n : n ≠ 0x04000000 := by omega
  have e_0_2 := fld_of n 0 2 0 (by omega)
  have e_3_4 := fld_of n 3 4 2 (by omega)
  have f_d := bv_of d n 21 (by omega)
  have f_a := bv_of a n 16 (by omega)
  have f_b := bv_of b n 11 (by omega)
  have f_h0 := bv_of h0 n 7 (by omega)
  have f_w0 := bv_of w0 n 2 (by omega)
  have hs : decodeSlot n none = some (.amoCas d a b h0 w0) := by
    have hp : shapeSlot n none = some (.amoCas d a b h0 w0) := by
      simp [shapeSlot, shapeMem, e_n, e_op, e_0_2, e_3_4, f_d, f_a, f_b, f_h0, f_w0]
    simp [decodeSlot, hp, w]
  have h := control_alone n none _ hs (by simp [e_op]) (by simp [isLdi64, e_op]) (Or.inl rfl)
  rw [e] at h
  exact h

theorem amoMinI (d : BitVec 5) (a : BitVec 5) (b : BitVec 5) (h0 : BitVec 4) (w0 : BitVec 1) : Statement (.amoMinI d a b h0 w0) := fun w _ => by
  obtain ⟨n, e⟩ : ∃ n, n = encodeWord (.amoMinI d a b h0 w0) := ⟨_, rfl⟩
  have h_d := d.isLt
  have h_a := a.isLt
  have h_b := b.isLt
  have h_h0 := h0.isLt
  have h_w0 := w0.isLt
  have e' : n = 1476395032 + d.toNat * 2097152 + a.toNat * 65536 + b.toNat * 2048 + h0.toNat * 128 + w0.toNat * 4 := e
  have e_op := fld_of n 26 6 22 (by omega)
  have e_n : n ≠ 0x04000000 := by omega
  have e_0_2 := fld_of n 0 2 0 (by omega)
  have e_3_4 := fld_of n 3 4 3 (by omega)
  have f_d := bv_of d n 21 (by omega)
  have f_a := bv_of a n 16 (by omega)
  have f_b := bv_of b n 11 (by omega)
  have f_h0 := bv_of h0 n 7 (by omega)
  have f_w0 := bv_of w0 n 2 (by omega)
  have hs : decodeSlot n none = some (.amoMinI d a b h0 w0) := by
    have hp : shapeSlot n none = some (.amoMinI d a b h0 w0) := by
      simp [shapeSlot, shapeMem, e_n, e_op, e_0_2, e_3_4, f_d, f_a, f_b, f_h0, f_w0]
    simp [decodeSlot, hp, w]
  have h := control_alone n none _ hs (by simp [e_op]) (by simp [isLdi64, e_op]) (Or.inl rfl)
  rw [e] at h
  exact h

theorem amoMinN (d : BitVec 5) (a : BitVec 5) (b : BitVec 5) (h0 : BitVec 4) (w0 : BitVec 1) : Statement (.amoMinN d a b h0 w0) := fun w _ => by
  obtain ⟨n, e⟩ : ∃ n, n = encodeWord (.amoMinN d a b h0 w0) := ⟨_, rfl⟩
  have h_d := d.isLt
  have h_a := a.isLt
  have h_b := b.isLt
  have h_h0 := h0.isLt
  have h_w0 := w0.isLt
  have e' : n = 1476395040 + d.toNat * 2097152 + a.toNat * 65536 + b.toNat * 2048 + h0.toNat * 128 + w0.toNat * 4 := e
  have e_op := fld_of n 26 6 22 (by omega)
  have e_n : n ≠ 0x04000000 := by omega
  have e_0_2 := fld_of n 0 2 0 (by omega)
  have e_3_4 := fld_of n 3 4 4 (by omega)
  have f_d := bv_of d n 21 (by omega)
  have f_a := bv_of a n 16 (by omega)
  have f_b := bv_of b n 11 (by omega)
  have f_h0 := bv_of h0 n 7 (by omega)
  have f_w0 := bv_of w0 n 2 (by omega)
  have hs : decodeSlot n none = some (.amoMinN d a b h0 w0) := by
    have hp : shapeSlot n none = some (.amoMinN d a b h0 w0) := by
      simp [shapeSlot, shapeMem, e_n, e_op, e_0_2, e_3_4, f_d, f_a, f_b, f_h0, f_w0]
    simp [decodeSlot, hp, w]
  have h := control_alone n none _ hs (by simp [e_op]) (by simp [isLdi64, e_op]) (Or.inl rfl)
  rw [e] at h
  exact h

theorem amoMaxI (d : BitVec 5) (a : BitVec 5) (b : BitVec 5) (h0 : BitVec 4) (w0 : BitVec 1) : Statement (.amoMaxI d a b h0 w0) := fun w _ => by
  obtain ⟨n, e⟩ : ∃ n, n = encodeWord (.amoMaxI d a b h0 w0) := ⟨_, rfl⟩
  have h_d := d.isLt
  have h_a := a.isLt
  have h_b := b.isLt
  have h_h0 := h0.isLt
  have h_w0 := w0.isLt
  have e' : n = 1476395048 + d.toNat * 2097152 + a.toNat * 65536 + b.toNat * 2048 + h0.toNat * 128 + w0.toNat * 4 := e
  have e_op := fld_of n 26 6 22 (by omega)
  have e_n : n ≠ 0x04000000 := by omega
  have e_0_2 := fld_of n 0 2 0 (by omega)
  have e_3_4 := fld_of n 3 4 5 (by omega)
  have f_d := bv_of d n 21 (by omega)
  have f_a := bv_of a n 16 (by omega)
  have f_b := bv_of b n 11 (by omega)
  have f_h0 := bv_of h0 n 7 (by omega)
  have f_w0 := bv_of w0 n 2 (by omega)
  have hs : decodeSlot n none = some (.amoMaxI d a b h0 w0) := by
    have hp : shapeSlot n none = some (.amoMaxI d a b h0 w0) := by
      simp [shapeSlot, shapeMem, e_n, e_op, e_0_2, e_3_4, f_d, f_a, f_b, f_h0, f_w0]
    simp [decodeSlot, hp, w]
  have h := control_alone n none _ hs (by simp [e_op]) (by simp [isLdi64, e_op]) (Or.inl rfl)
  rw [e] at h
  exact h

theorem amoMaxN (d : BitVec 5) (a : BitVec 5) (b : BitVec 5) (h0 : BitVec 4) (w0 : BitVec 1) : Statement (.amoMaxN d a b h0 w0) := fun w _ => by
  obtain ⟨n, e⟩ : ∃ n, n = encodeWord (.amoMaxN d a b h0 w0) := ⟨_, rfl⟩
  have h_d := d.isLt
  have h_a := a.isLt
  have h_b := b.isLt
  have h_h0 := h0.isLt
  have h_w0 := w0.isLt
  have e' : n = 1476395056 + d.toNat * 2097152 + a.toNat * 65536 + b.toNat * 2048 + h0.toNat * 128 + w0.toNat * 4 := e
  have e_op := fld_of n 26 6 22 (by omega)
  have e_n : n ≠ 0x04000000 := by omega
  have e_0_2 := fld_of n 0 2 0 (by omega)
  have e_3_4 := fld_of n 3 4 6 (by omega)
  have f_d := bv_of d n 21 (by omega)
  have f_a := bv_of a n 16 (by omega)
  have f_b := bv_of b n 11 (by omega)
  have f_h0 := bv_of h0 n 7 (by omega)
  have f_w0 := bv_of w0 n 2 (by omega)
  have hs : decodeSlot n none = some (.amoMaxN d a b h0 w0) := by
    have hp : shapeSlot n none = some (.amoMaxN d a b h0 w0) := by
      simp [shapeSlot, shapeMem, e_n, e_op, e_0_2, e_3_4, f_d, f_a, f_b, f_h0, f_w0]
    simp [decodeSlot, hp, w]
  have h := control_alone n none _ hs (by simp [e_op]) (by simp [isLdi64, e_op]) (Or.inl rfl)
  rw [e] at h
  exact h

theorem amoAnd (d : BitVec 5) (a : BitVec 5) (b : BitVec 5) (h0 : BitVec 4) (w0 : BitVec 1) : Statement (.amoAnd d a b h0 w0) := fun w _ => by
  obtain ⟨n, e⟩ : ∃ n, n = encodeWord (.amoAnd d a b h0 w0) := ⟨_, rfl⟩
  have h_d := d.isLt
  have h_a := a.isLt
  have h_b := b.isLt
  have h_h0 := h0.isLt
  have h_w0 := w0.isLt
  have e' : n = 1476395064 + d.toNat * 2097152 + a.toNat * 65536 + b.toNat * 2048 + h0.toNat * 128 + w0.toNat * 4 := e
  have e_op := fld_of n 26 6 22 (by omega)
  have e_n : n ≠ 0x04000000 := by omega
  have e_0_2 := fld_of n 0 2 0 (by omega)
  have e_3_4 := fld_of n 3 4 7 (by omega)
  have f_d := bv_of d n 21 (by omega)
  have f_a := bv_of a n 16 (by omega)
  have f_b := bv_of b n 11 (by omega)
  have f_h0 := bv_of h0 n 7 (by omega)
  have f_w0 := bv_of w0 n 2 (by omega)
  have hs : decodeSlot n none = some (.amoAnd d a b h0 w0) := by
    have hp : shapeSlot n none = some (.amoAnd d a b h0 w0) := by
      simp [shapeSlot, shapeMem, e_n, e_op, e_0_2, e_3_4, f_d, f_a, f_b, f_h0, f_w0]
    simp [decodeSlot, hp, w]
  have h := control_alone n none _ hs (by simp [e_op]) (by simp [isLdi64, e_op]) (Or.inl rfl)
  rw [e] at h
  exact h

theorem amoOr (d : BitVec 5) (a : BitVec 5) (b : BitVec 5) (h0 : BitVec 4) (w0 : BitVec 1) : Statement (.amoOr d a b h0 w0) := fun w _ => by
  obtain ⟨n, e⟩ : ∃ n, n = encodeWord (.amoOr d a b h0 w0) := ⟨_, rfl⟩
  have h_d := d.isLt
  have h_a := a.isLt
  have h_b := b.isLt
  have h_h0 := h0.isLt
  have h_w0 := w0.isLt
  have e' : n = 1476395072 + d.toNat * 2097152 + a.toNat * 65536 + b.toNat * 2048 + h0.toNat * 128 + w0.toNat * 4 := e
  have e_op := fld_of n 26 6 22 (by omega)
  have e_n : n ≠ 0x04000000 := by omega
  have e_0_2 := fld_of n 0 2 0 (by omega)
  have e_3_4 := fld_of n 3 4 8 (by omega)
  have f_d := bv_of d n 21 (by omega)
  have f_a := bv_of a n 16 (by omega)
  have f_b := bv_of b n 11 (by omega)
  have f_h0 := bv_of h0 n 7 (by omega)
  have f_w0 := bv_of w0 n 2 (by omega)
  have hs : decodeSlot n none = some (.amoOr d a b h0 w0) := by
    have hp : shapeSlot n none = some (.amoOr d a b h0 w0) := by
      simp [shapeSlot, shapeMem, e_n, e_op, e_0_2, e_3_4, f_d, f_a, f_b, f_h0, f_w0]
    simp [decodeSlot, hp, w]
  have h := control_alone n none _ hs (by simp [e_op]) (by simp [isLdi64, e_op]) (Or.inl rfl)
  rw [e] at h
  exact h

theorem amoXor (d : BitVec 5) (a : BitVec 5) (b : BitVec 5) (h0 : BitVec 4) (w0 : BitVec 1) : Statement (.amoXor d a b h0 w0) := fun w _ => by
  obtain ⟨n, e⟩ : ∃ n, n = encodeWord (.amoXor d a b h0 w0) := ⟨_, rfl⟩
  have h_d := d.isLt
  have h_a := a.isLt
  have h_b := b.isLt
  have h_h0 := h0.isLt
  have h_w0 := w0.isLt
  have e' : n = 1476395080 + d.toNat * 2097152 + a.toNat * 65536 + b.toNat * 2048 + h0.toNat * 128 + w0.toNat * 4 := e
  have e_op := fld_of n 26 6 22 (by omega)
  have e_n : n ≠ 0x04000000 := by omega
  have e_0_2 := fld_of n 0 2 0 (by omega)
  have e_3_4 := fld_of n 3 4 9 (by omega)
  have f_d := bv_of d n 21 (by omega)
  have f_a := bv_of a n 16 (by omega)
  have f_b := bv_of b n 11 (by omega)
  have f_h0 := bv_of h0 n 7 (by omega)
  have f_w0 := bv_of w0 n 2 (by omega)
  have hs : decodeSlot n none = some (.amoXor d a b h0 w0) := by
    have hp : shapeSlot n none = some (.amoXor d a b h0 w0) := by
      simp [shapeSlot, shapeMem, e_n, e_op, e_0_2, e_3_4, f_d, f_a, f_b, f_h0, f_w0]
    simp [decodeSlot, hp, w]
  have h := control_alone n none _ hs (by simp [e_op]) (by simp [isLdi64, e_op]) (Or.inl rfl)
  rw [e] at h
  exact h

theorem ldl (d : BitVec 5) (a : BitVec 5) (p : BitVec 1) (s : BitVec 3) (o : Imm 12) : Statement (.ldl d a p s o) := fun w _ => by
  obtain ⟨n, e⟩ : ∃ n, n = encodeWord (.ldl d a p s o) := ⟨_, rfl⟩
  have h_d := d.isLt
  have h_a := a.isLt
  have h_p := p.isLt
  have h_s := s.isLt
  have h_o := o.lo.isLt
  have e' : n = 1543503872 + d.toNat * 2097152 + a.toNat * 65536 + p.toNat * 32768 + s.toNat * 4096 + o.lo.toNat := e
  have e_op := fld_of n 26 6 23 (by omega)
  have e_n : n ≠ 0x04000000 := by omega
  have f_d := bv_of d n 21 (by omega)
  have f_a := bv_of a n 16 (by omega)
  have f_p := bv_of p n 15 (by omega)
  have f_s := bv_of s n 12 (by omega)
  have f_o := bv_of o.lo n 0 (by omega)
  have hs : decodeSlot n o.ext = some (.ldl d a p s o) := by
    have hp : shapeSlot n o.ext = some (.ldl d a p s o) := by
      simp [shapeSlot, shapeMem, e_n, e_op, f_d, f_a, f_p, f_s, f_o, immOf]
    simp [decodeSlot, hp, w]
  have h := control_alone n o.ext _ hs (by simp [e_op]) (by simp [isLdi64, e_op]) (Or.inr rfl)
  rw [e] at h
  exact h

theorem stl (d : BitVec 5) (a : BitVec 5) (p : BitVec 1) (s : BitVec 3) (o : Imm 12) : Statement (.stl d a p s o) := fun w _ => by
  obtain ⟨n, e⟩ : ∃ n, n = encodeWord (.stl d a p s o) := ⟨_, rfl⟩
  have h_d := d.isLt
  have h_a := a.isLt
  have h_p := p.isLt
  have h_s := s.isLt
  have h_o := o.lo.isLt
  have e' : n = 1610612736 + d.toNat * 2097152 + a.toNat * 65536 + p.toNat * 32768 + s.toNat * 4096 + o.lo.toNat := e
  have e_op := fld_of n 26 6 24 (by omega)
  have e_n : n ≠ 0x04000000 := by omega
  have f_d := bv_of d n 21 (by omega)
  have f_a := bv_of a n 16 (by omega)
  have f_p := bv_of p n 15 (by omega)
  have f_s := bv_of s n 12 (by omega)
  have f_o := bv_of o.lo n 0 (by omega)
  have hs : decodeSlot n o.ext = some (.stl d a p s o) := by
    have hp : shapeSlot n o.ext = some (.stl d a p s o) := by
      simp [shapeSlot, shapeMem, e_n, e_op, f_d, f_a, f_p, f_s, f_o, immOf]
    simp [decodeSlot, hp, w]
  have h := control_alone n o.ext _ hs (by simp [e_op]) (by simp [isLdi64, e_op]) (Or.inr rfl)
  rw [e] at h
  exact h

theorem xlate (n0 : BitVec 4) (a : BitVec 5) (t : BitVec 2) : Statement (.xlate n0 a t) := fun w _ => by
  obtain ⟨n, e⟩ : ∃ n, n = encodeWord (.xlate n0 a t) := ⟨_, rfl⟩
  have h_n0 := n0.isLt
  have h_a := a.isLt
  have h_t := t.isLt
  have e' : n = 1677721600 + n0.toNat * 2097152 + a.toNat * 65536 + t.toNat := e
  have e_op := fld_of n 26 6 25 (by omega)
  have e_n : n ≠ 0x04000000 := by omega
  have e_2_14 := fld_of n 2 14 0 (by omega)
  have e_25_1 := fld_of n 25 1 0 (by omega)
  have f_n0 := bv_of n0 n 21 (by omega)
  have f_a := bv_of a n 16 (by omega)
  have f_t := bv_of t n 0 (by omega)
  have hs : decodeSlot n none = some (.xlate n0 a t) := by
    have hp : shapeSlot n none = some (.xlate n0 a t) := by
      simp [shapeSlot, shapeMem, e_n, e_op, e_2_14, e_25_1, f_n0, f_a, f_t]
    simp [decodeSlot, hp, w]
  have h := control_alone n none _ hs (by simp [e_op]) (by simp [isLdi64, e_op]) (Or.inl rfl)
  rw [e] at h
  exact h

theorem hinv (n0 : BitVec 4) : Statement (.hinv n0) := fun w _ => by
  obtain ⟨n, e⟩ : ∃ n, n = encodeWord (.hinv n0) := ⟨_, rfl⟩
  have h_n0 := n0.isLt
  have e' : n = 1744830464 + n0.toNat * 2097152 := e
  have e_op := fld_of n 26 6 26 (by omega)
  have e_n : n ≠ 0x04000000 := by omega
  have e_0_21 := fld_of n 0 21 0 (by omega)
  have e_25_1 := fld_of n 25 1 0 (by omega)
  have f_n0 := bv_of n0 n 21 (by omega)
  have hs : decodeSlot n none = some (.hinv n0) := by
    have hp : shapeSlot n none = some (.hinv n0) := by
      simp [shapeSlot, shapeMem, e_n, e_op, e_0_21, e_25_1, f_n0]
    simp [decodeSlot, hp, w]
  have h := control_alone n none _ hs (by simp [e_op]) (by simp [isLdi64, e_op]) (Or.inl rfl)
  rw [e] at h
  exact h

theorem hinfo (d : BitVec 5) (n0 : BitVec 4) : Statement (.hinfo d n0) := fun w _ => by
  obtain ⟨n, e⟩ : ∃ n, n = encodeWord (.hinfo d n0) := ⟨_, rfl⟩
  have h_d := d.isLt
  have h_n0 := n0.isLt
  have e' : n = 1744830465 + d.toNat * 2097152 + n0.toNat * 65536 := e
  have e_op := fld_of n 26 6 26 (by omega)
  have e_n : n ≠ 0x04000000 := by omega
  have e_0_21_0 := fld_ne n 0 21 0 (by omega)
  have e_0_16 := fld_of n 0 16 1 (by omega)
  have e_20_1 := fld_of n 20 1 0 (by omega)
  have f_d := bv_of d n 21 (by omega)
  have f_n0 := bv_of n0 n 16 (by omega)
  have hs : decodeSlot n none = some (.hinfo d n0) := by
    have hp : shapeSlot n none = some (.hinfo d n0) := by
      simp [shapeSlot, shapeMem, e_n, e_op, e_0_21_0, e_0_16, e_20_1, f_d, f_n0]
    simp [decodeSlot, hp, w]
  have h := control_alone n none _ hs (by simp [e_op]) (by simp [isLdi64, e_op]) (Or.inl rfl)
  rw [e] at h
  exact h

theorem drain (s : BitVec 3) : Statement (.drain s) := fun w _ => by
  obtain ⟨n, e⟩ : ∃ n, n = encodeWord (.drain s) := ⟨_, rfl⟩
  have h_s := s.isLt
  have e' : n = 1811939328 + s.toNat := e
  have e_op := fld_of n 26 6 27 (by omega)
  have e_n : n ≠ 0x04000000 := by omega
  have e_3_23 := fld_of n 3 23 0 (by omega)
  have f_s := bv_of s n 0 (by omega)
  have hs : decodeSlot n none = some (.drain s) := by
    have hp : shapeSlot n none = some (.drain s) := by
      simp [shapeSlot, shapeSync, e_n, e_op, e_3_23, f_s]
    simp [decodeSlot, hp, w]
  have h := control_alone n none _ hs (by simp [e_op]) (by simp [isLdi64, e_op]) (Or.inl rfl)
  rw [e] at h
  exact h

theorem drainFlag (d : BitVec 5) (a : BitVec 5) (b : BitVec 5) (w0 : BitVec 1) (h0 : BitVec 4) (s : BitVec 3) : Statement (.drainFlag d a b w0 h0 s) := fun w _ => by
  obtain ⟨n, e⟩ : ∃ n, n = encodeWord (.drainFlag d a b w0 h0 s) := ⟨_, rfl⟩
  have h_d := d.isLt
  have h_a := a.isLt
  have h_b := b.isLt
  have h_w0 := w0.isLt
  have h_h0 := h0.isLt
  have h_s := s.isLt
  have e' : n = 1811939336 + d.toNat * 2097152 + a.toNat * 65536 + b.toNat * 2048 + w0.toNat * 256 + h0.toNat * 16 + s.toNat := e
  have e_op := fld_of n 26 6 27 (by omega)
  have e_n : n ≠ 0x04000000 := by omega
  have e_3_23_0 := fld_ne n 3 23 0 (by omega)
  have e_3_1 := fld_of n 3 1 1 (by omega)
  have e_9_2 := fld_of n 9 2 0 (by omega)
  have f_d := bv_of d n 21 (by omega)
  have f_a := bv_of a n 16 (by omega)
  have f_b := bv_of b n 11 (by omega)
  have f_w0 := bv_of w0 n 8 (by omega)
  have f_h0 := bv_of h0 n 4 (by omega)
  have f_s := bv_of s n 0 (by omega)
  have hs : decodeSlot n none = some (.drainFlag d a b w0 h0 s) := by
    have hp : shapeSlot n none = some (.drainFlag d a b w0 h0 s) := by
      simp [shapeSlot, shapeSync, e_n, e_op, e_3_23_0, e_3_1, e_9_2, f_d, f_a, f_b, f_w0, f_h0, f_s]
    simp [decodeSlot, hp, w]
  have h := control_alone n none _ hs (by simp [e_op]) (by simp [isLdi64, e_op]) (Or.inl rfl)
  rw [e] at h
  exact h

theorem semAdd (d : BitVec 5) (a : BitVec 5) (b : BitVec 5) (i : BitVec 6) (g : BitVec 1) : Statement (.semAdd d a b i g) := fun w _ => by
  obtain ⟨n, e⟩ : ∃ n, n = encodeWord (.semAdd d a b i g) := ⟨_, rfl⟩
  have h_d := d.isLt
  have h_a := a.isLt
  have h_b := b.isLt
  have h_i := i.isLt
  have h_g := g.isLt
  have e' : n = 1879048192 + d.toNat * 2097152 + a.toNat * 65536 + b.toNat * 2048 + i.toNat * 16 + g.toNat * 8 := e
  have e_op := fld_of n 26 6 28 (by omega)
  have e_n : n ≠ 0x04000000 := by omega
  have e_0_3 := fld_of n 0 3 0 (by omega)
  have e_10_1 := fld_of n 10 1 0 (by omega)
  have f_d := bv_of d n 21 (by omega)
  have f_a := bv_of a n 16 (by omega)
  have f_b := bv_of b n 11 (by omega)
  have f_i := bv_of i n 4 (by omega)
  have f_g := bv_of g n 3 (by omega)
  have hs : decodeSlot n none = some (.semAdd d a b i g) := by
    have hp : shapeSlot n none = some (.semAdd d a b i g) := by
      simp [shapeSlot, shapeSync, e_n, e_op, e_0_3, e_10_1, f_d, f_a, f_b, f_i, f_g]
    simp [decodeSlot, hp, w]
  have h := control_alone n none _ hs (by simp [e_op]) (by simp [isLdi64, e_op]) (Or.inl rfl)
  rw [e] at h
  exact h

theorem semWait (d : BitVec 5) (a : BitVec 5) (b : BitVec 5) (i : BitVec 6) (g : BitVec 1) : Statement (.semWait d a b i g) := fun w _ => by
  obtain ⟨n, e⟩ : ∃ n, n = encodeWord (.semWait d a b i g) := ⟨_, rfl⟩
  have h_d := d.isLt
  have h_a := a.isLt
  have h_b := b.isLt
  have h_i := i.isLt
  have h_g := g.isLt
  have e' : n = 1879048193 + d.toNat * 2097152 + a.toNat * 65536 + b.toNat * 2048 + i.toNat * 16 + g.toNat * 8 := e
  have e_op := fld_of n 26 6 28 (by omega)
  have e_n : n ≠ 0x04000000 := by omega
  have e_0_3 := fld_of n 0 3 1 (by omega)
  have e_10_1 := fld_of n 10 1 0 (by omega)
  have f_d := bv_of d n 21 (by omega)
  have f_a := bv_of a n 16 (by omega)
  have f_b := bv_of b n 11 (by omega)
  have f_i := bv_of i n 4 (by omega)
  have f_g := bv_of g n 3 (by omega)
  have hs : decodeSlot n none = some (.semWait d a b i g) := by
    have hp : shapeSlot n none = some (.semWait d a b i g) := by
      simp [shapeSlot, shapeSync, e_n, e_op, e_0_3, e_10_1, f_d, f_a, f_b, f_i, f_g]
    simp [decodeSlot, hp, w]
  have h := control_alone n none _ hs (by simp [e_op]) (by simp [isLdi64, e_op]) (Or.inl rfl)
  rw [e] at h
  exact h

theorem semAcq (d : BitVec 5) (a : BitVec 5) (i : BitVec 6) (g : BitVec 1) : Statement (.semAcq d a i g) := fun w _ => by
  obtain ⟨n, e⟩ : ∃ n, n = encodeWord (.semAcq d a i g) := ⟨_, rfl⟩
  have h_d := d.isLt
  have h_a := a.isLt
  have h_i := i.isLt
  have h_g := g.isLt
  have e' : n = 1879048194 + d.toNat * 2097152 + a.toNat * 65536 + i.toNat * 16 + g.toNat * 8 := e
  have e_op := fld_of n 26 6 28 (by omega)
  have e_n : n ≠ 0x04000000 := by omega
  have e_0_3 := fld_of n 0 3 2 (by omega)
  have e_10_1 := fld_of n 10 1 0 (by omega)
  have e_10_6 := fld_of n 10 6 0 (by omega)
  have f_d := bv_of d n 21 (by omega)
  have f_a := bv_of a n 16 (by omega)
  have f_i := bv_of i n 4 (by omega)
  have f_g := bv_of g n 3 (by omega)
  have hs : decodeSlot n none = some (.semAcq d a i g) := by
    have hp : shapeSlot n none = some (.semAcq d a i g) := by
      simp [shapeSlot, shapeSync, e_n, e_op, e_0_3, e_10_1, e_10_6, f_d, f_a, f_i, f_g]
    simp [decodeSlot, hp, w]
  have h := control_alone n none _ hs (by simp [e_op]) (by simp [isLdi64, e_op]) (Or.inl rfl)
  rw [e] at h
  exact h

theorem semRel (a : BitVec 5) (i : BitVec 6) (g : BitVec 1) : Statement (.semRel a i g) := fun w _ => by
  obtain ⟨n, e⟩ : ∃ n, n = encodeWord (.semRel a i g) := ⟨_, rfl⟩
  have h_a := a.isLt
  have h_i := i.isLt
  have h_g := g.isLt
  have e' : n = 1879048195 + a.toNat * 65536 + i.toNat * 16 + g.toNat * 8 := e
  have e_op := fld_of n 26 6 28 (by omega)
  have e_n : n ≠ 0x04000000 := by omega
  have e_0_3 := fld_of n 0 3 3 (by omega)
  have e_10_1 := fld_of n 10 1 0 (by omega)
  have e_10_6 := fld_of n 10 6 0 (by omega)
  have e_21_5 := fld_of n 21 5 0 (by omega)
  have f_a := bv_of a n 16 (by omega)
  have f_i := bv_of i n 4 (by omega)
  have f_g := bv_of g n 3 (by omega)
  have hs : decodeSlot n none = some (.semRel a i g) := by
    have hp : shapeSlot n none = some (.semRel a i g) := by
      simp [shapeSlot, shapeSync, e_n, e_op, e_0_3, e_10_1, e_10_6, e_21_5, f_a, f_i, f_g]
    simp [decodeSlot, hp, w]
  have h := control_alone n none _ hs (by simp [e_op]) (by simp [isLdi64, e_op]) (Or.inl rfl)
  rw [e] at h
  exact h

theorem semPost (a : BitVec 5) (b : BitVec 5) (i : BitVec 6) (g : BitVec 1) : Statement (.semPost a b i g) := fun w _ => by
  obtain ⟨n, e⟩ : ∃ n, n = encodeWord (.semPost a b i g) := ⟨_, rfl⟩
  have h_a := a.isLt
  have h_b := b.isLt
  have h_i := i.isLt
  have h_g := g.isLt
  have e' : n = 1879048196 + a.toNat * 65536 + b.toNat * 2048 + i.toNat * 16 + g.toNat * 8 := e
  have e_op := fld_of n 26 6 28 (by omega)
  have e_n : n ≠ 0x04000000 := by omega
  have e_0_3 := fld_of n 0 3 4 (by omega)
  have e_10_1 := fld_of n 10 1 0 (by omega)
  have e_21_5 := fld_of n 21 5 0 (by omega)
  have f_a := bv_of a n 16 (by omega)
  have f_b := bv_of b n 11 (by omega)
  have f_i := bv_of i n 4 (by omega)
  have f_g := bv_of g n 3 (by omega)
  have hs : decodeSlot n none = some (.semPost a b i g) := by
    have hp : shapeSlot n none = some (.semPost a b i g) := by
      simp [shapeSlot, shapeSync, e_n, e_op, e_0_3, e_10_1, e_21_5, f_a, f_b, f_i, f_g]
    simp [decodeSlot, hp, w]
  have h := control_alone n none _ hs (by simp [e_op]) (by simp [isLdi64, e_op]) (Or.inl rfl)
  rw [e] at h
  exact h

theorem semRead (d : BitVec 5) (a : BitVec 5) (b : BitVec 5) (i : BitVec 6) (g : BitVec 1) : Statement (.semRead d a b i g) := fun w _ => by
  obtain ⟨n, e⟩ : ∃ n, n = encodeWord (.semRead d a b i g) := ⟨_, rfl⟩
  have h_d := d.isLt
  have h_a := a.isLt
  have h_b := b.isLt
  have h_i := i.isLt
  have h_g := g.isLt
  have e' : n = 1879048197 + d.toNat * 2097152 + a.toNat * 65536 + b.toNat * 2048 + i.toNat * 16 + g.toNat * 8 := e
  have e_op := fld_of n 26 6 28 (by omega)
  have e_n : n ≠ 0x04000000 := by omega
  have e_0_3 := fld_of n 0 3 5 (by omega)
  have e_10_1 := fld_of n 10 1 0 (by omega)
  have f_d := bv_of d n 21 (by omega)
  have f_a := bv_of a n 16 (by omega)
  have f_b := bv_of b n 11 (by omega)
  have f_i := bv_of i n 4 (by omega)
  have f_g := bv_of g n 3 (by omega)
  have hs : decodeSlot n none = some (.semRead d a b i g) := by
    have hp : shapeSlot n none = some (.semRead d a b i g) := by
      simp [shapeSlot, shapeSync, e_n, e_op, e_0_3, e_10_1, f_d, f_a, f_b, f_i, f_g]
    simp [decodeSlot, hp, w]
  have h := control_alone n none _ hs (by simp [e_op]) (by simp [isLdi64, e_op]) (Or.inl rfl)
  rw [e] at h
  exact h

theorem mbRd (d : BitVec 5) (m : BitVec 4) : Statement (.mbRd d m) := fun w _ => by
  obtain ⟨n, e⟩ : ∃ n, n = encodeWord (.mbRd d m) := ⟨_, rfl⟩
  have h_d := d.isLt
  have h_m := m.isLt
  have e' : n = 1946157056 + d.toNat * 2097152 + m.toNat * 4 := e
  have e_op := fld_of n 26 6 29 (by omega)
  have e_n : n ≠ 0x04000000 := by omega
  have e_0_2 := fld_of n 0 2 0 (by omega)
  have e_6_15 := fld_of n 6 15 0 (by omega)
  have f_d := bv_of d n 21 (by omega)
  have f_m := bv_of m n 2 (by omega)
  have hs : decodeSlot n none = some (.mbRd d m) := by
    have hp : shapeSlot n none = some (.mbRd d m) := by
      simp [shapeSlot, shapeSync, e_n, e_op, e_0_2, e_6_15, f_d, f_m]
    simp [decodeSlot, hp, w]
  have h := control_alone n none _ hs (by simp [e_op]) (by simp [isLdi64, e_op]) (Or.inl rfl)
  rw [e] at h
  exact h

theorem mbWr (a : BitVec 5) (m : BitVec 4) : Statement (.mbWr a m) := fun w _ => by
  obtain ⟨n, e⟩ : ∃ n, n = encodeWord (.mbWr a m) := ⟨_, rfl⟩
  have h_a := a.isLt
  have h_m := m.isLt
  have e' : n = 1946157057 + a.toNat * 65536 + m.toNat * 4 := e
  have e_op := fld_of n 26 6 29 (by omega)
  have e_n : n ≠ 0x04000000 := by omega
  have e_0_2 := fld_of n 0 2 1 (by omega)
  have e_6_10 := fld_of n 6 10 0 (by omega)
  have e_21_5 := fld_of n 21 5 0 (by omega)
  have f_a := bv_of a n 16 (by omega)
  have f_m := bv_of m n 2 (by omega)
  have hs : decodeSlot n none = some (.mbWr a m) := by
    have hp : shapeSlot n none = some (.mbWr a m) := by
      simp [shapeSlot, shapeSync, e_n, e_op, e_0_2, e_6_10, e_21_5, f_a, f_m]
    simp [decodeSlot, hp, w]
  have h := control_alone n none _ hs (by simp [e_op]) (by simp [isLdi64, e_op]) (Or.inl rfl)
  rw [e] at h
  exact h

theorem mbProbe (d : BitVec 5) (a : BitVec 5) (b : BitVec 5) (m : BitVec 4) : Statement (.mbProbe d a b m) := fun w _ => by
  obtain ⟨n, e⟩ : ∃ n, n = encodeWord (.mbProbe d a b m) := ⟨_, rfl⟩
  have h_d := d.isLt
  have h_a := a.isLt
  have h_b := b.isLt
  have h_m := m.isLt
  have e' : n = 1946157058 + d.toNat * 2097152 + a.toNat * 65536 + b.toNat * 2048 + m.toNat * 4 := e
  have e_op := fld_of n 26 6 29 (by omega)
  have e_n : n ≠ 0x04000000 := by omega
  have e_0_2 := fld_of n 0 2 2 (by omega)
  have e_6_5 := fld_of n 6 5 0 (by omega)
  have f_d := bv_of d n 21 (by omega)
  have f_a := bv_of a n 16 (by omega)
  have f_b := bv_of b n 11 (by omega)
  have f_m := bv_of m n 2 (by omega)
  have hs : decodeSlot n none = some (.mbProbe d a b m) := by
    have hp : shapeSlot n none = some (.mbProbe d a b m) := by
      simp [shapeSlot, shapeSync, e_n, e_op, e_0_2, e_6_5, f_d, f_a, f_b, f_m]
    simp [decodeSlot, hp, w]
  have h := control_alone n none _ hs (by simp [e_op]) (by simp [isLdi64, e_op]) (Or.inl rfl)
  rw [e] at h
  exact h

theorem mileWait (a : BitVec 5) (q : BitVec 3) : Statement (.mileWait a q) := fun w _ => by
  obtain ⟨n, e⟩ : ∃ n, n = encodeWord (.mileWait a q) := ⟨_, rfl⟩
  have h_a := a.isLt
  have h_q := q.isLt
  have e' : n = 2013265920 + a.toNat * 65536 + q.toNat * 8 := e
  have e_op := fld_of n 26 6 30 (by omega)
  have e_n : n ≠ 0x04000000 := by omega
  have e_0_3 := fld_of n 0 3 0 (by omega)
  have e_6_10 := fld_of n 6 10 0 (by omega)
  have e_21_5 := fld_of n 21 5 0 (by omega)
  have f_a := bv_of a n 16 (by omega)
  have f_q := bv_of q n 3 (by omega)
  have hs : decodeSlot n none = some (.mileWait a q) := by
    have hp : shapeSlot n none = some (.mileWait a q) := by
      simp [shapeSlot, shapeSync, e_n, e_op, e_0_3, e_6_10, e_21_5, f_a, f_q]
    simp [decodeSlot, hp, w]
  have h := control_alone n none _ hs (by simp [e_op]) (by simp [isLdi64, e_op]) (Or.inl rfl)
  rw [e] at h
  exact h

theorem mileRead (d : BitVec 5) (q : BitVec 3) : Statement (.mileRead d q) := fun w _ => by
  obtain ⟨n, e⟩ : ∃ n, n = encodeWord (.mileRead d q) := ⟨_, rfl⟩
  have h_d := d.isLt
  have h_q := q.isLt
  have e' : n = 2013265921 + d.toNat * 2097152 + q.toNat * 8 := e
  have e_op := fld_of n 26 6 30 (by omega)
  have e_n : n ≠ 0x04000000 := by omega
  have e_0_3 := fld_of n 0 3 1 (by omega)
  have e_6_10 := fld_of n 6 10 0 (by omega)
  have e_6_15 := fld_of n 6 15 0 (by omega)
  have f_d := bv_of d n 21 (by omega)
  have f_q := bv_of q n 3 (by omega)
  have hs : decodeSlot n none = some (.mileRead d q) := by
    have hp : shapeSlot n none = some (.mileRead d q) := by
      simp [shapeSlot, shapeSync, e_n, e_op, e_0_3, e_6_10, e_6_15, f_d, f_q]
    simp [decodeSlot, hp, w]
  have h := control_alone n none _ hs (by simp [e_op]) (by simp [isLdi64, e_op]) (Or.inl rfl)
  rw [e] at h
  exact h

theorem mileArm (a : BitVec 5) (q : BitVec 3) : Statement (.mileArm a q) := fun w _ => by
  obtain ⟨n, e⟩ : ∃ n, n = encodeWord (.mileArm a q) := ⟨_, rfl⟩
  have h_a := a.isLt
  have h_q := q.isLt
  have e' : n = 2013265922 + a.toNat * 65536 + q.toNat * 8 := e
  have e_op := fld_of n 26 6 30 (by omega)
  have e_n : n ≠ 0x04000000 := by omega
  have e_0_3 := fld_of n 0 3 2 (by omega)
  have e_6_10 := fld_of n 6 10 0 (by omega)
  have e_21_5 := fld_of n 21 5 0 (by omega)
  have f_a := bv_of a n 16 (by omega)
  have f_q := bv_of q n 3 (by omega)
  have hs : decodeSlot n none = some (.mileArm a q) := by
    have hp : shapeSlot n none = some (.mileArm a q) := by
      simp [shapeSlot, shapeSync, e_n, e_op, e_0_3, e_6_10, e_21_5, f_a, f_q]
    simp [decodeSlot, hp, w]
  have h := control_alone n none _ hs (by simp [e_op]) (by simp [isLdi64, e_op]) (Or.inl rfl)
  rw [e] at h
  exact h

theorem mileDisarm : Statement (.mileDisarm) := fun w _ => by
  obtain ⟨n, e⟩ : ∃ n, n = encodeWord (.mileDisarm) := ⟨_, rfl⟩
  have e' : n = 2013265923 := e
  have e_op := fld_of n 26 6 30 (by omega)
  have e_n : n ≠ 0x04000000 := by omega
  have e_0_3 := fld_of n 0 3 3 (by omega)
  have e_6_10 := fld_of n 6 10 0 (by omega)
  have e_21_5 := fld_of n 21 5 0 (by omega)
  have e_6_15 := fld_of n 6 15 0 (by omega)
  have e_0_26 := fld_of n 0 26 3 (by omega)
  have hs : decodeSlot n none = some (.mileDisarm) := by
    have hp : shapeSlot n none = some (.mileDisarm) := by
      simp [shapeSlot, shapeSync, e_n, e_op, e_0_3, e_6_10, e_21_5, e_6_15, e_0_26]
    simp [decodeSlot, hp, w]
  have h := control_alone n none _ hs (by simp [e_op]) (by simp [isLdi64, e_op]) (Or.inl rfl)
  rw [e] at h
  exact h

theorem sbind (a : BitVec 5) (b : BitVec 5) (s : BitVec 4) (r : BitVec 3) (m : BitVec 1) : Statement (.sbind a b s r m) := fun w _ => by
  obtain ⟨n, e⟩ : ∃ n, n = encodeWord (.sbind a b s r m) := ⟨_, rfl⟩
  have h_a := a.isLt
  have h_b := b.isLt
  have h_s := s.isLt
  have h_r := r.isLt
  have h_m := m.isLt
  have e' : n = 2147483648 + a.toNat * 65536 + b.toNat * 2048 + s.toNat * 128 + r.toNat * 16 + m.toNat * 8 := e
  have e_op := fld_of n 26 6 32 (by omega)
  have e_n : n ≠ 0x04000000 := by omega
  have e_0_3 := fld_of n 0 3 0 (by omega)
  have e_21_5 := fld_of n 21 5 0 (by omega)
  have f_a := bv_of a n 16 (by omega)
  have f_b := bv_of b n 11 (by omega)
  have f_s := bv_of s n 7 (by omega)
  have f_r := bv_of r n 4 (by omega)
  have f_m := bv_of m n 3 (by omega)
  have hs : decodeSlot n none = some (.sbind a b s r m) := by
    have hp : shapeSlot n none = some (.sbind a b s r m) := by
      simp [shapeSlot, shapeEngine, e_n, e_op, e_0_3, e_21_5, f_a, f_b, f_s, f_r, f_m]
    simp [decodeSlot, hp, w]
  have h := control_alone n none _ hs (by simp [e_op]) (by simp [isLdi64, e_op]) (Or.inl rfl)
  rw [e] at h
  exact h

theorem sload (d : BitVec 5) (a : BitVec 5) (b : BitVec 5) : Statement (.sload d a b) := fun w _ => by
  obtain ⟨n, e⟩ : ∃ n, n = encodeWord (.sload d a b) := ⟨_, rfl⟩
  have h_d := d.isLt
  have h_a := a.isLt
  have h_b := b.isLt
  have e' : n = 2214592512 + d.toNat * 2097152 + a.toNat * 65536 + b.toNat * 2048 := e
  have e_op := fld_of n 26 6 33 (by omega)
  have e_n : n ≠ 0x04000000 := by omega
  have e_0_11 := fld_of n 0 11 0 (by omega)
  have f_d := bv_of d n 21 (by omega)
  have f_a := bv_of a n 16 (by omega)
  have f_b := bv_of b n 11 (by omega)
  have hs : decodeSlot n none = some (.sload d a b) := by
    have hp : shapeSlot n none = some (.sload d a b) := by
      simp [shapeSlot, shapeEngine, e_n, e_op, e_0_11, f_d, f_a, f_b]
    simp [decodeSlot, hp, w]
  have h := control_alone n none _ hs (by simp [e_op]) (by simp [isLdi64, e_op]) (Or.inl rfl)
  rw [e] at h
  exact h

theorem sgather (d : BitVec 5) (a : BitVec 5) (b : BitVec 5) (c : BitVec 5) : Statement (.sgather d a b c) := fun w _ => by
  obtain ⟨n, e⟩ : ∃ n, n = encodeWord (.sgather d a b c) := ⟨_, rfl⟩
  have h_d := d.isLt
  have h_a := a.isLt
  have h_b := b.isLt
  have h_c := c.isLt
  have e' : n = 2281701376 + d.toNat * 2097152 + a.toNat * 65536 + b.toNat * 2048 + c.toNat * 64 := e
  have e_op := fld_of n 26 6 34 (by omega)
  have e_n : n ≠ 0x04000000 := by omega
  have e_0_6 := fld_of n 0 6 0 (by omega)
  have f_d := bv_of d n 21 (by omega)
  have f_a := bv_of a n 16 (by omega)
  have f_b := bv_of b n 11 (by omega)
  have f_c := bv_of c n 6 (by omega)
  have hs : decodeSlot n none = some (.sgather d a b c) := by
    have hp : shapeSlot n none = some (.sgather d a b c) := by
      simp [shapeSlot, shapeEngine, e_n, e_op, e_0_6, f_d, f_a, f_b, f_c]
    simp [decodeSlot, hp, w]
  have h := control_alone n none _ hs (by simp [e_op]) (by simp [isLdi64, e_op]) (Or.inl rfl)
  rw [e] at h
  exact h

theorem sstore (d : BitVec 5) (a : BitVec 5) (b : BitVec 5) (c : BitVec 5) (n0 : BitVec 3) : Statement (.sstore d a b c n0) := fun w _ => by
  obtain ⟨n, e⟩ : ∃ n, n = encodeWord (.sstore d a b c n0) := ⟨_, rfl⟩
  have h_d := d.isLt
  have h_a := a.isLt
  have h_b := b.isLt
  have h_c := c.isLt
  have h_n0 := n0.isLt
  have e' : n = 2348810240 + d.toNat * 2097152 + a.toNat * 65536 + b.toNat * 2048 + c.toNat * 64 + n0.toNat := e
  have e_op := fld_of n 26 6 35 (by omega)
  have e_n : n ≠ 0x04000000 := by omega
  have e_3_3 := fld_of n 3 3 0 (by omega)
  have f_d := bv_of d n 21 (by omega)
  have f_a := bv_of a n 16 (by omega)
  have f_b := bv_of b n 11 (by omega)
  have f_c := bv_of c n 6 (by omega)
  have f_n0 := bv_of n0 n 0 (by omega)
  have hs : decodeSlot n none = some (.sstore d a b c n0) := by
    have hp : shapeSlot n none = some (.sstore d a b c n0) := by
      simp [shapeSlot, shapeEngine, e_n, e_op, e_3_3, f_d, f_a, f_b, f_c, f_n0]
    simp [decodeSlot, hp, w]
  have h := control_alone n none _ hs (by simp [e_op]) (by simp [isLdi64, e_op]) (Or.inl rfl)
  rw [e] at h
  exact h

theorem sscatter (d : BitVec 5) (a : BitVec 5) (b : BitVec 5) (c : BitVec 5) : Statement (.sscatter d a b c) := fun w _ => by
  obtain ⟨n, e⟩ : ∃ n, n = encodeWord (.sscatter d a b c) := ⟨_, rfl⟩
  have h_d := d.isLt
  have h_a := a.isLt
  have h_b := b.isLt
  have h_c := c.isLt
  have e' : n = 2415919104 + d.toNat * 2097152 + a.toNat * 65536 + b.toNat * 2048 + c.toNat * 64 := e
  have e_op := fld_of n 26 6 36 (by omega)
  have e_n : n ≠ 0x04000000 := by omega
  have e_0_6 := fld_of n 0 6 0 (by omega)
  have f_d := bv_of d n 21 (by omega)
  have f_a := bv_of a n 16 (by omega)
  have f_b := bv_of b n 11 (by omega)
  have f_c := bv_of c n 6 (by omega)
  have hs : decodeSlot n none = some (.sscatter d a b c) := by
    have hp : shapeSlot n none = some (.sscatter d a b c) := by
      simp [shapeSlot, shapeEngine, e_n, e_op, e_0_6, f_d, f_a, f_b, f_c]
    simp [decodeSlot, hp, w]
  have h := control_alone n none _ hs (by simp [e_op]) (by simp [isLdi64, e_op]) (Or.inl rfl)
  rw [e] at h
  exact h

theorem sscatterAddI32 (d : BitVec 5) (a : BitVec 5) (b : BitVec 5) (c : BitVec 5) : Statement (.sscatterAddI32 d a b c) := fun w _ => by
  obtain ⟨n, e⟩ : ∃ n, n = encodeWord (.sscatterAddI32 d a b c) := ⟨_, rfl⟩
  have h_d := d.isLt
  have h_a := a.isLt
  have h_b := b.isLt
  have h_c := c.isLt
  have e' : n = 2415919108 + d.toNat * 2097152 + a.toNat * 65536 + b.toNat * 2048 + c.toNat * 64 := e
  have e_op := fld_of n 26 6 36 (by omega)
  have e_n : n ≠ 0x04000000 := by omega
  have e_0_6 := fld_of n 0 6 4 (by omega)
  have f_d := bv_of d n 21 (by omega)
  have f_a := bv_of a n 16 (by omega)
  have f_b := bv_of b n 11 (by omega)
  have f_c := bv_of c n 6 (by omega)
  have hs : decodeSlot n none = some (.sscatterAddI32 d a b c) := by
    have hp : shapeSlot n none = some (.sscatterAddI32 d a b c) := by
      simp [shapeSlot, shapeEngine, e_n, e_op, e_0_6, f_d, f_a, f_b, f_c]
    simp [decodeSlot, hp, w]
  have h := control_alone n none _ hs (by simp [e_op]) (by simp [isLdi64, e_op]) (Or.inl rfl)
  rw [e] at h
  exact h

theorem sscatterAddN32 (d : BitVec 5) (a : BitVec 5) (b : BitVec 5) (c : BitVec 5) : Statement (.sscatterAddN32 d a b c) := fun w _ => by
  obtain ⟨n, e⟩ : ∃ n, n = encodeWord (.sscatterAddN32 d a b c) := ⟨_, rfl⟩
  have h_d := d.isLt
  have h_a := a.isLt
  have h_b := b.isLt
  have h_c := c.isLt
  have e' : n = 2415919112 + d.toNat * 2097152 + a.toNat * 65536 + b.toNat * 2048 + c.toNat * 64 := e
  have e_op := fld_of n 26 6 36 (by omega)
  have e_n : n ≠ 0x04000000 := by omega
  have e_0_6 := fld_of n 0 6 8 (by omega)
  have f_d := bv_of d n 21 (by omega)
  have f_a := bv_of a n 16 (by omega)
  have f_b := bv_of b n 11 (by omega)
  have f_c := bv_of c n 6 (by omega)
  have hs : decodeSlot n none = some (.sscatterAddN32 d a b c) := by
    have hp : shapeSlot n none = some (.sscatterAddN32 d a b c) := by
      simp [shapeSlot, shapeEngine, e_n, e_op, e_0_6, f_d, f_a, f_b, f_c]
    simp [decodeSlot, hp, w]
  have h := control_alone n none _ hs (by simp [e_op]) (by simp [isLdi64, e_op]) (Or.inl rfl)
  rw [e] at h
  exact h

theorem sscatterAddI64 (d : BitVec 5) (a : BitVec 5) (b : BitVec 5) (c : BitVec 5) : Statement (.sscatterAddI64 d a b c) := fun w _ => by
  obtain ⟨n, e⟩ : ∃ n, n = encodeWord (.sscatterAddI64 d a b c) := ⟨_, rfl⟩
  have h_d := d.isLt
  have h_a := a.isLt
  have h_b := b.isLt
  have h_c := c.isLt
  have e' : n = 2415919116 + d.toNat * 2097152 + a.toNat * 65536 + b.toNat * 2048 + c.toNat * 64 := e
  have e_op := fld_of n 26 6 36 (by omega)
  have e_n : n ≠ 0x04000000 := by omega
  have e_0_6 := fld_of n 0 6 12 (by omega)
  have f_d := bv_of d n 21 (by omega)
  have f_a := bv_of a n 16 (by omega)
  have f_b := bv_of b n 11 (by omega)
  have f_c := bv_of c n 6 (by omega)
  have hs : decodeSlot n none = some (.sscatterAddI64 d a b c) := by
    have hp : shapeSlot n none = some (.sscatterAddI64 d a b c) := by
      simp [shapeSlot, shapeEngine, e_n, e_op, e_0_6, f_d, f_a, f_b, f_c]
    simp [decodeSlot, hp, w]
  have h := control_alone n none _ hs (by simp [e_op]) (by simp [isLdi64, e_op]) (Or.inl rfl)
  rw [e] at h
  exact h

theorem sscatterAddXa256 (d : BitVec 5) (a : BitVec 5) (b : BitVec 5) (c : BitVec 5) : Statement (.sscatterAddXa256 d a b c) := fun w _ => by
  obtain ⟨n, e⟩ : ∃ n, n = encodeWord (.sscatterAddXa256 d a b c) := ⟨_, rfl⟩
  have h_d := d.isLt
  have h_a := a.isLt
  have h_b := b.isLt
  have h_c := c.isLt
  have e' : n = 2415919120 + d.toNat * 2097152 + a.toNat * 65536 + b.toNat * 2048 + c.toNat * 64 := e
  have e_op := fld_of n 26 6 36 (by omega)
  have e_n : n ≠ 0x04000000 := by omega
  have e_0_6 := fld_of n 0 6 16 (by omega)
  have f_d := bv_of d n 21 (by omega)
  have f_a := bv_of a n 16 (by omega)
  have f_b := bv_of b n 11 (by omega)
  have f_c := bv_of c n 6 (by omega)
  have hs : decodeSlot n none = some (.sscatterAddXa256 d a b c) := by
    have hp : shapeSlot n none = some (.sscatterAddXa256 d a b c) := by
      simp [shapeSlot, shapeEngine, e_n, e_op, e_0_6, f_d, f_a, f_b, f_c]
    simp [decodeSlot, hp, w]
  have h := control_alone n none _ hs (by simp [e_op]) (by simp [isLdi64, e_op]) (Or.inl rfl)
  rw [e] at h
  exact h

theorem sscatterAddF32 (d : BitVec 5) (a : BitVec 5) (b : BitVec 5) (c : BitVec 5) : Statement (.sscatterAddF32 d a b c) := fun w _ => by
  obtain ⟨n, e⟩ : ∃ n, n = encodeWord (.sscatterAddF32 d a b c) := ⟨_, rfl⟩
  have h_d := d.isLt
  have h_a := a.isLt
  have h_b := b.isLt
  have h_c := c.isLt
  have e' : n = 2415919124 + d.toNat * 2097152 + a.toNat * 65536 + b.toNat * 2048 + c.toNat * 64 := e
  have e_op := fld_of n 26 6 36 (by omega)
  have e_n : n ≠ 0x04000000 := by omega
  have e_0_6 := fld_of n 0 6 20 (by omega)
  have f_d := bv_of d n 21 (by omega)
  have f_a := bv_of a n 16 (by omega)
  have f_b := bv_of b n 11 (by omega)
  have f_c := bv_of c n 6 (by omega)
  have hs : decodeSlot n none = some (.sscatterAddF32 d a b c) := by
    have hp : shapeSlot n none = some (.sscatterAddF32 d a b c) := by
      simp [shapeSlot, shapeEngine, e_n, e_op, e_0_6, f_d, f_a, f_b, f_c]
    simp [decodeSlot, hp, w]
  have h := control_alone n none _ hs (by simp [e_op]) (by simp [isLdi64, e_op]) (Or.inl rfl)
  rw [e] at h
  exact h

theorem spair (d : BitVec 5) (a : BitVec 5) (b : BitVec 5) (c : BitVec 5) : Statement (.spair d a b c) := fun w _ => by
  obtain ⟨n, e⟩ : ∃ n, n = encodeWord (.spair d a b c) := ⟨_, rfl⟩
  have h_d := d.isLt
  have h_a := a.isLt
  have h_b := b.isLt
  have h_c := c.isLt
  have e' : n = 2483027968 + d.toNat * 2097152 + a.toNat * 65536 + b.toNat * 2048 + c.toNat * 64 := e
  have e_op := fld_of n 26 6 37 (by omega)
  have e_n : n ≠ 0x04000000 := by omega
  have e_0_6 := fld_of n 0 6 0 (by omega)
  have f_d := bv_of d n 21 (by omega)
  have f_a := bv_of a n 16 (by omega)
  have f_b := bv_of b n 11 (by omega)
  have f_c := bv_of c n 6 (by omega)
  have hs : decodeSlot n none = some (.spair d a b c) := by
    have hp : shapeSlot n none = some (.spair d a b c) := by
      simp [shapeSlot, shapeEngine, e_n, e_op, e_0_6, f_d, f_a, f_b, f_c]
    simp [decodeSlot, hp, w]
  have h := control_alone n none _ hs (by simp [e_op]) (by simp [isLdi64, e_op]) (Or.inl rfl)
  rw [e] at h
  exact h

theorem scopy (d : BitVec 5) (a : BitVec 5) (b : BitVec 5) : Statement (.scopy d a b) := fun w _ => by
  obtain ⟨n, e⟩ : ∃ n, n = encodeWord (.scopy d a b) := ⟨_, rfl⟩
  have h_d := d.isLt
  have h_a := a.isLt
  have h_b := b.isLt
  have e' : n = 2550136832 + d.toNat * 2097152 + a.toNat * 65536 + b.toNat * 2048 := e
  have e_op := fld_of n 26 6 38 (by omega)
  have e_n : n ≠ 0x04000000 := by omega
  have e_0_11 := fld_of n 0 11 0 (by omega)
  have f_d := bv_of d n 21 (by omega)
  have f_a := bv_of a n 16 (by omega)
  have f_b := bv_of b n 11 (by omega)
  have hs : decodeSlot n none = some (.scopy d a b) := by
    have hp : shapeSlot n none = some (.scopy d a b) := by
      simp [shapeSlot, shapeEngine, e_n, e_op, e_0_11, f_d, f_a, f_b]
    simp [decodeSlot, hp, w]
  have h := control_alone n none _ hs (by simp [e_op]) (by simp [isLdi64, e_op]) (Or.inl rfl)
  rw [e] at h
  exact h

theorem krun (d : BitVec 5) (a : BitVec 5) (b : BitVec 5) : Statement (.krun d a b) := fun w _ => by
  obtain ⟨n, e⟩ : ∃ n, n = encodeWord (.krun d a b) := ⟨_, rfl⟩
  have h_d := d.isLt
  have h_a := a.isLt
  have h_b := b.isLt
  have e' : n = 2617245696 + d.toNat * 2097152 + a.toNat * 65536 + b.toNat * 2048 := e
  have e_op := fld_of n 26 6 39 (by omega)
  have e_n : n ≠ 0x04000000 := by omega
  have e_0_11 := fld_of n 0 11 0 (by omega)
  have f_d := bv_of d n 21 (by omega)
  have f_a := bv_of a n 16 (by omega)
  have f_b := bv_of b n 11 (by omega)
  have hs : decodeSlot n none = some (.krun d a b) := by
    have hp : shapeSlot n none = some (.krun d a b) := by
      simp [shapeSlot, shapeEngine, e_n, e_op, e_0_11, f_d, f_a, f_b]
    simp [decodeSlot, hp, w]
  have h := control_alone n none _ hs (by simp [e_op]) (by simp [isLdi64, e_op]) (Or.inl rfl)
  rw [e] at h
  exact h

theorem kctlAbort : Statement (.kctlAbort) := fun w _ => by
  obtain ⟨n, e⟩ : ∃ n, n = encodeWord (.kctlAbort) := ⟨_, rfl⟩
  have e' : n = 2684354560 := e
  have e_op := fld_of n 26 6 40 (by omega)
  have e_n : n ≠ 0x04000000 := by omega
  have e_0_26 := fld_of n 0 26 0 (by omega)
  have hs : decodeSlot n none = some (.kctlAbort) := by
    have hp : shapeSlot n none = some (.kctlAbort) := by
      simp [shapeSlot, shapeEngine, e_n, e_op, e_0_26]
    simp [decodeSlot, hp, w]
  have h := control_alone n none _ hs (by simp [e_op]) (by simp [isLdi64, e_op]) (Or.inl rfl)
  rw [e] at h
  exact h

theorem kctlPrefetch (d : BitVec 5) (a : BitVec 5) : Statement (.kctlPrefetch d a) := fun w _ => by
  obtain ⟨n, e⟩ : ∃ n, n = encodeWord (.kctlPrefetch d a) := ⟨_, rfl⟩
  have h_d := d.isLt
  have h_a := a.isLt
  have e' : n = 2684354561 + d.toNat * 2097152 + a.toNat * 65536 := e
  have e_op := fld_of n 26 6 40 (by omega)
  have e_n : n ≠ 0x04000000 := by omega
  have e_0_26_0 := fld_ne n 0 26 0 (by omega)
  have e_0_16 := fld_of n 0 16 1 (by omega)
  have f_d := bv_of d n 21 (by omega)
  have f_a := bv_of a n 16 (by omega)
  have hs : decodeSlot n none = some (.kctlPrefetch d a) := by
    have hp : shapeSlot n none = some (.kctlPrefetch d a) := by
      simp [shapeSlot, shapeEngine, e_n, e_op, e_0_26_0, e_0_16, f_d, f_a]
    simp [decodeSlot, hp, w]
  have h := control_alone n none _ hs (by simp [e_op]) (by simp [isLdi64, e_op]) (Or.inl rfl)
  rw [e] at h
  exact h

theorem mcall (d : BitVec 5) (a : BitVec 5) (b : BitVec 5) (c : BitVec 5) (n0 : BitVec 2) : Statement (.mcall d a b c n0) := fun w _ => by
  obtain ⟨n, e⟩ : ∃ n, n = encodeWord (.mcall d a b c n0) := ⟨_, rfl⟩
  have h_d := d.isLt
  have h_a := a.isLt
  have h_b := b.isLt
  have h_c := c.isLt
  have h_n0 := n0.isLt
  have e' : n = 2751463424 + d.toNat * 2097152 + a.toNat * 65536 + b.toNat * 2048 + c.toNat * 64 + n0.toNat * 16 := e
  have e_op := fld_of n 26 6 41 (by omega)
  have e_n : n ≠ 0x04000000 := by omega
  have e_0_4 := fld_of n 0 4 0 (by omega)
  have f_d := bv_of d n 21 (by omega)
  have f_a := bv_of a n 16 (by omega)
  have f_b := bv_of b n 11 (by omega)
  have f_c := bv_of c n 6 (by omega)
  have f_n0 := bv_of n0 n 4 (by omega)
  have hs : decodeSlot n none = some (.mcall d a b c n0) := by
    have hp : shapeSlot n none = some (.mcall d a b c n0) := by
      simp [shapeSlot, shapeEngine, e_n, e_op, e_0_4, f_d, f_a, f_b, f_c, f_n0]
    simp [decodeSlot, hp, w]
  have h := control_alone n none _ hs (by simp [e_op]) (by simp [isLdi64, e_op]) (Or.inl rfl)
  rw [e] at h
  exact h

theorem mrout (d : BitVec 5) (a : BitVec 5) (b : BitVec 5) : Statement (.mrout d a b) := fun w _ => by
  obtain ⟨n, e⟩ : ∃ n, n = encodeWord (.mrout d a b) := ⟨_, rfl⟩
  have h_d := d.isLt
  have h_a := a.isLt
  have h_b := b.isLt
  have e' : n = 2818572288 + d.toNat * 2097152 + a.toNat * 65536 + b.toNat * 2048 := e
  have e_op := fld_of n 26 6 42 (by omega)
  have e_n : n ≠ 0x04000000 := by omega
  have e_0_11 := fld_of n 0 11 0 (by omega)
  have f_d := bv_of d n 21 (by omega)
  have f_a := bv_of a n 16 (by omega)
  have f_b := bv_of b n 11 (by omega)
  have hs : decodeSlot n none = some (.mrout d a b) := by
    have hp : shapeSlot n none = some (.mrout d a b) := by
      simp [shapeSlot, shapeEngine, e_n, e_op, e_0_11, f_d, f_a, f_b]
    simp [decodeSlot, hp, w]
  have h := control_alone n none _ hs (by simp [e_op]) (by simp [isLdi64, e_op]) (Or.inl rfl)
  rw [e] at h
  exact h

theorem wsctlLoad (d : BitVec 5) : Statement (.wsctlLoad d) := fun w _ => by
  obtain ⟨n, e⟩ : ∃ n, n = encodeWord (.wsctlLoad d) := ⟨_, rfl⟩
  have h_d := d.isLt
  have e' : n = 2885681152 + d.toNat * 2097152 := e
  have e_op := fld_of n 26 6 43 (by omega)
  have e_n : n ≠ 0x04000000 := by omega
  have e_0_21 := fld_of n 0 21 0 (by omega)
  have f_d := bv_of d n 21 (by omega)
  have hs : decodeSlot n none = some (.wsctlLoad d) := by
    have hp : shapeSlot n none = some (.wsctlLoad d) := by
      simp [shapeSlot, shapeEngine, e_n, e_op, e_0_21, f_d]
    simp [decodeSlot, hp, w]
  have h := control_alone n none _ hs (by simp [e_op]) (by simp [isLdi64, e_op]) (Or.inl rfl)
  rw [e] at h
  exact h

theorem wsctlSeal (d : BitVec 5) : Statement (.wsctlSeal d) := fun w _ => by
  obtain ⟨n, e⟩ : ∃ n, n = encodeWord (.wsctlSeal d) := ⟨_, rfl⟩
  have h_d := d.isLt
  have e' : n = 2885681153 + d.toNat * 2097152 := e
  have e_op := fld_of n 26 6 43 (by omega)
  have e_n : n ≠ 0x04000000 := by omega
  have e_0_21 := fld_of n 0 21 1 (by omega)
  have f_d := bv_of d n 21 (by omega)
  have hs : decodeSlot n none = some (.wsctlSeal d) := by
    have hp : shapeSlot n none = some (.wsctlSeal d) := by
      simp [shapeSlot, shapeEngine, e_n, e_op, e_0_21, f_d]
    simp [decodeSlot, hp, w]
  have h := control_alone n none _ hs (by simp [e_op]) (by simp [isLdi64, e_op]) (Or.inl rfl)
  rw [e] at h
  exact h

theorem wsctlQuery (d : BitVec 5) : Statement (.wsctlQuery d) := fun w _ => by
  obtain ⟨n, e⟩ : ∃ n, n = encodeWord (.wsctlQuery d) := ⟨_, rfl⟩
  have h_d := d.isLt
  have e' : n = 2885681154 + d.toNat * 2097152 := e
  have e_op := fld_of n 26 6 43 (by omega)
  have e_n : n ≠ 0x04000000 := by omega
  have e_0_21 := fld_of n 0 21 2 (by omega)
  have f_d := bv_of d n 21 (by omega)
  have hs : decodeSlot n none = some (.wsctlQuery d) := by
    have hp : shapeSlot n none = some (.wsctlQuery d) := by
      simp [shapeSlot, shapeEngine, e_n, e_op, e_0_21, f_d]
    simp [decodeSlot, hp, w]
  have h := control_alone n none _ hs (by simp [e_op]) (by simp [isLdi64, e_op]) (Or.inl rfl)
  rw [e] at h
  exact h

theorem treeBind (d : BitVec 5) (a : BitVec 5) (b : BitVec 5) (s : BitVec 2) : Statement (.treeBind d a b s) := fun w _ => by
  obtain ⟨n, e⟩ : ∃ n, n = encodeWord (.treeBind d a b s) := ⟨_, rfl⟩
  have h_d := d.isLt
  have h_a := a.isLt
  have h_b := b.isLt
  have h_s := s.isLt
  have e' : n = 2952790016 + d.toNat * 2097152 + a.toNat * 65536 + b.toNat * 2048 + s.toNat * 16 := e
  have e_op := fld_of n 26 6 44 (by omega)
  have e_n : n ≠ 0x04000000 := by omega
  have e_0_4 := fld_of n 0 4 0 (by omega)
  have e_6_5 := fld_of n 6 5 0 (by omega)
  have f_d := bv_of d n 21 (by omega)
  have f_a := bv_of a n 16 (by omega)
  have f_b := bv_of b n 11 (by omega)
  have f_s := bv_of s n 4 (by omega)
  have hs : decodeSlot n none = some (.treeBind d a b s) := by
    have hp : shapeSlot n none = some (.treeBind d a b s) := by
      simp [shapeSlot, shapeEngine, e_n, e_op, e_0_4, e_6_5, f_d, f_a, f_b, f_s]
    simp [decodeSlot, hp, w]
  have h := control_alone n none _ hs (by simp [e_op]) (by simp [isLdi64, e_op]) (Or.inl rfl)
  rw [e] at h
  exact h

theorem treeDesc (d : BitVec 5) (a : BitVec 5) (b : BitVec 5) (c : BitVec 5) (s : BitVec 2) : Statement (.treeDesc d a b c s) := fun w _ => by
  obtain ⟨n, e⟩ : ∃ n, n = encodeWord (.treeDesc d a b c s) := ⟨_, rfl⟩
  have h_d := d.isLt
  have h_a := a.isLt
  have h_b := b.isLt
  have h_c := c.isLt
  have h_s := s.isLt
  have e' : n = 2952790017 + d.toNat * 2097152 + a.toNat * 65536 + b.toNat * 2048 + c.toNat * 64 + s.toNat * 16 := e
  have e_op := fld_of n 26 6 44 (by omega)
  have e_n : n ≠ 0x04000000 := by omega
  have e_0_4 := fld_of n 0 4 1 (by omega)
  have f_d := bv_of d n 21 (by omega)
  have f_a := bv_of a n 16 (by omega)
  have f_b := bv_of b n 11 (by omega)
  have f_c := bv_of c n 6 (by omega)
  have f_s := bv_of s n 4 (by omega)
  have hs : decodeSlot n none = some (.treeDesc d a b c s) := by
    have hp : shapeSlot n none = some (.treeDesc d a b c s) := by
      simp [shapeSlot, shapeEngine, e_n, e_op, e_0_4, f_d, f_a, f_b, f_c, f_s]
    simp [decodeSlot, hp, w]
  have h := control_alone n none _ hs (by simp [e_op]) (by simp [isLdi64, e_op]) (Or.inl rfl)
  rw [e] at h
  exact h

theorem treeExp (d : BitVec 5) (a : BitVec 5) (b : BitVec 5) (c : BitVec 5) (s : BitVec 2) : Statement (.treeExp d a b c s) := fun w _ => by
  obtain ⟨n, e⟩ : ∃ n, n = encodeWord (.treeExp d a b c s) := ⟨_, rfl⟩
  have h_d := d.isLt
  have h_a := a.isLt
  have h_b := b.isLt
  have h_c := c.isLt
  have h_s := s.isLt
  have e' : n = 2952790018 + d.toNat * 2097152 + a.toNat * 65536 + b.toNat * 2048 + c.toNat * 64 + s.toNat * 16 := e
  have e_op := fld_of n 26 6 44 (by omega)
  have e_n : n ≠ 0x04000000 := by omega
  have e_0_4 := fld_of n 0 4 2 (by omega)
  have f_d := bv_of d n 21 (by omega)
  have f_a := bv_of a n 16 (by omega)
  have f_b := bv_of b n 11 (by omega)
  have f_c := bv_of c n 6 (by omega)
  have f_s := bv_of s n 4 (by omega)
  have hs : decodeSlot n none = some (.treeExp d a b c s) := by
    have hp : shapeSlot n none = some (.treeExp d a b c s) := by
      simp [shapeSlot, shapeEngine, e_n, e_op, e_0_4, f_d, f_a, f_b, f_c, f_s]
    simp [decodeSlot, hp, w]
  have h := control_alone n none _ hs (by simp [e_op]) (by simp [isLdi64, e_op]) (Or.inl rfl)
  rw [e] at h
  exact h

theorem treeBack (d : BitVec 5) (a : BitVec 5) (b : BitVec 5) (c : BitVec 5) (s : BitVec 2) : Statement (.treeBack d a b c s) := fun w _ => by
  obtain ⟨n, e⟩ : ∃ n, n = encodeWord (.treeBack d a b c s) := ⟨_, rfl⟩
  have h_d := d.isLt
  have h_a := a.isLt
  have h_b := b.isLt
  have h_c := c.isLt
  have h_s := s.isLt
  have e' : n = 2952790019 + d.toNat * 2097152 + a.toNat * 65536 + b.toNat * 2048 + c.toNat * 64 + s.toNat * 16 := e
  have e_op := fld_of n 26 6 44 (by omega)
  have e_n : n ≠ 0x04000000 := by omega
  have e_0_4 := fld_of n 0 4 3 (by omega)
  have f_d := bv_of d n 21 (by omega)
  have f_a := bv_of a n 16 (by omega)
  have f_b := bv_of b n 11 (by omega)
  have f_c := bv_of c n 6 (by omega)
  have f_s := bv_of s n 4 (by omega)
  have hs : decodeSlot n none = some (.treeBack d a b c s) := by
    have hp : shapeSlot n none = some (.treeBack d a b c s) := by
      simp [shapeSlot, shapeEngine, e_n, e_op, e_0_4, f_d, f_a, f_b, f_c, f_s]
    simp [decodeSlot, hp, w]
  have h := control_alone n none _ hs (by simp [e_op]) (by simp [isLdi64, e_op]) (Or.inl rfl)
  rw [e] at h
  exact h

theorem treeReroot (d : BitVec 5) (a : BitVec 5) (b : BitVec 5) (s : BitVec 2) : Statement (.treeReroot d a b s) := fun w _ => by
  obtain ⟨n, e⟩ : ∃ n, n = encodeWord (.treeReroot d a b s) := ⟨_, rfl⟩
  have h_d := d.isLt
  have h_a := a.isLt
  have h_b := b.isLt
  have h_s := s.isLt
  have e' : n = 2952790020 + d.toNat * 2097152 + a.toNat * 65536 + b.toNat * 2048 + s.toNat * 16 := e
  have e_op := fld_of n 26 6 44 (by omega)
  have e_n : n ≠ 0x04000000 := by omega
  have e_0_4 := fld_of n 0 4 4 (by omega)
  have e_6_5 := fld_of n 6 5 0 (by omega)
  have f_d := bv_of d n 21 (by omega)
  have f_a := bv_of a n 16 (by omega)
  have f_b := bv_of b n 11 (by omega)
  have f_s := bv_of s n 4 (by omega)
  have hs : decodeSlot n none = some (.treeReroot d a b s) := by
    have hp : shapeSlot n none = some (.treeReroot d a b s) := by
      simp [shapeSlot, shapeEngine, e_n, e_op, e_0_4, e_6_5, f_d, f_a, f_b, f_s]
    simp [decodeSlot, hp, w]
  have h := control_alone n none _ hs (by simp [e_op]) (by simp [isLdi64, e_op]) (Or.inl rfl)
  rw [e] at h
  exact h

theorem treeSweep (d : BitVec 5) (b : BitVec 5) (s : BitVec 2) : Statement (.treeSweep d b s) := fun w _ => by
  obtain ⟨n, e⟩ : ∃ n, n = encodeWord (.treeSweep d b s) := ⟨_, rfl⟩
  have h_d := d.isLt
  have h_b := b.isLt
  have h_s := s.isLt
  have e' : n = 2952790021 + d.toNat * 2097152 + b.toNat * 2048 + s.toNat * 16 := e
  have e_op := fld_of n 26 6 44 (by omega)
  have e_n : n ≠ 0x04000000 := by omega
  have e_0_4 := fld_of n 0 4 5 (by omega)
  have e_6_5 := fld_of n 6 5 0 (by omega)
  have e_16_5 := fld_of n 16 5 0 (by omega)
  have f_d := bv_of d n 21 (by omega)
  have f_b := bv_of b n 11 (by omega)
  have f_s := bv_of s n 4 (by omega)
  have hs : decodeSlot n none = some (.treeSweep d b s) := by
    have hp : shapeSlot n none = some (.treeSweep d b s) := by
      simp [shapeSlot, shapeEngine, e_n, e_op, e_0_4, e_6_5, e_16_5, f_d, f_b, f_s]
    simp [decodeSlot, hp, w]
  have h := control_alone n none _ hs (by simp [e_op]) (by simp [isLdi64, e_op]) (Or.inl rfl)
  rw [e] at h
  exact h

theorem treePath (d : BitVec 5) (a : BitVec 5) (b : BitVec 5) (c : BitVec 5) (s : BitVec 2) : Statement (.treePath d a b c s) := fun w _ => by
  obtain ⟨n, e⟩ : ∃ n, n = encodeWord (.treePath d a b c s) := ⟨_, rfl⟩
  have h_d := d.isLt
  have h_a := a.isLt
  have h_b := b.isLt
  have h_c := c.isLt
  have h_s := s.isLt
  have e' : n = 2952790022 + d.toNat * 2097152 + a.toNat * 65536 + b.toNat * 2048 + c.toNat * 64 + s.toNat * 16 := e
  have e_op := fld_of n 26 6 44 (by omega)
  have e_n : n ≠ 0x04000000 := by omega
  have e_0_4 := fld_of n 0 4 6 (by omega)
  have f_d := bv_of d n 21 (by omega)
  have f_a := bv_of a n 16 (by omega)
  have f_b := bv_of b n 11 (by omega)
  have f_c := bv_of c n 6 (by omega)
  have f_s := bv_of s n 4 (by omega)
  have hs : decodeSlot n none = some (.treePath d a b c s) := by
    have hp : shapeSlot n none = some (.treePath d a b c s) := by
      simp [shapeSlot, shapeEngine, e_n, e_op, e_0_4, f_d, f_a, f_b, f_c, f_s]
    simp [decodeSlot, hp, w]
  have h := control_alone n none _ hs (by simp [e_op]) (by simp [isLdi64, e_op]) (Or.inl rfl)
  rw [e] at h
  exact h

theorem treeRead (d : BitVec 5) (a : BitVec 5) (b : BitVec 5) (c : BitVec 5) (s : BitVec 2) : Statement (.treeRead d a b c s) := fun w _ => by
  obtain ⟨n, e⟩ : ∃ n, n = encodeWord (.treeRead d a b c s) := ⟨_, rfl⟩
  have h_d := d.isLt
  have h_a := a.isLt
  have h_b := b.isLt
  have h_c := c.isLt
  have h_s := s.isLt
  have e' : n = 2952790023 + d.toNat * 2097152 + a.toNat * 65536 + b.toNat * 2048 + c.toNat * 64 + s.toNat * 16 := e
  have e_op := fld_of n 26 6 44 (by omega)
  have e_n : n ≠ 0x04000000 := by omega
  have e_0_4 := fld_of n 0 4 7 (by omega)
  have f_d := bv_of d n 21 (by omega)
  have f_a := bv_of a n 16 (by omega)
  have f_b := bv_of b n 11 (by omega)
  have f_c := bv_of c n 6 (by omega)
  have f_s := bv_of s n 4 (by omega)
  have hs : decodeSlot n none = some (.treeRead d a b c s) := by
    have hp : shapeSlot n none = some (.treeRead d a b c s) := by
      simp [shapeSlot, shapeEngine, e_n, e_op, e_0_4, f_d, f_a, f_b, f_c, f_s]
    simp [decodeSlot, hp, w]
  have h := control_alone n none _ hs (by simp [e_op]) (by simp [isLdi64, e_op]) (Or.inl rfl)
  rw [e] at h
  exact h

theorem treeFlush (d : BitVec 5) (b : BitVec 5) (s : BitVec 2) : Statement (.treeFlush d b s) := fun w _ => by
  obtain ⟨n, e⟩ : ∃ n, n = encodeWord (.treeFlush d b s) := ⟨_, rfl⟩
  have h_d := d.isLt
  have h_b := b.isLt
  have h_s := s.isLt
  have e' : n = 2952790024 + d.toNat * 2097152 + b.toNat * 2048 + s.toNat * 16 := e
  have e_op := fld_of n 26 6 44 (by omega)
  have e_n : n ≠ 0x04000000 := by omega
  have e_0_4 := fld_of n 0 4 8 (by omega)
  have e_6_5 := fld_of n 6 5 0 (by omega)
  have e_16_5 := fld_of n 16 5 0 (by omega)
  have f_d := bv_of d n 21 (by omega)
  have f_b := bv_of b n 11 (by omega)
  have f_s := bv_of s n 4 (by omega)
  have hs : decodeSlot n none = some (.treeFlush d b s) := by
    have hp : shapeSlot n none = some (.treeFlush d b s) := by
      simp [shapeSlot, shapeEngine, e_n, e_op, e_0_4, e_6_5, e_16_5, f_d, f_b, f_s]
    simp [decodeSlot, hp, w]
  have h := control_alone n none _ hs (by simp [e_op]) (by simp [isLdi64, e_op]) (Or.inl rfl)
  rw [e] at h
  exact h

theorem gatherl (d : BitVec 5) (a : BitVec 5) (b : BitVec 5) (c : BitVec 5) : Statement (.gatherl d a b c) := fun w _ => by
  obtain ⟨n, e⟩ : ∃ n, n = encodeWord (.gatherl d a b c) := ⟨_, rfl⟩
  have h_d := d.isLt
  have h_a := a.isLt
  have h_b := b.isLt
  have h_c := c.isLt
  have e' : n = 3019898880 + d.toNat * 2097152 + a.toNat * 65536 + b.toNat * 2048 + c.toNat * 64 := e
  have e_op := fld_of n 26 6 45 (by omega)
  have e_n : n ≠ 0x04000000 := by omega
  have e_0_6 := fld_of n 0 6 0 (by omega)
  have f_d := bv_of d n 21 (by omega)
  have f_a := bv_of a n 16 (by omega)
  have f_b := bv_of b n 11 (by omega)
  have f_c := bv_of c n 6 (by omega)
  have hs : decodeSlot n none = some (.gatherl d a b c) := by
    have hp : shapeSlot n none = some (.gatherl d a b c) := by
      simp [shapeSlot, shapeEngine, e_n, e_op, e_0_6, f_d, f_a, f_b, f_c]
    simp [decodeSlot, hp, w]
  have h := control_alone n none _ hs (by simp [e_op]) (by simp [isLdi64, e_op]) (Or.inl rfl)
  rw [e] at h
  exact h

theorem launch (d : BitVec 5) (a : BitVec 5) : Statement (.launch d a) := fun w _ => by
  obtain ⟨n, e⟩ : ∃ n, n = encodeWord (.launch d a) := ⟨_, rfl⟩
  have h_d := d.isLt
  have h_a := a.isLt
  have e' : n = 3221225472 + d.toNat * 2097152 + a.toNat * 65536 := e
  have e_op := fld_of n 26 6 48 (by omega)
  have e_n : n ≠ 0x04000000 := by omega
  have e_0_16 := fld_of n 0 16 0 (by omega)
  have f_d := bv_of d n 21 (by omega)
  have f_a := bv_of a n 16 (by omega)
  have hs : decodeSlot n none = some (.launch d a) := by
    have hp : shapeSlot n none = some (.launch d a) := by
      simp [shapeSlot, shapeEngine, e_n, e_op, e_0_16, f_d, f_a]
    simp [decodeSlot, hp, w]
  have h := control_alone n none _ hs (by simp [e_op]) (by simp [isLdi64, e_op]) (Or.inl rfl)
  rw [e] at h
  exact h

theorem taskRetire : Statement (.taskRetire) := fun w _ => by
  obtain ⟨n, e⟩ : ∃ n, n = encodeWord (.taskRetire) := ⟨_, rfl⟩
  have e' : n = 3288334336 := e
  have e_op := fld_of n 26 6 49 (by omega)
  have e_n : n ≠ 0x04000000 := by omega
  have e_0_26 := fld_of n 0 26 0 (by omega)
  have hs : decodeSlot n none = some (.taskRetire) := by
    have hp : shapeSlot n none = some (.taskRetire) := by
      simp [shapeSlot, shapeEngine, e_n, e_op, e_0_26]
    simp [decodeSlot, hp, w]
  have h := control_alone n none _ hs (by simp [e_op]) (by simp [isLdi64, e_op]) (Or.inl rfl)
  rw [e] at h
  exact h

theorem taskYield (d : BitVec 5) (a : BitVec 5) (b : BitVec 5) : Statement (.taskYield d a b) := fun w _ => by
  obtain ⟨n, e⟩ : ∃ n, n = encodeWord (.taskYield d a b) := ⟨_, rfl⟩
  have h_d := d.isLt
  have h_a := a.isLt
  have h_b := b.isLt
  have e' : n = 3288334337 + d.toNat * 2097152 + a.toNat * 65536 + b.toNat * 2048 := e
  have e_op := fld_of n 26 6 49 (by omega)
  have e_n : n ≠ 0x04000000 := by omega
  have e_0_26_0 := fld_ne n 0 26 0 (by omega)
  have e_0_11 := fld_of n 0 11 1 (by omega)
  have f_d := bv_of d n 21 (by omega)
  have f_a := bv_of a n 16 (by omega)
  have f_b := bv_of b n 11 (by omega)
  have hs : decodeSlot n none = some (.taskYield d a b) := by
    have hp : shapeSlot n none = some (.taskYield d a b) := by
      simp [shapeSlot, shapeEngine, e_n, e_op, e_0_26_0, e_0_11, f_d, f_a, f_b]
    simp [decodeSlot, hp, w]
  have h := control_alone n none _ hs (by simp [e_op]) (by simp [isLdi64, e_op]) (Or.inl rfl)
  rw [e] at h
  exact h

theorem taskPrio (d : BitVec 5) (a : BitVec 5) (b : BitVec 5) : Statement (.taskPrio d a b) := fun w _ => by
  obtain ⟨n, e⟩ : ∃ n, n = encodeWord (.taskPrio d a b) := ⟨_, rfl⟩
  have h_d := d.isLt
  have h_a := a.isLt
  have h_b := b.isLt
  have e' : n = 3288334338 + d.toNat * 2097152 + a.toNat * 65536 + b.toNat * 2048 := e
  have e_op := fld_of n 26 6 49 (by omega)
  have e_n : n ≠ 0x04000000 := by omega
  have e_0_26_0 := fld_ne n 0 26 0 (by omega)
  have e_0_11 := fld_of n 0 11 2 (by omega)
  have f_d := bv_of d n 21 (by omega)
  have f_a := bv_of a n 16 (by omega)
  have f_b := bv_of b n 11 (by omega)
  have hs : decodeSlot n none = some (.taskPrio d a b) := by
    have hp : shapeSlot n none = some (.taskPrio d a b) := by
      simp [shapeSlot, shapeEngine, e_n, e_op, e_0_26_0, e_0_11, f_d, f_a, f_b]
    simp [decodeSlot, hp, w]
  have h := control_alone n none _ hs (by simp [e_op]) (by simp [isLdi64, e_op]) (Or.inl rfl)
  rw [e] at h
  exact h

theorem taskSelf (d : BitVec 5) (a : BitVec 5) (b : BitVec 5) : Statement (.taskSelf d a b) := fun w _ => by
  obtain ⟨n, e⟩ : ∃ n, n = encodeWord (.taskSelf d a b) := ⟨_, rfl⟩
  have h_d := d.isLt
  have h_a := a.isLt
  have h_b := b.isLt
  have e' : n = 3288334339 + d.toNat * 2097152 + a.toNat * 65536 + b.toNat * 2048 := e
  have e_op := fld_of n 26 6 49 (by omega)
  have e_n : n ≠ 0x04000000 := by omega
  have e_0_26_0 := fld_ne n 0 26 0 (by omega)
  have e_0_11 := fld_of n 0 11 3 (by omega)
  have f_d := bv_of d n 21 (by omega)
  have f_a := bv_of a n 16 (by omega)
  have f_b := bv_of b n 11 (by omega)
  have hs : decodeSlot n none = some (.taskSelf d a b) := by
    have hp : shapeSlot n none = some (.taskSelf d a b) := by
      simp [shapeSlot, shapeEngine, e_n, e_op, e_0_26_0, e_0_11, f_d, f_a, f_b]
    simp [decodeSlot, hp, w]
  have h := control_alone n none _ hs (by simp [e_op]) (by simp [isLdi64, e_op]) (Or.inl rfl)
  rw [e] at h
  exact h

theorem waymark (d : BitVec 5) (i : BitVec 8) (s : BitVec 3) : Statement (.waymark d i s) := fun w _ => by
  obtain ⟨n, e⟩ : ∃ n, n = encodeWord (.waymark d i s) := ⟨_, rfl⟩
  have h_d := d.isLt
  have h_i := i.isLt
  have h_s := s.isLt
  have e' : n = 3355443200 + d.toNat * 2097152 + i.toNat * 8 + s.toNat := e
  have e_op := fld_of n 26 6 50 (by omega)
  have e_n : n ≠ 0x04000000 := by omega
  have e_11_10 := fld_of n 11 10 0 (by omega)
  have f_d := bv_of d n 21 (by omega)
  have f_i := bv_of i n 3 (by omega)
  have f_s := bv_of s n 0 (by omega)
  have hs : decodeSlot n none = some (.waymark d i s) := by
    have hp : shapeSlot n none = some (.waymark d i s) := by
      simp [shapeSlot, shapeEngine, e_n, e_op, e_11_10, f_d, f_i, f_s]
    simp [decodeSlot, hp, w]
  have h := control_alone n none _ hs (by simp [e_op]) (by simp [isLdi64, e_op]) (Or.inl rfl)
  rw [e] at h
  exact h

theorem br (a : BitVec 5) (c : BitVec 3) (i : Imm 18) : Statement (.br a c i) := fun w _ => by
  obtain ⟨n, e⟩ : ∃ n, n = encodeWord (.br a c i) := ⟨_, rfl⟩
  have h_a := a.isLt
  have h_c := c.isLt
  have h_i := i.lo.isLt
  have e' : n = 3758096384 + a.toNat * 2097152 + c.toNat * 262144 + i.lo.toNat := e
  have e_op := fld_of n 26 6 56 (by omega)
  have e_n : n ≠ 0x04000000 := by omega
  have f_a := bv_of a n 21 (by omega)
  have f_c := bv_of c n 18 (by omega)
  have f_i := bv_of i.lo n 0 (by omega)
  have hs : decodeSlot n i.ext = some (.br a c i) := by
    have hp : shapeSlot n i.ext = some (.br a c i) := by
      simp [shapeSlot, shapeFlow, e_n, e_op, f_a, f_c, f_i, immOf]
    simp [decodeSlot, hp, w]
  have h := control_alone n i.ext _ hs (by simp [e_op]) (by simp [isLdi64, e_op]) (Or.inr rfl)
  rw [e] at h
  exact h

theorem jmp (i : BitVec 26) : Statement (.jmp i) := fun w _ => by
  obtain ⟨n, e⟩ : ∃ n, n = encodeWord (.jmp i) := ⟨_, rfl⟩
  have h_i := i.isLt
  have e' : n = 3825205248 + i.toNat := e
  have e_op := fld_of n 26 6 57 (by omega)
  have e_n : n ≠ 0x04000000 := by omega
  have f_i := bv_of i n 0 (by omega)
  have hs : decodeSlot n none = some (.jmp i) := by
    have hp : shapeSlot n none = some (.jmp i) := by
      simp [shapeSlot, shapeFlow, e_n, e_op, f_i]
    simp [decodeSlot, hp, w]
  have h := control_alone n none _ hs (by simp [e_op]) (by simp [isLdi64, e_op]) (Or.inl rfl)
  rw [e] at h
  exact h

theorem call (i : BitVec 26) : Statement (.call i) := fun w _ => by
  obtain ⟨n, e⟩ : ∃ n, n = encodeWord (.call i) := ⟨_, rfl⟩
  have h_i := i.isLt
  have e' : n = 3892314112 + i.toNat := e
  have e_op := fld_of n 26 6 58 (by omega)
  have e_n : n ≠ 0x04000000 := by omega
  have f_i := bv_of i n 0 (by omega)
  have hs : decodeSlot n none = some (.call i) := by
    have hp : shapeSlot n none = some (.call i) := by
      simp [shapeSlot, shapeFlow, e_n, e_op, f_i]
    simp [decodeSlot, hp, w]
  have h := control_alone n none _ hs (by simp [e_op]) (by simp [isLdi64, e_op]) (Or.inl rfl)
  rw [e] at h
  exact h

theorem jx (a : BitVec 5) : Statement (.jx a) := fun w _ => by
  obtain ⟨n, e⟩ : ∃ n, n = encodeWord (.jx a) := ⟨_, rfl⟩
  have h_a := a.isLt
  have e' : n = 3959422976 + a.toNat * 65536 := e
  have e_op := fld_of n 26 6 59 (by omega)
  have e_n : n ≠ 0x04000000 := by omega
  have e_0_16 := fld_of n 0 16 0 (by omega)
  have e_21_5 := fld_of n 21 5 0 (by omega)
  have f_a := bv_of a n 16 (by omega)
  have hs : decodeSlot n none = some (.jx a) := by
    have hp : shapeSlot n none = some (.jx a) := by
      simp [shapeSlot, shapeFlow, e_n, e_op, e_0_16, e_21_5, f_a]
    simp [decodeSlot, hp, w]
  have h := control_alone n none _ hs (by simp [e_op]) (by simp [isLdi64, e_op]) (Or.inl rfl)
  rw [e] at h
  exact h

theorem callx (a : BitVec 5) : Statement (.callx a) := fun w _ => by
  obtain ⟨n, e⟩ : ∃ n, n = encodeWord (.callx a) := ⟨_, rfl⟩
  have h_a := a.isLt
  have e' : n = 3959422977 + a.toNat * 65536 := e
  have e_op := fld_of n 26 6 59 (by omega)
  have e_n : n ≠ 0x04000000 := by omega
  have e_0_16 := fld_of n 0 16 1 (by omega)
  have e_21_5 := fld_of n 21 5 0 (by omega)
  have f_a := bv_of a n 16 (by omega)
  have hs : decodeSlot n none = some (.callx a) := by
    have hp : shapeSlot n none = some (.callx a) := by
      simp [shapeSlot, shapeFlow, e_n, e_op, e_0_16, e_21_5, f_a]
    simp [decodeSlot, hp, w]
  have h := control_alone n none _ hs (by simp [e_op]) (by simp [isLdi64, e_op]) (Or.inl rfl)
  rw [e] at h
  exact h

theorem ret : Statement (.ret) := fun w _ => by
  obtain ⟨n, e⟩ : ∃ n, n = encodeWord (.ret) := ⟨_, rfl⟩
  have e' : n = 3959422978 := e
  have e_op := fld_of n 26 6 59 (by omega)
  have e_n : n ≠ 0x04000000 := by omega
  have e_0_16 := fld_of n 0 16 2 (by omega)
  have e_21_5 := fld_of n 21 5 0 (by omega)
  have e_0_26 := fld_of n 0 26 2 (by omega)
  have hs : decodeSlot n none = some (.ret) := by
    have hp : shapeSlot n none = some (.ret) := by
      simp [shapeSlot, shapeFlow, e_n, e_op, e_0_16, e_21_5, e_0_26]
    simp [decodeSlot, hp, w]
  have h := control_alone n none _ hs (by simp [e_op]) (by simp [isLdi64, e_op]) (Or.inl rfl)
  rw [e] at h
  exact h

theorem trap (i : BitVec 16) : Statement (.trap i) := fun w _ => by
  obtain ⟨n, e⟩ : ∃ n, n = encodeWord (.trap i) := ⟨_, rfl⟩
  have h_i := i.isLt
  have e' : n = 4026531840 + i.toNat := e
  have e_op := fld_of n 26 6 60 (by omega)
  have e_n : n ≠ 0x04000000 := by omega
  have e_16_10 := fld_of n 16 10 0 (by omega)
  have f_i := bv_of i n 0 (by omega)
  have hs : decodeSlot n none = some (.trap i) := by
    have hp : shapeSlot n none = some (.trap i) := by
      simp [shapeSlot, shapeFlow, e_n, e_op, e_16_10, f_i]
    simp [decodeSlot, hp, w]
  have h := control_alone n none _ hs (by simp [e_op]) (by simp [isLdi64, e_op]) (Or.inl rfl)
  rw [e] at h
  exact h

theorem csrr (d : BitVec 5) (r : BitVec 12) : Statement (.csrr d r) := fun w _ => by
  obtain ⟨n, e⟩ : ∃ n, n = encodeWord (.csrr d r) := ⟨_, rfl⟩
  have h_d := d.isLt
  have h_r := r.isLt
  have e' : n = 4093640704 + d.toNat * 2097152 + r.toNat := e
  have e_op := fld_of n 26 6 61 (by omega)
  have e_n : n ≠ 0x04000000 := by omega
  have e_12_9 := fld_of n 12 9 0 (by omega)
  have f_d := bv_of d n 21 (by omega)
  have f_r := bv_of r n 0 (by omega)
  have hs : decodeSlot n none = some (.csrr d r) := by
    have hp : shapeSlot n none = some (.csrr d r) := by
      simp [shapeSlot, shapeFlow, e_n, e_op, e_12_9, f_d, f_r]
    simp [decodeSlot, hp, w]
  have h := control_alone n none _ hs (by simp [e_op]) (by simp [isLdi64, e_op]) (Or.inl rfl)
  rw [e] at h
  exact h

theorem csrw (a : BitVec 5) (r : BitVec 12) : Statement (.csrw a r) := fun w _ => by
  obtain ⟨n, e⟩ : ∃ n, n = encodeWord (.csrw a r) := ⟨_, rfl⟩
  have h_a := a.isLt
  have h_r := r.isLt
  have e' : n = 4093644800 + a.toNat * 65536 + r.toNat := e
  have e_op := fld_of n 26 6 61 (by omega)
  have e_n : n ≠ 0x04000000 := by omega
  have e_12_9_0 := fld_ne n 12 9 0 (by omega)
  have e_12_4 := fld_of n 12 4 1 (by omega)
  have e_21_5 := fld_of n 21 5 0 (by omega)
  have f_a := bv_of a n 16 (by omega)
  have f_r := bv_of r n 0 (by omega)
  have hs : decodeSlot n none = some (.csrw a r) := by
    have hp : shapeSlot n none = some (.csrw a r) := by
      simp [shapeSlot, shapeFlow, e_n, e_op, e_12_9_0, e_12_4, e_21_5, f_a, f_r]
    simp [decodeSlot, hp, w]
  have h := control_alone n none _ hs (by simp [e_op]) (by simp [isLdi64, e_op]) (Or.inl rfl)
  rw [e] at h
  exact h

theorem uiret : Statement (.uiret) := fun w _ => by
  obtain ⟨n, e⟩ : ∃ n, n = encodeWord (.uiret) := ⟨_, rfl⟩
  have e' : n = 4093648896 := e
  have e_op := fld_of n 26 6 61 (by omega)
  have e_n : n ≠ 0x04000000 := by omega
  have e_12_9 := fld_of n 12 9 2 (by omega)
  have e_12_4 := fld_of n 12 4 2 (by omega)
  have e_21_5 := fld_of n 21 5 0 (by omega)
  have e_0_26 := fld_of n 0 26 8192 (by omega)
  have hs : decodeSlot n none = some (.uiret) := by
    have hp : shapeSlot n none = some (.uiret) := by
      simp [shapeSlot, shapeFlow, e_n, e_op, e_12_9, e_12_4, e_21_5, e_0_26]
    simp [decodeSlot, hp, w]
  have h := control_alone n none _ hs (by simp [e_op]) (by simp [isLdi64, e_op]) (Or.inl rfl)
  rw [e] at h
  exact h

theorem waiti : Statement (.waiti) := fun w _ => by
  obtain ⟨n, e⟩ : ∃ n, n = encodeWord (.waiti) := ⟨_, rfl⟩
  have e' : n = 4093652992 := e
  have e_op := fld_of n 26 6 61 (by omega)
  have e_n : n ≠ 0x04000000 := by omega
  have e_12_9 := fld_of n 12 9 3 (by omega)
  have e_12_4 := fld_of n 12 4 3 (by omega)
  have e_21_5 := fld_of n 21 5 0 (by omega)
  have e_0_26 := fld_of n 0 26 12288 (by omega)
  have hs : decodeSlot n none = some (.waiti) := by
    have hp : shapeSlot n none = some (.waiti) := by
      simp [shapeSlot, shapeFlow, e_n, e_op, e_12_9, e_12_4, e_21_5, e_0_26]
    simp [decodeSlot, hp, w]
  have h := control_alone n none _ hs (by simp [e_op]) (by simp [isLdi64, e_op]) (Or.inl rfl)
  rw [e] at h
  exact h

theorem bkpt : Statement (.bkpt) := fun w _ => by
  obtain ⟨n, e⟩ : ∃ n, n = encodeWord (.bkpt) := ⟨_, rfl⟩
  have e' : n = 4093657088 := e
  have e_op := fld_of n 26 6 61 (by omega)
  have e_n : n ≠ 0x04000000 := by omega
  have e_12_9 := fld_of n 12 9 4 (by omega)
  have e_12_4 := fld_of n 12 4 4 (by omega)
  have e_21_5 := fld_of n 21 5 0 (by omega)
  have e_0_26 := fld_of n 0 26 16384 (by omega)
  have hs : decodeSlot n none = some (.bkpt) := by
    have hp : shapeSlot n none = some (.bkpt) := by
      simp [shapeSlot, shapeFlow, e_n, e_op, e_12_9, e_12_4, e_21_5, e_0_26]
    simp [decodeSlot, hp, w]
  have h := control_alone n none _ hs (by simp [e_op]) (by simp [isLdi64, e_op]) (Or.inl rfl)
  rw [e] at h
  exact h

theorem fenceC : Statement (.fenceC) := fun w _ => by
  obtain ⟨n, e⟩ : ∃ n, n = encodeWord (.fenceC) := ⟨_, rfl⟩
  have e' : n = 4093661184 := e
  have e_op := fld_of n 26 6 61 (by omega)
  have e_n : n ≠ 0x04000000 := by omega
  have e_12_9 := fld_of n 12 9 5 (by omega)
  have e_12_4 := fld_of n 12 4 5 (by omega)
  have e_21_5 := fld_of n 21 5 0 (by omega)
  have e_0_26 := fld_of n 0 26 20480 (by omega)
  have hs : decodeSlot n none = some (.fenceC) := by
    have hp : shapeSlot n none = some (.fenceC) := by
      simp [shapeSlot, shapeFlow, e_n, e_op, e_12_9, e_12_4, e_21_5, e_0_26]
    simp [decodeSlot, hp, w]
  have h := control_alone n none _ hs (by simp [e_op]) (by simp [isLdi64, e_op]) (Or.inl rfl)
  rw [e] at h
  exact h

theorem scrub (d : BitVec 5) (a : BitVec 5) : Statement (.scrub d a) := fun w _ => by
  obtain ⟨n, e⟩ : ∃ n, n = encodeWord (.scrub d a) := ⟨_, rfl⟩
  have h_d := d.isLt
  have h_a := a.isLt
  have e' : n = 4160749568 + d.toNat * 2097152 + a.toNat * 65536 := e
  have e_op := fld_of n 26 6 62 (by omega)
  have e_n : n ≠ 0x04000000 := by omega
  have e_0_16 := fld_of n 0 16 0 (by omega)
  have f_d := bv_of d n 21 (by omega)
  have f_a := bv_of a n 16 (by omega)
  have hs : decodeSlot n none = some (.scrub d a) := by
    have hp : shapeSlot n none = some (.scrub d a) := by
      simp [shapeSlot, shapeFlow, e_n, e_op, e_0_16, f_d, f_a]
    simp [decodeSlot, hp, w]
  have h := control_alone n none _ hs (by simp [e_op]) (by simp [isLdi64, e_op]) (Or.inl rfl)
  rw [e] at h
  exact h

theorem migrate (d : BitVec 5) (a : BitVec 5) : Statement (.migrate d a) := fun w _ => by
  obtain ⟨n, e⟩ : ∃ n, n = encodeWord (.migrate d a) := ⟨_, rfl⟩
  have h_d := d.isLt
  have h_a := a.isLt
  have e' : n = 4160749569 + d.toNat * 2097152 + a.toNat * 65536 := e
  have e_op := fld_of n 26 6 62 (by omega)
  have e_n : n ≠ 0x04000000 := by omega
  have e_0_16 := fld_of n 0 16 1 (by omega)
  have f_d := bv_of d n 21 (by omega)
  have f_a := bv_of a n 16 (by omega)
  have hs : decodeSlot n none = some (.migrate d a) := by
    have hp : shapeSlot n none = some (.migrate d a) := by
      simp [shapeSlot, shapeFlow, e_n, e_op, e_0_16, f_d, f_a]
    simp [decodeSlot, hp, w]
  have h := control_alone n none _ hs (by simp [e_op]) (by simp [isLdi64, e_op]) (Or.inl rfl)
  rw [e] at h
  exact h

theorem xinvMark (d : BitVec 5) (a : BitVec 5) (b : BitVec 5) : Statement (.xinvMark d a b) := fun w _ => by
  obtain ⟨n, e⟩ : ∃ n, n = encodeWord (.xinvMark d a b) := ⟨_, rfl⟩
  have h_d := d.isLt
  have h_a := a.isLt
  have h_b := b.isLt
  have e' : n = 4160749570 + d.toNat * 2097152 + a.toNat * 65536 + b.toNat * 2048 := e
  have e_op := fld_of n 26 6 62 (by omega)
  have e_n : n ≠ 0x04000000 := by omega
  have e_0_16_0 := fld_ne n 0 16 0 (by omega)
  have e_0_16_1 := fld_ne n 0 16 1 (by omega)
  have e_0_11 := fld_of n 0 11 2 (by omega)
  have f_d := bv_of d n 21 (by omega)
  have f_a := bv_of a n 16 (by omega)
  have f_b := bv_of b n 11 (by omega)
  have hs : decodeSlot n none = some (.xinvMark d a b) := by
    have hp : shapeSlot n none = some (.xinvMark d a b) := by
      simp [shapeSlot, shapeFlow, e_n, e_op, e_0_16_0, e_0_16_1, e_0_11, f_d, f_a, f_b]
    simp [decodeSlot, hp, w]
  have h := control_alone n none _ hs (by simp [e_op]) (by simp [isLdi64, e_op]) (Or.inl rfl)
  rw [e] at h
  exact h

theorem xinvConfirm (d : BitVec 5) (a : BitVec 5) : Statement (.xinvConfirm d a) := fun w _ => by
  obtain ⟨n, e⟩ : ∃ n, n = encodeWord (.xinvConfirm d a) := ⟨_, rfl⟩
  have h_d := d.isLt
  have h_a := a.isLt
  have e' : n = 4160749571 + d.toNat * 2097152 + a.toNat * 65536 := e
  have e_op := fld_of n 26 6 62 (by omega)
  have e_n : n ≠ 0x04000000 := by omega
  have e_0_16 := fld_of n 0 16 3 (by omega)
  have e_0_11 := fld_of n 0 11 3 (by omega)
  have f_d := bv_of d n 21 (by omega)
  have f_a := bv_of a n 16 (by omega)
  have hs : decodeSlot n none = some (.xinvConfirm d a) := by
    have hp : shapeSlot n none = some (.xinvConfirm d a) := by
      simp [shapeSlot, shapeFlow, e_n, e_op, e_0_16, e_0_11, f_d, f_a]
    simp [decodeSlot, hp, w]
  have h := control_alone n none _ hs (by simp [e_op]) (by simp [isLdi64, e_op]) (Or.inl rfl)
  rw [e] at h
  exact h

theorem qmap (a : BitVec 5) (b : BitVec 5) : Statement (.qmap a b) := fun w _ => by
  obtain ⟨n, e⟩ : ∃ n, n = encodeWord (.qmap a b) := ⟨_, rfl⟩
  have h_a := a.isLt
  have h_b := b.isLt
  have e' : n = 4160749572 + a.toNat * 65536 + b.toNat * 2048 := e
  have e_op := fld_of n 26 6 62 (by omega)
  have e_n : n ≠ 0x04000000 := by omega
  have e_0_16_0 := fld_ne n 0 16 0 (by omega)
  have e_0_16_1 := fld_ne n 0 16 1 (by omega)
  have e_0_11 := fld_of n 0 11 4 (by omega)
  have e_0_16_3 := fld_ne n 0 16 3 (by omega)
  have e_21_5 := fld_of n 21 5 0 (by omega)
  have f_a := bv_of a n 16 (by omega)
  have f_b := bv_of b n 11 (by omega)
  have hs : decodeSlot n none = some (.qmap a b) := by
    have hp : shapeSlot n none = some (.qmap a b) := by
      simp [shapeSlot, shapeFlow, e_n, e_op, e_0_16_0, e_0_16_1, e_0_11, e_0_16_3, e_21_5, f_a, f_b]
    simp [decodeSlot, hp, w]
  have h := control_alone n none _ hs (by simp [e_op]) (by simp [isLdi64, e_op]) (Or.inl rfl)
  rw [e] at h
  exact h

theorem fetchPageFault (cx : Nat) : Statement (.fetchPageFault cx) := fun _ h => absurd rfl h

theorem loadResultDelivery (req : Nat) : Statement (.loadResultDelivery req) := fun _ h => absurd rfl h

theorem blockedBundleReexecute (cx : Nat) : Statement (.blockedBundleReexecute cx) := fun _ h => absurd rfl h

theorem contextSwitch (core : Nat) : Statement (.contextSwitch core) := fun _ h => absurd rfl h

theorem gatherlStep (cx : Nat) : Statement (.gatherlStep cx) := fun _ h => absurd rfl h

theorem drainComplete (cx : Nat) : Statement (.drainComplete cx) := fun _ h => absurd rfl h

theorem flagStorePerform (req : Nat) : Statement (.flagStorePerform req) := fun _ h => absurd rfl h

theorem uiDelivery (cx : Nat) : Statement (.uiDelivery cx) := fun _ h => absurd rfl h

theorem uistatusPendingDiscard (cx : Nat) : Statement (.uistatusPendingDiscard cx) := fun _ h => absurd rfl h

theorem lspillWrite (cx : Nat) (v : Word) : Statement (.lspillWrite cx v) := fun _ h => absurd rfl h

theorem ageWrite (die : Nat) (v : Word) : Statement (.ageWrite die v) := fun _ h => absurd rfl h

theorem tstatKres (cx : Nat) : Statement (.tstatKres cx) := fun _ h => absurd rfl h

theorem tstatKabt (cx : Nat) : Statement (.tstatKabt cx) := fun _ h => absurd rfl h

theorem tstatActiveClear (cx : Nat) : Statement (.tstatActiveClear cx) := fun _ h => absurd rfl h

theorem retreqClear (die : Nat) : Statement (.retreqClear die) := fun _ h => absurd rfl h

theorem registerWrite (cx : Nat) (num : BitVec 12) (v : Word) : Statement (.registerWrite cx num v) := fun _ h => absurd rfl h

theorem engineAccept (cx : Nat) (q : Queue) : Statement (.engineAccept cx q) := fun _ h => absurd rfl h

theorem requestGeneration (cx : Nat) (q : Queue) : Statement (.requestGeneration cx q) := fun _ h => absurd rfl h

theorem calendarSlot (die : Nat) (burst : Nat × Ecc) : Statement (.calendarSlot die burst) := fun _ h => absurd rfl h

theorem lineWrite (req : Nat) : Statement (.lineWrite req) := fun _ h => absurd rfl h

theorem storeAcknowledge (req : Nat) : Statement (.storeAcknowledge req) := fun _ h => absurd rfl h

theorem reductionElement (req : Nat) : Statement (.reductionElement req) := fun _ h => absurd rfl h

theorem remoteRequest (r : RemoteReq) : Statement (.remoteRequest r) := fun _ h => absurd rfl h

theorem fabricRequestLost (req : Nat) : Statement (.fabricRequestLost req) := fun _ h => absurd rfl h

theorem responseDropped (req : Nat) : Statement (.responseDropped req) := fun _ h => absurd rfl h

theorem hostCxlMemAccess (die offset : Nat) (write : Option (List Byte)) (len : Nat) : Statement (.hostCxlMemAccess die offset write len) := fun _ h => absurd rfl h

theorem engineTranslationFault (cx : Nat) (q : Queue) : Statement (.engineTranslationFault cx q) := fun _ h => absurd rfl h

theorem queueResume (cx : Nat) (q : Queue) : Statement (.queueResume cx q) := fun _ h => absurd rfl h

theorem engineCommandComplete (cx : Nat) (q : Queue) : Statement (.engineCommandComplete cx q) := fun _ h => absurd rfl h

theorem xlateResolve (cx : Nat) (h : BitVec 4) : Statement (.xlateResolve cx h) := fun _ h => absurd rfl h

theorem walkComplete (cx : Nat) (h : BitVec 4) (ats : Option AtsReply) : Statement (.walkComplete cx h ats) := fun _ h => absurd rfl h

theorem priPageRequest (entry : Nat) : Statement (.priPageRequest entry) := fun _ h => absurd rfl h

theorem prgResponseSuccess (entry : Nat) : Statement (.prgResponseSuccess entry) := fun _ h => absurd rfl h

theorem prgResponseInvalid (entry : Nat) : Statement (.prgResponseInvalid entry) := fun _ h => absurd rfl h

theorem prgResponseFailure (entry : Nat) : Statement (.prgResponseFailure entry) := fun _ h => absurd rfl h

theorem atsInvalidateRequest (pasid : BitVec 20) (va : Word) (pages : BitVec 32) : Statement (.atsInvalidateRequest pasid va pages) := fun _ h => absurd rfl h

theorem tokenAutoConfirm (slot : Nat) : Statement (.tokenAutoConfirm slot) := fun _ h => absurd rfl h

theorem faultRingCopy (die : Nat) : Statement (.faultRingCopy die) := fun _ h => absurd rfl h

theorem fheadWrite (v : BitVec 32) : Statement (.fheadWrite v) := fun _ h => absurd rfl h

theorem packetIssue (core : Nat) : Statement (.packetIssue core) := fun _ h => absurd rfl h

theorem idleIssueCycle (core : Nat) : Statement (.idleIssueCycle core) := fun _ h => absurd rfl h

theorem resultLanding (core : Nat) : Statement (.resultLanding core) := fun _ h => absurd rfl h

theorem kernelStart (core : Nat) : Statement (.kernelStart core) := fun _ h => absurd rfl h

theorem kernelCodeFetch (core : Nat) : Statement (.kernelCodeFetch core) := fun _ h => absurd rfl h

theorem krunComplete (core : Nat) : Statement (.krunComplete core) := fun _ h => absurd rfl h

theorem kernelAbortStop (core : Nat) : Statement (.kernelAbortStop core) := fun _ h => absurd rfl h

theorem kernelFreeze (core : Nat) : Statement (.kernelFreeze core) := fun _ h => absurd rfl h

theorem kernelTrapDelivery (cx : Nat) : Statement (.kernelTrapDelivery cx) := fun _ h => absurd rfl h

theorem kernelResume (core : Nat) : Statement (.kernelResume core) := fun _ h => absurd rfl h

theorem kAdd (d : BitVec 7) (a : BitVec 7) (b : BitVec 7) (g : BitVec 3) (m : BitVec 2) : Statement (.kAdd d a b g m) := fun w _ => by
  obtain ⟨n, e⟩ : ∃ n, n = encodeWord (.kAdd d a b g m) := ⟨_, rfl⟩
  have h_d := d.isLt
  have h_a := a.isLt
  have h_b := b.isLt
  have h_g := g.isLt
  have h_m := m.isLt
  have e' : n = 0 + d.toNat * 524288 + a.toNat * 4096 + b.toNat * 32 + g.toNat * 4 + m.toNat := e
  have e_op := fld_of (n + 2 ^ 31) 26 5 0 (by omega)
  have f_d := bv_of d (n + 2 ^ 31) 19 (by omega)
  have f_a := bv_of a (n + 2 ^ 31) 12 (by omega)
  have f_b := bv_of b (n + 2 ^ 31) 5 (by omega)
  have f_g := bv_of g (n + 2 ^ 31) 2 (by omega)
  have f_m := bv_of m (n + 2 ^ 31) 0 (by omega)
  have hs : decodeK .a (n + 2 ^ 31) (BitVec.toNat (0 : BitVec 16)) = .inl (.lane (.kAdd d a b g m)) := by
    have hp : shapeK .a (n + 2 ^ 31) (BitVec.toNat (0 : BitVec 16)) = some (.lane (.kAdd d a b g m)) := by
      simp only [shapeK, shapeKA, e_op, f_d, f_a, f_b, f_g, f_m]
      rfl
    simp only [decodeK, e_op, KClass.opcodes, hp]
    simp [KOp.wf, w]
  have h := kernel_alone .a 0 n _ (by omega) hs (Or.inl rfl)
  rw [e] at h
  exact h

theorem kSub (d : BitVec 7) (a : BitVec 7) (b : BitVec 7) (g : BitVec 3) (m : BitVec 2) : Statement (.kSub d a b g m) := fun w _ => by
  obtain ⟨n, e⟩ : ∃ n, n = encodeWord (.kSub d a b g m) := ⟨_, rfl⟩
  have h_d := d.isLt
  have h_a := a.isLt
  have h_b := b.isLt
  have h_g := g.isLt
  have h_m := m.isLt
  have e' : n = 67108864 + d.toNat * 524288 + a.toNat * 4096 + b.toNat * 32 + g.toNat * 4 + m.toNat := e
  have e_op := fld_of (n + 2 ^ 31) 26 5 1 (by omega)
  have f_d := bv_of d (n + 2 ^ 31) 19 (by omega)
  have f_a := bv_of a (n + 2 ^ 31) 12 (by omega)
  have f_b := bv_of b (n + 2 ^ 31) 5 (by omega)
  have f_g := bv_of g (n + 2 ^ 31) 2 (by omega)
  have f_m := bv_of m (n + 2 ^ 31) 0 (by omega)
  have hs : decodeK .a (n + 2 ^ 31) (BitVec.toNat (0 : BitVec 16)) = .inl (.lane (.kSub d a b g m)) := by
    have hp : shapeK .a (n + 2 ^ 31) (BitVec.toNat (0 : BitVec 16)) = some (.lane (.kSub d a b g m)) := by
      simp only [shapeK, shapeKA, e_op, f_d, f_a, f_b, f_g, f_m]
      rfl
    simp only [decodeK, e_op, KClass.opcodes, hp]
    simp [KOp.wf, w]
  have h := kernel_alone .a 0 n _ (by omega) hs (Or.inl rfl)
  rw [e] at h
  exact h

theorem kAnd (d : BitVec 7) (a : BitVec 7) (b : BitVec 7) (g : BitVec 3) : Statement (.kAnd d a b g) := fun w _ => by
  obtain ⟨n, e⟩ : ∃ n, n = encodeWord (.kAnd d a b g) := ⟨_, rfl⟩
  have h_d := d.isLt
  have h_a := a.isLt
  have h_b := b.isLt
  have h_g := g.isLt
  have e' : n = 134217728 + d.toNat * 524288 + a.toNat * 4096 + b.toNat * 32 + g.toNat * 4 := e
  have e_op := fld_of (n + 2 ^ 31) 26 5 2 (by omega)
  have e_0_2 := fld_of (n + 2 ^ 31) 0 2 0 (by omega)
  have f_d := bv_of d (n + 2 ^ 31) 19 (by omega)
  have f_a := bv_of a (n + 2 ^ 31) 12 (by omega)
  have f_b := bv_of b (n + 2 ^ 31) 5 (by omega)
  have f_g := bv_of g (n + 2 ^ 31) 2 (by omega)
  have hs : decodeK .a (n + 2 ^ 31) (BitVec.toNat (0 : BitVec 16)) = .inl (.lane (.kAnd d a b g)) := by
    have hp : shapeK .a (n + 2 ^ 31) (BitVec.toNat (0 : BitVec 16)) = some (.lane (.kAnd d a b g)) := by
      simp only [shapeK, shapeKA, e_op, e_0_2, f_d, f_a, f_b, f_g]
      simp
    simp only [decodeK, e_op, KClass.opcodes, hp]
    simp [KOp.wf, w]
  have h := kernel_alone .a 0 n _ (by omega) hs (Or.inl rfl)
  rw [e] at h
  exact h

theorem kOr (d : BitVec 7) (a : BitVec 7) (b : BitVec 7) (g : BitVec 3) : Statement (.kOr d a b g) := fun w _ => by
  obtain ⟨n, e⟩ : ∃ n, n = encodeWord (.kOr d a b g) := ⟨_, rfl⟩
  have h_d := d.isLt
  have h_a := a.isLt
  have h_b := b.isLt
  have h_g := g.isLt
  have e' : n = 201326592 + d.toNat * 524288 + a.toNat * 4096 + b.toNat * 32 + g.toNat * 4 := e
  have e_op := fld_of (n + 2 ^ 31) 26 5 3 (by omega)
  have e_0_2 := fld_of (n + 2 ^ 31) 0 2 0 (by omega)
  have f_d := bv_of d (n + 2 ^ 31) 19 (by omega)
  have f_a := bv_of a (n + 2 ^ 31) 12 (by omega)
  have f_b := bv_of b (n + 2 ^ 31) 5 (by omega)
  have f_g := bv_of g (n + 2 ^ 31) 2 (by omega)
  have hs : decodeK .a (n + 2 ^ 31) (BitVec.toNat (0 : BitVec 16)) = .inl (.lane (.kOr d a b g)) := by
    have hp : shapeK .a (n + 2 ^ 31) (BitVec.toNat (0 : BitVec 16)) = some (.lane (.kOr d a b g)) := by
      simp only [shapeK, shapeKA, e_op, e_0_2, f_d, f_a, f_b, f_g]
      simp
    simp only [decodeK, e_op, KClass.opcodes, hp]
    simp [KOp.wf, w]
  have h := kernel_alone .a 0 n _ (by omega) hs (Or.inl rfl)
  rw [e] at h
  exact h

theorem kXor (d : BitVec 7) (a : BitVec 7) (b : BitVec 7) (g : BitVec 3) : Statement (.kXor d a b g) := fun w _ => by
  obtain ⟨n, e⟩ : ∃ n, n = encodeWord (.kXor d a b g) := ⟨_, rfl⟩
  have h_d := d.isLt
  have h_a := a.isLt
  have h_b := b.isLt
  have h_g := g.isLt
  have e' : n = 268435456 + d.toNat * 524288 + a.toNat * 4096 + b.toNat * 32 + g.toNat * 4 := e
  have e_op := fld_of (n + 2 ^ 31) 26 5 4 (by omega)
  have e_0_2 := fld_of (n + 2 ^ 31) 0 2 0 (by omega)
  have f_d := bv_of d (n + 2 ^ 31) 19 (by omega)
  have f_a := bv_of a (n + 2 ^ 31) 12 (by omega)
  have f_b := bv_of b (n + 2 ^ 31) 5 (by omega)
  have f_g := bv_of g (n + 2 ^ 31) 2 (by omega)
  have hs : decodeK .a (n + 2 ^ 31) (BitVec.toNat (0 : BitVec 16)) = .inl (.lane (.kXor d a b g)) := by
    have hp : shapeK .a (n + 2 ^ 31) (BitVec.toNat (0 : BitVec 16)) = some (.lane (.kXor d a b g)) := by
      simp only [shapeK, shapeKA, e_op, e_0_2, f_d, f_a, f_b, f_g]
      simp
    simp only [decodeK, e_op, KClass.opcodes, hp]
    simp [KOp.wf, w]
  have h := kernel_alone .a 0 n _ (by omega) hs (Or.inl rfl)
  rw [e] at h
  exact h

theorem kAndn (d : BitVec 7) (a : BitVec 7) (b : BitVec 7) (g : BitVec 3) : Statement (.kAndn d a b g) := fun w _ => by
  obtain ⟨n, e⟩ : ∃ n, n = encodeWord (.kAndn d a b g) := ⟨_, rfl⟩
  have h_d := d.isLt
  have h_a := a.isLt
  have h_b := b.isLt
  have h_g := g.isLt
  have e' : n = 335544320 + d.toNat * 524288 + a.toNat * 4096 + b.toNat * 32 + g.toNat * 4 := e
  have e_op := fld_of (n + 2 ^ 31) 26 5 5 (by omega)
  have e_0_2 := fld_of (n + 2 ^ 31) 0 2 0 (by omega)
  have f_d := bv_of d (n + 2 ^ 31) 19 (by omega)
  have f_a := bv_of a (n + 2 ^ 31) 12 (by omega)
  have f_b := bv_of b (n + 2 ^ 31) 5 (by omega)
  have f_g := bv_of g (n + 2 ^ 31) 2 (by omega)
  have hs : decodeK .a (n + 2 ^ 31) (BitVec.toNat (0 : BitVec 16)) = .inl (.lane (.kAndn d a b g)) := by
    have hp : shapeK .a (n + 2 ^ 31) (BitVec.toNat (0 : BitVec 16)) = some (.lane (.kAndn d a b g)) := by
      simp only [shapeK, shapeKA, e_op, e_0_2, f_d, f_a, f_b, f_g]
      simp
    simp only [decodeK, e_op, KClass.opcodes, hp]
    simp [KOp.wf, w]
  have h := kernel_alone .a 0 n _ (by omega) hs (Or.inl rfl)
  rw [e] at h
  exact h

theorem kShl (d : BitVec 7) (a : BitVec 7) (b : BitVec 7) (g : BitVec 3) (m : BitVec 1) : Statement (.kShl d a b g m) := fun w _ => by
  obtain ⟨n, e⟩ : ∃ n, n = encodeWord (.kShl d a b g m) := ⟨_, rfl⟩
  have h_d := d.isLt
  have h_a := a.isLt
  have h_b := b.isLt
  have h_g := g.isLt
  have h_m := m.isLt
  have e' : n = 402653184 + d.toNat * 524288 + a.toNat * 4096 + b.toNat * 32 + g.toNat * 4 + m.toNat * 2 := e
  have e_op := fld_of (n + 2 ^ 31) 26 5 6 (by omega)
  have e_0_1 := fld_of (n + 2 ^ 31) 0 1 0 (by omega)
  have f_d := bv_of d (n + 2 ^ 31) 19 (by omega)
  have f_a := bv_of a (n + 2 ^ 31) 12 (by omega)
  have f_b := bv_of b (n + 2 ^ 31) 5 (by omega)
  have f_g := bv_of g (n + 2 ^ 31) 2 (by omega)
  have f_m := bv_of m (n + 2 ^ 31) 1 (by omega)
  have hs : decodeK .a (n + 2 ^ 31) (BitVec.toNat (0 : BitVec 16)) = .inl (.lane (.kShl d a b g m)) := by
    have hp : shapeK .a (n + 2 ^ 31) (BitVec.toNat (0 : BitVec 16)) = some (.lane (.kShl d a b g m)) := by
      simp only [shapeK, shapeKA, e_op, e_0_1, f_d, f_a, f_b, f_g, f_m]
      simp
    simp only [decodeK, e_op, KClass.opcodes, hp]
    simp [KOp.wf, w]
  have h := kernel_alone .a 0 n _ (by omega) hs (Or.inl rfl)
  rw [e] at h
  exact h

theorem kShr (d : BitVec 7) (a : BitVec 7) (b : BitVec 7) (g : BitVec 3) (m : BitVec 1) : Statement (.kShr d a b g m) := fun w _ => by
  obtain ⟨n, e⟩ : ∃ n, n = encodeWord (.kShr d a b g m) := ⟨_, rfl⟩
  have h_d := d.isLt
  have h_a := a.isLt
  have h_b := b.isLt
  have h_g := g.isLt
  have h_m := m.isLt
  have e' : n = 469762048 + d.toNat * 524288 + a.toNat * 4096 + b.toNat * 32 + g.toNat * 4 + m.toNat * 2 := e
  have e_op := fld_of (n + 2 ^ 31) 26 5 7 (by omega)
  have e_0_1 := fld_of (n + 2 ^ 31) 0 1 0 (by omega)
  have f_d := bv_of d (n + 2 ^ 31) 19 (by omega)
  have f_a := bv_of a (n + 2 ^ 31) 12 (by omega)
  have f_b := bv_of b (n + 2 ^ 31) 5 (by omega)
  have f_g := bv_of g (n + 2 ^ 31) 2 (by omega)
  have f_m := bv_of m (n + 2 ^ 31) 1 (by omega)
  have hs : decodeK .a (n + 2 ^ 31) (BitVec.toNat (0 : BitVec 16)) = .inl (.lane (.kShr d a b g m)) := by
    have hp : shapeK .a (n + 2 ^ 31) (BitVec.toNat (0 : BitVec 16)) = some (.lane (.kShr d a b g m)) := by
      simp only [shapeK, shapeKA, e_op, e_0_1, f_d, f_a, f_b, f_g, f_m]
      simp
    simp only [decodeK, e_op, KClass.opcodes, hp]
    simp [KOp.wf, w]
  have h := kernel_alone .a 0 n _ (by omega) hs (Or.inl rfl)
  rw [e] at h
  exact h

theorem kSra (d : BitVec 7) (a : BitVec 7) (b : BitVec 7) (g : BitVec 3) (m : BitVec 1) : Statement (.kSra d a b g m) := fun w _ => by
  obtain ⟨n, e⟩ : ∃ n, n = encodeWord (.kSra d a b g m) := ⟨_, rfl⟩
  have h_d := d.isLt
  have h_a := a.isLt
  have h_b := b.isLt
  have h_g := g.isLt
  have h_m := m.isLt
  have e' : n = 536870912 + d.toNat * 524288 + a.toNat * 4096 + b.toNat * 32 + g.toNat * 4 + m.toNat * 2 := e
  have e_op := fld_of (n + 2 ^ 31) 26 5 8 (by omega)
  have e_0_1 := fld_of (n + 2 ^ 31) 0 1 0 (by omega)
  have f_d := bv_of d (n + 2 ^ 31) 19 (by omega)
  have f_a := bv_of a (n + 2 ^ 31) 12 (by omega)
  have f_b := bv_of b (n + 2 ^ 31) 5 (by omega)
  have f_g := bv_of g (n + 2 ^ 31) 2 (by omega)
  have f_m := bv_of m (n + 2 ^ 31) 1 (by omega)
  have hs : decodeK .a (n + 2 ^ 31) (BitVec.toNat (0 : BitVec 16)) = .inl (.lane (.kSra d a b g m)) := by
    have hp : shapeK .a (n + 2 ^ 31) (BitVec.toNat (0 : BitVec 16)) = some (.lane (.kSra d a b g m)) := by
      simp only [shapeK, shapeKA, e_op, e_0_1, f_d, f_a, f_b, f_g, f_m]
      simp
    simp only [decodeK, e_op, KClass.opcodes, hp]
    simp [KOp.wf, w]
  have h := kernel_alone .a 0 n _ (by omega) hs (Or.inl rfl)
  rw [e] at h
  exact h

theorem min (d : BitVec 7) (a : BitVec 7) (b : BitVec 7) (g : BitVec 3) (m : BitVec 2) : Statement (.min d a b g m) := fun w _ => by
  obtain ⟨n, e⟩ : ∃ n, n = encodeWord (.min d a b g m) := ⟨_, rfl⟩
  have h_d := d.isLt
  have h_a := a.isLt
  have h_b := b.isLt
  have h_g := g.isLt
  have h_m := m.isLt
  have e' : n = 603979776 + d.toNat * 524288 + a.toNat * 4096 + b.toNat * 32 + g.toNat * 4 + m.toNat := e
  have e_op := fld_of (n + 2 ^ 31) 26 5 9 (by omega)
  have f_d := bv_of d (n + 2 ^ 31) 19 (by omega)
  have f_a := bv_of a (n + 2 ^ 31) 12 (by omega)
  have f_b := bv_of b (n + 2 ^ 31) 5 (by omega)
  have f_g := bv_of g (n + 2 ^ 31) 2 (by omega)
  have f_m := bv_of m (n + 2 ^ 31) 0 (by omega)
  have hs : decodeK .a (n + 2 ^ 31) (BitVec.toNat (0 : BitVec 16)) = .inl (.lane (.min d a b g m)) := by
    have hp : shapeK .a (n + 2 ^ 31) (BitVec.toNat (0 : BitVec 16)) = some (.lane (.min d a b g m)) := by
      simp only [shapeK, shapeKA, e_op, f_d, f_a, f_b, f_g, f_m]
      rfl
    simp only [decodeK, e_op, KClass.opcodes, hp]
    simp [KOp.wf, w]
  have h := kernel_alone .a 0 n _ (by omega) hs (Or.inl rfl)
  rw [e] at h
  exact h

theorem max (d : BitVec 7) (a : BitVec 7) (b : BitVec 7) (g : BitVec 3) (m : BitVec 2) : Statement (.max d a b g m) := fun w _ => by
  obtain ⟨n, e⟩ : ∃ n, n = encodeWord (.max d a b g m) := ⟨_, rfl⟩
  have h_d := d.isLt
  have h_a := a.isLt
  have h_b := b.isLt
  have h_g := g.isLt
  have h_m := m.isLt
  have e' : n = 671088640 + d.toNat * 524288 + a.toNat * 4096 + b.toNat * 32 + g.toNat * 4 + m.toNat := e
  have e_op := fld_of (n + 2 ^ 31) 26 5 10 (by omega)
  have f_d := bv_of d (n + 2 ^ 31) 19 (by omega)
  have f_a := bv_of a (n + 2 ^ 31) 12 (by omega)
  have f_b := bv_of b (n + 2 ^ 31) 5 (by omega)
  have f_g := bv_of g (n + 2 ^ 31) 2 (by omega)
  have f_m := bv_of m (n + 2 ^ 31) 0 (by omega)
  have hs : decodeK .a (n + 2 ^ 31) (BitVec.toNat (0 : BitVec 16)) = .inl (.lane (.max d a b g m)) := by
    have hp : shapeK .a (n + 2 ^ 31) (BitVec.toNat (0 : BitVec 16)) = some (.lane (.max d a b g m)) := by
      simp only [shapeK, shapeKA, e_op, f_d, f_a, f_b, f_g, f_m]
      rfl
    simp only [decodeK, e_op, KClass.opcodes, hp]
    simp [KOp.wf, w]
  have h := kernel_alone .a 0 n _ (by omega) hs (Or.inl rfl)
  rw [e] at h
  exact h

theorem kCmp (c : BitVec 3) (q : BitVec 3) (a : BitVec 7) (b : BitVec 7) (g : BitVec 3) (m : BitVec 1) : Statement (.kCmp c q a b g m) := fun w _ => by
  obtain ⟨n, e⟩ : ∃ n, n = encodeWord (.kCmp c q a b g m) := ⟨_, rfl⟩
  have h_c := c.isLt
  have h_q := q.isLt
  have h_a := a.isLt
  have h_b := b.isLt
  have h_g := g.isLt
  have h_m := m.isLt
  have e' : n = 738197504 + c.toNat * 4194304 + q.toNat * 524288 + a.toNat * 4096 + b.toNat * 32 + g.toNat * 4 + m.toNat := e
  have e_op := fld_of (n + 2 ^ 31) 26 5 11 (by omega)
  have e_1_1 := fld_of (n + 2 ^ 31) 1 1 0 (by omega)
  have e_25_1 := fld_of (n + 2 ^ 31) 25 1 0 (by omega)
  have f_c := bv_of c (n + 2 ^ 31) 22 (by omega)
  have f_q := bv_of q (n + 2 ^ 31) 19 (by omega)
  have f_a := bv_of a (n + 2 ^ 31) 12 (by omega)
  have f_b := bv_of b (n + 2 ^ 31) 5 (by omega)
  have f_g := bv_of g (n + 2 ^ 31) 2 (by omega)
  have f_m := bv_of m (n + 2 ^ 31) 0 (by omega)
  have hs : decodeK .a (n + 2 ^ 31) (BitVec.toNat (0 : BitVec 16)) = .inl (.lane (.kCmp c q a b g m)) := by
    have hp : shapeK .a (n + 2 ^ 31) (BitVec.toNat (0 : BitVec 16)) = some (.lane (.kCmp c q a b g m)) := by
      simp only [shapeK, shapeKA, e_op, e_1_1, e_25_1, f_c, f_q, f_a, f_b, f_g, f_m]
      simp
    simp only [decodeK, e_op, KClass.opcodes, hp]
    simp [KOp.wf, w]
  have h := kernel_alone .a 0 n _ (by omega) hs (Or.inl rfl)
  rw [e] at h
  exact h

theorem kSel (d : BitVec 7) (a : BitVec 7) (b : BitVec 7) (g : BitVec 3) (m : BitVec 1) : Statement (.kSel d a b g m) := fun w _ => by
  obtain ⟨n, e⟩ : ∃ n, n = encodeWord (.kSel d a b g m) := ⟨_, rfl⟩
  have h_d := d.isLt
  have h_a := a.isLt
  have h_b := b.isLt
  have h_g := g.isLt
  have h_m := m.isLt
  have e' : n = 805306368 + d.toNat * 524288 + a.toNat * 4096 + b.toNat * 32 + g.toNat * 4 + m.toNat * 2 := e
  have e_op := fld_of (n + 2 ^ 31) 26 5 12 (by omega)
  have e_0_1 := fld_of (n + 2 ^ 31) 0 1 0 (by omega)
  have f_d := bv_of d (n + 2 ^ 31) 19 (by omega)
  have f_a := bv_of a (n + 2 ^ 31) 12 (by omega)
  have f_b := bv_of b (n + 2 ^ 31) 5 (by omega)
  have f_g := bv_of g (n + 2 ^ 31) 2 (by omega)
  have f_m := bv_of m (n + 2 ^ 31) 1 (by omega)
  have hs : decodeK .a (n + 2 ^ 31) (BitVec.toNat (0 : BitVec 16)) = .inl (.lane (.kSel d a b g m)) := by
    have hp : shapeK .a (n + 2 ^ 31) (BitVec.toNat (0 : BitVec 16)) = some (.lane (.kSel d a b g m)) := by
      simp only [shapeK, shapeKA, e_op, e_0_1, f_d, f_a, f_b, f_g, f_m]
      simp
    simp only [decodeK, e_op, KClass.opcodes, hp]
    simp [KOp.wf, w]
  have h := kernel_alone .a 0 n _ (by omega) hs (Or.inl rfl)
  rw [e] at h
  exact h

theorem kBfxN (d : BitVec 7) (v : BitVec 5) (w0 : BitVec 5) (o : BitVec 5) : Statement (.kBfxN d v w0 o) := fun w _ => by
  obtain ⟨n, e⟩ : ∃ n, n = encodeWord (.kBfxN d v w0 o) := ⟨_, rfl⟩
  have h_d := d.isLt
  have h_v := v.isLt
  have h_w0 := w0.isLt
  have h_o := o.isLt
  have e' : n = 872415232 + d.toNat * 524288 + v.toNat * 16384 + w0.toNat * 32 + o.toNat := e
  have e_op := fld_of (n + 2 ^ 31) 26 5 13 (by omega)
  have e_10_4 := fld_of (n + 2 ^ 31) 10 4 0 (by omega)
  have f_d := bv_of d (n + 2 ^ 31) 19 (by omega)
  have f_v := bv_of v (n + 2 ^ 31) 14 (by omega)
  have f_w0 := bv_of w0 (n + 2 ^ 31) 5 (by omega)
  have f_o := bv_of o (n + 2 ^ 31) 0 (by omega)
  have hs : decodeK .a (n + 2 ^ 31) (BitVec.toNat (0 : BitVec 16)) = .inl (.lane (.kBfxN d v w0 o)) := by
    have hp : shapeK .a (n + 2 ^ 31) (BitVec.toNat (0 : BitVec 16)) = some (.lane (.kBfxN d v w0 o)) := by
      simp only [shapeK, shapeKA, e_op, e_10_4, f_d, f_v, f_w0, f_o]
      simp
    simp only [decodeK, e_op, KClass.opcodes, hp]
    simp [KOp.wf, w]
  have h := kernel_alone .a 0 n _ (by omega) hs (Or.inl rfl)
  rw [e] at h
  exact h

theorem kBfxI (d : BitVec 7) (v : BitVec 5) (w0 : BitVec 5) (o : BitVec 5) : Statement (.kBfxI d v w0 o) := fun w _ => by
  obtain ⟨n, e⟩ : ∃ n, n = encodeWord (.kBfxI d v w0 o) := ⟨_, rfl⟩
  have h_d := d.isLt
  have h_v := v.isLt
  have h_w0 := w0.isLt
  have h_o := o.isLt
  have e' : n = 872419328 + d.toNat * 524288 + v.toNat * 16384 + w0.toNat * 32 + o.toNat := e
  have e_op := fld_of (n + 2 ^ 31) 26 5 13 (by omega)
  have e_10_4 := fld_of (n + 2 ^ 31) 10 4 4 (by omega)
  have f_d := bv_of d (n + 2 ^ 31) 19 (by omega)
  have f_v := bv_of v (n + 2 ^ 31) 14 (by omega)
  have f_w0 := bv_of w0 (n + 2 ^ 31) 5 (by omega)
  have f_o := bv_of o (n + 2 ^ 31) 0 (by omega)
  have hs : decodeK .a (n + 2 ^ 31) (BitVec.toNat (0 : BitVec 16)) = .inl (.lane (.kBfxI d v w0 o)) := by
    have hp : shapeK .a (n + 2 ^ 31) (BitVec.toNat (0 : BitVec 16)) = some (.lane (.kBfxI d v w0 o)) := by
      simp only [shapeK, shapeKA, e_op, e_10_4, f_d, f_v, f_w0, f_o]
      simp
    simp only [decodeK, e_op, KClass.opcodes, hp]
    simp [KOp.wf, w]
  have h := kernel_alone .a 0 n _ (by omega) hs (Or.inl rfl)
  rw [e] at h
  exact h

theorem kBfi (d : BitVec 7) (v : BitVec 5) (w0 : BitVec 5) (o : BitVec 5) : Statement (.kBfi d v w0 o) := fun w _ => by
  obtain ⟨n, e⟩ : ∃ n, n = encodeWord (.kBfi d v w0 o) := ⟨_, rfl⟩
  have h_d := d.isLt
  have h_v := v.isLt
  have h_w0 := w0.isLt
  have h_o := o.isLt
  have e' : n = 939524096 + d.toNat * 524288 + v.toNat * 16384 + w0.toNat * 32 + o.toNat := e
  have e_op := fld_of (n + 2 ^ 31) 26 5 14 (by omega)
  have e_10_4 := fld_of (n + 2 ^ 31) 10 4 0 (by omega)
  have f_d := bv_of d (n + 2 ^ 31) 19 (by omega)
  have f_v := bv_of v (n + 2 ^ 31) 14 (by omega)
  have f_w0 := bv_of w0 (n + 2 ^ 31) 5 (by omega)
  have f_o := bv_of o (n + 2 ^ 31) 0 (by omega)
  have hs : decodeK .a (n + 2 ^ 31) (BitVec.toNat (0 : BitVec 16)) = .inl (.lane (.kBfi d v w0 o)) := by
    have hp : shapeK .a (n + 2 ^ 31) (BitVec.toNat (0 : BitVec 16)) = some (.lane (.kBfi d v w0 o)) := by
      simp only [shapeK, shapeKA, e_op, e_10_4, f_d, f_v, f_w0, f_o]
      simp
    simp only [decodeK, e_op, KClass.opcodes, hp]
    simp [KOp.wf, w]
  have h := kernel_alone .a 0 n _ (by omega) hs (Or.inl rfl)
  rw [e] at h
  exact h

theorem kFshl (d : BitVec 7) (v : BitVec 5) (n0 : BitVec 5) : Statement (.kFshl d v n0) := fun w _ => by
  obtain ⟨n, e⟩ : ∃ n, n = encodeWord (.kFshl d v n0) := ⟨_, rfl⟩
  have h_d := d.isLt
  have h_v := v.isLt
  have h_n0 := n0.isLt
  have e' : n = 1006632960 + d.toNat * 524288 + v.toNat * 16384 + n0.toNat := e
  have e_op := fld_of (n + 2 ^ 31) 26 5 15 (by omega)
  have e_5_9 := fld_of (n + 2 ^ 31) 5 9 0 (by omega)
  have f_d := bv_of d (n + 2 ^ 31) 19 (by omega)
  have f_v := bv_of v (n + 2 ^ 31) 14 (by omega)
  have f_n0 := bv_of n0 (n + 2 ^ 31) 0 (by omega)
  have hs : decodeK .a (n + 2 ^ 31) (BitVec.toNat (0 : BitVec 16)) = .inl (.lane (.kFshl d v n0)) := by
    have hp : shapeK .a (n + 2 ^ 31) (BitVec.toNat (0 : BitVec 16)) = some (.lane (.kFshl d v n0)) := by
      simp only [shapeK, shapeKA, e_op, e_5_9, f_d, f_v, f_n0]
      simp
    simp only [decodeK, e_op, KClass.opcodes, hp]
    simp [KOp.wf, w]
  have h := kernel_alone .a 0 n _ (by omega) hs (Or.inl rfl)
  rw [e] at h
  exact h

theorem kFshr (d : BitVec 7) (v : BitVec 5) (n0 : BitVec 5) : Statement (.kFshr d v n0) := fun w _ => by
  obtain ⟨n, e⟩ : ∃ n, n = encodeWord (.kFshr d v n0) := ⟨_, rfl⟩
  have h_d := d.isLt
  have h_v := v.isLt
  have h_n0 := n0.isLt
  have e' : n = 1006637056 + d.toNat * 524288 + v.toNat * 16384 + n0.toNat := e
  have e_op := fld_of (n + 2 ^ 31) 26 5 15 (by omega)
  have e_5_9 := fld_of (n + 2 ^ 31) 5 9 128 (by omega)
  have f_d := bv_of d (n + 2 ^ 31) 19 (by omega)
  have f_v := bv_of v (n + 2 ^ 31) 14 (by omega)
  have f_n0 := bv_of n0 (n + 2 ^ 31) 0 (by omega)
  have hs : decodeK .a (n + 2 ^ 31) (BitVec.toNat (0 : BitVec 16)) = .inl (.lane (.kFshr d v n0)) := by
    have hp : shapeK .a (n + 2 ^ 31) (BitVec.toNat (0 : BitVec 16)) = some (.lane (.kFshr d v n0)) := by
      simp only [shapeK, shapeKA, e_op, e_5_9, f_d, f_v, f_n0]
      simp
    simp only [decodeK, e_op, KClass.opcodes, hp]
    simp [KOp.wf, w]
  have h := kernel_alone .a 0 n _ (by omega) hs (Or.inl rfl)
  rw [e] at h
  exact h

theorem movi (d : BitVec 7) (i : BitVec 12) : Statement (.movi d i) := fun w _ => by
  obtain ⟨n, e⟩ : ∃ n, n = encodeWord (.movi d i) := ⟨_, rfl⟩
  have h_d := d.isLt
  have h_i := i.isLt
  have e' : n = 1073741824 + d.toNat * 524288 + i.toNat := e
  have e_op := fld_of (n + 2 ^ 31) 26 5 16 (by omega)
  have e_12_7 := fld_of (n + 2 ^ 31) 12 7 0 (by omega)
  have f_d := bv_of d (n + 2 ^ 31) 19 (by omega)
  have f_i := bv_of i (n + 2 ^ 31) 0 (by omega)
  have hs : decodeK .a (n + 2 ^ 31) (BitVec.toNat (0 : BitVec 16)) = .inl (.lane (.movi d i)) := by
    have hp : shapeK .a (n + 2 ^ 31) (BitVec.toNat (0 : BitVec 16)) = some (.lane (.movi d i)) := by
      simp only [shapeK, shapeKA, e_op, e_12_7, f_d, f_i]
      simp
    simp only [decodeK, e_op, KClass.opcodes, hp]
    simp [KOp.wf, w]
  have h := kernel_alone .a 0 n _ (by omega) hs (Or.inl rfl)
  rw [e] at h
  exact h

theorem moviHigh (d : BitVec 7) (i : BitVec 12) : Statement (.moviHigh d i) := fun w _ => by
  obtain ⟨n, e⟩ : ∃ n, n = encodeWord (.moviHigh d i) := ⟨_, rfl⟩
  have h_d := d.isLt
  have h_i := i.isLt
  have e' : n = 1073745920 + d.toNat * 524288 + i.toNat := e
  have e_op := fld_of (n + 2 ^ 31) 26 5 16 (by omega)
  have e_12_7 := fld_of (n + 2 ^ 31) 12 7 1 (by omega)
  have f_d := bv_of d (n + 2 ^ 31) 19 (by omega)
  have f_i := bv_of i (n + 2 ^ 31) 0 (by omega)
  have hs : decodeK .a (n + 2 ^ 31) (BitVec.toNat (0 : BitVec 16)) = .inl (.lane (.moviHigh d i)) := by
    have hp : shapeK .a (n + 2 ^ 31) (BitVec.toNat (0 : BitVec 16)) = some (.lane (.moviHigh d i)) := by
      simp only [shapeK, shapeKA, e_op, e_12_7, f_d, f_i]
      simp
    simp only [decodeK, e_op, KClass.opcodes, hp]
    simp [KOp.wf, w]
  have h := kernel_alone .a 0 n _ (by omega) hs (Or.inl rfl)
  rw [e] at h
  exact h

theorem moviLiteral (d : BitVec 7) (h0 : BitVec 4) (i : BitVec 12) (lit : BitVec 16) : Statement (.moviLiteral d h0 i lit) := fun w _ => by
  obtain ⟨n, e⟩ : ∃ n, n = encodeWord (.moviLiteral d h0 i lit) := ⟨_, rfl⟩
  have h_d := d.isLt
  have h_h0 := h0.isLt
  have h_i := i.isLt
  have h_lit := lit.isLt
  have e' : n = 1073750016 + d.toNat * 524288 + h0.toNat * 16384 + i.toNat := e
  have e_op := fld_of (n + 2 ^ 31) 26 5 16 (by omega)
  have e_12_7_0 := fld_ne (n + 2 ^ 31) 12 7 0 (by omega)
  have e_12_7_1 := fld_ne (n + 2 ^ 31) 12 7 1 (by omega)
  have e_12_2 := fld_of (n + 2 ^ 31) 12 2 2 (by omega)
  have e_18_1 := fld_of (n + 2 ^ 31) 18 1 0 (by omega)
  have f_d := bv_of d (n + 2 ^ 31) 19 (by omega)
  have f_h0 := bv_of h0 (n + 2 ^ 31) 14 (by omega)
  have f_i := bv_of i (n + 2 ^ 31) 0 (by omega)
  have hs : decodeK .a (n + 2 ^ 31) (BitVec.toNat lit) = .inl (.lane (.moviLiteral d h0 i lit)) := by
    have hp : shapeK .a (n + 2 ^ 31) (BitVec.toNat lit) = some (.lane (.moviLiteral d h0 i lit)) := by
      simp only [shapeK, shapeKA, e_op, e_12_7_0, e_12_7_1, e_12_2, e_18_1, f_d, f_h0, f_i, BitVec.ofNat_toNat, BitVec.setWidth_eq]
      simp
    simp only [decodeK, e_op, KClass.opcodes, hp]
    simp [KOp.wf, w]
  have h := kernel_alone .a lit n _ (by omega) hs (Or.inr rfl)
  rw [e] at h
  exact h

theorem moviShifted (d : BitVec 7) (n0 : BitVec 5) (lit : BitVec 16) : Statement (.moviShifted d n0 lit) := fun w _ => by
  obtain ⟨n, e⟩ : ∃ n, n = encodeWord (.moviShifted d n0 lit) := ⟨_, rfl⟩
  have h_d := d.isLt
  have h_n0 := n0.isLt
  have h_lit := lit.isLt
  have e' : n = 1073754112 + d.toNat * 524288 + n0.toNat := e
  have e_op := fld_of (n + 2 ^ 31) 26 5 16 (by omega)
  have e_12_7 := fld_of (n + 2 ^ 31) 12 7 3 (by omega)
  have e_12_2 := fld_of (n + 2 ^ 31) 12 2 3 (by omega)
  have e_18_1 := fld_of (n + 2 ^ 31) 18 1 0 (by omega)
  have e_5_14 := fld_of (n + 2 ^ 31) 5 14 384 (by omega)
  have f_d := bv_of d (n + 2 ^ 31) 19 (by omega)
  have f_n0 := bv_of n0 (n + 2 ^ 31) 0 (by omega)
  have hs : decodeK .a (n + 2 ^ 31) (BitVec.toNat lit) = .inl (.lane (.moviShifted d n0 lit)) := by
    have hp : shapeK .a (n + 2 ^ 31) (BitVec.toNat lit) = some (.lane (.moviShifted d n0 lit)) := by
      simp only [shapeK, shapeKA, e_op, e_12_7, e_12_2, e_18_1, e_5_14, f_d, f_n0, BitVec.ofNat_toNat, BitVec.setWidth_eq]
      simp
    simp only [decodeK, e_op, KClass.opcodes, hp]
    simp [KOp.wf, w]
  have h := kernel_alone .a lit n _ (by omega) hs (Or.inr rfl)
  rw [e] at h
  exact h

theorem abs (d : BitVec 7) (a : BitVec 7) (g : BitVec 3) (m : BitVec 1) : Statement (.abs d a g m) := fun w _ => by
  obtain ⟨n, e⟩ : ∃ n, n = encodeWord (.abs d a g m) := ⟨_, rfl⟩
  have h_d := d.isLt
  have h_a := a.isLt
  have h_g := g.isLt
  have h_m := m.isLt
  have e' : n = 1140850688 + d.toNat * 524288 + a.toNat * 4096 + g.toNat * 4 + m.toNat * 2 := e
  have e_op := fld_of (n + 2 ^ 31) 26 5 17 (by omega)
  have e_0_1 := fld_of (n + 2 ^ 31) 0 1 0 (by omega)
  have e_5_7 := fld_of (n + 2 ^ 31) 5 7 0 (by omega)
  have f_d := bv_of d (n + 2 ^ 31) 19 (by omega)
  have f_a := bv_of a (n + 2 ^ 31) 12 (by omega)
  have f_g := bv_of g (n + 2 ^ 31) 2 (by omega)
  have f_m := bv_of m (n + 2 ^ 31) 1 (by omega)
  have hs : decodeK .a (n + 2 ^ 31) (BitVec.toNat (0 : BitVec 16)) = .inl (.lane (.abs d a g m)) := by
    have hp : shapeK .a (n + 2 ^ 31) (BitVec.toNat (0 : BitVec 16)) = some (.lane (.abs d a g m)) := by
      simp only [shapeK, shapeKA, e_op, e_0_1, e_5_7, f_d, f_a, f_g, f_m]
      simp
    simp only [decodeK, e_op, KClass.opcodes, hp]
    simp [KOp.wf, w]
  have h := kernel_alone .a 0 n _ (by omega) hs (Or.inl rfl)
  rw [e] at h
  exact h

theorem neg (d : BitVec 7) (a : BitVec 7) (g : BitVec 3) (m : BitVec 1) : Statement (.neg d a g m) := fun w _ => by
  obtain ⟨n, e⟩ : ∃ n, n = encodeWord (.neg d a g m) := ⟨_, rfl⟩
  have h_d := d.isLt
  have h_a := a.isLt
  have h_g := g.isLt
  have h_m := m.isLt
  have e' : n = 1140850720 + d.toNat * 524288 + a.toNat * 4096 + g.toNat * 4 + m.toNat * 2 := e
  have e_op := fld_of (n + 2 ^ 31) 26 5 17 (by omega)
  have e_0_1 := fld_of (n + 2 ^ 31) 0 1 0 (by omega)
  have e_5_7 := fld_of (n + 2 ^ 31) 5 7 1 (by omega)
  have f_d := bv_of d (n + 2 ^ 31) 19 (by omega)
  have f_a := bv_of a (n + 2 ^ 31) 12 (by omega)
  have f_g := bv_of g (n + 2 ^ 31) 2 (by omega)
  have f_m := bv_of m (n + 2 ^ 31) 1 (by omega)
  have hs : decodeK .a (n + 2 ^ 31) (BitVec.toNat (0 : BitVec 16)) = .inl (.lane (.neg d a g m)) := by
    have hp : shapeK .a (n + 2 ^ 31) (BitVec.toNat (0 : BitVec 16)) = some (.lane (.neg d a g m)) := by
      simp only [shapeK, shapeKA, e_op, e_0_1, e_5_7, f_d, f_a, f_g, f_m]
      simp
    simp only [decodeK, e_op, KClass.opcodes, hp]
    simp [KOp.wf, w]
  have h := kernel_alone .a 0 n _ (by omega) hs (Or.inl rfl)
  rw [e] at h
  exact h

theorem kClz (d : BitVec 7) (a : BitVec 7) (g : BitVec 3) (m : BitVec 1) : Statement (.kClz d a g m) := fun w _ => by
  obtain ⟨n, e⟩ : ∃ n, n = encodeWord (.kClz d a g m) := ⟨_, rfl⟩
  have h_d := d.isLt
  have h_a := a.isLt
  have h_g := g.isLt
  have h_m := m.isLt
  have e' : n = 1140850752 + d.toNat * 524288 + a.toNat * 4096 + g.toNat * 4 + m.toNat * 2 := e
  have e_op := fld_of (n + 2 ^ 31) 26 5 17 (by omega)
  have e_0_1 := fld_of (n + 2 ^ 31) 0 1 0 (by omega)
  have e_5_7 := fld_of (n + 2 ^ 31) 5 7 2 (by omega)
  have f_d := bv_of d (n + 2 ^ 31) 19 (by omega)
  have f_a := bv_of a (n + 2 ^ 31) 12 (by omega)
  have f_g := bv_of g (n + 2 ^ 31) 2 (by omega)
  have f_m := bv_of m (n + 2 ^ 31) 1 (by omega)
  have hs : decodeK .a (n + 2 ^ 31) (BitVec.toNat (0 : BitVec 16)) = .inl (.lane (.kClz d a g m)) := by
    have hp : shapeK .a (n + 2 ^ 31) (BitVec.toNat (0 : BitVec 16)) = some (.lane (.kClz d a g m)) := by
      simp only [shapeK, shapeKA, e_op, e_0_1, e_5_7, f_d, f_a, f_g, f_m]
      simp
    simp only [decodeK, e_op, KClass.opcodes, hp]
    simp [KOp.wf, w]
  have h := kernel_alone .a 0 n _ (by omega) hs (Or.inl rfl)
  rw [e] at h
  exact h

theorem kPopc (d : BitVec 7) (a : BitVec 7) (g : BitVec 3) (m : BitVec 1) : Statement (.kPopc d a g m) := fun w _ => by
  obtain ⟨n, e⟩ : ∃ n, n = encodeWord (.kPopc d a g m) := ⟨_, rfl⟩
  have h_d := d.isLt
  have h_a := a.isLt
  have h_g := g.isLt
  have h_m := m.isLt
  have e' : n = 1140850784 + d.toNat * 524288 + a.toNat * 4096 + g.toNat * 4 + m.toNat * 2 := e
  have e_op := fld_of (n + 2 ^ 31) 26 5 17 (by omega)
  have e_0_1 := fld_of (n + 2 ^ 31) 0 1 0 (by omega)
  have e_5_7 := fld_of (n + 2 ^ 31) 5 7 3 (by omega)
  have f_d := bv_of d (n + 2 ^ 31) 19 (by omega)
  have f_a := bv_of a (n + 2 ^ 31) 12 (by omega)
  have f_g := bv_of g (n + 2 ^ 31) 2 (by omega)
  have f_m := bv_of m (n + 2 ^ 31) 1 (by omega)
  have hs : decodeK .a (n + 2 ^ 31) (BitVec.toNat (0 : BitVec 16)) = .inl (.lane (.kPopc d a g m)) := by
    have hp : shapeK .a (n + 2 ^ 31) (BitVec.toNat (0 : BitVec 16)) = some (.lane (.kPopc d a g m)) := by
      simp only [shapeK, shapeKA, e_op, e_0_1, e_5_7, f_d, f_a, f_g, f_m]
      simp
    simp only [decodeK, e_op, KClass.opcodes, hp]
    simp [KOp.wf, w]
  have h := kernel_alone .a 0 n _ (by omega) hs (Or.inl rfl)
  rw [e] at h
  exact h

theorem not_ (d : BitVec 7) (a : BitVec 7) (g : BitVec 3) : Statement (.not_ d a g) := fun w _ => by
  obtain ⟨n, e⟩ : ∃ n, n = encodeWord (.not_ d a g) := ⟨_, rfl⟩
  have h_d := d.isLt
  have h_a := a.isLt
  have h_g := g.isLt
  have e' : n = 1140850816 + d.toNat * 524288 + a.toNat * 4096 + g.toNat * 4 := e
  have e_op := fld_of (n + 2 ^ 31) 26 5 17 (by omega)
  have e_0_1 := fld_of (n + 2 ^ 31) 0 1 0 (by omega)
  have e_5_7 := fld_of (n + 2 ^ 31) 5 7 4 (by omega)
  have e_0_2 := fld_of (n + 2 ^ 31) 0 2 0 (by omega)
  have f_d := bv_of d (n + 2 ^ 31) 19 (by omega)
  have f_a := bv_of a (n + 2 ^ 31) 12 (by omega)
  have f_g := bv_of g (n + 2 ^ 31) 2 (by omega)
  have hs : decodeK .a (n + 2 ^ 31) (BitVec.toNat (0 : BitVec 16)) = .inl (.lane (.not_ d a g)) := by
    have hp : shapeK .a (n + 2 ^ 31) (BitVec.toNat (0 : BitVec 16)) = some (.lane (.not_ d a g)) := by
      simp only [shapeK, shapeKA, e_op, e_0_1, e_5_7, e_0_2, f_d, f_a, f_g]
      simp
    simp only [decodeK, e_op, KClass.opcodes, hp]
    simp [KOp.wf, w]
  have h := kernel_alone .a 0 n _ (by omega) hs (Or.inl rfl)
  rw [e] at h
  exact h

theorem fabs (d : BitVec 7) (a : BitVec 7) (g : BitVec 3) : Statement (.fabs d a g) := fun w _ => by
  obtain ⟨n, e⟩ : ∃ n, n = encodeWord (.fabs d a g) := ⟨_, rfl⟩
  have h_d := d.isLt
  have h_a := a.isLt
  have h_g := g.isLt
  have e' : n = 1140850848 + d.toNat * 524288 + a.toNat * 4096 + g.toNat * 4 := e
  have e_op := fld_of (n + 2 ^ 31) 26 5 17 (by omega)
  have e_0_1 := fld_of (n + 2 ^ 31) 0 1 0 (by omega)
  have e_5_7 := fld_of (n + 2 ^ 31) 5 7 5 (by omega)
  have e_0_2 := fld_of (n + 2 ^ 31) 0 2 0 (by omega)
  have f_d := bv_of d (n + 2 ^ 31) 19 (by omega)
  have f_a := bv_of a (n + 2 ^ 31) 12 (by omega)
  have f_g := bv_of g (n + 2 ^ 31) 2 (by omega)
  have hs : decodeK .a (n + 2 ^ 31) (BitVec.toNat (0 : BitVec 16)) = .inl (.lane (.fabs d a g)) := by
    have hp : shapeK .a (n + 2 ^ 31) (BitVec.toNat (0 : BitVec 16)) = some (.lane (.fabs d a g)) := by
      simp only [shapeK, shapeKA, e_op, e_0_1, e_5_7, e_0_2, f_d, f_a, f_g]
      simp
    simp only [decodeK, e_op, KClass.opcodes, hp]
    simp [KOp.wf, w]
  have h := kernel_alone .a 0 n _ (by omega) hs (Or.inl rfl)
  rw [e] at h
  exact h

theorem fneg (d : BitVec 7) (a : BitVec 7) (g : BitVec 3) : Statement (.fneg d a g) := fun w _ => by
  obtain ⟨n, e⟩ : ∃ n, n = encodeWord (.fneg d a g) := ⟨_, rfl⟩
  have h_d := d.isLt
  have h_a := a.isLt
  have h_g := g.isLt
  have e' : n = 1140850880 + d.toNat * 524288 + a.toNat * 4096 + g.toNat * 4 := e
  have e_op := fld_of (n + 2 ^ 31) 26 5 17 (by omega)
  have e_0_1 := fld_of (n + 2 ^ 31) 0 1 0 (by omega)
  have e_5_7 := fld_of (n + 2 ^ 31) 5 7 6 (by omega)
  have e_0_2 := fld_of (n + 2 ^ 31) 0 2 0 (by omega)
  have f_d := bv_of d (n + 2 ^ 31) 19 (by omega)
  have f_a := bv_of a (n + 2 ^ 31) 12 (by omega)
  have f_g := bv_of g (n + 2 ^ 31) 2 (by omega)
  have hs : decodeK .a (n + 2 ^ 31) (BitVec.toNat (0 : BitVec 16)) = .inl (.lane (.fneg d a g)) := by
    have hp : shapeK .a (n + 2 ^ 31) (BitVec.toNat (0 : BitVec 16)) = some (.lane (.fneg d a g)) := by
      simp only [shapeK, shapeKA, e_op, e_0_1, e_5_7, e_0_2, f_d, f_a, f_g]
      simp
    simp only [decodeK, e_op, KClass.opcodes, hp]
    simp [KOp.wf, w]
  have h := kernel_alone .a 0 n _ (by omega) hs (Or.inl rfl)
  rw [e] at h
  exact h

theorem fclass (d : BitVec 7) (a : BitVec 7) (g : BitVec 3) : Statement (.fclass d a g) := fun w _ => by
  obtain ⟨n, e⟩ : ∃ n, n = encodeWord (.fclass d a g) := ⟨_, rfl⟩
  have h_d := d.isLt
  have h_a := a.isLt
  have h_g := g.isLt
  have e' : n = 1140850912 + d.toNat * 524288 + a.toNat * 4096 + g.toNat * 4 := e
  have e_op := fld_of (n + 2 ^ 31) 26 5 17 (by omega)
  have e_0_1 := fld_of (n + 2 ^ 31) 0 1 0 (by omega)
  have e_5_7 := fld_of (n + 2 ^ 31) 5 7 7 (by omega)
  have e_0_2 := fld_of (n + 2 ^ 31) 0 2 0 (by omega)
  have f_d := bv_of d (n + 2 ^ 31) 19 (by omega)
  have f_a := bv_of a (n + 2 ^ 31) 12 (by omega)
  have f_g := bv_of g (n + 2 ^ 31) 2 (by omega)
  have hs : decodeK .a (n + 2 ^ 31) (BitVec.toNat (0 : BitVec 16)) = .inl (.lane (.fclass d a g)) := by
    have hp : shapeK .a (n + 2 ^ 31) (BitVec.toNat (0 : BitVec 16)) = some (.lane (.fclass d a g)) := by
      simp only [shapeK, shapeKA, e_op, e_0_1, e_5_7, e_0_2, f_d, f_a, f_g]
      simp
    simp only [decodeK, e_op, KClass.opcodes, hp]
    simp [KOp.wf, w]
  have h := kernel_alone .a 0 n _ (by omega) hs (Or.inl rfl)
  rw [e] at h
  exact h

theorem fadd (d : BitVec 7) (a : BitVec 7) (b : BitVec 7) (g : BitVec 3) (m : BitVec 2) : Statement (.fadd d a b g m) := fun w _ => by
  obtain ⟨n, e⟩ : ∃ n, n = encodeWord (.fadd d a b g m) := ⟨_, rfl⟩
  have h_d := d.isLt
  have h_a := a.isLt
  have h_b := b.isLt
  have h_g := g.isLt
  have h_m := m.isLt
  have e' : n = 1207959552 + d.toNat * 524288 + a.toNat * 4096 + b.toNat * 32 + g.toNat * 4 + m.toNat := e
  have e_op := fld_of (n + 2 ^ 31) 26 5 18 (by omega)
  have f_d := bv_of d (n + 2 ^ 31) 19 (by omega)
  have f_a := bv_of a (n + 2 ^ 31) 12 (by omega)
  have f_b := bv_of b (n + 2 ^ 31) 5 (by omega)
  have f_g := bv_of g (n + 2 ^ 31) 2 (by omega)
  have f_m := bv_of m (n + 2 ^ 31) 0 (by omega)
  have hs : decodeK .a (n + 2 ^ 31) (BitVec.toNat (0 : BitVec 16)) = .inl (.lane (.fadd d a b g m)) := by
    have hp : shapeK .a (n + 2 ^ 31) (BitVec.toNat (0 : BitVec 16)) = some (.lane (.fadd d a b g m)) := by
      simp only [shapeK, shapeKA, e_op, f_d, f_a, f_b, f_g, f_m]
      rfl
    simp only [decodeK, e_op, KClass.opcodes, hp]
    simp [KOp.wf, w]
  have h := kernel_alone .a 0 n _ (by omega) hs (Or.inl rfl)
  rw [e] at h
  exact h

theorem fsub (d : BitVec 7) (a : BitVec 7) (b : BitVec 7) (g : BitVec 3) (m : BitVec 2) : Statement (.fsub d a b g m) := fun w _ => by
  obtain ⟨n, e⟩ : ∃ n, n = encodeWord (.fsub d a b g m) := ⟨_, rfl⟩
  have h_d := d.isLt
  have h_a := a.isLt
  have h_b := b.isLt
  have h_g := g.isLt
  have h_m := m.isLt
  have e' : n = 1275068416 + d.toNat * 524288 + a.toNat * 4096 + b.toNat * 32 + g.toNat * 4 + m.toNat := e
  have e_op := fld_of (n + 2 ^ 31) 26 5 19 (by omega)
  have f_d := bv_of d (n + 2 ^ 31) 19 (by omega)
  have f_a := bv_of a (n + 2 ^ 31) 12 (by omega)
  have f_b := bv_of b (n + 2 ^ 31) 5 (by omega)
  have f_g := bv_of g (n + 2 ^ 31) 2 (by omega)
  have f_m := bv_of m (n + 2 ^ 31) 0 (by omega)
  have hs : decodeK .a (n + 2 ^ 31) (BitVec.toNat (0 : BitVec 16)) = .inl (.lane (.fsub d a b g m)) := by
    have hp : shapeK .a (n + 2 ^ 31) (BitVec.toNat (0 : BitVec 16)) = some (.lane (.fsub d a b g m)) := by
      simp only [shapeK, shapeKA, e_op, f_d, f_a, f_b, f_g, f_m]
      rfl
    simp only [decodeK, e_op, KClass.opcodes, hp]
    simp [KOp.wf, w]
  have h := kernel_alone .a 0 n _ (by omega) hs (Or.inl rfl)
  rw [e] at h
  exact h

theorem fmin (d : BitVec 7) (a : BitVec 7) (b : BitVec 7) (g : BitVec 3) (m : BitVec 1) : Statement (.fmin d a b g m) := fun w _ => by
  obtain ⟨n, e⟩ : ∃ n, n = encodeWord (.fmin d a b g m) := ⟨_, rfl⟩
  have h_d := d.isLt
  have h_a := a.isLt
  have h_b := b.isLt
  have h_g := g.isLt
  have h_m := m.isLt
  have e' : n = 1342177280 + d.toNat * 524288 + a.toNat * 4096 + b.toNat * 32 + g.toNat * 4 + m.toNat := e
  have e_op := fld_of (n + 2 ^ 31) 26 5 20 (by omega)
  have e_1_1 := fld_of (n + 2 ^ 31) 1 1 0 (by omega)
  have f_d := bv_of d (n + 2 ^ 31) 19 (by omega)
  have f_a := bv_of a (n + 2 ^ 31) 12 (by omega)
  have f_b := bv_of b (n + 2 ^ 31) 5 (by omega)
  have f_g := bv_of g (n + 2 ^ 31) 2 (by omega)
  have f_m := bv_of m (n + 2 ^ 31) 0 (by omega)
  have hs : decodeK .a (n + 2 ^ 31) (BitVec.toNat (0 : BitVec 16)) = .inl (.lane (.fmin d a b g m)) := by
    have hp : shapeK .a (n + 2 ^ 31) (BitVec.toNat (0 : BitVec 16)) = some (.lane (.fmin d a b g m)) := by
      simp only [shapeK, shapeKA, e_op, e_1_1, f_d, f_a, f_b, f_g, f_m]
      simp
    simp only [decodeK, e_op, KClass.opcodes, hp]
    simp [KOp.wf, w]
  have h := kernel_alone .a 0 n _ (by omega) hs (Or.inl rfl)
  rw [e] at h
  exact h

theorem fmax (d : BitVec 7) (a : BitVec 7) (b : BitVec 7) (g : BitVec 3) (m : BitVec 1) : Statement (.fmax d a b g m) := fun w _ => by
  obtain ⟨n, e⟩ : ∃ n, n = encodeWord (.fmax d a b g m) := ⟨_, rfl⟩
  have h_d := d.isLt
  have h_a := a.isLt
  have h_b := b.isLt
  have h_g := g.isLt
  have h_m := m.isLt
  have e' : n = 1409286144 + d.toNat * 524288 + a.toNat * 4096 + b.toNat * 32 + g.toNat * 4 + m.toNat := e
  have e_op := fld_of (n + 2 ^ 31) 26 5 21 (by omega)
  have e_1_1 := fld_of (n + 2 ^ 31) 1 1 0 (by omega)
  have f_d := bv_of d (n + 2 ^ 31) 19 (by omega)
  have f_a := bv_of a (n + 2 ^ 31) 12 (by omega)
  have f_b := bv_of b (n + 2 ^ 31) 5 (by omega)
  have f_g := bv_of g (n + 2 ^ 31) 2 (by omega)
  have f_m := bv_of m (n + 2 ^ 31) 0 (by omega)
  have hs : decodeK .a (n + 2 ^ 31) (BitVec.toNat (0 : BitVec 16)) = .inl (.lane (.fmax d a b g m)) := by
    have hp : shapeK .a (n + 2 ^ 31) (BitVec.toNat (0 : BitVec 16)) = some (.lane (.fmax d a b g m)) := by
      simp only [shapeK, shapeKA, e_op, e_1_1, f_d, f_a, f_b, f_g, f_m]
      simp
    simp only [decodeK, e_op, KClass.opcodes, hp]
    simp [KOp.wf, w]
  have h := kernel_alone .a 0 n _ (by omega) hs (Or.inl rfl)
  rw [e] at h
  exact h

theorem fcmp (c : BitVec 3) (q : BitVec 3) (a : BitVec 7) (b : BitVec 7) (g : BitVec 3) (m : BitVec 1) : Statement (.fcmp c q a b g m) := fun w _ => by
  obtain ⟨n, e⟩ : ∃ n, n = encodeWord (.fcmp c q a b g m) := ⟨_, rfl⟩
  have h_c := c.isLt
  have h_q := q.isLt
  have h_a := a.isLt
  have h_b := b.isLt
  have h_g := g.isLt
  have h_m := m.isLt
  have e' : n = 1476395008 + c.toNat * 4194304 + q.toNat * 524288 + a.toNat * 4096 + b.toNat * 32 + g.toNat * 4 + m.toNat := e
  have e_op := fld_of (n + 2 ^ 31) 26 5 22 (by omega)
  have e_1_1 := fld_of (n + 2 ^ 31) 1 1 0 (by omega)
  have e_25_1 := fld_of (n + 2 ^ 31) 25 1 0 (by omega)
  have f_c := bv_of c (n + 2 ^ 31) 22 (by omega)
  have f_q := bv_of q (n + 2 ^ 31) 19 (by omega)
  have f_a := bv_of a (n + 2 ^ 31) 12 (by omega)
  have f_b := bv_of b (n + 2 ^ 31) 5 (by omega)
  have f_g := bv_of g (n + 2 ^ 31) 2 (by omega)
  have f_m := bv_of m (n + 2 ^ 31) 0 (by omega)
  have hs : decodeK .a (n + 2 ^ 31) (BitVec.toNat (0 : BitVec 16)) = .inl (.lane (.fcmp c q a b g m)) := by
    have hp : shapeK .a (n + 2 ^ 31) (BitVec.toNat (0 : BitVec 16)) = some (.lane (.fcmp c q a b g m)) := by
      simp only [shapeK, shapeKA, e_op, e_1_1, e_25_1, f_c, f_q, f_a, f_b, f_g, f_m]
      simp
    simp only [decodeK, e_op, KClass.opcodes, hp]
    simp [KOp.wf, w]
  have h := kernel_alone .a 0 n _ (by omega) hs (Or.inl rfl)
  rw [e] at h
  exact h

theorem cvtI32F32 (d : BitVec 7) (a : BitVec 7) (g : BitVec 3) (m : BitVec 2) : Statement (.cvtI32F32 d a g m) := fun w _ => by
  obtain ⟨n, e⟩ : ∃ n, n = encodeWord (.cvtI32F32 d a g m) := ⟨_, rfl⟩
  have h_d := d.isLt
  have h_a := a.isLt
  have h_g := g.isLt
  have h_m := m.isLt
  have e' : n = 1543503872 + d.toNat * 524288 + a.toNat * 4096 + g.toNat * 4 + m.toNat := e
  have e_op := fld_of (n + 2 ^ 31) 26 5 23 (by omega)
  have e_5_7 := fld_of (n + 2 ^ 31) 5 7 0 (by omega)
  have f_d := bv_of d (n + 2 ^ 31) 19 (by omega)
  have f_a := bv_of a (n + 2 ^ 31) 12 (by omega)
  have f_g := bv_of g (n + 2 ^ 31) 2 (by omega)
  have f_m := bv_of m (n + 2 ^ 31) 0 (by omega)
  have hs : decodeK .a (n + 2 ^ 31) (BitVec.toNat (0 : BitVec 16)) = .inl (.lane (.cvtI32F32 d a g m)) := by
    have hp : shapeK .a (n + 2 ^ 31) (BitVec.toNat (0 : BitVec 16)) = some (.lane (.cvtI32F32 d a g m)) := by
      simp only [shapeK, shapeKA, e_op, e_5_7, f_d, f_a, f_g, f_m]
      simp
    simp only [decodeK, e_op, KClass.opcodes, hp]
    simp [KOp.wf, w]
  have h := kernel_alone .a 0 n _ (by omega) hs (Or.inl rfl)
  rw [e] at h
  exact h

theorem cvtN32F32 (d : BitVec 7) (a : BitVec 7) (g : BitVec 3) (m : BitVec 2) : Statement (.cvtN32F32 d a g m) := fun w _ => by
  obtain ⟨n, e⟩ : ∃ n, n = encodeWord (.cvtN32F32 d a g m) := ⟨_, rfl⟩
  have h_d := d.isLt
  have h_a := a.isLt
  have h_g := g.isLt
  have h_m := m.isLt
  have e' : n = 1543503904 + d.toNat * 524288 + a.toNat * 4096 + g.toNat * 4 + m.toNat := e
  have e_op := fld_of (n + 2 ^ 31) 26 5 23 (by omega)
  have e_5_7 := fld_of (n + 2 ^ 31) 5 7 1 (by omega)
  have f_d := bv_of d (n + 2 ^ 31) 19 (by omega)
  have f_a := bv_of a (n + 2 ^ 31) 12 (by omega)
  have f_g := bv_of g (n + 2 ^ 31) 2 (by omega)
  have f_m := bv_of m (n + 2 ^ 31) 0 (by omega)
  have hs : decodeK .a (n + 2 ^ 31) (BitVec.toNat (0 : BitVec 16)) = .inl (.lane (.cvtN32F32 d a g m)) := by
    have hp : shapeK .a (n + 2 ^ 31) (BitVec.toNat (0 : BitVec 16)) = some (.lane (.cvtN32F32 d a g m)) := by
      simp only [shapeK, shapeKA, e_op, e_5_7, f_d, f_a, f_g, f_m]
      simp
    simp only [decodeK, e_op, KClass.opcodes, hp]
    simp [KOp.wf, w]
  have h := kernel_alone .a 0 n _ (by omega) hs (Or.inl rfl)
  rw [e] at h
  exact h

theorem cvtF32I32 (d : BitVec 7) (a : BitVec 7) (g : BitVec 3) (m : BitVec 2) : Statement (.cvtF32I32 d a g m) := fun w _ => by
  obtain ⟨n, e⟩ : ∃ n, n = encodeWord (.cvtF32I32 d a g m) := ⟨_, rfl⟩
  have h_d := d.isLt
  have h_a := a.isLt
  have h_g := g.isLt
  have h_m := m.isLt
  have e' : n = 1543503936 + d.toNat * 524288 + a.toNat * 4096 + g.toNat * 4 + m.toNat := e
  have e_op := fld_of (n + 2 ^ 31) 26 5 23 (by omega)
  have e_5_7 := fld_of (n + 2 ^ 31) 5 7 2 (by omega)
  have f_d := bv_of d (n + 2 ^ 31) 19 (by omega)
  have f_a := bv_of a (n + 2 ^ 31) 12 (by omega)
  have f_g := bv_of g (n + 2 ^ 31) 2 (by omega)
  have f_m := bv_of m (n + 2 ^ 31) 0 (by omega)
  have hs : decodeK .a (n + 2 ^ 31) (BitVec.toNat (0 : BitVec 16)) = .inl (.lane (.cvtF32I32 d a g m)) := by
    have hp : shapeK .a (n + 2 ^ 31) (BitVec.toNat (0 : BitVec 16)) = some (.lane (.cvtF32I32 d a g m)) := by
      simp only [shapeK, shapeKA, e_op, e_5_7, f_d, f_a, f_g, f_m]
      simp
    simp only [decodeK, e_op, KClass.opcodes, hp]
    simp [KOp.wf, w]
  have h := kernel_alone .a 0 n _ (by omega) hs (Or.inl rfl)
  rw [e] at h
  exact h

theorem cvtF32N32 (d : BitVec 7) (a : BitVec 7) (g : BitVec 3) (m : BitVec 2) : Statement (.cvtF32N32 d a g m) := fun w _ => by
  obtain ⟨n, e⟩ : ∃ n, n = encodeWord (.cvtF32N32 d a g m) := ⟨_, rfl⟩
  have h_d := d.isLt
  have h_a := a.isLt
  have h_g := g.isLt
  have h_m := m.isLt
  have e' : n = 1543503968 + d.toNat * 524288 + a.toNat * 4096 + g.toNat * 4 + m.toNat := e
  have e_op := fld_of (n + 2 ^ 31) 26 5 23 (by omega)
  have e_5_7 := fld_of (n + 2 ^ 31) 5 7 3 (by omega)
  have f_d := bv_of d (n + 2 ^ 31) 19 (by omega)
  have f_a := bv_of a (n + 2 ^ 31) 12 (by omega)
  have f_g := bv_of g (n + 2 ^ 31) 2 (by omega)
  have f_m := bv_of m (n + 2 ^ 31) 0 (by omega)
  have hs : decodeK .a (n + 2 ^ 31) (BitVec.toNat (0 : BitVec 16)) = .inl (.lane (.cvtF32N32 d a g m)) := by
    have hp : shapeK .a (n + 2 ^ 31) (BitVec.toNat (0 : BitVec 16)) = some (.lane (.cvtF32N32 d a g m)) := by
      simp only [shapeK, shapeKA, e_op, e_5_7, f_d, f_a, f_g, f_m]
      simp
    simp only [decodeK, e_op, KClass.opcodes, hp]
    simp [KOp.wf, w]
  have h := kernel_alone .a 0 n _ (by omega) hs (Or.inl rfl)
  rw [e] at h
  exact h

theorem cvtF16F32 (d : BitVec 7) (a : BitVec 7) (g : BitVec 3) (m : BitVec 2) : Statement (.cvtF16F32 d a g m) := fun w _ => by
  obtain ⟨n, e⟩ : ∃ n, n = encodeWord (.cvtF16F32 d a g m) := ⟨_, rfl⟩
  have h_d := d.isLt
  have h_a := a.isLt
  have h_g := g.isLt
  have h_m := m.isLt
  have e' : n = 1543504000 + d.toNat * 524288 + a.toNat * 4096 + g.toNat * 4 + m.toNat := e
  have e_op := fld_of (n + 2 ^ 31) 26 5 23 (by omega)
  have e_5_7 := fld_of (n + 2 ^ 31) 5 7 4 (by omega)
  have f_d := bv_of d (n + 2 ^ 31) 19 (by omega)
  have f_a := bv_of a (n + 2 ^ 31) 12 (by omega)
  have f_g := bv_of g (n + 2 ^ 31) 2 (by omega)
  have f_m := bv_of m (n + 2 ^ 31) 0 (by omega)
  have hs : decodeK .a (n + 2 ^ 31) (BitVec.toNat (0 : BitVec 16)) = .inl (.lane (.cvtF16F32 d a g m)) := by
    have hp : shapeK .a (n + 2 ^ 31) (BitVec.toNat (0 : BitVec 16)) = some (.lane (.cvtF16F32 d a g m)) := by
      simp only [shapeK, shapeKA, e_op, e_5_7, f_d, f_a, f_g, f_m]
      simp
    simp only [decodeK, e_op, KClass.opcodes, hp]
    simp [KOp.wf, w]
  have h := kernel_alone .a 0 n _ (by omega) hs (Or.inl rfl)
  rw [e] at h
  exact h

theorem cvtBf16F32 (d : BitVec 7) (a : BitVec 7) (g : BitVec 3) (m : BitVec 2) : Statement (.cvtBf16F32 d a g m) := fun w _ => by
  obtain ⟨n, e⟩ : ∃ n, n = encodeWord (.cvtBf16F32 d a g m) := ⟨_, rfl⟩
  have h_d := d.isLt
  have h_a := a.isLt
  have h_g := g.isLt
  have h_m := m.isLt
  have e' : n = 1543504032 + d.toNat * 524288 + a.toNat * 4096 + g.toNat * 4 + m.toNat := e
  have e_op := fld_of (n + 2 ^ 31) 26 5 23 (by omega)
  have e_5_7 := fld_of (n + 2 ^ 31) 5 7 5 (by omega)
  have f_d := bv_of d (n + 2 ^ 31) 19 (by omega)
  have f_a := bv_of a (n + 2 ^ 31) 12 (by omega)
  have f_g := bv_of g (n + 2 ^ 31) 2 (by omega)
  have f_m := bv_of m (n + 2 ^ 31) 0 (by omega)
  have hs : decodeK .a (n + 2 ^ 31) (BitVec.toNat (0 : BitVec 16)) = .inl (.lane (.cvtBf16F32 d a g m)) := by
    have hp : shapeK .a (n + 2 ^ 31) (BitVec.toNat (0 : BitVec 16)) = some (.lane (.cvtBf16F32 d a g m)) := by
      simp only [shapeK, shapeKA, e_op, e_5_7, f_d, f_a, f_g, f_m]
      simp
    simp only [decodeK, e_op, KClass.opcodes, hp]
    simp [KOp.wf, w]
  have h := kernel_alone .a 0 n _ (by omega) hs (Or.inl rfl)
  rw [e] at h
  exact h

theorem cvtF32F16 (d : BitVec 7) (a : BitVec 7) (g : BitVec 3) (m : BitVec 2) : Statement (.cvtF32F16 d a g m) := fun w _ => by
  obtain ⟨n, e⟩ : ∃ n, n = encodeWord (.cvtF32F16 d a g m) := ⟨_, rfl⟩
  have h_d := d.isLt
  have h_a := a.isLt
  have h_g := g.isLt
  have h_m := m.isLt
  have e' : n = 1543504064 + d.toNat * 524288 + a.toNat * 4096 + g.toNat * 4 + m.toNat := e
  have e_op := fld_of (n + 2 ^ 31) 26 5 23 (by omega)
  have e_5_7 := fld_of (n + 2 ^ 31) 5 7 6 (by omega)
  have f_d := bv_of d (n + 2 ^ 31) 19 (by omega)
  have f_a := bv_of a (n + 2 ^ 31) 12 (by omega)
  have f_g := bv_of g (n + 2 ^ 31) 2 (by omega)
  have f_m := bv_of m (n + 2 ^ 31) 0 (by omega)
  have hs : decodeK .a (n + 2 ^ 31) (BitVec.toNat (0 : BitVec 16)) = .inl (.lane (.cvtF32F16 d a g m)) := by
    have hp : shapeK .a (n + 2 ^ 31) (BitVec.toNat (0 : BitVec 16)) = some (.lane (.cvtF32F16 d a g m)) := by
      simp only [shapeK, shapeKA, e_op, e_5_7, f_d, f_a, f_g, f_m]
      simp
    simp only [decodeK, e_op, KClass.opcodes, hp]
    simp [KOp.wf, w]
  have h := kernel_alone .a 0 n _ (by omega) hs (Or.inl rfl)
  rw [e] at h
  exact h

theorem cvtF32Bf16 (d : BitVec 7) (a : BitVec 7) (g : BitVec 3) (m : BitVec 2) : Statement (.cvtF32Bf16 d a g m) := fun w _ => by
  obtain ⟨n, e⟩ : ∃ n, n = encodeWord (.cvtF32Bf16 d a g m) := ⟨_, rfl⟩
  have h_d := d.isLt
  have h_a := a.isLt
  have h_g := g.isLt
  have h_m := m.isLt
  have e' : n = 1543504096 + d.toNat * 524288 + a.toNat * 4096 + g.toNat * 4 + m.toNat := e
  have e_op := fld_of (n + 2 ^ 31) 26 5 23 (by omega)
  have e_5_7 := fld_of (n + 2 ^ 31) 5 7 7 (by omega)
  have f_d := bv_of d (n + 2 ^ 31) 19 (by omega)
  have f_a := bv_of a (n + 2 ^ 31) 12 (by omega)
  have f_g := bv_of g (n + 2 ^ 31) 2 (by omega)
  have f_m := bv_of m (n + 2 ^ 31) 0 (by omega)
  have hs : decodeK .a (n + 2 ^ 31) (BitVec.toNat (0 : BitVec 16)) = .inl (.lane (.cvtF32Bf16 d a g m)) := by
    have hp : shapeK .a (n + 2 ^ 31) (BitVec.toNat (0 : BitVec 16)) = some (.lane (.cvtF32Bf16 d a g m)) := by
      simp only [shapeK, shapeKA, e_op, e_5_7, f_d, f_a, f_g, f_m]
      simp
    simp only [decodeK, e_op, KClass.opcodes, hp]
    simp [KOp.wf, w]
  have h := kernel_alone .a 0 n _ (by omega) hs (Or.inl rfl)
  rw [e] at h
  exact h

theorem cvtE4m3F32Sat (d : BitVec 7) (a : BitVec 7) (g : BitVec 3) (m : BitVec 2) : Statement (.cvtE4m3F32Sat d a g m) := fun w _ => by
  obtain ⟨n, e⟩ : ∃ n, n = encodeWord (.cvtE4m3F32Sat d a g m) := ⟨_, rfl⟩
  have h_d := d.isLt
  have h_a := a.isLt
  have h_g := g.isLt
  have h_m := m.isLt
  have e' : n = 1543504128 + d.toNat * 524288 + a.toNat * 4096 + g.toNat * 4 + m.toNat := e
  have e_op := fld_of (n + 2 ^ 31) 26 5 23 (by omega)
  have e_5_7 := fld_of (n + 2 ^ 31) 5 7 8 (by omega)
  have f_d := bv_of d (n + 2 ^ 31) 19 (by omega)
  have f_a := bv_of a (n + 2 ^ 31) 12 (by omega)
  have f_g := bv_of g (n + 2 ^ 31) 2 (by omega)
  have f_m := bv_of m (n + 2 ^ 31) 0 (by omega)
  have hs : decodeK .a (n + 2 ^ 31) (BitVec.toNat (0 : BitVec 16)) = .inl (.lane (.cvtE4m3F32Sat d a g m)) := by
    have hp : shapeK .a (n + 2 ^ 31) (BitVec.toNat (0 : BitVec 16)) = some (.lane (.cvtE4m3F32Sat d a g m)) := by
      simp only [shapeK, shapeKA, e_op, e_5_7, f_d, f_a, f_g, f_m]
      simp
    simp only [decodeK, e_op, KClass.opcodes, hp]
    simp [KOp.wf, w]
  have h := kernel_alone .a 0 n _ (by omega) hs (Or.inl rfl)
  rw [e] at h
  exact h

theorem cvtE4m3F32 (d : BitVec 7) (a : BitVec 7) (g : BitVec 3) (m : BitVec 2) : Statement (.cvtE4m3F32 d a g m) := fun w _ => by
  obtain ⟨n, e⟩ : ∃ n, n = encodeWord (.cvtE4m3F32 d a g m) := ⟨_, rfl⟩
  have h_d := d.isLt
  have h_a := a.isLt
  have h_g := g.isLt
  have h_m := m.isLt
  have e' : n = 1543504160 + d.toNat * 524288 + a.toNat * 4096 + g.toNat * 4 + m.toNat := e
  have e_op := fld_of (n + 2 ^ 31) 26 5 23 (by omega)
  have e_5_7 := fld_of (n + 2 ^ 31) 5 7 9 (by omega)
  have f_d := bv_of d (n + 2 ^ 31) 19 (by omega)
  have f_a := bv_of a (n + 2 ^ 31) 12 (by omega)
  have f_g := bv_of g (n + 2 ^ 31) 2 (by omega)
  have f_m := bv_of m (n + 2 ^ 31) 0 (by omega)
  have hs : decodeK .a (n + 2 ^ 31) (BitVec.toNat (0 : BitVec 16)) = .inl (.lane (.cvtE4m3F32 d a g m)) := by
    have hp : shapeK .a (n + 2 ^ 31) (BitVec.toNat (0 : BitVec 16)) = some (.lane (.cvtE4m3F32 d a g m)) := by
      simp only [shapeK, shapeKA, e_op, e_5_7, f_d, f_a, f_g, f_m]
      simp
    simp only [decodeK, e_op, KClass.opcodes, hp]
    simp [KOp.wf, w]
  have h := kernel_alone .a 0 n _ (by omega) hs (Or.inl rfl)
  rw [e] at h
  exact h

theorem cvtE5m2F32Sat (d : BitVec 7) (a : BitVec 7) (g : BitVec 3) (m : BitVec 2) : Statement (.cvtE5m2F32Sat d a g m) := fun w _ => by
  obtain ⟨n, e⟩ : ∃ n, n = encodeWord (.cvtE5m2F32Sat d a g m) := ⟨_, rfl⟩
  have h_d := d.isLt
  have h_a := a.isLt
  have h_g := g.isLt
  have h_m := m.isLt
  have e' : n = 1543504192 + d.toNat * 524288 + a.toNat * 4096 + g.toNat * 4 + m.toNat := e
  have e_op := fld_of (n + 2 ^ 31) 26 5 23 (by omega)
  have e_5_7 := fld_of (n + 2 ^ 31) 5 7 10 (by omega)
  have f_d := bv_of d (n + 2 ^ 31) 19 (by omega)
  have f_a := bv_of a (n + 2 ^ 31) 12 (by omega)
  have f_g := bv_of g (n + 2 ^ 31) 2 (by omega)
  have f_m := bv_of m (n + 2 ^ 31) 0 (by omega)
  have hs : decodeK .a (n + 2 ^ 31) (BitVec.toNat (0 : BitVec 16)) = .inl (.lane (.cvtE5m2F32Sat d a g m)) := by
    have hp : shapeK .a (n + 2 ^ 31) (BitVec.toNat (0 : BitVec 16)) = some (.lane (.cvtE5m2F32Sat d a g m)) := by
      simp only [shapeK, shapeKA, e_op, e_5_7, f_d, f_a, f_g, f_m]
      simp
    simp only [decodeK, e_op, KClass.opcodes, hp]
    simp [KOp.wf, w]
  have h := kernel_alone .a 0 n _ (by omega) hs (Or.inl rfl)
  rw [e] at h
  exact h

theorem cvtE5m2F32 (d : BitVec 7) (a : BitVec 7) (g : BitVec 3) (m : BitVec 2) : Statement (.cvtE5m2F32 d a g m) := fun w _ => by
  obtain ⟨n, e⟩ : ∃ n, n = encodeWord (.cvtE5m2F32 d a g m) := ⟨_, rfl⟩
  have h_d := d.isLt
  have h_a := a.isLt
  have h_g := g.isLt
  have h_m := m.isLt
  have e' : n = 1543504224 + d.toNat * 524288 + a.toNat * 4096 + g.toNat * 4 + m.toNat := e
  have e_op := fld_of (n + 2 ^ 31) 26 5 23 (by omega)
  have e_5_7 := fld_of (n + 2 ^ 31) 5 7 11 (by omega)
  have f_d := bv_of d (n + 2 ^ 31) 19 (by omega)
  have f_a := bv_of a (n + 2 ^ 31) 12 (by omega)
  have f_g := bv_of g (n + 2 ^ 31) 2 (by omega)
  have f_m := bv_of m (n + 2 ^ 31) 0 (by omega)
  have hs : decodeK .a (n + 2 ^ 31) (BitVec.toNat (0 : BitVec 16)) = .inl (.lane (.cvtE5m2F32 d a g m)) := by
    have hp : shapeK .a (n + 2 ^ 31) (BitVec.toNat (0 : BitVec 16)) = some (.lane (.cvtE5m2F32 d a g m)) := by
      simp only [shapeK, shapeKA, e_op, e_5_7, f_d, f_a, f_g, f_m]
      simp
    simp only [decodeK, e_op, KClass.opcodes, hp]
    simp [KOp.wf, w]
  have h := kernel_alone .a 0 n _ (by omega) hs (Or.inl rfl)
  rw [e] at h
  exact h

theorem cvtF32E4m3 (d : BitVec 7) (a : BitVec 7) (g : BitVec 3) (m : BitVec 2) : Statement (.cvtF32E4m3 d a g m) := fun w _ => by
  obtain ⟨n, e⟩ : ∃ n, n = encodeWord (.cvtF32E4m3 d a g m) := ⟨_, rfl⟩
  have h_d := d.isLt
  have h_a := a.isLt
  have h_g := g.isLt
  have h_m := m.isLt
  have e' : n = 1543504256 + d.toNat * 524288 + a.toNat * 4096 + g.toNat * 4 + m.toNat := e
  have e_op := fld_of (n + 2 ^ 31) 26 5 23 (by omega)
  have e_5_7 := fld_of (n + 2 ^ 31) 5 7 12 (by omega)
  have f_d := bv_of d (n + 2 ^ 31) 19 (by omega)
  have f_a := bv_of a (n + 2 ^ 31) 12 (by omega)
  have f_g := bv_of g (n + 2 ^ 31) 2 (by omega)
  have f_m := bv_of m (n + 2 ^ 31) 0 (by omega)
  have hs : decodeK .a (n + 2 ^ 31) (BitVec.toNat (0 : BitVec 16)) = .inl (.lane (.cvtF32E4m3 d a g m)) := by
    have hp : shapeK .a (n + 2 ^ 31) (BitVec.toNat (0 : BitVec 16)) = some (.lane (.cvtF32E4m3 d a g m)) := by
      simp only [shapeK, shapeKA, e_op, e_5_7, f_d, f_a, f_g, f_m]
      simp
    simp only [decodeK, e_op, KClass.opcodes, hp]
    simp [KOp.wf, w]
  have h := kernel_alone .a 0 n _ (by omega) hs (Or.inl rfl)
  rw [e] at h
  exact h

theorem cvtF32E5m2 (d : BitVec 7) (a : BitVec 7) (g : BitVec 3) (m : BitVec 2) : Statement (.cvtF32E5m2 d a g m) := fun w _ => by
  obtain ⟨n, e⟩ : ∃ n, n = encodeWord (.cvtF32E5m2 d a g m) := ⟨_, rfl⟩
  have h_d := d.isLt
  have h_a := a.isLt
  have h_g := g.isLt
  have h_m := m.isLt
  have e' : n = 1543504288 + d.toNat * 524288 + a.toNat * 4096 + g.toNat * 4 + m.toNat := e
  have e_op := fld_of (n + 2 ^ 31) 26 5 23 (by omega)
  have e_5_7 := fld_of (n + 2 ^ 31) 5 7 13 (by omega)
  have f_d := bv_of d (n + 2 ^ 31) 19 (by omega)
  have f_a := bv_of a (n + 2 ^ 31) 12 (by omega)
  have f_g := bv_of g (n + 2 ^ 31) 2 (by omega)
  have f_m := bv_of m (n + 2 ^ 31) 0 (by omega)
  have hs : decodeK .a (n + 2 ^ 31) (BitVec.toNat (0 : BitVec 16)) = .inl (.lane (.cvtF32E5m2 d a g m)) := by
    have hp : shapeK .a (n + 2 ^ 31) (BitVec.toNat (0 : BitVec 16)) = some (.lane (.cvtF32E5m2 d a g m)) := by
      simp only [shapeK, shapeKA, e_op, e_5_7, f_d, f_a, f_g, f_m]
      simp
    simp only [decodeK, e_op, KClass.opcodes, hp]
    simp [KOp.wf, w]
  have h := kernel_alone .a 0 n _ (by omega) hs (Or.inl rfl)
  rw [e] at h
  exact h

theorem cvtPls (d : BitVec 7) (a : BitVec 7) (j : BitVec 4) (g : BitVec 3) (m : BitVec 2) : Statement (.cvtPls d a j g m) := fun w _ => by
  obtain ⟨n, e⟩ : ∃ n, n = encodeWord (.cvtPls d a j g m) := ⟨_, rfl⟩
  have h_d := d.isLt
  have h_a := a.isLt
  have h_j := j.isLt
  have h_g := g.isLt
  have h_m := m.isLt
  have e' : n = 1543504896 + d.toNat * 524288 + a.toNat * 4096 + j.toNat * 32 + g.toNat * 4 + m.toNat := e
  have e_op := fld_of (n + 2 ^ 31) 26 5 23 (by omega)
  have e_5_7_0 := fld_ne (n + 2 ^ 31) 5 7 0 (by omega)
  have e_5_7_1 := fld_ne (n + 2 ^ 31) 5 7 1 (by omega)
  have e_5_7_2 := fld_ne (n + 2 ^ 31) 5 7 2 (by omega)
  have e_5_7_3 := fld_ne (n + 2 ^ 31) 5 7 3 (by omega)
  have e_5_7_4 := fld_ne (n + 2 ^ 31) 5 7 4 (by omega)
  have e_5_7_5 := fld_ne (n + 2 ^ 31) 5 7 5 (by omega)
  have e_5_7_6 := fld_ne (n + 2 ^ 31) 5 7 6 (by omega)
  have e_5_7_7 := fld_ne (n + 2 ^ 31) 5 7 7 (by omega)
  have e_5_7_8 := fld_ne (n + 2 ^ 31) 5 7 8 (by omega)
  have e_5_7_9 := fld_ne (n + 2 ^ 31) 5 7 9 (by omega)
  have e_5_7_10 := fld_ne (n + 2 ^ 31) 5 7 10 (by omega)
  have e_5_7_11 := fld_ne (n + 2 ^ 31) 5 7 11 (by omega)
  have e_5_7_12 := fld_ne (n + 2 ^ 31) 5 7 12 (by omega)
  have e_5_7_13 := fld_ne (n + 2 ^ 31) 5 7 13 (by omega)
  have e_9_3 := fld_of (n + 2 ^ 31) 9 3 2 (by omega)
  have f_d := bv_of d (n + 2 ^ 31) 19 (by omega)
  have f_a := bv_of a (n + 2 ^ 31) 12 (by omega)
  have f_j := bv_of j (n + 2 ^ 31) 5 (by omega)
  have f_g := bv_of g (n + 2 ^ 31) 2 (by omega)
  have f_m := bv_of m (n + 2 ^ 31) 0 (by omega)
  have hs : decodeK .a (n + 2 ^ 31) (BitVec.toNat (0 : BitVec 16)) = .inl (.lane (.cvtPls d a j g m)) := by
    have hp : shapeK .a (n + 2 ^ 31) (BitVec.toNat (0 : BitVec 16)) = some (.lane (.cvtPls d a j g m)) := by
      simp only [shapeK, shapeKA, e_op, e_5_7_0, e_5_7_1, e_5_7_2, e_5_7_3, e_5_7_4, e_5_7_5, e_5_7_6, e_5_7_7, e_5_7_8, e_5_7_9, e_5_7_10, e_5_7_11, e_5_7_12, e_5_7_13, e_9_3, f_d, f_a, f_j, f_g, f_m]
      simp
    simp only [decodeK, e_op, KClass.opcodes, hp]
    simp [KOp.wf, w]
  have h := kernel_alone .a 0 n _ (by omega) hs (Or.inl rfl)
  rw [e] at h
  exact h

theorem cvtPln (d : BitVec 7) (a : BitVec 7) (j : BitVec 4) (g : BitVec 3) (m : BitVec 2) : Statement (.cvtPln d a j g m) := fun w _ => by
  obtain ⟨n, e⟩ : ∃ n, n = encodeWord (.cvtPln d a j g m) := ⟨_, rfl⟩
  have h_d := d.isLt
  have h_a := a.isLt
  have h_j := j.isLt
  have h_g := g.isLt
  have h_m := m.isLt
  have e' : n = 1543505408 + d.toNat * 524288 + a.toNat * 4096 + j.toNat * 32 + g.toNat * 4 + m.toNat := e
  have e_op := fld_of (n + 2 ^ 31) 26 5 23 (by omega)
  have e_5_7_0 := fld_ne (n + 2 ^ 31) 5 7 0 (by omega)
  have e_5_7_1 := fld_ne (n + 2 ^ 31) 5 7 1 (by omega)
  have e_5_7_2 := fld_ne (n + 2 ^ 31) 5 7 2 (by omega)
  have e_5_7_3 := fld_ne (n + 2 ^ 31) 5 7 3 (by omega)
  have e_5_7_4 := fld_ne (n + 2 ^ 31) 5 7 4 (by omega)
  have e_5_7_5 := fld_ne (n + 2 ^ 31) 5 7 5 (by omega)
  have e_5_7_6 := fld_ne (n + 2 ^ 31) 5 7 6 (by omega)
  have e_5_7_7 := fld_ne (n + 2 ^ 31) 5 7 7 (by omega)
  have e_5_7_8 := fld_ne (n + 2 ^ 31) 5 7 8 (by omega)
  have e_5_7_9 := fld_ne (n + 2 ^ 31) 5 7 9 (by omega)
  have e_5_7_10 := fld_ne (n + 2 ^ 31) 5 7 10 (by omega)
  have e_5_7_11 := fld_ne (n + 2 ^ 31) 5 7 11 (by omega)
  have e_5_7_12 := fld_ne (n + 2 ^ 31) 5 7 12 (by omega)
  have e_5_7_13 := fld_ne (n + 2 ^ 31) 5 7 13 (by omega)
  have e_9_3 := fld_of (n + 2 ^ 31) 9 3 3 (by omega)
  have f_d := bv_of d (n + 2 ^ 31) 19 (by omega)
  have f_a := bv_of a (n + 2 ^ 31) 12 (by omega)
  have f_j := bv_of j (n + 2 ^ 31) 5 (by omega)
  have f_g := bv_of g (n + 2 ^ 31) 2 (by omega)
  have f_m := bv_of m (n + 2 ^ 31) 0 (by omega)
  have hs : decodeK .a (n + 2 ^ 31) (BitVec.toNat (0 : BitVec 16)) = .inl (.lane (.cvtPln d a j g m)) := by
    have hp : shapeK .a (n + 2 ^ 31) (BitVec.toNat (0 : BitVec 16)) = some (.lane (.cvtPln d a j g m)) := by
      simp only [shapeK, shapeKA, e_op, e_5_7_0, e_5_7_1, e_5_7_2, e_5_7_3, e_5_7_4, e_5_7_5, e_5_7_6, e_5_7_7, e_5_7_8, e_5_7_9, e_5_7_10, e_5_7_11, e_5_7_12, e_5_7_13, e_9_3, f_d, f_a, f_j, f_g, f_m]
      simp
    simp only [decodeK, e_op, KClass.opcodes, hp]
    simp [KOp.wf, w]
  have h := kernel_alone .a 0 n _ (by omega) hs (Or.inl rfl)
  rw [e] at h
  exact h

theorem twosum (d : BitVec 7) (a : BitVec 7) (b : BitVec 7) (g : BitVec 3) : Statement (.twosum d a b g) := fun w _ => by
  obtain ⟨n, e⟩ : ∃ n, n = encodeWord (.twosum d a b g) := ⟨_, rfl⟩
  have h_d := d.isLt
  have h_a := a.isLt
  have h_b := b.isLt
  have h_g := g.isLt
  have e' : n = 1610612736 + d.toNat * 524288 + a.toNat * 4096 + b.toNat * 32 + g.toNat * 4 := e
  have e_op := fld_of (n + 2 ^ 31) 26 5 24 (by omega)
  have e_0_2 := fld_of (n + 2 ^ 31) 0 2 0 (by omega)
  have f_d := bv_of d (n + 2 ^ 31) 19 (by omega)
  have f_a := bv_of a (n + 2 ^ 31) 12 (by omega)
  have f_b := bv_of b (n + 2 ^ 31) 5 (by omega)
  have f_g := bv_of g (n + 2 ^ 31) 2 (by omega)
  have hs : decodeK .a (n + 2 ^ 31) (BitVec.toNat (0 : BitVec 16)) = .inl (.lane (.twosum d a b g)) := by
    have hp : shapeK .a (n + 2 ^ 31) (BitVec.toNat (0 : BitVec 16)) = some (.lane (.twosum d a b g)) := by
      simp only [shapeK, shapeKA, e_op, e_0_2, f_d, f_a, f_b, f_g]
      simp
    simp only [decodeK, e_op, KClass.opcodes, hp]
    simp [KOp.wf, w]
  have h := kernel_alone .a 0 n _ (by omega) hs (Or.inl rfl)
  rw [e] at h
  exact h

theorem ftwosum (d : BitVec 7) (a : BitVec 7) (b : BitVec 7) (g : BitVec 3) : Statement (.ftwosum d a b g) := fun w _ => by
  obtain ⟨n, e⟩ : ∃ n, n = encodeWord (.ftwosum d a b g) := ⟨_, rfl⟩
  have h_d := d.isLt
  have h_a := a.isLt
  have h_b := b.isLt
  have h_g := g.isLt
  have e' : n = 1677721600 + d.toNat * 524288 + a.toNat * 4096 + b.toNat * 32 + g.toNat * 4 := e
  have e_op := fld_of (n + 2 ^ 31) 26 5 25 (by omega)
  have e_0_2 := fld_of (n + 2 ^ 31) 0 2 0 (by omega)
  have f_d := bv_of d (n + 2 ^ 31) 19 (by omega)
  have f_a := bv_of a (n + 2 ^ 31) 12 (by omega)
  have f_b := bv_of b (n + 2 ^ 31) 5 (by omega)
  have f_g := bv_of g (n + 2 ^ 31) 2 (by omega)
  have hs : decodeK .a (n + 2 ^ 31) (BitVec.toNat (0 : BitVec 16)) = .inl (.lane (.ftwosum d a b g)) := by
    have hp : shapeK .a (n + 2 ^ 31) (BitVec.toNat (0 : BitVec 16)) = some (.lane (.ftwosum d a b g)) := by
      simp only [shapeK, shapeKA, e_op, e_0_2, f_d, f_a, f_b, f_g]
      simp
    simp only [decodeK, e_op, KClass.opcodes, hp]
    simp [KOp.wf, w]
  have h := kernel_alone .a 0 n _ (by omega) hs (Or.inl rfl)
  rw [e] at h
  exact h

theorem dwadd (d : BitVec 7) (a : BitVec 7) (b : BitVec 7) (g : BitVec 3) : Statement (.dwadd d a b g) := fun w _ => by
  obtain ⟨n, e⟩ : ∃ n, n = encodeWord (.dwadd d a b g) := ⟨_, rfl⟩
  have h_d := d.isLt
  have h_a := a.isLt
  have h_b := b.isLt
  have h_g := g.isLt
  have e' : n = 1744830464 + d.toNat * 524288 + a.toNat * 4096 + b.toNat * 32 + g.toNat * 4 := e
  have e_op := fld_of (n + 2 ^ 31) 26 5 26 (by omega)
  have e_0_2 := fld_of (n + 2 ^ 31) 0 2 0 (by omega)
  have f_d := bv_of d (n + 2 ^ 31) 19 (by omega)
  have f_a := bv_of a (n + 2 ^ 31) 12 (by omega)
  have f_b := bv_of b (n + 2 ^ 31) 5 (by omega)
  have f_g := bv_of g (n + 2 ^ 31) 2 (by omega)
  have hs : decodeK .a (n + 2 ^ 31) (BitVec.toNat (0 : BitVec 16)) = .inl (.lane (.dwadd d a b g)) := by
    have hp : shapeK .a (n + 2 ^ 31) (BitVec.toNat (0 : BitVec 16)) = some (.lane (.dwadd d a b g)) := by
      simp only [shapeK, shapeKA, e_op, e_0_2, f_d, f_a, f_b, f_g]
      simp
    simp only [decodeK, e_op, KClass.opcodes, hp]
    simp [KOp.wf, w]
  have h := kernel_alone .a 0 n _ (by omega) hs (Or.inl rfl)
  rw [e] at h
  exact h

theorem dwnorm (d : BitVec 7) (a : BitVec 7) (g : BitVec 3) : Statement (.dwnorm d a g) := fun w _ => by
  obtain ⟨n, e⟩ : ∃ n, n = encodeWord (.dwnorm d a g) := ⟨_, rfl⟩
  have h_d := d.isLt
  have h_a := a.isLt
  have h_g := g.isLt
  have e' : n = 1811939328 + d.toNat * 524288 + a.toNat * 4096 + g.toNat * 4 := e
  have e_op := fld_of (n + 2 ^ 31) 26 5 27 (by omega)
  have e_0_2 := fld_of (n + 2 ^ 31) 0 2 0 (by omega)
  have e_5_7 := fld_of (n + 2 ^ 31) 5 7 0 (by omega)
  have f_d := bv_of d (n + 2 ^ 31) 19 (by omega)
  have f_a := bv_of a (n + 2 ^ 31) 12 (by omega)
  have f_g := bv_of g (n + 2 ^ 31) 2 (by omega)
  have hs : decodeK .a (n + 2 ^ 31) (BitVec.toNat (0 : BitVec 16)) = .inl (.lane (.dwnorm d a g)) := by
    have hp : shapeK .a (n + 2 ^ 31) (BitVec.toNat (0 : BitVec 16)) = some (.lane (.dwnorm d a g)) := by
      simp only [shapeK, shapeKA, e_op, e_0_2, e_5_7, f_d, f_a, f_g]
      simp
    simp only [decodeK, e_op, KClass.opcodes, hp]
    simp [KOp.wf, w]
  have h := kernel_alone .a 0 n _ (by omega) hs (Or.inl rfl)
  rw [e] at h
  exact h

theorem packF16 (d : BitVec 7) (a : BitVec 7) (b : BitVec 7) (g : BitVec 3) : Statement (.packF16 d a b g) := fun w _ => by
  obtain ⟨n, e⟩ : ∃ n, n = encodeWord (.packF16 d a b g) := ⟨_, rfl⟩
  have h_d := d.isLt
  have h_a := a.isLt
  have h_b := b.isLt
  have h_g := g.isLt
  have e' : n = 1879048192 + d.toNat * 524288 + a.toNat * 4096 + b.toNat * 32 + g.toNat * 4 := e
  have e_op := fld_of (n + 2 ^ 31) 26 5 28 (by omega)
  have e_0_2 := fld_of (n + 2 ^ 31) 0 2 0 (by omega)
  have f_d := bv_of d (n + 2 ^ 31) 19 (by omega)
  have f_a := bv_of a (n + 2 ^ 31) 12 (by omega)
  have f_b := bv_of b (n + 2 ^ 31) 5 (by omega)
  have f_g := bv_of g (n + 2 ^ 31) 2 (by omega)
  have hs : decodeK .a (n + 2 ^ 31) (BitVec.toNat (0 : BitVec 16)) = .inl (.lane (.packF16 d a b g)) := by
    have hp : shapeK .a (n + 2 ^ 31) (BitVec.toNat (0 : BitVec 16)) = some (.lane (.packF16 d a b g)) := by
      simp only [shapeK, shapeKA, e_op, e_0_2, f_d, f_a, f_b, f_g]
      simp
    simp only [decodeK, e_op, KClass.opcodes, hp]
    simp [KOp.wf, w]
  have h := kernel_alone .a 0 n _ (by omega) hs (Or.inl rfl)
  rw [e] at h
  exact h

theorem packBf16 (d : BitVec 7) (a : BitVec 7) (b : BitVec 7) (g : BitVec 3) : Statement (.packBf16 d a b g) := fun w _ => by
  obtain ⟨n, e⟩ : ∃ n, n = encodeWord (.packBf16 d a b g) := ⟨_, rfl⟩
  have h_d := d.isLt
  have h_a := a.isLt
  have h_b := b.isLt
  have h_g := g.isLt
  have e' : n = 1879048193 + d.toNat * 524288 + a.toNat * 4096 + b.toNat * 32 + g.toNat * 4 := e
  have e_op := fld_of (n + 2 ^ 31) 26 5 28 (by omega)
  have e_0_2 := fld_of (n + 2 ^ 31) 0 2 1 (by omega)
  have f_d := bv_of d (n + 2 ^ 31) 19 (by omega)
  have f_a := bv_of a (n + 2 ^ 31) 12 (by omega)
  have f_b := bv_of b (n + 2 ^ 31) 5 (by omega)
  have f_g := bv_of g (n + 2 ^ 31) 2 (by omega)
  have hs : decodeK .a (n + 2 ^ 31) (BitVec.toNat (0 : BitVec 16)) = .inl (.lane (.packBf16 d a b g)) := by
    have hp : shapeK .a (n + 2 ^ 31) (BitVec.toNat (0 : BitVec 16)) = some (.lane (.packBf16 d a b g)) := by
      simp only [shapeK, shapeKA, e_op, e_0_2, f_d, f_a, f_b, f_g]
      simp
    simp only [decodeK, e_op, KClass.opcodes, hp]
    simp [KOp.wf, w]
  have h := kernel_alone .a 0 n _ (by omega) hs (Or.inl rfl)
  rw [e] at h
  exact h

theorem packLo (d : BitVec 7) (a : BitVec 7) (b : BitVec 7) (g : BitVec 3) : Statement (.packLo d a b g) := fun w _ => by
  obtain ⟨n, e⟩ : ∃ n, n = encodeWord (.packLo d a b g) := ⟨_, rfl⟩
  have h_d := d.isLt
  have h_a := a.isLt
  have h_b := b.isLt
  have h_g := g.isLt
  have e' : n = 1879048194 + d.toNat * 524288 + a.toNat * 4096 + b.toNat * 32 + g.toNat * 4 := e
  have e_op := fld_of (n + 2 ^ 31) 26 5 28 (by omega)
  have e_0_2 := fld_of (n + 2 ^ 31) 0 2 2 (by omega)
  have f_d := bv_of d (n + 2 ^ 31) 19 (by omega)
  have f_a := bv_of a (n + 2 ^ 31) 12 (by omega)
  have f_b := bv_of b (n + 2 ^ 31) 5 (by omega)
  have f_g := bv_of g (n + 2 ^ 31) 2 (by omega)
  have hs : decodeK .a (n + 2 ^ 31) (BitVec.toNat (0 : BitVec 16)) = .inl (.lane (.packLo d a b g)) := by
    have hp : shapeK .a (n + 2 ^ 31) (BitVec.toNat (0 : BitVec 16)) = some (.lane (.packLo d a b g)) := by
      simp only [shapeK, shapeKA, e_op, e_0_2, f_d, f_a, f_b, f_g]
      simp
    simp only [decodeK, e_op, KClass.opcodes, hp]
    simp [KOp.wf, w]
  have h := kernel_alone .a 0 n _ (by omega) hs (Or.inl rfl)
  rw [e] at h
  exact h

theorem packHi (d : BitVec 7) (a : BitVec 7) (b : BitVec 7) (g : BitVec 3) : Statement (.packHi d a b g) := fun w _ => by
  obtain ⟨n, e⟩ : ∃ n, n = encodeWord (.packHi d a b g) := ⟨_, rfl⟩
  have h_d := d.isLt
  have h_a := a.isLt
  have h_b := b.isLt
  have h_g := g.isLt
  have e' : n = 1879048195 + d.toNat * 524288 + a.toNat * 4096 + b.toNat * 32 + g.toNat * 4 := e
  have e_op := fld_of (n + 2 ^ 31) 26 5 28 (by omega)
  have e_0_2 := fld_of (n + 2 ^ 31) 0 2 3 (by omega)
  have f_d := bv_of d (n + 2 ^ 31) 19 (by omega)
  have f_a := bv_of a (n + 2 ^ 31) 12 (by omega)
  have f_b := bv_of b (n + 2 ^ 31) 5 (by omega)
  have f_g := bv_of g (n + 2 ^ 31) 2 (by omega)
  have hs : decodeK .a (n + 2 ^ 31) (BitVec.toNat (0 : BitVec 16)) = .inl (.lane (.packHi d a b g)) := by
    have hp : shapeK .a (n + 2 ^ 31) (BitVec.toNat (0 : BitVec 16)) = some (.lane (.packHi d a b g)) := by
      simp only [shapeK, shapeKA, e_op, e_0_2, f_d, f_a, f_b, f_g]
      simp
    simp only [decodeK, e_op, KClass.opcodes, hp]
    simp [KOp.wf, w]
  have h := kernel_alone .a 0 n _ (by omega) hs (Or.inl rfl)
  rw [e] at h
  exact h

theorem scalb (d : BitVec 7) (a : BitVec 7) (b : BitVec 7) (g : BitVec 3) (m : BitVec 2) : Statement (.scalb d a b g m) := fun w _ => by
  obtain ⟨n, e⟩ : ∃ n, n = encodeWord (.scalb d a b g m) := ⟨_, rfl⟩
  have h_d := d.isLt
  have h_a := a.isLt
  have h_b := b.isLt
  have h_g := g.isLt
  have h_m := m.isLt
  have e' : n = 1946157056 + d.toNat * 524288 + a.toNat * 4096 + b.toNat * 32 + g.toNat * 4 + m.toNat := e
  have e_op := fld_of (n + 2 ^ 31) 26 5 29 (by omega)
  have f_d := bv_of d (n + 2 ^ 31) 19 (by omega)
  have f_a := bv_of a (n + 2 ^ 31) 12 (by omega)
  have f_b := bv_of b (n + 2 ^ 31) 5 (by omega)
  have f_g := bv_of g (n + 2 ^ 31) 2 (by omega)
  have f_m := bv_of m (n + 2 ^ 31) 0 (by omega)
  have hs : decodeK .a (n + 2 ^ 31) (BitVec.toNat (0 : BitVec 16)) = .inl (.lane (.scalb d a b g m)) := by
    have hp : shapeK .a (n + 2 ^ 31) (BitVec.toNat (0 : BitVec 16)) = some (.lane (.scalb d a b g m)) := by
      simp only [shapeK, shapeKA, e_op, f_d, f_a, f_b, f_g, f_m]
      rfl
    simp only [decodeK, e_op, KClass.opcodes, hp]
    simp [KOp.wf, w]
  have h := kernel_alone .a 0 n _ (by omega) hs (Or.inl rfl)
  rw [e] at h
  exact h

theorem frnd (d : BitVec 7) (a : BitVec 7) (g : BitVec 3) (m : BitVec 2) : Statement (.frnd d a g m) := fun w _ => by
  obtain ⟨n, e⟩ : ∃ n, n = encodeWord (.frnd d a g m) := ⟨_, rfl⟩
  have h_d := d.isLt
  have h_a := a.isLt
  have h_g := g.isLt
  have h_m := m.isLt
  have e' : n = 2013265920 + d.toNat * 524288 + a.toNat * 4096 + g.toNat * 4 + m.toNat := e
  have e_op := fld_of (n + 2 ^ 31) 26 5 30 (by omega)
  have e_5_7 := fld_of (n + 2 ^ 31) 5 7 0 (by omega)
  have f_d := bv_of d (n + 2 ^ 31) 19 (by omega)
  have f_a := bv_of a (n + 2 ^ 31) 12 (by omega)
  have f_g := bv_of g (n + 2 ^ 31) 2 (by omega)
  have f_m := bv_of m (n + 2 ^ 31) 0 (by omega)
  have hs : decodeK .a (n + 2 ^ 31) (BitVec.toNat (0 : BitVec 16)) = .inl (.lane (.frnd d a g m)) := by
    have hp : shapeK .a (n + 2 ^ 31) (BitVec.toNat (0 : BitVec 16)) = some (.lane (.frnd d a g m)) := by
      simp only [shapeK, shapeKA, e_op, e_5_7, f_d, f_a, f_g, f_m]
      simp
    simp only [decodeK, e_op, KClass.opcodes, hp]
    simp [KOp.wf, w]
  have h := kernel_alone .a 0 n _ (by omega) hs (Or.inl rfl)
  rw [e] at h
  exact h

theorem fma (d : BitVec 7) (a : BitVec 7) (b : BitVec 7) (g : BitVec 3) (m : BitVec 2) : Statement (.fma d a b g m) := fun w _ => by
  obtain ⟨n, e⟩ : ∃ n, n = encodeWord (.fma d a b g m) := ⟨_, rfl⟩
  have h_d := d.isLt
  have h_a := a.isLt
  have h_b := b.isLt
  have h_g := g.isLt
  have h_m := m.isLt
  have e' : n = 0 + d.toNat * 524288 + a.toNat * 4096 + b.toNat * 32 + g.toNat * 4 + m.toNat := e
  have e_op := fld_of (n + 2 ^ 31) 26 5 0 (by omega)
  have f_d := bv_of d (n + 2 ^ 31) 19 (by omega)
  have f_a := bv_of a (n + 2 ^ 31) 12 (by omega)
  have f_b := bv_of b (n + 2 ^ 31) 5 (by omega)
  have f_g := bv_of g (n + 2 ^ 31) 2 (by omega)
  have f_m := bv_of m (n + 2 ^ 31) 0 (by omega)
  have hs : decodeK .m (n + 2 ^ 31) (BitVec.toNat (0 : BitVec 16)) = .inl (.lane (.fma d a b g m)) := by
    have hp : shapeK .m (n + 2 ^ 31) (BitVec.toNat (0 : BitVec 16)) = some (.lane (.fma d a b g m)) := by
      simp only [shapeK, shapeKM, e_op, f_d, f_a, f_b, f_g, f_m]
      rfl
    simp only [decodeK, e_op, KClass.opcodes, hp]
    simp [KOp.wf, w]
  have h := kernel_alone .m 0 n _ (by omega) hs (Or.inl rfl)
  rw [e] at h
  exact h

theorem fms (d : BitVec 7) (a : BitVec 7) (b : BitVec 7) (g : BitVec 3) (m : BitVec 2) : Statement (.fms d a b g m) := fun w _ => by
  obtain ⟨n, e⟩ : ∃ n, n = encodeWord (.fms d a b g m) := ⟨_, rfl⟩
  have h_d := d.isLt
  have h_a := a.isLt
  have h_b := b.isLt
  have h_g := g.isLt
  have h_m := m.isLt
  have e' : n = 67108864 + d.toNat * 524288 + a.toNat * 4096 + b.toNat * 32 + g.toNat * 4 + m.toNat := e
  have e_op := fld_of (n + 2 ^ 31) 26 5 1 (by omega)
  have f_d := bv_of d (n + 2 ^ 31) 19 (by omega)
  have f_a := bv_of a (n + 2 ^ 31) 12 (by omega)
  have f_b := bv_of b (n + 2 ^ 31) 5 (by omega)
  have f_g := bv_of g (n + 2 ^ 31) 2 (by omega)
  have f_m := bv_of m (n + 2 ^ 31) 0 (by omega)
  have hs : decodeK .m (n + 2 ^ 31) (BitVec.toNat (0 : BitVec 16)) = .inl (.lane (.fms d a b g m)) := by
    have hp : shapeK .m (n + 2 ^ 31) (BitVec.toNat (0 : BitVec 16)) = some (.lane (.fms d a b g m)) := by
      simp only [shapeK, shapeKM, e_op, f_d, f_a, f_b, f_g, f_m]
      rfl
    simp only [decodeK, e_op, KClass.opcodes, hp]
    simp [KOp.wf, w]
  have h := kernel_alone .m 0 n _ (by omega) hs (Or.inl rfl)
  rw [e] at h
  exact h

theorem fmul (d : BitVec 7) (a : BitVec 7) (b : BitVec 7) (g : BitVec 3) (m : BitVec 2) : Statement (.fmul d a b g m) := fun w _ => by
  obtain ⟨n, e⟩ : ∃ n, n = encodeWord (.fmul d a b g m) := ⟨_, rfl⟩
  have h_d := d.isLt
  have h_a := a.isLt
  have h_b := b.isLt
  have h_g := g.isLt
  have h_m := m.isLt
  have e' : n = 134217728 + d.toNat * 524288 + a.toNat * 4096 + b.toNat * 32 + g.toNat * 4 + m.toNat := e
  have e_op := fld_of (n + 2 ^ 31) 26 5 2 (by omega)
  have f_d := bv_of d (n + 2 ^ 31) 19 (by omega)
  have f_a := bv_of a (n + 2 ^ 31) 12 (by omega)
  have f_b := bv_of b (n + 2 ^ 31) 5 (by omega)
  have f_g := bv_of g (n + 2 ^ 31) 2 (by omega)
  have f_m := bv_of m (n + 2 ^ 31) 0 (by omega)
  have hs : decodeK .m (n + 2 ^ 31) (BitVec.toNat (0 : BitVec 16)) = .inl (.lane (.fmul d a b g m)) := by
    have hp : shapeK .m (n + 2 ^ 31) (BitVec.toNat (0 : BitVec 16)) = some (.lane (.fmul d a b g m)) := by
      simp only [shapeK, shapeKM, e_op, f_d, f_a, f_b, f_g, f_m]
      rfl
    simp only [decodeK, e_op, KClass.opcodes, hp]
    simp [KOp.wf, w]
  have h := kernel_alone .m 0 n _ (by omega) hs (Or.inl rfl)
  rw [e] at h
  exact h

theorem kMul (d : BitVec 7) (a : BitVec 7) (b : BitVec 7) (g : BitVec 3) (m : BitVec 1) : Statement (.kMul d a b g m) := fun w _ => by
  obtain ⟨n, e⟩ : ∃ n, n = encodeWord (.kMul d a b g m) := ⟨_, rfl⟩
  have h_d := d.isLt
  have h_a := a.isLt
  have h_b := b.isLt
  have h_g := g.isLt
  have h_m := m.isLt
  have e' : n = 201326592 + d.toNat * 524288 + a.toNat * 4096 + b.toNat * 32 + g.toNat * 4 + m.toNat * 2 := e
  have e_op := fld_of (n + 2 ^ 31) 26 5 3 (by omega)
  have e_0_1 := fld_of (n + 2 ^ 31) 0 1 0 (by omega)
  have f_d := bv_of d (n + 2 ^ 31) 19 (by omega)
  have f_a := bv_of a (n + 2 ^ 31) 12 (by omega)
  have f_b := bv_of b (n + 2 ^ 31) 5 (by omega)
  have f_g := bv_of g (n + 2 ^ 31) 2 (by omega)
  have f_m := bv_of m (n + 2 ^ 31) 1 (by omega)
  have hs : decodeK .m (n + 2 ^ 31) (BitVec.toNat (0 : BitVec 16)) = .inl (.lane (.kMul d a b g m)) := by
    have hp : shapeK .m (n + 2 ^ 31) (BitVec.toNat (0 : BitVec 16)) = some (.lane (.kMul d a b g m)) := by
      simp only [shapeK, shapeKM, e_op, e_0_1, f_d, f_a, f_b, f_g, f_m]
      simp
    simp only [decodeK, e_op, KClass.opcodes, hp]
    simp [KOp.wf, w]
  have h := kernel_alone .m 0 n _ (by omega) hs (Or.inl rfl)
  rw [e] at h
  exact h

theorem mulh (d : BitVec 7) (a : BitVec 7) (b : BitVec 7) (g : BitVec 3) (m : BitVec 2) : Statement (.mulh d a b g m) := fun w _ => by
  obtain ⟨n, e⟩ : ∃ n, n = encodeWord (.mulh d a b g m) := ⟨_, rfl⟩
  have h_d := d.isLt
  have h_a := a.isLt
  have h_b := b.isLt
  have h_g := g.isLt
  have h_m := m.isLt
  have e' : n = 268435456 + d.toNat * 524288 + a.toNat * 4096 + b.toNat * 32 + g.toNat * 4 + m.toNat := e
  have e_op := fld_of (n + 2 ^ 31) 26 5 4 (by omega)
  have f_d := bv_of d (n + 2 ^ 31) 19 (by omega)
  have f_a := bv_of a (n + 2 ^ 31) 12 (by omega)
  have f_b := bv_of b (n + 2 ^ 31) 5 (by omega)
  have f_g := bv_of g (n + 2 ^ 31) 2 (by omega)
  have f_m := bv_of m (n + 2 ^ 31) 0 (by omega)
  have hs : decodeK .m (n + 2 ^ 31) (BitVec.toNat (0 : BitVec 16)) = .inl (.lane (.mulh d a b g m)) := by
    have hp : shapeK .m (n + 2 ^ 31) (BitVec.toNat (0 : BitVec 16)) = some (.lane (.mulh d a b g m)) := by
      simp only [shapeK, shapeKM, e_op, f_d, f_a, f_b, f_g, f_m]
      rfl
    simp only [decodeK, e_op, KClass.opcodes, hp]
    simp [KOp.wf, w]
  have h := kernel_alone .m 0 n _ (by omega) hs (Or.inl rfl)
  rw [e] at h
  exact h

theorem twoprod (d : BitVec 7) (a : BitVec 7) (b : BitVec 7) (g : BitVec 3) : Statement (.twoprod d a b g) := fun w _ => by
  obtain ⟨n, e⟩ : ∃ n, n = encodeWord (.twoprod d a b g) := ⟨_, rfl⟩
  have h_d := d.isLt
  have h_a := a.isLt
  have h_b := b.isLt
  have h_g := g.isLt
  have e' : n = 335544320 + d.toNat * 524288 + a.toNat * 4096 + b.toNat * 32 + g.toNat * 4 := e
  have e_op := fld_of (n + 2 ^ 31) 26 5 5 (by omega)
  have e_0_2 := fld_of (n + 2 ^ 31) 0 2 0 (by omega)
  have f_d := bv_of d (n + 2 ^ 31) 19 (by omega)
  have f_a := bv_of a (n + 2 ^ 31) 12 (by omega)
  have f_b := bv_of b (n + 2 ^ 31) 5 (by omega)
  have f_g := bv_of g (n + 2 ^ 31) 2 (by omega)
  have hs : decodeK .m (n + 2 ^ 31) (BitVec.toNat (0 : BitVec 16)) = .inl (.lane (.twoprod d a b g)) := by
    have hp : shapeK .m (n + 2 ^ 31) (BitVec.toNat (0 : BitVec 16)) = some (.lane (.twoprod d a b g)) := by
      simp only [shapeK, shapeKM, e_op, e_0_2, f_d, f_a, f_b, f_g]
      simp
    simp only [decodeK, e_op, KClass.opcodes, hp]
    simp [KOp.wf, w]
  have h := kernel_alone .m 0 n _ (by omega) hs (Or.inl rfl)
  rw [e] at h
  exact h

theorem dwmul (d : BitVec 7) (a : BitVec 7) (b : BitVec 7) (g : BitVec 3) : Statement (.dwmul d a b g) := fun w _ => by
  obtain ⟨n, e⟩ : ∃ n, n = encodeWord (.dwmul d a b g) := ⟨_, rfl⟩
  have h_d := d.isLt
  have h_a := a.isLt
  have h_b := b.isLt
  have h_g := g.isLt
  have e' : n = 402653184 + d.toNat * 524288 + a.toNat * 4096 + b.toNat * 32 + g.toNat * 4 := e
  have e_op := fld_of (n + 2 ^ 31) 26 5 6 (by omega)
  have e_0_2 := fld_of (n + 2 ^ 31) 0 2 0 (by omega)
  have f_d := bv_of d (n + 2 ^ 31) 19 (by omega)
  have f_a := bv_of a (n + 2 ^ 31) 12 (by omega)
  have f_b := bv_of b (n + 2 ^ 31) 5 (by omega)
  have f_g := bv_of g (n + 2 ^ 31) 2 (by omega)
  have hs : decodeK .m (n + 2 ^ 31) (BitVec.toNat (0 : BitVec 16)) = .inl (.lane (.dwmul d a b g)) := by
    have hp : shapeK .m (n + 2 ^ 31) (BitVec.toNat (0 : BitVec 16)) = some (.lane (.dwmul d a b g)) := by
      simp only [shapeK, shapeKM, e_op, e_0_2, f_d, f_a, f_b, f_g]
      simp
    simp only [decodeK, e_op, KClass.opcodes, hp]
    simp [KOp.wf, w]
  have h := kernel_alone .m 0 n _ (by omega) hs (Or.inl rfl)
  rw [e] at h
  exact h

theorem dwfma (d : BitVec 7) (a : BitVec 7) (b : BitVec 7) (g : BitVec 3) : Statement (.dwfma d a b g) := fun w _ => by
  obtain ⟨n, e⟩ : ∃ n, n = encodeWord (.dwfma d a b g) := ⟨_, rfl⟩
  have h_d := d.isLt
  have h_a := a.isLt
  have h_b := b.isLt
  have h_g := g.isLt
  have e' : n = 469762048 + d.toNat * 524288 + a.toNat * 4096 + b.toNat * 32 + g.toNat * 4 := e
  have e_op := fld_of (n + 2 ^ 31) 26 5 7 (by omega)
  have e_0_2 := fld_of (n + 2 ^ 31) 0 2 0 (by omega)
  have f_d := bv_of d (n + 2 ^ 31) 19 (by omega)
  have f_a := bv_of a (n + 2 ^ 31) 12 (by omega)
  have f_b := bv_of b (n + 2 ^ 31) 5 (by omega)
  have f_g := bv_of g (n + 2 ^ 31) 2 (by omega)
  have hs : decodeK .m (n + 2 ^ 31) (BitVec.toNat (0 : BitVec 16)) = .inl (.lane (.dwfma d a b g)) := by
    have hp : shapeK .m (n + 2 ^ 31) (BitVec.toNat (0 : BitVec 16)) = some (.lane (.dwfma d a b g)) := by
      simp only [shapeK, shapeKM, e_op, e_0_2, f_d, f_a, f_b, f_g]
      simp
    simp only [decodeK, e_op, KClass.opcodes, hp]
    simp [KOp.wf, w]
  have h := kernel_alone .m 0 n _ (by omega) hs (Or.inl rfl)
  rw [e] at h
  exact h

theorem mad16 (d : BitVec 7) (a : BitVec 7) (b : BitVec 7) (g : BitVec 3) (m : BitVec 2) : Statement (.mad16 d a b g m) := fun w _ => by
  obtain ⟨n, e⟩ : ∃ n, n = encodeWord (.mad16 d a b g m) := ⟨_, rfl⟩
  have h_d := d.isLt
  have h_a := a.isLt
  have h_b := b.isLt
  have h_g := g.isLt
  have h_m := m.isLt
  have e' : n = 536870912 + d.toNat * 524288 + a.toNat * 4096 + b.toNat * 32 + g.toNat * 4 + m.toNat := e
  have e_op := fld_of (n + 2 ^ 31) 26 5 8 (by omega)
  have f_d := bv_of d (n + 2 ^ 31) 19 (by omega)
  have f_a := bv_of a (n + 2 ^ 31) 12 (by omega)
  have f_b := bv_of b (n + 2 ^ 31) 5 (by omega)
  have f_g := bv_of g (n + 2 ^ 31) 2 (by omega)
  have f_m := bv_of m (n + 2 ^ 31) 0 (by omega)
  have hs : decodeK .m (n + 2 ^ 31) (BitVec.toNat (0 : BitVec 16)) = .inl (.lane (.mad16 d a b g m)) := by
    have hp : shapeK .m (n + 2 ^ 31) (BitVec.toNat (0 : BitVec 16)) = some (.lane (.mad16 d a b g m)) := by
      simp only [shapeK, shapeKM, e_op, f_d, f_a, f_b, f_g, f_m]
      rfl
    simp only [decodeK, e_op, KClass.opcodes, hp]
    simp [KOp.wf, w]
  have h := kernel_alone .m 0 n _ (by omega) hs (Or.inl rfl)
  rw [e] at h
  exact h

theorem madb16 (d : BitVec 7) (a : BitVec 7) (b : BitVec 7) (g : BitVec 3) (m : BitVec 2) : Statement (.madb16 d a b g m) := fun w _ => by
  obtain ⟨n, e⟩ : ∃ n, n = encodeWord (.madb16 d a b g m) := ⟨_, rfl⟩
  have h_d := d.isLt
  have h_a := a.isLt
  have h_b := b.isLt
  have h_g := g.isLt
  have h_m := m.isLt
  have e' : n = 603979776 + d.toNat * 524288 + a.toNat * 4096 + b.toNat * 32 + g.toNat * 4 + m.toNat := e
  have e_op := fld_of (n + 2 ^ 31) 26 5 9 (by omega)
  have f_d := bv_of d (n + 2 ^ 31) 19 (by omega)
  have f_a := bv_of a (n + 2 ^ 31) 12 (by omega)
  have f_b := bv_of b (n + 2 ^ 31) 5 (by omega)
  have f_g := bv_of g (n + 2 ^ 31) 2 (by omega)
  have f_m := bv_of m (n + 2 ^ 31) 0 (by omega)
  have hs : decodeK .m (n + 2 ^ 31) (BitVec.toNat (0 : BitVec 16)) = .inl (.lane (.madb16 d a b g m)) := by
    have hp : shapeK .m (n + 2 ^ 31) (BitVec.toNat (0 : BitVec 16)) = some (.lane (.madb16 d a b g m)) := by
      simp only [shapeK, shapeKM, e_op, f_d, f_a, f_b, f_g, f_m]
      rfl
    simp only [decodeK, e_op, KClass.opcodes, hp]
    simp [KOp.wf, w]
  have h := kernel_alone .m 0 n _ (by omega) hs (Or.inl rfl)
  rw [e] at h
  exact h

theorem dot2 (d : BitVec 7) (a : BitVec 7) (b : BitVec 7) (g : BitVec 3) (m : BitVec 2) : Statement (.dot2 d a b g m) := fun w _ => by
  obtain ⟨n, e⟩ : ∃ n, n = encodeWord (.dot2 d a b g m) := ⟨_, rfl⟩
  have h_d := d.isLt
  have h_a := a.isLt
  have h_b := b.isLt
  have h_g := g.isLt
  have h_m := m.isLt
  have e' : n = 671088640 + d.toNat * 524288 + a.toNat * 4096 + b.toNat * 32 + g.toNat * 4 + m.toNat := e
  have e_op := fld_of (n + 2 ^ 31) 26 5 10 (by omega)
  have f_d := bv_of d (n + 2 ^ 31) 19 (by omega)
  have f_a := bv_of a (n + 2 ^ 31) 12 (by omega)
  have f_b := bv_of b (n + 2 ^ 31) 5 (by omega)
  have f_g := bv_of g (n + 2 ^ 31) 2 (by omega)
  have f_m := bv_of m (n + 2 ^ 31) 0 (by omega)
  have hs : decodeK .m (n + 2 ^ 31) (BitVec.toNat (0 : BitVec 16)) = .inl (.lane (.dot2 d a b g m)) := by
    have hp : shapeK .m (n + 2 ^ 31) (BitVec.toNat (0 : BitVec 16)) = some (.lane (.dot2 d a b g m)) := by
      simp only [shapeK, shapeKM, e_op, f_d, f_a, f_b, f_g, f_m]
      rfl
    simp only [decodeK, e_op, KClass.opcodes, hp]
    simp [KOp.wf, w]
  have h := kernel_alone .m 0 n _ (by omega) hs (Or.inl rfl)
  rw [e] at h
  exact h

theorem dot4i8 (d : BitVec 7) (a : BitVec 7) (b : BitVec 7) (g : BitVec 3) (m : BitVec 2) : Statement (.dot4i8 d a b g m) := fun w _ => by
  obtain ⟨n, e⟩ : ∃ n, n = encodeWord (.dot4i8 d a b g m) := ⟨_, rfl⟩
  have h_d := d.isLt
  have h_a := a.isLt
  have h_b := b.isLt
  have h_g := g.isLt
  have h_m := m.isLt
  have e' : n = 738197504 + d.toNat * 524288 + a.toNat * 4096 + b.toNat * 32 + g.toNat * 4 + m.toNat := e
  have e_op := fld_of (n + 2 ^ 31) 26 5 11 (by omega)
  have f_d := bv_of d (n + 2 ^ 31) 19 (by omega)
  have f_a := bv_of a (n + 2 ^ 31) 12 (by omega)
  have f_b := bv_of b (n + 2 ^ 31) 5 (by omega)
  have f_g := bv_of g (n + 2 ^ 31) 2 (by omega)
  have f_m := bv_of m (n + 2 ^ 31) 0 (by omega)
  have hs : decodeK .m (n + 2 ^ 31) (BitVec.toNat (0 : BitVec 16)) = .inl (.lane (.dot4i8 d a b g m)) := by
    have hp : shapeK .m (n + 2 ^ 31) (BitVec.toNat (0 : BitVec 16)) = some (.lane (.dot4i8 d a b g m)) := by
      simp only [shapeK, shapeKM, e_op, f_d, f_a, f_b, f_g, f_m]
      rfl
    simp only [decodeK, e_op, KClass.opcodes, hp]
    simp [KOp.wf, w]
  have h := kernel_alone .m 0 n _ (by omega) hs (Or.inl rfl)
  rw [e] at h
  exact h

theorem rcp (d : BitVec 7) (a : BitVec 7) (g : BitVec 3) (m : BitVec 2) : Statement (.rcp d a g m) := fun w _ => by
  obtain ⟨n, e⟩ : ∃ n, n = encodeWord (.rcp d a g m) := ⟨_, rfl⟩
  have h_d := d.isLt
  have h_a := a.isLt
  have h_g := g.isLt
  have h_m := m.isLt
  have e' : n = 0 + d.toNat * 524288 + a.toNat * 4096 + g.toNat * 4 + m.toNat := e
  have e_op := fld_of (n + 2 ^ 31) 26 5 0 (by omega)
  have e_5_7 := fld_of (n + 2 ^ 31) 5 7 0 (by omega)
  have f_d := bv_of d (n + 2 ^ 31) 19 (by omega)
  have f_a := bv_of a (n + 2 ^ 31) 12 (by omega)
  have f_g := bv_of g (n + 2 ^ 31) 2 (by omega)
  have f_m := bv_of m (n + 2 ^ 31) 0 (by omega)
  have hs : decodeK .f (n + 2 ^ 31) (BitVec.toNat (0 : BitVec 16)) = .inl (.lane (.rcp d a g m)) := by
    have hp : shapeK .f (n + 2 ^ 31) (BitVec.toNat (0 : BitVec 16)) = some (.lane (.rcp d a g m)) := by
      simp only [shapeK, shapeKF, e_op, e_5_7, f_d, f_a, f_g, f_m]
      simp
    simp only [decodeK, e_op, KClass.opcodes, hp]
    simp [KOp.wf, w]
  have h := kernel_alone .f 0 n _ (by omega) hs (Or.inl rfl)
  rw [e] at h
  exact h

theorem rsq (d : BitVec 7) (a : BitVec 7) (g : BitVec 3) (m : BitVec 2) : Statement (.rsq d a g m) := fun w _ => by
  obtain ⟨n, e⟩ : ∃ n, n = encodeWord (.rsq d a g m) := ⟨_, rfl⟩
  have h_d := d.isLt
  have h_a := a.isLt
  have h_g := g.isLt
  have h_m := m.isLt
  have e' : n = 67108864 + d.toNat * 524288 + a.toNat * 4096 + g.toNat * 4 + m.toNat := e
  have e_op := fld_of (n + 2 ^ 31) 26 5 1 (by omega)
  have e_5_7 := fld_of (n + 2 ^ 31) 5 7 0 (by omega)
  have f_d := bv_of d (n + 2 ^ 31) 19 (by omega)
  have f_a := bv_of a (n + 2 ^ 31) 12 (by omega)
  have f_g := bv_of g (n + 2 ^ 31) 2 (by omega)
  have f_m := bv_of m (n + 2 ^ 31) 0 (by omega)
  have hs : decodeK .f (n + 2 ^ 31) (BitVec.toNat (0 : BitVec 16)) = .inl (.lane (.rsq d a g m)) := by
    have hp : shapeK .f (n + 2 ^ 31) (BitVec.toNat (0 : BitVec 16)) = some (.lane (.rsq d a g m)) := by
      simp only [shapeK, shapeKF, e_op, e_5_7, f_d, f_a, f_g, f_m]
      simp
    simp only [decodeK, e_op, KClass.opcodes, hp]
    simp [KOp.wf, w]
  have h := kernel_alone .f 0 n _ (by omega) hs (Or.inl rfl)
  rw [e] at h
  exact h

theorem sqrt (d : BitVec 7) (a : BitVec 7) (g : BitVec 3) (m : BitVec 2) : Statement (.sqrt d a g m) := fun w _ => by
  obtain ⟨n, e⟩ : ∃ n, n = encodeWord (.sqrt d a g m) := ⟨_, rfl⟩
  have h_d := d.isLt
  have h_a := a.isLt
  have h_g := g.isLt
  have h_m := m.isLt
  have e' : n = 134217728 + d.toNat * 524288 + a.toNat * 4096 + g.toNat * 4 + m.toNat := e
  have e_op := fld_of (n + 2 ^ 31) 26 5 2 (by omega)
  have e_5_7 := fld_of (n + 2 ^ 31) 5 7 0 (by omega)
  have f_d := bv_of d (n + 2 ^ 31) 19 (by omega)
  have f_a := bv_of a (n + 2 ^ 31) 12 (by omega)
  have f_g := bv_of g (n + 2 ^ 31) 2 (by omega)
  have f_m := bv_of m (n + 2 ^ 31) 0 (by omega)
  have hs : decodeK .f (n + 2 ^ 31) (BitVec.toNat (0 : BitVec 16)) = .inl (.lane (.sqrt d a g m)) := by
    have hp : shapeK .f (n + 2 ^ 31) (BitVec.toNat (0 : BitVec 16)) = some (.lane (.sqrt d a g m)) := by
      simp only [shapeK, shapeKF, e_op, e_5_7, f_d, f_a, f_g, f_m]
      simp
    simp only [decodeK, e_op, KClass.opcodes, hp]
    simp [KOp.wf, w]
  have h := kernel_alone .f 0 n _ (by omega) hs (Or.inl rfl)
  rw [e] at h
  exact h

theorem div (d : BitVec 7) (a : BitVec 7) (b : BitVec 7) (g : BitVec 3) (m : BitVec 2) : Statement (.div d a b g m) := fun w _ => by
  obtain ⟨n, e⟩ : ∃ n, n = encodeWord (.div d a b g m) := ⟨_, rfl⟩
  have h_d := d.isLt
  have h_a := a.isLt
  have h_b := b.isLt
  have h_g := g.isLt
  have h_m := m.isLt
  have e' : n = 201326592 + d.toNat * 524288 + a.toNat * 4096 + b.toNat * 32 + g.toNat * 4 + m.toNat := e
  have e_op := fld_of (n + 2 ^ 31) 26 5 3 (by omega)
  have f_d := bv_of d (n + 2 ^ 31) 19 (by omega)
  have f_a := bv_of a (n + 2 ^ 31) 12 (by omega)
  have f_b := bv_of b (n + 2 ^ 31) 5 (by omega)
  have f_g := bv_of g (n + 2 ^ 31) 2 (by omega)
  have f_m := bv_of m (n + 2 ^ 31) 0 (by omega)
  have hs : decodeK .f (n + 2 ^ 31) (BitVec.toNat (0 : BitVec 16)) = .inl (.lane (.div d a b g m)) := by
    have hp : shapeK .f (n + 2 ^ 31) (BitVec.toNat (0 : BitVec 16)) = some (.lane (.div d a b g m)) := by
      simp only [shapeK, shapeKF, e_op, f_d, f_a, f_b, f_g, f_m]
      rfl
    simp only [decodeK, e_op, KClass.opcodes, hp]
    simp [KOp.wf, w]
  have h := kernel_alone .f 0 n _ (by omega) hs (Or.inl rfl)
  rw [e] at h
  exact h

theorem exp2 (d : BitVec 7) (a : BitVec 7) (g : BitVec 3) (m : BitVec 2) : Statement (.exp2 d a g m) := fun w _ => by
  obtain ⟨n, e⟩ : ∃ n, n = encodeWord (.exp2 d a g m) := ⟨_, rfl⟩
  have h_d := d.isLt
  have h_a := a.isLt
  have h_g := g.isLt
  have h_m := m.isLt
  have e' : n = 268435456 + d.toNat * 524288 + a.toNat * 4096 + g.toNat * 4 + m.toNat := e
  have e_op := fld_of (n + 2 ^ 31) 26 5 4 (by omega)
  have e_5_7 := fld_of (n + 2 ^ 31) 5 7 0 (by omega)
  have f_d := bv_of d (n + 2 ^ 31) 19 (by omega)
  have f_a := bv_of a (n + 2 ^ 31) 12 (by omega)
  have f_g := bv_of g (n + 2 ^ 31) 2 (by omega)
  have f_m := bv_of m (n + 2 ^ 31) 0 (by omega)
  have hs : decodeK .f (n + 2 ^ 31) (BitVec.toNat (0 : BitVec 16)) = .inl (.lane (.exp2 d a g m)) := by
    have hp : shapeK .f (n + 2 ^ 31) (BitVec.toNat (0 : BitVec 16)) = some (.lane (.exp2 d a g m)) := by
      simp only [shapeK, shapeKF, e_op, e_5_7, f_d, f_a, f_g, f_m]
      simp
    simp only [decodeK, e_op, KClass.opcodes, hp]
    simp [KOp.wf, w]
  have h := kernel_alone .f 0 n _ (by omega) hs (Or.inl rfl)
  rw [e] at h
  exact h

theorem log2 (d : BitVec 7) (a : BitVec 7) (g : BitVec 3) (m : BitVec 2) : Statement (.log2 d a g m) := fun w _ => by
  obtain ⟨n, e⟩ : ∃ n, n = encodeWord (.log2 d a g m) := ⟨_, rfl⟩
  have h_d := d.isLt
  have h_a := a.isLt
  have h_g := g.isLt
  have h_m := m.isLt
  have e' : n = 335544320 + d.toNat * 524288 + a.toNat * 4096 + g.toNat * 4 + m.toNat := e
  have e_op := fld_of (n + 2 ^ 31) 26 5 5 (by omega)
  have e_5_7 := fld_of (n + 2 ^ 31) 5 7 0 (by omega)
  have f_d := bv_of d (n + 2 ^ 31) 19 (by omega)
  have f_a := bv_of a (n + 2 ^ 31) 12 (by omega)
  have f_g := bv_of g (n + 2 ^ 31) 2 (by omega)
  have f_m := bv_of m (n + 2 ^ 31) 0 (by omega)
  have hs : decodeK .f (n + 2 ^ 31) (BitVec.toNat (0 : BitVec 16)) = .inl (.lane (.log2 d a g m)) := by
    have hp : shapeK .f (n + 2 ^ 31) (BitVec.toNat (0 : BitVec 16)) = some (.lane (.log2 d a g m)) := by
      simp only [shapeK, shapeKF, e_op, e_5_7, f_d, f_a, f_g, f_m]
      simp
    simp only [decodeK, e_op, KClass.opcodes, hp]
    simp [KOp.wf, w]
  have h := kernel_alone .f 0 n _ (by omega) hs (Or.inl rfl)
  rw [e] at h
  exact h

theorem sigm (d : BitVec 7) (a : BitVec 7) (g : BitVec 3) (m : BitVec 2) : Statement (.sigm d a g m) := fun w _ => by
  obtain ⟨n, e⟩ : ∃ n, n = encodeWord (.sigm d a g m) := ⟨_, rfl⟩
  have h_d := d.isLt
  have h_a := a.isLt
  have h_g := g.isLt
  have h_m := m.isLt
  have e' : n = 402653184 + d.toNat * 524288 + a.toNat * 4096 + g.toNat * 4 + m.toNat := e
  have e_op := fld_of (n + 2 ^ 31) 26 5 6 (by omega)
  have e_5_7 := fld_of (n + 2 ^ 31) 5 7 0 (by omega)
  have f_d := bv_of d (n + 2 ^ 31) 19 (by omega)
  have f_a := bv_of a (n + 2 ^ 31) 12 (by omega)
  have f_g := bv_of g (n + 2 ^ 31) 2 (by omega)
  have f_m := bv_of m (n + 2 ^ 31) 0 (by omega)
  have hs : decodeK .f (n + 2 ^ 31) (BitVec.toNat (0 : BitVec 16)) = .inl (.lane (.sigm d a g m)) := by
    have hp : shapeK .f (n + 2 ^ 31) (BitVec.toNat (0 : BitVec 16)) = some (.lane (.sigm d a g m)) := by
      simp only [shapeK, shapeKF, e_op, e_5_7, f_d, f_a, f_g, f_m]
      simp
    simp only [decodeK, e_op, KClass.opcodes, hp]
    simp [KOp.wf, w]
  have h := kernel_alone .f 0 n _ (by omega) hs (Or.inl rfl)
  rw [e] at h
  exact h

theorem tanh (d : BitVec 7) (a : BitVec 7) (g : BitVec 3) (m : BitVec 2) : Statement (.tanh d a g m) := fun w _ => by
  obtain ⟨n, e⟩ : ∃ n, n = encodeWord (.tanh d a g m) := ⟨_, rfl⟩
  have h_d := d.isLt
  have h_a := a.isLt
  have h_g := g.isLt
  have h_m := m.isLt
  have e' : n = 469762048 + d.toNat * 524288 + a.toNat * 4096 + g.toNat * 4 + m.toNat := e
  have e_op := fld_of (n + 2 ^ 31) 26 5 7 (by omega)
  have e_5_7 := fld_of (n + 2 ^ 31) 5 7 0 (by omega)
  have f_d := bv_of d (n + 2 ^ 31) 19 (by omega)
  have f_a := bv_of a (n + 2 ^ 31) 12 (by omega)
  have f_g := bv_of g (n + 2 ^ 31) 2 (by omega)
  have f_m := bv_of m (n + 2 ^ 31) 0 (by omega)
  have hs : decodeK .f (n + 2 ^ 31) (BitVec.toNat (0 : BitVec 16)) = .inl (.lane (.tanh d a g m)) := by
    have hp : shapeK .f (n + 2 ^ 31) (BitVec.toNat (0 : BitVec 16)) = some (.lane (.tanh d a g m)) := by
      simp only [shapeK, shapeKF, e_op, e_5_7, f_d, f_a, f_g, f_m]
      simp
    simp only [decodeK, e_op, KClass.opcodes, hp]
    simp [KOp.wf, w]
  have h := kernel_alone .f 0 n _ (by omega) hs (Or.inl rfl)
  rw [e] at h
  exact h

theorem rsqe (d : BitVec 7) (a : BitVec 7) (g : BitVec 3) (m : BitVec 2) : Statement (.rsqe d a g m) := fun w _ => by
  obtain ⟨n, e⟩ : ∃ n, n = encodeWord (.rsqe d a g m) := ⟨_, rfl⟩
  have h_d := d.isLt
  have h_a := a.isLt
  have h_g := g.isLt
  have h_m := m.isLt
  have e' : n = 536870912 + d.toNat * 524288 + a.toNat * 4096 + g.toNat * 4 + m.toNat := e
  have e_op := fld_of (n + 2 ^ 31) 26 5 8 (by omega)
  have e_5_7 := fld_of (n + 2 ^ 31) 5 7 0 (by omega)
  have f_d := bv_of d (n + 2 ^ 31) 19 (by omega)
  have f_a := bv_of a (n + 2 ^ 31) 12 (by omega)
  have f_g := bv_of g (n + 2 ^ 31) 2 (by omega)
  have f_m := bv_of m (n + 2 ^ 31) 0 (by omega)
  have hs : decodeK .f (n + 2 ^ 31) (BitVec.toNat (0 : BitVec 16)) = .inl (.lane (.rsqe d a g m)) := by
    have hp : shapeK .f (n + 2 ^ 31) (BitVec.toNat (0 : BitVec 16)) = some (.lane (.rsqe d a g m)) := by
      simp only [shapeK, shapeKF, e_op, e_5_7, f_d, f_a, f_g, f_m]
      simp
    simp only [decodeK, e_op, KClass.opcodes, hp]
    simp [KOp.wf, w]
  have h := kernel_alone .f 0 n _ (by omega) hs (Or.inl rfl)
  rw [e] at h
  exact h

theorem silu (d : BitVec 7) (a : BitVec 7) (g : BitVec 3) (m : BitVec 2) : Statement (.silu d a g m) := fun w _ => by
  obtain ⟨n, e⟩ : ∃ n, n = encodeWord (.silu d a g m) := ⟨_, rfl⟩
  have h_d := d.isLt
  have h_a := a.isLt
  have h_g := g.isLt
  have h_m := m.isLt
  have e' : n = 603979776 + d.toNat * 524288 + a.toNat * 4096 + g.toNat * 4 + m.toNat := e
  have e_op := fld_of (n + 2 ^ 31) 26 5 9 (by omega)
  have e_5_7 := fld_of (n + 2 ^ 31) 5 7 0 (by omega)
  have f_d := bv_of d (n + 2 ^ 31) 19 (by omega)
  have f_a := bv_of a (n + 2 ^ 31) 12 (by omega)
  have f_g := bv_of g (n + 2 ^ 31) 2 (by omega)
  have f_m := bv_of m (n + 2 ^ 31) 0 (by omega)
  have hs : decodeK .f (n + 2 ^ 31) (BitVec.toNat (0 : BitVec 16)) = .inl (.lane (.silu d a g m)) := by
    have hp : shapeK .f (n + 2 ^ 31) (BitVec.toNat (0 : BitVec 16)) = some (.lane (.silu d a g m)) := by
      simp only [shapeK, shapeKF, e_op, e_5_7, f_d, f_a, f_g, f_m]
      simp
    simp only [decodeK, e_op, KClass.opcodes, hp]
    simp [KOp.wf, w]
  have h := kernel_alone .f 0 n _ (by omega) hs (Or.inl rfl)
  rw [e] at h
  exact h

theorem spop (d : BitVec 7) (n0 : BitVec 4) (g : BitVec 3) : Statement (.spop d n0 g) := fun w _ => by
  obtain ⟨n, e⟩ : ∃ n, n = encodeWord (.spop d n0 g) := ⟨_, rfl⟩
  have h_d := d.isLt
  have h_n0 := n0.isLt
  have h_g := g.isLt
  have e' : n = 0 + d.toNat * 524288 + n0.toNat * 32768 + g.toNat * 4 := e
  have e_op := fld_of (n + 2 ^ 31) 26 5 0 (by omega)
  have e_0_2 := fld_of (n + 2 ^ 31) 0 2 0 (by omega)
  have e_5_10 := fld_of (n + 2 ^ 31) 5 10 0 (by omega)
  have f_d := bv_of d (n + 2 ^ 31) 19 (by omega)
  have f_n0 := bv_of n0 (n + 2 ^ 31) 15 (by omega)
  have f_g := bv_of g (n + 2 ^ 31) 2 (by omega)
  have hs : decodeK .s (n + 2 ^ 31) (BitVec.toNat (0 : BitVec 16)) = .inl (.lane (.spop d n0 g)) := by
    have hp : shapeK .s (n + 2 ^ 31) (BitVec.toNat (0 : BitVec 16)) = some (.lane (.spop d n0 g)) := by
      simp only [shapeK, shapeKS, e_op, e_0_2, e_5_10, f_d, f_n0, f_g]
      simp
    simp only [decodeK, e_op, KClass.opcodes, hp]
    simp [KOp.wf, w]
  have h := kernel_alone .s 0 n _ (by omega) hs (Or.inl rfl)
  rw [e] at h
  exact h

theorem spush (v : BitVec 7) (n0 : BitVec 4) (g : BitVec 3) : Statement (.spush v n0 g) := fun w _ => by
  obtain ⟨n, e⟩ : ∃ n, n = encodeWord (.spush v n0 g) := ⟨_, rfl⟩
  have h_v := v.isLt
  have h_n0 := n0.isLt
  have h_g := g.isLt
  have e' : n = 67108864 + v.toNat * 524288 + n0.toNat * 32768 + g.toNat * 4 := e
  have e_op := fld_of (n + 2 ^ 31) 26 5 1 (by omega)
  have e_0_2 := fld_of (n + 2 ^ 31) 0 2 0 (by omega)
  have e_5_10 := fld_of (n + 2 ^ 31) 5 10 0 (by omega)
  have f_v := bv_of v (n + 2 ^ 31) 19 (by omega)
  have f_n0 := bv_of n0 (n + 2 ^ 31) 15 (by omega)
  have f_g := bv_of g (n + 2 ^ 31) 2 (by omega)
  have hs : decodeK .s (n + 2 ^ 31) (BitVec.toNat (0 : BitVec 16)) = .inl (.lane (.spush v n0 g)) := by
    have hp : shapeK .s (n + 2 ^ 31) (BitVec.toNat (0 : BitVec 16)) = some (.lane (.spush v n0 g)) := by
      simp only [shapeK, shapeKS, e_op, e_0_2, e_5_10, f_v, f_n0, f_g]
      simp
    simp only [decodeK, e_op, KClass.opcodes, hp]
    simp [KOp.wf, w]
  have h := kernel_alone .s 0 n _ (by omega) hs (Or.inl rfl)
  rw [e] at h
  exact h

theorem sskip (n0 : BitVec 4) (n2 : BitVec 10) : Statement (.sskip n0 n2) := fun w _ => by
  obtain ⟨n, e⟩ : ∃ n, n = encodeWord (.sskip n0 n2) := ⟨_, rfl⟩
  have h_n0 := n0.isLt
  have h_n2 := n2.isLt
  have e' : n = 134217728 + n0.toNat * 32768 + n2.toNat * 32 := e
  have e_op := fld_of (n + 2 ^ 31) 26 5 2 (by omega)
  have e_0_5 := fld_of (n + 2 ^ 31) 0 5 0 (by omega)
  have e_19_7 := fld_of (n + 2 ^ 31) 19 7 0 (by omega)
  have f_n0 := bv_of n0 (n + 2 ^ 31) 15 (by omega)
  have f_n2 := bv_of n2 (n + 2 ^ 31) 5 (by omega)
  have hs : decodeK .s (n + 2 ^ 31) (BitVec.toNat (0 : BitVec 16)) = .inl (.lane (.sskip n0 n2)) := by
    have hp : shapeK .s (n + 2 ^ 31) (BitVec.toNat (0 : BitVec 16)) = some (.lane (.sskip n0 n2)) := by
      simp only [shapeK, shapeKS, e_op, e_0_5, e_19_7, f_n0, f_n2]
      simp
    simp only [decodeK, e_op, KClass.opcodes, hp]
    simp [KOp.wf, w]
  have h := kernel_alone .s 0 n _ (by omega) hs (Or.inl rfl)
  rw [e] at h
  exact h

theorem scountPos (d : BitVec 7) (n0 : BitVec 4) : Statement (.scountPos d n0) := fun w _ => by
  obtain ⟨n, e⟩ : ∃ n, n = encodeWord (.scountPos d n0) := ⟨_, rfl⟩
  have h_d := d.isLt
  have h_n0 := n0.isLt
  have e' : n = 603979776 + d.toNat * 524288 + n0.toNat * 32768 := e
  have e_op := fld_of (n + 2 ^ 31) 26 5 9 (by omega)
  have e_0_15 := fld_of (n + 2 ^ 31) 0 15 0 (by omega)
  have f_d := bv_of d (n + 2 ^ 31) 19 (by omega)
  have f_n0 := bv_of n0 (n + 2 ^ 31) 15 (by omega)
  have hs : decodeK .s (n + 2 ^ 31) (BitVec.toNat (0 : BitVec 16)) = .inl (.lane (.scountPos d n0)) := by
    have hp : shapeK .s (n + 2 ^ 31) (BitVec.toNat (0 : BitVec 16)) = some (.lane (.scountPos d n0)) := by
      simp only [shapeK, shapeKS, e_op, e_0_15, f_d, f_n0]
      simp
    simp only [decodeK, e_op, KClass.opcodes, hp]
    simp [KOp.wf, w]
  have h := kernel_alone .s 0 n _ (by omega) hs (Or.inl rfl)
  rw [e] at h
  exact h

theorem scountRem (d : BitVec 7) (n0 : BitVec 4) : Statement (.scountRem d n0) := fun w _ => by
  obtain ⟨n, e⟩ : ∃ n, n = encodeWord (.scountRem d n0) := ⟨_, rfl⟩
  have h_d := d.isLt
  have h_n0 := n0.isLt
  have e' : n = 603983872 + d.toNat * 524288 + n0.toNat * 32768 := e
  have e_op := fld_of (n + 2 ^ 31) 26 5 9 (by omega)
  have e_0_15 := fld_of (n + 2 ^ 31) 0 15 4096 (by omega)
  have f_d := bv_of d (n + 2 ^ 31) 19 (by omega)
  have f_n0 := bv_of n0 (n + 2 ^ 31) 15 (by omega)
  have hs : decodeK .s (n + 2 ^ 31) (BitVec.toNat (0 : BitVec 16)) = .inl (.lane (.scountRem d n0)) := by
    have hp : shapeK .s (n + 2 ^ 31) (BitVec.toNat (0 : BitVec 16)) = some (.lane (.scountRem d n0)) := by
      simp only [shapeK, shapeKS, e_op, e_0_15, f_d, f_n0]
      simp
    simp only [decodeK, e_op, KClass.opcodes, hp]
    simp [KOp.wf, w]
  have h := kernel_alone .s 0 n _ (by omega) hs (Or.inl rfl)
  rw [e] at h
  exact h

theorem comm (d : BitVec 7) (a : BitVec 7) (b : BitVec 7) (g : BitVec 3) : Statement (.comm d a b g) := fun w _ => by
  obtain ⟨n, e⟩ : ∃ n, n = encodeWord (.comm d a b g) := ⟨_, rfl⟩
  have h_d := d.isLt
  have h_a := a.isLt
  have h_b := b.isLt
  have h_g := g.isLt
  have e' : n = 201326592 + d.toNat * 524288 + a.toNat * 4096 + b.toNat * 32 + g.toNat * 4 := e
  have e_op := fld_of (n + 2 ^ 31) 26 5 3 (by omega)
  have e_0_2 := fld_of (n + 2 ^ 31) 0 2 0 (by omega)
  have f_d := bv_of d (n + 2 ^ 31) 19 (by omega)
  have f_a := bv_of a (n + 2 ^ 31) 12 (by omega)
  have f_b := bv_of b (n + 2 ^ 31) 5 (by omega)
  have f_g := bv_of g (n + 2 ^ 31) 2 (by omega)
  have hs : decodeK .s (n + 2 ^ 31) (BitVec.toNat (0 : BitVec 16)) = .inl (.lane (.comm d a b g)) := by
    have hp : shapeK .s (n + 2 ^ 31) (BitVec.toNat (0 : BitVec 16)) = some (.lane (.comm d a b g)) := by
      simp only [shapeK, shapeKS, e_op, e_0_2, f_d, f_a, f_b, f_g]
      simp
    simp only [decodeK, e_op, KClass.opcodes, hp]
    simp [KOp.wf, w]
  have h := kernel_alone .s 0 n _ (by omega) hs (Or.inl rfl)
  rw [e] at h
  exact h

theorem commCl (d : BitVec 7) (a : BitVec 7) (b : BitVec 7) (g : BitVec 3) : Statement (.commCl d a b g) := fun w _ => by
  obtain ⟨n, e⟩ : ∃ n, n = encodeWord (.commCl d a b g) := ⟨_, rfl⟩
  have h_d := d.isLt
  have h_a := a.isLt
  have h_b := b.isLt
  have h_g := g.isLt
  have e' : n = 201326593 + d.toNat * 524288 + a.toNat * 4096 + b.toNat * 32 + g.toNat * 4 := e
  have e_op := fld_of (n + 2 ^ 31) 26 5 3 (by omega)
  have e_0_2 := fld_of (n + 2 ^ 31) 0 2 1 (by omega)
  have f_d := bv_of d (n + 2 ^ 31) 19 (by omega)
  have f_a := bv_of a (n + 2 ^ 31) 12 (by omega)
  have f_b := bv_of b (n + 2 ^ 31) 5 (by omega)
  have f_g := bv_of g (n + 2 ^ 31) 2 (by omega)
  have hs : decodeK .s (n + 2 ^ 31) (BitVec.toNat (0 : BitVec 16)) = .inl (.lane (.commCl d a b g)) := by
    have hp : shapeK .s (n + 2 ^ 31) (BitVec.toNat (0 : BitVec 16)) = some (.lane (.commCl d a b g)) := by
      simp only [shapeK, shapeKS, e_op, e_0_2, f_d, f_a, f_b, f_g]
      simp
    simp only [decodeK, e_op, KClass.opcodes, hp]
    simp [KOp.wf, w]
  have h := kernel_alone .s 0 n _ (by omega) hs (Or.inl rfl)
  rw [e] at h
  exact h

theorem commpRot (d : BitVec 7) (a : BitVec 7) (k : BitVec 7) (g : BitVec 3) : Statement (.commpRot d a k g) := fun w _ => by
  obtain ⟨n, e⟩ : ∃ n, n = encodeWord (.commpRot d a k g) := ⟨_, rfl⟩
  have h_d := d.isLt
  have h_a := a.isLt
  have h_k := k.isLt
  have h_g := g.isLt
  have e' : n = 268435456 + d.toNat * 524288 + a.toNat * 4096 + k.toNat * 32 + g.toNat * 4 := e
  have e_op := fld_of (n + 2 ^ 31) 26 5 4 (by omega)
  have e_0_2 := fld_of (n + 2 ^ 31) 0 2 0 (by omega)
  have f_d := bv_of d (n + 2 ^ 31) 19 (by omega)
  have f_a := bv_of a (n + 2 ^ 31) 12 (by omega)
  have f_k := bv_of k (n + 2 ^ 31) 5 (by omega)
  have f_g := bv_of g (n + 2 ^ 31) 2 (by omega)
  have hs : decodeK .s (n + 2 ^ 31) (BitVec.toNat (0 : BitVec 16)) = .inl (.lane (.commpRot d a k g)) := by
    have hp : shapeK .s (n + 2 ^ 31) (BitVec.toNat (0 : BitVec 16)) = some (.lane (.commpRot d a k g)) := by
      simp only [shapeK, shapeKS, e_op, e_0_2, f_d, f_a, f_k, f_g]
      simp
    simp only [decodeK, e_op, KClass.opcodes, hp]
    simp [KOp.wf, w]
  have h := kernel_alone .s 0 n _ (by omega) hs (Or.inl rfl)
  rw [e] at h
  exact h

theorem commpBc (d : BitVec 7) (a : BitVec 7) (k : BitVec 7) (g : BitVec 3) : Statement (.commpBc d a k g) := fun w _ => by
  obtain ⟨n, e⟩ : ∃ n, n = encodeWord (.commpBc d a k g) := ⟨_, rfl⟩
  have h_d := d.isLt
  have h_a := a.isLt
  have h_k := k.isLt
  have h_g := g.isLt
  have e' : n = 268435457 + d.toNat * 524288 + a.toNat * 4096 + k.toNat * 32 + g.toNat * 4 := e
  have e_op := fld_of (n + 2 ^ 31) 26 5 4 (by omega)
  have e_0_2 := fld_of (n + 2 ^ 31) 0 2 1 (by omega)
  have f_d := bv_of d (n + 2 ^ 31) 19 (by omega)
  have f_a := bv_of a (n + 2 ^ 31) 12 (by omega)
  have f_k := bv_of k (n + 2 ^ 31) 5 (by omega)
  have f_g := bv_of g (n + 2 ^ 31) 2 (by omega)
  have hs : decodeK .s (n + 2 ^ 31) (BitVec.toNat (0 : BitVec 16)) = .inl (.lane (.commpBc d a k g)) := by
    have hp : shapeK .s (n + 2 ^ 31) (BitVec.toNat (0 : BitVec 16)) = some (.lane (.commpBc d a k g)) := by
      simp only [shapeK, shapeKS, e_op, e_0_2, f_d, f_a, f_k, f_g]
      simp
    simp only [decodeK, e_op, KClass.opcodes, hp]
    simp [KOp.wf, w]
  have h := kernel_alone .s 0 n _ (by omega) hs (Or.inl rfl)
  rw [e] at h
  exact h

theorem commpBfly (d : BitVec 7) (a : BitVec 7) (k : BitVec 7) (g : BitVec 3) : Statement (.commpBfly d a k g) := fun w _ => by
  obtain ⟨n, e⟩ : ∃ n, n = encodeWord (.commpBfly d a k g) := ⟨_, rfl⟩
  have h_d := d.isLt
  have h_a := a.isLt
  have h_k := k.isLt
  have h_g := g.isLt
  have e' : n = 268435458 + d.toNat * 524288 + a.toNat * 4096 + k.toNat * 32 + g.toNat * 4 := e
  have e_op := fld_of (n + 2 ^ 31) 26 5 4 (by omega)
  have e_0_2 := fld_of (n + 2 ^ 31) 0 2 2 (by omega)
  have f_d := bv_of d (n + 2 ^ 31) 19 (by omega)
  have f_a := bv_of a (n + 2 ^ 31) 12 (by omega)
  have f_k := bv_of k (n + 2 ^ 31) 5 (by omega)
  have f_g := bv_of g (n + 2 ^ 31) 2 (by omega)
  have hs : decodeK .s (n + 2 ^ 31) (BitVec.toNat (0 : BitVec 16)) = .inl (.lane (.commpBfly d a k g)) := by
    have hp : shapeK .s (n + 2 ^ 31) (BitVec.toNat (0 : BitVec 16)) = some (.lane (.commpBfly d a k g)) := by
      simp only [shapeK, shapeKS, e_op, e_0_2, f_d, f_a, f_k, f_g]
      simp
    simp only [decodeK, e_op, KClass.opcodes, hp]
    simp [KOp.wf, w]
  have h := kernel_alone .s 0 n _ (by omega) hs (Or.inl rfl)
  rw [e] at h
  exact h

theorem creduce (d : BitVec 7) (a : BitVec 7) (g : BitVec 3) : Statement (.creduce d a g) := fun w _ => by
  obtain ⟨n, e⟩ : ∃ n, n = encodeWord (.creduce d a g) := ⟨_, rfl⟩
  have h_d := d.isLt
  have h_a := a.isLt
  have h_g := g.isLt
  have e' : n = 335544320 + d.toNat * 524288 + a.toNat * 4096 + g.toNat * 4 := e
  have e_op := fld_of (n + 2 ^ 31) 26 5 5 (by omega)
  have e_0_2 := fld_of (n + 2 ^ 31) 0 2 0 (by omega)
  have e_5_7 := fld_of (n + 2 ^ 31) 5 7 0 (by omega)
  have f_d := bv_of d (n + 2 ^ 31) 19 (by omega)
  have f_a := bv_of a (n + 2 ^ 31) 12 (by omega)
  have f_g := bv_of g (n + 2 ^ 31) 2 (by omega)
  have hs : decodeK .s (n + 2 ^ 31) (BitVec.toNat (0 : BitVec 16)) = .inl (.lane (.creduce d a g)) := by
    have hp : shapeK .s (n + 2 ^ 31) (BitVec.toNat (0 : BitVec 16)) = some (.lane (.creduce d a g)) := by
      simp only [shapeK, shapeKS, e_op, e_0_2, e_5_7, f_d, f_a, f_g]
      simp
    simp only [decodeK, e_op, KClass.opcodes, hp]
    simp [KOp.wf, w]
  have h := kernel_alone .s 0 n _ (by omega) hs (Or.inl rfl)
  rw [e] at h
  exact h

theorem ireduce (d : BitVec 7) (a : BitVec 7) (o : BitVec 7) (g : BitVec 3) : Statement (.ireduce d a o g) := fun w _ => by
  obtain ⟨n, e⟩ : ∃ n, n = encodeWord (.ireduce d a o g) := ⟨_, rfl⟩
  have h_d := d.isLt
  have h_a := a.isLt
  have h_o := o.isLt
  have h_g := g.isLt
  have e' : n = 402653184 + d.toNat * 524288 + a.toNat * 4096 + o.toNat * 32 + g.toNat * 4 := e
  have e_op := fld_of (n + 2 ^ 31) 26 5 6 (by omega)
  have e_0_2 := fld_of (n + 2 ^ 31) 0 2 0 (by omega)
  have f_d := bv_of d (n + 2 ^ 31) 19 (by omega)
  have f_a := bv_of a (n + 2 ^ 31) 12 (by omega)
  have f_o := bv_of o (n + 2 ^ 31) 5 (by omega)
  have f_g := bv_of g (n + 2 ^ 31) 2 (by omega)
  have hs : decodeK .s (n + 2 ^ 31) (BitVec.toNat (0 : BitVec 16)) = .inl (.lane (.ireduce d a o g)) := by
    have hp : shapeK .s (n + 2 ^ 31) (BitVec.toNat (0 : BitVec 16)) = some (.lane (.ireduce d a o g)) := by
      simp only [shapeK, shapeKS, e_op, e_0_2, f_d, f_a, f_o, f_g]
      simp
    simp only [decodeK, e_op, KClass.opcodes, hp]
    simp [KOp.wf, w]
  have h := kernel_alone .s 0 n _ (by omega) hs (Or.inl rfl)
  rw [e] at h
  exact h

theorem mbrLo (d : BitVec 7) (m : BitVec 4) (k : BitVec 1) : Statement (.mbrLo d m k) := fun w _ => by
  obtain ⟨n, e⟩ : ∃ n, n = encodeWord (.mbrLo d m k) := ⟨_, rfl⟩
  have h_d := d.isLt
  have h_m := m.isLt
  have h_k := k.isLt
  have e' : n = 469762048 + d.toNat * 524288 + m.toNat * 32768 + k.toNat * 2048 := e
  have e_op := fld_of (n + 2 ^ 31) 26 5 7 (by omega)
  have e_0_11 := fld_of (n + 2 ^ 31) 0 11 0 (by omega)
  have e_12_3 := fld_of (n + 2 ^ 31) 12 3 0 (by omega)
  have f_d := bv_of d (n + 2 ^ 31) 19 (by omega)
  have f_m := bv_of m (n + 2 ^ 31) 15 (by omega)
  have f_k := bv_of k (n + 2 ^ 31) 11 (by omega)
  have hs : decodeK .s (n + 2 ^ 31) (BitVec.toNat (0 : BitVec 16)) = .inl (.lane (.mbrLo d m k)) := by
    have hp : shapeK .s (n + 2 ^ 31) (BitVec.toNat (0 : BitVec 16)) = some (.lane (.mbrLo d m k)) := by
      simp only [shapeK, shapeKS, e_op, e_0_11, e_12_3, f_d, f_m, f_k]
      simp
    simp only [decodeK, e_op, KClass.opcodes, hp]
    simp [KOp.wf, w]
  have h := kernel_alone .s 0 n _ (by omega) hs (Or.inl rfl)
  rw [e] at h
  exact h

theorem mbrHi (d : BitVec 7) (m : BitVec 4) (k : BitVec 1) : Statement (.mbrHi d m k) := fun w _ => by
  obtain ⟨n, e⟩ : ∃ n, n = encodeWord (.mbrHi d m k) := ⟨_, rfl⟩
  have h_d := d.isLt
  have h_m := m.isLt
  have h_k := k.isLt
  have e' : n = 469766144 + d.toNat * 524288 + m.toNat * 32768 + k.toNat * 2048 := e
  have e_op := fld_of (n + 2 ^ 31) 26 5 7 (by omega)
  have e_0_11 := fld_of (n + 2 ^ 31) 0 11 0 (by omega)
  have e_12_3 := fld_of (n + 2 ^ 31) 12 3 1 (by omega)
  have f_d := bv_of d (n + 2 ^ 31) 19 (by omega)
  have f_m := bv_of m (n + 2 ^ 31) 15 (by omega)
  have f_k := bv_of k (n + 2 ^ 31) 11 (by omega)
  have hs : decodeK .s (n + 2 ^ 31) (BitVec.toNat (0 : BitVec 16)) = .inl (.lane (.mbrHi d m k)) := by
    have hp : shapeK .s (n + 2 ^ 31) (BitVec.toNat (0 : BitVec 16)) = some (.lane (.mbrHi d m k)) := by
      simp only [shapeK, shapeKS, e_op, e_0_11, e_12_3, f_d, f_m, f_k]
      simp
    simp only [decodeK, e_op, KClass.opcodes, hp]
    simp [KOp.wf, w]
  have h := kernel_alone .s 0 n _ (by omega) hs (Or.inl rfl)
  rw [e] at h
  exact h

theorem mbrPair (d : BitVec 7) (m : BitVec 4) (k : BitVec 1) : Statement (.mbrPair d m k) := fun w _ => by
  obtain ⟨n, e⟩ : ∃ n, n = encodeWord (.mbrPair d m k) := ⟨_, rfl⟩
  have h_d := d.isLt
  have h_m := m.isLt
  have h_k := k.isLt
  have e' : n = 469770240 + d.toNat * 524288 + m.toNat * 32768 + k.toNat * 2048 := e
  have e_op := fld_of (n + 2 ^ 31) 26 5 7 (by omega)
  have e_0_11 := fld_of (n + 2 ^ 31) 0 11 0 (by omega)
  have e_12_3 := fld_of (n + 2 ^ 31) 12 3 2 (by omega)
  have f_d := bv_of d (n + 2 ^ 31) 19 (by omega)
  have f_m := bv_of m (n + 2 ^ 31) 15 (by omega)
  have f_k := bv_of k (n + 2 ^ 31) 11 (by omega)
  have hs : decodeK .s (n + 2 ^ 31) (BitVec.toNat (0 : BitVec 16)) = .inl (.lane (.mbrPair d m k)) := by
    have hp : shapeK .s (n + 2 ^ 31) (BitVec.toNat (0 : BitVec 16)) = some (.lane (.mbrPair d m k)) := by
      simp only [shapeK, shapeKS, e_op, e_0_11, e_12_3, f_d, f_m, f_k]
      simp
    simp only [decodeK, e_op, KClass.opcodes, hp]
    simp [KOp.wf, w]
  have h := kernel_alone .s 0 n _ (by omega) hs (Or.inl rfl)
  rw [e] at h
  exact h

theorem mbwWord (v : BitVec 7) (m : BitVec 4) (l : BitVec 7) : Statement (.mbwWord v m l) := fun w _ => by
  obtain ⟨n, e⟩ : ∃ n, n = encodeWord (.mbwWord v m l) := ⟨_, rfl⟩
  have h_v := v.isLt
  have h_m := m.isLt
  have h_l := l.isLt
  have e' : n = 536870912 + v.toNat * 524288 + m.toNat * 32768 + l.toNat * 32 := e
  have e_op := fld_of (n + 2 ^ 31) 26 5 8 (by omega)
  have e_0_5 := fld_of (n + 2 ^ 31) 0 5 0 (by omega)
  have e_12_3 := fld_of (n + 2 ^ 31) 12 3 0 (by omega)
  have f_v := bv_of v (n + 2 ^ 31) 19 (by omega)
  have f_m := bv_of m (n + 2 ^ 31) 15 (by omega)
  have f_l := bv_of l (n + 2 ^ 31) 5 (by omega)
  have hs : decodeK .s (n + 2 ^ 31) (BitVec.toNat (0 : BitVec 16)) = .inl (.lane (.mbwWord v m l)) := by
    have hp : shapeK .s (n + 2 ^ 31) (BitVec.toNat (0 : BitVec 16)) = some (.lane (.mbwWord v m l)) := by
      simp only [shapeK, shapeKS, e_op, e_0_5, e_12_3, f_v, f_m, f_l]
      simp
    simp only [decodeK, e_op, KClass.opcodes, hp]
    simp [KOp.wf, w]
  have h := kernel_alone .s 0 n _ (by omega) hs (Or.inl rfl)
  rw [e] at h
  exact h

theorem mbwPair (v : BitVec 7) (m : BitVec 4) (l : BitVec 7) : Statement (.mbwPair v m l) := fun w _ => by
  obtain ⟨n, e⟩ : ∃ n, n = encodeWord (.mbwPair v m l) := ⟨_, rfl⟩
  have h_v := v.isLt
  have h_m := m.isLt
  have h_l := l.isLt
  have e' : n = 536875008 + v.toNat * 524288 + m.toNat * 32768 + l.toNat * 32 := e
  have e_op := fld_of (n + 2 ^ 31) 26 5 8 (by omega)
  have e_0_5 := fld_of (n + 2 ^ 31) 0 5 0 (by omega)
  have e_12_3 := fld_of (n + 2 ^ 31) 12 3 1 (by omega)
  have f_v := bv_of v (n + 2 ^ 31) 19 (by omega)
  have f_m := bv_of m (n + 2 ^ 31) 15 (by omega)
  have f_l := bv_of l (n + 2 ^ 31) 5 (by omega)
  have hs : decodeK .s (n + 2 ^ 31) (BitVec.toNat (0 : BitVec 16)) = .inl (.lane (.mbwPair v m l)) := by
    have hp : shapeK .s (n + 2 ^ 31) (BitVec.toNat (0 : BitVec 16)) = some (.lane (.mbwPair v m l)) := by
      simp only [shapeK, shapeKS, e_op, e_0_5, e_12_3, f_v, f_m, f_l]
      simp
    simp only [decodeK, e_op, KClass.opcodes, hp]
    simp [KOp.wf, w]
  have h := kernel_alone .s 0 n _ (by omega) hs (Or.inl rfl)
  rw [e] at h
  exact h

theorem ardF32 (d : BitVec 7) (k : BitVec 3) (a : BitVec 7) (g : BitVec 3) : Statement (.ardF32 d k a g) := fun w _ => by
  obtain ⟨n, e⟩ : ∃ n, n = encodeWord (.ardF32 d k a g) := ⟨_, rfl⟩
  have h_d := d.isLt
  have h_k := k.isLt
  have h_a := a.isLt
  have h_g := g.isLt
  have e' : n = 0 + d.toNat * 524288 + k.toNat * 65536 + a.toNat * 64 + g.toNat * 4 := e
  have e_op := fld_of (n + 2 ^ 31) 26 5 0 (by omega)
  have e_0_2 := fld_of (n + 2 ^ 31) 0 2 0 (by omega)
  have e_5_1 := fld_of (n + 2 ^ 31) 5 1 0 (by omega)
  have e_13_3 := fld_of (n + 2 ^ 31) 13 3 0 (by omega)
  have f_d := bv_of d (n + 2 ^ 31) 19 (by omega)
  have f_k := bv_of k (n + 2 ^ 31) 16 (by omega)
  have f_a := bv_of a (n + 2 ^ 31) 6 (by omega)
  have f_g := bv_of g (n + 2 ^ 31) 2 (by omega)
  have hs : decodeK .x (n + 2 ^ 31) (BitVec.toNat (0 : BitVec 16)) = .inl (.lane (.ardF32 d k a g)) := by
    have hp : shapeK .x (n + 2 ^ 31) (BitVec.toNat (0 : BitVec 16)) = some (.lane (.ardF32 d k a g)) := by
      simp only [shapeK, shapeKX, e_op, e_0_2, e_5_1, e_13_3, f_d, f_k, f_a, f_g]
      simp
    simp only [decodeK, e_op, KClass.opcodes, hp]
    simp [KOp.wf, w]
  have h := kernel_alone .x 0 n _ (by omega) hs (Or.inl rfl)
  rw [e] at h
  exact h

theorem ardI32 (d : BitVec 7) (k : BitVec 3) (a : BitVec 7) (g : BitVec 3) : Statement (.ardI32 d k a g) := fun w _ => by
  obtain ⟨n, e⟩ : ∃ n, n = encodeWord (.ardI32 d k a g) := ⟨_, rfl⟩
  have h_d := d.isLt
  have h_k := k.isLt
  have h_a := a.isLt
  have h_g := g.isLt
  have e' : n = 8192 + d.toNat * 524288 + k.toNat * 65536 + a.toNat * 64 + g.toNat * 4 := e
  have e_op := fld_of (n + 2 ^ 31) 26 5 0 (by omega)
  have e_0_2 := fld_of (n + 2 ^ 31) 0 2 0 (by omega)
  have e_5_1 := fld_of (n + 2 ^ 31) 5 1 0 (by omega)
  have e_13_3 := fld_of (n + 2 ^ 31) 13 3 1 (by omega)
  have f_d := bv_of d (n + 2 ^ 31) 19 (by omega)
  have f_k := bv_of k (n + 2 ^ 31) 16 (by omega)
  have f_a := bv_of a (n + 2 ^ 31) 6 (by omega)
  have f_g := bv_of g (n + 2 ^ 31) 2 (by omega)
  have hs : decodeK .x (n + 2 ^ 31) (BitVec.toNat (0 : BitVec 16)) = .inl (.lane (.ardI32 d k a g)) := by
    have hp : shapeK .x (n + 2 ^ 31) (BitVec.toNat (0 : BitVec 16)) = some (.lane (.ardI32 d k a g)) := by
      simp only [shapeK, shapeKX, e_op, e_0_2, e_5_1, e_13_3, f_d, f_k, f_a, f_g]
      simp
    simp only [decodeK, e_op, KClass.opcodes, hp]
    simp [KOp.wf, w]
  have h := kernel_alone .x 0 n _ (by omega) hs (Or.inl rfl)
  rw [e] at h
  exact h

theorem ardXaF32 (d : BitVec 7) (k : BitVec 3) (a : BitVec 7) (g : BitVec 3) : Statement (.ardXaF32 d k a g) := fun w _ => by
  obtain ⟨n, e⟩ : ∃ n, n = encodeWord (.ardXaF32 d k a g) := ⟨_, rfl⟩
  have h_d := d.isLt
  have h_k := k.isLt
  have h_a := a.isLt
  have h_g := g.isLt
  have e' : n = 16384 + d.toNat * 524288 + k.toNat * 65536 + a.toNat * 64 + g.toNat * 4 := e
  have e_op := fld_of (n + 2 ^ 31) 26 5 0 (by omega)
  have e_0_2 := fld_of (n + 2 ^ 31) 0 2 0 (by omega)
  have e_5_1 := fld_of (n + 2 ^ 31) 5 1 0 (by omega)
  have e_13_3 := fld_of (n + 2 ^ 31) 13 3 2 (by omega)
  have f_d := bv_of d (n + 2 ^ 31) 19 (by omega)
  have f_k := bv_of k (n + 2 ^ 31) 16 (by omega)
  have f_a := bv_of a (n + 2 ^ 31) 6 (by omega)
  have f_g := bv_of g (n + 2 ^ 31) 2 (by omega)
  have hs : decodeK .x (n + 2 ^ 31) (BitVec.toNat (0 : BitVec 16)) = .inl (.lane (.ardXaF32 d k a g)) := by
    have hp : shapeK .x (n + 2 ^ 31) (BitVec.toNat (0 : BitVec 16)) = some (.lane (.ardXaF32 d k a g)) := by
      simp only [shapeK, shapeKX, e_op, e_0_2, e_5_1, e_13_3, f_d, f_k, f_a, f_g]
      simp
    simp only [decodeK, e_op, KClass.opcodes, hp]
    simp [KOp.wf, w]
  have h := kernel_alone .x 0 n _ (by omega) hs (Or.inl rfl)
  rw [e] at h
  exact h

theorem ardXaI32 (d : BitVec 7) (k : BitVec 3) (a : BitVec 7) (g : BitVec 3) : Statement (.ardXaI32 d k a g) := fun w _ => by
  obtain ⟨n, e⟩ : ∃ n, n = encodeWord (.ardXaI32 d k a g) := ⟨_, rfl⟩
  have h_d := d.isLt
  have h_k := k.isLt
  have h_a := a.isLt
  have h_g := g.isLt
  have e' : n = 24576 + d.toNat * 524288 + k.toNat * 65536 + a.toNat * 64 + g.toNat * 4 := e
  have e_op := fld_of (n + 2 ^ 31) 26 5 0 (by omega)
  have e_0_2 := fld_of (n + 2 ^ 31) 0 2 0 (by omega)
  have e_5_1 := fld_of (n + 2 ^ 31) 5 1 0 (by omega)
  have e_13_3 := fld_of (n + 2 ^ 31) 13 3 3 (by omega)
  have f_d := bv_of d (n + 2 ^ 31) 19 (by omega)
  have f_k := bv_of k (n + 2 ^ 31) 16 (by omega)
  have f_a := bv_of a (n + 2 ^ 31) 6 (by omega)
  have f_g := bv_of g (n + 2 ^ 31) 2 (by omega)
  have hs : decodeK .x (n + 2 ^ 31) (BitVec.toNat (0 : BitVec 16)) = .inl (.lane (.ardXaI32 d k a g)) := by
    have hp : shapeK .x (n + 2 ^ 31) (BitVec.toNat (0 : BitVec 16)) = some (.lane (.ardXaI32 d k a g)) := by
      simp only [shapeK, shapeKX, e_op, e_0_2, e_5_1, e_13_3, f_d, f_k, f_a, f_g]
      simp
    simp only [decodeK, e_op, KClass.opcodes, hp]
    simp [KOp.wf, w]
  have h := kernel_alone .x 0 n _ (by omega) hs (Or.inl rfl)
  rw [e] at h
  exact h

theorem ardExp (d : BitVec 7) (k : BitVec 3) (a : BitVec 7) (g : BitVec 3) : Statement (.ardExp d k a g) := fun w _ => by
  obtain ⟨n, e⟩ : ∃ n, n = encodeWord (.ardExp d k a g) := ⟨_, rfl⟩
  have h_d := d.isLt
  have h_k := k.isLt
  have h_a := a.isLt
  have h_g := g.isLt
  have e' : n = 32768 + d.toNat * 524288 + k.toNat * 65536 + a.toNat * 64 + g.toNat * 4 := e
  have e_op := fld_of (n + 2 ^ 31) 26 5 0 (by omega)
  have e_0_2 := fld_of (n + 2 ^ 31) 0 2 0 (by omega)
  have e_5_1 := fld_of (n + 2 ^ 31) 5 1 0 (by omega)
  have e_13_3 := fld_of (n + 2 ^ 31) 13 3 4 (by omega)
  have f_d := bv_of d (n + 2 ^ 31) 19 (by omega)
  have f_k := bv_of k (n + 2 ^ 31) 16 (by omega)
  have f_a := bv_of a (n + 2 ^ 31) 6 (by omega)
  have f_g := bv_of g (n + 2 ^ 31) 2 (by omega)
  have hs : decodeK .x (n + 2 ^ 31) (BitVec.toNat (0 : BitVec 16)) = .inl (.lane (.ardExp d k a g)) := by
    have hp : shapeK .x (n + 2 ^ 31) (BitVec.toNat (0 : BitVec 16)) = some (.lane (.ardExp d k a g)) := by
      simp only [shapeK, shapeKX, e_op, e_0_2, e_5_1, e_13_3, f_d, f_k, f_a, f_g]
      simp
    simp only [decodeK, e_op, KClass.opcodes, hp]
    simp [KOp.wf, w]
  have h := kernel_alone .x 0 n _ (by omega) hs (Or.inl rfl)
  rw [e] at h
  exact h

theorem ard2 (d : BitVec 7) (k : BitVec 3) (a : BitVec 7) (g : BitVec 3) : Statement (.ard2 d k a g) := fun w _ => by
  obtain ⟨n, e⟩ : ∃ n, n = encodeWord (.ard2 d k a g) := ⟨_, rfl⟩
  have h_d := d.isLt
  have h_k := k.isLt
  have h_a := a.isLt
  have h_g := g.isLt
  have e' : n = 67108864 + d.toNat * 524288 + k.toNat * 65536 + a.toNat * 64 + g.toNat * 4 := e
  have e_op := fld_of (n + 2 ^ 31) 26 5 1 (by omega)
  have e_0_2 := fld_of (n + 2 ^ 31) 0 2 0 (by omega)
  have e_5_1 := fld_of (n + 2 ^ 31) 5 1 0 (by omega)
  have e_13_3 := fld_of (n + 2 ^ 31) 13 3 0 (by omega)
  have f_d := bv_of d (n + 2 ^ 31) 19 (by omega)
  have f_k := bv_of k (n + 2 ^ 31) 16 (by omega)
  have f_a := bv_of a (n + 2 ^ 31) 6 (by omega)
  have f_g := bv_of g (n + 2 ^ 31) 2 (by omega)
  have hs : decodeK .x (n + 2 ^ 31) (BitVec.toNat (0 : BitVec 16)) = .inl (.lane (.ard2 d k a g)) := by
    have hp : shapeK .x (n + 2 ^ 31) (BitVec.toNat (0 : BitVec 16)) = some (.lane (.ard2 d k a g)) := by
      simp only [shapeK, shapeKX, e_op, e_0_2, e_5_1, e_13_3, f_d, f_k, f_a, f_g]
      simp
    simp only [decodeK, e_op, KClass.opcodes, hp]
    simp [KOp.wf, w]
  have h := kernel_alone .x 0 n _ (by omega) hs (Or.inl rfl)
  rw [e] at h
  exact h

theorem ard2Q (d : BitVec 7) (k : BitVec 3) (q : BitVec 2) (a : BitVec 7) (g : BitVec 3) : Statement (.ard2Q d k q a g) := fun w _ => by
  obtain ⟨n, e⟩ : ∃ n, n = encodeWord (.ard2Q d k q a g) := ⟨_, rfl⟩
  have h_d := d.isLt
  have h_k := k.isLt
  have h_q := q.isLt
  have h_a := a.isLt
  have h_g := g.isLt
  have e' : n = 67141632 + d.toNat * 524288 + k.toNat * 65536 + q.toNat * 8192 + a.toNat * 64 + g.toNat * 4 := e
  have e_op := fld_of (n + 2 ^ 31) 26 5 1 (by omega)
  have e_0_2 := fld_of (n + 2 ^ 31) 0 2 0 (by omega)
  have e_5_1 := fld_of (n + 2 ^ 31) 5 1 0 (by omega)
  have e_13_3_0 := fld_ne (n + 2 ^ 31) 13 3 0 (by omega)
  have e_15_1 := fld_of (n + 2 ^ 31) 15 1 1 (by omega)
  have f_d := bv_of d (n + 2 ^ 31) 19 (by omega)
  have f_k := bv_of k (n + 2 ^ 31) 16 (by omega)
  have f_q := bv_of q (n + 2 ^ 31) 13 (by omega)
  have f_a := bv_of a (n + 2 ^ 31) 6 (by omega)
  have f_g := bv_of g (n + 2 ^ 31) 2 (by omega)
  have hs : decodeK .x (n + 2 ^ 31) (BitVec.toNat (0 : BitVec 16)) = .inl (.lane (.ard2Q d k q a g)) := by
    have hp : shapeK .x (n + 2 ^ 31) (BitVec.toNat (0 : BitVec 16)) = some (.lane (.ard2Q d k q a g)) := by
      simp only [shapeK, shapeKX, e_op, e_0_2, e_5_1, e_13_3_0, e_15_1, f_d, f_k, f_q, f_a, f_g]
      simp
    simp only [decodeK, e_op, KClass.opcodes, hp]
    simp [KOp.wf, w]
  have h := kernel_alone .x 0 n _ (by omega) hs (Or.inl rfl)
  rw [e] at h
  exact h

theorem awrI32 (v : BitVec 7) (k : BitVec 3) (a : BitVec 7) (g : BitVec 3) : Statement (.awrI32 v k a g) := fun w _ => by
  obtain ⟨n, e⟩ : ∃ n, n = encodeWord (.awrI32 v k a g) := ⟨_, rfl⟩
  have h_v := v.isLt
  have h_k := k.isLt
  have h_a := a.isLt
  have h_g := g.isLt
  have e' : n = 134217728 + v.toNat * 524288 + k.toNat * 65536 + a.toNat * 64 + g.toNat * 4 := e
  have e_op := fld_of (n + 2 ^ 31) 26 5 2 (by omega)
  have e_0_2 := fld_of (n + 2 ^ 31) 0 2 0 (by omega)
  have e_5_1 := fld_of (n + 2 ^ 31) 5 1 0 (by omega)
  have e_13_3 := fld_of (n + 2 ^ 31) 13 3 0 (by omega)
  have f_v := bv_of v (n + 2 ^ 31) 19 (by omega)
  have f_k := bv_of k (n + 2 ^ 31) 16 (by omega)
  have f_a := bv_of a (n + 2 ^ 31) 6 (by omega)
  have f_g := bv_of g (n + 2 ^ 31) 2 (by omega)
  have hs : decodeK .x (n + 2 ^ 31) (BitVec.toNat (0 : BitVec 16)) = .inl (.lane (.awrI32 v k a g)) := by
    have hp : shapeK .x (n + 2 ^ 31) (BitVec.toNat (0 : BitVec 16)) = some (.lane (.awrI32 v k a g)) := by
      simp only [shapeK, shapeKX, e_op, e_0_2, e_5_1, e_13_3, f_v, f_k, f_a, f_g]
      simp
    simp only [decodeK, e_op, KClass.opcodes, hp]
    simp [KOp.wf, w]
  have h := kernel_alone .x 0 n _ (by omega) hs (Or.inl rfl)
  rw [e] at h
  exact h

theorem awrPair (v : BitVec 7) (k : BitVec 3) (a : BitVec 7) (g : BitVec 3) : Statement (.awrPair v k a g) := fun w _ => by
  obtain ⟨n, e⟩ : ∃ n, n = encodeWord (.awrPair v k a g) := ⟨_, rfl⟩
  have h_v := v.isLt
  have h_k := k.isLt
  have h_a := a.isLt
  have h_g := g.isLt
  have e' : n = 134225920 + v.toNat * 524288 + k.toNat * 65536 + a.toNat * 64 + g.toNat * 4 := e
  have e_op := fld_of (n + 2 ^ 31) 26 5 2 (by omega)
  have e_0_2 := fld_of (n + 2 ^ 31) 0 2 0 (by omega)
  have e_5_1 := fld_of (n + 2 ^ 31) 5 1 0 (by omega)
  have e_13_3 := fld_of (n + 2 ^ 31) 13 3 1 (by omega)
  have f_v := bv_of v (n + 2 ^ 31) 19 (by omega)
  have f_k := bv_of k (n + 2 ^ 31) 16 (by omega)
  have f_a := bv_of a (n + 2 ^ 31) 6 (by omega)
  have f_g := bv_of g (n + 2 ^ 31) 2 (by omega)
  have hs : decodeK .x (n + 2 ^ 31) (BitVec.toNat (0 : BitVec 16)) = .inl (.lane (.awrPair v k a g)) := by
    have hp : shapeK .x (n + 2 ^ 31) (BitVec.toNat (0 : BitVec 16)) = some (.lane (.awrPair v k a g)) := by
      simp only [shapeK, shapeKX, e_op, e_0_2, e_5_1, e_13_3, f_v, f_k, f_a, f_g]
      simp
    simp only [decodeK, e_op, KClass.opcodes, hp]
    simp [KOp.wf, w]
  have h := kernel_alone .x 0 n _ (by omega) hs (Or.inl rfl)
  rw [e] at h
  exact h

theorem awrExp (v : BitVec 7) (k : BitVec 3) (a : BitVec 7) (g : BitVec 3) : Statement (.awrExp v k a g) := fun w _ => by
  obtain ⟨n, e⟩ : ∃ n, n = encodeWord (.awrExp v k a g) := ⟨_, rfl⟩
  have h_v := v.isLt
  have h_k := k.isLt
  have h_a := a.isLt
  have h_g := g.isLt
  have e' : n = 134234112 + v.toNat * 524288 + k.toNat * 65536 + a.toNat * 64 + g.toNat * 4 := e
  have e_op := fld_of (n + 2 ^ 31) 26 5 2 (by omega)
  have e_0_2 := fld_of (n + 2 ^ 31) 0 2 0 (by omega)
  have e_5_1 := fld_of (n + 2 ^ 31) 5 1 0 (by omega)
  have e_13_3 := fld_of (n + 2 ^ 31) 13 3 2 (by omega)
  have f_v := bv_of v (n + 2 ^ 31) 19 (by omega)
  have f_k := bv_of k (n + 2 ^ 31) 16 (by omega)
  have f_a := bv_of a (n + 2 ^ 31) 6 (by omega)
  have f_g := bv_of g (n + 2 ^ 31) 2 (by omega)
  have hs : decodeK .x (n + 2 ^ 31) (BitVec.toNat (0 : BitVec 16)) = .inl (.lane (.awrExp v k a g)) := by
    have hp : shapeK .x (n + 2 ^ 31) (BitVec.toNat (0 : BitVec 16)) = some (.lane (.awrExp v k a g)) := by
      simp only [shapeK, shapeKX, e_op, e_0_2, e_5_1, e_13_3, f_v, f_k, f_a, f_g]
      simp
    simp only [decodeK, e_op, KClass.opcodes, hp]
    simp [KOp.wf, w]
  have h := kernel_alone .x 0 n _ (by omega) hs (Or.inl rfl)
  rw [e] at h
  exact h

theorem adep (v : BitVec 7) (k : BitVec 3) (a : BitVec 7) (g : BitVec 3) : Statement (.adep v k a g) := fun w _ => by
  obtain ⟨n, e⟩ : ∃ n, n = encodeWord (.adep v k a g) := ⟨_, rfl⟩
  have h_v := v.isLt
  have h_k := k.isLt
  have h_a := a.isLt
  have h_g := g.isLt
  have e' : n = 201326592 + v.toNat * 524288 + k.toNat * 65536 + a.toNat * 64 + g.toNat * 4 := e
  have e_op := fld_of (n + 2 ^ 31) 26 5 3 (by omega)
  have e_0_2 := fld_of (n + 2 ^ 31) 0 2 0 (by omega)
  have e_5_1 := fld_of (n + 2 ^ 31) 5 1 0 (by omega)
  have e_13_3 := fld_of (n + 2 ^ 31) 13 3 0 (by omega)
  have f_v := bv_of v (n + 2 ^ 31) 19 (by omega)
  have f_k := bv_of k (n + 2 ^ 31) 16 (by omega)
  have f_a := bv_of a (n + 2 ^ 31) 6 (by omega)
  have f_g := bv_of g (n + 2 ^ 31) 2 (by omega)
  have hs : decodeK .x (n + 2 ^ 31) (BitVec.toNat (0 : BitVec 16)) = .inl (.lane (.adep v k a g)) := by
    have hp : shapeK .x (n + 2 ^ 31) (BitVec.toNat (0 : BitVec 16)) = some (.lane (.adep v k a g)) := by
      simp only [shapeK, shapeKX, e_op, e_0_2, e_5_1, e_13_3, f_v, f_k, f_a, f_g]
      simp
    simp only [decodeK, e_op, KClass.opcodes, hp]
    simp [KOp.wf, w]
  have h := kernel_alone .x 0 n _ (by omega) hs (Or.inl rfl)
  rw [e] at h
  exact h

theorem azero (k : BitVec 3) : Statement (.azero k) := fun w _ => by
  obtain ⟨n, e⟩ : ∃ n, n = encodeWord (.azero k) := ⟨_, rfl⟩
  have h_k := k.isLt
  have e' : n = 268435456 + k.toNat * 65536 := e
  have e_op := fld_of (n + 2 ^ 31) 26 5 4 (by omega)
  have e_0_16 := fld_of (n + 2 ^ 31) 0 16 0 (by omega)
  have e_19_7 := fld_of (n + 2 ^ 31) 19 7 0 (by omega)
  have f_k := bv_of k (n + 2 ^ 31) 16 (by omega)
  have hs : decodeK .x (n + 2 ^ 31) (BitVec.toNat (0 : BitVec 16)) = .inl (.lane (.azero k)) := by
    have hp : shapeK .x (n + 2 ^ 31) (BitVec.toNat (0 : BitVec 16)) = some (.lane (.azero k)) := by
      simp only [shapeK, shapeKX, e_op, e_0_16, e_19_7, f_k]
      simp
    simp only [decodeK, e_op, KClass.opcodes, hp]
    simp [KOp.wf, w]
  have h := kernel_alone .x 0 n _ (by omega) hs (Or.inl rfl)
  rw [e] at h
  exact h

theorem azeroXa (k : BitVec 3) : Statement (.azeroXa k) := fun w _ => by
  obtain ⟨n, e⟩ : ∃ n, n = encodeWord (.azeroXa k) := ⟨_, rfl⟩
  have h_k := k.isLt
  have e' : n = 268443648 + k.toNat * 65536 := e
  have e_op := fld_of (n + 2 ^ 31) 26 5 4 (by omega)
  have e_0_16 := fld_of (n + 2 ^ 31) 0 16 8192 (by omega)
  have e_19_7 := fld_of (n + 2 ^ 31) 19 7 0 (by omega)
  have f_k := bv_of k (n + 2 ^ 31) 16 (by omega)
  have hs : decodeK .x (n + 2 ^ 31) (BitVec.toNat (0 : BitVec 16)) = .inl (.lane (.azeroXa k)) := by
    have hp : shapeK .x (n + 2 ^ 31) (BitVec.toNat (0 : BitVec 16)) = some (.lane (.azeroXa k)) := by
      simp only [shapeK, shapeKX, e_op, e_0_16, e_19_7, f_k]
      simp
    simp only [decodeK, e_op, KClass.opcodes, hp]
    simp [KOp.wf, w]
  have h := kernel_alone .x 0 n _ (by omega) hs (Or.inl rfl)
  rw [e] at h
  exact h

theorem astat (d : BitVec 7) (k : BitVec 3) : Statement (.astat d k) := fun w _ => by
  obtain ⟨n, e⟩ : ∃ n, n = encodeWord (.astat d k) := ⟨_, rfl⟩
  have h_d := d.isLt
  have h_k := k.isLt
  have e' : n = 335544320 + d.toNat * 524288 + k.toNat * 65536 := e
  have e_op := fld_of (n + 2 ^ 31) 26 5 5 (by omega)
  have e_0_16 := fld_of (n + 2 ^ 31) 0 16 0 (by omega)
  have f_d := bv_of d (n + 2 ^ 31) 19 (by omega)
  have f_k := bv_of k (n + 2 ^ 31) 16 (by omega)
  have hs : decodeK .x (n + 2 ^ 31) (BitVec.toNat (0 : BitVec 16)) = .inl (.lane (.astat d k)) := by
    have hp : shapeK .x (n + 2 ^ 31) (BitVec.toNat (0 : BitVec 16)) = some (.lane (.astat d k)) := by
      simp only [shapeK, shapeKX, e_op, e_0_16, f_d, f_k]
      simp
    simp only [decodeK, e_op, KClass.opcodes, hp]
    simp [KOp.wf, w]
  have h := kernel_alone .x 0 n _ (by omega) hs (Or.inl rfl)
  rw [e] at h
  exact h

theorem astatClr (d : BitVec 7) (k : BitVec 3) : Statement (.astatClr d k) := fun w _ => by
  obtain ⟨n, e⟩ : ∃ n, n = encodeWord (.astatClr d k) := ⟨_, rfl⟩
  have h_d := d.isLt
  have h_k := k.isLt
  have e' : n = 335552512 + d.toNat * 524288 + k.toNat * 65536 := e
  have e_op := fld_of (n + 2 ^ 31) 26 5 5 (by omega)
  have e_0_16 := fld_of (n + 2 ^ 31) 0 16 8192 (by omega)
  have f_d := bv_of d (n + 2 ^ 31) 19 (by omega)
  have f_k := bv_of k (n + 2 ^ 31) 16 (by omega)
  have hs : decodeK .x (n + 2 ^ 31) (BitVec.toNat (0 : BitVec 16)) = .inl (.lane (.astatClr d k)) := by
    have hp : shapeK .x (n + 2 ^ 31) (BitVec.toNat (0 : BitVec 16)) = some (.lane (.astatClr d k)) := by
      simp only [shapeK, shapeKX, e_op, e_0_16, f_d, f_k]
      simp
    simp only [decodeK, e_op, KClass.opcodes, hp]
    simp [KOp.wf, w]
  have h := kernel_alone .x 0 n _ (by omega) hs (Or.inl rfl)
  rw [e] at h
  exact h

theorem ascl (v : BitVec 7) (k : BitVec 3) (a : BitVec 7) (g : BitVec 3) : Statement (.ascl v k a g) := fun w _ => by
  obtain ⟨n, e⟩ : ∃ n, n = encodeWord (.ascl v k a g) := ⟨_, rfl⟩
  have h_v := v.isLt
  have h_k := k.isLt
  have h_a := a.isLt
  have h_g := g.isLt
  have e' : n = 402653184 + v.toNat * 524288 + k.toNat * 65536 + a.toNat * 64 + g.toNat * 4 := e
  have e_op := fld_of (n + 2 ^ 31) 26 5 6 (by omega)
  have e_0_2 := fld_of (n + 2 ^ 31) 0 2 0 (by omega)
  have e_5_1 := fld_of (n + 2 ^ 31) 5 1 0 (by omega)
  have e_13_3 := fld_of (n + 2 ^ 31) 13 3 0 (by omega)
  have f_v := bv_of v (n + 2 ^ 31) 19 (by omega)
  have f_k := bv_of k (n + 2 ^ 31) 16 (by omega)
  have f_a := bv_of a (n + 2 ^ 31) 6 (by omega)
  have f_g := bv_of g (n + 2 ^ 31) 2 (by omega)
  have hs : decodeK .x (n + 2 ^ 31) (BitVec.toNat (0 : BitVec 16)) = .inl (.lane (.ascl v k a g)) := by
    have hp : shapeK .x (n + 2 ^ 31) (BitVec.toNat (0 : BitVec 16)) = some (.lane (.ascl v k a g)) := by
      simp only [shapeK, shapeKX, e_op, e_0_2, e_5_1, e_13_3, f_v, f_k, f_a, f_g]
      simp
    simp only [decodeK, e_op, KClass.opcodes, hp]
    simp [KOp.wf, w]
  have h := kernel_alone .x 0 n _ (by omega) hs (Or.inl rfl)
  rw [e] at h
  exact h

theorem pset (k : BitVec 3) (a : BitVec 7) : Statement (.pset k a) := fun w _ => by
  obtain ⟨n, e⟩ : ∃ n, n = encodeWord (.pset k a) := ⟨_, rfl⟩
  have h_k := k.isLt
  have h_a := a.isLt
  have e' : n = 0 + k.toNat * 32768 + a.toNat * 256 := e
  have e_op := fld_of (n + 2 ^ 31) 26 5 0 (by omega)
  have e_0_8 := fld_of (n + 2 ^ 31) 0 8 0 (by omega)
  have e_18_8 := fld_of (n + 2 ^ 31) 18 8 0 (by omega)
  have f_k := bv_of k (n + 2 ^ 31) 15 (by omega)
  have f_a := bv_of a (n + 2 ^ 31) 8 (by omega)
  have hs : decodeK .c (n + 2 ^ 31) (BitVec.toNat (0 : BitVec 16)) = .inl (.seq (.pset k a)) := by
    have hp : shapeK .c (n + 2 ^ 31) (BitVec.toNat (0 : BitVec 16)) = some (.seq (.pset k a)) := by
      simp only [shapeK, shapeKC, e_op, e_0_8, e_18_8, f_k, f_a]
      simp
    have w' : SeqOp.wf (.pset k a) = true := w
    simp only [decodeK, e_op, KClass.opcodes, hp]
    simp [KOp.wf, w']
  have h := kernel_alone .c 0 n _ (by omega) hs (Or.inl rfl)
  rw [e] at h
  exact h

theorem psetImm (k : BitVec 3) (a : BitVec 7) (lit : BitVec 16) : Statement (.psetImm k a lit) := fun w _ => by
  obtain ⟨n, e⟩ : ∃ n, n = encodeWord (.psetImm k a lit) := ⟨_, rfl⟩
  have h_k := k.isLt
  have h_a := a.isLt
  have h_lit := lit.isLt
  have e' : n = 1 + k.toNat * 32768 + a.toNat * 256 := e
  have e_op := fld_of (n + 2 ^ 31) 26 5 0 (by omega)
  have e_0_8 := fld_of (n + 2 ^ 31) 0 8 1 (by omega)
  have e_18_8 := fld_of (n + 2 ^ 31) 18 8 0 (by omega)
  have f_k := bv_of k (n + 2 ^ 31) 15 (by omega)
  have f_a := bv_of a (n + 2 ^ 31) 8 (by omega)
  have hs : decodeK .c (n + 2 ^ 31) (BitVec.toNat lit) = .inl (.seq (.psetImm k a lit)) := by
    have hp : shapeK .c (n + 2 ^ 31) (BitVec.toNat lit) = some (.seq (.psetImm k a lit)) := by
      simp only [shapeK, shapeKC, e_op, e_0_8, e_18_8, f_k, f_a, BitVec.ofNat_toNat, BitVec.setWidth_eq]
      simp
    have w' : SeqOp.wf (.psetImm k a lit) = true := w
    simp only [decodeK, e_op, KClass.opcodes, hp]
    simp [KOp.wf, w']
  have h := kernel_alone .c lit n _ (by omega) hs (Or.inr rfl)
  rw [e] at h
  exact h

theorem psetHi (k : BitVec 3) (a : BitVec 7) (lit : BitVec 16) : Statement (.psetHi k a lit) := fun w _ => by
  obtain ⟨n, e⟩ : ∃ n, n = encodeWord (.psetHi k a lit) := ⟨_, rfl⟩
  have h_k := k.isLt
  have h_a := a.isLt
  have h_lit := lit.isLt
  have e' : n = 2 + k.toNat * 32768 + a.toNat * 256 := e
  have e_op := fld_of (n + 2 ^ 31) 26 5 0 (by omega)
  have e_0_8 := fld_of (n + 2 ^ 31) 0 8 2 (by omega)
  have e_18_8 := fld_of (n + 2 ^ 31) 18 8 0 (by omega)
  have f_k := bv_of k (n + 2 ^ 31) 15 (by omega)
  have f_a := bv_of a (n + 2 ^ 31) 8 (by omega)
  have hs : decodeK .c (n + 2 ^ 31) (BitVec.toNat lit) = .inl (.seq (.psetHi k a lit)) := by
    have hp : shapeK .c (n + 2 ^ 31) (BitVec.toNat lit) = some (.seq (.psetHi k a lit)) := by
      simp only [shapeK, shapeKC, e_op, e_0_8, e_18_8, f_k, f_a, BitVec.ofNat_toNat, BitVec.setWidth_eq]
      simp
    have w' : SeqOp.wf (.psetHi k a lit) = true := w
    simp only [decodeK, e_op, KClass.opcodes, hp]
    simp [KOp.wf, w']
  have h := kernel_alone .c lit n _ (by omega) hs (Or.inr rfl)
  rw [e] at h
  exact h

theorem psetAdd (k : BitVec 3) (a : BitVec 7) (lit : BitVec 16) : Statement (.psetAdd k a lit) := fun w _ => by
  obtain ⟨n, e⟩ : ∃ n, n = encodeWord (.psetAdd k a lit) := ⟨_, rfl⟩
  have h_k := k.isLt
  have h_a := a.isLt
  have h_lit := lit.isLt
  have e' : n = 3 + k.toNat * 32768 + a.toNat * 256 := e
  have e_op := fld_of (n + 2 ^ 31) 26 5 0 (by omega)
  have e_0_8 := fld_of (n + 2 ^ 31) 0 8 3 (by omega)
  have e_18_8 := fld_of (n + 2 ^ 31) 18 8 0 (by omega)
  have f_k := bv_of k (n + 2 ^ 31) 15 (by omega)
  have f_a := bv_of a (n + 2 ^ 31) 8 (by omega)
  have hs : decodeK .c (n + 2 ^ 31) (BitVec.toNat lit) = .inl (.seq (.psetAdd k a lit)) := by
    have hp : shapeK .c (n + 2 ^ 31) (BitVec.toNat lit) = some (.seq (.psetAdd k a lit)) := by
      simp only [shapeK, shapeKC, e_op, e_0_8, e_18_8, f_k, f_a, BitVec.ofNat_toNat, BitVec.setWidth_eq]
      simp
    have w' : SeqOp.wf (.psetAdd k a lit) = true := w
    simp only [decodeK, e_op, KClass.opcodes, hp]
    simp [KOp.wf, w']
  have h := kernel_alone .c lit n _ (by omega) hs (Or.inr rfl)
  rw [e] at h
  exact h

theorem mpost (r : BitVec 8) (n0 : BitVec 2) (d : BitVec 5) (e0 : BitVec 5) : Statement (.mpost r n0 d e0) := fun w _ => by
  obtain ⟨n, e⟩ : ∃ n, n = encodeWord (.mpost r n0 d e0) := ⟨_, rfl⟩
  have h_r := r.isLt
  have h_n0 := n0.isLt
  have h_d := d.isLt
  have h_e0 := e0.isLt
  have e' : n = 67108864 + r.toNat * 262144 + n0.toNat * 65536 + d.toNat * 2048 + e0.toNat * 64 := e
  have e_op := fld_of (n + 2 ^ 31) 26 5 1 (by omega)
  have e_0_6 := fld_of (n + 2 ^ 31) 0 6 0 (by omega)
  have f_r := bv_of r (n + 2 ^ 31) 18 (by omega)
  have f_n0 := bv_of n0 (n + 2 ^ 31) 16 (by omega)
  have f_d := bv_of d (n + 2 ^ 31) 11 (by omega)
  have f_e0 := bv_of e0 (n + 2 ^ 31) 6 (by omega)
  have hs : decodeK .c (n + 2 ^ 31) (BitVec.toNat (0 : BitVec 16)) = .inl (.seq (.mpost r n0 d e0)) := by
    have hp : shapeK .c (n + 2 ^ 31) (BitVec.toNat (0 : BitVec 16)) = some (.seq (.mpost r n0 d e0)) := by
      simp only [shapeK, shapeKC, e_op, e_0_6, f_r, f_n0, f_d, f_e0]
      simp
    have w' : SeqOp.wf (.mpost r n0 d e0) = true := w
    simp only [decodeK, e_op, KClass.opcodes, hp]
    simp [KOp.wf, w']
  have h := kernel_alone .c 0 n _ (by omega) hs (Or.inl rfl)
  rw [e] at h
  exact h

theorem loop (c : BitVec 2) (n0 : BitVec 11) (l : BitVec 12) : Statement (.loop c n0 l) := fun w _ => by
  obtain ⟨n, e⟩ : ∃ n, n = encodeWord (.loop c n0 l) := ⟨_, rfl⟩
  have h_c := c.isLt
  have h_n0 := n0.isLt
  have h_l := l.isLt
  have e' : n = 0 + c.toNat * 16777216 + n0.toNat * 4096 + l.toNat := e
  have e_op := fld_of (n + 2 ^ 31) 26 5 0 (by omega)
  have e_23_1 := fld_of (n + 2 ^ 31) 23 1 0 (by omega)
  have f_c := bv_of c (n + 2 ^ 31) 24 (by omega)
  have f_n0 := bv_of n0 (n + 2 ^ 31) 12 (by omega)
  have f_l := bv_of l (n + 2 ^ 31) 0 (by omega)
  have hs : decodeK .b (n + 2 ^ 31) (BitVec.toNat (0 : BitVec 16)) = .inl (.seq (.loop c n0 l)) := by
    have hp : shapeK .b (n + 2 ^ 31) (BitVec.toNat (0 : BitVec 16)) = some (.seq (.loop c n0 l)) := by
      simp only [shapeK, shapeKB, e_op, e_23_1, f_c, f_n0, f_l]
      simp
    have w' : SeqOp.wf (.loop c n0 l) = true := w
    simp only [decodeK, e_op, KClass.opcodes, hp]
    simp [KOp.wf, w']
  have h := kernel_alone .b 0 n _ (by omega) hs (Or.inl rfl)
  rw [e] at h
  exact h

theorem loopP (c : BitVec 2) (p : BitVec 3) (l : BitVec 12) : Statement (.loopP c p l) := fun w _ => by
  obtain ⟨n, e⟩ : ∃ n, n = encodeWord (.loopP c p l) := ⟨_, rfl⟩
  have h_c := c.isLt
  have h_p := p.isLt
  have h_l := l.isLt
  have e' : n = 8388608 + c.toNat * 16777216 + p.toNat * 4096 + l.toNat := e
  have e_op := fld_of (n + 2 ^ 31) 26 5 0 (by omega)
  have e_23_1 := fld_of (n + 2 ^ 31) 23 1 1 (by omega)
  have e_15_9 := fld_of (n + 2 ^ 31) 15 9 256 (by omega)
  have f_c := bv_of c (n + 2 ^ 31) 24 (by omega)
  have f_p := bv_of p (n + 2 ^ 31) 12 (by omega)
  have f_l := bv_of l (n + 2 ^ 31) 0 (by omega)
  have hs : decodeK .b (n + 2 ^ 31) (BitVec.toNat (0 : BitVec 16)) = .inl (.seq (.loopP c p l)) := by
    have hp : shapeK .b (n + 2 ^ 31) (BitVec.toNat (0 : BitVec 16)) = some (.seq (.loopP c p l)) := by
      simp only [shapeK, shapeKB, e_op, e_23_1, e_15_9, f_c, f_p, f_l]
      simp
    have w' : SeqOp.wf (.loopP c p l) = true := w
    simp only [decodeK, e_op, KClass.opcodes, hp]
    simp [KOp.wf, w']
  have h := kernel_alone .b 0 n _ (by omega) hs (Or.inl rfl)
  rw [e] at h
  exact h

theorem bra (y : BitVec 1) (q : BitVec 3) (i : BitVec 18) : Statement (.bra y q i) := fun w _ => by
  obtain ⟨n, e⟩ : ∃ n, n = encodeWord (.bra y q i) := ⟨_, rfl⟩
  have h_y := y.isLt
  have h_q := q.isLt
  have h_i := i.isLt
  have e' : n = 67108864 + y.toNat * 33554432 + q.toNat * 4194304 + i.toNat := e
  have e_op := fld_of (n + 2 ^ 31) 26 5 1 (by omega)
  have e_18_4 := fld_of (n + 2 ^ 31) 18 4 0 (by omega)
  have f_y := bv_of y (n + 2 ^ 31) 25 (by omega)
  have f_q := bv_of q (n + 2 ^ 31) 22 (by omega)
  have f_i := bv_of i (n + 2 ^ 31) 0 (by omega)
  have hs : decodeK .b (n + 2 ^ 31) (BitVec.toNat (0 : BitVec 16)) = .inl (.seq (.bra y q i)) := by
    have hp : shapeK .b (n + 2 ^ 31) (BitVec.toNat (0 : BitVec 16)) = some (.seq (.bra y q i)) := by
      simp only [shapeK, shapeKB, e_op, e_18_4, f_y, f_q, f_i]
      simp
    have w' : SeqOp.wf (.bra y q i) = true := w
    simp only [decodeK, e_op, KClass.opcodes, hp]
    simp [KOp.wf, w']
  have h := kernel_alone .b 0 n _ (by omega) hs (Or.inl rfl)
  rw [e] at h
  exact h

theorem kJmp (i : BitVec 18) : Statement (.kJmp i) := fun w _ => by
  obtain ⟨n, e⟩ : ∃ n, n = encodeWord (.kJmp i) := ⟨_, rfl⟩
  have h_i := i.isLt
  have e' : n = 134217728 + i.toNat := e
  have e_op := fld_of (n + 2 ^ 31) 26 5 2 (by omega)
  have e_18_8 := fld_of (n + 2 ^ 31) 18 8 0 (by omega)
  have f_i := bv_of i (n + 2 ^ 31) 0 (by omega)
  have hs : decodeK .b (n + 2 ^ 31) (BitVec.toNat (0 : BitVec 16)) = .inl (.seq (.kJmp i)) := by
    have hp : shapeK .b (n + 2 ^ 31) (BitVec.toNat (0 : BitVec 16)) = some (.seq (.kJmp i)) := by
      simp only [shapeK, shapeKB, e_op, e_18_8, f_i]
      simp
    have w' : SeqOp.wf (.kJmp i) = true := w
    simp only [decodeK, e_op, KClass.opcodes, hp]
    simp [KOp.wf, w']
  have h := kernel_alone .b 0 n _ (by omega) hs (Or.inl rfl)
  rw [e] at h
  exact h

theorem kend : Statement (.kend) := fun w _ => by
  obtain ⟨n, e⟩ : ∃ n, n = encodeWord (.kend) := ⟨_, rfl⟩
  have e' : n = 201326592 := e
  have e_op := fld_of (n + 2 ^ 31) 26 5 3 (by omega)
  have e_0_26 := fld_of (n + 2 ^ 31) 0 26 0 (by omega)
  have hs : decodeK .b (n + 2 ^ 31) (BitVec.toNat (0 : BitVec 16)) = .inl (.seq (.kend)) := by
    have hp : shapeK .b (n + 2 ^ 31) (BitVec.toNat (0 : BitVec 16)) = some (.seq (.kend)) := by
      simp only [shapeK, shapeKB, e_op, e_0_26]
      simp
    have w' : SeqOp.wf (.kend) = true := w
    simp only [decodeK, e_op, KClass.opcodes, hp]
    simp [KOp.wf, w']
  have h := kernel_alone .b 0 n _ (by omega) hs (Or.inl rfl)
  rw [e] at h
  exact h

theorem ktrap (c : BitVec 16) : Statement (.ktrap c) := fun w _ => by
  obtain ⟨n, e⟩ : ∃ n, n = encodeWord (.ktrap c) := ⟨_, rfl⟩
  have h_c := c.isLt
  have e' : n = 268435456 + c.toNat := e
  have e_op := fld_of (n + 2 ^ 31) 26 5 4 (by omega)
  have e_16_10 := fld_of (n + 2 ^ 31) 16 10 0 (by omega)
  have f_c := bv_of c (n + 2 ^ 31) 0 (by omega)
  have hs : decodeK .b (n + 2 ^ 31) (BitVec.toNat (0 : BitVec 16)) = .inl (.seq (.ktrap c)) := by
    have hp : shapeK .b (n + 2 ^ 31) (BitVec.toNat (0 : BitVec 16)) = some (.seq (.ktrap c)) := by
      simp only [shapeK, shapeKB, e_op, e_16_10, f_c]
      simp
    have w' : SeqOp.wf (.ktrap c) = true := w
    simp only [decodeK, e_op, KClass.opcodes, hp]
    simp [KOp.wf, w']
  have h := kernel_alone .b 0 n _ (by omega) hs (Or.inl rfl)
  rw [e] at h
  exact h

theorem idle (n0 : BitVec 12) : Statement (.idle n0) := fun w _ => by
  obtain ⟨n, e⟩ : ∃ n, n = encodeWord (.idle n0) := ⟨_, rfl⟩
  have h_n0 := n0.isLt
  have e' : n = 335544320 + n0.toNat := e
  have e_op := fld_of (n + 2 ^ 31) 26 5 5 (by omega)
  have e_12_14 := fld_of (n + 2 ^ 31) 12 14 0 (by omega)
  have f_n0 := bv_of n0 (n + 2 ^ 31) 0 (by omega)
  have hs : decodeK .b (n + 2 ^ 31) (BitVec.toNat (0 : BitVec 16)) = .inl (.seq (.idle n0)) := by
    have hp : shapeK .b (n + 2 ^ 31) (BitVec.toNat (0 : BitVec 16)) = some (.seq (.idle n0)) := by
      simp only [shapeK, shapeKB, e_op, e_12_14, f_n0]
      simp
    have w' : SeqOp.wf (.idle n0) = true := w
    simp only [decodeK, e_op, KClass.opcodes, hp]
    simp [KOp.wf, w']
  have h := kernel_alone .b 0 n _ (by omega) hs (Or.inl rfl)
  rw [e] at h
  exact h

theorem mwaitk (q : BitVec 3) (p : BitVec 3) : Statement (.mwaitk q p) := fun w _ => by
  obtain ⟨n, e⟩ : ∃ n, n = encodeWord (.mwaitk q p) := ⟨_, rfl⟩
  have h_q := q.isLt
  have h_p := p.isLt
  have e' : n = 402653184 + q.toNat * 8388608 + p.toNat * 1048576 := e
  have e_op := fld_of (n + 2 ^ 31) 26 5 6 (by omega)
  have e_0_20 := fld_of (n + 2 ^ 31) 0 20 0 (by omega)
  have f_q := bv_of q (n + 2 ^ 31) 23 (by omega)
  have f_p := bv_of p (n + 2 ^ 31) 20 (by omega)
  have hs : decodeK .b (n + 2 ^ 31) (BitVec.toNat (0 : BitVec 16)) = .inl (.seq (.mwaitk q p)) := by
    have hp : shapeK .b (n + 2 ^ 31) (BitVec.toNat (0 : BitVec 16)) = some (.seq (.mwaitk q p)) := by
      simp only [shapeK, shapeKB, e_op, e_0_20, f_q, f_p]
      simp
    have w' : SeqOp.wf (.mwaitk q p) = true := w
    simp only [decodeK, e_op, KClass.opcodes, hp]
    simp [KOp.wf, w']
  have h := kernel_alone .b 0 n _ (by omega) hs (Or.inl rfl)
  rw [e] at h
  exact h

theorem routineStart (core : Nat) : Statement (.routineStart core) := fun _ h => absurd rfl h

theorem mroutCopy (core : Nat) : Statement (.mroutCopy core) := fun _ h => absurd rfl h

theorem routineRetire (core : Nat) : Statement (.routineRetire core) := fun _ h => absurd rfl h

/-- A move's bits give the move back. -/
theorem move_of (m : Move) : moveOf m.bits = m := by
  obtain ⟨g, sel, src, dst, imm⟩ := m
  obtain ⟨n, e⟩ : ∃ n, n = Move.bits ⟨g, sel, src, dst, imm⟩ := ⟨_, rfl⟩
  have h1 := sel.isLt
  have h2 := src.isLt
  have h3 := dst.isLt
  have h4 := imm.isLt
  rw [← e]
  have e' : n = (if g then 2 ^ 30 else 0) + sel.toNat * 2 ^ 27 + src.toNat * 2 ^ 21 + dst.toNat * 2 ^ 15 +
    imm.toNat := e
  have hg : decide (fld n 30 1 = 1) = g := by
    cases g
    · simp only [Bool.false_eq_true, if_false] at e'
      simp [fld_of n 30 1 0 (by omega)]
    · simp only [if_true] at e'
      simp [fld_of n 30 1 1 (by omega)]
  have e2 : ∃ z, z ≤ 2 ^ 30 ∧ z % 2 ^ 30 = 0 ∧ n = z + sel.toNat * 2 ^ 27 + src.toNat * 2 ^ 21 + dst.toNat * 2 ^ 15 +
    imm.toNat := ⟨if g then 2 ^ 30 else 0, by split <;> omega, by split <;> omega, e'⟩
  obtain ⟨z, hz, hz', e2⟩ := e2
  simp only [moveOf, hg, bv_of sel n 27 (by omega), bv_of src n 21 (by omega), bv_of dst n 15 (by omega),
    bv_of imm n 0 (by omega)]

theorem move_lt (m : Move) : m.bits < 2 ^ 31 := by
  obtain ⟨g, sel, src, dst, imm⟩ := m
  have h1 := sel.isLt
  have h2 := src.isLt
  have h3 := dst.isLt
  have h4 := imm.isLt
  simp only [Move.bits]
  split <;> omega

/-- A routine word's halves make it up. -/
theorem plane_alone (w : Nat) (r : RWord) (h : decodeRoutine w = some r) :
    decodeAlone .plane [w % 2 ^ 32, w / 2 ^ 32] = some r.instr := by
  simp only [decodeAlone, Nat.div_add_mod', h, Option.map_some]

theorem movePair (m1 m2 : Move) : Statement (.movePair m1 m2) := fun w _ => by
  obtain ⟨n, e⟩ : ∃ n, n = encodeRoutine (.movePair m1 m2) := ⟨_, rfl⟩
  have h1 := move_lt m1
  have h2 := move_lt m2
  have e' : n = m1.bits * 2 ^ 31 + m2.bits := e
  have hr : decodeRoutine n = some (.pair m1 m2) := by
    have hw : RWord.wf (.pair m1 m2) = true := w
    simp only [decodeRoutine, shapeRoutine, fld_of n 62 2 0 (by omega), fld_of n 31 31 m1.bits (by omega),
      fld_of n 0 31 m2.bits (by omega), move_of]
    simp [hw]
  have h := plane_alone n _ hr
  rw [e] at h
  exact h

theorem loopr (k : BitVec 2) (port : BitVec 6) (len : BitVec 12) : Statement (.loopr k port len) := fun w _ => by
  obtain ⟨n, e⟩ : ∃ n, n = encodeRoutine (.loopr k port len) := ⟨_, rfl⟩
  have h1 := k.isLt
  have h2 := port.isLt
  have h3 := len.isLt
  have e' : n = 1 * 2 ^ 62 + k.toNat * 2 ^ 57 + port.toNat * 2 ^ 51 + len.toNat := e
  have hr : decodeRoutine n = some (.loopr k port len) := by
    have hw : RWord.wf (.loopr k port len) = true := w
    simp only [decodeRoutine, shapeRoutine, fld_of n 62 2 1 (by omega), fld_of n 59 3 0 (by omega),
      fld_of n 12 39 0 (by omega), bv_of k n 57 (by omega), bv_of port n 51 (by omega), bv_of len n 0 (by omega)]
    simp [hw]
  have h := plane_alone n _ hr
  rw [e] at h
  exact h

theorem brg (g : BitVec 3) (disp : BitVec 13) : Statement (.brg g disp) := fun w _ => by
  obtain ⟨n, e⟩ : ∃ n, n = encodeRoutine (.brg g disp) := ⟨_, rfl⟩
  have h1 := g.isLt
  have h2 := disp.isLt
  have e' : n = 1 * 2 ^ 62 + 1 * 2 ^ 59 + 1 * 2 ^ 58 + g.toNat * 2 ^ 55 + disp.toNat := e
  have hr : decodeRoutine n = some (.brg g disp) := by
    simp only [decodeRoutine, shapeRoutine, fld_of n 62 2 1 (by omega), fld_of n 59 3 1 (by omega),
      fld_of n 58 1 1 (by omega), fld_of n 13 42 0 (by omega), bv_of g n 55 (by omega), bv_of disp n 0 (by omega)]
    simp [RWord.wf]
  have h := plane_alone n _ hr
  rw [e] at h
  exact h

theorem jmpr (disp : BitVec 13) : Statement (.jmpr disp) := fun w _ => by
  obtain ⟨n, e⟩ : ∃ n, n = encodeRoutine (.jmpr disp) := ⟨_, rfl⟩
  have h2 := disp.isLt
  have e' : n = 1 * 2 ^ 62 + 2 * 2 ^ 59 + disp.toNat := e
  have hr : decodeRoutine n = some (.jmpr disp) := by
    simp only [decodeRoutine, shapeRoutine, fld_of n 62 2 1 (by omega), fld_of n 59 3 2 (by omega),
      fld_of n 13 46 0 (by omega), bv_of disp n 0 (by omega)]
    simp [RWord.wf]
  have h := plane_alone n _ hr
  rw [e] at h
  exact h

theorem setw (g : Option (BitVec 3)) (port : BitVec 6) (imm : Word32) : Statement (.setw g port imm) := fun w _ => by
  obtain ⟨n, e⟩ : ∃ n, n = encodeRoutine (.setw g port imm) := ⟨_, rfl⟩
  have h2 := port.isLt
  have h3 := imm.isLt
  have hw : RWord.wf (.setw g port imm) = true := w
  have hr : decodeRoutine n = some (.setw g port imm) := by
    cases g with
    | none =>
      have e' : n = 2 * 2 ^ 62 + port.toNat * 2 ^ 52 + imm.toNat := e
      simp only [decodeRoutine, shapeRoutine, fld_of n 62 2 2 (by omega), fld_of n 32 20 0 (by omega),
        fld_of n 61 1 0 (by omega), bv_of port n 52 (by omega), bv_of imm n 0 (by omega)]
      simp [hw]
    | some g =>
      have h1 := g.isLt
      have e' : n = 2 * 2 ^ 62 + 1 * 2 ^ 61 + g.toNat * 2 ^ 58 + port.toNat * 2 ^ 52 + imm.toNat := e
      simp only [decodeRoutine, shapeRoutine, fld_of n 62 2 2 (by omega), fld_of n 32 20 0 (by omega),
        fld_of n 61 1 1 (by omega), bv_of g n 58 (by omega), bv_of port n 52 (by omega), bv_of imm n 0 (by omega)]
      simp [hw]
  have h := plane_alone n _ hr
  rw [e] at h
  exact h

theorem aload (v : Word32) (cl : BitVec 8) : Statement (.aload v cl) := fun _ h => absurd rfl h

theorem bload (v : Word32) (cl : BitVec 8) : Statement (.bload v cl) := fun _ h => absurd rfl h

theorem expo (v : Word32) (cl : BitVec 8) : Statement (.expo v cl) := fun _ h => absurd rfl h

theorem pass (v : Word32) (cl : BitVec 8) : Statement (.pass v cl) := fun _ h => absurd rfl h

theorem aswapExchange (k : BitVec 3) (cl : BitVec 8) : Statement (.aswapExchange k cl) := fun _ h => absurd rfl h

theorem aswapStore (k : BitVec 3) (cl : BitVec 8) : Statement (.aswapStore k cl) := fun _ h => absurd rfl h

theorem aswapSpill (k : BitVec 3) (indexed : Bool) (cl : BitVec 8) : Statement (.aswapSpill k indexed cl) := fun _ h => absurd rfl h

theorem aclr (cl : BitVec 8) : Statement (.aclr cl) := fun _ h => absurd rfl h

theorem xdep (k : BitVec 3) (a4 : Bool) (cl : BitVec 8) : Statement (.xdep k a4 cl) := fun _ h => absurd rfl h

theorem done : Statement (.done) := fun _ h => absurd rfl h

theorem addt (v : Word32) (cl : BitVec 8) : Statement (.addt v cl) := fun _ h => absurd rfl h

theorem cmpt (v : Word32) (cl : BitVec 8) : Statement (.cmpt v cl) := fun _ h => absurd rfl h

theorem mile (q : BitVec 3) (p : BitVec 3) : Statement (.mile q p) := fun _ h => absurd rfl h

theorem pairLock (cx : Nat) : Statement (.pairLock cx) := fun _ h => absurd rfl h

theorem pairRelease (cx : Nat) : Statement (.pairRelease cx) := fun _ h => absurd rfl h

theorem blockReadAdmit (cx : Nat) (q : Queue) : Statement (.blockReadAdmit cx q) := fun _ h => absurd rfl h

theorem wsBankRefresh (die bank : Nat) : Statement (.wsBankRefresh die bank) := fun _ h => absurd rfl h

theorem wsBankService (die bank : Nat) : Statement (.wsBankService die bank) := fun _ h => absurd rfl h

theorem wsEnterLoad (die : Nat) : Statement (.wsEnterLoad die) := fun _ h => absurd rfl h

theorem wsSealComplete (die : Nat) : Statement (.wsSealComplete die) := fun _ h => absurd rfl h

theorem treeBindExecute (die cmd : Nat) : Statement (.treeBindExecute die cmd) := fun _ h => absurd rfl h

theorem descent (die cmd : Nat) : Statement (.descent die cmd) := fun _ h => absurd rfl h

theorem expansionEntry (die cmd : Nat) : Statement (.expansionEntry die cmd) := fun _ h => absurd rfl h

theorem backupRecord (die cmd : Nat) : Statement (.backupRecord die cmd) := fun _ h => absurd rfl h

theorem treeRerootExecute (die cmd : Nat) : Statement (.treeRerootExecute die cmd) := fun _ h => absurd rfl h

theorem treeSweepExecute (die cmd : Nat) : Statement (.treeSweepExecute die cmd) := fun _ h => absurd rfl h

theorem treePathExecute (die cmd : Nat) : Statement (.treePathExecute die cmd) := fun _ h => absurd rfl h

theorem treeReadExecute (die cmd : Nat) : Statement (.treeReadExecute die cmd) := fun _ h => absurd rfl h

theorem treeFlushExecute (die cmd : Nat) : Statement (.treeFlushExecute die cmd) := fun _ h => absurd rfl h

theorem ticketGapTimeout (die arena : Nat) : Statement (.ticketGapTimeout die arena) := fun _ h => absurd rfl h

theorem nodeCacheEviction (die arena line : Nat) : Statement (.nodeCacheEviction die arena line) := fun _ h => absurd rfl h

theorem takeRecord (src : Source) : Statement (.takeRecord src) := fun _ h => absurd rfl h

theorem placement (task : Nat) : Statement (.placement task) := fun _ h => absurd rfl h

theorem restore (task : Nat) : Statement (.restore task) := fun _ h => absurd rfl h

theorem swap (cx : Nat) : Statement (.swap cx) := fun _ h => absurd rfl h

theorem preemption (task : Nat) : Statement (.preemption task) := fun _ h => absurd rfl h

theorem spill (task : Nat) : Statement (.spill task) := fun _ h => absurd rfl h

theorem agingMove (task : Nat) : Statement (.agingMove task) := fun _ h => absurd rfl h

theorem reserving (task : Nat) : Statement (.reserving task) := fun _ h => absurd rfl h

theorem taskRetirement (cx : Nat) : Statement (.taskRetirement cx) := fun _ h => absurd rfl h

theorem waymarkArrival (cx : Nat) : Statement (.waymarkArrival cx) := fun _ h => absurd rfl h

theorem semWaiterServed (core sem : Nat) : Statement (.semWaiterServed core sem) := fun _ h => absurd rfl h

theorem kick (q : Nat) (tail : BitVec 32) : Statement (.kick q tail) := fun _ h => absurd rfl h

theorem partCreate (part : Byte) (cores : BitVec 96) (key tag : Byte) : Statement (.partCreate part cores key tag) := fun _ h => absurd rfl h

theorem partDestroy (part : Byte) : Statement (.partDestroy part) := fun _ h => absurd rfl h

theorem amapWrite (host : Bool) (granule : BitVec 31) (entry : Word) : Statement (.amapWrite host granule entry) := fun _ h => absurd rfl h

theorem pasidSet (pasid mode : BitVec 32) (root : Word) : Statement (.pasidSet pasid mode root) := fun _ h => absurd rfl h

theorem saveSet (part : Byte) (base bytes : Word) : Statement (.saveSet part base bytes) := fun _ h => absurd rfl h

theorem queuePriv (part : Byte) (desc slot : Word) : Statement (.queuePriv part desc slot) := fun _ h => absurd rfl h

theorem taskEnd (part : Byte) (taskId : BitVec 32) : Statement (.taskEnd part taskId) := fun _ h => absurd rfl h

theorem fringSet (base entries : Word) : Statement (.fringSet base entries) := fun _ h => absurd rfl h

theorem migrateExecute (cx : Nat) : Statement (.migrateExecute cx) := fun _ h => absurd rfl h

theorem migrateClose (cx : Nat) : Statement (.migrateClose cx) := fun _ h => absurd rfl h

theorem scrubLine (cx : Nat) (ecc : Ecc) : Statement (.scrubLine cx ecc) := fun _ h => absurd rfl h

theorem patrol (die stack row : Nat) (line : Nat) (ecc : Ecc) : Statement (.patrol die stack row line ecc) := fun _ h => absurd rfl h

theorem patrolPeriodEnd (die stack : Nat) : Statement (.patrolPeriodEnd die stack) := fun _ h => absurd rfl h

theorem debugToken (addr : Word) : Statement (.debugToken addr) := fun _ h => absurd rfl h

theorem returnRecord (addr : Word) : Statement (.returnRecord addr) := fun _ h => absurd rfl h

theorem attest (addr : Word) : Statement (.attest addr) := fun _ h => absurd rfl h

theorem configurationRecord (rec : Word × Bool) : Statement (.configurationRecord rec) := fun _ h => absurd rfl h

theorem boot (up : BringUp) (hdm : Nat) : Statement (.boot up hdm) := fun _ h => absurd rfl h

theorem powerOff : Statement (.powerOff) := fun _ h => absurd rfl h

theorem pStateChange (die : Nat) (p : BitVec 2) : Statement (.pStateChange die p) := fun _ h => absurd rfl h

theorem retrain (die stack : Nat) : Statement (.retrain die stack) := fun _ h => absurd rfl h

theorem c1Entry (core : Nat) : Statement (.c1Entry core) := fun _ h => absurd rfl h

theorem c1Exit (core : Nat) : Statement (.c1Exit core) := fun _ h => absurd rfl h

theorem c3Entry (die : Nat) : Statement (.c3Entry die) := fun _ h => absurd rfl h

theorem c3Exit (die : Nat) : Statement (.c3Exit die) := fun _ h => absurd rfl h

theorem priEnable : Statement (.priEnable) := fun _ h => absurd rfl h

theorem debugRequest (part : Nat) (act : DebugAct) (core : Nat) : Statement (.debugRequest part act core) := fun _ h => absurd rfl h

theorem retrainEnd (die stack : Nat) : Statement (.retrainEnd die stack) := fun _ h => absurd rfl h

theorem queueDestroyed (q : Nat) : Statement (.queueDestroyed q) := fun _ h => absurd rfl h

end Sys2Proof.Laws.Coding
end

