-- ==== Sys2Proof/Tests/Slice0.lean ====
section
/-!
SUPPORT. Tests: small steps, decoded words, and witnesses of the statements' hypotheses. `wit_…`: concrete states and operands that meet the hypotheses of a statement, by its name,
clause by clause where its clauses exclude each other (`wit_rules_…`: that the rules of the grouped statements cover
each instruction they name). Hypotheses about an opaque constant (a free value, a signature, a row's number) have
no concrete witness: they are left out here. `test_…`: small steps and words whose results come from the spec's
tables, or from its rules by hand. Instructions are named as the spec's bundles and packets hold them.
-/

namespace Sys2Proof.Tests

set_option Elab.async false

open Sys2Proof Sys2Proof.Machine Sys2Proof.Claims

/-! ### Scalar instructions -/

/-- A small state: one running context, number 5, in focus. -/
def one (c : Ctx) : State := { ctxs := [(5, { c with status := .running })], focus := 5 }

/-- Scalar registers x1, x2, … with these values, untagged. -/
def xs (vs : List Word) : SMap Reg := (List.range vs.length).map fun k => (k + 1, ⟨vs.getD k 0, false⟩)

/-- The state after an instruction; the state before, where it does not go on. -/
def after (i : Instr) (s : State) : State :=
  match exec i s with
  | .next t => t
  | _ => s

/-- What x1 holds after an instruction run with x2, x3 and x4. -/
def alu (i : Instr) (a b c : Word) : Word := (after i (one { x := xs [0, a, b, c] })).rdX 5 1

theorem test_alu :
    alu (.add 1 2 3) (-1) 1 0 = 0 ∧ alu (.sub 1 2 3) 0 1 0 = -1 ∧ alu (.andn 1 2 3) 0xFF 0x0F 0 = 0xF0 ∧
    alu (.and_ 1 2 3) 12 10 0 = 8 ∧ alu (.or_ 1 2 3) 12 10 0 = 14 ∧ alu (.xor 1 2 3) 12 10 0 = 6 ∧
    alu (.shl 1 2 3) 1 65 0 = 2 ∧ alu (.shr 1 2 3) (-1) 63 0 = 1 ∧ alu (.sra 1 2 3) (-8) 2 0 = -2 ∧
    alu (.rol 1 2 3) 0x8000000000000001 1 0 = 3 ∧ alu (.minI 1 2 3) (-1) 1 0 = -1 ∧ alu (.minN 1 2 3) (-1) 1 0 = 1 ∧
    alu (.maxI 1 2 3) (-1) 1 0 = 1 ∧ alu (.maxN 1 2 3) (-1) 1 0 = -1 ∧ alu (.clz 1 2) 0 0 0 = 64 ∧
    alu (.popc 1 2) (-1) 0 0 = 64 ∧ alu (.sel 1 2 3 4) 7 8 0 = 8 := by decide +kernel

theorem test_mul_div :
    alu (.mulhI 1 2 3) (-1) 2 0 = -1 ∧ alu (.mulhN 1 2 3) (-1) 2 0 = 1 ∧ alu (.divI 1 2 3) (-7) 2 0 = -3 ∧
    alu (.divI 1 2 3) 7 0 0 = -1 ∧ alu (.remI 1 2 3) (-7) 2 0 = -1 ∧ alu (.remN 1 2 3) 7 0 0 = 7 ∧
    alu (.bfxNImm 1 2 8 60) 0xF000000000000000 0 0 = 15 ∧ alu (.bfxIImm 1 2 4 60) 0xF000000000000000 0 0 = -1 ∧
    alu (.cmp 1 2 3 4) (-1) 1 0 = 0 ∧ alu (.cmp 1 2 3 2) (-1) 1 0 = 1 := by decide +kernel

theorem wit_ScalarResults :
    let s := one { x := xs [1, 2, 3] }
    (aluRule (s.rdX s.focus) (s.tagX s.focus) (.add 1 2 3)).isSome ∧ Unhindered s [] ∧ Unhindered s [1, 2, 3] ∧
      (mulRule (s.rdX s.focus) (s.tagX s.focus) (.divI 1 2 0)).isSome ∧ Unhindered s [1, 2, 0] := by
  unfold Unhindered; decide +kernel

/-! ### Handles, loads and stores -/

/-- Ordinary device memory at addresses below 2^30: one tree page mapped by handle 1 for reading and writing,
by handle 2 for reading, and handles in the other states. -/
def page : Handle :=
  { state := .valid, va := 0x10000, base := 0x10000, phys := 0x20000, size := 1, read := true, write := true }

def handled : State :=
  one { x := xs [8, 3, 0x10001, 0xFF000, 5] ++ [(6, ⟨8, true⟩)], locBytes := 64, winBytes := 64,
        h := [(1, page), (2, { page with write := false }), (3, { page with state := .pending }),
          (4, { page with state := .faulted }), (5, { page with state := .refused }), (6, { page with host := true })] }

theorem wit_HandleAccesses : ∀ i ∈ [Instr.ld 9 1 3 ⟨0, none⟩, .ldAcq 9 1 2 ⟨1, none⟩, .ldx 9 1 3 1 0, .st 9 1 3 ⟨31, none⟩,
      .stRel 9 1 0 ⟨-1, some 0⟩, .stx 9 1 3 1 3, .amoAdd 9 1 2 1 1, .amoCas 9 1 2 1 0],
    ∃ m, accessRule (handled.rdX handled.focus) (handled.tagX handled.focus) i = some m ∧
      Unhindered handled m.regs ∧ m.bad = false ∧ (handleOf handled m).state = .valid ∧
      (addressOf handled m).toNat % m.n = 0 ∧ Within handled m ∧ Granted handled m ∧
      (placeOf handled m).1 = false := by
  unfold Unhindered Within Granted
  intro i hi
  simp only [List.mem_cons, List.not_mem_nil, or_false] at hi
  rcases hi with rfl | rfl | rfl | rfl | rfl | rfl | rfl | rfl <;> exact ⟨_, rfl, by decide +kernel⟩

theorem wit_HandleAccesses_stops : ∀ i ∈ [Instr.ldx 9 1 3 6 0, .ld 9 0 3 ⟨0, none⟩, .ld 9 3 3 ⟨0, none⟩,
      .ld 9 4 3 ⟨0, none⟩, .ld 9 5 3 ⟨0, none⟩, .ldx 9 1 3 2 0, .ldx 9 1 3 4 0, .st 9 2 3 ⟨0, none⟩, .amoAdd 9 1 2 6 1],
    ∃ m, accessRule (handled.rdX handled.focus) (handled.tagX handled.focus) i = some m ∧
      Unhindered handled m.regs ∧
      (m.bad = true ∨ (handleOf handled m).state ≠ .valid ∨ (addressOf handled m).toNat % m.n ≠ 0 ∨
        ¬ Within handled m ∨ ¬ Granted handled m ∨
        ((placeOf handled m).1 = true ∧ amSystem (handled.hmapEntry (placeOf handled m).2) = false)) := by
  unfold Unhindered Within Granted
  intro i hi
  simp only [List.mem_cons, List.not_mem_nil, or_false] at hi
  rcases hi with rfl | rfl | rfl | rfl | rfl | rfl | rfl | rfl | rfl <;> exact ⟨_, rfl, by decide +kernel⟩

/-- A load and an atomic of context 5 that their place has served. -/
def servedReq (op : ReqOp) : State :=
  { one {} with reqs := [{ newReq (one {}) 5 op 0 false 0 [] 0 with
      id := 3, served := some 0, due := some 0, data := [0xFE, 0xFF, 0xFF, 0xFF, 0, 0, 0, 0] }] }

theorem wit_ResultDelivery : ∀ op ∈ [ReqOp.load 1 1 true false, .load 1 8 false true, .amo .minI 1 false 0 0],
    ∃ r, (servedReq op).findReq 3 = some r ∧ r.served.isSome = true ∧ (servedReq op).mayComplete r = true := by
  intro i hi
  simp only [List.mem_cons, List.not_mem_nil, or_false] at hi
  rcases hi with rfl | rfl | rfl <;> exact ⟨_, rfl, by decide +kernel⟩

theorem test_load_extends : ((after (.loadResultDelivery 3) (servedReq (.load 1 1 true false))).rdX 5 1) = -2 ∧
    ((after (.loadResultDelivery 3) (servedReq (.load 1 4 false false))).rdX 5 1) = 0xFFFFFFFE := by decide +kernel

theorem wit_LocalAccesses : Unhindered handled [9, 1] ∧ Unhindered handled [9, 2] ∧ Unhindered handled [9, 6] ∧
    Unhindered handled [9, 4] ∧
    (handled.tagX handled.focus 1 = false ∧ localAddr handled 1 48 + 8 = localEnd handled false) ∧
    handled.tagX handled.focus 6 = true ∧ localAddr handled 2 0 % 2 ≠ 0 ∧
    (localAddr handled 4 0 % 8 = 0 ∧ localEnd handled true < localAddr handled 4 0 + 8) := by
  unfold Unhindered; decide +kernel

theorem test_local : (after (.ldl 9 1 0 4 ⟨-7, none⟩) (after (.stl 4 1 0 0 ⟨-7, none⟩) handled)).rdX 5 9 = 0 ∧
    (after (.ldl 9 1 1 4 ⟨0, none⟩) (after (.stl 3 1 1 3 ⟨0, none⟩) handled)).rdX 5 9 = 1 := by decide +kernel

theorem wit_HandlesAndTranslation : Unhindered handled [6] ∧ handled.tagX handled.focus 6 = true ∧
    Unhindered handled [1] ∧ handled.tagX handled.focus 1 = false ∧ Unhindered handled [] ∧ Unhindered handled [9] := by
  unfold Unhindered; decide +kernel

theorem wit_Drains_flag : Unhindered handled [] ∧ Unhindered handled [4, 1, 3] ∧ handled.tagX handled.focus 1 = false ∧
    (handled.ctx 5).handle 1 = page ∧ handled.postBlock handled.focus .rem false = none := by
  unfold Unhindered; decide +kernel

theorem wit_Drains_flagStore :
    let s := servedReq (.flagStore [1] false 0)
    ∃ r, s.findReq 3 = some r ∧ r.op = .flagStore [1] false 0 ∧ s.remote r = false ∧
      ∀ i ∈ r.after, s.outstanding i = false := ⟨_, rfl, by decide +kernel⟩

/-- A drain that waits for a store in flight, and one whose store has gone; a load whose result x1 awaits; a wait at another
package's semaphore. -/
theorem wit_Drains :
    let held := { one { drain := some [3] } with reqs := (servedReq (.store [1] false false)).reqs }
    let gone := one { drain := some [3] }
    let due := servedReq (.load 1 8 false false)
    let far := servedReq (.sem .wait 0 (2 ^ 16) 1)
    (∃ l, (held.ctx held.focus).drain = some l ∧ ∃ id ∈ l, held.outstanding id = true) ∧
      (∀ i ∈ (gone.ctx 5).drain.getD [], gone.outstanding i = false) ∧
      (∃ r ∈ due.reqs, r.cx = due.focus ∧ r.op.dest = some (1 : BitVec 5).toNat) ∧
      (∃ r ∈ far.reqs, r.cx = far.focus ∧ ∃ d ad v, r.op = .sem .wait d ad v ∨ r.op = .sem .acq d ad v) ∧
      (controlSlot (.add 1 2 3)).any (fun sl => sl.regs.contains 1) = true ∧
      (¬ ((∃ l, (handled.ctx handled.focus).drain = some l ∧ ∃ id ∈ l, handled.outstanding id = true) ∨
        ∃ r ∈ handled.reqs, r.cx = handled.focus ∧ ∃ d ad v, r.op = .sem .wait d ad v ∨ r.op = .sem .acq d ad v)) := by
  refine ⟨⟨[3], by decide +kernel, 3, by decide +kernel, by decide +kernel⟩, by decide +kernel,
    ⟨_, List.mem_singleton.2 rfl, by decide +kernel, by decide +kernel⟩,
    ⟨_, List.mem_singleton.2 rfl, by decide +kernel, 0, 2 ^ 16, 1, .inl rfl⟩, by decide +kernel, ?_⟩
  rintro (⟨l, h, -⟩ | ⟨r, h, -⟩)
  · rw [show (handled.ctx handled.focus).drain = none from by decide +kernel] at h
    cases h
  · exact absurd h List.not_mem_nil

/-! ### Translation, semaphores, control flow -/

/-- Handle 3 of context 5 is PENDING and due, and the core caches its page; handle 4 waits for its walk, whose
table at 0x1000 leads to the page at 0x20000. -/
def resolving : State :=
  let s := handled.modCtx 5 fun c => { c with h := [(3, { page with state := .pending, needR := true }),
    (4, { page with state := .pending, needR := true, walk := true, pasid := 7 })] }
  let s := s.modCore (s.home 5) fun k => { k with tlb := [⟨0, 0x10000, 1, 0x20000, false, true, false⟩] }
  { s with
    hub := { s.hub with amap := [(0, 2 ^ 34)], pasids := [(0, { mode := .walk }), (7, { mode := .walk, root := 0x1000, gen := 3 })] }
    mem := [⟨0x1000, 1⟩, ⟨0x1001, 0x20⟩, ⟨0x2000, 1⟩, ⟨0x2001, 0x30⟩, ⟨0x3000, 1⟩, ⟨0x3001, 0x40⟩,
      ⟨0x4000, 1⟩, ⟨0x4001, 0x50⟩, ⟨0x5080, 0xF⟩, ⟨0x5082, 2⟩] }

def walked : Tlb := ⟨7, 0x10000, 0, 0x20000, false, true, true⟩

theorem wit_XlateResolve :
    let k := (resolving.ctx 5).handle 3
    let p : Tlb := ⟨0, 0x10000, 1, 0x20000, false, true, false⟩
    k.state = .pending ∧ canonical k.va = true ∧
      resolving.draining k.pasid (k.va.toNat / 4096 * 4096) 4096 = false ∧ p.grants k.needR k.needW = true ∧
      resolving.refusal (resolving.ctx 5).part p.host (p.at_ k.va) = none ∧ k.walk = false ∧ k.due ≤ resolving.now ∧
      (resolving.core (resolving.home 5)).tlb.find? (fun q => q.holds k.pasid k.va && q.grants k.needR k.needW) = some p := by
  decide +kernel

theorem wit_WalkComplete :
    let k := (resolving.ctx 5).handle 4
    k.state = .pending ∧ canonical k.va = true ∧
      resolving.draining k.pasid (k.va.toNat / 4096 * 4096) 4096 = false ∧ walked.grants k.needR k.needW = true ∧
      resolving.refusal (resolving.ctx 5).part walked.host (walked.at_ k.va) = none ∧ k.walk = true ∧
      (resolving.pasid k.pasid).mode = .walk ∧
      resolving.walkFrom k.pasid k.va (resolving.pasid k.pasid).root.toNat walkLevels = some walked := by
  decide +kernel

theorem test_walk_records_generation :
    ((after (.walkComplete 5 4 none) resolving).ctx 5).handle 4 =
      { page with size := 0, pasid := 7, gen := 3, needR := true } := by decide +kernel

/-- Context 5 runs task 9 with three semaphores on its core: one of value 2 that it owns, one of value 1 with a
waiter whose amount is 1, and one of value 0. x1 is untagged and 1, x2 the address of semaphore 1 of the core,
x3 is −1, x4 of no semaphore, x6 poisoned, x7 a semaphore of package 1. -/
def semState : State :=
  let w : Waiter := { who := 12, amount := 1, acq := false, arrival := 0, prio := 1, reserved := false }
  let s := one { task := 9, x := xs [1, 0x41, -1, 0x1F000, 2] ++ [(6, ⟨8, true⟩), (7, ⟨0x2041, false⟩)] }
  let s := { s with hub := { s.hub with parts := [(0, some { cores := [1, 2], key := 0, tag := 1 })] } }
  s.modCore 1 fun c => { c with sems := [(0, { val := 2, owner := some 9, ownPrio := 1 }),
    (1, { val := 1, waiters := [w] }), (2, {}), (3, { val := 1, waiters := [{ w with who := 2 ^ 64, acq := true }] }),
    (4, { val := 1, waiters := [{ w with who := 9, reserved := true }] })] }

theorem wit_SemaphoreOperations :
    let s := semState
    Unhindered s [9, 2, 1] ∧ s.tagX s.focus 2 = false ∧ s.tagX s.focus 1 = false ∧ s.home 5 = 1 ∧
      semOf s 2 0 1 = some (.here 1 1) ∧ semOf s 2 0 0 = some (.here 1 0) ∧
      (∀ n ∈ s.covered s.focus (semScope s s.focus (.here 1 0)), s.outstanding n = false) ∧
      (semOn s 1 0).owner = some (me s) ∧ (semOn s 1 2).owner ≠ some (me s) ∧
      ((s.rdX s.focus 3).setWidth 32).toInt < 0 ∧ 0 ≤ ((s.rdX s.focus 1).setWidth 32).toInt ∧
      Takes s (semOn s 1 0) 2 ∧ Takes s (semOn s 1 4) 1 ∧
      (semOn s 1 2).waiters = [] ∧ (semOn s 1 2).val.toInt < ((s.rdX s.focus 1).setWidth 32).toInt := by
  unfold Unhindered
  simp only
  and_intros
  all_goals first
    | decide +kernel
    | exact Or.inl (by decide +kernel)
    | exact Or.inr (Or.inr ⟨_, rfl, rfl⟩)

theorem wit_SemaphoreAddressesAndService :
    let s := semState
    Unhindered s [9, 6, 1] ∧ s.tagX s.focus 6 = true ∧ Unhindered s [9, 4, 1] ∧ semOf s 4 0 1 = none ∧
      Unhindered s [9, 7, 1] ∧ (∀ n ∈ s.covered s.focus .domain, s.outstanding n = false) ∧
      (s.nextWaiter (semOn s 1 1)).map Waiter.who = some 12 ∧ 1 ≤ (semOn s 1 1).free ∧
      (s.nextWaiter (semOn s 1 3)).map Waiter.who = some (2 ^ 64) ∧ 1 ≤ (semOn s 1 3).free := by
  unfold Unhindered; decide +kernel

theorem test_sem_add_wraps : ((after (.semAdd 9 2 3 0 0) semState).core 1).sem 0 =
      { val := 1, owner := some 9, ownPrio := 1 } ∧ (after (.semAdd 9 2 3 0 0) semState).rdX 5 9 = 2 := by
  decide +kernel

theorem test_sem_wait_blocks : ((after (.semWait 9 1 1 2 0) semState).ctx 5).status = .blocked (.sem 1 2) := by
  decide +kernel

/-- Mailbox 1 of context 5 is full, mailbox 2 empty; its SLD counter stands at 8, and SLD 8 is armed. -/
def boxes : State :=
  one { x := xs [8, 9] ++ [(6, ⟨8, true⟩)], mbox := [(1, ⟨77, true⟩)], miles := [(0, { posted := 9, counter := 8 })] }

theorem wit_MailboxesAndMilestones :
    Unhindered boxes [9] ∧ Unhindered boxes [1] ∧ Unhindered boxes [2] ∧ Unhindered boxes [6] ∧ Unhindered boxes [] ∧
      ((boxes.ctx 5).mb 1).full = true ∧ ((boxes.ctx 5).mb 2).full = false ∧ boxes.tagX 5 6 = true ∧
      boxes.tagX 5 1 = false ∧ (boxes.rdX 5 1).toNat ≤ ((boxes.ctx 5).mile (queueAt 0)).counter ∧
      ((boxes.ctx 5).mile (queueAt 0)).counter < (boxes.rdX 5 2).toNat ∧ boxes.postBlock 5 .rem false = none := by
  unfold Unhindered; decide +kernel

theorem test_mailbox : (after (.mbRd 9 1) boxes).rdX 5 9 = 77 ∧ ((after (.mbRd 9 1) boxes).ctx 5).mb 1 = ⟨77, false⟩ ∧
    ((after (.mbWr 2 2) boxes).ctx 5).mb 2 = ⟨9, true⟩ := by decide +kernel

theorem test_milestones : (after (.mileRead 9 0) boxes).rdX 5 9 = 8 ∧
    ((after (.mileWait 2 0) boxes).ctx 5).status = .blocked (.milestone .sld 9) := by decide +kernel

/-- x1 is 0, x2 −1, x3 an aligned address, x4 a misaligned one, x6 poisoned; the trap vector is 0x400. -/
def flow : State := one { pc := 0x1000, x := xs [0, -1, 0x2000, 0x2008] ++ [(6, ⟨8, true⟩)], tvec := 0x400 }

theorem wit_BranchesAndJumps :
    Unhindered flow [1] ∧ flow.tagX 5 1 = false ∧ Unhindered flow [6] ∧ flow.tagX 5 6 = true ∧ (0 : BitVec 3) ≠ 7 ∧
      Unhindered flow [31] ∧ (jumpRule flow (.callx 3)).isSome ∧ Unhindered flow [3, 31] ∧
      (flow.rdX 5 3).toNat % 16 = 0 ∧ (flow.rdX 5 4).toNat % 16 ≠ 0 ∧ Unhindered flow [4] := by
  unfold Unhindered; decide +kernel

theorem test_branches : ((after (.br 1 0 ⟨-1, none⟩) flow).ctx 5).pc = 0xFF0 ∧
    ((after (.br 1 1 ⟨-1, none⟩) flow).ctx 5).pc = 0x1010 ∧ ((after (.br 2 2 ⟨2, none⟩) flow).ctx 5).pc = 0x1020 := by
  decide +kernel

theorem test_calls : ((after (.callx 3) flow).ctx 5).pc = 0x2000 ∧ (after (.callx 3) flow).rdX 5 31 = 0x1010 ∧
    ((after (.jx 4) flow).ctx 5).pc = 0x400 ∧ ((after (.jx 4) flow).ctx 5).trapInfo = 8 := by decide +kernel

theorem wit_TrapDelivery : (flow.ctx 5).tvec ≠ 0 ∧ (flow.ctx 5).tactive = false ∧ (handled.ctx 5).tvec = 0 := by
  decide +kernel

theorem wit_SystemForms :
    let s := { flow with reqs := [newReq flow 5 (.store [1] false false) 0 false 0 [] 0] }
    let a := one { armed := some (.sld, 8) }
    let d := { flow with hub := { flow.hub with levels := [(0, 2)] } }
    Unhindered flow [] ∧ smGet 0 flow.hub.levels (flow.ctx 5).part < 2 ∧ Unhindered d [] ∧
      2 ≤ smGet 0 d.hub.levels (d.ctx 5).part ∧ Unhindered s [] ∧ storing s = true ∧ storing flow = false ∧
      (flow.core (flow.home 5)).kern = none ∧ Unhindered a [] ∧ (a.ctx 5).armed.isSome = true ∧
      ¬ armedReached (a.ctx 5) ∧ (flow.ctx 5).armed = none := by
  refine ⟨by unfold Unhindered; decide +kernel, by decide +kernel, by unfold Unhindered; decide +kernel,
    by decide +kernel, by unfold Unhindered; decide +kernel, by decide +kernel, by decide +kernel, by decide +kernel,
    by unfold Unhindered; decide +kernel, by decide +kernel, ?_, by decide +kernel⟩
  rintro ⟨q, v, h, h'⟩
  cases (show (some (Queue.sld, (8 : Word)) = some (q, v)) from h)
  exact absurd h' (by decide +kernel)

theorem test_trap : ((after (.trap 0x55) flow).ctx 5).trapInfo = 0x550000000D ∧
    ((after (.trap 0x55) flow).ctx 5).trapPc = 0x1000 ∧ ((after (.trap 0x55) flow).ctx 5).pc = 0x400 ∧
    ((after .bkpt flow).ctx 5).trapInfo = 14 := by decide +kernel

/-- Context 5 runs task 1 with SLD 8 armed and reached, and a user-level handler at 0x800. -/
def armedCtx : Ctx :=
  { pc := 0x1000, task := 1, uivec := 0x800, armed := some (.sld, 8), miles := [(0, { posted := 9, counter := 8 })],
    x := [(24, ⟨3, true⟩)] }

theorem armed_reached : armedReached ((one armedCtx).ctx 5) := ⟨.sld, 8, by decide +kernel, by decide +kernel⟩

theorem wit_UserInterrupts :
    let c := (one armedCtx).ctx 5
    armedReached c ∧ c.uactive = false ∧ c.tactive = false ∧ c.uivec ≠ 0 ∧ c.status = .running ∧ c.task ≠ 0 ∧
      c.retiring = false ∧ ((one { armedCtx with uactive := true }).ctx 5).uactive = true ∧ Unhindered (one armedCtx) [] ∧
      ((after (.uiDelivery 5) (one armedCtx)).ctx 5).ushadow.length = 8 := by
  refine ⟨armed_reached, ?_⟩
  unfold Unhindered; decide +kernel

theorem test_ui : ((after .uiret (after (.uiDelivery 5) (one armedCtx))).ctx 5).pc = 0x1000 ∧
    ((after (.uiDelivery 5) (one armedCtx)).ctx 5).pc = 0x800 ∧
    (after .uiret (after (.uiDelivery 5) (one armedCtx))).tagX 5 24 = true := by decide +kernel

theorem wit_SpecialRegisters :
    let u := one { ringTail := 1 }
    let p := one { priv := true, x := [(6, ⟨8, true⟩)] }
    Unhindered p [9] ∧ registerValue p 0x105 = none ∧ (registerValue p 0x103).isSome = true ∧ Unhindered u [0] ∧
      (u.ctx 5).priv = false ∧ (p.ctx 5).priv = true ∧ Unhindered p [6] ∧ p.tagX 5 6 = true ∧ p.tagX 5 0 = false ∧
      (u.ctx 5).ringHead < (u.ctx 5).ringTail ∧ (p.ctx 5).ringTail ≤ (p.ctx 5).ringHead ∧
      (registerStored p 5 0x100 0).isSome = true := by
  unfold Unhindered; decide +kernel

theorem test_csr : (after (.csrr 9 0x103) (one {})).rdX 5 9 = 0x001005A000000007 ∧
    ((after (.csrw 1 0x013) (one { x := xs [0x1237] })).ctx 5).tvec = 0x1230 := by decide +kernel

/-! ### Engine commands and tasks -/

/-- Little-endian bytes of fields, each with its width. -/
def record (fs : List (Nat × Nat)) : List Byte := fs.flatMap fun f => leBytes f.1 f.2

/-- A stream descriptor of 8-byte elements: address, window offset and length, dimensions, counts, stride. -/
def descBytes (va srf len dims c0 c1 st : Nat) : List Byte :=
  record [(8, va), (4, srf), (4, len), (2, 0x330), (2, 0), (1, dims), (3, 0), (4, c0), (4, c1), (8, 0), (8, st), (16, 0)]

/-- A task whose local memory holds, from offset 0: a descriptor of one dimension, one of two, a pair's, a copy
record, room for a completion record, a routine call's blocks and a launch record. -/
def poster : State :=
  let s := one { priv := true, winBytes := 2 ^ 16, locBytes := 512, task := 3, pc := 0x1000
                 x := xs [0, 64, 128, 192, 224, 256, 0x400, 1, 0xFFFFFF00, 0x20000, 320, 0x1000000040, 0x1000001000] ++
                   [(20, ⟨0, true⟩)] }
  let s := { s with hub := { s.hub with parts := [(0, some { cores := [0, 1], key := 0, tag := 0 })] } }
  s.modCore (s.home 5) fun k => k.putLoc 0 (descBytes 0x10000 0 128 1 16 0 0 ++ descBytes 0x10000 128 128 2 16 1 128 ++
    descBytes 0x10000 4096 8192 1 1 0 0 ++ record [(8, 0), (8, 128), (4, 128), (1, 1), (43, 0)] ++
    record [(32, 0), (4, 0), (4, 128), (4, 256), (4, 128), (4, 512), (4, 128), (8, 0)] ++
    record [(8, 0x4000), (8, 7), (7, 0), (1, 1), (16, 0), (8, 0), (1, 1), (1, 255), (14, 0)])

def postable : List Instr :=
  [.sload 9 1 5, .sgather 9 2 0 7, .sstore 9 1 0 0 0, .sscatter 9 2 0 7, .spair 9 3 0 10, .scopy 9 4 0,
   .kctlPrefetch 9 10, .mcall 9 6 9 5 1, .mrout 9 10 9, .wsctlLoad 9, .wsctlSeal 9, .treeBind 9 10 0 1,
   .treeDesc 9 7 1 8 1, .treeExp 9 7 1 8 1, .treeBack 9 7 1 8 1, .treeReroot 9 1 1 1, .treeSweep 9 1 1,
   .treePath 9 12 1 1 1, .treeRead 9 7 1 13 1, .treeFlush 9 1 1, .scrub 9 10, .migrate 9 10]

theorem wit_EngineCommandsPosted : postable.all (fun i => (commandRule poster i).any fun p =>
      (p.d :: p.checked).all (fun r => !poster.awaited 5 r.toNat && !poster.tagX 5 r) && p.good &&
      p.rec_.all (fun r => r = 0 || recordAt poster r 32) &&
      (p.reads ++ p.writes).all (fun r => decide (r.len = 0 ∨ r.lo + r.len ≤ (poster.ctx 5).winBytes)) &&
      (poster.postBlock 5 p.q p.board).isNone) = true ∧ (poster.ctx 5).drain = none := by decide +kernel

theorem wit_EngineCommandsPosted_stops :
    let ps : List Cmd := (List.range 16).map fun n => ⟨.sst, n, .wsLoad, none, [], [], false, n⟩
    let s := poster.modCtx 5 fun c => { c with winBytes := 127, posted := ps }
    Unhindered poster [9, 0, 20] ∧ poster.tagX 5 20 = true ∧
      ((commandRule poster (.kctlPrefetch 9 20)).map fun p => p.checked) = some [20] ∧
      ((commandRule s (.sload 9 1 0)).any fun p => p.good && p.writes.any fun r => decide (127 < r.lo + r.len)) = true ∧
      s.postBlock 5 .sst false = some (.queueFull .sst) := by
  unfold Unhindered; decide +kernel

theorem test_post_numbers : (after (.sload 9 1 5) poster).rdX 5 9 = 1 ∧
    (after (.sload 9 1 5) (after (.sload 9 1 5) poster)).rdX 5 9 = 2 := by decide +kernel

/-- The page at VA 0x10000 is cached and mapped; its first entry is a native kernel at 0x4000, its second is not
native. -/
def tabled : State :=
  let s := poster.modCore (poster.home 5) fun k => { k with tlb := [⟨0, 0x10000, 1, 0x20000, false, true, true⟩] }
  let s := s.modCtx 5 fun c => { c with x := xs [0x10000, 0x10008, 224, 0x10001, 0x100000000, 0x2000] ++ [(20, ⟨0, true⟩)] }
  { s with hub := { s.hub with amap := [(0, 2 ^ 34)], pasids := [(0, { mode := .walk })] }
           mem := [⟨0x20001, 0x40⟩, ⟨0x20007, 0x80⟩] }

def tablePage : Tlb := ⟨0, 0x10000, 1, 0x20000, false, true, true⟩

theorem wit_KernelCommands :
    let p := poster
    Unhindered tabled [9, 3, 1] ∧ Unhindered tabled [9, 3, 20] ∧ tabled.tagX 5 20 = true ∧
      tabled.tagX 5 1 = false ∧ tabled.tagX 5 3 = false ∧ (tabled.rdX 5 4).toNat % 8 ≠ 0 ∧
      (tabled.rdX 5 1).toNat % 8 = 0 ∧ (tabled.ctx 5).refused = none ∧
      (tabled.xlateFor 5 (tabled.rdX 5 1) true false).1 = .hit tablePage ∧
      (tabled.xlateFor 5 (tabled.rdX 5 2) true false).1 = .hit tablePage ∧
      orderedAfter tabled 5 false (tabled.placeOf tablePage (tabled.rdX 5 1)).2 8 = [] ∧
      tabled.flagPending 5 false (tabled.placeOf tablePage (tabled.rdX 5 1)).2 8 = false ∧
      tabled.rdEntry tablePage (tabled.rdX 5 1) / 2 ^ 63 % 2 = 1 ∧
      tabled.rdEntry tablePage (tabled.rdX 5 2) / 2 ^ 63 % 2 = 0 ∧ recordAt tabled 3 32 = true ∧
      (tabled.ctx 5).binds = [] ∧ tabled.postBlock 5 .krn true = none ∧
      (p.ctx 5).posted = [] ∧ (p.ctx 5).active = [] := by
  unfold Unhindered; decide +kernel

theorem test_krun_posts : ((after (.krun 9 1 3) tabled).ctx 5).posted.map Cmd.kind = [.krun 0x4000 []] := by
  decide +kernel

/-- x1 is a base, x2 a map word with 512 bytes, x3 one with 500, x4 one beyond the footprint. -/
def binder : State := one { winBytes := 4096, x := xs [0, 512, 500, 5000] ++ [(6, ⟨0, true⟩)] }

theorem wit_EngineCommandsPosted_binding :
    Unhindered binder [1, 2] ∧ Unhindered binder [6, 2] ∧ binder.tagX 5 6 = true ∧ binder.tagX 5 1 = false ∧
      Unhindered binder [1, 3] ∧ Unhindered binder [1, 4] ∧ Unhindered binder [9] ∧
      bindOk ⟨0, 512, dirOf 0, 0⟩ 0 = true ∧ bindOk ⟨0, 500, dirOf 0, 0⟩ 0 = false ∧
      (binder.ctx 5).winBytes < 5000 := by
  unfold Unhindered; decide +kernel

theorem test_sbind : smGet none ((after (.sbind 1 2 3 0 0) binder).ctx 5).binds 3 = some ⟨0, 512, .inp, 0⟩ ∧
    ((after (.sbind 1 3 3 0 0) binder).ctx 5).trapInfo = 15 + 2 * 2 ^ 8 := by decide +kernel

/-- Gathering 300 records of 128 bytes: x2 holds the destination above and the index offset, x3 the count above
and the bytes of a record; x5 has no count, x6 is poisoned. -/
def gatherer : State :=
  one { winBytes := 2 ^ 17, pc := 0x1000, x := xs [0x10000, 0x80000000000, 300 * 2 ^ 16 + 128, 0x10001, 128] ++ [(6, ⟨0, true⟩)] }

theorem wit_Gatherl :
    let g := after (.gatherl 9 1 2 3) gatherer
    Unhindered gatherer [9, 1, 2, 3] ∧ (gatherer.ctx 5).gather = none ∧ gatherer.tagX 5 6 = true ∧
      Unhindered gatherer [9, 6, 2, 3] ∧ gatherer.tagX 5 1 = false ∧ Unhindered gatherer [9, 1, 2, 5] ∧
      Unhindered gatherer [9, 4, 2, 3] ∧ (gatherer.rdX 5 4).toNat % 128 ≠ 0 ∧ Unhindered g [9, 1, 2, 3] ∧
      (g.ctx 5).gather.map GatherSt.pc = some (g.ctx 5).pc ∧ g.postBlock 5 .sld true = none ∧
      0x800 + 256 * 128 ≤ (g.ctx 5).winBytes := by
  unfold Unhindered; decide +kernel

/-- The same of 3 records, which two steps complete; and with the state of a GATHERL at another bundle held. -/
theorem wit_Gatherl_short :
    let s := one { winBytes := 2 ^ 17, pc := 0x1000, x := xs [0x10000, 0x80000000000, 3 * 2 ^ 16 + 128] }
    let h := gatherer.modCtx 5 fun c => { c with gather := some ⟨0x2000, 1, 0, 0, 0, 9⟩ }
    Unhindered s [9, 1, 2, 3] ∧ (s.ctx 5).gather = none ∧ s.tagX 5 1 = false ∧ s.tagX 5 2 = false ∧ s.tagX 5 3 = false ∧
      (s.rdX 5 1).toNat % 128 = 0 ∧ (s.rdX 5 3).toNat % 2 ^ 16 = 128 ∧ (s.rdX 5 2).toNat / 2 ^ 32 = 0x800 ∧
      (s.rdX 5 2).toNat % 2 ^ 32 = 0 ∧ (s.rdX 5 3).toNat / 2 ^ 16 % 2 ^ 16 = 3 ∧ 0x800 + 3 * 128 ≤ (s.ctx 5).winBytes ∧
      s.postBlock 5 .sld true = none ∧ Unhindered h [9, 1, 2, 3] ∧
      (h.ctx 5).gather.map GatherSt.pc ≠ some (h.ctx 5).pc ∧ (h.ctx 5).gather ≠ none := by
  unfold Unhindered; decide +kernel

theorem test_gatherl : ((after (.gatherl 9 1 2 3) (after (.gatherl 9 1 2 3) gatherer)).ctx 5).pc = 0x1000 ∧
    ((after (.gatherl 9 1 2 3) (after (.gatherl 9 1 2 3) (after (.gatherl 9 1 2 3) gatherer))).ctx 5).pc = 0x1010 ∧
    (after (.gatherl 9 1 2 3) (after (.gatherl 9 1 2 3) (after (.gatherl 9 1 2 3) gatherer))).rdX 5 9 = 2 := by
  decide +kernel

/-- A privileged task; x1 is a page address, x2 a range of two pages, x3 no range, x5 a misaligned address, x6 the
token of slot 1, x7 a token that no slot holds; slot 1 has one that waits for request 0, slot 2 one that is done. -/
def shooter : State :=
  let s := one { priv := true, x := xs [0x10000, 2 * 2 ^ 32 + 7, 7, 0, 0x10001, 17, 55, 34] }
  let k : Token := ⟨1, 7, 0x10000, 2, 0, [0], false⟩
  { s with
    reqs := [newReq s 4 (.store [1] false false) 0 false 0 [] 0]
    hub := { s.hub with tokens := [(1, some k), (2, some { k with serial := 2, covers := [] })], serial := 2 } }

theorem wit_PrivilegedForms :
    let u := one {}
    Unhindered u [1, 2] ∧ (u.ctx 5).priv = false ∧ (shooter.ctx 5).priv = true ∧ Unhindered shooter [9, 1, 2] ∧
      (∀ r ∈ [1, 2, 3, 4, 5, 6, 7, 8], shooter.tagX 5 r = false) ∧
      (shooter.rdX 5 2).toNat / 2 ^ 20 % 2 ^ 12 = 0 ∧ (shooter.rdX 5 2).toNat / 2 ^ 32 ≠ 0 ∧
      (shooter.rdX 5 3).toNat / 2 ^ 32 = 0 ∧ (shooter.rdX 5 5).toNat % 4096 ≠ 0 ∧ (shooter.rdX 5 1).toNat % 4096 = 0 ∧
      shooter.hub.freeToken = some 0 ∧ (smGet none shooter.hub.tokens 7).isNone ∧
      ((smGet none shooter.hub.tokens 1).any fun k => !k.auto && decide (k.serial = 1) && !shooter.tokenDone k) = true ∧
      ((smGet none shooter.hub.tokens 2).any fun k => !k.auto && decide (k.serial = 2) && shooter.tokenDone k) = true ∧
      { shooter.hub with tokens := (List.range 16).map fun n => (n, some ⟨1, 7, 0, 2, 0, [], true⟩) }.freeToken = none ∧
      Unhindered shooter [1, 4] ∧ (shooter.rdX 5 4).toNat ≤ 63 ∧ 63 < (shooter.rdX 5 1).toNat ∧
      (tabled.xlateFor 5 0x10000 true false).1 = .hit tablePage ∧ (tabled.ctx 5).priv = true := by
  unfold Unhindered; decide +kernel

theorem test_xinv : (after (.xinvMark 9 1 2) shooter).rdX 5 9 = 48 ∧ (after (.xinvConfirm 9 8) shooter).rdX 5 9 = 0 ∧
    (after (.xinvConfirm 9 7) shooter).rdX 5 9 = 1 ∧
    ((after (.xinvConfirm 9 6) shooter).ctx 5).status = .blocked (.confirm 1) := by decide +kernel

/-- Contexts 5 and 6 of a core, 6 ready at the same priority; 5 was launched at priority 1. -/
def tasks : State :=
  { one { launchP := 1, basePrio := 1, task := 3, arg := 9, x := xs [3, 0] ++ [(6, ⟨0, true⟩)] } with
    ctxs := [(5, { status := .running, launchP := 1, basePrio := 1, task := 3, arg := 9, x := xs [3, 0] ++ [(6, ⟨0, true⟩)] }),
             (6, { status := .ready, basePrio := 1, task := 4 })] }

theorem wit_TaskForms :
    let q := { tasks with ctxs := [(5, { tasks.ctx 5 with castOn := [{}] })] }
    Unhindered tasks [9] ∧ Unhindered tasks [6] ∧ tasks.tagX 5 6 = true ∧ Unhindered tasks [1] ∧ Unhindered tasks [2] ∧
      tasks.tagX 5 1 = false ∧ (tasks.ctx 5).launchP ≤ min 3 (tasks.rdX 5 1).toNat ∧
      min 3 (tasks.rdX 5 2).toNat < (tasks.ctx 5).launchP ∧ Unhindered tasks [] ∧
      ((ctxsOf (tasks.home 5)).any fun k =>
        k ≠ 5 && (tasks.ctx k).status = .ready && decide (tasks.effPrio k ≤ tasks.effPrio 5)) = true ∧
      ((ctxsOf (q.home 5)).any fun k =>
        k ≠ 5 && (q.ctx k).status = .ready && decide (q.effPrio k ≤ q.effPrio 5)) = false ∧
      (tasks.ctx 5).heldK = [] ∧ (tasks.ctx 5).posted = [] ∧ (tasks.ctx 5).active = [] ∧ (tasks.ctx 5).castOn = [] ∧
      (tasks.ctx 5).ringTail ≤ (tasks.ctx 5).ringHead ∧ (q.ctx 5).castOn ≠ [] := by
  unfold Unhindered; decide +kernel

theorem test_task_forms : (after (.taskSelf 9 0 0) tasks).rdX 5 9 = 9 ∧
    ((after (.taskYield 0 0 0) tasks).ctx 5).status = .ready ∧ ((after (.taskPrio 0 2 0) tasks).ctx 5).trapInfo = 9 := by
  decide +kernel

theorem wit_TaskForms_launch :
    let f := poster.modCtx 5 fun c => { c with castOn := [{}, {}, {}, {}] }
    let r := tabled.modCtx 5 fun c => { c with castOn := [{}, {}, {}, {}], lspill := 0x10001, x := xs [320] }
    Unhindered poster [9, 11] ∧ poster.tagX 5 11 = false ∧ recordAt poster 11 64 = true ∧
      launchOk poster 0 (recordBytes poster 11 64) = true ∧ Unhindered poster [9, 1] ∧
      recordAt poster 1 64 = true ∧ launchOk poster 0 (recordBytes poster 1 64) = false ∧
      (∀ n ∈ poster.covered 5 .pkg, poster.outstanding n = false) ∧ (poster.ctx 5).castOn = [] ∧
      (poster.ctx 5).ringTail ≤ (poster.ctx 5).ringHead ∧ Unhindered f [9, 11] ∧ 4 ≤ (f.ctx 5).castOn.length ∧
      64 * ((f.ctx 5).lspill.toNat % 2 ^ 12) ≤ (f.ctx 5).ringTail - (f.ctx 5).ringHead ∧ Unhindered r [9, 1] ∧
      launchOk r 0 (recordBytes r 1 64) = true ∧
      (r.ctx 5).ringTail - (r.ctx 5).ringHead < 64 * ((r.ctx 5).lspill.toNat % 2 ^ 12) ∧
      (r.xlateFor 5 ((r.ctx 5).ringSlot (r.ctx 5).ringTail) false true).1 = .hit tablePage := by
  unfold Unhindered; decide +kernel

theorem test_launch : (after (.launch 9 11) poster).rdX 5 9 = 0 ∧
    ((after (.launch 9 1) poster).ctx 5).trapInfo = 11 := by decide +kernel

/-! ### Kernel operations -/

/-- Core 1 runs this kernel for context 5, the one in focus. -/
def array (k : Kernel) : State :=
  (one { task := 3, slots := [0, 1, 2, 3], tvec := 0x400, mbox := [(1, ⟨0x500000007, true⟩)] }).modCore 1 fun c =>
    { c with kern := some k, acc := [(4096 + 5, 0x700000009)], srf := [(1, ⟨77, true⟩)] }

/-- A kernel in the middle of its image whose predicate q1 holds in lane 0 alone; its registers v1 to v6 of lane 0
hold these words, v6 poisoned. -/
def kern (vs : List Word32) : Kernel :=
  { cx := 5, num := 1, image := 0x1000, pc := 10, cyc := 100, q := [(1, true)]
    v := (List.range 5).map (fun j => (j + 1, (⟨vs.getD j 0, false⟩ : LaneReg))) ++ [(6, ⟨vs.getD 5 0, true⟩)]
    binds := [(0, some ⟨0, 1024, .inp, 0⟩), (1, some ⟨0, 1024, .out, 0⟩), (2, some ⟨0, 512, .circ, 0⟩),
      (3, some ⟨0, 512, .inp, 0⟩)]
    pos := [(3, 1)] }

/-- What lane 0 has in flight after an operation: register, cycles, word, poison. -/
def flies (i : Instr) (vs : List Word32) : List (Nat × Nat × Word32 × Bool) :=
  match ((after i (array (kern vs))).core 1).kern with
  | none => []
  | some k => k.pend.filterMap fun p => match p with
    | .v 0 r d x b _ => some (r, d - 100, x, b)
    | _ => none

theorem wit_LaneResults : Calm (array (kern [1, 2])) (kern [1, 2]) ∧ (laneInteger (.kAdd 9 1 2 1 0)).isSome ∧
    (laneFloat (.fadd 9 1 2 1 0)).isSome ∧ (Instr.fadd 9 1 2 1 0).wf = true := by
  unfold Calm Resting; decide +kernel

theorem test_lane_integer :
    [flies (.kAdd 9 1 2 1 0) [0xFFFFFFFF, 1], flies (.kAdd 9 1 6 1 0) [1], flies (.kSra 9 1 2 1 0) [0x80000000, 33],
      flies (.mulh 9 1 2 1 0) [0xFFFFFFFF, 2], flies (.dot4i8 9 1 2 1 0) [0xFF020304, 0x01010101],
      flies (.packLo 9 1 2 1) [0x11112222, 0x33334444]] =
    [[(9, 1, 0, false)], [(9, 1, 1, true)], [(9, 1, 0xC0000000, false)], [(9, 3, 0xFFFFFFFF, false)],
      [(9, 3, 8, false)], [(9, 3, 0x44442222, false)]] := by decide +kernel

theorem test_lane_float :
    [flies (.fadd 9 1 2 1 0) [0x3F800000, 0x40000000], flies (.fma 3 1 2 1 0) [0x40000000, 0x40400000, 0x3F800000],
      flies (.div 9 1 2 1 0) [0x3F800000, 0x40000000], flies (.sqrt 9 1 1 0) [0x40800000],
      flies (.cvtI32F32 9 1 1 0) [0xC0000000]] =
    [[(9, 3, 0x40400000, false)], [(3, 4, 0x40E00000, false)], [(9, 16, 0x3F000000, false)],
      [(9, 14, 0x40000000, false)], [(9, 3, 0xFFFFFFFE, false)]] := by decide +kernel

/-- Values of each kind: 1, −2, −0, the least subnormal, infinities and NaNs. -/
theorem wit_FloatArithmetic : ext32 0x3F800000 = .num false 1 ∧ ext32 0xC0000000 = .num true (-2) ∧
    ext32 0x80000000 = .num true 0 ∧ ext32 0x00000001 = .num false (1 / 2 ^ 149) ∧ ext32 0xFF800000 = .inf true ∧
    ext32 0x7F800000 = .inf false ∧ ext32 0x7FC00000 = .nan false ∧ ext32 0x7F800001 = .nan true ∧
    product (BF16.ext 0x7F80) (BF16.ext 0) = none ∧ product (BF16.ext 0x3F80) (BF16.ext 0x4000) = some (.num false 2) := by
  decide +kernel

theorem wit_FloatConversions : F16.ext 0x3C00 = .num false 1 ∧ E4M3.ext 0xFF = .nan false ∧ E5M2.ext 0x7C = .inf false ∧
    (f16, F16) ∈ [(f16, F16), (bf16, BF16), (f32, F32)] ∧ (e4m3, E4M3) ∈ [(e4m3, E4M3), (e5m2, E5M2)] ∧
    ext32 0x44000000 = .num false 512 := by
  refine ⟨by decide +kernel, by decide +kernel, by decide +kernel, .head _, .head _, by decide +kernel⟩

/-- 3 and −4 as operands, and sums of each sign. -/
theorem wit_FloatQuotientsAndRoots : ext32 0x40400000 = .num false 3 ∧ ext32 0xC0800000 = .num true (-4) ∧
    (0 : ℚ) < max 3 0 + 1 ∧ max (-4 : ℚ) 0 + -4 < 0 ∧ max (-4 : ℚ) 0 + 0 = 0 := by decide +kernel

/-- 3, a whole number; 1 and 8, powers of 2; 3 again, none; and a negative operand. -/
theorem wit_FloatExponentials : ext32 0x40400000 = .num false 3 ∧ (3 : ℚ) = (3 : ℤ) ∧ ext32 0x3F800000 = .num false 1 ∧
    (1 : ℚ) = 2 ^ (0 : ℤ) ∧ ext32 0x41000000 = .num false 8 ∧ (8 : ℚ) = 2 ^ (3 : ℤ) ∧ ext32 0xC0800000 = .num true (-4) := by
  decide +kernel

/-- A finite pair, one whose low word is infinite, infinite high words, and products of each kind. -/
theorem wit_PairArithmetic : PairIn 0x3F800000 0 0x3F800000 0 ∧ PairIn 0x3F800000 0xFF800000 0xFF800000 0 ∧
    infinite 0x7F800000 ∧ isNan 0x7FC00000 ∧ ¬ infinite 0x3F800000 ∧ ¬ isNan 0x3F800000 ∧
    product (ext32 0x7F800000) (ext32 0) = none ∧ product (ext32 0x7F800000) (ext32 0xC0000000) = some (.inf true) ∧
    product (ext32 0x3F800000) (ext32 0xC0000000) = some (.num true (-2)) := by
  have f : ext32 0x3F800000 = .num false 1 := by decide +kernel
  have z : ext32 0 = .num false 0 := by decide +kernel
  have n : ext32 0xFF800000 = .inf true := by decide +kernel
  have one : ¬ infinite 0x3F800000 := fun ⟨s, h⟩ => by rw [f] at h; cases h
  have zero : ¬ infinite 0 := fun ⟨s, h⟩ => by rw [z] at h; cases h
  refine ⟨⟨fun h => absurd h.2 zero, fun _ => ⟨rfl, rfl⟩⟩, ⟨fun _ => ⟨rfl, rfl⟩, fun h => absurd ⟨one, true, n⟩ h⟩,
    ⟨false, by decide +kernel⟩, ⟨false, by decide +kernel⟩, one, (fun ⟨s, h⟩ => by rw [f] at h; cases h), by decide +kernel, by decide +kernel, by decide +kernel⟩

theorem wit_LaneCompareResults :
    let k := kern [1, 2]
    Calm (array k) k ∧ ((lanesOf (landedK (array k) k) 1).any fun l =>
      ((landedK (array k) k).vr l 6).poison) = true ∧ ((lanesOf (landedK (array k) k) 0).any fun l =>
      ((landedK (array k) k).vr l 1).poison || ((landedK (array k) k).vr l 2).poison) = false := by
  unfold Calm Resting; decide +kernel

theorem wit_StreamOperations :
    let k := kern []
    let e := envOf (array k) k
    Calm (array k) k ∧ smGet none k.binds 5 = none ∧ (smGet none k.binds 0).map Binding.dir = some .inp ∧
      (smGet none k.binds 1).map Binding.dir = some .out ∧ (smGet none k.binds 2).map Binding.dir = some .circ ∧
      streamStall 0 1 true false e = none ∧ streamStall 1 1 false true e = none ∧ streamStall 1 2 true true e = none ∧
      (⟨0, 1024, .inp, 0⟩ : Binding).total = 2 ∧ (⟨0, 512, .inp, 0⟩ : Binding).total ≤ smGet 0 k.pos 3 := by
  unfold Calm Resting; decide +kernel

theorem wit_StreamStall :
    let k := { kern [] with binds := [(0, some ⟨0, 512, .chainIn, 0⟩)] }
    let c : Cmd := ⟨.krn, 1, .krun 0x1000 [], none, [⟨0, 512, true⟩], [], false, 0⟩
    let s := (array k).modCtx 5 fun x => { x with active := [{ cmd := c, ord := 0, started := true, running := true }] }
    Calm s k ∧ streamStall 0 1 true false (envOf s k) ≠ none := by
  unfold Calm Resting; decide +kernel

theorem test_streams : flies (.spop 9 0 1) [] = [(9, 2, 0, false)] ∧ flies (.scountRem 9 0) [] = [(9, 1, 2, false)] ∧
    (((after (.spush 1 1 1) (array (kern [5]))).core 1).word 0) = ⟨5, false⟩ ∧
    ((after (.spop 9 3 1) (array (kern []))).ctx 5).kstatus / 2 ^ 16 = 3 + 10 * 2 ^ 8 := by decide +kernel

theorem wit_StreamOperations_reductions :
    let k := kern [1, 2]
    Calm (array k) k ∧ (switchRule (landedK (array k) k) (.comm 9 1 2 1)).isSome ∧
      (∀ l ∈ lanesOf (landedK (array k) k) 1, ((landedK (array k) k).vr l 2).poison = false) ∧
      (∃ l ∈ lanesOf (landedK (array k) k) 1, ((landedK (array k) k).vr l 6).poison = true) := by
  unfold Calm Resting; decide +kernel

theorem test_switch : flies (.commpRot 9 1 0 1) [5] = [(9, 6, 5, false)] ∧ flies (.comm 9 1 2 1) [5, 3] = [(9, 6, 0, false)] ∧
    flies (.ireduce 9 1 3 1) [7] = [(9, 12, 7, false)] ∧
    flies (.creduce 8 1 1) [0x3F800000] = [(8, 20, 0x3F800000, false), (9, 20, 0, false)] := by decide +kernel

theorem wit_MailboxesAndMilestones_kernel :
    let k := kern [1, 2]
    Calm (array k) k ∧ (((array k).ctx 5).mb 1).full = true ∧ (((array k).ctx 5).mb 2).full = false ∧
      ((landedK (array k) k).vr 0 6).poison = true ∧ ((landedK (array k) k).vr 0 1).poison = false ∧
      ((landedK (array k) k).vr 0 2).poison = false := by
  unfold Calm Resting; decide +kernel

theorem test_kernel_mailboxes : flies (.mbrPair 8 1 0) [] = [(8, 2, 5, false), (9, 2, 7, false)] ∧
    ((after (.mbwPair 1 2 0) (array (kern [3, 4]))).ctx 5).mb 2 = ⟨0x300000004, true⟩ := by decide +kernel

theorem wit_AccumulatorOperations :
    let k := kern [5, 6]
    Calm (array k) k ∧ (accRule (array k) k (.ard2 8 1 1 1)).isSome ∧ (Instr.ard2 8 1 1 1).wf = true ∧
      declared (array k) k 1 false = true ∧ declared (array k) k 4 false = false ∧ declared (array k) k 0 true = true ∧
      declared (array k) k 1 true = false ∧
      ((lanesOf (landedK (array k) k) 1).any fun l => ((landedK (array k) k).vr l 6).poison) = true ∧
      ((lanesOf (landedK (array k) k) 1).any fun l => ((landedK (array k) k).vr l 1).poison) = false := by
  unfold Calm Resting; decide +kernel

theorem test_accumulators : flies (.ard2 8 1 1 1) [5] = [(8, 6, 7, false), (9, 6, 9, false)] ∧
    flies (.ardExp 8 1 1 1) [5] = [(8, 6, 127, false)] ∧
    (((after (.ard2 8 4 1 1) (array (kern []))).ctx 5).kstatus / 2 ^ 24 = 10 ∧
      ((after (.ard2 8 4 1 1) (array (kern []))).core 1).kern = none) := by decide +kernel

theorem wit_KernelSequencing : Calm (array (kern [])) (kern []) ∧ (seqRule (kern []) (.loop 0 3 4)).isSome ∧
    (Instr.loop 0 3 4).wf = true := by
  unfold Calm Resting; decide +kernel

theorem wit_KernelSequencing_loops :
    let k := { kern [] with loops := [⟨0, 8, 11⟩], l := [(0, 2)] }
    let b := { kern [] with branch := some (some 40, 2) }
    let c := { kern [] with branch := some (none, 1) }
    Resting (array k) k ∧ (∀ p ∈ k.pend, p.due ≤ k.cyc) ∧ k.branch = none ∧ k.pc + 1 = 11 ∧
      Resting (array b) b ∧ b.loops = [] ∧ b.pend = [] ∧ Resting (array c) c := by
  unfold Resting; decide +kernel

theorem test_loop_goes_back :
    ((after (.idle 0) (array { kern [] with loops := [⟨0, 8, 11⟩], l := [(0, 2)] })).core 1).kern.map Kernel.pc = some 8 ∧
    ((after (.idle 0) (array { kern [] with loops := [⟨0, 8, 11⟩], l := [(0, 1)] })).core 1).kern.map Kernel.pc = some 12 := by
  decide +kernel

theorem wit_KernelTraps :
    let p : Pend := .v 0 9 101 0 false 0
    let k := { kern [1, 2] with pend := [p] }
    let early := { kern [1, 2] with pend := [.v 0 1 103 0 false 0] }
    let soft := { kern [1, 2] with soft := [1] }
    (k.idle = 0 ∧ k.ended = false ∧ k.abort = false ∧ k.freeze = false ∧ k.branch = none ∧ k.loops = []) ∧
      ((array k).core ((array k).home 5)).kern = some k ∧ 0 ∈ lanesOf (landedK (array k) k) 1 ∧
      p ∈ k.pend.filter (fun p => decide (k.cyc < p.due)) ∧ k.soft = [] ∧ 128 * 0 + (1 : BitVec 7).toNat ∈ soft.soft ∧
      early.pend.all (fun p => decide (early.cyc < p.due)) = true ∧
      Calm (array (kern [])) (kern []) ∧ ((array (kern [])).ctx 5).tvec ≠ 0 := by
  unfold Calm Resting; decide +kernel

theorem wit_ResultLanding :
    let k := { kern [] with pend := [.ascl 0 0 3 100 (-127)] }
    let later := { kern [] with pend := [.v 0 1 105 7 true 0] }
    Resting (array k) k ∧ k.branch = none ∧ k.loops = [] ∧ 100 ≤ k.cyc ∧ Resting (array later) later ∧
      later.cyc < 105 := by
  unfold Resting; decide +kernel

/-- One result in flight of each kind, due and not due. -/
theorem wit_ResultLanding_kinds : ∀ r ∈ [Pend.v 0 1 100 7 true 1, .q 0 2 100 true 0, .q 0 0 105 true 0, .p 3 100 9,
      .acc 1 2 5 100 9, .field 1 2 5 100 9, .ascl 0 0 3 100 5, .dep 0 0 3 100 0x3F800000, .dep 0 0 3 100 0x7FC00000,
      .dep 0 0 3 100 0xFF800000, .zero 0 100 false, .zero 0 100 true, .zero 0 105 true],
    let k := { kern [] with pend := [r] }
    Resting (array k) k ∧ k.branch = none ∧ k.loops = [] := by
  unfold Resting; decide +kernel

theorem test_deposit_of_one :
    let t := after (.idle 0) (array { kern [] with pend := [.dep 0 0 3 100 0x3F800000] })
    (t.core 1).entry 0 2 3 = 0x100000000 ∧ (t.core 1).entry 0 1 3 = 0 ∧ (t.core 1).tile 0 0 = 0 := by decide +kernel

theorem test_scale_leaves_the_range :
    let t := after (.idle 0) (array { kern [] with pend := [.ascl 0 0 3 100 (-127)] })
    (t.core 1).efield 0 0 3 = 0 ∧ (t.core 1).tile 0 0 = tRNG := by decide +kernel

theorem wit_InstructionCodingRoundTrip : (Instr.add 1 2 3).wf = true ∧ (Instr.add 1 2 3).form ≠ .event := by
  decide +kernel

theorem wit_DecodedWellFormed : (decodeBundle 0x44E48900 0x3505120C 0x09293000 0x04000000).isLeft = true ∧
    (decodePacket 0x00800000 [0x8C000000]).isLeft = true ∧ (decodeRoutine 0x01820002800A0000).isSome = true := by
  decide +kernel

/-! ### Kernels, bundles, steps, routines -/

/-- A started KRUN of context 5, number 1, whose kernel the array runs; and the state of core 1 with it. -/
def krunCmd : Cmd := ⟨.krn, 1, .krun 0x1000 [], some 64, [], [], true, 0⟩
def krunning (k : Kernel) : State :=
  (array k).modCtx 5 fun c => { c with
    active := [{ cmd := krunCmd, ord := 0, started := true, running := true }], locBytes := 128, heldK := [],
    miles := [(2, { posted := 1 })] }

/-- Code of one packet at the kernel's word 10: a header of class MS with an FADD, then the KEND of class B. -/
def coded (k : Kernel) (h w : Word32) : State :=
  (array k).modCore 1 fun c => { c with kcode := [⟨0, 0x1028, 0x1028, h, 0x1000, false⟩, ⟨0, 0x1028, 0x102C, w, 0x1000, false⟩] }

theorem wit_ArrayCycles :
    let k := kern [1]
    let idle := { kern [1] with idle := 2 }
    let ended := { kern [1] with ended := true, pend := [.v 0 1 105 7 true 0] }
    let s := coded k 0x40000000 0xC8284149
    let early := { kern [] with pc := -1 }
    (idle.abort = false ∧ idle.freeze = false ∧ idle.ended = false ∧ idle.idle ≠ 0 ∧
      ((array idle).core ((array idle).home 5)).kern = some idle) ∧
    (ended.freeze = false ∧ ended.ended = true ∧ ended.pend ≠ [] ∧
      ((array ended).core ((array ended).home 5)).kern = some ended) ∧
    Resting s k ∧ 0 ≤ k.pc ∧ (s.core 1).packet k = some (0x40000000, [0xC8284149]) ∧ packetLen 0x40000000 = 2 ∧
    fld 0x40000000 19 4 = 0 ∧ decodePacket 0x40000000 [0xC8284149] = .inl [(0, .lane (.fadd 5 4 10 2 1))] ∧
    ((coded k 0x00800000 0xFFFFFFFF).core 1).packet k = some (0x00800000, [0xFFFFFFFF]) ∧
    (decodePacket 0x00800000 [0xFFFFFFFF]).isRight = true ∧ Resting (array early) early ∧ early.pc < 0 := by
  unfold Resting; decide +kernel

theorem wit_ArrayCycles_softInteger :
    let k := kern [1]
    let s := (coded k 0x40000000 0x80284149).modCore 1 fun c => { c with kcode := c.kcode.map fun x => { x with soft := true } }
    Resting s k ∧ (s.core 1).packet k = some (0x40000000, [0x80284149]) ∧ (s.core 1).codeSoft k (packetLen 0x40000000) = true ∧
      k.branch = none ∧ k.loops = [] ∧ decodePacket 0x40000000 [0x80284149] = .inl [(0, .lane (.kAdd 5 4 10 2 1))] ∧
      (laneInteger (.kAdd 5 4 10 2 1)).isSome = true := by
  unfold Resting; decide +kernel

/-- The task of a context is stopped. -/
def halting (s : State) : State := s.modCtx 5 fun c => { c with status := .blocked .stopped }

theorem wit_ArrayCycles_soft :
    let k := kern [1]
    let s := coded k 0x40000000 0xC8284149
    let soft := s.modCore 1 fun c => { c with kcode := c.kcode.map fun x => { x with soft := true } }
    Resting soft k ∧ (soft.core 1).packet k = some (0x40000000, [0xC8284149]) ∧ (soft.core 1).codeSoft k 2 = true ∧
      soft.stopped 5 = false ∧ k.cx = 5 ∧ (∀ h, (s.core 1).codeSoft k (packetLen h) = false) ∧
      (halting s).stopped 5 = true ∧ ((halting s).core 1).kern = some k := by
  refine ⟨by unfold Resting; decide +kernel, by decide +kernel, by decide +kernel, by decide +kernel, by decide +kernel, ?_,
    by decide +kernel, by decide +kernel⟩
  intro h
  have e : ∀ x ∈ ((coded (kern [1]) 0x40000000 0xC8284149).core 1).kcode, x.soft = false := by decide +kernel
  unfold CoreSt.codeSoft
  simp only [List.any_eq_false, List.mem_range]
  intro i _ hx
  obtain ⟨x, hm, hp⟩ := List.any_eq_true.1 hx
  simp [e x hm] at hp

theorem wit_KernelRuns_soft :
    let k := { kern [] with snapSoft := true }
    let wait := (krunning k).modCore 1 (fun c => { c with kern := none }) |>.modCtx 5 fun c => { c with waitK := [k] }
    (wait.core 1).kern = none ∧ (wait.ctx 5).waitK = [k] ∧
      best wait.effPrio ((ctxsOf 1).filter fun c => (wait.ctx c).waitK ≠ [] && !wait.stopped c) = some 5 ∧
      ({ kern [] with cause := 6 } : Kernel).cause = 6 := by decide +kernel

theorem wit_KernelRuns :
    let k : Kernel := { kern [] with ended := true }
    let s := krunning k
    let f := { kern [] with freeze := true }
    let h := { kern [] with cause := 7, code := 3 }
    let idle := (krunning k).modCore 1 fun c => { c with kern := none }
    let ready := idle.modCtx 5 fun c => { c with active := [{ cmd := krunCmd, ord := 0 }] }
    let wait := idle.modCtx 5 fun c => { c with waitK := [k] }
    let held := idle.modCtx 5 fun c => { c with heldK := [h], kdeliver := true }
    let a : Active := { cmd := krunCmd, ord := 0, started := true, running := true }
    ((s.core 1).kern = some k ∧ s.home k.cx = 1 ∧ k.pend = [] ∧ k.ended = true ∧ k.cx ∈ s.ctxsAt 1) ∧ SoleKrun s k a ∧
      NoOtherEnded s 1 ∧ (((array f).core 1).kern = some f ∧ f.freeze = true ∧ f.abort = false) ∧
      ((ready.core 1).kern = none ∧ (∀ c ∈ ctxsOf 1, (ready.ctx c).waitK = []) ∧
        best (fun x => ready.effPrio x.1) (readyKruns ready 1) = some (5, { cmd := krunCmd, ord := 0 }) ∧ (ready.core 1).halted = false) ∧
      ((wait.core 1).kern = none ∧ (wait.core 1).halted = false ∧ (wait.ctx 5).waitK = [k] ∧
        best wait.effPrio ((ctxsOf 1).filter fun c => (wait.ctx c).waitK ≠ [] && !wait.stopped c) = some 5) ∧
      ((held.ctx 5).heldK = [h] ∧ h.cause ≠ 6 ∧ h.cx = 5 ∧ (held.ctx 5).kdeliver = true ∧ (held.ctx 5).tactive = false ∧
        (held.ctx 5).tvec ≠ 0 ∧ (held.ctx 5).interruptible = true) ∧ SoleKrun held h a := by
  unfold SoleKrun NoOtherEnded; decide +kernel

/-- The kernel of core 1 waits for its code, whose page is cached and holds the one-word packet 0x80000000. -/
def fetching : State :=
  let s := krunning { kern [] with image := 0x10000, pc := 0 }
  let s := s.modCore 1 fun k => { k with tlb := [⟨0, 0x10000, 1, 0x20000, false, true, false⟩] }
  { s with hub := { s.hub with amap := [(0, 2 ^ 34)], pasids := [(0, { mode := .walk })] } }

theorem wit_KernelCodeFetch :
    let k := { kern [] with image := 0x10000, pc := 0 }
    let p : Tlb := ⟨0, 0x10000, 1, 0x20000, false, true, false⟩
    let bad := { fetching with hub := {} }
    (fetching.core 1).kern = some k ∧ k.ended = false ∧ 0 ≤ k.pc ∧ fetching.faults = [] ∧
      fetching.stopped k.cx = false ∧ (fetching.core 1).packet k = none ∧
      fetching.translate 1 0 k.pasid (k.va k.pc) true false = (.hit p, fetching) ∧
      fetching.placeOf p (k.va k.pc) = (false, 0x20000) ∧ fetching.shut false 0x20000 4 = false ∧
      { fetching with locks := [0x400] }.shut false 0x20000 4 = true ∧
      packetLen (leNat (fetching.rdMem false 0x20000 4)) = 1 ∧
      fetching.placeOf { p with host := true } (k.va k.pc) = (true, 0x20000) ∧ fetching.faultRoom (dieOf 1) = true ∧
      (bad.translate 1 0 k.pasid (k.va k.pc) true false).1 = .fault 8 ∧
      (bad.translate 1 0 k.pasid (k.va k.pc) true false).2.faultRoom (dieOf 1) = true := by decide +kernel

theorem test_code_fetch_fault :
    let t := after (.kernelCodeFetch 1) { fetching with hub := {} }
    t.faults.map (fun e => (e.va, e.sub, e.engine)) = [(0x10000, 8, 3)] ∧
      (t.core 1).kern.isSome = true := by decide +kernel

theorem test_kernel_trap_delivery :
    let h := { kern [] with cause := 7, code := 3 }
    let held := (krunning (kern [])).modCtx 5 fun c => { c with heldK := [h], kdeliver := true }
    let t := after (.kernelTrapDelivery 5) held
    (t.ctx 5).pc = 0x400 ∧ (t.ctx 5).trapInfo = trapInfoOf 0 17 7 1 := by decide +kernel

/-- Context 5 runs, 6 is ready at a higher priority, 7 blocked on a full queue. -/
def cps : State :=
  { ctxs := [(5, { status := .running, basePrio := 2, task := 1 }), (6, { status := .ready, basePrio := 1, task := 2 }),
      (7, { status := .blocked (.queueFull .sld), task := 3 })], focus := 5 }

theorem wit_ControlProcessorEvents :
    let alone := { cps with ctxs := [(6, { status := .ready, task := 2 })] }
    let lower := { cps with ctxs := [(5, { status := .running, task := 1 }), (6, { status := .ready, basePrio := 1, task := 2 })] }
    let miles := { cps with ctxs := [(5, { status := .blocked (.milestone .sld 3), task := 1 })] }
    cps.live 5 = true ∧ (cps.fetch 5).1 = .inr (some 8) ∧
      (cps.fetch 5).2.faultRoom (dieOf ((cps.fetch 5).2.home 5)) = true ∧
      (cps.ctx 7).status = .blocked (.queueFull .sld) ∧ (cps.ctx 7).retiring = false ∧
      cps.cleared 7 (.queueFull .sld) = true ∧ miles.cleared 5 (.milestone .sld 3) = false ∧
      (cps.core 1).halted = false ∧ cps.nextReady 1 = some 6 ∧ cps.runningOn 1 = some 5 ∧
      cps.effPrio 6 < cps.effPrio 5 ∧ lower.nextReady 1 = some 6 ∧ lower.effPrio 5 ≤ lower.effPrio 6 ∧
      alone.nextReady 1 = some 6 ∧ alone.runningOn 1 = none ∧
      ((after (.gatherl 9 1 2 3) gatherer).ctx 5).gather.map GatherSt.pc = some ((after (.gatherl 9 1 2 3) gatherer).ctx 5).pc := by
  decide +kernel

theorem test_switch_to_the_better : ((after (.contextSwitch 1) cps).ctx 6).status = .running ∧
    ((after (.contextSwitch 1) cps).ctx 5).status = .ready := by decide +kernel

theorem wit_StepRunsTheInstruction :
    let s := State.reset.withFetchWord 32 0x0CA00003
    AtBundle s ∧ (s.fetch s.focus).1.isLeft = true ∧
      ((s.fetch s.focus).1.elim (fun ws => decodeBundle (ws.getD 0 0) (ws.getD 1 0) (ws.getD 2 0) (ws.getD 3 0)) fun _ => .inr (9, 9)) =
        .inl [(0, .addi 5 0 ⟨3, none⟩)] ∧
      ((State.reset.withBundle [nopWord, nopWord, nopWord, nopWord]).fetch 0).1 = .inl [nopWord, nopWord, nopWord, nopWord] ∧
      decodeBundle nopWord nopWord nopWord nopWord = .inl [] ∧
      ((State.reset.withBundle [0x00000000, nopWord, nopWord, nopWord]).fetch 0).1 =
        .inl [0x00000000, nopWord, nopWord, nopWord] ∧ (decodeBundle 0x00000000 nopWord nopWord nopWord).isRight = true := by
  unfold AtBundle NoneAhead; decide +kernel

theorem test_step_runs_a_bundle : (match step (State.reset.withFetchWord 32 0x0CA00003) with
    | .next t => ((t.ctx 0).pc, t.rdX 0 5)
    | _ => (0, 0)) = (4112, 3) := by decide +kernel

theorem wit_MemoryStaysCanonical : Memory.wf State.reset := by decide +kernel

theorem wit_Frames : (Instr.add 1 2 3).form = .control ∧ (exec (.add 1 2 3) (one {})) = .next (after (.add 1 2 3) (one {})) ∧
    (5 : Nat) = (one {}).focus ∧ (4 : Nat) ≠ (one {}).focus ∧
    exec (.kAdd 1 2 3 0 0) (array (kern [])) = .next (after (.kAdd 1 2 3 0 0) (array (kern []))) :=
  ⟨rfl, rfl, rfl, by decide, rfl⟩

/-- Core 1 runs this routine for context 5: four words from word 10, the window 128 KiB, the declaration of eight slots. -/
def plane (r : Routine) : State :=
  let c : Cmd := ⟨.mat, 1, .matrix 2 [] [⟨0, 2 ^ 17, false⟩] [⟨0, 2 ^ 17, false⟩] [] 0 false, none, [], [], false, 0⟩
  (one { task := 3, winBytes := 2 ^ 17, slots := [0, 1, 2, 3, 4, 5, 6, 7], miles := [(0, { counter := 4 }), (3, { posted := 1 })]
         active := [{ cmd := c, ord := 0, started := true, running := true }] }).modCore 1 fun k =>
    { k with plane := some r, rtab := [(2, some (10, 4))] }

def routine : Routine := { cx := 5, num := 1, w := 10, count := 4, pc := 11, p := [(1, 3)] }

theorem wit_RoutineWords :
    let l := { routine with loops := [(0, 11, 12, true)], lc := [(0, 2)] }
    let one := { routine with loops := [(0, 11, 12, true)], lc := [(0, 1)] }
    InRoutine (plane routine) routine ∧ routine.loops = [] ∧ plainPort 8 ∧ plainPort 43 ∧
      (⟨false, 0, 24, 8, 5⟩ : Move).wf = true ∧ (⟨false, 0, 0, 20, 0⟩ : Move).wf = true ∧ plainPort 20 ∧
      portValue routine 1 0 0 = 3 ∧ portValue routine 2 0 0 = 0 ∧ (∀ cl < 8, routine.cond 0 cl = false) ∧
      (∃ cl < 8, routine.cond 4 cl ≠ routine.cond 4 0) ∧ InRoutine (plane l) l ∧ InRoutine (plane one) one ∧
      1 < (smGet 0 l.lc 0).toNat ∧ (smGet 0 one.lc 0).toNat ≤ 1 := by
  unfold InRoutine plainPort; decide +kernel

/-- Words whose writes are in order, clash, or write a register of which there is one copy in some clusters only or with
differing values; counts and guards of each kind; and loops at whose end the word stands. -/
theorem wit_RoutineWords_writes :
    let ok := (wordWrites routine (.movePair ⟨false, 0, 24, 8, 5⟩ ⟨false, 0, 1, 17, 0⟩)).getD []
    let apart := (wordWrites routine (.movePair ⟨true, 4, 24, 8, 5⟩ ⟨true, 5, 24, 8, 6⟩)).getD []
    let both := (wordWrites routine (.movePair ⟨false, 0, 24, 8, 5⟩ ⟨false, 0, 24, 8, 6⟩)).getD []
    let some_ := (wordWrites routine (.setw (some 4) 1 7)).getD []
    let differ := (wordWrites routine (.movePair ⟨false, 0, 26, 1, 0⟩ ⟨false, 0, 24, 8, 6⟩)).getD []
    ([ok, apart, both, some_, differ].map List.length = [2, 2, 2, 1, 2]) ∧
      (∀ w ∈ ok ++ apart ++ both ++ some_ ++ differ, quiet w.dst) ∧
      (Instr.movePair ⟨false, 0, 24, 8, 5⟩ ⟨false, 0, 1, 17, 0⟩).wf = true ∧
      (Instr.movePair ⟨true, 4, 24, 8, 5⟩ ⟨true, 5, 24, 8, 6⟩).wf = true ∧
      (Instr.movePair ⟨false, 0, 24, 8, 5⟩ ⟨false, 0, 24, 8, 6⟩).wf = true ∧ (Instr.setw (some 4) 1 7).wf = true ∧
      (Instr.movePair ⟨false, 0, 26, 1, 0⟩ ⟨false, 0, 24, 8, 6⟩).wf = true ∧
      ¬ Clash ok ∧ ¬ Split ok ∧ ¬ Clash apart ∧ ¬ Split apart ∧ Clash both ∧ Split some_ ∧ Split differ ∧ ¬ Clash differ := by
  unfold Clash Split quiet single plainPort
  and_intros <;> decide +kernel

theorem wit_RoutineWords_sequence :
    let four := { routine with loops := (List.range 4).map fun k => (k, 11, 30, false) }
    let inner := { routine with loops := [(0, 11, 14, false)] }
    (∀ p ∈ [1, 2, 26], portReads p = true) ∧ (∀ cl < 8, portValue routine 1 0 cl = portValue routine 1 0 0) ∧
      portValue routine 1 0 0 ≠ 0 ∧ portValue routine 2 0 0 = 0 ∧ (∃ cl < 8, portValue routine 26 0 cl ≠ portValue routine 26 0 0) ∧
      4 ≤ four.loops.length ∧ InRoutine (plane four) four ∧ InRoutine (plane inner) inner ∧
      (∃ l ls, inner.loops = l :: ls ∧ l.2.2.1 < inner.pc + 1 + (5 : BitVec 12).toNat) ∧
      (∀ cl < 8, guardHolds routine 1 cl = true) ∧ (∀ cl < 8, guardHolds routine 0 cl = false) ∧
      (∃ cl < 8, guardHolds routine 4 cl ≠ guardHolds routine 4 0) := by
  refine ⟨by decide +kernel, by decide +kernel, by decide +kernel, by decide +kernel, by decide +kernel, by decide +kernel,
    by unfold InRoutine; decide +kernel, by unfold InRoutine; decide +kernel, ⟨_, _, rfl, by decide +kernel⟩, by decide +kernel,
    by decide +kernel, by decide +kernel⟩

theorem test_move_pair :
    ((after (.movePair ⟨false, 0, 24, 8, 5⟩ ⟨false, 0, 1, 20, 0⟩) (plane routine)).core 1).plane.map
      (fun q => (q.pc, q.port 3 8, q.port 3 20)) = some (12, 5, 3) := by decide +kernel

theorem wit_RoutineTriggers :
    let s := plane routine
    let e := s.planeEnv routine
    InRoutine s routine ∧ justCluster 1 0 ∧ justCluster 128 7 ∧ 0 % 16 + (0 / 16 % 16 + 1) ≤ 16 ∧
      e.may false 0 2048 = true ∧ e.may false 0 64 = true ∧ e.may true 0 32768 = true ∧
      (2 : BitVec 3).toNat < (s.ctx routine.cx).slots.length ∧ xaOk (s.ctx routine.cx).slots.length 4 = true ∧
      ¬ (6 ≤ (0 : BitVec 3).toNat) ∧ (((s.ctx 5).mile (queueOf 0)).counter : Int).emod (2 ^ 32) < 2 ^ 31 := by
  unfold InRoutine justCluster; decide +kernel

theorem test_routine_triggers :
    ((after (.addt 4 1) (plane routine)).core 1).plane.map (fun q => q.port 0 42) = some 4 ∧
    ((after (.cmpt 1 1) (plane routine)).core 1).plane.map (fun q => q.port 0 45) = some 1 := by decide +kernel

/-- The window of core 1 holds one matrix command, ready, and no routine runs. -/
def waiting : State :=
  let c : Cmd := ⟨.mat, 1, .matrix 2 [7] [] [] [] 0 false, none, [], [], false, 0⟩
  ((plane routine).modCore 1 fun k => { k with plane := none }).modCtx 5 fun c' =>
    { c' with active := [{ cmd := c, ord := 0 }] }

/-- The same with an MROUT of one word that runs. -/
def copying : State :=
  let c : Cmd := ⟨.mat, 1, .mrout 0x10000 3 20 1, none, [], [], false, 0⟩
  let s := ((plane routine).modCore 1 fun k =>
    { k with plane := none, tlb := [⟨0, 0x10000, 1, 0x20000, false, true, false⟩] }).modCtx 5 fun c' =>
      { c' with active := [{ cmd := c, ord := 0, started := true, running := true }] }
  { s with hub := { s.hub with amap := [(0, 2 ^ 34)], pasids := [(0, { mode := .walk })] } }

theorem wit_MatrixCommands :
    let a : Active := { cmd := ⟨.mat, 1, .matrix 2 [7] [] [] [] 0 false, none, [], [], false, 0⟩, ord := 0 }
    (waiting.core 1).plane = none ∧ (∀ x ∈ waiting.window 1, x.2.running = false) ∧
      best (fun x => waiting.effPrio x.1) ((waiting.window 1).filter (waiting.matReady 1)) = some (5, a) ∧
      smGet none (waiting.core 1).rtab 2 = some (10, 4) ∧ smGet none (waiting.core 1).rtab 1 = none ∧
      ((plane { routine with ended := true }).findActive 5 .mat 1).isSome = true ∧
      ((copying.window 1).find? (fun x => x.2.running && x.2.cmd.kind.isMrout && !copying.stopped x.1)).map Prod.fst = some 5 ∧
      copying.faults = [] ∧ (match copying.readWords false 8 1 0 0 1 0x10000 with
        | (.ok xs, _) => xs == [0]
        | _ => false) = true := by
  and_intros <;> decide +kernel

theorem test_mrout : smGet none ((after (.mroutCopy 1) copying).core 1).rtab 3 = some (20, 1) ∧
    ((after (.mroutCopy 1) copying).ctx 5).active = [] := by decide +kernel

/-! ### Requests, the calendar, the fabric -/

/-- One line of 128 bytes at VA 0x10000, loaded to window offset 0. -/
def lineDesc : Desc :=
  { va := 0x10000, srf := 0, srfLen := 128, kind := 0, mty := 3, sty := 3, chained := false, p2z := false, ws := false
    sat := false, signS := false, dims := 1, gauge := 0, counts := [16, 0, 0, 0], strides := [0, 0, 0] }

def loadCmd : Active := { cmd := ⟨.sld, 1, .sload lineDesc, none, [], [⟨0, 128, false⟩], true, 0⟩, ord := 0, started := true }

/-- Context 5 loads that line; its page is cached and, where mapped, its memory is the partition's. -/
def loading (mapped : Bool) (rs : List Req) : State :=
  let s := (one { task := 3, winBytes := 1024, active := [loadCmd], miles := [(0, { posted := 1 })] }).modCore 1 fun k =>
    { k with tlb := [⟨0, 0x10000, 1, 0x20000, false, true, true⟩] }
  { s with hub := { s.hub with amap := if mapped then [(0, 2 ^ 34)] else [], pasids := [(0, { mode := .walk })] }, reqs := rs }

def aReq (op : ReqOp) (host : Bool) (phys : Nat) (served : Option Nat) : Req :=
  { newReq (one {}) 5 op 0 host phys [] 0 with id := 3, served := served, due := served, data := List.replicate 128 1 }

theorem wit_StreamRequests :
    let s := loading true []
    NextLine s 5 .sld loadCmd 0 0 0x10000 false ∧ lineDesc.ws = false ∧ (s.streamLoad (s.home 5) < 4096 ∧ s.mayTurn 5 .sld = true) ∧
      (s.reach 5 loadCmd 0x10000 false).1 = .hit ⟨0, 0x10000, 1, 0x20000, false, true, true⟩ ∧
      NextLine (loading false []) 5 .sld loadCmd 0 0 0x10000 false ∧
      ((loading false []).reach 5 loadCmd 0x10000 false).1 = .fault 8 ∧
      ((loading false []).reach 5 loadCmd 0x10000 false).2.faultRoom (dieOf ((loading false []).home 5)) = true := by
  unfold NextLine
  and_intros
  all_goals first
    | decide +kernel
    | rfl

theorem wit_StreamRequests_turns :
    let s := loading true []
    let again := s.modCore 1 fun c => { c with genTurn := [turnKey 5 .sld] }
    let spent := s.modCore 1 fun c => { c with genAc := 8 }
    MayTurn s 5 .sld ∧ MayTurn again 5 .sld ∧ turnKey 5 .sld ∈ (again.core (again.home 5)).genTurn ∧ ¬ MayTurn spent 5 .sld ∧
      streams loadCmd.cmd.kind = true ∧
      (s.grant 5 loadCmd 0 0 0x10000 false).1 = .hit ⟨0, 0x10000, 1, 0x20000, false, true, true⟩ := by
  unfold MayTurn; decide +kernel

/-- A state whose fault entries have this answer. -/
def answered (s : State) (x : Option Bool) : State := { s with faults := s.faults.map fun e => { e with answer := x } }

theorem wit_StreamRequests_parked : ∀ x ∈ [none, some true, some false],
    let s := answered (after (.engineTranslationFault 5 .sld) (loading false [])) x
    (s.ctx 5).active.map (fun b => (b.parked, b.fail)) = [([0], none)] ∧
    (s.ctx 5).active.all (fun b => b.cmd.queue = .sld && s.parkedOn b == s.faults) = true ∧
    s.faults.map (fun e => (e.answer, e.who)) = [(x, .engine 5 .sld 1 0 0)] := by
  intro x hx
  simp only [List.mem_cons, List.not_mem_nil, or_false] at hx
  rcases hx with rfl | rfl | rfl <;> exact ⟨by decide +kernel, by decide +kernel, by decide +kernel⟩

theorem wit_StreamRequests_lines :
    let l := aReq (.line .sld 1 0 0) false 0x20000 (some 0)
    let w := aReq (.lineSt .sst 1 0 0 [(0, 7)] false false) true 0x20000 none
    let d := aReq (.lineSt .sst 1 0 0 [(0, 7)] false false) false 0x20000 (some 0)
    let r := aReq (.reduce .sst 1 0 0 .addI32 [(4, [1, 0, 0, 0], false)]) true 0x20000 none
    (loading true [l]).findReq 3 = some l ∧ l.served.isSome = true ∧ (loading true [l]).mayComplete l = true ∧
      (loading true [{ l with due := some 9 }]).mayComplete { l with due := some 9 } = false ∧
      (loading true [w]).findReq 3 = some w ∧ (loading true [w]).mayPerform w = true ∧ w.ws = false ∧
      (loading true [d]).mayComplete d = true ∧ (loading true [r]).findReq 3 = some r ∧
      (loading true [r]).mayPerform r = true ∧
      (redApply .addI32 ((loading true [r]).rdMem true (0x20000 + 4) 4) [1, 0, 0, 0]).1.length = 4 := by decide +kernel

theorem test_line_write :
    let l := aReq (.line .sld 1 0 0) false 0x20000 (some 0)
    (after (.lineWrite 3) (loading true [l])).reqs = [] ∧
      ((after (.lineWrite 3) (loading true [l])).core 1).word 0 = ⟨0x01010101, false⟩ := by decide +kernel

/-- The 64 lines of a pair of context 5, served. -/
def pairLine (i : Nat) : Req :=
  { newReq (one {}) 5 (.pair 1 0 i (List.replicate 128 5) false) 0 false (128 * i) [] 0 with id := i, served := some 0, due := some 0 }
def pairCmd (phase : Nat) : Active :=
  { cmd := ⟨.sst, 1, .spair lineDesc 0, none, [], [], true, 0⟩, ord := 0, started := true, phase := phase }
def pairing (phase : Nat) : State :=
  { one { task := 3, active := [pairCmd phase] } with reqs := (List.range 64).map pairLine }

theorem wit_PairLock : PairReady (pairing 0) 5 (pairCmd 0) ((List.range 64).map pairLine) := by
  refine ⟨by decide +kernel, ⟨lineDesc, 0, rfl⟩, rfl, rfl, by decide +kernel, by decide +kernel, by decide +kernel,
    by decide +kernel, by decide +kernel⟩

theorem wit_PairsAndWeightStore :
    let load : Active := { cmd := ⟨.sst, 1, .wsLoad, none, [], [], false, 0⟩, ord := 0, started := true }
    let sealing : Active := { load with cmd := { load.cmd with kind := .wsSeal } }
    let s := one { active := [load] }
    let t := one { active := [sealing] }
    let w := { one {} with reqs := [{ aReq (.line .sld 1 0 0) false 256 none with ws := true }]
                           dies := [(0, { cycle := 200 })] }
    ((pairing 1).ctx 5).active = [pairCmd 1] ∧ (pairing 1).now + 1 < 1 + 63 ∧
      (5, load) ∈ s.dieActive 0 ∧ (∀ x ∈ s.dieActive 0, x.2.wsReads = false) ∧ (5, sealing) ∈ t.dieActive 0 ∧
      (∀ x ∈ t.dieActive 0, t.wsWrites x.1 x.2 = false) ∧ wsRefreshes (w.die 0).cycle 1 = false ∧ 1 ∉ (w.die 0).wsRef ∧
      wsRefreshes 0 0 = true ∧ w.wsServed 0 1 = 0 ∧ 1 ∉ (w.die 0).wsUsed ∧ (w.wsWaiting 0 1).length = 1 ∧ w.now = 200 := by decide +kernel

/-- LOAD may enter, and the store may be sealed, while accesses accepted later stand. -/
theorem wit_PairsAndWeightStore_later :
    let a : Active := { loadCmd with ord := 7, cmd := { loadCmd.cmd with kind := .sload { lineDesc with ws := true } } }
    let w : Active := { a with cmd := { a.cmd with queue := .sst, kind := .sstore { lineDesc with ws := true } [] } }
    let c (k : CmdKind) : Active := { cmd := ⟨.sst, 1, k, none, [], [], false, 0⟩, ord := 3, started := true }
    let s := one { active := [c .wsLoad, a] }
    let t := one { active := [c .wsSeal, w] }
    (5, c .wsLoad) ∈ s.dieActive 0 ∧ (5, a) ∈ s.dieActive 0 ∧ a.wsReads = true ∧ (c .wsLoad).ord ≤ a.ord ∧
      (∀ y ∈ s.dieActive 0, y.2.cmd.kind = .wsLoad → y.2.ended = false → y.2.ord ≤ 3) ∧
      (∀ x ∈ s.dieActive 0, x.2.wsReads = true → 3 ≤ x.2.ord) ∧ (5, c .wsSeal) ∈ t.dieActive 0 ∧ t.wsWrites 5 w = true ∧
      (∀ y ∈ t.dieActive 0, y.2.cmd.kind = .wsSeal → y.2.ended = false → y.2.ord ≤ 3) ∧
      (∀ x ∈ t.dieActive 0, t.wsWrites x.1 x.2 = true → 3 ≤ x.2.ord) := by decide +kernel

theorem wit_DistinctReqs : DistinctReqs (pairing 0) := by unfold DistinctReqs; decide +kernel

theorem test_ws_bank : (after (.wsBankService 0 1) { one {} with
      reqs := [{ aReq (.line .sld 1 0 0) false 256 none with ws := true }], dies := [(0, { cycle := 200 })] }).reqs.map
    (fun r => (r.served, r.due)) = [(some 200, some 248)] := by decide +kernel

/-- A request of context 1 of core 0 waits for its channel at this cycle; its context borrows. -/
def waitReq (op : ReqOp) : Req :=
  { newReq (one {}) 1 op 0 false 0 [] 0 with id := 0 }
def calendar (op : ReqOp) (n : Nat) : State :=
  { ctxs := [(1, { status := .running, calmode := 1 })], focus := 1, dies := [(0, { cycle := n })], reqs := [waitReq op] }
def calCh : Nat := (calendar (.line .sld 1 0 0) 0).channelOf 0

/-- A line and the accesses of the CP. -/
def waits : List ReqOp := [.line .sld 1 0 0, .load 9 8 false false, .store [1, 2] true false, .amo .add 9 true 1 0, .flagStore [1] false 1]

theorem calendar_home (op : ReqOp) (n : Nat) : (calendar op n).home (waitReq op).cx = 0 := by
  rw [show (waitReq op).cx = 1 from rfl]
  rfl
theorem calendar_die (op : ReqOp) (n : Nat) : (calendar op n).reqDie (waitReq op) = 0 := by
  show dieOf ((calendar op n).home (waitReq op).cx) = 0
  rw [calendar_home]
  rfl
theorem calendar_core (op : ReqOp) (n : Nat) : (calendar op n).reqCore (waitReq op) = 0 := by
  unfold State.reqCore
  rw [calendar_home]

theorem calendar_eligible {op : ReqOp} (ho : op ∈ waits) (n : Nat) : (calendar op n).eligible 0 calCh (waitReq op) = true := by
  simp only [waits, List.mem_cons, List.not_mem_nil, or_false] at ho
  have at0 : (calendar op n).dieAt 0 = 0 :=
    Eq.trans (show (calendar op n).dieAt 0 = (calendar op 0).dieAt 0 from rfl) (by rcases ho with rfl | rfl | rfl | rfl | rfl <;> decide +kernel)
  have arr : (calendar op n).arrived (waitReq op) = true := by
    unfold State.arrived
    rw [calendar_die, show (calendar op n).dieAt (waitReq op).phys = 0 from at0, show (waitReq op).gen = 0 from rfl]
    simp
  unfold State.eligible
  rw [arr, show (calendar op n).dieAt (waitReq op).phys = 0 from at0, show (calendar op n).channelOf (waitReq op).phys = calCh from rfl]
  simp only [decide_true, Bool.and_true]
  rcases ho with rfl | rfl | rfl | rfl | rfl <;> rfl

/-- A slot of core 0 whose owner's request waits, and a slot of the hub whose borrower's does: whatever the hash of
channels, some cycle has each. -/
theorem wit_CalendarEvents {op : ReqOp} (ho : op ∈ waits) : ∃ n m, ((calendar op n).now + calCh) % 32 = 0 ∧
    (calendar op n).owned 0 calCh 0 = some (waitReq op) ∧ Serves (calendar op n) 0 calCh ∧
    ((calendar op m).now + calCh) % 32 = 30 ∧ (calendar op m).owned 0 calCh 30 = none ∧
    (calendar op m).lent 0 calCh 30 = some (waitReq op) ∧ (waitReq op).agent = .core := by
  refine ⟨32 + 31 * calCh, 30 + 31 * calCh, ?_, ?_, ⟨List.not_mem_nil, rfl, rfl, ?_⟩, ?_, rfl, ?_, rfl⟩
  · show (32 + 31 * calCh + calCh) % 32 = 0
    omega
  · have e := calendar_eligible ho (32 + 31 * calCh)
    unfold State.owned State.turnOf
    simp [State.oldest, show (calendar op (32 + 31 * calCh)).reqs = [waitReq op] from rfl, e, calendar_die, calendar_core,
      show (waitReq op).agent = .core from rfl, show (waitReq op).group = none from rfl]
  · have h : ((calendar op (32 + 31 * calCh)).now + calCh) % 32 = 0 := by
      show (32 + 31 * calCh + calCh) % 32 = 0
      omega
    rw [h]
    rfl
  · show (30 + 31 * calCh + calCh) % 32 = 30
    omega
  · have e := calendar_eligible ho (30 + 31 * calCh)
    have b : (calendar op (30 + 31 * calCh)).borrows 0 calCh (waitReq op) = true := by
      unfold State.borrows
      rw [e, calendar_die, show (waitReq op).cx = 1 from rfl, show (waitReq op).group = none from rfl,
        show (waitReq op).agent = .core from rfl, show ((calendar op (30 + 31 * calCh)).ctx 1).calmode = 1 from rfl]
      simp only [waits, List.mem_cons, List.not_mem_nil, or_false] at ho
      rcases ho with rfl | rfl | rfl | rfl | rfl <;> decide
    have l : (calendar op (30 + 31 * calCh)).lent 0 calCh 30 =
        (calendar op (30 + 31 * calCh)).borrower 0 calCh 23 (fun _ => true) := by
      have c : ((calendar op (30 + 31 * calCh)).die 0).calctl.getLsbD 2 = true := by
        rw [show ((calendar op (30 + 31 * calCh)).die 0).calctl = ({} : DieSt).calctl from rfl]
        decide
      unfold State.lent
      simp only [show ¬ (30 : Nat) < 24 from by decide, show ¬ (30 : Nat) < 28 from by decide, if_false, if_true, c]
      rfl
    rw [l]
    unfold State.borrower
    rw [show List.range 24 = 0 :: (List.range 23).map (· + 1) from by decide, List.findSome?_cons]
    simp [State.oldest, show (calendar op (30 + 31 * calCh)).reqs = [waitReq op] from rfl, b, calendar_core]

theorem wit_CalendarEvents_line : ReqOp.line .sld 1 0 0 ∈ waits := by decide +kernel

theorem wit_CalendarEvents_host : ∃ n, ((calendar (.line .sld 1 0 0) n).now + calCh) % 32 = 30 ∧
    (0 : Nat) < 4 ∧ 0 + 8 ≤ dieBytes ∧ 0 % 128 + 8 ≤ 128 ∧
    (calendar (.line .sld 1 0 0) n).channelOf 0 = calCh ∧ (calendar (.line .sld 1 0 0) n).dieAt 0 = 0 ∧ (calendar (.line .sld 1 0 0) n).hub.pkg = 0 ∧ (calendar (.line .sld 1 0 0) n).locks = [] :=
  ⟨30 + 31 * calCh, by show (30 + 31 * calCh + calCh) % 32 = 30; omega, by decide, by decide, by decide, rfl,
    Eq.trans (show (calendar (.line .sld 1 0 0) (30 + 31 * calCh)).dieAt 0 = (calendar (.line .sld 1 0 0) 0).dieAt 0 from rfl) (by decide +kernel), rfl, rfl⟩

theorem wit_CalendarEvents_remote :
    let r := { aReq (.load 9 8 false false) false (2 ^ 48) none with sent := some 5 }
    let s := { one {} with reqs := [r], dies := [(0, { time := 2100005 })] }
    let t := { s with dies := [] }
    let c := { one {} with dies := [(2, { c3 := true })] }
    let p := { r with reach := some 5 }
    let u := { s with reqs := [p] }
    s.own 0 = true ∧ s.own (2 ^ 48) = false ∧ physOff (2 ^ 48) < dieBytes ∧ dieBytes ≤ physOff dieBytes ∧
      s.findReq 3 = some r ∧ r.reach = none ∧ u.findReq 3 = some p ∧ u.remote p = true ∧ p.served = none ∧
      5 + 2100 * 1000 ≤ (u.die (u.reqDie p)).time ∧
      s.remote r = true ∧ r.served = none ∧ (t.die (t.reqDie r)).time < 5 + 2100 * 1000 ∧
      5 + 2100 * 1000 ≤ (s.die (s.reqDie r)).time ∧ (c.die 2).c3 = true ∧ (c.die 2).c3Exit = none := by decide +kernel

theorem wit_ResultDelivery_host :
    ∀ op ∈ [ReqOp.load 1 4 true false, .amo .add 1 true 3 0, .store [7] true false, .flagStore [7] false 1],
      let r := aReq op true 0x20000 none
      let s := { one {} with reqs := [r] }
      s.findReq 3 = some r ∧ r.ws = false ∧ s.mayPerform r = true ∧ cpAccess op = true := by decide +kernel

theorem test_host_atomic :
    let s := { one {} with reqs := [aReq (.amo .add 1 false 0xFFFFFFFF 0) true 8 none], hostMem := [⟨8, 5⟩, ⟨12, 9⟩] }
    (after (.loadResultDelivery 3) s).hostMem = [⟨8, 4⟩, ⟨12, 9⟩] ∧ (after (.loadResultDelivery 3) s).rdX 5 1 = 5 := by
  decide +kernel

theorem test_remote_store :
    let s := after (.remoteRequest (.store 8 [1, 2] true)) (one {})
    s.reqs.map (fun r => (r.phys, r.agent, r.op)) = [(8, .causeway, .store [1, 2] true false)] ∧ s.mem = [] := by decide +kernel

/-! ### Trees -/

/-- An arena of 16 nodes, 4 of them in use, whose root and next nodes are cached; its header is at VA 0x10000. -/
def arenaOf (xs : List Node) : Arena :=
  { va := 0x10000, host := false, phys := 0x20000, pasid := 0, part := 0, core := 1, base := 0x11000, capacity := 16
    bump := 4, listVa := 0, maxRuns := 0, runs := [], rdirty := false, root := 0, gen := 0, alt := true
    cpuct := 0x3F800000, vloss := 0x3F800000, first := 0, next := 0, moved := 0, noGap := 0
    nodes := (List.range xs.length).map (fun i => (i, xs[i]?)) }

/-- Context 5 has this tree command on slot 1, bound to the arena; window words 0 and 1 hold these values. -/
def treeCmdOf (fn : Nat) (xa xb xc : Word) : Active :=
  { cmd := ⟨.tre, 1, .tree fn 1 xa xb xc, none, [], [], false, 0⟩, ord := 0, started := true }
def treeState (r : Arena) (fn : Nat) (xa xb xc : Word) (ws : List Word32) (bound : Bool) : State :=
  let s := (one { task := 3, winBytes := 1024, active := [treeCmdOf fn xa xb xc]
                  arenas := if bound then [(1, some (false, 0x20000))] else [], arenaVa := [(1, 0x10000)] }).modCore 1 fun k =>
    { k with srf := (List.range ws.length).map (fun i => (i, ⟨ws.getD i 0, false⟩))
             tlb := [⟨0, 0x10000, 1, 0x20000, false, true, true⟩] }
  { s with dies := [(0, { arenas := [r] })], hub := { s.hub with amap := [(0, 2 ^ 34)], pasids := [(0, { mode := .walk })] } }

theorem wit_TreeUnits_descent :
    let x : Node := { n := 3, count := 2, first := 1, flags := 1 }
    let y : Node := { parent := 0, flags := 3, action := 7 }
    let r := arenaOf [x, y, y]
    let leaf := arenaOf [{}]
    let s := treeState r 1 0 0 1 [] true
    let sq := (fsqrt32 .rne (cvt32 (x.n.toNat + (x.vl + 1).toNat) 0)).1
    TreeTurn s 0 0 5 (treeCmdOf 1 0 0 1) r 1 1 0 0 1 ∧ arenaHas r r.root x ∧ x.vl ≠ 0xFFFF ∧ x.count = 2 ∧
      1 + 2 ≤ r.bump ∧ arenaHas r 1 y ∧ arenaHas r 2 y ∧ y.count = 0 ∧ y.flags = 1 ||| 2 ∧
      (isNan32 (scoreOf r sq y) && isNan32 (scoreOf r sq y)) = false ∧
      TreeTurn (treeState leaf 1 0 0 1 [] true) 0 0 5 (treeCmdOf 1 0 0 1) leaf 1 1 0 0 1 ∧ arenaHas leaf leaf.root {} := by
  unfold TreeTurn arenaHas
  and_intros <;> decide +kernel

theorem wit_TreeUnits_expansion :
    let r := arenaOf [{}, {}, {}, {}, {}]
    let t := treeState r 2 0 0 0x80001 [0, 0x10000] true
    let c := treeState r 2 0 0 0x100001 [0, 1] true
    let full := { r with capacity := 4 }
    TreeTurn t 0 0 5 (treeCmdOf 2 0 0 0x80001) r 2 1 0 0 0x80001 ∧ field (t.rdWin 5 0 8) 0 4 = 0 ∧ field (t.rdWin 5 0 8) 4 2 = 0 ∧
      field (t.rdWin 5 0 8) 6 2 = 1 ∧ arenaHas r 0 {} ∧ (0x80001 : Word) = BitVec.ofNat 64 (1 + 8 * 2 ^ 16) ∧
      TreeTurn c 0 0 5 (treeCmdOf 2 0 0 0x100001) r 2 1 0 0 0x100001 ∧ field (c.rdWin 5 0 16) 4 2 = 1 ∧
      field (c.rdWin 5 0 16) 6 2 = 0 ∧ r.runs = [] ∧ arenaHas r r.bump {} ∧ r.bump + 1 ≤ r.capacity ∧
      full.capacity < full.bump + 1 ∧
      TreeTurn (treeState full 2 0 0 0x100001 [0, 1] true) 0 0 5 (treeCmdOf 2 0 0 0x100001) full 2 1 0 0 0x100001 := by
  unfold TreeTurn arenaHas
  and_intros <;> decide +kernel

theorem wit_TreeUnits_backup :
    let x : Node := { vl := 1, parent := noParent, flags := 1, first := 1, count := 1 }
    let y : Node := { vl := 1, parent := 0 }
    let r := arenaOf [x, y]
    let s := treeState r 3 0 0 0x100001 [1, 5] true
    let back := treeState r 3 0 0 0x100001 [0, 5, 1] true
    TreeTurn s 0 0 5 (treeCmdOf 3 0 0 0x100001) r 3 1 0 0 0x100001 ∧ field (s.rdWin 5 0 16) 0 4 = 1 ∧
      field (s.rdWin 5 0 16) 10 6 = 0 ∧ field (s.rdWin 5 0 16) 8 2 = 0 ∧ arenaHas r 1 y ∧ y.vl ≠ 0 ∧ y.n ≠ 0xFFFFFFFF ∧
      y.parent.toNat = r.root ∧ y.parent ≠ noParent ∧ arenaHas r r.root x ∧ x.vl ≠ 0 ∧
      TreeTurn back 0 0 5 (treeCmdOf 3 0 0 0x100001) r 3 1 0 0 0x100001 ∧ field (back.rdWin 5 0 16) 0 4 = r.root ∧
      field (back.rdWin 5 0 16) 8 2 = 1 := by
  unfold TreeTurn arenaHas
  and_intros <;> decide +kernel

theorem test_backup_negates :
    let x : Node := { vl := 1, parent := noParent, flags := 1, first := 1, count := 1 }
    let y : Node := { vl := 1, parent := 0 }
    let s := treeState (arenaOf [x, y]) 3 0 0 0x100001 [1, 5] true
    (((after (.backupRecord 0 0) s).die 0).arenas.map fun r => (r.nodes.map fun p => p.2.map fun n => (n.n, n.vl, n.w))) =
      [[some (1, 0, -5), some (1, 0, 5)]] := by decide +kernel

theorem wit_TreeCommands :
    let x : Node := { parent := noParent, flags := 1, first := 1, count := 1 }
    let y : Node := { parent := 0, action := 7 }
    let r := arenaOf [x, y]
    let listed := { arenaOf [{ parent := noParent }] with listVa := 0x12000 }
    let dirty := { r with dirty := [1] }
    TreeTurn (treeState r 4 1 0 0 [] true) 0 0 5 (treeCmdOf 4 1 0 0) r 4 1 1 0 0 ∧ arenaHas r 1 y ∧
      y.parent.toNat = r.root ∧ y.parent ≠ noParent ∧
      TreeTurn (treeState r 4 4 0 0 [] true) 0 0 5 (treeCmdOf 4 4 0 0) r 4 1 4 0 0 ∧ r.bump ≤ 4 ∧
      TreeTurn (treeState r 5 0 0 0 [] true) 0 0 5 (treeCmdOf 5 0 0 0) r 5 1 0 0 0 ∧ r.listVa = 0 ∧
      TreeTurn (treeState listed 5 0 0 0 [] true) 0 0 5 (treeCmdOf 5 0 0 0) listed 5 1 0 0 0 ∧ listed.listVa ≠ 0 ∧
      listed.runs = [] ∧ arenaHas listed 0 { parent := noParent } ∧
      TreeTurn (treeState r 6 0x100000000 0 1 [] true) 0 0 5 (treeCmdOf 6 0x100000000 0 1) r 6 1 0x100000000 0 1 ∧
      TreeTurn (treeState r 7 0 0 0x100000000 [] true) 0 0 5 (treeCmdOf 7 0 0 0x100000000) r 7 1 0 0 0x100000000 ∧
      (0x100000000 : Word).toNat = 0 + 1 * 2 ^ 32 ∧ 0 + 1 ≤ r.capacity ∧ arenaHas r 0 x ∧
      TreeTurn (treeState dirty 8 0 0 0 [] true) 0 0 5 (treeCmdOf 8 0 0 0) dirty 8 1 0 0 0 ∧ dirty.dirty = [1] ∧
      (match treePlace (treeState dirty 8 0 0 0 [] true) dirty (dirty.nodeVa 4) true with
        | .ok ((p, _), _) => p == 0x21080
        | _ => false) = true := by
  unfold TreeTurn arenaHas
  and_intros <;> decide +kernel

/-- A READ that misses its node: the cache has room and awaits no line of the arena. -/
theorem wit_TreeCommands_miss :
    let r := arenaOf []
    let s := treeState r 7 0 0 0x100000000 [] true
    TreeTurn s 0 0 5 (treeCmdOf 7 0 0 0x100000000) r 7 1 0 0 0x100000000 ∧ smGet none r.nodes 0 = none ∧
      s.nodesHeld 0 + 4 ≤ 524288 ∧ s.reqs = [] ∧
      (match treePlace s r (r.nodeVa 0) false with
        | .ok ((p, _), _) => p == 0x21000
        | _ => false) = true := by
  unfold TreeTurn
  and_intros <;> decide +kernel

/-- A BIND of the header at VA 0x10000 to slot 1: a header of 16 nodes, one in use; what it has read, its stage, and the
arenas that the die knows. -/
def headLine (capacity : Nat) : List Byte := record [(8, 0x11000), (4, capacity), (4, 1), (48, 0), (64, 0)]
def bindCmd (phase : Nat) (es : List Stage) : Active := { treeCmdOf 0 0x10000 0 0 with phase := phase, stage := es }
def bindState (host : Bool) (a : Active) (rs : List Arena) : State :=
  let s := (one { task := 3, winBytes := 1024, active := [a] }).modCore 1 fun k =>
    { k with tlb := [⟨0, 0x10000, 1, 0x20000, host, true, true⟩] }
  { s with dies := [(0, { arenas := rs })], hub := { s.hub with amap := [(0, 2 ^ 34)], pasids := [(0, { mode := .walk })] } }

abbrev BindParts (s : State) (a : Active) (slot : Nat) (xa : Word) (key : Bool × Nat) (q : Tlb) : Prop :=
  s.treeCmd 0 0 = some (5, a) ∧ a ∈ (s.ctx 5).active ∧ a.cmd.kind = .tree 0 slot xa 0 0 ∧ a.ended = false ∧
    a.fail = none ∧ s.stopped 5 = false ∧ s.slotBusy 5 a false = false ∧ s.treeFault 5 a.cmd.num = none ∧
    s.treeParked 5 = false ∧ (s.ctx 5).arena slot = none ∧ s.xlateFor 5 xa true false = (.hit q, s) ∧
    s.xlateFor 5 xa false true = (.hit q, s) ∧ key = s.placeOf q xa

/-- The turn of a BIND and its header's place, by parts that evaluate. -/
theorem bind_of {s : State} {a : Active} {slot : Nat} {xa : Word} {key : Bool × Nat} (q : Tlb)
    (h : BindParts s a slot xa key q) : BindTurn s 0 0 5 a slot xa ∧ HeaderAt s s 5 xa key := by
  unfold BindParts at h
  refine ⟨by simp [BindTurn, h], q, q, s, ?_⟩
  simp [h]

/-- The stage of a BIND told whether flag [7] was set. -/
def told (b : Byte) : List Stage := [⟨1, 0, [b], false⟩]

theorem wit_TreeCommands_bind_host :
    BindTurn (bindState true (bindCmd 0 []) []) 0 0 5 (bindCmd 0 []) 1 0x10000 ∧
      HeaderAt (bindState true (bindCmd 0 []) []) (bindState true (bindCmd 0 []) []) 5 0x10000 (true, 0x20000) :=
  bind_of ⟨0, 0x10000, 1, 0x20000, true, true, true⟩ (by decide +kernel)

/-- The BINDs that meet an arena at their header's place: one that has not taken it, and one that has, in each phase, before
and after the atomic's answer. -/
def met (w : Arena) (x : Nat × List Stage) : Active × State :=
  let a := { bindCmd x.1 x.2 with aux := 0x20000 }
  (a, bindState false a [w])

theorem wit_TreeCommands_bind_known : ∀ w ∈ [arenaOf [], { arenaOf [] with binding := true }],
    ∀ x ∈ [(0, []), (1, []), (1, told 1), (1, told 0), (2, told 0), (3, [])],
    let m := met w x
    BindTurn m.2 0 0 5 m.1 1 0x10000 ∧ HeaderAt m.2 m.2 5 0x10000 (false, 0x20000) ∧
      (m.2.die 0).arena (false, m.1.aux) = some w ∧ m.1.phase = x.1 := by
  have h : ∀ w ∈ [arenaOf [], { arenaOf [] with binding := true }],
      ∀ x ∈ [(0, []), (1, []), (1, told 1), (1, told 0), (2, told 0), (3, [])],
      BindParts (met w x).2 (met w x).1 1 0x10000 (false, 0x20000) ⟨0, 0x10000, 1, 0x20000, false, true, true⟩ ∧
      ((met w x).2.die 0).arena (false, (met w x).1.aux) = some w ∧ (met w x).1.phase = x.1 := by decide +kernel
  exact fun w hw x hx => ⟨(bind_of _ (h w hw x hx).1).1, (bind_of _ (h w hw x hx).1).2, (h w hw x hx).2⟩

theorem wit_TreeCommands_bind :
    let ok := bindCmd 0 [⟨0, 0x400, headLine 16, false⟩]
    let bad := bindCmd 0 [⟨0, 0x400, headLine 0, false⟩]
    let s := bindState false ok []
    let t := bindState false bad []
    let two := (met (arenaOf []) (2, told 0)).2
    (BindTurn s 0 0 5 ok 1 0x10000 ∧ HeaderAt s s 5 0x10000 (false, 0x20000)) ∧
      (BindTurn t 0 0 5 bad 1 0x10000 ∧ HeaderAt t t 5 0x10000 (false, 0x20000)) ∧
      (arenaOf []).busy = false ∧ (bindCmd 1 []).flagSet = none ∧ (bindCmd 1 (told 1)).flagSet = some true ∧
      (bindCmd 1 (told 0)).flagSet = some false ∧ s.treeBusy 0 0x20000 = false ∧ (s.die 0).arena (false, 0x20000) = none ∧
      (match bindHeader ok s 5 0x10000 (false, 0x20000) with
        | .ok (w, x) => decide (w.nodesHeld 0 + x.nodes.length ≤ 524288)
        | _ => false) = true ∧
      (match bindHeader bad t 5 0x10000 (false, 0x20000) with
        | .error (.stop 9 4 0 0) => true
        | _ => false) = true ∧
      (match treeWrite 0 (arenaOf []) (arenaOf []).va (arenaOf []).headPieces two with
        | .ok _ => true
        | _ => false) = true := by
  refine ⟨bind_of ⟨0, 0x10000, 1, 0x20000, false, true, true⟩ ?_, bind_of ⟨0, 0x10000, 1, 0x20000, false, true, true⟩ ?_, ?_⟩ <;>
    decide +kernel

theorem wit_TreeCommands_gap :
    let r := arenaOf []
    let s := treeState r 5 0 3 0 [] true
    let t := { s with dies := [(0, { cycle := 2 ^ 20, arenas := [r] })] }
    (s.die 0).arenas[0]? = some r ∧ s.arenaCmds 0 r = [(5, treeCmdOf 5 0 3 0)] ∧ 0 < r.dist (treeCmdOf 5 0 3 0).cmd.kind ∧
      r.dist (treeCmdOf 5 0 3 0).cmd.kind < 2 ^ 31 ∧ s.now < max r.moved r.noGap + 2 ^ 20 ∧ max r.moved r.noGap + 2 ^ 20 ≤ t.now ∧
      s.faults = [] ∧ r.busy = false ∧ (arenaOf [{}]).cached 0 = true ∧ (arenaOf [{}]).dirty = [] := by decide +kernel

/-! ### The hub -/

/-- A task of partition 0 in this state, from a small record of die 0. -/
def aTask (id : Nat) (st : TaskSt) : Task :=
  let r : LaunchRec :=
    { entry := 0x4000, srf := 4096, localB := 64, prio := 1, dieMask := 1, hint := 255, preempt := true }
  { id := id, part := 0, pasid := 0, priv := false, lrec := r, state := st, count := 0, inst := none, ord := 0, level := 1, place := id, since := 0,
    head := none, reserv := false, placed := 0, swap := 0, spillDue := false, movedAt := none,
    savedAt := none, saveEnd := 0, img := none, succ := [] }

/-- Partition 0 holds core 0; these contexts and tasks exist, at this cycle and as many times the time of one at P0. -/
def sched (cs : List (Nat × Ctx)) (ts : List Task) (n : Nat) : State :=
  { ctxs := cs, dies := [(0, { cycle := n, time := 3 * n })]
    hub := { parts := [(0, some { cores := [0], key := 0, tag := 0, saveB := 0x100000, saveN := 2 ^ 20 })], tasks := ts
             nextTask := 9, hstatus := 2 } }

/-- A context that holds a task and has been blocked since cycle 0. -/
def stuck (task prio : Nat) : Ctx :=
  { status := .blocked (.milestone .sld 9), task := task, basePrio := prio, winBytes := 4096, locBytes := 64 }

/-- A user queue of partition 0, of 4 slots, mapped. -/
def userQueue : UQueue :=
  { desc := 0x1000, dhost := true, ring := 0, size := 4, pasid := 0, headVa := 0, num := 2, cap := 8
    part := 0, priv := false, slot := some 3, head := 0, tail := 0, latch := false, error := false }

def mark (cov : List Nat) : Active :=
  { cmd := ⟨.rem, 1, .waymark 3 none cov, none, [], [], false, 0⟩, ord := 0 }

theorem wit_SchedulerEvents :
    let m (cov : List Nat) := { sched [(1, { stuck 1 0 with active := [mark cov] })] [aTask 1 .placed] 0 with
      reqs := [{ aReq (.line .sld 1 0 0) false 0 none with id := 7 }] }
    let w (t c : Nat) := (m []).modHub fun h => { h with waymarks := [(wmKey 0 3, { target := t, count := c })] }
    let c := sched [(1, { stuck 1 0 with castOn := [{ prio := 2 }, {}] })] [aTask 1 .placed] 0
    let t := aTask 5 .ready
    let a := sched [] [t] 1000000
    let h := { t with level := 0, head := some 0 }
    let r := sched [] [h] 1000000
    let y := { aTask 7 .swapped with level := 3, eff := 3 }
    let v := sched [(shadowKey 7, { stuck 7 1 with status := .ready })] [y] 1000000
    (((m []).ctx 1).active = [mark []] ∧ (mark []).cmd.queue = .rem ∧ (mark []).started = false ∧ ((m []).waymark (wmKey 0 3)).target = 0 ∧
      ((w 2 0).waymark (wmKey 0 3)).count + 1 < ((w 2 0).waymark (wmKey 0 3)).target ∧
      ((w 2 1).waymark (wmKey 0 3)).target = ((w 2 1).waymark (wmKey 0 3)).count + 1 ∧
      ((w 2 1).waymark (wmKey 0 3)).who = [] ∧ SoleCtx (w 2 1) 1 ∧ (m [7]).outstanding 7 = true ∧ (w 2 1).stopped 1 = false ∧
      ((m []).modCtx 1 fun c => { c with status := .blocked .stopped }).stopped 1 = true) ∧
    (c.ctxOf 1 = some 1 ∧ (c.ctx 1).castOn = [{ prio := 2 }, {}] ∧ (∀ x ∈ c.hub.tasks, x.id ≠ c.hub.nextTask) ∧ Source.task 1 ∉ c.hub.turns ∧
      (let w := c.modHub fun h => { h with turns := [.task 1], queues := [{ userQueue with tail := 1 }] }
       Source.task 1 ∈ w.hub.turns ∧ ∃ src ∈ w.sources (w.ctx 1).part, src ∉ w.hub.turns)) ∧
    (TaskIs a t ∧ a.wants t = true ∧ t.level ≠ 0 ∧ a.ageOf t ≠ 0 ∧ t.since + a.ageOf t ≤ a.taskTime t ∧
      (sched [] [t] 0).taskTime t < t.since + (sched [] [t] 0).ageOf t) ∧
    (TaskIs v y ∧ v.wants y = true ∧ v.levelOf y ≠ 0 ∧ v.ageOf y ≠ 0 ∧ y.state ≠ .ready ∧ v.levelOf y ≠ y.eff) ∧
    (TaskIs r h ∧ r.wants h = true ∧ r.ageOf h ≠ 0 ∧ 0 + r.ageOf h ≤ r.taskTime h ∧ ∀ x ∈ r.hub.tasks, x.part = h.part → x.reserv = false) ∧
    a.nextTask = some t ∧ (a.choose t).isSome = true := by
  unfold SoleCtx TaskIs
  refine ⟨?_, ?_, ?_, ?_, ?_, ?_, ?_⟩ <;> decide +kernel

theorem test_placement :
    let u := after (.placement 5) (sched [] [aTask 5 .ready] 0)
    (u.ctx 0).pc = 0x4000 ∧ (u.ctx 0).task = 5 ∧ (u.ctx 0).status = .ready ∧ (u.ctx 0).winBytes = 4096 := by decide +kernel

/-- The four contexts of core 0 hold placed tasks, blocked since cycle 0, and task 5 is ready. -/
def full (n : Nat) : State :=
  sched ((List.range 4).map fun i => (i, stuck (i + 1) 2))
    ((List.range 4).map (fun i => aTask (i + 1) .placed) ++ [{ aTask 5 .ready with level := 0 }]) n

theorem wit_SwapAndPreempt :
    let s := full 80000
    let t := { aTask 5 .ready with level := 0 }
    (SwapDue s 0 ∧ s.shadowed (coreOf 0) = []) ∧
    ((full 0).die (dieOf (coreOf 0))).time < ((full 0).ctx 0).since + 2100 * ((full 0).die (dieOf (coreOf 0))).swapwait.toNat ∧
    TaskIs s t ∧ s.wants t = true ∧ (s.rooms t).isEmpty = true ∧ (s.victim t).map Prod.snd = some 0 ∧ resident 0 = true ∧
    (∀ x ∈ s.hub.tasks, x.spillDue = false) ∧ (s.swapOut 0).any (fun u => !(u.rooms t).isEmpty) = true ∧
    ((sched [] [t] 0).rooms t).isEmpty = false := by
  refine ⟨⟨⟨by decide, by decide +kernel, by decide +kernel, ⟨.milestone .sld 9, by decide +kernel⟩, by decide +kernel, by decide +kernel⟩, by decide +kernel⟩, by decide +kernel, ?_⟩
  unfold TaskIs; decide +kernel

theorem wit_SchedulerMovesAndEnds :
    let sp := { aTask 6 .swapped with spillDue := true }
    let s := sched [(shadowKey 6, stuck 6 1)] [sp] 0
    let rs := aTask 7 .swapped
    let b := sched [(shadowKey 7, { stuck 7 1 with status := .ready })] [rs] 0
    let e := sched [(1, { stuck 1 0 with retiring := true })] [aTask 1 .placed] 0
    let st := sched [(1, { stuck 1 0 with status := .blocked .stopped })] [aTask 1 .placed] 0
    let q := userQueue
    let k := (sched [] [] 0).modHub fun h => { h with queues := [q] }
    (TaskIs s sp ∧ s.ctxOf sp.id = some (shadowKey 6) ∧ (s.ctx (shadowKey 6)).active = [] ∧ (s.part 0).isSome = true ∧
      (s.saveRun 0 (4096 + 64 + 8 * 33024 * 0)).isSome = true) ∧
    (b.nextTask = some rs ∧ rs.img = none ∧ (b.choose rs).isSome = true ∧ b.ctxOf rs.id = some (shadowKey 7)) ∧
    (TaskIs e (aTask 1 .placed) ∧ (e.ctx 1).retiring = true ∧ (e.ctx 1).finished = true ∧ (e.ctx 1).arenas = [] ∧
      e.treeFault 1 0 = none) ∧
    (st.hub.hstatus % 4 = 2 ∧ st.ctxs.find? (fun p => decide (p.2.task ≠ 0 ∧ p.2.part = 0 ∧ p.2.taskId = 0)) = some (1, st.ctx 1) ∧
      st.ctxOf 1 = some 1) ∧
    k.hub.queues = [q] ∧ ((3 : Word32).toNat + 2 ^ 32 - q.head) % 2 ^ 32 ≤ q.size ∧
      q.size < ((9 : Word32).toNat + 2 ^ 32 - q.head) % 2 ^ 32 := by
  unfold TaskIs
  refine ⟨?_, ?_, ?_, ?_, ?_, ?_, ?_⟩ <;> decide +kernel

theorem test_restore :
    let b := sched [(shadowKey 7, { stuck 7 1 with status := .ready, x := xs [9] })] [aTask 7 .swapped] 0
    let u := after (.restore 7) b
    u.ctx (shadowKey 7) = {} ∧ ((u.ctx ((u.ctxOf 7).getD 0)).x) = xs [9] := by decide +kernel

/-- One fault entry, of handle 3 of context 5, copied to the ring or forwarded. -/
def anEntry (who : Who) (sent : Bool) : FaultEntry :=
  { id := 2, die := 0, va := 0x10000, task := 0, pasid := 0, seq := 1, kind := 5, sub := 0, engine := 0, read := true, write := false,
    atomic := false, exec := false, info := false, core := 1, ctx := 1, part := 0, aux := 0, who := who, copied := sent,
    sent := sent, answer := none }

theorem wit_HubEvents :
    let e := anEntry (.handle 5 3) false
    let f := anEntry (.handle 5 3) true
    let s := { handled with faults := [e], hub := { handled.hub with fents := 64, fring := 0x8000 } }
    let u := { handled.modCtx 5 (fun c => { c with h := [(3, { page with state := .faulted })] }) with faults := [f] }
    let g := { handled with faults := [anEntry (.engine 5 .sld 1 0 0) true] }
    let p := one { posted := [loadCmd.cmd] }
    let d := one { active := [{ mark [] with ended := true }] }
    let k : Token := ⟨1, 7, 0x10000, 2, 0, [], true⟩
    let t := { one {} with hub := { (one {}).hub with tokens := [(1, some k), (2, some { k with auto := false })] } }
    (resident 5 = true ∧ (p.ctx 5).waiting .sld = [loadCmd.cmd] ∧ lineDesc.ws = false ∧ (s.ctx 5).waiting .sld = []) ∧
    ((d.ctx 5).active = [{ mark [] with ended := true }]) ∧
    (EntryIs s e ∧ s.hub.pri = true ∧ (s.faults.filter fun x => x.sent && x.answer.isNone).length < Nat.min 512 s.hub.priMax ∧
      ¬ 0 < Nat.min 512 ({ s.hub with priMax := 0 } : Hub).priMax) ∧
    (Forwarded u f ∧ ((u.ctx 5).handle 3).state = .faulted ∧ ∀ x ∈ u.faults, x.who = f.who → x.id ≤ f.id) ∧
    Forwarded g (anEntry (.engine 5 .sld 1 0 0) true) ∧ s.hub.freeToken = some 0 ∧
    (smGet none t.hub.tokens 1 = some k ∧ t.migrating 1 = false ∧ t.tokenDone k = true ∧ t.migrating 2 = false ∧
      (t.die 0).time < k.at_ + 2100 * 1000 ∧ shooter.migrating 1 = false ∧
      ((smGet none shooter.hub.tokens 1).any fun x => !shooter.tokenDone x) = true) ∧
    (s.faults.find? (fun x => x.die = 0 && !x.copied) = some e ∧ 1 < s.hub.fents ∧
      (s.hub.fnext + 1) % s.hub.fents ≠ s.hub.fhead ∧ s.resolve true (s.hub.fring + 32 * s.hub.fnext) = (true, 0x8000)) := by
  unfold EntryIs Forwarded EntryIs
  refine ⟨?_, ?_, ?_, ?_, ?_, ?_, ?_, ?_⟩ <;> decide +kernel

theorem test_page_request :
    (after (.priPageRequest 2) { handled with faults := [anEntry (.handle 5 3) false] }).faults = [{ anEntry (.handle 5 3) true with
      copied := false }] := by decide +kernel

/-- A record of a driver's request at host address 0x2000. -/
def request (code part : Nat) (ops : List (Nat × Nat)) : List Byte :=
  let b := record ((2, code) :: (1, part) :: (5, 0) :: ops)
  b ++ List.replicate (64 - b.length) 0
def asked (s : State) (code part : Nat) (ops : List (Nat × Nat)) : State :=
  (s.wrMem true 0x2000 (request code part ops)).writeMreq 0x2000

abbrev RecordParts (s : State) (code part : Nat) (bs : List Byte) : Prop :=
  (part < 16 ∧ field bs 3 1 = 0) ∧ s.hub.hstatus % 4 = 2 ∧ s.hub.mreq = [0x2000] ∧
    s.resolve true (0x2000 : Word).toNat = (true, 0x2000) ∧ s.rdMem true 0x2000 64 = bs ∧ field bs 0 2 = code ∧
    field bs 2 1 = part

theorem record_at {s : State} {code part : Nat} (bs : List Byte) (h : RecordParts s code part bs) :
    RecordAt s 0x2000 [] 0x2000 code part (bs.drop 8) ∧ InOrder s 0x2000 part :=
  ⟨⟨h.2.1, h.2.2.1, h.2.2.2.1, bs, h.2.2.2.2.1, rfl, h.2.2.2.2.2⟩, by rw [InOrder, h.2.2.2.2.1]; exact h.1⟩

/-- A task of partition 0 whose number in its partition is 7, stopped. -/
def endable (st : Status) : State := sched [(1, { stuck 1 0 with status := st, taskId := 7 })] [aTask 1 .placed] 0

/-- Every record with a request's code makes one. -/
theorem a_request (c p : Nat) (o : List Byte) (h : 1 ≤ c ∧ c ≤ 8) : ∃ i, RequestOf c p o i := by
  obtain ⟨h, g⟩ := h
  unfold RequestOf
  interval_cases c <;> simp

/-- A request of the driver, its record's code and partition, and a record that makes another. -/
theorem wit_DriverRequests_event :
    IsRequest (.partDestroy 3) ∧ RequestOf 2 3 [] (.partDestroy 3) ∧ ¬ RequestOf 2 1 [] (.partDestroy 3) := by
  have h : RequestOf 2 3 [] (.partDestroy 3) := .inr (.inl ⟨rfl, rfl⟩)
  exact ⟨⟨_, _, _, h⟩, h, by simp [RequestOf]⟩

/-- A record of each request, and records with an operand that it does not take. -/
def requests : List (Nat × Nat × List (Nat × Nat)) := [
  (1, 3, [(12, 0x60), (1, 2), (1, 1)]), (1, 0, []), (2, 0, []), (2, 3, []),
  (3, 0, [(4, 1), (4, 0), (8, 2 ^ 34)]), (3, 0, [(4, 2 ^ 31 + 1), (4, 0), (8, 0x1000000000)]), (3, 0, [(4, 2 ^ 31 + 1), (4, 0), (8, 1)]),
  (4, 0, [(4, 9), (4, 1), (8, 0x1000)]), (4, 0, [(4, 9), (4, 3)]), (5, 0, [(8, 0x1000), (8, 4096)]), (5, 0, [(8, 0x1001)]),
  (6, 0, [(8, 0x1000), (8, 3)]), (6, 0, [(8, 0x1000), (8, 64)]), (8, 0, [(8, 0x1000), (8, 128)]), (8, 0, [(8, 0x1000), (8, 100)])]

theorem wit_DriverRequests_records : ∀ x ∈ requests,
    (RecordAt (asked (sched [] [] 0) x.1 x.2.1 x.2.2) 0x2000 [] 0x2000 x.1 x.2.1 ((request x.1 x.2.1 x.2.2).drop 8) ∧
      InOrder (asked (sched [] [] 0) x.1 x.2.1 x.2.2) 0x2000 x.2.1) ∧
    ∃ i, RequestOf x.1 x.2.1 ((request x.1 x.2.1 x.2.2).drop 8) i := by
  have h : ∀ x ∈ requests, RecordParts (asked (sched [] [] 0) x.1 x.2.1 x.2.2) x.1 x.2.1 (request x.1 x.2.1 x.2.2) := by decide +kernel
  exact fun x hx => ⟨record_at _ (h x hx), a_request _ _ _ ((by decide +kernel : ∀ x ∈ requests, 1 ≤ x.1 ∧ x.1 ≤ 8) x hx)⟩

theorem wit_DriverRequests :
    let s := sched [] [] 0
    let o := fun ops => (request 0 0 ops).drop 8
    let stopped := endable (.blocked .stopped)
    (State.reset.hub.hstatus % 4 ≠ 2 ∧ State.reset.hub.mreq = [] ∧ s.hub.hstatus % 4 = 2 ∧
      ({ s with agenda := [.mreq 5] } : State).agenda = [.mreq 5]) ∧
    ((List.range 96).filter (field (o [(12, 0x60)]) 0 12).testBit = [5, 6] ∧ s.part 3 = none ∧ s.part 0 ≠ none ∧
      unusedZero (o [(12, 0x60), (1, 2), (1, 1)]) 14 ∧ ¬ unusedZero (o [(12, 0x60), (1, 2), (2, 1), (1, 1)]) 14 ∧
      ∀ p ∈ s.hub.parts, ∀ x, p.2 = some x → x.cores = [0] ∧ x.tag = 0) ∧
    (s.own (1 * 2 ^ 21) = true ∧ physOff (1 * 2 ^ 21) < dieBytes ∧
      (1 : Word) &&& ~~~0x000F001400000000 ≠ 0 ∧ (0x1000000000 : Word) &&& ~~~0x000F001400000000 = 0 ∧
      (smPut 0 s.hub.hmap 1 0x1000000000).length ≤ 4096 ∧ unusedZero (o [(4, 1), (4, 0), (8, 2 ^ 34)]) 16) ∧
    ((RecordAt (asked stopped 7 0 [(4, 7)]) 0x2000 [] 0x2000 7 0 ((request 7 0 [(4, 7)]).drop 8) ∧
      InOrder (asked stopped 7 0 [(4, 7)]) 0x2000 0) ∧ unusedZero (o [(4, 7)]) 4 ∧
      stopped.ctxOf 1 = some 1 ∧ TaskIs stopped (aTask 1 .placed) ∧ (endable .running).ctxOf 1 = some 1 ∧
      (endable (.blocked (.sem 0 1))).ctxOf 1 = some 1 ∧ ((endable (.blocked (.sem 0 1))).ctx 1).status = .blocked (.sem 0 1) ∧
      (((endable (.blocked (.handle 3))).modCtx 1 fun c => { c with h := [(3, { page with state := .faulted })] }).ctx 1).handle 3 =
        { page with state := .faulted } ∧ (((endable (.blocked (.handle 3))).ctx 1).handle 3).state ≠ .faulted ∧
      ((endable (.blocked (.milestone .sld 9))).ctx 1).status = .blocked (.milestone .sld 9) ∧
      stopped.ctxs.find? (fun p => decide (p.2.task ≠ 0 ∧ p.2.part = 0 ∧ p.2.taskId.toNat = 7)) = some (1, stopped.ctx 1)) ∧
    s.resolve true 0x1000 = (true, 0x1000) ∧ 128 &&& (128 - 1) = 0 ∧ 100 &&& (100 - 1) ≠ 0 := by
  unfold TaskIs unusedZero
  refine ⟨?_, ⟨?_, ?_, ?_, ?_, ?_, ?_⟩, ?_, ⟨record_at _ ?_, ?_⟩, ?_⟩
  case refine_7 =>
    intro p hp x hx
    rw [show (sched [] [] 0).hub.parts = [(0, some { cores := [0], key := 0, tag := 0, saveB := 0x100000, saveN := 2 ^ 20 })] from rfl,
      List.mem_singleton] at hp
    subst hp
    obtain rfl := Option.some.inj hx
    exact ⟨rfl, rfl⟩
  all_goals decide +kernel

/-- A record with a code of no request, and one with a partition above 15. -/
theorem wit_DriverRequests_refused :
    (∃ o, RecordAt (asked (sched [] [] 0) 9 0 []) 0x2000 [] 0x2000 9 0 o) ∧
    ∃ o, RecordAt (asked (sched [] [] 0) 2 20 []) 0x2000 [] 0x2000 2 20 o ∧ RequestOf 2 20 o (.partDestroy 20) ∧
      ¬ InOrder (asked (sched [] [] 0) 2 20 []) 0x2000 20 := by
  refine ⟨⟨_, ?_, ?_, ?_, request 9 0 [], ?_, rfl, ?_⟩, _, ⟨?_, ?_, ?_, request 2 20 [], ?_, rfl, ?_⟩,
    .inr (.inl ⟨rfl, rfl⟩), fun h => absurd h.1 (by decide)⟩ <;> decide +kernel

theorem test_partCreate :
    let s := asked (sched [] [] 0) 1 3 [(12, 0x60), (1, 2), (1, 1)]
    ((after (.partCreate 3 0x60 2 1) s).part 3).map (fun p => (p.cores, p.key, p.tag)) = some ([5, 6], 2, 1) := by decide +kernel

/-- A care command of context 5, with the record that it has read at host address 0x20000. -/
def care (k : CmdKind) (bs : List Byte) (phase rounds : Nat) (token : Option Nat) : Active :=
  { cmd := ⟨.sst, 1, k, none, [], [], false, 0⟩, ord := 0, started := true, phase := phase, rounds := rounds, token := token
    stage := [⟨1, 0x20000, bs, false⟩] }

theorem wit_CareOfMemory_migrate :
    let a := care (.migrate 0x10000) (List.replicate 64 0) 1 0 none
    let c := care (.migrate 0x10000) (List.replicate 64 0) 2 0 (some 1)
    let k : Token := ⟨1, 7, 0x10000, 2, 0, [], false⟩
    let s := one { active := [a] }
    let d := { s with filters := [⟨5, 1, 0, 4096, [0]⟩] }
    let t := { one { active := [c] } with hub := { s.hub with tokens := [(1, some k)] } }
    let two := { c with phase := 1, stage := a.stage ++ [(⟨2, 7, List.replicate 128 0, true⟩ : Stage)] }
    let last := { c with phase := 3 }
    let mark := { c with token := none }
    (s.ctx 5).active = [a] ∧ a.record = List.replicate 64 0 ∧ a.phase = 1 ∧ s.filterOf 5 1 = [] ∧
      (mark.phase = 2 ∧ mark.token = none) ∧ s.cmdFault 5 .sst 1 recordLine = none ∧ s.shut false 0 8 = false ∧
      { s with locks := [0] }.shut false 0 8 = true ∧
      s.stopped 5 = false ∧ a.copying = false ∧ ({ a with writ := [0, 1] } : Active).stage = [(⟨1, 0x20000, List.replicate 64 0, false⟩ : Stage)] ∧
      two.record = a.record ∧ (List.replicate 128 (0 : Byte)).length = 128 ∧ last.copying = false ∧ last.token.isSome = true ∧
      s.hub.freeToken = some 0 ∧ d.filterOf 5 1 ≠ [] ∧ a.rounds ≠ 3 ∧ (t.ctx 5).active = [c] ∧ c.token = some 1 ∧
      smGet none t.hub.tokens 1 = some k ∧ t.tokenDone k = true := by decide +kernel

/-- The record of a scrub of two lines at VA 0x10000 into the bitmap at VA 0x30000. -/
def scrubRec : List Byte := record [(8, 0x10000), (4, 256), (4, 0), (8, 0x30000), (8, 0)]
def scrubbing (units : Nat) : State :=
  let s := (one { active := [{ care (.scrub 0x40000) scrubRec 0 0 none with units := units }] }).modCore 1 fun k =>
    { k with tlb := [⟨0, 0x10000, 1, 0x20000, false, true, true⟩, ⟨0, 0x30000, 1, 0x50000, true, true, true⟩] }
  { s with hub := { s.hub with amap := [(0, 2 ^ 34)], pasids := [(0, { mode := .walk })] } }

theorem wit_CareOfMemory_scrub : ∀ u ∈ [0, 1],
    let s := scrubbing u
    field scrubRec 8 4 / 128 = 2 ∧
    (match s.carePlace 5 1 (2 * u + 1) (BitVec.ofNat 64 (field scrubRec 0 8 + 128 * u)) false with
      | .at_ h q t => !h && q == 0x20000 + 128 * u && t.own q &&
        (match t.carePlace 5 1 (2 * u + 2) (BitVec.ofNat 64 (field scrubRec 16 8) + BitVec.ofNat 64 (u / 4)) true with
          | .at_ h b _ => h && b == 0x50000
          | _ => false)
      | _ => false) = true := by decide +kernel

/-- A slot 31 of the channel of an address on die 0 comes at some ac, whatever the hash of channels. -/
theorem slot31_at (s : State) (a : Nat) (h : s.dieAt a = 0) (hl : s.locks = []) :
    State.slot31 { s with dies := [(0, { cycle := 31 + 31 * s.channelOf a })] } a = true := by
  unfold State.slot31
  rw [show State.dieAt { s with dies := [(0, { cycle := 31 + 31 * s.channelOf a })] } a = 0 from h,
    show State.channelOf { s with dies := [(0, { cycle := 31 + 31 * s.channelOf a })] } a = s.channelOf a from rfl,
    show State.now { s with dies := [(0, { cycle := 31 + 31 * s.channelOf a })] } = 31 + 31 * s.channelOf a from rfl,
    show State.die { s with dies := [(0, { cycle := 31 + 31 * s.channelOf a })] } 0 = { cycle := 31 + 31 * s.channelOf a } from rfl,
    show ({ s with dies := [(0, { cycle := 31 + 31 * s.channelOf a })] } : State).locks = [] from hl]
  simp [DieSt.retrains]
  omega

theorem slot31_never (s : State) (a : Nat) (h : s.dieAt a = 0) : State.slot31 { s with dies := [(0, { c3 := true })] } a = false := by
  unfold State.slot31
  rw [show State.dieAt { s with dies := [(0, { c3 := true })] } a = 0 from h,
    show State.die { s with dies := [(0, { c3 := true })] } 0 = { c3 := true } from rfl]
  simp

theorem wit_CareOfMemory_slot : (scrubbing 0).dieAt 0x20000 = 0 ∧ (scrubbing 0).locks = [] := by decide +kernel

theorem wit_CareOfMemory_patrol :
    let s := State.reset
    let d := s.die 0
    let h : HotRow := { row := 3, score := 4, entry := 0 }
    let t := { s with dies := [(0, { hot := [(1, h)], time := 2 ^ 60, scrubctl := 0 })] }
    (∀ k < 3, d.scrubctl.getLsbD k = true) ∧ d.scrubctl.getLsbD 3 = false ∧ s.dieAt (128 * 5) = 0 ∧ s.locks = [] ∧
      128 * 5 < dieBytes ∧ smGet 0 d.patrol (2 ^ 32 + 5) = 0 ∧ (∀ row, smGet 0 d.patRow 1 ≤ row) ∧ (∀ h ∈ d.hot, h.1 ≠ 1) ∧
      d.time < smGet 0 d.patStart 1 + d.period ∧ smGet 0 (t.die 0).patStart 1 + (t.die 0).period ≤ (t.die 0).time ∧
      (t.die 0).hot = [(1, h)] ∧ t.patrolled 0 1 = true := by
  refine ⟨?_, ?_, ?_, ?_, ?_, ?_, fun row => Nat.zero_le row, ?_, ?_, ?_, ?_, ?_⟩ <;> decide +kernel

/-- Care commands that have only their records left to write, at VA 0x40000 in host memory, or behind an entry. -/
theorem wit_CareOfMemory_closing : ∀ k ∈ [CmdKind.migrate 0x40000, .scrub 0x40000],
    let a := { care k (List.replicate 64 0) closing 0 none with fail := some (1, 3, 8) }
    let s := (one { active := [a] }).modCore 1 fun c => { c with tlb := [⟨0, 0x40000, 1, 0x60000, true, true, true⟩] }
    let s := { s with hub := { s.hub with pasids := [(0, { mode := .walk })] } }
    let parked := { s with faults := [anEntry (.engine 5 .sst 1 0 recordLine) true] }
    (s.ctx 5).active = [a] ∧ s.stopped 5 = false ∧ a.started = true ∧ a.phase = closing ∧ a.fail = some (1, 3, 8) ∧
      (match s.carePlace 5 1 recordLine 0x40000 true with
        | .at_ h q _ => h && q == 0x60000
        | _ => false) = true ∧
      (match parked.carePlace 5 1 recordLine 0x40000 true with
        | .wait _ => true
        | _ => false) = true := by decide +kernel

/-- A configuration record with its magic number and the domain of one package, at host address 0. -/
theorem wit_PowerAndBoot :
    let s := State.reset
    let b := { s with hub := { s.hub with hstatus := 1 }, hostMem := [⟨0, 0x43⟩, ⟨1, 0x44⟩, ⟨2, 0x46⟩, ⟨3, 0x47⟩, ⟨5, 1⟩] }
    let r := { s with dies := [(0, { retrain := [(2, 9)], pWait := some 1, cycle := 64 })] }
    let w := { s with dies := [(0, { pWait := some 1, cycle := 64 })] }
    let o := { s with hub := { s.hub with mode := .ownerDebug, levels := [(0, 2)], parts := [(0, some { cores := [3], key := 0, tag := 0 })] } }
    let c (exit : Option Nat) (n : Nat) : State := { s with dies := [(0, { c3 := true, c3Exit := exit, time := n })] }
    let asks := { c none 0 with reqs := [aReq (.load 1 8 false false) false 0 none] }
    ((r.die 0).retrains 2 = true ∧ s.saving 0 2 = false ∧ (s.die 0).retrains 2 = false ∧
      (∀ k < 3, (w.die 0).retrains k = false) ∧ (w.die 0).trainDue = [] ∧ (w.die 0).pWait = some 1 ∧ (w.die 0).cycle % 32 = 0 ∧ w.haltedOn 0 = false) ∧
    ((1 : BitVec 2) ≠ 3 ∧ s.hub.plimit ≤ 1 ∧ (s.die 0).c3 = false ∧ (s.die 0).cycle % 32 = 0 ∧ ¬ ∀ k < 3, (r.die 0).retrains k = false) ∧
    ((∀ g ∈ coresOf 0, s.quiet g = true) ∧ s.reqs = [] ∧ (one { task := 3 }).quiet 1 = false ∧
      ((one { task := 3 }).ctx 5).task ≠ 0 ∧ 5 ∈ ctxsOf 1) ∧
    (((c (some 9) 8).die 0).time < 9 ∧ 9 ≤ ((c (some 9) 9).die 0).time ∧ (c none 0).wanted 0 = false ∧ asks.wanted 0 = true ∧
      (asks.die 0).c3 = true ∧ (asks.die 0).c3Exit = none ∧ ∀ g ∈ coresOf 0, (c none 0).quiet g = true) ∧
    (∀ act ∈ [DebugAct.halt, .inspect, .resume, .trace, .counters], s.mayDebug 0 act 3 = false ∧ o.mayDebug 0 act 3 = true) ∧
    ((o.die (dieOf 3)).c3 = false ∧ (o.die (dieOf 3)).pstate ≠ 2) ∧
    (s.hub.hstatus = 0 ∧ s.hub.cfgrec = 0 ∧ b.hub.hstatus = 1 ∧ b.resolve true 0 = (true, 0) ∧ cfgOk (b.rdMem true 0 512) = true ∧
      cfgOk ({ b with hostMem := [] }.rdMem true 0 512) = false ∧ b.hub.mode ≠ .ret ∧
      ∃ x ∈ ((b.rdMem true 0 512).drop 8).take 16, x ≠ 0xFF) := by
  refine ⟨?_, ?_, ?_, ?_, ?_, ?_, ?_⟩ <;> decide +kernel

theorem test_boot : (after (.boot ⟨true, true, true, true⟩ 0) State.reset).hub.hstatus = 1 ∧
    (after (.boot ⟨false, true, true, true⟩ 0) State.reset).hub.hstatus = 0x203 := by decide +kernel

/-- A plane command waits; and with the round already its own, and another context with one. -/
theorem wit_HubEvents_window :
    let k : Cmd := ⟨.mat, 1, .mrout 0x10000 3 20 1, none, [], [], true, 0⟩
    let s := one { task := 3, posted := [k] }
    let u := { s with ctxs := (4, { status := .ready, task := 4, posted := [k] }) :: s.ctxs }.modCore 1 fun c => { c with matTurn := [5] }
    resident 5 = true ∧ s.stopped 5 = false ∧ (s.ctx 5).waiting .mat = [k] ∧ (s.window 1).length < 32 ∧
      5 ∉ (s.core 1).matTurn ∧ (u.ctx 5).waiting .mat = [k] ∧ 5 ∈ (u.core 1).matTurn ∧ 4 ∈ ctxsOf 1 ∧
      u.stopped 4 = false ∧ (u.ctx 4).waiting .mat ≠ [] ∧ 4 ∉ (u.core 1).matTurn ∧ (halting s).stopped 5 = true := by
  decide +kernel

/-- A spilled task, its image at the start of the save area of its partition, and a context that it fits. -/
theorem wit_SchedulerMovesAndEnds_refill :
    let n := 4096 + 1024
    let i : SpillImg := { marks := [], lines := [], locBad := [], bytes := n, die := 0 }
    let t := { aTask 7 .spilled with img := some i, savedAt := some (0, n) }
    let s := sched [(shadowKey 7, { stuck 7 1 with status := .ready, winBytes := 0, locBytes := 0 })] [t] 0
    s.nextTask = some t ∧ (s.choose t).any (fun f => f.win % 128 = 0 && decide (shadowKey 7 ≠ f.cx)) = true ∧
      s.ctxOf 7 = some (shadowKey 7) ∧ (s.part 0).isSome = true ∧ t.lrec.winBytes + t.lrec.locBytes ≤ n := by
  decide +kernel

/-- A kick of a queue that is known and not mapped. -/
theorem wit_SchedulerMovesAndEnds_kick :
    let q := { userQueue with slot := none }
    let s := (sched [] [] 0).modHub fun h => { h with queues := [q] }
    s.hub.queues = [q] ∧ q.error = false ∧ q.slot = none ∧ q.dhost = true ∧ (9 : Nat) ≠ q.num := by decide +kernel

theorem wit_IdleCycles :
    let k := kern []
    let s := coded k 0x00800000 (BitVec.ofNat 32 (2 ^ 31 + 5 * 2 ^ 26 + 4095))
    let e := { kern [] with idle := 1 }
    packetSlots 0x00800000 = [(7, .b)] ∧ (decodePacket 0x00800000 [2 ^ 31 + 5 * 2 ^ 26 + 4095]).isLeft = true ∧ Resting s k ∧
      0 ≤ k.pc ∧ (s.core 1).packet k = some (0x00800000, [2 ^ 31 + 5 * 2 ^ 26 + 4095]) ∧ k.branch = none ∧ k.loops = [] ∧
      ((array e).core 1).kern = some e ∧ e.idle = 0 + 1 ∧ e.abort = false ∧ e.freeze = false ∧
      s.stopped 5 = false ∧ (s.core 1).codeSoft k (packetLen 0x00800000) = false := by
  unfold Resting; decide +kernel

theorem wit_TranslationGeneration :
    Unhindered shooter [9, 8] ∧ shooter.tagX 5 8 = false ∧ (shooter.ctx 5).priv = true ∧
      ((smGet none shooter.hub.tokens ((shooter.rdX 5 8).toNat % 16)).any fun k =>
        !k.auto && decide (k.serial = (shooter.rdX 5 8).toNat / 16) && shooter.tokenDone k) = true ∧
      exec (.walkComplete 5 4 none) resolving = .next (after (.walkComplete 5 4 none) resolving) ∧
      ((resolving.ctx 5).handle 4).state = .pending ∧
      (((after (.walkComplete 5 4 none) resolving).ctx 5).handle 4).state = .valid ∧ Unhindered shooter [9] := by
  refine ⟨by unfold Unhindered; decide +kernel, by decide +kernel, by decide +kernel, by decide +kernel, rfl, by decide +kernel,
    by decide +kernel, by unfold Unhindered; decide +kernel⟩

/-! ### Coverage -/

/-- The rules of the grouped statements give a result for every instruction that they name. -/
theorem wit_rules_scalar :
    let s := one {}
    ([.add 1 2 3, .sub 1 2 3, .and_ 1 2 3, .or_ 1 2 3, .xor 1 2 3, .andn 1 2 3, .shl 1 2 3, .shr 1 2 3, .sra 1 2 3, .rol 1 2 3,
      .minI 1 2 3, .minN 1 2 3, .maxI 1 2 3, .maxN 1 2 3, .clz 1 2, .popc 1 2, .sel 1 2 3 4, .addi 1 2 ⟨3, none⟩,
      .andi 1 2 ⟨3, none⟩, .ori 1 2 ⟨3, some 255⟩, .xori 1 2 ⟨3, none⟩, .shli 1 2 63, .shri 1 2 0, .srai 1 2 1, .roli 1 2 0,
      .ldi 0 3 7, .ldiKeep 1 3 7, .ldi64 31 (-1)].all fun i => (aluRule (s.rdX 5) (s.tagX 5) i).isSome) = true ∧
    ([.cmp 1 2 3 5, .cmpi 1 2 0 ⟨3, none⟩, .mul 1 2 3, .mulhI 1 2 3, .mulhN 1 2 3, .divI 1 2 0, .divN 1 2 3, .remI 1 2 3,
      .remN 1 2 0, .bfxI 1 2 3, .bfxN 1 2 3, .bfi 1 2 3, .fshl 1 2 3 4, .fshr 1 2 3 4, .bfxIImm 1 2 0 63, .bfxNImm 1 2 8 60,
      .bfiImm 1 2 63 1].all fun i => (mulRule (s.rdX 5) (s.tagX 5) i).isSome) = true := by decide +kernel

theorem wit_rules_lane :
    ([.kAdd 1 2 3 0 3, .kSub 1 2 3 0 2, .kAnd 1 2 3 0, .kOr 1 2 3 0, .kXor 1 2 3 0, .kAndn 1 2 3 0, .kShl 1 2 3 0 1,
      .kShr 1 2 3 0 1, .kSra 1 2 3 0 0, .min 1 2 3 0 3, .max 1 2 3 0 1, .kSel 1 2 3 0 1, .kBfxN 1 2 0 31, .kBfxI 1 2 5 0,
      .kBfi 1 2 5 3, .kFshl 1 2 31, .kFshr 1 2 0, .movi 1 2048, .moviHigh 1 4095, .moviLiteral 1 2 3 4, .moviShifted 1 31 4,
      .abs 1 2 0 1, .neg 1 2 0 0, .kClz 1 2 0 1, .kPopc 1 2 0 0, .not_ 1 2 0, .fabs 1 2 0, .fneg 1 2 0, .kMul 1 2 3 0 1,
      .mulh 1 2 3 0 3, .dot4i8 1 2 3 0 2, .packLo 1 2 3 0, .packHi 1 2 3 0].all fun i => (laneInteger i).isSome && i.wf) = true ∧
    ([.fclass 1 2 0, .fadd 1 2 3 0 3, .fsub 1 2 3 0 1, .fmin 1 2 3 0 1, .fmax 1 2 3 0 0, .cvtI32F32 1 2 0 1, .cvtN32F32 1 2 0 2,
      .cvtF32I32 1 2 0 0, .cvtF32N32 1 2 0 3, .scalb 1 2 3 0 0, .frnd 1 2 0 1, .packF16 1 2 3 0, .packBf16 1 2 3 0,
      .twosum 2 3 5 0, .ftwosum 2 3 5 0, .dwadd 2 4 6 0, .dwnorm 2 4 0, .fma 1 2 3 0 0, .fms 1 2 3 0 0, .fmul 1 2 3 0 0,
      .twoprod 2 3 5 0, .dwmul 2 4 6 0, .dwfma 2 4 6 0, .mad16 1 2 3 0 0, .madb16 1 2 3 0 0, .dot2 1 2 3 0 0, .rcp 1 2 0 0,
      .rsq 1 2 0 0, .sqrt 1 2 0 0, .div 1 2 3 0 0, .exp2 1 2 0 0, .log2 1 2 0 0, .sigm 1 2 0 0, .tanh 1 2 0 0, .rsqe 1 2 0 0,
      .silu 1 2 0 0].all fun i => (laneFloat i).isSome && i.wf) = true := by decide +kernel

theorem wit_rules_kernel :
    let k := kern []
    ([.comm 1 2 3 0, .commCl 1 2 3 0, .commpRot 1 2 127 0, .commpBc 1 2 0 0, .commpBfly 1 2 127 0].all fun i =>
      (switchRule k i).isSome) = true ∧
    ([.ardF32 1 0 2 0, .ardI32 1 0 2 0, .ardXaF32 1 0 2 0, .ardXaI32 1 4 2 0, .ardExp 1 7 2 0, .ard2 2 0 3 0, .ard2Q 2 4 3 5 0,
      .awrI32 1 0 2 0, .awrPair 2 0 3 0, .awrExp 1 0 2 0, .adep 1 0 2 0, .ascl 1 0 2 0].all fun i =>
        (accRule (array k) k i).isSome && i.wf) = true ∧
    ([.psetImm 7 0 1, .psetHi 0 0 1, .psetAdd 1 0 1, .loop 3 0 4095, .loopP 0 7 1, .bra 1 7 4095, .kJmp 2048, .kend, .idle 4095].all
      fun i => (seqRule k i).isSome && i.wf) = true := by decide +kernel

/-! ### Decoding: words written out from the rows of the opcode table, each field with a value of its own -/

/-- Whether a slot word, with the literal of its packet, or a routine word decodes to an instruction. -/
noncomputable def reads (p : Nat × Nat × Instr) : Bool :=
  match p.2.2.form with
  | .control => decodeSlot p.1 none = some p.2.2
  | .kernel k => match decodeK k p.1 p.2.1 with
    | .inl o => o.instr = p.2.2
    | .inr _ => false
  | .plane => (decodeRoutine p.1).map RWord.instr = some p.2.2
  | .event => false

theorem test_decode_control_a : [
    (0x08A6B800, 0x0, .add 5 6 0x17), (0x08A6B801, 0x0, .sub 5 6 0x17), (0x08A6B802, 0x0, .and_ 5 6 0x17),
    (0x08A6B803, 0x0, .or_ 5 6 0x17), (0x08A6B804, 0x0, .xor 5 6 0x17), (0x08A6B805, 0x0, .andn 5 6 0x17),
    (0x08A6B806, 0x0, .shl 5 6 0x17), (0x08A6B807, 0x0, .shr 5 6 0x17), (0x08A6B808, 0x0, .sra 5 6 0x17),
    (0x08A6B809, 0x0, .rol 5 6 0x17), (0x08A6B80A, 0x0, .minI 5 6 0x17), (0x08A6B80B, 0x0, .minN 5 6 0x17),
    (0x08A6B80C, 0x0, .maxI 5 6 0x17), (0x08A6B80D, 0x0, .maxN 5 6 0x17), (0x08A6000E, 0x0, .clz 5 6),
    (0x08A6000F, 0x0, .popc 5 6), (0x08A6BA50, 0x0, .sel 5 6 0x17 9), (0x0CA6ADB5, 0x0, .addi 5 6 ⟨0xADB5, none⟩),
    (0x10A6ADB5, 0x0, .andi 5 6 ⟨0xADB5, none⟩), (0x14A6ADB5, 0x0, .ori 5 6 ⟨0xADB5, none⟩),
    (0x18A6ADB5, 0x0, .xori 5 6 ⟨0xADB5, none⟩), (0x1CA60015, 0x0, .shli 5 6 0x15),
    (0x1CA64015, 0x0, .shri 5 6 0x15), (0x1CA68015, 0x0, .srai 5 6 0x15), (0x1CA6C015, 0x0, .roli 5 6 0x15),
    (0x20B0ADB5, 0x0, .ldi 5 2 0xADB5), (0x20B4ADB5, 0x0, .ldiKeep 5 2 0xADB5), (0x24A6B805, 0x0, .cmp 5 6 0x17 5),
    (0x28A68DB5, 0x0, .cmpi 5 6 4 ⟨0xDB5, none⟩), (0x2CA6B800, 0x0, .mul 5 6 0x17),
    (0x2CA6B801, 0x0, .mulhI 5 6 0x17), (0x2CA6B802, 0x0, .mulhN 5 6 0x17), (0x2CA6B803, 0x0, .divI 5 6 0x17),
    (0x2CA6B804, 0x0, .divN 5 6 0x17)].all reads = true := by decide +kernel

theorem test_decode_control_b : [
    (0x2CA6B805, 0x0, .remI 5 6 0x17), (0x2CA6B806, 0x0, .remN 5 6 0x17), (0x30A6B800, 0x0, .bfxI 5 6 0x17),
    (0x30A6B801, 0x0, .bfxN 5 6 0x17), (0x30A6B802, 0x0, .bfi 5 6 0x17), (0x30A6BA43, 0x0, .fshl 5 6 0x17 9),
    (0x30A6BA44, 0x0, .fshr 5 6 0x17 9), (0x34A60555, 0x0, .bfxIImm 5 6 0x15 0x15),
    (0x34A61555, 0x0, .bfxNImm 5 6 0x15 0x15), (0x34A62555, 0x0, .bfiImm 5 6 0x15 0x15),
    (0x40B7ADB5, 0x0, .ld 5 0xB 6 ⟨0x2DB5, none⟩), (0x44B7AF00, 0x0, .ldx 5 0xB 6 0x17 2),
    (0x48B6EDB5, 0x0, .st 5 0xB 3 ⟨0x2DB5, none⟩), (0x4CB6EF00, 0x0, .stx 5 0xB 3 0x17 2),
    (0x50B76DB5, 0x0, .ldAcq 5 0xB 5 ⟨0x2DB5, none⟩), (0x54B6ADB5, 0x0, .stRel 5 0xB 2 ⟨0x2DB5, none⟩),
    (0x58A6BD84, 0x0, .amoAdd 5 6 0x17 0xB 1), (0x58A6BD8C, 0x0, .amoSwap 5 6 0x17 0xB 1),
    (0x58A6BD94, 0x0, .amoCas 5 6 0x17 0xB 1), (0x58A6BD9C, 0x0, .amoMinI 5 6 0x17 0xB 1),
    (0x58A6BDA4, 0x0, .amoMinN 5 6 0x17 0xB 1), (0x58A6BDAC, 0x0, .amoMaxI 5 6 0x17 0xB 1),
    (0x58A6BDB4, 0x0, .amoMaxN 5 6 0x17 0xB 1), (0x58A6BDBC, 0x0, .amoAnd 5 6 0x17 0xB 1),
    (0x58A6BDC4, 0x0, .amoOr 5 6 0x17 0xB 1), (0x58A6BDCC, 0x0, .amoXor 5 6 0x17 0xB 1),
    (0x5CA6EDB5, 0x0, .ldl 5 6 1 6 ⟨0xDB5, none⟩), (0x60A6BDB5, 0x0, .stl 5 6 1 3 ⟨0xDB5, none⟩),
    (0x65660002, 0x0, .xlate 0xB 6 2), (0x69600000, 0x0, .hinv 0xB), (0x68AB0001, 0x0, .hinfo 5 0xB),
    (0x6C000004, 0x0, .drain 4), (0x6CA6B9BB, 0x0, .drainFlag 5 6 0x17 1 0xB 3),
    (0x70A6BA58, 0x0, .semAdd 5 6 0x17 0x25 1)].all reads = true := by decide +kernel

theorem test_decode_control_c : [
    (0x70A6BA59, 0x0, .semWait 5 6 0x17 0x25 1), (0x70A6025A, 0x0, .semAcq 5 6 0x25 1),
    (0x7006025B, 0x0, .semRel 6 0x25 1), (0x7006BA5C, 0x0, .semPost 6 0x17 0x25 1),
    (0x70A6BA5D, 0x0, .semRead 5 6 0x17 0x25 1), (0x74A0002C, 0x0, .mbRd 5 0xB), (0x7406002D, 0x0, .mbWr 6 0xB),
    (0x74A6B82E, 0x0, .mbProbe 5 6 0x17 0xB), (0x78060028, 0x0, .mileWait 6 5), (0x78A00019, 0x0, .mileRead 5 3),
    (0x78060022, 0x0, .mileArm 6 4), (0x8006BDC8, 0x0, .sbind 6 0x17 0xB 4 1), (0x84A6B800, 0x0, .sload 5 6 0x17),
    (0x88A6BA40, 0x0, .sgather 5 6 0x17 9), (0x8CA6BA45, 0x0, .sstore 5 6 0x17 9 5),
    (0x90A6BA40, 0x0, .sscatter 5 6 0x17 9), (0x90A6BA44, 0x0, .sscatterAddI32 5 6 0x17 9),
    (0x90A6BA48, 0x0, .sscatterAddN32 5 6 0x17 9), (0x90A6BA4C, 0x0, .sscatterAddI64 5 6 0x17 9),
    (0x90A6BA50, 0x0, .sscatterAddXa256 5 6 0x17 9), (0x90A6BA54, 0x0, .sscatterAddF32 5 6 0x17 9),
    (0x94A6BA40, 0x0, .spair 5 6 0x17 9), (0x98A6B800, 0x0, .scopy 5 6 0x17), (0x9CA6B800, 0x0, .krun 5 6 0x17),
    (0xA0A60001, 0x0, .kctlPrefetch 5 6), (0xA4A6BA60, 0x0, .mcall 5 6 0x17 9 2), (0xA8A6B800, 0x0, .mrout 5 6 0x17),
    (0xACA00000, 0x0, .wsctlLoad 5), (0xACA00001, 0x0, .wsctlSeal 5), (0xACA00002, 0x0, .wsctlQuery 5),
    (0xB0A6B820, 0x0, .treeBind 5 6 0x17 2), (0xB0A6BA61, 0x0, .treeDesc 5 6 0x17 9 2),
    (0xB0A6BA62, 0x0, .treeExp 5 6 0x17 9 2), (0xB0A6BA63, 0x0, .treeBack 5 6 0x17 9 2)].all reads = true := by decide +kernel

theorem test_decode_control_d : [
    (0xB0A6B824, 0x0, .treeReroot 5 6 0x17 2), (0xB0A0B825, 0x0, .treeSweep 5 0x17 2),
    (0xB0A6BA66, 0x0, .treePath 5 6 0x17 9 2), (0xB0A6BA67, 0x0, .treeRead 5 6 0x17 9 2),
    (0xB0A0B828, 0x0, .treeFlush 5 0x17 2), (0xB4A6BA40, 0x0, .gatherl 5 6 0x17 9), (0xC0A60000, 0x0, .launch 5 6),
    (0xC4A6B801, 0x0, .taskYield 5 6 0x17), (0xC4A6B802, 0x0, .taskPrio 5 6 0x17),
    (0xC4A6B803, 0x0, .taskSelf 5 6 0x17), (0xC8A0061F, 0x0, .waymark 5 0xC3 7),
    (0xE0D6ADB5, 0x0, .br 6 5 ⟨0x2ADB5, none⟩), (0xE4DEADB5, 0x0, .jmp 0xDEADB5), (0xE8DEADB5, 0x0, .call 0xDEADB5),
    (0xEC060000, 0x0, .jx 6), (0xEC060001, 0x0, .callx 6), (0xF000ADB5, 0x0, .trap 0xADB5),
    (0xF4A00103, 0x0, .csrr 5 0x103), (0xF4061065, 0x0, .csrw 6 0x65), (0xF8A60000, 0x0, .scrub 5 6),
    (0xF8A60001, 0x0, .migrate 5 6), (0xF8A6B802, 0x0, .xinvMark 5 6 0x17), (0xF8A60003, 0x0, .xinvConfirm 5 6),
    (0xF806B804, 0x0, .qmap 6 0x17), (0x04000000, 0x0, .nop), (0x78000003, 0x0, .mileDisarm),
    (0xA0000000, 0x0, .kctlAbort), (0xC4000000, 0x0, .taskRetire), (0xEC000002, 0x0, .ret),
    (0xF4002000, 0x0, .uiret), (0xF4003000, 0x0, .waiti), (0xF4004000, 0x0, .bkpt), (0xF4005000, 0x0, .fenceC)].all reads = true := by decide +kernel

theorem test_decode_kernel_a : [
    (0x8252CAC6, 0x0, .kAdd 0x4A 0x2C 0x56 1 2), (0x8652CAC6, 0x0, .kSub 0x4A 0x2C 0x56 1 2),
    (0x8A52CAC4, 0x0, .kAnd 0x4A 0x2C 0x56 1), (0x8E52CAC4, 0x0, .kOr 0x4A 0x2C 0x56 1),
    (0x9252CAC4, 0x0, .kXor 0x4A 0x2C 0x56 1), (0x9652CAC4, 0x0, .kAndn 0x4A 0x2C 0x56 1),
    (0x9A52CAC6, 0x0, .kShl 0x4A 0x2C 0x56 1 1), (0x9E52CAC6, 0x0, .kShr 0x4A 0x2C 0x56 1 1),
    (0xA252CAC6, 0x0, .kSra 0x4A 0x2C 0x56 1 1), (0xA652CAC6, 0x0, .min 0x4A 0x2C 0x56 1 2),
    (0xAA52CAC6, 0x0, .max 0x4A 0x2C 0x56 1 2), (0xAD6ACAC5, 0x0, .kCmp 5 5 0x2C 0x56 1 1),
    (0xB252CAC6, 0x0, .kSel 0x4A 0x2C 0x56 1 1), (0xB651C1AD, 0x0, .kBfxN 0x4A 7 0xD 0xD),
    (0xB651D1AD, 0x0, .kBfxI 0x4A 7 0xD 0xD), (0xBA51C1AD, 0x0, .kBfi 0x4A 7 0xD 0xD),
    (0xBE51C00B, 0x0, .kFshl 0x4A 7 0xB), (0xBE51D00B, 0x0, .kFshr 0x4A 7 0xB), (0xC2500DB5, 0x0, .movi 0x4A 0xDB5),
    (0xC2501DB5, 0x0, .moviHigh 0x4A 0xDB5), (0xC252EDB5, 0x8765, .moviLiteral 0x4A 0xB 0xDB5 0x8765),
    (0xC250300B, 0x8765, .moviShifted 0x4A 0xB 0x8765), (0xC652C006, 0x0, .abs 0x4A 0x2C 1 1),
    (0xC652C026, 0x0, .neg 0x4A 0x2C 1 1), (0xC652C046, 0x0, .kClz 0x4A 0x2C 1 1),
    (0xC652C066, 0x0, .kPopc 0x4A 0x2C 1 1), (0xC652C084, 0x0, .not_ 0x4A 0x2C 1),
    (0xC652C0A4, 0x0, .fabs 0x4A 0x2C 1), (0xC652C0C4, 0x0, .fneg 0x4A 0x2C 1),
    (0xC652C0E4, 0x0, .fclass 0x4A 0x2C 1), (0xCA52CAC6, 0x0, .fadd 0x4A 0x2C 0x56 1 2),
    (0xCE52CAC6, 0x0, .fsub 0x4A 0x2C 0x56 1 2), (0xD252CAC5, 0x0, .fmin 0x4A 0x2C 0x56 1 1),
    (0xD652CAC5, 0x0, .fmax 0x4A 0x2C 0x56 1 1)].all reads = true := by decide +kernel

theorem test_decode_kernel_b : [
    (0xD92ACAC5, 0x0, .fcmp 4 5 0x2C 0x56 1 1), (0xDE52C006, 0x0, .cvtI32F32 0x4A 0x2C 1 2),
    (0xDE52C026, 0x0, .cvtN32F32 0x4A 0x2C 1 2), (0xDE52C046, 0x0, .cvtF32I32 0x4A 0x2C 1 2),
    (0xDE52C066, 0x0, .cvtF32N32 0x4A 0x2C 1 2), (0xDE52C086, 0x0, .cvtF16F32 0x4A 0x2C 1 2),
    (0xDE52C0A6, 0x0, .cvtBf16F32 0x4A 0x2C 1 2), (0xDE52C0C6, 0x0, .cvtF32F16 0x4A 0x2C 1 2),
    (0xDE52C0E6, 0x0, .cvtF32Bf16 0x4A 0x2C 1 2), (0xDE52C106, 0x0, .cvtE4m3F32Sat 0x4A 0x2C 1 2),
    (0xDE52C126, 0x0, .cvtE4m3F32 0x4A 0x2C 1 2), (0xDE52C146, 0x0, .cvtE5m2F32Sat 0x4A 0x2C 1 2),
    (0xDE52C166, 0x0, .cvtE5m2F32 0x4A 0x2C 1 2), (0xDE52C186, 0x0, .cvtF32E4m3 0x4A 0x2C 1 2),
    (0xDE52C1A6, 0x0, .cvtF32E5m2 0x4A 0x2C 1 2), (0xDE52C566, 0x0, .cvtPls 0x4A 0x2C 0xB 1 2),
    (0xDE52C766, 0x0, .cvtPln 0x4A 0x2C 0xB 1 2), (0xE252CAC4, 0x0, .twosum 0x4A 0x2C 0x56 1),
    (0xE652CAC4, 0x0, .ftwosum 0x4A 0x2C 0x56 1), (0xEA52CAC4, 0x0, .dwadd 0x4A 0x2C 0x56 1),
    (0xEE52C004, 0x0, .dwnorm 0x4A 0x2C 1), (0xF252CAC4, 0x0, .packF16 0x4A 0x2C 0x56 1),
    (0xF252CAC5, 0x0, .packBf16 0x4A 0x2C 0x56 1), (0xF252CAC6, 0x0, .packLo 0x4A 0x2C 0x56 1),
    (0xF252CAC7, 0x0, .packHi 0x4A 0x2C 0x56 1), (0xF652CAC6, 0x0, .scalb 0x4A 0x2C 0x56 1 2),
    (0xFA52C006, 0x0, .frnd 0x4A 0x2C 1 2), (0x8252CAC6, 0x0, .fma 0x4A 0x2C 0x56 1 2),
    (0x8652CAC6, 0x0, .fms 0x4A 0x2C 0x56 1 2), (0x8A52CAC6, 0x0, .fmul 0x4A 0x2C 0x56 1 2),
    (0x8E52CAC6, 0x0, .kMul 0x4A 0x2C 0x56 1 1), (0x9252CAC6, 0x0, .mulh 0x4A 0x2C 0x56 1 2),
    (0x9652CAC4, 0x0, .twoprod 0x4A 0x2C 0x56 1), (0x9A52CAC4, 0x0, .dwmul 0x4A 0x2C 0x56 1)].all reads = true := by decide +kernel

theorem test_decode_kernel_c : [
    (0x9E52CAC4, 0x0, .dwfma 0x4A 0x2C 0x56 1), (0xA252CAC6, 0x0, .mad16 0x4A 0x2C 0x56 1 2),
    (0xA652CAC6, 0x0, .madb16 0x4A 0x2C 0x56 1 2), (0xAA52CAC6, 0x0, .dot2 0x4A 0x2C 0x56 1 2),
    (0xAE52CAC6, 0x0, .dot4i8 0x4A 0x2C 0x56 1 2), (0x8252C006, 0x0, .rcp 0x4A 0x2C 1 2),
    (0x8652C006, 0x0, .rsq 0x4A 0x2C 1 2), (0x8A52C006, 0x0, .sqrt 0x4A 0x2C 1 2),
    (0x8E52CAC6, 0x0, .div 0x4A 0x2C 0x56 1 2), (0x9252C006, 0x0, .exp2 0x4A 0x2C 1 2),
    (0x9652C006, 0x0, .log2 0x4A 0x2C 1 2), (0x9A52C006, 0x0, .sigm 0x4A 0x2C 1 2),
    (0x9E52C006, 0x0, .tanh 0x4A 0x2C 1 2), (0xA252C006, 0x0, .rsqe 0x4A 0x2C 1 2),
    (0xA652C006, 0x0, .silu 0x4A 0x2C 1 2), (0x82558004, 0x0, .spop 0x4A 0xB 1),
    (0x87458004, 0x0, .spush 0x68 0xB 1), (0x8805D4A0, 0x0, .sskip 0xB 0x2A5),
    (0xA6558000, 0x0, .scountPos 0x4A 0xB), (0xA6559000, 0x0, .scountRem 0x4A 0xB),
    (0x8E52CAC4, 0x0, .comm 0x4A 0x2C 0x56 1), (0x8E52CAC5, 0x0, .commCl 0x4A 0x2C 0x56 1),
    (0x9252C744, 0x0, .commpRot 0x4A 0x2C 0x3A 1), (0x9252C745, 0x0, .commpBc 0x4A 0x2C 0x3A 1),
    (0x9252C746, 0x0, .commpBfly 0x4A 0x2C 0x3A 1), (0x9652C004, 0x0, .creduce 0x4A 0x2C 1),
    (0x9A52C124, 0x0, .ireduce 0x4A 0x2C 9 1), (0x9E558800, 0x0, .mbrLo 0x4A 0xB 1),
    (0x9E559800, 0x0, .mbrHi 0x4A 0xB 1), (0x9E55A800, 0x0, .mbrPair 0x4A 0xB 1),
    (0xA3458C20, 0x0, .mbwWord 0x68 0xB 0x61), (0xA3459C20, 0x0, .mbwPair 0x68 0xB 0x61),
    (0x82550B04, 0x0, .ardF32 0x4A 5 0x2C 1), (0x82552B04, 0x0, .ardI32 0x4A 5 0x2C 1)].all reads = true := by decide +kernel

theorem test_decode_kernel_d : [
    (0x82554B04, 0x0, .ardXaF32 0x4A 5 0x2C 1), (0x82556B04, 0x0, .ardXaI32 0x4A 5 0x2C 1),
    (0x82558B04, 0x0, .ardExp 0x4A 5 0x2C 1), (0x86550B04, 0x0, .ard2 0x4A 5 0x2C 1),
    (0x8655CB04, 0x0, .ard2Q 0x4A 5 2 0x2C 1), (0x8B450B04, 0x0, .awrI32 0x68 5 0x2C 1),
    (0x8B452B04, 0x0, .awrPair 0x68 5 0x2C 1), (0x8B454B04, 0x0, .awrExp 0x68 5 0x2C 1),
    (0x8F450B04, 0x0, .adep 0x68 5 0x2C 1), (0x90050000, 0x0, .azero 5), (0x90052000, 0x0, .azeroXa 5),
    (0x96550000, 0x0, .astat 0x4A 5), (0x96552000, 0x0, .astatClr 0x4A 5), (0x9B450B04, 0x0, .ascl 0x68 5 0x2C 1),
    (0x8002AC00, 0x0, .pset 5 0x2C), (0x8002AC01, 0x8765, .psetImm 5 0x2C 0x8765),
    (0x8002AC02, 0x8765, .psetHi 5 0x2C 0x8765), (0x8002AC03, 0x8765, .psetAdd 5 0x2C 0x8765),
    (0x870E28C0, 0x0, .mpost 0xC3 2 5 3), (0x825B5DB5, 0x0, .loop 2 0x5B5 0xDB5),
    (0x82805DB5, 0x0, .loopP 2 5 0xDB5), (0x8742ADB5, 0x0, .bra 1 5 0x2ADB5), (0x8802ADB5, 0x0, .kJmp 0x2ADB5),
    (0x8C000000, 0x0, .kend), (0x9000ADB5, 0x0, .ktrap 0xADB5), (0x94000DB5, 0x0, .idle 0xDB5),
    (0x9AD00000, 0x0, .mwaitk 5 5)].all reads = true := by decide +kernel

theorem test_decode_routine : [
    (0x4408000000000005, 0x0, .loopr 2 1 5),
    (0x4E00000000001FFF, 0x0, .brg 4 0x1FFF),
    (0x5000000000000003, 0x0, .jmpr 3),
    (0xA8900000DEADBEEF, 0x0, .setw (some 2) 9 0xDEADBEEF),
    (0x82C0000000000007, 0x0, .setw none 44 7),
    (0x01820002800A0000, 0x0, .movePair ⟨false, 0, 24, 8, 5⟩ ⟨false, 0, 0, 20, 0⟩),
    (0x2DAAC0000304FFFF, 0x0, .movePair ⟨true, 3, 26, 43, 0⟩ ⟨false, 0, 24, 9, 0x7FFF⟩)].all reads = true := by decide +kernel

/-- LDI64 takes the next two words as its literal; an immediate is extended by the header's byte (Tables 3.1, 3.4). -/
theorem test_decode_bundles :
    decodeBundle 0xFD000000 0x20A20000 0x89ABCDEF 0x01234567 = .inl [(1, .ldi64 5 0x0123456789ABCDEF)] ∧
    decodeBundle 0xFC12FF00 0x0CA03456 0x0CC5FFFF 0x04000000 =
      .inl [(1, .addi 5 0 ⟨0x3456, some 0x12⟩), (2, .addi 6 5 ⟨0xFFFF, some 0xFF⟩)] ∧
    decodeBundle 0x5C203000 nopWord nopWord nopWord = .inl [(0, .ldl 1 0 0 3 ⟨0, none⟩)] ∧
    decodeBundle 0xF4001014 nopWord nopWord nopWord = .inl [(0, .csrw 0 0x014)] ∧
    decodeBundle 0xEC010000 nopWord nopWord nopWord = .inl [(0, .jx 1)] := by decide +kernel

/-- Words that no row holds are refused: the zero word, an unassigned condition, a reserved bit, two writers of x5. -/
theorem test_decode_refuses :
    (decodeSlot 0 none).isNone = true ∧ (decodeSlot 0x24A6B806 none).isNone = true ∧
    (decodeSlot 0x08A6BC00 none).isNone = true ∧
    (decodeBundle 0x08A6B800 0x08A6B800 nopWord nopWord).isRight = true ∧
    (decodeRoutine (3 * 2 ^ 62)).isNone = true := by decide +kernel

/-! ### Well-formedness: a term that each check refuses -/

theorem test_wf_control : [
    .cmp 1 2 3 6, .cmpi 1 2 7 ⟨0, none⟩, .ld 1 1 7 ⟨0, none⟩, .ldAcq 1 1 7 ⟨0, none⟩, .ldx 1 1 7 2 0, .st 1 1 4 ⟨0, none⟩,
    .stRel 1 1 4 ⟨0, none⟩, .stx 1 1 4 2 0, .ldl 1 2 0 7 ⟨0, none⟩, .stl 1 2 0 4 ⟨0, none⟩, .xlate 1 1 3, .drain 5,
    .drainFlag 1 2 3 0 1 5, .semAdd 1 2 3 0 0, .semWait 1 2 3 0 0, .semRead 1 2 3 0 0, .semAcq 1 2 0 0, .semRel 2 0 0,
    .semPost 2 3 0 0, .mileWait 1 6, .mileArm 1 6, .mileRead 1 7, .sbind 1 2 0 5 0, .sstore 1 2 3 4 0, .waymark 1 2 5,
    .br 1 6 ⟨0, none⟩, .br 0 7 ⟨0, none⟩, .csrr 1 0x105, .csrw 1 0x008].all (fun i : Instr => !i.wf) = true := by
  decide +kernel

theorem test_wf_kernel : [
    .kCmp 6 1 2 3 0 0, .twosum 1 2 3 0, .ftwosum 1 2 3 0, .twoprod 1 2 3 0, .dwadd 2 3 4 0, .dwmul 2 4 5 0, .dwfma 1 2 4 0,
    .dwnorm 2 3 0, .creduce 2 3 0, .dot4i8 1 2 3 0 3, .ireduce 1 2 10 0, .ireduce 1 2 8 0, .mbrPair 1 0 0, .mbwPair 1 0 0,
    .ard2 1 0 2 0, .ard2Q 1 0 0 2 0, .awrPair 1 0 2 0, .loop 0 3 0, .loopP 0 3 0, .mwaitk 6 0].all
      (fun i : Instr => !i.wf) = true := by decide +kernel

theorem test_wf_routine : [
    .movePair ⟨false, 0, 27, 8, 0⟩ ⟨false, 0, 0, 8, 0⟩, .movePair ⟨false, 0, 0, 8, 0⟩ ⟨false, 0, 0, 24, 0⟩,
    .movePair ⟨false, 0, 0, 8, 1⟩ ⟨false, 0, 0, 8, 0⟩, .loopr 0 27 1, .loopr 0 1 0, .setw none 42 0].all
      (fun i : Instr => !i.wf) = true := by decide +kernel

theorem test_wf_accepts : [
    .cmp 1 2 3 5, .stl 1 2 0 3 ⟨0, none⟩, .waymark 1 2 7, .br 0 6 ⟨0, none⟩, .ireduce 2 2 9 0, .ireduce 1 2 7 0, .mwaitk 5 0,
    .movePair ⟨false, 0, 24, 8, 1⟩ ⟨false, 0, 45, 46, 0⟩].all Instr.wf = true := by decide +kernel

end Sys2Proof.Tests
end

