-- ==== Sys2Proof/Proofs/ContextFrame.lean ====
section

/-!
# A control instruction and the other contexts (O44)

Nothing in a state ties a held kernel to the context that holds it: `Kernel.cx` may name another one. TASK.RETIRE ends
every kernel that its own context holds, and the end of a kernel closes the KRUN of `Kernel.cx`.
-/

namespace Sys2Proof.Machine

open Sys2Proof

/-- A KRUN numbered 1, as context 1 posted it. -/
def postedKrun : Cmd :=
  { queue := .krn, num := 1, kind := .krun 0 [], recOff := none, reads := [], writes := [], board := false, ord := 0 }

/-- Context 0 runs and holds a kernel whose `cx` names context 1, where the kernel's KRUN is posted and active. -/
def heldForAnother : State :=
  { ctxs := [(0, { status := .running, heldK := [{ cx := 1, num := 1, image := 0 }] }),
             (1, { posted := [postedKrun], active := [{ cmd := postedKrun, ord := 0 }] })] }

/-- TASK.RETIRE of context 0 closes the KRUN that context 1 posted. -/
theorem posted_after_taskRetire :
    ((runSlot 0 slotTaskRetire heldForAnother).ctx 1).posted = [] := by
  decide +kernel

/-- Refutes O44: TASK.RETIRE by context 0, which holds a kernel run for context 1, removes context 1's posted KRUN. -/
theorem not_contextFrame : ¬ Obligations.ContextFrame := by
  intro h
  obtain ⟨-, -, -, -, -, -, -, -, -, hposted⟩ := h heldForAnother _ .taskRetire 1 rfl (by decide) rfl
  exact absurd (posted_after_taskRetire.symm.trans hposted) (by decide)

end Sys2Proof.Machine

end

