-- ==== Sys2Proof/Proofs/CanonicalMemory.lean ====
section
/-! # Memory in canonical form, and the operations of the state that keep it -/

namespace Sys2Proof.Machine
open Sys2Proof

/-! ### The canonical form of memory as one fact -/

/-- Device memory, its poison marks, host memory and its marks in their canonical form. -/
def MapsCanonical (mem : SMap Byte) (pois : SMap Bool) (hostMem : SMap Byte) (hpois : SMap Bool) : Prop :=
  smWf 0 mem ∧ smWf false pois ∧ smWf 0 hostMem ∧ smWf false hpois

/-- `Memory.wf` as one fact, which simp carries through updates without taking it apart. -/
def State.Canonical (s : State) : Prop := MapsCanonical s.mem s.pois s.hostMem s.hpois

theorem canonical_iff_wf (s : State) : s.Canonical ↔ Memory.wf s :=
  ⟨fun ⟨hmem, hpois, hhost, hhpois⟩ => ⟨hmem, hhost, hpois, hhpois⟩,
    fun ⟨hmem, hhost, hpois, hhpois⟩ => ⟨hmem, hpois, hhost, hhpois⟩⟩

@[simp] theorem mapsCanonical_fields (s : State) :
    MapsCanonical s.mem s.pois s.hostMem s.hpois ↔ s.Canonical := Iff.rfl

/-- A state written out field by field: its four maps alone matter. -/
@[simp] theorem canonical_mk (ctxs : SMap Ctx) (cores : SMap CoreSt) (dies : SMap DieSt) (hub : Hub)
    (mem : List Host.Cell) (pois : SMap Bool) (locks : List Nat) (hostMem : List Host.Cell) (hpois : SMap Bool)
    (filters : List Filter) (reqs : List Req) (nextReq : Nat) (faults : List FaultEntry) (nextFlt : Nat)
    (agenda : List Turn) (focus free : Nat) :
    State.Canonical ⟨ctxs, cores, dies, hub, mem, pois, locks, hostMem, hpois, filters, reqs, nextReq, faults, nextFlt,
      agenda, focus, free⟩ ↔ MapsCanonical mem pois hostMem hpois := Iff.rfl

@[simp] theorem canonical_ite (c : Prop) [Decidable c] (s t : State) :
    (if c then s else t).Canonical ↔ (c → s.Canonical) ∧ (¬c → t.Canonical) := by
  split <;> simp [*]

/-- A meaning that goes on, to a state whose memory is in canonical form. -/
def GoesOn (o : Res) : Prop := ∃ t, o = .next t ∧ t.Canonical

@[simp] theorem goesOn_next (t : State) : GoesOn (.next t) ↔ t.Canonical := by simp [GoesOn]

variable {s : State}

@[simp] theorem setCtx_canonical (cx : Nat) (c : Ctx) : (s.setCtx cx c).Canonical ↔ s.Canonical := Iff.rfl
@[simp] theorem modCtx_canonical (cx : Nat) (f : Ctx → Ctx) : (s.modCtx cx f).Canonical ↔ s.Canonical := Iff.rfl
@[simp] theorem setCore_canonical (g : Nat) (c : CoreSt) : (s.setCore g c).Canonical ↔ s.Canonical := Iff.rfl
@[simp] theorem modCore_canonical (g : Nat) (f : CoreSt → CoreSt) : (s.modCore g f).Canonical ↔ s.Canonical := Iff.rfl
@[simp] theorem setDie_canonical (d : Nat) (c : DieSt) : (s.setDie d c).Canonical ↔ s.Canonical := Iff.rfl
@[simp] theorem modDie_canonical (d : Nat) (f : DieSt → DieSt) : (s.modDie d f).Canonical ↔ s.Canonical := Iff.rfl
@[simp] theorem modHub_canonical (f : Hub → Hub) : (s.modHub f).Canonical ↔ s.Canonical := Iff.rfl

section
variable (hs : s.Canonical)
include hs

@[simp] theorem wrMem_canonical (host : Bool) (a : Nat) (bs : List Byte) : (s.wrMem host a bs).Canonical :=
  (canonical_iff_wf _).2 (wrMem_wf s host a bs ((canonical_iff_wf s).1 hs))
@[simp] theorem mark_canonical (host : Bool) (a : Nat) (b : Bool) : (s.mark host a b).Canonical :=
  (canonical_iff_wf _).2 (mark_wf s host a b ((canonical_iff_wf s).1 hs))

/-- Steps over a list keep the canonical form when each of them does. -/
theorem foldl_canonical {α : Type} {f : State → α → State} {l : List α}
    (hf : ∀ t a, t.Canonical → (f t a).Canonical) : (l.foldl f s).Canonical :=
  List.foldlRecOn l f hs fun t ht a _ => hf t a ht

/-- The same where only the steps over the list's own members are known to keep it. -/
theorem foldl_canonical_of_mem {α : Type} {f : State → α → State} {l : List α}
    (hf : ∀ t, ∀ a ∈ l, t.Canonical → (f t a).Canonical) : (l.foldl f s).Canonical :=
  List.foldlRecOn l f hs fun t ht a ha => hf t a ha ht

end

section
variable (hs : s.Canonical)
include hs

/-! ### Requests, faults, blocks and traps -/

@[simp] theorem wrX_canonical (cx : Nat) (r : BitVec 5) (v : Word) (p : Bool) : (s.wrX cx r v p).Canonical := by
  simp [State.wrX, hs]
@[simp] theorem modReq_canonical (id : Nat) (f : Req → Req) : (s.modReq id f).Canonical := by
  simp [State.modReq, hs]
@[simp] theorem dropReq_canonical (id : Nat) : (s.dropReq id).Canonical := by
  simp [State.dropReq, hs]
@[simp] theorem addReq_canonical (r : Req) : (s.addReq r).Canonical := by
  simp [State.addReq, hs]

@[simp] theorem addFault_canonical (cx : Option Nat) (e : FaultEntry) : (s.addFault cx e).Canonical := by
  unfold State.addFault
  split <;> simp [hs]

@[simp] theorem report_canonical (cx : Option Nat) (die : Nat) (va : Word) (kind sub engine aux : Nat) :
    (s.report cx die va kind sub engine aux).Canonical := by
  simp [State.report, hs]

@[simp] theorem block_canonical (cx : Nat) (why : Block) : (s.block cx why).Canonical := by
  simp [State.block, hs]
@[simp] theorem stopTask_canonical (cx cause : Nat) : (s.stopTask cx cause).Canonical := by
  simp [State.stopTask, hs]
@[simp] theorem deliver_canonical (cx cause : Nat) : (s.deliver cx cause).Canonical := by
  simp [State.deliver, hs]

@[simp] theorem trap_canonical (cx slot cause sub aux : Nat) (va : Word) :
    (s.trap cx slot cause sub aux va).Canonical := by
  simp [State.trap, hs]

end

end Sys2Proof.Machine

end

