-- ==== Sys2Proof/Proofs/CanonicalPlaces.lean ====
section
/-! # Canonical memory: bundles, places, translations, handles -/

namespace Sys2Proof.Machine
open Sys2Proof

variable {s : State}

/-! ### Bundles (R73, R107) -/

/-- Every effect that a slot's outcome may have keeps memory canonical. -/
def SlotOut.Keeps : SlotOut → Prop
  | .go f | .flow f _ | .enqueue _ f => ∀ t, t.Canonical → (f t).Canonical
  | _ => True

@[simp] theorem keeps_go (f : State → State) :
    (SlotOut.go f).Keeps ↔ ∀ t, t.Canonical → (f t).Canonical := Iff.rfl
@[simp] theorem keeps_flow (f : State → State) (pc : Word) :
    (SlotOut.flow f pc).Keeps ↔ ∀ t, t.Canonical → (f t).Canonical := Iff.rfl
@[simp] theorem keeps_enqueue (w : Block) (f : State → State) :
    (SlotOut.enqueue w f).Keeps ↔ ∀ t, t.Canonical → (f t).Canonical := Iff.rfl
@[simp] theorem keeps_after (c a : Nat) : (SlotOut.after c a).Keeps := trivial
@[simp] theorem keeps_block (w : Block) : (SlotOut.block w).Keeps := trivial
@[simp] theorem keeps_wait : SlotOut.wait.Keeps := trivial
@[simp] theorem keeps_trap (c b a : Nat) (v : Word) : (SlotOut.trap c b a v).Keeps := trivial

@[simp] theorem keeps_ite (c : Prop) [Decidable c] (o p : SlotOut) :
    (if c then o else p).Keeps ↔ (c → o.Keeps) ∧ (¬c → p.Keeps) := by
  split <;> simp [*]

/-- A slot keeps memory canonical when each of its outcomes does. -/
def Slot.Keeps (i : Slot) : Prop := ∀ cx s, (i.eval cx s).Keeps

variable {ops : List (Nat × Slot)}

/-- The outcome at which a bundle stops is one of its slots'. -/
theorem firstStop_keeps (hops : ∀ p ∈ ops, p.2.Keeps) {cx k : Nat} {o : SlotOut}
    (ho : firstStop cx s ops = some (k, o)) : o.Keeps := by
  induction ops with
  | nil => simp [firstStop] at ho
  | cons p ops ih =>
    have hp := hops p (by simp) cx s
    have ih := ih fun q hq => hops q (by simp [hq])
    unfold firstStop at ho
    split at ho
    case h_5 => exact ih ho
    all_goals
      obtain ⟨-, rfl⟩ := Prod.mk.inj (Option.some.inj ho)
      simp_all

theorem performSlots_canonical (hops : ∀ p ∈ ops, p.2.Keeps) (cx : Nat) {t : State} (ht : t.Canonical) :
    (performSlots cx s ops t).Canonical := by
  induction ops generalizing t with
  | nil => exact ht
  | cons p ops ih =>
    have hp := hops p (by simp) cx s
    refine ih (fun q hq => hops q (by simp [hq])) ?_
    split <;> simp_all

theorem runBundle_canonical (hops : ∀ p ∈ ops, p.2.Keeps) (cx : Nat) (hs : s.Canonical) :
    (runBundle cx ops s).Canonical := by
  have ht := performSlots_canonical (s := s) hops cx hs
  unfold runBundle
  split
  · exact hs
  · split
    case h_2 heq => exact block_canonical (firstStop_keeps hops heq s hs) cx _
    case h_5 => split <;> simp [ht]
    all_goals simp [hs]

theorem runSlot_canonical {i : Slot} (hi : i.Keeps) (k : Nat) (hs : s.Canonical) : (runSlot k i s).Canonical :=
  runBundle_canonical (by simpa using hi) s.focus hs

section
variable (hs : s.Canonical)
include hs

/-! ### Accesses at a place and translations -/

@[simp] theorem takeFree_canonical : s.takeFree.2.Canonical := by simp [State.takeFree, hs]
@[simp] theorem wake_canonical (die : Nat) : (s.wake die).Canonical := by
  simp [State.wake, hs]
@[simp] theorem retire_canonical (die : Nat) (r : Nat × Nat × Nat) : (s.retire die r).Canonical := by
  simp [State.retire, hs]

@[simp] theorem corrected_canonical (die a : Nat) : (s.corrected die a).Canonical := by
  unfold State.corrected
  dsimp only
  split <;> simp [hs]

@[simp] theorem checked_canonical (die a : Nat) (ecc : Ecc) : (s.checked die a ecc).Canonical := by
  unfold State.checked
  split <;> simp [hs]

/-- The bytes of one state with the poison marks of device memory of another. -/
@[simp] theorem mapsCanonical_pois {t : State} (ht : t.Canonical) :
    MapsCanonical s.mem t.pois s.hostMem s.hpois :=
  ⟨hs.1, ht.2.1, hs.2.2⟩

@[simp] theorem eccLine_canonical (a : Nat) : (s.eccLine a).Canonical := by
  simp [State.eccLine, State.takeFree, hs]
@[simp] theorem heard_canonical {t : State} (ht : t.Canonical) : (s.heard t).Canonical := by
  simp [State.heard, hs, ht]
@[simp] theorem rouse_canonical (host : Bool) (a : Nat) : (s.rouse host a).Canonical := by
  simp [State.rouse, hs]
@[simp] theorem wrPlace_canonical (host : Bool) (a : Nat) (bs : List Byte) : (s.wrPlace host a bs).Canonical := by
  simp [State.wrPlace, hs]

@[simp] theorem rdPlace_canonical (host : Bool) (a n : Nat) : (s.rdPlace host a n).2.Canonical := by
  unfold State.rdPlace
  split
  · exact hs
  · exact foldl_canonical hs fun t l ht => eccLine_canonical ht _

@[simp] theorem cachePage_canonical (g : Nat) (p : Tlb) : (s.cachePage g p).Canonical := by
  simp [State.cachePage, hs]

@[simp] theorem settle_canonical (g part : Nat) (pasid : BitVec 20) (va : Word) (r w : Bool)
    (ats : Option (Nat × BitVec 2 × Bool × Bool)) : (s.settle g part pasid va r w ats).2.Canonical := by
  unfold State.settle
  dsimp only
  split
  · exact hs
  · split
    · simp [hs]
    · have ht := fun l : List Nat => foldl_canonical hs (l := l) fun t a ht => eccLine_canonical ht a
      (repeat' split) <;> simp [ht, hs]

@[simp] theorem translate_canonical (g part : Nat) (pasid : BitVec 20) (va : Word) (r w : Bool) :
    (s.translate g part pasid va r w).2.Canonical := by
  unfold State.translate
  (repeat' split) <;> simp [hs]

@[simp] theorem xlateFor_canonical (cx : Nat) (va : Word) (r w : Bool) : (s.xlateFor cx va r w).2.Canonical := by
  simp [State.xlateFor, hs]

/-- The state that a translation leaves, by the equation that names it. -/
theorem xlateFor_eq_canonical {cx : Nat} {va : Word} {r w : Bool} {o : Tr} {t : State}
    (h : s.xlateFor cx va r w = (o, t)) : t.Canonical := by
  have ht := xlateFor_canonical hs cx va r w
  rwa [h] at ht

@[simp] theorem post_canonical (cx : Nat) (q : Queue) (d : BitVec 5) (k : CmdKind) (recOff : Option Nat)
    (reads writes : List Range) (board : Bool) : (s.post cx q d k recOff reads writes board).Canonical := by
  simp [State.post, hs]

/-! ### Handles and drains -/

@[simp] theorem makeValid_canonical (cx n : Nat) (p : Tlb) : (s.makeValid cx n p).Canonical := by
  simp [State.makeValid, hs]
@[simp] theorem makeFaulted_canonical (cx n sub : Nat) : (s.makeFaulted cx n sub).Canonical := by
  simp [State.makeFaulted, hs]

@[simp] theorem resolveHandle_canonical (cx n : Nat) : (s.resolveHandle cx n).Canonical := by
  unfold State.resolveHandle
  dsimp only
  (repeat' split) <;> simp [hs]

@[simp] theorem execXlateResolve_goesOn (cx : Nat) (h : BitVec 4) : GoesOn (execXlateResolve cx h s) := by
  simp [execXlateResolve, hs]

@[simp] theorem execWalkComplete_goesOn (cx : Nat) (h : BitVec 4) (ats : Option AtsReply) :
    GoesOn (execWalkComplete cx h ats s) := by
  simp only [execWalkComplete, goesOn_next]
  grind [settle_canonical, makeFaulted_canonical, makeValid_canonical]

@[simp] theorem execDrainComplete_goesOn (cx : Nat) : GoesOn (execDrainComplete cx s) := by
  simp [execDrainComplete, hs]

/-! ### Requests at their places -/

@[simp] theorem performCp_canonical (r : Req) : (performCp s r).1.Canonical := by
  unfold performCp
  grind [wrMem_canonical, mark_canonical]

@[simp] theorem performSem_canonical (r : Req) : (s.performSem r).1.Canonical := by
  unfold State.performSem
  grind [takeFree_canonical, modCtx_canonical]

@[simp] theorem serveAway_canonical (r : Req) : (s.serveAway r).Canonical := by
  unfold State.serveAway
  grind [performSem_canonical, performCp_canonical, modReq_canonical]

@[simp] theorem deliverResult_canonical (r : Req) : (deliverResult s r).Canonical := by
  unfold deliverResult
  split <;> simp [hs]

@[simp] theorem deliverLoad_canonical (id : Nat) : (deliverLoad s id).Canonical := by
  unfold deliverLoad
  grind [deliverResult_canonical, serveAway_canonical]

@[simp] theorem execLoadResultDelivery_goesOn (req : Nat) : GoesOn (execLoadResultDelivery req s) := by
  simp [execLoadResultDelivery, hs]

@[simp] theorem flagDone_canonical (id : Nat) : (flagDone s id).Canonical := by
  unfold flagDone
  (repeat' split) <;> simp [hs]

@[simp] theorem execFlagStorePerform_goesOn (req : Nat) : GoesOn (execFlagStorePerform req s) := by
  simp [execFlagStorePerform, hs]

end

end Sys2Proof.Machine

end

