-- ==== Sys2Proof/Proofs/CanonicalSlots.lean ====
section
/-! # Canonical memory: the slots of the ALU, of loads and stores, of semaphores and engine commands -/

namespace Sys2Proof.Machine
open Sys2Proof

variable {s : State}

/-! ### Slots of the ALU, loads, stores and atomics -/

theorem alu1_keeps {f : Word → Word} {d a : BitVec 5} : (alu1 f d a).Keeps :=
  fun _ _ _ ht => wrX_canonical ht _ _ _ _
theorem alu2_keeps {f : Word → Word → Word} {d a b : BitVec 5} : (alu2 f d a b).Keeps :=
  fun _ _ _ ht => wrX_canonical ht _ _ _ _
theorem aluD_keeps {f : Word → Word → Word} {d a : BitVec 5} : (aluD f d a).Keeps :=
  fun _ _ _ ht => wrX_canonical ht _ _ _ _
theorem alu3_keeps {f : Word → Word → Word → Word} {d a b c : BitVec 5} : (alu3 f d a b c).Keeps :=
  fun _ _ _ ht => wrX_canonical ht _ _ _ _
@[simp] theorem slotNop_keeps : slotNop.Keeps := fun _ _ _ ht => ht
@[simp] theorem slotSel_keeps (d a b c : BitVec 5) : (slotSel d a b c).Keeps :=
  fun _ _ _ ht => wrX_canonical ht _ _ _ _
@[simp] theorem slotLdi_keeps (d : BitVec 5) (k : BitVec 2) (i : BitVec 16) : (slotLdi d k i).Keeps :=
  fun _ _ _ ht => wrX_canonical ht _ _ _ _
@[simp] theorem slotLdi64_keeps (d : BitVec 5) (v : Word) : (slotLdi64 d v).Keeps :=
  fun _ _ _ ht => wrX_canonical ht _ _ _ _

/-- A check of a handle that fails traps or blocks. -/
theorem handleCheck_keeps {cx : Nat} {h : BitVec 4} {off : Word} {n : Nat} {r w : Bool} {o : SlotOut}
    (ho : handleCheck s cx h off n r w = .inl o) : o.Keeps := by
  dsimp only [handleCheck] at ho
  (repeat' split at ho) <;> cases ho <;> trivial

/-- A check of a local access that fails traps. -/
theorem localCheck_keeps {cx : Nat} {a : BitVec 5} {srf : Bool} {n : Nat} {off : Word} {o : SlotOut}
    (ho : localCheck s cx a srf n off = .inl o) : o.Keeps := by
  dsimp only [localCheck] at ho
  (repeat' split at ho) <;> cases ho <;> trivial

theorem loadSlot_keeps {regs : List (BitVec 5)} {d : BitVec 5} {h : BitVec 4} {sz : BitVec 3} {acq : Bool}
    {bad : Nat → State → Bool} {off : Nat → State → Word} : (loadSlot regs d h sz acq bad off).Keeps := by
  intro cx s
  simp only [loadSlot]
  grind [handleCheck_keeps, keeps_trap, keeps_wait, keeps_go, addReq_canonical]

theorem storeSlot_keeps {regs : List (BitVec 5)} {d : BitVec 5} {h : BitVec 4} {sz : BitVec 3} {rel : Bool}
    {bad : Nat → State → Bool} {off : Nat → State → Word} : (storeSlot regs d h sz rel bad off).Keeps := by
  intro cx s
  simp only [storeSlot]
  grind [handleCheck_keeps, keeps_trap, keeps_wait, keeps_go, addReq_canonical]

theorem amoSlot_keeps {op : AmoOp} {d a b : BitVec 5} {h : BitVec 4} {w : BitVec 1} :
    (amoSlot op d a b h w).Keeps := by
  intro cx s
  simp only [amoSlot]
  grind [handleCheck_keeps, keeps_trap, keeps_wait, keeps_go, addReq_canonical]

@[simp] theorem slotLdl_keeps (d a : BitVec 5) (p : BitVec 1) (z : BitVec 3) (o : Imm 12) :
    (slotLdl d a p z o).Keeps := by
  intro cx s
  simp only [slotLdl]
  split
  case h_1 heq => exact localCheck_keeps heq
  case h_2 => simp +contextual

@[simp] theorem slotStl_keeps (d a : BitVec 5) (p : BitVec 1) (z : BitVec 3) (o : Imm 12) :
    (slotStl d a p z o).Keeps := by
  intro cx s
  simp only [slotStl]
  split
  case h_1 heq => exact localCheck_keeps heq
  case h_2 => simp

@[simp] theorem slotXlate_keeps (n : BitVec 4) (a : BitVec 5) (t : BitVec 2) : (slotXlate n a t).Keeps := by
  intro cx s
  simp [slotXlate]

@[simp] theorem slotHinv_keeps (n : BitVec 4) : (slotHinv n).Keeps := fun _ _ _ ht => ht
@[simp] theorem slotHinfo_keeps (d : BitVec 5) (n : BitVec 4) : (slotHinfo d n).Keeps :=
  fun _ _ _ ht => wrX_canonical ht _ _ _ _
@[simp] theorem slotDrain_keeps (z : BitVec 3) : (slotDrain z).Keeps := fun _ _ _ ht => ht

@[simp] theorem slotDrainFlag_keeps (d a b : BitVec 5) (w : BitVec 1) (h : BitVec 4) (z : BitVec 3) :
    (slotDrainFlag d a b w h z).Keeps := by
  intro cx s
  simp only [slotDrainFlag]
  grind [handleCheck_keeps, keeps_trap, keeps_block, keeps_go, post_canonical]

section
variable (hs : s.Canonical)
include hs

/-! ### Command queues, semaphores served and KRUNs closed -/

@[simp] theorem wrLocal_canonical (cx off : Nat) (bs : List Byte) : (s.wrLocal cx off bs).Canonical := by
  unfold State.wrLocal
  split <;> simp [hs]

@[simp] theorem finish_canonical (cx : Nat) (k : Cmd) (o : Done) : (s.finish cx k o).Canonical := by
  unfold State.finish
  split <;> simp [hs]

@[simp] theorem modActive_canonical (cx : Nat) (q : Queue) (num : Nat) (f : Active → Active) :
    (s.modActive cx q num f).Canonical := by
  simp [State.modActive, hs]

@[simp] theorem semServe_canonical (g i : Nat) : (s.semServe g i).Canonical := by
  unfold State.semServe
  grind [modCore_canonical]

@[simp] theorem semServeAll_canonical (g i : Nat) : (s.semServeAll g i).Canonical := by
  simp +contextual [State.semServeAll, foldl_canonical, hs]
@[simp] theorem semBump_canonical (g i : Nat) (v : Word32) : (s.semBump g i v).Canonical := by
  simp [State.semBump, hs]
@[simp] theorem semRelease_canonical (g i : Nat) : (s.semRelease g i).Canonical := by
  simp [State.semRelease, hs]
@[simp] theorem holdLines_canonical (cx : Nat) (k : Cmd) : (s.holdLines cx k).Canonical := by
  simp [State.holdLines, hs]
@[simp] theorem emptyLines_canonical (cx : Nat) (k : Cmd) : (s.emptyLines cx k).Canonical := by
  simp [State.emptyLines, hs]
@[simp] theorem fillWin_canonical (cx : Nat) (q : Queue) (num w : Nat) : (s.fillWin cx q num w).Canonical := by
  simp [State.fillWin, hs]
@[simp] theorem poisonWords_canonical (cx w : Nat) (kept : Word32) : (s.poisonWords cx w kept).Canonical := by
  simp [State.poisonWords, hs]
@[simp] theorem kflags_canonical (cx : Nat) (f : SMap Byte) : (s.kflags cx f).Canonical := by
  simp [State.kflags, hs]

@[simp] theorem closeKrun_canonical (cx num : Nat) : (s.closeKrun cx num).Canonical := by
  have hfill : ∀ (t : State) (l : List Nat), t.Canonical →
      (l.foldl (fun s w => (s.poisonWords cx w 0).fillWin cx .krn num w) t).Canonical :=
    fun t l ht => foldl_canonical ht fun t w ht => by simp [ht]
  unfold State.closeKrun
  grind [emptyLines_canonical, modActive_canonical, finish_canonical]

@[simp] theorem endKrun_canonical (cx num st sub aux : Nat) (va : Word) :
    (s.endKrun cx num st sub aux va).Canonical := by
  simp [State.endKrun, hs]

@[simp] theorem endKernel_canonical (k : Kernel) (st sub aux : Nat) (va : Word) :
    (s.endKernel k st sub aux va).Canonical := by
  unfold State.endKernel
  refine endKrun_canonical ?_ _ _ _ _ _ _
  exact (mapsCanonical_fields _).2 (foldl_canonical (by simp [hs]) fun t p ht => by simp [ht])

@[simp] theorem endHeld_canonical (k : Kernel) : (s.endHeld k).Canonical := by
  simp [State.endHeld, hs]
@[simp] theorem takeKrun_canonical (cx : Nat) (k : Cmd) : (s.takeKrun cx k).Canonical := by
  simp [State.takeKrun, hs]

end

/-! ### Semaphores, mailboxes, milestones and waymarks -/

@[simp] theorem semReq_canonical (hs : s.Canonical) (cx : Nat) (op : SemOp) (d : BitVec 5) (addr : Nat)
    (v : Word32) : (semReq s cx op d addr v).Canonical := by
  simp [semReq, hs]

@[simp] theorem execSemWaiterServed_goesOn (hs : s.Canonical) (core sem : Nat) :
    GoesOn (execSemWaiterServed core sem s) := by
  simp [execSemWaiterServed, hs]

/-- A semaphore that cannot be named traps. -/
theorem semTarget_keeps {cx : Nat} {a : BitVec 5} {i : BitVec 6} {g : BitVec 1} {o : SlotOut}
    (ho : semTarget s cx a i g = .inl o) : o.Keeps := by
  dsimp only [semTarget] at ho
  (repeat' split at ho) <;> cases ho <;> trivial

/-- A semaphore operation keeps memory canonical when its part at a file of this package does. -/
theorem semSlot_keeps {op : SemOp} {regs : List (BitVec 5)} {d a : BitVec 5} {i : BitVec 6} {g : BitVec 1}
    {v : Nat → State → Word32} {here : Nat → Nat → Nat → Word32 → State → SlotOut}
    (hhere : ∀ cx k j w s, (here cx k j w s).Keeps) : (semSlot op regs d a i g v here).Keeps := by
  intro cx s
  simp only [semSlot]
  grind [semTarget_keeps, keeps_trap, keeps_wait, keeps_go, semReq_canonical, modCtx_canonical]

theorem semTake_keeps (own : Bool) (d : BitVec 5) (cx k j : Nat) (v : Word32) (s : State) :
    (semTake own d cx k j v s).Keeps := by
  simp +contextual [semTake]

@[simp] theorem slotSemAdd_keeps (d a b : BitVec 5) (i : BitVec 6) (g : BitVec 1) : (slotSemAdd d a b i g).Keeps :=
  semSlot_keeps fun _ _ _ _ _ _ ht => by simp [ht]
@[simp] theorem slotSemWait_keeps (d a b : BitVec 5) (i : BitVec 6) (g : BitVec 1) : (slotSemWait d a b i g).Keeps :=
  semSlot_keeps (semTake_keeps false d)
@[simp] theorem slotSemAcq_keeps (d a : BitVec 5) (i : BitVec 6) (g : BitVec 1) : (slotSemAcq d a i g).Keeps :=
  semSlot_keeps (semTake_keeps true d)
@[simp] theorem slotSemRel_keeps (a : BitVec 5) (i : BitVec 6) (g : BitVec 1) : (slotSemRel a i g).Keeps :=
  semSlot_keeps fun _ _ _ _ _ => by simp +contextual
@[simp] theorem slotSemPost_keeps (a b : BitVec 5) (i : BitVec 6) (g : BitVec 1) : (slotSemPost a b i g).Keeps :=
  semSlot_keeps fun _ _ _ _ _ _ ht => by simp [ht]
@[simp] theorem slotSemRead_keeps (d a b : BitVec 5) (i : BitVec 6) (g : BitVec 1) : (slotSemRead d a b i g).Keeps :=
  semSlot_keeps fun _ _ _ _ _ _ ht => by simp [ht]

@[simp] theorem slotMbRd_keeps (d : BitVec 5) (m : BitVec 4) : (slotMbRd d m).Keeps := by
  intro cx s
  simp +contextual [slotMbRd]

@[simp] theorem slotMbWr_keeps (a : BitVec 5) (m : BitVec 4) : (slotMbWr a m).Keeps := by
  intro cx s
  simp +contextual [slotMbWr]

@[simp] theorem slotMbProbe_keeps (d a b : BitVec 5) (m : BitVec 4) : (slotMbProbe d a b m).Keeps := by
  intro cx s
  simp +contextual [slotMbProbe]

@[simp] theorem slotMileWait_keeps (a : BitVec 5) (q : BitVec 3) : (slotMileWait a q).Keeps := by
  intro cx s
  simp [slotMileWait]

@[simp] theorem slotMileRead_keeps (d : BitVec 5) (q : BitVec 3) : (slotMileRead d q).Keeps :=
  fun _ _ _ ht => wrX_canonical ht _ _ _ _

@[simp] theorem slotMileArm_keeps (a : BitVec 5) (q : BitVec 3) : (slotMileArm a q).Keeps := by
  intro cx s
  simp [slotMileArm]

@[simp] theorem slotMileDisarm_keeps : slotMileDisarm.Keeps := fun _ _ _ ht => ht

@[simp] theorem slotWaymark_keeps (d : BitVec 5) (i : BitVec 8) (z : BitVec 3) : (slotWaymark d i z).Keeps := by
  intro cx s
  simp only [slotWaymark]
  split <;> simp +contextual

/-! ### Engine commands as they are posted -/

/-- What a command's own checks leave: a stop that keeps memory canonical, or a posting that does. -/
def PostingKeeps : SlotOut ⊕ Posting → Prop
  | .inl o => o.Keeps
  | .inr p => ∀ t, t.Canonical → (p.left t).Canonical

@[simp] theorem postingKeeps_inl (o : SlotOut) : PostingKeeps (.inl o) ↔ o.Keeps := Iff.rfl
@[simp] theorem postingKeeps_inr (p : Posting) :
    PostingKeeps (.inr p) ↔ ∀ t, t.Canonical → (p.left t).Canonical := Iff.rfl

@[simp] theorem postingKeeps_ite (c : Prop) [Decidable c] (o p : SlotOut ⊕ Posting) :
    PostingKeeps (if c then o else p) ↔ (c → PostingKeeps o) ∧ (¬c → PostingKeeps p) := by
  split <;> simp [*]

@[simp] theorem boundsFault_keeps : boundsFault.Keeps := trivial
@[simp] theorem formatFault_keeps : formatFault.Keeps := trivial

theorem needStop_keeps {cx : Nat} {ns : List Need} {o : SlotOut} (ho : needStop s cx ns = some o) : o.Keeps := by
  unfold needStop at ho
  split at ho
  · cases ho
    trivial
  · obtain ⟨n, -, rfl⟩ := Option.map_eq_some_iff.1 ho
    trivial

/-- An engine command keeps memory canonical when its own checks do. -/
theorem engineSlot_keeps {d : BitVec 5} {regs : List (BitVec 5)} {rec_ : Option (BitVec 5)} {q : Queue}
    {needs : Nat → State → List Need} {mk : Nat → State → SlotOut ⊕ Posting}
    (hmk : ∀ cx s, PostingKeeps (mk cx s)) : (engineSlot d regs rec_ q needs mk).Keeps := by
  intro cx s
  have hmk := hmk cx s
  simp only [engineSlot]
  split
  · trivial
  · split
    case h_1 heq => exact needStop_keeps heq
    case h_2 =>
      split
      case h_1 heq => exact (heq ▸ hmk : PostingKeeps (.inl _))
      case h_2 p heq =>
        have hp : PostingKeeps (.inr p) := heq ▸ hmk
        split
        · trivial
        · split
          · trivial
          · exact fun t ht => post_canonical (hp t ht) _ _ _ _ _ _ _ _

/-- A descriptor that breaks its rules is a format or a bounds fault. -/
theorem readDesc_keeps {cx : Nat} {a : BitVec 5} {x : Xfer} {bases : Desc → List Word} {o : SlotOut}
    (ho : readDesc s cx a x bases = .inl o) : o.Keeps := by
  dsimp only [readDesc] at ho
  (repeat' split at ho) <;> cases ho <;> trivial

@[simp] theorem slotSbind_keeps (a b : BitVec 5) (z : BitVec 4) (r : BitVec 3) (m : BitVec 1) :
    (slotSbind a b z r m).Keeps := by
  intro cx s
  simp [slotSbind]

@[simp] theorem slotSload_keeps (d a b : BitVec 5) : (slotSload d a b).Keeps := by
  refine engineSlot_keeps fun cx s => ?_
  split
  case h_1 heq => exact readDesc_keeps heq
  case h_2 => simp

@[simp] theorem slotSgather_keeps (d a b c : BitVec 5) : (slotSgather d a b c).Keeps := by
  refine engineSlot_keeps fun cx s => ?_
  split
  case h_1 heq => exact readDesc_keeps heq
  case h_2 => simp

@[simp] theorem slotSstore_keeps (d a b c : BitVec 5) (n : BitVec 3) : (slotSstore d a b c n).Keeps := by
  refine engineSlot_keeps fun cx s => ?_
  split
  case h_1 heq => exact readDesc_keeps heq
  case h_2 => simp

theorem scatterSlot_keeps (op : Option RedOp) (d a b c : BitVec 5) : (scatterSlot op d a b c).Keeps := by
  refine engineSlot_keeps fun cx s => ?_
  split
  case h_1 heq => exact readDesc_keeps heq
  case h_2 => simp

@[simp] theorem slotSscatter_keeps (d a b c : BitVec 5) : (slotSscatter d a b c).Keeps :=
  scatterSlot_keeps _ d a b c
@[simp] theorem slotSscatterAddI32_keeps (d a b c : BitVec 5) : (slotSscatterAddI32 d a b c).Keeps :=
  scatterSlot_keeps _ d a b c
@[simp] theorem slotSscatterAddN32_keeps (d a b c : BitVec 5) : (slotSscatterAddN32 d a b c).Keeps :=
  scatterSlot_keeps _ d a b c
@[simp] theorem slotSscatterAddI64_keeps (d a b c : BitVec 5) : (slotSscatterAddI64 d a b c).Keeps :=
  scatterSlot_keeps _ d a b c
@[simp] theorem slotSscatterAddXa256_keeps (d a b c : BitVec 5) : (slotSscatterAddXa256 d a b c).Keeps :=
  scatterSlot_keeps _ d a b c
@[simp] theorem slotSscatterAddF32_keeps (d a b c : BitVec 5) : (slotSscatterAddF32 d a b c).Keeps :=
  scatterSlot_keeps _ d a b c

@[simp] theorem slotSpair_keeps (d a b c : BitVec 5) : (slotSpair d a b c).Keeps := by
  refine engineSlot_keeps fun cx s => ?_
  split
  case h_1 heq => exact readDesc_keeps heq
  case h_2 => simp

@[simp] theorem slotScopy_keeps (d a b : BitVec 5) : (slotScopy d a b).Keeps :=
  engineSlot_keeps fun cx s => by simp
@[simp] theorem waitWalk_keeps (cx : Nat) (va : Word) (w : Bool) : (waitWalk cx va w).Keeps := by
  simp +contextual [waitWalk]
@[simp] theorem waitPlace_keeps (va : Word) (host : Bool) (a : Nat) : (waitPlace va host a).Keeps := by
  simp +contextual [waitPlace]

@[simp] theorem parkRead_keeps (cx sub : Nat) (va : Word) (w : Bool) (who : Who) :
    (parkRead s cx sub va w who).Keeps := by
  simp +contextual [parkRead]

@[simp] theorem entryRead_canonical (hs : s.Canonical) (cx : Nat) (va : Word) : (s.entryRead cx va).Canonical := by
  unfold State.entryRead
  split <;> simp [xlateFor_eq_canonical hs ‹_›]

@[simp] theorem slotKrun_keeps (d a b : BitVec 5) : (slotKrun d a b).Keeps := by
  refine engineSlot_keeps fun cx s => ?_
  dsimp only
  split
  · trivial
  · split <;> simp +contextual

/-- The queued KRUNs of a context taken, and those not running cancelled. -/
@[simp] theorem slotKctlAbort_keeps : slotKctlAbort.Keeps := by
  intro cx s t ht
  refine (modCore_canonical _ _).2 (foldl_canonical (foldl_canonical ht fun u k hu => ?_) fun u a hu => ?_)
  · simp [hu]
  · simp [hu]

@[simp] theorem slotKctlPrefetch_keeps (d a : BitVec 5) : (slotKctlPrefetch d a).Keeps :=
  engineSlot_keeps fun cx s => by simp

@[simp] theorem slotMcall_keeps (d a b c : BitVec 5) (n : BitVec 2) : (slotMcall d a b c n).Keeps := by
  refine engineSlot_keeps fun cx s => ?_
  dsimp only
  split
  · trivial
  · split <;> simp

@[simp] theorem slotMrout_keeps (d a b : BitVec 5) : (slotMrout d a b).Keeps :=
  engineSlot_keeps fun cx s => by simp
theorem wsSlot_keeps (d : BitVec 5) (k : CmdKind) : (wsSlot d k).Keeps :=
  engineSlot_keeps fun cx s => by simp
@[simp] theorem slotWsctlLoad_keeps (d : BitVec 5) : (slotWsctlLoad d).Keeps := wsSlot_keeps d _
@[simp] theorem slotWsctlSeal_keeps (d : BitVec 5) : (slotWsctlSeal d).Keeps := wsSlot_keeps d _
@[simp] theorem slotWsctlQuery_keeps (d : BitVec 5) : (slotWsctlQuery d).Keeps :=
  fun _ _ _ ht => wrX_canonical ht _ _ _ _

theorem treeSlot_keeps {d : BitVec 5} {regs : List (BitVec 5)} {fn : Nat} {sl : BitVec 2} {a b c : BitVec 5}
    {ranges : Nat → Nat → Bool × List Range × List Range} : (treeSlot d regs fn sl a b c ranges).Keeps :=
  engineSlot_keeps fun cx s => by simp

@[simp] theorem slotTreeBind_keeps (d a b : BitVec 5) (z : BitVec 2) : (slotTreeBind d a b z).Keeps :=
  engineSlot_keeps fun cx s => by simp
@[simp] theorem slotTreeDesc_keeps (d a b c : BitVec 5) (z : BitVec 2) : (slotTreeDesc d a b c z).Keeps :=
  treeSlot_keeps
@[simp] theorem slotTreeExp_keeps (d a b c : BitVec 5) (z : BitVec 2) : (slotTreeExp d a b c z).Keeps :=
  treeSlot_keeps
@[simp] theorem slotTreeBack_keeps (d a b c : BitVec 5) (z : BitVec 2) : (slotTreeBack d a b c z).Keeps :=
  treeSlot_keeps
@[simp] theorem slotTreeReroot_keeps (d a b : BitVec 5) (z : BitVec 2) : (slotTreeReroot d a b z).Keeps :=
  treeSlot_keeps
@[simp] theorem slotTreeSweep_keeps (d b : BitVec 5) (z : BitVec 2) : (slotTreeSweep d b z).Keeps :=
  treeSlot_keeps
@[simp] theorem slotTreePath_keeps (d a b c : BitVec 5) (z : BitVec 2) : (slotTreePath d a b c z).Keeps :=
  treeSlot_keeps
@[simp] theorem slotTreeRead_keeps (d a b c : BitVec 5) (z : BitVec 2) : (slotTreeRead d a b c z).Keeps :=
  treeSlot_keeps
@[simp] theorem slotTreeFlush_keeps (d b : BitVec 5) (z : BitVec 2) : (slotTreeFlush d b z).Keeps :=
  treeSlot_keeps

/-- A chunk of GATHERL is a bounds fault or a plain posting. -/
@[simp] theorem gatherChunk_keeps (cx : Nat) (g : GatherSt) : PostingKeeps (gatherChunk s cx g) := by
  simp [gatherChunk]

theorem gatherChunk_stop_keeps {cx : Nat} {g : GatherSt} {o : SlotOut} (ho : gatherChunk s cx g = .inl o) :
    o.Keeps := by
  simpa [ho] using gatherChunk_keeps (s := s) cx g

@[simp] theorem slotGatherl_keeps (d a b c : BitVec 5) : (slotGatherl d a b c).Keeps := by
  intro cx s
  simp only [slotGatherl, gatherStep]
  grind [gatherChunk_stop_keeps, keeps_trap, keeps_block, keeps_go, keeps_flow, wrX_canonical, modCtx_canonical,
    post_canonical]

end Sys2Proof.Machine

end

