-- ==== Sys2Proof/Proofs/CanonicalKernels.lean ====
section
/-! # Canonical memory: the kernel array -/

namespace Sys2Proof.Machine
open Sys2Proof

variable {s : State}

/-! ### The kernel array -/

/-- An operation of a packet whose effect at once keeps memory canonical. -/
def KSlot.Keeps (o : KSlot) : Prop := ∀ e t, t.Canonical → ((o.eval e).act t).Canonical

section
variable (hs : s.Canonical)
include hs

@[simp] theorem setKern_canonical (g : Nat) (k : Option Kernel) : (s.setKern g k).Canonical := by
  simp [State.setKern, hs]
@[simp] theorem land_canonical (g : Nat) (k : Kernel) (cyc : Nat) : (s.land g k cyc).1.Canonical := by
  simp [State.land, hs]

@[simp] theorem ktrap_canonical (g : Nat) (k : Kernel) (cause sub code : Nat) (pc : Int) :
    (s.ktrap g k cause sub code pc).Canonical := by
  dsimp only [State.ktrap]
  split
  · exact endHeld_canonical (by simp [hs]) _
  · simp [hs]

/-- The effects of a packet's operations, in turn. -/
theorem foldl_act_canonical {e : KEnv} {os : List KSlot} (hos : ∀ o ∈ os, o.Keeps) :
    ((os.map fun o => o.eval e).foldl (fun t o => o.act t) s).Canonical := by
  rw [List.foldl_map]
  exact foldl_canonical_of_mem hs fun t o ho ht => hos o ho e t ht

theorem issue_canonical {g len idle : Nat} {soft : Bool} {ops : List KSlot ⊕ Nat}
    (hops : ∀ os, ops = .inl os → ∀ o ∈ os, o.Keeps) : (issue g len idle soft ops s).Canonical := by
  unfold issue
  split
  · exact hs
  · dsimp only
    split
    · exact hs
    · split
      case h_1 => exact ktrap_canonical hs _ _ _ _ _ _
      case h_2 os =>
        split
        · exact hs
        · split
          · exact ktrap_canonical hs _ _ _ _ _ _
          · split
            · exact ktrap_canonical (foldl_act_canonical (land_canonical hs _ _ _) (hops os rfl)) _ _ _ _ _ _
            · exact setKern_canonical (foldl_act_canonical (land_canonical hs _ _ _) (hops os rfl)) _ _

theorem runLane_canonical {o : KSlot} (ho : o.Keeps) : (runLane o s).Canonical :=
  issue_canonical hs (by simpa using ho)

@[simp] theorem kenv_letGo_canonical (e : KEnv) (b : Binding) (us : List Nat) : (e.letGo b us s).Canonical := by
  unfold KEnv.letGo
  split <;> simp [hs]

@[simp] theorem kenv_push_canonical (e : KEnv) (b : Binding) (us : List Nat) (ws : List (Nat × SrfWord)) :
    (e.push b us ws s).Canonical :=
  foldl_canonical ((modCore_canonical _ _).2 hs) fun t p ht => by simp [ht]

end

theorem mpostOp_keeps {r : BitVec 8} {n : BitVec 2} {d e : BitVec 5} : (mpostOp r n d e).Keeps :=
  fun _ _ ht => post_canonical ht _ _ _ _ _ _ _ _

theorem seqSlot_keeps (o : SeqOp) : (seqSlot o).Keeps := by
  cases o
  case mpost => exact mpostOp_keeps
  all_goals exact fun _ _ ht => ht

theorem opSpop_keeps {d : BitVec 7} {n : BitVec 4} {g : BitVec 3} : (opSpop d n g).Keeps := by
  intro e t ht
  simp only [opSpop]
  split <;> simp [ht]

theorem opSpush_keeps {v : BitVec 7} {n : BitVec 4} {g : BitVec 3} : (opSpush v n g).Keeps := by
  intro e t ht
  simp only [opSpush]
  split <;> simp [ht]

theorem opSskip_keeps {n : BitVec 4} {n2 : BitVec 10} : (opSskip n n2).Keeps := by
  intro e t ht
  simp only [opSskip]
  split
  · exact ht
  · dsimp only
    split <;> simp [ht]

theorem countOp_keeps {d : BitVec 7} {n : BitVec 4} {f : Binding → Nat → Nat} : (countOp d n f).Keeps := by
  intro e t ht
  simp only [countOp]
  split
  · exact ht
  · exact ht

theorem mbrOp_keeps {ds : List Nat} {m : BitVec 4} {keep : BitVec 1} {f : Word → List Word32} :
    (mbrOp ds m keep f).Keeps := by
  intro e t ht
  simp [mbrOp, ht]

theorem astatOp_keeps {d : BitVec 7} {k : BitVec 3} {clear : Bool} : (astatOp d k clear).Keeps := by
  intro e t ht
  simp [astatOp, ht]

/-- Of the lane operations the streams, the mailboxes and ASTAT alone act on the state at issue. -/
theorem laneSlot_keeps {i : Instr} {o : KSlot} (ho : laneSlot i = some o) : o.Keeps := by
  cases i <;> cases ho
  case spop => exact opSpop_keeps
  case spush => exact opSpush_keeps
  case sskip => exact opSskip_keeps
  case scountPos => exact countOp_keeps
  case scountRem => exact countOp_keeps
  case mbrLo => exact mbrOp_keeps
  case mbrHi => exact mbrOp_keeps
  case mbrPair => exact mbrOp_keeps
  case astat => exact astatOp_keeps
  case astatClr => exact astatOp_keeps
  all_goals exact fun _ _ ht => ht

theorem opSlot_keeps (o : KOp) : (opSlot o).Keeps := by
  cases o with
  | seq o => exact seqSlot_keeps o
  | lane i =>
    cases h : laneSlot i with
    | none =>
      intro e t ht
      simpa [opSlot, h] using ht
    | some o => simpa [opSlot, h] using laneSlot_keeps h

theorem packetOps_keeps {h : Nat} {ws : List Nat} {os : List KSlot} (hos : packetOps h ws = .inl os) :
    ∀ o ∈ os, o.Keeps := by
  unfold packetOps at hos
  split at hos
  · cases hos
  · cases hos
    intro o ho
    obtain ⟨p, -, rfl⟩ := List.mem_map.1 ho
    exact opSlot_keeps p.2

section
variable (hs : s.Canonical)
include hs

/-! ### How kernels run -/

@[simp] theorem fetchWords_canonical (g part : Nat) (pasid : BitVec 20) (image pkt : Word) (n : Nat) (va : Word) :
    (s.fetchWords g part pasid image pkt n va).1.Canonical := by
  induction n generalizing s va with
  | zero => exact hs
  | succ n ih =>
    have ht := translate_canonical hs g part pasid va true false
    unfold State.fetchWords
    grind [rdPlace_canonical, rouse_canonical, modCore_canonical]

/-- The state that a fetch leaves, by the equation that names it. -/
theorem fetchWords_eq_canonical {g part : Nat} {pasid : BitVec 20} {image pkt : Word} {n : Nat} {va : Word}
    {t : State} {r : Option (Word × Nat) × Bool} (h : s.fetchWords g part pasid image pkt n va = (t, r)) :
    t.Canonical := by
  have ht := fetchWords_canonical hs g part pasid image pkt n va
  rwa [h] at ht

@[simp] theorem dropKernel_canonical (g : Nat) (k : Kernel) (st sub : Nat) (va : Word) :
    (s.dropKernel g k st sub va).Canonical := by
  simp [State.dropKernel, hs]

@[simp] theorem execKernelCodeFetch_goesOn (core : Nat) : GoesOn (execKernelCodeFetch core s) := by
  simp only [execKernelCodeFetch, goesOn_next]
  grind [addFault_canonical, canonical_mk, mapsCanonical_fields, dropKernel_canonical, fetchWords_canonical,
    heard_canonical]

@[simp] theorem prefetchPackets_canonical (g part : Nat) (pasid : BitVec 20) (image : Word) (lim left f : Nat)
    (va : Word) : (s.prefetchPackets g part pasid image lim left f va).1.Canonical := by
  induction f generalizing s left va with
  | zero => exact hs
  | succ f ih =>
    unfold State.prefetchPackets
    split
    · exact hs
    · split
      case h_1 heq =>
        have ht := fetchWords_eq_canonical hs heq
        dsimp only
        split
        · exact hs
        · split
          case h_1 heq => exact ih (fetchWords_eq_canonical ht heq) _ _
          case h_2 => exact fetchWords_canonical ht ..
      case h_2 => exact fetchWords_canonical hs ..

@[simp] theorem issuePacket_canonical (g : Nat) : (issuePacket g s).Canonical := by
  unfold issuePacket
  split
  · exact hs
  · split
    · exact hs
    · split
      · exact issue_canonical hs (by simp)
      · split
        · exact hs
        · exact issue_canonical hs fun os => packetOps_keeps

@[simp] theorem execPacketIssue_goesOn (core : Nat) : GoesOn (execPacketIssue core s) := by
  simp [execPacketIssue, hs]

@[simp] theorem execIdleIssueCycle_goesOn (core : Nat) : GoesOn (execIdleIssueCycle core s) := by
  unfold execIdleIssueCycle
  split <;> simp [hs]

@[simp] theorem execResultLanding_goesOn (core : Nat) : GoesOn (execResultLanding core s) := by
  unfold execResultLanding
  split <;> simp [hs]

@[simp] theorem execKernelStart_goesOn (core : Nat) : GoesOn (execKernelStart core s) := by
  simp only [execKernelStart, goesOn_next]
  grind [emptyLines_canonical, modActive_canonical, setKern_canonical]

@[simp] theorem execKrunComplete_goesOn (core : Nat) : GoesOn (execKrunComplete core s) := by
  refine (goesOn_next _).2 (foldl_canonical ?_ fun t cx ht => foldl_canonical ht fun u a hu => ?_)
  · split
    · split <;> simp [hs]
    · exact hs
  · split <;> simp [hu]

@[simp] theorem execKernelAbortStop_goesOn (core : Nat) : GoesOn (execKernelAbortStop core s) := by
  unfold execKernelAbortStop
  split <;> simp [hs]

@[simp] theorem execKernelFreeze_goesOn (core : Nat) : GoesOn (execKernelFreeze core s) := by
  unfold execKernelFreeze
  split <;> simp [hs]

@[simp] theorem unwait_canonical (cx : Nat) : (s.unwait cx).Canonical := by
  unfold State.unwait
  split <;> simp [hs]

@[simp] theorem awake_canonical (cx : Nat) : (s.awake cx).Canonical := by
  simp [State.awake, hs]

@[simp] theorem execKernelTrapDelivery_goesOn (cx : Nat) : GoesOn (execKernelTrapDelivery cx s) := by
  simp only [execKernelTrapDelivery, goesOn_next]
  grind [awake_canonical, endHeld_canonical, modCtx_canonical, trap_canonical]

@[simp] theorem execKernelResume_goesOn (core : Nat) : GoesOn (execKernelResume core s) := by
  unfold execKernelResume
  (repeat' split) <;> simp [hs]

@[simp] theorem takeHeld_canonical (cx : Nat) : (s.takeHeld cx).Canonical := by
  simp [State.takeHeld, hs]

@[simp] theorem kabt_canonical (cx : Nat) : (s.kabt cx).Canonical := by
  unfold State.kabt
  split <;> simp [hs]

@[simp] theorem kres_canonical (cx : Nat) : (s.kres cx).Canonical := by
  unfold State.kres
  split <;> simp [hs]

@[simp] theorem execTstatKres_goesOn (cx : Nat) : GoesOn (execTstatKres cx s) := by
  simp [execTstatKres, hs]
@[simp] theorem execTstatKabt_goesOn (cx : Nat) : GoesOn (execTstatKabt cx s) := by
  simp [execTstatKabt, hs]
@[simp] theorem endAllHeld_canonical (cx : Nat) : (s.endAllHeld cx).Canonical :=
  foldl_canonical hs fun _ _ ht => kabt_canonical ht cx

end

end Sys2Proof.Machine

end

