-- ==== Sys2Proof/Proofs/CanonicalControl.lean ====
section
/-! # Canonical memory: flow of control, control registers, and the bundles of a context -/

namespace Sys2Proof.Machine
open Sys2Proof

variable {s : State}

section
variable (hs : s.Canonical)
include hs

/-! ### Flow of control and user-level interrupts -/

@[simp] theorem link_canonical (cx : Nat) (u : State) : (link cx u s).Canonical :=
  wrX_canonical hs _ _ _ _
@[simp] theorem uiDeliver_canonical (cx : Nat) : (s.uiDeliver cx).Canonical := by
  simp [State.uiDeliver, hs]
@[simp] theorem execUiDelivery_goesOn (cx : Nat) : GoesOn (execUiDelivery cx s) := by
  simp [execUiDelivery, hs]
@[simp] theorem uiDiscard_canonical (cx : Nat) : (s.uiDiscard cx).Canonical := by
  simp [State.uiDiscard, hs]
@[simp] theorem execUistatusPendingDiscard_goesOn (cx : Nat) : GoesOn (execUistatusPendingDiscard cx s) := by
  simp [execUistatusPendingDiscard, hs]

end

theorem jumpTo_keeps {target : Word} {f : State → State} (hf : ∀ t, t.Canonical → (f t).Canonical) :
    (jumpTo target f).Keeps := by
  unfold jumpTo
  split
  · trivial
  · exact hf

@[simp] theorem slotBr_keeps (a : BitVec 5) (c : BitVec 3) (i : Imm 18) : (slotBr a c i).Keeps := by
  intro cx s
  simp [slotBr]

@[simp] theorem slotJmp_keeps (i : BitVec 26) : (slotJmp i).Keeps := fun _ _ => jumpTo_keeps fun _ ht => ht
@[simp] theorem slotCall_keeps (i : BitVec 26) : (slotCall i).Keeps :=
  fun _ _ => jumpTo_keeps fun _ ht => link_canonical ht _ _

@[simp] theorem slotJx_keeps (a : BitVec 5) : (slotJx a).Keeps := by
  intro cx s
  simp [slotJx, jumpTo_keeps]

@[simp] theorem slotCallx_keeps (a : BitVec 5) : (slotCallx a).Keeps := by
  intro cx s
  simp +contextual [slotCallx, jumpTo_keeps]

@[simp] theorem slotRet_keeps : slotRet.Keeps := by
  intro cx s
  simp [slotRet, jumpTo_keeps]

@[simp] theorem slotTrap_keeps (i : BitVec 16) : (slotTrap i).Keeps := fun _ _ => trivial

@[simp] theorem slotBkpt_keeps : slotBkpt.Keeps := by
  intro cx s
  simp [slotBkpt]

@[simp] theorem slotFenceC_keeps : slotFenceC.Keeps := by
  intro cx s
  simp [slotFenceC]

@[simp] theorem slotWaiti_keeps : slotWaiti.Keeps := by
  intro cx s
  simp [slotWaiti]

@[simp] theorem slotUiret_keeps : slotUiret.Keeps := by
  intro cx s
  simp [slotUiret]

section
variable (hs : s.Canonical)
include hs

/-! ### Control registers, tokens and user queues -/

@[simp] theorem setAge_canonical (die : Nat) (v : Word) : (s.setAge die v).Canonical := by
  simp [State.setAge, hs]

@[simp] theorem clearRetreq_canonical (die : Nat) : (s.clearRetreq die).Canonical := by
  unfold State.clearRetreq
  grind [modDie_canonical, retire_canonical]

@[simp] theorem setTactive_canonical (cx : Nat) (b : Bool) : (s.setTactive cx b).Canonical := by
  simp [State.setTactive, hs]

@[simp] theorem crWrite_canonical (cx num : Nat) (v : Word) : (crWrite s cx num v).Canonical := by
  unfold crWrite
  split <;> simp [hs]

@[simp] theorem execRegisterWrite_goesOn (cx : Nat) (num : BitVec 12) (v : Word) :
    GoesOn (execRegisterWrite cx num v s) := by
  simp [execRegisterWrite, hs]

@[simp] theorem execLspillWrite_goesOn (cx : Nat) (v : Word) : GoesOn (execLspillWrite cx v s) := by
  simp [execLspillWrite, hs]
@[simp] theorem execAgeWrite_goesOn (die : Nat) (v : Word) : GoesOn (execAgeWrite die v s) := by
  simp [execAgeWrite, hs]
@[simp] theorem execTstatActiveClear_goesOn (cx : Nat) : GoesOn (execTstatActiveClear cx s) := by
  simp [execTstatActiveClear, hs]
@[simp] theorem execRetreqClear_goesOn (die : Nat) : GoesOn (execRetreqClear die s) := by
  simp [execRetreqClear, hs]

@[simp] theorem markToken_canonical (slot : Nat) (pasid : BitVec 20) (va pages : Nat) (auto : Bool) :
    (s.markToken slot pasid va pages auto).Canonical :=
  (modHub_canonical _).2 (foldl_canonical hs fun _ _ ht => ht)

@[simp] theorem confirmToken_canonical (slot : Nat) : (s.confirmToken slot).Canonical := by
  unfold State.confirmToken
  split
  · exact hs
  · exact (modHub_canonical _).2 (foldl_canonical hs fun _ _ ht => ht)

@[simp] theorem unmapSlot_canonical (slot : Nat) : (s.unmapSlot slot).Canonical := by
  unfold State.unmapSlot
  split <;> simp [hs]

@[simp] theorem queueError_canonical (num : Nat) : (s.queueError num).Canonical := by
  simp [State.queueError, hs]
@[simp] theorem forgetQueue_canonical (num : Nat) : (s.forgetQueue num).Canonical := by
  simp [State.forgetQueue, hs]

/-- Slots unmapped in turn. -/
@[simp] theorem foldl_unmapSlot_canonical (l : List Nat) : (l.foldl State.unmapSlot s).Canonical :=
  foldl_canonical hs fun _ n ht => unmapSlot_canonical ht n

@[simp] theorem mapQueue_canonical (part : Nat) (priv host : Bool) (a slot : Nat) :
    (s.mapQueue part priv host a slot).Canonical := by
  unfold State.mapQueue
  grind [unmapSlot_canonical, foldl_unmapSlot_canonical, rdPlace_canonical, report_canonical, forgetQueue_canonical,
    wrPlace_canonical, modHub_canonical]

end

@[simp] theorem slotCsrr_keeps (d : BitVec 5) (r : BitVec 12) : (slotCsrr d r).Keeps := by
  intro cx s
  simp only [slotCsrr]
  split <;> simp +contextual

@[simp] theorem slotCsrw_keeps (a : BitVec 5) (r : BitVec 12) : (slotCsrw a r).Keeps := by
  intro cx s
  simp +contextual [slotCsrw]

/-- A record that stands nowhere traps. -/
theorem recordStop_keeps {cx off n : Nat} {o : SlotOut} (ho : recordStop s cx off n = some o) : o.Keeps := by
  unfold recordStop at ho
  (repeat' split at ho) <;> cases ho <;> trivial

@[simp] theorem slotLaunch_keeps (d a : BitVec 5) : (slotLaunch d a).Keeps := by
  intro cx s
  simp only [slotLaunch]
  grind [recordStop_keeps, waitWalk_keeps, parkRead_keeps, keeps_trap, keeps_wait, keeps_block, keeps_go,
    xlateFor_canonical, addReq_canonical, modCtx_canonical, wrX_canonical]

@[simp] theorem slotTaskRetire_keeps : slotTaskRetire.Keeps := by
  intro cx s
  simp +contextual [slotTaskRetire]

@[simp] theorem slotTaskYield_keeps (d a b : BitVec 5) : (slotTaskYield d a b).Keeps := by
  intro cx s
  simp +contextual [slotTaskYield]

@[simp] theorem slotTaskPrio_keeps (d a b : BitVec 5) : (slotTaskPrio d a b).Keeps := by
  intro cx s
  simp [slotTaskPrio]

@[simp] theorem slotTaskSelf_keeps (d a b : BitVec 5) : (slotTaskSelf d a b).Keeps :=
  fun _ _ _ ht => wrX_canonical ht _ _ _ _

/-- A privileged form keeps memory canonical when the form does. -/
theorem privSlot_keeps {i : Slot} (hi : i.Keeps) : (privSlot i).Keeps := by
  intro cx s
  simpa [privSlot] using fun _ => hi cx s

theorem carePost_keeps {d a : BitVec 5} {n : Nat} {k : Word → CmdKind} : (carePost d a n k).Keeps :=
  privSlot_keeps (engineSlot_keeps fun _ _ => by simp)
@[simp] theorem slotScrub_keeps (d a : BitVec 5) : (slotScrub d a).Keeps := carePost_keeps
@[simp] theorem slotMigrate_keeps (d a : BitVec 5) : (slotMigrate d a).Keeps := carePost_keeps

@[simp] theorem slotXinvMark_keeps (d a b : BitVec 5) : (slotXinvMark d a b).Keeps := by
  refine privSlot_keeps fun cx s => ?_
  dsimp only
  grind [keeps_trap, keeps_block, keeps_go, markToken_canonical, wrX_canonical]

@[simp] theorem slotXinvConfirm_keeps (d a : BitVec 5) : (slotXinvConfirm d a).Keeps := by
  refine privSlot_keeps fun cx s => ?_
  dsimp only
  grind [keeps_trap, keeps_block, keeps_go, confirmToken_canonical, wrX_canonical]

@[simp] theorem slotQmap_keeps (a b : BitVec 5) : (slotQmap a b).Keeps := by
  refine privSlot_keeps fun cx s => ?_
  dsimp only
  grind [waitWalk_keeps, waitPlace_keeps, parkRead_keeps, keeps_trap, keeps_wait, keeps_go, unmapSlot_canonical,
    xlateFor_canonical, mapQueue_canonical]

/-! ### Every control instruction in its slot -/

theorem controlSlot_keeps {i : Instr} {sl : Slot} (h : controlSlot i = some sl) : sl.Keeps := by
  cases i <;> cases h
  case ld | ldx | ldAcq => exact loadSlot_keeps
  case st | stx | stRel => exact storeSlot_keeps
  case amoAdd | amoSwap | amoCas | amoMinI | amoMinN | amoMaxI | amoMaxN | amoAnd | amoOr | amoXor =>
    exact amoSlot_keeps
  case clz | popc | addi | andi | ori | xori | shli | shri | srai | roli | ldiKeep | cmpi | bfxIImm | bfxNImm =>
    exact alu1_keeps
  case add | sub | and_ | or_ | xor | andn | shl | shr | sra | rol | minI | minN | maxI | maxN | cmp | mul | mulhI |
      mulhN | divI | divN | remI | remN | bfxI | bfxN =>
    exact alu2_keeps
  case bfi | fshl | fshr => exact alu3_keeps
  case bfiImm => exact aluD_keeps
  all_goals simp

section
variable (hs : s.Canonical)
include hs

/-! ### How a context runs its bundles -/

@[simp] theorem fetch_canonical (cx : Nat) : (s.fetch cx).2.Canonical := by
  unfold State.fetch
  grind [modCore_canonical, rdPlace_canonical, rouse_canonical, xlateFor_canonical]

@[simp] theorem fetchFault_canonical (cx sub : Nat) : (s.fetchFault cx sub).Canonical := by
  simp [State.fetchFault, hs]

@[simp] theorem runWords_canonical (cx : Nat) (ws : List Nat) : (runWords cx ws s).Canonical := by
  unfold runWords
  split
  · simp [hs]
  · refine runBundle_canonical (fun p hp => ?_) cx hs
    obtain ⟨q, -, hq⟩ := List.mem_filterMap.1 hp
    obtain ⟨i, hi, rfl⟩ := Option.map_eq_some_iff.1 hq
    exact controlSlot_keeps hi

@[simp] theorem giveCp_canonical (g cx : Nat) : (s.giveCp g cx).Canonical := by
  simp [State.giveCp, hs]

/-- A choice that may be absent. -/
theorem elim_canonical {α : Type} {f : α → State} (hf : ∀ a, (f a).Canonical) (o : Option α) :
    (o.elim s f).Canonical := by
  cases o with
  | none => exact hs
  | some a => exact hf a

@[simp] theorem switchCp_canonical (g cx : Nat) : (s.switchCp g cx).Canonical :=
  giveCp_canonical (elim_canonical hs (fun _ => (modCtx_canonical _ _).2 hs) _) g cx

/-- The CP turned to the context that takes over, if one does. -/
theorem elim_switchCp_canonical (o : Option Nat) (g : Nat) : (o.elim s (s.switchCp g)).Canonical :=
  elim_canonical hs (switchCp_canonical hs g) o

@[simp] theorem bundleTurn_canonical (cx : Nat) : (bundleTurn cx s).Canonical := by
  obtain ⟨t, ht, htc⟩ := execKernelTrapDelivery_goesOn hs cx
  unfold bundleTurn
  grind [elim_switchCp_canonical, uiDeliver_canonical, trap_canonical, fetch_canonical, runWords_canonical,
    block_canonical, fetchFault_canonical]

@[simp] theorem execFetchPageFault_goesOn (cx : Nat) : GoesOn (execFetchPageFault cx s) := by
  simp only [execFetchPageFault, goesOn_next]
  grind [fetch_canonical, fetchFault_canonical]

@[simp] theorem execGatherlStep_goesOn (cx : Nat) : GoesOn (execGatherlStep cx s) := by
  simp only [execGatherlStep, goesOn_next]
  split <;> simp [hs]

@[simp] theorem execBlockedBundleReexecute_goesOn (cx : Nat) : GoesOn (execBlockedBundleReexecute cx s) := by
  unfold execBlockedBundleReexecute
  split <;> simp [hs]

@[simp] theorem execContextSwitch_goesOn (core : Nat) : GoesOn (execContextSwitch core s) := by
  simp [execContextSwitch, hs, elim_switchCp_canonical]

end

end Sys2Proof.Machine

end

