-- ==== Sys2Proof/Proofs/CanonicalStreams.lean ====
section
/-! # Canonical memory: the stream engine -/

namespace Sys2Proof.Machine
open Sys2Proof

variable {s : State}

section
variable (hs : s.Canonical)
include hs

/-! ### Requests that arrive at the tree engine -/

@[simp] theorem putArena_canonical (die : Nat) (a : Arena) : (s.putArena die a).Canonical := by
  simp [State.putArena, hs]
@[simp] theorem removeArena_canonical (die : Nat) (a : Arena) : (s.removeArena die a).Canonical := by
  simp [State.removeArena, hs]
@[simp] theorem stageBind_canonical (r : Req) (num run line : Nat) : (s.stageBind r num run line).Canonical := by
  simp [State.stageBind, hs]

@[simp] theorem flagTaken_canonical (die : Nat) (r : Req) : (s.flagTaken die r).Canonical := by
  unfold State.flagTaken
  split <;> simp [hs]

@[simp] theorem treeArrive_canonical (r : Req) : (s.treeArrive r).Canonical := by
  unfold State.treeArrive
  grind [dropReq_canonical, flagTaken_canonical, putArena_canonical, stageBind_canonical]

/-! ### Commands of the stream engine -/

@[simp] theorem startCmd_canonical (cx : Nat) (a : Active) : (s.startCmd cx a).Canonical := by
  simp [State.startCmd, hs]

@[simp] theorem letGo_canonical (cx : Nat) (q : Queue) (num : Nat) : (s.letGo cx q num).Canonical := by
  unfold State.letGo
  split <;> simp_all

@[simp] theorem reach_canonical (cx : Nat) (a : Active) (va : Word) (w : Bool) : (s.reach cx a va w).2.Canonical := by
  unfold State.reach
  split <;> simp [hs]

@[simp] theorem failPair_canonical (cx : Nat) (a : Active) (run : Nat) (st sub : Nat) (va : Word) :
    (s.failPair cx a run st sub va).Canonical := by
  simp [State.failPair, hs]

@[simp] theorem issueLine_canonical (cx : Nat) (a : Active) (run line : Nat) (va : Word) (write : Bool) (host : Bool)
    (phys : Nat) (page : BitVec 2) : (s.issueLine cx a run line va write host phys page).Canonical := by
  unfold State.issueLine
  grind [addReq_canonical, failPair_canonical, letGo_canonical, modActive_canonical]

@[simp] theorem readSrf_canonical (cx : Nat) (a : Active) (k : Nat) : (s.readSrf cx a k).Canonical := by
  unfold State.readSrf
  grind [letGo_canonical, modActive_canonical]

@[simp] theorem stopCmd_canonical (cx : Nat) (a : Active) (st sub : Nat) : (s.stopCmd cx a st sub).Canonical :=
  letGo_canonical (modActive_canonical (takeFree_canonical hs) _ _ _ _) _ _ _

@[simp] theorem reachAll_canonical (cx : Nat) (a : Active) (vas : List Word) :
    (s.reachAll cx a vas).2.2.Canonical := by
  induction vas generalizing s with
  | nil => exact hs
  | cons va vas ih =>
    have ht := reach_canonical hs cx a va true
    unfold State.reachAll
    grind

@[simp] theorem grant_canonical (cx : Nat) (a : Active) (run line : Nat) (va : Word) (w : Bool) :
    (s.grant cx a run line va w).2.2.Canonical := by
  unfold State.grant
  grind [reach_canonical, reachAll_canonical]

/-- The state that a grant leaves, by the equation that names it. -/
theorem grant_eq_canonical {cx : Nat} {a : Active} {run line : Nat} {va v : Word} {w : Bool} {r : Tr} {t : State}
    (h : s.grant cx a run line va w = (r, v, t)) : t.Canonical := by
  have ht := grant_canonical hs cx a run line va w
  rwa [h] at ht

@[simp] theorem generate_canonical (cx : Nat) (q : Queue) : (s.generate cx q).Canonical := by
  unfold State.generate
  grind [grant_canonical, issueLine_canonical, modCore_canonical, readSrf_canonical, startCmd_canonical,
    stopCmd_canonical]

@[simp] theorem execRequestGeneration_goesOn (cx : Nat) (q : Queue) : GoesOn (execRequestGeneration cx q s) := by
  simp [execRequestGeneration, hs]

@[simp] theorem skipDest_canonical (cx : Nat) (a : Active) (d : Desc) (run : Nat) (va : Word) (sub : Nat) :
    (s.skipDest cx a d run va sub).Canonical := by
  unfold State.skipDest
  refine letGo_canonical (modActive_canonical ?_ ..) ..
  simp [hs]

@[simp] theorem execEngineTranslationFault_goesOn (cx : Nat) (q : Queue) :
    GoesOn (execEngineTranslationFault cx q s) := by
  simp only [execEngineTranslationFault, goesOn_next]
  split
  · exact hs
  · split
    · exact hs
    · split
      · split
        case h_1 heq =>
          have ht := grant_eq_canonical hs heq
          refine elim_canonical ?_ (fun d => skipDest_canonical ht ..) _
          split
          · exact hs
          · exact modActive_canonical (addFault_canonical ht _ _) _ _ _ _
        case h_2 => exact hs
      · exact hs

@[simp] theorem execQueueResume_goesOn (cx : Nat) (q : Queue) : GoesOn (execQueueResume cx q s) := by
  simp only [execQueueResume, goesOn_next]
  grind [canonical_mk, mapsCanonical_fields, failPair_canonical, modActive_canonical]

@[simp] theorem putWords_canonical (cx w : Nat) (ks : List (Option SrfWord)) (mask : Word32) :
    (s.putWords cx w ks mask).Canonical := by
  simp [State.putWords, hs]

@[simp] theorem putLine_canonical (cx : Nat) (q : Queue) (num w : Nat) (v : LineVal) (mask : Word32) :
    (s.putLine cx q num w v mask).Canonical := by
  unfold State.putLine
  grind [fillWin_canonical, modActive_canonical, putWords_canonical]

@[simp] theorem putPart_canonical (cx : Nat) (q : Queue) (num w : Nat) (ks : List (Option SrfWord)) (mask : Word32) :
    (s.putPart cx q num w ks mask).Canonical := by
  simp [State.putPart, hs]

@[simp] theorem pump_canonical (cx : Nat) (q : Queue) (num : Nat) : (s.pump cx q num).Canonical := by
  unfold State.pump
  split
  · exact hs
  · split
    · exact hs
    · refine modActive_canonical (foldl_canonical hs fun t l ht => ?_) _ _ _ _
      dsimp only
      (repeat' split) <;> simp [ht]

/-- Marks drawn for the bytes of a line that was lost. -/
theorem foldl_takeFree_canonical {f : List Byte × State → Nat → List Byte × State}
    (hf : ∀ p l, (f p l).2 = p.2.takeFree.2) (bs : List Byte) (l : List Nat) : (l.foldl f (bs, s)).2.Canonical :=
  List.foldlRecOn (motive := fun p => p.2.Canonical) l f hs fun p hp a _ => hf p a ▸ takeFree_canonical hp

@[simp] theorem failFill_canonical (cx : Nat) (q : Queue) (num : Nat) : (s.failFill cx q num).Canonical := by
  unfold State.failFill
  split
  · exact hs
  case h_2 a _ =>
    generalize a.cmd.kind.target = target
    obtain ⟨base, len⟩ := target
    refine foldl_canonical hs fun t l ht => ?_
    dsimp only
    split
    · exact ht
    · split
      · exact modActive_canonical (putLine_canonical (foldl_takeFree_canonical ht (fun _ _ => rfl) _ _) ..) ..
      · (repeat' split) <;> simp [ht]

@[simp] theorem storeAt_canonical (host : Bool) (a : Nat) (bs : List (Nat × Byte)) :
    (s.storeAt host a bs).Canonical :=
  foldl_canonical hs fun _ _ ht => wrMem_canonical ht _ _ _

@[simp] theorem reduceElem_canonical (host : Bool) (a : Nat) (op : RedOp) (e : Nat × List Byte × Bool) :
    (s.reduceElem host a op e).1.Canonical := by
  unfold State.reduceElem
  split <;> simp [hs]

/-- The elements of a reduction added in turn. -/
theorem foldl_reduceElem_canonical {host : Bool} {a : Nat} {op : RedOp}
    {f : State × BitVec 16 → Nat × List Byte × Bool → State × BitVec 16} {g h : BitVec 16}
    {es : List (Nat × List Byte × Bool)} {t : State} (ht : es.foldl f (s, g) = (t, h))
    (hf : ∀ x e, (f x e).1 = (x.1.reduceElem host a op e).1) : t.Canonical := by
  have hx := List.foldlRecOn (motive := fun x => x.1.Canonical) es f (b := (s, g)) hs fun x hx e _ =>
    hf x e ▸ reduceElem_canonical hx host a op e
  rwa [ht] at hx

@[simp] theorem performReq_canonical (r : Req) : (s.performReq r).1.Canonical := by
  unfold State.performReq
  split
  case h_3 =>
    split
    case h_1 heq => exact modActive_canonical (foldl_reduceElem_canonical hs heq fun _ _ => rfl) ..
  all_goals grind [storeAt_canonical, mark_canonical, wrMem_canonical, performCp_canonical]

@[simp] theorem freeBytes_canonical (n : Nat) : (s.freeBytes n).2.Canonical := by
  induction n generalizing s with
  | zero => exact hs
  | succ n ih => exact ih (takeFree_canonical hs)

@[simp] theorem receive_canonical (r : Req) : (s.receive r).Canonical := by
  unfold State.receive
  grind [dropReq_canonical, modActive_canonical, pump_canonical]

@[simp] theorem lineWrite_canonical (id : Nat) : (lineWrite s id).Canonical := by
  unfold lineWrite
  grind [performReq_canonical, receive_canonical, treeArrive_canonical]

@[simp] theorem execLineWrite_goesOn (req : Nat) : GoesOn (execLineWrite req s) := by
  simp [execLineWrite, hs]

@[simp] theorem storeAck_canonical (id : Nat) : (storeAck s id).Canonical := by
  unfold storeAck
  (repeat' split) <;> simp [hs]

@[simp] theorem execStoreAcknowledge_goesOn (req : Nat) : GoesOn (execStoreAcknowledge req s) := by
  simp [execStoreAcknowledge, hs]

@[simp] theorem execReductionElement_goesOn (req : Nat) : GoesOn (execReductionElement req s) := by
  simp only [execReductionElement, goesOn_next]
  grind [modActive_canonical, modReq_canonical, reduceElem_canonical]

@[simp] theorem execPairLock_goesOn (cx : Nat) : GoesOn (execPairLock cx s) := by
  simp only [execPairLock, goesOn_next]
  split
  · exact hs
  · refine modActive_canonical ?_ _ _ _ _
    refine (mapsCanonical_fields _).2 (foldl_canonical hs fun t r ht => ?_)
    split <;> simp [ht]

@[simp] theorem unlockPair_canonical (cx : Nat) (a : Active) (rs : List Req) : (s.unlockPair cx a rs).Canonical := by
  simp [State.unlockPair, hs]
@[simp] theorem releasePair_canonical (n cx : Nat) : (s.releasePair n cx).Canonical :=
  foldl_canonical hs fun _ _ ht => unlockPair_canonical ht ..
@[simp] theorem execPairRelease_goesOn (cx : Nat) : GoesOn (execPairRelease cx s) := by
  simp [execPairRelease, hs]
@[simp] theorem admitGroups_canonical (p : Req → Bool) : (s.admitGroups p).Canonical := by
  simp [State.admitGroups, hs]
@[simp] theorem execBlockReadAdmit_goesOn (cx : Nat) (q : Queue) : GoesOn (execBlockReadAdmit cx q s) := by
  simp [execBlockReadAdmit, hs]
@[simp] theorem execWsBankRefresh_goesOn (die bank : Nat) : GoesOn (execWsBankRefresh die bank s) := by
  simp [execWsBankRefresh, hs]

@[simp] theorem wsServe_canonical (die : Nat) (r : Req) : (s.wsServe die r).Canonical := by
  unfold State.wsServe
  split <;> simp [hs]

@[simp] theorem wsBankTurn_canonical (die bank : Nat) : (s.wsBankTurn die bank).Canonical := by
  unfold State.wsBankTurn
  split
  · exact hs
  · exact foldl_canonical hs fun _ r ht => wsServe_canonical ht die r

@[simp] theorem execWsBankService_goesOn (die bank : Nat) : GoesOn (execWsBankService die bank s) := by
  simp [execWsBankService, hs]
@[simp] theorem endKind_canonical (die : Nat) (k : CmdKind) : (s.endKind die k).Canonical :=
  foldl_canonical hs fun _ _ ht => modActive_canonical ht ..

@[simp] theorem execWsEnterLoad_goesOn (die : Nat) : GoesOn (execWsEnterLoad die s) := by
  unfold execWsEnterLoad
  split <;> simp [hs]

@[simp] theorem execWsSealComplete_goesOn (die : Nat) : GoesOn (execWsSealComplete die s) := by
  unfold execWsSealComplete
  split <;> simp [hs]

@[simp] theorem acceptStream_canonical (cx : Nat) (k : Cmd) : (s.acceptStream cx k).Canonical := by
  unfold State.acceptStream
  (repeat' split) <;> simp [hs]

@[simp] theorem closeStream_canonical (cx : Nat) (q : Queue) (num : Nat) : (s.closeStream cx q num).Canonical := by
  unfold State.closeStream
  grind [failFill_canonical, finish_canonical, pump_canonical, report_canonical, startCmd_canonical]

end

end Sys2Proof.Machine

end

