-- ==== Sys2Proof/Proofs/CanonicalTree.lean ====
section
/-! # Canonical memory: the tree engine -/

namespace Sys2Proof.Machine
open Sys2Proof

variable {s : State}

/-! ### Units of the tree engine that may not be performed -/

/-- Why a unit is not performed: the state that its translation reached has memory in canonical form. -/
def TStop.Canonical : TStop → Prop
  | .held t | .miss t _ _ _ => t.Canonical
  | _ => True

@[simp] theorem stop_need_canonical (va : Word) : (TStop.need va).Canonical := trivial
@[simp] theorem stop_stop_canonical (a b c d : Nat) : (TStop.stop a b c d).Canonical := trivial
@[simp] theorem stop_held_canonical (t : State) : (TStop.held t).Canonical ↔ t.Canonical := Iff.rfl
@[simp] theorem stop_miss_canonical (t : State) (va : Word) (sub : Nat) (w : Bool) :
    (TStop.miss t va sub w).Canonical ↔ t.Canonical := Iff.rfl
@[simp] theorem badIndex_canonical : badIndex.Canonical := trivial

/-- What a unit gives has a property, or it stops with memory in canonical form. -/
def TKeeps {α : Type} (p : α → Prop) : TRes α → Prop
  | .ok a => p a
  | .error e => e.Canonical

section
variable {α β : Type} {p : α → Prop} {q : β → Prop} {r r' : TRes α}

@[simp] theorem tkeeps_ok (a : α) : TKeeps p (.ok a) ↔ p a := Iff.rfl
@[simp] theorem tkeeps_error (e : TStop) : TKeeps p (.error e) ↔ e.Canonical := Iff.rfl

theorem TKeeps.of_ok {a : α} (hr : TKeeps p r) (h : r = .ok a) : p a := by
  subst h
  exact hr

theorem TKeeps.of_error {e : TStop} (hr : TKeeps p r) (h : r = .error e) : e.Canonical := by
  subst h
  exact hr

theorem TKeeps.bind {f : α → TRes β} (hr : TKeeps p r) (hf : ∀ a, p a → TKeeps q (f a)) : TKeeps q (r >>= f) := by
  cases r with
  | ok a => exact hf a hr
  | error e => exact hr

@[simp] theorem tkeeps_ite (c : Prop) [Decidable c] :
    TKeeps p (if c then r else r') ↔ (c → TKeeps p r) ∧ (¬c → TKeeps p r') := by
  split <;> simp [*]

end

/-- Units that give no state, of which the stop alone matters. -/
abbrev TRes.Stops {α : Type} (r : TRes α) : Prop := TKeeps (fun _ => True) r

section
variable (hs : s.Canonical)
include hs

/-- The state that a translation leaves, by the equation that names it. -/
theorem translate_eq_canonical {g part : Nat} {pasid : BitVec 20} {va : Word} {r w : Bool} {o : Tr} {t : State}
    (h : s.translate g part pasid va r w = (o, t)) : t.Canonical := by
  have ht := translate_canonical hs g part pasid va r w
  rwa [h] at ht

theorem after_canonical {e : TStop} (he : e.Canonical) : (s.after e).Canonical := by
  cases e with
  | held t => exact heard_canonical hs he
  | miss t va sub w => exact heard_canonical hs he
  | need va => exact hs
  | stop a b c d => exact hs

theorem treePlace_keeps (a : Arena) (va : Word) (w : Bool) :
    TKeeps (fun r => r.2.Canonical) (treePlace s a va w) := by
  unfold treePlace
  split
  case h_1 heq => exact translate_eq_canonical hs heq
  case h_2 heq => exact translate_eq_canonical hs heq
  case h_3 heq =>
    split
    · trivial
    · exact translate_eq_canonical hs heq

@[simp] theorem treeReq_canonical (die cx : Nat) (a : Arena) (op : ReqOp) (va : Word) (phys : Nat) (z : BitVec 2) :
    (s.treeReq die cx a op va phys z).Canonical := by
  simp [State.treeReq, hs]

theorem treeSend_keeps (die : Nat) (a : Arena) (va : Word) (bs : List Byte) (cuts : List (Word × Nat)) :
    TKeeps State.Canonical (treeSend die a va bs cuts s) := by
  induction cuts generalizing s with
  | nil => exact hs
  | cons c cuts ih => exact (treePlace_keeps hs a c.1 true).bind fun r hr => ih (treeReq_canonical hr ..)

theorem treeWrite_keeps (die : Nat) (a : Arena) (va : Word) (ps : List (Nat × List Byte)) :
    TKeeps State.Canonical (treeWrite die a va ps s) := by
  induction ps generalizing s with
  | nil => exact hs
  | cons c ps ih => exact (treeSend_keeps hs die a _ _ _).bind fun t ht => ih ht

theorem treeFill_keeps (die : Nat) (a : Arena) (va : Word) : TKeeps State.Canonical (s.treeFill die a va) := by
  dsimp only [State.treeFill]
  split
  · exact hs
  · exact (treePlace_keeps hs a va false).bind fun r hr => treeReq_canonical hr ..

end

/-! ### What the units read -/

theorem node_stops (t : TSt) (n : Nat) : (t.node n).Stops := by
  unfold TSt.node
  (repeat' split) <;> trivial

theorem scoresFrom_stops (sq : Word32) (k c : Nat) (t : TSt) : (scoresFrom sq k c t).Stops := by
  induction k generalizing c with
  | zero => trivial
  | succ k ih => exact (node_stops t c).bind fun _ _ => (ih (c + 1)).bind fun _ _ => trivial

theorem selectChild_stops (x : Node) (t : TSt) : (selectChild x t).Stops := by
  unfold selectChild
  split
  · trivial
  · exact (scoresFrom_stops ..).bind fun _ _ => trivial

theorem meet_stops (t : TSt) (ns : List Nat) : (t.meet ns).Stops := by
  induction ns with
  | nil => trivial
  | cons n ns ih => exact (node_stops t n).bind fun _ _ => ih

theorem pathUp_stops (fuel n : Nat) (acc : List (BitVec 16)) (t : TSt) : (pathUp fuel n acc t).Stops := by
  induction fuel generalizing n acc with
  | zero => trivial
  | succ fuel ih =>
    unfold pathUp
    split
    · trivial
    · refine (node_stops t n).bind fun x _ => ?_
      split
      · trivial
      · split
        · trivial
        · exact ih _ _

theorem childrenOf_stops (ns : List Nat) (t : TSt) : (childrenOf ns t).Stops := by
  induction ns with
  | nil => trivial
  | cons n ns ih =>
    refine (node_stops t n).bind fun x _ => ?_
    split
    · trivial
    · exact ih.bind fun _ _ => trivial

theorem markLevels_stops (fuel : Nat) (front seen : List Nat) (t : TSt) : (markLevels fuel front seen t).Stops := by
  induction fuel generalizing front seen with
  | zero => trivial
  | succ fuel ih =>
    unfold markLevels
    split
    · trivial
    · exact (childrenOf_stops front t).bind fun _ _ => ih _ _

theorem countAndOffset_stops (n hi off : Nat) : (countAndOffset n hi off).Stops := by
  simp [countAndOffset]

/-! ### What the units keep -/

@[simp] theorem put_s (t : TSt) (n : Nat) (x : Node) : (t.put n x).s = t.s := rfl
@[simp] theorem bit_s (t : TSt) (b : Byte) : (t.bit b).s = t.s := rfl

/-- Bits set under a condition leave the state alone. -/
@[simp] theorem ite_bit_s (c : Prop) [Decidable c] (t : TSt) (b : Byte) : (if c then t.bit b else t).s = t.s := by
  split <;> rfl

/-- A unit that gives a new arena and bits, and keeps the state in canonical form. -/
abbrev TRes.Keeps (r : TRes TSt) : Prop := TKeeps (fun t => t.s.Canonical) r

section
variable {t : TSt} (ht : t.s.Canonical)
include ht

theorem descend_keeps (j fuel n depth fl : Nat) (path : List (BitVec 16)) :
    TKeeps (fun r => r.2.s.Canonical) (descend j fuel n depth fl path t) := by
  induction fuel generalizing n depth fl path t with
  | zero => trivial
  | succ fuel ih =>
    unfold descend
    refine (node_stops t n).bind fun x _ => ?_
    refine (tkeeps_ite _).2 ⟨fun _ => ?_, fun _ => ?_⟩
    · split
      case h_1 u heq =>
        have hu : u.s = t.s := by
          (repeat' split at heq) <;> cases heq <;> simp
        simpa [hu] using ht
    · refine (selectChild_stops _ _).bind fun r _ => ?_
      exact (node_stops _ _).bind fun y _ => ih (by simpa using ht) ..

theorem expandEntry_keeps (leaf fl : Nat) (es : List (Nat × Nat)) : (expandEntry leaf fl es t).Keeps := by
  unfold expandEntry
  split
  · trivial
  · refine (node_stops t leaf).bind fun x _ => ?_
    dsimp only
    split
    · trivial
    · split
      · trivial
      · split
        · exact ht
        · split
          · trivial
          · refine (meet_stops _ _).bind fun _ _ => (node_stops _ _).bind fun _ _ => ?_
            exact List.foldlRecOn (motive := fun u : TSt => u.s.Canonical) _ _ ht fun _ hu _ _ => hu

theorem backWalk_keeps (v : Int) (release : Bool) (fuel n : Nat) (sgn : Int) :
    (backWalk v release fuel n sgn t).Keeps := by
  induction fuel generalizing n sgn t with
  | zero => trivial
  | succ fuel ih =>
    unfold backWalk
    refine (node_stops t n).bind fun x _ => ?_
    refine (tkeeps_ite _).2 ⟨fun _ => by simpa using ht, fun _ => ?_⟩
    refine (tkeeps_ite _).2 ⟨fun _ => by simpa using ht, fun _ => ?_⟩
    exact (tkeeps_ite _).2 ⟨fun _ => trivial, fun _ => ih (by simpa using ht) ..⟩

theorem backRecord_keeps (leaf fl : Nat) (v : Int) (zeros : Bool) : (backRecord leaf fl v zeros t).Keeps := by
  unfold backRecord
  split
  · trivial
  · split
    · trivial
    · refine (backWalk_keeps ht _ _ _ _ _).bind fun u hu => ?_
      split
      · exact (node_stops u leaf).bind fun _ _ => hu
      · exact hu

theorem rerootAt_keeps (n : Nat) : (rerootAt n t).Keeps := by
  unfold rerootAt
  split
  · trivial
  · exact (pathUp_stops _ _ _ _).bind fun _ _ => (node_stops t n).bind fun _ _ => ht

theorem sweepArena_keeps : TKeeps (fun r => r.2.s.Canonical) (sweepArena t) := by
  unfold sweepArena
  split
  · trivial
  · refine (markLevels_stops _ _ _ _).bind fun seen _ => ?_
    simpa using ht

end

/-! ### Lines, lists and headers written back -/

section
variable (hs : s.Canonical)
include hs

theorem writeRuns_keeps (die : Nat) (a : Arena) : TKeeps (fun r => r.1.Canonical) (writeRuns s die a) := by
  unfold writeRuns
  split
  · exact (treeWrite_keeps hs die a _ _).bind fun t ht => ht
  · exact hs

/-- Dirty lines written back: the state reached, and why one could not be written. -/
theorem writeLines_keeps (die : Nat) (a : Arena) (ls : List Nat) :
    (writeLines die s a ls).1.Canonical ∧ ∀ e, (writeLines die s a ls).2.2 = some e → e.Canonical := by
  induction ls generalizing s a with
  | nil => exact ⟨hs, nofun⟩
  | cons l ls ih =>
    have ht := treeWrite_keeps hs die a (a.nodeVa (4 * l)) [(0, a.lineBytes l)]
    unfold writeLines
    split
    case h_1 heq =>
      refine ⟨hs, fun e he => ?_⟩
      cases he
      exact ht.of_error heq
    case h_2 heq => exact ih (ht.of_ok heq) _

theorem writeLines_some {die : Nat} {a b : Arena} {ls : List Nat} {t : State} {e : TStop}
    (h : writeLines die s a ls = (t, b, some e)) : t.Canonical ∧ e.Canonical := by
  have ht := writeLines_keeps hs die a ls
  rw [h] at ht
  exact ⟨ht.1, ht.2 e rfl⟩

theorem writeLines_none {die : Nat} {a b : Arena} {ls : List Nat} {t : State}
    (h : writeLines die s a ls = (t, b, none)) : t.Canonical := by
  have ht := writeLines_keeps hs die a ls
  rw [h] at ht
  exact ht.1

@[simp] theorem readAfresh_canonical : (s.readAfresh).Canonical := by
  simp [State.readAfresh, hs]

/-- An arena released: the state reached, and why the release is not over. -/
theorem dropArena_keeps (die : Nat) (a : Arena) :
    (s.dropArena die a).1.Canonical ∧ ∀ e, (s.dropArena die a).2 = some e → e.Canonical := by
  have stopped {t : State} (ht : t.Canonical) {e : TStop} (he : e.Canonical) (b : Arena) :
      ((t.after e).putArena die b).Canonical ∧ ∀ e', some e = some e' → e'.Canonical :=
    ⟨putArena_canonical (after_canonical ht he) _ _, fun _ h => Option.some.inj h ▸ he⟩
  unfold State.dropArena
  split
  · split
    · exact ⟨hs, fun _ h => Option.some.inj h ▸ hs⟩
    · exact ⟨by simp [hs], nofun⟩
  · split
    case h_1 heq => exact stopped (writeLines_some hs heq).1 (writeLines_some hs heq).2 _
    case h_2 heq =>
      have ht := writeLines_none hs heq
      split
      case h_1 heq => exact stopped ht ((writeRuns_keeps ht die _).of_error heq) _
      case h_2 heq =>
        have hu := (writeRuns_keeps ht die _).of_ok heq
        split
        case h_1 heq => exact stopped hu ((treeWrite_keeps hu die _ _ _).of_error heq) _
        case h_2 heq =>
          have hv := (treeWrite_keeps hu die _ _ _).of_ok heq
          exact ⟨putArena_canonical hv _ _, fun _ h => Option.some.inj h ▸ hv⟩

theorem dropArena_some {die : Nat} {a : Arena} {t : State} {e : TStop} (h : s.dropArena die a = (t, some e)) :
    t.Canonical ∧ e.Canonical := by
  have ht := dropArena_keeps hs die a
  rw [h] at ht
  exact ⟨ht.1, ht.2 e rfl⟩

theorem dropArena_none {die : Nat} {a : Arena} {t : State} (h : s.dropArena die a = (t, none)) : t.Canonical := by
  have ht := dropArena_keeps hs die a
  rw [h] at ht
  exact ht.1

@[simp] theorem loseLine_canonical (die : Nat) (a : Arena) (va : Word) : (s.loseLine die a va).Canonical := by
  simp [State.loseLine, hs]

theorem treeMiss_canonical (cx num : Nat) {e : TStop} (he : e.Canonical) : (s.treeMiss cx num e).Canonical := by
  have ht := after_canonical hs he
  unfold State.treeMiss
  split
  · dsimp only
    split <;> simp [ht]
  · exact ht

theorem arenaMiss_canonical (die : Nat) (r : Arena) (release : Bool) {e : TStop} (he : e.Canonical) :
    (s.arenaMiss die r release e).Canonical := by
  have ht := after_canonical hs he
  unfold State.arenaMiss
  split
  · dsimp only
    split <;> simp [ht]
  · exact ht

theorem treeErr_canonical (cx num : Nat) {e : TStop} (he : e.Canonical) : (s.treeErr cx num e).Canonical := by
  unfold State.treeErr
  split
  · simp [hs]
  · exact treeMiss_canonical hs cx num he

omit hs in
theorem trim_keeps {t : TSt} (ht : t.s.Canonical) (die : Nat) (r : Arena) : (t.trim die r).Keeps := by
  unfold TSt.trim
  split
  · exact ht
  · dsimp only
    split
    case h_1 heq => exact (writeLines_some ht heq).2
    case h_2 heq => exact writeLines_none ht heq

/-- A unit of a command at its turn keeps memory canonical when the unit's own effect does. -/
theorem treeUnit_canonical {die ord fn : Nat} {f : Nat → Active → TSt → TRes (TSt × Active)}
    (hf : ∀ cx a t, t.s.Canonical → TKeeps (fun r => r.1.s.Canonical) (f cx a t)) :
    (s.treeUnit die ord fn f).Canonical := by
  unfold State.treeUnit
  split
  · exact hs
  · split
    · exact hs
    · split
      · exact hs
      case h_2 r _ =>
        split
        · exact hs
        · split
          · dsimp only
            split <;> simp [hs]
          · have hunit (cx : Nat) (a : Active) : TKeeps (fun p : TSt × Active => p.1.s.Canonical) (do
                let (t, b) ← f cx a ⟨s, r, 0, a.stage⟩
                .ok (← t.trim die r, b)) :=
              (hf cx a _ hs).bind fun p hp => (trim_keeps hp die r).bind fun t ht => ht
            dsimp only
            split
            · split
              case h_1 heq => exact (treeFill_keeps hs die r _).of_ok heq
              case h_2 heq => exact treeErr_canonical hs _ _ ((treeFill_keeps hs die r _).of_error heq)
            case h_2 heq => exact treeErr_canonical hs _ _ ((hunit _ _).of_error heq)
            case h_3 heq => exact modActive_canonical (putArena_canonical ((hunit _ _).of_ok heq) _ _) _ _ _ _

@[simp] theorem wrWin_canonical (cx base off : Nat) (bs : List Byte) : (s.wrWin cx base off bs).Canonical := by
  simp [State.wrWin, hs]

@[simp] theorem execDescent_goesOn (die cmd : Nat) : GoesOn (execDescent die cmd s) :=
  (goesOn_next _).2 <| treeUnit_canonical hs fun cx _ _ ht =>
    (countAndOffset_stops _ _ _).bind fun _ _ => (descend_keeps ht _ _ _ _ _ _).bind fun _ hr =>
      wrWin_canonical hr cx _ _ _

@[simp] theorem execExpansionEntry_goesOn (die cmd : Nat) : GoesOn (execExpansionEntry die cmd s) := by
  refine (goesOn_next _).2 <| treeUnit_canonical hs fun cx a t ht => (countAndOffset_stops _ _ _).bind fun _ _ => ?_
  dsimp only
  split
  · trivial
  · exact (expandEntry_keeps ht _ _ _).bind fun u hu => hu

@[simp] theorem execBackupRecord_goesOn (die cmd : Nat) : GoesOn (execBackupRecord die cmd s) := by
  refine (goesOn_next _).2 <| treeUnit_canonical hs fun cx a t ht => (countAndOffset_stops _ _ _).bind fun _ _ => ?_
  split
  · trivial
  · exact (backRecord_keeps ht _ _ _ _).bind fun u hu => hu

@[simp] theorem execTreeRerootExecute_goesOn (die cmd : Nat) : GoesOn (execTreeRerootExecute die cmd s) :=
  (goesOn_next _).2 <| treeUnit_canonical hs fun _ _ _ ht => (rerootAt_keeps ht _).bind fun _ hu => hu
@[simp] theorem execTreeSweepExecute_goesOn (die cmd : Nat) : GoesOn (execTreeSweepExecute die cmd s) :=
  (goesOn_next _).2 <| treeUnit_canonical hs fun _ _ _ ht => (sweepArena_keeps ht).bind fun _ hu => hu

@[simp] theorem execTreePathExecute_goesOn (die cmd : Nat) : GoesOn (execTreePathExecute die cmd s) := by
  refine (goesOn_next _).2 <| treeUnit_canonical hs fun cx a t ht => (countAndOffset_stops _ _ _).bind fun _ _ => ?_
  split
  · trivial
  · split
    · trivial
    · exact (pathUp_stops _ _ _ _).bind fun _ _ => wrWin_canonical ht cx _ _ _

@[simp] theorem execTreeReadExecute_goesOn (die cmd : Nat) : GoesOn (execTreeReadExecute die cmd s) := by
  refine (goesOn_next _).2 <| treeUnit_canonical hs fun cx a t ht => (countAndOffset_stops _ _ _).bind fun _ _ => ?_
  split
  · trivial
  · exact (node_stops _ _).bind fun _ _ => wrWin_canonical ht cx _ _ _

@[simp] theorem execTreeFlushExecute_goesOn (die cmd : Nat) : GoesOn (execTreeFlushExecute die cmd s) := by
  refine (goesOn_next _).2 <| treeUnit_canonical hs fun cx a t ht => ?_
  split
  case h_1 heq => exact (writeLines_some ht heq).2
  case h_2 heq => exact writeLines_none ht heq

/-! ### BIND -/

theorem bindRead_keeps (b : Active) (a : Arena) (cuts : List (Word × Nat)) :
    TKeeps (fun r => r.2.Canonical) (bindRead b a cuts s) := by
  induction cuts generalizing s with
  | nil => exact hs
  | cons c cuts ih =>
    refine (treePlace_keeps hs a c.1 false).bind fun r hr => ?_
    obtain ⟨⟨p, z⟩, t⟩ := r
    dsimp only
    split
    · trivial
    · exact (ih hr).bind fun q hq => hq

theorem bindBytes_keeps (b : Active) (a : Arena) (va : Word) (n : Nat) :
    TKeeps (fun r => r.2.Canonical) (bindBytes b a va n s) :=
  bindRead_keeps hs b a _

theorem readRuns_keeps (b : Active) (a : Arena) : TKeeps (fun r => r.1.Canonical) (readRuns b s a) := by
  unfold readRuns
  split
  · exact hs
  · refine (treePlace_keeps hs a _ true).bind fun r hr => (bindBytes_keeps hr b a _ 16).bind fun q hq => ?_
    refine (tkeeps_ite _).2 ⟨fun _ => trivial, fun _ => (bindBytes_keeps hq b a _ _).bind fun p hp => ?_⟩
    exact (tkeeps_ite _).2 ⟨fun _ => hp, fun _ => trivial⟩

theorem rootMade_keeps (b : Active) (a : Arena) : TKeeps (fun r => r.1.Canonical) (rootMade b s a) := by
  unfold rootMade
  split
  · exact hs
  · exact (bindBytes_keeps hs b a _ 128).bind fun r hr => hr

theorem bindHeader_keeps (b : Active) (cx : Nat) (va : Word) (k : Bool × Nat) :
    TKeeps (fun r => r.1.Canonical) (bindHeader b s cx va k) := by
  unfold bindHeader
  refine (bindBytes_keeps hs b _ va 64).bind fun r hr => (tkeeps_ite _).2 ⟨fun _ => trivial, fun _ => ?_⟩
  exact (readRuns_keeps hr b _).bind fun q hq => rootMade_keeps hq b _

@[simp] theorem setArena_canonical (cx slot : Nat) (k : Option (Bool × Nat)) (va : Word) :
    (s.setArena cx slot k va).Canonical := by
  simp [State.setArena, hs]

@[simp] theorem unmade_canonical (die : Nat) (r : Arena) : (s.unmade die r).Canonical := by
  simp [State.unmade, hs]

@[simp] theorem releaseOld_canonical (die cx slot : Nat) (new : Option (Bool × Nat)) :
    (s.releaseOld die cx slot new).1.Canonical := by
  unfold State.releaseOld
  split
  · exact hs
  · dsimp only
    split
    · exact hs
    · split
      · exact setArena_canonical hs _ _ _ _
      · split
        · exact setArena_canonical hs _ _ _ _
        · split
          case h_1 heq => exact setArena_canonical (dropArena_none hs heq) _ _ _ _
          case h_2 heq =>
            obtain ⟨ht, he⟩ := dropArena_some hs heq
            exact arenaMiss_canonical ht _ _ _ he

@[simp] theorem bindFetch_canonical (die cx : Nat) (a : Active) (r : Arena) (va : Word) :
    (s.bindFetch die cx a r va).Canonical := by
  have ht := treePlace_keeps hs r va false
  unfold State.bindFetch
  split
  case h_1 heq =>
    split
    · exact hs
    · exact treeReq_canonical (ht.of_ok heq) _ _ _ _ _ _ _
  case h_2 heq => exact after_canonical hs (ht.of_error heq)

@[simp] theorem bindEnd_canonical (cx : Nat) (a : Active) (k : Option (Bool × Nat))
    (fail : Option (Nat × Nat × Word)) : (s.bindEnd cx a k fail).Canonical := by
  simp [State.bindEnd, hs]

@[simp] theorem bindTake_canonical (die cx : Nat) (a : Active) (r : Arena) (z : BitVec 2) :
    (s.bindTake die cx a r z).Canonical := by
  simp [State.bindTake, hs]

@[simp] theorem bindTaken_canonical (die cx : Nat) (a : Active) (r : Arena) : (s.bindTaken die cx a r).Canonical := by
  unfold State.bindTaken
  split <;> simp [hs]

@[simp] theorem bindGoes_canonical (die cx : Nat) (a : Active) : (s.bindGoes die cx a).Canonical := by
  unfold State.bindGoes
  split
  · exact hs
  case h_2 r _ =>
    have ht := treeWrite_keeps hs die r r.va r.headPieces
    split
    · exact bindTaken_canonical hs _ _ _ _
    · split
      · split
        · exact bindEnd_canonical (unmade_canonical hs _ _) _ _ _ _
        case h_2 heq => exact treeMiss_canonical hs _ _ (ht.of_error heq)
        case h_3 heq => exact modActive_canonical (putArena_canonical (ht.of_ok heq) _ _) _ _ _ _
      · split <;> simp [hs]

@[simp] theorem bindAt_canonical (die cx : Nat) (a : Active) (k : Option ((Bool × Nat) × BitVec 2)) :
    (s.bindAt die cx a k).Canonical := by
  have ht := releaseOld_canonical hs die cx a.cmd.kind.slot (k.map Prod.fst)
  unfold State.bindAt
  dsimp only
  split
  case h_1 heq => rwa [heq] at ht
  case h_2 heq =>
    rw [heq] at ht
    split
    · exact bindEnd_canonical ht _ _ _ _
    · exact ht
    · split
      · split
        · exact ht
        · exact bindEnd_canonical ht _ _ _ _
      · have hu := bindHeader_keeps ht a cx (BitVec.ofNat 64 a.cmd.kind.xa)
        split
        · exact bindEnd_canonical ht _ _ _ _
        · exact bindFetch_canonical ht _ _ _ _ _
        case h_3 heq => exact treeMiss_canonical ht _ _ ((hu _).of_error heq)
        case h_4 heq => exact bindTake_canonical ((hu _).of_ok heq) _ _ _ _ _

@[simp] theorem bindRefused_canonical (cx : Nat) (a : Active) (e : FaultEntry) :
    (s.bindRefused cx a e).Canonical := by
  unfold State.bindRefused
  refine modActive_canonical ?_ _ _ _ _
  split
  · exact hs
  · cases (s.die (dieOf (s.home cx))).arena (false, a.aux) with
    | none => exact hs
    | some r => exact unmade_canonical hs _ r

@[simp] theorem releaseAnswer_canonical (die : Nat) (r : Arena) (e : FaultEntry) (ok : Bool) :
    (s.releaseAnswer die r e ok).Canonical := by
  simp [State.releaseAnswer, hs]

@[simp] theorem execTreeBindExecute_goesOn (die cmd : Nat) : GoesOn (execTreeBindExecute die cmd s) := by
  simp only [execTreeBindExecute, goesOn_next]
  split
  · exact hs
  · split
    · exact hs
    · split
      · split <;> simp [hs]
      · split <;> simp [hs]
      · split
        · exact bindGoes_canonical hs _ _ _
        · split
          · exact bindAt_canonical hs _ _ _ _
          · split
            case h_1 heq => exact heard_canonical hs (xlateFor_eq_canonical hs heq)
            case h_2 heq =>
              have ht := xlateFor_eq_canonical hs heq
              exact treeMiss_canonical ht _ _ ht
            case h_3 heq =>
              have ht := xlateFor_eq_canonical hs heq
              split
              case h_1 heq => exact heard_canonical hs (xlateFor_eq_canonical ht heq)
              case h_2 heq =>
                have hu := xlateFor_eq_canonical ht heq
                exact treeMiss_canonical hu _ _ hu
              case h_3 heq =>
                have hu := xlateFor_eq_canonical ht heq
                split <;> simp [hu]

/-! ### Completion, gaps and eviction -/

@[simp] theorem closeArenaCmd_canonical (die cx : Nat) (a : Active) (r : Arena) :
    (s.closeArenaCmd die cx a r).Canonical := by
  unfold State.closeArenaCmd
  dsimp only
  split
  · split <;> simp [hs]
  · split
    · exact hs
    · split
      · have ht := writeRuns_keeps hs die r
        split
        case h_1 heq => exact treeErr_canonical (modActive_canonical hs _ _ _ _) _ _ (ht.of_error heq)
        case h_2 heq => exact modActive_canonical (putArena_canonical (ht.of_ok heq) _ _) _ _ _ _
      · split
        · split
          · exact hs
          · have ht := treeWrite_keeps hs die r r.va ((r.passed a s.now).headPieces ++ a.headPieces)
            split
            case h_1 heq => exact treeErr_canonical hs _ _ (ht.of_error heq)
            case h_2 heq => exact modActive_canonical (ht.of_ok heq) _ _ _ _
        · split <;> simp [hs]

@[simp] theorem closeTree_canonical (cx : Nat) (a : Active) : (s.closeTree cx a).Canonical := by
  unfold State.closeTree
  grind [closeArenaCmd_canonical, finish_canonical]

@[simp] theorem execTicketGapTimeout_goesOn (die arena : Nat) : GoesOn (execTicketGapTimeout die arena s) := by
  simp only [execTicketGapTimeout, goesOn_next]
  grind [modActive_canonical, putArena_canonical]

@[simp] theorem evictLine_canonical (die : Nat) (r : Arena) (line : Nat) : (s.evictLine die r line).Canonical :=
  foldl_canonical (putArena_canonical hs _ _) fun _ _ ht => modActive_canonical ht _ _ _ _

@[simp] theorem execNodeCacheEviction_goesOn (die arena line : Nat) :
    GoesOn (execNodeCacheEviction die arena line s) := by
  simp only [execNodeCacheEviction, goesOn_next]
  split
  · exact hs
  · split
    · split <;> simp [hs]
    · split
      · exact hs
      · split
        case h_1 heq => exact arenaMiss_canonical hs _ _ _ (writeLines_some hs heq).2
        case h_2 heq => exact evictLine_canonical (writeLines_none hs heq) _ _ _

@[simp] theorem releaseArena_canonical (die : Nat) (r : Arena) : (s.releaseArena die r).Canonical := by
  unfold State.releaseArena
  split
  case h_1 e _ =>
    cases e.answer with
    | none => exact hs
    | some ok => exact releaseAnswer_canonical hs die r e ok
  case h_2 =>
    split
    case h_1 heq => exact dropArena_none hs heq
    case h_2 heq =>
      obtain ⟨ht, he⟩ := dropArena_some hs heq
      exact arenaMiss_canonical ht _ _ _ he

@[simp] theorem releaseFree_canonical (die : Nat) : (s.releaseFree die).Canonical :=
  foldl_canonical hs fun t r ht => by simp [ht]

end

end Sys2Proof.Machine

end

