-- ==== Sys2Proof/Proofs/CanonicalAc.lean ====
section
/-! # Canonical memory: the calendar, the ac and the plane engine -/

namespace Sys2Proof.Machine
open Sys2Proof

variable {s : State}

/-! ### The calendar and the turn at the start of a cycle -/

section
variable (hs : s.Canonical)
include hs

@[simp] theorem serve_canonical (die : Nat) (r : Req) (own : Bool) : (s.serve die r own).Canonical := by
  simp [State.serve, hs]
@[simp] theorem useCh_canonical (die ch : Nat) : (s.useCh die ch).Canonical := by
  simp [State.useCh, hs]

@[simp] theorem calendar_canonical (die ch : Nat) (ecc : Ecc) : (calendar die ch ecc s).Canonical := by
  unfold calendar
  grind [checked_canonical, modCtx_canonical, modDie_canonical, serve_canonical, useCh_canonical]

@[simp] theorem execCalendarSlot_goesOn (die : Nat) (burst : Nat × Ecc) : GoesOn (execCalendarSlot die burst s) := by
  simp [execCalendarSlot, hs]

@[simp] theorem arrive_canonical (r : Req) : (s.arrive r).Canonical := by
  unfold State.arrive
  split <;> simp [hs]

@[simp] theorem countAc_canonical (cx : Nat) : (s.countAc cx).Canonical := by
  simp [State.countAc, hs]

@[simp] theorem countStall_canonical (g : Nat) : (s.countStall g).Canonical := by
  unfold State.countStall
  split <;> simp [hs]

@[simp] theorem resolveDue_canonical (cx : Nat) : (s.resolveDue cx).Canonical :=
  foldl_canonical hs fun _ n ht => resolveHandle_canonical ht cx n
@[simp] theorem sendAway_canonical : (s.sendAway).Canonical :=
  foldl_canonical hs fun _ r ht => modReq_canonical (takeFree_canonical ht) r.id _
@[simp] theorem noteGaps_canonical (die : Nat) : (s.noteGaps die).Canonical := by
  simp [State.noteGaps, hs]

@[simp] theorem acTurn_canonical : (acTurn s).Canonical := by
  unfold acTurn
  extract_lets s₁ s₂ s₃ s₄ s₅ s₆ s₇ s₈ s₉ s₁₀ s₁₁ s₁₂ s₁₃
  have h₁ : s₁.Canonical := (canonical_ite _ _ _).2
    ⟨fun _ => foldl_canonical hs fun _ _ ht => foldl_canonical ht fun _ _ hu => calendar_canonical hu _ _ _,
      fun _ => hs⟩
  have h₂ : s₂.Canonical := (canonical_ite _ _ _).2
    ⟨fun _ => foldl_canonical h₁ fun _ _ ht => foldl_canonical ht fun _ _ hu => wsBankTurn_canonical hu _ _,
      fun _ => h₁⟩
  have h₃ : s₃.Canonical := foldl_canonical h₂ fun _ _ ht => countAc_canonical ht _
  have h₄ : s₄.Canonical := foldl_canonical h₃ fun _ _ ht => countStall_canonical ht _
  have h₅ : s₅.Canonical := foldl_canonical h₄ fun _ _ ht => ht
  have h₆ : s₆.Canonical := foldl_canonical h₅ fun _ _ ht => ht
  have h₇ : s₇.Canonical := foldl_canonical h₆ fun _ _ ht => ht
  have h₈ : s₈.Canonical := foldl_canonical h₇ fun _ _ ht => arrive_canonical ht _
  have h₉ : s₉.Canonical := foldl_canonical h₈ fun _ _ ht => resolveDue_canonical ht _
  have h₁₀ : s₁₀.Canonical := foldl_canonical h₉ fun _ _ ht => releasePair_canonical ht _ _
  have h₁₂ : s₁₂.Canonical := sendAway_canonical (admitGroups_canonical h₁₀ _)
  have h₁₃ : s₁₃.Canonical := foldl_canonical h₁₂ fun _ _ ht => noteGaps_canonical ht _
  refine foldl_canonical h₁₃ fun t p ht => foldl_canonical ht fun u a hu => ?_
  split
  · exact pump_canonical hu _ _ _
  · exact hu

@[simp] theorem execHostCxlMemAccess_goesOn (die offset : Nat) (write : Option (List Byte)) (len : Nat) :
    GoesOn (execHostCxlMemAccess die offset write len s) := by
  unfold execHostCxlMemAccess
  (repeat' split) <;> simp [hs]

@[simp] theorem remoteSem_canonical (op : SemOp) (g i : Nat) (v : Word32) (from_ prio : Nat) :
    (s.remoteSem op g i v from_ prio).Canonical := by
  unfold State.remoteSem
  split <;> simp [hs]

@[simp] theorem enter_canonical (a : Nat) (op : ReqOp) : (s.enter a op).Canonical := by
  simp [State.enter, hs]

@[simp] theorem execRemoteRequest_goesOn (r : RemoteReq) : GoesOn (execRemoteRequest r s) := by
  unfold execRemoteRequest
  split <;> simp [hs]

@[simp] theorem lossEffect_canonical (r : Req) (aux : Nat) : (s.lossEffect r aux).Canonical := by
  unfold State.lossEffect
  split <;> simp [hs]

@[simp] theorem fabricLoss_canonical (req aux : Nat) : (s.fabricLoss req aux).Canonical := by
  unfold State.fabricLoss
  grind [addFault_canonical, deliverResult_canonical, dropReq_canonical, freeBytes_canonical, lossEffect_canonical,
    modActive_canonical, receive_canonical, takeFree_canonical, treeArrive_canonical]

@[simp] theorem execFabricRequestLost_goesOn (req : Nat) : GoesOn (execFabricRequestLost req s) := by
  simp [execFabricRequestLost, hs]
@[simp] theorem execResponseDropped_goesOn (req : Nat) : GoesOn (execResponseDropped req s) := by
  simp [execResponseDropped, hs]

end

/-! ### The plane engine -/

section
variable (hs : s.Canonical)
include hs

@[simp] theorem planeRun_canonical (g : Nat) (f : PEnv → PSt → PRes) : (s.planeRun g f).Canonical := by
  unfold State.planeRun
  (repeat' split) <;> simp [hs]

@[simp] theorem routineStep_canonical (g : Nat) : (routineStep g s).Canonical := by
  unfold routineStep
  split <;> simp [hs]

@[simp] theorem planeOp_canonical (cl : BitVec 8) (f : PEnv → Nat → PSt → Option PSt) : (s.planeOp cl f).Canonical := by
  simp [State.planeOp, hs]

@[simp] theorem retireMat_canonical (cx : Nat) (a : Active) (bad : Option Nat) (flags : Nat) :
    (s.retireMat cx a bad flags).Canonical := by
  unfold State.retireMat
  (repeat' split) <;> simp [hs]

@[simp] theorem execRoutineStart_goesOn (core : Nat) : GoesOn (execRoutineStart core s) := by
  unfold execRoutineStart
  (repeat' split) <;> simp [hs]

@[simp] theorem readWords_canonical (path : Bool) (w g part : Nat) (pasid : BitVec 20) (n : Nat) (va : Word) :
    (s.readWords path w g part pasid n va).2.Canonical := by
  induction n generalizing s va with
  | zero => exact hs
  | succ n ih =>
    have ht := translate_canonical hs g part pasid va true false
    unfold State.readWords
    grind [rdPlace_canonical, rouse_canonical]

@[simp] theorem execMroutCopy_goesOn (core : Nat) : GoesOn (execMroutCopy core s) := by
  simp only [execMroutCopy, goesOn_next]
  grind [addFault_canonical, canonical_mk, mapsCanonical_fields, finish_canonical, heard_canonical, modCore_canonical,
    readWords_canonical]

@[simp] theorem execRoutineRetire_goesOn (core : Nat) : GoesOn (execRoutineRetire core s) := by
  unfold execRoutineRetire
  (repeat' split) <;> simp [hs]

end

end Sys2Proof.Machine

end

