-- ==== Sys2Proof/Proofs/CanonicalScheduler.lean ====
section
/-! # Canonical memory: the scheduler -/

namespace Sys2Proof.Machine
open Sys2Proof

variable {s : State}

/-! ### The scheduler -/

/-- What a read of the scheduler leaves. -/
def SchedRd.Canonical : SchedRd → Prop
  | .wait t | .refused t | .ok _ t => t.Canonical

@[simp] theorem wait_canonical (t : State) : (SchedRd.wait t).Canonical ↔ t.Canonical := Iff.rfl
@[simp] theorem refused_canonical (t : State) : (SchedRd.refused t).Canonical ↔ t.Canonical := Iff.rfl
@[simp] theorem okRead_canonical (ws : List Nat) (t : State) : (SchedRd.ok ws t).Canonical ↔ t.Canonical := Iff.rfl

/-- The state that a read of the scheduler leaves, by the equation that names it. -/
theorem SchedRd.Canonical.of_eq {o o' : SchedRd} (ho : o.Canonical) (h : o = o') : o'.Canonical := h ▸ ho

section
variable (hs : s.Canonical)
include hs

@[simp] theorem modTask_canonical (id : Nat) (f : Task → Task) : (s.modTask id f).Canonical := by
  simp [State.modTask, hs]
@[simp] theorem tick_canonical : (s.tick).2.Canonical := by
  simp [State.tick, hs]

@[simp] theorem launchReport_canonical (owner : Option Nat) (part : Nat) (pasid : BitVec 20) (va : Word) (sub ord :
    Nat) : (s.launchReport owner part pasid va sub ord).Canonical := by
  simp [State.launchReport, hs]

@[simp] theorem modInst_canonical (id : Nat) (f : Inst → Inst) : (s.modInst id f).Canonical := by
  simp [State.modInst, hs]

@[simp] theorem instOf_canonical (l : Launcher) (graph : Nat) : (s.instOf l graph).2.Canonical := by
  unfold State.instOf
  (repeat' split) <;> simp [hs]

@[simp] theorem freeInsts_canonical : (s.freeInsts).Canonical := by
  simp [State.freeInsts, hs]
@[simp] theorem makeReady_canonical (id : Nat) : (s.makeReady id).Canonical := by
  simp [State.makeReady, hs]

@[simp] theorem releaseOne_canonical (inst : Nat) (owner : Option Nat) (part : Nat) (pasid : BitVec 20) (k : Nat) :
    (s.releaseOne inst owner part pasid k).Canonical := by
  unfold State.releaseOne
  (repeat' split) <;> simp [hs]

@[simp] theorem setWaymark_canonical (k : Nat) (w : Waymark) : (s.setWaymark k w).Canonical := by
  simp [State.setWaymark, hs]

@[simp] theorem phaseEnd_canonical (k : Nat) : (s.phaseEnd k).Canonical := by
  dsimp only [State.phaseEnd]
  split
  · exact hs
  · refine foldl_canonical (setWaymark_canonical hs _ _) fun t x ht => ?_
    split <;> simp [ht]

@[simp] theorem execWaymarkArrival_goesOn (cx : Nat) : GoesOn (execWaymarkArrival cx s) := by
  simp only [execWaymarkArrival, goesOn_next]
  grind [modActive_canonical, phaseEnd_canonical, setWaymark_canonical]

@[simp] theorem enroll_canonical (l : Launcher) (r : LaunchRec) (ok : Bool) (succ : List Nat) :
    (s.enroll l r ok succ).Canonical := by
  have ht := instOf_canonical hs l r.graph
  unfold State.enroll
  generalize s.instOf l r.graph = p at *
  obtain ⟨inst, t⟩ := p
  dsimp -zeta only
  extract_lets ord ok' s₁ held s₂ id task s₃ s₄ k
  have h₁ : s₁.Canonical := by
    cases inst with
    | none => exact ht
    | some i => exact modInst_canonical ht _ _
  have h₂ : s₂.Canonical := (canonical_ite _ _ _).2 ⟨fun _ => launchReport_canonical h₁ _ _ _ _ _ _, fun _ => h₁⟩
  have h₃ : s₃.Canonical := (modHub_canonical _).2 h₂
  have h₄ : s₄.Canonical := (canonical_ite _ _ _).2 ⟨fun _ => makeReady_canonical h₃ _, fun _ => h₃⟩
  split
  · exact freeInsts_canonical (launchReport_canonical h₁ _ _ _ _ _ _)
  · exact (canonical_ite _ _ _).2 ⟨fun _ => phaseEnd_canonical (setWaymark_canonical h₄ _ _) _, fun _ => h₄⟩

/-- The state that a read leaves, by the equation that names it. -/
theorem readWords_eq_canonical {path : Bool} {w g part n : Nat} {pasid : BitVec 20} {va : Word} {o : RdOut}
    {t : State} (h : s.readWords path w g part pasid n va = (o, t)) : t.Canonical := by
  have ht := readWords_canonical hs path w g part pasid n va
  rwa [h] at ht

theorem schedRead_canonical (who : Who) (l : Launcher) (w n : Nat) (va : Word) :
    (s.schedRead who l w n va).Canonical := by
  unfold State.schedRead
  extract_lets e t
  have ht : t.Canonical := hs
  split
  · exact hs
  · exact ht
  · split
    case h_1 heq => exact readWords_eq_canonical ht heq
    case h_2 heq =>
      have hu := readWords_eq_canonical ht heq
      simp [hu, ht]
    case h_3 heq => exact readWords_eq_canonical ht heq

theorem readSuccs_canonical (src : Source) (l : Launcher) (r : LaunchRec) : (s.readSuccs src l r).Canonical := by
  unfold State.readSuccs
  split
  · exact hs
  · exact schedRead_canonical hs _ _ _ _ _

@[simp] theorem headPlace_canonical (q : UQueue) : (s.headPlace q).1.Canonical := by
  unfold State.headPlace
  grind [addFault_canonical, heard_canonical, queueError_canonical, rouse_canonical, translate_canonical, canonical_mk,
    mapsCanonical_fields]

@[simp] theorem writeHead_canonical (q : UQueue) (head : Nat) (place : Option (Bool × Nat)) :
    (s.writeHead q head place).Canonical := by
  unfold State.writeHead
  split <;> simp [hs]

theorem headPlace_eq_canonical {q : UQueue} {t : State} {p : Option (Option (Bool × Nat))}
    (h : s.headPlace q = (t, p)) : t.Canonical := by
  have ht := headPlace_canonical hs q
  rwa [h] at ht

@[simp] theorem takeQueue_canonical (slot : Nat) : (s.takeQueue slot).Canonical := by
  unfold State.takeQueue
  split
  · exact hs
  · extract_lets d va l src
    split
    · exact hs
    · split
      · exact queueError_canonical hs _
      · have hread := schedRead_canonical hs (.sched src false) l 8 8 va
        split
        case h_1 heq => exact hread.of_eq heq
        case h_2 heq => exact queueError_canonical (hread.of_eq heq) _
        case h_3 heq =>
          have ht := hread.of_eq heq
          extract_lets bs r₀ r ok
          split
          · exact hs
          · split
            case h_1 heq => exact headPlace_eq_canonical ht heq
            case h_2 heq =>
              have hu := headPlace_eq_canonical ht heq
              split
              · exact enroll_canonical (writeHead_canonical hu _ _ _) _ _ _ _
              · have hsucc := readSuccs_canonical hu src l r
                split
                case h_1 heq => exact hsucc.of_eq heq
                case h_2 heq => exact enroll_canonical (writeHead_canonical (hsucc.of_eq heq) _ _ _) _ _ _ _
                case h_3 heq => exact enroll_canonical (writeHead_canonical (hsucc.of_eq heq) _ _ _) _ _ _ _

@[simp] theorem takeTask_canonical (key : Nat) : (s.takeTask key).Canonical := by
  unfold State.takeTask
  grind [enroll_canonical, launchReport_canonical, modCtx_canonical, schedRead_canonical, readSuccs_canonical,
    wait_canonical, refused_canonical, okRead_canonical]

@[simp] theorem execTakeRecord_goesOn (src : Source) : GoesOn (execTakeRecord src s) := by
  unfold execTakeRecord
  (repeat' split) <;> simp [hs]

@[simp] theorem fixLists_canonical : (s.fixLists).Canonical := by
  simp [State.fixLists, hs]
@[simp] theorem startRetrain_canonical (die stack : Nat) : (s.startRetrain die stack).Canonical :=
  (modDie_canonical _ _).2 (takeFree_canonical hs)
@[simp] theorem dueTrain_canonical (die : Nat) : (s.dueTrain die).Canonical :=
  foldl_canonical hs fun _ k ht => startRetrain_canonical ht die k

@[simp] theorem dueP_canonical (die : Nat) : (s.dueP die).Canonical := by
  unfold State.dueP
  grind [modDie_canonical]

@[simp] theorem c3Turn_canonical (die : Nat) : (s.c3Turn die).Canonical := by
  unfold State.c3Turn
  grind [modDie_canonical, wake_canonical]

@[simp] theorem packageAc_canonical : (packageAc s).Canonical := by
  refine fixLists_canonical (foldl_canonical (foldl_canonical (acTurn_canonical hs) fun t d ht => ?_) fun t d ht => ?_)
  · exact c3Turn_canonical (dueP_canonical (dueTrain_canonical ht d) d) d
  · exact releaseFree_canonical ht d

@[simp] theorem execAgingMove_goesOn (task : Nat) : GoesOn (execAgingMove task s) := by
  unfold execAgingMove
  split <;> simp [hs]

@[simp] theorem execReserving_goesOn (task : Nat) : GoesOn (execReserving task s) := by
  unfold execReserving
  (repeat' split) <;> simp [hs]

@[simp] theorem placeAt_canonical (t : Task) (f : Fit) : (s.placeAt t f).Canonical := by
  simp [State.placeAt, hs]

@[simp] theorem execPlacement_goesOn (task : Nat) : GoesOn (execPlacement task s) := by
  unfold execPlacement
  (repeat' split) <;> simp [hs]

@[simp] theorem rekey_canonical (o n : Nat) : (s.rekey o n).Canonical := by
  simp [State.rekey, hs]

@[simp] theorem save_canonical (t : Task) (off : Nat) (bs : List Byte) : (s.save t off bs).Canonical := by
  unfold State.save
  extract_lets base ext s₁ s₂ s₃
  have h₂ : s₂.Canonical := foldl_canonical (wrMem_canonical hs _ _ _) fun _ _ ht => mark_canonical ht _ _ _
  have h₃ : s₃.Canonical := modTask_canonical h₂ _ _
  split
  · exact h₃
  · exact addFault_canonical h₃ _ _

theorem shadowRoom_canonical {g n : Nat} {ts : List (Nat × Nat)} {u : State}
    (h : State.shadowRoom g n ts s = some u) : u.Canonical := by
  induction ts generalizing s with
  | nil =>
    cases h
    exact hs
  | cons p ts ih =>
    unfold State.shadowRoom at h
    grind [freeBytes_canonical, modTask_canonical, save_canonical]

theorem swapOut_canonical {cx : Nat} {u : State} (h : s.swapOut cx = some u) : u.Canonical := by
  unfold State.swapOut at h
  grind [modCore_canonical, modCtx_canonical, modTask_canonical, rekey_canonical, shadowRoom_canonical, tick_canonical]

@[simp] theorem getD_canonical {o : Option State} (ho : ∀ u, o = some u → u.Canonical) : (o.getD s).Canonical := by
  cases o with
  | none => exact hs
  | some u => exact ho u rfl

@[simp] theorem execSwap_goesOn (cx : Nat) : GoesOn (execSwap cx s) := by
  refine (goesOn_next _).2 ((canonical_ite _ _ _).2 ⟨fun _ => hs, fun _ => ?_⟩)
  exact getD_canonical hs fun u hu => swapOut_canonical hs hu

@[simp] theorem refill_canonical (f : Fit) (t : Task) (i : SpillImg) : (s.refill f t i).Canonical := by
  simp [State.refill, hs]

theorem spillOut_canonical {t : Task} {u : State} (h : s.spillOut t = some u) : u.Canonical := by
  unfold State.spillOut at h
  grind [modCtx_canonical, modTask_canonical, save_canonical]

@[simp] theorem execSpill_goesOn (task : Nat) : GoesOn (execSpill task s) := by
  simp only [execSpill, goesOn_next]
  split
  · exact hs
  · exact (canonical_ite _ _ _).2 ⟨fun _ => getD_canonical hs fun u hu => spillOut_canonical hs hu, fun _ => hs⟩

@[simp] theorem execPreemption_goesOn (task : Nat) : GoesOn (execPreemption task s) := by
  simp only [execPreemption, goesOn_next]
  grind [modTask_canonical, swapOut_canonical]

@[simp] theorem execRestore_goesOn (task : Nat) : GoesOn (execRestore task s) := by
  simp only [execRestore, goesOn_next]
  grind [modCtx_canonical, modTask_canonical, refill_canonical, rekey_canonical, tick_canonical]

@[simp] theorem orphanReqs_canonical (cx : Nat) : (s.orphanReqs cx).Canonical := by
  simp [State.orphanReqs, hs]
@[simp] theorem closeInsts_canonical (f : Inst → Bool) : (s.closeInsts f).Canonical := by
  simp [State.closeInsts, hs]

@[simp] theorem freeTask_canonical (t : Task) (cx : Nat) : (s.freeTask t cx).Canonical := by
  unfold State.freeTask
  extract_lets s₁ mine drop s₂
  have h₂ : s₂.Canonical := orphanReqs_canonical (unwait_canonical hs cx) cx
  exact freeInsts_canonical (closeInsts_canonical ((modHub_canonical _).2 ((setCtx_canonical _ _).2 h₂)) _)

@[simp] theorem completionAction_canonical (part home : Nat) (r : LaunchRec) :
    (s.completionAction part home r).Canonical := by
  unfold State.completionAction
  grind [semBump_canonical, semReq_canonical]

@[simp] theorem releaseSuccs_canonical (t : Task) (cx : Nat) : (s.releaseSuccs t cx).Canonical := by
  unfold State.releaseSuccs
  split
  · exact hs
  · exact foldl_canonical hs fun _ k ht => releaseOne_canonical ht _ _ _ _ k

@[simp] theorem endTask_canonical (t : Task) (cx : Nat) (normal : Bool) : (s.endTask t cx normal).Canonical := by
  unfold State.endTask
  grind [completionAction_canonical, freeTask_canonical, releaseFree_canonical, releaseSuccs_canonical]

@[simp] theorem execTaskRetirement_goesOn (cx : Nat) : GoesOn (execTaskRetirement cx s) := by
  simp only [execTaskRetirement, goesOn_next]
  grind [endTask_canonical]

@[simp] theorem terminate_canonical (t : Task) : (s.terminate t).Canonical := by
  unfold State.terminate
  split <;> simp [hs]

@[simp] theorem latchKick_canonical (host : Bool) (desc tail : Nat) : (s.latchKick host desc tail).Canonical := by
  simp [State.latchKick, hs]

@[simp] theorem execKick_goesOn (q : Nat) (tail : BitVec 32) : GoesOn (execKick q tail s) := by
  unfold execKick
  (repeat' split) <;> simp [hs]

@[simp] theorem execQueueDestroyed_goesOn (q : Nat) : GoesOn (execQueueDestroyed q s) := by
  simp only [execQueueDestroyed, goesOn_next]
  grind [closeInsts_canonical, forgetQueue_canonical, freeInsts_canonical, modHub_canonical]

end

end Sys2Proof.Machine

end

