-- ==== Sys2Proof/Proofs/CanonicalHost.lean ====
section
/-! # Canonical memory: the host and management requests -/

namespace Sys2Proof.Machine
open Sys2Proof

variable {s : State}

/-! ### Acceptance, completion and the host -/

/-- A management request whose effect keeps memory canonical where it is granted. -/
def GrantKeeps (f : State → Nat → List Byte → Option State) : Prop :=
  ∀ t part o u, t.Canonical → f t part o = some u → u.Canonical

section
variable (hs : s.Canonical)
include hs

@[simp] theorem takeCmd_canonical (cx : Nat) (k : Cmd) (linked : Bool) : (s.takeCmd cx k linked).Canonical := by
  simp [State.takeCmd, hs]

/-- The state that a prefetch leaves, by the equation that names it. -/
theorem prefetchPackets_eq_canonical {g part lim left f : Nat} {pasid : BitVec 20} {image va : Word} {t : State}
    {r : Option (Word × Nat) × Bool} (h : s.prefetchPackets g part pasid image lim left f va = (t, r)) :
    t.Canonical := by
  have ht := prefetchPackets_canonical hs g part pasid image lim left f va
  rwa [h] at ht

@[simp] theorem prefetch_canonical (cx num : Nat) (va : Word) : (s.prefetch cx num va).Canonical := by
  unfold State.prefetch
  extract_lets g c fin park entry t
  have hfin {u : State} (hu : u.Canonical) : (fin u).Canonical := modActive_canonical hu _ _ _ _
  have hpark {u : State} (hu : u.Canonical) (v : Word) (e : Nat) : (park u v e).Canonical :=
    (canonical_ite _ _ _).2 ⟨fun _ => addFault_canonical hu _ _, fun _ => hu⟩
  have ht : t.Canonical := hs
  split
  · exact hs
  · split
    · exact hs
    · exact hfin ht
    · split
      case h_1 heq => exact readWords_eq_canonical ht heq
      case h_2 heq => exact hpark (readWords_eq_canonical ht heq) _ _
      case h_3 heq =>
        have hu := readWords_eq_canonical ht heq
        extract_lets e image
        split
        · exact hfin hu
        · split
          case h_1 heq => exact hfin (prefetchPackets_eq_canonical hu heq)
          case h_2 heq => exact prefetchPackets_eq_canonical hu heq
          case h_3 heq => exact hpark (prefetchPackets_eq_canonical hu heq) _ _

@[simp] theorem acceptKernel_canonical (cx : Nat) (k : Cmd) : (s.acceptKernel cx k).Canonical := by
  unfold State.acceptKernel
  split <;> simp [hs]

@[simp] theorem acceptRem_canonical (cx : Nat) (k : Cmd) : (s.acceptRem cx k).Canonical := by
  unfold State.acceptRem
  grind [addReq_canonical, modActive_canonical, takeCmd_canonical]

@[simp] theorem acceptMat_canonical (cx : Nat) (k : Cmd) : (s.acceptMat cx k).Canonical := by
  simp [State.acceptMat, hs]

@[simp] theorem execEngineAccept_goesOn (cx : Nat) (q : Queue) : GoesOn (execEngineAccept cx q s) := by
  unfold execEngineAccept
  (repeat' split) <;> simp [hs]

@[simp] theorem tryClose_canonical (cx : Nat) (a : Active) : (s.tryClose cx a).Canonical := by
  unfold State.tryClose
  split <;> simp [hs]

@[simp] theorem execEngineCommandComplete_goesOn (cx : Nat) (q : Queue) :
    GoesOn (execEngineCommandComplete cx q s) :=
  (goesOn_next _).2 (foldl_canonical hs fun _ a ht => tryClose_canonical ht cx a)

@[simp] theorem modFault_canonical (entry : Nat) (f : FaultEntry → FaultEntry) : (s.modFault entry f).Canonical := by
  simp [State.modFault, hs]

@[simp] theorem execPriPageRequest_goesOn (entry : Nat) : GoesOn (execPriPageRequest entry s) := by
  unfold execPriPageRequest
  split <;> simp [hs]

@[simp] theorem answerHandle_canonical (e : FaultEntry) (cx n : Nat) (ok : Bool) :
    (s.answerHandle e cx n ok).Canonical := by
  simp [State.answerHandle, hs]

@[simp] theorem answer_canonical (entry : Nat) (ok : Bool) : (s.answer entry ok).Canonical := by
  unfold State.answer
  (repeat' split) <;> simp [hs]

@[simp] theorem execPrgResponseSuccess_goesOn (entry : Nat) : GoesOn (execPrgResponseSuccess entry s) := by
  simp [execPrgResponseSuccess, hs]
@[simp] theorem execPrgResponseInvalid_goesOn (entry : Nat) : GoesOn (execPrgResponseInvalid entry s) := by
  simp [execPrgResponseInvalid, hs]

@[simp] theorem execPrgResponseFailure_goesOn (entry : Nat) : GoesOn (execPrgResponseFailure entry s) := by
  unfold execPrgResponseFailure
  split <;> simp [hs]

@[simp] theorem execPriEnable_goesOn : GoesOn (execPriEnable s) :=
  (goesOn_next _).2 ((modHub_canonical _).2 (takeFree_canonical hs))

@[simp] theorem execAtsInvalidateRequest_goesOn (pasid : BitVec 20) (va : Word) (pages : BitVec 32) :
    GoesOn (execAtsInvalidateRequest pasid va pages s) := by
  unfold execAtsInvalidateRequest
  split <;> simp [hs]

@[simp] theorem execTokenAutoConfirm_goesOn (slot : Nat) : GoesOn (execTokenAutoConfirm slot s) := by
  unfold execTokenAutoConfirm
  split <;> simp [hs]

@[simp] theorem execFaultRingCopy_goesOn (die : Nat) : GoesOn (execFaultRingCopy die s) := by
  unfold execFaultRingCopy
  split <;> simp [hs]

@[simp] theorem execFheadWrite_goesOn (v : BitVec 32) : GoesOn (execFheadWrite v s) := by
  simp [execFheadWrite, hs]
@[simp] theorem writeMreq_canonical (v : Word) : (s.writeMreq v).Canonical := by
  simp [State.writeMreq, hs]

theorem request_canonical {f : State → Nat → List Byte → Option State} (hf : GrantKeeps f) (code : Nat)
    (ops : List (Nat × Nat × Nat)) : (s.request code ops f).Canonical := by
  unfold State.request
  split
  · exact hs
  · split
    · exact hs
    · dsimp -zeta only
      split
      · exact rouse_canonical hs _ _
      · have ht := rdPlace_canonical hs (s.resolve true ‹Word›.toNat).1 (s.resolve true ‹Word›.toNat).2 64
        generalize s.rdPlace _ _ 64 = p at *
        obtain ⟨bs, t⟩ := p
        dsimp -zeta only
        extract_lets c ours r
        have hr : ∀ u, r = some u → u.Canonical := by
          intro u hu
          simp only [r] at hu
          split at hu
          · exact hf _ _ _ _ ht hu
          · cases hu
        split
        · exact hs
        · exact (modHub_canonical _).2 (wrPlace_canonical (getD_canonical ht hr) _ _ _)

@[simp] theorem dropPart_canonical (part : Nat) : (s.dropPart part).Canonical :=
  (modHub_canonical _).2 (foldl_unmapSlot_canonical (foldl_canonical hs fun _ t ht => terminate_canonical ht t) _)
@[simp] theorem retireRows_canonical : (s.retireRows).Canonical :=
  foldl_canonical hs fun _ _ ht => ht

end

/-! ### Management requests -/

theorem partCreate_keeps : GrantKeeps State.partCreate := by
  intro t part o u ht h
  simp only [State.partCreate] at h
  split at h
  · cases h
  · cases h
    exact (modHub_canonical _).2 (takeFree_canonical ht)

theorem partDestroy_keeps : GrantKeeps State.partDestroy := by
  intro t part o u ht h
  simp only [State.partDestroy] at h
  split at h
  · cases h
    exact dropPart_canonical ht part
  · cases h

theorem amapWrite_keeps : GrantKeeps State.amapWrite := by
  intro t part o u ht h
  simp only [State.amapWrite] at h
  split at h
  · cases h
  · split at h
    · split at h
      · cases h
      · cases h
        exact ht
    · split at h
      · cases h
      · cases h
        exact retireRows_canonical ((modHub_canonical _).2 ht)

theorem pasidSet_keeps : GrantKeeps State.pasidSet := by
  intro t part o u ht h
  simp only [State.pasidSet] at h
  split at h
  · cases h
  · cases h
    exact ht

theorem saveSet_keeps : GrantKeeps State.saveSet := by
  intro t part o u ht h
  simp only [State.saveSet] at h
  split at h
  · cases h
  · split at h
    · cases h
    · cases h
      exact ht

theorem queuePriv_keeps : GrantKeeps State.queuePriv := by
  intro t part o u ht h
  simp only [State.queuePriv] at h
  split at h
  · cases h
  · rw [← Option.some.inj h]
    exact mapQueue_canonical ht _ _ _ _ _

theorem taskEnd_keeps : GrantKeeps State.taskEnd := by
  intro t part o u ht h
  simp only [State.taskEnd] at h
  split at h
  · cases h
  · split at h
    · cases h
    · split at h
      · obtain ⟨k, -, rfl⟩ := Option.map_eq_some_iff.1 h
        exact terminate_canonical ht k
      · cases h

theorem fringSet_keeps : GrantKeeps State.fringSet := by
  intro t part o u ht h
  simp only [State.fringSet] at h
  split at h
  · cases h
  · cases h
    exact ht

end Sys2Proof.Machine

end

