-- ==== Sys2Proof/Proofs/CanonicalCare.lean ====
section
/-! # Canonical memory: care of memory, power and boot -/

namespace Sys2Proof.Machine
open Sys2Proof

variable {s : State}

/-! ### Care of memory, power and boot -/

/-- What an access of a care command leaves. -/
def CareRd.Canonical : CareRd → Prop
  | .wait t | .refused t | .at_ _ _ t => t.Canonical

/-- The state that an access of a care command leaves, by the equation that names it. -/
theorem CareRd.Canonical.of_eq {o o' : CareRd} (ho : o.Canonical) (h : o = o') : o'.Canonical := h ▸ ho

/-- Entries left out of a map in canonical form. -/
theorem smWf_filter {α : Type} {d : α} {m : SMap α} (p : Nat × α → Bool) (h : smWf d m) : smWf d (m.filter p) :=
  ⟨h.1.filter _, fun q hq => h.2 q (List.mem_filter.1 hq).1⟩

section
variable (hs : s.Canonical)
include hs

theorem carePlace_canonical (cx num line : Nat) (va : Word) (w : Bool) :
    (s.carePlace cx num line va w).Canonical := by
  unfold State.carePlace
  extract_lets entry t
  have ht : t.Canonical := hs
  split
  · exact hs
  · exact ht
  · split
    case h_1 heq => exact heard_canonical ht (xlateFor_eq_canonical ht heq)
    case h_2 heq =>
      have hu := xlateFor_eq_canonical ht heq
      dsimp only
      split
      · exact rouse_canonical hu _ _
      · exact hu
    case h_3 heq =>
      exact (canonical_ite _ _ _).2 ⟨fun _ => addFault_canonical (xlateFor_eq_canonical ht heq) _ _, fun _ => ht⟩

@[simp] theorem wrRecord_canonical (cx : Nat) (a : Active) (fields : List (Nat × List Byte)) :
    (s.wrRecord cx a fields).Canonical := by
  have hcare := carePlace_canonical hs cx a.cmd.num recordLine a.cmd.kind.careVa true
  unfold State.wrRecord
  dsimp only
  split
  case h_1 heq => exact hcare.of_eq heq
  case h_2 heq => exact modActive_canonical (hcare.of_eq heq) _ _ _ _
  case h_3 heq =>
    exact modActive_canonical (foldl_canonical (hcare.of_eq heq) fun _ _ ht => wrPlace_canonical ht _ _ _) _ _ _ _

@[simp] theorem setMigr_canonical (a m : Nat) : (s.setMigr a m).Canonical := by
  simp [State.setMigr, hs]
@[simp] theorem setFilter_canonical (cx num : Nat) (f : Option Filter) : (s.setFilter cx num f).Canonical := by
  simp [State.setFilter, hs]

@[simp] theorem copyLine_canonical (cx : Nat) (a : Active) (r : MigRec) : (s.copyLine cx a r).Canonical := by
  unfold State.copyLine
  grind [eccLine_canonical, mark_canonical, modActive_canonical, rouse_canonical, useCh_canonical, wrMem_canonical]

@[simp] theorem migWrite_canonical (cx : Nat) (a : Active) : (s.migWrite cx a).Canonical := by
  simp [State.migWrite, hs]

@[simp] theorem migEnd_canonical (cx : Nat) (a : Active) (status rounds dirty : Nat) :
    (s.migEnd cx a status rounds dirty).Canonical := by
  simp [State.migEnd, hs]

@[simp] theorem migStart_canonical (cx : Nat) (a : Active) (va : Word) : (s.migStart cx a va).Canonical := by
  have hcare := carePlace_canonical hs cx a.cmd.num 0 va true
  unfold State.migStart
  split
  case h_1 heq => exact hcare.of_eq heq
  case h_2 heq => exact modActive_canonical (hcare.of_eq heq) _ _ _ _
  case h_3 heq =>
    have hu := rdPlace_canonical (hcare.of_eq heq)
    grind [modActive_canonical, migEnd_canonical, setFilter_canonical, setMigr_canonical]

@[simp] theorem migMark_canonical (cx : Nat) (a : Active) : (s.migMark cx a).Canonical := by
  unfold State.migMark
  split <;> simp [hs]

@[simp] theorem migRound_canonical (cx : Nat) (a : Active) : (s.migRound cx a).Canonical := by
  unfold State.migRound
  grind [copyLine_canonical, migEnd_canonical, migMark_canonical, modActive_canonical, report_canonical,
    setFilter_canonical, setMigr_canonical]

@[simp] theorem execMigrateExecute_goesOn (cx : Nat) : GoesOn (execMigrateExecute cx s) := by
  unfold execMigrateExecute
  split <;> simp [hs]

@[simp] theorem migClose_canonical (cx : Nat) (a : Active) (n : Nat) : (s.migClose cx a n).Canonical := by
  unfold State.migClose
  grind [confirmToken_canonical, copyLine_canonical, migEnd_canonical, modActive_canonical, rouse_canonical,
    setFilter_canonical, setMigr_canonical, wrMem_canonical]

@[simp] theorem execMigrateClose_goesOn (cx : Nat) : GoesOn (execMigrateClose cx s) := by
  simp only [execMigrateClose, goesOn_next]
  split
  · exact hs
  · refine getD_canonical hs fun u hu => ?_
    obtain ⟨n, -, rfl⟩ := Option.map_eq_some_iff.1 hu
    exact migClose_canonical hs cx _ n

@[simp] theorem wrCode_canonical (host : Bool) (p m code : Nat) : (s.wrCode host p m code).Canonical := by
  simp [State.wrCode, hs]
@[simp] theorem scrubWrite_canonical (cx : Nat) (a : Active) : (s.scrubWrite cx a).Canonical := by
  simp [State.scrubWrite, hs]

@[simp] theorem scrubEnd_canonical (cx : Nat) (a : Active) (status done : Nat) :
    (s.scrubEnd cx a status done).Canonical := by
  simp [State.scrubEnd, hs]

@[simp] theorem restCodes_canonical (cx : Nat) (a : Active) (fuel m : Nat) :
    (State.restCodes cx a fuel m s).Canonical := by
  induction fuel generalizing s m with
  | zero => exact hs
  | succ fuel ih =>
    have hcare := carePlace_canonical hs cx a.cmd.num (2 * m + 2) (a.bitmap m) true
    unfold State.restCodes
    dsimp only
    split
    · exact scrubEnd_canonical hs _ _ _ _
    · split
      case h_1 heq => exact modActive_canonical (hcare.of_eq heq) _ _ _ _
      case h_2 heq => exact scrubEnd_canonical (hcare.of_eq heq) _ _ _ _
      case h_3 heq => exact ih (wrCode_canonical (hcare.of_eq heq) _ _ _ _) _

@[simp] theorem scrubStop_canonical (cx : Nat) (a : Active) : (s.scrubStop cx a).Canonical := by
  simp [State.scrubStop, hs]

@[simp] theorem scrubStart_canonical (cx : Nat) (a : Active) (va : Word) : (s.scrubStart cx a va).Canonical := by
  have hcare := carePlace_canonical hs cx a.cmd.num 0 va true
  unfold State.scrubStart
  split
  case h_1 heq => exact hcare.of_eq heq
  case h_2 heq => exact modActive_canonical (hcare.of_eq heq) _ _ _ _
  case h_3 heq =>
    have hu := rdPlace_canonical (hcare.of_eq heq)
    grind [modActive_canonical, scrubEnd_canonical]

@[simp] theorem scrubNext_canonical (cx : Nat) (a : Active) (ecc : Ecc) : (s.scrubNext cx a ecc).Canonical := by
  have hcare := carePlace_canonical hs cx a.cmd.num (2 * a.units + 1)
    (BitVec.ofNat 64 (field a.record 0 8 + 128 * a.units)) false
  unfold State.scrubNext
  extract_lets m
  split
  case h_1 heq => exact hcare.of_eq heq
  case h_2 heq => exact scrubStop_canonical (hcare.of_eq heq) _ _
  case h_3 t heq =>
    have hmap := carePlace_canonical (hcare.of_eq heq) cx a.cmd.num (2 * m + 2) (a.bitmap m) true
    split
    case h_1 heq => exact hmap.of_eq heq
    case h_2 heq => exact scrubStop_canonical (hmap.of_eq heq) _ _
    case h_3 heq =>
      have hu : State.Canonical _ := hmap.of_eq heq
      grind [rouse_canonical, useCh_canonical, checked_canonical, wrCode_canonical, modActive_canonical,
        scrubEnd_canonical]

@[simp] theorem execScrubLine_goesOn (cx : Nat) (ecc : Ecc) : GoesOn (execScrubLine cx ecc s) := by
  unfold execScrubLine
  split <;> simp [hs]

@[simp] theorem execPatrol_goesOn (die stack row : Nat) (line : Nat) (ecc : Ecc) :
    GoesOn (execPatrol die stack row line ecc s) := by
  simp [execPatrol, hs]

@[simp] theorem execPatrolPeriodEnd_goesOn (die stack : Nat) : GoesOn (execPatrolPeriodEnd die stack s) := by
  simp [execPatrolPeriodEnd, hs]
@[simp] theorem execRetrain_goesOn (die stack : Nat) : GoesOn (execRetrain die stack s) := by
  simp [execRetrain, hs]
@[simp] theorem execRetrainEnd_goesOn (die stack : Nat) : GoesOn (execRetrainEnd die stack s) := by
  simp [execRetrainEnd, hs]
@[simp] theorem execPStateChange_goesOn (die : Nat) (p : BitVec 2) : GoesOn (execPStateChange die p s) := by
  simp [execPStateChange, hs]
@[simp] theorem execC1Entry_goesOn (core : Nat) : GoesOn (execC1Entry core s) := by
  simp [execC1Entry, hs]
@[simp] theorem execC1Exit_goesOn (core : Nat) : GoesOn (execC1Exit core s) := by
  simp [execC1Exit, hs]

@[simp] theorem execC3Entry_goesOn (die : Nat) : GoesOn (execC3Entry die s) := by
  refine (goesOn_next _).2 ((canonical_ite _ _ _).2 ⟨fun _ => hs, fun _ => ?_⟩)
  refine (modHub_canonical _).2 ((modDie_canonical _ _).2 (foldl_canonical hs fun t g ht => ?_))
  split <;> simp [ht]

@[simp] theorem execC3Exit_goesOn (die : Nat) : GoesOn (execC3Exit die s) := by
  simp [execC3Exit, hs]

/-- Power off keeps the package's own memory out, and host memory as it is. -/
@[simp] theorem execPowerOff_goesOn : GoesOn (execPowerOff s) := by
  obtain ⟨hmem, hpois, hhost, hhpois⟩ := hs
  exact (goesOn_next _).2 ⟨smWf_filter _ hmem, smWf_filter _ hpois, hhost, hhpois⟩

@[simp] theorem readToken_canonical (addr : Word) : (s.readToken addr).2.Canonical := by
  simp [State.readToken, hs]
@[simp] theorem execDebugToken_goesOn (addr : Word) : GoesOn (execDebugToken addr s) := by
  simp [execDebugToken, hs]
@[simp] theorem scramble_canonical : (s.scramble).Canonical :=
  foldl_canonical hs fun _ _ ht => wrMem_canonical (freeBytes_canonical ht 1) _ _ _

@[simp] theorem execReturnRecord_goesOn (addr : Word) : GoesOn (execReturnRecord addr s) := by
  have ht := readToken_canonical hs addr
  refine (goesOn_next _).2 ((canonical_ite _ _ _).2 ⟨fun _ => ht, fun _ => ?_⟩)
  exact (modHub_canonical _).2 (scramble_canonical (foldl_canonical ht fun _ p hu => dropPart_canonical hu p))

@[simp] theorem execDebugRequest_goesOn (part : Nat) (act : DebugAct) (core : Nat) :
    GoesOn (execDebugRequest part act core s) := by
  unfold execDebugRequest
  (repeat' split) <;> simp [hs]

@[simp] theorem configure_canonical (addr : Word) (portsOk : Bool) : (s.configure addr portsOk).Canonical := by
  unfold State.configure
  generalize s.resolve true addr.toNat = place
  obtain ⟨h, a⟩ := place
  have ht := rdPlace_canonical hs h a 512
  dsimp -zeta only
  generalize s.rdPlace h a 512 = q at *
  obtain ⟨bs, t⟩ := q
  dsimp -zeta only at ht ⊢
  extract_lets key p u
  split
  · exact (modHub_canonical _).2 ht
  · have hu : u.Canonical := foldl_canonical ((modHub_canonical _).2 ht) fun _ _ hv => hv
    split
    · exact (modHub_canonical _).2 hu
    · exact (modHub_canonical _).2 (foldl_canonical hu fun _ _ hv => hv)

@[simp] theorem execConfigurationRecord_goesOn (rec : Word × Bool) : GoesOn (execConfigurationRecord rec s) := by
  simp only [execConfigurationRecord, goesOn_next]
  grind [configure_canonical, modHub_canonical]

@[simp] theorem execBoot_goesOn (up : BringUp) (hdm : Nat) : GoesOn (execBoot up hdm s) := by
  refine (goesOn_next _).2 ((canonical_ite _ _ _).2 ⟨fun _ => hs, fun _ => ?_⟩)
  extract_lets s₁
  have ht := freeBytes_canonical (s := s₁) hs 48
  split
  · exact hs
  · generalize s₁.freeBytes 48 = q at *
    obtain ⟨d, t⟩ := q
    dsimp -zeta only at ht ⊢
    extract_lets t₁ t₂
    have ht₁ : t₁.Canonical := (modHub_canonical _).2 ht
    have ht₂ : t₂.Canonical := foldl_canonical ht₁ fun _ _ hu => hu
    split
    · exact (modHub_canonical _).2 ht₁
    · split
      · exact (modHub_canonical _).2 ht₁
      · split
        · exact ht₂
        · exact configure_canonical ht₂ _ _

@[simp] theorem execAttest_goesOn (addr : Word) : GoesOn (execAttest addr s) :=
  (goesOn_next _).2 (wrPlace_canonical (takeFree_canonical (rdPlace_canonical ((modHub_canonical _).2 hs) _ _ _)) _ _ _)

end

end Sys2Proof.Machine

end

