-- ==== Sys2Proof/Proofs/CanonicalStep.lean ====
section
/-! # Canonical memory: every instruction and every step (R4, R37) -/

namespace Sys2Proof.Machine
open Sys2Proof

variable {s : State}

/-! ### Every instruction and every step -/

/-- A control instruction in a bundle of its own runs its slot. -/
theorem exec_of_controlSlot {i : Instr} {sl : Slot} (h : controlSlot i = some sl) :
    ∃ k, exec i s = .next (runSlot k sl s) := by
  cases i <;> cases h <;> exact ⟨_, rfl⟩

/-- A lane operation in a packet of its own. -/
theorem exec_of_laneSlot {i : Instr} {o : KSlot} (h : laneSlot i = some o) : exec i s = .next (runLane o s) := by
  cases i <;> cases h <;> rfl

theorem exists_exec_eq_next (i : Instr) (s : State) : ∃ t, exec i s = .next t := by
  cases i <;> exact ⟨_, rfl⟩

/-- Every instruction and event keeps memory in canonical form: a control instruction by its slot, an operation of the
array by its effect at issue, a routine word since it changes its core alone, an event by its own meaning. -/
theorem exec_goesOn (hs : s.Canonical) (i : Instr) : GoesOn (exec i s) := by
  match hc : controlSlot i, hl : laneSlot i with
  | some sl, _ =>
    obtain ⟨k, hk⟩ := exec_of_controlSlot (s := s) hc
    exact ⟨_, hk, runSlot_canonical (controlSlot_keeps hc) k hs⟩
  | none, some o => exact ⟨_, exec_of_laneSlot hl, runLane_canonical hs (laneSlot_keeps hl)⟩
  | none, none =>
    cases i <;> cases hc <;> cases hl
    case nop => exact ⟨_, rfl, runSlot_canonical slotNop_keeps 0 hs⟩
    case pset | psetImm | psetHi | psetAdd | mpost | loop | loopP | bra | kJmp | kend | ktrap | idle | mwaitk =>
      exact ⟨_, rfl, runLane_canonical hs (seqSlot_keeps _)⟩
    case movePair | loopr | brg | jmpr | setw | aload | bload | expo | pass | aswapExchange | aswapStore | aswapSpill |
        aclr | xdep | done | addt | cmpt | mile =>
      exact ⟨_, rfl, planeRun_canonical hs _ _⟩
    case partCreate => exact ⟨_, rfl, request_canonical hs partCreate_keeps _ _⟩
    case partDestroy => exact ⟨_, rfl, request_canonical hs partDestroy_keeps _ _⟩
    case amapWrite => exact ⟨_, rfl, request_canonical hs amapWrite_keeps _ _⟩
    case pasidSet => exact ⟨_, rfl, request_canonical hs pasidSet_keeps _ _⟩
    case saveSet => exact ⟨_, rfl, request_canonical hs saveSet_keeps _ _⟩
    case queuePriv => exact ⟨_, rfl, request_canonical hs queuePriv_keeps _ _⟩
    case taskEnd => exact ⟨_, rfl, request_canonical hs taskEnd_keeps _ _⟩
    case fringSet => exact ⟨_, rfl, request_canonical hs fringSet_keeps _ _⟩
    all_goals simp [exec, hs]

theorem takeTurn_goesOn (hs : s.Canonical) (t : Turn) : GoesOn (takeTurn t s) := by
  cases t with
  | event i => exact exec_goesOn hs i
  | bundle g =>
    refine (goesOn_next _).2 ?_
    split
    · exact hs
    · exact bundleTurn_canonical hs _
  | packet g => exact (goesOn_next _).2 (issuePacket_canonical hs g)
  | routine g => exact (goesOn_next _).2 (routineStep_canonical hs g)
  | ac => exact (goesOn_next _).2 (packageAc_canonical hs)
  | mreq v => exact (goesOn_next _).2 (writeMreq_canonical hs v)

theorem step_goesOn (hs : s.Canonical) : GoesOn (step s) := by
  unfold step
  split
  · exact (goesOn_next _).2 (bundleTurn_canonical hs _)
  · refine takeTurn_goesOn ?_ _
    exact hs

theorem exists_takeTurn_eq_next (t : Turn) (s : State) : ∃ u, takeTurn t s = .next u := by
  cases t with
  | event i => exact exists_exec_eq_next i s
  | bundle g | packet g | routine g | ac | mreq v => exact ⟨_, rfl⟩

theorem exists_step_eq_next (s : State) : ∃ t, step s = .next t := by
  unfold step
  split
  · exact ⟨_, rfl⟩
  · exact exists_takeTurn_eq_next _ _

/-- Settles O42: every step goes on, and one lemma per function of the model that gives a state carries the canonical
form of the four maps from the state before to the state after. -/
theorem memoryStaysCanonical : Obligations.MemoryStaysCanonical := by
  intro s
  obtain ⟨t, ht⟩ := exists_step_eq_next s
  refine ⟨t, ht, fun hs => ?_⟩
  obtain ⟨u, hu, huc⟩ := step_goesOn ((canonical_iff_wf s).2 hs)
  obtain rfl : t = u := Host.Outcome.next.inj (ht.symm.trans hu)
  exact (canonical_iff_wf t).1 huc

end Sys2Proof.Machine

end

