-- ==== Sys2Proof/Proofs/FloatValues.lean ====
section
/-! # The values of floating-point encodings (R43, R44) -/

namespace Sys2Proof.Machine
open Sys2Proof Sys2Proof.Claims

/-! ### A format of the model as a format of Table 2.1 -/

/-- The row of Table 2.1 that a format of the model stands for. -/
def Fmt.format (f : Fmt) : Format :=
  ⟨f.width, f.fbits, f.ebits, f.bias, f.big false, f.nan, if f.infs then some (f.inf false) else none⟩

theorem format_f32 : f32.format = F32 := rfl
theorem format_f16 : f16.format = F16 := rfl
theorem format_bf16 : bf16.format = BF16 := rfl
theorem format_e5m2 : e5m2.format = E5M2 := rfl
theorem format_e4m3 : e4m3.format = E4M3 := rfl

/-- What the parameters of a format of Table 2.1 have to do with each other. -/
structure Fmt.Regular (f : Fmt) : Prop where
  width_eq : f.width = f.ebits + f.fbits + 1
  one_lt_ebits : 1 < f.ebits
  fbits_pos : 0 < f.fbits
  bias_pos : 0 < f.bias
  le_maxM : 2 ^ f.fbits ≤ f.maxM
  maxM_lt : f.maxM < 2 ^ (f.fbits + 1)
  emin_le_maxE : f.emin - f.fbits ≤ f.maxE
  big_eq : (f.big false : ℤ) + 2 ^ f.fbits = (f.maxE + f.bias + f.fbits) * 2 ^ f.fbits + f.maxM
  big_lt : f.big false < 2 ^ (f.ebits + f.fbits)
  nan_lt : f.nan < 2 ^ f.width
  nan_eq : f.infs = false → f.nan + 1 = 2 ^ (f.ebits + f.fbits)

theorem regular_f32 : f32.Regular := by constructor <;> decide
theorem regular_f16 : f16.Regular := by constructor <;> decide
theorem regular_bf16 : bf16.Regular := by constructor <;> decide
theorem regular_e5m2 : e5m2.Regular := by constructor <;> decide
theorem regular_e4m3 : e4m3.Regular := by constructor <;> decide

/-! ### What a value of the model stands for -/

/-- The value of the model as a number with its sign, an infinity or a NaN. -/
def FVal.toExt : FVal → Ext
  | .nan s => .nan s
  | .inf s => .inf s
  | .fin s m e => .num s ((term s m : ℚ) * 2 ^ e)

@[simp] theorem toExt_nan (s : Bool) : (FVal.nan s).toExt = .nan s := rfl
@[simp] theorem toExt_inf (s : Bool) : (FVal.inf s).toExt = .inf s := rfl
@[simp] theorem toExt_fin (s : Bool) (m : Nat) (e : Int) :
    (FVal.fin s m e).toExt = .num s ((term s m : ℚ) * 2 ^ e) := rfl

theorem cast_term (s : Bool) (m : Nat) : ((term s m : ℤ) : ℚ) = (if s then -1 else 1) * m := by
  cases s <;> simp [term]

@[simp] theorem term_eq_zero {s : Bool} {m : Nat} : term s m = 0 ↔ m = 0 := by
  cases s <;> simp [term]

@[simp] theorem value_toExt_eq_zero {s : Bool} {m : Nat} {e : Int} : (term s m : ℚ) * 2 ^ e = 0 ↔ m = 0 := by
  simp [zpow_ne_zero]

@[simp] theorem opposite_toExt (v : FVal) : v.toExt.opposite = v.flip.toExt := by
  cases v with
  | nan s | inf s => rfl
  | fin s m e => cases s <;> simp [FVal.flip, Ext.opposite, term]

@[simp] theorem signals_toExt (v : FVal) : v.toExt.signals = v.isSnan := by cases v <;> rfl

@[simp] theorem isNeg_toExt_fin (s : Bool) (m : Nat) (e : Int) : ((FVal.fin s m e).toExt).isNeg = s := rfl

theorem toExt_eq_nan {v : FVal} {s : Bool} : v.toExt = .nan s ↔ v = .nan s := by cases v <;> simp
theorem toExt_eq_inf {v : FVal} {s : Bool} : v.toExt = .inf s ↔ v = .inf s := by cases v <;> simp

/-! ### Decoding -/

/-- The exponent field and the fraction field of an encoding. -/
def Fmt.expo (f : Fmt) (w : Nat) : Nat := w / 2 ^ f.fbits % 2 ^ f.ebits
def Fmt.fraction (f : Fmt) (w : Nat) : Nat := w % 2 ^ f.fbits

theorem expo_lt (f : Fmt) (w : Nat) : f.expo w < 2 ^ f.ebits := Nat.mod_lt _ (by positivity)
theorem fraction_lt (f : Fmt) (w : Nat) : f.fraction w < 2 ^ f.fbits := Nat.mod_lt _ (by positivity)

/-- The value of a finite encoding, as its significand and the exponent of its last place. -/
theorem val_eq (f : Fmt) (w : Nat) :
    f.format.val w = if f.expo w = 0
      then (term (f.format.negative w) (f.fraction w) : ℚ) * 2 ^ (1 - f.bias - f.fbits : ℤ)
      else (term (f.format.negative w) (2 ^ f.fbits + f.fraction w) : ℚ) * 2 ^ (f.expo w - f.bias - f.fbits : ℤ) := by
  have two : (2 : ℚ) ≠ 0 := by norm_num
  have hs : f.format.val w = (if f.format.negative w then -1 else 1) *
      (if f.expo w = 0 then (f.fraction w : ℚ) / 2 ^ f.fbits * 2 ^ (1 - f.bias : ℤ)
        else (1 + (f.fraction w : ℚ) / 2 ^ f.fbits) * 2 ^ (f.expo w - f.bias : ℤ)) := by
    simp only [Format.val, Format.negative, decide_eq_true_eq]; rfl
  simp only [hs, cast_term, zpow_sub₀ two, zpow_natCast]
  split_ifs <;> (push_cast; field_simp)

section
variable {f : Fmt} (hf : f.Regular)
include hf

theorem mod_pow_width (w : Nat) : w % 2 ^ (f.width - 1) = f.expo w * 2 ^ f.fbits + f.fraction w := by
  have hw : f.width - 1 = f.fbits + f.ebits := by have := hf.width_eq; omega
  rw [hw, pow_add, Nat.mod_mul, Fmt.expo, Fmt.fraction]; ring

theorem fraction_msb_eq_zero (w : Nat) :
    f.fraction w / 2 ^ (f.fbits - 1) = 0 ↔ w / 2 ^ (f.fbits - 1) % 2 = 0 := by
  obtain ⟨k, hk⟩ : ∃ k, f.fbits = k + 1 := ⟨f.fbits - 1, by have := hf.fbits_pos; omega⟩
  simp only [Fmt.fraction, hk, Nat.add_sub_cancel, pow_succ, Nat.mod_mul_right_div_self]

omit hf in
/-- Encodings stand in the order of their exponent and fraction fields. -/
theorem expo_add_le (w : Nat) : f.expo w = 2 ^ f.ebits - 1 ∨
    f.expo w * 2 ^ f.fbits + 2 ^ f.fbits ≤ (2 ^ f.ebits - 1) * 2 ^ f.fbits := by
  have := expo_lt f w
  refine or_iff_not_imp_left.2 fun h => ?_
  rw [← Nat.succ_mul]
  exact Nat.mul_le_mul_right _ (by omega)

theorem mod_eq_inf_iff (w : Nat) :
    w % 2 ^ (f.width - 1) = f.inf false ↔ f.expo w = 2 ^ f.ebits - 1 ∧ f.fraction w = 0 := by
  have hM := fraction_lt f w
  have hi : f.inf false = (2 ^ f.ebits - 1) * 2 ^ f.fbits := by simp [Fmt.inf, Fmt.sign]
  rw [mod_pow_width hf, hi]
  rcases expo_add_le (f := f) w with h | h
  · simp [h]
  · constructor
    · omega
    · rintro ⟨h1, h2⟩; simp [h1, h2]

theorem mod_le_big_iff (w : Nat) : w % 2 ^ (f.width - 1) ≤ f.big false ↔
    ¬ (f.expo w = 2 ^ f.ebits - 1 ∧ (f.infs = true ∨ f.fraction w = 2 ^ f.fbits - 1)) := by
  have hM := fraction_lt f w
  have hX : (2 ^ f.ebits - 1) * 2 ^ f.fbits + 2 ^ f.fbits = 2 ^ (f.ebits + f.fbits) := by
    rw [← Nat.succ_mul, pow_add, Nat.succ_eq_add_one, Nat.sub_add_cancel Nat.one_le_two_pow]
  have hB : 2 ≤ 2 ^ f.fbits := Nat.le_self_pow hf.fbits_pos.ne' 2
  have hT : 0 < (2 ^ f.ebits - 1) * 2 ^ f.fbits := by
    have : 2 ≤ 2 ^ f.ebits := Nat.le_self_pow (by have := hf.one_lt_ebits; omega) 2
    exact Nat.mul_pos (by omega) (by positivity)
  rw [mod_pow_width hf]
  have hn := hf.nan_eq
  generalize 2 ^ (f.ebits + f.fbits) = P at *
  cases hi : f.infs
  · have hn := hn hi
    have hb : f.big false = f.nan - 1 := by simp [Fmt.big, Fmt.sign, hi]
    rcases expo_add_le (f := f) w with h | h
    · rw [h]
      generalize (2 ^ f.ebits - 1) * 2 ^ f.fbits = T at *
      simp only [true_and, Bool.false_eq_true, false_or]
      omega
    · constructor
      · rintro _ ⟨h1, _⟩; rw [h1] at h; omega
      · omega
  · have hb : f.big false = (2 ^ f.ebits - 1) * 2 ^ f.fbits - 1 := by simp [Fmt.big, Fmt.sign, hi]
    rcases expo_add_le (f := f) w with h | h
    · rw [h]
      generalize (2 ^ f.ebits - 1) * 2 ^ f.fbits = T at *
      simp only [true_or, and_true, not_true, iff_false]
      omega
    · constructor
      · rintro _ ⟨h1, _⟩; rw [h1] at h; omega
      · omega

/-- What an encoding stands for, by its fields (R44). -/
theorem ext_eq (w : Nat) : f.format.ext w =
    if f.expo w = 2 ^ f.ebits - 1 ∧ f.infs = true then
      if f.fraction w = 0 then .inf (f.format.negative w) else .nan (f.fraction w / 2 ^ (f.fbits - 1) = 0)
    else if f.expo w = 2 ^ f.ebits - 1 ∧ f.fraction w = 2 ^ f.fbits - 1 then .nan false
    else .num (f.format.negative w) (f.format.val w) := by
  have hbig := mod_le_big_iff hf w
  have hinf := mod_eq_inf_iff hf w
  have hext : f.format.ext w = if some (w % 2 ^ (f.width - 1)) = (if f.infs then some (f.inf false) else none)
      then .inf (f.format.negative w)
      else if w % 2 ^ (f.width - 1) ≤ f.big false then .num (f.format.negative w) (f.format.val w)
      else .nan ((if f.infs then some (f.inf false) else none).isSome && w / 2 ^ (f.fbits - 1) % 2 = 0) := rfl
  rw [hext]
  have hmsb := fraction_msb_eq_zero hf w
  by_cases hE : f.expo w = 2 ^ f.ebits - 1 <;> cases hi : f.infs <;>
    simp only [hE, hi, true_and, and_true, not_true, Bool.false_eq_true, false_and, and_false, false_or, true_or,
      not_false_eq_true, iff_true, iff_false, reduceCtorEq, if_false, if_true, Option.some.injEq] at hbig hinf ⊢
  · simp only [hbig, ite_not, Option.isSome_none, Bool.false_and]
  · simp only [hinf, hbig, hmsb, if_false, Option.isSome_some, Bool.true_and]
  · rw [if_pos hbig]
  · rw [if_neg hinf, if_pos hbig]

omit hf in
theorem decode_eq (f : Fmt) (w : Nat) : f.decode w = if f.expo w = 2 ^ f.ebits - 1 ∧ f.infs = true then
      if f.fraction w = 0 then .inf (f.format.negative w) else .nan (f.fraction w / 2 ^ (f.fbits - 1) = 0)
    else if f.expo w = 2 ^ f.ebits - 1 ∧ f.fraction w = 2 ^ f.fbits - 1 then .nan false
    else if f.expo w = 0 then .fin (f.format.negative w) (f.fraction w) (1 - f.bias - f.fbits)
    else .fin (f.format.negative w) (2 ^ f.fbits + f.fraction w) (f.expo w - f.bias - f.fbits) := rfl

/-- Decoding gives what an encoding stands for (R44). -/
theorem toExt_decode (w : Nat) : (f.decode w).toExt = f.format.ext w := by
  rw [decode_eq, ext_eq hf, val_eq]
  split_ifs <;> rfl

/-- The significand and exponent of a finite encoding: a normal one, or a smaller one at the least exponent. -/
theorem decode_fin_bounds {w : Nat} {s : Bool} {m : Nat} {e : Int} (h : f.decode w = .fin s m e) :
    (m < 2 ^ f.fbits ∧ e = f.emin - f.fbits ∨ 2 ^ f.fbits ≤ m) ∧ m < 2 ^ (f.fbits + 1) ∧ f.emin - f.fbits ≤ e ∧
      e + f.bias + f.fbits < 2 ^ f.ebits ∧ (f.infs = true → e + f.bias + f.fbits + 1 < 2 ^ f.ebits) := by
  have hE := expo_lt f w
  have hM := fraction_lt f w
  have h4 : 2 ^ 2 ≤ 2 ^ f.ebits := Nat.pow_le_pow_right two_pos hf.one_lt_ebits
  rw [decode_eq] at h
  rw [pow_succ]
  zify at h4 hE
  simp only [Fmt.emin]
  split_ifs at h with h1 h2 h3 h4 <;> obtain ⟨rfl, rfl, rfl⟩ := FVal.fin.inj h
  · exact ⟨.inl ⟨hM, rfl⟩, by omega, le_rfl, by omega, fun _ => by omega⟩
  · refine ⟨.inr (by omega), by omega, by omega, by omega, fun hi => ?_⟩
    have : f.expo w ≠ 2 ^ f.ebits - 1 := fun h => h1 ⟨h, hi⟩
    zify [Nat.one_le_two_pow] at this
    omega

end

end Sys2Proof.Machine

end

