-- ==== Sys2Proof/Proofs/FloatRounding.lean ====
section
/-! # Rounding once to a format (R12, R46, R47) -/

namespace Sys2Proof.Machine
open Sys2Proof Sys2Proof.Claims

/-! ### Rounding to a natural number -/

section
variable {mode : Rm} {neg : Bool} {y : ℝ} {n N : ℕ}

/-- A magnitude is rounded by less than 1. -/
theorem abs_sub_lt_one_of_rounded (h : Rounded mode neg y n) : |y - n| < 1 := by
  cases mode with
  | rne =>
    rcases h with h | ⟨h, -⟩ <;> linarith
  | rz => exact abs_sub_lt_iff.2 ⟨by linarith [h.2], by linarith [h.1]⟩
  | ru | rd => cases neg <;> exact abs_sub_lt_iff.2 ⟨by linarith [h.1, h.2], by linarith [h.1, h.2]⟩

theorem rounded_le_of_le (h : Rounded mode neg y n) (hy : y ≤ N) : n ≤ N := by
  have := (abs_sub_lt_iff.1 (abs_sub_lt_one_of_rounded h)).2
  have : (n : ℝ) < N + 1 := by linarith
  exact Nat.lt_succ_iff.1 (by exact_mod_cast this)

theorem le_rounded_of_le (h : Rounded mode neg y n) (hy : N ≤ y) : N ≤ n := by
  have := (abs_sub_lt_iff.1 (abs_sub_lt_one_of_rounded h)).1
  have : (N : ℝ) < n + 1 := by linarith
  exact Nat.lt_succ_iff.1 (by exact_mod_cast this)

/-- A natural number is rounded to itself. -/
theorem rounded_natCast (mode : Rm) (neg : Bool) (n : ℕ) : Rounded mode neg n n := by
  cases mode <;> cases neg <;> simp [Rounded]

theorem eq_of_rounded_natCast (h : Rounded mode neg (N : ℝ) n) : n = N :=
  le_antisymm (rounded_le_of_le h le_rfl) (le_rounded_of_le h le_rfl)

/-- Rounding up or down by the remainder r of s after k (Table 0.4). -/
theorem rounded_add_div (mode : Rm) (neg : Bool) (k : ℕ) {r s : ℕ} (hr : r < s) :
    Rounded mode neg (k + (r : ℝ) / s) (if roundUp mode neg k r s then k + 1 else k) := by
  have hs : (0 : ℝ) < s := by exact_mod_cast (by omega : 0 < s)
  have h0 : (0 : ℝ) ≤ (r : ℝ) / s := by positivity
  have h1 : (r : ℝ) / s < 1 := (div_lt_one hs).2 (by exact_mod_cast hr)
  have floor : (k : ℝ) ≤ k + (r : ℝ) / s ∧ k + (r : ℝ) / s < (k : ℝ) + 1 := ⟨by linarith, by linarith⟩
  have ceil : k + (r : ℝ) / s ≤ (if r ≠ 0 then k + 1 else k : ℕ) ∧
      ((if r ≠ 0 then k + 1 else k : ℕ) : ℝ) < k + (r : ℝ) / s + 1 := by
    rcases Nat.eq_zero_or_pos r with rfl | h
    · simp
    · have : (0 : ℝ) < (r : ℝ) / s := div_pos (by exact_mod_cast h) hs
      rw [if_pos h.ne']; push_cast
      exact ⟨by linarith, by linarith⟩
  cases mode with
  | rne =>
    rcases lt_trichotomy s (2 * r) with h | h | h
    · have : 1 / 2 < (r : ℝ) / s := by
        rw [lt_div_iff₀ hs]; have : (s : ℝ) < 2 * r := by exact_mod_cast h
        linarith
      simp only [roundUp, h, decide_true, Bool.true_or, if_true, Rounded]
      push_cast
      exact .inl (abs_sub_lt_iff.2 ⟨by linarith, by linarith⟩)
    · have hhalf : (r : ℝ) / s = 1 / 2 := by
        rw [div_eq_iff hs.ne']; have : (s : ℝ) = 2 * r := by exact_mod_cast h
        linarith
      have hup : roundUp .rne neg k r s = decide (k % 2 = 1) := by simp [roundUp, ← h]
      simp only [hup, decide_eq_true_eq, hhalf, Rounded]
      split_ifs with hk
      · exact .inr ⟨by push_cast; norm_num, by omega⟩
      · exact .inr ⟨by norm_num, by omega⟩
    · have : (r : ℝ) / s < 1 / 2 := by
        rw [div_lt_iff₀ hs]; have : (2 : ℝ) * r < s := by exact_mod_cast h
        linarith
      have hup : roundUp .rne neg k r s = false := by simp [roundUp]; omega
      simp only [hup, Rounded, Bool.false_eq_true, if_false, add_sub_cancel_left, abs_of_nonneg h0]
      exact .inl this
  | rz => simpa [roundUp, Rounded] using floor
  | ru => cases neg with
    | true => simpa [roundUp, Rounded] using floor
    | false => simpa [roundUp, Rounded] using ceil
  | rd => cases neg with
    | true => simpa [roundUp, Rounded] using ceil
    | false => simpa [roundUp, Rounded] using floor

/-- A quotient is rounded by what its remainder says. -/
theorem rounded_div (mode : Rm) (neg : Bool) (m : ℕ) {s : ℕ} (hs : 0 < s) :
    Rounded mode neg ((m : ℝ) / s) (if roundUp mode neg (m / s) (m % s) s then m / s + 1 else m / s) := by
  have hy : (m : ℝ) / s = (m / s : ℕ) + (m % s : ℕ) / s := by
    have : (s : ℝ) ≠ 0 := by exact_mod_cast hs.ne'
    rw [div_eq_iff this, add_mul, div_mul_cancel₀ _ this]
    exact_mod_cast (Nat.div_add_mod' m s).symm
  exact hy ▸ rounded_add_div mode neg _ (Nat.mod_lt _ hs)

end

/-! ### Rounding to a multiple of a power of 2 -/

theorem two_zpow_div_two_zpow {e q : ℤ} (h : q ≤ e) : (2 : ℝ) ^ e / 2 ^ q = ((2 ^ (e - q).toNat : ℕ) : ℝ) := by
  rw [← zpow_sub₀ two_ne_zero]
  push_cast
  rw [← zpow_natCast, Int.toNat_of_nonneg (by omega)]

section
variable (mode : Rm) (neg : Bool) (m : Nat) (e q : Int)

/-- The multiple of 2^q that m × 2^e is rounded to. -/
theorem rounded_roundAt : Rounded mode neg ((m : ℝ) * 2 ^ e / 2 ^ q) (roundAt mode neg m e q).1 := by
  unfold roundAt
  split_ifs with h
  · rw [mul_div_assoc, two_zpow_div_two_zpow h, ← Nat.cast_mul]
    exact rounded_natCast ..
  · have : (m : ℝ) * 2 ^ e / 2 ^ q = m / ((2 ^ (q - e).toNat : ℕ) : ℝ) := by
      rw [← two_zpow_div_two_zpow (by omega), div_div_eq_mul_div]
    rw [this]
    exact rounded_div mode neg m (by positivity)

/-- The rounding is exact where its value is the value rounded. -/
theorem roundAt_exact_iff :
    (roundAt mode neg m e q).2 = false ↔ (m : ℝ) * 2 ^ e = (roundAt mode neg m e q).1 * 2 ^ q := by
  have hround := rounded_roundAt mode neg m e q
  rw [← div_eq_iff (by positivity)]
  unfold roundAt at *
  split_ifs at * with h
  · rw [mul_div_assoc, two_zpow_div_two_zpow h, ← Nat.cast_mul]
    simp
  · have hs : (m : ℝ) * 2 ^ e / 2 ^ q = m / ((2 ^ (q - e).toNat : ℕ) : ℝ) := by
      rw [← two_zpow_div_two_zpow (by omega), div_div_eq_mul_div]
    rw [hs] at hround ⊢
    generalize hS : 2 ^ (q - e).toNat = S at *
    have hS0 : S ≠ 0 := by rw [← hS]; positivity
    simp only [decide_eq_false_iff_not, not_not]
    constructor
    · intro hr
      have hk : (m : ℝ) / S = (m / S : ℕ) := (Nat.cast_div (Nat.dvd_of_mod_eq_zero hr) (by exact_mod_cast hS0)).symm
      rw [hk] at hround ⊢
      exact congrArg _ (eq_of_rounded_natCast hround).symm
    · intro h
      rw [div_eq_iff (by exact_mod_cast hS0)] at h
      rw [(by exact_mod_cast h : m = _ * S), Nat.mul_mod_left]

end

theorem bitLen_pos {m : Nat} (hm : m ≠ 0) : 0 < bitLen m := by simp [bitLen, hm]

theorem two_pow_le_of_bitLen {m : Nat} (hm : m ≠ 0) : 2 ^ (bitLen m - 1) ≤ m := by
  simpa [bitLen, hm] using Nat.log2_self_le hm

theorem lt_two_pow_bitLen (m : Nat) : m < 2 ^ bitLen m := by
  by_cases hm : m = 0
  · simp [bitLen, hm]
  · simpa [bitLen, hm] using Nat.lt_log2_self

/-! ### Packing -/

section
variable {f : Fmt} (hf : f.Regular)
include hf

/-- The fields of an encoding put together. -/
theorem fields_of_sign_add (neg : Bool) {E M : Nat} (hM : M < 2 ^ f.fbits)
    (h : E * 2 ^ f.fbits + M < 2 ^ (f.ebits + f.fbits)) :
    f.expo (f.sign neg + (E * 2 ^ f.fbits + M)) = E ∧ f.fraction (f.sign neg + (E * 2 ^ f.fbits + M)) = M ∧
      f.format.negative (f.sign neg + (E * 2 ^ f.fbits + M)) = neg ∧
      f.sign neg + (E * 2 ^ f.fbits + M) < 2 ^ f.width := by
  have hw : f.width - 1 = f.ebits + f.fbits := by have := hf.width_eq; omega
  have hsign : f.sign neg = neg.toNat * 2 ^ f.ebits * 2 ^ f.fbits := by
    cases neg <;> simp [Fmt.sign, hw, pow_add]
  have hsum : f.sign neg + (E * 2 ^ f.fbits + M) = M + 2 ^ f.fbits * (E + 2 ^ f.ebits * neg.toNat) := by
    rw [hsign]; ring
  have hE : E < 2 ^ f.ebits := by
    rw [pow_add] at h
    exact lt_of_mul_lt_mul_right (by omega : E * 2 ^ f.fbits < 2 ^ f.ebits * 2 ^ f.fbits) (Nat.zero_le _)
  have hdiv : (M + 2 ^ f.fbits * (E + 2 ^ f.ebits * neg.toNat)) / 2 ^ f.fbits = E + 2 ^ f.ebits * neg.toNat := by
    rw [Nat.add_mul_div_left _ _ (by positivity), Nat.div_eq_of_lt hM, zero_add]
  refine ⟨?_, ?_, ?_, ?_⟩
  · rw [Fmt.expo, hsum, hdiv, Nat.add_mul_mod_self_left, Nat.mod_eq_of_lt hE]
  · rw [Fmt.fraction, hsum, Nat.add_mul_mod_self_left, Nat.mod_eq_of_lt hM]
  · have hbit : (f.sign neg + (E * 2 ^ f.fbits + M)) / 2 ^ (f.width - 1) = neg.toNat := by
      rw [hw, hsum, add_comm f.ebits, pow_add, ← Nat.div_div_eq_div_mul, hdiv,
        Nat.add_mul_div_left _ _ (by positivity), Nat.div_eq_of_lt hE, zero_add]
    have hbit : f.format.negative (f.sign neg + (E * 2 ^ f.fbits + M)) = decide (neg.toNat % 2 = 1) := hbit ▸ rfl
    rw [hbit]; cases neg <;> rfl
  · have : 2 ^ f.width = 2 ^ (f.width - 1) * 2 := by rw [← pow_succ]; congr 1; have := hf.width_eq; omega
    rw [this, hw, hsign, mul_assoc, ← pow_add]
    cases neg
    · simp only [Bool.toNat_false]; omega
    · simp only [Bool.toNat_true]; omega

/-- A finite encoding with an exponent field that is not 0. -/
theorem ext_of_normal (neg : Bool) {E M : Nat} (hE : E ≠ 0) (hM : M < 2 ^ f.fbits)
    (h : E * 2 ^ f.fbits + M ≤ f.big false) :
    f.format.ext (f.sign neg + (E * 2 ^ f.fbits + M)) =
      .num neg ((term neg (2 ^ f.fbits + M) : ℚ) * 2 ^ (E - f.bias - f.fbits : ℤ)) := by
  obtain ⟨he, hm, hn, -⟩ := fields_of_sign_add hf neg hM (h.trans_lt hf.big_lt)
  have hfin := (mod_le_big_iff hf (f.sign neg + (E * 2 ^ f.fbits + M))).1 (by rw [mod_pow_width hf, he, hm]; exact h)
  rw [ext_eq hf, if_neg (fun h => hfin ⟨h.1, .inl h.2⟩), if_neg (fun h => hfin ⟨h.1, .inr h.2⟩), val_eq, he,
    hm, hn, if_neg hE]

/-- A finite encoding with the exponent field 0. -/
theorem ext_of_subnormal (neg : Bool) {M : Nat} (hM : M < 2 ^ f.fbits) (h : M ≤ f.big false) :
    f.format.ext (f.sign neg + M) = .num neg ((term neg M : ℚ) * 2 ^ (1 - f.bias - f.fbits : ℤ)) := by
  obtain ⟨he, hm, hn, -⟩ := fields_of_sign_add hf neg (E := 0) hM (by simpa using h.trans_lt hf.big_lt)
  rw [zero_mul, zero_add] at he hm hn
  have hfin := (mod_le_big_iff hf (f.sign neg + M)).1 (by rw [mod_pow_width hf, he, hm]; simpa using h)
  rw [ext_eq hf, if_neg (fun h => hfin ⟨h.1, .inl h.2⟩), if_neg (fun h => hfin ⟨h.1, .inr h.2⟩), val_eq, he,
    hm, hn, if_pos rfl]

omit hf in
/-- What is not beyond the largest finite value. -/
theorem over_eq_false_iff (n : Nat) (q : Int) :
    f.over n q = false ↔ (n : ℝ) * 2 ^ q ≤ f.maxM * 2 ^ f.maxE := by
  have hq := two_zpow_div_two_zpow (min_le_left q f.maxE)
  have hE := two_zpow_div_two_zpow (min_le_right q f.maxE)
  have hb : (0 : ℝ) < 2 ^ min q f.maxE := by positivity
  rw [Fmt.over, decide_eq_false_iff_not, not_lt, ← Nat.cast_le (α := ℝ)]
  push_cast at hq hE ⊢
  rw [← hq, ← hE, mul_div_assoc', mul_div_assoc', div_le_div_iff_of_pos_right hb]

/-- A normal number that is not beyond the largest finite value has an encoding not beyond its. -/
theorem normal_le_big {n : Nat} {q : Int} (hn : 2 ^ f.fbits ≤ n) (hn' : n < 2 ^ (f.fbits + 1))
    (hover : (n : ℝ) * 2 ^ q ≤ f.maxM * 2 ^ f.maxE) (hq : f.emin - f.fbits ≤ q) :
    (q + f.fbits + f.bias).toNat * 2 ^ f.fbits + (n - 2 ^ f.fbits) ≤ f.big false := by
  have hmaxE : (0 : ℝ) < 2 ^ f.maxE := by positivity
  have hplace : q < f.maxE ∨ q = f.maxE ∧ n ≤ f.maxM := by
    rcases lt_trichotomy q f.maxE with h | rfl | h
    · exact .inl h
    · exact .inr ⟨rfl, by exact_mod_cast le_of_mul_le_mul_right hover hmaxE⟩
    · have h2 : (2 : ℝ) ^ f.maxE * 2 ≤ 2 ^ q := by
        rw [← zpow_add_one₀ two_ne_zero]; exact zpow_le_zpow_right₀ one_le_two (by omega)
      have hM : (f.maxM : ℝ) < 2 ^ f.fbits * 2 := by exact_mod_cast pow_succ 2 f.fbits ▸ hf.maxM_lt
      have hn : (2 : ℝ) ^ f.fbits ≤ n := by exact_mod_cast hn
      nlinarith [mul_le_mul hn h2 (by positivity) (by positivity), mul_lt_mul_of_pos_right hM hmaxE]
  have hE : ((q + f.fbits + f.bias).toNat : ℤ) = q + f.fbits + f.bias :=
    Int.toNat_of_nonneg (by simp only [Fmt.emin] at hq; omega)
  have hbig := hf.big_eq
  have hM : (2 : ℤ) ^ f.fbits ≤ f.maxM := by exact_mod_cast hf.le_maxM
  rw [pow_succ] at hn'
  zify [hn] at hn' ⊢
  rw [hE]
  rcases hplace with h | ⟨rfl, h⟩
  · have : (0 : ℤ) ≤ (f.maxE - q - 1) * 2 ^ f.fbits := mul_nonneg (by omega) (by positivity)
    linarith
  · have : (n : ℤ) ≤ f.maxM := by exact_mod_cast h
    linarith

theorem two_pow_fbits_le_big : 2 ^ f.fbits ≤ f.big false := by
  have hbig := hf.big_eq
  have hM : (2 : ℤ) ^ f.fbits ≤ f.maxM := by exact_mod_cast hf.le_maxM
  have hE : (0 : ℤ) ≤ (f.maxE + f.bias + f.fbits - 1) * 2 ^ f.fbits :=
    mul_nonneg (by have := hf.emin_le_maxE; simp only [Fmt.emin] at this; omega) (by positivity)
  zify
  linarith

/-- What packing encodes. -/
theorem ext_pack (neg : Bool) {n : Nat} {q : Int} (hn : n ≤ 2 ^ (f.fbits + 1)) (hq : f.emin - f.fbits ≤ q)
    (hnorm : q = f.emin - f.fbits ∨ 2 ^ f.fbits ≤ n) (hover : f.over n q = false) :
    f.format.ext (f.pack neg n q) = .num neg ((term neg n : ℚ) * 2 ^ q) ∧ f.pack neg n q < 2 ^ f.width := by
  rw [over_eq_false_iff] at hover
  have hq' := hq
  simp only [Fmt.emin] at hq'
  have hpos : 2 ^ f.fbits < 2 ^ (f.fbits + 1) := Nat.pow_lt_pow_right one_lt_two (Nat.lt_succ_self _)
  unfold Fmt.pack
  split_ifs with hsub htop
  · have hle : n ≤ f.big false := hsub.le.trans (two_pow_fbits_le_big hf)
    obtain ⟨-, -, -, hlt⟩ := fields_of_sign_add hf neg (E := 0) hsub (by simpa using hle.trans_lt hf.big_lt)
    rw [ext_of_subnormal hf neg hsub hle, hnorm.resolve_right (by omega), Fmt.emin]
    exact ⟨rfl, by simpa using hlt⟩
  · have hE : ((q + 1 + f.fbits + f.bias).toNat : ℤ) = q + 1 + f.fbits + f.bias := Int.toNat_of_nonneg (by omega)
    have hover' : ((2 ^ f.fbits : ℕ) : ℝ) * 2 ^ (q + 1) ≤ f.maxM * 2 ^ f.maxE := by
      convert hover using 1
      rw [htop, zpow_add_one₀ two_ne_zero]; push_cast; ring
    have hle := normal_le_big hf le_rfl hpos hover' (by omega)
    rw [Nat.sub_self] at hle
    obtain ⟨-, -, -, hlt⟩ := fields_of_sign_add hf neg (M := 0) (by positivity) (hle.trans_lt hf.big_lt)
    have := ext_of_normal hf neg (by omega) (by positivity) hle
    rw [add_zero] at this hlt
    refine ⟨this.trans ?_, hlt⟩
    rw [hE, htop, cast_term, cast_term]
    congr 1
    rw [show q + 1 + f.fbits + f.bias - f.bias - f.fbits = q + 1 by ring, zpow_add_one₀ two_ne_zero]
    push_cast; ring
  · have hE : ((q + f.fbits + f.bias).toNat : ℤ) = q + f.fbits + f.bias := Int.toNat_of_nonneg (by omega)
    have hn1 : n < 2 ^ (f.fbits + 1) := lt_of_le_of_ne hn htop
    have hM : n - 2 ^ f.fbits < 2 ^ f.fbits := by rw [pow_succ] at hn1; omega
    have hle := normal_le_big hf (by omega) hn1 hover hq
    obtain ⟨-, -, -, hlt⟩ := fields_of_sign_add hf neg hM (hle.trans_lt hf.big_lt)
    rw [← add_assoc] at hlt
    have := ext_of_normal hf neg (by omega) hM hle
    rw [← add_assoc] at this
    refine ⟨this.trans ?_, hlt⟩
    rw [hE, show 2 ^ f.fbits + (n - 2 ^ f.fbits) = n by omega,
      show q + f.fbits + f.bias - f.bias - f.fbits = q by ring]

omit hf in
theorem negative_val_of_ext_eq_num {F : Format} {w : Nat} {s : Bool} {x : ℚ} (h : F.ext w = .num s x) :
    F.negative w = s ∧ F.val w = x := by
  unfold Format.ext at h
  dsimp only at h
  split_ifs at h
  exact ⟨(Ext.num.inj h).1, (Ext.num.inj h).2⟩

/-- The largest finite value. -/
theorem val_big : f.format.val (f.big false) = f.maxM * 2 ^ f.maxE := by
  have hpos := hf.emin_le_maxE
  simp only [Fmt.emin] at hpos
  have hE : ((f.maxE + f.bias + f.fbits).toNat : ℤ) = f.maxE + f.bias + f.fbits := Int.toNat_of_nonneg (by omega)
  have hbig : f.big false = (f.maxE + f.bias + f.fbits).toNat * 2 ^ f.fbits + (f.maxM - 2 ^ f.fbits) := by
    have := hf.big_eq
    zify [hf.le_maxM]
    rw [hE]
    linarith
  have hM := hf.maxM_lt
  rw [pow_succ] at hM
  have hext := ext_of_normal hf false (by omega) (by omega) hbig.ge
  rw [← hbig, show f.sign false = 0 from rfl, zero_add, hE, Nat.add_sub_cancel' hf.le_maxM,
    show f.maxE + f.bias + f.fbits - f.bias - f.fbits = f.maxE by ring] at hext
  simpa [term] using (negative_val_of_ext_eq_num hext).2

theorem two_zpow_emin_le : (2 : ℝ) ^ f.emin ≤ f.maxM * 2 ^ f.maxE := by
  have hM : (2 : ℝ) ^ f.fbits ≤ f.maxM := by exact_mod_cast hf.le_maxM
  calc (2 : ℝ) ^ f.emin = 2 ^ f.fbits * 2 ^ (f.emin - f.fbits) := by
        rw [← zpow_natCast, ← zpow_add₀ two_ne_zero]; congr 1; ring
    _ ≤ f.maxM * 2 ^ f.maxE :=
        mul_le_mul hM (zpow_le_zpow_right₀ one_le_two hf.emin_le_maxE) (by positivity) (by positivity)

end

/-! ### Rounding once -/

section
variable (f : Fmt) (mode : Rm) (neg : Bool) {m : Nat} (hm : m ≠ 0) (e : Int)
include hm

/-- The binade of a magnitude. -/
theorem binade_of_quantumU : (2 : ℝ) ^ (f.fbits + f.quantumU m e) ≤ m * 2 ^ e ∧
    (m : ℝ) * 2 ^ e < 2 ^ (f.fbits + 1 + f.quantumU m e) := by
  have hpos := bitLen_pos hm
  have hlo : (2 : ℝ) ^ (bitLen m - 1) ≤ m := by exact_mod_cast two_pow_le_of_bitLen hm
  have hhi : (m : ℝ) < 2 ^ bitLen m := by exact_mod_cast lt_two_pow_bitLen m
  have he : (0 : ℝ) < 2 ^ e := by positivity
  have h1 : (2 : ℝ) ^ (f.fbits + f.quantumU m e) = 2 ^ (bitLen m - 1) * 2 ^ e := by
    rw [← zpow_natCast, ← zpow_add₀ two_ne_zero]; congr 1; simp only [Fmt.quantumU]; omega
  have h2 : (2 : ℝ) ^ (f.fbits + 1 + f.quantumU m e) = 2 ^ bitLen m * 2 ^ e := by
    rw [← zpow_natCast, ← zpow_add₀ two_ne_zero]; congr 1; simp only [Fmt.quantumU]; omega
  rw [h1, h2]
  exact ⟨by gcongr, by gcongr⟩

/-- A magnitude rounded with an unbounded exponent has the significand of a normal number. -/
theorem significand_of_quantumU : 2 ^ f.fbits ≤ (roundAt mode neg m e (f.quantumU m e)).1 ∧
    (roundAt mode neg m e (f.quantumU m e)).1 ≤ 2 ^ (f.fbits + 1) := by
  obtain ⟨hlo, hhi⟩ := binade_of_quantumU f hm e
  have hr := rounded_roundAt mode neg m e (f.quantumU m e)
  have hu : (0 : ℝ) < 2 ^ f.quantumU m e := by positivity
  rw [zpow_add₀ two_ne_zero] at hlo hhi
  refine ⟨le_rounded_of_le hr ((le_div_iff₀ hu).2 ?_), rounded_le_of_le hr ((div_le_iff₀ hu).2 ?_)⟩
  · push_cast; exact_mod_cast hlo
  · push_cast; exact_mod_cast hhi.le

/-- A value is tiny where it stays below the least normal number when rounded with an unbounded exponent (R47). -/
theorem tiny_iff : f.tiny mode neg m e = true ↔
    ((roundAt mode neg m e (f.quantumU m e)).1 : ℝ) * 2 ^ f.quantumU m e < 2 ^ f.emin := by
  have hn : (roundAt mode neg m e (f.quantumU m e)).1 ≠ 0 := by
    have := (significand_of_quantumU f mode neg hm e).1
    have : 0 < 2 ^ f.fbits := by positivity
    omega
  have htiny : f.tiny mode neg m e = decide
    (f.quantumU m e + (bitLen (roundAt mode neg m e (f.quantumU m e)).1 : Int) - 1 < f.emin) := rfl
  rw [htiny, decide_eq_true_iff]
  generalize (roundAt mode neg m e (f.quantumU m e)).1 = n at *
  generalize f.quantumU m e = u
  have hpos := bitLen_pos hn
  have hlo : (2 : ℝ) ^ (bitLen n - 1) ≤ n := by exact_mod_cast two_pow_le_of_bitLen hn
  have hhi : (n : ℝ) < 2 ^ bitLen n := by exact_mod_cast lt_two_pow_bitLen n
  have hu : (0 : ℝ) < 2 ^ u := by positivity
  constructor
  · intro h
    calc (n : ℝ) * 2 ^ u < 2 ^ bitLen n * 2 ^ u := by gcongr
      _ = 2 ^ (bitLen n + u) := by rw [zpow_add₀ two_ne_zero, zpow_natCast]
      _ ≤ 2 ^ f.emin := zpow_le_zpow_right₀ one_le_two (by omega)
  · intro h
    have : (2 : ℝ) ^ ((bitLen n - 1 : ℕ) + u) < 2 ^ f.emin := by
      rw [zpow_add₀ two_ne_zero, zpow_natCast]
      exact lt_of_le_of_lt (by gcongr) h
    have := (zpow_lt_zpow_iff_right₀ one_lt_two).1 this
    omega

end

section
variable {f : Fmt} (hf : f.Regular)
include hf

omit hf in
theorem abs_term_mul (neg : Bool) (n : Nat) (q : Int) : |(term neg n : ℚ) * 2 ^ q| = n * 2 ^ q := by
  rw [cast_term]
  cases neg <;> simp [abs_mul]

omit hf in
theorem abs_cast_term_mul (neg : Bool) (n : Nat) (q : Int) : |(((term neg n : ℚ) * 2 ^ q : ℚ) : ℝ)| = n * 2 ^ q := by
  rw [← Rat.cast_abs, abs_term_mul]
  push_cast; rfl

/-- Whether m × 2^e is beyond the largest finite value once rounded. -/
def Fmt.overRounded (f : Fmt) (mode : Rm) (neg : Bool) (m : Nat) (e : Int) : Bool :=
  let q := max (f.quantumU m e) (f.emin - f.fbits)
  f.over (roundAt mode neg m e q).1 q

/-- The last place of a rounded value: with an unbounded exponent or of the subnormals. -/
theorem rounded_over_iff (mode : Rm) (neg : Bool) {m : Nat} (hm : m ≠ 0) (e : Int) :
    let u := f.quantumU m e
    let q := max u (f.emin - f.fbits)
    let n := (roundAt mode neg m e q).1
    n ≤ 2 ^ (f.fbits + 1) ∧ (q = f.emin - f.fbits ∨ 2 ^ f.fbits ≤ n) ∧
    (f.overRounded mode neg m e = false ↔ ((roundAt mode neg m e u).1 : ℝ) * 2 ^ u ≤ f.maxM * 2 ^ f.maxE) := by
  intro u q n
  obtain ⟨hlo, hhi⟩ := significand_of_quantumU f mode neg hm e
  rw [Fmt.overRounded, over_eq_false_iff]
  rcases le_or_gt (f.emin - f.fbits) u with h | h
  · have hq : q = u := max_eq_left h
    simp only [n, hq]
    exact ⟨hhi, .inr hlo, by rw [show max (f.quantumU m e) (f.emin - f.fbits) = u from hq]⟩
  · have hq : q = f.emin - f.fbits := max_eq_right h.le
    have hmin := two_zpow_emin_le hf
    have hn : n ≤ 2 ^ f.fbits := by
      refine rounded_le_of_le (rounded_roundAt mode neg m e q) ((div_le_iff₀ (by positivity)).2 ?_)
      refine (binade_of_quantumU f hm e).2.le.trans ?_
      push_cast
      rw [← zpow_natCast, ← zpow_add₀ two_ne_zero]
      exact zpow_le_zpow_right₀ one_le_two (by omega)
    refine ⟨hn.trans (Nat.pow_le_pow_right two_pos (Nat.le_succ _)), .inl hq, iff_of_true ?_ ?_⟩
    · refine le_trans ?_ hmin
      calc (n : ℝ) * 2 ^ q ≤ 2 ^ f.fbits * 2 ^ q := by gcongr; exact_mod_cast hn
        _ = 2 ^ f.emin := by rw [hq, ← zpow_natCast, ← zpow_add₀ two_ne_zero]; congr 1; ring
    · refine le_trans ?_ hmin
      calc ((roundAt mode neg m e u).1 : ℝ) * 2 ^ u ≤ 2 ^ (f.fbits + 1) * 2 ^ u := by gcongr; exact_mod_cast hhi
        _ = 2 ^ ((f.fbits + 1 : ℕ) + u) := by rw [← zpow_natCast, ← zpow_add₀ two_ne_zero]
        _ ≤ 2 ^ f.emin := zpow_le_zpow_right₀ one_le_two (by push_cast; omega)

omit hf in
theorem inf_eq_infinity (hi : f.infs = true) (s : Bool) : f.inf s = f.format.infinity s := by
  simp [Format.infinity, Format.zero, Fmt.format, Fmt.inf, Fmt.sign, hi]

omit hf in
theorem big_eq_largest (f : Fmt) (s : Bool) : f.big s = f.format.largest s := by
  simp [Format.largest, Format.zero, Fmt.format, Fmt.big, Fmt.sign]

omit hf in
theorem overflow_eq (hi : f.infs = true) (mode : Rm) (neg : Bool) :
    f.overflow mode neg = overflowTo f.format mode neg := by
  cases mode <;> cases neg <;> simp only [Fmt.overflow, overflowTo, inf_eq_infinity hi, big_eq_largest]

omit hf in
/-- Rounding a value that is not 0, with its overflow and its flags. -/
theorem round_eq (f : Fmt) (mode : Rm) (neg : Bool) {m : Nat} (hm : m ≠ 0) (e : Int) :
    let q := max (f.quantumU m e) (f.emin - f.fbits)
    let r := roundAt mode neg m e q
    f.round mode neg m e = if f.overRounded mode neg m e then (f.overflow mode neg, 4 ||| 16)
      else (f.pack neg r.1 q, if r.2 then (if f.tiny mode neg m e then 16 ||| 8 else 16) else 0) := by
  intro q r
  have hround : f.round mode neg m e = if f.overRounded mode neg m e then (f.overflow mode neg, fOVF ||| fINX)
      else (f.pack neg r.1 q, flagIf r.2 fINX ||| flagIf (r.2 && f.tiny mode neg m e) fUNF) := if_neg hm
  rw [hround]
  cases r.2 <;> cases f.tiny mode neg m e <;> rfl

/-- A value that is not 0, rounded once (R46, R47); a format without infinities has overflow results of its own (R50). -/
theorem roundsTo_round (mode : Rm) {neg : Bool} {m : Nat} (hm : m ≠ 0) {e : Int}
    (hi : f.infs = true ∨ f.overRounded mode neg m e = false) {x : ℝ} (hx : |x| = m * 2 ^ e)
    (hneg : neg = true ↔ x < 0) : RoundsTo f.format mode x (f.round mode neg m e).1 (f.round mode neg m e).2 := by
  obtain ⟨hlo, hhi⟩ := binade_of_quantumU f hm e
  obtain ⟨hn, hnorm, hover⟩ := rounded_over_iff hf mode neg hm e
  have hexact := roundAt_exact_iff mode neg m e (max (f.quantumU m e) (f.emin - f.fbits))
  have htiny := tiny_iff f mode neg hm e
  have htop : ((f.format.val f.format.top : ℚ) : ℝ) = f.maxM * 2 ^ f.maxE := by
    rw [show f.format.top = f.big false from rfl, val_big hf]; push_cast; rfl
  refine ⟨neg, f.quantumU m e, (roundAt mode neg m e (f.quantumU m e)).1, _, hneg, hx ▸ hlo, hx ▸ hhi,
    hx ▸ rounded_roundAt .., hx ▸ rounded_roundAt mode neg m e (max (f.quantumU m e) (f.emin - f.fbits)), ?_, ?_⟩
  · intro h
    rw [htop] at h
    have hbeyond : f.overRounded mode neg m e = true := by rw [← Bool.not_eq_false, hover, not_le]; exact h
    rw [round_eq f mode neg hm, if_pos hbeyond]
    exact ⟨overflow_eq (hi.resolve_right (by simp [hbeyond])) .., rfl⟩
  · intro h
    rw [htop] at h
    rw [round_eq f mode neg hm, if_neg (by rw [Bool.not_eq_true, hover]; exact h)]
    obtain ⟨hext, hlt⟩ := ext_pack hf neg hn (le_max_right _ _) hnorm (hover.2 h)
    have hval := (negative_val_of_ext_eq_num hext).2
    refine ⟨hext.trans (by rw [hval]), hlt, ?_, fun hy => ?_, fun hy => ?_⟩
    · rw [hval]; exact abs_cast_term_mul ..
    · rw [hexact.2 (hx.symm.trans hy)]; rfl
    · have hinx : (roundAt mode neg m e (max (f.quantumU m e) (f.emin - f.fbits))).2 = true := by
        rw [← Bool.not_eq_false, hexact]; exact fun h => hy (hx.trans h)
      rw [hinx, if_pos rfl]
      exact ⟨fun ht => if_pos (htiny.2 ht), fun ht => if_neg (htiny.not.2 (not_lt.2 ht))⟩

end
end Sys2Proof.Machine

end

