-- ==== Sys2Proof/Proofs/FloatSums.lean ====
section
/-! # Exact sums and products rounded once (R45 to R48) -/

namespace Sys2Proof.Machine
open Sys2Proof Sys2Proof.Claims

/-! ### The words of results -/

section
variable {f : Fmt} (hf : f.Regular)
include hf

theorem sign_add_lt {n : Nat} (neg : Bool) (h : n < 2 ^ (f.ebits + f.fbits)) : f.sign neg + n < 2 ^ f.width := by
  have hw : f.width = f.ebits + f.fbits + 1 := hf.width_eq
  cases neg <;> simp only [Fmt.sign, hw, pow_succ, Nat.add_sub_cancel, if_true, Bool.false_eq_true, if_false] <;> omega

theorem sign_lt (neg : Bool) : f.sign neg < 2 ^ f.width := sign_add_lt hf neg (n := 0) (by positivity)

theorem big_lt (neg : Bool) : f.big neg < 2 ^ f.width := by
  have : f.big neg = f.sign neg + f.big false := by simp [Fmt.big, Fmt.sign]
  exact this ▸ sign_add_lt hf neg hf.big_lt

theorem inf_lt (neg : Bool) : f.inf neg < 2 ^ f.width := by
  refine sign_add_lt hf neg ?_
  rw [pow_add]
  exact Nat.mul_lt_mul_of_pos_right (Nat.sub_lt (by positivity) one_pos) (by positivity)

theorem overflow_lt (mode : Rm) (neg : Bool) : f.overflow mode neg < 2 ^ f.width := by
  match mode, neg with
  | .rne, _ | .ru, false | .rd, true => exact inf_lt hf _
  | .rz, _ | .ru, true | .rd, false => exact big_lt hf _

/-- A rounded value is an encoding of the format's width. -/
theorem round_lt (mode : Rm) (neg : Bool) (m : Nat) (e : Int) : (f.round mode neg m e).1 < 2 ^ f.width := by
  by_cases hm : m = 0
  · rw [show f.round mode neg m e = (f.sign neg, 0) from if_pos hm]
    exact sign_lt hf neg
  · rw [round_eq f mode neg hm]
    obtain ⟨hn, hnorm, -⟩ := rounded_over_iff hf mode neg hm e
    cases h : f.overRounded mode neg m e
    · exact (ext_pack hf neg hn (le_max_right _ _) hnorm h).2
    · exact overflow_lt hf mode neg

end

/-! ### Sums of finite terms -/

theorem two_pow_toNat_mul {b e : ℤ} (h : b ≤ e) : (2 : ℚ) ^ (e - b).toNat * 2 ^ b = 2 ^ e := by
  rw [← zpow_natCast, Int.toNat_of_nonneg (by omega), ← zpow_add₀ two_ne_zero, sub_add_cancel]

theorem sumTerms_cons_cons (t t' : Bool × Nat × Int) (ts : List (Bool × Nat × Int)) :
    let r := sumTerms (t' :: ts)
    let b := min t.2.2 r.2
    sumTerms (t :: t' :: ts) = (term t.1 t.2.1 * 2 ^ (t.2.2 - b).toNat + r.1 * 2 ^ (r.2 - b).toNat, b) := rfl

/-- The exact sum of signed terms is the sum of their values. -/
theorem sumTerms_value (ts : List (Bool × Nat × Int)) : ((sumTerms ts).1 : ℚ) * 2 ^ (sumTerms ts).2 =
    (ts.map fun t => (term t.1 t.2.1 : ℚ) * 2 ^ t.2.2).sum := by
  induction ts with
  | nil => simp [sumTerms]
  | cons t ts ih =>
    cases ts with
    | nil => simp [sumTerms]
    | cons t' ts =>
      rw [List.map_cons, List.sum_cons, ← ih, sumTerms_cons_cons]
      push_cast
      rw [add_mul, mul_assoc, mul_assoc, two_pow_toNat_mul (min_le_left ..), two_pow_toNat_mul (min_le_right ..)]

/-- The sum of numbers meets the statement where its rounding does, or where it is a zero with its sign. -/
theorem sumIs_of_num {F : Format} {mode : Rm} {ts : List Ext} {w : Nat} {fl : Byte}
    (hts : ∀ t ∈ ts, ∃ s x, t = .num s x)
    (hround : (ts.map Ext.value).sum ≠ 0 → RoundsTo F mode ((ts.map Ext.value).sum : ℚ) w fl)
    (hzero : (ts.map Ext.value).sum = 0 → fl = 0 ∧
      w = F.zero (if ts.all Ext.isNeg then true else if ts.any Ext.isNeg then decide (mode = .rd) else false)) :
    SumIs F mode ts w fl := by
  have hnan : ∀ s, .nan s ∉ ts := fun s h => by obtain ⟨_, _, h⟩ := hts _ h; cases h
  have hinf : ∀ s, .inf s ∉ ts := fun s h => by obtain ⟨_, _, h⟩ := hts _ h; cases h
  exact ⟨fun ⟨s, h⟩ => absurd h (hnan s), fun _ => ⟨fun h => absurd h (hinf _), fun s h => absurd h (hinf s),
    fun _ => ⟨hround, hzero⟩⟩⟩

theorem roundSum_eq (f : Fmt) (mode : Rm) (ts : List (Bool × Nat × Int)) :
    f.roundSum mode ts = if (sumTerms ts).1 = 0 then
      (f.sign (if ts.all (fun t => t.1) then true else if ts.all (fun t => !t.1) then false else decide (mode = .rd)), 0)
      else f.round mode (decide ((sumTerms ts).1 < 0)) (sumTerms ts).1.natAbs (sumTerms ts).2 := rfl

section
variable {f : Fmt} (hf : f.Regular) (hi : f.infs = true) (mode : Rm)
include hf hi

theorem roundsTo_round_int {n : ℤ} (hn : n ≠ 0) (e : ℤ) {x : ℝ} (hx : x = n * 2 ^ e) :
    RoundsTo f.format mode x (f.round mode (decide (n < 0)) n.natAbs e).1
      (f.round mode (decide (n < 0)) n.natAbs e).2 := by
  have he : (0 : ℝ) < 2 ^ e := by positivity
  refine roundsTo_round hf mode (Int.natAbs_ne_zero.2 hn) (.inl hi) ?_ ?_
  · rw [hx, abs_mul, abs_of_pos he, Nat.cast_natAbs, Int.cast_abs]
  · rw [decide_eq_true_iff, hx, mul_neg_iff]
    simp [he, he.not_gt]

/-- The exact sum of finite terms, rounded once. -/
theorem sumIs_roundSum (ts : List (Bool × Nat × Int)) :
    SumIs f.format mode (ts.map fun t => .num t.1 ((term t.1 t.2.1 : ℚ) * 2 ^ t.2.2))
      (f.roundSum mode ts).1 (f.roundSum mode ts).2 := by
  have hvalue : ((ts.map fun t => Ext.num t.1 ((term t.1 t.2.1 : ℚ) * 2 ^ t.2.2)).map Ext.value).sum =
      (sumTerms ts).1 * 2 ^ (sumTerms ts).2 := by
    rw [sumTerms_value, List.map_map]; rfl
  refine sumIs_of_num (fun t ht => ?_) (fun h => ?_) (fun h => ?_)
  · obtain ⟨t, -, rfl⟩ := List.mem_map.1 ht
    exact ⟨_, _, rfl⟩
  · have hn : (sumTerms ts).1 ≠ 0 := fun hn => h (by rw [hvalue, hn]; simp)
    rw [roundSum_eq, if_neg hn]
    exact roundsTo_round_int hf hi mode hn _ (by rw [hvalue]; push_cast; rfl)
  · have hn : (sumTerms ts).1 = 0 := by
      rw [hvalue] at h
      exact_mod_cast (mul_eq_zero.1 h).resolve_right (zpow_ne_zero _ two_ne_zero)
    rw [roundSum_eq, if_pos hn]
    refine ⟨rfl, congrArg f.sign ?_⟩
    have hpos : (ts.all fun t => !t.1) = !(ts.any fun t => t.1) := Bool.eq_iff_iff.2 (by simp)
    simp only [List.all_map, List.any_map, Function.comp_def, Ext.isNeg, hpos]
    cases ts.all fun t => t.1 <;> cases ts.any fun t => t.1 <;> rfl

end

/-! ### Sums of values -/

/-- The sign, significand and exponent of a finite value. -/
def FVal.parts : FVal → Option (Bool × Nat × Int)
  | .fin s m e => some (s, m, e)
  | _ => none

theorem sum_eq (f : Fmt) (mode : Rm) (vs : List FVal) : f.sum mode vs =
    if .inf false ∈ vs then (if .inf true ∈ vs then (f.nan, 1) else (f.inf false, 0))
    else if .inf true ∈ vs then (f.inf true, 0) else f.roundSum mode (vs.filterMap FVal.parts) := by
  have hany : ∀ s, (vs.any fun v => decide (v = FVal.inf s)) = decide (FVal.inf s ∈ vs) := fun s =>
    Bool.eq_iff_iff.2 (by simp)
  simp only [Fmt.sum, hany]
  by_cases h0 : FVal.inf false ∈ vs <;> by_cases h1 : FVal.inf true ∈ vs <;> simp [h0, h1, fINV]
  refine congrArg _ (List.filterMap_congr fun v _ => ?_)
  cases v <;> rfl

/-- The sum of values, rounded once; a NaN among them gives the canonical NaN. -/
def Fmt.roundedSum (f : Fmt) (mode : Rm) (vs : List FVal) : Nat × Byte :=
  if vs.any FVal.isNan then (f.nan, nanFlags vs) else f.sum mode vs

theorem isNan_iff {v : FVal} : v.isNan = true ↔ ∃ s, v = .nan s := by cases v <;> simp [FVal.isNan]
theorem isSnan_iff {v : FVal} : v.isSnan = true ↔ v = .nan true := by cases v <;> simp [FVal.isSnan]
theorem isInf_iff {v : FVal} : v.isInf = true ↔ ∃ s, v = .inf s := by cases v <;> simp [FVal.isInf]

theorem nan_mem_map_toExt {s : Bool} {vs : List FVal} : .nan s ∈ vs.map FVal.toExt ↔ .nan s ∈ vs := by
  simp [toExt_eq_nan]
theorem inf_mem_map_toExt {s : Bool} {vs : List FVal} : .inf s ∈ vs.map FVal.toExt ↔ .inf s ∈ vs := by
  simp [toExt_eq_inf]

/-- Values that are all finite are those of their parts. -/
theorem map_parts {vs : List FVal} (hvs : ∀ v ∈ vs, ∃ s m e, v = .fin s m e) :
    (vs.filterMap FVal.parts).map (fun t => Ext.num t.1 ((term t.1 t.2.1 : ℚ) * 2 ^ t.2.2)) = vs.map FVal.toExt := by
  induction vs with
  | nil => rfl
  | cons v vs ih =>
    obtain ⟨s, m, e, rfl⟩ := hvs v (List.mem_cons_self ..)
    rw [List.map_cons, ← ih fun v hv => hvs v (List.mem_cons_of_mem _ hv)]
    rfl

section
variable {f : Fmt} (hf : f.Regular) (hi : f.infs = true) (mode : Rm)
include hf hi

theorem sumIs_sum {vs : List FVal} (hvs : ∀ s, .nan s ∉ vs) :
    SumIs f.format mode (vs.map FVal.toExt) (f.sum mode vs).1 (f.sum mode vs).2 := by
  simp only [SumIs, nan_mem_map_toExt, inf_mem_map_toExt]
  refine ⟨fun ⟨s, h⟩ => absurd h (hvs s), fun _ => ⟨fun h0 h1 => ?_, fun s hs hns => ?_, fun hno => ?_⟩⟩
  · simp [sum_eq, h0, h1, Fmt.format]
  · cases s <;> simp_all [sum_eq, inf_eq_infinity hi]
  · have hfin : ∀ v ∈ vs, ∃ s m e, v = .fin s m e := fun v hv => by
      cases v with
      | nan s => exact absurd hv (hvs s)
      | inf s => exact absurd hv (hno s)
      | fin s m e => exact ⟨s, m, e, rfl⟩
    have hsum := sumIs_roundSum hf hi mode (vs.filterMap FVal.parts)
    rw [map_parts hfin] at hsum
    rw [sum_eq, if_neg (hno _), if_neg (hno _)]
    exact (hsum.2 fun s => nan_mem_map_toExt.not.2 (hvs s)).2.2 fun s => inf_mem_map_toExt.not.2 (hno s)

omit hi in
theorem roundSum_lt (ts : List (Bool × Nat × Int)) : (f.roundSum mode ts).1 < 2 ^ f.width := by
  rw [roundSum_eq]
  split
  · exact sign_lt hf _
  · exact round_lt hf ..

/-- The exact sum of values, rounded once (R45 to R48). -/
theorem sumIs_roundedSum (vs : List FVal) :
    SumIs f.format mode (vs.map FVal.toExt) (f.roundedSum mode vs).1 (f.roundedSum mode vs).2 := by
  unfold Fmt.roundedSum
  split_ifs with h
  · obtain ⟨v, hv, hnan⟩ := List.any_eq_true.1 h
    obtain ⟨s, rfl⟩ := isNan_iff.1 hnan
    have hflag : nanFlags vs = if FVal.nan true ∈ vs then 1 else 0 := by
      have : vs.any FVal.isSnan = decide (FVal.nan true ∈ vs) := Bool.eq_iff_iff.2 (by simp [isSnan_iff])
      simp [nanFlags, flagIf, this, fINV]
    refine ⟨fun _ => ⟨rfl, ?_⟩, fun h => absurd (nan_mem_map_toExt.2 hv) (h s)⟩
    simp only [nan_mem_map_toExt, hflag]
  · exact sumIs_sum hf hi mode fun s hs => h (List.any_eq_true.2 ⟨_, hs, rfl⟩)

omit hi in
theorem roundedSum_lt (vs : List FVal) : (f.roundedSum mode vs).1 < 2 ^ f.width := by
  unfold Fmt.roundedSum
  split_ifs
  · exact hf.nan_lt
  · rw [sum_eq]
    split_ifs
    · exact hf.nan_lt
    · exact inf_lt hf _
    · exact inf_lt hf _
    · exact roundSum_lt hf mode _

end

/-! ### Products -/

@[simp] theorem isNan_addend (a b : FVal) : (a.addend b).isNan = (a.isNan || b.isNan) := by
  cases a <;> cases b <;> rfl

@[simp] theorem isSnan_addend (a b : FVal) : (a.addend b).isSnan = (a.isSnan || b.isSnan) := by
  cases a <;> cases b <;> simp [FVal.addend, FVal.isNan, FVal.isSnan, FVal.mul]

theorem addend_of_not_nan {a b : FVal} (ha : a.isNan = false) (hb : b.isNan = false) : a.addend b = a.mul b := by
  simp [FVal.addend, ha, hb]

theorem term_mul_term (s t : Bool) (m n : Nat) : term s m * term t n = term (s != t) (m * n) := by
  cases s <;> cases t <;> simp [term]

/-- The product of what two values stand for (R47, R48). -/
theorem product_toExt (a b : FVal) :
    product a.toExt b.toExt = if a.mulInv b then none else some (a.addend b).toExt := by
  have hzero : ∀ e : ℤ, (2 : ℚ) ^ e ≠ 0 := fun e => zpow_ne_zero e two_ne_zero
  cases a with
  | nan s =>
    cases b <;> simp [product, FVal.mulInv, FVal.addend, FVal.isNan, FVal.isSnan, FVal.isZero, FVal.isInf, Ext.signals]
  | inf s =>
    cases b <;> simp [product, FVal.mulInv, FVal.addend, FVal.isNan, FVal.isSnan, FVal.isZero, FVal.isInf, FVal.mul,
      FVal.neg, Ext.signals, hzero]
  | fin s m e =>
    cases b with
    | nan t => simp [product, FVal.mulInv, FVal.addend, FVal.isNan, FVal.isSnan, FVal.isInf, Ext.signals]
    | inf t =>
      simp [product, FVal.mulInv, FVal.addend, FVal.isNan, FVal.isZero, FVal.isInf, FVal.mul, FVal.neg, hzero]
    | fin t n d =>
      have : (term s m : ℚ) * 2 ^ e * (term t n * 2 ^ d) = term (s != t) (m * n) * 2 ^ (e + d) := by
        rw [← term_mul_term, zpow_add₀ two_ne_zero]; push_cast; ring
      simp [product, FVal.mulInv, FVal.addend, FVal.isNan, FVal.isZero, FVal.isInf, FVal.mul, this]

theorem product_eq_none_iff {a b : FVal} : product a.toExt b.toExt = none ↔ a.mulInv b = true := by
  rw [product_toExt]; split <;> simp_all

theorem product_eq_some_iff {a b : FVal} {p : Ext} :
    product a.toExt b.toExt = some p ↔ a.mulInv b = false ∧ (a.addend b).toExt = p := by
  rw [product_toExt]; split <;> simp_all

/-! ### The operations as rounded sums -/

theorem add_eq_roundedSum (f : Fmt) (mode : Rm) (a b : FVal) : f.add mode a b = f.roundedSum mode [a, b] := by
  simp [Fmt.add, Fmt.roundedSum]

theorem mulInv_eq_false_of_nan {a b : FVal} (h : (a.isNan || b.isNan) = true) : a.mulInv b = false := by
  cases a <;> cases b <;> simp_all [FVal.mulInv, FVal.isNan, FVal.isZero, FVal.isInf]

theorem nanFlags_addend (a b : FVal) (vs : List FVal) : nanFlags (a.addend b :: vs) = nanFlags (a :: b :: vs) := by
  simp [nanFlags, Bool.or_assoc]

theorem mul_eq_roundedSum (f : Fmt) (mode : Rm) (a b : FVal) :
    f.mul mode a b = if a.mulInv b then (f.nan, 1) else f.roundedSum mode [a.addend b] := by
  cases h : a.isNan || b.isNan
  · obtain ⟨ha, hb⟩ := Bool.or_eq_false_iff.1 h
    simp [Fmt.mul, Fmt.roundedSum, ← addend_of_not_nan ha hb, ha, hb, fINV]
  · simp [Fmt.mul, Fmt.roundedSum, h, mulInv_eq_false_of_nan h, nanFlags_addend]

theorem fma_eq_roundedSum (f : Fmt) (mode : Rm) (a b c : FVal) :
    f.fma mode a b c = if a.mulInv b then (f.nan, 1) else f.roundedSum mode [a.addend b, c] := by
  cases h : a.isNan || b.isNan
  · obtain ⟨ha, hb⟩ := Bool.or_eq_false_iff.1 h
    simp [Fmt.fma, Fmt.roundedSum, ← addend_of_not_nan ha hb, ha, hb, fINV, nanFlags_addend]
  · simp [Fmt.fma, Fmt.roundedSum, h, mulInv_eq_false_of_nan h, nanFlags_addend]

section
variable {f : Fmt} (hf : f.Regular) (hi : f.infs = true) (mode : Rm)
include hf hi

/-- A fused multiply-add is its product and addend summed exactly and rounded once (R185, R186). -/
theorem fmaIs_of_roundedSum {a b : FVal} {vs : List FVal} {r : Nat × Byte}
    (hr : r = if a.mulInv b then (f.nan, 1) else f.roundedSum mode (a.addend b :: vs)) :
    FmaIs f.format mode a.toExt b.toExt (vs.map FVal.toExt) r.1 r.2 := by
  rw [hr]
  unfold FmaIs
  rw [product_toExt]
  cases h : a.mulInv b
  · simpa using sumIs_roundedSum hf hi mode (a.addend b :: vs)
  · simp [Fmt.format]

end

/-! ### Lane words -/

theorem ext32_eq (w : Word32) : ext32 w = (fv w).toExt := (toExt_decode regular_f32 w.toNat).symm

theorem isNan_ext32_iff (w : Word32) : isNan w ↔ (fv w).isNan = true := by
  simp [isNan, ext32_eq, toExt_eq_nan, isNan_iff]

theorem infinite_iff (w : Word32) : infinite w ↔ (fv w).isInf = true := by
  simp [infinite, ext32_eq, toExt_eq_inf, isInf_iff]

theorem toNat_w32 {r : Nat × Byte} (h : r.1 < 2 ^ 32) : (w32 r).1.toNat = r.1 := by
  exact (BitVec.toNat_ofNat ..).trans (Nat.mod_eq_of_lt h)

theorem sums_w32 (mode : Rm) (vs : List FVal) : Sums mode (vs.map FVal.toExt) (w32 (f32.roundedSum mode vs)) := by
  have h : (w32 (f32.roundedSum mode vs)).1.toNat = _ := toNat_w32 (roundedSum_lt regular_f32 mode vs)
  unfold Sums
  rw [h]
  exact sumIs_roundedSum regular_f32 rfl mode vs

theorem fmaIs_w32 (mode : Rm) {a b : FVal} {vs : List FVal} {r : Nat × Byte}
    (hr : r = if a.mulInv b then (f32.nan, 1) else f32.roundedSum mode (a.addend b :: vs)) :
    FmaIs F32 mode a.toExt b.toExt (vs.map FVal.toExt) (w32 r).1.toNat (w32 r).2 := by
  have hlt : r.1 < 2 ^ 32 := by
    rw [hr]
    split
    · exact regular_f32.nan_lt
    · exact roundedSum_lt regular_f32 mode _
  rw [toNat_w32 hlt]
  exact fmaIs_of_roundedSum regular_f32 rfl mode hr

/-! ### Halves of a lane word -/

/-- Half j of a word, as a number. -/
def halfNat (w : Word32) (j : Nat) : Nat := w.toNat / 2 ^ (16 * j) % 2 ^ 16

@[simp] theorem toNat_loHalf (w : Word32) : (loHalf w).toNat = halfNat w 0 := by
  simp [loHalf, halfNat]
@[simp] theorem toNat_hiHalf (w : Word32) : (hiHalf w).toNat = halfNat w 1 := by
  simp [hiHalf, halfNat, Nat.shiftRight_eq_div_pow]
theorem toNat_ofHalves (h l : BitVec 16) : (ofHalves h l).toNat = h.toNat * 2 ^ 16 + l.toNat := by
  rw [ofHalves, BitVec.toNat_append, ← Nat.shiftLeft_add_eq_or_of_lt l.isLt, Nat.shiftLeft_eq]
@[simp] theorem halfNat_ofHalves_zero (h l : BitVec 16) : halfNat (ofHalves h l) 0 = l.toNat := by
  rw [halfNat, toNat_ofHalves]; omega
@[simp] theorem halfNat_ofHalves_one (h l : BitVec 16) : halfNat (ofHalves h l) 1 = h.toNat := by
  rw [halfNat, toNat_ofHalves]; omega

end Sys2Proof.Machine

end

