-- ==== Sys2Proof/Proofs/FloatArithmetic.lean ====
section
/-! # Sums, products, minima, comparisons and classes (O23) -/

namespace Sys2Proof.Machine
open Sys2Proof Sys2Proof.Claims

/-! ### Multiply-adds of halves, and DOT2 -/

theorem fmaIs_fma (f : Fmt) (hf : f.Regular) (hi : f.infs = true) (mode : Rm) (a b c : Nat) :
    FmaIs f.format mode (f.format.ext a) (f.format.ext b) [f.format.ext c]
      (f.fma mode (f.decode a) (f.decode b) (f.decode c)).1 (f.fma mode (f.decode a) (f.decode b) (f.decode c)).2 := by
  simp only [← toExt_decode hf]
  exact fmaIs_of_roundedSum hf hi mode (vs := [_]) (fma_eq_roundedSum ..)

theorem fma_lt {f : Fmt} (hf : f.Regular) (mode : Rm) (a b c : FVal) : (f.fma mode a b c).1 < 2 ^ f.width := by
  rw [fma_eq_roundedSum]
  split
  · exact hf.nan_lt
  · exact roundedSum_lt hf mode _

/-- MAD16 and MADB16 perform a fused multiply-add in each half (R186). -/
theorem madHalves_spec {f : Fmt} (hf : f.Regular) (hi : f.infs = true) (hw : f.width = 16) (mode : Rm) (a b d : Word32) :
    ∃ f0 f1 : Byte, (madHalves f mode a b d).2 = f0 ||| f1 ∧
      FmaIs f.format mode (f.format.ext (halfNat a 0)) (f.format.ext (halfNat b 0)) [f.format.ext (halfNat d 0)]
        (halfNat (madHalves f mode a b d).1 0) f0 ∧
      FmaIs f.format mode (f.format.ext (halfNat a 1)) (f.format.ext (halfNat b 1)) [f.format.ext (halfNat d 1)]
        (halfNat (madHalves f mode a b d).1 1) f1 := by
  have hlt := fun a b c => hw ▸ fma_lt hf mode a b c
  refine ⟨_, _, BitVec.or_comm .., ?_, ?_⟩
  · simp only [madHalves, halfNat_ofHalves_zero, toNat_loHalf, BitVec.toNat_ofNat, Nat.mod_eq_of_lt (hlt _ _ _)]
    exact fmaIs_fma f hf hi ..
  · simp only [madHalves, halfNat_ofHalves_one, toNat_hiHalf, BitVec.toNat_ofNat, Nat.mod_eq_of_lt (hlt _ _ _)]
    exact fmaIs_fma f hf hi ..

theorem opposed_iff (vs : List FVal) : opposed vs = true ↔ .inf false ∈ vs ∧ .inf true ∈ vs := by
  simp [opposed]

/-- The sum of two products and an addend, as DOT2 tells its cases apart. -/
theorem roundedSum_two_addends (f : Fmt) (mode : Rm) (a b c d z : FVal) :
    f.roundedSum mode [a.addend b, c.addend d, z] =
      if a.isNan || b.isNan || c.isNan || d.isNan || z.isNan then (f.nan, nanFlags [a, b, c, d, z])
      else f.sum mode [a.mul b, c.mul d, z] := by
  have hany : [a.addend b, c.addend d, z].any FVal.isNan = (a.isNan || b.isNan || c.isNan || d.isNan || z.isNan) := by
    simp [Bool.or_assoc]
  have hflags : nanFlags [a.addend b, c.addend d, z] = nanFlags [a, b, c, d, z] := by simp [nanFlags, Bool.or_assoc]
  rw [Fmt.roundedSum, hany, hflags]
  split_ifs with h
  · rfl
  · simp only [Bool.or_eq_true, not_or, Bool.not_eq_true] at h
    obtain ⟨⟨⟨⟨ha, hb⟩, hc⟩, hd⟩, -⟩ := h
    rw [addend_of_not_nan ha hb, addend_of_not_nan hc hd]

/-- DOT2 sums two products and an addend, rounded once (R187). -/
theorem dot2W_eq (mode : Rm) (x y z : Word32) :
    let e := fun w j => bf16.decode (halfNat w j)
    dot2W mode x y z =
      if (e x 0).mulInv (e y 0) || (e x 1).mulInv (e y 1) ||
        opposed [(e x 0).addend (e y 0), (e x 1).addend (e y 1), fv z] then (nan32, 1)
      else w32 (f32.roundedSum mode [(e x 0).addend (e y 0), (e x 1).addend (e y 1), fv z]) := by
  intro e
  simp only [dot2W, toNat_loHalf, toNat_hiHalf, roundedSum_two_addends]
  refine if_congr Iff.rfl rfl ?_
  rw [apply_ite w32]
  rfl

/-- Two products and an addend summed exactly: 0 × ∞ and opposite infinities are invalid before any NaN (R187). -/
theorem sums_two_products (mode : Rm) (a b c d z : FVal) {r : Word32 × Byte}
    (hr : r = if a.mulInv b || c.mulInv d || opposed [a.addend b, c.addend d, z] then (nan32, 1)
      else w32 (f32.roundedSum mode [a.addend b, c.addend d, z])) :
    (product a.toExt b.toExt = none ∨ product c.toExt d.toExt = none → r = (0x7FC00000, 1)) ∧
    ∀ u v, product a.toExt b.toExt = some u → product c.toExt d.toExt = some v →
      (.inf false ∈ [u, v, z.toExt] → .inf true ∈ [u, v, z.toExt] → r = (0x7FC00000, 1)) ∧
      (¬ (.inf false ∈ [u, v, z.toExt] ∧ .inf true ∈ [u, v, z.toExt]) → Sums mode [u, v, z.toExt] r) := by
  simp only [product_eq_none_iff, product_eq_some_iff]
  refine ⟨fun h => ?_, ?_⟩
  · rcases h with h | h <;> simp [hr, h, nan32]
  · rintro _ _ ⟨h0, rfl⟩ ⟨h1, rfl⟩
    have hopp := opposed_iff [a.addend b, c.addend d, z]
    rw [← inf_mem_map_toExt, ← inf_mem_map_toExt] at hopp
    rw [h0, h1, Bool.false_or, Bool.false_or] at hr
    refine ⟨fun hp hn => ?_, fun h => ?_⟩
    · rw [hr, if_pos (hopp.2 ⟨hp, hn⟩)]; rfl
    · rw [hr, if_neg (hopp.not.2 h)]
      exact sums_w32 mode [a.addend b, c.addend d, z]

theorem dot2W_spec (mode : Rm) (a b d : Word32) :
    let p := fun j => product (BF16.ext (halfNat a j)) (BF16.ext (halfNat b j))
    let r := dot2W mode a b d
    (p 0 = none ∨ p 1 = none → r = (0x7FC00000, 1)) ∧
     ∀ u v, p 0 = some u → p 1 = some v →
       (.inf false ∈ [u, v, ext32 d] → .inf true ∈ [u, v, ext32 d] → r = (0x7FC00000, 1)) ∧
       (¬ (.inf false ∈ [u, v, ext32 d] ∧ .inf true ∈ [u, v, ext32 d]) → Sums mode [u, v, ext32 d] r) := by
  have hext : ∀ n, BF16.ext n = (bf16.decode n).toExt := fun n => (toExt_decode regular_bf16 n).symm
  simp only [hext, ext32_eq]
  exact sums_two_products mode _ _ _ _ _ (dot2W_eq mode a b d)

/-! ### Order -/

/-- Whether one value is below another: numbers between the infinities, no NaN. -/
def extLess : Ext → Ext → Prop
  | .inf s, .inf t => s = true ∧ t = false
  | .inf s, .num _ _ => s = true
  | .num _ _, .inf t => t = false
  | .num _ v, .num _ w => v < w
  | _, _ => False

/-- The order of FMIN and FMAX: −0 is below +0 (R179). -/
def extBelow : Ext → Ext → Prop
  | .inf s, .inf t => (s || !t) = true
  | .inf s, .num _ _ => s = true
  | .num _ _, .inf t => t = false
  | .num s v, .num t w => v < w ∨ (v = w ∧ (s || !t) = true)
  | _, _ => False

theorem cast_mul_two_pow_toNat_mul {b e : ℤ} (h : b ≤ e) (x : ℤ) :
    ((x * 2 ^ (e - b).toNat : ℤ) : ℚ) * 2 ^ b = x * 2 ^ e := by
  push_cast
  rw [mul_assoc, two_pow_toNat_mul h]

theorem less_fin (signed s t : Bool) (m n : Nat) (e d : Int) :
    FVal.less signed (.fin s m e) (.fin t n d) = true ↔ (term s m : ℚ) * 2 ^ e < term t n * 2 ^ d ∨
      (term s m : ℚ) * 2 ^ e = term t n * 2 ^ d ∧ signed = true ∧ s = true ∧ t = false := by
  have hb : (0 : ℚ) < 2 ^ min e d := by positivity
  rw [← cast_mul_two_pow_toNat_mul (min_le_left e d), ← cast_mul_two_pow_toNat_mul (min_le_right e d),
    mul_lt_mul_iff_left₀ hb, mul_left_inj' hb.ne', Int.cast_lt, Int.cast_inj]
  simp only [FVal.less, Bool.or_eq_true, Bool.and_eq_true, decide_eq_true_eq, Bool.not_eq_true']
  tauto

theorem less_false_iff (a b : FVal) : FVal.less false a b = true ↔ extLess a.toExt b.toExt := by
  cases a with
  | nan s => simp [FVal.less, extLess]
  | inf s => cases b <;> simp [FVal.less, extLess]
  | fin s m e =>
    cases b with
    | nan t => simp [FVal.less, extLess]
    | inf t => simp [FVal.less, extLess]
    | fin t n d => simp [less_fin, extLess]

/-- Of two values that are no NaN, either b is below a strictly or a is below b. -/
theorem extBelow_of_not_less {a b : FVal} (ha : a.isNan = false) (hb : b.isNan = false)
    (h : FVal.less true b a = false) : extBelow a.toExt b.toExt := by
  cases a with
  | nan s => cases ha
  | inf s =>
    cases b with
    | nan t => cases hb
    | inf t | fin t n d => simpa [FVal.less, extBelow, or_comm, imp_iff_not_or] using h
  | fin s m e =>
    cases b with
    | nan t => cases hb
    | inf t => simpa [FVal.less, extBelow] using h
    | fin t n d =>
      rw [← Bool.not_eq_true, less_fin] at h
      rcases lt_trichotomy ((term s m : ℚ) * 2 ^ e) (term t n * 2 ^ d) with hlt | heq | hgt
      · exact .inl hlt
      · refine .inr ⟨heq, ?_⟩
        cases s <;> cases t <;> simp_all
      · exact absurd (.inl hgt) h

theorem extBelow_of_less {a b : FVal} (h : FVal.less true a b = true) : extBelow a.toExt b.toExt := by
  cases a with
  | nan s => simp [FVal.less] at h
  | inf s => cases b <;> simp_all [FVal.less, extBelow]
  | fin s m e =>
    cases b with
    | nan t => simp [FVal.less] at h
    | inf t => simpa [FVal.less, extBelow] using h
    | fin t n d =>
      rw [less_fin] at h
      rcases h with h | ⟨h, -, hs, -⟩
      · exact .inl h
      · exact .inr ⟨h, by simp [hs]⟩

theorem extBelow_refl {a : FVal} (ha : a.isNan = false) : extBelow a.toExt a.toExt := by
  cases a with
  | nan s => cases ha
  | inf s | fin s m e => simp [extBelow]

/-! ### Minima, maxima, comparisons and classes -/

theorem nanFlags_pair (a b : Word32) :
    nanFlags [fv a, fv b] = if (ext32 a).signals || (ext32 b).signals then 1 else 0 := by
  simp [nanFlags, flagIf, fINV, ext32_eq]

theorem fminmax_eq (least nanWins : Bool) (a b : Word32) : fminmax least nanWins a b =
    (if (fv a).isNan && (fv b).isNan then 0x7FC00000
      else if (fv a).isNan || (fv b).isNan then if nanWins then 0x7FC00000 else if (fv a).isNan then b else a
      else if (if least then FVal.less true (fv b) (fv a) else FVal.less true (fv a) (fv b)) then b else a,
      nanFlags [fv a, fv b]) := by
  unfold fminmax
  dsimp only
  split_ifs <;> rfl

/-- FMIN and FMAX deliver an operand that is below, or not below, both (R179). -/
theorem fminmax_spec (least nanWins : Bool) (a b : Word32) :
    let r := fminmax least nanWins a b
    (r.2 = if (ext32 a).signals || (ext32 b).signals then 1 else 0) ∧
    (isNan a → isNan b → r.1 = 0x7FC00000) ∧
    (isNan a → ¬ isNan b → r.1 = if nanWins then 0x7FC00000 else b) ∧
    (¬ isNan a → isNan b → r.1 = if nanWins then 0x7FC00000 else a) ∧
    (¬ isNan a → ¬ isNan b → (r.1 = a ∨ r.1 = b) ∧
      if least then extBelow (ext32 r.1) (ext32 a) ∧ extBelow (ext32 r.1) (ext32 b)
      else extBelow (ext32 a) (ext32 r.1) ∧ extBelow (ext32 b) (ext32 r.1)) := by
  simp only [fminmax_eq, nanFlags_pair, isNan_ext32_iff, Bool.not_eq_true]
  refine ⟨trivial, fun ha hb => ?_, fun ha hb => ?_, fun ha hb => ?_, fun ha hb => ?_⟩
  · simp [ha, hb]
  · simp [ha, hb]
  · simp [ha, hb]
  · simp only [ha, hb, Bool.and_false, Bool.or_false, Bool.false_eq_true, if_false, ext32_eq]
    cases least
    · cases h : FVal.less true (fv a) (fv b)
      · exact ⟨.inl rfl, extBelow_refl ha, extBelow_of_not_less hb ha h⟩
      · exact ⟨.inr rfl, extBelow_of_less h, extBelow_refl hb⟩
    · cases h : FVal.less true (fv b) (fv a)
      · exact ⟨.inl rfl, extBelow_refl ha, extBelow_of_not_less ha hb h⟩
      · exact ⟨.inr rfl, extBelow_of_less h, extBelow_refl hb⟩

/-- Of two values, neither is below the other where they are equal, up to the sign of a zero. -/
theorem eq_iff_not_extLess {x y : Ext} (hx : ∀ s, x ≠ .nan s) (hy : ∀ s, y ≠ .nan s) :
    (x = y ∨ ∃ s t v, x = .num s v ∧ y = .num t v) ↔ ¬ extLess x y ∧ ¬ extLess y x := by
  cases x with
  | nan s => exact absurd rfl (hx s)
  | inf s =>
    cases y with
    | nan t => exact absurd rfl (hy t)
    | inf t => cases s <;> cases t <;> simp [extLess]
    | num t w => cases s <;> simp [extLess]
  | num s v =>
    cases y with
    | nan t => exact absurd rfl (hy t)
    | inf t => cases t <;> simp [extLess]
    | num t w =>
      simp only [extLess, not_lt, Ext.num.injEq, ← le_antisymm_iff]
      constructor
      · rintro (⟨-, rfl⟩ | ⟨_, _, u, ⟨-, rfl⟩, -, rfl⟩) <;> rfl
      · rintro rfl
        exact .inr ⟨s, t, _, ⟨rfl, rfl⟩, rfl, rfl⟩

theorem not_extLess_of_extLess {x y : Ext} (h : extLess x y) : ¬ extLess y x := by
  cases x <;> cases y <;> simp_all [extLess, le_of_lt]

theorem not_extLess_of_nan {x y : Ext} (h : (∃ s, x = .nan s) ∨ ∃ s, y = .nan s) : ¬ extLess x y := by
  rcases h with ⟨s, rfl⟩ | ⟨s, rfl⟩
  · cases y <;> simp [extLess]
  · cases x <;> simp [extLess]

/-- The conditions of Table 6.3, from the three facts that an FCMP finds out about its operands. -/
theorem fcmpHolds_iff (x y : FVal) {c : Nat} (hc : c < 8) {un lt gt eq : Prop}
    (hun : (x.isNan || y.isNan) = true ↔ un) (hlt : FVal.less false x y = true ↔ lt)
    (hgt : FVal.less false y x = true ↔ gt) (heq : eq ↔ ¬ un ∧ ¬ lt ∧ ¬ gt) (hasymm : lt → ¬ gt) (hlun : lt → ¬ un)
    (hgun : gt → ¬ un) :
    fcmpHolds c x y = true ↔ (c = 0 ∧ eq) ∨ (c = 1 ∧ ¬ eq) ∨ (c = 2 ∧ lt) ∨ (c = 3 ∧ (lt ∨ eq)) ∨
      (c = 4 ∧ ¬ un ∧ ¬ lt ∧ ¬ eq) ∨ (c = 5 ∧ ¬ un ∧ ¬ lt) ∨ (c = 6 ∧ un) ∨ (c = 7 ∧ ¬ un) := by
  classical
  rw [heq]
  have hu : (x.isNan || y.isNan) = decide un := Bool.eq_iff_iff.2 (by rw [hun, decide_eq_true_iff])
  have hl : FVal.less false x y = decide lt := Bool.eq_iff_iff.2 (by rw [hlt, decide_eq_true_iff])
  have hg : FVal.less false y x = decide gt := Bool.eq_iff_iff.2 (by rw [hgt, decide_eq_true_iff])
  unfold fcmpHolds
  rw [hu, hl, hg]
  clear hun hlt hgt hu hl hg heq
  interval_cases c <;> simp <;> tauto

/-- FCMP's predicate is its condition on the order of the values, and its flag INV the NaN's (R180). -/
theorem fcmp32_spec (a b : Word32) {c : Nat} (hc : c < 8) (sig : Bool) :
    let un := isNan a ∨ isNan b
    let eq := ¬ un ∧ (ext32 a = ext32 b ∨ ∃ s t v, ext32 a = .num s v ∧ ext32 b = .num t v)
    let lt := ¬ un ∧ extLess (ext32 a) (ext32 b)
    let r := fcmp32 c sig a b
    (r.1 = true ↔ (c = 0 ∧ eq) ∨ (c = 1 ∧ ¬ eq) ∨ (c = 2 ∧ lt) ∨ (c = 3 ∧ (lt ∨ eq)) ∨
      (c = 4 ∧ ¬ un ∧ ¬ lt ∧ ¬ eq) ∨ (c = 5 ∧ ¬ un ∧ ¬ lt) ∨ (c = 6 ∧ un) ∨ (c = 7 ∧ ¬ un)) ∧
    (sig = false → r.2 = if (ext32 a).signals || (ext32 b).signals then 1 else 0) ∧
    (sig = true → (un → r.2 = 1) ∧ (¬ un → r.2 = 0)) := by
  intro un eq lt r
  have hun : ((fv a).isNan || (fv b).isNan) = true ↔ un := by rw [Bool.or_eq_true, ← isNan_ext32_iff, ← isNan_ext32_iff]
  have hlt : FVal.less false (fv a) (fv b) = true ↔ extLess (ext32 a) (ext32 b) := by
    rw [less_false_iff, ext32_eq, ext32_eq]
  have hgt : FVal.less false (fv b) (fv a) = true ↔ extLess (ext32 b) (ext32 a) := by
    rw [less_false_iff, ext32_eq, ext32_eq]
  refine ⟨?_, fun hs => ?_, fun hs => ?_⟩
  · have hlun : extLess (ext32 a) (ext32 b) → ¬ un := fun h hn => not_extLess_of_nan hn h
    have hgun : extLess (ext32 b) (ext32 a) → ¬ un := fun h hn => not_extLess_of_nan hn.symm h
    have heq : eq ↔ ¬ un ∧ ¬ lt ∧ ¬ extLess (ext32 b) (ext32 a) := and_congr_right fun hn => by
      rw [eq_iff_not_extLess (fun s h => hn (.inl ⟨s, h⟩)) (fun s h => hn (.inr ⟨s, h⟩))]
      simp only [lt, hn, not_false_eq_true, true_and]
    exact fcmpHolds_iff _ _ hc hun (hlt.trans ⟨fun h => ⟨hlun h, h⟩, And.right⟩) hgt heq
      (fun h => not_extLess_of_extLess h.2) And.left hgun
  · simp [r, hs, fcmp32, flagIf, ext32_eq, fINV]
  · simp only [← hun]
    cases h : (fv a).isNan || (fv b).isNan <;> simp [r, hs, fcmp32, flagIf, fINV, h]

/-- The size of a finite f32 number tells whether its significand is that of a normal number. -/
theorem abs_lt_two_zpow_emin_iff {w : Word32} {s : Bool} {m : Nat} {e : Int} (h : fv w = .fin s m e) :
    |(term s m : ℚ) * 2 ^ e| < 2 ^ (-126 : ℤ) ↔ m < 2 ^ 23 := by
  obtain ⟨hm, -, he, -⟩ := decode_fin_bounds regular_f32 h
  have hmin : (2 : ℚ) ^ (-126 : ℤ) = 2 ^ 23 * 2 ^ (-149 : ℤ) := by norm_num
  have he0 : (0 : ℚ) < 2 ^ (-149 : ℤ) := by positivity
  rw [abs_term_mul, hmin]
  rcases hm with ⟨hm, rfl⟩ | hm
  · exact iff_of_true (mul_lt_mul_of_pos_right (by exact_mod_cast hm) he0) hm
  · refine iff_of_false (not_lt.2 ?_) (not_lt.2 hm)
    exact mul_le_mul (by exact_mod_cast hm) (zpow_le_zpow_right₀ one_le_two he) he0.le (by positivity)

/-- FCLASS tells apart NaNs, infinities, zeros, subnormal and normal numbers (R177). -/
theorem fclass32_spec (a : Word32) :
    let k := fun (i : Nat) => fclass32 a = BitVec.ofNat 32 (2 ^ i)
    match ext32 a with
    | .nan s => if s then k 8 else k 9
    | .inf s => if s then k 0 else k 7
    | .num s v => if v = 0 then (if s then k 3 else k 4)
      else if |v| < 2 ^ (-126 : ℤ) then (if s then k 2 else k 5) else if s then k 1 else k 6 := by
  intro k
  rw [ext32_eq]
  cases h : fv a with
  | nan s =>
    have hk : k (if s then 8 else 9) := by cases s <;> simp only [k, fclass32, h] <;> rfl
    cases s <;> exact hk
  | inf s =>
    have hk : k (if s then 0 else 7) := by cases s <;> simp only [k, fclass32, h] <;> rfl
    cases s <;> exact hk
  | fin s m e =>
    simp only [k, fclass32, h, toExt_fin, value_toExt_eq_zero, abs_lt_two_zpow_emin_iff h]
    split_ifs <;> rfl

/-- Settles O23: each operation is an exact sum of its operands or their product, rounded once. -/
theorem floatArithmetic : Obligations.FloatArithmetic := by
  intro mode a b d
  refine ⟨?_, ?_, ?_, ?_, ?_, ?_, dot2W_spec mode a b d, fun least nanWins => fminmax_spec least nanWins a b,
    fun c hc sig => ?_, fclass32_spec a⟩
  · rw [fadd32, add_eq_roundedSum, ext32_eq, ext32_eq]
    exact sums_w32 mode [fv a, fv b]
  · rw [fsub32, add_eq_roundedSum, ext32_eq, ext32_eq, opposite_toExt]
    exact sums_w32 mode [fv a, (fv b).flip]
  · simp only [ext32_eq]
    exact fmaIs_w32 mode (vs := []) (mul_eq_roundedSum ..)
  · simp only [ext32_eq]
    exact fmaIs_w32 mode (vs := [_]) (fma_eq_roundedSum ..)
  · simp only [ext32_eq, opposite_toExt]
    exact fmaIs_w32 mode (vs := [_]) (fma_eq_roundedSum ..)
  · rintro f F (h | h) <;> obtain ⟨rfl, rfl⟩ := Prod.mk.inj h
    · exact madHalves_spec regular_f16 rfl rfl mode a b d
    · exact madHalves_spec regular_bf16 rfl rfl mode a b d
  · have h := fcmp32_spec a b hc sig
    generalize ext32 a = x, ext32 b = y at h ⊢
    cases x <;> cases y <;> exact h

end Sys2Proof.Machine

end

