-- ==== Sys2Proof/Proofs/FloatExact.lean ====
section
/-! # Roundings to f32 that are exact -/

namespace Sys2Proof.Machine
open Sys2Proof Sys2Proof.Claims

/-- A real that f32 holds: at most 24 bits at a place not below the last one, and not beyond the largest finite value. -/
def HeldByF32 (x : ℝ) : Prop :=
  ∃ (k : ℕ) (E : ℤ), |x| = k * 2 ^ E ∧ k ≤ 2 ^ 24 ∧ -149 ≤ E ∧ |x| ≤ (2 ^ 24 - 1) * 2 ^ (104 : ℤ)

/-- A magnitude is held where bounds of its significand and exponent say so. -/
theorem heldByF32_of_le {m M : ℕ} {e E : ℤ} (hm : m ≤ M) (hM : M ≤ 2 ^ 24) (he : -149 ≤ e) (he' : e ≤ E)
    (htop : (M : ℝ) * 2 ^ E ≤ (2 ^ 24 - 1) * 2 ^ (104 : ℤ)) : HeldByF32 (m * 2 ^ e) := by
  have habs : |(m : ℝ) * 2 ^ e| = m * 2 ^ e := abs_of_nonneg (by positivity)
  refine ⟨m, e, habs, hm.trans hM, he, habs.trans_le (le_trans ?_ htop)⟩
  have hm : (m : ℝ) ≤ M := by exact_mod_cast hm
  exact mul_le_mul hm (zpow_le_zpow_right₀ one_le_two he') (by positivity) (by positivity)

theorem val_f32_top : ((F32.val F32.top : ℚ) : ℝ) = (2 ^ 24 - 1) * 2 ^ (104 : ℤ) := by
  have h : F32.val F32.top = (f32.maxM : ℚ) * 2 ^ f32.maxE := val_big regular_f32
  have hM : (f32.maxM : ℝ) = 2 ^ 24 - 1 := by norm_num [f32]
  rw [h, Rat.cast_mul, Rat.cast_natCast, hM, Rat.cast_zpow]
  rfl

theorem val_eq_neg_or_abs (F : Format) (w : Nat) : F.val w = (if F.negative w then -1 else 1) * |F.val w| := by
  have hval : ∃ y : ℚ, 0 ≤ y ∧ F.val w = (if F.negative w then -1 else 1) * y := by
    refine ⟨if w / 2 ^ F.frac % 2 ^ F.exp = 0 then (w % 2 ^ F.frac : Nat) / 2 ^ F.frac * 2 ^ (1 - F.bias : ℤ)
      else (1 + (w % 2 ^ F.frac : Nat) / 2 ^ F.frac) * 2 ^ ((w / 2 ^ F.frac % 2 ^ F.exp : ℕ) - F.bias : ℤ), ?_, ?_⟩
    · positivity
    · simp only [Format.val, Format.negative, decide_eq_true_eq]
  obtain ⟨y, hy, hval⟩ := hval
  rw [hval]
  cases F.negative w <;> simp [abs_of_nonneg hy]

/-- The number that an encoding holds has the sign of the encoding. -/
theorem val_eq_of_abs {F : Format} {w : Nat} {x : ℝ} (habs : |(F.val w : ℝ)| = |x|)
    (hneg : F.negative w = true ↔ x < 0) : (F.val w : ℝ) = x := by
  rw [val_eq_neg_or_abs, Rat.cast_mul, Rat.cast_abs, habs]
  by_cases hx : x < 0
  · rw [if_pos (hneg.2 hx), abs_of_neg hx]; push_cast; ring
  · rw [if_neg (hneg.not.2 hx), abs_of_nonneg (not_lt.1 hx)]; push_cast; ring

/-- A rounded natural number that was one before, at an exponent of its own. -/
theorem rounded_eq_of_multiple {mode : Rm} {neg : Bool} {y : ℝ} {n k : ℕ} {E q : ℤ} (hy : y = k * 2 ^ E) (hq : q ≤ E)
    (h : Rounded mode neg (y / 2 ^ q) n) : (n : ℝ) * 2 ^ q = y := by
  have hN : y / 2 ^ q = ((k * 2 ^ (E - q).toNat : ℕ) : ℝ) := by
    rw [hy, mul_div_assoc, two_zpow_div_two_zpow hq]; push_cast; rfl
  rw [hN] at h
  rw [eq_of_rounded_natCast h, ← hN, div_mul_cancel₀ _ (by positivity)]

/-- A number that f32 holds, as a multiple of the last place in its binade. -/
theorem exists_place_of_heldByF32 {x : ℝ} (hx : HeldByF32 x) {u : ℤ} (hu : (2 : ℝ) ^ (23 + u) ≤ |x|) :
    ∃ (k : ℕ) (E : ℤ), |x| = k * 2 ^ E ∧ -149 ≤ E ∧ u ≤ E := by
  obtain ⟨k, E, hk, hk24, hE, -⟩ := hx
  have hplace : ∀ {e : ℤ}, |x| < 2 ^ (e + 1) → 23 + u ≤ e := fun h => by
    have := (zpow_lt_zpow_iff_right₀ (one_lt_two (α := ℝ))).1 (hu.trans_lt h)
    omega
  rcases hk24.lt_or_eq with hlt | rfl
  · refine ⟨k, E, hk, hE, ?_⟩
    have : 23 + u ≤ 23 + E := hplace <| by
      rw [hk, show 23 + E + 1 = 24 + E by ring, zpow_add₀ two_ne_zero]
      exact mul_lt_mul_of_pos_right (by exact_mod_cast hlt) (by positivity)
    omega
  · refine ⟨2 ^ 23, E + 1, ?_, by omega, ?_⟩
    · rw [hk, zpow_add_one₀ two_ne_zero]; norm_num; ring
    · have : 23 + u ≤ 24 + E := hplace <| by
        rw [hk, show 24 + E + 1 = 25 + E by ring, zpow_add₀ two_ne_zero]
        exact mul_lt_mul_of_pos_right (by norm_num) (by positivity)
      omega

/-- Rounding to f32 what f32 holds is exact. -/
theorem roundsTo_exact {mode : Rm} {x : ℝ} {w : Nat} {fl : Byte} (h : RoundsTo F32 mode x w fl) (hx : HeldByF32 x) :
    fl = 0 ∧ F32.ext w = .num (decide (x < 0)) (F32.val w) ∧ (F32.val w : ℝ) = x := by
  obtain ⟨neg, u, m, n, hneg, hlo, -, hm, hn, -, hfin⟩ := h
  obtain ⟨k, E, hk, hE, hu⟩ := exists_place_of_heldByF32 hx hlo
  have hmx := rounded_eq_of_multiple hk hu hm
  have hnx := rounded_eq_of_multiple hk (max_le hu hE) hn
  obtain ⟨-, -, -, -, -, htop⟩ := hx
  obtain ⟨hext, -, habs, hexact, -⟩ := hfin (by rw [hmx, val_f32_top]; exact htop)
  have hval : (F32.val w : ℝ) = x := val_eq_of_abs (habs.trans hnx)
    ((negative_val_of_ext_eq_num hext).1 ▸ hneg)
  refine ⟨hexact hnx.symm, ?_, hval⟩
  rw [hext, Ext.num.injEq]
  exact ⟨Bool.eq_iff_iff.2 (by rw [hneg, decide_eq_true_iff]), rfl⟩

theorem abs_cast_term (s : Bool) (m : Nat) (e : Int) : |((term s m : ℤ) : ℝ) * 2 ^ e| = m * 2 ^ e := by
  simpa using abs_cast_term_mul s m e

theorem term_mul_neg_iff {K : Type} [Field K] [LinearOrder K] [IsStrictOrderedRing K] {s : Bool} {m : Nat} (hm : m ≠ 0)
    (e : Int) : s = true ↔ ((term s m : ℤ) : K) * 2 ^ e < 0 := by
  have he : (0 : K) < 2 ^ e := by positivity
  have hm : (0 : K) < m := by exact_mod_cast Nat.pos_of_ne_zero hm
  cases s
  · simp [term, (mul_pos hm he).le]
  · simp [term, mul_pos hm he]

/-- A signed number that f32 holds is rounded to itself, a zero with its sign. -/
theorem round_exact (mode : Rm) (s : Bool) {m : Nat} {e : Int} (h : HeldByF32 (m * 2 ^ e)) :
    F32.ext (f32.round mode s m e).1 = .num s ((term s m : ℚ) * 2 ^ e) ∧ (f32.round mode s m e).2 = 0 := by
  rcases eq_or_ne m 0 with rfl | hm
  · rw [show f32.round mode s 0 e = (f32.sign s, 0) from if_pos rfl]
    refine ⟨?_, rfl⟩
    have : F32.ext (f32.sign s + 0) = _ := ext_of_subnormal regular_f32 s (M := 0) (by positivity) (Nat.zero_le _)
    cases s <;> simpa [term] using this
  · have habs := abs_cast_term s m e
    have hround := roundsTo_round regular_f32 mode hm (.inl rfl) habs (term_mul_neg_iff hm e)
    obtain ⟨hfl, hext, hval⟩ := roundsTo_exact hround (by
      rw [HeldByF32, habs]
      rwa [HeldByF32, abs_of_nonneg (by positivity)] at h)
    refine ⟨?_, hfl⟩
    rw [hext, ← Bool.eq_iff_iff.2 ((term_mul_neg_iff hm e).trans (decide_eq_true_iff).symm)]
    congr 1
    refine Rat.cast_injective (α := ℝ) (hval.trans ?_)
    push_cast; rfl

end Sys2Proof.Machine

end

