-- ==== Sys2Proof/Proofs/FloatConversions.lean ====
section
/-! # Conversions, packing, scaling and deposits (O24) -/

namespace Sys2Proof.Machine
open Sys2Proof Sys2Proof.Claims

/-! ### To integers (R52, R54) -/

theorem natAbs_term (s : Bool) (k : Nat) : (term s k).natAbs = k := by cases s <;> simp [term]

/-- An exact value is rounded to an integer, and the rounding is exact where it gives the value. -/
theorem roundsToInt_toInt (mode : Rm) (s : Bool) (m : Nat) (e : Int) :
    RoundsToInt mode ((term s m : ℚ) * 2 ^ e) (toInt mode s m e).1 ∧
      ((toInt mode s m e).2 = false ↔ ((toInt mode s m e).1 : ℚ) = term s m * 2 ^ e) := by
  have hround := rounded_roundAt mode s m e 0
  have hexact := roundAt_exact_iff mode s m e 0
  rw [zpow_zero, div_one] at hround
  rw [zpow_zero, mul_one] at hexact
  have hint : (toInt mode s m e).1 = term s (roundAt mode s m e 0).1 := rfl
  have hinx : (toInt mode s m e).2 = (roundAt mode s m e 0).2 := rfl
  rw [hinx, hint, RoundsToInt, abs_cast_term_mul, natAbs_term, hexact]
  generalize (roundAt mode s m e 0).1 = k at *
  refine ⟨?_, ?_⟩
  · rcases eq_or_ne m 0 with rfl | hm
    · have hk : k = 0 := eq_of_rounded_natCast (N := 0) (by simpa using hround)
      have hz : term s 0 = 0 := term_eq_zero.2 rfl
      simpa [hk, hz] using rounded_natCast mode _ 0
    · have hneg := term_mul_neg_iff (K := ℚ) (s := s) hm e
      have hs : decide ((term s m : ℚ) * 2 ^ e < 0) = s := Bool.eq_iff_iff.2 (by rw [decide_eq_true_iff, ← hneg])
      rw [hs]
      refine ⟨hround, fun h => ?_, fun h => ?_⟩
      · simp [term, hneg.2 h]
      · simp [term, Bool.not_eq_true _ ▸ hneg.not.2 (not_lt.2 h)]
  · rw [← Rat.cast_inj (α := ℝ)]
    cases s <;> simp [term, eq_comm]

theorem inexact_eq {inx : Bool} {x y : ℚ} (h : inx = false ↔ x = y) : inx = decide (x ≠ y) := by
  cases inx <;> simp_all

/-- What an integer of a range with its flags is to a value: the value rounded and then clamped. -/
def IsClampedRounding (x : Ext) (mode : Rm) (lo hi : ℤ) (inx : Bool) (n : ℤ) (fl : Byte) : Prop :=
  match x with
  | .nan _ => n = 0 ∧ fl = 1
  | .inf s => n = (if s then lo else hi) ∧ fl = 64
  | .num _ v => ∃ k : ℤ, RoundsToInt mode v k ∧ n = max lo (min hi k) ∧
      fl = (if n = k then 0 else 64) ||| (if inx && (k : ℚ) ≠ v then 16 else 0)

/-- A clamped integer is a bound or itself. -/
theorem max_min_cases {lo hi : ℤ} (h : lo ≤ hi) (k : ℤ) : (k < lo ∧ max lo (min hi k) = lo) ∨
    (¬ k < lo ∧ hi < k ∧ max lo (min hi k) = hi) ∨ (¬ k < lo ∧ ¬ hi < k ∧ max lo (min hi k) = k) := by
  omega

theorem cvtInt_spec (mode : Rm) {lo hi : ℤ} (h : lo ≤ hi) (v : FVal) :
    IsClampedRounding v.toExt mode lo hi true (cvtInt mode lo hi v).1 (cvtInt mode lo hi v).2 := by
  cases v with
  | nan s => exact ⟨rfl, rfl⟩
  | inf s => exact ⟨rfl, rfl⟩
  | fin s m e =>
    obtain ⟨hround, hexact⟩ := roundsToInt_toInt mode s m e
    have hinx := inexact_eq hexact
    refine ⟨_, hround, ?_⟩
    simp only [cvtInt, hinx]
    generalize (toInt mode s m e).1 = k
    rcases max_min_cases h k with ⟨h1, hk⟩ | ⟨h1, h2, hk⟩ | ⟨h1, h2, hk⟩
    · simp [hk, h1, h1.ne', flagIf, fINX, fCLP]
    · simp [hk, h1, h2, h2.ne, flagIf, fINX, fCLP]
    · simp [hk, h1, h2, flagIf, fINX]

theorem cvtPlane_spec (g : Nat) (signed : Bool) (a : Word32) :
    ∃ n : ℤ, (cvtPlane g signed a).1 = BitVec.ofInt 32 n ∧
      IsClampedRounding (ext32 a) .rne (planeLo g signed) (planeHi g signed) false n (cvtPlane g signed a).2 := by
  have hle : planeLo g signed ≤ planeHi g signed := by
    have : (1 : ℤ) ≤ 2 ^ (g - 1) := one_le_pow₀ one_le_two
    have : (1 : ℤ) ≤ 2 ^ g := one_le_pow₀ one_le_two
    cases signed <;> simp only [planeLo, planeHi] <;> grind
  rw [ext32_eq, cvtPlane]
  generalize planeLo g signed = lo at *
  generalize planeHi g signed = hi at *
  cases fv a with
  | nan s => exact ⟨0, rfl, rfl, rfl⟩
  | inf s => exact ⟨_, rfl, rfl, rfl⟩
  | fin s m e =>
    have hround := (roundsToInt_toInt .rne s m e).1
    dsimp only
    generalize (toInt .rne s m e).1 = k at *
    refine ⟨max lo (min hi k), ?_⟩
    rcases max_min_cases hle k with ⟨h1, hk⟩ | ⟨h1, h2, hk⟩ | ⟨h1, h2, hk⟩
    · rw [hk, if_pos h1]
      exact ⟨rfl, k, hround, hk.symm, by simp [h1.ne', fCLP]⟩
    · rw [hk, if_neg h1, if_pos h2]
      exact ⟨rfl, k, hround, hk.symm, by simp [h2.ne, fCLP]⟩
    · rw [hk, if_neg h1, if_neg h2]
      exact ⟨rfl, k, hround, hk.symm, by simp⟩

/-! ### To other formats (R49, R50) -/

theorem conv_eq_roundedSum (f : Fmt) (mode : Rm) (v : FVal) : f.conv mode v = f.roundedSum mode [v] := by
  cases v with
  | nan s => simp [Fmt.conv, Fmt.roundedSum, FVal.isNan, nanFlags, FVal.isSnan]
  | inf s => cases s <;> simp [Fmt.conv, Fmt.roundedSum, FVal.isNan, sum_eq]
  | fin s m e =>
    have hsum : f.roundedSum mode [.fin s m e] = f.roundSum mode [(s, m, e)] := by
      simp [Fmt.roundedSum, FVal.isNan, sum_eq, FVal.parts]
    rw [hsum, roundSum_eq]
    simp only [sumTerms, term_eq_zero, natAbs_term]
    rcases eq_or_ne m 0 with rfl | hm
    · cases s <;> simp [Fmt.conv, Fmt.round]
    · rw [if_neg hm]
      cases s <;> simp [Fmt.conv, term, Nat.pos_of_ne_zero hm, (Int.natCast_nonneg m).not_gt]

theorem convIs_conv {f : Fmt} (hf : f.Regular) (hi : f.infs = true) (mode : Rm) (v : FVal) :
    ConvIs f.format mode v.toExt (f.conv mode v).1 (f.conv mode v).2 ∧ (f.conv mode v).1 < 2 ^ f.width := by
  rw [conv_eq_roundedSum]
  exact ⟨sumIs_roundedSum hf hi mode [v], roundedSum_lt hf mode [v]⟩

/-- To nearest, a value lies beyond a number where it is past the midpoint after it, or on it and the number is odd. -/
theorem lt_rounded_rne_iff {neg : Bool} {y : ℝ} {n : ℕ} (h : Rounded .rne neg y n) (N : ℕ) :
    N < n ↔ (N : ℝ) + 1 / 2 < y ∨ y = N + 1 / 2 ∧ N % 2 = 1 := by
  have hle : |y - n| ≤ 1 / 2 := by rcases h with h | ⟨h, -⟩ <;> linarith
  obtain ⟨h1, h2⟩ := abs_le.1 hle
  constructor
  · intro hn
    have hn1 : (N : ℝ) + 1 ≤ n := by exact_mod_cast hn
    refine or_iff_not_imp_left.2 fun hlt => ?_
    have hy : y = N + 1 / 2 := by linarith
    have hnN : n = N + 1 := by
      have : (n : ℝ) ≤ N + 1 := by linarith
      exact le_antisymm (by exact_mod_cast this) hn
    refine ⟨hy, ?_⟩
    rcases h with h | ⟨-, h⟩
    · rw [hy, hnN, abs_lt] at h; push_cast at h; linarith
    · omega
  · rintro hy
    by_contra hn
    have hn : (n : ℝ) ≤ N := by exact_mod_cast not_lt.1 hn
    obtain ⟨hy, hodd⟩ : y = N + 1 / 2 ∧ N % 2 = 1 := hy.resolve_left (by linarith)
    have hnN : n = N := by
      have : (N : ℝ) ≤ n := by linarith
      exact_mod_cast le_antisymm hn this
    rcases h with h | ⟨-, h⟩
    · rw [hy, hnN, abs_lt] at h; linarith
    · omega

/-- The threshold of overflow to nearest: the midpoint after the largest finite value, itself beyond if its significand is
odd (R50). -/
theorem overRounded_rne_iff {f : Fmt} (hf : f.Regular) (s : Bool) {m : Nat} (hm : m ≠ 0) (e : Int) :
    f.overRounded .rne s m e = true ↔ ((f.maxM : ℝ) + 1 / 2) * 2 ^ f.maxE < m * 2 ^ e ∨
      (m : ℝ) * 2 ^ e = ((f.maxM : ℝ) + 1 / 2) * 2 ^ f.maxE ∧ f.maxM % 2 = 1 := by
  have hE : (0 : ℝ) < 2 ^ f.maxE := by positivity
  have hM1 : (2 : ℝ) ^ f.fbits ≤ f.maxM := by exact_mod_cast hf.le_maxM
  have hM2 : (f.maxM : ℝ) + 1 ≤ 2 ^ f.fbits * 2 := by exact_mod_cast pow_succ 2 f.fbits ▸ hf.maxM_lt
  have hover := (rounded_over_iff hf .rne s hm e).2.2
  have hround := rounded_roundAt .rne s m e (f.quantumU m e)
  obtain ⟨hlo, hhi⟩ := binade_of_quantumU f hm e
  obtain ⟨hnlo, hnhi⟩ := significand_of_quantumU f .rne s hm e
  rw [← Bool.not_eq_false, hover, not_le]
  generalize f.quantumU m e = u at *
  generalize (roundAt .rne s m e u).1 = n at *
  generalize (m : ℝ) * 2 ^ e = x at *
  rcases lt_trichotomy u f.maxE with h | rfl | h
  · have hu : (2 : ℝ) ^ (f.fbits + 1 + u) ≤ f.maxM * 2 ^ f.maxE := calc
      (2 : ℝ) ^ (f.fbits + 1 + u) ≤ 2 ^ (f.fbits + f.maxE) := zpow_le_zpow_right₀ one_le_two (by omega)
      _ = 2 ^ f.fbits * 2 ^ f.maxE := by rw [zpow_add₀ two_ne_zero, zpow_natCast]
      _ ≤ f.maxM * 2 ^ f.maxE := mul_le_mul_of_nonneg_right hM1 hE.le
    have hn : (n : ℝ) * 2 ^ u ≤ 2 ^ (f.fbits + 1 + u) := by
      rw [zpow_add₀ two_ne_zero]
      exact mul_le_mul_of_nonneg_right (by exact_mod_cast hnhi) (by positivity)
    refine iff_of_false (not_lt.2 (hn.trans hu)) ?_
    rw [add_mul]
    rintro (h | ⟨h, -⟩) <;> linarith
  · rw [mul_lt_mul_iff_left₀ hE, Nat.cast_lt, lt_rounded_rne_iff hround, lt_div_iff₀ hE, div_eq_iff hE.ne']
  · have hu : ((f.maxM : ℝ) + 1) * 2 ^ f.maxE ≤ 2 ^ (f.fbits + u) := calc
      ((f.maxM : ℝ) + 1) * 2 ^ f.maxE ≤ 2 ^ f.fbits * 2 * 2 ^ f.maxE := mul_le_mul_of_nonneg_right hM2 hE.le
      _ = 2 ^ (f.fbits + (f.maxE + 1)) := by
        rw [zpow_add₀ two_ne_zero, zpow_add_one₀ two_ne_zero, zpow_natCast]; ring
      _ ≤ 2 ^ (f.fbits + u) := zpow_le_zpow_right₀ one_le_two (by omega)
    have hn : (2 : ℝ) ^ (f.fbits + u) ≤ n * 2 ^ u := by
      rw [zpow_add₀ two_ne_zero, zpow_natCast]
      exact mul_le_mul_of_nonneg_right (by exact_mod_cast hnlo) (by positivity)
    rw [add_mul] at *
    exact iff_of_true (by linarith) (.inl (by linarith))

theorem conv8_fin (f : Fmt) (sat : Bool) (s : Bool) (m : Nat) (e : Int) : f.conv8 sat (.fin s m e) =
    if m = 0 then (f.sign s, 0)
    else if f.overRounded .rne s m e then
      (if sat then (f.big s, 64 ||| 16) else (if f.infs then f.inf s else f.nan, 4 ||| 16))
    else f.round .rne s m e := rfl

theorem regular_of_narrow {f : Fmt} (hf : f = e4m3 ∨ f = e5m2) : f.Regular := by
  rcases hf with rfl | rfl
  · exact regular_e4m3
  · exact regular_e5m2

/-- The thresholds of overflow to e4m3 and e5m2 (R50). -/
theorem far_eq_overRounded {f : Fmt} (hf : f = e4m3 ∨ f = e5m2) (s : Bool) {m : Nat} (hm : m ≠ 0) (e : Int) :
    (if f.format.inf.isSome then decide (61440 ≤ |(term s m : ℚ) * 2 ^ e|)
      else decide (464 < |(term s m : ℚ) * 2 ^ e|)) = f.overRounded .rne s m e := by
  rw [Bool.eq_iff_iff, abs_term_mul]
  rcases hf with rfl | rfl
  · have hmid : ((e4m3.maxM : ℝ) + 1 / 2) * 2 ^ e4m3.maxE = 464 := by norm_num [e4m3]
    have hfar : (464 : ℚ) < m * 2 ^ e ↔ (464 : ℝ) < m * 2 ^ e := by
      rw [← Rat.cast_lt (K := ℝ)]; push_cast; rfl
    rw [overRounded_rne_iff regular_e4m3 s hm, hmid]
    exact (decide_eq_true_iff.trans hfar).trans (or_iff_left fun h => absurd h.2 (by decide)).symm
  · have hmid : ((e5m2.maxM : ℝ) + 1 / 2) * 2 ^ e5m2.maxE = 61440 := by norm_num [e5m2]
    have hfar : (61440 : ℚ) ≤ m * 2 ^ e ↔ (61440 : ℝ) ≤ m * 2 ^ e := by
      rw [← Rat.cast_le (K := ℝ)]; push_cast; rfl
    rw [overRounded_rne_iff regular_e5m2 s hm, hmid, and_iff_left (by decide), @eq_comm ℝ, ← le_iff_lt_or_eq]
    exact decide_eq_true_iff.trans hfar

/-- A number alone is a sum that is rounded once, or a zero with its sign. -/
theorem sumIs_singleton {F : Format} {mode : Rm} {s : Bool} {x : ℚ} {w : Nat} {fl : Byte}
    (hround : x ≠ 0 → RoundsTo F mode x w fl) (hzero : x = 0 → fl = 0 ∧ w = F.zero s) :
    SumIs F mode [.num s x] w fl := by
  have hsum : ([Ext.num s x].map Ext.value).sum = x := add_zero x
  refine sumIs_of_num (fun t ht => ⟨s, x, by simpa using ht⟩) (hsum.symm ▸ hround) fun h => ?_
  cases s <;> exact hzero (hsum ▸ h)

theorem conv8Is_conv8 {f : Fmt} (hf : f = e4m3 ∨ f = e5m2) (sat : Bool) (v : FVal) :
    Conv8Is f.format sat v.toExt (f.conv8 sat v).1 (f.conv8 sat v).2 := by
  have hsome : f.format.inf.isSome = f.infs := by rcases hf with rfl | rfl <;> rfl
  have hbeyond : ∀ s, (if f.format.inf.isSome then f.format.infinity s else f.format.nan) =
      if f.infs then f.inf s else f.nan := fun s => by
    rw [hsome]
    cases hi : f.infs
    · rfl
    · simp only [if_true, inf_eq_infinity hi]
  cases v with
  | nan s => exact ⟨rfl, rfl⟩
  | inf s =>
    have hconv : f.conv8 sat (.inf s) = if sat then (f.big s, 64)
      else (if f.infs then f.inf s else f.nan, flagIf (!f.infs) fOVF) := rfl
    rw [hconv]
    refine ⟨fun h => ?_, fun h => ?_⟩
    · rw [if_pos h]
      exact ⟨big_eq_largest f s, rfl⟩
    · rw [h, if_neg Bool.false_ne_true]
      refine ⟨(hbeyond s).symm, ?_⟩
      rw [hsome]
      cases f.infs <;> rfl
  | fin s m e =>
    rw [conv8_fin]
    refine ⟨fun hfar => ?_, fun hfar => ?_⟩
    · have hm : m ≠ 0 := by
        rintro rfl
        have hz : (term s 0 : ℚ) * 2 ^ e = 0 := value_toExt_eq_zero.2 rfl
        rw [hz] at hfar
        rcases hf with rfl | rfl <;> norm_num [Fmt.format, e4m3, e5m2] at hfar
      rw [far_eq_overRounded hf s hm] at hfar
      rw [if_neg hm, if_pos hfar]
      refine ⟨fun h => ?_, fun h => ?_⟩
      · rw [if_pos h]
        exact ⟨big_eq_largest f s, rfl⟩
      · rw [h, if_neg Bool.false_ne_true]
        exact ⟨(hbeyond s).symm, rfl⟩
    · rcases eq_or_ne m 0 with rfl | hm
      · exact sumIs_singleton (fun h => absurd (value_toExt_eq_zero.2 rfl) h) fun _ => ⟨rfl, rfl⟩
      · rw [far_eq_overRounded hf s hm] at hfar
        rw [if_neg hm, hfar, if_neg Bool.false_ne_true]
        refine sumIs_singleton (fun _ => ?_) fun h => absurd (value_toExt_eq_zero.1 h) hm
        refine roundsTo_round (regular_of_narrow hf) .rne hm (.inr hfar) (abs_cast_term_mul s m e) ?_
        simpa using term_mul_neg_iff (K := ℝ) hm e

theorem conv8_lt {f : Fmt} (hf : f = e4m3 ∨ f = e5m2) (sat : Bool) (v : FVal) : (f.conv8 sat v).1 < 2 ^ 8 := by
  have hreg := regular_of_narrow hf
  have hw : f.width = 8 := by rcases hf with rfl | rfl <;> rfl
  have hover : ∀ s, (if f.infs then f.inf s else f.nan) < 2 ^ f.width := fun s => by
    split
    · exact inf_lt hreg s
    · exact hreg.nan_lt
  rw [← hw]
  cases v with
  | nan s => exact hreg.nan_lt
  | inf s =>
    cases sat
    · exact hover s
    · exact big_lt hreg s
  | fin s m e =>
    rw [conv8_fin]
    split_ifs with hm hfar hsat
    · exact sign_lt hreg s
    · exact big_lt hreg s
    · exact inf_lt hreg s
    · exact hreg.nan_lt
    · exact round_lt hreg ..

/-! ### SCALB and FRND (R182) -/

/-- The bounds of a finite f32 word's significand and exponent. -/
theorem fv_bounds {a : Word32} {s : Bool} {m : Nat} {e : Int} (h : fv a = .fin s m e) :
    m < 2 ^ 24 ∧ -149 ≤ e ∧ e ≤ 104 := by
  obtain ⟨-, hm, hlo, -, hhi⟩ := decode_fin_bounds regular_f32 h
  have hlo : (1 - 127 - 23 : ℤ) ≤ e := hlo
  have hhi : e + 127 + 23 + 1 < 2 ^ 8 := hhi rfl
  exact ⟨hm, by omega, by omega⟩

theorem bitLen_le {m n : Nat} (h : m < 2 ^ n) : bitLen m ≤ n := by
  rcases eq_or_ne m 0 with rfl | hm
  · exact Nat.zero_le n
  · have := Nat.pow_lt_pow_iff_right (one_lt_two) |>.1 ((two_pow_le_of_bitLen hm).trans_lt h)
    omega

/-- A value of 2^128 or more overflows, whatever its exponent. -/
theorem round_of_large (mode : Rm) (s : Bool) {m : Nat} (hm : m ≠ 0) {e : Int} (he : 128 ≤ e) :
    f32.round mode s m e = (f32.overflow mode s, 4 ||| 16) := by
  have hover : f32.overRounded mode s m e = true := by
    rw [← Bool.not_eq_false, (rounded_over_iff regular_f32 mode s hm e).2.2, not_le]
    have hu : 105 ≤ f32.quantumU m e := by
      have := bitLen_pos hm
      simp only [Fmt.quantumU, f32]
      omega
    have hn : (2 : ℝ) ^ 23 ≤ (roundAt mode s m e (f32.quantumU m e)).1 := by
      exact_mod_cast (significand_of_quantumU f32 mode s hm e).1
    calc (f32.maxM : ℝ) * 2 ^ f32.maxE < 2 ^ 23 * 2 ^ (105 : ℤ) := by norm_num [f32]
      _ ≤ _ := mul_le_mul hn (zpow_le_zpow_right₀ one_le_two hu) (by positivity) (by positivity)
  rw [round_eq f32 mode s hm, hover, if_pos rfl]

theorem roundUp_of_below_half (mode : Rm) (s : Bool) {k r S : Nat} (hr : r ≠ 0) (h : 2 * r < S) :
    roundUp mode s k r S = roundUp mode s k 1 3 := by
  cases mode <;> simp [roundUp, hr, h.not_gt, h.ne]

/-- A value below half the least subnormal is rounded by its sign alone. -/
theorem round_of_small (mode : Rm) (s : Bool) {m : Nat} (hm : m ≠ 0) (hm24 : m < 2 ^ 24) {e : Int} (he : e ≤ -250) :
    f32.round mode s m e = (f32.pack s (if roundUp mode s 0 1 3 then 1 else 0) (-149), 16 ||| 8) := by
  have hu : f32.quantumU m e ≤ -250 := by
    have := bitLen_le hm24
    simp only [Fmt.quantumU, f32]
    omega
  have hn : ((roundAt mode s m e (f32.quantumU m e)).1 : ℝ) ≤ 2 ^ 24 := by
    exact_mod_cast (significand_of_quantumU f32 mode s hm e).2
  have hsmall : ((roundAt mode s m e (f32.quantumU m e)).1 : ℝ) * 2 ^ f32.quantumU m e ≤ 2 ^ 24 * 2 ^ (-250 : ℤ) :=
    mul_le_mul hn (zpow_le_zpow_right₀ one_le_two hu) (by positivity) (by positivity)
  have hover : f32.overRounded mode s m e = false :=
    (rounded_over_iff regular_f32 mode s hm e).2.2.2 (hsmall.trans (by norm_num [f32]))
  have htiny : f32.tiny mode s m e = true :=
    (tiny_iff f32 mode s hm e).2 (hsmall.trans_lt (by norm_num [f32, Fmt.emin]))
  have hq : max (f32.quantumU m e) (f32.emin - f32.fbits) = -149 := max_eq_right (by
    simp only [Fmt.emin, f32] at *; omega)
  have hround : roundAt mode s m e (-149) = (if roundUp mode s 0 1 3 then 1 else 0, true) := by
    have hS : 2 * m < 2 ^ (-149 - e).toNat := by
      have : 2 ^ 25 ≤ 2 ^ (-149 - e).toNat := Nat.pow_le_pow_right two_pos (by omega)
      omega
    rw [roundAt, if_neg (by omega)]
    simp only [Nat.div_eq_of_lt (by omega : m < 2 ^ (-149 - e).toNat),
      Nat.mod_eq_of_lt (by omega : m < 2 ^ (-149 - e).toNat), roundUp_of_below_half mode s hm hS]
    exact Prod.ext rfl (decide_eq_true hm)
  rw [round_eq f32 mode s hm]
  simp only [hover, htiny, hq, hround]
  rfl

/-- Beyond 600 in magnitude, an exponent added no longer changes a rounded f32 value. -/
theorem round_add_clamped (mode : Rm) (s : Bool) {m : Nat} (hm : m ≠ 0) (hm24 : m < 2 ^ 24) {e : Int} (he : -149 ≤ e)
    (he' : e ≤ 104) (k : Int) : f32.round mode s m (e + max (-600) (min 600 k)) = f32.round mode s m (e + k) := by
  rcases max_min_cases (by omega : (-600 : ℤ) ≤ 600) k with ⟨h, hk⟩ | ⟨-, h, hk⟩ | ⟨-, -, hk⟩
  · rw [hk, round_of_small mode s hm hm24 (by omega), round_of_small mode s hm hm24 (by omega)]
  · rw [hk, round_of_large mode s hm (by omega), round_of_large mode s hm (by omega)]
  · rw [hk]

theorem scalb32_spec (mode : Rm) (a : Word32) (k : ℤ) :
    match ext32 a with
    | .nan s => scalb32 mode a k = (0x7FC00000, if s then 1 else 0)
    | .inf _ => scalb32 mode a k = (a, 0)
    | .num _ v => (v = 0 → scalb32 mode a k = (a, 0)) ∧
      (v ≠ 0 → RoundsTo F32 mode (v * 2 ^ k) (scalb32 mode a k).1.toNat (scalb32 mode a k).2) := by
  rw [ext32_eq, scalb32]
  cases h : fv a with
  | nan s => rfl
  | inf s => rfl
  | fin s m e =>
    obtain ⟨hm24, he, he'⟩ := fv_bounds h
    simp only [toExt_fin, ne_eq, value_toExt_eq_zero]
    refine ⟨fun hm => if_pos hm, fun hm => ?_⟩
    rw [if_neg hm, round_add_clamped mode s hm hm24 he he', toNat_w32 (round_lt regular_f32 ..)]
    refine roundsTo_round regular_f32 mode hm (.inl rfl) ?_ ?_
    · rw [abs_mul, abs_cast_term_mul, abs_of_pos (by positivity : (0 : ℝ) < 2 ^ k), mul_assoc,
        ← zpow_add₀ two_ne_zero]
    · rw [term_mul_neg_iff (K := ℝ) hm (e + k), zpow_add₀ two_ne_zero, ← mul_assoc]
      push_cast; rfl

/-- An f32 number rounded to an integer is an integer that f32 holds. -/
theorem heldByF32_roundAt {a : Word32} {s : Bool} {m : Nat} {e : Int} (h : fv a = .fin s m e) (mode : Rm) :
    HeldByF32 (((roundAt mode s m e 0).1 : ℝ) * 2 ^ (0 : ℤ)) := by
  obtain ⟨hm24, he, he'⟩ := fv_bounds h
  have hround := rounded_roundAt mode s m e 0
  rw [zpow_zero, div_one] at hround
  rw [zpow_zero, mul_one]
  generalize (roundAt mode s m e 0).1 = n at *
  rcases le_or_gt 0 e with h0 | h0
  · have hn : (n : ℝ) = m * 2 ^ e := by
      have := rounded_eq_of_multiple (y := m * 2 ^ e) rfl h0 (by simpa using hround)
      simpa using this
    rw [hn]
    exact heldByF32_of_le (Nat.le_sub_one_of_lt hm24) (Nat.sub_le _ _) he he' (by norm_num)
  · have hn : n ≤ 2 ^ 24 := by
      refine rounded_le_of_le hround ?_
      calc (m : ℝ) * 2 ^ e ≤ m * 1 := by gcongr; exact zpow_le_one_of_nonpos₀ one_le_two h0.le
        _ ≤ (2 ^ 24 : ℕ) := by rw [mul_one]; exact_mod_cast hm24.le
    simpa using heldByF32_of_le (e := 0) hn le_rfl (by norm_num) le_rfl (by norm_num)

theorem frnd32_spec (mode : Rm) (a : Word32) :
    match ext32 a with
    | .nan s => frnd32 mode a = (0x7FC00000, if s then 1 else 0)
    | .inf _ => frnd32 mode a = (a, 0)
    | .num s v => ∃ n : ℤ, RoundsToInt mode v n ∧ ext32 (frnd32 mode a).1 = .num s n ∧
        (frnd32 mode a).2 = if (n : ℚ) = v then 0 else 16 := by
  rw [ext32_eq, frnd32]
  cases h : fv a with
  | nan s => rfl
  | inf s => rfl
  | fin s m e =>
    obtain ⟨hround, hexact⟩ := roundsToInt_toInt mode s m e
    have hint : (toInt mode s m e).1 = term s (roundAt mode s m e 0).1 := rfl
    refine ⟨_, hround, ?_, ?_⟩
    · have hext := (round_exact .rne s (heldByF32_roundAt h mode)).1
      rw [zpow_zero, mul_one] at hext
      dsimp only
      rw [hint, natAbs_term, ← hext]
      exact congrArg F32.ext (toNat_w32 (round_lt regular_f32 ..))
    · simp only [inexact_eq hexact, flagIf, fINX]
      split_ifs <;> simp_all

/-! ### Deposits (R59) -/

/-- The floor of a value at a place, and whether it is inexact. -/
theorem floorAt_spec (n e q : ℤ) : (floorAt n e q).1 = ⌊(n : ℚ) * 2 ^ (e - q)⌋ ∧
    ((floorAt n e q).2 = true ↔ ((floorAt n e q).1 : ℚ) ≠ n * 2 ^ (e - q)) := by
  unfold floorAt
  split_ifs with h
  · have hint : (n : ℚ) * 2 ^ (e - q) = ((n * 2 ^ (e - q).toNat : ℤ) : ℚ) := by
      push_cast
      rw [← zpow_natCast, Int.toNat_of_nonneg (by omega)]
    rw [hint, Int.floor_intCast]
    simp
  · have hS : (2 : ℚ) ^ (e - q) = 1 / ((2 ^ (q - e).toNat : ℤ) : ℚ) := by
      push_cast
      rw [← zpow_natCast, Int.toNat_of_nonneg (by omega), one_div, ← zpow_neg, neg_sub]
    have hpos : (0 : ℤ) < 2 ^ (q - e).toNat := by positivity
    rw [hS, mul_one_div]
    generalize (2 : ℤ) ^ (q - e).toNat = S at *
    have hS0 : (S : ℚ) ≠ 0 := by exact_mod_cast hpos.ne'
    simp only [Int.fdiv_eq_ediv_of_nonneg _ hpos.le, Int.fmod_eq_emod_of_nonneg _ hpos.le, decide_eq_true_eq, ne_eq]
    refine ⟨?_, not_congr ?_⟩
    · obtain ⟨d, rfl⟩ := Int.eq_ofNat_of_zero_le hpos.le
      exact_mod_cast (Rat.floor_intCast_div_natCast n d).symm
    · rw [eq_div_iff hS0, ← Int.dvd_iff_emod_eq_zero]
      exact ⟨fun h => by exact_mod_cast Int.ediv_mul_cancel h,
        fun h => ⟨n / S, by rw [mul_comm]; exact_mod_cast h.symm⟩⟩

theorem sxt_range (x : Nat) : -(2 ^ 255) ≤ sxt 256 x ∧ sxt 256 x < 2 ^ 255 := by
  simp only [sxt]
  split_ifs <;> omega

theorem sxt_sub_mod (x : Nat) : (sxt 256 x - x) % 2 ^ 256 = 0 := by
  simp only [sxt]
  split_ifs <;> omega

/-- The entry after a deposit and its flags, from the floor deposited. -/
theorem xaDeposit_eq (x : Nat) (n e : ℤ) :
    let z := (floorAt n e (-160)).1
    let t := sxt 256 x + z
    xaDeposit x n e = ((t % 2 ^ 256).toNat, flagIf (floorAt n e (-160)).2 2 |||
      flagIf ((z < -(2 ^ 255) || 2 ^ 255 ≤ z) || (t < -(2 ^ 255) || 2 ^ 255 ≤ t)) 1) := rfl

/-- The flags of a deposit, each by its own bit. -/
theorem getLsbD_depositFlags (inx out : Bool) : ((flagIf inx 2 ||| flagIf out 1).getLsbD 0 = out) ∧
    ((flagIf inx 2 ||| flagIf out 1).getLsbD 1 = inx) ∧ (flagIf inx 2 ||| flagIf out 1).toNat < 4 := by
  cases inx <;> cases out <;> decide

theorem depositIs_xaDeposit (x : Nat) (n e : ℤ) :
    DepositIs (sxt 256 x) (n * 2 ^ e) (sxt 256 (xaDeposit x n e).1) (xaDeposit x n e).2 := by
  obtain ⟨hfloor, hinx⟩ := floorAt_spec n e (-160)
  have hscale : (n : ℚ) * 2 ^ e * 2 ^ 160 = n * 2 ^ (e - -160) := by
    rw [sub_neg_eq_add, zpow_add₀ two_ne_zero, mul_assoc]; norm_cast
  have heq := xaDeposit_eq x n e
  unfold DepositIs
  rw [hscale, ← hfloor, heq]
  generalize (floorAt n e (-160)).1 = z at *
  generalize (floorAt n e (-160)).2 = inx at *
  obtain ⟨h0, h1, h4⟩ := getLsbD_depositFlags inx ((z < -(2 ^ 255) || 2 ^ 255 ≤ z) ||
    (sxt 256 x + z < -(2 ^ 255) || 2 ^ 255 ≤ sxt 256 x + z))
  refine ⟨sxt_range _, ?_, ?_, ?_, h4⟩
  · have := sxt_sub_mod ((sxt 256 x + z) % 2 ^ 256).toNat
    dsimp only
    omega
  · rw [h0]
    simp only [Bool.or_eq_true, decide_eq_true_eq]
    omega
  · rw [h1, hinx]

/-! ### Conversions of lane words -/

theorem fv_toNat_mod (a : Word32) : f32.decode (a.toNat % 2 ^ 32) = fv a := by
  rw [Nat.mod_eq_of_lt a.isLt]; rfl

/-- A conversion to a format of 16 or 32 bits, as a lane performs it (R49). -/
theorem convIs_reformat {h : Fmt} (hh : h.Regular) (hi : h.infs = true) (hw : h.width = 16 ∨ h.width = 32) {f : Fmt}
    (hf : f.Regular) (mode : Rm) (sat : Bool) (a : Word32) :
    ConvIs h.format mode (f.format.ext (a.toNat % 2 ^ f.width)) (reformat mode f h sat a).1.toNat
      (reformat mode f h sat a).2 := by
  have hconv : h.convTo mode sat (f.decode (a.toNat % 2 ^ f.width)) = h.conv mode (f.decode (a.toNat % 2 ^ f.width)) :=
    if_neg (by omega)
  obtain ⟨hspec, hlt⟩ := convIs_conv hh hi mode (f.decode (a.toNat % 2 ^ f.width))
  have hlt32 : (h.conv mode (f.decode (a.toNat % 2 ^ f.width))).1 < 2 ^ 32 :=
    hlt.trans_le (Nat.pow_le_pow_right two_pos (by omega))
  rw [toExt_decode hf] at hspec
  rwa [reformat, hconv, BitVec.toNat_ofNat, Nat.mod_eq_of_lt hlt32]

/-- A conversion of an f32 word to a format of 8 bits (R50). -/
theorem conv8Is_reformat {h : Fmt} (hh : h = e4m3 ∨ h = e5m2) (mode : Rm) (sat : Bool) (a : Word32) :
    Conv8Is h.format sat (ext32 a) (reformat mode f32 h sat a).1.toNat (reformat mode f32 h sat a).2 := by
  have hconv : h.convTo mode sat (fv a) = h.conv8 sat (fv a) := if_pos (by rcases hh with rfl | rfl <;> rfl)
  have hlt32 : (h.conv8 sat (fv a)).1 < 2 ^ 32 := (conv8_lt hh sat (fv a)).trans (by norm_num)
  rw [reformat, show f32.width = 32 from rfl, fv_toNat_mod, hconv, ext32_eq, BitVec.toNat_ofNat, Nat.mod_eq_of_lt hlt32]
  exact conv8Is_conv8 hh sat (fv a)

/-- A narrower number is an f32 number of the same value and sign (R49). -/
theorem reformat_exact {f : Fmt} (hf : f = f16 ∨ f = bf16 ∨ f = e4m3 ∨ f = e5m2) {a : Word32} {s : Bool} {v : ℚ}
    (hv : f.format.ext (a.toNat % 2 ^ f.width) = .num s v) :
    ext32 (reformat .rne f f32 false a).1 = .num s v ∧ (reformat .rne f f32 false a).2 = 0 := by
  have hreg : f.Regular := by
    rcases hf with rfl | rfl | hf
    · exact regular_f16
    · exact regular_bf16
    · exact regular_of_narrow hf
  rw [← toExt_decode hreg] at hv
  cases h : f.decode (a.toNat % 2 ^ f.width) with
  | nan t | inf t => rw [h] at hv; cases hv
  | fin t m e =>
    rw [h] at hv
    obtain ⟨rfl, rfl⟩ := Ext.num.inj hv
    have hheld : HeldByF32 ((m : ℝ) * 2 ^ e) := by
      obtain ⟨-, hm, hlo, hhi, hhi'⟩ := decode_fin_bounds hreg h
      rcases hf with rfl | rfl | rfl | rfl <;> simp only [f16, bf16, e4m3, e5m2, Fmt.emin] at hm hlo hhi hhi'
      · exact heldByF32_of_le (M := 2047) (E := 5) (by omega) (by norm_num) (by omega)
          (by have := hhi' trivial; omega) (by norm_num)
      · exact heldByF32_of_le (M := 255) (E := 120) (by omega) (by norm_num) (by omega)
          (by have := hhi' trivial; omega) (by norm_num)
      · exact heldByF32_of_le (M := 15) (E := 5) (by omega) (by norm_num) (by omega) (by omega) (by norm_num)
      · exact heldByF32_of_le (M := 7) (E := 13) (by omega) (by norm_num) (by omega)
          (by have := hhi' trivial; omega) (by norm_num)
    obtain ⟨hext, hfl⟩ := round_exact .rne t hheld
    have hr : reformat .rne f f32 false a = w32 (f32.round .rne t m e) := by rw [reformat, h]; rfl
    rw [hr]
    exact ⟨(congrArg F32.ext (toNat_w32 (round_lt regular_f32 ..))).trans hext, hfl⟩

/-- Two conversions to 16 bits packed into a word (R183). -/
theorem packTwo_spec {f : Fmt} (hf : f.Regular) (hi : f.infs = true) (hw : f.width = 16) (a b : Word32) :
    ∃ f0 f1 : Byte, (packTwo f a b).2 = f0 ||| f1 ∧ ConvIs f.format .rne (ext32 a) (halfNat (packTwo f a b).1 0) f0 ∧
      ConvIs f.format .rne (ext32 b) (halfNat (packTwo f a b).1 1) f1 := by
  obtain ⟨ha, halt⟩ := convIs_conv hf hi .rne (fv a)
  obtain ⟨hb, hblt⟩ := convIs_conv hf hi .rne (fv b)
  rw [hw] at halt hblt
  refine ⟨_, _, rfl, ?_, ?_⟩
  · rwa [packTwo, halfNat_ofHalves_zero, BitVec.toNat_ofNat, Nat.mod_eq_of_lt halt, ext32_eq]
  · rwa [packTwo, halfNat_ofHalves_one, BitVec.toNat_ofNat, Nat.mod_eq_of_lt hblt, ext32_eq]

theorem exactToF32_spec (n e : ℤ) : (n = 0 → exactToF32 n e = (0, 0)) ∧
    (n ≠ 0 → RoundsTo F32 .rne (n * 2 ^ e) (exactToF32 n e).1.toNat (exactToF32 n e).2) := by
  refine ⟨by rintro rfl; rfl, fun hn => ?_⟩
  rw [exactToF32, toNat_w32 (round_lt regular_f32 ..)]
  exact roundsTo_round_int regular_f32 rfl .rne hn e rfl

theorem exactToI32_spec (n e : ℤ) : ∃ k m : ℤ, RoundsToInt .rne (n * 2 ^ e) k ∧
    m = max (-2 ^ 31) (min (2 ^ 31 - 1) k) ∧ (exactToI32 n e).1 = BitVec.ofInt 32 m ∧
      (exactToI32 n e).2 = (if m = k then 0 else 64) ||| if (k : ℚ) = n * 2 ^ e then 0 else 16 := by
  have hterm : term (decide (n < 0)) n.natAbs = n := by
    unfold term
    split_ifs with h <;> simp only [decide_eq_true_eq] at h <;> omega
  obtain ⟨k, hround, hn, hfl⟩ := cvtInt_spec .rne (by norm_num : (-(2 ^ 31) : ℤ) ≤ 2 ^ 31 - 1)
    (.fin (decide (n < 0)) n.natAbs e)
  rw [hterm] at hround hfl
  refine ⟨k, _, hround, hn, rfl, hfl.trans ?_⟩
  by_cases h : (k : ℚ) = n * 2 ^ e <;> simp [h]

/-- The formats of 16 and 32 bits with their rows of Table 2.1. -/
theorem wide_format {f : Fmt} {F : Format} (h : (f, F) ∈ [(f16, F16), (bf16, BF16), (f32, F32)]) :
    f.Regular ∧ f.infs = true ∧ (f.width = 16 ∨ f.width = 32) ∧ F = f.format := by
  simp only [List.mem_cons, Prod.mk.injEq, List.not_mem_nil, or_false] at h
  rcases h with ⟨rfl, rfl⟩ | ⟨rfl, rfl⟩ | ⟨rfl, rfl⟩
  · exact ⟨regular_f16, rfl, .inl rfl, rfl⟩
  · exact ⟨regular_bf16, rfl, .inl rfl, rfl⟩
  · exact ⟨regular_f32, rfl, .inr rfl, rfl⟩

/-- The formats of 8 bits with theirs. -/
theorem narrow_format {f : Fmt} {F : Format} (h : (f, F) ∈ [(e4m3, E4M3), (e5m2, E5M2)]) :
    (f = e4m3 ∨ f = e5m2) ∧ f.width = 8 ∧ F = f.format := by
  simp only [List.mem_cons, Prod.mk.injEq, List.not_mem_nil, or_false] at h
  rcases h with ⟨rfl, rfl⟩ | ⟨rfl, rfl⟩
  · exact ⟨.inl rfl, rfl, rfl⟩
  · exact ⟨.inr rfl, rfl, rfl⟩

/-- Settles O24: each conversion rounds the exact value of its operand once. -/
theorem floatConversions : Obligations.FloatConversions := by
  intro mode a b
  refine ⟨fun lo hi hlo hhi => ?_, fun n => ?_, ?_, ?_, ?_, fun g _ _ signed => cvtPlane_spec g signed a,
    scalb32_spec mode a, frnd32_spec mode a, ?_, fun n e => ?_, depositIs_xaDeposit⟩
  · have := cvtInt_spec mode (hlo.trans hhi) (fv a)
    rw [← ext32_eq] at this
    exact this
  · exact ⟨by rintro rfl; rfl, fun hn => roundsTo_round_int regular_f32 rfl mode hn 0 (by simp)⟩
  · intro f F h H hf hh sat
    obtain ⟨hfreg, -, -, rfl⟩ := wide_format hf
    obtain ⟨hhreg, hi, hw, rfl⟩ := wide_format hh
    exact convIs_reformat hhreg hi hw hfreg mode sat a
  · intro h H hh sat
    obtain ⟨hnarrow, hw, rfl⟩ := narrow_format hh
    refine ⟨conv8Is_reformat hnarrow mode sat a, ?_⟩
    rw [← hw]
    exact convIs_reformat regular_f32 rfl (.inr rfl) (regular_of_narrow hnarrow) .rne false a
  · intro f F hf s v hv
    simp only [List.mem_cons, Prod.mk.injEq, List.not_mem_nil, or_false] at hf
    rcases hf with ⟨rfl, rfl⟩ | ⟨rfl, rfl⟩ | ⟨rfl, rfl⟩ | ⟨rfl, rfl⟩
    · exact reformat_exact (.inl rfl) hv
    · exact reformat_exact (.inr (.inl rfl)) hv
    · exact reformat_exact (.inr (.inr (.inl rfl))) hv
    · exact reformat_exact (.inr (.inr (.inr rfl))) hv
  · intro f F hf
    simp only [List.mem_cons, Prod.mk.injEq, List.not_mem_nil, or_false] at hf
    rcases hf with ⟨rfl, rfl⟩ | ⟨rfl, rfl⟩
    · exact packTwo_spec regular_f16 rfl rfl a b
    · exact packTwo_spec regular_bf16 rfl rfl a b
  · obtain ⟨h0, hround⟩ := exactToF32_spec n e
    exact ⟨h0, hround, exactToI32_spec n e⟩

end Sys2Proof.Machine

end

