-- ==== Sys2Proof/Proofs/ErrorFree.lean ====
section
/-! # Errors of f32 sums that f32 holds (R65, R66) -/

namespace Sys2Proof.Machine
open Sys2Proof Sys2Proof.Claims

/-! ### Steps rounded to nearest (R64) -/

theorem ext_f32_infinity (s : Bool) : F32.ext (F32.infinity s) = .inf s := by cases s <;> decide +kernel

theorem ext_f32_zero (s : Bool) : F32.ext (F32.zero s) = .num s 0 := by cases s <;> decide +kernel

/-- What a step makes of numbers: their sum rounded, or a zero. -/
theorem step_num {ts : List Ext} {w : Word32} (h : Step ts w) (hts : ∀ t ∈ ts, ∃ s x, t = .num s x) :
    (∃ fl, RoundsTo F32 .rne ((ts.map Ext.value).sum : ℚ) w.toNat fl) ∨
      (ts.map Ext.value).sum = 0 ∧ ∃ s, ext32 w = .num s 0 := by
  obtain ⟨fl, -, h⟩ := h
  have hnan : ∀ s, .nan s ∉ ts := fun s hs => by obtain ⟨_, _, h⟩ := hts _ hs; cases h
  have hinf : ∀ s, .inf s ∉ ts := fun s hs => by obtain ⟨_, _, h⟩ := hts _ hs; cases h
  obtain ⟨-, -, h⟩ := h hnan
  obtain ⟨hround, hzero⟩ := h hinf
  by_cases hx : (ts.map Ext.value).sum = 0
  · exact .inr ⟨hx, _, (congrArg F32.ext (hzero hx).2).trans (ext_f32_zero _)⟩
  · exact .inl ⟨fl, hround hx⟩

theorem val32_of_ext32 {w : Word32} {s : Bool} {x : ℚ} (h : ext32 w = .num s x) : val32 w = x :=
  (negative_val_of_ext_eq_num h).2

/-- Rounding to nearest gives a number or an infinity. -/
theorem roundsTo_cases {x : ℝ} {w : Nat} {fl : Byte} (h : RoundsTo F32 .rne x w fl) :
    (∃ s, F32.ext w = .inf s) ∨ ∃ s, F32.ext w = .num s (F32.val w) := by
  obtain ⟨neg, u, m, n, -, -, -, -, -, hover, hfin⟩ := h
  rcases le_or_gt ((m : ℝ) * 2 ^ u) (F32.val F32.top : ℚ) with hle | hlt
  · exact .inr ⟨neg, (hfin hle).1⟩
  · exact .inl ⟨neg, (congrArg F32.ext (hover hlt).1).trans (ext_f32_infinity neg)⟩

/-- A step of numbers gives a number or an infinity. -/
theorem step_num_cases {ts : List Ext} {w : Word32} (h : Step ts w) (hts : ∀ t ∈ ts, ∃ s x, t = .num s x) :
    infinite w ∨ ∃ s, ext32 w = .num s (val32 w) := by
  rcases step_num h hts with ⟨fl, hround⟩ | ⟨-, s, hs⟩
  · exact roundsTo_cases hround
  · exact .inr ⟨s, by rw [val32_of_ext32 hs, hs]⟩

/-- A step with infinities of one sign gives that infinity. -/
theorem step_inf {ts : List Ext} {w : Word32} {s : Bool} (h : Step ts w) (hnan : ∀ s, .nan s ∉ ts) (hs : .inf s ∈ ts)
    (hns : .inf (!s) ∉ ts) : w = BitVec.ofNat 32 (F32.infinity s) := by
  obtain ⟨fl, -, h⟩ := h
  rw [← ((h hnan).2.1 s hs hns).1]
  simp

/-- x is rounded to the number s at the place q, to nearest and with no overflow. -/
structure NearestAt (x s : ℝ) (q : ℤ) : Prop where
  le_place : -149 ≤ q
  place_le : q ≤ 104
  multiple : ∃ k : ℤ, s = k * 2 ^ q
  abs_sub_le : |x - s| ≤ 2 ^ q / 2
  binade : q = -149 ∨ (2 : ℝ) ^ (23 + q) ≤ |x|

/-- To nearest, a magnitude is rounded by at most a half. -/
theorem abs_sub_le_half_of_rounded {neg : Bool} {y : ℝ} {n : ℕ} (h : Rounded .rne neg y n) : |y - n| ≤ 1 / 2 := by
  rcases h with h | ⟨h, -⟩
  · exact h.le
  · exact h.le

/-- The last place of a finite rounded value. -/
theorem place_le_of_le_top {u : ℤ} (h : (2 : ℝ) ^ (23 + u) ≤ (2 ^ 24 - 1) * 2 ^ (104 : ℤ)) : u ≤ 104 := by
  have hlt : (2 : ℝ) ^ (23 + u) < 2 ^ (128 : ℤ) := h.trans_lt (by norm_num)
  have := (zpow_lt_zpow_iff_right₀ (one_lt_two (α := ℝ))).1 hlt
  omega

theorem nearestAt_of_roundsTo {x : ℝ} {w : Nat} {fl : Byte} (h : RoundsTo F32 .rne x w fl)
    (hw : ∀ s, F32.ext w ≠ .inf s) : ∃ q, NearestAt x (F32.val w) q := by
  obtain ⟨neg, u, m, n, hneg, hlo, hhi, hm, hn, hover, hfin⟩ := h
  have htop : (m : ℝ) * 2 ^ u ≤ (F32.val F32.top : ℚ) := by
    by_contra hlt
    have hinf : w = F32.infinity neg := (hover (not_le.1 hlt)).1
    exact hw neg (hinf ▸ ext_f32_infinity neg)
  obtain ⟨hext, -, habs, -⟩ := hfin htop
  have hu : (0 : ℝ) < 2 ^ u := by positivity
  have hm23 : 2 ^ 23 ≤ m := by
    refine le_rounded_of_le hm ((le_div_iff₀ hu).2 ?_)
    rw [zpow_add₀ two_ne_zero] at hlo
    exact_mod_cast hlo
  have hplace : u ≤ 104 := by
    refine place_le_of_le_top (le_trans ?_ (val_f32_top ▸ htop))
    rw [zpow_add₀ two_ne_zero]
    exact mul_le_mul_of_nonneg_right (by exact_mod_cast hm23) hu.le
  obtain ⟨σ, hσ, hx, hval⟩ :
      ∃ σ : ℤ, |(σ : ℝ)| = 1 ∧ x = σ * |x| ∧ (F32.val w : ℝ) = σ * |(F32.val w : ℝ)| := by
    have hval := congrArg (fun q : ℚ => (q : ℝ)) (val_eq_neg_or_abs F32 w)
    simp only [(negative_val_of_ext_eq_num hext).1, Rat.cast_mul, Rat.cast_abs] at hval
    cases neg
    · exact ⟨1, by simp, by simp [abs_of_nonneg (not_lt.1 (mt hneg.2 Bool.false_ne_true))], by simpa using hval⟩
    · exact ⟨-1, by simp, by simp [abs_of_neg (hneg.1 rfl)], by simpa using hval⟩
  have hq : (0 : ℝ) < 2 ^ max u (-149) := by positivity
  have hy : |(F32.val w : ℝ)| = n * 2 ^ max u (-149) := habs
  refine ⟨max u (-149), le_max_right .., max_le hplace (by norm_num), ?_, ?_, ?_⟩
  · exact ⟨σ * n, by rw [hval, hy]; push_cast; ring⟩
  · have hhalf : |(|x| / 2 ^ max u (-149) - n)| ≤ 1 / 2 := abs_sub_le_half_of_rounded hn
    have herr : x - F32.val w = σ * ((|x| / 2 ^ max u (-149) - n) * 2 ^ max u (-149)) := by
      rw [sub_mul, div_mul_cancel₀ _ hq.ne', mul_sub, ← hx, ← hy, ← hval]
    rw [herr, abs_mul, abs_mul, abs_of_pos hq, hσ]
    linarith [mul_le_mul_of_nonneg_right hhalf hq.le]
  · rcases le_total u (-149) with h | h
    · exact .inl (max_eq_right h)
    · exact .inr (by rw [max_eq_left h]; exact hlo)

/-- A step of numbers that does not overflow rounds their sum at some place. -/
theorem step_nearestAt {ts : List Ext} {w : Word32} (h : Step ts w) (hts : ∀ t ∈ ts, ∃ s x, t = .num s x)
    (hw : ¬ infinite w) : ∃ q, NearestAt ((ts.map Ext.value).sum : ℚ) (val32 w) q := by
  rcases step_num h hts with ⟨fl, hround⟩ | ⟨hx, s, hs⟩
  · exact nearestAt_of_roundsTo hround fun s hs => hw ⟨s, hs⟩
  · rw [hx, val32_of_ext32 hs]
    exact ⟨-149, le_rfl, by norm_num, ⟨0, by simp⟩, by norm_num, .inl rfl⟩

/-- A step of numbers whose sum f32 holds is exact. -/
theorem step_exact {ts : List Ext} {w : Word32} (h : Step ts w) (hts : ∀ t ∈ ts, ∃ s x, t = .num s x)
    (hheld : HeldByF32 ((ts.map Ext.value).sum : ℚ)) : ∃ s, ext32 w = .num s (ts.map Ext.value).sum := by
  rcases step_num h hts with ⟨fl, hround⟩ | ⟨hx, s, hs⟩
  · obtain ⟨-, hext, hval⟩ := roundsTo_exact hround hheld
    exact ⟨_, hext.trans (by rw [Rat.cast_injective hval])⟩
  · exact ⟨s, hx ▸ hs⟩

/-! ### The nearest number -/

/-- A multiple of a power of 2 is one of each lower power. -/
theorem exists_multiple_at_lower {E q : ℤ} (h : q ≤ E) (k : ℤ) : ∃ j : ℤ, (k : ℝ) * 2 ^ E = j * 2 ^ q := by
  refine ⟨k * 2 ^ (E - q).toNat, ?_⟩
  have := two_zpow_div_two_zpow h
  rw [div_eq_iff (by positivity)] at this
  rw [this]; push_cast; ring

section
variable {x s : ℝ} {q : ℤ} (h : NearestAt x s q)
include h

/-- A multiple of the place is no nearer. -/
theorem abs_sub_le_of_multiple (j : ℤ) : |x - s| ≤ |x - j * 2 ^ q| := by
  obtain ⟨k, hk⟩ := h.multiple
  have hq : (0 : ℝ) < 2 ^ q := by positivity
  rcases eq_or_ne k j with rfl | hne
  · rw [hk]
  · have h1 : (2 : ℝ) ^ q ≤ |s - j * 2 ^ q| := by
      rw [hk, ← sub_mul, abs_mul, abs_of_pos hq]
      have : (1 : ℝ) ≤ |((k - j : ℤ) : ℝ)| := by exact_mod_cast Int.one_le_abs (sub_ne_zero.2 hne)
      push_cast at this
      exact le_mul_of_one_le_left hq.le this
    have h2 := abs_sub_abs_le_abs_sub (s - j * 2 ^ q) (s - x)
    have h3 := h.abs_sub_le
    rw [abs_sub_comm s x] at h2
    rw [show s - j * 2 ^ q - (s - x) = x - j * 2 ^ q by ring] at h2
    linarith

/-- No number of 24 bits at a place of f32 is nearer. -/
theorem abs_sub_le_of_held {C : ℤ} {E : ℤ} (hC : |C| ≤ 2 ^ 24) (hE : -149 ≤ E) : |x - s| ≤ |x - C * 2 ^ E| := by
  rcases le_or_gt q E with hq | hq
  · obtain ⟨j, hj⟩ := exists_multiple_at_lower hq C
    rw [hj]
    exact abs_sub_le_of_multiple h j
  · have hx : (2 : ℝ) ^ (23 + q) ≤ |x| := h.binade.resolve_left (by omega)
    have hC' : |(C : ℝ)| ≤ 2 ^ 24 := by exact_mod_cast hC
    have hc : |(C : ℝ) * 2 ^ E| ≤ 2 ^ (23 + q) := by
      rw [abs_mul, abs_of_pos (by positivity : (0 : ℝ) < 2 ^ E)]
      calc |(C : ℝ)| * 2 ^ E ≤ 2 ^ 24 * 2 ^ E := mul_le_mul_of_nonneg_right hC' (by positivity)
        _ = 2 ^ (24 + E) := by rw [zpow_add₀ two_ne_zero]; norm_cast
        _ ≤ 2 ^ (23 + q) := zpow_le_zpow_right₀ one_le_two (by omega)
    have hpow : (2 : ℝ) ^ (23 + q) = 8388608 * 2 ^ q := by rw [zpow_add₀ two_ne_zero]; norm_num
    have hdist := abs_sub_abs_le_abs_sub x (C * 2 ^ E)
    rcases abs_cases x with ⟨hax, -⟩ | ⟨hax, -⟩
    · have := abs_sub_le_of_multiple h 8388608
      push_cast at this
      rw [← hpow, abs_of_nonneg (by linarith : 0 ≤ x - 2 ^ (23 + q))] at this
      linarith
    · have := abs_sub_le_of_multiple h (-8388608)
      push_cast at this
      rw [neg_mul, ← hpow, abs_of_nonpos (by linarith : x - -2 ^ (23 + q) ≤ 0)] at this
      linarith

end

/-! ### Numbers of 24 bits -/

/-- C × 2^E with fewer than 25 bits at a place of f32. -/
structure IsScaled (a : ℝ) (C E : ℤ) : Prop where
  eq : a = C * 2 ^ E
  abs_le : |C| ≤ 2 ^ 24 - 1
  le_exp : -149 ≤ E
  exp_le : E ≤ 104

theorem exists_isScaled {w : Word32} {s : Bool} {m : Nat} {e : Int} (h : fv w = .fin s m e) :
    ∃ C E, IsScaled (val32 w) C E := by
  obtain ⟨hm, he, he'⟩ := fv_bounds h
  have hval : val32 w = term s m * 2 ^ e := val32_of_ext32 (by rw [ext32_eq, h]; rfl)
  refine ⟨term s m, e, by rw [hval]; push_cast; rfl, ?_, he, he'⟩
  rw [Int.abs_eq_natAbs, natAbs_term]
  omega

/-- A number at a place is one at each lower place above the least, of as many bits or more. -/
theorem heldByF32_of_multiple {x : ℝ} {j E : ℤ} (hx : x = j * 2 ^ E) (hj : |x| ≤ 2 ^ 24 * 2 ^ E) (hE : -149 ≤ E)
    (htop : |x| ≤ (2 ^ 24 - 1) * 2 ^ (104 : ℤ)) : HeldByF32 x := by
  have hpos : (0 : ℝ) < 2 ^ E := by positivity
  have habs : |x| = (j.natAbs : ℝ) * 2 ^ E := by
    rw [hx, abs_mul, abs_of_pos hpos, Nat.cast_natAbs, Int.cast_abs]
  refine ⟨j.natAbs, E, habs, ?_, hE, htop⟩
  rw [habs] at hj
  exact_mod_cast le_of_mul_le_mul_right hj hpos

section
variable {a b s : ℝ} {A B e d q : ℤ}

theorem isScaled_abs_le (ha : IsScaled a A e) : |a| ≤ (2 ^ 24 - 1) * 2 ^ e := by
  have hA : |(A : ℝ)| ≤ 2 ^ 24 - 1 := by exact_mod_cast ha.abs_le
  rw [ha.eq, abs_mul, abs_of_pos (by positivity : (0 : ℝ) < 2 ^ e)]
  exact mul_le_mul_of_nonneg_right hA (by positivity)

theorem isScaled_abs_le_top (ha : IsScaled a A e) : |a| ≤ (2 ^ 24 - 1) * 2 ^ (104 : ℤ) :=
  (isScaled_abs_le ha).trans (mul_le_mul_of_nonneg_left (zpow_le_zpow_right₀ one_le_two ha.exp_le) (by norm_num))

theorem heldByF32_of_isScaled (ha : IsScaled a A e) : HeldByF32 a := by
  refine heldByF32_of_multiple ha.eq ((isScaled_abs_le ha).trans ?_) ha.le_exp (isScaled_abs_le_top ha)
  exact mul_le_mul_of_nonneg_right (by norm_num) (by positivity)

/-- A sum of multiples of the place is rounded to itself. -/
theorem eq_of_place_le (ha : IsScaled a A e) (hb : IsScaled b B d) (h : NearestAt (a + b) s q) (hqe : q ≤ e)
    (hqd : q ≤ d) :
    s = a + b := by
  obtain ⟨i, hi⟩ := exists_multiple_at_lower hqe A
  obtain ⟨j, hj⟩ := exists_multiple_at_lower hqd B
  have := abs_sub_le_of_multiple h (i + j)
  rw [ha.eq, hb.eq, hi, hj] at this ⊢
  push_cast at this
  rw [add_mul, sub_self, abs_zero] at this
  linarith [abs_nonpos_iff.1 this]

/-- The error of a sum, where b stands at the lower place. -/
theorem heldByF32_error_of_le (ha : IsScaled a A e) (hb : IsScaled b B d) (hde : d ≤ e) (h : NearestAt (a + b) s q) :
    HeldByF32 (a + b - s) := by
  have hnear : |a + b - s| ≤ |b| := by
    have := abs_sub_le_of_held h (C := A) (E := e) (ha.abs_le.trans (by norm_num)) ha.le_exp
    rwa [← ha.eq, add_sub_cancel_left] at this
  obtain ⟨j, hj⟩ : ∃ j : ℤ, a + b - s = j * 2 ^ d := by
    rcases le_total d q with hq | hq
    · obtain ⟨k, hk⟩ := h.multiple
      obtain ⟨k', hk'⟩ := exists_multiple_at_lower hq k
      obtain ⟨i, hi⟩ := exists_multiple_at_lower hde A
      exact ⟨i + B - k', by rw [hk, hk', ha.eq, hb.eq, hi]; push_cast; ring⟩
    · exact ⟨0, by rw [eq_of_place_le ha hb h (hq.trans hde) hq]; simp⟩
  refine heldByF32_of_multiple hj (hnear.trans ((isScaled_abs_le hb).trans ?_)) hb.le_exp
    (hnear.trans (isScaled_abs_le_top hb))
  exact mul_le_mul_of_nonneg_right (by norm_num) (by positivity)

/-- The error of a rounded sum is held (R65). -/
theorem heldByF32_error (ha : IsScaled a A e) (hb : IsScaled b B d) (h : NearestAt (a + b) s q) :
    HeldByF32 (a + b - s) := by
  rcases le_total d e with hde | hde
  · exact heldByF32_error_of_le ha hb hde h
  · rw [add_comm] at h ⊢
    exact heldByF32_error_of_le hb ha hde h

/-- The smaller operand stands at the place of the larger, or at a lower one. -/
theorem exists_isScaled_le (ha : IsScaled a A e) (hb : IsScaled b B d) (hab : |b| ≤ |a|) :
    ∃ B' d', IsScaled b B' d' ∧ d' ≤ e := by
  rcases le_total d e with hde | hde
  · exact ⟨B, d, hb, hde⟩
  · obtain ⟨j, hj⟩ := exists_multiple_at_lower hde B
    have he : (0 : ℝ) < 2 ^ e := by positivity
    refine ⟨j, e, ⟨hb.eq.trans hj, ?_, ha.le_exp, ha.exp_le⟩, le_rfl⟩
    rw [hb.eq, hj, ha.eq, abs_mul, abs_mul] at hab
    have : |(j : ℝ)| ≤ |(A : ℝ)| := le_of_mul_le_mul_right hab (abs_pos.2 he.ne')
    exact le_trans (by exact_mod_cast this) ha.abs_le

/-- A rounded sum less its larger operand is held (R66). -/
theorem heldByF32_sub_left (ha : IsScaled a A e) (hb : IsScaled b B d) (hab : |b| ≤ |a|) (h : NearestAt (a + b) s q) :
    HeldByF32 (s - a) := by
  obtain ⟨B, d, hb, hde⟩ := exists_isScaled_le ha hb hab
  rcases le_or_gt q d with hqd | hdq
  · rw [eq_of_place_le ha hb h (hqd.trans hde) hqd, add_sub_cancel_left]
    exact heldByF32_of_isScaled hb
  have hdist : |s - a| ≤ |b| + 2 ^ q / 2 := by
    have := abs_sub_abs_le_abs_sub (s - a) b
    rw [show s - a - b = -(a + b - s) by ring, abs_neg] at this
    linarith [h.abs_sub_le]
  obtain ⟨k, hk⟩ := h.multiple
  have hq0 : (0 : ℝ) < 2 ^ q := by positivity
  rcases le_or_gt q e with hqe | heq
  · obtain ⟨i, hi⟩ := exists_multiple_at_lower hqe A
    have hb' : |b| ≤ 2 ^ 23 * 2 ^ q := by
      refine (isScaled_abs_le hb).trans ?_
      calc ((2 : ℝ) ^ 24 - 1) * 2 ^ d ≤ 2 ^ 24 * 2 ^ (q - 1) :=
            mul_le_mul (by norm_num) (zpow_le_zpow_right₀ one_le_two (by omega)) (by positivity) (by norm_num)
        _ = 2 ^ 23 * 2 ^ q := by rw [zpow_sub_one₀ two_ne_zero]; ring
    have hqtop : (2 : ℝ) ^ q ≤ 2 ^ (104 : ℤ) := zpow_le_zpow_right₀ one_le_two h.place_le
    refine heldByF32_of_multiple (j := k - i) (by rw [hk, ha.eq, hi]; push_cast; ring) ?_ h.le_place ?_
    · linarith
    · linarith
  · have hplace : q = e + 1 := by
      have hx : (2 : ℝ) ^ (23 + q) ≤ |a + b| := h.binade.resolve_left (by have := hb.le_exp; omega)
      have hsum : |a + b| ≤ |a| + |b| := abs_add_le a b
      have hlt : (2 : ℝ) ^ (23 + q) < 2 ^ (25 + e) := by
        have he : (0 : ℝ) < 2 ^ e := by positivity
        rw [zpow_add₀ two_ne_zero 25 e]
        have := isScaled_abs_le ha
        norm_num
        linarith
      have := (zpow_lt_zpow_iff_right₀ (one_lt_two (α := ℝ))).1 hlt
      omega
    subst hplace
    rw [zpow_add_one₀ two_ne_zero] at hk hdist
    have hle : |s - a| ≤ 2 ^ 24 * 2 ^ e := by linarith [isScaled_abs_le ha]
    have htop : (2 : ℝ) ^ e ≤ 2 ^ (103 : ℤ) := zpow_le_zpow_right₀ one_le_two (by have := h.place_le; omega)
    refine heldByF32_of_multiple (j := 2 * k - A) (by rw [hk, ha.eq]; push_cast; ring) hle ha.le_exp (hle.trans ?_)
    calc (2 : ℝ) ^ 24 * 2 ^ e ≤ 2 ^ 24 * 2 ^ (103 : ℤ) := mul_le_mul_of_nonneg_left htop (by norm_num)
      _ ≤ (2 ^ 24 - 1) * 2 ^ (104 : ℤ) := by norm_num

end

end Sys2Proof.Machine

end

