-- ==== Sys2Proof/Proofs/ErrorFreeTransforms.lean ====
section
/-! # Twosum, ftwosum and twoprod (R65 to R67) -/

namespace Sys2Proof.Machine
open Sys2Proof Sys2Proof.Claims

/-! ### Words rounded to nearest -/

/-- A word that is a finite number. -/
def IsFinite (w : Word32) : Prop := ∃ s m e, fv w = .fin s m e

theorem isFinite_iff (w : Word32) : IsFinite w ↔ ¬ isNan w ∧ ¬ infinite w := by
  rw [isNan_ext32_iff, infinite_iff, IsFinite]
  cases fv w <;> simp [FVal.isNan, FVal.isInf]

theorem ext32_of_isFinite {w : Word32} (h : IsFinite w) : ∃ s, ext32 w = .num s (val32 w) := by
  obtain ⟨s, m, e, h⟩ := h
  have hext : ext32 w = .num s ((term s m : ℚ) * 2 ^ e) := by rw [ext32_eq, h]; rfl
  exact ⟨s, by rw [val32_of_ext32 hext, hext]⟩

theorem isFinite_of_ext32 {w : Word32} {s : Bool} {x : ℚ} (h : ext32 w = .num s x) : IsFinite w := by
  rw [isFinite_iff, isNan, infinite]
  simp [h]

theorem sums_sum {vs : List FVal} (h : ∀ v ∈ vs, v.isNan = false) :
    Sums .rne (vs.map FVal.toExt) (w32 (f32.sum .rne vs)) := by
  have hsum : f32.roundedSum .rne vs = f32.sum .rne vs := if_neg (by simpa using h)
  exact hsum ▸ sums_w32 .rne vs

theorem isNan_of_toExt_num {v : FVal} {s : Bool} {x : ℚ} (h : v.toExt = .num s x) : v.isNan = false := by
  cases v with
  | nan t => cases h
  | inf t | fin t m e => rfl

/-- The sum of values that are no NaN is a step. -/
theorem step_rneSum {vs : List FVal} (h : ∀ v ∈ vs, v.isNan = false) : Step (vs.map FVal.toExt) (rneSum vs) :=
  ⟨_, sums_sum h⟩

/-- The sum of two words as a step, a NaN among them or not. -/
def addWords (a b : Word32) : Word32 := (w32 (f32.roundedSum .rne [fv a, fv b])).1

theorem step_addWords (a b : Word32) : Step [ext32 a, ext32 b] (addWords a b) := by
  rw [ext32_eq, ext32_eq]
  exact ⟨_, sums_w32 .rne [fv a, fv b]⟩

theorem rneAdd_eq_addWords {a b : Word32} (ha : ¬ isNan a) (hb : ¬ isNan b) : rneAdd a b = addWords a b := by
  rw [isNan_ext32_iff, Bool.not_eq_true] at ha hb
  have : f32.roundedSum .rne [fv a, fv b] = f32.sum .rne [fv a, fv b] := if_neg (by simp [ha, hb])
  rw [addWords, this]; rfl

/-- A step gives a NaN for a NaN or for opposite infinities alone. -/
theorem not_isNan_of_step {ts : List Ext} {w : Word32} (h : Step ts w) (hnan : ∀ s, .nan s ∉ ts)
    (hinf : ∀ s, .inf s ∈ ts → .inf (!s) ∉ ts) : ¬ isNan w := by
  rintro ⟨t, ht⟩
  by_cases hs : ∃ s, .inf s ∈ ts
  · obtain ⟨s, hs⟩ := hs
    have hw := step_inf h hnan hs (hinf s hs)
    have hext : ext32 w = .inf s := by rw [hw]; cases s <;> decide +kernel
    rw [hext] at ht
    cases ht
  · rcases step_num_cases h (fun t ht => by
      cases t with
      | nan s => exact absurd ht (hnan s)
      | inf s => exact absurd ⟨s, ht⟩ hs
      | num s x => exact ⟨s, x, rfl⟩) with ⟨s, hs⟩ | ⟨s, hs⟩ <;> rw [hs] at ht <;> cases ht

/-! ### Twosum and ftwosum -/

/-- The common shape of twosum and ftwosum, with the word of the error. -/
def sumPair (a b e : Word32) : Dw :=
  if (fv a).isNan || (fv b).isNan || ((fv a).isInf && (fv b).isInf && (fv a).neg != (fv b).neg) then nanPair
  else if (fv a).isInf || (fv b).isInf then ⟨rneSum [fv a, fv b], 0, 0⟩
  else if (fv (rneSum [fv a, fv b])).isInf then ⟨rneSum [fv a, fv b], 0, 4 ||| 16⟩
  else ⟨rneSum [fv a, fv b], posZero e, 0⟩

/-- The words of the errors. -/
def twosumError (a b : Word32) : Word32 := rneSum [fv a, fv b, (fv (rneSum [fv a, fv b])).flip]
def ftwosumBack (a b : Word32) : Word32 := rneSum [fv (rneSum [fv a, fv b]), (fv a).flip]
def ftwosumError (a b : Word32) : Word32 := rneSum [fv b, (fv (ftwosumBack a b)).flip]

theorem twosum_eq (a b : Word32) : twosum a b = sumPair a b (twosumError a b) := rfl
theorem ftwosum_eq (a b : Word32) : ftwosum a b = sumPair a b (ftwosumError a b) := rfl

/-- A sum of two words is invalid for a NaN and for opposite infinities. -/
def SumInvalid (a b : Word32) : Prop := isNan a ∨ isNan b ∨ ∃ s, ext32 a = .inf s ∧ ext32 b = .inf !s

theorem sumInvalid_iff (a b : Word32) : ((fv a).isNan || (fv b).isNan ||
    ((fv a).isInf && (fv b).isInf && (fv a).neg != (fv b).neg)) = true ↔ SumInvalid a b := by
  rw [SumInvalid, isNan_ext32_iff, isNan_ext32_iff, ext32_eq, ext32_eq]
  simp only [toExt_eq_inf]
  cases fv a with
  | nan s => simp [FVal.isNan]
  | fin s m e => simp [FVal.isNan, FVal.isInf]
  | inf s =>
    cases fv b with
    | nan t => simp [FVal.isNan]
    | fin t n d => simp [FVal.isNan, FVal.isInf]
    | inf t => cases s <;> cases t <;> simp [FVal.isNan, FVal.isInf, FVal.neg]

/-- A valid sum of two words, one of them infinite. -/
theorem rneSum_of_inf {a b : Word32} {s : Bool} (h : ¬ SumInvalid a b) (hs : ext32 a = .inf s ∨ ext32 b = .inf s) :
    rneSum [fv a, fv b] = BitVec.ofNat 32 (F32.infinity s) := by
  simp only [SumInvalid, not_or, not_exists, not_and] at h
  obtain ⟨ha, hb, hopp⟩ := h
  have hstep : Step [ext32 a, ext32 b] (rneSum [fv a, fv b]) := by
    rw [isNan_ext32_iff, Bool.not_eq_true] at ha hb
    rw [ext32_eq, ext32_eq]
    exact step_rneSum (vs := [fv a, fv b]) (by simp [ha, hb])
  refine step_inf hstep (fun t ht => ?_) (List.mem_pair.2 (hs.imp Eq.symm Eq.symm)) fun ht => ?_
  · rcases List.mem_pair.1 ht with h | h
    · exact ha ⟨t, h.symm⟩
    · exact hb ⟨t, h.symm⟩
  · rcases hs with hs | hs <;> rcases List.mem_pair.1 ht with h | h
    · simp [hs] at h
    · exact hopp s hs h.symm
    · exact hopp (!s) h.symm (by rw [hs, Bool.not_not])
    · simp [hs] at h

theorem sumPair_of_invalid {a b e : Word32} (h : SumInvalid a b) : sumPair a b e = nanPair :=
  if_pos ((sumInvalid_iff a b).2 h)

theorem sumPair_of_inf {a b e : Word32} {s : Bool} (h : ¬ SumInvalid a b) (hs : ext32 a = .inf s ∨ ext32 b = .inf s) :
    sumPair a b e = ⟨BitVec.ofNat 32 (F32.infinity s), 0, 0⟩ := by
  have hvalid := (sumInvalid_iff a b).not.2 h
  have hsome : ((fv a).isInf || (fv b).isInf) = true := by
    rw [Bool.or_eq_true, ← infinite_iff, ← infinite_iff]
    exact hs.imp (fun h => ⟨s, h⟩) fun h => ⟨s, h⟩
  rw [sumPair, if_neg hvalid, if_pos hsome, rneSum_of_inf h hs]

section
variable {a b : Word32} (ha : IsFinite a) (hb : IsFinite b) (e : Word32)
include ha hb

theorem sumPair_of_finite : sumPair a b e = if (fv (rneSum [fv a, fv b])).isInf
    then ⟨rneSum [fv a, fv b], 0, 4 ||| 16⟩ else ⟨rneSum [fv a, fv b], posZero e, 0⟩ := by
  obtain ⟨s, m, d, ha⟩ := ha
  obtain ⟨t, n, f, hb⟩ := hb
  simp [sumPair, ha, hb, FVal.isNan, FVal.isInf]

theorem sumPair_hi : (sumPair a b e).hi = rneSum [fv a, fv b] := by
  rw [sumPair_of_finite ha hb]
  split <;> rfl

theorem step_sumPair_hi : Step [ext32 a, ext32 b] (sumPair a b e).hi := by
  rw [sumPair_hi ha hb]
  obtain ⟨s, m, d, ha⟩ := ha
  obtain ⟨t, n, f, hb⟩ := hb
  rw [ext32_eq, ext32_eq]
  exact step_rneSum (vs := [fv a, fv b]) (by simp [ha, hb, FVal.isNan])

theorem sumPair_of_infinite (h : infinite (sumPair a b e).hi) :
    (sumPair a b e).lo = 0 ∧ (sumPair a b e).fl = 4 ||| 16 := by
  rw [sumPair_hi ha hb, infinite_iff] at h
  rw [sumPair_of_finite ha hb, if_pos h]
  exact ⟨rfl, rfl⟩

theorem sumPair_of_not_infinite (h : ¬ infinite (sumPair a b e).hi) :
    (sumPair a b e).lo = posZero e ∧ (sumPair a b e).fl = 0 := by
  rw [sumPair_hi ha hb, infinite_iff] at h
  rw [sumPair_of_finite ha hb, if_neg h]
  exact ⟨rfl, rfl⟩

end

theorem posZero_ne (w : Word32) : posZero w ≠ 0x80000000 := by
  unfold posZero
  split <;> simp_all

theorem val32_posZero (w : Word32) : val32 (posZero w) = val32 w := by
  unfold posZero
  split
  · rename_i h
    rw [h]; decide +kernel
  · rfl

theorem isNan_of_isFinite {w : Word32} (h : IsFinite w) : (fv w).isNan = false := by
  obtain ⟨s, m, e, h⟩ := h
  rw [h]; rfl

theorem exists_isScaled_of_isFinite {w : Word32} (h : IsFinite w) : ∃ C E, IsScaled (val32 w) C E := by
  obtain ⟨s, m, e, h⟩ := h
  exact exists_isScaled h

theorem isNan_flip (v : FVal) : v.flip.isNan = v.isNan := by cases v <;> rfl

/-- A step of finite values whose sum is held is that sum. -/
theorem ext32_rneSum_of_held {vs : List FVal} {x : ℚ} (hvs : ∀ v ∈ vs, ∃ s y, v.toExt = .num s y)
    (hx : ((vs.map FVal.toExt).map Ext.value).sum = x) (hheld : HeldByF32 x) : ∃ s, ext32 (rneSum vs) = .num s x := by
  have hstep : Step (vs.map FVal.toExt) (rneSum vs) := step_rneSum fun v hv => by
    obtain ⟨s, y, h⟩ := hvs v hv
    exact isNan_of_toExt_num h
  subst hx
  refine step_exact hstep (fun t ht => ?_) hheld
  obtain ⟨v, hv, rfl⟩ := List.mem_map.1 ht
  exact hvs v hv

/-- Finite words and their opposites as terms of a step. -/
theorem exists_num_of_isFinite {w : Word32} (h : IsFinite w) :
    (∃ s, (fv w).toExt = .num s (val32 w)) ∧ ∃ s, (fv w).flip.toExt = .num s (-val32 w) := by
  obtain ⟨s, hs⟩ := ext32_of_isFinite h
  rw [ext32_eq] at hs
  exact ⟨⟨s, hs⟩, !s, by rw [← opposite_toExt, hs]; rfl⟩

section
variable {a b : Word32} (ha : IsFinite a) (hb : IsFinite b)
include ha hb

/-- A sum of finite words that does not overflow is finite. -/
theorem isFinite_sumPair_hi {e : Word32} (h : ¬ infinite (sumPair a b e).hi) : IsFinite (sumPair a b e).hi := by
  obtain ⟨s, hs⟩ := ext32_of_isFinite ha
  obtain ⟨t, ht⟩ := ext32_of_isFinite hb
  rcases step_num_cases (step_sumPair_hi ha hb e) (by simp [hs, ht]) with h' | ⟨u, hu⟩
  · exact absurd h' h
  · exact isFinite_of_ext32 hu

theorem sumPair_nearestAt {e : Word32} (h : ¬ infinite (sumPair a b e).hi) :
    ∃ q, NearestAt ((val32 a : ℝ) + val32 b) (val32 (sumPair a b e).hi) q := by
  obtain ⟨s, hs⟩ := ext32_of_isFinite ha
  obtain ⟨t, ht⟩ := ext32_of_isFinite hb
  have := step_nearestAt (step_sumPair_hi ha hb e) (by simp [hs, ht]) h
  simpa [hs, ht, Ext.value] using this

/-- Twosum's error is held (R65). -/
theorem ext32_twosumError (h : ¬ infinite (twosum a b).hi) :
    ∃ s, ext32 (twosumError a b) = .num s (val32 a + val32 b - val32 (twosum a b).hi) := by
  rw [twosum_eq] at h ⊢
  obtain ⟨q, hq⟩ := sumPair_nearestAt ha hb h
  obtain ⟨⟨s, hs⟩, -⟩ := exists_num_of_isFinite ha
  obtain ⟨⟨t, ht⟩, -⟩ := exists_num_of_isFinite hb
  obtain ⟨-, u, hu⟩ := exists_num_of_isFinite (isFinite_sumPair_hi ha hb h)
  obtain ⟨A, e, hA⟩ := exists_isScaled_of_isFinite ha
  obtain ⟨B, d, hB⟩ := exists_isScaled_of_isFinite hb
  have hheld := heldByF32_error hA hB hq
  rw [sumPair_hi ha hb] at hu hheld ⊢
  exact ext32_rneSum_of_held (vs := [fv a, fv b, (fv (rneSum [fv a, fv b])).flip])
    (by simp [hs, ht, hu]) (by simp [hs, ht, hu, Ext.value]; ring) (by push_cast; exact hheld)

/-- Twosum's words are the rounded sum and its exact error (R65). -/
theorem twosum_exact (h : ¬ infinite (twosum a b).hi) :
    val32 (twosum a b).hi + val32 (twosum a b).lo = val32 a + val32 b := by
  obtain ⟨s, hs⟩ := ext32_twosumError ha hb h
  rw [show (twosum a b).lo = posZero (twosumError a b) from (sumPair_of_not_infinite ha hb _ h).1, val32_posZero,
    val32_of_ext32 hs]
  ring

/-- Ftwosum's words likewise, where the first operand is not the smaller (R66). -/
theorem ftwosum_exact (h : ¬ infinite (ftwosum a b).hi) (hab : |val32 b| ≤ |val32 a|) :
    val32 (ftwosum a b).hi + val32 (ftwosum a b).lo = val32 a + val32 b := by
  rw [ftwosum_eq] at h ⊢
  have hhi := sumPair_hi ha hb (ftwosumError a b)
  obtain ⟨q, hq⟩ := sumPair_nearestAt ha hb h
  obtain ⟨-, s, hs⟩ := exists_num_of_isFinite ha
  obtain ⟨⟨t, ht⟩, -⟩ := exists_num_of_isFinite hb
  obtain ⟨⟨u, hu⟩, -⟩ := exists_num_of_isFinite (isFinite_sumPair_hi ha hb h)
  obtain ⟨A, e, hA⟩ := exists_isScaled_of_isFinite ha
  obtain ⟨B, d, hB⟩ := exists_isScaled_of_isFinite hb
  have hback : HeldByF32 ((val32 (sumPair a b (ftwosumError a b)).hi : ℝ) - val32 a) :=
    heldByF32_sub_left hA hB (by exact_mod_cast hab) hq
  have herror : HeldByF32 ((val32 a : ℝ) + val32 b - val32 (sumPair a b (ftwosumError a b)).hi) :=
    heldByF32_error hA hB hq
  rw [(sumPair_of_not_infinite ha hb _ h).1, val32_posZero]
  rw [hhi] at hu hback herror ⊢
  obtain ⟨r, hr⟩ := ext32_rneSum_of_held (vs := [fv (rneSum [fv a, fv b]), (fv a).flip])
    (x := val32 (rneSum [fv a, fv b]) - val32 a) (by simp [hs, hu]) (by simp [hs, hu, Ext.value]; ring)
    (by push_cast; exact hback)
  have hz : ext32 (ftwosumBack a b) = .num r (val32 (rneSum [fv a, fv b]) - val32 a) := hr
  obtain ⟨-, v, hv⟩ := exists_num_of_isFinite (isFinite_of_ext32 hz)
  rw [val32_of_ext32 hz] at hv
  obtain ⟨r', hr'⟩ := ext32_rneSum_of_held (vs := [fv b, (fv (ftwosumBack a b)).flip])
    (x := val32 a + val32 b - val32 (rneSum [fv a, fv b])) (by simp [ht, hv]) (by simp [ht, hv, Ext.value]; ring)
    (by push_cast; exact herror)
  rw [val32_of_ext32 (w := ftwosumError a b) hr']
  ring

/-- Ftwosum's error is what its last two steps make of it (R66). -/
theorem ftwosum_steps (h : ¬ infinite (ftwosum a b).hi) : ∃ z e, Step [ext32 (ftwosum a b).hi, (ext32 a).opposite] z ∧
    Step [ext32 b, (ext32 z).opposite] e ∧ (ftwosum a b).lo = if e = 0x80000000 then 0 else e := by
  rw [ftwosum_eq] at h ⊢
  have hfin := isFinite_sumPair_hi ha hb h
  obtain ⟨⟨s, hs⟩, -⟩ := exists_num_of_isFinite hfin
  obtain ⟨-, t, ht⟩ := exists_num_of_isFinite ha
  have hback : Step [ext32 (sumPair a b (ftwosumError a b)).hi, (ext32 a).opposite] (ftwosumBack a b) := by
    rw [ext32_eq, ext32_eq, opposite_toExt]
    rw [sumPair_hi ha hb] at hfin ⊢
    exact step_rneSum (vs := [fv _, (fv a).flip]) (by simp [isNan_flip, isNan_of_isFinite ha, isNan_of_isFinite hfin])
  have hz : (fv (ftwosumBack a b)).isNan = false := by
    rw [← Bool.not_eq_true, ← isNan_ext32_iff]
    refine not_isNan_of_step hback ?_ ?_ <;> simp [ext32_eq, hs, ht]
  refine ⟨ftwosumBack a b, ftwosumError a b, hback, ?_, (sumPair_of_not_infinite ha hb _ h).1⟩
  rw [ext32_eq, ext32_eq, opposite_toExt]
  exact step_rneSum (vs := [fv b, (fv (ftwosumBack a b)).flip]) (by simp [isNan_flip, isNan_of_isFinite hb, hz])

end

/-! ### Twoprod -/

/-- A product of two words is invalid for a NaN and for 0 × ∞. -/
theorem twoprod_of_invalid {a b : Word32} (h : isNan a ∨ isNan b ∨ product (ext32 a) (ext32 b) = none) :
    twoprod a b = nanPair := by
  rw [isNan_ext32_iff, isNan_ext32_iff, ext32_eq, ext32_eq, product_eq_none_iff, ← Bool.or_eq_true, ← Bool.or_eq_true,
    ← Bool.or_assoc] at h
  exact if_pos h

/-- The product of finite words. -/
theorem isFinite_of_product_eq_num {a b : Word32} {s : Bool} {v : ℚ} (h : product (ext32 a) (ext32 b) = some (.num s v)) :
    IsFinite a ∧ IsFinite b := by
  rw [ext32_eq, ext32_eq] at h
  unfold IsFinite
  cases ha : fv a with
  | nan t => cases hb : fv b <;> simp [ha, hb, product] at h
  | inf t => cases hb : fv b <;> simp [ha, hb, product] at h
  | fin t m e => cases hb : fv b <;> simp [ha, hb, product] at h ⊢

/-- An infinite product of words. -/
theorem product_eq_inf {a b : Word32} {s : Bool} (h : product (ext32 a) (ext32 b) = some (.inf s)) :
    ((fv a).isNan = false ∧ (fv b).isNan = false ∧ (fv a).mulInv (fv b) = false) ∧
      ((fv a).isInf || (fv b).isInf) = true ∧
      rneSum [(fv a).mul (fv b)] = BitVec.ofNat 32 (F32.infinity s) := by
  rw [ext32_eq, ext32_eq] at h
  obtain ⟨hinv, hinf⟩ := product_eq_some_iff.1 h
  rw [toExt_eq_inf] at hinf
  have hnan : ((fv a).isNan || (fv b).isNan) = false := by rw [← isNan_addend, hinf]; rfl
  obtain ⟨ha, hb⟩ := Bool.or_eq_false_iff.1 hnan
  rw [addend_of_not_nan ha hb] at hinf
  refine ⟨⟨ha, hb, hinv⟩, ?_, ?_⟩
  · by_contra hfin
    simp only [Bool.or_eq_true, not_or, Bool.not_eq_true] at hfin
    cases hx : fv a <;> cases hy : fv b <;> simp_all [FVal.isInf, FVal.isNan, FVal.mul]
  · rw [hinf]
    cases s <;> rfl

theorem twoprod_of_inf {a b : Word32} {s : Bool} (h : product (ext32 a) (ext32 b) = some (.inf s)) :
    twoprod a b = ⟨BitVec.ofNat 32 (F32.infinity s), 0, 0⟩ := by
  obtain ⟨⟨ha, hb, hinv⟩, hsome, hword⟩ := product_eq_inf h
  rw [twoprod, if_neg (by simp [ha, hb, hinv]), if_pos hsome, hword]

theorem val_f32_infinity (s : Bool) : F32.val (F32.infinity s) = if s then -2 ^ 128 else 2 ^ 128 := by
  cases s <;> decide +kernel

/-- A rounding of less than 2^128 sets INX where the word is not the exact value (R47). -/
theorem inexact_iff_of_roundsTo {x : ℝ} {w : Nat} {fl : Byte} (h : RoundsTo F32 .rne x w fl) (hlt : |x| < 2 ^ 128) :
    fl &&& 16 ≠ 0 ↔ (F32.val w : ℝ) ≠ x := by
  obtain ⟨neg, u, m, n, hneg, -, -, -, -, hover, hfin⟩ := h
  rcases le_or_gt ((m : ℝ) * 2 ^ u) (F32.val F32.top : ℚ) with hle | hbeyond
  · obtain ⟨hext, -, habs, hexact, hinexact⟩ := hfin hle
    obtain ⟨hunf, hinx⟩ := forall_and.1 hinexact
    by_cases hx : |x| = n * 2 ^ max u (1 - F32.bias - F32.frac : ℤ)
    · have hval : (F32.val w : ℝ) = x := val_eq_of_abs (habs.trans hx.symm) ((negative_val_of_ext_eq_num hext).1 ▸ hneg)
      rw [hexact hx]
      exact iff_of_false (by decide) (not_not.2 hval)
    · have hne : (F32.val w : ℝ) ≠ x := fun h => hx (by rw [← h]; exact habs)
      refine iff_of_true ?_ hne
      rcases lt_or_ge ((m : ℝ) * 2 ^ u) (2 ^ (1 - F32.bias : ℤ)) with htiny | hnormal
      · rw [hunf hx htiny]; decide
      · rw [hinx hx hnormal]; decide
  · obtain ⟨hw, hfl⟩ := hover hbeyond
    have hval : |(F32.val w : ℝ)| = 2 ^ 128 := by
      rw [show w = F32.infinity neg from hw, val_f32_infinity]
      cases neg <;> norm_num
    rw [hfl]
    exact iff_of_true (by decide) fun h => (h ▸ hlt).ne hval

/-- The same of a step of numbers. -/
theorem inexact_iff_of_sums {ts : List Ext} {w : Word32} {fl : Byte} (h : Sums .rne ts (w, fl))
    (hts : ∀ t ∈ ts, ∃ s x, t = .num s x) (hlt : |((ts.map Ext.value).sum : ℝ)| < 2 ^ 128) :
    fl &&& 16 ≠ 0 ↔ val32 w ≠ (ts.map Ext.value).sum := by
  have hnan : ∀ s, .nan s ∉ ts := fun s hs => by obtain ⟨_, _, h⟩ := hts _ hs; cases h
  have hinf : ∀ s, .inf s ∉ ts := fun s hs => by obtain ⟨_, _, h⟩ := hts _ hs; cases h
  obtain ⟨-, -, h⟩ := h.2 hnan
  obtain ⟨hround, hzero⟩ := h hinf
  by_cases hx : (ts.map Ext.value).sum = 0
  · obtain ⟨hfl, hw⟩ := hzero hx
    have hval : val32 w = 0 := val32_of_ext32 ((congrArg F32.ext hw).trans (ext_f32_zero _))
    rw [hx, show fl = 0 from hfl]
    exact iff_of_false (by decide) (not_not.2 hval)
  · rw [inexact_iff_of_roundsTo (hround hx) hlt]
    exact not_congr Rat.cast_inj

/-- The words and flags of a product of finite words (R67). -/
theorem twoprod_of_finite {a b : Word32} (ha : IsFinite a) (hb : IsFinite b) :
    let p := w32 (f32.sum .rne [(fv a).mul (fv b)])
    let e := w32 (f32.sum .rne [(fv a).mul (fv b), (fv p.1).flip])
    twoprod a b = if (fv p.1).isInf then ⟨p.1, 0, 4 ||| 16⟩
      else ⟨p.1, e.1, flagIf (e.2 &&& 16 ≠ 0) 32 ||| (p.2 &&& 8)⟩ := by
  obtain ⟨s, m, d, ha⟩ := ha
  obtain ⟨t, n, f, hb⟩ := hb
  simp only [twoprod, ha, hb, FVal.isNan, FVal.isInf, FVal.mulInv, FVal.isZero, Bool.or_self, Bool.and_false,
    Bool.false_and, Bool.false_eq_true, if_false]
  rfl

theorem and_unf_eq (fl : Byte) : fl &&& 8 = if fl.getLsbD 3 then 8 else 0 := by decide +revert

theorem twoprod_spec {a b : Word32} {s : Bool} {v : ℚ} (h : product (ext32 a) (ext32 b) = some (.num s v)) :
    let r := twoprod a b
    ∃ fl fe : Byte, Sums .rne [.num s v] (r.hi, fl) ∧
       (infinite r.hi → r.lo = 0 ∧ r.fl = 4 ||| 16) ∧
       (¬ infinite r.hi → Sums .rne [.num s v, (ext32 r.hi).opposite] (r.lo, fe) ∧
         r.fl = (if val32 r.lo = v - val32 r.hi then 0 else 32) ||| if fl.getLsbD 3 then 8 else 0) := by
  obtain ⟨ha, hb⟩ := isFinite_of_product_eq_num h
  have hr := twoprod_of_finite ha hb
  rw [ext32_eq, ext32_eq] at h
  have hp := (product_eq_some_iff.1 h).2
  rw [addend_of_not_nan (isNan_of_isFinite ha) (isNan_of_isFinite hb)] at hp
  have hpnan := isNan_of_toExt_num hp
  have hpsum : Sums .rne [.num s v] (w32 (f32.sum .rne [(fv a).mul (fv b)])) := by
    simpa [hp] using sums_sum (vs := [(fv a).mul (fv b)]) (by simpa using hpnan)
  dsimp only at hr
  generalize w32 (f32.sum .rne [(fv a).mul (fv b)]) = p at hr hpsum
  by_cases hinf : (fv p.1).isInf = true
  · rw [hr, if_pos hinf]
    exact ⟨p.2, 0, hpsum, fun _ => ⟨rfl, rfl⟩, fun h => absurd ((infinite_iff p.1).2 hinf) h⟩
  · have hfin : ¬ infinite p.1 := (infinite_iff p.1).not.2 hinf
    obtain ⟨t, ht⟩ := (step_num_cases ⟨p.2, hpsum⟩ (by simp)).resolve_left hfin
    have hesum : Sums .rne [.num s v, (ext32 p.1).opposite] (w32 (f32.sum .rne [(fv a).mul (fv b), (fv p.1).flip])) := by
      rw [ext32_eq, opposite_toExt]
      have := sums_sum (vs := [(fv a).mul (fv b), (fv p.1).flip])
        (by simp [hpnan, isNan_flip, isNan_of_isFinite (isFinite_of_ext32 ht)])
      rwa [List.map_cons, List.map_singleton, hp] at this
    generalize w32 (f32.sum .rne [(fv a).mul (fv b), (fv p.1).flip]) = e at hr hesum
    rw [hr, if_neg hinf]
    refine ⟨p.2, e.2, hpsum, fun h => absurd h hfin, fun _ => ⟨hesum, ?_⟩⟩
    have hlt : |(v : ℝ) - val32 p.1| < 2 ^ 128 := by
      obtain ⟨q, hq⟩ := step_nearestAt ⟨p.2, hpsum⟩ (by simp) hfin
      have hplace : (2 : ℝ) ^ q ≤ 2 ^ (104 : ℤ) := zpow_le_zpow_right₀ one_le_two hq.place_le
      have hle := hq.abs_sub_le
      simp only [List.map_cons, List.map_nil, Ext.value, List.sum_singleton] at hle
      refine (hle.trans ((div_le_div_iff_of_pos_right two_pos).2 hplace)).trans_lt (by norm_num)
    have hinx := inexact_iff_of_sums hesum (by simp [ht, Ext.opposite])
      (by simpa [ht, Ext.opposite, Ext.value, ← sub_eq_add_neg] using hlt)
    simp only [ht, Ext.opposite, List.map_cons, List.map_nil, List.sum_cons, List.sum_nil, Ext.value, add_zero,
      ← sub_eq_add_neg] at hinx
    have hflag : flagIf (e.2 &&& 16 ≠ 0) 32 = if val32 e.1 = v - val32 p.1 then 0 else 32 := by
      by_cases hval : val32 e.1 = v - val32 p.1
      · rw [if_pos hval, flagIf, decide_eq_false (hinx.not.2 (not_not.2 hval))]; rfl
      · rw [if_neg hval, flagIf, decide_eq_true (hinx.2 hval)]; rfl
    rw [and_unf_eq, hflag]

end Sys2Proof.Machine

end

