-- ==== Sys2Proof/Proofs/PairArithmetic.lean ====
section
/-! # Arithmetic of pairs (O27) -/

namespace Sys2Proof.Machine
open Sys2Proof Sys2Proof.Claims

/-! ### Operands (R64) -/

/-- An operand pair is replaced by the infinity of its low word, or is left as it is. -/
theorem pairIn_cases {hi lo h l : Word32} (hp : PairIn hi lo h l) :
    (¬ infinite hi ∧ infinite lo) ∧ h = lo ∧ l = 0 ∨ ¬ (¬ infinite hi ∧ infinite lo) ∧ h = hi ∧ l = lo := by
  by_cases hc : ¬ infinite hi ∧ infinite lo
  · exact .inl ⟨hc, hp.1 hc⟩
  · exact .inr ⟨hc, hp.2 hc⟩

theorem fixPair_of_pairIn {hi lo h l : Word32} (hp : PairIn hi lo h l) (hhi : ¬ isNan hi) : fixPair hi lo = (h, l) := by
  have hcond : (!(fv hi).isNan && !(fv hi).isInf && (fv lo).isInf) = true ↔ ¬ infinite hi ∧ infinite lo := by
    rw [isNan_ext32_iff, Bool.not_eq_true] at hhi
    rw [infinite_iff, infinite_iff, hhi]
    simp
  rcases pairIn_cases hp with ⟨hc, rfl, rfl⟩ | ⟨hc, rfl, rfl⟩
  · exact if_pos (hcond.2 hc)
  · exact if_neg (hcond.not.2 hc)

/-- The words of an operand pair that is not infinite are finite. -/
theorem isFinite_of_pairIn {hi lo h l : Word32} (hp : PairIn hi lo h l) (hhi : ¬ isNan hi) (hlo : ¬ isNan lo)
    (hh : ¬ infinite h) : IsFinite h ∧ IsFinite l := by
  rcases pairIn_cases hp with ⟨hc, rfl, rfl⟩ | ⟨hc, rfl, rfl⟩
  · exact absurd hc.2 hh
  · rw [isFinite_iff, isFinite_iff]
    exact ⟨⟨hhi, hh⟩, hlo, fun hl => hc ⟨hh, hl⟩⟩

theorem not_isNan_of_infinite {w : Word32} (h : infinite w) : ¬ isNan w := by
  rintro ⟨t, ht⟩
  obtain ⟨s, hs⟩ := h
  rw [hs] at ht
  cases ht

theorem not_isNan_of_pairIn {hi lo h l : Word32} (hp : PairIn hi lo h l) (hhi : ¬ isNan hi) : ¬ isNan h := by
  rcases pairIn_cases hp with ⟨hc, rfl, rfl⟩ | ⟨-, rfl, rfl⟩
  · exact not_isNan_of_infinite hc.2
  · exact hhi

/-! ### Steps that end a pair operation (R68) -/

section
variable {ws : List Word32} {w hi lo : Word32} {fl : Byte} {r : Dw}

theorem ends_nil : Ends [] hi lo fl ⟨hi, lo, fl⟩ :=
  ⟨fun _ => rfl, fun as w bs h => by simp at h⟩

theorem ends_cons_of_infinite (hw : infinite w) : Ends (w :: ws) hi lo fl ⟨w, 0, fl ||| 4 ||| 16⟩ := by
  refine ⟨fun h => absurd hw (h w (List.mem_cons_self ..)), fun as w' bs h has _ => ?_⟩
  cases as with
  | nil => rw [(List.cons.inj h).1]
  | cons x as =>
    obtain rfl := (List.cons.inj h).1
    exact absurd hw (has w (List.mem_cons_self ..))

theorem ends_cons_of_not_infinite (hw : ¬ infinite w) (h : Ends ws hi lo fl r) : Ends (w :: ws) hi lo fl r := by
  refine ⟨fun hall => h.1 fun x hx => hall x (List.mem_cons_of_mem _ hx), fun as w' bs heq has hw' => ?_⟩
  cases as with
  | nil => exact absurd ((List.cons.inj heq).1 ▸ hw') hw
  | cons x as => exact h.2 as w' bs (List.cons.inj heq).2 (fun y hy => has y (List.mem_cons_of_mem _ hy)) hw'

theorem ends_dwStep {k : Unit → Dw} (h : ¬ infinite w → Ends ws hi lo fl (k ())) :
    Ends (w :: ws) hi lo fl (dwStep w fl k) := by
  unfold dwStep
  split_ifs with hw
  · exact ends_cons_of_infinite ((infinite_iff w).2 hw)
  · have hw := (infinite_iff w).not.2 hw
    exact ends_cons_of_not_infinite hw (h hw)

theorem ends_dwPair {d : Dw} {k : Unit → Dw} (h : ¬ infinite d.hi → ¬ infinite d.lo → Ends ws hi lo fl (k ())) :
    Ends (d.hi :: d.lo :: ws) hi lo fl (dwPair d fl k) :=
  ends_dwStep fun h1 => ends_dwStep fun h2 => h h1 h2

end

/-! ### The words of transforms are no NaN -/

/-- A number and a term that is no NaN have no NaN as their sum. -/
theorem not_isNan_of_step_num {s : Bool} {x : ℚ} {t : Ext} {w : Word32} (h : Step [.num s x, t] w)
    (ht : ∀ s, t ≠ .nan s) : ¬ isNan w := by
  refine not_isNan_of_step h (fun u hu => ?_) fun u hu hnu => ?_
  · exact ht u (by simpa [eq_comm] using hu)
  · have h1 : t = .inf u := by simpa [eq_comm] using hu
    have h2 : t = .inf !u := by simpa [eq_comm] using hnu
    rw [h1] at h2
    simp at h2

theorem ext32_ne_nan {w : Word32} (h : ¬ isNan w) (s : Bool) : ext32 w ≠ .nan s := fun hs => h ⟨s, hs⟩

theorem opposite_ext32_ne_nan {w : Word32} (h : ¬ isNan w) (s : Bool) : (ext32 w).opposite ≠ .nan s := by
  intro hs
  cases hw : ext32 w with
  | nan t => exact h ⟨t, hw⟩
  | inf t | num t x => rw [hw] at hs; cases hs

theorem not_isNan_zero : ¬ isNan 0 := by
  rintro ⟨s, hs⟩
  have : ext32 0 = .num false 0 := by decide +kernel
  rw [this] at hs
  cases hs

section
variable {a b : Word32} (ha : IsFinite a) (hb : IsFinite b)
include ha hb

theorem not_isNan_sumPair_hi (e : Word32) : ¬ isNan (sumPair a b e).hi := by
  obtain ⟨s, hs⟩ := ext32_of_isFinite ha
  have hstep := step_sumPair_hi ha hb e
  rw [hs] at hstep
  exact not_isNan_of_step_num hstep (ext32_ne_nan ((isFinite_iff b).1 hb).1)

theorem not_isNan_twosum_hi : ¬ isNan (twosum a b).hi := not_isNan_sumPair_hi ha hb _

theorem not_isNan_twosum_lo : ¬ isNan (twosum a b).lo := by
  by_cases h : infinite (twosum a b).hi
  · rw [show (twosum a b).lo = 0 from (sumPair_of_infinite ha hb _ h).1]
    exact not_isNan_zero
  · obtain ⟨s, hs⟩ := ext32_twosumError ha hb h
    rw [show (twosum a b).lo = posZero (twosumError a b) from (sumPair_of_not_infinite ha hb _ h).1, posZero]
    split
    · exact not_isNan_zero
    · exact ((isFinite_iff _).1 (isFinite_of_ext32 hs)).1

theorem not_isNan_ftwosum_lo : ¬ isNan (ftwosum a b).lo := by
  by_cases h : infinite (ftwosum a b).hi
  · rw [show (ftwosum a b).lo = 0 from (sumPair_of_infinite ha hb _ h).1]
    exact not_isNan_zero
  · obtain ⟨z, e, hz, he, hlo⟩ := ftwosum_steps ha hb h
    obtain ⟨s, hs⟩ := ext32_of_isFinite (isFinite_sumPair_hi ha hb h)
    obtain ⟨t, ht⟩ := ext32_of_isFinite hb
    rw [ht] at he
    rw [show ext32 (ftwosum a b).hi = _ from hs] at hz
    have hz := not_isNan_of_step_num hz (opposite_ext32_ne_nan ((isFinite_iff a).1 ha).1)
    have he := not_isNan_of_step_num he (opposite_ext32_ne_nan hz)
    rw [hlo]
    split
    · exact not_isNan_zero
    · exact he

theorem not_isNan_twoprod_lo : ¬ isNan (twoprod a b).lo := by
  obtain ⟨s, hs⟩ := ext32_of_isFinite ha
  obtain ⟨t, ht⟩ := ext32_of_isFinite hb
  obtain ⟨fl, fe, hhi, hinf, hfin⟩ := twoprod_spec (a := a) (b := b) (by rw [hs, ht]; rfl)
  by_cases h : infinite (twoprod a b).hi
  · rw [(hinf h).1]
    exact not_isNan_zero
  · have hnan : ¬ isNan (twoprod a b).hi := not_isNan_of_step ⟨fl, hhi⟩ (by simp) (by simp)
    exact not_isNan_of_step_num ⟨fe, (hfin h).1⟩ (opposite_ext32_ne_nan hnan)

end

theorem isFinite_addWords {a b : Word32} (ha : IsFinite a) (hb : IsFinite b) (h : ¬ infinite (addWords a b)) :
    IsFinite (addWords a b) := by
  obtain ⟨s, hs⟩ := ext32_of_isFinite ha
  have hstep := step_addWords a b
  rw [hs] at hstep
  exact (isFinite_iff _).2 ⟨not_isNan_of_step_num hstep (ext32_ne_nan ((isFinite_iff b).1 hb).1), h⟩

/-! ### Dwadd (R68) -/

section
variable {ah0 al0 bh0 bl0 ah al bh bl : Word32} (ha : PairIn ah0 al0 ah al) (hb : PairIn bh0 bl0 bh bl)

/-- A pair operation is invalid for a NaN among its words. -/
def PairsInvalid (ah0 al0 bh0 bl0 : Word32) : Prop := isNan ah0 ∨ isNan al0 ∨ isNan bh0 ∨ isNan bl0

theorem pairsInvalid_iff : ((fv ah0).isNan || (fv al0).isNan || (fv bh0).isNan || (fv bl0).isNan) = true ↔
    PairsInvalid ah0 al0 bh0 bl0 := by
  simp only [PairsInvalid, isNan_ext32_iff, Bool.or_eq_true, or_assoc]

include ha hb

/-- dwadd of pairs that are no NaN. -/
theorem dwadd_of_valid (h : ¬ PairsInvalid ah0 al0 bh0 bl0) : dwadd ah0 al0 bh0 bl0 =
    if (fv ah).isInf && (fv bh).isInf && (fv ah).neg != (fv bh).neg then nanPair
    else if (fv ah).isInf || (fv bh).isInf then ⟨rneSum [fv ah, fv bh], 0, 0⟩
    else dwPair (twosum ah bh) 0 fun _ => dwPair (twosum al bl) 0 fun _ =>
      dwStep (rneAdd (twosum ah bh).lo (twosum al bl).hi) 0 fun _ =>
        let s := ftwosum (twosum ah bh).hi (rneAdd (twosum ah bh).lo (twosum al bl).hi)
        dwPair s 0 fun _ => dwStep (rneAdd s.lo (twosum al bl).lo) 0 fun _ =>
          let r := ftwosum s.hi (rneAdd s.lo (twosum al bl).lo)
          dwPair r 0 fun _ => ⟨r.hi, r.lo, 0⟩ := by
  have hnan := (pairsInvalid_iff (ah0 := ah0) (al0 := al0) (bh0 := bh0) (bl0 := bl0)).not.2 h
  simp only [PairsInvalid, not_or] at h
  obtain ⟨h1, -, h3, -⟩ := h
  rw [dwadd, if_neg hnan, fixPair_of_pairIn ha h1, fixPair_of_pairIn hb h3]
  rfl

theorem dwadd_ends (h : ¬ PairsInvalid ah0 al0 bh0 bl0) (hah : ¬ infinite ah) (hbh : ¬ infinite bh) :
    let se := twosum ah bh
    let tf := twosum al bl
    ∃ e1 e2, Step [ext32 se.lo, ext32 tf.hi] e1 ∧
      let s2 := ftwosum se.hi e1
      Step [ext32 s2.lo, ext32 tf.lo] e2 ∧
        let r := ftwosum s2.hi e2
        Ends [se.hi, se.lo, tf.hi, tf.lo, e1, s2.hi, s2.lo, e2, r.hi, r.lo] r.hi r.lo 0 (dwadd ah0 al0 bh0 bl0) := by
  rw [dwadd_of_valid ha hb h]
  simp only [PairsInvalid, not_or] at h
  obtain ⟨h1, h2, h3, h4⟩ := h
  obtain ⟨hah', hal⟩ := isFinite_of_pairIn ha h1 h2 hah
  obtain ⟨hbh', hbl⟩ := isFinite_of_pairIn hb h3 h4 hbh
  intro se tf
  refine ⟨addWords se.lo tf.hi, addWords (ftwosum se.hi (addWords se.lo tf.hi)).lo tf.lo, step_addWords _ _,
    step_addWords _ _, ?_⟩
  rw [infinite_iff, Bool.not_eq_true] at hah hbh
  simp only [hah, hbh, Bool.false_and, Bool.or_self, Bool.false_eq_true, if_false]
  rw [rneAdd_eq_addWords (not_isNan_twosum_lo hah' hbh') (not_isNan_twosum_hi hal hbl)]
  refine ends_dwPair fun hse1 hse2 => ends_dwPair fun htf1 htf2 => ends_dwStep fun he1 => ends_dwPair fun hs1 hs2 => ?_
  have hse : IsFinite se.hi := (isFinite_iff _).2 ⟨not_isNan_twosum_hi hah' hbh', hse1⟩
  have hsl : IsFinite se.lo := (isFinite_iff _).2 ⟨not_isNan_twosum_lo hah' hbh', hse2⟩
  have htf : IsFinite tf.hi := (isFinite_iff _).2 ⟨not_isNan_twosum_hi hal hbl, htf1⟩
  have he : IsFinite (addWords se.lo tf.hi) := isFinite_addWords hsl htf he1
  rw [rneAdd_eq_addWords (not_isNan_ftwosum_lo hse he) (not_isNan_twosum_lo hal hbl)]
  exact ends_dwStep fun _ => ends_dwPair fun _ _ => ends_nil

/-- dwmul of pairs that are no NaN. -/
theorem dwmul_of_valid (h : ¬ PairsInvalid ah0 al0 bh0 bl0) : dwmul ah0 al0 bh0 bl0 =
    if (fv ah).mulInv (fv bh) then nanPair
    else if (fv ah).isInf || (fv bh).isInf then ⟨rneSum [(fv ah).mul (fv bh)], 0, 0⟩
    else
      let pe := twoprod ah bh
      let t := rneSum [(fv al).mul (fv bh)]
      let t2 := rneSum [(fv ah).mul (fv bl), fv t]
      dwPair pe (pe.fl &&& 32) fun _ => dwStep t (pe.fl &&& 32) fun _ => dwStep t2 (pe.fl &&& 32) fun _ =>
        dwStep (rneAdd pe.lo t2) (pe.fl &&& 32) fun _ =>
          let r := ftwosum pe.hi (rneAdd pe.lo t2)
          dwPair r (pe.fl &&& 32) fun _ => ⟨r.hi, r.lo, pe.fl &&& 32⟩ := by
  have hnan := (pairsInvalid_iff (ah0 := ah0) (al0 := al0) (bh0 := bh0) (bl0 := bl0)).not.2 h
  simp only [PairsInvalid, not_or] at h
  obtain ⟨h1, -, h3, -⟩ := h
  rw [dwmul, if_neg hnan, fixPair_of_pairIn ha h1, fixPair_of_pairIn hb h3]
  rfl

omit ha hb in
/-- The product of finite words as a term of a sum. -/
theorem exists_product_of_isFinite {a b : Word32} (ha : IsFinite a) (hb : IsFinite b) :
    ∃ s x, product (ext32 a) (ext32 b) = some (.num s x) ∧ ((fv a).mul (fv b)).toExt = .num s x := by
  obtain ⟨s, hs⟩ := ext32_of_isFinite ha
  obtain ⟨t, ht⟩ := ext32_of_isFinite hb
  have h : product (ext32 a) (ext32 b) = some (.num (s != t) (val32 a * val32 b)) := by rw [hs, ht]; rfl
  refine ⟨_, _, h, ?_⟩
  rw [ext32_eq, ext32_eq] at h
  rw [← addend_of_not_nan (isNan_of_isFinite ha) (isNan_of_isFinite hb)]
  exact (product_eq_some_iff.1 h).2

theorem dwmul_ends (h : ¬ PairsInvalid ah0 al0 bh0 bl0) (hah : ¬ infinite ah) (hbh : ¬ infinite bh) :
    let pe := twoprod ah bh
    ∃ p t t2 e, product (ext32 al) (ext32 bh) = some p ∧ Step [p] t ∧
      (∃ q, product (ext32 ah) (ext32 bl) = some q ∧ Step [q, ext32 t] t2) ∧ Step [ext32 pe.lo, ext32 t2] e ∧
        let r := ftwosum pe.hi e
        Ends [pe.hi, pe.lo, t, t2, e, r.hi, r.lo] r.hi r.lo (pe.fl &&& 32) (dwmul ah0 al0 bh0 bl0) := by
  rw [dwmul_of_valid ha hb h]
  dsimp only
  simp only [PairsInvalid, not_or] at h
  obtain ⟨h1, h2, h3, h4⟩ := h
  obtain ⟨hah', hal⟩ := isFinite_of_pairIn ha h1 h2 hah
  obtain ⟨hbh', hbl⟩ := isFinite_of_pairIn hb h3 h4 hbh
  obtain ⟨s, x, hp, hpv⟩ := exists_product_of_isFinite hal hbh'
  obtain ⟨s', x', hq, hqv⟩ := exists_product_of_isFinite hah' hbl
  obtain ⟨_, _, hpe, -⟩ := exists_product_of_isFinite hah' hbh'
  rw [ext32_eq, ext32_eq] at hpe
  have hpnan := isNan_of_toExt_num hpv
  have hqnan := isNan_of_toExt_num hqv
  have ht : Step [.num s x] (rneSum [(fv al).mul (fv bh)]) := by
    simpa [hpv] using step_rneSum (vs := [(fv al).mul (fv bh)]) (by simpa using hpnan)
  generalize rneSum [(fv al).mul (fv bh)] = t at ht ⊢
  have htnan : ¬ isNan t := not_isNan_of_step ht (by simp) (by simp)
  have ht2 : Step [.num s' x', ext32 t] (rneSum [(fv ah).mul (fv bl), fv t]) := by
    rw [ext32_eq]
    rw [isNan_ext32_iff, Bool.not_eq_true] at htnan
    simpa [hqv] using step_rneSum (vs := [(fv ah).mul (fv bl), fv t]) (by simp [hqnan, htnan])
  generalize rneSum [(fv ah).mul (fv bl), fv t] = t2 at ht2 ⊢
  have ht2nan : ¬ isNan t2 := not_isNan_of_step_num ht2 (ext32_ne_nan htnan)
  refine ⟨_, t, t2, addWords (twoprod ah bh).lo t2, hp, ht, ⟨_, hq, ht2⟩, step_addWords _ _, ?_⟩
  rw [infinite_iff, Bool.not_eq_true] at hah hbh
  simp only [(product_eq_some_iff.1 hpe).1, hah, hbh, Bool.or_self, Bool.false_eq_true, if_false]
  rw [rneAdd_eq_addWords (not_isNan_twoprod_lo hah' hbh') ht2nan]
  exact ends_dwPair fun _ _ => ends_dwStep fun _ => ends_dwStep fun _ => ends_dwStep fun _ => ends_dwPair fun _ _ => ends_nil

end

/-! ### Dwadd is symmetric (R68) -/

theorem sumTerms_swap (p r : Bool × Nat × Int) (ts : List (Bool × Nat × Int)) :
    sumTerms (p :: r :: ts) = sumTerms (r :: p :: ts) := by
  have hexp : (sumTerms (p :: r :: ts)).2 = (sumTerms (r :: p :: ts)).2 := by
    cases ts with
    | nil => exact min_comm ..
    | cons t ts => exact min_left_comm ..
  refine Prod.ext ?_ hexp
  have hvalue := sumTerms_value (p :: r :: ts)
  rw [List.map_cons, List.map_cons, List.sum_cons, List.sum_cons, add_left_comm, ← List.sum_cons, ← List.sum_cons,
    ← List.map_cons (f := fun t : Bool × Nat × Int => (term t.1 t.2.1 : ℚ) * 2 ^ t.2.2),
    ← List.map_cons (f := fun t : Bool × Nat × Int => (term t.1 t.2.1 : ℚ) * 2 ^ t.2.2),
    ← sumTerms_value, hexp] at hvalue
  exact_mod_cast mul_right_cancel₀ (zpow_ne_zero _ two_ne_zero) hvalue

theorem roundSum_swap (f : Fmt) (mode : Rm) (p r : Bool × Nat × Int) (ts : List (Bool × Nat × Int)) :
    f.roundSum mode (p :: r :: ts) = f.roundSum mode (r :: p :: ts) := by
  have hall : ∀ g : Bool × Nat × Int → Bool, (p :: r :: ts).all g = (r :: p :: ts).all g := fun g => by
    simp only [List.all_cons, Bool.and_left_comm]
  rw [roundSum_eq, roundSum_eq, sumTerms_swap p r, hall, hall]

/-- The order of the first two terms of a sum does not matter. -/
theorem sum_swap (f : Fmt) (mode : Rm) (a b : FVal) (vs : List FVal) :
    f.sum mode (a :: b :: vs) = f.sum mode (b :: a :: vs) := by
  have hmem : ∀ v, v ∈ a :: b :: vs ↔ v ∈ b :: a :: vs := fun v => (List.Perm.swap b a vs).mem_iff
  have hsum : f.roundSum mode ((a :: b :: vs).filterMap FVal.parts) =
      f.roundSum mode ((b :: a :: vs).filterMap FVal.parts) := by
    simp only [List.filterMap_cons]
    cases a.parts <;> cases b.parts
    case some.some => exact roundSum_swap ..
    all_goals rfl
  rw [sum_eq, sum_eq, hsum]
  simp only [hmem]

theorem rneSum_swap (a b : FVal) (vs : List FVal) : rneSum (a :: b :: vs) = rneSum (b :: a :: vs) := by
  rw [rneSum, rneSum, sum_swap]

theorem oppositeInfs_comm (a b : FVal) :
    (a.isInf && b.isInf && a.neg != b.neg) = (b.isInf && a.isInf && b.neg != a.neg) := by
  rw [Bool.and_comm a.isInf, bne_comm]

theorem twosum_comm (a b : Word32) : twosum a b = twosum b a := by
  simp only [twosum_eq, sumPair, twosumError, rneSum_swap (fv a) (fv b), oppositeInfs_comm (fv a) (fv b),
    Bool.or_comm (fv a).isNan, Bool.or_comm (fv a).isInf]

theorem dwadd_comm (ah0 al0 bh0 bl0 : Word32) : dwadd bh0 bl0 ah0 al0 = dwadd ah0 al0 bh0 bl0 := by
  unfold dwadd
  obtain ⟨ah, al⟩ := fixPair ah0 al0
  obtain ⟨bh, bl⟩ := fixPair bh0 bl0
  have hnan : ((fv bh0).isNan || (fv bl0).isNan || (fv ah0).isNan || (fv al0).isNan) =
      ((fv ah0).isNan || (fv al0).isNan || (fv bh0).isNan || (fv bl0).isNan) := by
    rw [Bool.or_assoc, Bool.or_comm, ← Bool.or_assoc]
  simp only [hnan, twosum_comm bh ah, twosum_comm bl al, rneSum_swap (fv bh) (fv ah), oppositeInfs_comm (fv bh) (fv ah),
    Bool.or_comm (fv bh).isInf]

/-! ### Dwnorm (R69) -/

theorem dwnorm_of_nan {hi lo : Word32} (h : isNan hi ∨ isNan lo) : dwnorm hi lo = nanPair := by
  rw [isNan_ext32_iff, isNan_ext32_iff, ← Bool.or_eq_true] at h
  exact if_pos h

theorem dwnorm_of_valid {hi lo h l : Word32} (hp : PairIn hi lo h l) (hhi : ¬ isNan hi) (hlo : ¬ isNan lo) :
    dwnorm hi lo = if (fv h).isInf then ⟨h, 0, 0⟩ else twosum h l := by
  have hfix := fixPair_of_pairIn hp hhi
  rw [isNan_ext32_iff, Bool.not_eq_true] at hhi hlo
  rw [dwnorm, hfix, hhi, hlo]
  rfl

/-! ### Infinite operands -/

/-- dwadd of a pair that is infinite and one that is not its opposite. -/
theorem dwadd_of_inf {ah0 al0 bh0 bl0 ah al bh bl : Word32} {s : Bool} (ha : PairIn ah0 al0 ah al)
    (hb : PairIn bh0 bl0 bh bl) (h : ¬ PairsInvalid ah0 al0 bh0 bl0)
    (hs : ext32 ah = .inf s ∧ ext32 bh ≠ .inf !s ∨ ext32 bh = .inf s ∧ ext32 ah ≠ .inf !s) :
    dwadd ah0 al0 bh0 bl0 = ⟨BitVec.ofNat 32 (F32.infinity s), 0, 0⟩ := by
  have hvalid : ¬ SumInvalid ah bh := by
    simp only [PairsInvalid, not_or] at h
    obtain ⟨hah, -, hbh, -⟩ := h
    rintro (hn | hn | ⟨t, hat, hbt⟩)
    · exact not_isNan_of_pairIn ha hah hn
    · exact not_isNan_of_pairIn hb hbh hn
    · cases s <;> cases t <;> simp [hat, hbt] at hs
  have hsome : ext32 ah = .inf s ∨ ext32 bh = .inf s := hs.imp And.left And.left
  have hinf : ((fv ah).isInf || (fv bh).isInf) = true := by
    rw [Bool.or_eq_true, ← infinite_iff, ← infinite_iff]
    exact hsome.imp (fun h => ⟨s, h⟩) fun h => ⟨s, h⟩
  have hopp := (sumInvalid_iff ah bh).not.2 hvalid
  simp only [Bool.or_eq_true, not_or] at hopp
  rw [dwadd_of_valid ha hb h, if_neg hopp.2, if_pos hinf, rneSum_of_inf hvalid hsome]

theorem dwmul_of_inf {ah0 al0 bh0 bl0 ah al bh bl : Word32} {s : Bool} (ha : PairIn ah0 al0 ah al)
    (hb : PairIn bh0 bl0 bh bl) (h : ¬ PairsInvalid ah0 al0 bh0 bl0)
    (hs : product (ext32 ah) (ext32 bh) = some (.inf s)) :
    dwmul ah0 al0 bh0 bl0 = ⟨BitVec.ofNat 32 (F32.infinity s), 0, 0⟩ := by
  obtain ⟨⟨-, -, hinv⟩, hsome, hword⟩ := product_eq_inf hs
  rw [dwmul_of_valid ha hb h, if_neg (by simp [hinv]), if_pos hsome, hword]

theorem dwadd_of_invalid {ah0 al0 bh0 bl0 ah al bh bl : Word32} (ha : PairIn ah0 al0 ah al) (hb : PairIn bh0 bl0 bh bl)
    (h : PairsInvalid ah0 al0 bh0 bl0 ∨ ∃ s, ext32 ah = .inf s ∧ ext32 bh = .inf !s) :
    dwadd ah0 al0 bh0 bl0 = nanPair := by
  by_cases hinv : PairsInvalid ah0 al0 bh0 bl0
  · exact if_pos (pairsInvalid_iff.2 hinv)
  obtain ⟨s, hx, hy⟩ := h.resolve_left hinv
  rw [ext32_eq, toExt_eq_inf] at hx hy
  rw [dwadd_of_valid ha hb hinv, hx, hy]
  exact if_pos (by cases s <;> rfl)

theorem dwmul_of_invalid {ah0 al0 bh0 bl0 ah al bh bl : Word32} (ha : PairIn ah0 al0 ah al) (hb : PairIn bh0 bl0 bh bl)
    (h : PairsInvalid ah0 al0 bh0 bl0 ∨ product (ext32 ah) (ext32 bh) = none) : dwmul ah0 al0 bh0 bl0 = nanPair := by
  by_cases hinv : PairsInvalid ah0 al0 bh0 bl0
  · exact if_pos (pairsInvalid_iff.2 hinv)
  have hnone := h.resolve_left hinv
  rw [ext32_eq, ext32_eq, product_eq_none_iff] at hnone
  rw [dwmul_of_valid ha hb hinv, if_pos hnone]

/-! ### The obligation -/

theorem isFinite_of_plain {a b : Word32} (h : ¬ isNan a ∧ ¬ isNan b ∧ ¬ infinite a ∧ ¬ infinite b) :
    IsFinite a ∧ IsFinite b := by
  obtain ⟨hna, hnb, hia, hib⟩ := h
  exact ⟨(isFinite_iff a).2 ⟨hna, hia⟩, (isFinite_iff b).2 ⟨hnb, hib⟩⟩

/-- What a sum of finite words and its error word are (R65). -/
theorem sumPair_of_isFinite {a b : Word32} (ha : IsFinite a) (hb : IsFinite b) (e : Word32) :
    let r := sumPair a b e
    Step [ext32 a, ext32 b] r.hi ∧ (infinite r.hi → r.lo = 0 ∧ r.fl = 4 ||| 16) ∧
      (¬ infinite r.hi → r.fl = 0 ∧ r.lo ≠ 0x80000000) := by
  refine ⟨step_sumPair_hi ha hb e, sumPair_of_infinite ha hb e, fun h => ?_⟩
  obtain ⟨hlo, hfl⟩ := sumPair_of_not_infinite ha hb e h
  exact ⟨hfl, hlo ▸ posZero_ne e⟩

/-- Settles O27: the transforms give the exact errors of their sums, and each pair operation is its chain of steps. -/
theorem pairArithmetic : Obligations.PairArithmetic := by
  refine ⟨fun a b => ⟨fun r hr => ?_, fun h => ?_, fun h => ?_, ?_⟩, fun ah0 al0 bh0 bl0 ah al bh bl ha hb => ?_⟩
  · obtain ⟨e, rfl⟩ : ∃ e, r = sumPair a b e := by
      rcases List.mem_pair.1 hr with rfl | rfl
      · exact ⟨_, twosum_eq a b⟩
      · exact ⟨_, ftwosum_eq a b⟩
    refine ⟨sumPair_of_invalid, fun s => sumPair_of_inf, fun h => ?_⟩
    obtain ⟨hfa, hfb⟩ := isFinite_of_plain h
    exact sumPair_of_isFinite hfa hfb e
  · obtain ⟨hfa, hfb⟩ := isFinite_of_plain h
    exact twosum_exact hfa hfb
  · obtain ⟨hfa, hfb⟩ := isFinite_of_plain h
    exact fun hhi => ⟨ftwosum_exact hfa hfb hhi, ftwosum_steps hfa hfb hhi⟩
  · exact ⟨twoprod_of_invalid, fun s => twoprod_of_inf, fun s v => twoprod_spec⟩
  · refine ⟨dwadd_of_invalid ha hb, dwmul_of_invalid ha hb, fun s => dwadd_of_inf ha hb, fun s => dwmul_of_inf ha hb,
      fun h hah hbh => ⟨dwadd_ends ha hb h hah hbh, dwmul_ends ha hb h hah hbh⟩, dwadd_comm .., dwnorm_of_nan,
      fun s hhi hlo hs => ?_, fun hhi hlo hah => ?_, fun ch cl => rfl⟩
    · rw [dwnorm_of_valid ha hhi hlo, if_pos ((infinite_iff ah).1 ⟨s, hs⟩)]
    · rw [dwnorm_of_valid ha hhi hlo, if_neg ((infinite_iff ah).not.1 hah)]

end Sys2Proof.Machine

end

