-- ==== Sys2Proof/Proofs/DecodeSound.lean ====
section
/-! # What decoding accepts is well-formed (O35) -/

namespace Sys2Proof

/-! ### Slots of a bundle (R78 to R80) -/

theorem decodeSlot_wf {w : Nat} {ek : Option Byte} {i : Instr} (h : decodeSlot w ek = some i) : i.wf = true := by
  unfold decodeSlot at h
  split at h
  · split_ifs at h with hwf
    exact Option.some.inj h ▸ hwf
  · cases h

theorem decodeSlot_of_slotWithExt {w : Nat} {ek : Option Byte} {i : Instr} (h : slotWithExt w ek = .inl i) :
    decodeSlot w ek = some i := by
  unfold slotWithExt at h
  split at h
  · cases h
  · next j hj =>
    have hij : j = i := by
      split at h
      · exact Sum.inl.inj h
      · split at h
        · exact Sum.inl.inj h
        · split_ifs at h
          exact Sum.inl.inj h
    exact hij ▸ hj

/-- A slot beside the slots before it writes none of their registers (R78). -/
theorem writes_disjoint_of_mixOk {before : List (Nat × Instr)} {g : Nat} {i : Instr} (h : mixOk before g i = true)
    (hi : i ≠ .nop) : ∀ q ∈ before, ∀ r ∈ q.2.writes, r ∉ i.writes := by
  unfold mixOk at h
  rw [if_neg hi] at h
  simp only [Bool.and_eq_true] at h
  obtain ⟨⟨⟨-, hwrites⟩, -⟩, -⟩ := h
  simpa using hwrites

/-- What a slot that raises no fault gives: a NOP is passed over, and any other operation joins those of the slots
after it. -/
theorem decodeSlots_cons {before : List (Nat × Instr)} {k w : Nat} {ek : Option Byte}
    {rest : List (Nat × Nat × Option Byte)} {l : List (Nat × Instr)}
    (h : decodeSlots before ((k, w, ek) :: rest) = .inl l) :
    ∃ i, decodeSlot w ek = some i ∧ mixOk before (slotGroup w) i = true ∧
      (i = .nop ∧ decodeSlots before rest = .inl l ∨
        i ≠ .nop ∧ ∃ m, l = (k, i) :: m ∧ decodeSlots ((slotGroup w, i) :: before) rest = .inl m) := by
  rw [decodeSlots] at h
  split_ifs at h
  split at h
  · cases h
  · next i hi =>
    have hdec := decodeSlot_of_slotWithExt hi
    split_ifs at h with hmix hnop
    · split at h
      · next m hm => exact ⟨i, hdec, hmix, .inl ⟨hnop, hm.trans h⟩⟩
      · cases h
    · split at h
      · next m hm => exact ⟨i, hdec, hmix, .inr ⟨hnop, m, (Sum.inl.inj h).symm, hm⟩⟩
      · cases h

/-- The operations that slots decode to, beside the operations before them: they stand at the places of their slots in
order, and none writes a register that an earlier one writes. -/
theorem decodeSlots_sound {slots : List (Nat × Nat × Option Byte)} {before l : List (Nat × Instr)}
    (h : decodeSlots before slots = .inl l) :
    (l.map Prod.fst).Sublist (slots.map Prod.fst) ∧ (∀ p ∈ l, p.2.wf = true ∧ p.2 ≠ .nop) ∧
      (∀ q ∈ before, ∀ p ∈ l, ∀ r ∈ q.2.writes, r ∉ p.2.writes) ∧
      l.Pairwise fun p q => ∀ r ∈ p.2.writes, r ∉ q.2.writes := by
  induction slots generalizing before l with
  | nil =>
    obtain rfl : [] = l := Sum.inl.inj h
    simp
  | cons slot slots ih =>
    obtain ⟨k, w, ek⟩ := slot
    obtain ⟨i, hdec, hmix, ⟨-, htail⟩ | ⟨hnop, m, rfl, htail⟩⟩ := decodeSlots_cons h
    · obtain ⟨hplaces, hrest⟩ := ih htail
      exact ⟨hplaces.cons k, hrest⟩
    · obtain ⟨hplaces, hops, hbefore, hpair⟩ := ih htail
      refine ⟨hplaces.cons_cons k, List.forall_mem_cons.2 ⟨⟨decodeSlot_wf hdec, hnop⟩, hops⟩, fun q hq => ?_,
        List.pairwise_cons.2 ⟨hbefore (slotGroup w, i) (List.mem_cons_self ..), hpair⟩⟩
      exact List.forall_mem_cons.2 ⟨writes_disjoint_of_mixOk hmix hnop q hq, hbefore q (List.mem_cons_of_mem _ hq)⟩

/-! ### Bundles -/

/-- The slots of a bundle, as its statement lists them. -/
def BundleSound (l : List (Nat × Instr)) : Prop :=
  (∀ p ∈ l, p.1 < 4 ∧ p.2.wf = true ∧ p.2 ≠ .nop) ∧
    l.Pairwise fun p q => p.1 < q.1 ∧ ∀ r ∈ p.2.writes, r ∉ q.2.writes

/-- Slots that are some of the four, in order, make a sound bundle. -/
theorem bundleSound_of_decodeSlots {slots : List (Nat × Nat × Option Byte)} {before l : List (Nat × Instr)}
    (hslots : (slots.map Prod.fst).Sublist (List.range 4)) (h : decodeSlots before slots = .inl l) : BundleSound l := by
  obtain ⟨hplaces, hops, -, hpair⟩ := decodeSlots_sound h
  have hrange := hplaces.trans hslots
  have hrising : l.Pairwise fun p q => p.1 < q.1 :=
    List.pairwise_map.1 (List.pairwise_lt_range.sublist hrange)
  exact ⟨fun p hp => ⟨List.mem_range.1 (hrange.subset (List.mem_map_of_mem hp)), hops p hp⟩, hrising.and hpair⟩

theorem bundleSound_of_decodeBundle {w0 w1 w2 w3 : Nat} {l : List (Nat × Instr)}
    (h : decodeBundle w0 w1 w2 w3 = .inl l) : BundleSound l := by
  unfold decodeBundle at h
  split_ifs at h
  · refine bundleSound_of_decodeSlots ?_ h
    exact List.sublist_cons_self 0 [1, 2, 3]
  · obtain rfl := Sum.inl.inj h
    simp [BundleSound, Instr.wf]
  · refine bundleSound_of_decodeSlots ?_ h
    exact List.Sublist.refl [0, 1, 2, 3]

/-! ### Packets and routine words (R87 to R91) -/

theorem decodeK_wf {k : KClass} {w lit : Nat} {o : KOp} (h : decodeK k w lit = .inl o) : o.wf = true := by
  unfold decodeK at h
  split_ifs at h
  split at h
  · split_ifs at h with hwf
    exact Sum.inl.inj h ▸ hwf
  · cases h

theorem decodeKSlots_wf {lit : Nat} {ps : List (Nat × KClass)} {ws : List Nat} {l : List (Nat × KOp)}
    (h : decodeKSlots lit ps ws = .inl l) : ∀ p ∈ l, p.2.wf = true := by
  induction ps generalizing ws l with
  | nil =>
    obtain rfl : [] = l := Sum.inl.inj (by rwa [decodeKSlots] at h)
    simp
  | cons slot ps ih =>
    cases ws with
    | nil => cases h
    | cons w ws =>
      rw [decodeKSlots] at h
      split at h
      · cases h
      · next o ho =>
        split at h
        · next m hm =>
          obtain rfl := Sum.inl.inj h
          exact List.forall_mem_cons.2 ⟨decodeK_wf ho, ih hm⟩
        · cases h

theorem decodePacket_wf {h : Nat} {ws : List Nat} {l : List (Nat × KOp)} (hl : decodePacket h ws = .inl l) :
    ∀ p ∈ l, p.2.wf = true := by
  unfold decodePacket at hl
  split_ifs at hl
  split at hl
  · cases hl
  · next m hm =>
    split_ifs at hl
    exact Sum.inl.inj hl ▸ decodeKSlots_wf hm

theorem decodeRoutine_wf {w : Nat} {i : RWord} (h : decodeRoutine w = some i) : i.wf = true := by
  unfold decodeRoutine at h
  split at h
  · split_ifs at h with hwf
    exact Option.some.inj h ▸ hwf
  · cases h

/-- Settles O35: each decoder gives only what passes its own check of operands, and the slots of a bundle, taken in
order, only what the mix with the slots before admits. -/
theorem decodedWellFormed : Obligations.DecodedWellFormed :=
  ⟨fun _ _ _ _ _ => bundleSound_of_decodeBundle, fun _ _ _ => decodePacket_wf, fun _ _ => decodeRoutine_wf⟩

end Sys2Proof

end

