-- ==== Sys2Proof/Proofs/StepInstruction.lean ====
section
/-! # A step runs the instruction it decodes (O39) -/

namespace Sys2Proof.Machine
open Sys2Proof Sys2Proof.Claims

variable {s : State}

/-! ### The context in focus, through a fetch -/

@[simp] theorem wake_focus (s : State) (die : Nat) : (s.wake die).focus = s.focus := by
  simp only [State.wake]
  split <;> rfl
@[simp] theorem rouse_focus (s : State) (host : Bool) (a : Nat) : (s.rouse host a).focus = s.focus := by
  simp only [State.rouse]
  split <;> simp
@[simp] theorem eccLine_focus (s : State) (a : Nat) : (s.eccLine a).focus = s.focus := by
  simp only [State.eccLine]
  split <;> rfl
@[simp] theorem cachePage_focus (s : State) (g : Nat) (p : Tlb) : (s.cachePage g p).focus = s.focus := rfl

/-- ECC checks in turn keep the focus. -/
theorem foldl_eccLine_focus (f : Nat → Nat) (l : List Nat) (s : State) :
    (l.foldl (fun s a => s.eccLine (f a)) s).focus = s.focus :=
  List.foldlRecOn l _ (motive := fun t : State => t.focus = s.focus) rfl fun t ht _ _ => (eccLine_focus t _).trans ht

@[simp] theorem rdPlace_focus (s : State) (host : Bool) (a n : Nat) : (s.rdPlace host a n).2.focus = s.focus := by
  simp only [State.rdPlace]
  split
  · rfl
  · exact foldl_eccLine_focus _ _ s

@[simp] theorem settle_focus (s : State) (g part : Nat) (pasid : BitVec 20) (va : Word) (r w : Bool)
    (ats : Option (Nat × BitVec 2 × Bool × Bool)) : (s.settle g part pasid va r w ats).2.focus = s.focus := by
  have hchecks := fun l : List Nat => foldl_eccLine_focus id l s
  simp only [id] at hchecks
  simp only [State.settle]
  (repeat' split) <;> simp [hchecks]

@[simp] theorem translate_focus (s : State) (g part : Nat) (pasid : BitVec 20) (va : Word) (r w : Bool) :
    (s.translate g part pasid va r w).2.focus = s.focus := by
  simp only [State.translate]
  (repeat' split) <;> simp

@[simp] theorem fetch_focus (s : State) (cx : Nat) : (s.fetch cx).2.focus = s.focus := by
  have hxlate : (s.xlateFor cx (s.ctx cx).pc true false).2.focus = s.focus := translate_focus ..
  simp only [State.fetch]
  split <;> rename_i t htr <;> rw [htr] at hxlate
  · exact hxlate
  · exact hxlate
  · (repeat' split) <;> simp [show t.focus = s.focus from hxlate]

/-! ### A bundle boundary (R19, R132, R167, R328) -/

theorem mem_of_best_eq_some {α : Type} {key : α → Nat} {l : List α} {x : α} (h : best key l = some x) : x ∈ l := by
  induction l generalizing x with
  | nil => cases h
  | cons y ys ih =>
    rw [best] at h
    split at h
    · exact Option.some.inj h ▸ List.mem_cons_self ..
    · next z hz =>
      split_ifs at h
      · exact Option.some.inj h ▸ List.mem_cons_self ..
      · exact Option.some.inj h ▸ List.mem_cons_of_mem _ (ih hz)

/-- No context takes over where none that is ready is better than the one that runs. -/
theorem takesOver_of_noneAhead {g : Nat} (h : NoneAhead s g) : s.takesOver g = none := by
  unfold State.takesOver
  cases hready : s.nextReady g with
  | none => rfl
  | some cx =>
    obtain ⟨hcx, hstatus⟩ := List.mem_filter.1 (mem_of_best_eq_some hready)
    obtain ⟨⟨old, hold, hrun⟩, hprio⟩ := h cx hcx (of_decide_eq_true hstatus)
    cases hfound : s.runningOn g with
    | none => exact absurd (decide_eq_true hrun) (List.find?_eq_none.1 hfound old hold)
    | some o =>
      have hle := hprio o (List.mem_of_find?_eq_some hfound) (of_decide_eq_true (List.find?_some hfound :))
      simp [Option.filter, Nat.not_lt.2 hle]

theorem bundleTurn_of_atBundle {t : State} {ws : List Nat} (h : AtBundle s) (hfetch : s.fetch s.focus = (.inl ws, t)) :
    bundleTurn s.focus s = runWords s.focus ws t := by
  obtain ⟨-, hlive, hnone, htrap, hui, hrefused⟩ := h
  simp [bundleTurn, hlive, takesOver_of_noneAhead hnone, htrap, hui, hrefused, hfetch]

/-- With no turn listed, a step runs the words fetched at the PC. -/
theorem step_of_atBundle {t : State} {ws : List Nat} (h : AtBundle s) (hfetch : s.fetch s.focus = (.inl ws, t)) :
    step s = .next (runWords t.focus ws t) := by
  have hfocus : t.focus = s.focus := by simpa [hfetch] using fetch_focus s s.focus
  rw [step, h.1, hfocus]
  exact congrArg _ (bundleTurn_of_atBundle h hfetch)

/-! ### One instruction in its bundle -/

/-- A slot that always performs does so in any place. -/
theorem runSlot_of_go {sl : Slot} {f : State → State} (h : sl.eval s.focus s = .go f) (j k : Nat) :
    runSlot j sl s = runSlot k sl s := by
  cases hi : interlocked s.focus [(j, sl)] s with
  | true => exact (runSlot_interlocked hi).trans (runSlot_interlocked (k := k) hi).symm
  | false => exact (runSlot_go hi h).trans (runSlot_go (k := k) hi h).symm

/-- A control instruction is its slot in the first place of a bundle; LDI.64, which stands in the second, performs in
any. -/
theorem exec_eq_runSlot_zero {i : Instr} {sl : Slot} (h : controlSlot i = some sl) :
    exec i s = .next (runSlot 0 sl s) := by
  cases i <;> cases h
  case ldi64 d v => exact congrArg Host.Outcome.next (runSlot_of_go (sl := slotLdi64 d v) rfl 1 0)
  all_goals rfl

/-- NOP alone of the control instructions has no slot of its own. -/
theorem eq_nop_of_controlSlot_eq_none {i : Instr} (hform : i.form = .control) (h : controlSlot i = none) : i = .nop := by
  cases i
  case nop => rfl
  all_goals cases h
  all_goals cases hform

/-- An empty bundle is NOP's: it waits where NOP's waits, and moves the PC as it does. -/
theorem runBundle_nil : runBundle s.focus [] s = runSlot 0 slotNop s := rfl

theorem runWords_of_alone {ws : List Nat} {i : Instr} (hform : i.form = .control)
    (h : decodeBundle (ws.getD 0 0) (ws.getD 1 0) (ws.getD 2 0) (ws.getD 3 0) = .inl [(0, i)]) :
    .next (runWords s.focus ws s) = exec i s := by
  unfold runWords
  rw [h]
  cases hslot : controlSlot i with
  | none =>
    obtain rfl := eq_nop_of_controlSlot_eq_none hform hslot
    rfl
  | some sl =>
    rw [exec_eq_runSlot_zero hslot]
    simp [hslot, runSlot]

/-- A routine's turn is the meaning of the word at its place. -/
theorem routineStep_eq_exec {r : Routine} {w : RWord} (hplane : (s.core s.planeCore).plane = some r)
    (hw : decodeRoutine (smGet 0 (s.core s.planeCore).store r.pc).toNat = some w) :
    .next (routineStep s.planeCore s) = exec w.instr s := by
  simp only [routineStep, hplane, hw]
  cases w <;> rfl

/-- Settles O39: a turn is what it names, and a bundle at which the context in focus stands is run by its slots, of which
one alone is the instruction's own meaning. -/
theorem stepRunsTheInstruction : Obligations.StepRunsTheInstruction := by
  intro s t
  refine ⟨fun i ts h => by rw [step, h]; rfl, fun ws hat hfetch => ?_, fun g ts h => by rw [step, h]; rfl,
    fun ts r w h hplane hw => ?_⟩
  · have hstep := step_of_atBundle hat hfetch
    have hfocus : t.focus = s.focus := by simpa [hfetch] using fetch_focus s s.focus
    refine ⟨fun h => ?_, fun i h hform => hstep.trans (runWords_of_alone hform h), fun d v h => ?_, fun slot cause h => ?_⟩ <;>
      rw [hstep, runWords, h]
    · exact congrArg Host.Outcome.next runBundle_nil
    · rfl
    · rw [hfocus]
  · rw [step, h]
    exact routineStep_eq_exec (s := { s with agenda := ts }) hplane hw

end Sys2Proof.Machine

end

