-- ==== Sys2Proof/Proofs/RoutineWrites.lean ====
section
/-! # What a routine word writes (R89, R225, R226, R228) -/

namespace Sys2Proof.Machine
open Sys2Proof Sys2Proof.Claims

/-! ### Guards and ports as a cluster reads them -/

theorem cond_eq_guardHolds (r : Routine) (g : BitVec 3) (cl : Nat) : r.cond g cl = guardHolds r g cl := by
  obtain ⟨⟨n, hn⟩⟩ := g
  cases hl : r.loops <;> interval_cases n <;> simp [Routine.cond, guardHolds, hl]

theorem perf_eq_filter (r : Routine) (g : Option (BitVec 3)) :
    r.perf g = clusters.filter fun cl => g.all fun k => guardHolds r k cl := by
  cases g with
  | none => exact (List.filter_true _).symm
  | some g => exact List.filter_congr fun cl _ => cond_eq_guardHolds r g cl

theorem moveIdle_eq (m : Move) : moveIdle m = (decide (m.dst = 25) || decide (m = ⟨false, 0, 0, 0, 0⟩)) := by
  obtain ⟨guard, sel, src, dst, imm⟩ := m
  cases guard <;> simp [moveIdle, Bool.and_assoc]

/-- A move performs where it is not idle and its guard, if it has one, holds. -/
theorem move_on (r : Routine) (m : Move) (cl : Nat) :
    (wordWrites.move r m).on cl = (!moveIdle m && (!m.guard || guardHolds r m.sel cl)) := by
  simp [wordWrites.move, moveIdle_eq]

theorem movePerf_eq_filter (r : Routine) (m : Move) :
    movePerf m r = clusters.filter (wordWrites.move r m).on := by
  rw [funext (move_on r m)]
  unfold movePerf
  cases moveIdle m <;> cases m.guard <;> simp [perf_eq_filter]

theorem read_eq_portValue (st : PSt) (port : BitVec 6) (imm : BitVec 15) (cl : Nat) :
    st.read port.toNat imm cl = portValue st.r port imm cl := by
  simp [PSt.read, portValue, BitVec.toNat_eq, BitVec.signExtend, w32of]

theorem mem_clusters {cl : Nat} : cl ∈ clusters ↔ cl < 8 := List.mem_range

/-! ### Values after writes -/

theorem written_cons (w : PortWrite) (ws : List PortWrite) (d c : Nat) :
    written (w :: ws) d c = if w.dst = d ∧ w.on c = true then some (w.val c) else written ws d c := by
  unfold written
  rw [List.find?_cons]
  split <;> simp_all

theorem written_singleton (w : PortWrite) (d c : Nat) :
    written [w] d c = if w.dst = d ∧ w.on c = true then some (w.val c) else none := written_cons ..

theorem written_singleton_eq_none {w : PortWrite} {d c : Nat} (h : w.dst = d → w.on c = false) : written [w] d c = none := by
  rw [written_singleton, if_neg]
  rintro ⟨hd, hon⟩
  exact absurd hon (by simp [h hd])

theorem exists_of_written_eq_some {ws : List PortWrite} {d c : Nat} {v : Word32} (h : written ws d c = some v) :
    ∃ w ∈ ws, w.dst = d ∧ w.on c = true := by
  unfold written at h
  simp only [Option.map_eq_some_iff] at h
  obtain ⟨_, ⟨w, hw, -⟩, -⟩ := h
  exact ⟨w, List.mem_of_find?_eq_some hw, by simpa using List.find?_some hw⟩

/-- Two writes do not conflict: not both of one destination in one cluster (R89; log 144). -/
def Apart (x y : PortWrite) : Prop := ¬ (x.dst = y.dst ∧ x.dst ≠ 25 ∧ ∃ cl < 8, x.on cl = true ∧ y.on cl = true)

/-- A write in front of others that it does not conflict with: the value of a destination after all of them. -/
theorem getD_written_cons {w : PortWrite} {ws : List PortWrite} (h : ∀ v ∈ ws, Apart w v) {d c : Nat} (hd : d ≠ 25)
    (hc : c < 8) (x : Word32) :
    (written ws d c).getD ((written [w] d c).getD x) = (written (w :: ws) d c).getD x := by
  rw [written_cons, written_cons]
  split_ifs with hw
  · obtain ⟨rfl, hon⟩ := hw
    cases hv : written ws w.dst c with
    | none => rfl
    | some y =>
      obtain ⟨v, hmem, hdst, hvon⟩ := exists_of_written_eq_some hv
      exact absurd ⟨hdst.symm, hd, c, hc, hon, hvon⟩ (h v hmem)
  · rfl

/-! ### A routine after the writes of a word -/

/-- The routine stands where it stood: at its word, in its loops, neither ended nor failed. -/
structure Stands (r q : Routine) : Prop where
  w : q.w = r.w
  count : q.count = r.count
  pc : q.pc = r.pc
  loops : q.loops = r.loops
  ended : q.ended = false
  bad : q.bad = none

theorem Stands.trans {r q u : Routine} (h : Stands r q) (g : Stands q u) : Stands r u :=
  ⟨g.w.trans h.w, g.count.trans h.count, g.pc.trans h.pc, g.loops.trans h.loops, g.ended, g.bad⟩

/-- The numbers of the ports that hold what is written, one for each cluster. -/
def PlainDst (d : Nat) : Prop := (8 ≤ d ∧ d < 16) ∨ (20 ≤ d ∧ d < 24) ∨ d = 40 ∨ d = 43

theorem plainPort_iff (port : BitVec 6) : plainPort port ↔ PlainDst port.toNat := by
  simp [plainPort, PlainDst, BitVec.toNat_eq]

theorem ne_of_plainDst {d : Nat} (h : PlainDst d) : d ≠ 25 ∧ ¬ single d := by
  unfold PlainDst at h
  unfold single
  omega

/-- Loop counters, ports and p registers after writes. -/
def CountersAfter (r q : Routine) (ws : List PortWrite) : Prop :=
  ∀ j, smGet 0 q.lc j = if j < 4 then (written ws (16 + j) 0).getD (smGet 0 r.lc j) else smGet 0 r.lc j
def PortsAfter (r q : Routine) (ws : List PortWrite) : Prop :=
  ∀ cl < 8, ∀ port : BitVec 6, q.port cl port.toNat =
    if plainPort port then (written ws port.toNat cl).getD (r.port cl port.toNat) else r.port cl port.toNat
def PsAfter (r q : Routine) (ws : List PortWrite) : Prop :=
  ∀ k, smGet 0 q.p k = if k < 8 then (written ws k 0).getD (smGet 0 r.p k) else smGet 0 r.p k

section
variable {r q : Routine} {ws : List PortWrite}

theorem countersAfter_of_unwritten (hq : q.lc = r.lc) (h : ∀ j < 4, written ws (16 + j) 0 = none) :
    CountersAfter r q ws := fun j => by
  rw [hq]
  split_ifs with hj
  · rw [h j hj, Option.getD_none]
  · rfl

theorem portsAfter_of_unwritten (hq : q.ports = r.ports)
    (h : ∀ cl < 8, ∀ d, PlainDst d → written ws d cl = none) : PortsAfter r q ws := fun cl hcl port => by
  have hport : q.port cl port.toNat = r.port cl port.toNat := congrArg (smGet 0 · _) hq
  rw [hport]
  split_ifs with hp
  · rw [h cl hcl _ ((plainPort_iff port).1 hp), Option.getD_none]
  · rfl

theorem psAfter_of_unwritten (hq : q.p = r.p) (h : ∀ k < 8, written ws k 0 = none) : PsAfter r q ws := fun k => by
  rw [hq]
  split_ifs with hk
  · rw [h k hk, Option.getD_none]
  · rfl

end

/-- A routine after the writes of a word, all else as before. -/
structure Stored (r q : Routine) (ws : List PortWrite) : Prop where
  stands : Stands r q
  lc : CountersAfter r q ws
  port : PortsAfter r q ws
  p : PsAfter r q ws

theorem stored_nil {r : Routine} (hended : r.ended = false) (hbad : r.bad = none) : Stored r r [] :=
  ⟨⟨rfl, rfl, rfl, rfl, hended, hbad⟩, countersAfter_of_unwritten rfl fun _ _ => rfl,
    portsAfter_of_unwritten rfl fun _ _ _ _ => rfl, psAfter_of_unwritten rfl fun _ _ => rfl⟩

/-- Writes one after another that do not conflict are the writes of one word. -/
theorem Stored.cons {r q u : Routine} {w : PortWrite} {ws : List PortWrite} (h : Stored r q [w]) (g : Stored q u ws)
    (hapart : ∀ v ∈ ws, Apart w v) : Stored r u (w :: ws) := by
  refine ⟨h.stands.trans g.stands, fun j => ?_, fun cl hcl port => ?_, fun k => ?_⟩
  · rw [g.lc, h.lc]
    split_ifs with hj
    · exact getD_written_cons hapart (by omega) (by omega) _
    · rfl
  · rw [g.port cl hcl, h.port cl hcl]
    split_ifs with hp
    · exact getD_written_cons hapart (ne_of_plainDst ((plainPort_iff port).1 hp)).1 hcl _
    · rfl
  · rw [g.p, h.p]
    split_ifs with hk
    · exact getD_written_cons hapart (by omega) (by omega) _
    · rfl

/-! ### One write -/

/-- A write of a destination of which there is one copy, in some clusters only or with differing values (R226). -/
def SplitWrite (w : PortWrite) : Prop :=
  single w.dst ∧ (∃ cl < 8, w.on cl = true) ∧ ¬ ∀ cl < 8, w.on cl = true ∧ w.val cl = w.val 0

/-- The destinations that start nothing: ZERO, those of which there is one copy, and the ports that hold what is
written. -/
theorem quiet_cases {d : Nat} (hd : d < 64) (h : quiet d) : d = 25 ∨ single d ∨ PlainDst d := by
  unfold quiet at h
  rw [plainPort_iff, BitVec.toNat_ofNat, Nat.mod_eq_of_lt hd] at h
  unfold PlainDst at h ⊢
  unfold single
  omega

theorem uniformPort_of_single {d : Nat} (h : single d) : uniformPort d = true := by
  unfold single at h
  simp [uniformPort]
  omega

theorem uniformPort_of_plainDst {d : Nat} (h : PlainDst d) : uniformPort d = false := by
  unfold PlainDst at h
  simp [uniformPort]
  omega

/-- A port written in clusters one after another. -/
def Routine.setPorts (r : Routine) (dst : Nat) (val : Nat → Word32) (cls : List Nat) : Routine :=
  cls.foldl (fun q cl => q.setPort cl dst (val cl)) r

theorem port_setPort (r : Routine) {cl c d p : Nat} (v : Word32) (hd : d < 64) (hp : p < 64) :
    (r.setPort cl d v).port c p = if p = d ∧ c = cl then v else r.port c p := by
  unfold Routine.port Routine.setPort
  rw [smGet_put]
  exact if_congr (by omega) rfl rfl

theorem port_setPorts (r : Routine) {d p : Nat} (val : Nat → Word32) (hd : d < 64) (hp : p < 64) (cls : List Nat) (c : Nat) :
    (r.setPorts d val cls).port c p = if p = d ∧ c ∈ cls then val c else r.port c p := by
  induction cls generalizing r with
  | nil => simp [Routine.setPorts]
  | cons cl cls ih =>
    refine (ih (r.setPort cl d (val cl))).trans ?_
    rw [port_setPort r _ hd hp]
    by_cases hc : c = cl
    · subst hc
      by_cases hpd : p = d <;> simp [hpd]
    · simp [hc]

/-- What writing a port leaves as it was. -/
theorem setPorts_eq (r : Routine) (d : Nat) (val : Nat → Word32) (cls : List Nat) :
    r.setPorts d val cls = { r with ports := (r.setPorts d val cls).ports } := by
  induction cls generalizing r with
  | nil => rfl
  | cons cl cls ih => exact ih (r.setPort cl d (val cl))

theorem clusterPort_of_plain {d : Nat} (h : PlainDst d) (e : PEnv)
    (v : Word32) (cl : Nat) (st : PSt) : clusterPort e d v cl st = some { st with r := st.r.setPort cl d v } := by
  unfold PlainDst at h
  unfold clusterPort
  split
  case h_10 => rfl
  all_goals omega

theorem inClusters_of_plain {d : Nat} (h : PlainDst d) (e : PEnv)
    (val : Nat → Word32) (cls : List Nat) (c : CoreSt) (r : Routine) :
    inClusters (fun cl => clusterPort e d (val cl) cl) cls ⟨c, r⟩ = .ok ⟨c, r.setPorts d val cls⟩ := by
  induction cls generalizing r with
  | nil => rfl
  | cons cl cls ih =>
    rw [inClusters, clusterPort_of_plain h]
    exact ih _

/-- A split write is illegal. -/
theorem put_of_splitWrite {w : PortWrite} (hs : SplitWrite w) (e : PEnv) (st : PSt) :
    PSt.put e w.dst (clusters.filter w.on) w.val st = .bad := by
  obtain ⟨hsingle, ⟨cl, hcl, hon⟩, hall⟩ := hs
  have hperf : ¬ (w.dst = 25 ∨ clusters.filter w.on = []) := by
    rintro (h | h)
    · unfold single at hsingle
      omega
    · exact List.filter_eq_nil_iff.1 h cl (mem_clusters.2 hcl) hon
  have hne : ¬ (clusters.filter w.on = clusters ∧ clusters.all (fun cl => w.val cl = w.val 0) = true) := by
    rintro ⟨hf, hv⟩
    refine hall fun k hk => ⟨List.filter_eq_self.1 hf k (mem_clusters.2 hk), ?_⟩
    exact of_decide_eq_true (List.all_eq_true.1 hv k (mem_clusters.2 hk))
  unfold PSt.put
  rw [if_neg (by simpa using hperf), if_pos (uniformPort_of_single hsingle), if_neg (by simpa using hne)]

/-! ### What one write of a routine that goes on stores -/

section
variable {r : Routine} (hended : r.ended = false) (hbad : r.bad = none)
include hended hbad

/-- A write to ZERO, or one that performs in no cluster, stores nothing. -/
theorem stored_self {w : PortWrite} (h : w.dst = 25 ∨ ∀ cl < 8, w.on cl = false) : Stored r r [w] := by
  have hnone : ∀ d c, d ≠ 25 → c < 8 → written [w] d c = none := fun d c hd hc =>
    written_singleton_eq_none fun hdst => h.elim (fun h25 => absurd (hdst.symm.trans h25) hd) fun hoff => hoff c hc
  exact ⟨⟨rfl, rfl, rfl, rfl, hended, hbad⟩,
    countersAfter_of_unwritten rfl fun j hj => hnone _ _ (by omega) (by omega),
    portsAfter_of_unwritten rfl fun cl hcl d hd => hnone _ _ (ne_of_plainDst hd).1 hcl,
    psAfter_of_unwritten rfl fun k hk => hnone _ _ (by omega) (by omega)⟩

/-- A p register written. -/
theorem stored_p {w : PortWrite} (hdst : w.dst < 8) (hon : w.on 0 = true) :
    Stored r { r with p := smPut 0 r.p w.dst (w.val 0) } [w] := by
  have hother : ∀ d c, w.dst ≠ d → written [w] d c = none := fun d c hd => written_singleton_eq_none fun h => absurd h hd
  refine ⟨⟨rfl, rfl, rfl, rfl, hended, hbad⟩, countersAfter_of_unwritten rfl fun j hj => hother _ _ (by omega),
    portsAfter_of_unwritten rfl fun cl hcl d hd => hother _ _ fun h => (ne_of_plainDst hd).2 (.inl (h ▸ hdst)),
    fun k => ?_⟩
  rw [smGet_put, written_singleton, hon]
  by_cases hk : k = w.dst
  · simp [hk, hdst]
  · simp [hk, Ne.symm hk]

/-- A loop counter written. -/
theorem stored_lc {w : PortWrite} (hdst : 16 ≤ w.dst ∧ w.dst < 20) (hon : w.on 0 = true) :
    Stored r { r with lc := smPut 0 r.lc (w.dst - 16) (w.val 0) } [w] := by
  have hother : ∀ d c, w.dst ≠ d → written [w] d c = none := fun d c hd => written_singleton_eq_none fun h => absurd h hd
  refine ⟨⟨rfl, rfl, rfl, rfl, hended, hbad⟩, fun j => ?_,
    portsAfter_of_unwritten rfl fun cl hcl d hd => hother _ _ fun h => (ne_of_plainDst hd).2 (.inr (h ▸ hdst)),
    psAfter_of_unwritten rfl fun k hk => hother _ _ (by omega)⟩
  rw [smGet_put, written_singleton, hon]
  by_cases hj : w.dst = 16 + j
  · simp [hj, show j < 4 by omega]
  · simp [hj, show j ≠ w.dst - 16 by omega]

/-- A destination of which there is one copy, written in all clusters alike. -/
theorem stored_uniformWrite {w : PortWrite} (hdst : single w.dst) (hon : w.on 0 = true) (e : PEnv) (c : CoreSt) :
    ∃ q, uniformWrite e w.dst (w.val 0) ⟨c, r⟩ = .ok ⟨c, q⟩ ∧ Stored r q [w] := by
  rcases hdst with hp | hlc
  · exact ⟨_, if_pos hp, stored_p hended hbad hp hon⟩
  · exact ⟨_, (if_neg (by omega)).trans (if_pos hlc.2), stored_lc hended hbad hlc hon⟩

/-- A port that each cluster has, written in the clusters in which the write performs. -/
theorem stored_setPorts {w : PortWrite} (hdst : PlainDst w.dst) :
    Stored r (r.setPorts w.dst w.val (clusters.filter w.on)) [w] := by
  have hother : ∀ d c, single d → written [w] d c = none := fun d c hd =>
    written_singleton_eq_none fun h => absurd (h ▸ hd) (ne_of_plainDst hdst).2
  rw [setPorts_eq]
  refine ⟨⟨rfl, rfl, rfl, rfl, hended, hbad⟩,
    countersAfter_of_unwritten rfl fun j hj => hother _ _ (.inr ⟨by omega, by omega⟩), fun cl hcl port => ?_,
    psAfter_of_unwritten rfl fun k hk => hother _ _ (.inl hk)⟩
  have hlt : w.dst < 64 := by unfold PlainDst at hdst; omega
  rw [← setPorts_eq, port_setPorts r w.val hlt port.isLt, written_singleton]
  by_cases heq : port.toNat = w.dst
  · have hplain : plainPort port := (plainPort_iff port).2 (heq ▸ hdst)
    cases hon : w.on cl <;> simp [hplain, heq, hcl, hon, mem_clusters]
  · simp [heq, Ne.symm heq]

/-- A quiet write that is not split stores its values. -/
theorem put_stores {w : PortWrite} (hd : w.dst < 64) (hq : quiet w.dst) (hs : ¬ SplitWrite w) (e : PEnv) (c : CoreSt) :
    ∃ q, PSt.put e w.dst (clusters.filter w.on) w.val ⟨c, r⟩ = .ok ⟨c, q⟩ ∧ Stored r q [w] := by
  unfold PSt.put
  by_cases hidle : w.dst = 25 ∨ ∀ cl < 8, w.on cl = false
  · refine ⟨r, if_pos ?_, stored_self hended hbad hidle⟩
    simpa [List.filter_eq_nil_iff, mem_clusters] using hidle
  · rw [if_neg (by simpa [List.filter_eq_nil_iff, mem_clusters] using hidle)]
    rw [not_or] at hidle
    obtain ⟨hzero, hperf⟩ := hidle
    rcases quiet_cases hd hq with h | h | h
    · exact absurd h hzero
    · have hall : ∀ cl < 8, w.on cl = true ∧ w.val cl = w.val 0 := by
        by_contra hall
        exact hs ⟨h, by simpa using hperf, hall⟩
      obtain ⟨q, hq, hst⟩ := stored_uniformWrite hended hbad h (hall 0 (by omega)).1 e c
      have hfilter : clusters.filter w.on = clusters :=
        List.filter_eq_self.2 fun cl hcl => (hall cl (mem_clusters.1 hcl)).1
      have hval : clusters.all (fun cl => w.val cl = w.val 0) = true :=
        List.all_eq_true.2 fun cl hcl => decide_eq_true (hall cl (mem_clusters.1 hcl)).2
      exact ⟨q, by rw [if_pos (uniformPort_of_single h), hfilter, hval]; exact hq, hst⟩
    · exact ⟨_, by rw [uniformPort_of_plainDst h]; exact inClusters_of_plain h e w.val _ c r, stored_setPorts hended hbad h⟩

end

/-! ### The writes of a word -/

/-- Writes in turn. -/
def putAll (e : PEnv) : List PortWrite → PSt → PRes
  | [], st => .ok st
  | w :: ws, st => (st.put e w.dst (clusters.filter w.on) w.val).andThen (putAll e ws)

section
variable {r : Routine} (hended : r.ended = false) (hbad : r.bad = none)
include hended hbad

theorem putAll_stores {ws : List PortWrite} (hd : ∀ w ∈ ws, w.dst < 64) (hq : ∀ w ∈ ws, quiet w.dst)
    (hs : ¬ Split ws) (hapart : ws.Pairwise Apart) (e : PEnv) (c : CoreSt) :
    ∃ q, putAll e ws ⟨c, r⟩ = .ok ⟨c, q⟩ ∧ Stored r q ws := by
  induction ws generalizing r with
  | nil => exact ⟨r, rfl, stored_nil hended hbad⟩
  | cons w ws ih =>
    obtain ⟨hdw, hd⟩ := List.forall_mem_cons.1 hd
    obtain ⟨hqw, hq⟩ := List.forall_mem_cons.1 hq
    obtain ⟨haw, hapart⟩ := List.pairwise_cons.1 hapart
    obtain ⟨q, hput, hst⟩ := put_stores hended hbad hdw hqw (fun h => hs ⟨w, List.mem_cons_self .., h⟩) e c
    obtain ⟨u, htail, hstu⟩ := ih hst.stands.ended hst.stands.bad hd hq
      (fun ⟨v, hv, h⟩ => hs ⟨v, List.mem_cons_of_mem _ hv, h⟩) hapart
    exact ⟨u, by rw [putAll, hput]; exact htail, hst.cons hstu haw⟩

theorem putAll_of_split {ws : List PortWrite} (hd : ∀ w ∈ ws, w.dst < 64) (hq : ∀ w ∈ ws, quiet w.dst)
    (hs : Split ws) (e : PEnv) (c : CoreSt) : putAll e ws ⟨c, r⟩ = .bad := by
  induction ws generalizing r with
  | nil => simp [Split] at hs
  | cons w ws ih =>
    obtain ⟨hdw, hd⟩ := List.forall_mem_cons.1 hd
    obtain ⟨hqw, hq⟩ := List.forall_mem_cons.1 hq
    by_cases hw : SplitWrite w
    · rw [putAll, put_of_splitWrite hw]
      rfl
    · obtain ⟨v, hv, hsv⟩ := hs
      obtain ⟨q, hput, hst⟩ := put_stores hended hbad hdw hqw hw e c
      have htail : Split ws := ⟨v, (List.mem_cons.1 hv).resolve_left fun h => hw (h ▸ hsv), hsv⟩
      rw [putAll, hput]
      exact ih hst.stands.ended hst.stands.bad hd hq htail

end

end Sys2Proof.Machine

end

