-- ==== Sys2Proof/Proofs/RoutineWords.lean ====
section
/-! # The words of a routine outside triggers (O45) -/

namespace Sys2Proof.Machine
open Sys2Proof Sys2Proof.Claims

/-! ### Where a routine goes on (R223, R229) -/

theorem goto_of_inside {r : Routine} {t : Int} (h : r.w ≤ t ∧ t < r.w + r.count) :
    r.goto t = { r with last := r.pc, pc := t.toNat } := by
  simp [Routine.goto, Int.not_lt.2 h.1, Int.not_le.2 h.2]

theorem goto_of_outside {r : Routine} {t : Int} (h : ¬ (r.w ≤ t ∧ t < r.w + r.count)) :
    r.goto t = { r with last := r.pc, bad := some ((r.pc - r.w) % 256) } := by
  have hout : t < r.w ∨ (r.w + r.count : Int) ≤ t := by omega
  simp [Routine.goto, hout]

theorem goto_cases (r : Routine) (t : Int) :
    r.goto t = { r with last := r.pc, pc := t.toNat } ∨
      r.goto t = { r with last := r.pc, bad := some ((r.pc - r.w) % 256) } := by
  by_cases h : r.w ≤ t ∧ t < r.w + r.count
  · exact .inl (goto_of_inside h)
  · exact .inr (goto_of_outside h)

@[simp] theorem goto_loops (r : Routine) (t : Int) : (r.goto t).loops = r.loops := by
  rcases goto_cases r t with h | h <;> rw [h]
@[simp] theorem goto_lc (r : Routine) (t : Int) : (r.goto t).lc = r.lc := by
  rcases goto_cases r t with h | h <;> rw [h]
@[simp] theorem goto_p (r : Routine) (t : Int) : (r.goto t).p = r.p := by
  rcases goto_cases r t with h | h <;> rw [h]
@[simp] theorem goto_port (r : Routine) (t : Int) (cl p : Nat) : (r.goto t).port cl p = r.port cl p := by
  rcases goto_cases r t with h | h <;> rw [h] <;> rfl

/-- A routine that stands at its word goes on at a place, whatever its loops and counters have become. -/
theorem goesTo_goto {r q : Routine} (h : Stands r q) (ls : List (Nat × Nat × Nat × Bool)) (m : SMap Word32) (t : Int) :
    goesTo r ({ q with loops := ls, lc := m }.goto t) t := by
  obtain ⟨hw, hcount, hpc, -, -, hbad⟩ := h
  unfold goesTo
  split_ifs with hin
  · rw [goto_of_inside (by rwa [hw, hcount])]
    exact ⟨hpc, Int.toNat_of_nonneg (by omega), hbad⟩
  · rw [goto_of_outside (by rwa [hw, hcount])]
    exact ⟨hpc, by rw [hpc, hw], hpc⟩

/-- The ends of bodies on a map of counters are those on the values that it holds. -/
theorem endBodies_eq_bodies (pc : Nat) (ls : List (Nat × Nat × Nat × Bool)) {m : SMap Word32} {f : Nat → Word32}
    (h : ∀ j, smGet 0 m j = f j) :
    (endBodies pc ls m).1 = (bodies pc ls f).1 ∧ (∀ j, smGet 0 (endBodies pc ls m).2.1 j = (bodies pc ls f).2.1 j) ∧
      (endBodies pc ls m).2.2 = (bodies pc ls f).2.2 := by
  induction ls generalizing m f with
  | nil => exact ⟨rfl, h, rfl⟩
  | cons l ls ih =>
    obtain ⟨k, a, b, first⟩ := l
    simp only [endBodies, bodies, h]
    by_cases hb : b = pc
    · rw [if_neg (not_not.2 hb), if_pos hb]
      split_ifs with hn
      · refine ⟨rfl, fun j => ?_, rfl⟩
        have hdec : BitVec.ofNat 32 ((f k).toNat - 1) = f k - 1 := by
          apply BitVec.eq_of_toNat_eq
          have := (f k).isLt
          rw [BitVec.toNat_ofNat, BitVec.toNat_sub]
          simp
          omega
        rw [smGet_put, hdec, h]
      · exact ih fun j => by rw [smGet_put, h]
    · rw [if_pos hb, if_neg hb]
      exact ⟨rfl, h, rfl⟩

theorem pass_eq {r : Routine} (h : r.ended = false) (pc : Nat) : r.pass pc =
    { r with loops := (endBodies pc r.loops r.lc).1, lc := (endBodies pc r.loops r.lc).2.1 }.goto
      (endBodies pc r.loops r.lc).2.2 :=
  if_neg (by simp [h])

@[simp] theorem pass_p (r : Routine) (pc : Nat) : (r.pass pc).p = r.p := by
  cases h : r.ended
  · rw [pass_eq h, goto_p]
  · rw [Routine.pass, if_pos h]
@[simp] theorem pass_port (r : Routine) (pc cl p : Nat) : (r.pass pc).port cl p = r.port cl p := by
  cases h : r.ended
  · rw [pass_eq h, goto_port]
    rfl
  · rw [Routine.pass, if_pos h]

/-- A routine that stands at its word passes on, its counters as the word left them. -/
theorem onward_pass {r q : Routine} (h : Stands r q) {lc : Nat → Word32} (hlc : ∀ j, smGet 0 q.lc j = lc j) (pc : Nat) :
    Onward r (q.pass pc) lc pc := by
  obtain ⟨hls, hcounters, hnext⟩ := endBodies_eq_bodies pc r.loops hlc
  rw [pass_eq h.ended, h.loops, hnext]
  exact ⟨(goto_loops ..).trans hls, fun j => by rw [goto_lc]; exact hcounters j, goesTo_goto h ..⟩

/-- A loop whose body does not hold a target. -/
def leaves (t : Int) (l : Nat × Nat × Nat × Bool) : Bool := !(decide ((l.2.1 : Int) ≤ t) && decide (t < l.2.2.1))

theorem leaves_eq (t : Int) (l : Nat × Nat × Nat × Bool) :
    leaves t l = !decide ((l.2.1 : Int) ≤ t ∧ t < l.2.2.1) := by
  simp [leaves]

theorem leaveLoops_eq (t : Int) (ls : List (Nat × Nat × Nat × Bool)) (m : SMap Word32) :
    (leaveLoops t ls m).1 = ls.dropWhile (leaves t) ∧ ∀ j, smGet 0 (leaveLoops t ls m).2 j =
      if j ∈ (ls.takeWhile (leaves t)).map Prod.fst then 0 else smGet 0 m j := by
  induction ls generalizing m with
  | nil => simp [leaveLoops]
  | cons l ls ih =>
    obtain ⟨k, a, b, first⟩ := l
    rw [leaveLoops, List.dropWhile_cons, List.takeWhile_cons, leaves_eq]
    by_cases hin : (a : Int) ≤ t ∧ t < b
    · rw [if_pos hin, decide_eq_true hin]
      exact ⟨rfl, fun j => (if_neg (List.not_mem_nil)).symm⟩
    · obtain ⟨hls, hlc⟩ := ih (smPut 0 m k 0)
      rw [if_neg hin, decide_eq_false hin]
      refine ⟨hls, fun j => ?_⟩
      rw [hlc, smGet_put]
      by_cases hj : j = k
      · simp [hj]
      · simp only [hj, if_false, Bool.not_false, if_true, List.map_cons, List.mem_cons, false_or]

theorem branch_eq (r : Routine) (disp : BitVec 13) : r.branch disp =
    { r with loops := (leaveLoops (r.pc + disp.toInt) r.loops r.lc).1,
             lc := (leaveLoops (r.pc + disp.toInt) r.loops r.lc).2 }.goto (r.pc + disp.toInt) := rfl

theorem branchesTo_branch {r : Routine} (h : Stands r r) (disp : BitVec 13) :
    BranchesTo r (r.branch disp) (r.pc + disp.toInt) := by
  obtain ⟨hls, hlc⟩ := leaveLoops_eq (r.pc + disp.toInt) r.loops r.lc
  rw [branch_eq]
  exact ⟨(goto_loops ..).trans hls, fun j => by rw [goto_lc]; exact hlc j, goesTo_goto h ..⟩

/-! ### A word of the routine that runs -/

variable {s : State} {r : Routine}

theorem stands_of_inRoutine (h : InRoutine s r) : Stands r r :=
  have ⟨_, hended, hbad⟩ := h
  ⟨rfl, rfl, rfl, rfl, hended, hbad⟩

theorem planeRun_eq (h : InRoutine s r) (f : PEnv → PSt → PRes) : s.planeRun s.planeCore f =
    match f (s.planeEnv r) ⟨s.core s.planeCore, r⟩ with
    | .stall => s
    | .bad => routineAt s { r with bad := some ((r.pc - r.w) % 256) }
    | .ok st => s.setCore s.planeCore { st.c with plane := some st.r } := by
  obtain ⟨hplane, hended, hbad⟩ := h
  simp only [State.planeRun, hplane, hended, hbad]
  rfl

theorem planeRun_of_bad (h : InRoutine s r) {f : PEnv → PSt → PRes}
    (hf : f (s.planeEnv r) ⟨s.core s.planeCore, r⟩ = .bad) : routineIllegal s r (s.planeRun s.planeCore f) := by
  rw [planeRun_eq h, hf]
  exact core_setCore_same ..

theorem planeRun_of_ok (h : InRoutine s r) {f : PEnv → PSt → PRes} {q : Routine}
    (hf : f (s.planeEnv r) ⟨s.core s.planeCore, r⟩ = .ok ⟨s.core s.planeCore, q⟩) :
    s.planeRun s.planeCore f = routineAt s q := by
  rw [planeRun_eq h, hf]
  rfl

/-! ### SETW and the moves (R89, R91, R225, R226) -/

theorem not_clash_iff (ws : List PortWrite) : ¬ Clash ws ↔ ws.Pairwise Apart := not_not

theorem clash_pair_iff (r : Routine) (m1 m2 : Move) :
    Clash [wordWrites.move r m1, wordWrites.move r m2] ↔
      m1.dst = m2.dst ∧ (movePerf m1 r).any (movePerf m2 r).contains = true := by
  rw [← not_iff_not, not_clash_iff, List.pairwise_pair, Apart, not_iff_not, movePerf_eq_filter, movePerf_eq_filter]
  simp only [List.any_eq_true, List.contains_iff_mem, List.mem_filter, mem_clusters]
  constructor
  · rintro ⟨hdst, -, cl, hcl, h1, h2⟩
    exact ⟨BitVec.eq_of_toNat_eq hdst, cl, ⟨hcl, h1⟩, hcl, h2⟩
  · rintro ⟨hdst, cl, ⟨hcl, h1⟩, -, h2⟩
    refine ⟨congrArg BitVec.toNat hdst, fun h25 => ?_, cl, hcl, h1, h2⟩
    have hzero : m1.dst = 25 := BitVec.eq_of_toNat_eq h25
    simp [wordWrites.move, hzero] at h1

theorem wordWrites_dst_lt {i : Instr} {ws : List PortWrite} (h : wordWrites r i = some ws) : ∀ w ∈ ws, w.dst < 64 := by
  unfold wordWrites at h
  split at h
  · obtain rfl := Option.some.inj h
    exact List.forall_mem_singleton.2 (BitVec.isLt _)
  · obtain rfl := Option.some.inj h
    exact List.forall_mem_cons.2 ⟨BitVec.isLt _, List.forall_mem_singleton.2 (BitVec.isLt _)⟩
  · cases h

theorem andThen_ok (x : PRes) : x.andThen .ok = x := by cases x <;> rfl

/-- A word that writes is the writes in turn, and is illegal where they conflict. -/
theorem exec_of_wordWrites {i : Instr} {ws : List PortWrite} (h : wordWrites r i = some ws) (hwf : i.wf = true) (s : State) :
    ∃ f, exec i s = .next (s.planeRun s.planeCore f) ∧ ∀ e c,
      (Clash ws → f e ⟨c, r⟩ = .bad) ∧ (¬ Clash ws → f e ⟨c, r⟩ = (putAll e ws ⟨c, r⟩).onward (r.pc + 1)) := by
  unfold wordWrites at h
  split at h
  · next g port imm =>
    obtain rfl := Option.some.inj h
    refine ⟨_, rfl, fun e c => ⟨fun hclash => absurd (List.pairwise_singleton ..) hclash, fun _ => ?_⟩⟩
    have hwrites : portWrites port = true := hwf
    simp only [setwWord, hwrites, putAll, andThen_ok, perf_eq_filter]
    rfl
  · next m1 m2 =>
    obtain rfl := Option.some.inj h
    have hmoves : m1.wf = true ∧ m2.wf = true := by simpa [Instr.wf] using hwf
    refine ⟨_, rfl, fun e c => ⟨fun hclash => if_pos ?_, fun hclash => (if_neg ?_).trans ?_⟩⟩
    · rw [clash_pair_iff] at hclash
      simp [hclash]
    · rw [clash_pair_iff] at hclash
      simpa [hmoves] using hclash
    · have hread : ∀ m : Move, PSt.read ⟨c, r⟩ m.src.toNat m.imm = (wordWrites.move r m).val :=
        fun m => funext fun cl => read_eq_portValue ⟨c, r⟩ m.src m.imm cl
      simp only [putAll, andThen_ok, hread, movePerf_eq_filter]
      rfl
  · cases h

/-- A word whose writes conflict or are split is illegal. -/
theorem illegal_of_clash_or_split (hin : InRoutine s r) {i : Instr} {ws : List PortWrite} (h : wordWrites r i = some ws)
    (hwf : i.wf = true) (hq : ∀ w ∈ ws, quiet w.dst) (hbad : Clash ws ∨ Split ws) :
    ∃ t, exec i s = .next t ∧ routineIllegal s r t := by
  obtain ⟨f, hexec, hf⟩ := exec_of_wordWrites h hwf s
  have hself := stands_of_inRoutine hin
  obtain ⟨hclash, hapart⟩ := hf (s.planeEnv r) (s.core s.planeCore)
  refine ⟨_, hexec, planeRun_of_bad hin ?_⟩
  by_cases hc : Clash ws
  · exact hclash hc
  · rw [hapart hc, putAll_of_split hself.ended hself.bad (wordWrites_dst_lt h) hq (hbad.resolve_left hc)]
    rfl

/-- A word whose writes agree stores them, and the routine goes on. -/
theorem stores_of_wordWrites (hin : InRoutine s r) {i : Instr} {ws : List PortWrite} (h : wordWrites r i = some ws)
    (hwf : i.wf = true) (hq : ∀ w ∈ ws, quiet w.dst) (hclash : ¬ Clash ws) (hsplit : ¬ Split ws) :
    ∃ q, Stored r q ws ∧ exec i s = .next (routineAt s (q.pass (r.pc + 1))) := by
  obtain ⟨f, hexec, hf⟩ := exec_of_wordWrites h hwf s
  have hself := stands_of_inRoutine hin
  obtain ⟨q, hput, hst⟩ := putAll_stores hself.ended hself.bad (wordWrites_dst_lt h) hq hsplit
    ((not_clash_iff ws).1 hclash) (s.planeEnv r) (s.core s.planeCore)
  refine ⟨q, hst, hexec.trans (congrArg Host.Outcome.next (planeRun_of_ok hin ?_))⟩
  rw [(hf _ _).2 hclash, hput]
  rfl

/-! ### LOOPR and BRG (R229) -/

/-- A count that differs between clusters, a fifth loop, a counter in use, or a body that ends after the body it lies
in. -/
def LooprBad (r : Routine) (k : BitVec 2) (port : BitVec 6) (stop : Nat) : Prop :=
  (∃ cl < 8, portValue r port 0 cl ≠ portValue r port 0 0) ∨ 4 ≤ r.loops.length ∨ (∃ l ∈ r.loops, l.1 = k.toNat) ∨
    ∃ l ls, r.loops = l :: ls ∧ l.2.2.1 < stop

/-- The routine inside a loop that it has entered. -/
def Routine.enter (r : Routine) (k : Nat) (n : Word32) (stop : Nat) : Routine :=
  { r with lc := smPut 0 r.lc k n, loops := (k, r.pc + 1, stop, true) :: r.loops }

theorem looprWord_cases (k : BitVec 2) {port : BitVec 6} {len : BitVec 12} (hport : portReads port = true) (hlen : len ≠ 0)
    (e : PEnv) (c : CoreSt) :
    let n := portValue r port 0 0
    let stop := r.pc + 1 + len.toNat
    (LooprBad r k port stop → looprWord k port len e ⟨c, r⟩ = .bad) ∧
    (¬ LooprBad r k port stop → n = 0 → looprWord k port len e ⟨c, r⟩ = .ok ⟨c, r.pass stop⟩) ∧
    (¬ LooprBad r k port stop → n ≠ 0 →
      looprWord k port len e ⟨c, r⟩ = .ok ⟨c, (r.enter k.toNat n stop).goto (r.pc + 1 : Nat)⟩) := by
  intro n stop
  have hread : PSt.read ⟨c, r⟩ port.toNat 0 = portValue r port 0 := funext fun cl => read_eq_portValue ⟨c, r⟩ port 0 cl
  have hbad : LooprBad r k port stop ↔ (!portReads port || decide (len = 0) ||
      clusters.any (fun cl => portValue r port 0 cl ≠ portValue r port 0 0) || decide (4 ≤ r.loops.length) ||
      r.loops.any (fun l => l.1 = k.toNat) || (r.loops.head?.map fun l => decide (l.2.2.1 < stop)).getD false) = true := by
    simp only [LooprBad, hport, hlen]
    cases hl : r.loops <;> simp [mem_clusters, or_assoc]
  simp only [looprWord, hread]
  refine ⟨fun h => if_pos (hbad.1 h), fun h hn => (if_neg (mt hbad.2 h)).trans (if_pos hn),
    fun h hn => (if_neg (mt hbad.2 h)).trans (if_neg hn)⟩

theorem brgWord_cases (g : BitVec 3) (disp : BitVec 13) (e : PEnv) (c : CoreSt) :
    ((∃ cl < 8, guardHolds r g cl ≠ guardHolds r g 0) → brgWord g disp e ⟨c, r⟩ = .bad) ∧
    ∀ b, (∀ cl < 8, guardHolds r g cl = b) →
      brgWord g disp e ⟨c, r⟩ = .ok ⟨c, if b then r.branch disp else r.pass (r.pc + 1)⟩ := by
  have hbad : (clusters.any fun cl => r.cond g cl ≠ r.cond g 0) = true ↔
      ∃ cl < 8, guardHolds r g cl ≠ guardHolds r g 0 := by
    simp [mem_clusters, cond_eq_guardHolds]
  refine ⟨fun h => if_pos (hbad.2 h), fun b h => (if_neg (mt hbad.1 ?_)).trans ?_⟩
  · rintro ⟨cl, hcl, hne⟩
    exact hne ((h cl hcl).trans (h 0 (by omega)).symm)
  · simp only [cond_eq_guardHolds, h 0 (by omega)]

/-! ### The obligation -/

/-- Settles O45: a word's writes are taken one by one, each storing its values or making the word illegal, and the
routine then goes on, enters a loop or branches. -/
theorem routineWords : Obligations.RoutineWords := by
  intro s r hin
  have hself := stands_of_inRoutine hin
  refine ⟨fun i ws h hwf hq => ⟨illegal_of_clash_or_split hin h hwf hq, fun hclash hsplit => ?_⟩,
    fun k port len hport hlen => ?_, fun disp => ?_, fun g disp => ?_, ?_⟩
  · obtain ⟨q, hst, hexec⟩ := stores_of_wordWrites hin h hwf hq hclash hsplit
    exact ⟨_, hexec, onward_pass hst.stands hst.lc _, fun cl hcl port => (pass_port ..).trans (hst.port cl hcl port),
      fun k => (congrArg (smGet 0 · k) (pass_p ..)).trans (hst.p k)⟩
  · obtain ⟨hbad, hskip, henter⟩ := looprWord_cases (r := r) k hport hlen (s.planeEnv r) (s.core s.planeCore)
    refine ⟨fun h => ⟨_, rfl, planeRun_of_bad hin (hbad h)⟩, fun h hn => ?_, fun h hn => ?_⟩
    · exact ⟨_, congrArg Host.Outcome.next (planeRun_of_ok hin (hskip h hn)), onward_pass hself (fun _ => rfl) _⟩
    · refine ⟨_, congrArg Host.Outcome.next (planeRun_of_ok hin (henter h hn)), ?_, goto_loops .., fun j => ?_⟩
      · exact goesTo_goto hself ..
      · exact (congrArg (smGet 0 · j) (goto_lc ..)).trans (smGet_put ..)
  · exact ⟨_, congrArg Host.Outcome.next (planeRun_of_ok hin rfl), branchesTo_branch hself disp⟩
  · obtain ⟨hbad, hgo⟩ := brgWord_cases (r := r) g disp (s.planeEnv r) (s.core s.planeCore)
    refine ⟨fun h => ?_, fun h => ?_, fun h => ⟨_, rfl, planeRun_of_bad hin (hbad h)⟩⟩
    · exact ⟨_, congrArg Host.Outcome.next (planeRun_of_ok hin (hgo true h)), branchesTo_branch hself disp⟩
    · exact ⟨_, congrArg Host.Outcome.next (planeRun_of_ok hin (hgo false h)), onward_pass hself (fun _ => rfl) _⟩
  · exact congrArg Host.Outcome.next (planeRun_of_ok hin rfl)

end Sys2Proof.Machine

end

