-- ==== Sys2Proof/Proofs/OwnBundle.lean ====
section
/-! # A control instruction that nothing hinders, in a bundle of its own, for each outcome of its slot -/

namespace Sys2Proof.Machine

open Sys2Proof Sys2Proof.Claims

section
variable {s : State} {i : Slot} {rs : List (BitVec 5)}

theorem interlocked_of_unhindered (h : Unhindered s rs) (hrs : i.regs ⊆ rs) (k : Nat) :
    interlocked s.focus [(k, i)] s = false :=
  have ⟨hawaited, hdrain, hwaits⟩ := h
  interlocked_one _ _ _ _ (fun r hr => hawaited r (hrs hr)) hdrain hwaits

variable (h : Unhindered s rs) (hrs : i.regs ⊆ rs)
include h hrs

theorem runs_go {f : State → State} {t : State} (e : i.eval s.focus s = .go f) (ht : f s = t) :
    (.next (runSlot 0 i s) : Res) = .next (next16 s t) :=
  ht ▸ congrArg _ (runSlot_go (interlocked_of_unhindered h hrs 0) e)

theorem runs_trap {c b : Nat} {v : Word} (e : i.eval s.focus s = .trap c b 0 v) :
    (.next (runSlot 0 i s) : Res) = traps s c b v :=
  congrArg _ (runSlot_trap (interlocked_of_unhindered h hrs 0) e)

theorem runs_block {w : Block} (e : i.eval s.focus s = .block w) :
    (.next (runSlot 0 i s) : Res) = blocks s w :=
  congrArg _ (runSlot_block (interlocked_of_unhindered h hrs 0) e)

theorem runs_enqueue {w : Block} {f : State → State} {t : State} (e : i.eval s.focus s = .enqueue w f) (ht : f s = t) :
    (.next (runSlot 0 i s) : Res) = .next (t.block s.focus w) :=
  ht ▸ congrArg _ (runSlot_enqueue (interlocked_of_unhindered h hrs 0) e)

theorem runs_wait (e : i.eval s.focus s = .wait) : (.next (runSlot 0 i s) : Res) = .next s :=
  congrArg _ (runSlot_wait (interlocked_of_unhindered h hrs 0) e)

end

/-- No register of a list is tagged: the test that opens a slot's evaluation fails. -/
theorem any_tagX_eq_false {s : State} {cx : Nat} {rs : List (BitVec 5)} (h : ∀ r ∈ rs, s.tagX cx r = false) :
    rs.any (s.tagX cx) = false := by
  simpa using h

end Sys2Proof.Machine

end

