-- ==== Sys2Proof/Proofs/Semaphores.lean ====
section
/-! # Semaphore operations at a file of this package (O7) -/

namespace Sys2Proof.Machine

open Sys2Proof Sys2Proof.Claims

/-! ### The slot of a semaphore operation -/

theorem semTarget_of_semOf {s : State} {a : BitVec 5} {i : BitVec 6} {g : BitVec 1} {at_ : SemAt}
    (h : semOf s a i g = some at_) : semTarget s s.focus a i g = .inr at_ := by
  unfold semOf at h
  unfold semTarget
  split at h
  · next hg => rw [if_pos hg]; cases h; rfl
  · next hg =>
    split at h
    · next hx => rw [if_neg hg]; simp only [if_neg (Nat.not_le.2 hx), h]
    · cases h

/-- A semaphore operation at a file of this package whose registers are untagged, a release or a post once the accesses
that it covers have performed, is its own part. -/
theorem semSlot_eval_here {s : State} {op : SemOp} {regs : List (BitVec 5)} {d a : BitVec 5} {i : BitVec 6}
    {g : BitVec 1} {v : Nat → State → Word32} {here : Nat → Nat → Nat → Word32 → State → SlotOut} {k j : Nat}
    (htag : ∀ r ∈ regs, s.tagX s.focus r = false) (hat : semOf s a i g = some (.here k j))
    (hcov : op = .rel ∨ op = .post →
      ∀ n ∈ s.covered s.focus (semScope s s.focus (.here k j)), s.outstanding n = false) :
    (semSlot op regs d a i g v here).eval s.focus s = here s.focus k j (v s.focus s) s := by
  have hw : ((op = .rel || op = .post) &&
      (s.covered s.focus (semScope s s.focus (.here k j))).any s.outstanding) = false := by
    rw [Bool.and_eq_false_iff, List.any_eq_false]
    by_cases ho : op = .rel ∨ op = .post
    · exact .inr fun n hn => by simp [hcov ho n hn]
    · exact .inl (by simpa using ho)
  simp only [semSlot, any_tagX_eq_false htag, semTarget_of_semOf hat, hw, Bool.false_eq_true, if_false]

/-! ### What a waiting operation finds -/

variable {s : State} {k j : Nat} {v : Word32} {own : Bool} {d : BitVec 5}

theorem find_isSome_reserved {ws : List Waiter} {p : Waiter → Bool} :
    ((ws.find? p).map Waiter.reserved).getD false = true ↔ ∃ w, ws.find? p = some w ∧ w.reserved = true := by
  cases ws.find? p <;> simp

theorem free_of_no_waiters {m : Sem} (h : m.waiters = []) : m.free = m.val.toInt := by
  simp [Sem.free, Sem.reserved, h]

theorem nextWaiter_of_no_waiters {m : Sem} (h : m.waiters = []) : s.nextWaiter m = none := by
  simp [State.nextWaiter, h]

theorem semTake_negative (hv : v.toInt < 0) : semTake own d s.focus k j v s = .trap 12 0 0 0 := by
  simp [semTake, hv]

theorem semTake_owner (hv : 0 ≤ v.toInt) (ho : (semOn s k j).owner = some (me s)) :
    semTake true d s.focus k j v s = .trap 12 0 0 0 := by
  unfold semOn me at ho
  simp [semTake, Int.not_lt.2 hv, ho]

/-- The amount is there for the task: it is taken, and the new value returned. -/
theorem semTake_takes (hv : 0 ≤ v.toInt) (ho : own = true → (semOn s k j).owner ≠ some (me s))
    (ht : Takes s (semOn s k j) v) :
    ∃ f, semTake own d s.focus k j v s = .go f ∧
      f s = semWrites (withSem s k j (taken s (semOn s k j) v own)) d ((semOn s k j).val - v) := by
  have hown : (own && decide ((semOn s k j).owner = some (me s))) = false := by
    cases own <;> simp_all
  have hmay : ((((semOn s k j).waiters.find? fun w => w.who = me s).map Waiter.reserved).getD false ||
      ((s.nextWaiter (semOn s k j)).all fun w => w.who = me s ||
        (((semOn s k j).waiters.find? fun w => w.who = me s).isNone &&
          decide (s.effPrio s.focus < s.waiterPrio w) && decide ((semOn s k j).free < w.amount))) &&
        decide (v.toInt ≤ (semOn s k j).free)) = true := by
    rw [Bool.or_eq_true, find_isSome_reserved]
    rcases ht with ⟨hnone, hle⟩ | ⟨hmine, hle, hnext⟩ | hheld
    · right
      simp [nextWaiter_of_no_waiters hnone, free_of_no_waiters hnone, hle]
    · right
      cases hn : s.nextWaiter (semOn s k j) with
      | none => simp [hle]
      | some w => simp [hle, hmine, hnext w hn]
    · exact .inl hheld
  unfold semOn me at hown hmay
  refine ⟨?f, ?takes, ?value⟩
  case takes =>
    unfold semTake
    simp only [if_neg (Int.not_lt.2 hv), hown, hmay, if_true, Bool.false_eq_true, if_false]
    rfl
  case value => rfl

/-- Nobody waits and the value is too small: the task joins the queue and blocks. -/
theorem semTake_joins (hv : 0 ≤ v.toInt) (ho : own = true → (semOn s k j).owner ≠ some (me s))
    (hnone : (semOn s k j).waiters = []) (hlt : (semOn s k j).val.toInt < v.toInt) :
    ∃ f, semTake own d s.focus k j v s = .enqueue (.sem k j) f ∧
      f s = withSem s k j { semOn s k j with waiters :=
        [{ who := me s, amount := v.toInt, acq := own, prio := s.effPrio s.focus, arrival := 0, reserved := false }] } := by
  have hown : (own && decide ((semOn s k j).owner = some (me s))) = false := by
    cases own <;> simp_all
  have hfree := free_of_no_waiters hnone
  unfold semOn me at *
  refine ⟨?f, ?joins, ?queue⟩
  case joins =>
    unfold semTake
    simp only [if_neg (Int.not_lt.2 hv), hown, hnone, hfree, List.find?_nil, Option.map_none, Option.getD_none,
      decide_eq_false (Int.not_le.2 hlt), Bool.and_false, Bool.or_false, Bool.false_eq_true, if_false]
    rfl
  case queue => simp [withSem, hnone, State.modCore]

/-! ### The service of waiters -/

theorem semServe_focus (s : State) (g i : Nat) : (s.semServe g i).focus = s.focus := by
  unfold State.semServe
  dsimp only
  split
  · rfl
  · split_ifs <;> rfl

@[simp] theorem semServeAll_focus (s : State) (g i : Nat) : (s.semServeAll g i).focus = s.focus :=
  List.foldlRecOn _ _ (motive := fun t : State => t.focus = s.focus) rfl fun t ht _ _ => (semServe_focus t g i).trans ht

theorem semBump_eq_withSem (s : State) (k j : Nat) (v : Word32) :
    s.semBump k j v = (withSem s k j { semOn s k j with val := (semOn s k j).val + v }).semServeAll k j := rfl

theorem semBump_focus (s : State) (k j : Nat) (v : Word32) : (s.semBump k j v).focus = s.focus :=
  semServeAll_focus ..

theorem semWrites_of_focus {s t : State} (h : t.focus = s.focus) (d : BitVec 5) (v : Word32) :
    semWrites t d v = t.wrX s.focus d (v.signExtend 64) false := by
  rw [← h]; rfl

/-! ### The operation of an instruction -/

/-- What each operation does at a file of this package, once nothing stands before it. -/
def semPart (op : SemOp) (d : BitVec 5) (cx k j : Nat) (v : Word32) (s : State) : SlotOut :=
  match op with
  | .add => .go fun t => (t.semBump k j v).wrX cx d (((s.core k).sem j).val.signExtend 64) false
  | .wait => semTake false d cx k j v s
  | .acq => semTake true d cx k j v s
  | .rel => if ((s.core k).sem j).owner = some (s.ctx cx).task then .go fun t => t.semRelease k j else .trap 12 0 0 0
  | .post => .go fun t => t.semBump k j v
  | .read => .go fun t => t.wrX cx d (((s.core k).sem j).val.signExtend 64) false

theorem semPart_rel_of_owner (h : (semOn s k j).owner = some (me s)) :
    semPart .rel d s.focus k j v s = .go fun t => t.semRelease k j := if_pos h

theorem semPart_rel_of_not_owner (h : (semOn s k j).owner ≠ some (me s)) :
    semPart .rel d s.focus k j v s = .trap 12 0 0 0 := if_neg h

/-- A semaphore instruction runs a slot that names its registers and does its operation's part. -/
theorem exec_sem {i : Instr} {op : SemOp} {d a : BitVec 5} {idx : BitVec 6} {g : BitVec 1} {rs : List (BitVec 5)}
    {v : Word32} {k j : Nat} (hrule : semRule (s.rdX s.focus) i = some (op, d, a, idx, g, rs, v))
    (htag : ∀ r ∈ a :: rs, s.tagX s.focus r = false) (hat : semOf s a idx g = some (.here k j)) :
    ∃ sl : Slot, exec i s = .next (runSlot 0 sl s) ∧ sl.regs = d :: a :: rs ∧
      ((op = .rel ∨ op = .post → ∀ n ∈ s.covered s.focus (semScope s s.focus (.here k j)), s.outstanding n = false) →
        sl.eval s.focus s = semPart op d s.focus k j v s) := by
  cases i
  case semAdd | semWait | semAcq | semRel | semPost | semRead =>
    cases hrule
    exact ⟨_, rfl, rfl, semSlot_eval_here htag hat⟩
  all_goals cases hrule

/-! ### The obligation -/

/-- Settles O7: each operation is its slot's own part, and a waiting one takes its amount, joins the queue or traps. -/
theorem semaphoreOperations : Obligations.SemaphoreOperations := by
  intro s i op d a idx g rs v k j hrule hun htag hat
  obtain ⟨sl, hexec, hregs, heval⟩ := exec_sem hrule htag hat
  have hsub : sl.regs ⊆ d :: a :: rs := hregs ▸ List.Subset.refl _
  rw [hexec]
  refine ⟨?add, ?read, fun hcov => ⟨?post, ?rel, ?notOwner⟩, ?take⟩
  case add =>
    rintro rfl
    rw [← semBump_eq_withSem, semWrites_of_focus (semBump_focus ..)]
    exact runs_go hun hsub (heval (by simp)) rfl
  case read => rintro rfl; exact runs_go hun hsub (heval (by simp)) rfl
  case post => rintro rfl; exact runs_go hun hsub (heval fun _ => hcov) rfl
  case rel =>
    rintro rfl hown
    exact runs_go hun hsub ((heval fun _ => hcov).trans (semPart_rel_of_owner hown)) rfl
  case notOwner =>
    rintro rfl hown
    exact runs_trap hun hsub ((heval fun _ => hcov).trans (semPart_rel_of_not_owner hown))
  case take =>
    intro hop
    have htake : sl.eval s.focus s = semTake (op = .acq) d s.focus k j v s := by
      rcases hop with rfl | rfl <;> exact heval (by simp)
    have hnot (h : op = .acq → (semOn s k j).owner ≠ some (me s)) :
        decide (op = .acq) = true → (semOn s k j).owner ≠ some (me s) := fun e => h (of_decide_eq_true e)
    refine ⟨fun hv => runs_trap hun hsub (htake.trans (semTake_negative hv)), ?_, fun hv hno => ⟨fun ht => ?_, ?_⟩⟩
    · rintro hv rfl hown
      exact runs_trap hun hsub (htake.trans (semTake_owner hv hown))
    · obtain ⟨f, hf, hval⟩ := semTake_takes hv (hnot hno) ht
      exact runs_go hun hsub (htake.trans hf) hval
    · intro hnone hlt
      obtain ⟨f, hf, hval⟩ := semTake_joins hv (hnot hno) hnone hlt
      exact runs_enqueue hun hsub (htake.trans hf) hval

end Sys2Proof.Machine

end

