-- ==== Sys2Proof/Proofs/TaskForms.lean ====
section
/-! # TASK forms and LAUNCH (O19) -/

namespace Sys2Proof.Machine

open Sys2Proof Sys2Proof.Claims

variable {s : State} {d a b : BitVec 5}

/-! ### TASK.RETIRE of a context that holds no kernel (R161) -/

theorem endAllHeld_of_no_heldK {cx : Nat} (h : (s.ctx cx).heldK = []) : s.endAllHeld cx = s := by
  simp [State.endAllHeld, h]

theorem finished_iff {c : Ctx} (h : c.heldK = []) :
    c.finished = true ↔ c.posted = [] ∧ c.active = [] ∧ c.castOn = [] ∧ c.ringTail ≤ c.ringHead := by
  simp [Ctx.finished, Ctx.ringCount, h, Nat.sub_eq_zero_iff_le, and_assoc]

theorem taskRetire_runs (hun : Unhindered s []) (hheld : (s.ctx s.focus).heldK = []) :
    ((s.ctx s.focus).finished = true → exec .taskRetire s =
      .next (next16 s (s.modCtx s.focus fun c => { c with retiring := true, status := .blocked .retire }))) ∧
    ((s.ctx s.focus).finished ≠ true → exec .taskRetire s = blocks s .retire) := by
  have hend := endAllHeld_of_no_heldK hheld
  have heval : slotTaskRetire.eval s.focus s = if (s.ctx s.focus).finished then
      .go fun t => (t.endAllHeld s.focus).modCtx s.focus fun c => { c with retiring := true, status := .blocked .retire }
    else .enqueue .retire fun t => t.endAllHeld s.focus := by
    dsimp only [slotTaskRetire]
    rw [hend]
  exact ⟨fun h => runs_go hun (List.nil_subset _) (heval.trans (if_pos h)) (by rw [hend]),
    fun h => runs_enqueue hun (List.nil_subset _) (heval.trans (if_neg h)) hend⟩

/-! ### The other TASK forms (R161) -/

theorem taskPrio_runs (hun : Unhindered s [a]) :
    let v := min 3 (s.rdX s.focus a).toNat
    (s.tagX s.focus a = true → exec (.taskPrio d a b) s = traps s 7 0 0) ∧
    (s.tagX s.focus a = false → v < (s.ctx s.focus).launchP → exec (.taskPrio d a b) s = traps s 9 0 0) ∧
    (s.tagX s.focus a = false → (s.ctx s.focus).launchP ≤ v →
      exec (.taskPrio d a b) s = .next (next16 s (s.modCtx s.focus fun c => { c with basePrio := v }))) := by
  intro v
  have hsub : (slotTaskPrio d a b).regs ⊆ [a] := List.Subset.refl _
  exact ⟨fun h => runs_trap hun hsub (if_pos h),
    fun h hv => runs_trap hun hsub ((if_neg (Bool.eq_false_iff.1 h)).trans (if_pos hv)),
    fun h hv => runs_go hun hsub ((if_neg (Bool.eq_false_iff.1 h)).trans (if_neg (Nat.not_lt.2 hv))) rfl⟩

theorem taskYield_runs (hun : Unhindered s []) :
    let other := (ctxsOf (s.home s.focus)).any fun k =>
      k ≠ s.focus && (s.ctx k).status = .ready && decide (s.effPrio k ≤ s.effPrio s.focus)
    (other = true → exec (.taskYield d a b) s = .next (next16 s (s.modCtx s.focus fun c => { c with status := .ready }))) ∧
    (other = false → exec (.taskYield d a b) s = .next (next16 s s)) := by
  intro other
  have hsub : (slotTaskYield d a b).regs ⊆ [] := List.Subset.refl _
  exact ⟨fun h => runs_go hun hsub rfl (if_pos h),
    fun h => runs_go hun hsub rfl (if_neg (Bool.eq_false_iff.1 h))⟩

/-! ### LAUNCH (R159, R160) -/

/-- A record at a local offset that passes the checks of R139. -/
theorem recordStop_of_recordAt {n : Nat} (h : Claims.recordAt s a n = true) :
    recordStop s s.focus (s.rdX s.focus a).toNat n = none := by
  simp only [Claims.recordAt, Bool.and_eq_true, decide_eq_true_eq] at h
  obtain ⟨halign, hext⟩ := h
  rw [recordStop, if_neg (not_not.2 halign), if_neg (Nat.not_lt.2 hext)]

theorem any_outstanding_eq_false {l : List Nat} (h : ∀ n ∈ l, s.outstanding n = false) :
    l.any s.outstanding = false := by
  simpa using h

/-- The cast-on queue takes no record: the ring holds some, or the queue is full. -/
theorem castOn_closed {c : Ctx} (h : c.ringHead < c.ringTail ∨ 4 ≤ c.castOn.length) :
    (decide (c.ringCount = 0) && decide (c.castOn.length < 4)) = false := by
  rw [Bool.and_eq_false_iff, decide_eq_false_iff_not, decide_eq_false_iff_not, Ctx.ringCount]
  omega

/-- A record stored in the next slot of the spill ring, whose page and place have been found. -/
def ringStore (d : BitVec 5) (cx : Nat) (bs : List Byte) (c : Ctx) (p : Tlb) (h : Bool) (q : Nat) (t : State) : State :=
  let va := c.ringSlot c.ringTail
  let u := (t.xlateFor cx va false true).2
  ((u.addReq (newReq u cx (.store bs false false) va h q (orderedAfter u cx h q 64) p.size)).modCtx
    cx fun c => { c with ringTail := c.ringTail + 1 }).wrX cx d 1 false

section
variable (htag : s.tagX s.focus a = false) (hrec : Claims.recordAt s a 64 = true)
include htag hrec

theorem launch_eval_of_not_ok (hok : launchOk s (s.ctx s.focus).part (recordBytes s a 64) = false) :
    (slotLaunch d a).eval s.focus s = .trap 11 0 0 0 := by
  unfold recordBytes at hok
  simp only [slotLaunch, htag, recordStop_of_recordAt hrec, hok, Bool.false_eq_true, if_false, Bool.not_false, if_true]

variable (hok : launchOk s (s.ctx s.focus).part (recordBytes s a 64) = true)
  (hcov : ∀ n ∈ s.covered s.focus .pkg, s.outstanding n = false)
include hok hcov

theorem launch_eval_castOn (hring : (s.ctx s.focus).ringTail ≤ (s.ctx s.focus).ringHead)
    (hcast : (s.ctx s.focus).castOn.length < 4) :
    (slotLaunch d a).eval s.focus s = .go fun t =>
      (t.modCtx s.focus fun c => { c with castOn := c.castOn ++ [launchOf (recordBytes s a 64)] }).wrX s.focus d 0 false := by
  unfold recordBytes at hok
  simp only [slotLaunch, htag, recordStop_of_recordAt hrec, hok, any_outstanding_eq_false hcov, Ctx.ringCount,
    Nat.sub_eq_zero_of_le hring, hcast, Bool.false_eq_true, if_false, Bool.not_true, decide_true, Bool.and_self, if_true]
  rfl

variable (hbusy : (s.ctx s.focus).ringHead < (s.ctx s.focus).ringTail ∨ 4 ≤ (s.ctx s.focus).castOn.length)
include hbusy

theorem launch_eval_full (hfull : 64 * ((s.ctx s.focus).lspill.toNat % 2 ^ 12) ≤
      (s.ctx s.focus).ringTail - (s.ctx s.focus).ringHead) :
    (slotLaunch d a).eval s.focus s = .block .castOn := by
  unfold recordBytes at hok
  have hroom : (s.ctx s.focus).ringRoom ≤ (s.ctx s.focus).ringCount := hfull
  simp only [slotLaunch, htag, recordStop_of_recordAt hrec, hok, any_outstanding_eq_false hcov, castOn_closed hbusy, hroom,
    Bool.false_eq_true, if_false, Bool.not_true, if_true]

theorem launch_eval_ring {t : Tlb} {h : Bool} {q : Nat}
    (hroom : (s.ctx s.focus).ringTail - (s.ctx s.focus).ringHead < 64 * ((s.ctx s.focus).lspill.toNat % 2 ^ 12))
    (hrefused : (s.ctx s.focus).refused ≠ some (.launch ((s.ctx s.focus).ringSlot (s.ctx s.focus).ringTail)))
    (hhit : (s.xlateFor s.focus ((s.ctx s.focus).ringSlot (s.ctx s.focus).ringTail) false true).1 = .hit t)
    (hplace : s.placeOf t ((s.ctx s.focus).ringSlot (s.ctx s.focus).ringTail) = (h, q)) :
    (slotLaunch d a).eval s.focus s =
      if s.flagPending s.focus h q 64 then .wait else .go (ringStore d s.focus (recordBytes s a 64) (s.ctx s.focus) t h q) := by
  unfold recordBytes at *
  have hroom' : ¬ (s.ctx s.focus).ringRoom ≤ (s.ctx s.focus).ringCount := Nat.not_le.2 hroom
  simp only [slotLaunch, htag, recordStop_of_recordAt hrec, hok, any_outstanding_eq_false hcov, castOn_closed hbusy, hroom',
    hrefused, hhit, hplace, Bool.false_eq_true, if_false, Bool.not_true]
  rfl

end

/-! ### The obligation -/

/-- Settles O19: each form is its slot's evaluation; a record goes to the cast-on queue or to the ring's next slot. -/
theorem taskForms : Obligations.TaskForms := by
  refine ⟨fun s d a b => ⟨fun hun => runs_go hun (List.Subset.refl _) rfl rfl, taskPrio_runs, fun hun => ?_⟩,
    fun s d a hun htag hrec => ⟨fun hok => ?_, fun hok hcov => ⟨fun hring hcast => ?_, fun hbusy => ⟨fun hfull => ?_,
      fun t hroom hrefused hhit => ?_⟩⟩⟩⟩
  · obtain ⟨hyields, hstays⟩ := taskYield_runs (d := d) (a := a) (b := b) hun
    refine ⟨hyields, hstays, fun hheld => ?_⟩
    rw [← finished_iff hheld]
    exact taskRetire_runs hun hheld
  all_goals have hsub : (slotLaunch d a).regs ⊆ [d, a] := List.Subset.refl _
  · exact runs_trap hun hsub (launch_eval_of_not_ok htag hrec hok)
  · exact runs_go hun hsub (launch_eval_castOn htag hrec hok hcov hring hcast) rfl
  · exact runs_block hun hsub (launch_eval_full htag hrec hok hcov hbusy hfull)
  · obtain ⟨⟨h, q⟩, hplace⟩ : ∃ p, s.placeOf t ((s.ctx s.focus).ringSlot (s.ctx s.focus).ringTail) = p := ⟨_, rfl⟩
    have heval := launch_eval_ring (d := d) htag hrec hok hcov hbusy hroom hrefused hhit hplace
    simp only [hplace]
    exact ⟨fun hflag => runs_wait hun hsub (heval.trans (if_pos hflag)),
      fun hflag => runs_go hun hsub (heval.trans (if_neg (Bool.eq_false_iff.1 hflag))) rfl⟩

end Sys2Proof.Machine

end

