-- ==== Sys2Proof/Proofs/TranslationFrame.lean ====
section
/-! # What a translation leaves alone

A translation may start exits from C3, check the lines of page tables, take free values and fill the translation cache
of a core; the rest of the state stands. -/

namespace Sys2Proof.Machine

open Sys2Proof

/-- The state t is s but for clocks' exits, ECC findings, free values and the translation caches of the cores. -/
structure Translated (s t : State) : Prop where
  ctxs : t.ctxs = s.ctxs
  reqs : t.reqs = s.reqs
  faults : t.faults = s.faults
  nextFlt : t.nextFlt = s.nextFlt
  focus : t.focus = s.focus
  core (g : Nat) : ∃ tlb, t.core g = { s.core g with tlb := tlb }
  cycle (d : Nat) : (t.die d).cycle = (s.die d).cycle

namespace Translated

variable {s t u : State}

theorem refl (s : State) : Translated s s := ⟨rfl, rfl, rfl, rfl, rfl, fun _ => ⟨_, rfl⟩, fun _ => rfl⟩

theorem trans (h : Translated s t) (h' : Translated t u) : Translated s u where
  ctxs := h'.ctxs.trans h.ctxs
  reqs := h'.reqs.trans h.reqs
  faults := h'.faults.trans h.faults
  nextFlt := h'.nextFlt.trans h.nextFlt
  focus := h'.focus.trans h.focus
  core g := by
    obtain ⟨a, ha⟩ := h.core g
    obtain ⟨b, hb⟩ := h'.core g
    exact ⟨b, by rw [hb, ha]⟩
  cycle d := (h'.cycle d).trans (h.cycle d)

theorem ctx (h : Translated s t) (cx : Nat) : t.ctx cx = s.ctx cx := by rw [State.ctx, State.ctx, h.ctxs]

theorem home (h : Translated s t) (cx : Nat) : t.home cx = s.home cx := by rw [State.home, State.home, h.ctx]

theorem now (h : Translated s t) : t.now = s.now := h.cycle 0

end Translated

/-! ### ECC checks and exits from C3 -/

variable (s : State)

theorem modDie_cycle (i d : Nat) {f : DieSt → DieSt} (hf : (f (s.die i)).cycle = (s.die i).cycle) :
    ((s.modDie i f).die d).cycle = (s.die d).cycle := by
  by_cases h : d = i
  · rw [h, die_modDie_same, hf]
  · rw [die_modDie_other _ _ _ _ h]

theorem translated_wake (die : Nat) : Translated s (s.wake die) := by
  unfold State.wake
  dsimp only
  split
  · exact ⟨rfl, rfl, rfl, rfl, rfl, fun _ => ⟨_, rfl⟩, fun d => modDie_cycle s die d rfl⟩
  · exact .refl s

theorem translated_rouse (host : Bool) (a : Nat) : Translated s (s.rouse host a) := by
  unfold State.rouse
  split
  · exact translated_wake s _
  · exact .refl s

theorem retire_cycle (die d : Nat) (r : Nat × Nat × Nat) : ((s.retire die r).die d).cycle = (s.die d).cycle := by
  unfold State.retire
  split
  · exact modDie_cycle s die d rfl
  · rw [modHub_die_]
    exact modDie_cycle s die d rfl

theorem corrected_cycle (die a d : Nat) : ((s.corrected die a).die d).cycle = (s.die d).cycle := by
  simp only [State.corrected]
  split
  · split
    · exact (retire_cycle ..).trans (modDie_cycle s die d rfl)
    · exact modDie_cycle s die d rfl
  · split
    · rfl
    · exact modDie_cycle s die d rfl

theorem checked_cycle (die a d : Nat) (ecc : Ecc) : ((s.checked die a ecc).die d).cycle = (s.die d).cycle := by
  cases ecc with
  | clean => rfl
  | corrected => exact corrected_cycle s die a d
  | uncorrectable => rfl

theorem translated_eccLine (a : Nat) : Translated s (s.eccLine a) := by
  unfold State.eccLine
  split
  · exact .refl s
  · exact ⟨rfl, rfl, rfl, rfl, rfl, fun _ => ⟨_, rfl⟩, fun d => checked_cycle _ _ a d _⟩

theorem translated_foldl_eccLine (f : Nat → Nat) (l : List Nat) :
    Translated s (l.foldl (fun s a => s.eccLine (f a)) s) :=
  List.foldlRecOn l _ (motive := Translated s) (.refl s) fun t ht a _ => ht.trans (translated_eccLine t (f a))

theorem translated_rdPlace (host : Bool) (a n : Nat) : Translated s (s.rdPlace host a n).2 := by
  unfold State.rdPlace
  split
  · exact .refl s
  · exact translated_foldl_eccLine s _ _

/-! ### Walks and translations -/

theorem translated_cachePage (g : Nat) (p : Tlb) : Translated s (s.cachePage g p) where
  ctxs := rfl
  reqs := rfl
  faults := rfl
  nextFlt := rfl
  focus := rfl
  cycle _ := rfl
  core i := by
    unfold State.cachePage
    by_cases h : i = g
    · rw [h, core_modCore_same]
      exact ⟨_, rfl⟩
    · rw [core_modCore_other _ _ _ _ h]
      exact ⟨_, rfl⟩

theorem translated_takeFree : Translated s { s with free := s.free + 1 } :=
  ⟨rfl, rfl, rfl, rfl, rfl, fun _ => ⟨_, rfl⟩, fun _ => rfl⟩

theorem translated_settle (g part : Nat) (pasid : BitVec 20) (va : Word) (r w : Bool)
    (ats : Option (Nat × BitVec 2 × Bool × Bool)) : Translated s (s.settle g part pasid va r w ats).2 := by
  simp only [State.settle]
  split
  · exact .refl s
  · split
    · exact translated_rouse s _ _
    · have hchecks := fun l : List Nat => translated_foldl_eccLine s id l
      split
      · exact hchecks _
      · split
        · exact hchecks _
        · exact (hchecks _).trans (translated_cachePage ..)

theorem translated_translate (g part : Nat) (pasid : BitVec 20) (va : Word) (r w : Bool) :
    Translated s (s.translate g part pasid va r w).2 := by
  simp only [State.translate]
  split
  · exact .refl s
  · split
    · exact .refl s
    · split
      · exact .refl s
      · split
        · split <;> exact .refl s
        · split
          · exact (translated_takeFree s).trans (translated_settle _ g part pasid va r w _)
          · exact translated_settle s g part pasid va r w none

theorem translated_xlateFor (cx : Nat) (va : Word) (r w : Bool) : Translated s (s.xlateFor cx va r w).2 :=
  translated_translate ..

/-- Reading an entry at posting translates its address and checks its line. -/
theorem translated_entryRead (cx : Nat) (va : Word) : Translated s (s.entryRead cx va) := by
  have hx := translated_xlateFor s cx va true false
  unfold State.entryRead
  split
  · next p t h =>
    rw [h] at hx
    exact hx.trans (translated_rdPlace ..)
  · next r t _ h =>
    rw [h] at hx
    exact hx

end Sys2Proof.Machine

end

