-- ==== Sys2Proof/Proofs/KernelCommands.lean ====
section
/-! # KRUN and KCTL.ABORT (O15) -/

namespace Sys2Proof.Machine

open Sys2Proof Sys2Proof.Claims

variable {s : State} {d a b : BitVec 5}

/-! ### The posting of a command, read and written -/

theorem wrap_natCast (n : Nat) : wrap (n : Int) = BitVec.ofNat 64 n := BitVec.ofInt_natCast ..

/-- What the model posts is the statement's command, where the state has the context in focus and its registers. -/
theorem post_eq_posted {t : State} (p : Command) (ht : Translated s t) :
    t.post s.focus p.q p.d p.kind (p.record s) p.reads p.writes p.board = posted t p := by
  have hrec : p.record t = p.record s := by
    simp only [Command.record, State.rdX, ht.focus, ht.ctx]
  simp only [posted, State.post, hrec, ht.focus, wrap_natCast]

theorem recordAt_some (r : BitVec 5) :
    recordAt s s.focus (some r) = if r = 0 then none else some (s.rdX s.focus r).toNat := rfl

/-- The record of a command whose register keeps the rules of R141 raises nothing. -/
theorem record_needs_fit {r : BitVec 5} (h : r ≠ 0 → Claims.recordAt s r 32 = true) :
    ∀ n ∈ (recordAt s s.focus (some r)).toList.map fun o => Need.record (BitVec.ofNat 64 o) 32,
      n.addr.toNat % n.align = 0 ∧ ∀ z, n.size = some z → n.addr.toNat + z ≤ (s.ctx s.focus).locBytes := by
  intro n hn
  rw [recordAt_some] at hn
  split_ifs at hn with hr
  · simp at hn
  · obtain rfl : n = Need.record (s.rdX s.focus r) 32 := by simpa using hn
    have hrec := h hr
    simp only [Claims.recordAt, Bool.and_eq_true, decide_eq_true_eq] at hrec
    obtain ⟨halign, hext⟩ := hrec
    exact ⟨halign, fun z hz => by cases hz; exact hext⟩

theorem needStop_eq_none {ns : List Need} (h : ∀ n ∈ ns, n.addr.toNat % n.align = 0 ∧
    ∀ z, n.size = some z → n.addr.toNat + z ≤ (s.ctx s.focus).locBytes) : needStop s s.focus ns = none := by
  have halign : ns.find? (fun n => n.addr.toNat % n.align ≠ 0) = none :=
    List.find?_eq_none.2 fun n hn => by simpa using (h n hn).1
  have hext : ns.find? (fun n => n.size.any fun z => decide ((s.ctx s.focus).locBytes < n.addr.toNat + z)) = none := by
    refine List.find?_eq_none.2 fun n hn => ?_
    cases hz : n.size with
    | none => simp
    | some z => simpa using (h n hn).2 z hz
  simp only [needStop, halign, hext, Option.map_none]

theorem rangesFit_of_forall {rs : List Range} (h : ∀ r ∈ rs, r.len = 0 ∨ r.lo + r.len ≤ (s.ctx s.focus).winBytes) :
    rangesFit s s.focus rs = true := by
  simpa [rangesFit, List.all_eq_true] using h

/-! ### An engine command of slot form -/

section
variable {regs : List (BitVec 5)} {r : BitVec 5} {q : Queue} {needs : Nat → State → List Need}
  {mk : Nat → State → SlotOut ⊕ Posting}

theorem engineSlot_poison (h : ∃ x ∈ r :: regs, s.tagX s.focus x = true) :
    (engineSlot d regs (some r) q needs mk).eval s.focus s = .trap 7 0 0 0 :=
  if_pos (List.any_eq_true.2 h)

variable (htag : ∀ x ∈ r :: regs, s.tagX s.focus x = false)
include htag

theorem engineSlot_needs {o : SlotOut}
    (h : needStop s s.focus (needs s.focus s ++ (recordAt s s.focus (some r)).toList.map fun o =>
      Need.record (BitVec.ofNat 64 o) 32) = some o) :
    (engineSlot d regs (some r) q needs mk).eval s.focus s = o := by
  have htag' : ((some r).toList ++ regs).any (s.tagX s.focus) = false := any_tagX_eq_false htag
  simp only [engineSlot, htag', h, Bool.false_eq_true, if_false]

variable (hneeds : ∀ n ∈ needs s.focus s, n.addr.toNat % n.align = 0 ∧
  ∀ z, n.size = some z → n.addr.toNat + z ≤ (s.ctx s.focus).locBytes) (hrec : r ≠ 0 → Claims.recordAt s r 32 = true)
include hneeds hrec

theorem engineSlot_checks {o : SlotOut} (h : mk s.focus s = .inl o) :
    (engineSlot d regs (some r) q needs mk).eval s.focus s = o := by
  have htag' : ((some r).toList ++ regs).any (s.tagX s.focus) = false := any_tagX_eq_false htag
  have hstop := needStop_eq_none (List.forall_mem_append.2 ⟨hneeds, record_needs_fit hrec⟩)
  simp only [engineSlot, htag', hstop, h, Bool.false_eq_true, if_false]

theorem engineSlot_posts {p : Posting} (h : mk s.focus s = .inr p)
    (hfit : ∀ x ∈ p.reads ++ p.writes, x.len = 0 ∨ x.lo + x.len ≤ (s.ctx s.focus).winBytes)
    (hroom : s.postBlock s.focus q p.board = none) :
    (engineSlot d regs (some r) q needs mk).eval s.focus s = .go fun t =>
      (p.left t).post s.focus q d p.kind (recordAt s s.focus (some r)) p.reads p.writes p.board := by
  have htag' : ((some r).toList ++ regs).any (s.tagX s.focus) = false := any_tagX_eq_false htag
  have hstop := needStop_eq_none (List.forall_mem_append.2 ⟨hneeds, record_needs_fit hrec⟩)
  simp only [engineSlot, htag', hstop, h, rangesFit_of_forall hfit, hroom, Bool.false_eq_true, if_false, Bool.not_true]

end

/-! ### KRUN (R150) -/

theorem needStop_misaligned {va : Word} (h : va.toNat % 8 ≠ 0) (ns : List Need) :
    needStop s s.focus (⟨va, 8, none⟩ :: ns) = some (.trap 8 0 0 va) := by
  simp [needStop, h]

/-- The command that KRUN posts with the kernel-table entry e. -/
def krunCommand (s : State) (d a b : BitVec 5) (e : Nat) : Command :=
  ⟨d, some b, [a], .krn, .krun (wrap (BitVec.ofNat 57 e).toInt) (s.ctx s.focus).binds,
    bindRanges false (s.ctx s.focus).binds, bindRanges true (s.ctx s.focus).binds, true, true⟩

section
variable {t : Tlb} {h : Bool} {q : Nat} (htag : ∀ x ∈ [b, a], s.tagX s.focus x = false)
  (halign : (s.rdX s.focus a).toNat % 8 = 0) (hrec : b ≠ 0 → Claims.recordAt s b 32 = true)
  (hrefused : (s.ctx s.focus).refused ≠ some (.krun (s.rdX s.focus a)))
  (hhit : (s.xlateFor s.focus (s.rdX s.focus a) true false).1 = .hit t)
  (hplace : s.placeOf t (s.rdX s.focus a) = (h, q))
include htag halign hrec hrefused hhit hplace

theorem krun_eval_waits (hbusy : orderedAfter s s.focus h q 8 ≠ [] ∨ s.flagPending s.focus h q 8 = true) :
    (slotKrun d a b).eval s.focus s = .wait := by
  have hwait : (!(orderedAfter s s.focus h q 8).isEmpty || s.flagPending s.focus h q 8) = true := by simpa using hbusy
  refine engineSlot_checks htag (by simp [oneAddress, halign]) hrec ?_
  simp only [hrefused, hhit, hplace, hwait, if_true, if_false]

variable (hfree : orderedAfter s s.focus h q 8 = []) (hflag : s.flagPending s.focus h q 8 = false)
  (hshut : s.shut h q 8 = false)
include hfree hflag hshut

theorem krun_eval_not_native (he : s.rdEntry t (s.rdX s.focus a) / 2 ^ 63 % 2 = 0) :
    (slotKrun d a b).eval s.focus s = .trap 10 0 0 0 := by
  refine engineSlot_checks htag (by simp [oneAddress, halign]) hrec ?_
  simp only [hrefused, hhit, hplace, hfree, hflag, hshut, he, List.isEmpty_nil, Bool.not_true, Bool.or_self, Bool.false_eq_true,
    if_true, if_false]

theorem krun_eval_posts (he : s.rdEntry t (s.rdX s.focus a) / 2 ^ 63 % 2 = 1) :
    let p := krunCommand s d a b (s.rdEntry t (s.rdX s.focus a))
    (∀ r ∈ p.reads ++ p.writes, r.len = 0 ∨ r.lo + r.len ≤ (s.ctx s.focus).winBytes) →
    s.postBlock s.focus .krn true = none →
    (slotKrun d a b).eval s.focus s = .go fun u =>
      (u.entryRead s.focus (s.rdX s.focus a)).post s.focus p.q p.d p.kind (p.record s) p.reads p.writes p.board := by
  intro p hfit hroom
  refine engineSlot_posts (p := ⟨p.kind, p.reads, p.writes, p.board, fun u => u.entryRead s.focus (s.rdX s.focus a)⟩)
    htag (by simp [oneAddress, halign]) hrec ?_ hfit hroom
  simp only [hrefused, hhit, hplace, hfree, hflag, hshut, he, List.isEmpty_nil, Bool.not_true, Bool.or_self, Bool.false_eq_true,
    if_false, one_ne_zero]
  rfl

end

/-! ### KCTL.ABORT (R153) -/

/-- The commands that KCTL.ABORT cancels. -/
def Cmd.isKrun (k : Cmd) : Bool :=
  match k.kind with
  | .krun .. => true
  | _ => false

theorem isKrun_eq_false {k : Cmd} (h : ∀ v m, k.kind ≠ .krun v m) : k.isKrun = false := by
  unfold Cmd.isKrun
  split
  · next v m hk => exact absurd hk (h v m)
  · rfl

theorem kctlAbort_eval : slotKctlAbort.eval s.focus s = .go fun t =>
    let u := ((t.ctx s.focus).posted.filter Cmd.isKrun).foldl (fun u k => u.takeKrun s.focus k) t
    let v := ((u.ctx s.focus).active.filter fun a => a.cmd.isKrun && !a.running && !a.ended).foldl
      (fun v a => v.endKrun s.focus a.cmd.num 1 0 0 0) u
    v.modCore (v.home s.focus) fun g => { g with kern := g.kern.map fun k =>
      if k.cx = s.focus then { k with abort := true } else k } := rfl

/-! ### The obligation -/

/-- Settles O15: KRUN's checks stand in their order, and it posts the entry's image with what reading it leaves. -/
theorem kernelCommands : Obligations.KernelCommands := by
  intro s d a b t va e p
  refine ⟨fun hun => ⟨fun htag => ?poison, fun ha hb => ?checked⟩, fun hun hposted hactive => ?abort⟩
  case poison =>
    refine runs_trap hun (List.Subset.refl _) (engineSlot_poison ?_)
    simpa [or_comm] using htag
  case checked =>
    have hsub : (slotKrun d a b).regs ⊆ [d, b, a] := List.Subset.refl _
    have htag : ∀ x ∈ [b, a], s.tagX s.focus x = false := by simp [ha, hb]
    refine ⟨fun hmis => runs_trap hun hsub (engineSlot_needs htag (needStop_misaligned hmis _)),
      fun halign hgood hrefused hhit => ?_⟩
    have hrec : b ≠ 0 → Claims.recordAt s b 32 = true := hgood b rfl
    obtain ⟨⟨h, q⟩, hplace⟩ : ∃ x, s.placeOf t va = x := ⟨_, rfl⟩
    rw [hplace]
    refine ⟨fun hbusy => runs_wait hun hsub (krun_eval_waits htag halign hrec hrefused hhit hplace hbusy),
      fun hfree hflag hshut => ⟨fun he => ?_, fun he hfit hroom => ?_⟩⟩
    · exact runs_trap hun hsub (krun_eval_not_native htag halign hrec hrefused hhit hplace hfree hflag hshut he)
    · exact runs_go hun hsub (krun_eval_posts htag halign hrec hrefused hhit hplace hfree hflag hshut he hfit hroom)
        (post_eq_posted p (translated_entryRead s s.focus va))
  case abort =>
    refine runs_go hun (List.nil_subset _) kctlAbort_eval ?_
    have hqueued : (s.ctx s.focus).posted.filter Cmd.isKrun = [] :=
      List.filter_eq_nil_iff.2 fun k hk => by simp [isKrun_eq_false (hposted k hk).2]
    have hstarted : ((s.ctx s.focus).active.filter fun a => a.cmd.isKrun && !a.running && !a.ended) = [] :=
      List.filter_eq_nil_iff.2 fun k hk => by
        rcases hactive k hk with hno | hrun
        · simp [isKrun_eq_false hno]
        · simp [hrun]
    simp only [hqueued, List.foldl_nil, hstarted]

end Sys2Proof.Machine

end

