-- ==== Sys2Proof/Proofs/RecordOfSpilledTask.lean ====
section
/-! # The completion record of a spilled task (O37, O47)

A record is written where the task's local memory stands: while the task is spilled, in its save area (R283). The statements
read every record in the local memory of a core. -/

namespace Sys2Proof.Machine

open Sys2Proof Sys2Proof.Claims

/-- A task that is spilled: its image stands in the save area. -/
def spilledTask : Task :=
  { id := 5, part := 0, pasid := 0, priv := false, lrec := {}, state := .spilled, count := 0, inst := none, ord := 0,
    level := 0, place := 0, since := 0, head := none, reserv := false, placed := 0, swap := 0, spillDue := false,
    movedAt := none, savedAt := some (0, 0), saveEnd := 0, succ := []
    img := some { marks := [], lines := [], locBad := [], bytes := 0, die := 0 } }

/-- The key under which the context of that task stands in the save area. -/
def spilledCx : Nat := 1024 + 5

/-- A command numbered 1 with its record at local offset 0. -/
def recordedCmd (q : Queue) (k : CmdKind) : Cmd :=
  { queue := q, num := 1, kind := k, recOff := some 0, reads := [], writes := [], board := false, ord := 0 }

/-- A command of the spilled task that has been accepted and has started. -/
def startedCmd (q : Queue) (k : CmdKind) : Active := { cmd := recordedCmd q k, ord := 0, started := true }

/-- A kernel of the spilled task that a trap holds. -/
def spilledKernel : Kernel := { cx := spilledCx, num := 1, image := 0, cause := 1 }

/-- The spilled task holds a trapped kernel, whose KRUN has not completed. -/
def heldWhileSpilled : State :=
  { ctxs := [(spilledCx, { task := 5, active := [startedCmd .krn (.krun 0 [])], heldK := [spilledKernel] })],
    hub := { tasks := [spilledTask] } }

/-- A routine of the spilled task has ended on core 0, whose local memory the task had. -/
def routineWhileSpilled : State :=
  { ctxs := [(spilledCx, { task := 5, active := [startedCmd .mat (.matrix 0 [] [] [] [] 0 false)] })],
    cores := [(0, { plane := some { cx := spilledCx, num := 1, w := 0, count := 0, ended := true } })],
    hub := { tasks := [spilledTask] } }

/-- The local memory of the core does not hold the record's command number. -/
theorem number_missing_after_kabt :
    field ((heldWhileSpilled.kabt spilledCx).rdLocal spilledCx 0 32) 24 8 ≠ 1 := by
  decide +kernel

theorem routineRetire_routineWhileSpilled : ∃ t, exec (.routineRetire 0) routineWhileSpilled = .next t ∧
    field (t.rdLocal spilledCx 0 32) 24 8 ≠ 1 :=
  ⟨_, rfl, by decide +kernel⟩

/-- No record with the number 1 stands at local offset 0 where Table 5.1 is read as the statement reads it. -/
theorem not_completed {s t : State} {q : Queue} {k : CmdKind} {st sub aux : Nat}
    (h : field (t.rdLocal spilledCx 0 32) 24 8 ≠ 1) : ¬ Completed s t spilledCx (recordedCmd q k) st sub aux := by
  rintro ⟨-, -, -, hrec⟩
  obtain ⟨-, -, -, hnum⟩ := hrec 0 rfl
  exact h hnum

theorem spilledKernel_soleKrun : SoleKrun heldWhileSpilled spilledKernel (startedCmd .krn (.krun 0 [])) := by
  refine ⟨rfl, rfl, rfl, rfl, rfl, ?_, rfl⟩
  decide

/-- Refutes O37: the KRUN of a spilled task whose held kernel is aborted has its record in the save area, and the local
memory of the core stays as it is. -/
theorem not_kernelRuns : ¬ Obligations.KernelRuns := by
  intro h
  obtain ⟨-, -, -, -, hheld⟩ := h.1 heldWhileSpilled 0 spilledCx spilledKernel (startedCmd .krn (.krun 0 []))
  obtain ⟨-, habort, -⟩ := hheld [] rfl
  obtain ⟨⟨t, ht, -, hcompleted⟩, -⟩ := habort rfl spilledKernel_soleKrun
  obtain rfl : heldWhileSpilled.kabt spilledCx = t := Host.Outcome.next.inj ht
  exact not_completed number_missing_after_kabt hcompleted

/-- Refutes O47: the matrix command of a spilled task whose routine has ended has its record in the save area, and the local
memory of the core stays as it is. -/
theorem not_matrixCommands : ¬ Obligations.MatrixCommands := by
  intro h
  obtain ⟨-, hretire, -⟩ := h routineWhileSpilled 0 spilledCx (startedCmd .mat (.matrix 0 [] [] [] [] 0 false))
  obtain ⟨hended, -⟩ := hretire _ rfl rfl
  obtain ⟨t, ht, -, hcompleted⟩ := hended rfl
  obtain ⟨u, hu, hmissing⟩ := routineRetire_routineWhileSpilled
  obtain rfl : u = t := Host.Outcome.next.inj (hu.symm.trans ht)
  exact not_completed hmissing hcompleted

end Sys2Proof.Machine

end

