-- ==== Sys2Proof/Proofs/PairLines.lean ====
section
/-! # The lines of a pair at its lock (O49)

Nothing in a state bounds the bytes that a line of a pair carries. A line with more than 128 of them, stored later, runs over
the line that follows it in memory. -/

namespace Sys2Proof.Machine

open Sys2Proof Sys2Proof.Claims

/-- An SPAIR of one pair, numbered 1, that has started. -/
def pairCmd : Active :=
  { cmd := { queue := .sst, num := 1, recOff := none, reads := [], writes := [], board := false, ord := 0
             kind := .spair { va := 0, srf := 0, srfLen := 8192, kind := 0, mty := 3, sty := 3, chained := false
                              p2z := false, ws := false, sat := false, signS := false, dims := 1, gauge := 0
                              counts := [1, 0, 0, 0], strides := [0, 0, 0] } 4096 }
    ord := 0, started := true }

/-- The place of a line, and its bytes: line 0 stands at 128 with 128 zeros, and line 1 at 0 with 129 ones. -/
def pairPlace (i : Nat) : Nat := if i = 0 then 128 else if i = 1 then 0 else 128 * i
def pairBytes (i : Nat) : List Byte :=
  if i = 0 then List.replicate 128 0 else if i = 1 then List.replicate 129 1 else []

/-- A buffered line of the pair. -/
def pairLine (i : Nat) : Req :=
  { id := i, cx := 0, op := .pair 1 0 i (pairBytes i) false, va := 0, pasid := 0, phys := pairPlace i, host := false, gen := 0
    after := [], served := some 0, due := none, data := [], dpois := false, group := none, admitted := false }

def pairLines : List Req := (List.range 64).map pairLine

/-- A pair that may lock, with one line too long. -/
def pairBuffered : State := { ctxs := [(0, { task := 1, active := [pairCmd] })], reqs := pairLines }

theorem pairReqs_pairBuffered : pairBuffered.pairReqs 0 1 0 = pairLines := by
  decide +kernel

theorem pairReady_pairBuffered : PairReady pairBuffered 0 pairCmd pairLines := by
  refine ⟨rfl, ⟨_, _, rfl⟩, rfl, rfl, pairReqs_pairBuffered, by simp [pairLines], ?_, ?_, ?_, ?_⟩
  · decide +kernel
  · decide +kernel
  · decide +kernel
  · decide +kernel

theorem byte_after_pairLock : ∃ u, exec (.pairLock 0) pairBuffered = .next u ∧ u.rdByte false 128 = 1 :=
  ⟨_, rfl, by decide +kernel⟩

/-- Refutes O49: line 1 of the pair, 129 bytes long, is stored over the first byte of line 0, which has been stored whole. -/
theorem not_pairsAndWeightStore : ¬ Obligations.PairsAndWeightStore := by
  intro h
  obtain ⟨hlock, -⟩ := h pairBuffered 0 0 0 .sst pairCmd
  obtain ⟨u, hu, -, hlines, -⟩ := hlock pairLines pairReady_pairBuffered
  obtain ⟨t, ht, hbyte⟩ := byte_after_pairLock
  obtain rfl : t = u := Host.Outcome.next.inj (ht.symm.trans hu)
  have hmem : pairLine 0 ∈ pairLines := List.mem_map_of_mem (List.mem_range.2 (by decide))
  have hread := hlines (pairLine 0) hmem 1 0 0 _ false rfl List.length_replicate
  have hzero : t.rdByte false 128 = 0 := congrArg (fun bs => bs.headD 0) hread
  exact absurd (hbyte.symm.trans hzero) (by decide)

end Sys2Proof.Machine

end

