-- ==== Sys2Proof/Proofs/ActiveCommands.lean ====
section
/-! # Accepted commands, requests and bytes: what their updates change and leave -/

namespace Sys2Proof.Machine

open Sys2Proof

variable (s : State)

/-! ### Accepted commands -/

section
variable (cx : Nat) (q : Queue) (num : Nat) (f : Active → Active)

@[simp] theorem modActive_reqs : (s.modActive cx q num f).reqs = s.reqs := rfl
@[simp] theorem modActive_core_ (g : Nat) : (s.modActive cx q num f).core g = s.core g := rfl

theorem active_modActive : ((s.modActive cx q num f).ctx cx).active =
    (s.ctx cx).active.map fun a => if a.cmd.queue = q ∧ a.cmd.num = num then f a else a := by
  rw [State.modActive, ctx_modCtx_same]

end

@[simp] theorem latch_cmd (a : Active) (run : Nat) (va : Word) : (a.latch run va).cmd = a.cmd := by
  unfold Active.latch
  split <;> rfl

@[simp] theorem advance_cmd (a : Active) (run line : Nat) (va : Word) : (a.advance run line va).cmd = a.cmd := by
  unfold Active.advance
  dsimp only
  repeat' split
  all_goals rfl

/-! ### Lines let go (R252) -/

theorem foldl_release_lines (l : List Nat) (p : Nat → Nat) (h : Nat × Nat) (c : CoreSt) :
    ∃ lines, l.foldl (fun c w => c.release (p w) h) c = { c with lines := lines } :=
  List.foldlRecOn l _ (motive := fun d : CoreSt => ∃ lines, d = { c with lines := lines }) ⟨_, rfl⟩ fun d hd w _ => by
    obtain ⟨lines, rfl⟩ := hd
    exact ⟨_, rfl⟩

@[simp] theorem letGo_reqs (cx : Nat) (q : Queue) (num : Nat) : (s.letGo cx q num).reqs = s.reqs := by
  unfold State.letGo
  split <;> rfl

theorem letGo_core (cx : Nat) (q : Queue) (num g : Nat) :
    ∃ lines, (s.letGo cx q num).core g = { s.core g with lines := lines } := by
  unfold State.letGo
  split
  · exact ⟨_, rfl⟩
  · by_cases hg : g = s.home cx
    · rw [hg]
      simp only [core_modCore_same]
      exact foldl_release_lines _ (s.winLine cx) _ _
    · simp only [core_modCore_other _ _ _ _ hg]
      exact ⟨_, rfl⟩

/-! ### Requests -/

theorem findReq_modReq (id : Nat) {f : Req → Req} (hf : ∀ r, (f r).id = r.id) :
    (s.modReq id f).findReq id = (s.findReq id).map f := by
  have hid (r : Req) : (if r.id = id then f r else r).id = r.id := by split <;> simp [hf]
  simp only [State.findReq, State.modReq, List.find?_map, Function.comp_def, hid]
  cases h : s.reqs.find? (fun r => r.id = id) with
  | none => rfl
  | some r =>
    have hr : r.id = id := of_decide_eq_true (List.find?_some h :)
    simp [hr]

/-! ### Bytes read back -/

theorem rdMem_eq_map (host : Bool) (a n : Nat) :
    s.rdMem host a n = (List.range n).map fun i => s.rdByte host (a + i) := by
  induction n generalizing a with
  | zero => rfl
  | succ n ih =>
    rw [State.rdMem, ih, List.range_succ_eq_map, List.map_cons, List.map_map]
    simp [Function.comp_def, Nat.add_assoc, Nat.add_comm 1]

theorem rdMem_wrMem_same (host : Bool) (a : Nat) (bs : List Byte) : (s.wrMem host a bs).rdMem host a bs.length = bs := by
  rw [rdMem_eq_map]
  refine List.ext_getElem (by simp) fun i hi hi' => ?_
  simp [rdByte_wrMem, hi']

/-! ### A list put in order -/

theorem mem_insBy {α : Type} (f : α → Nat) (x y : α) (l : List α) : y ∈ insBy f x l ↔ y = x ∨ y ∈ l := by
  induction l with
  | nil => simp [insBy]
  | cons z l ih =>
    simp only [insBy]
    split
    · simp
    · simp only [List.mem_cons, ih]
      tauto

theorem mem_sortBy {α : Type} (f : α → Nat) (y : α) (l : List α) : y ∈ sortBy f l ↔ y ∈ l := by
  induction l with
  | nil => simp [sortBy]
  | cons x l ih => rw [sortBy, mem_insBy, ih, List.mem_cons]

end Sys2Proof.Machine

end

