-- ==== Sys2Proof/Proofs/StoreLines.lean ====
section
/-! # What the request of a store line carries (R145, R146, R258) -/

namespace Sys2Proof.Machine

open Sys2Proof Sys2Proof.Claims

/-! ### Bytes of the SRF in order -/

theorem srfBytes_eq_map (c : CoreSt) (a n : Nat) : c.srfBytes a n = (List.range n).map fun i => c.srfByte (a + i) := by
  induction n generalizing a with
  | zero => rfl
  | succ n ih =>
    rw [CoreSt.srfBytes, ih, List.range_succ_eq_map, List.map_cons, List.map_map]
    simp [Function.comp_def, Nat.add_assoc, Nat.add_comm 1]

/-- Elements of b bytes side by side. -/
theorem flatMap_srfBytes (c : CoreSt) (p b m : Nat) :
    ((List.range m).flatMap fun i => c.srfBytes (p + i * b) b) = (List.range (m * b)).map fun j => c.srfByte (p + j) := by
  induction m with
  | zero => simp
  | succ m ih =>
    rw [List.range_succ, List.flatMap_append, ih, Nat.succ_mul, List.range_add, List.map_append, List.map_map,
      List.flatMap_singleton, srfBytes_eq_map]
    simp [Function.comp_def, Nat.add_assoc]

theorem take_drop_map_range {α : Type} (f : Nat → α) {k l n : Nat} (h : k + l ≤ n) :
    (((List.range n).map f).drop k).take l = (List.range l).map fun j => f (k + j) := by
  refine List.ext_getElem (by simp; omega) fun i hi hi' => ?_
  simp

/-! ### A row without conversion (R258) -/

theorem memBytes_pos (d : Desc) (h : d.kind = 0) : 0 < d.memBytes := by
  have hty : d.memBytes = (if d.mty < 4 then some (2 ^ d.mty) else none).getD 1 := by
    rw [Desc.memBytes, h]
    rfl
  rw [hty]
  split <;> simp

theorem srfBytes_eq_memBytes {d : Desc} (hkind : d.kind = 0) (hty : d.mty = d.sty) : d.srfBytes = d.memBytes := by
  simp [Desc.srfBytes, Desc.memBytes, hkind, hty]

/-- The elements that hold bytes lo to hi of a row, of b bytes each, begin at or before lo and end at or after hi. -/
theorem element_span {lo hi b : Nat} (hb : 0 < b) (hlt : lo < hi) :
    lo / b * b ≤ lo ∧ lo - lo / b * b + (hi - lo) ≤ ((hi - 1) / b + 1 - lo / b) * b := by
  have hlo : lo / b * b ≤ lo := Nat.div_mul_le_self lo b
  have hle : lo / b ≤ (hi - 1) / b := Nat.div_le_div_right (by omega)
  have hhi : hi - 1 < ((hi - 1) / b + 1) * b := by
    have := Nat.lt_div_mul_add hb (a := hi - 1)
    rw [Nat.add_mul, Nat.one_mul]
    exact this
  refine ⟨hlo, ?_⟩
  rw [Nat.sub_mul]
  omega

theorem storeBytes_plain (c : CoreSt) (win : Nat) {d : Desc} (row : Nat) {lo hi : Nat} (hkind : d.kind = 0)
    (hty : d.mty = d.sty) (hlt : lo < hi) : (storeBytes c win d row lo hi).1 =
      (List.range (hi - lo)).map fun j => c.srfByte (win + d.srf + row * d.rowBytes + lo + j) := by
  obtain ⟨b, hb⟩ : ∃ b, b = d.memBytes := ⟨_, rfl⟩
  obtain ⟨hlo, hspan⟩ := element_span (b := b) (hb ▸ memBytes_pos d hkind) hlt
  have hplace (i : Nat) : win + d.srf + (row * d.count 0 + lo / b + i) * b =
      win + d.srf + row * d.rowBytes + lo / b * b + i * b := by
    rw [Desc.rowBytes, ← hb, Nat.add_mul, Nat.add_mul, ← Nat.mul_assoc]
    omega
  have hconv (bs : List Byte) : (convElem d d.sty d.mty b bs).1 = bs := by simp [convElem, hkind]
  simp only [storeBytes, srfBytes_eq_memBytes hkind hty, ← hb, List.flatMap_map, hconv, hplace]
  rw [flatMap_srfBytes, take_drop_map_range _ hspan]
  refine List.map_congr_left fun j _ => congrArg c.srfByte ?_
  omega

/-! ### The request of a store line -/

variable (s : State) (cx : Nat) (a : Active) (run line : Nat)

/-- The commands of which a line may be written. -/
def storing (k : CmdKind) : Bool :=
  match k with
  | .sstore _ _ | .sscatter _ _ _ | .scopy _ => true
  | _ => false

theorem storeOp_sstore {d : Desc} {ds : List Word} (h : a.cmd.kind = .sstore d ds) :
    ∃ bad whole, (s.storeOp cx a run line).1 = .lineSt a.cmd.queue a.cmd.num run line
      (let va := a.rowVa run
       let p := lineSpan va d.rowBytes line
       let bs := (storeBytes (s.core (s.home cx)) (s.ctx cx).winBase d (run % d.runs) p.1 p.2).1
       (List.range bs.length).map fun i => ((va.toNat + p.1) % 128 + i, bs.getD i 0)) bad whole := by
  simp only [State.storeOp, h, CmdKind.desc]
  exact ⟨_, _, rfl⟩

theorem carries_storeOp (h : storing a.cmd.kind = true) : carries s cx a run line (s.storeOp cx a run line).1 := by
  unfold carries
  cases hk : a.cmd.kind
  case sstore d ds =>
    obtain ⟨bad, whole, hop⟩ := storeOp_sstore s cx a run line hk
    refine ⟨_, _, _, hop, fun hkind hty lo hi hspan hlt => ?_⟩
    simp only [hspan, storeBytes_plain _ _ _ hkind hty hlt, List.length_map, List.length_range]
    refine List.map_congr_left fun i hi => ?_
    rw [List.mem_range] at hi
    simp [hi]
  case sscatter d x o =>
    cases o with
    | none =>
      simp only [State.storeOp, hk, CmdKind.desc]
      exact ⟨_, _, _, rfl⟩
    | some o =>
      simp only [State.storeOp, hk, CmdKind.desc]
      exact ⟨_, rfl⟩
  case scopy c =>
    simp only [State.storeOp, hk]
    split
    · split <;> exact ⟨_, _, _, rfl⟩
    · exact ⟨_, _, _, rfl⟩
  all_goals rw [hk] at h; cases h

/-- What a request carries stands in the SRF of the context's core. -/
theorem carries_of_translated {s t : State} {op : ReqOp} (ht : Translated s t) (h : carries t cx a run line op) :
    carries s cx a run line op := by
  have hsrf (i : Nat) : (t.core (t.home cx)).srfByte i = (s.core (s.home cx)).srfByte i := by
    obtain ⟨tlb, hcore⟩ := ht.core (s.home cx)
    rw [ht.home, hcore]
    rfl
  unfold carries at *
  simp only [hsrf, ht.ctx] at h
  exact h

end Sys2Proof.Machine

end

