-- ==== Sys2Proof/Proofs/GeneratorTurns.lean ====
section
/-! # Turns of the address generator and failed translations (R254, R255, R314) -/

namespace Sys2Proof.Machine

open Sys2Proof Sys2Proof.Claims

variable {s t : State} {cx : Nat} {q : Queue} {a : Active} {run line : Nat} {va : Word} {w : Bool}

/-! ### The translation of a request -/

theorem translated_reach (s : State) (cx : Nat) (a : Active) (va : Word) (w : Bool) :
    Translated s (s.reach cx a va w).2 := by
  unfold State.reach
  split
  · exact .refl s
  · exact translated_xlateFor ..

theorem translated_reachAll (cx : Nat) (a : Active) (vas : List Word) (s : State) :
    Translated s (s.reachAll cx a vas).2.2 := by
  induction vas generalizing s with
  | nil => exact .refl s
  | cons va vas ih =>
    have hreach := translated_reach s cx a va true
    unfold State.reachAll
    split
    · next h =>
      rw [h] at hreach
      exact hreach.trans (ih _)
    · next h _ =>
      rw [h] at hreach
      exact hreach

theorem translated_grant (s : State) (cx : Nat) (a : Active) (run line : Nat) (va : Word) (w : Bool) :
    Translated s (s.grant cx a run line va w).2.2 := by
  have hone (t : State) := translated_reach t cx a va w
  unfold State.grant
  dsimp only
  split
  · next d ds _ =>
    split
    · have hall := translated_reachAll cx a (d.destLines (ds.getD (run / d.runs) 0)) s
      split
      · next h =>
        rw [h] at hall
        exact hall.trans (hone _)
      · exact hall
    · exact hone s
  · exact hone s

theorem grant_of_not_sstore (h : ∀ d ds, a.cmd.kind ≠ .sstore d ds) :
    s.grant cx a run line va w = ((s.reach cx a va w).1, va, (s.reach cx a va w).2) := by
  unfold State.grant
  split
  · next d ds hk => exact absurd hk (h d ds)
  · rfl

/-! ### The next request of a queue -/

theorem mayTurn_iff : s.mayTurn cx q = true ↔ MayTurn s cx q := by
  simp only [State.mayTurn, MayTurn, Bool.and_eq_true, Bool.or_eq_true, decide_eq_true_eq, Bool.not_eq_true',
    List.all_eq_true, List.contains_iff_mem, imp_iff_not_or, ← Bool.not_eq_true]

theorem queue_of_generating (h : s.generating cx q = some a) : a ∈ (s.ctx cx).active ∧ a.cmd.queue = q := by
  unfold State.generating at h
  dsimp only at h
  split at h
  · cases h
  · obtain ⟨hmem, hq⟩ := List.mem_filter.1 (List.mem_of_find?_eq_some h)
    exact ⟨hmem, of_decide_eq_true hq⟩

/-- A parked queue generates nothing (R314). -/
theorem generating_of_parked {b : Active} (hb : b ∈ (s.ctx cx).active) (hq : b.cmd.queue = q) (hp : b.parked ≠ []) :
    s.generating cx q = none :=
  if_pos (List.any_eq_true.2 ⟨b, List.mem_filter.2 ⟨hb, decide_eq_true hq⟩, decide_eq_true hp⟩)

theorem generate_of_parked {b : Active} (hb : b ∈ (s.ctx cx).active) (hq : b.cmd.queue = q) (hp : b.parked ≠ []) :
    s.generate cx q = s := by
  rw [State.generate, generating_of_parked hb hq hp]

theorem startCmd_of_started (h : a.started = true) : s.startCmd cx a = s := by
  simp [State.startCmd, h]

/-- What a turn does for a queue whose next line is a line of memory. -/
theorem generate_nextLine (h : NextLine s cx q a run line va w) :
    (4096 ≤ s.streamLoad (s.home cx) ∨ ¬ MayTurn s cx q → s.generate cx q = s) ∧
    (s.streamLoad (s.home cx) < 4096 → MayTurn s cx q → ∀ p v t, s.grant cx a run line va w = (.hit p, v, t) →
      s.generate cx q = (if (a.cmd.kind.desc.map Desc.ws).getD false then t.issueLine cx a run line va w false va.toNat 0
        else t.issueLine cx a run line va w (t.placeOf p va).1 (t.placeOf p va).2 p.size).modCore (s.home cx)
          fun c => c.noteTurn (turnKey cx q)) := by
  obtain ⟨hgen, hstarted, hwait, hnext⟩ := h
  refine ⟨fun hno => ?_, fun hload hturn p v t hgrant => ?_⟩
  · have hstop : (decide (4096 ≤ s.streamLoad (s.home cx)) || !s.mayTurn cx q) = true := by
      simpa [← mayTurn_iff] using hno
    simp only [State.generate, hgen, startCmd_of_started hstarted, hwait, hnext, hstop, Bool.false_eq_true, if_true, if_false]
  · have hgo : (decide (4096 ≤ s.streamLoad (s.home cx)) || !s.mayTurn cx q) = false := by
      simp [mayTurn_iff.2 hturn, hload]
    simp only [State.generate, hgen, startCmd_of_started hstarted, hwait, hnext, hgo, hgrant, Bool.false_eq_true, if_false]

/-- The generator's next line is the target of some row. -/
theorem target_of_gen (h : s.gen cx a = .mem run line va w) : ∃ v r k, a.target v r k = .mem run line va w := by
  unfold State.gen State.genCopy at h
  dsimp only at h
  repeat' split at h
  any_goals exact ⟨_, _, _, h⟩
  all_goals cases h

/-- A line that is written belongs to a command that stores. -/
theorem storing_of_gen (hkind : streams a.cmd.kind = true) (h : s.gen cx a = .mem run line va true) :
    storing a.cmd.kind = true := by
  obtain ⟨v, r, k, ht⟩ := target_of_gen h
  unfold Active.target at ht
  cases hk : a.cmd.kind <;> rw [hk] at hkind ht
  case sstore | sscatter | scopy => rfl
  case sload | sgather => cases ht
  all_goals cases hkind

/-! ### The request put in flight -/

/-- Only a scatter with a reduce operation sends elements to be reduced. -/
theorem sscatter_of_storeOp_reduce (hstore : storing a.cmd.kind = true) {n : Nat} {r k : Nat} {o : RedOp} {p : Queue}
    {es : List (Nat × List Byte × Bool)} (h : (t.storeOp cx a run line).1 = .reduce p n r k o es) :
    ∃ d x, a.cmd.kind = .sscatter d x (some o) := by
  have hc := carries_storeOp t cx a run line hstore
  rw [h] at hc
  unfold carries at hc
  split at hc
  · obtain ⟨_, _, _, hop, -⟩ := hc
    cases hop
  · obtain ⟨_, _, _, hop⟩ := hc
    cases hop
  · obtain ⟨_, _, _, hop⟩ := hc
    cases hop
  · next d x o' hk =>
    obtain ⟨_, hop⟩ := hc
    cases hop
    exact ⟨d, x, hk⟩
  · exact hc.elim

theorem issueLine_puts (hkind : streams a.cmd.kind = true) {host : Bool} {phys : Nat} {page : BitVec 2}
    (hstore : w = true → storing a.cmd.kind = true)
    (hhost : ∀ d x o, a.cmd.kind = .sscatter d x (some o) → host = false) :
    ∃ r row b, t.issueLine cx a run line va w host phys page =
        ((t.addReq r).modActive cx a.cmd.queue a.cmd.num fun _ => b).letGo cx a.cmd.queue a.cmd.num ∧
      (∀ v, t.row cx a run = .at_ v → row = v) ∧ r.cx = cx ∧ r.va = va ∧ r.served = none ∧ r.gen = t.now ∧
      r.ws = (a.cmd.kind.desc.map Desc.ws).getD false ∧ r.host = host ∧ r.phys = phys ∧
      r.op = if w then (t.storeOp cx (a.latch run row) run line).1 else .line a.cmd.queue a.cmd.num run line := by
  unfold State.issueLine
  extract_lets ws row a1 reduceHost
  have hcmd : (a1.advance run line row).cmd = a.cmd := (advance_cmd ..).trans (latch_cmd ..)
  have hcmd1 : a1.cmd = a.cmd := latch_cmd ..
  generalize hx : (if w = true then t.storeOp cx a1 run line else (ReqOp.line a1.cmd.queue a1.cmd.num run line, 0)) = x
  obtain ⟨op, f⟩ := x
  have hop : op = if w then (t.storeOp cx a1 run line).1 else .line a.cmd.queue a.cmd.num run line := by
    cases w <;> simp_all
  dsimp only
  split
  · next o hlost =>
    split at hlost
    · split_ifs at hlost with hred
      cases w with
      | false => cases hop
      | true =>
        obtain ⟨d, x, hk⟩ := sscatter_of_storeOp_reduce (hcmd1 ▸ hstore rfl) hop.symm
        have hdev := hhost d x _ (hcmd1 ▸ hk)
        simp [reduceHost, hdev] at hred
    · cases hlost
  · split
    · next hpair =>
      split at hpair
      · next hk =>
        rw [hcmd] at hk
        rw [hk] at hkind
        cases hkind
      · cases hpair
    · rw [hcmd]
      exact ⟨_, row, _, rfl, fun v hv => by simp only [row, hv], rfl, rfl, rfl, rfl, rfl, rfl, rfl, hop⟩

theorem row_of_translated (ht : Translated s t) : t.row cx a run = s.row cx a run := by
  have hline (p : Nat) : (t.core (s.home cx)).line p = (s.core (s.home cx)).line p := by
    obtain ⟨tlb, hcore⟩ := ht.core (s.home cx)
    rw [hcore]
    rfl
  have hword (p : Nat) : (t.core (s.home cx)).word p = (s.core (s.home cx)).word p := by
    obtain ⟨tlb, hcore⟩ := ht.core (s.home cx)
    rw [hcore]
    rfl
  simp only [State.row, State.srcReady, State.lineReady, State.winLine, ht.ctx, ht.home, hline, hword]
  rfl

/-! ### A turn taken -/

/-- A request put in flight and a turn noted: the turn is counted. -/
theorem turnCounted (ht : Translated s t) (r : Req) (b : Active) (p : Queue) (n : Nat) :
    TurnCounted s ((((t.addReq r).modActive cx p n fun _ => b).letGo cx p n).modCore (s.home cx)
      fun c => c.noteTurn (turnKey cx q)) cx q := by
  obtain ⟨lines, hlines⟩ := letGo_core ((t.addReq r).modActive cx p n fun _ => b) cx p n (s.home cx)
  obtain ⟨tlb, hcore⟩ := ht.core (s.home cx)
  simp only [TurnCounted, core_modCore_same, CoreSt.noteTurn, hlines, modActive_core_, addReq_core_, hcore,
    List.contains_iff_mem, and_self]

theorem ws_iff : (a.cmd.kind.desc.map Desc.ws).getD false = true ↔ ∃ d, a.cmd.kind.desc = some d ∧ d.ws = true := by
  cases a.cmd.kind.desc <;> simp

theorem generate_puts (hkind : streams a.cmd.kind = true) (hnext : NextLine s cx q a run line va w) (hq : a.cmd.queue = q)
    (hload : s.streamLoad (s.home cx) < 4096) (hturn : MayTurn s cx q) {p : Tlb} {v : Word}
    (hgrant : s.grant cx a run line va w = (.hit p, v, t))
    (hdev : ∀ d x o, a.cmd.kind = .sscatter d x (some o) → (t.placeOf p va).1 = false) :
    let ws := ∃ d, a.cmd.kind.desc = some d ∧ d.ws = true
    ∃ r, TurnCounted s (s.generate cx q) cx q ∧ (s.generate cx q).reqs = t.reqs ++ [r] ∧ r.cx = cx ∧ r.va = va ∧
      r.served = none ∧ r.gen = s.now ∧ (r.ws = true ↔ ws) ∧ (ws → (r.host, r.phys) = (false, va.toNat)) ∧
      (¬ ws → (r.host, r.phys) = t.placeOf p va) ∧ (w = false → r.op = .line q a.cmd.num run line) ∧
      (w = true → ∀ row, s.row cx a run = .at_ row → carries s cx (a.latch run row) run line r.op) := by
  intro ws
  have ht : Translated s t := by
    have h := translated_grant s cx a run line va w
    rwa [hgrant] at h
  have hstore (hw : w = true) : storing a.cmd.kind = true := storing_of_gen hkind (hw ▸ hnext.2.2.2)
  have hput := (generate_nextLine hnext).2 hload hturn p v t hgrant
  obtain ⟨host, phys, page, hissue, hplace, hdev'⟩ : ∃ host phys page,
      s.generate cx q = (t.issueLine cx a run line va w host phys page).modCore (s.home cx)
        (fun c => c.noteTurn (turnKey cx q)) ∧
      ((ws → (host, phys) = (false, va.toNat)) ∧ (¬ ws → (host, phys) = t.placeOf p va)) ∧
      ∀ d x o, a.cmd.kind = .sscatter d x (some o) → host = false := by
    by_cases hws : (a.cmd.kind.desc.map Desc.ws).getD false = true
    · rw [if_pos hws] at hput
      exact ⟨_, _, _, hput, ⟨fun _ => rfl, fun h => absurd (ws_iff.1 hws) h⟩, fun _ _ _ _ => rfl⟩
    · rw [if_neg hws] at hput
      exact ⟨_, _, _, hput, ⟨fun h => absurd (ws_iff.2 h) hws, fun _ => rfl⟩, hdev⟩
  obtain ⟨r, row, b, hline, hrow, hcx, hva, hserved, hgen, hws, hhost, hphys, hop⟩ :=
    issueLine_puts (t := t) (page := page) (phys := phys) hkind hstore hdev'
  rw [hissue, hline]
  refine ⟨{ r with id := t.nextReq }, turnCounted ht r b _ _, by simp, hcx, hva, hserved, hgen.trans ht.now, ?_, ?_, ?_, ?_, ?_⟩
  · show r.ws = true ↔ ws
    rw [hws]
    exact ws_iff
  · rw [← hhost, ← hphys] at hplace
    exact hplace.1
  · rw [← hhost, ← hphys] at hplace
    exact hplace.2
  · rintro rfl
    rw [← hq]
    exact hop
  · rintro rfl v hv
    obtain rfl : row = v := hrow v ((row_of_translated ht).trans hv)
    refine carries_of_translated _ _ _ _ ht (?_ : carries t cx _ run line r.op)
    rw [hop]
    exact carries_storeOp t cx _ run line ((latch_cmd a run row).symm ▸ hstore rfl)

/-! ### A translation that fails (R314) -/

/-- A command past a line whose request is parked under a fault entry: what is staged stays. -/
def parkedAt (run line : Nat) (row : Word) (id : Nat) (b : Active) : Active :=
  { (b.latch run row).advance run line row with stage := b.stage, parked := b.parked ++ [id] }

/-- The commands whose rows are one segment each. -/
def oneSegment (k : CmdKind) : Prop := ∃ d, k = .sload d ∨ ∃ x, k = .sgather d x ∨ ∃ o, k = .sscatter d x o

/-- The address of a row, 0 where it is not known. -/
def rowAddress : Row → Word
  | .at_ v => v
  | _ => 0

/-- The commands whose lines are reduced. -/
def reducing : CmdKind → Bool
  | .sscatter _ _ (some _) => true
  | _ => false

/-- The entry of a failed translation of a stream command (Table 16.2). -/
def streamFault (s : State) (cx : Nat) (q : Queue) (a : Active) (run line : Nat) (va : Word) (w : Bool) (sub : Nat) :
    FaultEntry :=
  { faultBase (dieOf (s.home cx)) va 5 sub (qcode q + 1) 0 (.engine cx q a.cmd.num run line) with
    read := !w, write := w, atomic := reducing a.cmd.kind }

theorem exec_engineTranslationFault (hkind : oneSegment a.cmd.kind) (hnext : NextLine s cx q a run line va w) {sub : Nat}
    (hreach : s.reach cx a va w = (.fault sub, t)) :
    exec (.engineTranslationFault cx q) s = .next (if !t.faultRoom (dieOf (s.home cx)) then s
      else (t.addFault (some cx) (streamFault s cx q a run line va w sub)).modActive cx q a.cmd.num
        (parkedAt run line (rowAddress (s.row cx a run)) t.nextFlt)) := by
  obtain ⟨hgen, hstarted, hwait, hmem⟩ := hnext
  have hhome : t.home cx = s.home cx := by
    have h := translated_reach s cx a va w
    rw [hreach] at h
    exact h.home cx
  have hgrant : s.grant cx a run line va w = (.fault sub, va, t) := by
    rw [grant_of_not_sstore, hreach]
    intro d ds hk
    obtain ⟨_, h | ⟨_, h | ⟨_, h⟩⟩⟩ := hkind <;> rw [h] at hk <;> cases hk
  have hstart : (!a.started || s.mustWait cx a.cmd) = false := by simp [hstarted, hwait]
  refine congrArg Host.Outcome.next ?_
  rw [hgen]
  dsimp only
  rw [hstart, if_neg Bool.false_ne_true, hmem]
  dsimp only
  rw [hgrant]
  dsimp only
  rw [hhome, streamFault]
  obtain ⟨_, h | ⟨_, h | ⟨_, h⟩⟩⟩ := hkind <;> rw [h] <;> rfl

theorem active_addFault (s : State) (cx : Nat) (e : FaultEntry) :
    ((s.addFault (some cx) e).ctx cx).active = (s.ctx cx).active :=
  (congrArg Ctx.active (ctx_modCtx_same s cx fun c => { c with seqs := smPut 0 c.seqs e.engine _ }) :)

/-- A failed translation with room in the fault queue parks its queue. -/
theorem parks_of_translationFault (ht : Translated s t) (hgen : s.generating cx q = some a) (e : FaultEntry) (row : Word) :
    ∃ b, b ∈ (((t.addFault (some cx) e).modActive cx q a.cmd.num (parkedAt run line row t.nextFlt)).ctx cx).active ∧
      b.cmd = a.cmd ∧ t.nextFlt ∈ b.parked := by
  obtain ⟨hmem, hq⟩ := queue_of_generating hgen
  refine ⟨parkedAt run line row t.nextFlt a, ?_, by simp [parkedAt], by simp [parkedAt]⟩
  rw [active_modActive, active_addFault, ht.ctx]
  exact List.mem_map.2 ⟨a, hmem, if_pos ⟨hq, rfl⟩⟩

end Sys2Proof.Machine

end

