-- ==== Sys2Proof/Proofs/StreamRequests.lean ====
section
/-! # Answered entries, lines that are due, and O48 (R263, R302, R314) -/

namespace Sys2Proof.Machine

open Sys2Proof Sys2Proof.Claims

variable {s : State} {cx : Nat} {q : Queue} {a : Active}

/-! ### A parked queue resumes (R314) -/

section
variable (hact : (s.ctx cx).active = [a]) (hq : a.cmd.queue = q) (hp : a.parked ≠ [])
include hact hq hp

theorem find_parked : (s.ctx cx).active.find? (fun b => b.cmd.queue = q && b.parked ≠ []) = some a := by
  simp [hact, hq, hp]

theorem queueResume_of_unanswered (h : ∃ e ∈ s.parkedOn a, e.answer = none) : exec (.queueResume cx q) s = .next s := by
  obtain ⟨e, he, hnone⟩ := h
  have hany : (sortBy FaultEntry.seq (s.parkedOn a)).any (fun e => e.answer.isNone) = true :=
    List.any_eq_true.2 ⟨e, (mem_sortBy ..).2 he, by simp [hnone]⟩
  have hexec : exec (.queueResume cx q) s = execQueueResume cx q s := rfl
  simp only [hexec, execQueueResume, find_parked hact hq hp, hany, if_true]

variable {run line : Nat} {e : FaultEntry} (he : s.parkedOn a = [e]) (hwho : e.who = .engine cx q a.cmd.num run line)
include he hwho

/-- After a success the request is made again (R314). -/
theorem queueResume_of_success (hans : e.answer = some true) (hpair : ∀ d x, a.cmd.kind ≠ .spair d x) :
    exec (.queueResume cx q) s = .next ({ s with faults := s.faults.filter fun f => !a.parked.contains f.id }.modActive
      cx q a.cmd.num fun _ => { a with parked := [], redo := a.redo ++ [(run, line, e.seq)] }) := by
  have hexec : exec (.queueResume cx q) s = execQueueResume cx q s := rfl
  simp only [hexec, execQueueResume, find_parked hact hq hp, he, sortBy, insBy, List.any_cons, List.any_nil, hans,
    List.foldl_cons, List.foldl_nil, hwho, Option.isNone_some, Bool.or_false, Bool.false_eq_true, if_false, if_true]

/-- After an invalid answer the unit fails (R314, Table 5.3). -/
theorem queueResume_of_invalid (hans : e.answer = some false) (hfail : a.fail = none)
    (hpair : ∀ d x, a.cmd.kind ≠ .spair d x) :
    exec (.queueResume cx q) s = .next ({ s with faults := s.faults.filter fun f => !a.parked.contains f.id }.modActive
      cx q a.cmd.num fun _ => { a with
        parked := [], units := (a.unitOf run line e.va).1
        fail := some (2, if e.write then 1 else 0, (a.unitOf run line e.va).2) }) := by
  have hexec : exec (.queueResume cx q) s = execQueueResume cx q s := rfl
  simp only [hexec, execQueueResume, find_parked hact hq hp, he, sortBy, insBy, List.any_cons, List.any_nil, hans,
    List.foldl_cons, List.foldl_nil, hwho, Option.isNone_some, Bool.or_false, Bool.false_eq_true, if_false,
    Active.failAt, hfail, Option.isNone_none, Bool.true_or, if_true, Option.some.injEq]
  rfl

end

theorem active_modActive_only (hact : (s.ctx cx).active = [a]) (hq : a.cmd.queue = q) (fs : List FaultEntry) (b : Active) :
    (({ s with faults := fs }.modActive cx q a.cmd.num fun _ => b).ctx cx).active = [b] := by
  rw [active_modActive]
  change (s.ctx cx).active.map _ = _
  simp [hact, hq]

/-! ### Lines and stores that are due (R263) -/

theorem lineWrite_of_served {r : Req} {n run ln : Nat} (hfind : s.findReq r.id = some r) (hop : r.op = .line q n run ln)
    (hserved : r.served.isSome = true) : exec (.lineWrite r.id) s =
      .next (if s.mayComplete r then (stagedLine s r q n run ln).pump r.cx q n else s) := by
  have hreceive : s.receive r = (stagedLine s r q n run ln).pump r.cx q n := by
    unfold State.receive
    rw [hop]
    rfl
  have hexec : exec (.lineWrite r.id) s = .next (lineWrite s r.id) := rfl
  simp only [hexec, lineWrite, hfind, hop, hserved, if_true, hreceive]

section
variable {r : Req} {n run ln : Nat} {bs : List (Nat × Byte)} {bad whole : Bool} (hfind : s.findReq r.id = some r)
  (hop : r.op = .lineSt q n run ln bs bad whole)
include hfind hop

theorem storeAcknowledge_of_served (hserved : r.served.isSome = true) (hmay : s.mayComplete r = true) :
    exec (.storeAcknowledge r.id) s = .next (s.dropReq r.id) := by
  have hexec : exec (.storeAcknowledge r.id) s = .next (storeAck s r.id) := rfl
  simp only [hexec, storeAck, hfind, hop, hserved, hmay, if_true]

/-- A store to host memory takes effect and is acknowledged at once. -/
theorem storeAcknowledge_of_host (hserved : r.served = none) (hws : r.ws = false) (hhost : r.host = true)
    (hmay : s.mayPerform r = true) (hbad : bad = false) (hwhole : whole = false) :
    exec (.storeAcknowledge r.id) s = .next ((s.storeAt true r.phys bs).dropReq r.id) := by
  have haway : (s.away r && s.mayAnswer r) = true := by simp [State.away, State.mayAnswer, State.remote, hhost, hmay]
  have hperf : (s.performReq r).1 = s.storeAt true r.phys bs := by
    simp [State.performReq, hop, hhost, hbad, hwhole]
  have hexec : exec (.storeAcknowledge r.id) s = .next (storeAck s r.id) := rfl
  have hgo : (!r.ws && s.away r && s.mayAnswer r) = true := by rw [hws, Bool.not_false, Bool.true_and, haway]
  simp only [hexec, storeAck, hfind, hop, hserved, hgo, Option.isSome_none, Bool.false_eq_true, if_false, if_true, hperf]

end

/-! ### An element reduced in host memory (R302) -/

theorem reduceElem_of_clean (host : Bool) (p : Nat) (op : RedOp) {e : Nat × List Byte × Bool} (h : e.2.2 = false) :
    s.reduceElem host p op e = (s.wrMem host (p + e.1) (redApply op (s.rdMem host (p + e.1) e.2.1.length) e.2.1).1,
      (redApply op (s.rdMem host (p + e.1) e.2.1.length) e.2.1).2) := by
  unfold State.reduceElem
  dsimp only
  rw [if_neg (by simp [h])]

@[simp] theorem rdMem_modReq (id : Nat) (f : Req → Req) (host : Bool) (p n : Nat) :
    (s.modReq id f).rdMem host p n = s.rdMem host p n := by
  simp only [rdMem_eq_map]
  rfl

@[simp] theorem rdMem_modActive (num : Nat) (f : Active → Active) (host : Bool) (p n : Nat) :
    (s.modActive cx q num f).rdMem host p n = s.rdMem host p n := by
  simp only [rdMem_eq_map]
  rfl

theorem findReq_wrMem (host : Bool) (p : Nat) (bs : List Byte) (id : Nat) :
    (s.wrMem host p bs).findReq id = s.findReq id := by
  cases host <;> rfl

/-- The element is applied to its bytes, and the request goes on with the others. -/
theorem reductionElement_applies {r : Req} {n run ln : Nat} {op : RedOp} {e : Nat × List Byte × Bool}
    {es : List (Nat × List Byte × Bool)} (hfind : s.findReq r.id = some r) (hop : r.op = .reduce q n run ln op (e :: es))
    (hserved : r.served = none) (hhost : r.host = true) (hmay : s.mayPerform r = true) (hclean : e.2.2 = false) :
    let new := redApply op (s.rdMem true (r.phys + e.1) e.2.1.length) e.2.1
    e.2.1.length = new.1.length → ∃ u, exec (.reductionElement r.id) s = .next u ∧
      u.rdMem true (r.phys + e.1) e.2.1.length = new.1 ∧
      u.findReq r.id = some { r with op := .reduce q n run ln op es } := by
  intro new hlen
  have hexec : exec (.reductionElement r.id) s = .next (((s.wrMem true (r.phys + e.1) new.1).modReq r.id fun x =>
      { x with op := .reduce q n run ln op es }).modActive r.cx q n fun b => { b with flags := b.flags ||| new.2 }) := by
    have hdef : exec (.reductionElement r.id) s = execReductionElement r.id s := rfl
    simp only [hdef, execReductionElement, hfind, hop, hserved, hhost, hmay, Option.isNone_none, Bool.and_self, if_true,
      reduceElem_of_clean true r.phys op hclean, new]
  refine ⟨_, hexec, ?_, ?_⟩
  · rw [rdMem_modActive, rdMem_modReq, hlen, rdMem_wrMem_same]
  · change State.findReq (State.modReq _ _ _) _ = _
    rw [findReq_modReq _ r.id (f := fun x => { x with op := .reduce q n run ln op es }) fun _ => rfl, findReq_wrMem, hfind]
    rfl

/-! ### A failed translation parks its queue (R314) -/

theorem engineTranslationFault_parks {t : State} {w : Bool} {va : Word} {run line sub : Nat} (hkind : oneSegment a.cmd.kind)
    (hnext : NextLine s cx q a run line va w) (hreach : s.reach cx a va w = (.fault sub, t))
    (hroom : t.faultRoom (dieOf (s.home cx)) = true) :
    ∃ u e b, exec (.engineTranslationFault cx q) s = .next u ∧ u.faults = t.faults ++ [e] ∧
      e.va = va ∧ e.sub = sub ∧ e.engine = qcode q + 1 ∧ e.read = !w ∧ e.write = w ∧ e.info = false ∧
      e.answer = none ∧ b ∈ (u.ctx cx).active ∧ b.cmd = a.cmd ∧ e.id ∈ b.parked ∧
      exec (.requestGeneration cx q) u = .next u := by
  have ht : Translated s t := by
    have h := translated_reach s cx a va w
    rwa [hreach] at h
  obtain ⟨b, hb, hcmd, hparked⟩ := parks_of_translationFault (run := run) (line := line) ht hnext.1
    (streamFault s cx q a run line va w sub) (rowAddress (s.row cx a run))
  have hexec := exec_engineTranslationFault hkind hnext hreach
  rw [hroom, Bool.not_true, if_neg Bool.false_ne_true] at hexec
  have hq : b.cmd.queue = q := hcmd ▸ (queue_of_generating hnext.1).2
  exact ⟨_, _, b, hexec, rfl, rfl, rfl, rfl, rfl, rfl, rfl, rfl, hb, hcmd, hparked,
    congrArg Host.Outcome.next (generate_of_parked hb hq (List.ne_nil_of_mem hparked))⟩

/-- Settles O48: a turn's request is the one that the generator's next line asks for; a failed translation, an answer, a
due line or store and a host reduction's element each change what one lemma above says. -/
theorem streamRequests : Obligations.StreamRequests := by
  unfold Obligations.StreamRequests
  intro s cx q a run line va
  refine ⟨fun w hkind hnext hq => ⟨fun h => ?_, fun hload hturn p v t hgrant hdev => ?_⟩,
    fun w d sub t hkind hnext hreach => ⟨fun hroom => ?_, fun hroom => ?_⟩,
    fun hact hq hp => ⟨queueResume_of_unanswered hact hq hp, fun e he hwho => ⟨fun hans hpair => ?_, fun hans hfail hkind => ?_⟩⟩,
    fun r n ln hfind hop hserved => ⟨fun hmay => ?_, fun hmay => ?_⟩,
    fun r n ln bs bad whole hfind hop => ⟨storeAcknowledge_of_served hfind hop, storeAcknowledge_of_host hfind hop⟩,
    fun r n ln op e es hfind hop hserved hhost hmay hclean => reductionElement_applies hfind hop hserved hhost hmay hclean⟩
  · exact congrArg Host.Outcome.next ((generate_nextLine hnext).1 h)
  · obtain ⟨r, hr⟩ := generate_puts hkind hnext hq hload hturn hgrant hdev
    exact ⟨_, r, rfl, hr⟩
  · rw [exec_engineTranslationFault ⟨d, hkind⟩ hnext hreach, hroom]
    rfl
  · exact engineTranslationFault_parks ⟨d, hkind⟩ hnext hreach hroom
  · exact ⟨_, queueResume_of_success hact hq hp he hwho hans hpair, active_modActive_only hact hq _ _, rfl⟩
  · have hpair : ∀ d x, a.cmd.kind ≠ .spair d x := by
      intro d x h
      obtain ⟨_, hk | ⟨_, hk⟩⟩ := hkind <;> rw [h] at hk <;> cases hk
    exact ⟨_, queueResume_of_invalid hact hq hp he hwho hans hfail hpair, active_modActive_only hact hq _ _⟩
  · rw [lineWrite_of_served hfind hop hserved, if_pos hmay]
  · rw [lineWrite_of_served hfind hop hserved, if_neg (by simp [hmay])]

end Sys2Proof.Machine

end
